-- ==== Sys2Proof/Word.lean ====
section
/-! DEFINITION. The words of the machine and their plainest arithmetic. -/

namespace Sys2Proof

/-- A general register, an address as computed, a control register (R203). -/
abbrev Word := BitVec 64

/-- One plane of a vector register: bit `i` belongs to element `i` (R6). -/
abbrev Plane := BitVec 16384

/-- A tile-mask register (R77). -/
abbrev TileMask := BitVec 256

/-- The plane length VLMAX of Z9 (R2). -/
abbrev vlmax : Nat := 16384

/-- `n` bits of `w` from bit `lo` up, read unsigned (R6). -/
def field (w lo n : Nat) : Nat := w / 2 ^ lo % 2 ^ n

/-- The value of the `n`-bit field `x` read in two's complement (R185). -/
def signExtend (x n : Nat) : Int := if x % 2 ^ n < 2 ^ (n - 1) then (x % 2 ^ n : Nat) else (x % 2 ^ n : Nat) - (2 ^ n : Nat)

end Sys2Proof
end

