-- ==== Sys2Proof/Config.lean ====
section
/-! DEFINITION. What an implementation fixes, and the free values: constants without a body, of which nothing can be proved but
that they are the same for the same arguments. -/

namespace Sys2Proof.Config

/-- A value the spec leaves open, drawn with the counter State.free (log entry 5). -/
opaque freeNat : Nat → Nat

/-- The order in which VSCATTER.UNO performs its elements: the position in the remaining list of the element to perform
next, by draw (R119; log entry 5). -/
opaque scatterPick : Nat → Nat

/-- Which of the 64 held patch values a further read replaces (R186; log entry 5). -/
opaque patchVictim : Nat → Nat

/-- Which of a core's free planes a rename takes next: a position in the list of them (R172; log entry 81). -/
opaque pickPlane : List Nat → Nat

/-- The SHA3-512 digest of some bytes (R370); the function itself is not part of the spec (log entry 8). -/
opaque digest : List (BitVec 8) → List (BitVec 8)

/-- Whether an image's ML-DSA-87 signature passes against the fused key (R370; log entry 8). -/
opaque signatureOk : List (BitVec 8) → Bool

/-- Where in an image its 16-bit security version stands is not stated: the version as a function of the image (R370; log entry 8). -/
opaque imageVersion : List (BitVec 8) → BitVec 16

/-- The answer of the SPDM responder to a request, by request code, request bytes and the four measurement blocks (R371; log entry 8). -/
opaque spdmAnswer : Nat → List (BitVec 8) → List (List (BitVec 8)) → List (BitVec 8)

/-- Where a Calico routine reads next for a chunk, as an offset from SRC and the logarithm of how many bytes, or that it has read all it needs: by the routine image, the four command
words with SEED and SBASE, the chunk's number, and what it has read (R132, R311; log entry 9). -/
opaque calicoNext : List (BitVec 8) → List Word → Nat → List Nat → Option (Nat × Nat)

/-- What a Calico routine writes for one unit, by the image, the words, what it has read and the unit's position in the transfer (R132, R311; log entry 9). -/
opaque calicoUnit : List (BitVec 8) → List Word → List Nat → Nat → Nat

/-- The scale that a Calico routine writes for one block, by the same (log entry 9). -/
opaque calicoScale : List (BitVec 8) → List Word → List Nat → Nat → Nat

/-- The flags that a Calico routine raises on a chunk, by the image, the words, what it has read and the chunk's number (log entry 9). -/
opaque calicoFlags : List (BitVec 8) → List Word → List Nat → Nat → Nat

/-- The plane stride of a Calico routine's plane-major destination, in words of 8 bytes (R309; log entry 9). -/
opaque calicoStride : List (BitVec 8) → List Word → Nat

/-- Whether a Calico routine faults on a chunk (R132; log entry 9). -/
opaque calicoFaults : List (BitVec 8) → List Word → List Nat → Nat → Bool

/-- The answer to a read of the CDAT object, by the request: the spec lists the object and not what it holds (R365; log entry 93). -/
opaque cdatAnswer : List (BitVec 8) → List (BitVec 8)

/-- The digest of the boot ROM, measurement block 1 (R371; log entry 8). -/
opaque romDigest : List (BitVec 8)

/-- Lane groups that calibration leaves out of a core's map, by mesh index and group (R378; log entry 10). -/
opaque groupPasses : Nat → Nat → Bool

/-- The contents of a shadow slot as its check code is taken over them: the spec lays out the header and the units, not the remainder (R145, R146, R405; log entry 87). -/
opaque slotBytes : Nat → List (BitVec 8)

/-- A byte of a saved frame that the spec leaves without a layout: by draw and offset (R351; log entry 38). -/
opaque frameByte : Nat → Nat → BitVec 8

/-- A byte of the 8 in which a core frame holds the reservation of a slot of the landing buffer: by who reserves it, with nothing for a free slot, and the byte's number (R351; log entry 38). -/
opaque reservationByte : List Nat → Nat → BitVec 8

/-- A byte of the block in which a strand frame holds the loop buffer, the loops, the stream slots, the latches held, the barrier epoch and the restart point: by what they hold, and the byte's
number (R351; log entry 38). -/
opaque strandByte : List (List Nat) → Nat → BitVec 8

/-- How a poison trap codes a register's class (0 v, 1 m, 2 acc) and number in TREC0: the spec names the content and gives no layout (R335; log entry 11). -/
opaque poisonRegister : Nat → Nat → Nat

/-- The cell index that a poison trap reports for a row and a column of a tile: the spec names no numbering (R335; log entry 11). -/
opaque poisonCell : Nat → Nat → Nat

/-- The silicon step that feature word 0 reports, as shipped (R219; log entry 11). -/
opaque siliconStep : Nat

/-- A quotient by a scale that rounded to zero, which the spec gives no value (R72, R264): what it is (0 NaN, 1 and 2 the infinities, else finite), and a numerator
and a denominator less 1, by the dividend's (log entry 12). -/
opaque zeroQuotient : Int → Nat → Nat × Int × Nat

/-- The zero point of R73 when the scale rounded to zero, by the fraction of the least value; it is clamped like any other (log entry 12). -/
opaque zeroScalePoint : Int → Nat → Nat

/-- The zero point of a slot whose scale is NaN, by slot: R263 gives the scale alone (log entry 12). -/
opaque nanPoint : Nat → Nat

end Sys2Proof.Config
end

