-- ==== Sys2Proof/Machine/Bits.lean ====
section
/-! DEFINITION. Bit fields of words, byte order and the integers that words stand for (R6, R203). -/

namespace Sys2Proof.Machine

/-- `n` bits of `w` from bit `lo` up, as a number. -/
def fld (w : Word) (lo n : Nat) : Nat := field w.toNat lo n

/-- Bit `i` of `w`. -/
def bit (w : Word) (i : Nat) : Bool := fld w i 1 == 1

/-- `w` with its `n` bits from bit `lo` up set to `x`. -/
def setFld (w : Word) (lo n x : Nat) : Word :=
  BitVec.ofNat 64 (w.toNat - fld w lo n * 2 ^ lo + x % 2 ^ n * 2 ^ lo)

/-- `w` with bit `i` set to `b`. -/
def setBit (w : Word) (i : Nat) (b : Bool) : Word := setFld w i 1 b.toNat

/-- A number as a word, modulo 2^64. -/
def wd (n : Nat) : Word := BitVec.ofNat 64 n

/-- The sign-extended value of an `n`-bit field as a word (R185). -/
def sx (x n : Nat) : Word := BitVec.ofInt 64 (signExtend x n)

/-- The bytes of a number, least significant first (R6). -/
def bytesOf : Nat → Nat → List (BitVec 8)
  | 0, _ => []
  | n + 1, x => BitVec.ofNat 8 x :: bytesOf n (x / 256)

/-- The number that bytes stand for, least significant first (R6). -/
def natOf : List (BitVec 8) → Nat
  | [] => 0
  | b :: bs => b.toNat + 256 * natOf bs

/-- Whether some of the bits a mask names are set in a word. -/
def anySet (w : Word) (mask : Nat) : Bool := w &&& BitVec.ofNat 64 mask != 0

/-- The mask of the bits from `lo` to `hi`. -/
def bitsMask (hi lo : Nat) : Nat := 2 ^ (hi + 1) - 2 ^ lo

/-- The least number of units of `d` that hold `n`. -/
def ceilDiv (n d : Nat) : Nat := (n + d - 1) / d

/-- An integer held within bounds. -/
def clampInt (x lo hi : Int) : Int := if x < lo then lo else if hi < x then hi else x

/-- How many bits of the lowest `n` of `x` are set. -/
def popcount : Nat → Nat → Nat
  | 0, _ => 0
  | n + 1, x => x % 2 + popcount n (x / 2)

/-- An element put into a list behind those it does not come before. -/
def insertBy {α : Type} (before : α → α → Bool) (x : α) : List α → List α
  | [] => [x]
  | y :: t => if before x y then x :: y :: t else y :: insertBy before x t

/-- A list in the order that `before` gives; equals keep their order. -/
def sortBy {α : Type} (before : α → α → Bool) : List α → List α
  | [] => []
  | x :: t => insertBy (fun a b => !before b a) x (sortBy before t)

/-- A list with one of each of its elements, the first one. -/
def distinct : List Nat → List Nat
  | [] => []
  | x :: t => x :: (distinct t).filter fun y => y != x

/-- A list cut into pieces of `k` elements, `n` of them at most. -/
def chunksOf {α : Type} (k : Nat) : Nat → List α → List (List α)
  | 0, _ => []
  | _, [] => []
  | n + 1, xs => xs.take k :: chunksOf k n (xs.drop k)

/-- The element of a list with an index, and the others in order. -/
def takeAt {α : Type} : Nat → List α → Option (α × List α)
  | _, [] => none
  | 0, x :: t => some (x, t)
  | n + 1, x :: t => (takeAt n t).map fun p => (p.1, x :: p.2)

end Sys2Proof.Machine
end

