-- ==== Sys2Proof/Machine/Numbers.lean ====
section
/-! DEFINITION. Element kinds and the one path by which a value becomes a code: Decode, RoundTo, Encode (R49 to R73). Exact values are
fractions of integers, so nothing is rounded before R68 says so. -/

namespace Sys2Proof.Machine

/-- An element kind (R50). -/
inductive Kind where
  | s (n : Nat) | n (n : Nat) | e2m1 | e2m3 | e3m2 | e4m3 | e5m2 | mk8 | bf16 | fp32
deriving DecidableEq, Repr

/-- The kind a legal tag names (R49, R50). -/
def kindOf (tag : BitVec 16) : Kind :=
  match field tag.toNat 4 4 with
  | 0 => .s (field tag.toNat 0 4 + 1)
  | 1 => .n (field tag.toNat 0 4 + 1)
  | 2 => .e2m1
  | 3 => .e2m3
  | 4 => .e3m2
  | 5 => .e4m3
  | 6 => .e5m2
  | 7 => .mk8
  | 8 => .bf16
  | _ => .fp32

/-- The width of a kind in planes (R50). -/
def Kind.width : Kind → Nat
  | .s k => k
  | .n k => k
  | .e2m1 => 4
  | .e2m3 => 6
  | .e3m2 => 6
  | .e4m3 => 8
  | .e5m2 => 8
  | .mk8 => 8
  | .bf16 => 16
  | .fp32 => 32

/-- The block length a tag names, 0 for none (R49). -/
def blockLen (tag : BitVec 16) : Nat :=
  match field tag.toNat 8 2 with
  | 0 => 0
  | 1 => 8
  | 2 => 16
  | _ => 32

/-- Whether a tag is illegal (R51). -/
def tagIllegal (tag : BitVec 16) : Bool :=
  let k := field tag.toNat 4 4
  field tag.toNat 10 6 != 0 || k ≥ 10 || (k ≥ 2 && field tag.toNat 0 4 != 0) ||
    (field tag.toNat 8 2 != 0 && (k == 1 || k ≥ 7))

/-- The width of a register with a tag. -/
def tagWidth (tag : BitVec 16) : Nat := (kindOf tag).width

/-- An exact value: NaN, an infinity, or a fraction; `nz` marks the zero that is negative (R69). -/
inductive XVal where
  | nan
  | inf (neg : Bool)
  | fin (num : Int) (den : Nat) (nz : Bool)
deriving DecidableEq, Repr

/-- The value of an integer. -/
def XVal.ofInt (i : Int) : XVal := .fin i 1 false

/-- A fraction times a power of two. -/
def scale2 (num : Int) (den : Nat) (e : Int) : Int × Nat :=
  if 0 ≤ e then (num * 2 ^ e.toNat, den) else (num, den * 2 ^ (-e).toNat)

/-- A value times a power of two. -/
def XVal.shift (x : XVal) (e : Int) : XVal :=
  match x with
  | .fin n d z => let p := scale2 n d e; .fin p.1 p.2 z
  | other => other

/-- The sign of a value; a NaN has none. -/
def XVal.neg? : XVal → Bool
  | .nan => false
  | .inf s => s
  | .fin n _ z => decide (n < 0) || z

/-- The negative of a value. -/
def XVal.negate : XVal → XVal
  | .nan => .nan
  | .inf s => .inf !s
  | .fin n d z => .fin (-n) d (decide (n = 0) && !z)

/-- The magnitude of a value. -/
def XVal.abs : XVal → XVal
  | .nan => .nan
  | .inf _ => .inf false
  | .fin n d _ => .fin n.natAbs d false

/-- Whether a value is zero. -/
def XVal.isZero : XVal → Bool
  | .fin n _ _ => decide (n = 0)
  | _ => false

/-- Whether a value is a NaN. -/
def XVal.isNan : XVal → Bool
  | .nan => true
  | _ => false

/-- Whether a value is finite. -/
def XVal.isFin : XVal → Bool
  | .fin _ _ _ => true
  | _ => false

/-- `x < y` for values that are not NaN; the zeros compare equal (R55). -/
def XVal.lt : XVal → XVal → Bool
  | .fin a b _, .fin c d _ => decide (a * d < c * b)
  | .inf s, .inf t => s && !t
  | .inf s, .fin _ _ _ => s
  | .fin _ _ _, .inf t => !t
  | _, _ => false

/-- Equality of values that are not NaN. -/
def XVal.eqv : XVal → XVal → Bool
  | .fin a b _, .fin c d _ => decide (a * d = c * b)
  | .inf s, .inf t => s == t
  | _, _ => false

/-- The floor of log2 of a positive fraction. -/
def floorLog2 (n d : Nat) : Int :=
  let e : Int := (n.log2 : Int) - (d.log2 : Int)
  if 0 ≤ e then (if d * 2 ^ e.toNat ≤ n then e else e - 1)
  else (if d ≤ n * 2 ^ (-e).toNat then e else e - 1)

/-- The floating layout of R53: exponent bits, mantissa bits, bias and the code of the largest finite value. -/
def Kind.layout : Kind → Option (Nat × Nat × Nat × Nat)
  | .e2m1 => some (2, 1, 1, 0x7)
  | .e2m3 => some (2, 3, 1, 0x1F)
  | .e3m2 => some (3, 2, 3, 0x1F)
  | .e4m3 => some (4, 3, 7, 0x7E)
  | .e5m2 => some (5, 2, 15, 0x7B)
  | .bf16 => some (8, 7, 127, 0x7F7F)
  | .fp32 => some (8, 23, 127, 0x7F7FFFFF)
  | _ => none

/-- Whether a kind has infinities (R53). -/
def Kind.hasInf : Kind → Bool
  | .e5m2 => true
  | .bf16 => true
  | .fp32 => true
  | _ => false

/-- The canonical NaN of a kind that has one (R55). -/
def Kind.canonNan : Kind → Option Nat
  | .e4m3 => some 0x7F
  | .e5m2 => some 0x7E
  | .bf16 => some 0x7FC0
  | .fp32 => some 0x7FC00000
  | .mk8 => some 0x80
  | _ => none

/-- The zeros above the highest 1 of the 7-bit field `t` (R57). -/
def leadingZeros7 (t : Nat) : Nat := 6 - t.log2

/-- The value of an mk8 code in units of 2^-7, without its sign (R57). -/
def mk8Units (t : Nat) : Nat :=
  if t = 0 then 0 else
  let z := leadingZeros7 t
  if z = 6 then 1 else
  let n := 5 - z
  let f := t % 2 ^ n
  if t / 2 ^ n % 2 = 1 then (2 ^ n + f) * 2 ^ (7 - (z + 1)) / 2 ^ n else (2 ^ n + f) * 2 ^ (7 + z) / 2 ^ n

/-- The exact value of a code (R52, R53, R57): the Decode of R70 for an unblocked element. -/
def decodeCode (k : Kind) (c : Nat) : XVal :=
  match k with
  | .s w => .ofInt (signExtend c w)
  | .n w => .ofInt (c % 2 ^ w)
  | .mk8 =>
    let t := c % 128
    let neg := c / 128 % 2 == 1
    if t = 0 then (if neg then .nan else .ofInt 0)
    else .fin (if neg then -(mk8Units t : Int) else mk8Units t) 128 false
  | k =>
    match k.layout with
    | none => .nan
    | some (eb, mb, bias, _) =>
      let neg := c / 2 ^ (eb + mb) % 2 == 1
      let e := c / 2 ^ mb % 2 ^ eb
      let mant := c % 2 ^ mb
      let top := 2 ^ eb - 1
      let value : XVal :=
        let sig : Nat := if e = 0 then mant else 2 ^ mb + mant
        let p := scale2 (if neg then -(sig : Int) else sig) 1 ((max e 1 : Nat) - (bias : Int) - (mb : Int))
        .fin p.1 p.2 (neg && sig == 0)
      match k with
      | .e4m3 => if e = top ∧ mant = 7 then .nan else value
      | .e2m1 => value
      | .e2m3 => value
      | .e3m2 => value
      | _ => if e = top then (if mant = 0 then .inf neg else .nan) else value

/-- The value 2^(c - 127) of a scale code, none for NaN (R60). -/
def scaleExp (c : Nat) : Option Int := if c = 0xFF then none else some ((c : Int) - 127)

/-- The exact value of an element of a block with scale code `c` (R61). -/
def decodeScaled (k : Kind) (c code : Nat) : XVal :=
  match scaleExp c with
  | none => .nan
  | some e => (decodeCode k code).shift e

/-! ## Rounding -/

/-- The rounding modes of R63 and stochastic rounding. -/
inductive Rm where
  | rne | rtz | rdn | rup | rna | sr
deriving DecidableEq, Repr

/-- The mode an RND field names (R63); a reserved code, which only a restored frame can hold (R351), rounds as RNA (log entry 107). -/
def rmOf (rnd : Nat) : Rm :=
  match rnd with
  | 0 => .rne
  | 1 => .rtz
  | 2 => .rdn
  | 3 => .rup
  | _ => .rna

/-- What a conversion reads beside its value: mode, SAT, substitute, and the key, base and draw of the hash (R63 to R65). -/
structure Rounding where
  rm : Rm
  sat : Bool
  subv : Nat
  seed : Word
  sbase : Word
  draw : Nat
deriving DecidableEq, Repr

/-- RoundHash (R65). -/
def roundHash (key index : Word) (draw : Nat) : Nat :=
  let x0 := key ^^^ (index * 0x9E3779B97F4A7C15#64)
  let x1 := x0 + BitVec.ofNat 64 (draw + 1) * 0xD1B54A32D192ED03#64
  let x2 := (x1 ^^^ (x1 >>> 30)) * 0xBF58476D1CE4E5B9#64
  let x3 := (x2 ^^^ (x2 >>> 27)) * 0x94D049BB133111EB#64
  let x4 := x3 ^^^ (x3 >>> 31)
  field x4.toNat 32 32

/-- The sticky flags by their bits in VFLAGS (R193). -/
def fNV : Nat := 1
def fOF : Nat := 2
def fUF : Nat := 4
def fNX : Nat := 8
def fSAT : Nat := 16
def fASAT : Nat := 32
def fAINF : Nat := 64
def fSUB : Nat := 128
def fTRUNC : Nat := 256
def fDEG : Nat := 512
def fCLIP : Nat := 1024
def fPOISON : Nat := 2048

/-- The exponent of the spacing of the extended grid of a kind about a non-zero magnitude (R67). -/
def ulpExp (k : Kind) (n d : Nat) : Int :=
  let e := floorLog2 n d
  match k with
  | .s _ => 0
  | .n _ => 0
  | .mk8 => if e < -6 then -7 else if e < 0 then -6 else if e ≥ 5 then 5 else 2 * e - 5
  | k =>
    match k.layout with
    | none => 0
    | some (_, mb, bias, maxc) =>
      let emax : Int := (maxc / 2 ^ mb : Nat) - (bias : Int)
      min (max e (1 - (bias : Int))) emax - (mb : Int)

/-- The choice between the grid points `q` and `q + 1` (in units of the spacing) for a value whose fraction above `q` is r/d, 0 < r < d (R68). -/
def pick (rd : Rounding) (i : Nat) (q : Int) (r d : Nat) : Int :=
  match rd.rm with
  | .rne => if 2 * r < d then q else if d < 2 * r then q + 1 else if q % 2 = 0 then q else q + 1
  | .rna => if 2 * r < d then q else if d < 2 * r then q + 1 else if 0 ≤ q then q + 1 else q
  | .rtz => if 0 ≤ q then q else q + 1
  | .rdn => q
  | .rup => q + 1
  | .sr =>
    let t := r * 2 ^ 32 / d
    if roundHash rd.seed (rd.sbase + BitVec.ofNat 64 i) rd.draw < t then q + 1 else q

/-- RoundTo (R68) of a finite value: the grid point as a number of spacings, the spacing's exponent, and whether the value was on the grid. -/
def roundTo (k : Kind) (rd : Rounding) (i : Nat) (num : Int) (den : Nat) : Int × Int × Bool :=
  if num = 0 then (0, 0, true) else
  let u := ulpExp k num.natAbs den
  let p := scale2 num den (-u)
  let q := p.1 / (p.2 : Int)
  let r := (p.1 % (p.2 : Int)).toNat
  if r = 0 then (q, u, true) else (pick rd i q r p.2, u, false)

/-- MaxF and MinF of a kind, as numbers of units of a power of two (R67). -/
def Kind.maxF : Kind → Int × Int
  | .s w => (2 ^ (w - 1) - 1, 0)
  | .n w => (2 ^ w - 1, 0)
  | .mk8 => (32, 0)
  | k =>
    match k.layout with
    | none => (0, 0)
    | some (_, mb, bias, maxc) => ((2 ^ mb + maxc % 2 ^ mb : Nat), (maxc / 2 ^ mb : Nat) - (bias : Int) - (mb : Int))

def Kind.minF : Kind → Int × Int
  | .s w => (-(2 ^ (w - 1)), 0)
  | .n _ => (0, 0)
  | k => (-(k.maxF.1), k.maxF.2)

/-- The exponents of UlpMax (R67); UlpMin is the same for every kind. -/
def Kind.ulpMax : Kind → Int
  | .mk8 => 5
  | k => k.maxF.2

/-- Compares a·2^x with num/den: whether the first is less. -/
def ltFrac (a x num : Int) (den : Nat) : Bool :=
  let p := scale2 a 1 x
  decide (p.1 * den < num * p.2)

/-- Whether a·2^x equals num/den. -/
def eqFrac (a x num : Int) (den : Nat) : Bool :=
  let p := scale2 a 1 x
  decide (p.1 * den = num * p.2)

/-- The magnitude below which a floating result is tiny, as a power of two (R67); none for the integer kinds. -/
def Kind.tiny : Kind → Option Int
  | .s _ => none
  | .n _ => none
  | .mk8 => some (-7)
  | k =>
    match k.layout with
    | none => none
    | some (_, _, bias, _) => some (1 - (bias : Int))

/-- The code of the value q·2^u of a kind: it lies on the kind's grid and is not zero (R53, R54, R57). -/
def codeOf (k : Kind) (q u : Int) : Nat :=
  let a := q.natAbs
  match k with
  | .s w => (q * 2 ^ u.toNat % 2 ^ w).toNat
  | .n w => (q * 2 ^ u.toNat % 2 ^ w).toNat
  | .mk8 =>
    let m := a * 2 ^ (u + 7).toNat
    let e := floorLog2 m 128
    let t :=
      if e ≤ -7 then 1
      else if e < 0 then
        let z := (-e - 1).toNat
        2 ^ (6 - z) + 2 ^ (5 - z) + (m - 2 ^ (7 + e).toNat) / 2
      else
        let z := e.toNat
        2 ^ (6 - z) + (m - 2 ^ (7 + z)) / 2 ^ (2 + 2 * z)
    t + (if q < 0 then 128 else 0)
  | k =>
    match k.layout with
    | none => 0
    | some (eb, mb, bias, _) =>
      (u + (mb : Int) - (1 - (bias : Int))).toNat * 2 ^ mb + a + (if q < 0 then 2 ^ (eb + mb) else 0)

/-- The substitute of a kind: the low bits of SUBV, with zeros above its 16 in a kind of 32 planes (R63, R69; log entry 98). -/
def substitute (k : Kind) (rd : Rounding) : Nat := rd.subv % 2 ^ k.width

/-- Infinity of a kind that has it. -/
def infCode (k : Kind) (neg : Bool) : Nat :=
  match k.layout with
  | none => 0
  | some (eb, mb, _, _) => (2 ^ eb - 1) * 2 ^ mb + (if neg then 2 ^ (eb + mb) else 0)

/-- The code of MaxF or MinF (R69). -/
def boundCode (k : Kind) (neg : Bool) : Nat :=
  let b := if neg then k.minF else k.maxF
  if b.1 = 0 then 0 else
  match k with
  | .mk8 => if neg then 0x82 else 0x02
  | k => codeOf k b.1 b.2

/-- Overflow (R69): the code and the flags beyond OF. -/
def overflow (k : Kind) (rd : Rounding) (neg : Bool) : Nat × Nat :=
  if k.hasInf then (infCode k neg, 0)
  else if rd.sat then (boundCode k neg, fSAT)
  else (substitute k rd, fSUB)

/-- The zero code for a value that is negative or -0 (R69). -/
def zeroCode (k : Kind) (neg : Bool) : Nat :=
  match k.layout with
  | none => 0
  | some (eb, mb, _, _) => if neg then 2 ^ (eb + mb) else 0

/-- Encode (R69): the code and the flags it raises. -/
def encodeVal (k : Kind) (rd : Rounding) (i : Nat) (x : XVal) : Nat × Nat :=
  match x with
  | .nan =>
    match k.canonNan with
    | some c => (c, 0)
    | none => (substitute k rd, fNV ||| fSUB)
  | .inf neg =>
    if k.hasInf then (infCode k neg, 0)
    else
      let o := overflow k rd neg
      (o.1, fOF ||| o.2)
  | .fin num den nz =>
    let y := roundTo k rd i num den
    let mx := k.maxF
    let mn := k.minF
    let p := scale2 y.1 1 y.2.1
    let nearest := rd.rm == .rne || rd.rm == .rna
    let beyond := ltFrac mx.1 mx.2 p.1 p.2 || !(ltFrac mn.1 mn.2 p.1 p.2 || eqFrac mn.1 mn.2 p.1 p.2) ||
      (nearest &&
        (let hi := scale2 1 1 (k.ulpMax - 1)
         let mxf := scale2 mx.1 1 mx.2
         let mnf := scale2 mn.1 1 mn.2
         decide (num * (mxf.2 * hi.2 : Nat) = (mxf.1 * hi.2 + hi.1 * mxf.2) * den) ||
         decide (num * (mnf.2 * hi.2 : Nat) = (mnf.1 * hi.2 - hi.1 * mnf.2) * den)))
    if beyond then
      let o := overflow k rd (decide (num < 0))
      (o.1, fOF ||| fNX ||| o.2)
    else
      let nx := if y.2.2 then 0 else fNX
      let uf :=
        match k.tiny with
        | none => 0
        | some t => if !y.2.2 && num != 0 && !(ltFrac 1 t num.natAbs den || eqFrac 1 t num.natAbs den) then fUF else 0
      if y.1 = 0 then (zeroCode k (decide (num < 0) || nz), nx ||| uf)
      else (codeOf k y.1 y.2.1, nx ||| uf)

/-- Rounding to the nearest integer under a mode: the integer and whether it is exact (R209). -/
def roundInt (rd : Rounding) (num : Int) (den : Nat) : Int × Bool :=
  let q := num / (den : Int)
  let r := (num % (den : Int)).toNat
  if r = 0 then (q, true) else (pick rd 0 q r den, false)

/-- Round to nearest even, with nothing else set. -/
def rneOnly : Rounding := ⟨.rne, false, 0, 0, 0, 0⟩

/-- RNE_fp32 of a value: its code and flags (R72, R276). -/
def rneFp32 (x : XVal) : Nat × Nat := encodeVal .fp32 rneOnly 0 x

/-- The FP32 result of an IEEE 754 operation with the exact result `x`: Encode, but that a directed mode that rounds toward zero on the
side of the result gives MaxF on overflow (R207). -/
def ieeeFp32 (rm : Rm) (x : XVal) : Nat × Nat :=
  let rd : Rounding := ⟨rm, false, 0, 0, 0, 0⟩
  match x with
  | .fin num den _ =>
    let beyond := ltFrac Kind.fp32.maxF.1 Kind.fp32.maxF.2 num.natAbs den
    if beyond then
      let neg := decide (num < 0)
      let half := scale2 (2 ^ 25 - 1) 1 103
      match rm with
      | .rtz => (boundCode .fp32 neg, if ltFrac 1 128 num.natAbs den || eqFrac 1 128 num.natAbs den then fOF ||| fNX else fNX)
      | .rdn => if neg then (infCode .fp32 neg, fOF ||| fNX)
                else (boundCode .fp32 neg, if ltFrac 1 128 num.natAbs den || eqFrac 1 128 num.natAbs den then fOF ||| fNX else fNX)
      | .rup => if neg then (boundCode .fp32 neg, if ltFrac 1 128 num.natAbs den || eqFrac 1 128 num.natAbs den then fOF ||| fNX else fNX)
                else (infCode .fp32 neg, fOF ||| fNX)
      | _ => if decide ((num.natAbs : Int) * half.2 < half.1 * den) then (boundCode .fp32 neg, fNX) else (infCode .fp32 neg, fOF ||| fNX)
    else encodeVal .fp32 rd 0 x
  | _ => encodeVal .fp32 rd 0 x

end Sys2Proof.Machine
end

