-- ==== Sys2Proof/Syntax.lean ====
section
/-! DEFINITION. The instructions and events of the Novuluf Z9: one constructor per row of the opcode table. The rows
with a 32-bit word carry the fields of their encoding. The rows without one are operations and events of the part; their
operands say which unit they concern and what the outside world supplies. -/

namespace Sys2Proof

/-- Register numbers by class (R184). -/
abbrev GReg := Fin 32
abbrev FReg := Fin 16
abbrev VRegN := Fin 32
abbrev MReg := Fin 8
abbrev TmReg := Fin 4
abbrev AccN := Fin 4
abbrev LcN := Fin 3
abbrev SqN := Fin 8
abbrev Tag := Fin 64

/-- The kind of an access, as a translation fault records it (R37). -/
inductive Access where
  | load | store | fetch | atomic | vload | vstore | gather | scatter | copyRead | copyWrite | refill | walker
deriving DecidableEq, Repr

/-- The four execution units of a core (R174). -/
inductive ExUnit where
  | plane | outer | word | vmem
deriving DecidableEq, Repr

/-- What a trap records: its cause, the fields of TCAUSE and TREC0 to TREC3 (R335, R337). -/
structure TrapInfo where
  cause : Nat
  subc : Nat
  tag : Nat
  kval : Nat
  rec0 : Word
  rec1 : Word
  rec2 : Word
  rec3 : Word
deriving DecidableEq, Repr

/-- Which access ACCESS_PERFORM performs: a vector write of a strand that leaves for its core, or a write performed at
its core that reaches its home (R101, R102). -/
inductive Performed where
  | atCore (mesh sid idx : Nat)
  | atHome (mesh idx : Nat)
deriving DecidableEq, Repr

/-- One bank of DRAM: its die, the controller block of the die (0 and 1 HBM4 stacks, 2 to 4 LPDDR6), the channel
unit as CHAN reports it, and the bank (R95). -/
structure BankId where
  die : Nat
  ctrl : Nat
  chan : Nat
  bank : Nat
deriving DecidableEq, Repr

/-- What an error was found in: a 64-bit word of a plane of a register, a word of 64 cells of one row of a tile (R344), the 8-byte word of memory
that holds an address (R335), or a shadow slot of a core, whose cells then show an uncorrectable error or give another check code (R146). -/
inductive PoisonAt where
  | plane (mesh sid reg plane seg : Nat)
  | cells (mesh tile row word : Nat)
  | memory (pa : Nat)
  | slot (mesh k : Nat) (code : Option (BitVec 64))
deriving DecidableEq, Repr

/-- The accesses a chain port carries (R382). -/
inductive RemoteOp where
  | store (bytes : List (BitVec 8))
  | amo (op : Nat) (uns : Bool) (size : Nat) (operand expect : Word)
  | pubhw (fin : Bool) (count : Word)
deriving DecidableEq, Repr

/-- A remote access as it arrives: the target context, the virtual address, and the operation (R120, R382). -/
structure RemoteAccess where
  ctx : Nat
  va : Word
  op : RemoteOp
deriving DecidableEq, Repr

/-- What a reply to a remote access brings: the old value of an AMO, completion, the target's translation fault sub-code (R382), or that the operation is illegal there (R302). -/
inductive ReplyKind where
  | value (old : Word)
  | done
  | fault (sub : Nat)
  | illegal
deriving DecidableEq, Repr

/-- The outcome of a start stage's check: passed, or failed with a REASON (R369). -/
inductive StageResult where
  | passed
  | failed (reason : Nat)
deriving DecidableEq, Repr

/-- The sensor readings that a die's governor takes over the grant period that ends, in microwatts: the die's total draw and that of each of its
islands (R407). -/
structure Draws where
  die : Nat
  islands : List Nat
deriving DecidableEq, Repr

/-- One constructor per row of the opcode table. -/
inductive Instr where
  -- scalar integer (R204, R205)
  | add (d a b : GReg) | sub (d a b : GReg) | mul (d a b : GReg) | mulh (d a b : GReg) | mulhU (d a b : GReg)
  | div (d a b : GReg) | divU (d a b : GReg) | rem (d a b : GReg) | remU (d a b : GReg)
  | and (d a b : GReg) | or (d a b : GReg) | xor (d a b : GReg) | shl (d a b : GReg) | shr (d a b : GReg) | sar (d a b : GReg)
  | min (d a b : GReg) | minU (d a b : GReg) | max (d a b : GReg) | maxU (d a b : GReg)
  | setEq (d a b : GReg) | setLt (d a b : GReg) | setLtu (d a b : GReg) | clz (d a : GReg) | popc (d a : GReg)
  | sel (d a b c : GReg) | lih (d : GReg) (k : BitVec 19)
  | addI (d a : GReg) (i : BitVec 14) | andI (d a : GReg) (i : BitVec 14) | orI (d a : GReg) (i : BitVec 14)
  | xorI (d a : GReg) (i : BitVec 14) | shlI (d a : GReg) (i : BitVec 14) | shrI (d a : GReg) (i : BitVec 14)
  | sarI (d a : GReg) (i : BitVec 14) | setEqI (d a : GReg) (i : BitVec 14) | setLtI (d a : GReg) (i : BitVec 14)
  | setLtuI (d a : GReg) (i : BitVec 14)
  -- scalar FP32 (R208, R209)
  | fadd (d a b : FReg) | fsub (d a b : FReg) | fmul (d a b : FReg) | fma (d a b c : FReg) | fdiv (d a b : FReg)
  | fsqrt (d a : FReg) | fmin (d a b : FReg) | fmax (d a b : FReg) | fcmp (d : GReg) (a b : FReg) (q : BitVec 2)
  | fcvtS64 (d : GReg) (a : FReg) | fcvtN64 (d : GReg) (a : FReg) | fcvtFS64 (d : FReg) (a : GReg)
  | fcvtFN64 (d : FReg) (a : GReg) | fcvtBits (d : GReg) (a : FReg) | fcvtFBits (d : FReg) (a : GReg)
  -- control flow (R210 to R214)
  | b (o : BitVec 24) | beq (d a : GReg) (o : BitVec 14) | bne (d a : GReg) (o : BitVec 14) | blt (d a : GReg) (o : BitVec 14)
  | bge (d a : GReg) (o : BitVec 14) | bltu (d a : GReg) (o : BitVec 14) | bgeu (d a : GReg) (o : BitVec 14)
  | j (o : BitVec 24) | jal (d : GReg) (o : BitVec 19) | jr (d a : GReg) (i : BitVec 14)
  | loop (k : LcN) (a : GReg) (l : BitVec 14) | strip (d a b : GReg) (o : BitVec 9)
  -- system (R215 to R225)
  | trap (k : BitVec 19) | eret | csrr (d : GReg) (c : BitVec 9) | csrw (a : GReg) (c : BitVec 9)
  | feat (d a : GReg) (i : BitVec 14) | endStrand | wfe (d a b : GReg) | yield | fenceI | hint (op : Fin 31) (rest : BitVec 24)
  -- scalar memory (R294)
  | ldB (d a : GReg) (i : BitVec 14) | ldBu (d a : GReg) (i : BitVec 14) | ldH (d a : GReg) (i : BitVec 14)
  | ldHu (d a : GReg) (i : BitVec 14) | ldW (d a : GReg) (i : BitVec 14) | ldWu (d a : GReg) (i : BitVec 14)
  | ldD (d a : GReg) (i : BitVec 14) | ldF (d : FReg) (a : GReg) (i : BitVec 14)
  | stB (d a : GReg) (i : BitVec 14) | stH (d a : GReg) (i : BitVec 14) | stW (d a : GReg) (i : BitVec 14)
  | stD (d a : GReg) (i : BitVec 14) | stF (d : FReg) (a : GReg) (i : BitVec 14)
  -- atomics (R295)
  | amoAdd (d a b : GReg) (w : Bool) (s : Fin 6) | amoMin (d a b : GReg) (u w : Bool) (s : Fin 6)
  | amoMax (d a b : GReg) (u w : Bool) (s : Fin 6) | amoAnd (d a b : GReg) (w : Bool) (s : Fin 6)
  | amoOr (d a b : GReg) (w : Bool) (s : Fin 6) | amoXor (d a b : GReg) (w : Bool) (s : Fin 6)
  | amoSwp (d a b : GReg) (w : Bool) (s : Fin 6) | amoCas (d a b : GReg) (w : Bool) (s : Fin 6)
  -- latches, bindings, fences (R296 to R303)
  | acq (a : GReg) | acqObs (d a : GReg) | tryacq (d a : GReg) | rel (a : GReg)
  | bind (d a b : GReg) (s : BitVec 3) | unbind (d a : GReg) | fence (t : Fin 5) (s : BitVec 3)
  | pfenceCore | pfenceDie | drainst | bar | pubhw (a b : GReg) | pubhwFin (a b : GReg) | launch (d a b : GReg)
  -- configuration (R233 to R236, R270)
  | vcfg (d : VRegN) (i : BitVec 14) | setvl (d a b : GReg) | setmode (a : GReg) (k : BitVec 4) | mmode (i : BitVec 14)
  -- plane array (R237 to R251)
  | vadd (d a : VRegN) (b : Fin 32) (x s : Bool) | vsub (d a : VRegN) (b : Fin 32) (x s : Bool)
  | vmul (d a : VRegN) (b : Fin 32) (x s : Bool) | vmac (d a : VRegN) (b : Fin 32) (x s : Bool)
  | vneg (d a : VRegN) (s : Bool) | vabs (d a : VRegN) (s : Bool)
  | vmin (d a : VRegN) (b : Fin 32) (x s : Bool) | vmax (d a : VRegN) (b : Fin 32) (x s : Bool)
  | vand (d a : VRegN) (b : Fin 32) (x : Bool) | vor (d a : VRegN) (b : Fin 32) (x : Bool)
  | vxor (d a : VRegN) (b : Fin 32) (x : Bool) | vnot (d a : VRegN)
  | vshl (d a : VRegN) (s : Bool) (k : Fin 17) | vshr (d a : VRegN) (k : Fin 17)
  | vcmp (d : MReg) (a : VRegN) (b : Fin 32) (x : Bool) (c : Fin 6) | vsel (d a b : VRegN) (c : MReg)
  | vpopc (d a : VRegN) | vdot (d : GReg) (a b : VRegN) | vred (d : GReg) (a : VRegN) (o : Fin 6)
  | vscan (d a : VRegN) (s x : Bool) | vcompress (d a : VRegN) (c : MReg) | vexpand (d a : VRegN) (c : MReg)
  | vslideDn (d a : VRegN) (b : GReg) | vslideUp (d a : VRegN) (b : GReg) | viota (d : VRegN) (c : MReg) | viotaIdx (d : VRegN)
  | vmv (d a : VRegN) | vmvScalar (d : VRegN) (b : GReg) (s : Bool) | vwiden (d a : VRegN) | vnarrow (d a : VRegN) (k : Fin 17)
  | mand (d a b : MReg) | mor (d a b : MReg) | mxor (d a b : MReg) | mnot (d a : MReg) | mpopc (d : GReg) (a : MReg)
  | mfirst (d : GReg) (a : MReg) | tagmask (d : MReg) (t : Tag)
  -- Word Unit (R253 to R266)
  | vfadd (d a : VRegN) (b : Fin 32) (x n : Bool) | vfmul (d a : VRegN) (b : Fin 32) (x : Bool)
  | vfma (d a : VRegN) (b : Fin 32) (x n : Bool) | vfexp2 (d a : VRegN) | vfrcp (d a : VRegN) | vfrsq (d a : VRegN)
  | vfmax (d a : VRegN) (b : Fin 32) (x m : Bool) | vfcvt (d a : VRegN) | vsmax (d a : VRegN) (b : FReg) (t : Bool) (c : TmReg)
  | qstat (d : GReg) (a : VRegN) (s : Fin 16) | qscaleH (d : FReg) (b : VRegN) (s : Fin 16)
  | qscaleR (d : FReg) (a b : VRegN) (s : Fin 16) | qscaleZ (s : Fin 16)
  | quant (d a : VRegN) (p : Fin 4) (q : Bool) (s : Fin 16) | ctab (a : VRegN) (t : Fin 4) | clook (d a : VRegN) (t : Fin 4)
  -- outer product, accumulators, scout (R269 to R289)
  | opa (d : AccN) (a b : VRegN) (s : BitVec 6) | opaAca (d a : AccN) (b : VRegN) (h : BitVec 2) (l : BitVec 6)
  | opaS (d : AccN) (a b : VRegN) (g : Fin 4) (n : Fin 3) (i : VRegN) | opaT (d : AccN) (a b : VRegN) (c : TmReg) (s : BitVec 6)
  | accz (d : AccN) | accrd (d : VRegN) (a : AccN) (c : Bool) (r : BitVec 8) | drain (d : AccN) (a b : GReg)
  | scout (d : AccN) (a b : VRegN) (e : GReg) (p : Fin 4) | thresh (d : TmReg) (a : AccN) (b : GReg) (g : Bool) (c : GReg)
  | tmand (d a b : TmReg) (n : Bool) | tmpopc (d : GReg) (a : TmReg)
  -- vector memory, copy, tags, streams (R304 to R315)
  | vld (d : VRegN) (a b c : GReg) (l : Bool) | vldCompressed (d : VRegN) (a b c : GReg) | vldPop (d : VRegN) (a : SqN)
  | vst (d : VRegN) (a b c : GReg) (l : Bool) | vgather (d : VRegN) (a : GReg) (b : VRegN) (c : GReg)
  | vscatterOrd (d : VRegN) (a : GReg) (b : VRegN) (c : GReg) | vscatterUno (d : VRegN) (a : GReg) (b : VRegN) (c : GReg)
  | cpy (a : GReg) (b : VRegN) (r : Fin 7) (t : Tag) | cpyx (a : GReg) (b : VRegN) (r : Fin 7) (t : Tag)
  | waitany (d a : GReg) | waitall (a : GReg) | ffrdy (d a : GReg) | tagcnt (d : GReg) (t : Tag) | commit (t : Tag)
  | sqopen (d : SqN) (a b : GReg) (f : Bool) | sqadv (d : SqN) (a : GReg) | sqend (d : SqN) | sqclose (d : SqN)
  -- sequencer, traps, memory system events
  | microOpIssue (mesh : Nat) (unit : ExUnit) (sid : Nat) | elementGroupComplete (mesh : Nat) (unit : ExUnit)
  | trapEntry (t : TrapInfo) | storeQueueTranslate (mesh sid : Nat) | waitForWriteWake (mesh sid : Nat)
  | tableWalk (mesh ctx : Nat) (priv : Bool) (kind : Access) (va : Word) | accessPerform (p : Performed)
  | dramAccess (bk : BankId) | backoffEnd (bk : BankId) | refresh (bk : BankId) | refreshEnd (bk : BankId) | rowIdleClose (bk : BankId)
  | hbmTempSample (die ctrl : Nat) (celsius : Int) | refreshModeChange (die ctrl : Nat) | thermSample (die island : Nat) (milliCelsius : Int)
  | persistEntryStart (die : Nat) | persistEntryDurable (die : Nat)
  -- shadowing and power of a core
  | shadowInterval (mesh : Nat) | shadowWrite (mesh : Nat) | shadowSeal (mesh : Nat) | pdreq (mesh : Nat) | pupreq (mesh : Nat)
  | plannedPowerDown (mesh : Nat) | powerUp (mesh : Nat) | coreLoss (mesh : Nat) | coreSupplyRestored (mesh : Nat)
  | resumeTimeout (mesh : Nat) | packageLoss | idlePowerDown (mesh : Nat)
  -- control space, queues, scheduler
  | registerWrite (die off size : Nat) (value : Word) | tiqhi (value : Word) | invalidationComplete
  | doorbell (die q : Nat) (value : BitVec 32) | queueEnable (die q : Nat) | queueDisable (die q : Nat) | slotAccept (die q : Nat)
  | dependenceRead (cand : Nat) | placement | preemption (launch : Nat) | stateSaveComplete (launch : Nat)
  | wgterm (value : Word) | sfpop | grantPeriod (die : Nat) (draws : Draws) | marginTrip (mesh group : Nat) (highest : Bool)
  | poisonDetect (at_ : PoisonAt)
  -- engines
  | copyAccept (mesh : Nat) | copyChunk (mesh : Nat) (t : Tag) (chunk : Nat) | calicoTimeLimit (mesh : Nat) (t : Tag)
  | streamRefill (mesh sid : Nat) (sq : SqN) (block : Nat)
  -- chain ports and the host
  | flitTimeout (die port : Nat) | remoteAccessArrival (port : Nat) (first : Bool) (r : RemoteAccess) | hostMemRead (off len : Nat) | hostMemWrite (off : Nat) (bytes : List (BitVec 8))
  | counterFlush (die : Nat) | dieReset (die : Nat) | stageComplete (die : Nat) (r : StageResult) | stageTimeout (die : Nat) | bootlock (die : Nat)
  | setcap (watts : Word) | setfloor (part watts : Word) | allot (part mask : Word) | power (mesh dir : Word) | resume (pa : Word)
  | fwload (addr len : Word) | calico (cluster slot addr len : Word) | flush | restart | mailboxComplete
  | getVersion (req : List (BitVec 8)) | getCapabilities (req : List (BitVec 8)) | negotiateAlgorithms (req : List (BitVec 8))
  | getDigests (req : List (BitVec 8)) | getCertificate (req : List (BitVec 8)) | challenge (req : List (BitVec 8))
  | getMeasurements (req : List (BitVec 8)) | chainPortLinkChange (die port : Nat) (up : Bool) (nbr : BitVec 12)
  | remoteReply (id : Nat) (r : ReplyKind) | cxlCacheSnoop (pa : Nat) (takeBack : Bool)
deriving DecidableEq, Repr

end Sys2Proof
end

