-- ==== Sys2Proof/WellFormed.lean ====
section
/-! DEFINITION. The checks on field values that the operand types do not already make: an instruction that breaks one has no
word that decodes to it (R184, R187, R215, R227, R253, R291). -/

namespace Sys2Proof

/-- The control-register numbers of R215 and R337. -/
def csrListed (c : Nat) : Bool := c ≤ 0x13 || (0x100 ≤ c && c ≤ 0x110)

/-- The DIR codes of a copy command that name a register (R309). -/
def dirNamesRegister (r : Nat) : Bool := r == 1 || r == 2 || r == 5 || r == 6

/-- A second source that names an f register when `x` is set and a v register otherwise (R253, R184). -/
def fSourceOk (x : Bool) (b : Fin 32) : Bool := !x || b.1 < 16

/-- The field values the decoder accepts. Rows without a word are always well formed. -/
def Instr.wf : Instr → Bool
  | .csrr _ c => csrListed c.toNat
  | .csrw _ c => csrListed c.toNat
  | .bind _ a _ _ => a.1 != 31
  | .fence _ s => 1 ≤ s.toNat && s.toNat ≤ 5
  | .setmode _ k => k != 0
  | .vfadd _ _ rb x _ => fSourceOk x rb
  | .vfmul _ _ rb x => fSourceOk x rb
  | .vfma _ _ rb x _ => fSourceOk x rb
  | .vfmax _ _ rb x _ => fSourceOk x rb
  | .vgather _ _ _ c => c.1 != 31
  | .vscatterOrd _ _ _ c => c.1 != 31
  | .vscatterUno _ _ _ c => c.1 != 31
  | .cpy ra rb r _ => ra.1 ≤ 28 && (dirNamesRegister r.1 || rb == 0)
  | .cpyx ra rb r _ => ra.1 ≤ 28 && (dirNamesRegister r.1 || rb == 0)
  | .sqopen _ a _ _ => a.1 ≤ 28
  | _ => true

end Sys2Proof
end

