-- ==== Sys2Proof/Decode.lean ====
section
/-! DEFINITION. Decoding a 32-bit word (R183 to R190 and the encoding tables of the chapters), rejecting by name, and the
encoder written from the same tables. Words are Nat values below 2^32. -/

namespace Sys2Proof

/-- Why a word is not an instruction, in the order of the checks of R187. -/
inductive DecodeError where
  | opcode        -- the primary opcode is in the illegal group (R187)
  | selector      -- fn[8:6] names no mnemonic (R190)
  | unusedField   -- an unused field or an fn bit the table does not name is not zero (R184)
  | registerClass -- a register number outside its class (R184)
  | fieldValue    -- a field value an encoding table refuses
deriving DecidableEq, Repr

abbrev Decoded := Except DecodeError Instr

/-- The word whose bytes stand at an instruction's address, first byte lowest (R182). -/
def wordOfBytes : List (BitVec 8) → Nat
  | [] => 0
  | x :: xs => x.toNat + 256 * wordOfBytes xs

/-- A five-bit field as a register number of a class of 32. -/
def r32 (x : Nat) : Fin 32 := Fin.ofNat 32 x

/-- A field that must name a register of a class of `n` (R184). -/
def inClass (n x : Nat) (k : Fin n → Decoded) : Decoded :=
  if h : x < n then k ⟨x, h⟩ else .error .registerClass

/-- A field whose value must lie below `n`. -/
def inRange (n x : Nat) (k : Fin n → Decoded) : Decoded :=
  if h : x < n then k ⟨x, h⟩ else .error .fieldValue

/-- Fields that must be zero (R184). -/
def unused (xs : List Nat) (k : Decoded) : Decoded := if xs.all (· == 0) then k else .error .unusedField

/-- The form-T rows with three g registers and a fixed fn. -/
def ggg (w : Nat) (k : GReg → GReg → GReg → Instr) : Decoded := .ok (k (r32 (field w 19 5)) (r32 (field w 14 5)) (r32 (field w 9 5)))

/-- The form-I rows with two g registers (R183). -/
def ggi (w : Nat) (k : GReg → GReg → BitVec 14 → Instr) : Decoded :=
  .ok (k (r32 (field w 19 5)) (r32 (field w 14 5)) (BitVec.ofNat 14 (field w 0 14)))

/-- Form T with three f registers. -/
def fff (w : Nat) (k : FReg → FReg → FReg → Instr) : Decoded :=
  inClass 16 (field w 19 5) fun d => inClass 16 (field w 14 5) fun a => inClass 16 (field w 9 5) fun b => .ok (k d a b)

/-- The bit `i` of a word. -/
def bitOf (w i : Nat) : Bool := field w i 1 == 1

/-- Row 0x of the opcode map (R188, R204). -/
def decode0 (lo w : Nat) : Decoded :=
  let fn := field w 0 9
  match lo with
  | 1 => unused [fn] (ggg w .add)
  | 2 => unused [fn] (ggg w .sub)
  | 3 => unused [fn] (ggg w .mul)
  | 4 => unused [field w 1 8] (if bitOf w 0 then ggg w .mulhU else ggg w .mulh)
  | 5 => unused [field w 1 8] (if bitOf w 0 then ggg w .divU else ggg w .div)
  | 6 => unused [field w 1 8] (if bitOf w 0 then ggg w .remU else ggg w .rem)
  | 7 => unused [fn] (ggg w .and)
  | 8 => unused [fn] (ggg w .or)
  | 9 => unused [fn] (ggg w .xor)
  | 10 => unused [fn] (ggg w .shl)
  | 11 => unused [fn] (ggg w .shr)
  | 12 => unused [fn] (ggg w .sar)
  | 13 => unused [field w 1 8] (if bitOf w 0 then ggg w .minU else ggg w .min)
  | 14 => unused [field w 1 8] (if bitOf w 0 then ggg w .maxU else ggg w .max)
  | 15 =>
    match field w 6 3 with
    | 0 => unused [field w 0 6] (ggg w .setEq)
    | 1 => unused [field w 0 6] (ggg w .setLt)
    | 2 => unused [field w 0 6] (ggg w .setLtu)
    | _ => .error .selector
  | _ => .error .opcode

/-- Row 1x of the opcode map (R188, R204, R205). -/
def decode1 (lo w : Nat) : Decoded :=
  match lo with
  | 0 => unused [field w 0 14] (.ok (.clz (r32 (field w 19 5)) (r32 (field w 14 5))))
  | 1 => unused [field w 0 14] (.ok (.popc (r32 (field w 19 5)) (r32 (field w 14 5))))
  | 2 => unused [field w 5 4] (ggg w fun d a b => .sel d a b (r32 (field w 0 5)))
  | 3 => .ok (.lih (r32 (field w 19 5)) (BitVec.ofNat 19 (field w 0 19)))
  | 4 => ggi w .addI
  | 5 => ggi w .andI
  | 6 => ggi w .orI
  | 7 => ggi w .xorI
  | 8 => ggi w .shlI
  | 9 => ggi w .shrI
  | 10 => ggi w .sarI
  | 11 => ggi w .setEqI
  | 12 => ggi w .setLtI
  | 13 => ggi w .setLtuI
  | _ => .error .opcode

/-- Row 2x of the opcode map (R208, R209). -/
def decode2 (lo w : Nat) : Decoded :=
  let fn := field w 0 9
  match lo with
  | 0 => unused [fn] (fff w .fadd)
  | 1 => unused [fn] (fff w .fsub)
  | 2 => unused [fn] (fff w .fmul)
  | 3 => unused [field w 4 5] (fff w fun d a b => .fma d a b (Fin.ofNat 16 (field w 0 4)))
  | 4 => unused [fn] (fff w .fdiv)
  | 5 => unused [field w 0 14] (inClass 16 (field w 19 5) fun d => inClass 16 (field w 14 5) fun a => .ok (.fsqrt d a))
  | 6 =>
    match field w 6 3 with
    | 0 => unused [field w 0 6] (fff w .fmin)
    | 1 => unused [field w 0 6] (fff w .fmax)
    | _ => .error .selector
  | 7 => unused [field w 2 7] (inClass 16 (field w 14 5) fun a => inClass 16 (field w 9 5) fun b =>
      .ok (.fcmp (r32 (field w 19 5)) a b (BitVec.ofNat 2 (field w 0 2))))
  | 8 => unused [field w 3 11] (
    match field w 0 3 with
    | 0 => inClass 16 (field w 14 5) fun a => .ok (.fcvtS64 (r32 (field w 19 5)) a)
    | 1 => inClass 16 (field w 14 5) fun a => .ok (.fcvtN64 (r32 (field w 19 5)) a)
    | 2 => inClass 16 (field w 19 5) fun d => .ok (.fcvtFS64 d (r32 (field w 14 5)))
    | 3 => inClass 16 (field w 19 5) fun d => .ok (.fcvtFN64 d (r32 (field w 14 5)))
    | 4 => inClass 16 (field w 14 5) fun a => .ok (.fcvtBits (r32 (field w 19 5)) a)
    | 5 => inClass 16 (field w 19 5) fun d => .ok (.fcvtFBits d (r32 (field w 14 5)))
    | _ => .error .fieldValue)
  | _ => .error .opcode

/-- Row 3x of the opcode map (R210 to R214). -/
def decode3 (lo w : Nat) : Decoded :=
  match lo with
  | 0 => .ok (.b (BitVec.ofNat 24 (field w 0 24)))
  | 1 => ggi w .beq
  | 2 => ggi w .bne
  | 3 => ggi w .blt
  | 4 => ggi w .bge
  | 5 => ggi w .bltu
  | 6 => ggi w .bgeu
  | 7 => .ok (.j (BitVec.ofNat 24 (field w 0 24)))
  | 8 => .ok (.jal (r32 (field w 19 5)) (BitVec.ofNat 19 (field w 0 19)))
  | 9 => ggi w .jr
  | 10 => inClass 3 (field w 19 5) fun k => .ok (.loop k (r32 (field w 14 5)) (BitVec.ofNat 14 (field w 0 14)))
  | 11 => ggg w fun d a b => .strip d a b (BitVec.ofNat 9 (field w 0 9))
  | _ => .error .opcode

/-- Row 4x of the opcode map (R215 to R225). -/
def decode4 (lo w : Nat) : Decoded :=
  match lo with
  | 0 => unused [field w 19 5] (.ok (.trap (BitVec.ofNat 19 (field w 0 19))))
  | 1 => unused [field w 0 24] (.ok .eret)
  | 2 => unused [field w 9 10] (.ok (.csrr (r32 (field w 19 5)) (BitVec.ofNat 9 (field w 0 9))))
  | 3 => unused [field w 19 5, field w 9 5] (.ok (.csrw (r32 (field w 14 5)) (BitVec.ofNat 9 (field w 0 9))))
  | 4 => ggi w .feat
  | 5 => unused [field w 0 24] (.ok .endStrand)
  | 6 =>
    match field w 6 3 with
    | 0 => unused [field w 0 6] (ggg w .wfe)
    | 1 => unused [field w 0 6, field w 9 15] (.ok .yield)
    | _ => .error .selector
  | 7 => unused [field w 0 24] (.ok .fenceI)
  | _ => .error .opcode

/-- Row 5x of the opcode map (R291, R294). -/
def decode5 (lo w : Nat) : Decoded :=
  match lo with
  | 0 => ggi w .ldB
  | 1 => ggi w .ldBu
  | 2 => ggi w .ldH
  | 3 => ggi w .ldHu
  | 4 => ggi w .ldW
  | 5 => ggi w .ldWu
  | 6 => ggi w .ldD
  | 7 => inClass 16 (field w 19 5) fun d => .ok (.ldF d (r32 (field w 14 5)) (BitVec.ofNat 14 (field w 0 14)))
  | 8 => ggi w .stB
  | 9 => ggi w .stH
  | 10 => ggi w .stW
  | 11 => ggi w .stD
  | 12 => inClass 16 (field w 19 5) fun d => .ok (.stF d (r32 (field w 14 5)) (BitVec.ofNat 14 (field w 0 14)))
  | _ => .error .opcode

/-- An AMO row: W in bit 3, U in bit 4, which only MIN and MAX may set, the scope in bits [2:0] (R291). -/
def amo (w : Nat) (minMax : Bool) (k : GReg → GReg → GReg → Bool → Bool → Fin 6 → Instr) : Decoded :=
  unused [field w 5 1] (inRange 6 (field w 0 3) fun s =>
    if !minMax && bitOf w 4 then .error .fieldValue
    else ggg w fun d a b => k d a b (bitOf w 4) (bitOf w 3) s)

/-- Row 6x of the opcode map (R291). -/
def decode6 (lo w : Nat) : Decoded :=
  match lo with
  | 0 =>
    match field w 6 3 with
    | 0 => amo w false fun d a b _ => .amoAdd d a b
    | 1 => amo w true .amoMin
    | 2 => amo w true .amoMax
    | 3 => amo w false fun d a b _ => .amoAnd d a b
    | 4 => amo w false fun d a b _ => .amoOr d a b
    | 5 => amo w false fun d a b _ => .amoXor d a b
    | 6 => amo w false fun d a b _ => .amoSwp d a b
    | _ => amo w false fun d a b _ => .amoCas d a b
  | 1 =>
    match field w 6 3 with
    | 0 => unused [field w 19 5, field w 9 5, field w 0 6] (.ok (.acq (r32 (field w 14 5))))
    | 1 => unused [field w 9 5, field w 0 6] (.ok (.acqObs (r32 (field w 19 5)) (r32 (field w 14 5))))
    | 2 => unused [field w 9 5, field w 0 6] (.ok (.tryacq (r32 (field w 19 5)) (r32 (field w 14 5))))
    | 3 => unused [field w 19 5, field w 9 5, field w 0 6] (.ok (.rel (r32 (field w 14 5))))
    | _ => .error .selector
  | 2 =>
    match field w 6 3 with
    | 0 => unused [field w 3 3] (ggg w fun d a b => .bind d a b (BitVec.ofNat 3 (field w 0 3)))
    | 1 => unused [field w 9 5, field w 0 6] (.ok (.unbind (r32 (field w 19 5)) (r32 (field w 14 5))))
    | _ => .error .selector
  | 3 => unused [field w 6 18] (inRange 5 (field w 3 3) fun t => .ok (.fence t (BitVec.ofNat 3 (field w 0 3))))
  | 4 => unused [field w 1 23] (.ok (if bitOf w 0 then .pfenceDie else .pfenceCore))
  | 5 => unused [field w 0 24] (.ok .drainst)
  | 6 => unused [field w 0 24] (.ok .bar)
  | 7 => unused [field w 19 5, field w 1 8]
      (.ok (if bitOf w 0 then .pubhwFin (r32 (field w 14 5)) (r32 (field w 9 5)) else .pubhw (r32 (field w 14 5)) (r32 (field w 9 5))))
  | 8 => unused [field w 0 9] (ggg w .launch)
  | _ => .error .opcode

/-- Row 7x of the opcode map (R227, R269). -/
def decode7 (lo w : Nat) : Decoded :=
  match lo with
  | 0 => unused [field w 14 5] (.ok (.vcfg (r32 (field w 19 5)) (BitVec.ofNat 14 (field w 0 14))))
  | 1 => unused [field w 0 9] (ggg w .setvl)
  | 2 => unused [field w 19 5, field w 9 5, field w 4 5] (.ok (.setmode (r32 (field w 14 5)) (BitVec.ofNat 4 (field w 0 4))))
  | 3 => unused [field w 14 10] (.ok (.mmode (BitVec.ofNat 14 (field w 0 14))))
  | _ => .error .opcode

/-- A plane-array row with two vector operands, or a vector and a scalar: XS in bit 1, S in bit 0 (R227). -/
def vvxs (w : Nat) (k : VRegN → VRegN → Fin 32 → Bool → Bool → Instr) : Decoded :=
  .ok (k (r32 (field w 19 5)) (r32 (field w 14 5)) (r32 (field w 9 5)) (bitOf w 1) (bitOf w 0))

/-- A row with the registers d and a alone. -/
def vv (w : Nat) (k : VRegN → VRegN → Instr) : Decoded := .ok (k (r32 (field w 19 5)) (r32 (field w 14 5)))

/-- Row 8x of the opcode map (R227). -/
def decode8 (lo w : Nat) : Decoded :=
  match lo with
  | 0 => unused [field w 2 7] (vvxs w .vadd)
  | 1 => unused [field w 2 7] (vvxs w .vsub)
  | 2 => unused [field w 2 7] (vvxs w .vmul)
  | 3 => unused [field w 2 7] (vvxs w .vmac)
  | 4 => unused [field w 1 13] (vv w fun d a => .vneg d a (bitOf w 0))
  | 5 => unused [field w 1 13] (vv w fun d a => .vabs d a (bitOf w 0))
  | 6 =>
    match field w 6 3 with
    | 0 => unused [field w 2 4] (vvxs w .vmin)
    | 1 => unused [field w 2 4] (vvxs w .vmax)
    | _ => .error .selector
  | 7 => unused [field w 2 7, field w 0 1] (vvxs w fun d a b x _ => .vand d a b x)
  | 8 => unused [field w 2 7, field w 0 1] (vvxs w fun d a b x _ => .vor d a b x)
  | 9 => unused [field w 2 7, field w 0 1] (vvxs w fun d a b x _ => .vxor d a b x)
  | 10 => unused [field w 0 14] (vv w .vnot)
  | 11 => unused [field w 6 8] (inRange 17 (field w 0 5) fun k => vv w fun d a => .vshl d a (bitOf w 5) k)
  | 12 => unused [field w 5 9] (inRange 17 (field w 0 5) fun k => vv w fun d a => .vshr d a k)
  | 13 => unused [field w 4 5] (inClass 8 (field w 19 5) fun d => inRange 6 (field w 0 3) fun c =>
      .ok (.vcmp d (r32 (field w 14 5)) (r32 (field w 9 5)) (bitOf w 3) c))
  | 14 => unused [field w 3 6] (vvxs w fun d a b _ _ => .vsel d a b (Fin.ofNat 8 (field w 0 3)))
  | _ => .error .opcode

/-- Row 9x of the opcode map (R227). -/
def decode9 (lo w : Nat) : Decoded :=
  match lo with
  | 0 => unused [field w 0 14] (vv w .vpopc)
  | 1 => unused [field w 0 9] (vvxs w fun d a b _ _ => .vdot d a b)
  | 2 => unused [field w 3 11] (inRange 6 (field w 0 3) fun o => vv w fun d a => .vred d a o)
  | 3 => unused [field w 2 12] (vv w fun d a => .vscan d a (bitOf w 1) (bitOf w 0))
  | 4 => unused [field w 3 11] (vv w fun d a => .vcompress d a (Fin.ofNat 8 (field w 0 3)))
  | 5 => unused [field w 3 11] (vv w fun d a => .vexpand d a (Fin.ofNat 8 (field w 0 3)))
  | 6 => unused [field w 1 8] (vvxs w fun d a b _ s => if s then .vslideUp d a b else .vslideDn d a b)
  | 7 => unused [field w 4 15] (
      if bitOf w 3 then unused [field w 0 3] (.ok (.viotaIdx (r32 (field w 19 5))))
      else .ok (.viota (r32 (field w 19 5)) (Fin.ofNat 8 (field w 0 3))))
  | 8 => unused [field w 2 7] (
      if bitOf w 1 then unused [field w 14 5] (.ok (.vmvScalar (r32 (field w 19 5)) (r32 (field w 9 5)) (bitOf w 0)))
      else unused [field w 0 1, field w 9 5] (vv w .vmv))
  | 9 => unused [field w 0 14] (vv w .vwiden)
  | 10 => unused [field w 5 9] (inRange 17 (field w 0 5) fun k => vv w fun d a => .vnarrow d a k)
  | _ => .error .opcode

/-- A mask row with three mask registers. -/
def mmm (w : Nat) (k : MReg → MReg → MReg → Instr) : Decoded :=
  inClass 8 (field w 19 5) fun d => inClass 8 (field w 14 5) fun a => inClass 8 (field w 9 5) fun b => .ok (k d a b)

/-- Row Ax of the opcode map (R227, R291). -/
def decodeA (lo w : Nat) : Decoded :=
  match lo with
  | 0 =>
    match field w 6 3 with
    | 0 => unused [field w 0 6] (mmm w .mand)
    | 1 => unused [field w 0 6] (mmm w .mor)
    | 2 => unused [field w 0 6] (mmm w .mxor)
    | 3 => unused [field w 0 6, field w 9 5] (inClass 8 (field w 19 5) fun d => inClass 8 (field w 14 5) fun a => .ok (.mnot d a))
    | _ => .error .selector
  | 1 => unused [field w 0 14] (inClass 8 (field w 14 5) fun a => .ok (.mpopc (r32 (field w 19 5)) a))
  | 2 => unused [field w 0 14] (inClass 8 (field w 14 5) fun a => .ok (.mfirst (r32 (field w 19 5)) a))
  | 3 => unused [field w 6 13] (inClass 8 (field w 19 5) fun d => .ok (.tagmask d (Fin.ofNat 64 (field w 0 6))))
  | _ => .error .opcode

/-- Row Bx of the opcode map (R253). VSMAX without TMEN and QUANT without T accept any c and t (R184; log entry 110). -/
def decodeB (lo w : Nat) : Decoded :=
  match lo with
  | 0 => unused [field w 2 7] (vvxs w .vfadd)
  | 1 => unused [field w 2 7, field w 0 1] (vvxs w fun d a b x _ => .vfmul d a b x)
  | 2 => unused [field w 2 7] (vvxs w .vfma)
  | 3 =>
    match field w 6 3 with
    | 0 => unused [field w 0 6, field w 9 5] (vv w .vfexp2)
    | 1 => unused [field w 0 6, field w 9 5] (vv w .vfrcp)
    | 2 => unused [field w 0 6, field w 9 5] (vv w .vfrsq)
    | _ => .error .selector
  | 4 => unused [field w 2 7] (vvxs w .vfmax)
  | 5 => unused [field w 0 14] (vv w .vfcvt)
  | 6 => unused [field w 3 6] (inClass 16 (field w 9 5) fun b => vv w fun d a => .vsmax d a b (bitOf w 2) (Fin.ofNat 4 (field w 0 2)))
  | 7 => unused [field w 4 10] (.ok (.qstat (r32 (field w 19 5)) (r32 (field w 14 5)) (Fin.ofNat 16 (field w 0 4))))
  | 8 => unused [field w 6 3] (
    match field w 4 2 with
    | 0 => unused [field w 14 5] (inClass 16 (field w 19 5) fun d => .ok (.qscaleH d (r32 (field w 9 5)) (Fin.ofNat 16 (field w 0 4))))
    | 1 => inClass 16 (field w 19 5) fun d => .ok (.qscaleR d (r32 (field w 14 5)) (r32 (field w 9 5)) (Fin.ofNat 16 (field w 0 4)))
    | 2 => unused [field w 9 15] (.ok (.qscaleZ (Fin.ofNat 16 (field w 0 4))))
    | _ => .error .fieldValue)
  | 9 => unused [field w 7 7] (vv w fun d a => .quant d a (Fin.ofNat 4 (field w 5 2)) (bitOf w 4) (Fin.ofNat 16 (field w 0 4)))
  | 10 => unused [field w 19 5, field w 2 12] (.ok (.ctab (r32 (field w 14 5)) (Fin.ofNat 4 (field w 0 2))))
  | 11 => unused [field w 2 12] (vv w fun d a => .clook d a (Fin.ofNat 4 (field w 0 2)))
  | _ => .error .opcode

/-- Row Cx of the opcode map (R269). -/
def decodeC (lo w : Nat) : Decoded :=
  match lo with
  | 0 =>
    inClass 4 (field w 19 5) fun d =>
      if bitOf w 6 then inClass 4 (field w 14 5) fun a =>
        .ok (.opaAca d a (r32 (field w 9 5)) (BitVec.ofNat 2 (field w 7 2)) (BitVec.ofNat 6 (field w 0 6)))
      else unused [field w 7 2] (.ok (.opa d (r32 (field w 14 5)) (r32 (field w 9 5)) (BitVec.ofNat 6 (field w 0 6))))
  | 1 => inClass 4 (field w 19 5) fun d => inRange 3 (field w 5 2) fun n =>
      .ok (.opaS d (r32 (field w 14 5)) (r32 (field w 9 5)) (Fin.ofNat 4 (field w 7 2)) n (r32 (field w 0 5)))
  | 2 => unused [field w 8 1] (inClass 4 (field w 19 5) fun d =>
      .ok (.opaT d (r32 (field w 14 5)) (r32 (field w 9 5)) (Fin.ofNat 4 (field w 6 2)) (BitVec.ofNat 6 (field w 0 6))))
  | 3 => unused [field w 0 19] (inClass 4 (field w 19 5) fun d => .ok (.accz d))
  | 4 => unused [field w 9 5] (inClass 4 (field w 14 5) fun a => .ok (.accrd (r32 (field w 19 5)) a (bitOf w 8) (BitVec.ofNat 8 (field w 0 8))))
  | 5 => unused [field w 0 9] (inClass 4 (field w 19 5) fun d => .ok (.drain d (r32 (field w 14 5)) (r32 (field w 9 5))))
  | 6 => unused [field w 7 2] (inClass 4 (field w 19 5) fun d =>
      .ok (.scout d (r32 (field w 14 5)) (r32 (field w 9 5)) (r32 (field w 2 5)) (Fin.ofNat 4 (field w 0 2))))
  | 7 => unused [field w 6 3] (inClass 4 (field w 19 5) fun d => inClass 4 (field w 14 5) fun a =>
      .ok (.thresh d a (r32 (field w 9 5)) (bitOf w 5) (r32 (field w 0 5))))
  | 8 =>
    match field w 6 3 with
    | 0 => unused [field w 1 5] (inClass 4 (field w 19 5) fun d => inClass 4 (field w 14 5) fun a => inClass 4 (field w 9 5) fun b =>
        .ok (.tmand d a b (bitOf w 0)))
    | 1 => unused [field w 0 6, field w 9 5] (inClass 4 (field w 14 5) fun a => .ok (.tmpopc (r32 (field w 19 5)) a))
    | _ => .error .selector
  | _ => .error .opcode

/-- The fields of VLD and VST at LAY 0 and 1 (R291). -/
def vmemRow (w : Nat) (k : VRegN → GReg → GReg → GReg → Bool → Instr) : Decoded :=
  .ok (k (r32 (field w 19 5)) (r32 (field w 14 5)) (r32 (field w 9 5)) (r32 (field w 2 5)) (bitOf w 0))

/-- The fields of a gather or scatter (R291). -/
def gatherRow (w : Nat) (k : VRegN → GReg → VRegN → GReg → Instr) : Decoded :=
  .ok (k (r32 (field w 19 5)) (r32 (field w 14 5)) (r32 (field w 9 5)) (r32 (field w 0 5)))

/-- Row Dx of the opcode map (R291). -/
def decodeD (lo w : Nat) : Decoded :=
  match lo with
  | 0 => unused [field w 7 2] (
    match field w 0 2 with
    | 2 => vmemRow w fun d a b c _ => .vldCompressed d a b c
    | 3 => unused [field w 9 5, field w 2 5] (inClass 8 (field w 14 5) fun a => .ok (.vldPop (r32 (field w 19 5)) a))
    | _ => vmemRow w .vld)
  | 1 => unused [field w 7 2] (if bitOf w 1 then .error .fieldValue else vmemRow w .vst)
  | 2 => unused [field w 5 4] (gatherRow w .vgather)
  | 3 =>
    match field w 6 3 with
    | 0 => unused [field w 5 1] (gatherRow w .vscatterOrd)
    | 1 => unused [field w 5 1] (gatherRow w .vscatterUno)
    | _ => .error .selector
  | 4 => unused [field w 19 5] (inRange 7 (field w 6 3) fun r => .ok (.cpy (r32 (field w 14 5)) (r32 (field w 9 5)) r (Fin.ofNat 64 (field w 0 6))))
  | 5 => unused [field w 19 5] (inRange 7 (field w 6 3) fun r => .ok (.cpyx (r32 (field w 14 5)) (r32 (field w 9 5)) r (Fin.ofNat 64 (field w 0 6))))
  | 6 =>
    match field w 6 3 with
    | 0 => unused [field w 9 5, field w 0 6] (.ok (.waitany (r32 (field w 19 5)) (r32 (field w 14 5))))
    | 1 => unused [field w 19 5, field w 9 5, field w 0 6] (.ok (.waitall (r32 (field w 14 5))))
    | 2 => unused [field w 9 5, field w 0 6] (.ok (.ffrdy (r32 (field w 19 5)) (r32 (field w 14 5))))
    | 3 => unused [field w 9 10] (.ok (.tagcnt (r32 (field w 19 5)) (Fin.ofNat 64 (field w 0 6))))
    | _ => .error .selector
  | 7 => unused [field w 6 18] (.ok (.commit (Fin.ofNat 64 (field w 0 6))))
  | 8 =>
    match field w 6 3 with
    | 0 => unused [field w 1 5] (inClass 8 (field w 19 5) fun d => .ok (.sqopen d (r32 (field w 14 5)) (r32 (field w 9 5)) (bitOf w 0)))
    | 1 => unused [field w 9 5, field w 0 6] (inClass 8 (field w 19 5) fun d => .ok (.sqadv d (r32 (field w 14 5))))
    | 2 => unused [field w 9 10, field w 0 6] (inClass 8 (field w 19 5) fun d => .ok (.sqend d))
    | 3 => unused [field w 9 10, field w 0 6] (inClass 8 (field w 19 5) fun d => .ok (.sqclose d))
    | _ => .error .selector
  | _ => .error .opcode

/-- The hint group 0xE0 to 0xFE: bits [23:0] are ignored (R187). -/
def decodeHint (op w : Nat) : Decoded :=
  if h : op - 0xE0 < 31 then .ok (.hint ⟨op - 0xE0, h⟩ (BitVec.ofNat 24 (field w 0 24))) else .error .opcode

/-- The row of a word by its primary opcode, its selector and its register classes (R187, checks 2 to 4). -/
def decodeRow (w : Nat) : Decoded :=
  match field w 28 4 with
  | 0 => decode0 (field w 24 4) w
  | 1 => decode1 (field w 24 4) w
  | 2 => decode2 (field w 24 4) w
  | 3 => decode3 (field w 24 4) w
  | 4 => decode4 (field w 24 4) w
  | 5 => decode5 (field w 24 4) w
  | 6 => decode6 (field w 24 4) w
  | 7 => decode7 (field w 24 4) w
  | 8 => decode8 (field w 24 4) w
  | 9 => decode9 (field w 24 4) w
  | 10 => decodeA (field w 24 4) w
  | 11 => decodeB (field w 24 4) w
  | 12 => decodeC (field w 24 4) w
  | 13 => decodeD (field w 24 4) w
  | _ => decodeHint (field w 24 8) w

/-- Decoding a word: its row, and then the field values the encoding tables refuse. -/
def decode (w : Nat) : Decoded :=
  match decodeRow w with
  | .ok i => if i.wf then .ok i else .error .fieldValue
  | .error e => .error e

/-- Decoding the bytes that stand at an instruction's address: the first four make the word; the rest is left over. -/
def decodeBytes : List (BitVec 8) → Decoded × List (BitVec 8)
  | b0 :: b1 :: b2 :: b3 :: rest => (decode (wordOfBytes [b0, b1, b2, b3]), rest)
  | short => (.error .opcode, short)

/-- The four bytes of a word in the order in which they stand in memory (R182). -/
def bytesOfWord (w : Nat) : List (BitVec 8) :=
  [BitVec.ofNat 8 w, BitVec.ofNat 8 (w / 2 ^ 8), BitVec.ofNat 8 (w / 2 ^ 16), BitVec.ofNat 8 (w / 2 ^ 24)]

/-- What the decoder reads from an instruction whose bits are `w`: every instruction is one word of 32 bits, so the bits above
`nbits` are zero and the rest is laid out little-endian. -/
def decodeTableWord (nbits w : Nat) : Option Instr := (decodeBytes (bytesOfWord (w % 2 ^ nbits % 2 ^ 32))).1.toOption

/-! ## The encoder -/

/-- Form T: op, d, a, b, fn (R183). -/
def packT (op d a b fn : Nat) : Nat := op * 2 ^ 24 + d * 2 ^ 19 + a * 2 ^ 14 + b * 2 ^ 9 + fn

/-- Forms I and B: op, d, a and a 14-bit field (R183). -/
def packI (op d a imm : Nat) : Nat := op * 2 ^ 24 + d * 2 ^ 19 + a * 2 ^ 14 + imm

/-- Form L: op, d and a 19-bit field (R183). -/
def packL (op d imm : Nat) : Nat := op * 2 ^ 24 + d * 2 ^ 19 + imm

/-- Form J: op and a 24-bit field (R183). -/
def packJ (op off : Nat) : Nat := op * 2 ^ 24 + off

/-- The word of an instruction; none for the rows that have no word. -/
def encode : Instr → Option Nat
  | .add d a b => some (packT 0x01 d a b 0)
  | .sub d a b => some (packT 0x02 d a b 0)
  | .mul d a b => some (packT 0x03 d a b 0)
  | .mulh d a b => some (packT 0x04 d a b 0)
  | .mulhU d a b => some (packT 0x04 d a b 1)
  | .div d a b => some (packT 0x05 d a b 0)
  | .divU d a b => some (packT 0x05 d a b 1)
  | .rem d a b => some (packT 0x06 d a b 0)
  | .remU d a b => some (packT 0x06 d a b 1)
  | .and d a b => some (packT 0x07 d a b 0)
  | .or d a b => some (packT 0x08 d a b 0)
  | .xor d a b => some (packT 0x09 d a b 0)
  | .shl d a b => some (packT 0x0A d a b 0)
  | .shr d a b => some (packT 0x0B d a b 0)
  | .sar d a b => some (packT 0x0C d a b 0)
  | .min d a b => some (packT 0x0D d a b 0)
  | .minU d a b => some (packT 0x0D d a b 1)
  | .max d a b => some (packT 0x0E d a b 0)
  | .maxU d a b => some (packT 0x0E d a b 1)
  | .setEq d a b => some (packT 0x0F d a b 0)
  | .setLt d a b => some (packT 0x0F d a b 64)
  | .setLtu d a b => some (packT 0x0F d a b 128)
  | .clz d a => some (packT 0x10 d a 0 0)
  | .popc d a => some (packT 0x11 d a 0 0)
  | .sel d a b c => some (packT 0x12 d a b c)
  | .lih d k => some (packL 0x13 d k.toNat)
  | .addI d a i => some (packI 0x14 d a i.toNat)
  | .andI d a i => some (packI 0x15 d a i.toNat)
  | .orI d a i => some (packI 0x16 d a i.toNat)
  | .xorI d a i => some (packI 0x17 d a i.toNat)
  | .shlI d a i => some (packI 0x18 d a i.toNat)
  | .shrI d a i => some (packI 0x19 d a i.toNat)
  | .sarI d a i => some (packI 0x1A d a i.toNat)
  | .setEqI d a i => some (packI 0x1B d a i.toNat)
  | .setLtI d a i => some (packI 0x1C d a i.toNat)
  | .setLtuI d a i => some (packI 0x1D d a i.toNat)
  | .fadd d a b => some (packT 0x20 d a b 0)
  | .fsub d a b => some (packT 0x21 d a b 0)
  | .fmul d a b => some (packT 0x22 d a b 0)
  | .fma d a b c => some (packT 0x23 d a b c)
  | .fdiv d a b => some (packT 0x24 d a b 0)
  | .fsqrt d a => some (packT 0x25 d a 0 0)
  | .fmin d a b => some (packT 0x26 d a b 0)
  | .fmax d a b => some (packT 0x26 d a b 64)
  | .fcmp d a b q => some (packT 0x27 d a b q.toNat)
  | .fcvtS64 d a => some (packT 0x28 d a 0 0)
  | .fcvtN64 d a => some (packT 0x28 d a 0 1)
  | .fcvtFS64 d a => some (packT 0x28 d a 0 2)
  | .fcvtFN64 d a => some (packT 0x28 d a 0 3)
  | .fcvtBits d a => some (packT 0x28 d a 0 4)
  | .fcvtFBits d a => some (packT 0x28 d a 0 5)
  | .b o => some (packJ 0x30 o.toNat)
  | .beq d a o => some (packI 0x31 d a o.toNat)
  | .bne d a o => some (packI 0x32 d a o.toNat)
  | .blt d a o => some (packI 0x33 d a o.toNat)
  | .bge d a o => some (packI 0x34 d a o.toNat)
  | .bltu d a o => some (packI 0x35 d a o.toNat)
  | .bgeu d a o => some (packI 0x36 d a o.toNat)
  | .j o => some (packJ 0x37 o.toNat)
  | .jal d o => some (packL 0x38 d o.toNat)
  | .jr d a i => some (packI 0x39 d a i.toNat)
  | .loop k a l => some (packI 0x3A k a l.toNat)
  | .strip d a b o => some (packT 0x3B d a b o.toNat)
  | .trap k => some (packL 0x40 0 k.toNat)
  | .eret => some (packT 0x41 0 0 0 0)
  | .csrr d c => some (packT 0x42 d 0 0 c.toNat)
  | .csrw a c => some (packT 0x43 0 a 0 c.toNat)
  | .feat d a i => some (packI 0x44 d a i.toNat)
  | .endStrand => some (packT 0x45 0 0 0 0)
  | .wfe d a b => some (packT 0x46 d a b 0)
  | .yield => some (packT 0x46 0 0 0 64)
  | .fenceI => some (packT 0x47 0 0 0 0)
  | .hint op rest => some (packJ (0xE0 + op) rest.toNat)
  | .ldB d a i => some (packI 0x50 d a i.toNat)
  | .ldBu d a i => some (packI 0x51 d a i.toNat)
  | .ldH d a i => some (packI 0x52 d a i.toNat)
  | .ldHu d a i => some (packI 0x53 d a i.toNat)
  | .ldW d a i => some (packI 0x54 d a i.toNat)
  | .ldWu d a i => some (packI 0x55 d a i.toNat)
  | .ldD d a i => some (packI 0x56 d a i.toNat)
  | .ldF d a i => some (packI 0x57 d a i.toNat)
  | .stB d a i => some (packI 0x58 d a i.toNat)
  | .stH d a i => some (packI 0x59 d a i.toNat)
  | .stW d a i => some (packI 0x5A d a i.toNat)
  | .stD d a i => some (packI 0x5B d a i.toNat)
  | .stF d a i => some (packI 0x5C d a i.toNat)
  | .amoAdd d a b w s => some (packT 0x60 d a b (0 * 64 + w.toNat * 8 + s))
  | .amoMin d a b u w s => some (packT 0x60 d a b (1 * 64 + u.toNat * 16 + w.toNat * 8 + s))
  | .amoMax d a b u w s => some (packT 0x60 d a b (2 * 64 + u.toNat * 16 + w.toNat * 8 + s))
  | .amoAnd d a b w s => some (packT 0x60 d a b (3 * 64 + w.toNat * 8 + s))
  | .amoOr d a b w s => some (packT 0x60 d a b (4 * 64 + w.toNat * 8 + s))
  | .amoXor d a b w s => some (packT 0x60 d a b (5 * 64 + w.toNat * 8 + s))
  | .amoSwp d a b w s => some (packT 0x60 d a b (6 * 64 + w.toNat * 8 + s))
  | .amoCas d a b w s => some (packT 0x60 d a b (7 * 64 + w.toNat * 8 + s))
  | .acq a => some (packT 0x61 0 a 0 0)
  | .acqObs d a => some (packT 0x61 d a 0 64)
  | .tryacq d a => some (packT 0x61 d a 0 128)
  | .rel a => some (packT 0x61 0 a 0 192)
  | .bind d a b s => some (packT 0x62 d a b s.toNat)
  | .unbind d a => some (packT 0x62 d a 0 64)
  | .fence t s => some (packT 0x63 0 0 0 (t * 8 + s.toNat))
  | .pfenceCore => some (packT 0x64 0 0 0 0)
  | .pfenceDie => some (packT 0x64 0 0 0 1)
  | .drainst => some (packT 0x65 0 0 0 0)
  | .bar => some (packT 0x66 0 0 0 0)
  | .pubhw a b => some (packT 0x67 0 a b 0)
  | .pubhwFin a b => some (packT 0x67 0 a b 1)
  | .launch d a b => some (packT 0x68 d a b 0)
  | .vcfg d i => some (packI 0x70 d 0 i.toNat)
  | .setvl d a b => some (packT 0x71 d a b 0)
  | .setmode a k => some (packT 0x72 0 a 0 k.toNat)
  | .mmode i => some (packI 0x73 0 0 i.toNat)
  | .vadd d a b x s => some (packT 0x80 d a b (x.toNat * 2 + s.toNat))
  | .vsub d a b x s => some (packT 0x81 d a b (x.toNat * 2 + s.toNat))
  | .vmul d a b x s => some (packT 0x82 d a b (x.toNat * 2 + s.toNat))
  | .vmac d a b x s => some (packT 0x83 d a b (x.toNat * 2 + s.toNat))
  | .vneg d a s => some (packT 0x84 d a 0 s.toNat)
  | .vabs d a s => some (packT 0x85 d a 0 s.toNat)
  | .vmin d a b x s => some (packT 0x86 d a b (x.toNat * 2 + s.toNat))
  | .vmax d a b x s => some (packT 0x86 d a b (64 + x.toNat * 2 + s.toNat))
  | .vand d a b x => some (packT 0x87 d a b (x.toNat * 2))
  | .vor d a b x => some (packT 0x88 d a b (x.toNat * 2))
  | .vxor d a b x => some (packT 0x89 d a b (x.toNat * 2))
  | .vnot d a => some (packT 0x8A d a 0 0)
  | .vshl d a s k => some (packT 0x8B d a 0 (s.toNat * 32 + k))
  | .vshr d a k => some (packT 0x8C d a 0 k)
  | .vcmp d a b x c => some (packT 0x8D d a b (x.toNat * 8 + c))
  | .vsel d a b c => some (packT 0x8E d a b c)
  | .vpopc d a => some (packT 0x90 d a 0 0)
  | .vdot d a b => some (packT 0x91 d a b 0)
  | .vred d a o => some (packT 0x92 d a 0 o)
  | .vscan d a s x => some (packT 0x93 d a 0 (s.toNat * 2 + x.toNat))
  | .vcompress d a c => some (packT 0x94 d a 0 c)
  | .vexpand d a c => some (packT 0x95 d a 0 c)
  | .vslideDn d a b => some (packT 0x96 d a b 0)
  | .vslideUp d a b => some (packT 0x96 d a b 1)
  | .viota d c => some (packT 0x97 d 0 0 c)
  | .viotaIdx d => some (packT 0x97 d 0 0 8)
  | .vmv d a => some (packT 0x98 d a 0 0)
  | .vmvScalar d b s => some (packT 0x98 d 0 b (2 + s.toNat))
  | .vwiden d a => some (packT 0x99 d a 0 0)
  | .vnarrow d a k => some (packT 0x9A d a 0 k)
  | .mand d a b => some (packT 0xA0 d a b 0)
  | .mor d a b => some (packT 0xA0 d a b 64)
  | .mxor d a b => some (packT 0xA0 d a b 128)
  | .mnot d a => some (packT 0xA0 d a 0 192)
  | .mpopc d a => some (packT 0xA1 d a 0 0)
  | .mfirst d a => some (packT 0xA2 d a 0 0)
  | .tagmask d t => some (packT 0xA3 d 0 0 t)
  | .vfadd d a b x n => some (packT 0xB0 d a b (x.toNat * 2 + n.toNat))
  | .vfmul d a b x => some (packT 0xB1 d a b (x.toNat * 2))
  | .vfma d a b x n => some (packT 0xB2 d a b (x.toNat * 2 + n.toNat))
  | .vfexp2 d a => some (packT 0xB3 d a 0 0)
  | .vfrcp d a => some (packT 0xB3 d a 0 64)
  | .vfrsq d a => some (packT 0xB3 d a 0 128)
  | .vfmax d a b x m => some (packT 0xB4 d a b (x.toNat * 2 + m.toNat))
  | .vfcvt d a => some (packT 0xB5 d a 0 0)
  | .vsmax d a b t c => some (packT 0xB6 d a b (t.toNat * 4 + c))
  | .qstat d a s => some (packT 0xB7 d a 0 s)
  | .qscaleH d b s => some (packT 0xB8 d 0 b s)
  | .qscaleR d a b s => some (packT 0xB8 d a b (16 + s))
  | .qscaleZ s => some (packT 0xB8 0 0 0 (32 + s))
  | .quant d a p q s => some (packT 0xB9 d a 0 (p * 32 + q.toNat * 16 + s))
  | .ctab a t => some (packT 0xBA 0 a 0 t)
  | .clook d a t => some (packT 0xBB d a 0 t)
  | .opa d a b s => some (packT 0xC0 d a b s.toNat)
  | .opaAca d a b h l => some (packT 0xC0 d a b (h.toNat * 128 + 64 + l.toNat))
  | .opaS d a b g n i => some (packT 0xC1 d a b (g * 128 + n * 32 + i))
  | .opaT d a b c s => some (packT 0xC2 d a b (c * 64 + s.toNat))
  | .accz d => some (packT 0xC3 d 0 0 0)
  | .accrd d a c r => some (packT 0xC4 d a 0 (c.toNat * 256 + r.toNat))
  | .drain d a b => some (packT 0xC5 d a b 0)
  | .scout d a b e p => some (packT 0xC6 d a b (e * 4 + p))
  | .thresh d a b g c => some (packT 0xC7 d a b (g.toNat * 32 + c))
  | .tmand d a b n => some (packT 0xC8 d a b n.toNat)
  | .tmpopc d a => some (packT 0xC8 d a 0 64)
  | .vld d a b c l => some (packT 0xD0 d a b (c * 4 + l.toNat))
  | .vldCompressed d a b c => some (packT 0xD0 d a b (c * 4 + 2))
  | .vldPop d a => some (packT 0xD0 d a 0 3)
  | .vst d a b c l => some (packT 0xD1 d a b (c * 4 + l.toNat))
  | .vgather d a b c => some (packT 0xD2 d a b c)
  | .vscatterOrd d a b c => some (packT 0xD3 d a b c)
  | .vscatterUno d a b c => some (packT 0xD3 d a b (64 + c))
  | .cpy a b r t => some (packT 0xD4 0 a b (r * 64 + t))
  | .cpyx a b r t => some (packT 0xD5 0 a b (r * 64 + t))
  | .waitany d a => some (packT 0xD6 d a 0 0)
  | .waitall a => some (packT 0xD6 0 a 0 64)
  | .ffrdy d a => some (packT 0xD6 d a 0 128)
  | .tagcnt d t => some (packT 0xD6 d 0 0 (192 + t))
  | .commit t => some (packT 0xD7 0 0 0 t)
  | .sqopen d a b f => some (packT 0xD8 d a b f.toNat)
  | .sqadv d a => some (packT 0xD8 d a 0 64)
  | .sqend d => some (packT 0xD8 d 0 0 128)
  | .sqclose d => some (packT 0xD8 d 0 0 192)
  | _ => none

end Sys2Proof
end

