-- ==== Sys2Proof/Machine/State.lean ====
section
/-! DEFINITION. The state of the package as plain data, and its value after reset. Every piece of state that the spec names is
a field; INVENTORY.md lists each with its rule and reset value. -/

namespace Sys2Proof.Machine

/-- Memory: the bytes that differ from zero, by rising address (log entry 2). -/
abbrev Memory := List Host.Cell

/-- What a byte that memory does not list reads as: zero (R153; log entry 2). -/
def unlistedByte : BitVec 8 := 0

/-! ## A strand -/

/-- A poisoned 64-bit word of a plane: plane, segment, and the address of the instruction that wrote it (R344). -/
structure PoisonMark where
  plane : Nat
  seg : Nat
  producer : Word
deriving DecidableEq, Repr

/-- A vector register: its tag, its planes from plane 0 up, its scale plane (zero when unblocked), its poison marks and the addresses of the instructions that
wrote its words, each with the first segment that it wrote, in rising order (R344). A register that was never written holds no planes (R44, R49). -/
structure VReg where
  tag : BitVec 16
  planes : List Plane
  scale : Plane
  poison : List PoisonMark
  writers : List (Nat × Word)
deriving DecidableEq, Repr

/-- A zero-overhead loop: ACT, COUNT, Start and End (R212). -/
structure Loop where
  act : Bool
  count : BitVec 32
  start : Word
  last : Word
deriving DecidableEq, Repr

/-- A store-fault record (R342). -/
structure SfRec where
  w0 : Word
  w1 : Word
  w2 : Word
  w3 : Word
deriving DecidableEq, Repr

/-- A committed scalar store that waits in the store queue, not yet translated; the latches are those of the binding in force when
the store was issued, one for each byte (R341, R113); `float` marks ST.F, which no CTL leaf allows (R294), `ih` a handler's own store (R339), and `defer` one that shares a byte with an older
store that faulted while it stood in the queue (R341). -/
structure QStore where
  va : Word
  size : Nat
  data : Word
  pc : Word
  priv : Bool
  latches : List (Option Word)
  float : Bool
  ih : Bool
  defer : Bool
deriving DecidableEq, Repr

/-- Where a byte lives: device memory and the host window by physical address, or the scratch of a core (R101). -/
inductive Loc where
  | mem (pa : Nat)
  | scratch (mesh off : Nat)
deriving DecidableEq, Repr

/-- One byte of a write: its place, its value, the mask of the bits it writes (R99), and the latch its location is bound to when
the write was issued (R113). -/
structure ByteWrite where
  loc : Loc
  val : BitVec 8
  mask : BitVec 8
  latch : Option Word
deriving DecidableEq, Repr

/-- The two paths of a strand (R99). -/
inductive Path where
  | scalar | vector
deriving DecidableEq, Repr

/-- A write on its way to its home: the strand that made it, its path, the context it is charged to, whether its leaf allocates
in caches, its bytes, and whether a slice performs it as an engine access, past the core's copies, as it does a scatter element (R97 to R99, R137, R399). -/
structure Write where
  sid : Nat
  path : Path
  ctx : Nat
  wb : Bool
  bytes : List ByteWrite
  slice : Bool
deriving DecidableEq, Repr

/-- The states of a stream slot (R134). -/
inductive SlotState where
  | closed | open | ended
deriving DecidableEq, Repr

/-- How a fault of a stream's refill is reported at the pop that needs the element: as a translation fault or a memory error with its record, or as an illegal
operation for a row pointer that decreases (R136, R314). -/
inductive StreamFault where
  | xlate (r : Vector Word 4)
  | memory (r : Vector Word 4)
  | order
deriving DecidableEq, Repr

/-- A block of a stream that has landed: its number and the codes of its elements; `faults` names the elements of the stream whose reads
faulted, lowest first, each with the trap that reports it (R135, R136, R314). -/
structure LandedBlock where
  block : Nat
  codes : List Nat
  faults : List (Nat × StreamFault)
deriving DecidableEq, Repr

/-- A stream slot: its state, the pattern as SQOPEN read it (fib, role of the slot in the pair, g[b] and g[a] to g[a + 3]), its element tag, the mode
of the strand at SQOPEN (R30), its position, how many elements it has once that is known, the blocks that have landed, the numbers of the landing-buffer slots it reserves, the block at which
refills end once SQEND has come, and whether a pop waits for a block beyond the one it began in (R134, R135, R314). -/
structure Stream where
  st : SlotState
  fib : Bool
  index : Bool
  desc : Word
  pat : List Word
  tag : BitVec 16
  priv : Bool
  pos : Nat
  size : Option Nat
  landed : List LandedBlock
  slots : List Nat
  bound : Option Nat
  want : Bool
deriving DecidableEq, Repr

/-- The destination of a vector instruction stopped part-way, as it was before the instruction: a vector register with the numbers of its physical
planes, a mask register, or none for an instruction that writes neither (R173, R338). -/
inductive HeldReg where
  | vec (r : Fin 32) (old : VReg) (at_ : List Nat)
  | mask (r : Fin 8) (old : Plane)
  | none
deriving DecidableEq, Repr

/-- The held mapping of a vector instruction stopped part-way: its destination before the instruction, the instruction's address, and the flags
that its completed elements raised, which reach VFLAGS at its retirement (R173, R338). -/
structure Held where
  reg : HeldReg
  addr : Word
  flags : Nat
deriving DecidableEq, Repr

/-- Leave for a heavy instruction: not asked, asked for some steps at some cycle, or granted, by an instruction of chapter 13 (`array`) or not (R284, R333); or an MMODE that waits for its place
among those that change FMT (R272). -/
inductive Leave where
  | none
  | asked (steps cycle : Nat) (array : Bool)
  | granted (array : Bool)
  | format (place : Nat)
deriving DecidableEq, Repr

/-- Whether a strand is resident and running, has ended, or is absent. -/
inductive Life where
  | absent | running | ended
deriving DecidableEq, Repr

/-- A latch that a strand holds: its virtual address, the physical address of its word, and whether its leaf allocates in caches (R108, R343). -/
structure HeldLatch where
  va : Word
  pa : Nat
  wb : Bool
deriving DecidableEq, Repr

/-- A strand of a core. A strand that has ended, or is absent since its launch left the core, keeps what its registers held (R221). `maps` is its renaming map: the physical planes that each vector register
occupies, plane 0 first and a scale plane last (R145, R172). `pwait` holds, while PFENCE.DIE waits, the number of durable entries that each die's persist queue must reach
(R155); `call` the number of the remote access for whose reply the instruction at pc waits (R382); `doubleFault` that a store of its handler faulted (R339); `stopping` that a pre-emption
stops it at this boundary, after a trap that is due there (R349, R352). -/
structure Strand where
  mesh : Nat
  sid : Nat
  life : Life
  launch : Nat
  pc : Word
  priv : Bool
  g : Vector Word 32
  f : Vector (BitVec 32) 16
  v : Vector VReg 32
  maps : Vector (List Nat) 32
  m : Vector Plane 8
  tm : Vector TileMask 4
  lc : Vector Loop 3
  vl : Nat
  six : Nat
  hwm : Word
  mode : Word
  vflags : Word
  seed : Word
  sbase : Word
  mvl : Nat
  nbl : Nat
  rcause : Word
  rectpos : Word
  patchbase : Word
  pub : Word
  tvec : Word
  tcause : Word
  tepc : Word
  tstat : Word
  tsix : Word
  trec : Vector Word 4
  tscr : Word
  sfq : List SfRec
  stq : List QStore
  vwq : List Write
  ctx : Nat
  part : Nat
  budget : Nat
  tagFirst : Nat
  tagCount : Nat
  ceiling : Nat
  replay : Bool
  compl : Word
  sq : Vector Stream 8
  held : Option Held
  patch : List (Word × Word)
  loopBuf : List (Word × BitVec 32)
  latches : List HeldLatch
  epoch : Nat
  arrived : Bool
  leave : Leave
  pwait : Option (Vector Nat 4)
  call : Option Nat
  doubleFault : Bool
  stopping : Bool
deriving DecidableEq, Repr

/-! ## A core -/

/-- The states of a tag (R125). -/
inductive TagState where
  | free | busy | ready | landed
deriving DecidableEq, Repr

/-- A copy command as issued: CPYX or CPY, its DIR, the register it names, the four words of g[a] to g[a + 3], SEED and SBASE, the
issuing strand with its context and mode, whether its landing slots are granted, and the codes and scale bytes of a register
source (R122, R130, R309). -/
structure Cmd where
  calico : Bool
  dir : Nat
  reg : Nat
  w : Vector Word 4
  seed : Word
  sbase : Word
  sid : Nat
  ctx : Nat
  part : Nat
  priv : Bool
  granted : Bool
  src : List Nat
  srcScale : List Nat
deriving DecidableEq, Repr

/-- What a chunk of a transfer has read: its number, the codes of its units, the scale bytes of its blocks, and the flags (R126, R130). -/
structure ChunkData where
  chunk : Nat
  codes : List Nat
  scales : List Nat
  flags : Nat
deriving DecidableEq, Repr

/-- A tag: its state, command, chunk-completion mask, ERR, whether ERR has been delivered, FLAGS, whether they have been merged, the record of an
ERR 1, and what has landed of a register destination: codes by unit number and scale bytes by block (R125 to R129, R133);
`lines` names the lines of memory that each chunk wrote (R142), `slots` the numbers of the landing-buffer slots granted to it (R78), and `moved` what a chunk has read
while a bank has not served its reads (R395). -/
structure TagReg where
  st : TagState
  cmd : Option Cmd
  mask : Word
  err : Nat
  told : Bool
  flags : BitVec 16
  merged : Bool
  record : Vector Word 4
  codes : List (Nat × Nat)
  scales : List (Nat × Nat)
  lines : List (Nat × Nat)
  slots : List Nat
  moved : Option ChunkData
deriving DecidableEq, Repr

/-- A scale slot of the Word Unit (R261). `flat` holds the one value of the degenerate channel, as a fraction, for which its scale and zero
point were chosen (R72, R73; log entry 83). -/
structure ScaleSlot where
  hist : Vector (BitVec 32) 16
  head : Fin 16
  scale : BitVec 32
  zp : BitVec 16
  kind : BitVec 16
  flat : Option (Int × Nat)
deriving DecidableEq, Repr

/-- A code table: its entry kind as a type tag, and its entries (R75, R265). -/
structure CodeTable where
  kind : BitVec 16
  entries : Vector (BitVec 16) 256
deriving DecidableEq, Repr

/-- A copy in an L1: the line's number, the context and virtual line through which it was filled, its way in its set, and its 64 bytes (R81, R102). -/
structure L1Copy where
  line : Nat
  ctx : Nat
  vline : Nat
  way : Nat
  data : List (BitVec 8)
deriving DecidableEq, Repr

/-- A grant range of a partition (R25, R34). -/
structure Grant where
  base : Word
  last : Word
deriving DecidableEq, Repr

/-- A translation held in a TLB: the context and partition it was installed for, its leaf's level, the virtual base of the
page in units of the leaf size, the leaf's value as installed with the address of its entry, and the grants and the descriptor
word that it was checked against (R25, R33, R37, R403). -/
structure TlbEntry where
  ctx : Nat
  part : Nat
  level : Nat
  vpage : Nat
  leaf : Word
  entryPa : Nat
  grants : List Grant
  desc : Word
deriving DecidableEq, Repr

/-- A table entry held for later walks: the context it was read for, its level, the virtual prefix above it, and its value (R403). -/
structure WalkEntry where
  ctx : Nat
  part : Nat
  level : Nat
  prefix_ : Nat
  value : Word
deriving DecidableEq, Repr

/-- An instruction-side copy of a line (R404). -/
structure ICopy where
  line : Nat
  data : List (BitVec 8)
deriving DecidableEq, Repr

/-- The states of a shadow slot (R146). -/
inductive ShState where
  | empty | writing | sealed
deriving DecidableEq, Repr

/-- A shadow slot: its header's GEN, PLC, state and check code, the check code of what its cells hold, and whether they show an uncorrectable error when they are
read (R146). -/
structure ShadowSlot where
  gen : Nat
  plc : Nat
  st : ShState
  check : BitVec 64
  found : BitVec 64
  error : Bool
deriving DecidableEq, Repr

/-- A register that one vector instruction may write and another read: a vector, mask, tile-mask or accumulator register, a scale slot or a code table (R176, R267). -/
inductive PipeReg where
  | v (r : Fin 32)
  | m (r : Fin 8)
  | tm (r : Fin 4)
  | acc (r : Fin 4)
  | slot (r : Fin 16)
  | table (r : Fin 4)
deriving DecidableEq, Repr

/-- A scalar register, as a vector instruction reserves it (R232). -/
inductive ScalarReg where
  | g (r : Fin 32)
  | f (r : Fin 16)
deriving DecidableEq, Repr

/-- A vector instruction in the sequencer, from its rename to its retirement: its strand and place in program order, the unit that runs it (none when it takes effect at rename), the registers
it reads and the one it writes, the scalar registers it reserves, the planes that return to the pool, the flags that VFLAGS takes and the scalar registers that take their results as it retires, whether it is one micro-operation, the end of its elements; how many of its micro-operations wait in the window, how many have issued, the first element not issued, the end of the group that runs, the first
element not completed; and the producers that it is chained to (R172 to R176, R232; log entry 52). -/
structure Flight where
  sid : Nat
  age : Nat
  unit : Option ExUnit
  srcs : List PipeReg
  dest : Option PipeReg
  reserves : List ScalarReg
  frees : List Nat
  flags : Word
  results : List (ScalarReg × Word)
  single : Bool
  last : Nat
  waiting : Nat
  groups : Nat
  issued : Nat
  running : Option Nat
  done : Nat
  chained : List Nat
deriving DecidableEq, Repr

/-- How often a unit started another strand's work while this strand stood ready (R175). -/
structure Starve where
  unit : ExUnit
  sid : Nat
  count : Nat
deriving DecidableEq, Repr

/-- A miss of a core's TLB that waits for a walk: who makes the access, its kind and its address (R32). -/
structure Miss where
  sid : Nat
  ctx : Nat
  part : Nat
  priv : Bool
  launch : Nat
  acc : Access
  va : Word
deriving DecidableEq, Repr

/-- The poison of a word of 64 cells of one row of a tile (R344). -/
structure CellPoison where
  tile : Nat
  row : Nat
  word : Nat
  producer : Word
deriving DecidableEq, Repr

/-- A core. `strands` are its strands but for the one whose turn it is, in order of their numbers. `cellWriter` holds, for each word of 64 cells of each row of a
tile, the address of the instruction that wrote it (R344). A shadow write that was asked for stands in
`shRequest`, one that waits for the persist queues in `shTargets`, one that copies in `shWriting` with its slot, and the strands that wait for a seal in
`shWaiters` (R147, R156). `l1` holds the tree bits of the sets of its L1 that were used (R81), `misses` the misses that wait for its walkers (R32), `dirty` the dirty bits of the units of its
shadowed state by slot, and the units written since the shadow write under way copied them (R148, R405), `shDue` the cycle at which that copy ends (R147), and `window` the vector instructions that have not retired (R174). `fuser` is the launch whose fusion `fused` is (R82). -/
structure Core where
  mesh : Nat
  strands : List Strand
  acc : Vector (Vector (BitVec 8192) 256) 2
  owner : Option Nat
  base : Option Int
  count : Nat
  stage : Vector (BitVec 10240) 256
  spec : Vector (BitVec 512) 256
  fmt : Nat
  cellPoison : List CellPoison
  cellWriter : Vector (Vector (Vector Word 4) 256) 4
  scratch : Memory
  tags : Vector TagReg 64
  engq : List (Fin 64)
  scales : Vector ScaleSlot 16
  tables : Vector CodeTable 4
  copies : List L1Copy
  l1 : List (Nat × BitVec 7)
  fused : Bool
  fuser : Nat
  out : List Write
  tlb : List TlbEntry
  walks : List WalkEntry
  misses : List Miss
  icopies : List ICopy
  lanemap0 : Word
  lanemap1 : Word
  trims : List (Nat × Nat)
  dropped : List Nat
  alc : Nat
  pwr : Nat
  shint : Nat
  shen : Bool
  shseal : Nat
  shcnt : Nat
  shtorn : Nat
  shRequest : Bool
  shTargets : Option (Vector Nat 4)
  shWriting : Option Nat
  shDue : Nat
  shWaiters : List Nat
  shBase : Nat
  shFired : Bool
  plc : Nat
  slots : Vector ShadowSlot 2
  dirty : Vector (BitVec 928) 3
  window : List Flight
  starve : List Starve
  boosted : List (ExUnit × Nat)
  launch : Option Nat
  idleSince : Nat
  lostAt : Option Nat
  downRequest : Bool
deriving DecidableEq, Repr

/-! ## A die -/

/-- A memory controller block (R95), with the change of refresh mode that a sample has chosen and the cycle at which it takes
effect, and the refresh modes since the die's reset: from which cycle each holds and whether it is the doubled one, in order (R89, R90). -/
structure Ctrl where
  actthr : Nat
  rfmcnt : Nat
  chan : Nat
  bank : Nat
  row : Nat
  actmax : Nat
  temp : Nat
  dbl : Bool
  bocyc : Nat
  dblNext : Option (Bool × Nat)
  modes : List (Nat × Bool)
deriving DecidableEq, Repr

/-- Who uses no data before a bank has served a request: a strand, the engine that performs a tag's chunk, or the refill of a block of a stream (R395). -/
inductive Waiter where
  | strand (mesh sid : Nat)
  | engine (mesh tag : Nat)
  | stream (mesh sid sq block : Nat)
deriving DecidableEq, Repr

/-- A request queued at a bank: its row and line, the context it is charged to, the cycle of its arrival, whether it reads for the agent that made it, how often its line was
used since, and those that use no data before the bank has served it (R86, R395). -/
structure BankReq where
  row : Nat
  line : Nat
  ctx : Nat
  at_ : Nat
  read : Bool
  uses : Nat
  waiters : List Waiter
deriving DecidableEq, Repr

/-- A DRAM bank: its open row, the row that was open as its latest refresh command began, the cycle in which the latest access completed at it, until when a refresh holds it, from when and until when a back-off does, how many
refresh commands it has performed, which give its refresh pointer, the activation counters that are not zero, and its queue (R86, R89, R92 to R94). -/
structure Bank where
  id : BankId
  row : Option Nat
  rowBefore : Option Nat
  lastAt : Nat
  refreshUntil : Option Nat
  backoff : Option (Nat × Nat)
  commands : Nat
  acts : List (Nat × Nat)
  queue : List BankReq
deriving DecidableEq, Repr

/-- An entry of a persist queue: the bytes it writes and the cycle at which it started, if it has (R154). -/
structure PersistEntry where
  bytes : List (Nat × BitVec 8)
  started : Option Nat
deriving DecidableEq, Repr

/-- An island of cores: THERM, Q, PRESS, its runs of high and of other periods, the periods counted since it entered or left
pressure, how many temperature samples have been due up to the latest, and the steps granted to each partition in the latest period (R375 to R377, R380, R407). -/
structure Island where
  therm : Nat
  q : Nat
  press : Bool
  high : Nat
  low : Nat
  periods : Nat
  sampled : Nat
  steps : Vector Nat 8
deriving DecidableEq, Repr

/-- A hardware queue (R317), with the latest replay that came by it of each graph address (R332). -/
structure HwQueue where
  qbase : Nat
  qsts : Nat
  part : Nat
  dev : Bool
  en : Bool
  npl : Nat
  tail : Nat
  head : Nat
  dberr : Bool
  graphs : List (Word × Nat)
deriving DecidableEq, Repr

/-- A chain port: its link, its neighbour, its flit counts, and the accesses in the open flit with the cycle of the first (R381). -/
structure Port where
  up : Bool
  nbr : Nat
  sent : Nat
  received : Nat
  flit : List Nat
  since : Nat
deriving DecidableEq, Repr

/-- A copy engine: the images in its Calico core's slots (none when empty) and the core it serves next (R123, R132). -/
structure Engine where
  slots : Vector (Option (List (BitVec 8))) 16
  turn : Nat
deriving DecidableEq, Repr

/-- A context's counts that the die has not yet added to memory: FILL, DRAM, WRITEBACK, HIT, BORROWED, LENT, EVICTED (R96, R383). -/
structure CtxCounts where
  ctx : Nat
  n : Vector Nat 7
deriving DecidableEq, Repr

/-- A line in an L2 slice: its number, the context that filled it, and whether it is dirty (R83, R96). -/
structure L2Line where
  line : Nat
  owner : Nat
  dirty : Bool
deriving DecidableEq, Repr

/-- A set of an L2 slice: its 16 ways and its 15 bits of tree pseudo-LRU (R83). -/
structure L2Set where
  slice : Nat
  index : Nat
  ways : Vector (Option L2Line) 16
  plru : BitVec 15
deriving DecidableEq, Repr

/-- A die. `persistAt` is the first cycle at which its persist queue may start another entry, `persistDone` how many entries are durable. -/
structure Die where
  cycle : Nat
  stage : Nat
  fails : Nat
  reason : Nat
  min : Bool
  stageAt : Nat
  bootlock : Bool
  coredis : Vector Word 6
  hostacc : Word
  queues : Vector HwQueue 64
  ctrls : Vector Ctrl 5
  banks : List Bank
  persist : List PersistEntry
  persistAt : Nat
  persistDone : Nat
  islands : Vector Island 12
  ports : Vector Port 4
  engines : Vector Engine 24
  counts : List CtxCounts
  l2 : List L2Set
  periods : Nat
  flushes : Nat
  hbmDone : Vector Nat 2
deriving DecidableEq, Repr

/-! ## The package -/

/-- A descriptor of the invalidation queue (R35). -/
structure Invalidation where
  lo : Word
  hi : Word
deriving DecidableEq, Repr

/-- A partition block (R347, R374), the draw of its latest period on each die in the unit of Control.drawUnit, and its floor in watts. -/
structure Partition where
  ptvec : Word
  savebase : Word
  savelen : Nat
  tcount : Nat
  tctx : Nat
  tcore : Nat
  twg : Nat
  treason : Nat
  allot : Nat
  floor : Nat
  draws : Vector Nat 4
deriving DecidableEq, Repr

/-- A route entry (R382). -/
structure Route where
  w0 : Word
  w1 : Word
  w2 : Word
deriving DecidableEq, Repr

/-- The mailbox (R372), the arguments that the command that runs took when it was started, that command, and each die's count of grant periods when it began. -/
structure Mailbox where
  cmd : Nat
  args : Vector Word 4
  latched : Vector Word 4
  busy : Bool
  sts : Nat
  ret : Word
  running : Nat
  seen : Vector Nat 4
deriving DecidableEq, Repr

/-- A valid binding in a launch's view of its context's table (R110). -/
structure Binding where
  entry : Nat
  rbase : Nat
  rlast : Nat
  latch : Nat
  scope : Nat
deriving DecidableEq, Repr

/-- Where a launch stands: a candidate, placed, being saved for a pre-emption, pre-empted, or finished. -/
inductive LaunchState where
  | candidate | placed | saving | preempted | finished
deriving DecidableEq, Repr

/-- A launch: its record, its acceptance instant, the die and queue (or device path) it came by, its replay and node if it is a node of a graph,
whether its dependence is met and the invalidations that had completed when a read of it faulted (R324), how many launches were placed while it waited (R327), its deficit counters by island (R333), its view of the
binding table (R110), the work groups that were terminated, and the saved-state area of a pre-emption (R350). -/
structure Launch where
  id : Nat
  record : List Word
  order : Nat
  die : Nat
  queue : Nat
  node : Option (Nat × Nat)
  st : LaunchState
  met : Bool
  blocked : Option Nat
  passed : Nat
  def_ : List (Nat × Nat)
  bindings : List Binding
  dead : List Nat
  area : Nat × Nat
  epochs : List (Nat × Nat)
deriving DecidableEq, Repr

/-- A replay whose nodes have not all finished: its records with the snapshot's entries put in, the predecessors of each node, which nodes were
dispatched and which have finished, whether a node was refused, and the previous replay of its graph from its queue (R330 to R332). -/
structure Replay where
  id : Nat
  die : Nat
  queue : Nat
  order : Nat
  ctx : Nat
  graph : Word
  rcompl : Word
  gser : Bool
  records : List (List Word)
  preds : List Nat
  dispatched : List Nat
  finished : List Nat
  refused : Bool
  prev : Option Nat
deriving DecidableEq, Repr

/-- A remote access on its way: its sender, its port and target package, what it does, and its reply once it has come (R382). -/
structure RemoteMsg where
  id : Nat
  mesh : Nat
  sid : Nat
  port : Nat
  pkg : Nat
  access : RemoteAccess
  reply : Option ReplyKind
  store : Option QStore
deriving DecidableEq, Repr

/-- A strand that waits for a write, the place it watches (a line of memory or of a scratch), and whether a write was performed there (R223). -/
structure Watch where
  mesh : Nat
  sid : Nat
  line : Loc
  hit : Bool
deriving DecidableEq, Repr

/-- What moves next: a strand; a strand whose vector instruction performs some element groups and stops there (R167, R173); an event; a read of the host's through
BAR0 (R366, R401); a read of the CDAT object over the DOE mailbox (R365); or a store of the host's to its own memory (R17). -/
inductive Turn where
  | strand (mesh sid : Nat)
  | groups (mesh sid n : Nat)
  | event (i : Instr)
  | hostRead (off size : Nat)
  | cdat (req : List (BitVec 8))
  | hostStore (pa : Nat) (bytes : List (BitVec 8))
deriving DecidableEq, Repr

/-- The saved content of a shadow slot or of a saved-state rectangle: a core with its strands. -/
structure Image where
  mesh : Nat
  slot : Nat
  core : Core
deriving DecidableEq, Repr

/-- The state of the package. `me` is the strand whose turn it is and `core` its core; `cores` are the other cores in mesh order. `replies` are the
answers sent to remote packages, oldest first, `doe` those sent over the DOE mailbox (R371, R382). `bad` names the 8-byte words of memory whose data are an uncorrectable
error (R38, R129, R335, R344), `remotePubs` the publications whose latest high-water mark came over a chain port (R120), `hostBad` that the host's latest access was an Unsupported Request
(R366), `hostStale` what the host's memory holds of the lines of its window whose newest bytes stand in L2 alone (R17, R153). `agenda` names turns with the cycles that pass in each die before them, and `pace` those that pass before a turn that it does not name (R4). -/
structure State where
  me : Strand
  core : Core
  cores : List Core
  mem : Memory
  bad : List Nat
  durable : Memory
  dies : Vector Die 4
  ctxbase : Word
  tiqlo : Word
  tiqhi : Word
  tiqseq : Nat
  tiqdone : Nat
  tiqErr : Bool
  tiqOvf : Bool
  tiq : List Invalidation
  grants : Vector (Vector Grant 16) 8
  parts : Vector Partition 8
  cap : Nat
  chainid : Nat
  cntbase : Word
  routes : Vector Route 64
  mailbox : Mailbox
  fuse : BitVec 16
  pendingFuse : BitVec 16
  firmware : List (BitVec 8)
  locked : List Word
  launches : List Launch
  replays : List Replay
  order : Nat
  images : List Image
  saved : List Image
  remote : List RemoteMsg
  remoteNext : Nat
  remotePubs : List Nat
  doe : List (List (BitVec 8))
  hostAnswer : List (BitVec 8)
  hostPoison : Bool
  hostBad : Bool
  hostOwned : List Nat
  hostStale : List (Nat × List (BitVec 8))
  replies : List ReplyKind
  agenda : List (Vector Nat 4 × Turn)
  pace : Vector Nat 4
  free : Nat
  quota : Option Nat
  watches : List Watch
deriving DecidableEq, Repr

/-- Why a run stops with a fault. The spec delivers every fault as a trap, which is a next state, so no definition of the model answers
with one. -/
inductive Fault where
  /-- Raised by nobody; it stands for an access outside everything the spec lays out. Safe. -/
  | outsideTheMachine
deriving DecidableEq, Repr

/-- Why an instruction has no meaning in the model. -/
inductive Refusal where
  /-- Raised by an arm of exec whose instruction is not modelled yet. Safe: nothing is claimed of it. -/
  | notModelled (mnemonic : String)
deriving DecidableEq, Repr

/-! ## Reset -/

/-- A register as every strand starts with it (R49). -/
def VReg.reset : VReg := ⟨0x0010, [], 0, [], []⟩

/-- A closed stream slot (R166). -/
def Stream.reset : Stream := ⟨.closed, false, false, 0, [], 0, false, 0, none, [], [], none, false⟩

/-- A strand that is not resident: the values of R166 where it gives them, and zero for what the launch supplies (log entry 1). -/
def Strand.reset (mesh sid : Nat) : Strand where
  mesh := mesh
  sid := sid
  life := .absent
  launch := 0
  pc := 0
  priv := false
  g := Vector.replicate 32 0
  f := Vector.replicate 16 0
  v := Vector.replicate 32 VReg.reset
  maps := Vector.replicate 32 []
  m := Vector.replicate 8 0
  tm := Vector.replicate 4 0
  lc := Vector.replicate 3 ⟨false, 0, 0, 0⟩
  vl := 0
  six := 0
  hwm := 0
  mode := 0
  vflags := 0
  seed := 0
  sbase := 0
  mvl := 256
  nbl := 5
  rcause := 0
  rectpos := 0
  patchbase := 0
  pub := 0
  tvec := 0
  tcause := 0
  tepc := 0
  tstat := 0
  tsix := 0
  trec := Vector.replicate 4 0
  tscr := 0
  sfq := []
  stq := []
  vwq := []
  ctx := 0
  part := 0
  budget := 0
  tagFirst := 0
  tagCount := 0
  ceiling := 0
  replay := false
  compl := 0
  sq := Vector.replicate 8 Stream.reset
  held := none
  patch := []
  loopBuf := []
  latches := []
  epoch := 0
  arrived := false
  leave := .none
  pwait := none
  call := none
  doubleFault := false
  stopping := false

/-- A free tag (R125, R166). -/
def TagReg.reset : TagReg := ⟨.free, none, 0, 0, false, 0, false, Vector.replicate 4 0, [], [], [], [], none⟩

/-- A scale slot with the reset values of R261. -/
def ScaleSlot.reset : ScaleSlot := ⟨Vector.replicate 16 0, 0, 0x3F800000, 0, 0x0007, none⟩

/-- A code table as at reset: entry kind n16, entries zero (R265). -/
def CodeTable.reset : CodeTable := ⟨0x001F, Vector.replicate 256 0⟩

/-- A core after reset; its accumulator store as R272 starts a launch, its Muslin registers as R150 gives them, and all lane groups in the
map (log entry 1). -/
def Core.reset (mesh : Nat) (strands : List Strand) : Core where
  mesh := mesh
  strands := strands
  acc := Vector.replicate 2 (Vector.replicate 256 0)
  owner := none
  base := none
  count := 0
  stage := Vector.replicate 256 0
  spec := Vector.replicate 256 0
  fmt := 0
  cellPoison := []
  cellWriter := Vector.replicate 4 (Vector.replicate 256 (Vector.replicate 4 0))
  scratch := []
  tags := Vector.replicate 64 TagReg.reset
  engq := []
  scales := Vector.replicate 16 ScaleSlot.reset
  tables := Vector.replicate 4 CodeTable.reset
  copies := []
  l1 := []
  fused := false
  fuser := 0
  out := []
  tlb := []
  walks := []
  misses := []
  icopies := []
  lanemap0 := 0xFFFFFFFFFFFFFFFF
  lanemap1 := 0xFFFFFFFFFFFFFFFF
  trims := []
  dropped := []
  alc := 8192
  pwr := 0
  shint := 0x400
  shen := true
  shseal := 0
  shcnt := 0
  shtorn := 0
  shRequest := false
  shTargets := none
  shWriting := none
  shDue := 0
  shWaiters := []
  shBase := 0
  shFired := false
  plc := 0
  slots := Vector.replicate 2 ⟨0, 0, .empty, 0, 0, false⟩
  dirty := Vector.replicate 3 0
  window := []
  starve := []
  boosted := []
  launch := none
  idleSince := 0
  lostAt := none
  downRequest := false

/-- The strands of a core, all absent. -/
def strandsReset (mesh : Nat) : List Strand := [Strand.reset mesh 0, Strand.reset mesh 1, Strand.reset mesh 2, Strand.reset mesh 3]

/-- A controller block after reset (R95). -/
def Ctrl.reset : Ctrl := ⟨0x800, 0, 0, 0, 0, 0, 0, false, 0, none, [(0, false)]⟩

/-- A die after its reset (R367, R95, R317). -/
def Die.reset : Die where
  cycle := 0
  stage := 0
  fails := 0
  reason := 0
  min := false
  stageAt := 0
  bootlock := false
  coredis := Vector.replicate 6 0
  hostacc := 0
  queues := Vector.replicate 64 ⟨0, 0, 0, false, false, 0, 0, 0, false, []⟩
  ctrls := Vector.replicate 5 Ctrl.reset
  banks := []
  persist := []
  persistAt := 0
  persistDone := 0
  islands := Vector.replicate 12 ⟨0, 0, false, 0, 0, 0, 0, Vector.replicate 8 0⟩
  ports := Vector.replicate 4 ⟨false, 0, 0, 0, [], 0⟩
  engines := Vector.replicate 24 ⟨Vector.replicate 16 none, 0⟩
  counts := []
  l2 := []
  periods := 0
  flushes := 0
  hbmDone := Vector.replicate 2 0

/-- The package right after power is applied: no stage has begun, no strand is resident, memory lists nothing (R153, R325, R369). -/
def State.reset : State where
  me := Strand.reset 0 0
  core := Core.reset 0 [Strand.reset 0 1, Strand.reset 0 2, Strand.reset 0 3]
  cores := (List.range 1535).map fun k => Core.reset (k + 1) (strandsReset (k + 1))
  mem := []
  bad := []
  durable := []
  dies := Vector.replicate 4 Die.reset
  ctxbase := 0
  tiqlo := 0
  tiqhi := 0
  tiqseq := 0
  tiqdone := 0
  tiqErr := false
  tiqOvf := false
  tiq := []
  grants := Vector.replicate 8 (Vector.replicate 16 ⟨0, 0⟩)
  parts := Vector.replicate 8 ⟨0, 0, 0, 0, 0, 0, 0, 0, 0, 0, Vector.replicate 4 0⟩
  cap := 2400
  chainid := 0
  cntbase := 0
  routes := Vector.replicate 64 ⟨0, 0, 0⟩
  mailbox := ⟨0, Vector.replicate 4 0, Vector.replicate 4 0, false, 0, 0, 0, Vector.replicate 4 0⟩
  fuse := 0
  pendingFuse := 0
  firmware := []
  locked := []
  launches := []
  replays := []
  order := 0
  images := []
  saved := []
  remote := []
  remoteNext := 0
  remotePubs := []
  doe := []
  hostAnswer := []
  hostPoison := false
  hostBad := false
  hostOwned := []
  hostStale := []
  replies := []
  agenda := []
  pace := Vector.replicate 4 1
  free := 0
  quota := none
  watches := []

end Sys2Proof.Machine
end

