-- ==== Sys2Proof/Machine/Memory.lean ====
section
/-! DEFINITION. One byte memory in canonical form: addresses strictly rising, and no entry equal to what an unlisted address
reads as. -/

namespace Sys2Proof.Machine

/-- The byte at an address. -/
def Memory.get : Memory → Nat → BitVec 8
  | [], _ => unlistedByte
  | (a, b) :: t, x => if x < a then unlistedByte else if x = a then b else Memory.get t x

/-- The memory with a byte written; a byte that an unlisted address reads as is not listed. -/
def Memory.set : Memory → Nat → BitVec 8 → Memory
  | [], x, v => if v = unlistedByte then [] else [(x, v)]
  | (a, b) :: t, x, v =>
    if x < a then (if v = unlistedByte then (a, b) :: t else (x, v) :: (a, b) :: t)
    else if x = a then (if v = unlistedByte then t else (x, v) :: t)
    else (a, b) :: Memory.set t x v

/-- The form of a list of cells whose addresses start at `lo` or above. -/
def Memory.wfFrom : Nat → Memory → Bool
  | _, [] => true
  | lo, (a, b) :: t => decide (lo ≤ a) && decide (b ≠ unlistedByte) && Memory.wfFrom (a + 1) t

/-- The canonical form. -/
def Memory.wf (m : Memory) : Bool := Memory.wfFrom 0 m

/-- The `n` bytes from an address up. -/
def Memory.getN (m : Memory) (a : Nat) : Nat → List (BitVec 8)
  | 0 => []
  | n + 1 => m.get a :: Memory.getN m (a + 1) n

/-- Bytes written from an address up. -/
def Memory.setN : Memory → Nat → List (BitVec 8) → Memory
  | m, _, [] => m
  | m, a, b :: bs => Memory.setN (m.set a b) (a + 1) bs

/-- The byte that a masked write leaves where `old` stood (R101). -/
def merge (old val mask : BitVec 8) : BitVec 8 := (old &&& ~~~mask) ||| (val &&& mask)

end Sys2Proof.Machine
end

