-- ==== Sys2Proof/Machine/Focus.lean ====
section
/-! DEFINITION. Reaching the strands, cores and dies of the package: the strand whose turn it is stands apart in State.me and its core in
State.core; these operations read and change any of them, wherever they stand. -/

namespace Sys2Proof.Machine

/-- A strand put among its core's strands, in order of their numbers. -/
def insertStrand (x : Strand) : List Strand → List Strand
  | [] => [x]
  | y :: t => if x.sid < y.sid then x :: y :: t else y :: insertStrand x t

/-- A core put among the others, in mesh order. -/
def insertCore (x : Core) : List Core → List Core
  | [] => [x]
  | y :: t => if x.mesh < y.mesh then x :: y :: t else y :: insertCore x t

/-- Strand `sid` taken out of a list of strands. -/
def takeStrand (sid : Nat) : List Strand → Option (Strand × List Strand)
  | [] => none
  | y :: t => if y.sid = sid then some (y, t) else (takeStrand sid t).map fun p => (p.1, y :: p.2)

/-- Core `mesh` taken out of a list of cores. -/
def takeCore (mesh : Nat) : List Core → Option (Core × List Core)
  | [] => none
  | y :: t => if y.mesh = mesh then some (y, t) else (takeCore mesh t).map fun p => (p.1, y :: p.2)

/-- The core of the strand whose turn it is, whole. -/
def wholeCore (s : State) : Core := { s.core with strands := insertStrand s.me s.core.strands }

/-- The state with the turn given to a strand; unchanged when there is no such strand. -/
def focus (mesh sid : Nat) (s : State) : State :=
  if s.me.mesh = mesh ∧ s.me.sid = sid then s
  else if s.core.mesh = mesh then
    match takeStrand sid s.core.strands with
    | none => s
    | some (x, rest) => { s with me := x, core := { s.core with strands := insertStrand s.me rest } }
  else
    match takeCore mesh s.cores with
    | none => s
    | some (c, rest) =>
      match takeStrand sid c.strands with
      | none => s
      | some (x, others) => { s with me := x, core := { c with strands := others }, cores := insertCore (wholeCore s) rest }

/-- A change of the strand whose turn it is. -/
def onMe (f : Strand → Strand) (s : State) : State := { s with me := f s.me }

/-- A change of the core whose turn it is. -/
def onCore (f : Core → Core) (s : State) : State := { s with core := f s.core }

/-- Core `mesh`, without the strand whose turn it is; a reset core when there is none such. -/
def coreAt (mesh : Nat) (s : State) : Core :=
  if s.core.mesh = mesh then s.core else (s.cores.find? fun c => c.mesh == mesh).getD (Core.reset mesh [])

/-- Core `mesh` changed. -/
def modCore (mesh : Nat) (f : Core → Core) (s : State) : State :=
  if s.core.mesh = mesh then { s with core := f s.core }
  else { s with cores := s.cores.map fun c => if c.mesh = mesh then f c else c }

/-- Every core changed. -/
def mapCores (f : Core → Core) (s : State) : State := { s with core := f s.core, cores := s.cores.map f }

/-- Every strand of every core changed. -/
def mapStrands (f : Strand → Strand) (s : State) : State :=
  { s with
    me := f s.me
    core := { s.core with strands := s.core.strands.map f }
    cores := s.cores.map fun c => { c with strands := c.strands.map f } }

/-- The strands of core `mesh`, the one whose turn it is included. -/
def strandsOf (mesh : Nat) (s : State) : List Strand :=
  if s.core.mesh = mesh then insertStrand s.me s.core.strands else (coreAt mesh s).strands

/-- Every strand of the package. -/
def allStrands (s : State) : List Strand :=
  insertStrand s.me s.core.strands ++ s.cores.flatMap fun c => c.strands

/-- A strand by its core and number. -/
def strandAt (mesh sid : Nat) (s : State) : Option Strand := (strandsOf mesh s).find? fun t => t.sid == sid

/-- What `f` does when the turn is given to a strand, with the turn given back afterwards; nothing when there is no such strand. -/
def atStrand (mesh sid : Nat) (f : State → State) (s : State) : State :=
  let back := (s.me.mesh, s.me.sid)
  if (strandAt mesh sid s).isSome then focus back.1 back.2 (f (focus mesh sid s)) else s

/-- A strand changed. -/
def modStrand (mesh sid : Nat) (f : Strand → Strand) (s : State) : State :=
  if s.me.mesh = mesh ∧ s.me.sid = sid then onMe f s
  else modCore mesh (fun c => { c with strands := c.strands.map fun t => if t.sid = sid then f t else t }) s

/-- The die of a mesh index: 24 rows of 16 columns each (R1, R23). -/
def dieOfMesh (mesh : Nat) : Nat := mesh / 384

/-- A number below a bound, reduced if it is not. -/
def fin (n : Nat) (h : 0 < n) (k : Nat) : Fin n := ⟨k % n, Nat.mod_lt k h⟩

/-- Die `d`. -/
def dieAt (d : Nat) (s : State) : Die := s.dies[fin 4 (by decide) d]

/-- Die `d` changed. -/
def modDie (d : Nat) (f : Die → Die) (s : State) : State :=
  let i := fin 4 (by decide) d
  { s with dies := s.dies.set i (f s.dies[i]) }

/-- The launch with a number, if it is held. -/
def launchAt (id : Nat) (s : State) : Option Launch := s.launches.find? fun l => l.id == id

/-- A launch changed. -/
def modLaunch (id : Nat) (f : Launch → Launch) (s : State) : State :=
  { s with launches := s.launches.map fun l => if l.id = id then f l else l }

/-- The cycle count of the die of the strand whose turn it is. -/
def now (s : State) : Nat := (dieAt (dieOfMesh s.me.mesh) s).cycle

/-- A free value: the count of draws advances (log entry 5). -/
def draw (s : State) : Nat × State := (s.free, { s with free := s.free + 1 })

end Sys2Proof.Machine
end

