-- ==== Sys2Proof/Machine/Home.lean ====
section
/-! DEFINITION. The homes of locations: the physical map (R14), L2 slices with their charging (R83, R96, R399), the requests that reach
DRAM (R86 to R88), the persist queues (R154), and the instant at which an access is performed at its home (R101). -/

namespace Sys2Proof.Machine

/-- The parts of the physical map (R14). -/
inductive Region where
  | hbm | lpddr | persistent (die : Nat) | control | host | hole
deriving DecidableEq, Repr

/-- The part of the physical map an address lies in (R14). -/
def regionOf (pa : Nat) : Region :=
  if pa < 0x8000000000 then .hbm
  else if 0x10000000000 ≤ pa ∧ pa < 0x20000000000 then .lpddr
  else if 0x20000000000 ≤ pa ∧ pa < 0x20040000000 then .persistent ((pa - 0x20000000000) / 0x10000000)
  else if 0x40000000000 ≤ pa ∧ pa < 0x41000000000 then .control
  else if 0x8000000000000 ≤ pa ∧ pa < 0x10000000000000 then .host
  else .hole

/-- Whether an address lies in the package's own memory: HBM4, the capacity tier or a persistent window (R108). -/
def ownMemory (pa : Nat) : Bool :=
  match regionOf pa with
  | .hbm => true
  | .lpddr => true
  | .persistent _ => true
  | _ => false

/-- The stack that serves an HBM4 address (R15). -/
def stackOf (pa : Nat) : Nat := field pa 12 3 ^^^ field pa 15 3

/-- The controller that serves an address of the capacity tier (R15). -/
def tierOf (pa : Nat) : Nat := field pa 12 28 % 12

/-- The home die of a physical address (R83). -/
def homeDie (pa : Nat) : Nat :=
  match regionOf pa with
  | .hbm => stackOf pa / 2
  | .lpddr => tierOf pa / 3
  | .persistent d => d
  | _ => 0

/-- The bank and row that serve an address of DRAM (R87, R88); none for other memory. -/
def bankOf (pa : Nat) : Option (BankId × Nat) :=
  match regionOf pa with
  | .hbm =>
    let sa := field pa 15 24 * 4096 + field pa 0 12
    some (⟨homeDie pa, stackOf pa % 2, field sa 7 5 * 2 + field sa 6 1, field sa 16 6 ^^^ field sa 22 6⟩, field sa 22 14)
  | .lpddr =>
    let o := pa - 0x10000000000
    let ca := o / 4096 / 12 * 4096 + o % 4096
    some (⟨homeDie pa, 2 + tierOf pa % 3, field ca 16 3 * 2 + field ca 6 1, field ca 12 4 ^^^ field ca 19 4⟩, field ca 19 18)
  | _ => none

/-- The cycles from one refresh interval of a bank to the next in normal mode, and the cycles by which the banks of a sub-channel follow one another
(R89). -/
def refreshStep (id : BankId) (doubled : Bool) : Nat := if id.ctrl < 2 ∧ doubled then 2112 else 4224
def refreshSkew (id : BankId) (doubled : Bool) : Nat := if id.ctrl < 2 then refreshStep id doubled / 64 else 264

/-- The start of the first refresh interval of a bank at or after a cycle, in one mode (R89). -/
def refreshFrom (id : BankId) (doubled : Bool) (t : Nat) : Nat :=
  let i := refreshStep id doubled
  let o := id.bank * refreshSkew id doubled
  o + ((t - o) + i - 1) / i * i

/-- A bank that no access and no refresh has reached: closed, its pointer at row 0, its counters zero (R89, R92). -/
def Bank.reset (id : BankId) : Bank := ⟨id, none, none, 0, none, none, 0, [], []⟩

/-- A bank changed, put into the list if it was not there. -/
def modBankList (id : BankId) (f : Bank → Bank) : List Bank → List Bank
  | [] => [f (Bank.reset id)]
  | b :: t => if b.id = id then f b :: t else b :: modBankList id f t

/-- A bank of the package changed. -/
def modBank (id : BankId) (f : Bank → Bank) (s : State) : State :=
  modDie id.die (fun d => { d with banks := modBankList id f d.banks }) s

/-- A bank as it stands. -/
def bankAt (id : BankId) (s : State) : Bank := ((dieAt id.die s).banks.find? fun b => b.id == id).getD (Bank.reset id)

/-- A request that arrives at the bank of an address; `read` marks one whose data an agent waits for (R86). -/
def dramRequest (ctx pa : Nat) (read : Bool) (s : State) : State :=
  match bankOf pa with
  | none => s
  | some (id, row) => modBank id (fun b => { b with queue := b.queue ++ [⟨row, pa / 64, ctx, (dieAt id.die s).cycle, read, 0, []⟩] }) s

/-- A request whose line is used again. -/
def usedAgain (line : Nat) (r : BankReq) : BankReq := if r.read && r.line == line then { r with uses := r.uses + 1 } else r

/-- A line used that a read still brings from its bank: whoever uses it waits for that read too (R395). -/
def joinRead (line : Nat) (s : State) : State :=
  match bankOf (line * 64) with
  | none => s
  | some (id, _) =>
    if (bankAt id s).queue.any fun r => r.read && r.line == line then modBank id (fun b => { b with queue := b.queue.map (usedAgain line) }) s else s

/-- The requests of a queue for which an agent waits: those that read and came since, and those whose lines it has used (R395). -/
def claimed (who : Waiter) (before q : List BankReq) : List BankReq :=
  q.mapIdx fun k r =>
    let mine := match before[k]? with | none => r.read | some b => decide (b.uses < r.uses)
    if mine && !r.waiters.contains who then { r with waiters := r.waiters ++ [who] } else r

/-- The requests that an agent has put to the banks, or whose lines it has used: it uses no data before they are served (R395). -/
def noteWaits (who : Waiter) (before after : State) : State :=
  { after with dies := after.dies.map fun d => { d with banks := d.banks.map fun b => { b with queue := claimed who (bankAt b.id before).queue b.queue } } }

/-- Whether a bank still holds a request for which one of some agents waits (R395). -/
def waitsAtBank (p : Waiter → Bool) (s : State) : Bool := s.dies.toList.any fun d => d.banks.any fun b => b.queue.any fun r => r.waiters.any p

/-- The lines used for which one of some agents still waits: whoever uses them waits too (R395). -/
def joinWaits (p : Waiter → Bool) (s : State) : State :=
  { s with dies := s.dies.map fun d =>
      { d with banks := d.banks.map fun b => { b with queue := b.queue.map fun r => if r.waiters.any p then { r with uses := r.uses + 1 } else r } } }

/-! ## Chain ports -/

/-- A chain port whose open flit has left if its first access came 64 cycles ago (R381). -/
def flitLeft (t : Nat) (p : Port) : Port := if p.flit ≠ [] ∧ p.since + 64 ≤ t then { p with flit := [], sent := p.sent + 1 } else p

/-! ## Charging (R96) -/

/-- The places of the counts of a context. -/
def cFILL : Fin 7 := 0
def cDRAM : Fin 7 := 1
def cWB : Fin 7 := 2
def cHIT : Fin 7 := 3
def cBORROWED : Fin 7 := 4
def cLENT : Fin 7 := 5
def cEVICTED : Fin 7 := 6

/-- The owner of a line that the host filled: no context. -/
def noCtx : Nat := 4096

/-- A count of a context raised in a list of counts. -/
def bumpList (ctx : Nat) (k : Fin 7) (by_ : Nat) : List CtxCounts → List CtxCounts
  | [] => [⟨ctx, (Vector.replicate 7 0).set k by_⟩]
  | c :: t => if c.ctx = ctx then ⟨ctx, c.n.set k (c.n[k] + by_)⟩ :: t else c :: bumpList ctx k by_ t

/-- A count of a context raised at a die; nothing is charged to no context. -/
def charge (die ctx : Nat) (k : Fin 7) (by_ : Nat) (s : State) : State :=
  if ctx = noCtx ∨ by_ = 0 then s else modDie die (fun d => { d with counts := bumpList ctx k by_ d.counts }) s

/-! ## L2 slices -/

/-- The home slice of a line and its set there (R83). -/
def sliceOf (line : Nat) : Nat := line % 48
def setOf (line : Nat) : Nat := line / 48 % 2048

/-- An L2 set with no line; its tree bits are 0 (log entry 72). -/
def L2Set.reset (slice index : Nat) : L2Set := ⟨slice, index, Vector.replicate 16 none, 0⟩

/-- The way that tree pseudo-LRU names, from a node with some levels below it: each bit is 0 for the left half (R81, R83). A tree of `k` bits has `k + 1` ways. -/
def plruVictim {k : Nat} (bits : BitVec k) : Nat → Nat → Nat
  | 0, node => node - k
  | n + 1, node => plruVictim bits n (if bits.getLsbD node then 2 * node + 2 else 2 * node + 1)

/-- The bits after a way was used: every bit on its way points to the other half. -/
def plruTouch {k : Nat} (way : Nat) : Nat → BitVec k → BitVec k
  | 0, bits => bits
  | n + 1, bits =>
    let node := (way + k - (2 ^ (n + 1) - 1)) / 2 ^ (n + 1)
    let right := (way / 2 ^ n) % 2 == 1
    let one : BitVec k := 1#k <<< node
    plruTouch way n (if right then bits &&& ~~~one else bits ||| one)

/-- The first way that holds a line, or that holds none. -/
def findWay (p : Option L2Line → Bool) (ways : List (Option L2Line)) : Option Nat :=
  ways.findIdx? p

/-- A set of L2 changed, put into the list if it was not there. -/
def modSetList (slice index : Nat) (f : L2Set → L2Set) : List L2Set → List L2Set
  | [] => [f (L2Set.reset slice index)]
  | x :: t => if x.slice = slice ∧ x.index = index then f x :: t else x :: modSetList slice index f t

/-- The set of L2 that a line of a die belongs to. -/
def setAt (die line : Nat) (s : State) : L2Set :=
  ((dieAt die s).l2.find? fun x => x.slice == sliceOf line && x.index == setOf line).getD (L2Set.reset (sliceOf line) (setOf line))

/-- The set of L2 of a line put back. -/
def putSet (die line : Nat) (x : L2Set) (s : State) : State :=
  modDie die (fun d => { d with l2 := modSetList (sliceOf line) (setOf line) (fun _ => x) d.l2 }) s

/-- The host's memory holds the newest bytes of the lines that satisfy `p`: they were written back to it, or it took them or wrote them itself (R17). -/
def hostHas (p : Nat → Bool) (s : State) : State := { s with hostStale := s.hostStale.filter fun e => !p e.1 }

/-- The write-back of a dirty line, charged to a context (R96). -/
def writeBack (die ctx line : Nat) (s : State) : State := dramRequest ctx (line * 64) false (charge die ctx cWB 64 (hostHas (fun l => l == line) s))

/-- A hit on a line that `x` owns: a HIT of its owner, BORROWED and LENT of another context; the host's hits count for no context (R96). -/
def chargeHit (die ctx owner : Nat) (s : State) : State :=
  if ctx = noCtx then s else if owner = ctx then charge die ctx cHIT 1 s else charge die owner cLENT 1 (charge die ctx cBORROWED 1 s)

/-- An access of a context to a line in the line's home slice: hits and misses, the victim, the fill, and what each is charged (R83, R84, R96, R399). `n` is how many bytes it
touches, which an access of memory type NC, which passes without allocating, takes from memory; `fill` how many bytes a miss reads from memory. A read that hits a line which a bank has
not brought yet waits for it (R395). A set fills its lowest empty way first
(log entry 72). Lines of the host window and of persistent windows count no DRAM bytes (log entry 73). -/
def l2Access (ctx : Nat) (wb : Bool) (line n fill : Nat) (write : Bool) (s : State) : State :=
  let pa := line * 64
  let die := homeDie pa
  let dram := (bankOf pa).isSome
  if !wb then
    if dram then dramRequest ctx pa (!write) (charge die ctx cDRAM n s) else s
  else
    let st := setAt die line s
    let keepsDirty := match regionOf pa with | .persistent _ => false | _ => true
    match findWay (fun w => match w with | some x => x.line == line | none => false) st.ways.toList with
    | some w =>
      let i := fin 16 (by decide) w
      match st.ways[i] with
      | none => s
      | some x =>
        putSet die line { st with ways := st.ways.set i (some { x with dirty := x.dirty || (write && keepsDirty) }), plru := plruTouch w 4 st.plru }
          (chargeHit die ctx x.owner (if !write || decide (fill = 64) then joinRead line s else s))
    | none =>
      let w := (findWay (fun w => w.isNone) st.ways.toList).getD (plruVictim st.plru 4 0)
      let i := fin 16 (by decide) w
      let s1 :=
        match st.ways[i] with
        | none => s
        | some v => charge die v.owner cEVICTED 1 (if v.dirty then writeBack die ctx v.line s else s)
      let s2 := charge die ctx cFILL 64 s1
      let s3 := if dram ∧ fill ≠ 0 then dramRequest ctx pa (!write || decide (fill = 64)) (charge die ctx cDRAM fill s2) else s2
      putSet die line { st with ways := st.ways.set i (some ⟨line, ctx, write && keepsDirty⟩), plru := plruTouch w 4 st.plru } s3

/-- Bits of a line added to a list of lines, each with the bits of it that are touched. -/
def addLine (line bits : Nat) : List (Nat × Nat) → List (Nat × Nat)
  | [] => [(line, bits)]
  | p :: t => if p.1 = line then (line, p.2 ||| bits) :: t else p :: addLine line bits t

/-- The lines of some masked bytes, each once, with the bits of it that are touched. -/
def lineBits (bs : List (Nat × BitVec 8)) : List (Nat × Nat) :=
  bs.foldl (fun acc b => addLine (b.1 / 64) (b.2.toNat * 2 ^ (8 * (b.1 % 64))) acc) []

/-- How many bytes of a line satisfy `p`, by the bits that are touched. -/
def bytesOfLine (p : Nat → Bool) (bits : Nat) : Nat := ((List.range 64).filter fun k => p (bits / 2 ^ (8 * k) % 256)).length

/-- The accesses of a context to the lines of some addresses, which it reads. -/
def l2Reads (ctx : Nat) (wb : Bool) (pas : List Nat) (s : State) : State :=
  (lineBits (pas.map fun pa => (pa, 0xFF))).foldl (fun s p => l2Access ctx wb p.1 (bytesOfLine (fun b => b != 0) p.2) 64 false s) s

/-- The accesses of one request that writes some masked bytes: a line that misses is filled from memory but for the bytes written whole (R399). -/
def l2Writes (ctx : Nat) (wb : Bool) (bs : List (Nat × BitVec 8)) (s : State) : State :=
  (lineBits bs).foldl (fun s p => l2Access ctx wb p.1 (bytesOfLine (fun b => b != 0) p.2) (64 - bytesOfLine (fun b => b == 255) p.2) true s) s

/-- The accesses of a read-modify-write, which fills a line that misses before it reads (R399). -/
def l2Amo (ctx : Nat) (wb : Bool) (pas : List Nat) (s : State) : State :=
  (lineBits (pas.map fun pa => (pa, 0xFF))).foldl (fun s p => l2Access ctx wb p.1 (bytesOfLine (fun b => b != 0) p.2) 64 true s) s

/-! ## Performing at the home -/

/-- The byte at the home of a location. -/
def homeByte (l : Loc) (s : State) : BitVec 8 :=
  match l with
  | .mem pa => s.mem.get pa
  | .scratch mesh off => (coreAt mesh s).scratch.get off

/-- A write to a unit of a core's shadowed state: both its dirty bits are set, and it counts among the units written since a copy (R148, R405). -/
def markUnit (u : Nat) (d : Vector (BitVec 928) 3) : Vector (BitVec 928) 3 := d.map fun x => x ||| (1#928 <<< u)

/-- A write to some units. -/
def markUnits (us : List Nat) (d : Vector (BitVec 928) 3) : Vector (BitVec 928) 3 := us.foldl (fun d u => markUnit u d) d

/-- The unit of a byte of scratch (R405). -/
def scratchUnit (off : Nat) : Nat := 624 + off / 4096

/-- A masked write of one byte at its home. -/
def homePut (b : ByteWrite) (s : State) : State :=
  match b.loc with
  | .mem pa => { s with mem := s.mem.set pa (merge (s.mem.get pa) b.val b.mask) }
  | .scratch mesh off =>
    modCore mesh (fun c => { c with
      scratch := c.scratch.set off (merge (c.scratch.get off) b.val b.mask), dirty := markUnit (scratchUnit off) c.dirty }) s

/-- The line of a location, as watches name it. -/
def lineLoc : Loc → Loc
  | .mem pa => .mem (pa / 64)
  | .scratch mesh off => .scratch mesh (off / 64)

/-- The watches of a line wake (R223). -/
def wake (l : Loc) (s : State) : State :=
  { s with watches := s.watches.map fun w => if w.line = lineLoc l then { w with hit := true } else w }

/-- The bytes of memory among some bytes, by physical address with their masks. -/
def memMasks (bs : List ByteWrite) : List (Nat × BitVec 8) :=
  bs.filterMap fun b => match b.loc with | .mem pa => some (pa, b.mask) | .scratch _ _ => none

/-- The entry a write makes in the persist queue of a die, if it reached that die's window (R154). -/
def persistEntry (die : Nat) (bs : List ByteWrite) (s : State) : State :=
  let cells := bs.filterMap fun b =>
    match b.loc with
    | .mem pa => if regionOf pa = .persistent die then some (pa, s.mem.get pa) else none
    | .scratch _ _ => none
  if cells.isEmpty then s else modDie die (fun d => { d with persist := d.persist ++ [⟨cells, none⟩] }) s

/-- The lines of the host window that the slice now holds with ownership (R17). -/
def ownHost (bs : List ByteWrite) (s : State) : State :=
  (memMasks bs).foldl (fun s b =>
    if regionOf b.1 = .host ∧ !s.hostOwned.contains (b.1 / 64) then { s with hostOwned := s.hostOwned ++ [b.1 / 64] } else s) s

/-- The words of memory that a write fills whole show no error any more (log entry 74). -/
def mendWords (bs : List ByteWrite) (s : State) : State :=
  if s.bad.isEmpty then s
  else
    let ls := lineBits (memMasks bs)
    { s with bad := s.bad.filter fun w => !(ls.any fun p => p.1 == w / 8 && p.2 / 2 ^ (64 * (w % 8)) % 2 ^ 64 == 2 ^ 64 - 1) }

/-- The first of some locations whose word of memory is an uncorrectable error, as its physical address. -/
def badAt (ls : List Loc) (s : State) : Option Nat :=
  if s.bad.isEmpty then none
  else ls.findSome? fun l => match l with | .mem pa => if s.bad.contains (pa / 8) then some pa else none | .scratch _ _ => none

/-- Whether a line is dirty in its home slice. -/
def lineDirty (line : Nat) (s : State) : Bool := (setAt (homeDie (line * 64)) line s).ways.toList.any fun w => w.any fun x => x.line == line && x.dirty

/-- What the host's memory holds of a line, noted before the first write that stays in L2. -/
def noteStale (line : Nat) (s : State) (h : List (Nat × List (BitVec 8))) : List (Nat × List (BitVec 8)) :=
  if !lineDirty line s || h.any (fun e => e.1 == line) then h else h ++ [(line, s.mem.getN (line * 64) 64)]

/-- A byte that reaches the host's memory past L2. -/
def patchStale (pa : Nat) (b : ByteWrite) (h : List (Nat × List (BitVec 8))) : List (Nat × List (BitVec 8)) :=
  h.map fun e => if e.1 = pa / 64 then (e.1, e.2.mapIdx fun k x => if k = pa % 64 then merge x b.val b.mask else x) else e

/-- What the host's memory holds of its lines in L2 once a write has taken its place: one of memory type WB stays in L2 (R17). -/
def staleAfter (wb : Bool) (bs : List ByteWrite) (s : State) : List (Nat × List (BitVec 8)) :=
  bs.foldl (fun h b =>
    match b.loc with
    | .mem pa => if regionOf pa = .host then (if wb then noteStale (pa / 64) s h else patchStale pa b h) else h
    | .scratch _ _ => h) s.hostStale

/-- A write that takes its place at its home, at one instant (R101): its bytes merge there, the persist queues take it, and watchers wake. -/
def homeBytes (wb : Bool) (bs : List ByteWrite) (s : State) : State :=
  let s1 := mendWords bs (bs.foldl (fun s b => homePut b s) s)
  let s2 := persistEntry 3 bs (persistEntry 2 bs (persistEntry 1 bs (persistEntry 0 bs s1)))
  let s3 := if wb then ownHost bs s2 else s2
  { bs.foldl (fun s b => wake b.loc s) s3 with hostStale := staleAfter wb bs s }

/-- A write performed at its home as one request, which its slice counts. -/
def homeWrite (ctx : Nat) (wb : Bool) (bs : List ByteWrite) (s : State) : State := homeBytes wb bs (l2Writes ctx wb (memMasks bs) s)

/-- The writes at the front of a list that reach their slices in one request with a write of a vector path: those of its strand and path (R399). -/
def sameRequest (w : Write) (ws : List Write) : List Write :=
  if w.path = .vector then ws.takeWhile fun x => x.path == .vector && x.sid == w.sid && x.ctx == w.ctx && x.wb == w.wb && x.slice == w.slice else []

/-- The home slice of some locations, numbered in the package; scratch has none. -/
def sliceKey (ls : List Loc) : Nat :=
  match ls with
  | .mem pa :: _ => homeDie pa * 48 + sliceOf (pa / 64)
  | _ => 192

/-- The requests that the elements of a gather or a scatter are sent in: up to 64 of one home slice, in order (R137). `f` gives an element's locations. -/
def sliceRequests {α : Type} (f : α → List Loc) (xs : List α) : List (List α) :=
  (distinct (xs.map fun x => sliceKey (f x))).flatMap fun k => chunksOf 64 xs.length (xs.filter fun x => sliceKey (f x) == k)

/-- What the slices count of some writes performed in order, with `n` requests at most. -/
def countWrites : Nat → List Write → State → State
  | 0, _, s => s
  | _, [], s => s
  | n + 1, w :: ws, s =>
    let more := sameRequest w ws
    let requests := if w.slice then sliceRequests (fun x => x.bytes.map fun b => b.loc) (w :: more) else [w :: more]
    countWrites n (ws.drop more.length) (requests.foldl (fun s r => l2Writes w.ctx w.wb (memMasks (r.flatMap fun x => x.bytes)) s) s)

/-- Writes performed at their homes, in order. -/
def homeWrites (ws : List Write) (s : State) : State :=
  ws.foldl (fun s w => homeBytes w.wb w.bytes s) (countWrites ws.length ws s)

/-- The bytes of memory among some locations. -/
def memPas (ls : List Loc) : List Nat := ls.filterMap fun l => match l with | .mem pa => some pa | .scratch _ _ => none

/-- Bytes read at their homes at one instant, with the slices' counts. -/
def homeRead (ctx : Nat) (wb : Bool) (ls : List Loc) (s : State) : List (BitVec 8) × State :=
  (ls.map fun l => homeByte l s, l2Reads ctx wb (memPas ls) s)

/-- Whole bytes written from a physical address up. -/
def memBytes (pa : Nat) : List (BitVec 8) → List ByteWrite
  | [] => []
  | b :: bs => ⟨.mem pa, b, 0xFF, none⟩ :: memBytes (pa + 1) bs

/-- The locations of `n` bytes of memory from an address up. -/
def memLocs (pa : Nat) : Nat → List Loc
  | 0 => []
  | n + 1 => .mem pa :: memLocs (pa + 1) n

/-- An 8-byte read at the home, charged to a context, that allocates in L2 or passes it (R32, R84, R96). -/
def read8 (ctx : Nat) (wb : Bool) (pa : Nat) (s : State) : Word × State :=
  let r := homeRead ctx wb (memLocs pa 8) s
  (wd (natOf r.1), r.2)

/-- An 8-byte write at the home. -/
def write8 (ctx : Nat) (wb : Bool) (pa : Nat) (w : Word) (s : State) : State := homeWrite ctx wb (memBytes pa (bytesOf 8 w.toNat)) s

/-- The second half of an 8-byte read-modify-write, whose slice counted it as it read (R399). -/
def put8 (wb : Bool) (pa : Nat) (w : Word) (s : State) : State := homeBytes wb (memBytes pa (bytesOf 8 w.toNat)) s

/-- The first half of an 8-byte read-modify-write: the old value, with the slice's count of the whole access (R96, R399). -/
def amo8 (ctx : Nat) (wb : Bool) (pa : Nat) (s : State) : Word × State :=
  (wd (natOf ((memLocs pa 8).map fun l => homeByte l s)), l2Amo ctx wb (memPas (memLocs pa 8)) s)

end Sys2Proof.Machine
end

