-- ==== Sys2Proof/Machine/Translate.lean ====
section
/-! DEFINITION. Translation (chapter 01): the address form, the window region, remote routes, the TLB, the walk with its checks in
the order of R38, and the fault record of R37. -/

namespace Sys2Proof.Machine

/-- Who makes an access: the strand it acts for, its context, partition, mode and launch, and for an engine its tag (R30, R37). -/
structure Req where
  mesh : Nat
  sid : Nat
  ctx : Nat
  part : Nat
  priv : Bool
  launch : Nat
  eng : Bool
  tag : Nat
deriving DecidableEq, Repr

/-- A strand as the one who makes an access. -/
def reqOf (t : Strand) : Req := ⟨t.mesh, t.sid, t.ctx, t.part, t.priv, t.launch, false, 0⟩

/-- Why a translation fails: SUB, the level, the INFO word, and whether the walker's own access failed (R37, R38). -/
structure XFault where
  sub : Nat
  level : Nat
  info : Word
  walker : Bool
deriving DecidableEq, Repr

/-- The sub-codes of R38. -/
def xADDRFORM : Nat := 1
def xWINDOW : Nat := 2
def xHOLE0 : Nat := 3
def xINVALID : Nat := 4
def xMALFORMED : Nat := 5
def xPRIVILEGE : Nat := 6
def xREAD : Nat := 7
def xWRITE : Nat := 8
def xEXEC : Nat := 9
def xATTRIBUTE : Nat := 10
def xPARTITION : Nat := 11
def xHOLE : Nat := 12
def xPOISON : Nat := 13

/-- The memory types of R29. -/
inductive MemType where
  | wb | nc | ctl
deriving DecidableEq, Repr

/-- Where a virtual address leads. -/
inductive Target where
  | mem (pa : Nat) (mt : MemType)
  | scratch (mesh off : Nat)
  | remote (entry : Nat)
deriving DecidableEq, Repr

/-- The number of an access kind in a fault record (R37). -/
def accessCode : Access → Nat
  | .load => 0
  | .store => 1
  | .fetch => 2
  | .atomic => 3
  | .vload => 4
  | .vstore => 5
  | .gather => 6
  | .scatter => 7
  | .copyRead => 8
  | .copyWrite => 9
  | .refill => 10
  | .walker => 11

/-- Whether an access kind reads, and whether it writes (R30). -/
def accReads : Access → Bool
  | .load => true
  | .atomic => true
  | .vload => true
  | .gather => true
  | .copyRead => true
  | .refill => true
  | _ => false

def accWrites : Access → Bool
  | .store => true
  | .atomic => true
  | .vstore => true
  | .scatter => true
  | .copyWrite => true
  | _ => false

/-- The record of R37; `elem` is ELEM when it is valid. -/
def faultRecord (rq : Req) (acc : Access) (va : Word) (elem : Option Nat) (x : XFault) : Vector Word 4 :=
  let a := if x.walker then 11 else accessCode acc
  #v[wd (rq.ctx * 2 ^ 52 + rq.mesh * 2 ^ 41 + rq.sid * 2 ^ 39 + rq.eng.toNat * 2 ^ 38 + rq.priv.toNat * 2 ^ 37 + elem.isSome.toNat * 2 ^ 36 +
        a * 2 ^ 32 + x.level * 2 ^ 30 + rq.tag * 2 ^ 24 + x.sub),
     va, wd (elem.getD 0), x.info]

/-! ## Entries -/

/-- The bits of an entry (R27). -/
def enV (e : Word) : Bool := bit e 0
def enLEAF (e : Word) : Bool := bit e 1
def enRD (e : Word) : Bool := bit e 2
def enWR (e : Word) : Bool := bit e 3
def enEX (e : Word) : Bool := bit e 4
def enPRIV (e : Word) : Bool := bit e 5
def enGLB (e : Word) : Bool := bit e 6
def enMT (e : Word) : Nat := fld e 7 2
def enAC (e : Word) : Bool := bit e 9
def enDY (e : Word) : Bool := bit e 10
def enPPN (e : Word) : Nat := fld e 14 38

/-- The low bits of an address that a leaf of a level covers (R26). -/
def leafBits (level : Nat) : Nat := 14 + 11 * (3 - level)

/-- The index of an address at a level (R26). -/
def indexAt (level : Nat) (va : Nat) : Nat := if level = 0 then field va 47 10 else field va (leafBits level) 11

/-- Whether the pages of a leaf at a level reach into a range of physical addresses. -/
def leafMeets (level : Nat) (e : Word) (first last : Nat) : Bool :=
  let lo := enPPN e * 2 ^ 14 / 2 ^ leafBits level * 2 ^ leafBits level
  decide (lo ≤ last) && decide (first < lo + 2 ^ leafBits level)

/-- Whether an entry with V set is malformed at a level (R28): a leaf that maps a part of the persistent windows or of control space breaks R18 or R23, wherever in its pages the access
lies. -/
def malformed (level : Nat) (e : Word) : Bool :=
  fld e 52 8 != 0 || fld e 11 3 != 0 || (enLEAF e && level == 0) || (!enLEAF e && level == 3) ||
  (if enLEAF e then
    (enWR e && !enRD e) || enMT e == 3 || (enEX e && enMT e == 2) ||
    (level == 1 && fld e 14 22 != 0) || (level == 2 && fld e 14 11 != 0) ||
    (leafMeets level e 0x20000000000 0x2003FFFFFFF && enMT e != 0) ||
    (leafMeets level e 0x40000000000 0x40FFFFFFFFF && (enMT e != 2 || !enPRIV e))
   else
    fld e 2 9 != 0 ||
    (match regionOf (enPPN e * 2 ^ 14) with
      | .hbm => false
      | .lpddr => false
      | .host => false
      | _ => true))

/-! ## Grants (R25) -/

/-- Whether an enabled grant covers an address, with WRITE set if it is to be written. -/
def granted (gs : List Grant) (write : Bool) (pa : Nat) : Bool :=
  gs.any fun g => bit g.base 0 && (!write || bit g.base 1) && decide (fld g.base 14 38 ≤ pa / 2 ^ 14) && decide (pa / 2 ^ 14 ≤ fld g.last 14 38)

/-- The grants of a partition as they stand. -/
def grantsOf (part : Nat) (s : State) : List Grant := (s.grants[fin 8 (by decide) part]).toList

/-- The two words of a context's descriptor (R24). -/
def descriptor (ctx : Nat) (s : State) : Word × Word :=
  let a := s.ctxbase.toNat + 32 * ctx
  (wd (natOf (s.mem.getN a 8)), wd (natOf (s.mem.getN (a + 8) 8)))

/-! ## Checks on a leaf -/

/-- The checks of R38 from PRIVILEGE on, with gathers, scatters and refills let through an NC leaf like other vector accesses (log entry 75), for an access of `size` bytes through a leaf, against the grants and the descriptor word given:
none when the access is permitted. -/
def leafCheck (rq : Req) (acc : Access) (size : Nat) (level : Nat) (leaf : Word) (gs : List Grant) (desc : Word) (pa : Nat) : Option XFault :=
  let at_ (sub : Nat) : Option XFault := some ⟨sub, level, leaf, false⟩
  let place (sub : Nat) : Option XFault := some ⟨sub, level, wd pa, false⟩
  if enPRIV leaf && !rq.priv then at_ xPRIVILEGE
  else if accReads acc && !enRD leaf then at_ xREAD
  else if accWrites acc && !enWR leaf then at_ xWRITE
  else if acc == .fetch && !enEX leaf then at_ xEXEC
  else if enMT leaf == 2 && !((acc == .load || acc == .store) && (size == 4 || size == 8)) then at_ xATTRIBUTE
  else
    let barred := match regionOf pa with
      | .host => !bit desc 1
      | .persistent _ => !bit desc 2
      | _ => false
    if barred || !granted gs (accWrites acc) pa then place xPARTITION
    else if regionOf pa = .hole then place xHOLE
    else none

/-- The physical address of an access through a leaf. -/
def leafPa (level : Nat) (leaf : Word) (va : Nat) : Nat := enPPN leaf * 2 ^ 14 / 2 ^ leafBits level * 2 ^ leafBits level + va % 2 ^ leafBits level

/-- The memory type of a leaf. -/
def leafType (leaf : Word) : MemType := if enMT leaf == 0 then .wb else if enMT leaf == 1 then .nc else .ctl

/-! ## The TLB and cached walk results (R33, R403) -/

/-- The page number of an address at a leaf's level. -/
def pageAt (level va : Nat) : Nat := va % 2 ^ 57 / 2 ^ leafBits level

/-- Whether a TLB entry translates an address for a context of a partition. -/
def tlbMatch (ctx part va : Nat) (e : TlbEntry) : Bool :=
  (if enGLB e.leaf then e.part == part else e.ctx == ctx) && e.vpage == pageAt e.level va

/-- The most recent at the front, at most `n` of a class. -/
def keepClass {α : Type} (same : α → Bool) : Nat → List α → List α
  | _, [] => []
  | n, x :: t => if same x then (match n with | 0 => keepClass same 0 t | k + 1 => x :: keepClass same k t) else x :: keepClass same n t

/-- An entry used or filled: it moves to the front, and its set keeps 4 ways. -/
def tlbFill (e : TlbEntry) (es : List TlbEntry) : List TlbEntry :=
  keepClass (fun x => x.vpage % 512 == e.vpage % 512) 4
    (e :: es.filter fun x => !(x.vpage == e.vpage && x.level == e.level && x.ctx == e.ctx && x.part == e.part))

/-- A walk result kept, at most 64 of them. -/
def walkFill (e : WalkEntry) (es : List WalkEntry) : List WalkEntry :=
  (e :: es.filter fun x => !(x.ctx == e.ctx && x.level == e.level && x.prefix_ == e.prefix_)).take 64

/-- The walk result held for a level, if there is one. -/
def walkHeld (ctx level va : Nat) (es : List WalkEntry) : Option WalkEntry :=
  es.find? fun x => x.ctx == ctx && x.level == level && x.prefix_ == va % 2 ^ 57 / 2 ^ leafBits level

/-! ## The walk -/

/-- What a walk finds: a leaf with its level and the address of its entry, or a fault. -/
abbrev Walked := Except XFault (Word × Nat × Nat)

/-- The walk from a table of a level down, with `fuel` levels left. A walk result that is used becomes the most recent one; an entry whose word of memory is an uncorrectable error stops the
walk before its bytes are judged INVALID or MALFORMED (R38, R403, log entry 74). -/
def walkFrom (rq : Req) (gs : List Grant) (va : Nat) : Nat → Nat → Nat → State → Walked × State
  | 0, level, _, s => (.error ⟨xMALFORMED, level, 0, false⟩, s)
  | fuel + 1, level, base, s =>
    let pa := base + 8 * indexAt level va
    match walkHeld rq.ctx level va (coreAt rq.mesh s).walks with
    | some x => walkFrom rq gs va fuel (level + 1) (enPPN x.value * 2 ^ 14) (modCore rq.mesh (fun c => { c with walks := walkFill x c.walks }) s)
    | none =>
      if !granted gs false pa then (.error ⟨xPARTITION, level, wd pa, true⟩, s)
      else
        let r := read8 rq.ctx true pa s
        let e := r.1
        if (badAt (memLocs pa 8) s).isSome then (.error ⟨xPOISON, level, 0, true⟩, r.2)
        else if !enV e then (.error ⟨xINVALID, level, e, false⟩, r.2)
        else if malformed level e then (.error ⟨xMALFORMED, level, e, false⟩, r.2)
        else if enLEAF e then (.ok (e, level, pa), r.2)
        else walkFrom rq gs va fuel (level + 1) (enPPN e * 2 ^ 14)
          (modCore rq.mesh (fun c => { c with walks := walkFill ⟨rq.ctx, rq.part, level, va % 2 ^ 57 / 2 ^ leafBits level, e⟩ c.walks }) r.2)

/-- The walk of an address from the level-0 table of its context (R16, R26). Where ROOT names control space, the walk reads the bytes of memory at that address (log entry 76). -/
def walk (rq : Req) (va : Nat) (s : State) : Walked × State :=
  let root := fld (descriptor rq.ctx s).1 13 38 * 2 ^ 13
  if regionOf root = .hole then (.error ⟨xHOLE0, 0, wd root, true⟩, s)
  else walkFrom rq (grantsOf rq.part s) va 4 0 root s

/-- An entry's AC or DY set by compare-and-swap in its memory, charged to the context (R31, R97). -/
def setEntry (rq : Req) (pa : Nat) (e : Word) (s : State) : State := put8 true pa e (amo8 rq.ctx true pa s).2

/-- A translation through a leaf that is permitted: AC is set if it was clear, then DY if the access writes; each needs a grant with
WRITE over the entry (R25, R31). -/
def useLeaf (rq : Req) (acc : Access) (level entryPa : Nat) (leaf : Word) (gs : List Grant) (desc : Word) (va : Nat) (s : State) :
    Except XFault Target × State :=
  let want := if accWrites acc then setBit (setBit leaf 9 true) 10 true else setBit leaf 9 true
  let done (leaf : Word) (s : State) : Except XFault Target × State :=
    (.ok (.mem (leafPa level leaf va) (leafType leaf)),
     modCore rq.mesh (fun c => { c with tlb := tlbFill ⟨rq.ctx, rq.part, level, pageAt level va, leaf, entryPa, gs, desc⟩ c.tlb }) s)
  if leaf = want then done leaf s
  else if !granted gs true entryPa then (.error ⟨xPARTITION, level, wd entryPa, true⟩, s)
  else done want (setEntry rq entryPa want s)

/-- Translation by a walk: the checks of R38 on what the walk found, and the fill. -/
def translateWalk (rq : Req) (acc : Access) (size : Nat) (va : Word) (s : State) : Except XFault Target × State :=
  let w := walk rq va.toNat s
  match w.1 with
  | .error x => (.error x, w.2)
  | .ok (leaf, level, entryPa) =>
    let gs := grantsOf rq.part w.2
    let desc := (descriptor rq.ctx w.2).1
    match leafCheck rq acc size level leaf gs desc (leafPa level leaf va.toNat) with
    | some x => (.error x, w.2)
    | none => useLeaf rq acc level entryPa leaf gs desc va.toNat w.2

/-- The descriptor word that governs an access through an entry of the TLB: the one that the entry was installed with, or the accessing context's own for a GLB entry that another context
installed, so that no fault depends on who installed it (R17, R24, R403). -/
def heldDesc (rq : Req) (e : TlbEntry) (s : State) : Word := if e.ctx = rq.ctx then e.desc else (descriptor rq.ctx s).1

/-- Translation through an entry of the TLB. When DY must be set and the entry in memory is no longer the one installed, the swap fails, which is charged like one that succeeds, and
the walk restarts (R31, R97). The swap, reading and all, needs a grant with WRITE over the entry (R25), and a word of memory in uncorrectable error fails it (R37, R38). -/
def translateHeld (rq : Req) (acc : Access) (size : Nat) (va : Word) (e : TlbEntry) (s : State) : Except XFault Target × State :=
  match leafCheck rq acc size e.level e.leaf e.grants (heldDesc rq e s) (leafPa e.level e.leaf va.toNat) with
  | some x => (.error x, s)
  | none =>
    if accWrites acc && !enDY e.leaf then
      if !granted e.grants true e.entryPa then (.error ⟨xPARTITION, e.level, wd e.entryPa, true⟩, s)
      else
      let r := amo8 rq.ctx true e.entryPa s
      if (badAt (memLocs e.entryPa 8) s).isSome then (.error ⟨xPOISON, e.level, 0, true⟩, r.2)
      else if r.1 = e.leaf then useLeaf rq acc e.level e.entryPa e.leaf e.grants (heldDesc rq e s) va.toNat s
      else translateWalk rq acc size va (modCore rq.mesh (fun c => { c with tlb := c.tlb.filter fun x => x != e }) r.2)
    else
      (.ok (.mem (leafPa e.level e.leaf va.toNat) (leafType e.leaf)), modCore rq.mesh (fun c => { c with tlb := tlbFill e c.tlb }) s)

/-! ## The window region and remote routes -/

/-- Whether an address lies in the window region (R13). -/
def inWindow (va : Nat) : Bool := field va 40 17 == 0x1FFFF

/-- The fields of a launch record (R164). -/
def recWord (r : List Word) (i : Nat) : Word := r.getD i 0
def recCOL0 (r : List Word) : Nat := fld (recWord r 0) 16 4
def recROW0 (r : List Word) : Nat := fld (recWord r 0) 20 7
def recW (r : List Word) : Nat := fld (recWord r 0) 28 4 + 1
def recH (r : List Word) : Nat := fld (recWord r 0) 32 7 + 1
def recGWL (r : List Word) : Nat := fld (recWord r 0) 40 3
def recGHL (r : List Word) : Nat := fld (recWord r 0) 44 3
def recFUSE (r : List Word) : Bool := bit (recWord r 0) 47
def recNSTR (r : List Word) : Nat := fld (recWord r 0) 48 2

/-- Whether a core lies in a launch record's rectangle (R161). -/
def inRect (r : List Word) (mesh : Nat) : Bool :=
  decide (recCOL0 r ≤ mesh % 16) && decide (mesh % 16 < recCOL0 r + recW r) && decide (recROW0 r ≤ mesh / 16) && decide (mesh / 16 < recROW0 r + recH r)

/-- The scratch that a window offset names (R20, R21); none for any other offset. -/
def windowTarget (rq : Req) (off : Nat) (s : State) : Option (Nat × Nat) :=
  if off < 0x100000 then some (rq.mesh, off)
  else
    let k := (off - 0x1000000000) / 0x100000
    if 0x1000000000 ≤ off ∧ k < 1536 then
      if k = rq.mesh ∨ ((launchAt rq.launch s).map fun l => inRect l.record k) = some true then some (k, off % 0x100000) else none
    else none

/-- The lowest route entry that an access of a context to an address meets (R382). -/
def routeOf (ctx va : Nat) (s : State) : Option Nat :=
  s.routes.toList.findIdx? fun r => bit r.w0 63 && fld r.w2 0 12 == ctx &&
    decide (fld r.w0 14 43 ≤ va / 2 ^ 14) && decide (va / 2 ^ 14 ≤ fld r.w1 14 43)

/-- The port of a route entry with its die and number there. -/
def routePort (e : Nat) (s : State) : Port :=
  let p := fld (s.routes[fin 64 (by decide) e]).w2 36 4
  (dieAt (p / 4) s).ports[fin 4 (by decide) p]

/-- What an access that meets a route entry comes to: only scalar stores, AMOs and PUBHW may be remote, and the port must lead to the target
package (R382). The fault has LEVEL 0 and INFO 0 (log entry 77). -/
def routed (acc : Access) (e : Nat) (s : State) : Except XFault Target :=
  if !(acc == .store || acc == .atomic) then .error ⟨xATTRIBUTE, 0, 0, false⟩
  else
    let p := routePort e s
    if p.up && p.nbr == fld (s.routes[fin 64 (by decide) e]).w2 12 12 then .ok (.remote e) else .error ⟨xPARTITION, 0, 0, false⟩

/-! ## Translation -/

/-! ## The walkers' queue (R32) -/

/-- The entry of a core's TLB that translates an address. -/
def tlbHit (rq : Req) (va : Nat) (s : State) : Option TlbEntry := (coreAt rq.mesh s).tlb.find? fun e => tlbMatch rq.ctx rq.part va e

/-- Whether a queued miss is one of a 16 KiB page of a context, whose walk it shares. -/
def missOf (ctx va : Nat) (m : Miss) : Bool := m.ctx == ctx && m.va.toNat % 2 ^ 57 / 2 ^ 14 == va % 2 ^ 57 / 2 ^ 14

/-- The misses that a core's queue holds at most. -/
def missDepth : Nat := 32

/-- The access for which a miss waits. -/
def missReq (mesh : Nat) (m : Miss) : Req := ⟨mesh, m.sid, m.ctx, m.part, m.priv, m.launch, false, 0⟩

/-- A queued miss served: a walk, whose permitted leaf is installed with AC set; DY is left to the access (R31, R403). -/
def serveMiss (mesh : Nat) (m : Miss) (s : State) : State :=
  let rq := missReq mesh m
  match tlbHit rq m.va.toNat s with
  | some _ => s
  | none =>
    let w := walk rq m.va.toNat s
    match w.1 with
    | .error _ => w.2
    | .ok (leaf, level, entryPa) =>
      let gs := grantsOf rq.part w.2
      let desc := (descriptor rq.ctx w.2).1
      match leafCheck rq m.acc 0 level leaf gs desc (leafPa level leaf m.va.toNat) with
      | some _ => w.2
      | none => (useLeaf rq .load level entryPa leaf gs desc m.va.toNat w.2).2

/-- The misses of a core that arose before that of a page, and those that arose after it: all of them before, when it has none. -/
def missesBefore (ctx va : Nat) : List Miss → List Miss × List Miss
  | [] => ([], [])
  | m :: t => if missOf ctx va m then ([], t) else let r := missesBefore ctx va t; (m :: r.1, r.2)

/-- The walks of the misses that arose before that of an access, in order. -/
def serveBefore (rq : Req) (va : Nat) (s : State) : State :=
  let q := missesBefore rq.ctx va (coreAt rq.mesh s).misses
  q.1.foldl (fun s m => serveMiss rq.mesh m s) (modCore rq.mesh (fun c => { c with misses := q.2 }) s)

/-- The translation of an access by the tables of its context: through the TLB, or by a walk once the misses that arose before its own have been served (R32). -/
def translateTables (rq : Req) (acc : Access) (size : Nat) (va : Word) (s : State) : Except XFault Target × State :=
  match tlbHit rq va.toNat s with
  | some e => translateHeld rq acc size va e s
  | none =>
    let s1 := serveBefore rq va.toNat s
    match tlbHit rq va.toNat s1 with
    | some e => translateHeld rq acc size va e s1
    | none => translateWalk rq acc size va s1

/-- The translation of an access of `size` bytes (R12, R13, R20 to R38). A route entry that covers an address of the window region makes its accesses remote (log entry 77). -/
def translate (rq : Req) (acc : Access) (size : Nat) (va : Word) (s : State) : Except XFault Target × State :=
  if fld va 57 7 != 0 then (.error ⟨xADDRFORM, 0, 0, false⟩, s)
  else
    match routeOf rq.ctx va.toNat s with
    | some e => (routed acc e s, s)
    | none =>
      if inWindow va.toNat then
        match windowTarget rq (va.toNat % 2 ^ 40) s with
        | none => (.error ⟨xWINDOW, 0, 0, false⟩, s)
        | some (m, off) => if acc == .fetch then (.error ⟨xEXEC, 0, 0, false⟩, s) else (.ok (.scratch m off), s)
      else translateTables rq acc size va s

/-- The translations of consecutive one-byte accesses: the targets, or the number of the lowest byte that faults (R100). -/
def translateBytes (rq : Req) (acc : Access) (va : Word) : Nat → State → Except (Nat × XFault) (List Target) × State
  | 0, s => (.ok [], s)
  | n + 1, s =>
    -- the bytes are numbered from the first
    match translate rq acc 1 va s with
    | (.error x, s1) => (.error (0, x), s1)
    | (.ok t, s1) =>
      match translateBytes rq acc (va + 1) n s1 with
      | (.error (k, x), s2) => (.error (k + 1, x), s2)
      | (.ok ts, s2) => (.ok (t :: ts), s2)

/-- The misses that some accesses of an instruction raise before the first of them is performed, as far as the queue holds them (R32). -/
def queueMisses (rq : Req) (acc : Access) (vas : List Word) (s : State) : State :=
  vas.foldl (fun s va =>
    if fld va 57 7 != 0 || (routeOf rq.ctx va.toNat s).isSome || inWindow va.toNat || (tlbHit rq va.toNat s).isSome then s
    else
      let q := (coreAt rq.mesh s).misses
      if decide (missDepth ≤ q.length) || q.any (missOf rq.ctx va.toNat) then s
      else modCore rq.mesh (fun c => { c with misses := c.misses ++ [⟨rq.sid, rq.ctx, rq.part, rq.priv, rq.launch, acc, va⟩] }) s) s

/-- The location of a byte of a target that is not remote. -/
def targetLoc (t : Target) (k : Nat) : Loc :=
  match t with
  | .mem pa _ => .mem (pa + k)
  | .scratch m off => .scratch m (off + k)
  | .remote _ => .mem 0

/-- Whether a target allocates in caches. -/
def targetWb : Target → Bool
  | .mem _ .wb => true
  | _ => false

end Sys2Proof.Machine
end

