-- ==== Sys2Proof/Machine/Control.lean ====
section
/-! DEFINITION. Control space (R23, R401): the registers of dies, controllers, queues, partitions, cores, the translation block and the
mailbox, read and written whole or by halves, and the actions their writes trigger. -/

namespace Sys2Proof.Machine

/-- A register as it stands after a write of `v` to one half or both (R401). -/
def mixHalves (old v : Word) (lo hi : Bool) : Word :=
  wd ((if lo then fld v 0 32 else fld old 0 32) + (if hi then fld v 32 32 else fld old 32 32) * 2 ^ 32)

/-! ## Reset of a die (R369) -/

/-- The lane groups in a core's map. -/
def laneGroups (c : Core) : Nat := popcount 64 c.lanemap0.toNat + popcount 64 c.lanemap1.toNat

/-- A core after a reset of its die: what the Muslin layer holds of it and its lane map stay, and ALC is what the map allows (R144, R146, R168). -/
def resetCore (c : Core) : Core :=
  { Core.reset c.mesh (strandsReset c.mesh) with
    slots := c.slots, plc := c.plc, lanemap0 := c.lanemap0, lanemap1 := c.lanemap1, dropped := c.dropped, alc := min 8192 (64 * laneGroups c) }

/-- Memory with the lines of the host window whose newest bytes L2 alone held as the host's memory holds them: L2 has lost them (R17, R153). -/
def hostMemory (s : State) : Memory := s.hostStale.foldl (fun m e => m.setN (e.1 * 64) e.2) s.mem

/-- The registers that die d0 holds for the package, at their reset values; with d0 go the slices that hold lines of the host window (R17). -/
def resetPackage (s : State) : State :=
  { s with
    ctxbase := 0, tiqlo := 0, tiqhi := 0, tiqseq := 0, tiqdone := 0, tiqErr := false, tiqOvf := false, tiq := []
    grants := State.reset.grants, parts := State.reset.parts, cap := 2400, chainid := 0, cntbase := 0, routes := State.reset.routes
    mailbox := State.reset.mailbox, locked := [], launches := [], replays := [], remote := [], remotePubs := [], hostOwned := []
    mem := hostMemory s, hostStale := [] }

/-- The strand whose turn it is and its core after a reset of its die. -/
def resetFocus (d : Nat) (s : State) : State :=
  if dieOfMesh s.me.mesh = d then
    { s with
      me := Strand.reset s.me.mesh s.me.sid
      core := { resetCore s.core with strands := s.core.strands.map fun t => Strand.reset t.mesh t.sid } }
  else s

/-- The mailbox once a die counts its grant periods from 0 again: a command that runs waits for the next of that die (R372). -/
def recounted (d : Nat) (m : Mailbox) : Mailbox := { m with seen := m.seen.set (fin 4 (by decide) d) 0 }

/-- Die `d` reset and started at stage 1; FAILS, REASON and MIN as given (R369). The entries of its persist queue are dropped, and their bytes stay what the window reads as (log entry 103). -/
def restartDie (d fails reason : Nat) (min : Bool) (s : State) : State :=
  let s1 := resetFocus d { s with cores := s.cores.map fun c => if dieOfMesh c.mesh = d then resetCore c else c }
  let s2 := modDie d (fun _ => { Die.reset with stage := 1, fails := fails, reason := reason, min := min }) s1
  let s3 := { s2 with watches := s2.watches.filter fun w => dieOfMesh w.mesh != d, mailbox := recounted d s2.mailbox }
  if d = 0 then resetPackage s3 else s3

/-- A start of die `d` that fails: FAILS and REASON are recorded and the die starts again from stage 1, but after the third failure in
a row it stays there with MIN set (R369). -/
def failStart (d reason : Nat) (s : State) : State :=
  let f := (dieAt d s).fails + 1
  restartDie d f reason (decide (3 ≤ f)) s

/-! ## Actions that writes trigger -/

/-- A write of TIQHI enqueues the descriptor or refuses it (R35). A descriptor that is illegal and finds the queue full sets OVF alone (log entry 78). -/
def tiqhiWrite (s : State) : State :=
  let kind := fld s.tiqlo 0 3
  if 32 ≤ s.tiq.length then { s with tiqOvf := true }
  else if 5 ≤ kind ∨ (kind = 2 ∧ fld s.tiqlo 32 32 = 0) then { s with tiqErr := true }
  else { s with tiq := s.tiq ++ [⟨s.tiqlo, s.tiqhi⟩], tiqseq := (s.tiqseq + 1) % 2 ^ 32 }

/-- Queue `q` of a die. -/
def queueAt (d q : Nat) (s : State) : HwQueue := (dieAt d s).queues[fin 64 (by decide) q]

/-- Queue `q` of a die changed. -/
def modQueue (d q : Nat) (f : HwQueue → HwQueue) (s : State) : State :=
  let i := fin 64 (by decide) q
  modDie d (fun x => { x with queues := x.queues.set i (f x.queues[i]) }) s

/-- The capacity of a queue in slots (R317). -/
def capacity (q : HwQueue) : Nat := 32 * 2 ^ q.npl

/-- How many slots a queue holds that the scheduler has not consumed. -/
def pendingSlots (q : HwQueue) : Nat := (q.tail + 2 ^ 32 - q.head) % 2 ^ 32

/-- A write of TAIL: the doorbell (R320). -/
def doorbellWrite (d q t : Nat) (s : State) : State :=
  let x := queueAt d q s
  let n := (t + 2 ^ 32 - x.head) % 2 ^ 32
  if x.en && !x.dev && decide (pendingSlots x ≤ n) && decide (n ≤ capacity x) then modQueue d q (fun x => { x with tail := t }) s
  else modQueue d q (fun x => { x with dberr := true }) s

/-- EN set from 0 to 1: the queue is enabled with HEAD and TAIL at 0 (R317); queues may be enabled at stage 4 (R369). -/
def queueEnableOp (d q : Nat) (s : State) : State :=
  if (dieAt d s).stage = 4 then modQueue d q (fun x => if x.en then x else { x with en := true, head := 0, tail := 0 }) s else s

/-- EN cleared (R319). -/
def queueDisableOp (d q : Nat) (s : State) : State := modQueue d q (fun x => { x with en := false }) s

/-- PDREQ: a planned power-down of the core is asked for (R368). -/
def pdreqOp (mesh : Nat) (s : State) : State :=
  modCore mesh (fun c => if c.pwr = 0 then { c with downRequest := true, pwr := 1 } else c) s

/-- PUPREQ: power-up of the core is asked for (R368). -/
def pupreqOp (mesh : Nat) (s : State) : State := modCore mesh (fun c => if c.pwr = 2 then { c with pwr := 3 } else c) s

/-- The RWL register values, as BOOTLOCK takes them into measurement block 4 (R371). -/
def rwlValues (s : State) : List Word :=
  s.ctxbase :: wd s.chainid :: s.cntbase :: (s.grants.toList.flatMap fun g => g.toList.flatMap fun x => [x.base, x.last]) ++
    (s.dies.toList.flatMap fun d => d.ctrls.toList.map fun c => wd c.actthr)

/-- BOOTLOCK: the RWL fields of the die are locked; once they are, a further write has no effect (R7, R367, R371). -/
def bootlockOp (d : Nat) (s : State) : State :=
  if (dieAt d s).bootlock then s
  else
    let s1 := modDie d (fun x => { x with bootlock := true }) s
    if d = 0 then { s1 with locked := rwlValues s } else s1

/-! ## The mailbox (R372, R373) -/

/-- The islands of a mask. -/
def islandsOf (mask : Nat) : List Nat := (List.range 48).filter fun i => mask.testBit i

/-- The island of a core, numbered in the package (R374). -/
def islandOf (mesh : Nat) : Nat :=
  let row := mesh / 16 % 24
  12 * dieOfMesh mesh + 2 * (row / 4) + mesh % 16 / 4 / 2

/-- The cores of an island of the package. -/
def islandCores (i : Nat) : List Nat := (List.range 1536).filter fun m => islandOf m == i

/-- Whether an island has power: some core of it is not off (R380). -/
def islandPowered (i : Nat) (s : State) : Bool := (islandCores i).any fun m => (coreAt m s).pwr != 2

/-- Whether the island of a core was sampled since it was powered (R380). -/
def islandReady (mesh : Nat) (s : State) : Bool :=
  decide (0 < ((dieAt (dieOfMesh mesh) s).islands[fin 12 (by decide) (islandOf mesh)]).sampled)

/-- The cores of a rectangle. -/
def rectCores (r : List Word) : List Nat := (List.range 1536).filter fun m => inRect r m

/-- The partition of a launch's context. -/
def partOfCtx (ctx : Nat) (s : State) : Nat := fld (descriptor ctx s).1 3 3

/-- Whether a placed launch of a partition has a core on an island. -/
def placedOn (p island : Nat) (s : State) : Bool :=
  s.launches.any fun l => (l.st == .placed || l.st == .saving) && partOfCtx (fld (recWord l.record 0) 0 12) s == p &&
    (rectCores l.record).any fun m => islandOf m == island

/-- Whether an island is in a partition's allotment when its mask is `mask` and the other partitions' masks are as they stand: every island is, while every mask is 0 (R374). -/
def inAllotment (p mask island : Nat) (s : State) : Bool :=
  (s.parts.toList.mapIdx fun i q => (if i = p then mask else q.allot) == 0).all id || mask.testBit island

/-- The floors of all partitions, in watts. -/
def sumFloors (s : State) : Nat := (s.parts.toList.map fun p => p.floor).foldl (· + ·) 0

/-- Whether a command code is one of R372. -/
def mailKnown (cmd : Nat) : Bool := 1 ≤ cmd && cmd ≤ 9

/-- The cluster of a core, numbered in the package as the mailbox numbers it (R1, R372). -/
def clusterNo (mesh : Nat) : Nat := mesh / 64 * 4 + mesh % 16 / 4

/-- Whether an accepted command of a core names a routine slot (R132). -/
def namesSlot (slot : Nat) (c : Core) : Bool :=
  c.engq.any fun t => (c.tags[t].cmd.map fun x => x.calico && fld x.w[3] 12 4 == slot).getD false

/-- Whether an accepted command names a routine slot of a cluster, or of any cluster for 0xFF (R132, R373). -/
def slotInUse (cluster slot : Nat) (s : State) : Bool :=
  (s.core :: s.cores).any fun c => (cluster == 0xFF || clusterNo c.mesh == cluster) && namesSlot slot c

/-- The status a command is refused with at once, 0 if it is not (R369, R373). The checks that need the image read are made when the command
completes. -/
def mailRefusal (cmd : Nat) (a0 a1 : Word) (s : State) : Nat :=
  let x := a0.toNat
  let y := a1.toNat
  let p := s.parts[fin 8 (by decide) x]
  if !mailKnown cmd then 1
  else if decide ((dieAt 0 s).stage ≤ 1) && !(cmd == 6 || cmd == 9) then 8
  else match cmd with
    | 1 => if 4096 ≤ x then 1 else if x < 310 ∨ 2400 < x then 2 else if x < sumFloors s then 3 else 0
    | 2 => if 8 ≤ x ∨ 4096 ≤ y then 1 else if 2400 < y then 2 else if s.cap < sumFloors s - p.floor + y then 3 else 0
    | 3 =>
      if 8 ≤ x ∨ 2 ^ 48 ≤ y then 1
      else if (s.parts.toList.mapIdx fun i q => decide (i ≠ x) && q.allot &&& y != 0).any id then 4
      else if (List.range 48).any fun i => inAllotment x p.allot i s && !inAllotment x y i s && placedOn x i s then 9
      else 0
    | 4 => if 1536 ≤ x ∨ 2 ≤ y then 1 else 0
    | 5 => if 2 ^ 52 ≤ x then 1 else 0
    | 7 => if !(x < 96 || x == 0xFF) || 16 ≤ y then 1 else if slotInUse x y s then 9 else 0
    | _ => 0

/-- A mailbox command that begins to run, or is refused at once; RESTART completes at once (R372). -/
def mailboxRun (cmd : Nat) (args : Vector Word 4) (s : State) : State :=
  if s.mailbox.busy then s
  else
    let refusal := mailRefusal cmd args[0] args[1] s
    let m : Mailbox := { s.mailbox with cmd := cmd, args := args, latched := args, running := cmd, seen := s.dies.map fun d => d.periods }
    if refusal ≠ 0 then { s with mailbox := { m with sts := refusal, ret := 0, running := 0 } }
    else if cmd = 9 then
      (List.range 4).foldl (fun s d => restartDie d 0 (dieAt d s).reason false s)
        { s with mailbox := { m with sts := 0, ret := 0, running := 0 } }
    else
      let s1 := { s with mailbox := { m with busy := true } }
      if cmd = 4 then (if args[1] = 0 then pdreqOp args[0].toNat s1 else pupreqOp args[0].toNat s1) else s1

/-! ## Reading and writing registers -/

/-- One microwatt in the unit that draws are kept in: a full step of an island is 20.76 W / 8,192, and an island's draw is shared among at most 32 cores, so
that in this unit every draw of R407 is a whole number. -/
def drawUnit : Nat := 8192 * 144403552893600

/-- The draw of a partition in watts (R407). -/
def pdraw (p : Partition) : Nat := (p.draws.toList.foldl (· + ·) 0) / (drawUnit * 1000000)

/-- Whether a shadow slot is complete (R146). -/
def slotComplete (x : ShadowSlot) : Bool := x.st == .sealed && x.check == x.found && !x.error

/-- The newest complete slot of a core among those that satisfy `p` (R146). -/
def newestSlot (p : ShadowSlot → Bool) (c : Core) : Option (Fin 2) :=
  let ok (k : Fin 2) : Bool := slotComplete c.slots[k] && p c.slots[k]
  if ok 0 && (!ok 1 || decide (c.slots[1].gen < c.slots[0].gen)) then some 0 else if ok 1 then some 1 else none

/-- SHGEN: GEN of the newest complete slot, 0 when there is none (R150). -/
def shgen (c : Core) : Nat := ((newestSlot (fun _ => true) c).map fun k => c.slots[k].gen).getD 0

/-- The island word of the power block (R375). -/
def islandWord (i : Island) : Word := wd (i.therm + i.q * 2 ^ 16 + i.press.toNat * 2 ^ 30)

/-- A register of a controller block (R95). -/
def ctrlRead (c : Ctrl) (off : Nat) : Word :=
  match off with
  | 0x00 => wd c.actthr
  | 0x08 => wd c.rfmcnt
  | 0x10 => wd (c.chan * 2 ^ 40 + c.bank * 2 ^ 32 + c.row)
  | 0x18 => wd c.actmax
  | 0x20 => wd (c.temp * 2 ^ 8 + c.dbl.toNat)
  | 0x28 => wd c.bocyc
  | _ => 0

/-- A register of a queue's block (R317). -/
def queueRead (q : HwQueue) (off : Nat) : Word :=
  match off with
  | 0x00 => wd q.qbase
  | 0x08 => wd q.qsts
  | 0x10 => wd (q.part * 2 ^ 12 + q.dev.toNat * 2 ^ 9 + q.en.toNat * 2 ^ 8 + q.npl)
  | 0x18 => wd q.tail
  | 0x20 => wd q.head
  | 0x28 => wd q.dberr.toNat
  | _ => 0

/-- A register of a partition's block (R347, R374). -/
def partRead (p : Partition) (off : Nat) : Word :=
  match off with
  | 0x00 => p.ptvec
  | 0x08 => p.savebase
  | 0x10 => wd p.savelen
  | 0x18 => wd (p.tcount * 2 ^ 40 + p.tctx * 2 ^ 28 + p.tcore * 2 ^ 16 + p.twg * 2 ^ 4 + p.treason)
  | 0x20 => wd p.allot
  | 0x28 => wd p.floor
  | 0x30 => wd (pdraw p)
  | _ => 0

/-- A register of a core's control block (R150, R368). -/
def coreRead (c : Core) (off : Nat) : Word :=
  match off with
  | 0x0000 => c.lanemap0
  | 0x0008 => c.lanemap1
  | 0x0010 => wd c.alc
  | 0x0020 => wd c.pwr
  | 0x1000 => wd (c.shint * 2 ^ 8 + c.shen.toNat)
  | 0x1008 => wd (shgen c)
  | 0x1010 => wd c.shseal
  | 0x1018 => wd c.shcnt
  | 0x1020 => wd c.shtorn
  | _ => 0

/-- A register of the mailbox (R372). -/
def mailRead (m : Mailbox) (off : Nat) : Word :=
  match off with
  | 0x00 => wd m.cmd
  | 0x08 => m.args[0]
  | 0x10 => m.args[1]
  | 0x18 => m.args[2]
  | 0x20 => m.args[3]
  | 0x28 => wd (m.busy.toNat * 2 ^ 8 + m.sts)
  | 0x30 => m.ret
  | _ => 0

/-- A register of the translation block (R34). -/
def tbRead (off : Nat) (s : State) : Word :=
  if 0x800 ≤ off ∧ off < 0x1000 then
    let g := (s.grants[fin 8 (by decide) ((off - 0x800) / 0x100)])[fin 16 (by decide) (off % 0x100 / 0x10)]
    if off % 0x10 = 0 then g.base else if off % 0x10 = 8 then g.last else 0
  else
    match off with
    | 0x000 => s.ctxbase
    | 0x020 => wd s.tiqseq
    | 0x028 => wd s.tiqdone
    | 0x030 => wd (s.tiqErr.toNat * 2 + s.tiqOvf.toNat)
    | _ => 0

/-- A register among a die's own (R367, R375, R381, R382). -/
def dieRead (d off : Nat) (s : State) : Word :=
  let x := dieAt d s
  if off < 0x60 then
    if 0x20 ≤ off ∧ off < 0x50 then x.coredis[fin 6 (by decide) ((off - 0x20) / 8)]
    else match off with
      | 0x00 => wd x.cycle
      | 0x08 => wd (x.min.toNat * 2 ^ 24 + x.reason * 2 ^ 16 + x.fails * 2 ^ 8 + x.stage)
      | 0x10 => wd x.bootlock.toNat
      | 0x18 => wd s.chainid
      | 0x50 => x.hostacc
      | 0x58 => s.cntbase
      | _ => 0
  else if off = 0x01000000 then wd s.cap
  else if 0x01000100 ≤ off ∧ off < 0x010001C0 ∧ off % 0x10 = 0 then islandWord x.islands[fin 12 (by decide) ((off - 0x01000100) / 0x10)]
  else if 0x02000000 ≤ off ∧ off < 0x02000040 then (if d = 0 then mailRead s.mailbox (off - 0x02000000) else 0)
  else if 0x03000000 ≤ off ∧ off < 0x03000100 then
    let p := flitLeft x.cycle x.ports[fin 4 (by decide) ((off - 0x03000000) / 0x40)]
    match off % 0x40 with
    | 0x00 => wd (p.up.toNat + p.nbr * 2 ^ 12)
    | 0x08 => wd p.sent
    | 0x10 => wd p.received
    | _ => 0
  else if 0x04000000 ≤ off ∧ off < 0x04000800 then
    let r := s.routes[fin 64 (by decide) ((off - 0x04000000) / 0x20)]
    match off % 0x20 with
    | 0x00 => r.w0
    | 0x08 => r.w1
    | 0x10 => r.w2
    | _ => 0
  else if 0x08000000 ≤ off ∧ off < 0x08005000 then ctrlRead x.ctrls[fin 5 (by decide) ((off - 0x08000000) / 0x1000)] (off % 0x1000)
  else if 0x0A000000 ≤ off ∧ off < 0x0A001000 then queueRead (queueAt d ((off - 0x0A000000) / 0x40) s) (off % 0x40)
  else if 0x0B000000 ≤ off ∧ off < 0x0B000200 then partRead s.parts[fin 8 (by decide) ((off - 0x0B000000) / 0x40)] (off % 0x40)
  else 0

/-- The register at an 8-byte aligned offset of a die's block (R23). -/
def ctlRead (d off : Nat) (s : State) : Word :=
  if off < 0x10000000 then dieRead d off s
  else if off < 0x20000000 then tbRead (off - 0x10000000) s
  else
    let c := (off - 0x20000000) / 0x100000
    if c < 384 then coreRead (coreAt (d * 384 + c) s) (off % 0x100000) else 0

/-- The bits of a new value that a field mask lets through; the others stay. -/
def masked (old new : Word) (mask : Nat) : Word := (old &&& ~~~(wd mask)) ||| (new &&& wd mask)

/-- A write to a queue's block (R317, R320): `nv` is the register with the halves written, `lo` whether byte 0 is. -/
def queueWrite (d q off : Nat) (nv : Word) (lo : Bool) (s : State) : State :=
  let x := queueAt d q s
  match off with
  | 0x00 => if x.en then s else modQueue d q (fun x => { x with qbase := fld nv 12 40 * 2 ^ 12 }) s
  | 0x08 => if x.en then s else modQueue d q (fun x => { x with qsts := fld nv 0 52 }) s
  | 0x10 =>
    let s1 := modQueue d q (fun x =>
      if x.en then { x with dev := bit nv 9 }
      else { x with dev := bit nv 9, part := fld nv 12 3, npl := if fld nv 0 4 ≤ 12 then fld nv 0 4 else x.npl }) s
    if bit nv 8 then queueEnableOp d q s1 else queueDisableOp d q s1
  | 0x18 => if lo then doorbellWrite d q (fld nv 0 32) s else s
  | 0x28 => if lo ∧ bit nv 0 then modQueue d q (fun x => { x with dberr := false }) s else s
  | _ => s

/-- A write to a partition's block (R347). -/
def partWrite (p off : Nat) (nv : Word) (s : State) : State :=
  let i := fin 8 (by decide) p
  let x := s.parts[i]
  let put (x : Partition) : State := { s with parts := s.parts.set i x }
  match off with
  | 0x00 => put { x with ptvec := wd (fld nv 2 55 * 4) }
  | 0x08 => put { x with savebase := wd (fld nv 12 40 * 2 ^ 12) }
  | 0x10 => put { x with savelen := fld nv 0 32 }
  | _ => s

/-- A write to a controller block (R95). -/
def ctrlWrite (d j off : Nat) (nv : Word) (s : State) : State :=
  let i := fin 5 (by decide) j
  let put (f : Ctrl → Ctrl) : State := modDie d (fun x => { x with ctrls := x.ctrls.set i (f x.ctrls[i]) }) s
  match off with
  | 0x00 =>
    let n := fld nv 0 14
    if (dieAt d s).bootlock ∨ n < 256 ∨ 8192 < n then s else put fun c => { c with actthr := n }
  | 0x18 => put fun c => { c with actmax := fld nv 0 14 }
  | _ => s

/-- A write to a core's control block (R150, R368). -/
def coreWrite (mesh off : Nat) (nv : Word) (lo : Bool) (s : State) : State :=
  match off with
  | 0x0018 =>
    if lo then
      let s1 := if bit nv 0 then pdreqOp mesh s else s
      if bit nv 1 then pupreqOp mesh s1 else s1
    else s
  | 0x1000 => modCore mesh (fun c => { c with shen := bit nv 0, shint := if fld nv 8 24 = 0 then c.shint else fld nv 8 24 }) s
  | _ => s

/-- A write to the translation block (R34). -/
def tbWrite (off : Nat) (nv : Word) (v : Word) (lo hi : Bool) (s : State) : State :=
  let lock := (dieAt 0 s).bootlock
  if 0x800 ≤ off ∧ off < 0x1000 then
    if lock then s
    else
      let i := fin 8 (by decide) ((off - 0x800) / 0x100)
      let j := fin 16 (by decide) (off % 0x100 / 0x10)
      let g := (s.grants[i])[j]
      let g' : Grant :=
        if off % 0x10 = 0 then { g with base := nv &&& wd (bitsMask 51 14 + 3) }
        else if off % 0x10 = 8 then { g with last := nv &&& wd (bitsMask 51 14) } else g
      { s with grants := s.grants.set i (s.grants[i].set j g') }
  else
    match off with
    | 0x000 => if lock then s else { s with ctxbase := nv &&& wd (bitsMask 51 17) }
    | 0x010 => { s with tiqlo := mixHalves s.tiqlo v lo hi }
    | 0x018 =>
      let s1 := { s with tiqhi := mixHalves s.tiqhi v lo hi }
      if lo then tiqhiWrite s1 else s1
    | 0x030 => if lo then { s with tiqErr := s.tiqErr && !bit v 1, tiqOvf := s.tiqOvf && !bit v 0 } else s
    | _ => s

/-- A write to the mailbox (R372). -/
def mailWrite (off : Nat) (nv : Word) (lo : Bool) (s : State) : State :=
  let m := s.mailbox
  match off with
  | 0x00 => { s with mailbox := { m with cmd := fld nv 0 8 } }
  | 0x08 => { s with mailbox := { m with args := m.args.set 0 nv } }
  | 0x10 => { s with mailbox := { m with args := m.args.set 1 nv } }
  | 0x18 => { s with mailbox := { m with args := m.args.set 2 nv } }
  | 0x20 => { s with mailbox := { m with args := m.args.set 3 nv } }
  | 0x38 => if lo ∧ bit nv 0 then mailboxRun m.cmd m.args s else s
  | _ => s

/-- A write among a die's own registers (R367, R382). -/
def dieWrite (d off : Nat) (nv : Word) (lo : Bool) (s : State) : State :=
  if off = 0x10 then (if lo ∧ bit nv 0 then bootlockOp d s else s)
  else if off = 0x18 then (if (dieAt 0 s).bootlock then s else { s with chainid := fld nv 0 12 })
  else if off = 0x58 then (if (dieAt 0 s).bootlock then s else { s with cntbase := nv &&& wd (bitsMask 51 6) })
  else if 0x02000000 ≤ off ∧ off < 0x02000040 then (if d = 0 then mailWrite (off - 0x02000000) nv lo s else s)
  else if 0x04000000 ≤ off ∧ off < 0x04000800 then
    let i := fin 64 (by decide) ((off - 0x04000000) / 0x20)
    let r := s.routes[i]
    let put (r : Route) : State := { s with routes := s.routes.set i r }
    match off % 0x20 with
    | 0x00 => put { r with w0 := nv &&& wd (2 ^ 63 + bitsMask 56 14) }
    | 0x08 => put { r with w1 := nv &&& wd (bitsMask 56 14) }
    | 0x10 => put { r with w2 := nv &&& wd (bitsMask 39 0) }
    | _ => s
  else if 0x08000000 ≤ off ∧ off < 0x08005000 then ctrlWrite d ((off - 0x08000000) / 0x1000) (off % 0x1000) nv s
  else if 0x0A000000 ≤ off ∧ off < 0x0A001000 then queueWrite d ((off - 0x0A000000) / 0x40) (off % 0x40) nv lo s
  else if 0x0B000000 ≤ off ∧ off < 0x0B000200 then partWrite ((off - 0x0B000000) / 0x40) (off % 0x40) nv s
  else s

/-- A write of one or both halves of the register at an 8-byte aligned offset of a die's block (R401). Registers written to trigger an
action hold nothing of their own: their unwritten half counts as zero. -/
def ctlWrite (d off : Nat) (lo hi : Bool) (v : Word) (s : State) : State :=
  let nv := mixHalves (ctlRead d off s) v lo hi
  if off < 0x10000000 then dieWrite d off nv lo s
  else if off < 0x20000000 then tbWrite (off - 0x10000000) nv v lo hi s
  else
    let c := (off - 0x20000000) / 0x100000
    if c < 384 then coreWrite (d * 384 + c) (off % 0x100000) nv lo s else s

/-- A read of 4 or 8 aligned bytes of control space at a physical address. -/
def ctlLoad (pa size : Nat) (s : State) : Word :=
  let o := pa - 0x40000000000
  let w := ctlRead (o / 0x400000000) (o % 0x400000000 / 8 * 8) s
  if size = 8 then w else if o % 8 = 0 then wd (fld w 0 32) else wd (fld w 32 32)

/-- A write of 4 or 8 aligned bytes of control space at a physical address. -/
def ctlStore (pa size : Nat) (v : Word) (s : State) : State :=
  let o := pa - 0x40000000000
  let d := o / 0x400000000
  let off := o % 0x400000000 / 8 * 8
  if size = 8 then ctlWrite d off true true v s
  else if o % 8 = 0 then ctlWrite d off true false v s
  else ctlWrite d off false true (wd (fld v 0 32 * 2 ^ 32)) s

end Sys2Proof.Machine
end

