-- ==== Sys2Proof/Machine/Access.lean ====
section
/-! DEFINITION. Accesses of strands (chapter 05): what a read returns (R103), the store queue and its faults (R341, R342), writes performed at their
core and then at their home (R102), releases and acquires (R105), and remote accesses (R382). These operations act for the strand whose turn it is. -/

namespace Sys2Proof.Machine

/-! ## Bindings (R110, R113) -/

/-- The binding of a launch that covers an address. -/
def bindingAt (bs : List Binding) (va : Nat) : Option Binding := bs.find? fun b => decide (b.rbase ≤ va) && decide (va ≤ b.rlast)

/-- The bindings a strand's launch has in force. -/
def bindingsOf (t : Strand) (s : State) : List Binding := ((launchAt t.launch s).map fun l => l.bindings).getD []

/-- The latch that a location is bound to; none when it is unbound (R113). -/
def latchFor (t : Strand) (va : Word) (s : State) : Option Word := (bindingAt (bindingsOf t s) va.toNat).map fun b => wd b.latch

/-! ## Copies (R102) -/

/-- The core that holds the copies of a line for a core: its own L1, or in a fused cluster the L1 of the core PA[9:6] names (R82). -/
def copyHolder (mesh line : Nat) (s : State) : Nat :=
  if (coreAt mesh s).fused then
    let row := mesh / 16 / 4 * 4 + line % 16 / 4
    let col := mesh % 16 / 4 * 4 + line % 4
    row * 16 + col
  else mesh

/-- The cores of a cluster. -/
def clusterOf (mesh : Nat) : List Nat :=
  (List.range 16).map fun k => (mesh / 16 / 4 * 4 + k / 4) * 16 + mesh % 16 / 4 * 4 + k % 4

/-- The cores whose L1 serves a core. -/
def l1Cores (mesh : Nat) (s : State) : List Nat := if (coreAt mesh s).fused then clusterOf mesh else [mesh]

/-- The copy of a line that serves a core, if there is one. -/
def copyOf (mesh line : Nat) (s : State) : Option L1Copy :=
  (coreAt (copyHolder mesh line s) s).copies.find? fun c => c.line == line

/-- A byte after the writes of a list to its location, in order. -/
def afterWrites (l : Loc) (b : BitVec 8) (ws : List Write) : BitVec 8 :=
  ws.foldl (fun b w => w.bytes.foldl (fun b x => if x.loc = l then merge b x.val x.mask else b) b) b

/-- The 64 bytes with which a copy of a line is filled: the home's, with the writes performed at the cores it serves laid over them, core by core in the order of the cluster (R102, log entry 99). -/
def fillBytes (mesh line : Nat) (s : State) : List (BitVec 8) :=
  let outs := (l1Cores mesh s).flatMap fun m => (coreAt m s).out
  (List.range 64).map fun k => afterWrites (.mem (line * 64 + k)) (s.mem.get (line * 64 + k)) outs

/-- The set of a line in the L1 that holds it (R81; log entry 72). -/
def l1Index (fused : Bool) (line : Nat) : Nat := if fused then line / 16 % 256 else line % 256

/-- The tree bits of a set of an L1, and the same list with them changed. -/
def l1Bits (i : Nat) (l1 : List (Nat × BitVec 7)) : BitVec 7 := ((l1.find? fun p => p.1 == i).map fun p => p.2).getD 0
def setL1Bits (i : Nat) (b : BitVec 7) : List (Nat × BitVec 7) → List (Nat × BitVec 7)
  | [] => [(i, b)]
  | p :: t => if p.1 = i then (i, b) :: t else p :: setL1Bits i b t

/-- A way of a set of an L1 used. -/
def useWay (i way : Nat) (c : Core) : Core := { c with l1 := setL1Bits i (plruTouch way 3 (l1Bits i c.l1)) c.l1 }

/-- A line used, if an L1 holds it. -/
def useCopy (line : Nat) (c : Core) : Core :=
  match c.copies.find? fun x => x.line == line with
  | some x => useWay (l1Index c.fused line) x.way c
  | none => c

/-- The way that a line takes in its set: the lowest empty one, or the one that tree pseudo-LRU names (R81; log entry 72). -/
def wayFor (line : Nat) (c : Core) : Nat :=
  let i := l1Index c.fused line
  ((List.range 8).find? fun w => !(c.copies.any fun x => l1Index c.fused x.line == i && x.way == w)).getD (plruVictim (l1Bits i c.l1) 3 0)

/-- A copy put into an L1 in place of the one in its way. -/
def placeCopy (ctx vline line : Nat) (data : List (BitVec 8)) (c : Core) : Core :=
  let i := l1Index c.fused line
  let w := wayFor line c
  useWay i w { c with copies := ⟨line, ctx, vline, w, data⟩ :: c.copies.filter fun x => !(l1Index c.fused x.line == i && x.way == w) }

/-- A read of a line through the L1 that serves a core: the line is used, and brought there if it is not (R81); one that a bank has not brought yet is waited for (R395). -/
def fillCopy (mesh ctx vline line : Nat) (s : State) : State :=
  let holder := copyHolder mesh line s
  match copyOf mesh line s with
  | some _ => modCore holder (useCopy line) (joinRead line s)
  | none => modCore holder (placeCopy ctx vline line (fillBytes mesh line s)) (l2Access ctx true line 64 64 false s)

/-- A byte of a copy written. -/
def patchCopy (pa : Nat) (b : ByteWrite) (c : L1Copy) : L1Copy :=
  if c.line = pa / 64 then { c with data := c.data.mapIdx fun k x => if k = pa % 64 then merge x b.val b.mask else x } else c

/-- A write performed at its core: the copy takes it, and it leaves for its home (R102). A write to a scratch is performed at its home at once (R80). -/
def performAtCore (mesh : Nat) (w : Write) (s : State) : State :=
  if w.bytes.all fun b => match b.loc with | .scratch _ _ => true | .mem _ => false then homeWrite w.ctx w.wb w.bytes s
  else
    let s1 :=
      if w.wb then
        w.bytes.foldl (fun s b =>
          match b.loc with
          | .mem pa => modCore (copyHolder mesh (pa / 64) s) (fun c => useCopy (pa / 64) { c with copies := c.copies.map (patchCopy pa b) }) s
          | .scratch _ _ => s) s
      else s
    modCore mesh (fun c => { c with out := c.out ++ [w] }) s1

/-- Whether two writes share a bit. -/
def overlaps (a b : Write) : Bool := a.bytes.any fun x => b.bytes.any fun y => x.loc == y.loc && (x.mask &&& y.mask) != 0

/-- The writes of a list that satisfy `p`, with the earlier ones of the same strand and path that share a bit with one that is taken (R104), and the others, each
in order. -/
def splitWrites (p : Write → Bool) : List Write → List Write × List Write
  | [] => ([], [])
  | w :: ws =>
    let r := splitWrites p ws
    if p w || r.1.any (fun x => x.sid == w.sid && x.path == w.path && overlaps w x) then (w :: r.1, r.2) else (r.1, w :: r.2)

/-- The writes performed at a core that satisfy `p` reach their homes, in order. -/
def drainOut (mesh : Nat) (p : Write → Bool) (s : State) : State :=
  let ws := splitWrites p (coreAt mesh s).out
  homeWrites ws.1 (modCore mesh (fun c => { c with out := ws.2 }) s)

/-- Writes that slices perform: at their homes, after the strand's earlier ones that share a bit with them (R104, R137). -/
def performAtSlice (mesh : Nat) (ws : List Write) (s : State) : State :=
  homeWrites ws (drainOut mesh (fun o => ws.any fun w => o.sid == w.sid && o.path == w.path && overlaps o w) s)

/-- The writes of a list performed in order, at most `n` of them: at the core, or by the slices. -/
def performWrites (mesh : Nat) : Nat → List Write → State → State
  | 0, _, s => s
  | _, [], s => s
  | n + 1, w :: ws, s =>
    if w.slice then
      let more := ws.takeWhile fun x => x.slice
      performWrites mesh n (ws.drop more.length) (performAtSlice mesh (w :: more) s)
    else performWrites mesh n ws (performAtCore mesh w s)

/-- The vector-path writes of the strand that satisfy `p` are performed, in order. -/
def drainVector (p : Write → Bool) (s : State) : State :=
  let ws := splitWrites p s.me.vwq
  performWrites s.me.mesh ws.1.length ws.1 (onMe (fun t => { t with vwq := ws.2 }) s)

/-- Whether a write touches one of some locations. -/
def touches (ls : List Loc) (w : Write) : Bool := w.bytes.any fun b => ls.contains b.loc

/-! ## Remote accesses (R382) -/

/-- The number of accesses a flit holds (R381). -/
def flitSize : Nat := 8

/-- An access put into the open flit of its port; a flit that is full leaves (R381). -/
def putFlit (port id : Nat) (s : State) : State :=
  let i := fin 4 (by decide) port
  modDie (port / 4) (fun d =>
    let p := flitLeft d.cycle d.ports[i]
    let flit := p.flit ++ [id]
    let since := if p.flit.isEmpty then d.cycle else p.since
    if flitSize ≤ flit.length then { d with ports := d.ports.set i { p with flit := [], sent := p.sent + 1, since := since } }
    else { d with ports := d.ports.set i { p with flit := flit, since := since } }) s

/-- A remote access sent on the port of a route entry. -/
def sendRemote (entry : Nat) (va : Word) (op : RemoteOp) (store : Option QStore) (s : State) : State :=
  let w2 := (s.routes[fin 64 (by decide) entry]).w2
  let msg : RemoteMsg := ⟨s.remoteNext, s.me.mesh, s.me.sid, fld w2 36 4, fld w2 12 12, ⟨fld w2 24 12, va, op⟩, none, store⟩
  putFlit (fld w2 36 4) s.remoteNext { s with remote := s.remote ++ [msg], remoteNext := s.remoteNext + 1 }

/-! ## The store queue (R341, R342) -/

/-- The bytes of a queued store. -/
def storeBytes (q : QStore) : List (BitVec 8) := bytesOf q.size q.data.toNat

/-- Whether a queued store shares a byte with another. -/
def sharesByte (q x : QStore) : Bool := decide (x.va.toNat < q.va.toNat + q.size) && decide (q.va.toNat < x.va.toNat + x.size)

/-- Whether a queued store shares a byte with one of which a record is kept (R341). -/
def deferred (q : QStore) (r : SfRec) : Bool :=
  !bit r.w0 15 && decide (q.va.toNat < r.w1.toNat + fld r.w0 8 4) && decide (r.w1.toNat < q.va.toNat + q.size)

/-- A store-fault record (R342). -/
def sfRecord (q : QStore) (defer : Bool) (sub : Nat) : SfRec :=
  ⟨wd (defer.toNat * 2 ^ 15 + q.size * 2 ^ 8 + sub), q.va, wd (natOf (storeBytes q)), q.pc⟩

/-- A record pushed into the strand's queue. -/
def pushRecord (r : SfRec) (s : State) : State := onMe (fun t => { t with sfq := t.sfq ++ [r] }) s

/-- The record of a store's own fault: the younger stores in the queue that share a byte with it will not be performed (R341), and a fault of a store that the handler itself made while it runs is a double fault (R339). -/
def recordFault (q : QStore) (sub : Nat) (s : State) : State :=
  onMe (fun t => { t with
      doubleFault := t.doubleFault || (q.ih && bit t.tstat 1), stq := t.stq.map fun x => { x with defer := x.defer || sharesByte q x } })
    (pushRecord (sfRecord q false sub) s)

/-- The targets of the bytes of a scalar access: one translation when it is aligned, one for each byte otherwise (R100). A float access has a size that no CTL
leaf allows (R294). -/
def scalarTargets (rq : Req) (acc : Access) (float : Bool) (size : Nat) (va : Word) (s : State) : Except (Nat × XFault) (List Target) × State :=
  if va.toNat % size = 0 then
    match translate rq acc (if float then 0 else size) va s with
    | (.error x, s1) => (.error (0, x), s1)
    | (.ok t, s1) =>
      (.ok ((List.range size).map fun k =>
        match t with
        | .mem pa mt => .mem (pa + k) mt
        | .scratch m off => .scratch m (off + k)
        | .remote e => .remote e), s1)
  else translateBytes rq acc va size s

/-- The masked bytes of a store with its targets, each with the latch of its binding (R113). -/
def storeWrites : List (Option Word) → List Target → List (BitVec 8) → List ByteWrite
  | l :: ls, t :: ts, b :: bs => ⟨targetLoc t 0, b, 0xFF, l⟩ :: storeWrites ls ts bs
  | _, _, _ => []

/-- The one-byte stores that a misaligned store makes (R100). -/
def singleBytes (q : QStore) : List QStore :=
  (storeBytes q).mapIdx fun k b => { q with va := q.va + wd k, size := 1, data := wd b.toNat, latches := (q.latches.drop k).take 1 }

/-- What a translated access of a store does: a control register is written, a remote store is sent, and any other is performed at the core (R29, R382). -/
def performPart (q : QStore) (ts : List Target) (s : State) : State :=
  match ts with
  | .mem pa .ctl :: _ =>
    if regionOf pa = .control then ctlStore pa q.size q.data s
    else homeWrite s.me.ctx false (memBytes pa (storeBytes q)) s
  | .remote e :: _ => sendRemote e q.va (.store (storeBytes q)) (some q) s
  | _ => performAtCore s.me.mesh ⟨s.me.sid, .scalar, s.me.ctx, ts.all targetWb, storeWrites q.latches ts (storeBytes q), false⟩ s

/-- What a translated store does; the bytes of a misaligned store are separate accesses, each at its own target (R100). -/
def performStore (q : QStore) (ts : List Target) (s : State) : State :=
  if q.va.toNat % q.size = 0 then performPart q ts s
  else ((singleBytes q).zip ts).foldl (fun s p => performPart p.1 [p.2] s) s

/-- The entries of a strand's store queue, and of its record queue (R341). -/
def queueDepth : Nat := 16

/-- The oldest store of the queue is translated, and performed or recorded (R341): stores of one strand with disjoint bytes are performed in program order too, which R104 does not ask
(log entry 94). -/
def forceStore (s : State) : State :=
  match s.me.stq with
  | [] => s
  | q :: rest =>
    let s0 := onMe (fun t => { t with stq := rest }) s
    if q.defer || s.me.sfq.any (deferred q) then pushRecord (sfRecord q true 0) s0
    else
      match scalarTargets { reqOf s.me with priv := q.priv } .store q.float q.size q.va s0 with
      | (.error (_, x), s1) => recordFault q x.sub s1
      | (.ok ts, s1) => performStore q ts s1

/-- The oldest store of the queue is translated; it stays while the record queue is full (R341). -/
def translateStore (s : State) : State := if queueDepth ≤ s.me.sfq.length then s else forceStore s

/-- The store queue emptied as far as its stores can be translated: at most `n` stores are. -/
def drainStores : Nat → State → State
  | 0, s => s
  | n + 1, s => drainStores n (translateStore s)

/-- The whole store queue, which holds at most 16. -/
def drainQueue (s : State) : State := drainStores s.me.stq.length s

/-- Room made in the store queue: a full queue translates its oldest store first (R341). -/
def storeRoom (s : State) : State := if queueDepth ≤ s.me.stq.length then translateStore s else s

/-- A committed store enters the queue. -/
def enqueueStore (q : QStore) (s : State) : State := onMe (fun t => { t with stq := t.stq ++ [q] }) s

/-! ## Reads (R103) -/

/-- The bytes of the queued stores, by virtual address and, where their translation succeeds, location. -/
def queuedBytes (s : State) : List (Nat × Option Loc × BitVec 8) :=
  s.me.stq.flatMap fun q =>
    let ts := match (scalarTargets { reqOf s.me with priv := q.priv } .store q.float q.size q.va s).1 with | .ok ts => ts | .error _ => []
    (storeBytes q).mapIdx fun k b =>
      (q.va.toNat + k, (ts[k]?).bind fun t => match t with | .remote _ => none | t => some (targetLoc t 0), b)

/-- Whether a store that waits in the strand's queue writes a byte of some locations. -/
def queuedIn (p : Loc → Bool) (s : State) : Bool := !s.me.stq.isEmpty && (queuedBytes s).any fun q => (q.2.1.map p).getD false

/-- Whether a store that waits in the strand's queue goes through a CTL leaf. -/
def queuedCtl (s : State) : Bool :=
  s.me.stq.any fun q =>
    match (scalarTargets { reqOf s.me with priv := q.priv } .store q.float q.size q.va s).1 with
    | .ok (.mem _ .ctl :: _) => true
    | _ => false

/-- Whether the strand at hand has a vector instruction that has not retired (R173). -/
def unretired (s : State) : Bool := s.core.window.any fun f => f.sid == s.me.sid

/-- Whether a load of translated bytes goes through a CTL leaf while an earlier CTL store is still held back in the strand's queue, or an earlier vector instruction has not retired: CTL accesses are
performed in program order, once they are committed, so it waits (R29, R334, R341). -/
def ctlHeld (ts : List Target) (s : State) : Bool :=
  match ts with
  | .mem _ .ctl :: _ => queuedCtl (drainQueue s) || unretired s
  | _ => false

/-- A byte after the queued stores of the strand's scalar path. -/
def afterQueued (va : Nat) (l : Loc) (b : BitVec 8) (qs : List (Nat × Option Loc × BitVec 8)) : BitVec 8 :=
  qs.foldl (fun b q => if q.1 = va ∨ q.2.1 = some l then q.2.2 else b) b

/-- The value of a byte that core `mesh` reads through a WB leaf, before the strand's own queue: the writes performed at the core over the copy (R103, steps 2 to 4). -/
def coreByte (mesh : Nat) (l : Loc) (s : State) : BitVec 8 :=
  match l with
  | .scratch _ _ => homeByte l s
  | .mem pa =>
    let base := match copyOf mesh (pa / 64) s with
      | some c => (c.data[pa % 64]?).getD (s.mem.get pa)
      | none => s.mem.get pa
    afterWrites l base (coreAt mesh s).out

/-- The strand's own writes of a path to some locations reach their homes, so that a read at the home finds them (R104). -/
def settle (path : Path) (ls : List Loc) (s : State) : State :=
  let s1 := match path with
    | .scalar => s
    | .vector => drainVector (touches ls) s
  drainOut s.me.mesh (fun w => w.sid == s.me.sid && w.path == path && touches ls w) s1

/-- One byte that the strand reads on a path at a target; a WB line is brought into the L1. `va` is its virtual address. -/
def readByte (path : Path) (va : Nat) (t : Target) (s : State) : BitVec 8 × State :=
  match t with
  | .mem pa .wb =>
    let s1 := fillCopy s.me.mesh s.me.ctx (va / 64) (pa / 64) s
    let b := coreByte s.me.mesh (.mem pa) s1
    (match path with
      | .scalar => if s1.me.stq.isEmpty then b else afterQueued va (.mem pa) b (queuedBytes s1)
      | .vector => afterWrites (.mem pa) b s1.me.vwq, s1)
  | t =>
    let l := targetLoc t 0
    let s1 := settle path [l] s
    (match path with
      | .scalar => if s1.me.stq.isEmpty then homeByte l s1 else afterQueued va l (homeByte l s1) (queuedBytes s1)
      | .vector => homeByte l s1, s1)

/-- Bytes that the strand reads on a path. -/
def readBytes (path : Path) : Nat → List Target → State → List (BitVec 8) × State
  | _, [], s => ([], s)
  | va, t :: ts, s =>
    let r := readByte path va t s
    let rs := readBytes path (va + 1) ts r.2
    (r.1 :: rs.1, rs.2)

/-- The slices' counts of a read of NC bytes at their home. -/
def countNc (ctx : Nat) (ts : List Target) (s : State) : State :=
  l2Reads ctx false (ts.filterMap fun t => match t with | .mem pa .nc => some pa | _ => none) s

/-- A scalar load of translated bytes: control registers are read at their exact size; what is not WB follows the strand's own queued stores (R29, R104). -/
def scalarLoad (size va : Nat) (ts : List Target) (s : State) : Word × State :=
  match ts with
  | .mem pa .ctl :: _ =>
    let s1 := drainQueue s
    if regionOf pa = .control then (ctlLoad pa size s1, s1)
    else
      let r := homeRead s1.me.ctx false (memLocs pa size) s1
      (wd (natOf r.1), r.2)
  | _ =>
    let s1 := if ts.all targetWb then s else drainQueue s
    let r := readBytes .scalar va ts (countNc s.me.ctx ts s1)
    (wd (natOf r.1), r.2)

/-! ## Releases and acquires (R105) -/

/-- Scopes by their code: 1 CORE, 2 CLUSTER, 3 DIE, 4 PKG, 5 SYS (R291). -/
abbrev Scope := Nat

/-- Whether every byte of a write is covered, by the latch it was bound to when it was issued. -/
def covered (p : Option Word → Bool) (w : Write) : Bool := w.bytes.all fun b => p b.latch

/-- A release at a scope of the covered writes of some paths: each is performed at the core, and from CLUSTER on at its home (R105). -/
def releaseWrites (scalar vector : Bool) (p : Option Word → Bool) (scope : Scope) (s : State) : State :=
  let s1 := if scalar then drainQueue s else s
  let s2 := if vector then drainVector (covered p) s1 else s1
  if scope ≤ 1 then s2
  else drainOut s.me.mesh (fun w => w.sid == s.me.sid && covered p w &&
    (match w.path with | .scalar => scalar | .vector => vector)) s2

/-- Whether a copy's line is governed by what `p` covers, for the strand's bindings: those of the virtual line through which it was filled (log entry 79). -/
def copyCovered (p : Option Word → Bool) (bs : List Binding) (c : L1Copy) : Bool :=
  p ((bindingAt bs (c.vline * 64)).map fun b => wd b.latch)

/-- An acquire at a scope: from CLUSTER on, the covered copies of the strand's L1 are discarded (R105). -/
def acquireCopies (p : Option Word → Bool) (scope : Scope) (s : State) : State :=
  if scope ≤ 1 then s
  else
    let bs := bindingsOf s.me s
    (l1Cores s.me.mesh s).foldl (fun s m => modCore m (fun c => { c with copies := c.copies.filter fun x => !copyCovered p bs x }) s) s

/-- What the implicit latches cover: unbound locations (R114). -/
def unboundOnly (l : Option Word) : Bool := l.isNone

/-- What a latch covers: what was bound to it when it was issued, and when the latch has no binding now what was unbound (R109, R113). -/
def latchCovers (t : Strand) (latch : Word) (s : State) (l : Option Word) : Bool :=
  l == some latch || (l.isNone && !(bindingsOf t s).any fun b => wd b.latch == latch)

/-- The scope of a latch's bindings, or SYS (R109). A binding holds the code less 1. -/
def latchScope (t : Strand) (latch : Word) (s : State) : Scope :=
  match (bindingsOf t s).find? fun b => wd b.latch == latch with
  | some b => b.scope + 1
  | none => 5

/-- Whether the strand has remote accesses that no reply has completed; FENCE.SYS waits for them (R120). -/
def remoteBusy (s : State) : Bool := s.remote.any fun m => m.mesh == s.me.mesh && m.sid == s.me.sid && m.reply.isNone

/-- Whether the strand has remote stores whose faults are not known yet; the instructions of R293 wait for them (log entry 80). -/
def storesAway (s : State) : Bool := s.remote.any fun m => m.mesh == s.me.mesh && m.sid == s.me.sid && m.reply.isNone && m.store.isSome

/-- The first word in error among the bytes of some targets, as a physical address (R335, R344; log entry 74). -/
def badTarget (ts : List Target) (s : State) : Option Nat := badAt (ts.map fun t => targetLoc t 0) s

/-- The number that the remote stores of a strand which is gone bear: no strand has it. -/
def noStrand : Nat := 4

/-- The messages of strands that are gone: their stores, which are committed, go on to their targets, and no strand takes the replies; nothing of the others is left (R158, R343; log entry 118). -/
def dropMessages (gone : RemoteMsg → Bool) (s : State) : State :=
  { s with remote := (s.remote.filter fun m => !gone m || m.store.isSome).map fun m => if gone m then { m with sid := noStrand, store := none } else m }

end Sys2Proof.Machine
end

