-- ==== Sys2Proof/Machine/Launches.lean ====
section
/-! DEFINITION. Launches: the checks of a launch record (R164, R165, R322), work groups (R162), the end of a launch, the nodes of task
graphs (R332) and the start of strands (R166). -/

namespace Sys2Proof.Machine

/-! ## The record (R164) -/

def recCTX (r : List Word) : Nat := fld (recWord r 0) 0 12
def recENTRY (r : List Word) : Word := recWord r 1
def recARGS (r : List Word) : Word := recWord r 2
def recPATCH (r : List Word) : Word := recWord r 3
def recSEED (r : List Word) : Word := recWord r 4
def recSBASE (r : List Word) : Word := recWord r 5
def recMODE (r : List Word) : Word := recWord r 6
def recCOMPL (r : List Word) : Word := recWord r 7
def recBUD (r : List Word) (s : Nat) : Nat := fld (recWord r 8) (16 * s) 10
def recTagFirst (r : List Word) (s : Nat) : Nat := fld (recWord r 9) (16 * s) 6
def recTagCount (r : List Word) (s : Nat) : Nat := fld (recWord r 9) (16 * s + 6) 7
def recVLREQ (r : List Word) : Nat := fld (recWord r 10) 0 15
def recPWT (r : List Word) : Nat := fld (recWord r 10) 16 3
def recPRIO (r : List Word) : Nat := fld (recWord r 10) 20 3
def recDEPL (r : List Word) : Word := recWord r 11
def recDEPIDX (r : List Word) : Nat := fld (recWord r 12) 0 48

/-- The bits of each word of a launch record that are fields (R164). -/
def recFields : List Nat :=
  [bitsMask 11 0 + bitsMask 19 16 + bitsMask 26 20 + bitsMask 31 28 + bitsMask 38 32 + bitsMask 42 40 + bitsMask 46 44 + bitsMask 49 47,
   bitsMask 56 2, 2 ^ 64 - 1, bitsMask 56 3, 2 ^ 64 - 1, 2 ^ 64 - 1, 2 ^ 64 - 1, bitsMask 56 3,
   bitsMask 9 0 + bitsMask 25 16 + bitsMask 41 32 + bitsMask 57 48, bitsMask 12 0 + bitsMask 28 16 + bitsMask 44 32 + bitsMask 60 48,
   bitsMask 14 0 + bitsMask 18 16 + bitsMask 22 20, bitsMask 56 3, bitsMask 47 0, 0, 0, 0]

/-- Whether a reserved bit of a record is set. -/
def recReserved (r : List Word) : Bool := (r.zip recFields).any fun p => anySet p.1 (2 ^ 64 - 1 - p.2)

/-- Whether a MODE word sets a reserved bit or a reserved RND value (R191). -/
def modeIllegal (w : Word) : Bool := fld w 43 21 != 0 || fld w 14 2 != 0 || fld w 5 3 ≥ 5

/-- Whether the tag grants of two strands overlap. -/
def grantsOverlap (r : List Word) (a b : Nat) : Bool :=
  decide (0 < recTagCount r a) && decide (0 < recTagCount r b) &&
    decide (recTagFirst r a < recTagFirst r b + recTagCount r b) && decide (recTagFirst r b < recTagFirst r a + recTagCount r a)

/-- Whether a record breaks R165 in its own fields, R191, or has a DEPL that is no multiple of 16: status 3 of R322. Tag grants overlap only among the strands up to NSTR (log entry 109). -/
def recBad (r : List Word) : Bool :=
  let n := recNSTR r + 1
  let used := List.range n
  recReserved r || decide (16 < recCOL0 r + recW r) || decide (96 < recROW0 r + recH r) ||
    decide (recW r % 2 ^ recGWL r ≠ 0) || decide (recH r % 2 ^ recGHL r ≠ 0) ||
    ((List.range 4).any fun s => decide (n ≤ s) && recBUD r s != 0) ||
    decide (736 < recBUD r 0 + recBUD r 1 + recBUD r 2 + recBUD r 3) ||
    (used.any fun s => decide (recBUD r s < 32)) ||
    ((List.range 4).any fun s => decide (64 < recTagFirst r s + recTagCount r s)) ||
    (used.any fun a => used.any fun b => decide (a < b) && grantsOverlap r a b) ||
    decide (recVLREQ r % 64 ≠ 0) || decide (recVLREQ r < 64) || decide (16384 < recVLREQ r) ||
    modeIllegal (recMODE r) || decide ((recDEPL r).toNat % 16 ≠ 0)

/-- Whether one enabled grant covers every page of a range of addresses (R25). -/
def grantCovers (gs : List Grant) (first last : Nat) : Bool :=
  gs.any fun g => bit g.base 0 && decide (fld g.base 14 38 ≤ first / 2 ^ 14) && decide (last / 2 ^ 14 ≤ fld g.last 14 38)

/-- Whether a context may not be launched: EN clear, BTB against R110, or another partition than the queue's: status 4 of R322. -/
def ctxBad (ctx part : Nat) (s : State) : Bool :=
  let d := descriptor ctx s
  let p := fld d.1 3 3
  let btb := d.2.toNat
  !bit d.1 0 || p != part || btb % 2 ^ 17 != 0 || !(match regionOf btb with | .hbm => true | .lpddr => true | _ => false) ||
    !grantCovers (grantsOf p s) btb (btb + 2 ^ 17 - 1)

/-- Whether a core is disabled (R378). -/
def disabled (mesh : Nat) (s : State) : Bool :=
  let c := mesh % 384
  ((dieAt (dieOfMesh mesh) s).coredis[fin 6 (by decide) (c / 64)]).getLsbD (c % 64)

/-- Whether a core belongs to a partition's allotment (R374). -/
def allotted (part mesh : Nat) (s : State) : Bool :=
  !disabled mesh s &&
    (s.parts.toList.all (fun p => p.allot == 0) || (s.parts[fin 8 (by decide) part]).allot.testBit (islandOf mesh))

/-- Whether a rectangle holds a core outside its partition's allotment: status 5 of R322. -/
def placeBad (r : List Word) (s : State) : Bool :=
  let p := partOfCtx (recCTX r) s
  (rectCores r).any fun m => !allotted p m s

/-- The status a record is refused with before its addresses are translated, 0 when it is not (R322). -/
def recStatus (r : List Word) (part : Nat) (s : State) : Nat :=
  if recBad r then 3 else if ctxBad (recCTX r) part s then 4 else 0

/-! ## Work groups (R162) -/

/-- The work group of a core of a rectangle. -/
def wgOf (r : List Word) (mesh : Nat) : Nat :=
  let x := mesh % 16 - recCOL0 r
  let y := mesh / 16 - recROW0 r
  y / 2 ^ recGHL r * (recW r / 2 ^ recGWL r) + x / 2 ^ recGWL r

/-- The cores of a work group. -/
def wgCores (r : List Word) (wg : Nat) : List Nat := (rectCores r).filter fun m => wgOf r m == wg

/-- RECTPOS of a strand (R163). -/
def rectPos (r : List Word) (mesh : Nat) : Word :=
  let x := mesh % 16 - recCOL0 r
  let y := mesh / 16 - recROW0 r
  wd (x + y * 2 ^ 4 + wgOf r mesh * 2 ^ 16 + x % 2 ^ recGWL r * 2 ^ 32 + y % 2 ^ recGHL r * 2 ^ 36)

/-- The narrowest scope that contains a work group (R117, R162). -/
def wgScope (r : List Word) (wg : Nat) : Scope :=
  let ms := wgCores r wg
  match ms with
  | [] => 1
  | m :: _ =>
    if ms.all (· == m) then 1
    else if ms.all fun x => x / 64 == m / 64 && x % 16 / 4 == m % 16 / 4 then 2
    else if ms.all fun x => dieOfMesh x == dieOfMesh m then 3 else 4

/-! ## Nodes of task graphs (R332) -/

/-- A launch as it is accepted. -/
def newLaunch (id : Nat) (r : List Word) (order die queue : Nat) (node : Option (Nat × Nat)) : Launch where
  id := id
  record := r
  order := order
  die := die
  queue := queue
  node := node
  st := .candidate
  met := recDEPL r == 0 || recDEPIDX r == 0
  blocked := none
  passed := 0
  def_ := []
  bindings := []
  dead := []
  area := (0, 0)
  epochs := []

/-- A number no launch bears. -/
def freshId (s : State) : Nat := (s.launches.map fun l => l.id).foldl max 0 + 1

/-- Whether node `k` of the previous replay of the same graph from the same queue has not finished (GSER, R332). -/
def gserHolds (rp : Replay) (k : Nat) (rs : List Replay) : Bool :=
  rp.gser && rs.any fun q => some q.id == rp.prev && decide (k < q.records.length) && !q.finished.contains k

/-- The nodes of a replay that can be dispatched: every predecessor has finished. -/
def readyNodes (rp : Replay) (rs : List Replay) : List Nat :=
  (List.range rp.records.length).filter fun k =>
    !rp.dispatched.contains k && !gserHolds rp k rs &&
      (List.range k).all fun j => !(rp.preds.getD k 0).testBit j || rp.finished.contains j

/-- A replay changed. -/
def modReplay (id : Nat) (f : Replay → Replay) (s : State) : State :=
  { s with replays := s.replays.map fun r => if r.id = id then f r else r }

/-- The scheduler of a die as the one who makes an access: in user mode, with a context (R324). -/
def schedReq (die ctx : Nat) (s : State) : Req := ⟨384 * die, 0, ctx, partOfCtx ctx s, false, 0, false, 0⟩

/-- An 8-byte load of a context in user mode, at its home; none where it faults, and for control and window addresses (R324). Bytes in uncorrectable error are used as they are (log entry 117). -/
def schedRead (die ctx : Nat) (va : Word) (s : State) : Option Word × State :=
  match translate (schedReq die ctx s) .load 8 va s with
  | (.ok (.mem _ .ctl), s1) => (none, s1)
  | (.ok (.mem pa mt), s1) =>
    let r := homeRead ctx (mt == .wb) (memLocs pa 8) s1
    (some (wd (natOf r.1)), r.2)
  | (_, s1) => (none, s1)

/-- Whether the high-water word of a record's dependence cannot be read: status 8 of R322; with the state that the translation leaves. -/
def depBad (die : Nat) (r : List Word) (s : State) : Bool × State :=
  if recDEPL r = 0 then (false, s)
  else
    let x := schedRead die (recCTX r) (recDEPL r + 8) s
    (x.1.isNone, x.2)

/-- A node of a replay that is refused with status 5 or 8: it finishes at once without running (R332). -/
def refuseNode (rp k : Nat) (s : State) : State := modReplay rp (fun x => { x with finished := k :: x.finished, refused := true }) s

/-- One node of a replay dispatched: it becomes a candidate with the replay's acceptance instant. A node whose dependence does not translate is refused (R332). -/
def dispatchNode (rp : Replay) (k : Nat) (s : State) : State :=
  let r := rp.records.getD k []
  let bad := depBad rp.die r s
  let s1 := modReplay rp.id (fun x => { x with dispatched := k :: x.dispatched }) bad.2
  if bad.1 then refuseNode rp.id k s1
  else { s1 with launches := s1.launches ++ [newLaunch (freshId s1) r rp.order rp.die rp.queue (some (rp.id, k))] }

/-- All nodes that can be dispatched are; `fuel` bounds the chain of nodes that finish at once. -/
def dispatchAll : Nat → State → State
  | 0, s => s
  | n + 1, s =>
    match s.replays.find? fun rp => !(readyNodes rp s.replays).isEmpty with
    | none => s
    | some rp => dispatchAll n ((readyNodes rp s.replays).foldl (fun s k => dispatchNode rp k s) s)

/-- The locations of `n` bytes at a target. -/
def locsAt (t : Target) (n : Nat) : List Loc := (List.range n).map fun k => targetLoc t k

/-- Whole bytes to be written at locations. -/
def putAt : List Loc → List (BitVec 8) → List ByteWrite
  | l :: ls, b :: bs => ⟨l, b, 0xFF, none⟩ :: putAt ls bs
  | _, _ => []

/-- One read-modify-write of some bytes at their home, at one instant, which their slice counts once; the answer is the old value (R96, R116). -/
def rmwAt (ctx : Nat) (t : Target) (n : Nat) (f : Word → Word) (s : State) : Word × State :=
  let ls := locsAt t n
  let old := wd (natOf (ls.map fun l => homeByte l s))
  (old, homeBytes (targetWb t) (putAt ls (bytesOf n (f old).toNat)) (l2Amo ctx (targetWb t) (memPas ls) s))

/-- An 8-byte atomic on the word at an address (R332, R343); nothing happens where the address does not translate. -/
def bumpWord (rq : Req) (va : Word) (f : Word → Word) (s : State) : State :=
  match translate rq .atomic 8 va s with
  | (.ok (.remote _), s1) => s1
  | (.ok t, s1) => (rmwAt rq.ctx t 8 f s1).2
  | (.error _, s1) => s1

/-- A replay all of whose nodes have finished: RCOMPL receives 1, or 2^32 + 1 when a node was refused (R332). -/
def completeReplay (rp : Replay) (s : State) : State :=
  bumpWord (schedReq rp.die rp.ctx s) rp.rcompl (fun w => w + wd (if rp.refused then 2 ^ 32 + 1 else 1))
    { s with replays := s.replays.filter fun x => x.id != rp.id }

/-- How many nodes the replays have. -/
def nodeCount (s : State) : Nat := (s.replays.map fun rp => rp.records.length).foldl (· + ·) 0

/-- All nodes that can be dispatched are: every round dispatches one at least (R332). -/
def dispatchReady (s : State) : State := dispatchAll (nodeCount s) s

/-- Every replay that is complete is completed. -/
def completeReplays (s : State) : State :=
  (s.replays.filter fun rp => decide (rp.records.length ≤ rp.finished.length)).foldl (fun s rp => completeReplay rp s) s

/-! ## The end of a launch (R329) -/

/-- The die whose cycle count a core counts with. -/
def cycleOf (mesh : Nat) (s : State) : Nat := (dieAt (dieOfMesh mesh) s).cycle

/-- A core that a launch leaves: its copies, instruction-side copies and fusion end, the landing-buffer slots of its tags are free, its engine serves none of them and none is BUSY, and it holds no launch
(R78, R82, R102, R404). -/
def leftCore (t : Nat) (c : Core) : Core :=
  { c with
    copies := [], icopies := [], fused := false, launch := none, idleSince := t, engq := []
    tags := c.tags.map fun g => { g with st := if g.st = .busy then .free else g.st, slots := [], moved := none } }

/-- A core made idle as a launch leaves it: in a fused cluster its L1 stays part of the cluster's, with the lines it holds, until the launch that fused it ends (R82, R343). -/
def quitCore (mesh : Nat) (s : State) : State :=
  let t := cycleOf mesh s
  modCore mesh (fun c => if c.fused then { leftCore t c with copies := c.copies, fused := true } else leftCore t c) s

/-- Whether a cluster is covered in full by a rectangle whose record asks for fusion (R82). -/
def fuses (r : List Word) (mesh : Nat) : Bool := recFUSE r && (clusterOf mesh).all fun m => inRect r m

/-- A core as a launch is placed on it: its L1 is part of a fused cluster's if the launch asks for that, or while an earlier launch of the cluster goes on elsewhere (R82; log entry 119). -/
def fusedFor (l : Launch) (c : Core) : Core := if c.fused then c else { c with fused := fuses l.record c.mesh, fuser := l.id }

/-- A core whose fusion by a launch ends, with the lines it holds; the launch that it holds now may fuse the cluster in turn (R82). -/
def unfused (id : Nat) (holder : Option Launch) (c : Core) : Core :=
  if c.fused && c.fuser == id then
    match holder with
    | some l => fusedFor l { c with copies := [], fused := false }
    | none => { c with copies := [], fused := false }
  else c

/-- The fusion of a launch that ends, on all cores of its rectangle (R82). -/
def endFusion (l : Launch) (s : State) : State :=
  (rectCores l.record).foldl (fun s m => modCore m (unfused l.id (((coreAt m s).launch.bind fun k => launchAt k s).filter fun x => x.id != l.id)) s) s

/-- A strand that ends, is stopped or leaves its core: it releases its planes and stream slots, and what it had under way is gone. Its registers stay as they are (R221). -/
def released (life : Life) (t : Strand) : Strand :=
  { t with
    life := life, maps := Vector.replicate 32 [], sq := Vector.replicate 8 Stream.reset, held := none, sfq := [], stq := [], vwq := [], latches := []
    arrived := false, leave := .none, pwait := none, call := none, doubleFault := false }

/-- The strand absent from its core. -/
def departed (t : Strand) : Strand := { released .absent t with launch := 0 }

/-- The strands of a core made absent. -/
def clearStrands (mesh : Nat) (s : State) : State :=
  let s1 := modCore mesh (fun c => { c with strands := c.strands.map departed }) s
  if s1.me.mesh = mesh then onMe departed s1 else s1

/-- The tags of a strand's grant. -/
def grantTags (t : Strand) : List (Fin 64) :=
  (List.range t.tagCount).map fun k => fin 64 (by decide) (t.tagFirst + k)

/-- The landing-buffer slots of a tag released (R78). -/
def freeSlots (k : Fin 64) (c : Core) : Core := { c with tags := c.tags.set k { c.tags[k] with slots := [] } }

/-- The landing-buffer slots of a strand's transfers released, as it ends (R78, R221). -/
def freeGrant (t : Strand) (s : State) : State := modCore t.mesh (fun c => (grantTags t).foldl (fun c k => freeSlots k c) c) s

/-- Whether some strand of a launch still runs. -/
def launchRuns (id : Nat) (s : State) : Bool := (allStrands s).any fun t => t.life == .running && t.launch == id

/-- A launch finishes: its cores become idle, and a node's replay goes on (R329, R332). -/
def finishLaunch (l : Launch) (s : State) : State :=
  let s1 := (rectCores l.record).foldl (fun s m => if (coreAt m s).launch = some l.id then quitCore m (clearStrands m s) else s) s
  let s2 := modLaunch l.id (fun x => { x with st := .finished, area := (0, 0) }) (endFusion l s1)
  match l.node with
  | none => s2
  | some (rp, k) =>
    let s3 := modReplay rp (fun x => { x with finished := k :: x.finished }) s2
    completeReplays (dispatchReady s3)

/-- A launch that has no running strand left finishes, one that is being saved too (R329). -/
def finishIfDone (id : Nat) (s : State) : State :=
  match launchAt id s with
  | none => s
  | some l => if (l.st = .placed ∨ l.st = .saving) ∧ !launchRuns id s then finishLaunch l s else s

end Sys2Proof.Machine
end

