-- ==== Sys2Proof/Machine/Landing.lean ====
section
/-! DEFINITION. What an engine brings to a chunk's destination (R40 to R43, R126, R129, R140, R141): the fields of a command, the places of elements in memory, the writes of a chunk, and what its
end makes of its tag. -/

namespace Sys2Proof.Machine

/-! ## Commands (R309) -/

/-- Whether a DIR has a register source, and whether it has a register destination (R309). -/
def dirFromV (dir : Nat) : Bool := dir == 5 || dir == 6
def dirToV (dir : Nat) : Bool := dir == 1 || dir == 2

/-- Whether a command writes a register (R122, R309). -/
def toRegister (c : Cmd) : Bool := dirToV c.dir

/-- The fields of a command (R309). -/
def cmdN (c : Cmd) : Nat := fld c.w[2] 0 32
def cmdSTAG (c : Cmd) : BitVec 16 := BitVec.ofNat 16 (fld c.w[2] 32 10)
def cmdDTAG (c : Cmd) : BitVec 16 := BitVec.ofNat 16 (fld c.w[2] 42 10)
def cmdRAW (c : Cmd) : Bool := bit c.w[2] 52
def cmdCMP (c : Cmd) : Bool := bit c.w[2] 53

/-- The units of a chunk (R126). -/
def chunkUnits (n : Nat) : Nat := 64 * ceilDiv n 4096

/-- How many chunks a transfer has (R126). -/
def chunkCount (n : Nat) : Nat := ceilDiv n (chunkUnits n)

/-- How many leading bits of a mask are set. -/
def leadingChunks (m : Word) : Nat → Nat → Nat
  | 0, k => k
  | n + 1, k => if bit m k then leadingChunks m n (k + 1) else k

/-- SCOFF and SLOT of g[a + 3]. -/
def cpSCOFF (c : Cmd) : Nat := fld c.w[3] 32 32
def cpSLOT (c : Cmd) : Nat := fld c.w[3] 12 4

/-- Whether a DIR has a plane-major destination. -/
def dirToP (dir : Nat) : Bool := dir == 4 || dir == 6

/-- The engine of a core's cluster on its die. -/
def engineOf (mesh : Nat) : Nat := mesh / 16 % 24 / 4 * 4 + mesh % 16 / 4

/-- The routine image that a CPYX names. -/
def routineOf (mesh slot : Nat) (s : State) : Option (List (BitVec 8)) :=
  ((dieAt (dieOfMesh mesh) s).engines[fin 24 (by decide) (engineOf mesh)]).slots[fin 16 (by decide) slot]

/-- The state of a tag whose transfer is over. -/
def overState (c : Cmd) : TagState := if dirToV c.dir then .landed else .ready

/-- What a Calico routine is given of its command: the four words, SEED and SBASE. -/
def cmdWords (c : Cmd) : List Word := c.w.toList ++ [c.seed, c.sbase]

/-- The width of a unit on a side. -/
def unitWidth (raw : Bool) (tag : BitVec 16) : Nat := if raw then 8 else tagWidth tag

/-- What a chunk comes to: destination codes, destination scales by block, and flags. -/
structure Moved where
  codes : List Nat
  scales : List Nat
  flags : Nat

/-! ## Pieces of elements in memory (R40 to R43) -/

/-- The width of the container of an element of `w` bits. -/
def containerBits (w : Nat) : Nat := if w ≤ 1 then 1 else if w ≤ 2 then 2 else if w ≤ 4 then 4 else if w ≤ 8 then 8 else if w ≤ 16 then 16 else 32

/-- What a store writes into the container of an element's code: sign bits above an sN element, zeros above any other. -/
def containerCode (k : Kind) (code : Nat) : Nat :=
  match k with
  | .s w => if code / 2 ^ (w - 1) % 2 = 1 then code % 2 ^ w + (2 ^ containerBits w - 2 ^ w) else code % 2 ^ w
  | k => code % 2 ^ k.width

/-- A part of an element in memory that one access reads or writes: its address and size in bytes, where in those bytes its bits lie, how many they
are, and where in the code they belong. -/
structure Piece where
  va : Word
  size : Nat
  sh : Nat
  n : Nat
  pos : Nat
deriving DecidableEq, Repr

/-- `n` bits of the container of `c` bits with number `i` from a base up (R40). -/
def containerPiece (base : Word) (c n i : Nat) : Piece := ⟨base + wd (c * i / 8), max 1 (c / 8), c * i % 8, n, 0⟩

/-- The bits of element `i` in a plane-major image (R43). -/
def planePieces (base stride : Word) (w i : Nat) : List Piece :=
  (List.range w).map fun b => ⟨base + wd b * stride + wd (i / 8), 1, i % 8, 1, b⟩

/-- The piece that holds the scale of block `k` (R42). -/
def scalePiece (base : Word) (k : Nat) : Piece := ⟨base + wd k, 1, 0, 8, 0⟩

/-- The masked bytes of a piece of a code at its targets. -/
def pieceBytes (s : State) (p : Piece) (code : Nat) (ts : List Target) : List ByteWrite :=
  let val := bytesOf p.size (code / 2 ^ p.pos % 2 ^ p.n * 2 ^ p.sh)
  let mask := bytesOf p.size ((2 ^ p.n - 1) * 2 ^ p.sh)
  ts.mapIdx fun k t => ⟨targetLoc t 0, val.getD k 0, mask.getD k 0, latchFor s.me (p.va + wd k) s⟩

/-- The writes that put a code into some pieces: an aligned piece is one access, the bytes of any other are separate, each through its own leaf (R29, R100). `slice` marks the
elements of a scatter (R137). -/
def pieceWrites (rq : Req) (acc : Access) (slice : Bool) (code : Nat) : List Piece → State → Except (Word × XFault) (List Write) × State
  | [], s => (.ok [], s)
  | p :: ps, s =>
    match scalarTargets rq acc false p.size p.va s with
    | (.error (k, x), s1) => (.error (p.va + wd k, x), s1)
    | (.ok ts, s1) =>
      let bs := pieceBytes s1 p code ts
      let mine := if p.va.toNat % p.size = 0 then [(bs, ts.all targetWb)] else (bs.zip ts).map fun b => ([b.1], targetWb b.2)
      match pieceWrites rq acc slice code ps s1 with
      | (.error e, s2) => (.error e, s2)
      | (.ok rest, s2) => (.ok ((mine.map fun b => (⟨rq.sid, .vector, rq.ctx, b.2, b.1, slice⟩ : Write)) ++ rest), s2)

/-! ## What a chunk writes (R129, R140, R141) -/

/-- The pieces of unit `i` on a memory side: `n` bits of its container, or its bits in a plane-major image with a plane stride (R309). -/
def sidePieces (planeMajor : Bool) (base stride : Word) (w n i : Nat) : List Piece :=
  if planeMajor then planePieces base stride w i else [containerPiece base (containerBits w) n i]

/-- The plane stride of a plane-major side (R309). -/
def sideStride (count : Nat) : Word := wd (8 * ceilDiv count 64)

/-- Why a chunk stops: a fault of an access, or an error code. -/
inductive ChunkEnd where
  | fault (acc : Access) (va : Word) (x : XFault)
  | error (err : Nat)

/-- Codes written one after another, each at its home at once (R141), up to the first that does not translate; the lines of memory written. -/
def writeUnits (rq : Req) (f : Nat → List Piece) : List (Nat × Nat) → State → List Write × Option ChunkEnd × State
  | [], s => ([], none, s)
  | (i, code) :: rest, s =>
    match pieceWrites rq .copyWrite false code (f i) s with
    | (.error (va, x), s1) => ([], some (.fault .copyWrite va x), s1)
    | (.ok ws, s1) =>
      let r := writeUnits rq f rest s1
      (ws ++ r.1, r.2.1, r.2.2)

/-- What a container of a destination holds. -/
def destCode (c : Cmd) (code : Nat) : Nat :=
  if cmdRAW c then code else if dirToP c.dir then code else containerCode (kindOf (cmdDTAG c)) code

/-- The places of a destination's units and of its scales, those of a CPYX at DST + SCOFF as well (R311; log entry 114). -/
def destPieces (c : Cmd) (image : List (BitVec 8)) (i : Nat) : List Piece :=
  let w := unitWidth (cmdRAW c) (cmdDTAG c)
  sidePieces (dirToP c.dir) c.w[1] (if c.calico then wd (8 * Config.calicoStride image (cmdWords c)) else sideStride (cmdN c)) w (containerBits w) i
def destScale (c : Cmd) (b : Nat) : List Piece := [scalePiece (c.w[1] + wd (cpSCOFF c)) b]

/-- The writes of a chunk's result: its units and then its scales, up to the first that does not translate. -/
def chunkWrites (c : Cmd) (rq : Req) (image : List (BitVec 8)) (first : Nat) (m : Moved) (s : State) : List Write × Option ChunkEnd × State :=
  let x := writeUnits rq (destPieces c image) (m.codes.mapIdx fun k x => (first + k, destCode c x)) s
  if x.2.1.isSome then x
  else
    let l := if cmdRAW c then 0 else blockLen (cmdDTAG c)
    let y := writeUnits rq (destScale c) (if l = 0 then [] else m.scales.mapIdx fun k x => (first / l + k, x)) x.2.2
    (x.1 ++ y.1, y.2.1, y.2.2)

/-! ## The end of a chunk (R126, R129) -/

/-- A write of some slots of a core's landing buffer: their units (R405). -/
def markLanding (mesh : Nat) (slots : List Nat) (s : State) : State :=
  modCore mesh (fun c => { c with dirty := markUnits (slots.map fun k => 592 + k / 2) c.dirty }) s

/-- The request that an engine's accesses for a command make. -/
def engineReq (mesh : Nat) (t : Tag) (c : Cmd) (s : State) : Req :=
  ⟨mesh, c.sid, c.ctx, c.part, c.priv, ((strandAt mesh c.sid s).map fun x => x.launch).getD 0, true, t.1⟩

/-- A tag of a core changed. -/
def modCoreTag (mesh : Nat) (t : Tag) (f : TagReg → TagReg) (s : State) : State :=
  modCore mesh (fun k => { k with tags := k.tags.set t (f k.tags[t]) }) s

/-- A command taken out of its core's queue. -/
def leaveQueue (mesh : Nat) (t : Tag) (s : State) : State := modCore mesh (fun k => { k with engq := k.engq.filter fun x => x != t }) s

/-- A transfer that stops with an error (R129). -/
def stopTag (mesh : Nat) (t : Tag) (c : Cmd) (err : Nat) (record : Vector Word 4) (s : State) : State :=
  leaveQueue mesh t (modCoreTag mesh t (fun g => { g with st := overState c, err := err, record := record, moved := none }) s)

/-- The lowest chunk that is not complete. -/
def firstOpen (mask : Word) : Nat := leadingChunks mask 64 0

/-- A transfer that stops as a chunk ended. -/
def stopChunk (mesh : Nat) (t : Tag) (c : Cmd) (rq : Req) (mask : Word) (e : ChunkEnd) (s : State) : State :=
  match e with
  | .error err => stopTag mesh t c err (Vector.replicate 4 0) s
  | .fault acc va x => stopTag mesh t c 1 (faultRecord rq acc va (some (firstOpen mask)) x) s

/-- A chunk complete: its bit is set, and the transfer is over with the last (R126). What a register receives stands in its landing-buffer slots. -/
def finishChunk (mesh : Nat) (t : Tag) (c : Cmd) (chunk first : Nat) (m : Moved) (lines : List Nat) (s : State) : State :=
  let l := blockLen (cmdDTAG c)
  let s1 := modCoreTag mesh t (fun g =>
    { g with
      mask := setBit g.mask chunk true
      flags := g.flags ||| BitVec.ofNat 16 m.flags
      codes := if dirToV c.dir then g.codes ++ m.codes.mapIdx fun k x => (first + k, x) else g.codes
      scales := if dirToV c.dir ∧ l ≠ 0 then g.scales ++ m.scales.mapIdx fun k x => (first / l + k, x) else g.scales
      lines := g.lines ++ lines.eraseDups.map fun x => (chunk, x) }) s
  let mask := ((coreAt mesh s1).tags[t]).mask
  if leadingChunks mask 64 0 = chunkCount (cmdN c) then leaveQueue mesh t (modCoreTag mesh t (fun g => { g with st := overState c }) s1) else s1

/-- What a chunk has read brought to its destination, and the chunk complete: a register's landing-buffer slots, or memory. -/
def landChunk (mesh : Nat) (t : Tag) (c : Cmd) (rq : Req) (image : List (BitVec 8)) (m : ChunkData) (s : State) : State :=
  let first := m.chunk * chunkUnits (cmdN c)
  let d : Moved := ⟨m.codes, m.scales, m.flags⟩
  let g := (coreAt mesh s).tags[t]
  let s1 := modCoreTag mesh t (fun g => { g with moved := none }) s
  if dirToV c.dir then finishChunk mesh t c m.chunk first d [] (markLanding mesh g.slots s1)
  else
    let w := chunkWrites c rq image first d s1
    let s2 := homeWrites w.1 w.2.2
    match w.2.1 with
    | some e => stopChunk mesh t c rq g.mask e s2
    | none => finishChunk mesh t c m.chunk first d (w.1.flatMap fun x => (memMasks x.bytes).map fun b => b.1 / 64) s2

end Sys2Proof.Machine
end

