-- ==== Sys2Proof/Machine/Ops.lean ====
section
/-! DEFINITION. The named operations every meaning is built from: registers, the result of a step, taking a trap (R338) and returning from one
(R340), the end of a work group (R343), and moving to the next instruction with loop-back (R213). They act for the strand whose turn it is. -/

namespace Sys2Proof.Machine

/-! ## Results -/

/-- What part of an instruction leads to: it goes on with a value, or the instruction ends in a state (a trap taken, or a wait). -/
inductive Res (α : Type) where
  | ok (a : α) (s : State)
  | stop (s : State)

/-- One part after another. -/
def Res.bind {α β : Type} (r : Res α) (f : α → State → Res β) : Res β :=
  match r with
  | .ok a s => f a s
  | .stop s => .stop s

/-- The state an instruction ends in. -/
def Res.done (r : Res Unit) : State :=
  match r with
  | .ok _ s => s
  | .stop s => s

/-- An instruction's outcome. -/
abbrev Out := Host.Outcome State Fault Refusal

/-- The outcome of an instruction written as parts. -/
def Res.out (r : Res Unit) : Out := .next r.done

/-! ## Registers (R184, R203) -/

/-- A general register; g0 reads 0. -/
def gR (r : Fin 32) (s : State) : Word := if r = 0 then 0 else s.me.g[r]

/-- A general register written; a write of g0 is discarded. -/
def setG (r : Fin 32) (w : Word) (s : State) : State :=
  if r = 0 then s else onMe (fun t => { t with g := t.g.set r w }) s

/-- A float register. -/
def fR (r : Fin 16) (s : State) : BitVec 32 := s.me.f[r]

/-- A float register written. -/
def setF (r : Fin 16) (w : BitVec 32) (s : State) : State := onMe (fun t => { t with f := t.f.set r w }) s

/-- A mask register, and one written. -/
def mR (r : Fin 8) (s : State) : Plane := s.me.m[r]
def setM (r : Fin 8) (p : Plane) (s : State) : State := onMe (fun t => { t with m := t.m.set r p }) s

/-- A tile-mask register, and one written. -/
def tmR (r : Fin 4) (s : State) : TileMask := s.me.tm[r]
def setTm (r : Fin 4) (p : TileMask) (s : State) : State := onMe (fun t => { t with tm := t.tm.set r p }) s

/-- Register `r + k`, where it exists. -/
def gPlus (r : Fin 32) (k : Nat) (s : State) : Word := gR (fin 32 (by decide) (r.1 + k)) s

/-! ## TSTAT (R337) -/

/-- IH: the strand is in a handler. -/
def inHandler (t : Strand) : Bool := bit t.tstat 1

/-- VSTOP: the instruction at TEPC is a vector instruction stopped part-way. -/
def vstop (t : Strand) : Bool := bit t.tstat 2

/-! ## The end of a work group (R343) -/

/-- The word an agent writes into the latches it holds (R107, R108). -/
def meWord (t : Strand) (s : State) : Nat := s.chainid * 2 ^ 20 + 2 ^ 19 + t.mesh * 4 + t.sid

/-- A held latch released by compare-and-swap at its home, with SEQ + 1 (R343). -/
def dropLatch (t : Strand) (l : HeldLatch) (s : State) : State :=
  let me := meWord t s
  (rmwAt t.ctx (.mem l.pa (if l.wb then .wb else .nc)) 8 (fun w => if fld w 0 32 = me then wd ((fld w 40 24 + 1) % 2 ^ 24 * 2 ^ 40) else w) s).2

/-- A busy tag stopped with ERR 4: it is READY, or LANDED when its transfer writes a register (R125, R129, R343). -/
def abortTag (k : Fin 64) (c : Core) : Core :=
  let g := c.tags[k]
  if g.st = .busy then
    { c with
      tags := c.tags.set k { g with st := if (g.cmd.map toRegister).getD false then .landed else .ready, err := 4, moved := none }
      engq := c.engq.filter fun x => x != k }
  else c

/-- The chunk that the engine is in for a tag ended: its writes are performed, whatever bank it still waits for (R343, step 3). -/
def endChunk (mesh : Nat) (k : Fin 64) (s : State) : State :=
  let g := (coreAt mesh s).tags[k]
  match g.cmd, g.moved with
  | some c, some d => if g.st = .busy then landChunk mesh k c (engineReq mesh k c s) ((routineOf mesh (cpSLOT c) s).getD []) d s else s
  | _, _ => s

/-- A strand's vector instructions no longer in the sequencer: it has stopped, or ended. -/
def squash (sid : Nat) (c : Core) : Core := { c with window := c.window.filter fun f => f.sid != sid }

/-- The stores of a strand that stops: all of them are translated (R343, step 2). -/
def forceStores : Nat → State → State
  | 0, s => s
  | n + 1, s => forceStores n (forceStore s)

/-- One strand stopped by the end of its work group: stores that are committed and can be translated are performed, writes that have left the core reach
their homes, remote stores go on to their targets, an engine ends the chunk it is in, everything else it had under way is dropped, and its latches and slots are released (R343, steps 1 to 4). -/
def stopStrand (s : State) : State :=
  let s1 := forceStores s.me.stq.length s
  let s2 := drainOut s1.me.mesh (fun w => w.sid == s1.me.sid) s1
  let s3 := (grantTags s2.me).foldl (fun s k => onCore (abortTag k) (endChunk s.me.mesh k s)) s2
  let s4 := s3.me.latches.foldl (fun s l => dropLatch s3.me l s) s3
  let s5 := { s4 with watches := s4.watches.filter fun w => !(w.mesh == s4.me.mesh && w.sid == s4.me.sid) }
  onMe departed (dropMessages (fun m => m.mesh == s5.me.mesh && m.sid == s5.me.sid) (freeGrant s5.me (onCore (squash s5.me.sid) s5)))

/-- The strands of a work group, as core and number. -/
def wgStrands (l : Launch) (wg : Nat) (s : State) : List (Nat × Nat) :=
  ((wgCores l.record wg).flatMap fun m => strandsOf m s).filterMap fun t =>
    if t.launch = l.id ∧ t.life ≠ .absent then some (t.mesh, t.sid) else none

/-- The termination log of a partition (R347). -/
def logTermination (part ctx mesh wg reason : Nat) (s : State) : State :=
  let i := fin 8 (by decide) part
  let p := s.parts[i]
  { s with parts := s.parts.set i { p with tcount := (p.tcount + 1) % 2 ^ 24, tctx := ctx, tcore := mesh, twg := wg, treason := reason } }

/-- A work group of a launch ends with a reason, caused by a core (R343). -/
def terminate (id wg mesh reason : Nat) (s : State) : State :=
  match launchAt id s with
  | none => s
  | some l =>
    let s1 := (wgStrands l wg s).foldl (fun s k => atStrand k.1 k.2 stopStrand s) s
    let rq : Req := ⟨mesh, 0, recCTX l.record, partOfCtx (recCTX l.record) s1, false, id, false, 0⟩
    let s2 := bumpWord rq (recCOMPL l.record) (fun w => w ||| 0x1000) s1
    let s3 := logTermination (partOfCtx (recCTX l.record) s2) (recCTX l.record) mesh wg reason s2
    let s4 := (wgCores l.record wg).foldl (fun s m => quitCore m s) s3
    finishIfDone id (modLaunch id (fun x => { x with dead := wg :: x.dead }) s4)

/-- The work group of the strand whose turn it is ends (R337, R339). -/
def terminateMine (reason : Nat) (s : State) : State :=
  match launchAt s.me.launch s with
  | none => stopStrand s
  | some l => terminate s.me.launch (wgOf l.record s.me.mesh) s.me.mesh reason s

/-! ## Taking a trap (R335 to R339) -/

/-- TCAUSE of a trap (R337). -/
def causeWord (t : TrapInfo) : Word := wd (t.kval % 2 ^ 19 * 2 ^ 32 + t.tag % 64 * 2 ^ 16 + t.subc % 256 * 2 ^ 8 + t.cause % 256)

/-- Whether the instruction at an address is a vector instruction that stopped part-way, whose mappings are kept (R173, R338). -/
def stoppedAt (pc : Word) (t : Strand) : Bool := (t.held.map fun h => h.addr) == some pc

/-- TSTAT of a strand that takes a trap: PM is the mode it leaves, IH is set, and VSTOP tells that the instruction at TEPC stopped part-way (R338). -/
def trapStatus (t : Strand) (epc : Word) : Word := wd ((stoppedAt epc t).toNat * 4 + 2 + t.priv.toNat)

/-- The strand in its handler: what the trap saves, and where it goes (R338, steps 3 to 6). A reply to a remote access that its instruction waited for reaches nobody. -/
def enterHandler (i : TrapInfo) (epc : Word) (t : Strand) : Strand :=
  { t with
    tepc := epc
    tcause := causeWord i
    trec := #v[i.rec0, i.rec1, i.rec2, i.rec3]
    tstat := trapStatus t epc
    tsix := wd t.six
    six := 0
    priv := true
    leave := .none
    pwait := none
    call := none
    pc := t.tvec }

/-- A trap taken: the handler is entered, or the work group ends when the strand is in a handler already (R338, R339). -/
def takeTrap (i : TrapInfo) (epc : Word) (s : State) : State :=
  if inHandler s.me then terminateMine 2 s else onMe (enterHandler i epc) s

/-- A precise trap at the instruction that stands at pc. -/
def trapHere (i : TrapInfo) (s : State) : State := takeTrap i s.me.pc s

/-- The word of an instruction (R335). -/
def wordOf (i : Instr) : Word := wd ((encode i).getD 0)

/-- The illegal-operation trap of an instruction, at its lowest element concerned (R335). -/
def illop (i : Instr) (elem : Nat) (s : State) : State := trapHere ⟨2, 0, 0, 0, wordOf i, wd elem, 0, 0⟩ s

/-- The illegal-operation trap of an instruction that is not tied to an element, as a part of it. -/
def illegal {α : Type} (i : Instr) (s : State) : Res α := .stop (illop i 0 s)

/-- A condition without which an instruction is an illegal operation. -/
def require (i : Instr) (ok : Bool) (s : State) : Res Unit := if ok then .ok () s else illegal i s

/-- The trap of a translation fault (R335, R337). -/
def xlateTrap (r : Vector Word 4) : TrapInfo := ⟨3, fld r[0] 0 8, 0, 0, r[0], r[1], r[2], r[3]⟩

/-- A translation fault of the strand's scalar access at a byte of it. -/
def xlate (acc : Access) (va : Word) (x : XFault) (s : State) : State :=
  trapHere (xlateTrap (faultRecord (reqOf s.me) acc va none x)) s

/-- The trap of an uncorrectable memory error in the data of a scalar access (R335). -/
def memoryTrap (va : Word) (pa : Nat) : TrapInfo := ⟨6, 0, 0, 0, 0, va, 0, wd pa⟩

/-- A scalar access whose data must be good: the first word in error traps, with the address of the access (R335). -/
def goodData (va : Word) (ls : List Loc) (s : State) : Res Unit :=
  match badAt ls s with
  | some pa => .stop (trapHere (memoryTrap va pa) s)
  | none => .ok () s

/-- The strand's own scalar stores to some locations performed at their homes, so that an access there follows them; it waits while one of them is held
back (R104, R341). -/
def ownFirst (ls : List Loc) (s : State) : Res Unit :=
  let s1 := settle .scalar ls (drainQueue s)
  if queuedIn (fun l => ls.contains l) s1 then .stop s1 else .ok () s1

/-- A pending store fault delivered as the STORE trap; it waits while the strand is in a handler (R336, R341). -/
def storeTrapDue (s : State) : Bool := !s.me.sfq.isEmpty && !inHandler s.me

/-- The STORE trap at the boundary before the instruction at pc (R338). -/
def storeTrap (s : State) : State := trapHere ⟨4, 0, 0, 0, 0, 0, 0, 0⟩ s

/-- Store faults delivered as far as they are known: the queue is translated, and a record ends the instruction, which waits while a store is held back (R293, R341). A FENCE narrower than SYS waits
for no remote store (R120). -/
def deliverKnown (s : State) : Res Unit :=
  let s1 := drainQueue s
  if storeTrapDue s1 then .stop (storeTrap s1)
  else if !s1.me.stq.isEmpty then .stop s1
  else .ok () s1

/-- The other instructions before which store faults are delivered: they wait until each remote store has its reply too (R293, R382; log entry 80). -/
def deliverStores (s : State) : Res Unit := (deliverKnown s).bind fun _ s => if storesAway s then .stop s else .ok () s

/-! ## Returning from a trap (R340) -/

/-- The destination of a stopped instruction as it was before it (R340). -/
def restoreHeld (h : Held) (t : Strand) : Strand :=
  match h.reg with
  | .vec r old at_ => { t with v := t.v.set r old, maps := t.maps.set r at_ }
  | .mask r old => { t with m := t.m.set r old }
  | .none => t

/-- The multiple of 64 that a value of TSIX stands for: its bits 5:0 are 0 always (R47, R167; log entry 15). -/
def sixOf (w : Word) : Nat := fld w 6 8 * 64

/-- ERET's effect on the strand, for a strand in privileged mode with no store-fault record. -/
def leaveHandler (t : Strand) : Strand :=
  let back : Strand :=
    match t.held with
    | none => { t with six := sixOf t.tsix }
    | some h =>
      if t.tepc ≠ h.addr then { t with held := none, six := 0 }
      else if vstop t then { t with six := sixOf t.tsix }
      else { restoreHeld h t with held := none, six := 0 }
  { back with priv := bit t.tstat 0, tstat := wd (fld t.tstat 0 1), pc := t.tepc }

/-! ## Moving on (R213) -/

/-- The loops from `k` inward to outward at whose end the instruction at `pc` stands: COUNT falls and the loop starts again, or the loop ends and the next out
is examined. The answer is the loops and the address to go to. -/
def loopBack (pc next : Word) : Nat → Vector Loop 3 → Vector Loop 3 × Word
  | 0, ls => (ls, next)
  | k + 1, ls =>
    let i := fin 3 (by decide) k
    let l := ls[i]
    if l.act && l.last == pc then
      if 1 < l.count.toNat then (ls.set i { l with count := l.count - 1 }, l.start)
      else loopBack pc next k (ls.set i { l with count := 0, act := false })
    else loopBack pc next k ls

/-- The strand after an instruction that does not transfer control. -/
def advanced (t : Strand) : Strand :=
  if inHandler t then { t with pc := t.pc + 4 }
  else
    let p := loopBack t.pc (t.pc + 4) 3 t.lc
    { t with lc := p.1, pc := p.2 }

/-- The state after an instruction that does not transfer control. -/
def advance (s : State) : State := onMe advanced s

/-- Whether the instruction at pc is the final one of an active body (R213). -/
def atLoopEnd (t : Strand) : Bool := !inHandler t && t.lc.toList.any fun l => l.act && l.last == t.pc

/-- The loops after a transfer to `target`: every loop whose body it leaves ends, and those inside it (R213). -/
def leaveLoops (target : Word) : Nat → Vector Loop 3 → Vector Loop 3
  | 0, ls => ls
  | k + 1, ls =>
    -- loop 0 is the outermost: a loop left ends with every loop of a higher number
    let i := fin 3 (by decide) (3 - (k + 1))
    let l := ls[i]
    if l.act && !(decide (l.start ≤ target) && decide (target ≤ l.last)) then
      ls.mapIdx fun j x => if 3 - (k + 1) ≤ j then { x with act := false } else x
    else leaveLoops target k ls

/-- The strand after a transfer of control. -/
def jumped (target : Word) (t : Strand) : Strand :=
  if inHandler t then { t with pc := target } else { t with pc := target, lc := leaveLoops target 3 t.lc }

/-- The state after a transfer of control. -/
def jump (target : Word) (s : State) : State := onMe (jumped target) s

/-! ## Waiting -/

/-- Whether the strand already waits for a line, and whether a write has come. -/
def watchOf (s : State) : Option Watch := s.watches.find? fun w => w.mesh == s.me.mesh && w.sid == s.me.sid

/-- The strand waits for a write to a line; the instruction is executed again when one is performed (R223). -/
def waitFor (l : Loc) (s : State) : State :=
  { s with watches := s.watches.filter (fun w => !(w.mesh == s.me.mesh && w.sid == s.me.sid)) ++ [⟨s.me.mesh, s.me.sid, lineLoc l, false⟩] }

/-- The strand no longer waits. -/
def unwatch (s : State) : State := { s with watches := s.watches.filter fun w => !(w.mesh == s.me.mesh && w.sid == s.me.sid) }

end Sys2Proof.Machine
end

