-- ==== Sys2Proof/Machine/Flags.lean ====
section
/-! DEFINITION. MODE and VFLAGS: the fields of MODE, the rounding they give, and how flags are recorded (R63, R191 to R193). -/

namespace Sys2Proof.Machine

/-- Fields of MODE (R191). -/
def modeGM (m : Word) : Nat := fld m 0 3
def modeGON (m : Word) : Bool := bit m 3
def modeGINV (m : Word) : Bool := bit m 4
def modeRND (m : Word) : Nat := fld m 5 3
def modeSREN (m : Word) : Bool := bit m 8
def modeSAT (m : Word) : Bool := bit m 9
def modeDRAW (m : Word) : Nat := fld m 10 4
def modeSUBV (m : Word) : Nat := fld m 16 16
def modeFMSK (m : Word) : Nat := fld m 32 11

/-- The rounding a vector instruction does under MODE (R64). -/
def roundingOf (t : Strand) : Rounding where
  rm := if modeSREN t.mode then .sr else rmOf (modeRND t.mode)
  sat := modeSAT t.mode
  subv := modeSUBV t.mode
  seed := t.seed
  sbase := t.sbase
  draw := modeDRAW t.mode

/-- The rounding mode of the scalar FP32 instructions: RND alone (R64). -/
def scalarRm (t : Strand) : Rm := rmOf (modeRND t.mode)

/-- Flags ORed into VFLAGS but for those MODE masks; POISON cannot be masked (R193). -/
def withFlags (fl : Nat) (t : Strand) : Strand :=
  { t with vflags := t.vflags ||| wd (fl &&& ((2 ^ 12 - 1) ^^^ modeFMSK t.mode)) }

/-- Flags recorded for the strand whose turn it is. -/
def raise (fl : Nat) (s : State) : State := onMe (withFlags fl) s

end Sys2Proof.Machine
end

