-- ==== Sys2Proof/Machine/Operands.lean ====
section
/-! DEFINITION. Operand forms: immediates and patch slots (R185, R186), the guard (R192), elements of vector registers, and how an instruction writes a
vector register (R45, R171, R173, R229). -/

namespace Sys2Proof.Machine

/-! ## Immediates (R185, R186) -/

/-- A value kept among a strand's patch values: at most 64, a further one replaces one of them (R186). -/
def keepPatch (va w : Word) (k : Nat) (ps : List (Word × Word)) : List (Word × Word) :=
  if ps.length < 64 then ps ++ [(va, w)] else ps.set (Config.patchVictim k % 64) (va, w)

/-- The patch slot at an address: the value the strand holds, or an 8-byte load at the home, which no CTL leaf allows (R29, R186; log entry 16). -/
def patchRead (va : Word) (s : State) : Res Word :=
  match s.me.patch.find? fun p => p.1 == va with
  | some p => .ok p.2 s
  | none =>
    match translate (reqOf s.me) .load 0 va s with
    | (.error x, s1) => .stop (xlate .load va x s1)
    | (.ok t, s1) =>
      let r := scalarTargetsValue t s1
      let d := draw r.2
      .ok r.1 (onMe (fun m => { m with patch := keepPatch va r.1 d.1 m.patch }) (if 64 ≤ s.me.patch.length then d.2 else r.2))
where
  /-- Eight aligned bytes read at their home. -/
  scalarTargetsValue (t : Target) (s : State) : Word × State :=
    match t with
    | .mem pa mt => read8 s.me.ctx (mt == .wb) pa s
    | .scratch m off => (wd (natOf (((coreAt m s).scratch).getN off 8)), s)
    | .remote _ => (0, s)

/-- ImmValue of a 14-bit field (R185). -/
def immValue (i : BitVec 14) (s : State) : Res Word :=
  if i.getLsbD 13 then patchRead (s.me.patchbase + wd (8 * field i.toNat 0 13)) s else .ok (sx i.toNat 13) s

/-- BranchTarget, LongValue and JumpOffset (R185). -/
def branchTarget (pc : Word) (o : BitVec 14) : Word := pc + 4 * sx o.toNat 14
def longValue (o : BitVec 19) : Word := sx o.toNat 19
def jumpOffset (o : BitVec 24) : Word := sx o.toNat 24

/-! ## The guard (R192) -/

/-- Active(i). -/
def active (t : Strand) (i : Nat) : Bool :=
  !modeGON t.mode || ((t.m[fin 8 (by decide) (modeGM t.mode)]).getLsbD i != modeGINV t.mode)

/-! ## Elements of vector registers (R44, R45) -/

/-- Plane `b` of a register; a plane it does not hold reads as zero. -/
def planeAt (r : VReg) (b : Nat) : Plane := r.planes.getD b 0

/-- The code of element `i` in some planes, plane 0 first. -/
def codeAt : List Plane → Nat → Nat
  | [], _ => 0
  | p :: ps, i => (p.getLsbD i).toNat + 2 * codeAt ps i

/-- The code of element `i` of a register. -/
def elem (r : VReg) (i : Nat) : Nat := codeAt r.planes i

/-- The scale byte of block `k` of a scale plane. -/
def scaleByte (p : Plane) (k : Nat) : Nat := field p.toNat (8 * k) 8

/-- A register as a source: a stopped instruction reads the kept planes of its destination (R173, R340). -/
def vSrc (r : Fin 32) (s : State) : VReg :=
  match s.me.held with
  | some ⟨.vec d old _, _, _⟩ => if d = r then old else s.me.v[r]
  | _ => s.me.v[r]

/-- The width, kind and block length of a register. -/
def vWidth (r : VReg) : Nat := tagWidth r.tag
def vKind (r : VReg) : Kind := kindOf r.tag
def vBlock (r : VReg) : Nat := blockLen r.tag

/-- Whether a kind is sN or nN. -/
def isInt : Kind → Bool
  | .s _ => true
  | .n _ => true
  | _ => false

/-- The integer an element stands for, by its code alone (R52, R228). -/
def intOf (k : Kind) (c : Nat) : Int :=
  match k with
  | .s w => signExtend c w
  | k => (c % 2 ^ k.width : Nat)

/-- Element `i` of a register as an integer. -/
def elemInt (r : VReg) (i : Nat) : Int := intOf (vKind r) (elem r i)

/-- The planes that a register of a tag occupies, its scale plane included. -/
def planeNeed (tag : BitVec 16) : Nat := tagWidth tag + (if blockLen tag = 0 then 0 else 1)

/-- The planes a register uses (R171). -/
def planeUse (r : VReg) : Nat := if r.planes.isEmpty then 0 else r.planes.length + (if vBlock r = 0 then 0 else 1)

/-- Whether a strand's budget holds when register `d` takes a tag (R171). -/
def budgetOk (t : Strand) (d : Fin 32) (tag : BitVec 16) : Bool :=
  let others := ((List.range 32).map fun k => if k = d.1 then 0 else planeUse t.v[fin 32 (by decide) k]).foldl (· + ·) 0
  decide (others + planeNeed tag ≤ t.budget)

/-- The lowest `n` bits of a plane. -/
def lowMask (n : Nat) : Plane := BitVec.ofNat 16384 (2 ^ n - 1)

/-- Bit `b` of each code of a list, the first at bit 0. -/
def bitsOf (b : Nat) : List Nat → Nat
  | [] => 0
  | c :: cs => c / 2 ^ b % 2 + 2 * bitsOf b cs

/-- Flags as bits of a number, the first at bit 0. -/
def bitsOfBools : List Bool → Nat
  | [] => 0
  | c :: cs => c.toNat + 2 * bitsOfBools cs

/-- Bytes as a number, the first lowest. -/
def packBytes : List Nat → Nat
  | [] => 0
  | c :: cs => c % 256 + 256 * packBytes cs

/-- What an instruction writes to a register: the tag, the range of elements it has done, the length, and the codes of that range in order, none where an element is masked
off; `scale` gives the scale byte of each block that holds an element below the length. -/
structure VWrite where
  tag : BitVec 16
  six : Nat
  stop : Nat
  vl : Nat
  codes : List (Option Nat)
  scale : Nat → Nat

/-- Whether an instruction has done every element. -/
def VWrite.complete (w : VWrite) : Bool := decide (w.vl ≤ w.stop)

/-- The codes of the range with masked-off elements as they were before (R45). -/
def VWrite.full (w : VWrite) (prev : VReg) : List Nat :=
  w.codes.mapIdx fun k c => c.getD (elem prev (w.six + k) % 2 ^ tagWidth w.tag)

/-- The planes of a written register: elements below SIX as they stand, the range, and above it zero once the instruction is complete (R45, R167). -/
def VWrite.planes (w : VWrite) (cur prev : VReg) : List Plane :=
  let codes := w.full prev
  (List.range (tagWidth w.tag)).map fun b =>
    (planeAt cur b &&& lowMask w.six) ||| BitVec.ofNat 16384 (bitsOf b codes * 2 ^ w.six) |||
      (if w.complete then 0 else planeAt prev b &&& ~~~(lowMask w.stop))

/-- The scale plane of a written register (R45, R229). -/
def VWrite.scales (w : VWrite) (cur prev : VReg) : Plane :=
  let l := blockLen w.tag
  if l = 0 then 0
  else
    BitVec.ofNat 16384 (packBytes ((List.range (vlmax / l)).map fun k =>
      if (k + 1) * l ≤ w.six then scaleByte cur.scale k
      else if w.vl ≤ k * l then (if w.complete then 0x7F else if blockLen prev.tag = l then scaleByte prev.scale k else 0x7F)
      else if w.stop ≤ k * l then (if blockLen prev.tag = l then scaleByte prev.scale k else 0x7F)
      else w.scale k))

/-- Whether a masked-off element of the range lies in a segment. -/
def VWrite.keeps (w : VWrite) (seg : Nat) : Bool :=
  (List.range 64).any fun k =>
    decide (w.six ≤ seg * 64 + k) && decide (seg * 64 + k < w.stop) && w.codes[seg * 64 + k - w.six]? == some none

/-- The poison marks of a written register (R344). -/
def VWrite.marks (w : VWrite) (cur prev : VReg) : List PoisonMark :=
  (cur.poison.filter fun p => decide (p.plane < tagWidth w.tag) && decide (p.seg * 64 < w.six)) ++
  (prev.poison.filter fun p => decide (p.plane < tagWidth w.tag) && decide (w.six ≤ p.seg * 64) &&
    (if p.seg * 64 < w.stop then w.keeps p.seg else !w.complete))

/-- The address of the instruction that wrote the words of a segment (R344). -/
def writerAt (ws : List (Nat × Word)) (seg : Nat) : Word := ((ws.filter fun p => decide (p.1 ≤ seg)).getLast?.map fun p => p.2).getD 0

/-- Who wrote the words of a written register: the instruction at `pc` those of the range, and the rest those who wrote them before (R344). -/
def VWrite.writers (w : VWrite) (pc : Word) (cur prev : VReg) : List (Nat × Word) :=
  (cur.writers.filter fun p => decide (p.1 < w.six / 64)) ++ (w.six / 64, pc) ::
    (if w.complete then []
     else (w.stop / 64, writerAt prev.writers (w.stop / 64)) :: prev.writers.filter fun p => decide (w.stop / 64 < p.1))

/-- The register an instruction writes. -/
def VWrite.result (w : VWrite) (pc : Word) (cur prev : VReg) : VReg :=
  ⟨w.tag, w.planes cur prev, w.scales cur prev, w.marks cur prev, w.writers pc cur prev⟩

/-- HWM after a write of register `d` at a length (R179). -/
def raiseHwm (d : Nat) (vl : Nat) (h : Word) : Word :=
  wd (max (fld h 48 5) d * 2 ^ 48 + max (fld h 32 15) vl * 2 ^ 32 + (fld h 0 32 ||| 2 ^ d))

/-- HWM after a vector instruction that writes no vector register: its VL counts (R179). -/
def noteVl (h : Word) (vl : Nat) : Word := setFld h 32 15 (max (fld h 32 15) vl)

/-- A register put in place of another, as a write by the instruction at pc. -/
def putV (d : Fin 32) (r : VReg) (t : Strand) : Strand := { t with v := t.v.set d r, hwm := raiseHwm d.1 t.vl t.hwm }

/-- The elements of one group (R167). -/
def groupSize (s : State) : Nat := max s.core.alc 64

/-- Where the element groups of an instruction that begin at SIX end, when a quota bounds how many of them it does before it stops (R167, R173; log entry 6). -/
def stopAt (s : State) : Nat :=
  match s.quota with
  | none => max s.me.six s.me.vl
  | some q => max s.me.six (min s.me.vl (s.me.six + q * groupSize s))

/-- The flags that the part of an instruction that is done has raised. -/
def heldFlags (t : Strand) : Nat := (t.held.map fun h => h.flags).getD 0

/-- An instruction that stopped part-way: its destination as it was is held, with the flags of what is done, and SIX names the first element not done (R173). One that stopped at
element 0 has not begun. -/
def stopPart (reg : HeldReg) (stop flags : Nat) (t : Strand) : Strand :=
  if stop = 0 then t
  else
    { t with
      six := stop
      held := some (match t.held with | some h => { h with flags := h.flags ||| flags } | none => ⟨reg, t.pc, flags⟩) }

/-- An instruction that retires: its flags reach VFLAGS, SIX returns to 0, the old mapping is released, its VL counts (R167, R173, R179). -/
def retired (t : Strand) : Strand := withFlags (heldFlags t) { t with six := 0, held := none, hwm := noteVl t.hwm t.vl }

/-- A vector instruction retires and the next one follows. -/
def retire (s : State) : State := advance (onMe retired s)

/-- The quota was for one instruction. -/
def clearQuota (s : State) : State := { s with quota := none }

/-! ## The plane pool (R171, R172) -/

/-- The planes of a core's pool (R172). -/
def poolSize : Nat := 768

/-- The physical planes of a held mapping. -/
def heldPlanes (t : Strand) : List Nat :=
  match t.held with
  | some ⟨.vec _ _ at_, _, _⟩ => at_
  | _ => []

/-- The physical planes that a strand's mappings occupy, the held one included. -/
def usedPlanes (t : Strand) : List Nat := t.maps.toList.flatten ++ heldPlanes t

/-- The planes of a core that are not free: those of its strands' mappings, and those of earlier mappings that wait for a retirement (R172). -/
def takenPlanes (s : State) : List Nat := (s.me :: s.core.strands).flatMap usedPlanes ++ s.core.window.flatMap fun f => f.frees

/-- How many planes of the pool are free; a plane may stand in several mappings (R234). -/
def planesLeft (s : State) : Nat := poolSize - (distinct (takenPlanes s)).length

/-- The free planes of the pool. -/
def freePlanes (s : State) : List Nat :=
  let used := takenPlanes s
  (List.range poolSize).filter fun p => !used.contains p

/-- Some planes taken from the free ones (log entry 81). -/
def takePlanes : Nat → List Nat → List Nat
  | 0, _ => []
  | n + 1, free =>
    match takeAt (Config.pickPlane free % free.length) free with
    | none => []
    | some (p, rest) => p :: takePlanes n rest

/-- Whether the instruction at hand goes on with a register whose new mapping it allocated before it stopped. -/
def resumes (d : Fin 32) (t : Strand) : Bool :=
  match t.held with
  | some ⟨.vec r _ _, _, _⟩ => r == d
  | _ => false

/-- The units of the plane pool that some planes lie in (R405). -/
def planeUnits (ps : List Nat) : List Nat := ps.map fun p => p / 2

/-- A write of the planes of a register at the planes it occupies. -/
def markPlanes (d : Fin 32) (s : State) : State :=
  onCore (fun c => { c with dirty := markUnits (planeUnits s.me.maps[d]) c.dirty }) s

/-- The mapping of a register that an instruction writes with a tag: planes from the free ones, or those it took before it stopped (R172). -/
def mapTo (d : Fin 32) (tag : BitVec 16) (s : State) : State :=
  let planes := if resumes d s.me then s.me.maps[d] else takePlanes (planeNeed tag) (freePlanes s)
  markPlanes d (onMe (fun t => { t with maps := t.maps.set d planes }) s)

/-- The places of a new mapping, each with a plane that stands already or with the next of some new ones. -/
def placePlanes : List (Option Nat) → List Nat → List Nat
  | [], _ => []
  | some p :: t, new => p :: placePlanes t new
  | none :: t, p :: new => p :: placePlanes t new
  | none :: t, [] => placePlanes t []

/-- A mapping of a register that keeps planes which stand already and takes new ones for its other places (R233, R234). Of its planes only the new ones are written. -/
def remap (d : Fin 32) (places : List (Option Nat)) (s : State) : State :=
  let new := takePlanes (places.filter fun p => p.isNone).length (freePlanes s)
  onCore (fun c => { c with dirty := markUnits (planeUnits new) c.dirty }) (onMe (fun t => { t with maps := t.maps.set d (placePlanes places new) }) s)

/-- The physical plane at a place of a register's mapping. -/
def planeOf (r : Fin 32) (b : Nat) (s : State) : Option Nat := s.me.maps[r][b]?

/-- A rename that takes some new planes waits while the pool has too few (R172). -/
def takes (n : Nat) (s : State) : Res Unit := if n ≤ planesLeft s then .ok () s else .stop s

/-- The write of the elements an instruction has done to its destination, and its end: it retires when all are done, and otherwise stops part-way. -/
def writeV (d : Fin 32) (w : VWrite) (flags : Nat) (s : State) : State :=
  let new := w.result s.me.pc s.me.v[d] (vSrc d s)
  let s1 := mapTo d w.tag s
  if w.complete then retire (clearQuota (onMe (putV d new) (raise flags s1)))
  else if w.stop = 0 then clearQuota s
  else clearQuota (onMe (fun t => putV d new (stopPart (.vec d s.me.v[d] s.me.maps[d]) w.stop flags t)) s1)

/-- The elements of a register whose data were in error when the instruction at `pc` read them from memory: their words are poisoned (R344). -/
def poisonElements (d : Fin 32) (pc : Word) (es : List Nat) (s : State) : State :=
  if es.isEmpty then s
  else
    onMe (fun t =>
      let r := t.v[d]
      { t with v := t.v.set d { r with poison := r.poison ++ es.flatMap fun e => (List.range r.planes.length).map fun b => ⟨b, e / 64, pc⟩ } }) s

/-! ## Checks at rename -/

/-- What every vector-queue instruction meets first: none runs in a handler (R339). -/
def vqueue (i : Instr) (s : State) : Res Unit := require i (!inHandler s.me) s

/-- A whole instruction starts at SIX 0 (R231). -/
def whole (i : Instr) (s : State) : Res Unit := (vqueue i s).bind fun _ s => require i (s.me.six == 0) s

/-- The pool has planes for a register of a tag, or has given them (R172). -/
def roomFor (d : Fin 32) (tag : BitVec 16) (s : State) : Bool := resumes d s.me || decide (planeNeed tag ≤ planesLeft s)

/-- The rename of a destination that takes a tag: the budget holds, and the instruction waits while the pool has too few free planes (R171, R172). -/
def fits (i : Instr) (d : Fin 32) (tag : BitVec 16) (s : State) : Res Unit :=
  (require i (budgetOk s.me d tag) s).bind fun _ s => if roomFor d tag s then .ok () s else .stop s

/-! ## Poison (R345) -/

/-- The mark that poisons element `e` of a register, if there is one. -/
def markAt (r : VReg) (e : Nat) : Option PoisonMark := r.poison.find? fun p => p.seg == e / 64

/-- The lowest of some elements that is poisoned in one of the sources, with its register and mark. -/
def firstPoison (srcs : List (Fin 32 × VReg)) (es : List Nat) : Option (Nat × Fin 32 × PoisonMark) :=
  if srcs.all fun r => r.2.poison.isEmpty then none
  else es.findSome? fun e => srcs.findSome? fun r => (markAt r.2 e).map fun m => (e, r.1, m)

/-- The start of the element group that an element belongs to, of those that begin at SIX (R167). -/
def groupOf (s : State) (e : Nat) : Nat := s.me.six + (e - s.me.six) / groupSize s * groupSize s

/-- The POISON trap of an element, with VFLAGS.POISON set (R335, R345). -/
def poisonTrap (cls num e : Nat) (producer : Word) (s : State) : State :=
  trapHere ⟨7, 0, 0, 0, wd (Config.poisonRegister cls num), wd e, producer, 0⟩ (onMe (fun t => { t with vflags := t.vflags ||| wd fPOISON }) s)

/-! ## Element by element -/

/-- The elements from SIX up to a bound, and below VL. -/
def elementsTo (stop : Nat) (t : Strand) : List Nat := (List.range (min stop t.vl - t.six)).map fun k => t.six + k

/-- The codes that an instruction gives its elements from SIX to a bound, none where an element is masked off, with the flags of the active ones. -/
def codesTo (act : Nat → Bool) (f : Nat → Nat × Nat) : List Nat → List (Option Nat) × Nat
  | [] => ([], 0)
  | i :: rest =>
    let r := codesTo act f rest
    if act i then (some (f i).1 :: r.1, (f i).2 ||| r.2) else (none :: r.1, r.2)

/-- An instruction that writes register `d`, element by element under `act`, with a tag: it stops at the first element group that consumes poison (R345), and
otherwise writes what it has done (R45, R167, R173). -/
def elementwise (d : Fin 32) (srcs : List (Fin 32 × VReg)) (tag : BitVec 16) (act : Nat → Bool) (f : Nat → Nat × Nat) (scale : Nat → Nat) (s : State) : State :=
  let upTo (stop : Nat) (s : State) : State :=
    let r := codesTo act f (elementsTo stop s.me)
    writeV d ⟨tag, s.me.six, stop, s.me.vl, r.1, scale⟩ r.2 s
  match firstPoison srcs ((elementsTo (stopAt s) s.me).filter act) with
  | some (e, r, m) => poisonTrap 0 r.1 e m.producer (upTo (groupOf s e) s)
  | none => upTo (stopAt s) s

/-- A source register as poison names it. -/
def src (r : Fin 32) (s : State) : Fin 32 × VReg := (r, vSrc r s)

/-- The scale bytes that a destination takes from a source: those of equal block length, 1.0 otherwise (R229). -/
def scalesOf (r : VReg) (tag : BitVec 16) (k : Nat) : Nat := if blockLen r.tag = blockLen tag then scaleByte r.scale k else 0x7F

/-! ## Masks -/

/-- A mask register after the elements from SIX to a bound have been given bits; at or above VL it is zero once the instruction is complete. -/
def maskBits (six stop vl : Nat) (bits : List Bool) (old : Plane) : Plane :=
  (old &&& lowMask six) ||| BitVec.ofNat 16384 (bitsOfBools bits * 2 ^ six) ||| (if vl ≤ stop then 0 else old &&& ~~~(lowMask stop))

/-- The write of a mask register by an instruction that has done its elements up to a bound, and its end. -/
def writeM (d : Fin 8) (stop : Nat) (bits : List Bool) (s : State) : State :=
  let s1 := onMe (fun t => { t with m := t.m.set d (maskBits t.six stop t.vl bits t.m[d]) }) s
  if s.me.vl ≤ stop then retire (clearQuota s1) else clearQuota (onMe (stopPart (.mask d s.me.m[d]) stop 0) s1)

/-! ## Leave (R284) -/

/-- A heavy instruction of some steps waits until leave is granted, asking first; granted, it goes on and the leave is spent. `array` tells an instruction of chapter 13. -/
def askLeave (array : Bool) (steps : Nat) (s : State) : Res Unit :=
  match s.me.leave with
  | .granted _ => .ok () (onMe (fun t => { t with leave := .none }) s)
  | .asked _ _ _ => .stop s
  | _ => .stop (onMe (fun t => { t with leave := .asked steps (now s) array }) s)

end Sys2Proof.Machine
end

