-- ==== Sys2Proof/Machine/ScalarInt.lean ====
section
/-! DEFINITION. The scalar integer instructions (R203 to R206). -/

namespace Sys2Proof.Machine

/-- A form-T integer instruction: a value of two registers is written, and the next instruction follows (R204). -/
def aluT (f : Word → Word → Word) (d a b : GReg) (s : State) : State := advance (setG d (f (gR a s) (gR b s)) s)

/-- A form-I integer instruction: the second operand is ImmValue (R204). -/
def aluI (f : Word → Word → Word) (d a : GReg) (i : BitVec 14) (s : State) : State :=
  ((immValue i s).bind fun k s => .ok () (advance (setG d (f (gR a s) k) s))).done

/-- MULH and MULH.U (R204). -/
def mulhS (a b : Word) : Word := BitVec.ofInt 64 (a.toInt * b.toInt / 2 ^ 64)
def mulhUns (a b : Word) : Word := wd (a.toNat * b.toNat / 2 ^ 64)

/-- DIV, REM and their unsigned forms (R206). -/
def divS (a b : Word) : Word :=
  if b = 0 then wd (2 ^ 64 - 1) else if a.toInt = -(2 ^ 63) ∧ b.toInt = -1 then wd (2 ^ 63) else BitVec.ofInt 64 (a.toInt.tdiv b.toInt)
def remS (a b : Word) : Word :=
  if b = 0 then a else if a.toInt = -(2 ^ 63) ∧ b.toInt = -1 then 0
  else BitVec.ofInt 64 (a.toInt - b.toInt * a.toInt.tdiv b.toInt)
def divUns (a b : Word) : Word := if b = 0 then wd (2 ^ 64 - 1) else wd (a.toNat / b.toNat)
def remUns (a b : Word) : Word := if b = 0 then a else wd (a.toNat % b.toNat)

/-- The shifts; the count is bits [5:0] of the second operand (R204). -/
def shiftL (a b : Word) : Word := a <<< (b.toNat % 64)
def shiftR (a b : Word) : Word := a >>> (b.toNat % 64)
def shiftA (a b : Word) : Word := a.sshiftRight (b.toNat % 64)

/-- MIN, MAX and their unsigned forms. -/
def minS (a b : Word) : Word := if b.toInt < a.toInt then b else a
def maxS (a b : Word) : Word := if a.toInt < b.toInt then b else a
def minUns (a b : Word) : Word := if b.toNat < a.toNat then b else a
def maxUns (a b : Word) : Word := if a.toNat < b.toNat then b else a

/-- A truth value as a word. -/
def truth (b : Bool) : Word := if b then 1 else 0

def setEqual (a b : Word) : Word := truth (a == b)
def setLess (a b : Word) : Word := truth (decide (a.toInt < b.toInt))
def setBelow (a b : Word) : Word := truth (decide (a.toNat < b.toNat))

/-- The zeros above the highest 1 (R204). -/
def countLeading (a : Word) : Word := if a = 0 then 64 else wd (63 - a.toNat.log2)

/-- The number of 1 bits (R204). -/
def countOnes (a : Word) : Word := wd (popcount 64 a.toNat)

/-- ADD (R204). -/
def execAdd (d a b : GReg) (s : State) : Out := .next (aluT (· + ·) d a b s)

/-- SUB (R204). -/
def execSub (d a b : GReg) (s : State) : Out := .next (aluT (· - ·) d a b s)

/-- MUL (R204). -/
def execMul (d a b : GReg) (s : State) : Out := .next (aluT (· * ·) d a b s)

/-- MULH (R204). -/
def execMulh (d a b : GReg) (s : State) : Out := .next (aluT mulhS d a b s)

/-- MULH.U (R204). -/
def execMulhU (d a b : GReg) (s : State) : Out := .next (aluT mulhUns d a b s)

/-- DIV (R206). -/
def execDiv (d a b : GReg) (s : State) : Out := .next (aluT divS d a b s)

/-- DIV.U (R206). -/
def execDivU (d a b : GReg) (s : State) : Out := .next (aluT divUns d a b s)

/-- REM (R206). -/
def execRem (d a b : GReg) (s : State) : Out := .next (aluT remS d a b s)

/-- REM.U (R206). -/
def execRemU (d a b : GReg) (s : State) : Out := .next (aluT remUns d a b s)

/-- AND (R204). -/
def execAnd (d a b : GReg) (s : State) : Out := .next (aluT (· &&& ·) d a b s)

/-- OR (R204). -/
def execOr (d a b : GReg) (s : State) : Out := .next (aluT (· ||| ·) d a b s)

/-- XOR (R204). -/
def execXor (d a b : GReg) (s : State) : Out := .next (aluT (· ^^^ ·) d a b s)

/-- SHL (R204). -/
def execShl (d a b : GReg) (s : State) : Out := .next (aluT shiftL d a b s)

/-- SHR (R204). -/
def execShr (d a b : GReg) (s : State) : Out := .next (aluT shiftR d a b s)

/-- SAR (R204). -/
def execSar (d a b : GReg) (s : State) : Out := .next (aluT shiftA d a b s)

/-- MIN (R204). -/
def execMin (d a b : GReg) (s : State) : Out := .next (aluT minS d a b s)

/-- MIN.U (R204). -/
def execMinU (d a b : GReg) (s : State) : Out := .next (aluT minUns d a b s)

/-- MAX (R204). -/
def execMax (d a b : GReg) (s : State) : Out := .next (aluT maxS d a b s)

/-- MAX.U (R204). -/
def execMaxU (d a b : GReg) (s : State) : Out := .next (aluT maxUns d a b s)

/-- SET.EQ (R204). -/
def execSetEq (d a b : GReg) (s : State) : Out := .next (aluT setEqual d a b s)

/-- SET.LT (R204). -/
def execSetLt (d a b : GReg) (s : State) : Out := .next (aluT setLess d a b s)

/-- SET.LTU (R204). -/
def execSetLtu (d a b : GReg) (s : State) : Out := .next (aluT setBelow d a b s)

/-- CLZ (R204). -/
def execClz (d a : GReg) (s : State) : Out := .next (advance (setG d (countLeading (gR a s)) s))

/-- POPC (R204). -/
def execPopc (d a : GReg) (s : State) : Out := .next (advance (setG d (countOnes (gR a s)) s))

/-- SEL (R204). -/
def execSel (d a b c : GReg) (s : State) : Out := .next (advance (setG d (if gR c s ≠ 0 then gR a s else gR b s) s))

/-- LIH (R205). -/
def execLih (d : GReg) (k : BitVec 19) (s : State) : Out := .next (advance (setG d (gR d s * wd (2 ^ 19) + wd k.toNat) s))

/-- ADD, form I (R204). -/
def execAddI (d a : GReg) (i : BitVec 14) (s : State) : Out := .next (aluI (· + ·) d a i s)

/-- AND, form I (R204). -/
def execAndI (d a : GReg) (i : BitVec 14) (s : State) : Out := .next (aluI (· &&& ·) d a i s)

/-- OR, form I (R204). -/
def execOrI (d a : GReg) (i : BitVec 14) (s : State) : Out := .next (aluI (· ||| ·) d a i s)

/-- XOR, form I (R204). -/
def execXorI (d a : GReg) (i : BitVec 14) (s : State) : Out := .next (aluI (· ^^^ ·) d a i s)

/-- SHL, form I (R204). -/
def execShlI (d a : GReg) (i : BitVec 14) (s : State) : Out := .next (aluI shiftL d a i s)

/-- SHR, form I (R204). -/
def execShrI (d a : GReg) (i : BitVec 14) (s : State) : Out := .next (aluI shiftR d a i s)

/-- SAR, form I (R204). -/
def execSarI (d a : GReg) (i : BitVec 14) (s : State) : Out := .next (aluI shiftA d a i s)

/-- SET.EQ, form I (R204). -/
def execSetEqI (d a : GReg) (i : BitVec 14) (s : State) : Out := .next (aluI setEqual d a i s)

/-- SET.LT, form I (R204). -/
def execSetLtI (d a : GReg) (i : BitVec 14) (s : State) : Out := .next (aluI setLess d a i s)

/-- SET.LTU, form I (R204). -/
def execSetLtuI (d a : GReg) (i : BitVec 14) (s : State) : Out := .next (aluI setBelow d a i s)

end Sys2Proof.Machine
end

