-- ==== Sys2Proof/Machine/VConfig.lean ====
section
/-! DEFINITION. The granted vector length (R169, R170, R235) and the configuration instructions VCFG, SETVL and SETMODE (R233 to R236). -/

namespace Sys2Proof.Machine

/-! ## A word read at its home -/

/-- The locations of the eight bytes at a target that is not remote. -/
def eightAt (t : Target) : List Loc := (List.range 8).map fun k => targetLoc t k

/-- An 8-byte read of the strand at its home, translated as a load that no CTL leaf allows, with the strand's own stores performed there first (R29, R103, R170, R223; log entry 30). -/
def readHome8 (va : Word) (s : State) : Res (Word × Target) :=
  match translate (reqOf s.me) .load 0 va s with
  | (.error x, s1) => .stop (xlate .load va x s1)
  | (.ok t, s1) =>
    (ownFirst (eightAt t) s1).bind fun _ s2 =>
      let r := patchRead.scalarTargetsValue t s2
      .ok (r.1, t) r.2

/-! ## Grant (R169, R235) -/

/-- The largest block length among the registers of a strand; 1 when none is blocked. -/
def largestBlock (t : Strand) : Nat := (t.v.toList.map fun r => blockLen r.tag).foldl max 1

/-- The acquire that a grant limited by a publication is: at the latch's scope, or at SYS when the mark came over a chain port (R117, R120, R235). `t` is where the mark
stands. -/
def acquirePub (l : Word) (t : Target) (s : State) : State :=
  let far := match targetLoc t 0 with | .mem pa => s.remotePubs.contains pa | .scratch _ _ => false
  acquireCopies (latchCovers s.me l s) (if far then 5 else latchScope s.me l s) s

/-- Grant with no publication: the request under the ceiling, in whole blocks where that leaves any. -/
def plainGrant (req ceiling l : Nat) : Nat :=
  let g := min req ceiling
  if 0 < l * (g / l) then l * (g / l) else g

/-- Grant of R235, for a request and a base: the length, or a wait for a write to the publication's high-water word. -/
def grantOf (req : Nat) (base : Word) (pub : Option Word) (s : State) : Res Nat :=
  let l := largestBlock s.me
  match pub with
  | none => .ok (plainGrant req s.me.ceiling l) s
  | some p =>
    (readHome8 (p + 8) s).bind fun w s =>
      let g := min req s.me.ceiling
      let lim : Int := (fld w.1 0 48 : Int) - base.toNat
      if lim < g ∧ bit w.1 63 then .ok (max lim 0).toNat (acquirePub p w.2 (unwatch s))
      else
        let limited := decide (lim < g)
        let g' : Int := if limited then lim else g
        let r : Int := l * (g' / l)
        if 0 < r then .ok r.toNat (if limited then acquirePub p w.2 (unwatch s) else unwatch s)
        else if !limited then .ok g (unwatch s)
        else .stop (waitFor (targetLoc w.2 0) s)

/-- The publication a strand has bound: 0 stands for none (R214, R351). -/
def boundPub (t : Strand) : Option Word := if t.pub = 0 then none else some t.pub

/-! ## VCFG (R233) -/

/-- The register that VCFG installs: the planes both widths hold, zero planes above, the scale plane where the block length stays. -/
def retagged (tag : BitVec 16) (r : VReg) : VReg where
  tag := tag
  planes := (List.range (tagWidth tag)).map fun b => planeAt r b
  scale :=
    if blockLen tag = 0 then 0
    else if blockLen tag = blockLen r.tag then r.scale
    else BitVec.ofNat 16384 (packBytes (List.replicate (vlmax / blockLen tag) 0x7F))
  poison := r.poison.filter fun p => decide (p.plane < tagWidth tag)
  writers := r.writers

/-- The places of the mapping that VCFG installs: the planes of the old one that stay, and its scale plane where the block length does. -/
def retaggedPlaces (d : VRegN) (tag : BitVec 16) (s : State) : List (Option Nat) :=
  let old := (s.me.v[d]).tag
  ((List.range (tagWidth tag)).map fun b => if b < tagWidth old then planeOf d b s else none) ++
    (if blockLen tag = 0 then [] else [if blockLen tag = blockLen old then planeOf d (tagWidth old) s else none])

/-- HWM after VCFG: the register counts as written, VL takes no part. -/
def touchHwm (d : Nat) (h : Word) : Word := raiseHwm d 0 h

/-- VCFG (R233). -/
def execVcfg (d : VRegN) (i : BitVec 14) (s : State) : Out :=
  ((immValue i s).bind fun k s =>
    (vqueue (.vcfg d i) s).bind fun _ s =>
      let tag := BitVec.ofNat 16 k.toNat
      (require (.vcfg d i) (!tagIllegal tag && budgetOk s.me d tag) s).bind fun _ s =>
        let places := retaggedPlaces d tag s
        (takes (places.filter fun p => p.isNone).length s).bind fun _ s =>
          .ok () (advance (onMe (fun t => { t with v := t.v.set d (retagged tag t.v[d]), hwm := touchHwm d.1 t.hwm }) (remap d places s)))).out

/-! ## SETVL and SETMODE -/

/-- SETVL (R235). -/
def execSetvl (d a b : GReg) (s : State) : Out :=
  ((vqueue (.setvl d a b) s).bind fun _ s =>
    (require (.setvl d a b) (b == 0 || (gR b s).toNat % 8 == 0) s).bind fun _ s =>
      let p := gR b s
      (grantOf (gR a s).toNat s.me.sbase (if b = 0 then none else some p) s).bind fun n s =>
        .ok () (advance (setG d (wd n) (onMe (fun t => { t with vl := n, pub := if b = 0 then 0 else p }) s)))).out

/-- The MODE bits that SETMODE replaces (R236). -/
def modeGroups (k : Nat) : Nat :=
  (if k.testBit 0 then bitsMask 4 0 else 0) + (if k.testBit 1 then bitsMask 13 5 else 0) +
    (if k.testBit 2 then bitsMask 31 16 else 0) + (if k.testBit 3 then bitsMask 42 32 else 0)

/-- SETMODE (R191, R236). -/
def execSetmode (a : GReg) (k : BitVec 4) (s : State) : Out :=
  ((vqueue (.setmode a k) s).bind fun _ s =>
    let m := masked s.me.mode (gR a s) (modeGroups k.toNat)
    (require (.setmode a k) (!modeIllegal m) s).bind fun _ s => .ok () (advance (onMe (fun t => { t with mode := m }) s))).out

end Sys2Proof.Machine
end

