-- ==== Sys2Proof/Machine/Branch.lean ====
section
/-! DEFINITION. Branches, jumps and calls (R210, R211), LOOP (R212, R213) and STRIP (R214). An instruction that transfers control is illegal as the final
instruction of an active loop body (R213). -/

namespace Sys2Proof.Machine

/-- An instruction that may not end a loop body (R213). -/
def notFinal (i : Instr) (s : State) : Res Unit := require i (!atLoopEnd s.me) s

/-- A branch: taken to BranchTarget when its relation holds (R210). -/
def branch (i : Instr) (r : Word → Word → Bool) (d a : GReg) (o : BitVec 14) (s : State) : Out :=
  ((notFinal i s).bind fun _ s =>
    .ok () (if r (gR d s) (gR a s) then jump (branchTarget s.me.pc o) s else advance s)).out

/-- BEQ (R210). -/
def execBeq (d a : GReg) (o : BitVec 14) (s : State) : Out := branch (.beq d a o) (fun x y => x == y) d a o s

/-- BNE (R210). -/
def execBne (d a : GReg) (o : BitVec 14) (s : State) : Out := branch (.bne d a o) (fun x y => x != y) d a o s

/-- BLT (R210). -/
def execBlt (d a : GReg) (o : BitVec 14) (s : State) : Out := branch (.blt d a o) (fun x y => decide (x.toInt < y.toInt)) d a o s

/-- BGE (R210). -/
def execBge (d a : GReg) (o : BitVec 14) (s : State) : Out := branch (.bge d a o) (fun x y => decide (y.toInt ≤ x.toInt)) d a o s

/-- BLTU (R210). -/
def execBltu (d a : GReg) (o : BitVec 14) (s : State) : Out := branch (.bltu d a o) (fun x y => decide (x.toNat < y.toNat)) d a o s

/-- BGEU (R210). -/
def execBgeu (d a : GReg) (o : BitVec 14) (s : State) : Out := branch (.bgeu d a o) (fun x y => decide (y.toNat ≤ x.toNat)) d a o s

/-- B (R211). -/
def execB (o : BitVec 24) (s : State) : Out :=
  ((notFinal (.b o) s).bind fun _ s => .ok () (jump (s.me.pc + 4 * jumpOffset o) s)).out

/-- J (R211): g31 receives the return address. -/
def execJ (o : BitVec 24) (s : State) : Out :=
  ((notFinal (.j o) s).bind fun _ s => .ok () (jump (s.me.pc + 4 * jumpOffset o) (setG 31 (s.me.pc + 4) s))).out

/-- JAL (R211). -/
def execJal (d : GReg) (o : BitVec 19) (s : State) : Out :=
  ((notFinal (.jal d o) s).bind fun _ s => .ok () (jump (s.me.pc + 4 * longValue o) (setG d (s.me.pc + 4) s))).out

/-- JR (R211): a target that is no multiple of 4 is illegal, before g[d] is written. -/
def execJr (d a : GReg) (i : BitVec 14) (s : State) : Out :=
  ((immValue i s).bind fun k s =>
    (notFinal (.jr d a i) s).bind fun _ s =>
      let t := gR a s + k
      (require (.jr d a i) (fld t 0 2 == 0) s).bind fun _ s => .ok () (jump t (setG d (s.me.pc + 4) s))).out

/-! ## LOOP -/

/-- How many loops are active: always those from lc0 up (R212). -/
def activeLoops (t : Strand) : Nat := (t.lc.toList.filter fun l => l.act).length

/-- Whether a LOOP of `len` words may open loop `k` (R212). -/
def loopOk (t : Strand) (k : LcN) (count len : Word) : Bool :=
  decide (1 ≤ len.toNat) && decide (len.toNat ≤ 4095) && decide (count.toNat ≤ 2 ^ 32 - 1) && k.1 == activeLoops t &&
    (k.1 == 0 || decide (t.pc.toNat + 4 * len.toNat ≤ (t.lc[fin 3 (by decide) (k.1 - 1)]).last.toNat))

/-- The strand after a LOOP that opens loop `k`. -/
def loopOpened (k : LcN) (count len : Word) (t : Strand) : Strand :=
  { t with lc := t.lc.set k ⟨true, BitVec.ofNat 32 count.toNat, t.pc + 4, t.pc + 4 * len⟩, pc := t.pc + 4 }

/-- LOOP (R212). A count of zero skips the body, as a transfer to the word after it. -/
def execLoop (k : LcN) (a : GReg) (l : BitVec 14) (s : State) : Out :=
  ((immValue l s).bind fun len s =>
    (notFinal (.loop k a l) s).bind fun _ s =>
      (require (.loop k a l) (loopOk s.me k (gR a s) len) s).bind fun _ s =>
        .ok () (if gR a s = 0 then jump (s.me.pc + 4 * len + 4) s else onMe (loopOpened k (gR a s) len) s)).out

/-! ## STRIP (R214) -/

/-- The bits per element that pointer `k` steps by. -/
def stripBits (w : Word) (k : Nat) : Nat := fld w (16 * k) 16

/-- Whether pointer `k` may step. -/
def stripOk (d a : GReg) (w : Word) (v k : Nat) : Bool :=
  stripBits w k == 0 || (decide (a.1 + k ≤ 31) && d.1 != a.1 + k && v * stripBits w k % 8 == 0)

/-- Pointer `k` advanced past a strip of `v` elements. -/
def stripPointer (a : GReg) (w : Word) (v k : Nat) (s : State) : State :=
  if stripBits w k = 0 then s
  else
    let r := fin 32 (by decide) (a.1 + k)
    setG r (gR r s + wd (v * stripBits w k / 8)) s

/-- STRIP (R214). -/
def execStrip (d a b : GReg) (o : BitVec 9) (s : State) : Out :=
  ((vqueue (.strip d a b o) s).bind fun _ s =>
    (notFinal (.strip d a b o) s).bind fun _ s =>
      let v := s.me.vl
      let w := gR b s
      (require (.strip d a b o) ((List.range 4).all (stripOk d a w v)) s).bind fun _ s =>
        let n := (gR d s).toNat - v
        let base := s.me.sbase + wd v
        (grantOf n base (boundPub s.me) s).bind fun g s =>
          let s1 := (List.range 4).foldl (fun s k => stripPointer a w v k s) (setG d (wd n) s)
          let s2 := onMe (fun t => { t with sbase := base, vl := g }) s1
          .ok () (if g ≠ 0 then jump (s2.me.pc + 4 * sx o.toNat 9) s2 else advance s2)).out

end Sys2Proof.Machine
end

