-- ==== Sys2Proof/Machine/ScalarMem.lean ====
section
/-! DEFINITION. The scalar loads and stores (R292 to R294). A load is translated when it executes and its fault is precise; a store enters the store queue. -/

namespace Sys2Proof.Machine

/-- The address of a form-I access (R292). -/
def formAddr (a : GReg) (i : BitVec 14) (s : State) : Res Word := (immValue i s).bind fun k s => .ok (gR a s + k) s

/-- A scalar load of `size` bytes; `float` marks LD.F, which no CTL leaf allows (R294). Data in error trap (R335), and a CTL load waits for
an earlier CTL store that is held back (R29). -/
def loadValue (float : Bool) (size : Nat) (va : Word) (s : State) : Res Word :=
  match scalarTargets (reqOf s.me) .load float size va s with
  | (.error (k, x), s1) => .stop (xlate .load (va + wd k) x s1)
  | (.ok ts, s1) =>
    (goodData va (ts.map fun t => targetLoc t 0) s1).bind fun _ s2 =>
      if ctlHeld ts s2 then .stop (drainQueue s2)
      else
      let r := scalarLoad size va.toNat ts s2
      .ok r.1 r.2

/-- A load into a general register. -/
def loadG (size : Nat) (f : Word → Word) (d a : GReg) (i : BitVec 14) (s : State) : Out :=
  ((formAddr a i s).bind fun va s => (loadValue false size va s).bind fun w s => .ok () (advance (setG d (f w) s))).out

/-- LD.B (R294). -/
def execLdB (d a : GReg) (i : BitVec 14) (s : State) : Out := loadG 1 (fun w => sx w.toNat 8) d a i s

/-- LD.BU (R294). -/
def execLdBu (d a : GReg) (i : BitVec 14) (s : State) : Out := loadG 1 id d a i s

/-- LD.H (R294). -/
def execLdH (d a : GReg) (i : BitVec 14) (s : State) : Out := loadG 2 (fun w => sx w.toNat 16) d a i s

/-- LD.HU (R294). -/
def execLdHu (d a : GReg) (i : BitVec 14) (s : State) : Out := loadG 2 id d a i s

/-- LD.W (R294). -/
def execLdW (d a : GReg) (i : BitVec 14) (s : State) : Out := loadG 4 (fun w => sx w.toNat 32) d a i s

/-- LD.WU (R294). -/
def execLdWu (d a : GReg) (i : BitVec 14) (s : State) : Out := loadG 4 id d a i s

/-- LD.D (R294). -/
def execLdD (d a : GReg) (i : BitVec 14) (s : State) : Out := loadG 8 id d a i s

/-- LD.F (R294). -/
def execLdF (d : FReg) (a : GReg) (i : BitVec 14) (s : State) : Out :=
  ((formAddr a i s).bind fun va s => (loadValue true 4 va s).bind fun w s => .ok () (advance (setF d (BitVec.ofNat 32 w.toNat) s))).out

/-- A store of the low bytes of a word: it is committed and enters the store queue, for room in which it waits (R334, R341). -/
def storeWord (float : Bool) (size : Nat) (data : Word) (a : GReg) (i : BitVec 14) (s : State) : Out :=
  ((formAddr a i s).bind fun va s =>
    let s1 := storeRoom s
    if queueDepth ≤ s1.me.stq.length then .stop s1
    else
      let latches := (List.range size).map fun k => latchFor s1.me (va + wd k) s1
      .ok () (advance (enqueueStore ⟨va, size, data, s1.me.pc, s1.me.priv, latches, float, inHandler s1.me, false⟩ s1))).out

/-- ST.B (R294). -/
def execStB (d a : GReg) (i : BitVec 14) (s : State) : Out := storeWord false 1 (gR d s) a i s

/-- ST.H (R294). -/
def execStH (d a : GReg) (i : BitVec 14) (s : State) : Out := storeWord false 2 (gR d s) a i s

/-- ST.W (R294). -/
def execStW (d a : GReg) (i : BitVec 14) (s : State) : Out := storeWord false 4 (gR d s) a i s

/-- ST.D (R294). -/
def execStD (d a : GReg) (i : BitVec 14) (s : State) : Out := storeWord false 8 (gR d s) a i s

/-- ST.F (R294). -/
def execStF (d : FReg) (a : GReg) (i : BitVec 14) (s : State) : Out := storeWord true 4 (wd (fR d s).toNat) a i s

end Sys2Proof.Machine
end

