-- ==== Sys2Proof/Machine/Atomic.lean ====
section
/-! DEFINITION. Fences (R114, R117), read-modify-writes at the home and the AMO instructions (R116, R295), local and remote (R120, R382). -/

namespace Sys2Proof.Machine

/-! ## Fences -/

/-- Every store of the strand, on both paths, performed at its home; remote ones are on their way (R117). -/
def performAll (s : State) : State := releaseWrites true true (fun _ => true) 2 s

/-- A release of what `p` covers, at a scope: it waits while a store of the scalar path is held back, and at SYS for the strand's remote accesses (R105, R120, R341). -/
def releaseAt (scalar vector : Bool) (p : Option Word → Bool) (scope : Scope) (s : State) : Res Unit :=
  let s1 := releaseWrites scalar vector p scope s
  if scalar && (!s1.me.stq.isEmpty || (decide (5 ≤ scope) && remoteBusy s1)) then .stop s1 else .ok () s1

/-- FENCE at a scope, for an earlier set: its release half (R114). -/
def fenceRelease (scalar vector : Bool) (scope : Scope) (s : State) : Res Unit := releaseAt scalar vector unboundOnly scope s

/-- The acquire half of a fence. -/
def fenceAcquire (scope : Scope) (s : State) : State := acquireCopies unboundOnly scope s

/-- FENCE.S ALL (R114). -/
def fenceAll (scope : Scope) (s : State) : Res Unit := (fenceRelease true true scope s).bind fun _ s => .ok () (fenceAcquire scope s)

/-- The ordering of an AMO's scope, which RLX has none of (R116). -/
def amoFence (scope : Nat) (s : State) : Res Unit := if scope = 0 then .ok () s else fenceAll scope s

/-! ## Read-modify-write at the home -/

/-- One read-modify-write of `n` bytes at their home, at one instant, after the strand's own stores there; the answer is the old value (R104, R116). -/
def rmwHome (va : Word) (t : Target) (n : Nat) (f : Word → Word) (s : State) : Res Word :=
  (ownFirst (locsAt t n) s).bind fun _ s1 =>
    (goodData va (locsAt t n) s1).bind fun _ s2 =>
      let r := rmwAt s2.me.ctx t n f s2
      .ok r.1 r.2

/-! ## Remote atomics -/

/-- The remote access for whose reply the strand's instruction waits, if it has been sent. -/
def pendingRemote (s : State) : Option RemoteMsg := s.me.call.bind fun id => s.remote.find? fun m => m.id == id

/-- The strand's instruction has its reply. -/
def endCall (m : RemoteMsg) (s : State) : State := onMe (fun t => { t with call := none }) { s with remote := s.remote.filter fun x => x.id != m.id }

/-- A remote instruction's access sent: it is sent once, and the instruction waits for its reply (R382). -/
def remoteCall (e : Nat) (va : Word) (op : RemoteOp) (s : State) : State :=
  onMe (fun t => { t with call := some s.remoteNext }) (sendRemote e va op none s)

/-- A remote instruction whose access is under way: it waits for the reply, whatever becomes of the route meanwhile, and ends with the value that came, with the target's fault, whose LEVEL and INFO
are 0, or as an illegal operation (R120, R302, R382; log entry 77). -/
def remoteAnswer (i : Instr) (va : Word) (m : RemoteMsg) (s : State) : Res Word :=
  match m.reply with
  | none => .stop s
  | some (.value old) => .ok old (endCall m s)
  | some .done => .ok 0 (endCall m s)
  | some (.fault sub) => .stop (xlate .atomic va ⟨sub, 0, 0, false⟩ (endCall m s))
  | some .illegal => illegal i (endCall m s)

/-! ## AMO (R295) -/

/-- The operations of R295. -/
inductive AmoOp where
  | add | min | max | and | or | xor | swp | cas
deriving DecidableEq, Repr

/-- The code of an operation (R291). -/
def amoCode : AmoOp → Nat
  | .add => 0
  | .min => 1
  | .max => 2
  | .and => 3
  | .or => 4
  | .xor => 5
  | .swp => 6
  | .cas => 7

/-- Whether `a` is below `b` as `n`-byte integers. -/
def amoBelow (n : Nat) (uns : Bool) (a b : Nat) : Bool :=
  if uns then decide (a < b) else decide (signExtend a (8 * n) < signExtend b (8 * n))

/-- The new value (R295): `b` and `e` are the operand and the expected value, taken in `n` bytes. -/
def amoNew (op : AmoOp) (uns : Bool) (n : Nat) (b e : Word) (old : Word) : Word :=
  let o := old.toNat % 2 ^ (8 * n)
  let x := b.toNat % 2 ^ (8 * n)
  match op with
  | .add => wd ((o + x) % 2 ^ (8 * n))
  | .min => wd (if amoBelow n uns x o then x else o)
  | .max => wd (if amoBelow n uns o x then x else o)
  | .and => wd (o &&& x)
  | .or => wd (o ||| x)
  | .xor => wd (o ^^^ x)
  | .swp => wd x
  | .cas => wd (if o = e.toNat % 2 ^ (8 * n) then x else o)

/-- The size of an AMO: 4 bytes with W set, 8 otherwise. -/
def amoSize (w : Bool) : Nat := if w then 4 else 8

/-- An AMO's access: the read-modify-write at its home, here or in another package, from which one that was sent has its reply. -/
def amoAccess (i : Instr) (op : AmoOp) (uns w : Bool) (va b e : Word) (s : State) : Res Word :=
  let n := amoSize w
  match pendingRemote s with
  | some m => remoteAnswer i va m s
  | none =>
    match translate (reqOf s.me) .atomic n va s with
    | (.error x, s1) => .stop (xlate .atomic va x s1)
    | (.ok (.remote r), s1) => .stop (remoteCall r va (.amo (amoCode op) uns n b e) s1)
    | (.ok t, s1) => rmwHome va t n (amoNew op uns n b e) s1

/-- AMO gd, [ga], gb (R116, R295). -/
def amo (i : Instr) (op : AmoOp) (uns : Bool) (d a b : GReg) (w : Bool) (scope : Nat) (s : State) : Out :=
  ((require i ((gR a s).toNat % amoSize w == 0) s).bind fun _ s =>
    (amoFence scope s).bind fun _ s =>
      (amoAccess i op uns w (gR a s) (gR b s) (gR d s) s).bind fun old s =>
        (amoFence scope s).bind fun _ s => .ok () (advance (setG d old s))).out

/-- AMO.ADD (R295). -/
def execAmoAdd (d a b : GReg) (w : Bool) (c : Fin 6) (s : State) : Out := amo (.amoAdd d a b w c) .add false d a b w c.1 s

/-- AMO.MIN (R295). -/
def execAmoMin (d a b : GReg) (u w : Bool) (c : Fin 6) (s : State) : Out := amo (.amoMin d a b u w c) .min u d a b w c.1 s

/-- AMO.MAX (R295). -/
def execAmoMax (d a b : GReg) (u w : Bool) (c : Fin 6) (s : State) : Out := amo (.amoMax d a b u w c) .max u d a b w c.1 s

/-- AMO.AND (R295). -/
def execAmoAnd (d a b : GReg) (w : Bool) (c : Fin 6) (s : State) : Out := amo (.amoAnd d a b w c) .and false d a b w c.1 s

/-- AMO.OR (R295). -/
def execAmoOr (d a b : GReg) (w : Bool) (c : Fin 6) (s : State) : Out := amo (.amoOr d a b w c) .or false d a b w c.1 s

/-- AMO.XOR (R295). -/
def execAmoXor (d a b : GReg) (w : Bool) (c : Fin 6) (s : State) : Out := amo (.amoXor d a b w c) .xor false d a b w c.1 s

/-- AMO.SWP (R295). -/
def execAmoSwp (d a b : GReg) (w : Bool) (c : Fin 6) (s : State) : Out := amo (.amoSwp d a b w c) .swp false d a b w c.1 s

/-- AMO.CAS (R295). -/
def execAmoCas (d a b : GReg) (w : Bool) (c : Fin 6) (s : State) : Out := amo (.amoCas d a b w c) .cas false d a b w c.1 s

end Sys2Proof.Machine
end

