-- ==== Sys2Proof/Machine/Dram.lean ====
section
/-! DEFINITION. DRAM (R86, R89, R90, R92 to R95): open rows, activation counters and refresh management, refresh, and the temperature of the
stacks. A bank is brought up to its die's cycle whenever an access or an event reaches it; an event that is not enabled changes nothing. -/

namespace Sys2Proof.Machine

/-- Whether a bank exists (R1, R87, R88, R95). -/
def bankOk (k : BankId) : Bool :=
  decide (k.die < 4) && (if k.ctrl < 2 then decide (k.chan < 64) && decide (k.bank < 64)
    else decide (k.ctrl < 5) && decide (k.chan < 16) && decide (k.bank < 16))

/-- Whether a bank belongs to an HBM4 stack. -/
def isStack (k : BankId) : Bool := decide (k.ctrl < 2)

/-- The controller block of a bank. -/
def ctrlOf (k : BankId) (s : State) : Ctrl := (dieAt k.die s).ctrls[fin 5 (by decide) k.ctrl]

/-- A controller block changed. -/
def modCtrl (die ctrl : Nat) (f : Ctrl → Ctrl) (s : State) : State :=
  let i := fin 5 (by decide) ctrl
  modDie die (fun d => { d with ctrls := d.ctrls.set i (f d.ctrls[i]) }) s

/-- The cycles a refresh holds a bank, and a back-off (R89, R93). -/
def refreshHold (k : BankId) : Nat := if isStack k then 176 else 231
def backoffHold (k : BankId) : Nat := if isStack k then 440 else 520

/-- The rows one refresh command refreshes, and the modulus of the pointer (R89). -/
def refreshRows (k : BankId) : Nat := if isStack k then 2 else 32
def pointerRows (k : BankId) : Nat := if isStack k then 16384 else 262144

/-- The activation counter of a row (R92). -/
def actsOf (b : Bank) (row : Nat) : Nat := ((b.acts.find? fun a => a.1 == row).map fun a => a.2).getD 0

/-- The counters of the rows that satisfy `p` set to zero (R92). -/
def clearActs (p : Nat → Bool) (b : Bank) : Bank := { b with acts := b.acts.filter fun a => !p a.1 }

/-! ## Refresh commands (R89, R90) -/

/-- The refresh modes of a controller since its die's reset, with the change that a sample has chosen: from which cycle each holds (R90). -/
def modesOf (c : Ctrl) : List (Nat × Bool) := c.modes ++ (c.dblNext.map fun p => (p.2, p.1)).toList

/-- How many refresh intervals of a bank begin in the cycles from `a` up to but not with `b`, in one mode (R89). -/
def segCount (id : BankId) (doubled : Bool) (a b : Nat) : Nat :=
  let f := refreshFrom id doubled a
  if b ≤ f then 0 else (b - f + refreshStep id doubled - 1) / refreshStep id doubled

/-- How many refresh commands of a bank begin before a cycle, and when command `n` begins, under the modes given: an interval of the old mode that a change cycle cuts keeps its hold, and none of the
new mode's that began before it holds the bank (R89, R90; log entry 41). -/
def cmdsBefore (id : BankId) (t : Nat) : List (Nat × Bool) → Nat
  | [] => 0
  | [(a, m)] => segCount id m a t
  | (a, m) :: (b, m') :: rest => segCount id m a (min b t) + cmdsBefore id t ((b, m') :: rest)
def cmdStart (id : BankId) : List (Nat × Bool) → Nat → Nat
  | [], _ => 0
  | [(a, m)], n => refreshFrom id m a + n * refreshStep id m
  | (a, m) :: (b, m') :: rest, n =>
    let c := segCount id m a b
    if n < c then refreshFrom id m a + n * refreshStep id m else cmdStart id ((b, m') :: rest) (n - c)

/-- Whether a row is among those that the refresh commands from `n` up to but not with `m` refresh (R89). -/
def refreshed (k : BankId) (n m row : Nat) : Bool :=
  let p := n * refreshRows k % pointerRows k
  decide ((row + pointerRows k - p) % pointerRows k < (m - n) * refreshRows k)

/-- When the refresh of a command that begins at a cycle begins to hold the bank: one that begins in a back-off is put off to its end (R94). -/
def putOff (b : Bank) (x : Nat) : Nat :=
  match b.backoff with
  | some (lo, hi) => if lo ≤ x ∧ x < hi then hi else x
  | none => x

/-- A bank as it stands at a cycle: the refresh commands that have begun are performed, each closing the row, which is noted, and zeroing the counters of its rows; what held the bank before is over;
and a row that no access has used for 4,096 cycles is closed, when `idle` tells since when none has arrived (R86, R89, R92, R94). -/
def settleBank (k : BankId) (c : Ctrl) (t idle : Nat) (b : Bank) : Bank :=
  let n := cmdsBefore k (t + 1) (modesOf c)
  let b1 :=
    if n ≤ b.commands then b
    else
      { clearActs (refreshed k b.commands n) b with
        row := none, rowBefore := if n = b.commands + 1 then b.row else none, commands := n, refreshUntil := some (putOff b (cmdStart k (modesOf c) (n - 1)) + refreshHold k) }
  { b1 with
    refreshUntil := b1.refreshUntil.filter fun u => decide (t < u)
    backoff := b1.backoff.filter fun p => decide (t < p.2)
    row := if b1.lastAt + 4096 ≤ idle then none else b1.row }

/-- Whether a bank is held by a refresh or a back-off. -/
def bankHeld (b : Bank) : Bool := b.refreshUntil.isSome || b.backoff.isSome

/-- The rows whose counters refresh management of row `n` zeroes (R93). -/
def victims (n row : Nat) : Bool := decide (n ≤ row + 2) && decide (row ≤ n + 2)

/-! ## Accesses (R86, R92, R93) -/

/-- What an activation that brings a row to the threshold starts as its access completes: the row closes, its neighbours are refreshed, and the bank is held (R93, R94). BOCYC takes the
whole back-off at its start (log entry 82). -/
def manageRow (k : BankId) (row t : Nat) (s : State) : State :=
  modCtrl k.die k.ctrl (fun c => { c with rfmcnt := c.rfmcnt + 1, chan := k.chan, bank := k.bank, row := row, bocyc := c.bocyc + backoffHold k })
    (modBank k (fun b => clearActs (victims row) (
      let start := max t (b.refreshUntil.getD t)
      { b with row := none, backoff := some (start, start + backoffHold k) })) s)

/-- A row opened and its activation counted; whether its counter has come to the threshold, or stands above one that was lowered (R92, R93; log entry 100). -/
def openRow (k : BankId) (row : Nat) (s : State) : Bool × State :=
  let n := actsOf (bankAt k s) row + 1
  (decide ((ctrlOf k s).actthr ≤ n),
   modBank k (fun b => { b with row := some row, acts := (row, n) :: b.acts.filter fun a => a.1 != row })
     (modCtrl k.die k.ctrl (fun c => { c with actmax := max c.actmax n }) s))

/-- A row opened, with the refresh management that it starts (R92, R93; log entry 100). -/
def activateRow (k : BankId) (row t : Nat) (s : State) : State :=
  let p := openRow k row s
  if p.1 then manageRow k row t p.2 else p.2

/-- Whether a bank serves accesses: a stack does once its first sample has been taken (R90). -/
def bankServes (k : BankId) (s : State) : Bool := bankOk k && (!isStack k || (dieAt k.die s).hbmDone[fin 2 (by decide) k.ctrl] != 0)

/-- Whether nothing holds a bank. -/
def bankFree (k : BankId) (s : State) : Bool := !bankHeld (settleBank k (ctrlOf k s) (dieAt k.die s).cycle 0 (bankAt k s))

/-- An access that was under way at its bank as the refresh interval that runs began, with the interval's start and the number of its command and those before: its request had come, the one before it
was complete, and nothing held the bank (R89, R94; log entry 41). -/
def underWay (k : BankId) (r : BankReq) (s : State) : Option (Nat × Nat) :=
  let t := (dieAt k.die s).cycle
  let c := ctrlOf k s
  let b := bankAt k s
  let n := cmdsBefore k (t + 1) (modesOf c)
  let x := cmdStart k (modesOf c) (n - 1)
  if 0 < n ∧ x ≤ t ∧ t < x + refreshHold k ∧ r.at_ < x ∧ b.lastAt < x ∧ (n ≤ b.commands ∨ (settleBank k c (x - 1) 0 b).refreshUntil = none) ∧ b.backoff.all (fun p => decide (p.2 < x)) then some (x, n)
  else none

/-- Whether a bank can complete the access of its oldest request: it serves accesses, and nothing holds it, or the access was under way as the refresh that runs began. -/
def bankReady (k : BankId) (s : State) : Bool := bankServes k s && (bankFree k s || ((bankAt k s).queue.head?.bind fun r => underWay k r s).isSome)

/-- A bank completes an access that was under way as the refresh interval that runs began, which closes its row: the access finds the row that was open then (R92), and a back-off that it triggers
begins when the interval ends (R94). -/
def dramDuring (k : BankId) (r : BankReq) (rest : List BankReq) (x n : Nat) (s : State) : State :=
  let t := (dieAt k.die s).cycle
  let c := ctrlOf k s
  let b := bankAt k s
  let b1 := if b.commands < n then settleBank k c (x - 1) r.at_ b else { b with row := if b.lastAt + 4096 ≤ r.at_ then none else b.rowBefore }
  let s1 := modBank k (fun _ => { b1 with queue := rest }) s
  let p := if b1.row = some r.row then (false, s1) else openRow k r.row s1
  let s2 := modBank k (fun b => { clearActs (refreshed k (n - 1) n) (settleBank k c t 0 b) with row := none, lastAt := t }) p.2
  if p.1 then manageRow k r.row t s2 else s2

/-- A bank completes the access of its oldest request. -/
def dramServe (k : BankId) (s : State) : State :=
  let t := (dieAt k.die s).cycle
  match (bankAt k s).queue with
  | [] => s
  | r :: rest =>
    if !bankServes k s then s
    else if !bankFree k s then
      match underWay k r s with
      | none => s
      | some p => dramDuring k r rest p.1 p.2 s
    else
      let b := settleBank k (ctrlOf k s) t r.at_ (bankAt k s)
      let s1 := modBank k (fun _ => { b with queue := rest, lastAt := t }) s
      if b.row = some r.row then s1 else activateRow k r.row t s1

/-- DRAM_ACCESS (R86). -/
def execDramAccess (k : BankId) (s : State) : Out := .next (dramServe k s)

/-- A bank brought to the present cycle. -/
def settleAt (k : BankId) (s : State) : State :=
  let t := (dieAt k.die s).cycle
  if bankOk k then modBank k (fun b => settleBank k (ctrlOf k s) t (if b.queue.isEmpty then t else 0) b) s else s

/-- REFRESH (R89, R94): the refresh commands of a bank that have begun are performed. -/
def execRefresh (k : BankId) (s : State) : Out := .next (settleAt k s)

/-- REFRESH_END (R89): a bank whose refresh is over is free of it. -/
def execRefreshEnd (k : BankId) (s : State) : Out := .next (settleAt k s)

/-- BACKOFF_END (R93, R94): a bank whose back-off is over is free of it; a refresh that was put off holds it from there. -/
def execBackoffEnd (k : BankId) (s : State) : Out := .next (settleAt k s)

/-- ROW_IDLE_CLOSE (R86): a row that no access has used for 4,096 cycles closes. -/
def execRowIdleClose (k : BankId) (s : State) : Out := .next (settleAt k s)

/-! ## Temperatures -/

/-- TEMP of a sample (R95). -/
def tempOf (celsius : Int) : Nat := (clampInt celsius 0 255).toNat

/-- The refresh mode after a sample (R90). -/
def modeAfter (celsius : Int) (now : Bool) : Bool := if 85 < celsius then true else if celsius ≤ 82 then false else now

/-- The samples of a stack that have been due up to its latest; none before bring-up's. -/
def hbmSamples (die ctrl : Nat) (s : State) : Nat := (dieAt die s).hbmDone[fin 2 (by decide) ctrl]

/-- One more sample of a stack counted. -/
def countSample (die ctrl n : Nat) (s : State) : State :=
  modDie die (fun d => { d with hbmDone := d.hbmDone.set (fin 2 (by decide) ctrl) n }) s

/-- HBM_TEMP_SAMPLE (R90): the sample of stage 3 sets the mode at once, and a periodic one chooses the mode from the next multiple of 4,224 cycles on. -/
def execHbmTempSample (die ctrl : Nat) (celsius : Int) (s : State) : Out :=
  let t := (dieAt die s).cycle
  let n := hbmSamples die ctrl s
  let at_ := n * 1048576
  .next (if 4 ≤ die ∨ 2 ≤ ctrl then s
    else if n = 0 then
      if (dieAt die s).stage = 3 then
        let m := decide (85 < celsius)
        countSample die ctrl (t / 1048576 + 1)
          (modCtrl die ctrl (fun c => { c with temp := tempOf celsius, dbl := m, modes := if m = c.dbl then c.modes else c.modes ++ [(t, m)] }) s)
      else s
    else if t < at_ ∨ (ctrlOf ⟨die, ctrl, 0, 0⟩ s).dblNext.isSome then s
    else
      countSample die ctrl (n + 1) (modCtrl die ctrl (fun c =>
        let m := modeAfter celsius c.dbl
        { c with temp := tempOf celsius, dblNext := if m = c.dbl then none else some (m, at_ / 4224 * 4224 + 4224) }) s))

/-- REFRESH_MODE_CHANGE (R90). -/
def execRefreshModeChange (die ctrl : Nat) (s : State) : Out :=
  .next (if 4 ≤ die ∨ 2 ≤ ctrl then s
    else
      match (ctrlOf ⟨die, ctrl, 0, 0⟩ s).dblNext with
      | none => s
      | some (m, t) =>
        if (dieAt die s).cycle < t then s
        else modCtrl die ctrl (fun c => { c with dbl := m, dblNext := none, modes := c.modes ++ [(t, m)] }) s)

/-- THERM of an island's hottest junction (R380). -/
def thermOf (milliCelsius : Int) : Nat := min 65535 ((95000 - milliCelsius) / 100).toNat

/-- An island changed. -/
def modIsland (die i : Nat) (f : Island → Island) (s : State) : State :=
  let k := fin 12 (by decide) i
  modDie die (fun d => { d with islands := d.islands.set k (f d.islands[k]) }) s

/-- An island of the package, by its number there (R374). -/
def islandAt (i : Nat) (s : State) : Island := (dieAt (i / 12) s).islands[fin 12 (by decide) i]

/-- THERM_SAMPLE (R380): once when an island is powered up, and at every multiple of 65,536 cycles; an island without power is not sampled. -/
def execThermSample (die island : Nat) (milliCelsius : Int) (s : State) : Out :=
  let t := (dieAt die s).cycle
  .next (if 4 ≤ die ∨ 12 ≤ island ∨ !islandPowered (12 * die + island) s then s
    else
      modIsland die island (fun x =>
        if x.sampled = 0 then { x with therm := thermOf milliCelsius, sampled := t / 65536 + 1 }
        else if x.sampled * 65536 ≤ t then { x with therm := thermOf milliCelsius, sampled := x.sampled + 1 }
        else x) s)

end Sys2Proof.Machine
end

