-- ==== Sys2Proof/Machine/Tags.lean ====
section
/-! DEFINITION. Tags (R125 to R129, R142): a tag's command, chunks and status word, the observation of chunks, the merging of FLAGS, and the delivery of an engine error.
The tag instructions (R312, R313) stand here too. -/

namespace Sys2Proof.Machine

/-! ## Commands and chunks -/

/-- The unit count of a tag's command; 0 when it has had none. -/
def unitsOf (g : TagReg) : Nat := (g.cmd.map cmdN).getD 0

/-- The landed count (R126). -/
def landedCount (g : TagReg) : Nat := min (unitsOf g) (chunkUnits (unitsOf g) * leadingChunks g.mask 64 0)

/-- The status word (R127). -/
def statusWord (g : TagReg) : Word := wd (g.err * 2 ^ 56 + g.flags.toNat * 2 ^ 32 + landedCount g)

/-! ## A strand's tags -/

/-- Whether a tag is granted to a strand (R125). -/
def ownsTag (t : Strand) (k : Tag) : Bool := decide (t.tagFirst ≤ k.1) && decide (k.1 < t.tagFirst + t.tagCount)

/-- A tag of the core whose turn it is. -/
def tagAt (k : Tag) (s : State) : TagReg := s.core.tags[k]

/-- A tag changed. -/
def modTag (k : Tag) (f : TagReg → TagReg) (s : State) : State := onCore (fun c => { c with tags := c.tags.set k (f c.tags[k]) }) s

/-- TAGRDY (R217). -/
def tagReady (s : State) : Word :=
  wd (bitsOfBools ((List.range 64).map fun k =>
    let i := fin 64 (by decide) k
    ownsTag s.me i && (tagAt i s).st != .busy))

/-- The chunks that `p` names observed: the copies of the lines they wrote are discarded from the strand's L1 (R142). -/
def observeTag (p : Nat → Bool) (k : Tag) (s : State) : State :=
  let ls := ((tagAt k s).lines.filter fun l => p l.1).map fun l => l.2
  if ls.isEmpty then s
  else (l1Cores s.me.mesh s).foldl (fun s m => modCore m (fun c => { c with copies := c.copies.filter fun x => !ls.contains x.line }) s) s

/-- Every completed chunk of a tag observed. -/
def observeDone (k : Tag) (s : State) : State := observeTag (fun c => bit (tagAt k s).mask c) k s

/-- FLAGS merged into VFLAGS, once (R128, R193). -/
def mergeTag (k : Tag) (s : State) : State :=
  if (tagAt k s).merged then s else modTag k (fun g => { g with merged := true }) (raise (tagAt k s).flags.toNat s)

/-- Whether a tag has an error that has not been delivered (R129). -/
def errorPending (k : Tag) (s : State) : Bool := (tagAt k s).err != 0 && !(tagAt k s).told && (tagAt k s).st != .busy

/-- The trap that delivers a tag's error (R335, R337). -/
def engineTrap (k : Tag) (g : TagReg) : TrapInfo :=
  if g.err = 1 then ⟨5, 1, k.1, 0, g.record[0], g.record[1], g.record[2], g.record[3]⟩ else ⟨5, g.err, k.1, 0, wd g.err, 0, 0, 0⟩

/-- A pending error delivered as the ENGINE trap, once (R129; log entry 24). -/
def deliverTag (k : Tag) (s : State) : Res Unit :=
  if errorPending k s then .stop (trapHere (engineTrap k (tagAt k s)) (modTag k (fun g => { g with told := true }) s)) else .ok () s

/-- The lowest-numbered tag of a list that has a pending error delivers it. -/
def deliverFirst (ks : List Tag) (s : State) : Res Unit :=
  match ks.find? fun k => errorPending k s with
  | some k => deliverTag k s
  | none => .ok () s

/-- A tag made free, with nothing landed and no landing-buffer slot. -/
def freeTag (g : TagReg) : TagReg := { g with st := .free, codes := [], scales := [], lines := [], slots := [] }

/-! ## WAITANY, WAITALL, FFRDY (R312) -/

/-- The tags of a set, lowest first. -/
def tagSet (w : Word) : List Tag := (List.range 64).filterMap fun k => if bit w k then some (fin 64 (by decide) k) else none

/-- What every tag found undergoes: observed, merged, and free when READY (R312). -/
def takeTags (ks : List Tag) (s : State) : State :=
  ks.foldl (fun s k =>
    let s1 := mergeTag k (observeDone k s)
    modTag k (fun g => if g.st = .ready then freeTag g else g) s1) s

/-- The tags found of a set: those not BUSY. -/
def notBusy (ks : List Tag) (s : State) : List Tag := ks.filter fun k => (tagAt k s).st != .busy

/-- A tag instruction over a set: it waits while `wait` holds, delivers an error of the tags found, and otherwise takes them. -/
def tagInstr (i : Instr) (a : GReg) (wait : List Tag → List Tag → Bool) (pick : List Tag → List Tag) (write : List Tag → State → State) (s : State) : Out :=
  ((vqueue i s).bind fun _ s =>
    let ks := tagSet (gR a s)
    (require i (ks.all (ownsTag s.me)) s).bind fun _ s =>
      let free := notBusy ks s
      if wait ks free then .stop s
      else
        let found := pick free
        (deliverFirst found s).bind fun _ s => .ok () (advance (write found (takeTags found s)))).out

/-- The mask of a list of tags. -/
def tagMaskWord (ks : List Tag) : Word := wd ((ks.map fun k => 2 ^ k.1).foldl (· + ·) 0)

/-- WAITANY (R312). -/
def execWaitany (d a : GReg) (s : State) : Out :=
  tagInstr (.waitany d a) a (fun ks free => !ks.isEmpty && free.isEmpty) id (fun found s => setG d (tagMaskWord found) s) s

/-- WAITALL (R312). -/
def execWaitall (a : GReg) (s : State) : Out :=
  tagInstr (.waitall a) a (fun ks free => free.length != ks.length) id (fun _ s => s) s

/-- FFRDY (R312). -/
def execFfrdy (d a : GReg) (s : State) : Out :=
  tagInstr (.ffrdy d a) a (fun _ _ => false) (fun free => free.take 1)
    (fun found s => setG d (match found with | k :: _ => wd k.1 | [] => wd (2 ^ 64 - 1)) s) s

/-! ## TAGCNT, TAGMASK (R313) -/

/-- An instruction that names one tag of the strand's grant. -/
def oneTag (i : Instr) (k : Tag) (s : State) : Res Unit := (vqueue i s).bind fun _ s => require i (ownsTag s.me k) s

/-- TAGCNT (R313). -/
def execTagcnt (d : GReg) (k : Tag) (s : State) : Out :=
  ((oneTag (.tagcnt d k) k s).bind fun _ s =>
    (deliverTag k s).bind fun _ s =>
      let g := tagAt k s
      .ok () (advance (setG d (statusWord g) (observeTag (fun c => decide (c < leadingChunks g.mask 64 0)) k s)))).out

/-- The mask that TAGMASK writes (R143): nothing for a FREE tag. -/
def tagPlane (g : TagReg) : Plane :=
  if g.st = .free then 0
  else
    let n := min (unitsOf g) vlmax
    BitVec.ofNat 16384 (bitsOfBools ((List.range n).map fun i => bit g.mask (i / chunkUnits (unitsOf g))))

/-- TAGMASK (R143, R313). -/
def execTagmask (d : MReg) (k : Tag) (s : State) : Out :=
  ((oneTag (.tagmask d k) k s).bind fun _ s =>
    (deliverTag k s).bind fun _ s =>
      let g := tagAt k s
      .ok () (advance (setM d (tagPlane g) (if g.st = .free then s else observeDone k s)))).out

/-! ## COMMIT (R133, R313) -/

/-- The register that COMMIT writes: the landed codes below `n`, zero above, and the scale bytes of blocks that hold an element below `n`. -/
def committed (g : TagReg) (c : Cmd) (pc : Word) : VReg :=
  let n := cmdN c
  let tag := cmdDTAG c
  let codes := (List.range n).map fun i => ((g.codes.find? fun x => x.1 == i).map fun x => x.2).getD 0
  let l := blockLen tag
  ⟨tag, (List.range (tagWidth tag)).map (fun b => BitVec.ofNat 16384 (bitsOf b codes)),
   if l = 0 then 0
   else BitVec.ofNat 16384 (packBytes ((List.range (vlmax / l)).map fun k =>
     if k * l < n then ((g.scales.find? fun x => x.1 == k).map fun x => x.2).getD 0x7F else 0x7F)),
   [], [(0, pc)]⟩

/-- COMMIT's one vector-path write of the whole register, at a new mapping (R133, R172). -/
def commitWrite (g : TagReg) (c : Cmd) (s : State) : State :=
  let d := fin 32 (by decide) c.reg
  onMe (fun t => { t with v := t.v.set d (committed g c t.pc), hwm := raiseHwm d.1 (cmdN c) t.hwm }) (mapTo d (cmdDTAG c) s)

/-- COMMIT (R133, R313). A tag whose error has been delivered is released with the register unchanged (log entry 24), and a command whose DTAG is illegal,
as a frame may have brought it, gives no register that tag (R51). -/
def execCommit (k : Tag) (s : State) : Out :=
  ((oneTag (.commit k) k s).bind fun _ s =>
    let g := tagAt k s
    match g.cmd with
    | none => illegal (.commit k) s
    | some c =>
      (require (.commit k) (g.st != .free && dirToV c.dir) s).bind fun _ s =>
        let d := fin 32 (by decide) c.reg
        (require (.commit k) (budgetOk s.me d (cmdDTAG c) && !tagIllegal (cmdDTAG c)) s).bind fun _ s =>
          if g.st = .busy then .stop s
          else
            (deliverTag k s).bind fun _ s =>
              let s1 := modTag k freeTag (mergeTag k (observeDone k s))
              if g.err ≠ 0 then .ok () (advance s1)
              else if roomFor d (cmdDTAG c) s then .ok () (advance (commitWrite g c s1))
              else .stop s).out

end Sys2Proof.Machine
end

