-- ==== Sys2Proof/Machine/Sync.lean ====
section
/-! DEFINITION. Latches (R108, R109, R159), bindings (R110 to R112), fences, drains, barriers, publications and device launches (R298 to R303, R321). -/

namespace Sys2Proof.Machine

/-! ## Latch words (R107, R108) -/

def lwSEQ (w : Word) : Nat := fld w 40 24
def lwHELD (w : Word) : Bool := bit w 19

/-- Whether a reserved bit of a latch word is set. -/
def lwReserved (w : Word) : Bool := fld w 32 8 != 0 || fld w 13 6 != 0

/-- Whether a latch word is held by the strand. -/
def heldByMe (w : Word) (s : State) : Bool := lwHELD w && fld w 0 32 == meWord s.me s

/-- The place of a latch word: aligned, outside the window region, in the package's own memory (R108). An address that a route entry takes lies in another
package. -/
def latchPlace (i : Instr) (align : Nat) (va : Word) (s : State) : Res Target :=
  (require i (va.toNat % align == 0 && !(fld va 57 7 == 0 && inWindow va.toNat) && (routeOf s.me.ctx va.toNat s).isNone) s).bind fun _ s =>
    match translate (reqOf s.me) .atomic 8 va s with
    | (.error x, s1) => .stop (xlate .atomic va x s1)
    | (.ok (.mem pa mt), s1) => (require i (ownMemory pa) s1).bind fun _ s => .ok (.mem pa mt) s
    | (.ok _, s1) => illegal i s1

/-- A latch word read at its home after the strand's own scalar stores there; a reserved bit is illegal. -/
def latchRead (i : Instr) (va : Word) (s : State) : Res (Word × Target) :=
  (latchPlace i 8 va s).bind fun t s =>
    (ownFirst (locsAt t 8) s).bind fun _ s =>
      (goodData va (locsAt t 8) s).bind fun _ s =>
        let r := homeRead s.me.ctx (targetWb t) (locsAt t 8) s
        let w := wd (natOf r.1)
        (require i (!lwReserved w) r.2).bind fun _ s => .ok (w, t) s

/-- A latch word changed at its home by compare-and-swap from the word that was read; the answer is the word that stood there. -/
def latchSwap (t : Target) (w new : Word) (s : State) : Word × State := rmwAt s.me.ctx t 8 (fun x => if x = w then new else x) s

/-- AcquireEffects (R109). -/
def acquireEffects (va : Word) (s : State) : State := acquireCopies (latchCovers s.me va s) (latchScope s.me va s) s

/-- ReleaseEffects (R109). -/
def releaseEffects (va : Word) (s : State) : Res Unit := releaseAt true true (latchCovers s.me va s) (latchScope s.me va s) s

/-- RLAT set: R159 has applied. -/
def setRlat (s : State) : State := onMe (fun t => { t with rcause := setBit t.rcause 9 true }) s

/-- The physical address of a latch. -/
def targetPa : Target → Nat
  | .mem pa _ => pa
  | _ => 0

/-- A latch added to those the strand holds. -/
def holdLatch (va : Word) (t : Target) (s : State) : State :=
  onMe (fun m => if m.latches.any fun l => l.va == va then m else { m with latches := m.latches ++ [⟨va, targetPa t, targetWb t⟩] }) s

/-- A latch no longer held. -/
def dropHeld (va : Word) (s : State) : State := onMe (fun m => { m with latches := m.latches.filter fun l => l.va != va }) s

/-- One attempt to acquire (R108, R159): whether the latch was acquired. -/
def acquireOnce (i : Instr) (va : Word) (s : State) : Res (Bool × Target) :=
  (latchRead i va s).bind fun r s =>
    if heldByMe r.1 s then
      if s.me.replay then .ok (true, r.2) (acquireEffects va (holdLatch va r.2 (setRlat s))) else illegal i s
    else if lwHELD r.1 then .ok (false, r.2) s
    else .ok (true, r.2) (acquireEffects va (holdLatch va r.2 (latchSwap r.2 r.1 (wd (fld r.1 32 32 * 2 ^ 32 + meWord s.me s)) s).2))

/-- ACQ (R108). -/
def execAcq (a : GReg) (s : State) : Out :=
  ((acquireOnce (.acq a) (gR a s) s).bind fun r s =>
    if r.1 then .ok () (advance (unwatch s)) else .stop (waitFor (targetLoc r.2 0) s)).out

/-- TRYACQ (R108). -/
def execTryacq (d a : GReg) (s : State) : Out :=
  ((acquireOnce (.tryacq d a) (gR a s) s).bind fun r s => .ok () (advance (setG d (truth r.1) s))).out

/-- ACQ.OBS (R108). -/
def execAcqObs (d a : GReg) (s : State) : Out :=
  let va := gR a s
  ((latchRead (.acqObs d a) va s).bind fun r s =>
    if heldByMe r.1 s then illegal (.acqObs d a) s
    else if lwHELD r.1 then .stop (waitFor (targetLoc r.2 0) s)
    else .ok () (advance (setG d (wd (lwSEQ r.1)) (acquireEffects va (unwatch s))))).out

/-- The word that a release writes. -/
def releasedWord (w : Word) : Word := wd ((lwSEQ w + 1) % 2 ^ 24 * 2 ^ 40)

/-- The body of REL for a latch (R108, R159): in the replay window a latch that is not held is released without a change of the word. -/
def releaseLatch (i : Instr) (va : Word) (s : State) : Res Unit :=
  (latchRead i va s).bind fun r s =>
    if heldByMe r.1 s then
      (releaseEffects va s).bind fun _ s =>
        let old := latchSwap r.2 r.1 (releasedWord r.1) s
        (require i (old.1 == r.1) old.2).bind fun _ s => .ok () (dropHeld va s)
    else if s.me.replay then (releaseEffects va s).bind fun _ s => .ok () (dropHeld va (setRlat s))
    else illegal i s

/-- REL (R108, R293). -/
def execRel (a : GReg) (s : State) : Out :=
  ((deliverStores s).bind fun _ s => (releaseLatch (.rel a) (gR a s) s).bind fun _ s => .ok () (advance s)).out

/-- Every store performed at its home, remote ones included: a wait while one is on its way or held back. -/
def drainAll (s : State) : Res Unit :=
  let s1 := performAll s
  if !s1.me.stq.isEmpty || remoteBusy s1 then .stop s1 else .ok () s1

/-! ## Bindings (R110 to R112, R297) -/

/-- The first byte of the window region (R13). -/
def windowBase : Nat := 2 ^ 57 - 2 ^ 40

/-- Whether an address of the strand's context leads to the package's own memory (R111); the translation changes nothing. -/
def leadsToOwn (va : Word) (s : State) : Bool :=
  match (translate (reqOf s.me) .atomic 8 va s).1 with
  | .ok (.mem pa _) => ownMemory pa
  | _ => false

/-- The status of a BIND: the first that applies (R111). -/
def bindStatus (bs : List Binding) (base len latch scope : Nat) (own : Bool) : Nat :=
  let last := base + len - 1
  if base % 64 ≠ 0 ∨ len = 0 ∨ len % 64 ≠ 0 ∨ 2 ^ 57 < base + len ∨ latch % 8 ≠ 0 then 3
  else if scope = 0 ∨ 5 < scope ∨ bs.any (fun b => b.latch == latch && b.scope != scope - 1) then 4
  else if windowBase ≤ last ∨ windowBase ≤ latch ∨ !own ∨ (base ≤ latch ∧ latch ≤ last) ∨
      bs.any (fun b => (decide (b.rbase ≤ latch) && decide (latch ≤ b.rlast)) || (decide (base ≤ b.latch) && decide (b.latch ≤ last))) then 5
  else if bs.any fun b => decide (b.rbase ≤ last) && decide (base ≤ b.rlast) then 2
  else if 4096 ≤ bs.length then 1
  else 0

/-- The lowest entry number that no valid binding has, of at most `n` to try from `k`. -/
def freeEntry (bs : List Binding) : Nat → Nat → Nat
  | 0, k => k
  | n + 1, k => if bs.any fun b => b.entry == k then freeEntry bs n (k + 1) else k

/-- The view of every launch of a context changed (R110, R112). -/
def modBindings (ctx : Nat) (f : List Binding → List Binding) (s : State) : State :=
  { s with launches := s.launches.map fun l => if recCTX l.record = ctx then { l with bindings := f l.bindings } else l }

/-- Whether some address of a region leads to a line, by the entries of a table of a level that covers the addresses from `va0` up; `fuel` levels are left (R26). -/
def regionMeets (m : Memory) (first last line : Nat) : Nat → Nat → Nat → Nat → Bool
  | 0, _, _, _ => false
  | fuel + 1, level, base, va0 =>
    (List.range (if level = 0 then 1024 else 2048)).any fun i =>
      let v := va0 + i * 2 ^ leafBits level
      let e := wd (natOf (m.getN (base + 8 * i) 8))
      decide (v ≤ last) && decide (first < v + 2 ^ leafBits level) && enV e && !malformed level e &&
        (if enLEAF e then
          let p := leafPa level e 0
          decide (p ≤ line * 64) && decide (line * 64 < p + 2 ^ leafBits level) &&
            decide (v + (line * 64 - p) ≤ last) && decide (first < v + (line * 64 - p) + 64)
         else regionMeets m first last line fuel (level + 1) (enPPN e * 2 ^ 14) v)

/-- Whether a copy is of a line of a region of a context: by the address through which it was filled, or by the tables of the context, which may map its line there too (R112). -/
def inRegion (ctx first last : Nat) (s : State) (x : L1Copy) : Bool :=
  (x.ctx == ctx && decide (first ≤ x.vline * 64) && decide (x.vline * 64 ≤ last)) ||
    regionMeets s.mem first last x.line 4 0 (fld (descriptor ctx s).1 13 38 * 2 ^ 13) 0

/-- The copies of a region's lines discarded in every L1 (R112). -/
def discardRegion (ctx first last : Nat) (s : State) : State :=
  mapCores (fun c => { c with copies := c.copies.filter fun x => !inRegion ctx first last s x }) s

/-- An entry of the strand's binding table written: four words. -/
def writeEntry (e : Nat) (ws : List Word) (s : State) : State :=
  homeWrite s.me.ctx true (memBytes ((descriptor s.me.ctx s).2.toNat + 32 * e) (ws.flatMap fun w => bytesOf 8 w.toNat)) s

/-- A new binding: the table and every launch of the context take it (R111, R112). -/
def newBinding (e base last : Nat) (latch : Word) (scope : Nat) (s : State) : State :=
  modBindings s.me.ctx (fun l => l ++ [⟨e, base, last, latch.toNat, scope⟩])
    (writeEntry e [wd (2 ^ 63 + base), wd last, wd (latch.toNat + scope), 0] s)

/-- A binding cleared (R111, R112). -/
def clearBinding (b : Binding) (s : State) : State :=
  modBindings s.me.ctx (fun l => l.filter fun x => x.entry != b.entry)
    (writeEntry b.entry [0, 0, 0, 0] (discardRegion s.me.ctx b.rbase b.rlast s))

/-- BIND (R111, R112, R297). It discards the region's copies whatever its status is. A binding holds the scope's code less 1. -/
def execBind (d a b : GReg) (c : BitVec 3) (s : State) : Out :=
  let base := (gR a s).toNat
  let len := (gPlus a 1 s).toNat
  let latch := gR b s
  ((drainAll s).bind fun _ s =>
    let bs := bindingsOf s.me s
    let status := bindStatus bs base len latch.toNat c.toNat (leadsToOwn latch s)
    let s1 := discardRegion s.me.ctx base (base + len - 1) s
    .ok () (advance (setG d (wd status)
      (if status = 0 then newBinding (freeEntry bs 4096 0) base (base + len - 1) latch (c.toNat - 1) s1 else s1)))).out

/-- UNBIND (R111, R112, R297). -/
def execUnbind (d a : GReg) (s : State) : Out :=
  let base := (gR a s).toNat
  ((drainAll s).bind fun _ s =>
    match (bindingsOf s.me s).find? fun b => b.rbase == base with
    | none => .ok () (advance (setG d 6 s))
    | some b => .ok () (advance (setG d 0 (clearBinding b s)))).out

/-! ## FENCE, DRAINST, PFENCE (R298 to R300) -/

/-- Whether a fence type's earlier set holds the scalar path, and whether it holds the vector path (R114). -/
def earlierScalar (t : Fin 5) : Bool := t.1 != 2 && t.1 != 4
def earlierVector (t : Fin 5) : Bool := t.1 == 0 || t.1 == 2 || t.1 == 4

/-- FENCE (R114, R120, R298). -/
def execFence (t : Fin 5) (c : BitVec 3) (s : State) : Out :=
  ((if 5 ≤ c.toNat then deliverStores s else deliverKnown s).bind fun _ s =>
    (fenceRelease (earlierScalar t) (earlierVector t) c.toNat s).bind fun _ s => .ok () (advance (fenceAcquire c.toNat s))).out

/-- DRAINST (R117, R300). -/
def execDrainst (s : State) : Out := ((deliverStores s).bind fun _ s => (drainAll s).bind fun _ s => .ok () (advance s)).out

/-- The number of durable entries that each die's persist queue reaches once it has written all that it holds. -/
def persistTargets (s : State) : Vector Nat 4 := s.dies.map fun d => d.persistDone + d.persist.length

/-- Whether the persist queues have reached some numbers. -/
def persistReached (v : Vector Nat 4) (s : State) : Bool := (List.range 4).all fun d => decide (v[fin 4 (by decide) d] ≤ (dieAt d s).persistDone)

/-- PFENCE.DIE (R155): at its beginning it notes what the queues hold, and it completes once all that is durable. -/
def execPfenceDie (s : State) : Out :=
  ((deliverStores s).bind fun _ s =>
    match s.me.pwait with
    | none =>
      let s1 := performAll s
      let v := persistTargets s1
      if persistReached v s1 then .ok () (advance s1) else .stop (onMe (fun t => { t with pwait := some v }) s1)
    | some v => if persistReached v s then .ok () (advance (onMe (fun t => { t with pwait := none }) s)) else .stop s).out

/-- PFENCE.CORE (R156): a shadow write is asked for, whose shadow point for the strand is the next instruction, and the strand waits for the seal. -/
def execPfenceCore (s : State) : Out :=
  ((deliverStores s).bind fun _ s =>
    .ok () (onCore (fun c => { c with shRequest := true, shWaiters := s.me.sid :: c.shWaiters }) (advance s))).out

/-! ## BAR (R117, R160, R301) -/

/-- The barriers that a work group has completed. -/
def epochsDone (l : Launch) (wg : Nat) : Nat := ((l.epochs.find? fun e => e.1 == wg).map fun e => e.2).getD 0

/-- Whether a member of a work group has arrived at the barrier after epoch `k`. -/
def hasArrived (k : Nat) (t : Strand) : Bool := t.life == .ended || decide (k < t.epoch) || (t.epoch == k && t.arrived)

/-- The strands of a work group, as they stand. -/
def wgMembers (l : Launch) (wg : Nat) (s : State) : List Strand :=
  ((wgCores l.record wg).flatMap fun m => strandsOf m s).filter fun t => t.launch == l.id && t.life != .absent

/-- A barrier passed: its acquire half is done and the next epoch begins. -/
def passBarrier (scope : Scope) (s : State) : State :=
  advance (onMe (fun t => { t with epoch := t.epoch + 1, arrived := false }) (fenceAcquire scope s))

/-- BAR (R117, R301). -/
def execBar (s : State) : Out :=
  ((deliverStores s).bind fun _ s =>
    match launchAt s.me.launch s with
    | none => (fenceRelease true true 1 s).bind fun _ s => .ok () (passBarrier 1 s)
    | some l =>
      let wg := wgOf l.record s.me.mesh
      let scope := wgScope l.record wg
      (fenceRelease true true scope s).bind fun _ s =>
        let k := s.me.epoch
        if k < epochsDone l wg then .ok () (passBarrier scope s)
        else
          let s1 := onMe (fun t => { t with arrived := true }) s
          if (wgMembers l wg s1).all (hasArrived k) then
            .ok () (passBarrier scope (modLaunch l.id (fun x => { x with epochs := (wg, k + 1) :: x.epochs.filter fun e => e.1 != wg }) s1))
          else .stop s1).out

/-! ## PUBHW (R302) -/

/-- The high-water word after a publication: HWIDX never decreases, FIN stays set. -/
def publishedWord (h : Word) (fin_ : Bool) (n : Nat) : Word := wd (max (fld h 0 48) n + (bit h 63 || fin_).toNat * 2 ^ 63)

/-- The latch word after a publication. -/
def publishedLatch (w : Word) : Word := setFld w 40 24 ((lwSEQ w + 1) % 2 ^ 24)

/-- The words of a publication at a place. -/
def publicationAt (t : Target) (s : State) : Word × Word :=
  let bs := (locsAt t 16).map fun l => homeByte l s
  (wd (natOf (bs.take 8)), wd (natOf (bs.drop 8)))

/-- The effect of a publication on the sixteen bytes at a place, at one instant; the latest high-water mark there came over a chain port or not (R120). -/
def publishAt (ctx : Nat) (t : Target) (fin_ : Bool) (n : Nat) (remote : Bool) (s : State) : State :=
  let ls := locsAt t 16
  let ws := publicationAt t s
  let s1 := homeBytes (targetWb t) (putAt ls (bytesOf 8 (publishedLatch ws.1).toNat ++ bytesOf 8 (publishedWord ws.2 fin_ n).toNat))
    (l2Amo ctx (targetWb t) (memPas ls) s)
  let mark := targetPa t + 8
  { s1 with remotePubs := (if remote then [mark] else []) ++ s1.remotePubs.filter fun x => x != mark }

/-- PUBHW and PUBHW.FIN (R120, R302). To another package it is a release at SYS, which waits for all the strand's remote writes (R105). -/
def publish (i : Instr) (fin_ : Bool) (a b : GReg) (s : State) : Out :=
  let va := gR a s
  let n := gR b s
  ((deliverStores s).bind fun _ s =>
    (require i (va.toNat % 16 == 0 && decide (n.toNat < 2 ^ 48)) s).bind fun _ s =>
      match pendingRemote s with
      | some m => (remoteAnswer i va m s).bind fun _ s => .ok () (advance s)
      | none =>
      match routeOf s.me.ctx va.toNat s with
      | some e =>
        match routed .atomic e s with
        | .error x => .stop (xlate .atomic va x s)
        | .ok _ =>
          let s1 := releaseWrites true true unboundOnly 5 s
          if remoteBusy s1 then .stop s1 else .stop (remoteCall e va (.pubhw fin_ n) s1)
      | none =>
        (latchPlace i 16 va s).bind fun t s =>
          (ownFirst (locsAt t 16) s).bind fun _ s =>
            (goodData va (locsAt t 16) s).bind fun _ s =>
              let ws := publicationAt t s
              (require i (!lwReserved ws.1 && fld ws.2 48 15 == 0) s).bind fun _ s =>
                (releaseEffects va s).bind fun _ s => .ok () (advance (publishAt s.me.ctx t fin_ n.toNat false s))).out

/-- PUBHW (R302). -/
def execPubhw (a b : GReg) (s : State) : Out := publish (.pubhw a b) false a b s

/-- PUBHW.FIN (R302). -/
def execPubhwFin (a b : GReg) (s : State) : Out := publish (.pubhwFin a b) true a b s

/-! ## LAUNCH (R303, R321) -/

/-- Words of eight bytes each. -/
def wordsOf : Nat → List (BitVec 8) → List Word
  | 0, _ => []
  | n + 1, bs => wd (natOf (bs.take 8)) :: wordsOf n (bs.drop 8)

/-- The record at an address, read as a load of the strand's context and mode (R303). -/
def loadRecord (va : Word) (s : State) : Res (List Word) :=
  match translate (reqOf s.me) .load 128 va s with
  | (.error x, s1) => .stop (xlate .load va x s1)
  | (.ok t, s1) =>
    (goodData va (locsAt t 128) s1).bind fun _ s2 =>
      let ts := (List.range 128).map fun k =>
        match t with
        | .mem pa mt => .mem (pa + k) mt
        | .scratch m off => .scratch m (off + k)
        | .remote e => .remote e
      let r := readBytes .scalar va.toNat ts (countNc s2.me.ctx ts s2)
      .ok (wordsOf 16 r.1) r.2

/-- The status of a device launch on a queue (R321). -/
def launchStatus (r : List Word) (q : HwQueue) (s : State) : Nat :=
  if !q.en || !q.dev || q.part != s.me.part then 2
  else if capacity q ≤ pendingSlots q then 1
  else if recCTX r ≠ s.me.ctx then 4
  else recStatus r q.part s

/-- The address of the slot with a count (R318). -/
def slotAddr (q : HwQueue) (count : Nat) : Nat := q.qbase + 128 * (count % capacity q)

/-- A record put into the slot at TAIL. -/
def putSlot (d k : Nat) (r : List Word) (s : State) : State :=
  let q := queueAt d k s
  modQueue d k (fun x => { x with tail := (x.tail + 1) % 2 ^ 32 })
    (homeWrite s.me.ctx true (memBytes (slotAddr q q.tail) ((r.take 15 ++ [(0 : Word)]).flatMap fun (w : Word) => bytesOf 8 w.toNat)) s)

/-- LAUNCH (R303, R321). -/
def execLaunch (d a b : GReg) (s : State) : Out :=
  let va := gR a s
  let k := gR b s
  ((deliverStores s).bind fun _ s =>
    (require (.launch d a b) (va.toNat % 128 == 0 && fld k 6 58 == 0) s).bind fun _ s =>
      (fenceRelease true true 5 s).bind fun _ s =>
        (loadRecord va s).bind fun r s =>
          let die := dieOfMesh s.me.mesh
          let status := launchStatus r (queueAt die k.toNat s) s
          let s1 :=
            if status = 0 then putSlot die k.toNat r s
            else if status = 2 then modQueue die k.toNat (fun q => { q with dberr := true }) s
            else s
          .ok () (advance (setG d (wd status) s1))).out

end Sys2Proof.Machine
end

