-- ==== Sys2Proof/Machine/Muslin.lean ====
section
/-! DEFINITION. The Muslin layer of a core (R145 to R153, R157, R405): shadow writes, power-down and power-up, losses, and resumption. -/

namespace Sys2Proof.Machine

/-! ## Cores and their strands -/

/-- Every strand of a core changed, the one whose turn it is included. -/
def modCoreStrands (mesh : Nat) (f : Strand → Strand) (s : State) : State :=
  let s1 := modCore mesh (fun c => { c with strands := c.strands.map f }) s
  if s1.me.mesh = mesh then onMe f s1 else s1

/-- Whether a strand is resident on a core and has not ended: for the automatic interval of R149 a strand that has ended does not count (log entry 108). -/
def coreBusy (mesh : Nat) (s : State) : Bool := (strandsOf mesh s).any fun t => t.life == .running

/-- A core with its strands, as an image. -/
def imageOf (mesh slot : Nat) (s : State) : Image := ⟨mesh, slot, { coreAt mesh s with strands := strandsOf mesh s }⟩

/-- Whether a slot is torn: a write of it has begun and it is not complete (R146). -/
def slotTorn (x : ShadowSlot) : Bool := x.st != .empty && !slotComplete x

/-! ## Shadow writes (R147, R149) -/

/-- SHADOW_INTERVAL (R149): the automatic interval has expired, which it does once until it starts anew. -/
def execShadowInterval (mesh : Nat) (s : State) : Out :=
  .next (if coreBusy mesh s then
      modCore mesh (fun c =>
        if c.shen && c.pwr == 0 && !c.shFired && decide (c.shBase + c.shint * 4096 ≤ cycleOf mesh s) then { c with shRequest := true, shFired := true } else c) s
    else s)

/-- The running strands of a core, by number. -/
def runningOn (mesh : Nat) (s : State) : List Nat := (strandsOf mesh s).filterMap fun t => if t.life = .running then some t.sid else none

/-- The stores of a core's strands performed at their homes (R147, step 2). -/
def drainCore (mesh : Nat) (s : State) : State := (runningOn mesh s).foldl (fun s k => atStrand mesh k performAll s) s

/-- Whether a core's strands have remote stores that no reply has completed (R117). -/
def coreRemote (mesh : Nat) (s : State) : Bool := s.remote.any fun m => m.mesh == mesh && m.store.isSome && m.reply.isNone

/-- Whether a strand of a core has not come to a stop point: a vector instruction of it has not retired, a remote access of its instruction is under way, or a store of its is held back or has no
reply (R147, R173). -/
def unsettled (mesh : Nat) (s : State) : Bool :=
  coreRemote mesh s || !(coreAt mesh s).window.isEmpty || (strandsOf mesh s).any fun t => t.life == .running && (t.call.isSome || !t.stq.isEmpty)

/-- The slot that a shadow write targets (R147, step 4). -/
def targetSlot (c : Core) : Fin 2 :=
  match newestSlot (fun _ => true) c with
  | some 0 => 1
  | _ => 0

/-- The units that are copied only when they are dirty (R405). -/
def shadowUnits : Nat := 880

/-- D: the bytes that a shadow write into a slot copies (R405). -/
def copyLength (k : Fin 2) (c : Core) : Nat := 196608 + 4096 * popcount shadowUnits (c.dirty[fin 3 (by decide) k.1]).toNat

/-- The cycles that a copy of some bytes takes (R147). -/
def copyTime (n : Nat) : Nat := 64 + ceilDiv n 256

/-- The bits of all units. -/
def allUnits : BitVec 928 := BitVec.allOnes 928

/-- The dirty bits of the units written since a copy began, none yet. -/
def copyBegun (d : Vector (BitVec 928) 3) : Vector (BitVec 928) 3 := d.set 2 0

/-- A core whose target slot is being written from cycle `t` on. -/
def beginWriting (t : Nat) (c : Core) : Core :=
  let k := targetSlot c
  { c with
    slots := c.slots.set k { c.slots[k] with st := .writing }
    dirty := copyBegun c.dirty, shTargets := none, shWriting := some k.1, shDue := t + copyTime (copyLength k c) }

/-- The image of a core in a slot put in the place of the one before. -/
def putImage (x : Image) (xs : List Image) : List Image := x :: xs.filter fun y => !(y.mesh == x.mesh && y.slot == x.slot)

/-- What a shadow slot holds of a core: the seal that follows ends the replay windows of its strands (R159). -/
def shadowImage (mesh slot : Nat) (s : State) : Image :=
  let x := imageOf mesh slot s
  { x with core := { x.core with strands := x.core.strands.map fun t => { t with replay := false } } }

/-- The copy into the target slot: every unit is copied as it stands at the copy's start (R147, step 5; log entry 88). -/
def beginCopy (mesh : Nat) (s : State) : State :=
  modCore mesh (beginWriting (cycleOf mesh s)) { s with images := putImage (shadowImage mesh (targetSlot (coreAt mesh s)).1 s) s.images }

/-- SHADOW_WRITE (R147): first the strands stop, their leave is withdrawn and their stores drain; once the persist queues have written what they held, the target slot is
chosen and copied into (R284). -/
def execShadowWrite (mesh : Nat) (s : State) : Out :=
  let c := coreAt mesh s
  .next (match c.shTargets with
    | some v => if persistReached v s then beginCopy mesh s else s
    | none =>
      if c.shRequest && c.shWriting.isNone && decide (c.pwr ≤ 1) then
        let s1 := drainCore mesh s
        if unsettled mesh s1 then s1
        else
          modCoreStrands mesh (fun t => { t with leave := .none })
            (modCore mesh (fun c => { c with shRequest := false, shTargets := some (persistTargets s1) }) s1)
      else s)

/-- One bit more of a CRC-64 with the ECMA-182 polynomial (R146). -/
def crcBit (c : BitVec 64) (b : Bool) : BitVec 64 := if c.msb != b then (c <<< 1) ^^^ 0x42F0E1EBA9EA3693 else c <<< 1

/-- One byte more of it, highest bit first. -/
def crcByte (c : BitVec 64) (b : BitVec 8) : BitVec 64 := [7, 6, 5, 4, 3, 2, 1, 0].foldl (fun c k => crcBit c (b.getLsbD k)) c

/-- CRC-64 with the ECMA-182 polynomial over some bytes, from 0 (R146; log entry 87). -/
def crc64 (bs : List (BitVec 8)) : BitVec 64 := bs.foldl crcByte 0

/-- The check code of a slot with a generation number (R146). -/
def checkCode (contents : List (BitVec 8)) (gen : Nat) : BitVec 64 := crc64 (contents ++ bytesOf 8 gen)

/-- GEN of a slot that seals beside another (R147, step 6). -/
def nextGen (other : ShadowSlot) : Nat := if slotComplete other then (other.gen + 1) % 2 ^ 64 else 1

/-- The header of a slot that seals, with its contents; `full` tells that every unit was written anew, so that no old error is left in its cells (R146, R147, step 6). -/
def sealedSlot (old other : ShadowSlot) (plc : Nat) (full : Bool) (contents : List (BitVec 8)) : ShadowSlot :=
  let code := checkCode contents (nextGen other)
  { gen := nextGen other, plc := plc, st := .sealed, check := code, found := code, error := old.error && !full }

/-- The dirty bits after a seal: those of the slot are the units written since its copy began (R148). -/
def sealedDirty (k : Fin 2) (d : Vector (BitVec 928) 3) : Vector (BitVec 928) 3 := d.set k.1 d[2]

/-- Whether a copy takes every unit (R148). -/
def copiesAll (k : Fin 2) (c : Core) : Bool := copyLength k c == 4096 * 928

/-- SHADOW_SEAL (R147, R159): once its copy has taken its time the slot is complete, the strands go on, and their replay windows end. -/
def execShadowSeal (mesh : Nat) (s : State) : Out :=
  .next (match (coreAt mesh s).shWriting with
    | none => s
    | some n =>
      let k := fin 2 (by decide) n
      let t := cycleOf mesh s
      if t < (coreAt mesh s).shDue then s
      else
        let d := draw s
        modCoreStrands mesh (fun t => { t with replay := false }) (modCore mesh (fun c =>
          { c with
            slots := c.slots.set k (sealedSlot c.slots[k] c.slots[fin 2 (by decide) (k.1 + 1)] c.plc (copiesAll k c) (Config.slotBytes d.1))
            dirty := sealedDirty k c.dirty
            shWriting := none, shWaiters := [], shcnt := c.shcnt + 1, shseal := t, shBase := t, shFired := false }) d.2))

/-! ## Resumption -/

/-- The tags of a core that are BUSY with a command (R151, R152). -/
def busyTags (c : Core) : List (Fin 64) :=
  (List.finRange 64).filter fun k => c.tags[k].st == .busy && c.tags[k].cmd.isSome

/-- A core that takes up the state of an image (R145): its copies, its translations and its window begin empty, and the commands of its BUSY tags are issued
again. A shadow write that is asked for or under way goes on. -/
def restoredCore (c k : Core) : Core :=
  { c with
    acc := k.acc, owner := k.owner, base := k.base, count := k.count, stage := k.stage, spec := k.spec, fmt := k.fmt
    cellPoison := k.cellPoison, cellWriter := k.cellWriter, scratch := k.scratch, tags := k.tags.map fun g => { g with moved := none }, scales := k.scales, tables := k.tables
    engq := busyTags k, copies := [], l1 := [], icopies := [], tlb := [], walks := [], misses := [], out := [], window := [], starve := [], boosted := [] }

/-- The dirty bits after a resume from a slot: no unit is dirty for it, every unit for the other (R148). -/
def resumedDirty (k : Fin 2) : Vector (BitVec 928) 3 := (Vector.replicate 3 allUnits).set k.1 0

/-- The dirty bits where strands start or come back from a pre-emption: every unit is dirty for both slots (R148). -/
def startedDirty : Vector (BitVec 928) 3 := Vector.replicate 3 allUnits

/-- RCAUSE of a resume (R157). -/
def resumeCause (cause gen : Nat) (torn : Bool) : Word := wd (gen % 2 ^ 32 * 2 ^ 32 + torn.toNat * 2 ^ 8 + cause)

/-- A stream slot as it resumes: but after a planned power-down its blocks are read again from its position (R151, R152, R349). -/
def resumedStream (lossy : Bool) (q : Stream) : Stream := if lossy then { q with landed := [], want := false } else q

/-- The latches of a strand that resumes: those of its image, and those that it acquired since and still holds in memory (R343, R352). -/
def resumedLatches (t x : Strand) : List HeldLatch := x.latches ++ t.latches.filter fun l => !x.latches.any fun y => y.va == l.va

/-- A strand that continues from its image; one that has ended, by its image or since, stays so with what its registers held, and its replay window goes on where no seal has ended
it (R151 to R153, R157 to R159). -/
def resumedStrand (cause : Nat) (rc : Word) (t x : Strand) : Strand :=
  if t.life = .absent then t
  else if t.life = .ended ∨ x.life ≠ .running then { released .ended x with mesh := t.mesh, sid := t.sid, launch := t.launch }
  else
    { x with
      mesh := t.mesh, sid := t.sid, launch := t.launch, rcause := rc, replay := x.replay || decide (3 ≤ cause), stq := [], vwq := [], patch := [], leave := .none
      arrived := false, pwait := none, call := none, stopping := false, latches := resumedLatches t x
      sq := x.sq.map (resumedStream (cause ≠ 2)) }

/-- The strand of an image with a strand's number; the strand itself when the image has none. -/
def imageStrand (k : Core) (t : Strand) : Strand := (k.strands.find? fun x => x.sid == t.sid).getD t

/-- The image in a slot of a core. -/
def imageAt (mesh slot : Nat) (s : State) : Option Image := s.images.find? fun x => x.mesh == mesh && x.slot == slot

/-- A core and its strands taken from the image of a slot. -/
def resumeFrom (mesh cause : Nat) (k : Fin 2) (s : State) : State :=
  match imageAt mesh k.1 s with
  | none => s
  | some img =>
    let c := coreAt mesh s
    let rc := resumeCause cause c.slots[k].gen (slotTorn c.slots[fin 2 (by decide) (k.1 + 1)])
    modCoreStrands mesh (fun t => resumedStrand cause rc t (imageStrand img.core t))
      (modCore mesh (fun c => { restoredCore c img.core with dirty := resumedDirty k }) s)

/-- The torn slots that a resume finds are counted (R150). -/
def countTorn (mesh : Nat) (s : State) : State :=
  modCore mesh (fun c => { c with shtorn := c.shtorn + (c.slots.toList.filter slotTorn).length }) s

/-- The work group of a core's strands ends (R343). -/
def terminateCore (mesh reason : Nat) (s : State) : State :=
  match (coreAt mesh s).launch with
  | none => s
  | some id =>
    match launchAt id s with
    | none => s
    | some l => terminate id (wgOf l.record mesh) mesh reason s

/-- A core that has power again: it resumes from its newest complete slot of the placement, or its work group ends (R151, R152, R343). -/
def resumeCore (mesh cause : Nat) (s : State) : State :=
  let s1 := countTorn mesh s
  match newestSlot (fun x => x.plc == (coreAt mesh s1).plc) (coreAt mesh s1) with
  | none => terminateCore mesh 3 s1
  | some k => resumeFrom mesh cause k s1

/-! ## Power (R151, R152, R368, R378, R379) -/

/-- The writes that have left a core reach their homes. -/
def flushOut (mesh : Nat) (s : State) : State := drainOut mesh (fun _ => true) s

/-- A strand of a core without power: who it is stays known to the scheduler, and the latches it holds stand in memory. -/
def darkStrand (t : Strand) : Strand :=
  { Strand.reset t.mesh t.sid with life := t.life, launch := t.launch, ctx := t.ctx, part := t.part, latches := t.latches, epoch := t.epoch }

/-- A core without power: its state is lost but for what the Muslin layer and its control block hold. -/
def darkCore (c : Core) : Core :=
  { Core.reset c.mesh c.strands with
    plc := c.plc, slots := c.slots, lanemap0 := c.lanemap0, lanemap1 := c.lanemap1, trims := c.trims, dropped := c.dropped, alc := c.alc
    shint := c.shint, shen := c.shen, shseal := c.shseal, shcnt := c.shcnt, shtorn := c.shtorn, shBase := c.shBase
    launch := c.launch, fused := c.fused, fuser := c.fuser, idleSince := c.idleSince, pwr := 2 }

/-- The island of a core that is off: once no core of it has power it is to be sampled anew (R380). -/
def sleepIsland (mesh : Nat) (s : State) : State :=
  let i := islandOf mesh
  if islandPowered i s then s
  else
    modDie (dieOfMesh mesh) (fun d =>
      let k := fin 12 (by decide) i
      { d with islands := d.islands.set k { d.islands[k] with sampled := 0 } }) s

/-- What a core without power has on its way: its strands wait for no write, its remote stores go on to their targets, and the replies to its remote accesses reach nobody (R158; log entry
118). -/
def forgetCore (mesh : Nat) (s : State) : State :=
  dropMessages (fun m => m.mesh == mesh && m.sid != noStrand) { s with watches := s.watches.filter fun w => w.mesh != mesh }

/-- Power removed from a core. -/
def removePower (mesh : Nat) (s : State) : State :=
  sleepIsland mesh (forgetCore mesh (modCoreStrands mesh darkStrand (modCore mesh darkCore (flushOut mesh s))))

/-- PDREQ (R368). -/
def execPdreq (mesh : Nat) (s : State) : Out := .next (pdreqOp mesh s)

/-- PUPREQ (R368). -/
def execPupreq (mesh : Nat) (s : State) : Out := .next (pupreqOp mesh s)

/-- Whether an engine is in the midst of a chunk of a core: it finishes that one (R151, R349). -/
def inChunk (c : Core) : Bool := c.tags.toList.any fun g => g.moved.isSome

/-- PLANNED_POWER_DOWN (R151): a shadow write is asked for, once the engine has finished its chunk; when it has sealed, power is removed. Engines start no chunk meanwhile. -/
def execPlannedPowerDown (mesh : Nat) (s : State) : Out :=
  let c := coreAt mesh s
  .next (if c.pwr ≠ 1 then s
    else if c.downRequest then if inChunk c then s else modCore mesh (fun c => { c with downRequest := false, shRequest := true }) s
    else if c.shRequest || c.shTargets.isSome || c.shWriting.isSome then s
    else removePower mesh s)

/-- Bits of a lane map with some groups removed. -/
def dropGroups (base : Nat) (groups : List Nat) (w : Word) : Word :=
  groups.foldl (fun w g => if base ≤ g ∧ g < base + 64 then setBit w (g - base) false else w) w

/-- A core whose map holds fewer than 32 groups is disabled (R378). -/
def disableThin (mesh : Nat) (s : State) : State :=
  if 32 ≤ laneGroups (coreAt mesh s) then s
  else
    let c := mesh % 384
    let i := fin 6 (by decide) (c / 64)
    modDie (dieOfMesh mesh) (fun d => { d with coredis := d.coredis.set i (setBit d.coredis[i] (c % 64) true) }) s

/-- The lane map at power-up: groups that tripped at the highest trim are removed, for good (R378), and ALC stays within it (R168; log entry 106). -/
def applyDropped (c : Core) : Core :=
  let c1 := { c with lanemap0 := dropGroups 0 c.dropped c.lanemap0, lanemap1 := dropGroups 64 c.dropped c.lanemap1 }
  { c1 with alc := min c1.alc (64 * laneGroups c1) }

/-- A core that has power again from cycle `t` on (R168, R378). -/
def poweredCore (t : Nat) (c : Core) : Core := { applyDropped c with pwr := 0, lostAt := none, idleSince := t, shBase := t, shFired := false }

/-- The cycles within which a lost core must have power again (R152). -/
def powerLimit : Nat := 2 ^ 32

/-- Whether a lost core has been without power for longer than the limit (R152). -/
def tooLate (c : Core) (t : Nat) : Bool := c.lostAt.any fun l => decide (l + powerLimit < t)

/-- POWER_UP (R151, R152): a core that is powering up has power once its island was sampled, and the core resumes; one that was lost for too long does
not, and one that was lost while it held no launch has no placement to resume (R380; log entry 102). A core that is disabled runs no strand: one whose map has become too small cannot resume
(R378; log entry 120). -/
def execPowerUp (mesh : Nat) (s : State) : Out :=
  let c := coreAt mesh s
  .next (if c.pwr ≠ 3 ∨ !islandReady mesh s then s
    else
      let t := cycleOf mesh s
      let s1 := disableThin mesh (modCore mesh (poweredCore t) s)
      if c.launch.isNone && (c.lostAt.isSome || disabled mesh s1) then s1
      else if disabled mesh s1 then terminateCore mesh 3 s1
      else if tooLate c t then terminateCore mesh 3 s1
      else resumeCore mesh (if c.lostAt.isSome then 3 else 2) s1)

/-- A launch whose save a loss has broken off goes on, and is pre-empted again (R352). -/
def unsave (mesh : Nat) (s : State) : State :=
  match (coreAt mesh s).launch with
  | none => s
  | some id => modLaunch id (fun l => if l.st = .saving then { l with st := .placed, area := (0, 0) } else l) s

/-- CORE_LOSS (R152). -/
def execCoreLoss (mesh : Nat) (s : State) : Out :=
  let t := cycleOf mesh s
  .next (if (coreAt mesh s).pwr = 2 then s
    else modCore mesh (fun c => { c with lostAt := some t }) (removePower mesh (unsave mesh s)))

/-- CORE_SUPPLY_RESTORED (R152): the governor powers the core up. -/
def execCoreSupplyRestored (mesh : Nat) (s : State) : Out :=
  .next (modCore mesh (fun c => if c.pwr = 2 ∧ c.lostAt.isSome then { c with pwr := 3 } else c) s)

/-- RESUME_TIMEOUT (R152): a lost core that has no power after 2^32 cycles. -/
def execResumeTimeout (mesh : Nat) (s : State) : Out :=
  let c := coreAt mesh s
  .next (if c.pwr ≠ 0 ∧ tooLate c (cycleOf mesh s) then terminateCore mesh 3 s else s)

/-- IDLE_POWER_DOWN (R379). -/
def execIdlePowerDown (mesh : Nat) (s : State) : Out :=
  let c := coreAt mesh s
  .next (if c.pwr = 0 ∧ c.launch = none ∧ !coreBusy mesh s ∧ c.idleSince + 65536 ≤ cycleOf mesh s then pdreqOp mesh s else s)

/-- Whether what a cell holds outlives a loss of the package's power: the persistent windows and the host's memory (R153). -/
def outlives (pa : Nat) : Bool :=
  match regionOf pa with
  | .host => true
  | _ => false

/-- Whether a word of memory may still be in error after a loss of the package's power: what Muslin cells or the host hold. -/
def badOutlives (w : Nat) : Bool :=
  match regionOf (8 * w) with
  | .host => true
  | .persistent _ => true
  | _ => false

/-- PACKAGE_LOSS (R153): memory is what the Muslin cells hold and what is the host's; every die is without power until it is reset. -/
def execPackageLoss (s : State) : Out :=
  let s1 := (List.range 4).foldl (fun s d => modDie d (fun _ => Die.reset) (restartDie d 0 0 false s)) s
  let kept := s1.mem.filter fun c => outlives c.1
  .next { s1 with
    mem := s1.durable.foldl (fun m c => m.set c.1 c.2) kept
    bad := s1.bad.filter badOutlives, firmware := [], pendingFuse := 0, saved := [], doe := [], replies := [], watches := [] }

/-- MARGIN_TRIP (R378): a group's trim rises one step, and one that trips at the highest trim is removed at the next power-up. -/
def execMarginTrip (mesh group : Nat) (highest : Bool) (s : State) : Out :=
  .next (if 128 ≤ group then s
    else modCore mesh (fun c =>
      if highest then { c with dropped := group :: c.dropped.filter fun g => g != group }
      else
        let n := ((c.trims.find? fun x => x.1 == group).map fun x => x.2).getD 0
        { c with trims := (group, n + 1) :: c.trims.filter fun x => x.1 != group }) s)

/-- A poison mark on a word of a plane, with the word's producer (R344). An error in a word of a scale plane, which holds no elements, marks nothing (R46; log entry 89). -/
def poisonPlane (reg plane seg : Nat) (t : Strand) : Strand :=
  let k := fin 32 (by decide) reg
  let v := t.v[k]
  if v.planes.length ≤ plane ∨ 256 ≤ seg ∨ v.poison.any (fun m => m.plane == plane && m.seg == seg) then t
  else { t with v := t.v.set k { v with poison := ⟨plane, seg, writerAt v.writers seg⟩ :: v.poison } }

/-- A poison mark on a word of 64 cells of a row (R344). -/
def poisonCells (tile row word : Nat) (c : Core) : Core :=
  if 4 ≤ tile ∨ 256 ≤ row ∨ 4 ≤ word ∨ c.cellPoison.any (fun m => m.tile == tile && m.row == row && m.word == word) then c
  else
    let p := ((c.cellWriter[fin 4 (by decide) tile])[fin 256 (by decide) row])[fin 4 (by decide) word]
    { c with cellPoison := ⟨tile, row, word, p⟩ :: c.cellPoison }

/-- A word of memory in error (R335; log entry 74). -/
def spoilWord (pa : Nat) (s : State) : State := { s with bad := pa / 8 :: s.bad.filter fun w => w != pa / 8 }

/-- A shadow slot whose cells give another check code, or show an uncorrectable error (R146). -/
def spoilSlot (k : Nat) (code : Option (BitVec 64)) (c : Core) : Core :=
  let i := fin 2 (by decide) k
  { c with slots := c.slots.set i (match code with | some x => { c.slots[i] with found := x } | none => { c.slots[i] with error := true }) }

/-- POISON_DETECT (R146, R335, R344): an uncorrectable error poisons the word it is found in, and raises nothing; errors of memory and of slots are found when they are read. -/
def execPoisonDetect (p : PoisonAt) (s : State) : Out :=
  .next (match p with
    | .plane mesh sid reg plane seg => modStrand mesh sid (poisonPlane reg plane seg) s
    | .cells mesh tile row word => modCore mesh (poisonCells tile row word) s
    | .memory pa => spoilWord pa s
    | .slot mesh k code => modCore mesh (spoilSlot k code) s)

end Sys2Proof.Machine
end

