-- ==== Sys2Proof/Machine/ControlEvents.lean ====
section
/-! DEFINITION. Events of control space: register writes of the host (R7, R366), invalidations (R35, R36), the staged start (R367, R369, R378), the boot lock,
and the flush of the context counters (R383). -/

namespace Sys2Proof.Machine

/-! ## Register writes -/

/-- REGISTER_WRITE (R7, R366, R401): a write through BAR0; one that is not of 4 or 8 bytes and aligned is an Unsupported Request, and is dropped. -/
def execRegisterWrite (die off size : Nat) (value : Word) (s : State) : Out :=
  .next (if 4 ≤ die ∨ 0x400000000 ≤ off then s
    else if (size = 4 ∨ size = 8) ∧ off % size = 0 then
      ctlStore (0x40000000000 + die * 0x400000000 + off) size value { s with hostBad := false }
    else { s with hostBad := true })

/-- A read of the host's through BAR0 (R366, R401): the register, or the half of it that is named; one of another size or alignment is an Unsupported Request, which brings no data. -/
def hostRegisterRead (off size : Nat) (s : State) : State :=
  if off < 0x1000000000 ∧ (size = 4 ∨ size = 8) ∧ off % size = 0 then
    { s with hostAnswer := bytesOf size (ctlLoad (0x40000000000 + off) size s).toNat, hostPoison := false, hostBad := false }
  else { s with hostAnswer := [], hostPoison := false, hostBad := true }

/-- TIQHI (R35). -/
def execTiqhi (value : Word) (s : State) : Out := .next (tiqhiWrite { s with tiqhi := value })

/-- BOOTLOCK (R367). -/
def execBootlock (die : Nat) (s : State) : Out := .next (bootlockOp die s)

/-! ## Invalidation (R35, R36) -/

/-- The fields of a descriptor. -/
def invKIND (d : Invalidation) : Nat := fld d.lo 0 3
def invCTX (d : Invalidation) : Nat := fld d.lo 3 12
def invPART (d : Invalidation) : Nat := fld d.lo 15 3
def invCOUNT (d : Invalidation) : Nat := fld d.lo 32 32
def invPAGE (d : Invalidation) : Nat := fld d.hi 14 43

/-- Whether a translation overlaps some 16 KiB pages. -/
def overlapsPages (e : TlbEntry) (page count : Nat) : Bool :=
  let n := 2 ^ (leafBits e.level - 14)
  decide (e.vpage * n < page + count) && decide (page < e.vpage * n + n)

/-- Whether a descriptor removes a translation; `part` is the partition of its context. -/
def removes (d : Invalidation) (part : Nat) (e : TlbEntry) : Bool :=
  match invKIND d with
  | 0 => e.part == invPART d
  | 1 => e.ctx == invCTX d && !enGLB e.leaf
  | 2 => (e.ctx == invCTX d || (enGLB e.leaf && e.part == part)) && overlapsPages e (invPAGE d) (invCOUNT d)
  | 3 => e.part == invPART d && enGLB e.leaf
  | _ => true

/-- Whether a descriptor removes a cached walk result. -/
def removesWalk (d : Invalidation) (e : WalkEntry) : Bool :=
  match invKIND d with
  | 0 => e.part == invPART d
  | 1 => e.ctx == invCTX d
  | 2 => e.ctx == invCTX d
  | 3 => e.part == invPART d
  | _ => true

/-- Every write that was translated is performed at its home. -/
def performTranslated (s : State) : State :=
  let waiting := (allStrands s).filterMap fun t => if t.vwq.isEmpty then none else some (t.mesh, t.sid)
  let s1 := waiting.foldl (fun s k => atStrand k.1 k.2 (drainVector fun _ => true) s) s
  let cores := ((s1.core :: s1.cores).filter fun c => !c.out.isEmpty).map fun c => c.mesh
  cores.foldl (fun s m => flushOut m s) s1

/-- Whether a translation leads to a line. -/
def leadsTo (line : Nat) (e : TlbEntry) : Bool :=
  let p := leafPa e.level e.leaf 0
  decide (p ≤ line * 64) && decide (line * 64 < p + 2 ^ leafBits e.level)

/-- The dirty lines of a die's slices that satisfy `p`. -/
def dirtyLines (die : Nat) (p : Nat → Bool) (s : State) : List Nat :=
  (dieAt die s).l2.flatMap fun x => x.ways.toList.filterMap fun w => w.bind fun v => if v.dirty && p v.line then some v.line else none

/-- A line of a slice made clean. -/
def cleanLine (p : Nat → Bool) (x : L2Set) : L2Set :=
  { x with ways := x.ways.map fun w => w.map fun v => if p v.line then { v with dirty := false } else v }

/-- The dirty lines of a die that satisfy `p` written back, charged to a context (R96). -/
def cleanDie (ctx die : Nat) (p : Nat → Bool) (s : State) : State :=
  (dirtyLines die p s).foldl (fun s l => writeBack die ctx l s) (modDie die (fun d => { d with l2 := d.l2.map (cleanLine p) }) s)

/-- The context that an invalidation names, to which the write-backs it forces are charged; KIND 4 names none (R96). -/
def invPays (d : Invalidation) : Nat := if invKIND d = 4 then noCtx else invCTX d

/-- The translations of every core that a descriptor removes. -/
def removedBy (d : Invalidation) (part : Nat) (s : State) : List TlbEntry :=
  (s.core :: s.cores).flatMap fun c => c.tlb.filter (removes d part)

/-- The lines to which removed translations lead are written back where they are dirty (R96; log entry 57). -/
def forceBack (d : Invalidation) (part : Nat) (s : State) : State :=
  let es := removedBy d part s
  if es.isEmpty then s else (List.range 4).foldl (fun s k => cleanDie (invPays d) k (fun l => es.any (leadsTo l)) s) s

/-- INVALIDATION_COMPLETE (R36): the oldest descriptor completes. -/
def execInvalidationComplete (s : State) : Out :=
  .next (match s.tiq with
    | [] => s
    | d :: rest =>
      let part := partOfCtx (invCTX d) s
      let s1 := forceBack d part (performTranslated s)
      { mapCores (fun c => { c with tlb := c.tlb.filter fun e => !removes d part e, walks := c.walks.filter fun e => !removesWalk d e }) s1 with
        tiq := rest, tiqdone := (s1.tiqdone + 1) % 2 ^ 32 })

/-! ## The staged start (R369) -/

/-- DIE_RESET (R369). -/
def execDieReset (die : Nat) (s : State) : Out := .next (restartDie die 0 0 false s)

/-- Whether a stage of a start can fail for a reason that the stage itself finds (R369). -/
def reasonOf (stage reason : Nat) : Bool :=
  match stage with
  | 3 => reason == 3 || reason == 4 || reason == 5 || reason == 7
  | _ => false

/-- The status of an image (R370). -/
def imageStatus (img : List (BitVec 8)) (s : State) : Nat :=
  if !Config.signatureOk img then 5 else if (Config.imageVersion img).toNat < s.fuse.toNat then 6 else 0

/-- The lane map that calibration gives a core (R378). -/
def calibratedMap (mesh base : Nat) : Word := wd (((List.range 64).map fun k => if Config.groupPasses mesh (base + k) then 2 ^ k else 0).foldl (· + ·) 0)

/-- A core after the calibration of its lane groups; one that tripped at the highest trim stays removed (R378). ALC of a core without any group is 0 (log entry 106). -/
def calibrated (c : Core) : Core :=
  let c1 := { c with
    lanemap0 := dropGroups 0 c.dropped (calibratedMap c.mesh 0), lanemap1 := dropGroups 64 c.dropped (calibratedMap c.mesh 64), trims := [] }
  { c1 with alc := min c1.alc (64 * laneGroups c1) }

/-- COREDIS of a die: its cores with fewer than 32 groups. -/
def disabledWord (die j : Nat) (s : State) : Word :=
  wd (((List.range 64).map fun k => if laneGroups (coreAt (384 * die + 64 * j + k) s) < 32 then 2 ^ k else 0).foldl (· + ·) 0)

/-- How many cores of a die are enabled. -/
def enabledCores (die : Nat) (s : State) : Nat := 384 - ((dieAt die s).coredis.toList.map fun w => popcount 64 w.toNat).foldl (· + ·) 0

/-- Whether a cell lies in DRAM that a die is the home of. -/
def homedDram (die pa : Nat) : Bool :=
  match regionOf pa with
  | .hbm => homeDie pa == die
  | .lpddr => homeDie pa == die
  | _ => false

/-- DRAM that a die is the home of written with zero and fresh check bits (R153, R369). -/
def zeroDram (die : Nat) (s : State) : State :=
  { s with mem := s.mem.filter fun c => !homedDram die c.1, bad := s.bad.filter fun w => !homedDram die (8 * w) }

/-- Stage 3 passed: DRAM is zero and the lane groups are calibrated (R153, R369, R378). -/
def memoryStage (die : Nat) (s : State) : State :=
  let s1 := mapCores (fun c => if dieOfMesh c.mesh = die then calibrated c else c) (zeroDram die s)
  modDie die (fun d => { d with coredis := Vector.ofFn fun j => disabledWord die j.1 s1 }) s1

/-- A die that reaches a stage. -/
def enterStage (die stage : Nat) (s : State) : State :=
  let s1 := modDie die (fun d => { d with stage := stage, stageAt := d.cycle, fails := if stage = 4 then 0 else d.fails }) s
  if stage = 4 ∧ s1.fuse.toNat < s1.pendingFuse.toNat then { s1 with fuse := s1.pendingFuse } else s1

/-- The end of stage 3 with its checks passed: it needs the stacks' samples (R90) and 16 enabled cores. -/
def endMemoryStage (die : Nat) (s : State) : State :=
  let d := dieAt die s
  if d.hbmDone[0] = 0 ∨ d.hbmDone[1] = 0 then s
  else
    let s1 := memoryStage die s
    if enabledCores die s1 < 16 then failStart die 6 s1 else enterStage die 4 s1

/-- The end of stage 2: the firmware package is checked, and a check that fails gives the reason (R369, R370). -/
def endVerifiedStage (die : Nat) (s : State) : State :=
  match imageStatus s.firmware s with
  | 0 => enterStage die 3 s
  | 5 => failStart die 1 s
  | _ => failStart die 2 s

/-- Whether the stage of a die runs longer than 2^32 cycles of it (R369). -/
def stageLate (d : Die) : Bool := decide (d.stageAt + 2 ^ 32 < d.cycle)

/-- STAGE_COMPLETE (R369): a stage whose checks pass leads to the next, unless its time has run out. What the check of stage 2 finds follows from the firmware package (R370). -/
def execStageComplete (die : Nat) (r : StageResult) (s : State) : Out :=
  let d := dieAt die s
  .next (if 4 ≤ die ∨ d.min ∨ d.stage = 0 ∨ 4 ≤ d.stage ∨ stageLate d then s
    else if d.stage = 2 then endVerifiedStage die s
    else
      match r with
      | .failed reason => if reasonOf d.stage reason then failStart die reason s else s
      | .passed => if d.stage = 3 then endMemoryStage die s else enterStage die 2 s)

/-- STAGE_TIMEOUT (R369). -/
def execStageTimeout (die : Nat) (s : State) : Out :=
  let d := dieAt die s
  .next (if 4 ≤ die ∨ d.min ∨ d.stage = 0 ∨ 4 ≤ d.stage ∨ !stageLate d then s else failStart die 8 s)

/-! ## Context counters (R383) -/

/-- An 8-byte atomic addition at a physical address, charged to no context. -/
def addHome (pa n : Nat) (s : State) : State :=
  let r := amo8 noCtx true pa s
  put8 true pa (r.1 + wd n) r.2

/-- A context's counts added to its record. -/
def flushContext (base : Nat) (c : CtxCounts) (s : State) : State :=
  (List.finRange 7).foldl (fun s k => addHome (base + 64 * c.ctx + 8 * k.1) c.n[k] s) s

/-- The counts of a die added to the counter array, if there is one. -/
def flushCounts (die : Nat) (s : State) : State :=
  if s.cntbase = 0 then s
  else (dieAt die s).counts.foldl (fun s c => flushContext s.cntbase.toNat c s) (modDie die (fun d => { d with counts := [] }) s)

/-- COUNTER_FLUSH (R383): every 1,048,576 cycles. -/
def execCounterFlush (die : Nat) (s : State) : Out :=
  .next (if (dieAt die s).cycle < ((dieAt die s).flushes + 1) * 1048576 then s
    else modDie die (fun d => { d with flushes := d.flushes + 1 }) (flushCounts die s))

end Sys2Proof.Machine
end

