-- ==== Sys2Proof/Machine/ScalarFp.lean ====
section
/-! DEFINITION. The scalar FP32 instructions (R207 to R209). -/

namespace Sys2Proof.Machine

/-- The value of a float register's bits. -/
def fval (w : BitVec 32) : XVal := decodeCode .fp32 w.toNat

/-- Canonical NaN (R55). -/
def nan32 : Nat := 0x7FC00000

/-- The exact sum of two values that are not NaN, with the sign of an exact zero as IEEE 754 has it; none for infinities that cancel (R207). -/
def exactAdd (rm : Rm) (x y : XVal) : Option XVal :=
  match x, y with
  | .inf s, .inf t => if s = t then some (.inf s) else none
  | .inf s, _ => some (.inf s)
  | _, .inf t => some (.inf t)
  | .fin a b za, .fin c d zc =>
    let n := a * d + c * b
    some (.fin n (b * d) (n == 0 && (if a = 0 ∧ c = 0 then (if za == zc then za else rm == .rdn) else rm == .rdn)))
  | _, _ => some .nan

/-- The exact product of two values that are not NaN; none for zero times infinity. -/
def exactMul (x y : XVal) : Option XVal :=
  match x, y with
  | .fin a b _, .fin c d _ => some (.fin (a * c) (b * d) (a * c == 0 && (x.neg? != y.neg?)))
  | .nan, _ => some .nan
  | _, .nan => some .nan
  | _, _ => if x.isZero || y.isZero then none else some (.inf (x.neg? != y.neg?))

/-- A quotient: none when it is invalid; `true` beside an infinity that a division of a finite number by zero gives. -/
def exactDiv (x y : XVal) : Option (XVal × Bool) :=
  match x, y with
  | .nan, _ => some (.nan, false)
  | _, .nan => some (.nan, false)
  | .inf _, .inf _ => none
  | .inf _, _ => some (.inf (x.neg? != y.neg?), false)
  | .fin _ _ _, .inf _ => some (.fin 0 1 (x.neg? != y.neg?), false)
  | .fin a b _, .fin c d _ =>
    if c = 0 then (if a = 0 then none else some (.inf (x.neg? != y.neg?), true))
    else some (.fin (a * d * (if c < 0 then -1 else 1)) (b * c.natAbs) (a == 0 && (x.neg? != y.neg?)), false)

/-- The result and flags of an operation with NaN operands and invalid cases settled (R207). -/
def fpResult (rm : Rm) (nanIn : Bool) (r : Option XVal) : Nat × Nat :=
  match r with
  | none => (nan32, fNV)
  | some x => if nanIn then (nan32, 0) else ieeeFp32 rm x

/-- A sum of two numbers' bits. -/
def fpAdd (rm : Rm) (a b : BitVec 32) : Nat × Nat :=
  let x := fval a
  let y := fval b
  fpResult rm (x.isNan || y.isNan) (if x.isNan || y.isNan then some .nan else exactAdd rm x y)

/-- A number with its sign turned. -/
def flipSign (a : BitVec 32) : BitVec 32 := a ^^^ 0x80000000#32

/-- A product. -/
def fpMul (rm : Rm) (a b : BitVec 32) : Nat × Nat :=
  let x := fval a
  let y := fval b
  fpResult rm (x.isNan || y.isNan) (exactMul x y)

/-- A fused product and sum with one rounding; 0 × ∞ is invalid whatever is added (R207). -/
def fpFma (rm : Rm) (a b c : BitVec 32) : Nat × Nat :=
  let x := fval a
  let y := fval b
  let z := fval c
  let n := x.isNan || y.isNan
  match (if n then some .nan else exactMul x y) with
  | none => (nan32, fNV)
  | some p => if n || z.isNan then (nan32, 0) else fpResult rm false (exactAdd rm p z)

/-- A quotient; a finite number over zero gives an infinity and sets OF (R207). -/
def fpDiv (rm : Rm) (a b : BitVec 32) : Nat × Nat :=
  let x := fval a
  let y := fval b
  match exactDiv x y with
  | none => (nan32, fNV)
  | some (q, byZero) => if x.isNan || y.isNan then (nan32, 0) else if byZero then ((ieeeFp32 rm q).1, fOF) else ieeeFp32 rm q

/-- The floor of a square root: Newton's steps from above, at most `fuel` of them. -/
def sqrtStep : Nat → Nat → Nat → Nat
  | 0, _, x => x
  | k + 1, n, x =>
    let y := (x + n / x) / 2
    if y < x then sqrtStep k n y else x

def isqrt (n : Nat) : Nat := if n = 0 then 0 else sqrtStep (n.log2 + 4) n (2 ^ (n.log2 / 2 + 1))

/-- A value that rounds as the square root of a positive fraction does: the root to 64 bits below its leading ones, with a last bit that
tells whether more follows. -/
def sqrtFrac (n d : Nat) : XVal :=
  let k : Int := (160 - (floorLog2 n d)) / 2
  let p := scale2 n d (2 * k)
  let q := p.1.toNat / p.2
  let r := isqrt q
  let exact := r * r * p.2 == p.1.toNat
  let v := scale2 (2 * r + (if exact then 0 else 1) : Nat) 1 (-k - 1)
  .fin v.1 v.2 false

/-- A square root; below -0 it is invalid (R207, R208). -/
def fpSqrt (rm : Rm) (a : BitVec 32) : Nat × Nat :=
  match fval a with
  | .nan => (nan32, 0)
  | .inf s => if s then (nan32, fNV) else (infCode .fp32 false, 0)
  | .fin n d z => if n < 0 then (nan32, fNV) else if n = 0 then (zeroCode .fp32 z, 0) else ieeeFp32 rm (sqrtFrac n.toNat d)

/-- Order with -0 below +0 (R208). -/
def fpBelow (x y : XVal) : Bool := x.lt y || (x.eqv y && x.neg? && !y.neg?)

/-- FMIN and FMAX: the operand that is not NaN, else the smaller or larger (R208). -/
def fpPick (larger : Bool) (a b : BitVec 32) : BitVec 32 :=
  let x := fval a
  let y := fval b
  if x.isNan && y.isNan then BitVec.ofNat 32 nan32
  else if x.isNan then b
  else if y.isNan then a
  else if fpBelow x y != larger then a else if fpBelow y x != larger then b else a

/-- The write of a float result with its flags. -/
def putF (d : FReg) (r : Nat × Nat) (s : State) : State := advance (raise r.2 (setF d (BitVec.ofNat 32 r.1) s))

/-- FADD (R208). -/
def execFadd (d a b : FReg) (s : State) : Out := .next (putF d (fpAdd (scalarRm s.me) (fR a s) (fR b s)) s)

/-- FSUB (R208). -/
def execFsub (d a b : FReg) (s : State) : Out := .next (putF d (fpAdd (scalarRm s.me) (fR a s) (flipSign (fR b s))) s)

/-- FMUL (R208). -/
def execFmul (d a b : FReg) (s : State) : Out := .next (putF d (fpMul (scalarRm s.me) (fR a s) (fR b s)) s)

/-- FMA (R208). -/
def execFma (d a b c : FReg) (s : State) : Out := .next (putF d (fpFma (scalarRm s.me) (fR a s) (fR b s) (fR c s)) s)

/-- FDIV (R208). -/
def execFdiv (d a b : FReg) (s : State) : Out := .next (putF d (fpDiv (scalarRm s.me) (fR a s) (fR b s)) s)

/-- FSQRT (R208). -/
def execFsqrt (d a : FReg) (s : State) : Out := .next (putF d (fpSqrt (scalarRm s.me) (fR a s)) s)

/-- FMIN (R208). -/
def execFmin (d a b : FReg) (s : State) : Out := .next (advance (setF d (fpPick false (fR a s) (fR b s)) s))

/-- FMAX (R208). -/
def execFmax (d a b : FReg) (s : State) : Out := .next (advance (setF d (fpPick true (fR a s) (fR b s)) s))

/-- The relation of FCMP and whether it raises NV: EQ, LT, LE, UN (R208). -/
def fpCompare (q : Nat) (x y : XVal) : Bool × Bool :=
  let n := x.isNan || y.isNan
  match q with
  | 0 => (!n && x.eqv y, false)
  | 1 => (!n && x.lt y, n)
  | 2 => (!n && (x.lt y || x.eqv y), n)
  | _ => (n, false)

/-- FCMP (R208). -/
def execFcmp (d : GReg) (a b : FReg) (q : BitVec 2) (s : State) : Out :=
  let r := fpCompare q.toNat (fval (fR a s)) (fval (fR b s))
  .next (advance (raise (if r.2 then fNV else 0) (setG d (if r.1 then 1 else 0) s)))

/-- A float rounded to an integer within bounds (R209). -/
def fpToInt (rm : Rm) (lo hi : Int) (a : BitVec 32) : Int × Nat :=
  match fval a with
  | .nan => (0, fNV)
  | .inf s => (if s then lo else hi, fNV)
  | .fin n d _ =>
    let r := roundInt ⟨rm, false, 0, 0, 0, 0⟩ n d
    if r.1 < lo then (lo, fNV) else if hi < r.1 then (hi, fNV) else (r.1, if r.2 then 0 else fNX)

/-- FCVT.S64 (R209). -/
def execFcvtS64 (d : GReg) (a : FReg) (s : State) : Out :=
  let r := fpToInt (scalarRm s.me) (-(2 ^ 63)) (2 ^ 63 - 1) (fR a s)
  .next (advance (raise r.2 (setG d (BitVec.ofInt 64 r.1) s)))

/-- FCVT.N64 (R209). -/
def execFcvtN64 (d : GReg) (a : FReg) (s : State) : Out :=
  let r := fpToInt (scalarRm s.me) 0 (2 ^ 64 - 1) (fR a s)
  .next (advance (raise r.2 (setG d (BitVec.ofInt 64 r.1) s)))

/-- FCVT.F.S64 (R209). -/
def execFcvtFS64 (d : FReg) (a : GReg) (s : State) : Out := .next (putF d (ieeeFp32 (scalarRm s.me) (.ofInt (gR a s).toInt)) s)

/-- FCVT.F.N64 (R209). -/
def execFcvtFN64 (d : FReg) (a : GReg) (s : State) : Out := .next (putF d (ieeeFp32 (scalarRm s.me) (.ofInt (gR a s).toNat)) s)

/-- FCVT.BITS (R209). -/
def execFcvtBits (d : GReg) (a : FReg) (s : State) : Out := .next (advance (setG d (wd (fR a s).toNat) s))

/-- FCVT.F.BITS (R209). -/
def execFcvtFBits (d : FReg) (a : GReg) (s : State) : Out := .next (advance (setF d (BitVec.ofNat 32 (gR a s).toNat) s))

end Sys2Proof.Machine
end

