-- ==== Sys2Proof/Machine/Fetch.lean ====
section
/-! DEFINITION. Fetching an instruction (R178, R182, R404), the traps at the boundary before it (R336), and when a strand may move. -/

namespace Sys2Proof.Machine

/-! ## Instruction-side copies (R404) -/

/-- A line used or filled: it moves to the front, and its set keeps 4 ways. -/
def icopyFill (x : ICopy) (xs : List ICopy) : List ICopy :=
  keepClass (fun y => y.line % 128 == x.line % 128) 4 (x :: xs.filter fun y => y.line != x.line)

/-- The line of a physical address among the instruction-side copies, brought there through the L1 if it is not. -/
def icopyOf (pa : Nat) (s : State) : ICopy × State :=
  match s.core.icopies.find? fun x => x.line == pa / 64 with
  | some x => (x, onCore (fun c => { c with icopies := icopyFill x c.icopies }) (joinRead (pa / 64) s))
  | none =>
    let s1 := fillCopy s.me.mesh s.me.ctx (s.me.pc.toNat / 64) (pa / 64) s
    let x : ICopy := ⟨pa / 64, (List.range 64).map fun k => coreByte s1.me.mesh (.mem (pa / 64 * 64 + k)) s1⟩
    (x, onCore (fun c => { c with icopies := icopyFill x c.icopies }) s1)

/-- The bytes of a word that is fetched through a WB leaf. -/
def icopyBytes : Nat → Nat → State → List (BitVec 8) × State
  | 0, _, s => ([], s)
  | n + 1, pa, s =>
    let x := icopyOf pa s
    let r := icopyBytes n (pa + 1) x.2
    (x.1.data.getD (pa % 64) 0 :: r.1, r.2)

/-! ## The loop buffer (R178) -/

/-- Whether an address stands in the body of an active loop that fits the loop buffer. -/
def inShortLoop (t : Strand) (pc : Word) : Bool :=
  t.lc.toList.any fun l => l.act && decide (l.start ≤ pc) && decide (pc ≤ l.last) && decide (l.last.toNat - l.start.toNat < 256 * 4)

/-- A word kept in the loop buffer while a short loop runs; words of no active short body have left it. -/
def keepWord (w : Nat) (t : Strand) : Strand :=
  { t with
    loopBuf := (t.loopBuf.filter fun p => inShortLoop t p.1 && p.1 != t.pc) ++ (if inShortLoop t t.pc then [(t.pc, BitVec.ofNat 32 w)] else []) }

/-! ## Fetch -/

/-- The strand's queued stores performed before a fetch that they reach, as one access follows another on the scalar path; a store that faults there traps
before the fetch (R103, R104, R341). -/
def fetchAfter (p : Loc → Bool) (s : State) : Res Unit :=
  if queuedIn p s then (let s1 := drainQueue s; if storeTrapDue s1 then .stop (storeTrap s1) else .ok () s1) else .ok () s

/-- The locations in the line of a physical address. -/
def inLine (pa : Nat) : Loc → Bool
  | .mem a => a / 64 == pa / 64
  | .scratch _ _ => false

/-- The instruction word at pc: from the loop buffer, through the instruction-side copies, or, through a leaf that is not WB, from its home. -/
def fetchWord (s : State) : Res Nat :=
  match (if inShortLoop s.me s.me.pc then s.me.loopBuf.find? fun p => p.1 == s.me.pc else none) with
  | some p => .ok p.2.toNat s
  | none =>
    match translate (reqOf s.me) .fetch 4 s.me.pc s with
    | (.error x, s1) => .stop (xlate .fetch s1.me.pc x s1)
    | (.ok (.mem pa .wb), s1) =>
      (if s1.core.icopies.any fun x => x.line == pa / 64 then .ok () s1 else fetchAfter (inLine pa) s1).bind fun _ s2 =>
        let r := icopyBytes 4 pa s2
        .ok (natOf r.1) (onMe (keepWord (natOf r.1)) r.2)
    | (.ok t, s1) =>
      let ls := (List.range 4).map fun k => targetLoc t k
      (fetchAfter (fun l => ls.contains l) s1).bind fun _ s2 =>
        let r := homeRead s2.me.ctx false ls (settle .scalar ls s2)
        .ok (natOf r.1) (onMe (keepWord (natOf r.1)) r.2)

/-- The trap of a word that is no instruction (R187, R335). -/
def illinsn (w : Nat) (s : State) : State := trapHere ⟨1, 0, 0, 0, wd w, 0, 0, 0⟩ s

/-- What stands at pc: an instruction, or the state that a trap at this boundary leads to (R336). An instruction that waits for a remote reply has begun, and a fault of the
handler's own store ends its work group (R339). -/
def fetchInstr (s : State) : Res Instr :=
  if s.me.doubleFault then .stop (terminateMine 2 s)
  else if storeTrapDue s && s.me.call.isNone then .stop (storeTrap s)
  else
    (fetchWord s).bind fun w s =>
      match decode w with
      | .ok i => .ok i s
      | .error _ => .stop (illinsn w s)

/-! ## When a strand moves -/

/-- Whether the strand waits for a write that has not been performed (R223). -/
def asleep (s : State) : Bool := s.watches.any fun w => w.mesh == s.me.mesh && w.sid == s.me.sid && !w.hit

/-- Whether the launch of a strand is being saved, or is not placed any more. -/
def launchHeld (s : State) : Bool := (launchAt s.me.launch s).any fun l => l.st != .placed

/-- Whether a core runs its strands: it has power, and if it is powering down its shadow write has not begun (R151, R368). -/
def hasPower (c : Core) : Bool := c.pwr == 0 || (c.pwr == 1 && (c.downRequest || c.shRequest))

/-- Whether a bank still holds a request for data that a strand waits for (R395). -/
def waitsForBank (t : Strand) (s : State) : Bool := waitsAtBank (fun w => w == .strand t.mesh t.sid) s

/-- Whether a store of the strand is held back by a full queue of records, which its handler empties (R341). -/
def heldBack (t : Strand) : Bool := !t.stq.isEmpty && decide (queueDepth ≤ t.sfq.length)

/-- Whether a pre-emption has asked the strand to stop and it stands at a boundary, where it takes a trap that is due before it stops (R352). A strand in the midst of a remote access, or
whose handler makes room for its stores, has not come there. -/
def atStop (s : State) : Bool := s.me.stopping && launchHeld s && s.me.call.isNone && !heldBack s.me

/-- Whether the strand may execute an instruction: it runs, its core has power and makes no shadow, its launch is placed, and it waits for no seal,
no write and no bank (R147, R156, R223, R350, R368, R395). A strand whose launch is being saved still ends an instruction that has a remote access under way, its handler
still makes room for its stores, and each of them takes a trap that is due where it stops (R352). -/
def mayRun (s : State) : Bool :=
  s.me.life == .running && hasPower s.core && s.core.shTargets.isNone && s.core.shWriting.isNone &&
    !s.core.shWaiters.contains s.me.sid && (!launchHeld s || s.me.call.isSome || heldBack s.me || s.me.stopping) && !asleep s && !waitsForBank s.me s

end Sys2Proof.Machine
end

