-- ==== Sys2Proof/Machine/System.lean ====
section
/-! DEFINITION. The system instructions: control registers (R215 to R217, R337), FEAT (R218, R219), TRAP and ERET (R220, R340), END (R221), WFE, YIELD, FENCE.I and
hints (R187, R223 to R225). -/

namespace Sys2Proof.Machine

/-! ## Reading control registers -/

/-- MVL (R271). -/
def mvlWord (s : State) : Word := wd (s.core.fmt * 2 ^ 24 + s.me.nbl * 2 ^ 16 + s.me.mvl)

/-- The island of the core whose turn it is, and its die. -/
def myIsland (s : State) : Island := (dieAt (dieOfMesh s.me.mesh) s).islands[fin 12 (by decide) (islandOf s.me.mesh)]

/-- The two HBM4 stacks of a die (R95). -/
def stacksOf (d : Die) : List Ctrl := [d.ctrls[0], d.ctrls[1]]

/-- TALLOW (R380). -/
def tallow (s : State) : Word :=
  let i := myIsland s
  let cs := stacksOf (dieAt (dieOfMesh s.me.mesh) s)
  wd (i.therm + (cs.map fun c => c.temp).foldl max 0 * 2 ^ 16 + (cs.any fun c => c.dbl).toNat * 2 ^ 24 + i.press.toNat * 2 ^ 25 + i.q * 2 ^ 32)

/-- A loop register (R217). -/
def loopWord (l : Loop) : Word := wd (l.act.toNat * 2 ^ 63 + l.count.toNat)

/-- The oldest store-fault record, zero when there is none. -/
def oldestRecord (t : Strand) : SfRec := t.sfq.headD ⟨0, 0, 0, 0⟩

/-- The value of a control register (R215, R217, R337). Registers that are written only read as zero (R7). -/
def csrRead (n : Nat) (s : State) : Word :=
  let t := s.me
  match n with
  | 0x000 => wd t.vl
  | 0x001 => wd vlmax
  | 0x002 => wd s.core.alc
  | 0x003 => wd t.six
  | 0x004 => t.hwm
  | 0x005 => t.mode
  | 0x006 => t.seed
  | 0x007 => t.sbase
  | 0x008 => mvlWord s
  | 0x009 => tagReady s
  | 0x00A => t.vflags
  | 0x00B => t.rcause
  | 0x00C => tallow s
  | 0x00D => t.patchbase
  | 0x00E => wd t.sid
  | 0x00F => t.rectpos
  | 0x010 => loopWord t.lc[0]
  | 0x011 => loopWord t.lc[1]
  | 0x012 => loopWord t.lc[2]
  | 0x013 => wd (now s)
  | 0x100 => t.tvec
  | 0x101 => t.tcause
  | 0x102 => t.tepc
  | 0x103 => t.tstat
  | 0x104 => t.tsix
  | 0x105 => t.trec[0]
  | 0x106 => t.trec[1]
  | 0x107 => t.trec[2]
  | 0x108 => t.trec[3]
  | 0x109 => t.tscr
  | 0x10A => wd t.sfq.length
  | 0x10B => (oldestRecord t).w0
  | 0x10C => (oldestRecord t).w1
  | 0x10D => (oldestRecord t).w2
  | 0x10E => (oldestRecord t).w3
  | _ => 0

/-- Whether a control register's accesses are ordered V or R (R215). -/
def csrOrdered (n : Nat) : Bool := n == 0 || (3 ≤ n && n ≤ 8) || n == 0x0A

/-- What every access of a control register meets: trap registers are privileged, and a handler makes no ordered access (R215, R339). -/
def csrOpen (i : Instr) (n : Nat) (s : State) : Res Unit :=
  require i (!(decide (0x100 ≤ n) && !s.me.priv) && !(csrOrdered n && inHandler s.me)) s

/-- CSRR (R215). -/
def execCsrr (d : GReg) (c : BitVec 9) (s : State) : Out :=
  ((csrOpen (.csrr d c) c.toNat s).bind fun _ s => .ok () (advance (setG d (csrRead c.toNat s) s))).out

/-! ## Writing control registers -/

/-- HWM raised by a privileged CSRW (R215). -/
def hwmRaised (h v : Word) : Word :=
  wd (max (fld h 48 5) (fld v 48 5) * 2 ^ 48 + max (fld h 32 15) (fld v 32 15) * 2 ^ 32 + (fld h 0 32 ||| fld v 0 32))

/-- Whether CSRW may write a value to a control register (R191, R215, R216, R337). -/
def csrAllowed (n : Nat) (v : Word) (t : Strand) : Bool :=
  match n with
  | 0x000 => t.priv && decide (v.toNat ≤ vlmax)
  | 0x003 => v.toNat % 64 == 0 && decide (v.toNat < vlmax)
  | 0x004 => t.priv && fld v 53 11 == 0 && fld v 47 1 == 0
  | 0x005 => !modeIllegal v
  | 0x006 => true
  | 0x007 => true
  | 0x00A => fld v 12 52 == 0
  | 0x010 => true
  | 0x011 => true
  | 0x012 => true
  | 0x100 => true
  | 0x102 => true
  | 0x103 => true
  | 0x104 => true
  | 0x109 => true
  | 0x10F => true
  | 0x110 => true
  | _ => false

/-- COUNT of a loop written (R213). -/
def setCount (k : Fin 3) (v : Word) (t : Strand) : Strand := { t with lc := t.lc.set k { t.lc[k] with count := BitVec.ofNat 32 v.toNat } }

/-- The strand with a control register written; the registers whose writes act are not here. -/
def csrWritten (n : Nat) (v : Word) (t : Strand) : Strand :=
  match n with
  | 0x000 => { t with vl := v.toNat }
  | 0x003 => { t with six := v.toNat }
  | 0x004 => { t with hwm := hwmRaised t.hwm v }
  | 0x005 => { t with mode := v }
  | 0x006 => { t with seed := v }
  | 0x007 => { t with sbase := v }
  | 0x00A => { t with vflags := v }
  | 0x010 => setCount 0 v t
  | 0x011 => setCount 1 v t
  | 0x012 => setCount 2 v t
  | 0x100 => { t with tvec := wd (fld v 2 55 * 4) }
  | 0x102 => { t with tepc := v }
  | 0x103 => { t with tstat := wd (fld v 2 1 * 4 + fld t.tstat 1 1 * 2 + fld v 0 1) }
  | 0x104 => { t with tsix := wd (sixOf v) }
  | 0x109 => { t with tscr := v }
  | 0x10F => { t with sfq := t.sfq.drop 1 }
  | _ => t

/-- REASON of a write to WGTERM (R346). -/
def wgReason (v : Word) : Nat := if 1 ≤ fld v 0 4 ∧ fld v 0 4 ≤ 4 then fld v 0 4 else 1

/-- CSRW (R215). A write to WGTERM ends the work group (R346). -/
def execCsrw (a : GReg) (c : BitVec 9) (s : State) : Out :=
  ((csrOpen (.csrw a c) c.toNat s).bind fun _ s =>
    let v := gR a s
    (require (.csrw a c) (csrAllowed c.toNat v s.me) s).bind fun _ s =>
      if c.toNat = 0x110 then .ok () (terminateMine (wgReason v) s) else .ok () (advance (onMe (csrWritten c.toNat v) s))).out

/-- WGTERM: a write to it by the strand, which is privileged (R337, R346). -/
def execWgterm (v : Word) (s : State) : Out := .next (if s.me.priv then terminateMine (wgReason v) s else s)

/-- SFPOP: a write to it by the strand, which is privileged, removes the oldest record (R337). -/
def execSfpop (s : State) : Out := .next (if s.me.priv then onMe (csrWritten 0x10F 0) s else s)

/-! ## FEAT -/

/-- The feature words of Z9 (R219). -/
def featureWord (k : Word) : Word :=
  match k.toNat with
  | 0 => wd (0x0001 + Config.siliconStep % 256 * 2 ^ 16)
  | 1 => 0x0000010003000D0E
  | 2 => 0x00000000070F03FF
  | 3 => 0x0000100C08601004
  | 4 => 0x000000FEA540FA50
  | 5 => 0x00000000FFAA5500
  | _ => 0

/-- FEAT (R218). -/
def execFeat (d a : GReg) (i : BitVec 14) (s : State) : Out :=
  ((immValue i s).bind fun k s => .ok () (advance (setG d (featureWord (gR a s + k)) s))).out

/-! ## Traps -/

/-- TRAP (R220, R338): the return point is the next instruction. -/
def execTrap (k : BitVec 19) (s : State) : Out :=
  ((notFinal (.trap k) s).bind fun _ s => .ok () (takeTrap ⟨8, 0, 0, k.toNat, 0, 0, 0, 0⟩ (s.me.pc + 4) s)).out

/-- ERET (R220, R340). -/
def execEret (s : State) : Out :=
  ((notFinal .eret s).bind fun _ s =>
    (require .eret (s.me.priv && s.me.sfq.isEmpty) s).bind fun _ s => .ok () (onMe leaveHandler s)).out

/-- The handler's first state, where a trap is due at the boundary before the instruction at pc: of a store fault, of the fetch, or of a word that is no instruction (R336). -/
def boundaryTrap (s : State) : Option State :=
  if mayRun s && s.me.call.isNone && !inHandler s.me then
    match fetchInstr s with
    | .stop s1 => if inHandler s1.me then some s1 else none
    | .ok _ _ => none
  else none

/-- Whether a strand in its handler holds the record of a trap (R335, R337). -/
def holdsTrap (i : TrapInfo) (t : Strand) : Bool := t.tcause == causeWord i && t.trec == #v[i.rec0, i.rec1, i.rec2, i.rec3]

/-- TRAP_ENTRY: the trap that is due before the instruction at pc is taken, if its record is the one named; the trap of an instruction that is executed belongs to the instruction's own
step (R335, R336, R338; log entry 39). -/
def execTrapEntry (i : TrapInfo) (s : State) : Out :=
  .next (match boundaryTrap s with
    | some s1 => if holdsTrap i s1.me then s1 else s
    | none => s)

/-! ## END (R221) -/

/-- The completion word with one more strand ended (R222). -/
def endedWord (flags : Word) (w : Word) : Word := (w ||| wd (fld flags 0 12)) + wd (2 ^ 32)

/-- The latches a strand holds, by rising address. -/
def heldLatches (t : Strand) : List Word := sortBy (fun a b => decide (a < b)) (t.latches.map fun l => l.va)

/-- The latches of a list released in turn. -/
def releaseHeld : List Word → State → Res Unit
  | [], s => .ok () s
  | va :: rest, s => (releaseLatch .endStrand va s).bind fun _ s => releaseHeld rest s

/-- The atomic on the completion word; a fault of its translation is raised at END (R221). It is no access that may be remote, whatever the state of the port (R382). -/
def completionWord (s : State) : Res Unit :=
  let va := s.me.compl
  if fld va 57 7 == 0 && (routeOf s.me.ctx va.toNat s).isSome then .stop (xlate .atomic va ⟨xATTRIBUTE, 0, 0, false⟩ s)
  else
  match translate (reqOf s.me) .atomic 8 va s with
  | (.error x, s1) => .stop (xlate .atomic va x s1)
  | (.ok (.remote _), s1) => .stop (xlate .atomic va ⟨xATTRIBUTE, 0, 0, false⟩ s1)
  | (.ok t, s1) => (rmwHome va t 8 (endedWord s1.me.vflags) s1).bind fun _ s => .ok () s

/-- The strand ended: its planes, landing-buffer slots and stream slots are released, a shadow write that records it is asked for, and its launch may have finished (R221, steps 5
and 6). Its registers keep their values. -/
def endStep (s : State) : State :=
  finishIfDone s.me.launch (onCore (fun c => { c with shRequest := true }) (onMe (released .ended) (freeGrant s.me s)))

/-- END (R221). -/
def execEndStrand (s : State) : Out :=
  ((notFinal .endStrand s).bind fun _ s =>
    (deliverStores s).bind fun _ s =>
      (drainAll s).bind fun _ s =>
        let ks := grantTags s.me
        if ks.any fun k => (tagAt k s).st == .busy then .stop s
        else
          (deliverFirst ks s).bind fun _ s =>
            let s1 := ks.foldl (fun s k => mergeTag k s) s
            (releaseHeld (heldLatches s1.me) s1).bind fun _ s =>
              (fenceAll 5 s).bind fun _ s =>
                (completionWord s).bind fun _ s => .ok () (endStep s)).out

/-! ## WFE, YIELD, FENCE.I, hints -/

/-- WFE (R223). -/
def execWfe (d a b : GReg) (s : State) : Out :=
  let va := gR a s
  ((require (.wfe d a b) (va.toNat % 8 == 0) s).bind fun _ s =>
    (readHome8 va s).bind fun r s =>
      if r.1 ≠ gR b s then .ok () (advance (setG d r.1 (unwatch s))) else .stop (waitFor (targetLoc r.2 0) s)).out

/-- YIELD (R224): no effect on architectural state. -/
def execYield (s : State) : Out := .next (advance s)

/-- The L1's copy of the line that the next instruction stands in discarded, so that it is fetched at its home (R225, step 3). -/
def dropNextLine (s : State) : State :=
  match (translate (reqOf s.me) .fetch 4 s.me.pc s).1 with
  | .ok (.mem pa .wb) =>
    modCore (copyHolder s.me.mesh (pa / 64) s) (fun c => { c with copies := c.copies.filter fun x => x.line != pa / 64 }) s
  | _ => s

/-- FENCE.I (R225). -/
def execFenceI (s : State) : Out :=
  ((drainAll s).bind fun _ s =>
    .ok () (dropNextLine (advance
      (onMe (fun t => { t with loopBuf := [], patch := [] }) (onCore (fun c => { c with icopies := [] }) s))))).out

/-- A hint-group word: a no-op (R187). -/
def execHint (_ : Fin 31) (_ : BitVec 24) (s : State) : Out := .next (advance s)

end Sys2Proof.Machine
end

