-- ==== Sys2Proof/Machine/VInt.lean ====
section
/-! DEFINITION. Element-wise integer instructions of the plane array (R228 to R230, R237 to R245). -/

namespace Sys2Proof.Machine

/-! ## Fitting (R67, R228) -/

/-- MinF and MaxF of an integer kind. -/
def intMin : Kind → Int
  | .s w => -(2 ^ (w - 1) : Int)
  | _ => 0
def intMax : Kind → Int
  | .s w => 2 ^ (w - 1) - 1
  | k => 2 ^ k.width - 1

/-- The code of an integer in `w` bits of two's complement. -/
def lowCode (w : Nat) (x : Int) : Nat := (x % (2 ^ w : Int)).toNat

/-- Fit (R228): the code, with SAT when saturation changed the value. -/
def fit (k : Kind) (sat : Bool) (x : Int) : Nat × Nat :=
  if sat then
    let y := clampInt x (intMin k) (intMax k)
    (lowCode k.width y, if y = x then 0 else fSAT)
  else (lowCode k.width x, 0)

/-! ## The second operand -/

/-- Element `i` of the second operand: a register's, or the scalar's for every `i` (R228). -/
def second (x : Bool) (b : Fin 32) (s : State) (i : Nat) : Int := if x then (gR b s).toInt else elemInt (vSrc b s) i

/-- Whether the second operand may stand beside a first of kind `k`: an integer register, or a scalar in the kind's range (R228, R230). -/
def secondOk (x : Bool) (b : Fin 32) (k : Kind) (s : State) : Bool :=
  if x then decide (intMin k ≤ (gR b s).toInt) && decide ((gR b s).toInt ≤ intMax k) else isInt (vKind (vSrc b s))

/-- The second operand as a source. -/
def secondSrc (x : Bool) (b : Fin 32) (s : State) : List (Fin 32 × VReg) := if x then [] else [src b s]

/-! ## Planes that are skipped (R48, R246, R252) -/

/-- Whether a plane of a register is zero in the segments of a beat, as plane-pair skipping asks (R48, R252). -/
def planeZero (r : VReg) (p lo hi : Nat) : Bool := field (planeAt r p).toNat lo (hi - lo) == 0

/-- The last element of the beat that begins at `lo`, with the segment that ends it. -/
def beatEnd (s : State) (lo : Nat) : Nat := min (lo + groupSize s) (64 * ceilDiv s.me.vl 64)

/-- A source without the marks of planes that plane-pair skipping passes over in a beat (R48, R252); `live` tells whether the other operand has a plane that is not zero in a beat. -/
def skipped (r : Fin 32 × VReg) (live : Nat → Nat → Bool) (s : State) : Fin 32 × VReg :=
  let read (m : PoisonMark) : Bool :=
    let lo := groupOf s (m.seg * 64)
    live lo (beatEnd s lo) && !planeZero r.2 m.plane lo (beatEnd s lo)
  (r.1, { r.2 with poison := r.2.poison.filter read })

/-- Whether some plane of a register is not zero in a beat. -/
def anyLive (r : VReg) (lo hi : Nat) : Bool := (List.range r.planes.length).any fun p => !planeZero r p lo hi

/-- The sources of a multiplication, without what it skips. -/
def productSrcs (a : VRegN) (b : Fin 32) (x : Bool) (s : State) : List (Fin 32 × VReg) :=
  let va := vSrc a s
  if x then [skipped (src a s) (fun _ _ => gR b s != 0) s]
  else [skipped (src a s) (anyLive (vSrc b s)) s, skipped (src b s) (anyLive va) s]

/-! ## Arithmetic (R237) -/

/-- An element-wise integer instruction with one or two sources: `f` is given the previous destination element, A and B. -/
def vint (i : Instr) (d a : VRegN) (b : Fin 32) (x : Bool) (two sat : Bool) (srcs : State → List (Fin 32 × VReg)) (f : Int → Int → Int → Int) (s : State) : Out :=
  ((vqueue i s).bind fun _ s =>
    let va := vSrc a s
    let vd := vSrc d s
    (require i (isInt (vKind va) && isInt (vKind vd) && (!two || secondOk x b (vKind va) s)) s).bind fun _ s =>
      (fits i d vd.tag s).bind fun _ s =>
        .ok () (elementwise d (srcs s) vd.tag (active s.me)
          (fun k => fit (vKind vd) sat (f (elemInt vd k) (elemInt va k) (if two then second x b s k else 0))) (scalesOf va vd.tag) s)).out

/-- VADD (R237). -/
def execVadd (d a : VRegN) (b : Fin 32) (x c : Bool) (s : State) : Out :=
  vint (.vadd d a b x c) d a b x true c (fun s => src a s :: secondSrc x b s) (fun _ p q => p + q) s

/-- VSUB (R237). -/
def execVsub (d a : VRegN) (b : Fin 32) (x c : Bool) (s : State) : Out :=
  vint (.vsub d a b x c) d a b x true c (fun s => src a s :: secondSrc x b s) (fun _ p q => p - q) s

/-- VMUL (R237). -/
def execVmul (d a : VRegN) (b : Fin 32) (x c : Bool) (s : State) : Out :=
  vint (.vmul d a b x c) d a b x true c (productSrcs a b x) (fun _ p q => p * q) s

/-- VMAC (R237): it reads its destination. -/
def execVmac (d a : VRegN) (b : Fin 32) (x c : Bool) (s : State) : Out :=
  vint (.vmac d a b x c) d a b x true c (fun s => src d s :: productSrcs a b x s) (fun r p q => r + p * q) s

/-- VNEG (R237). -/
def execVneg (d a : VRegN) (c : Bool) (s : State) : Out :=
  vint (.vneg d a c) d a 0 false false c (fun s => [src a s]) (fun _ p _ => -p) s

/-- VABS (R237). -/
def execVabs (d a : VRegN) (c : Bool) (s : State) : Out :=
  vint (.vabs d a c) d a 0 false false c (fun s => [src a s]) (fun _ p _ => (p.natAbs : Int)) s

/-- VMIN (R237). -/
def execVmin (d a : VRegN) (b : Fin 32) (x c : Bool) (s : State) : Out :=
  vint (.vmin d a b x c) d a b x true c (fun s => src a s :: secondSrc x b s) (fun _ p q => min p q) s

/-- VMAX (R237). -/
def execVmax (d a : VRegN) (b : Fin 32) (x c : Bool) (s : State) : Out :=
  vint (.vmax d a b x c) d a b x true c (fun s => src a s :: secondSrc x b s) (fun _ p q => max p q) s

/-! ## Bitwise (R238) -/

/-- A code extended to `w` planes: sN repeats its top plane, every other kind adds zero planes, and planes above are dropped. -/
def extended (k : Kind) (w c : Nat) : Nat :=
  match k with
  | .s n => lowCode w (signExtend c n)
  | k => c % 2 ^ k.width % 2 ^ w

/-- Whether an integer lies in the range of a kind, MinF to MaxF (R67, R228). -/
def inRange (k : Kind) (x : Int) : Bool :=
  let hi := scale2 k.maxF.1 1 k.maxF.2
  let lo := scale2 k.minF.1 1 k.minF.2
  decide (x * hi.2 ≤ hi.1) && decide (lo.1 ≤ x * lo.2)

/-- A bitwise instruction over codes; a scalar operand lies in the range of va's kind (R228, R238). -/
def vbits (i : Instr) (d a : VRegN) (b : Fin 32) (x two : Bool) (f : Nat → Nat → Nat → Nat) (s : State) : Out :=
  ((vqueue i s).bind fun _ s =>
    let va := vSrc a s
    let vb := vSrc b s
    let vd := vSrc d s
    let w := vWidth vd
    (require i (!x || inRange (vKind va) (gR b s).toInt) s).bind fun _ s =>
     (fits i d vd.tag s).bind fun _ s =>
      .ok () (elementwise d (src a s :: (if two then secondSrc x b s else [])) vd.tag (active s.me)
        (fun k => (f w (extended (vKind va) w (elem va k)) (if x then (gR b s).toNat % 2 ^ w else extended (vKind vb) w (elem vb k)) % 2 ^ w, 0))
        (scalesOf va vd.tag) s)).out

/-- VAND (R238). -/
def execVand (d a : VRegN) (b : Fin 32) (x : Bool) (s : State) : Out := vbits (.vand d a b x) d a b x true (fun _ p q => p &&& q) s

/-- VOR (R238). -/
def execVor (d a : VRegN) (b : Fin 32) (x : Bool) (s : State) : Out := vbits (.vor d a b x) d a b x true (fun _ p q => p ||| q) s

/-- VXOR (R238). -/
def execVxor (d a : VRegN) (b : Fin 32) (x : Bool) (s : State) : Out := vbits (.vxor d a b x) d a b x true (fun _ p q => p ^^^ q) s

/-- VNOT (R238). -/
def execVnot (d a : VRegN) (s : State) : Out := vbits (.vnot d a) d a a false false (fun w p _ => 2 ^ w - 1 - p) s

/-! ## Shifts and width changes (R239, R240) -/

/-- The plane of a register that a shifted position takes: below plane 0 a zero plane, above the top plane the sign or zero; the number names the source
plane when there is one. -/
def shiftedPlane (r : VReg) (p : Int) : Plane × Option Nat :=
  let w := vWidth r
  if p < 0 then (0, none)
  else if p < w then (planeAt r p.toNat, some p.toNat)
  else match vKind r with
    | .s _ => (planeAt r (w - 1), some (w - 1))
    | _ => (0, none)

/-- A register whose planes are another's, moved up by `k` places (R234, R239): all elements, with their poison. -/
def renumbered (tag : BitVec 16) (vl : Nat) (k : Int) (r : VReg) : VReg where
  tag := tag
  planes := (List.range (tagWidth tag)).map fun (b : Nat) => (shiftedPlane r ((b : Int) - k)).1
  scale :=
    let l := blockLen tag
    if l = 0 then 0
    else BitVec.ofNat 16384 (packBytes ((List.range (vlmax / l)).map fun j => if j * l < vl then scalesOf r tag j else 0x7F))
  poison := (List.range (tagWidth tag)).flatMap fun (b : Nat) =>
    match (shiftedPlane r ((b : Int) - k)).2 with
    | none => []
    | some p => (r.poison.filter fun m => m.plane == p).map fun m => { m with plane := b }
  writers := r.writers

/-- The places of a renumbered mapping: the planes of the source that it places, and new ones for zero planes and for the scale plane. -/
def renumberedPlaces (tag : BitVec 16) (a : VRegN) (k : Int) (r : VReg) (s : State) : List (Option Nat) :=
  ((List.range (tagWidth tag)).map fun (b : Nat) => (shiftedPlane r ((b : Int) - k)).2.bind fun p => planeOf a p s) ++ (if blockLen tag = 0 then [] else [none])

/-- A register of which the elements from SIX up are those of another, and those below it stay (R216). -/
def spliced (six : Nat) (cur new : VReg) : VReg :=
  let l := blockLen new.tag
  { new with
    planes := new.planes.mapIdx fun b p => (planeAt cur b &&& lowMask six) ||| (p &&& ~~~(lowMask six))
    scale :=
      if l = 0 then 0
      else BitVec.ofNat 16384 (packBytes ((List.range (vlmax / l)).map fun j => scaleByte (if (j + 1) * l ≤ six then cur.scale else new.scale) j))
    poison := (cur.poison.filter fun m => decide (m.seg * 64 < six)) ++ new.poison.filter fun m => decide (six ≤ m.seg * 64)
    writers := (cur.writers.filter fun p => decide (p.1 < six / 64)) ++ (six / 64, writerAt new.writers (six / 64)) :: new.writers.filter fun p => decide (six / 64 < p.1) }

/-- A plane renumbering (R234, R239). One that begins at a SIX above 0 leaves the elements below it, and so writes planes of its own (R216). -/
def renumber (i : Instr) (d a : VRegN) (k : Int) (s : State) : Res Unit :=
  let va := vSrc a s
  let tag := (vSrc d s).tag
  let new := renumbered tag s.me.vl k va
  if s.me.six = 0 then
    let places := renumberedPlaces tag a k va s
    (require i (budgetOk s.me d tag) s).bind fun _ s =>
      (takes (places.filter fun p => p.isNone).length s).bind fun _ s => .ok () (retire (clearQuota (onMe (putV d new) (remap d places s))))
  else (fits i d tag s).bind fun _ s => .ok () (retire (clearQuota (onMe (putV d (spliced s.me.six s.me.v[d] new)) (mapTo d tag s))))

/-- A shift by `k` places, up or down: a renumbering of planes when the guard is off and nothing saturates, and otherwise element by element (R239). -/
def vshift (i : Instr) (d a : VRegN) (k : Int) (sat : Bool) (f : Int → Int) (ok : Kind → Kind → Bool) (s : State) : Out :=
  ((vqueue i s).bind fun _ s =>
    let va := vSrc a s
    let vd := vSrc d s
    (require i (isInt (vKind va) && isInt (vKind vd) && ok (vKind va) (vKind vd)) s).bind fun _ s =>
      if !modeGON s.me.mode && !sat then renumber i d a k s
      else
        (fits i d vd.tag s).bind fun _ s =>
          .ok () (elementwise d [src a s] vd.tag (active s.me) (fun j => fit (vKind vd) sat (f (elemInt va j))) (scalesOf va vd.tag) s)).out

/-- VSHL (R239). -/
def execVshl (d a : VRegN) (c : Bool) (k : Fin 17) (s : State) : Out :=
  vshift (.vshl d a c k) d a k.1 c (fun x => x * 2 ^ k.1) (fun _ _ => true) s

/-- VSHR (R239). -/
def execVshr (d a : VRegN) (k : Fin 17) (s : State) : Out :=
  vshift (.vshr d a k) d a (-(k.1 : Int)) false (fun x => x / 2 ^ k.1) (fun _ _ => true) s

/-- Whether VWIDEN may copy one kind into another (R240). -/
def widens (a d : Kind) : Bool :=
  decide (a.width ≤ d.width) &&
    match a, d with
    | .s _, .s _ => true
    | .s _, _ => false
    | _, _ => true

/-- VWIDEN (R240). -/
def execVwiden (d a : VRegN) (s : State) : Out := vshift (.vwiden d a) d a 0 false id widens s

/-- VNARROW (R240). -/
def execVnarrow (d a : VRegN) (k : Fin 17) (s : State) : Out :=
  let i : Instr := .vnarrow d a k
  ((vqueue i s).bind fun _ s =>
    let va := vSrc a s
    let vd := vSrc d s
    (require i (isInt (vKind va) && isInt (vKind vd)) s).bind fun _ s =>
      (fits i d vd.tag s).bind fun _ s =>
        .ok () (elementwise d [src a s] vd.tag (active s.me)
          (fun j => encodeVal (vKind vd) (roundingOf s.me) j (.fin (elemInt va j) (2 ^ k.1) false)) (scalesOf va vd.tag) s)).out

/-! ## Comparison, selection, moves, counts (R241 to R245) -/

/-- The relations of VCMP (R241). -/
def compares (c : Fin 6) (p q : Int) : Bool :=
  match c with
  | 0 => p == q
  | 1 => p != q
  | 2 => decide (p < q)
  | 3 => decide (p ≤ q)
  | 4 => decide (q < p)
  | 5 => decide (q ≤ p)

/-- VCMP (R241). -/
def execVcmp (d : MReg) (a : VRegN) (b : Fin 32) (x : Bool) (c : Fin 6) (s : State) : Out :=
  let i : Instr := .vcmp d a b x c
  ((vqueue i s).bind fun _ s =>
    let va := vSrc a s
    (require i (isInt (vKind va) && secondOk x b (vKind va) s) s).bind fun _ s =>
      let upTo (stop : Nat) (s : State) : State :=
        writeM d stop ((elementsTo stop s.me).map fun k =>
          if active s.me k then compares c (elemInt va k) (second x b s k) else (mR d s).getLsbD k) s
      match firstPoison (src a s :: secondSrc x b s) ((elementsTo (stopAt s) s.me).filter (active s.me)) with
      | some (e, r, m) => .ok () (poisonTrap 0 r.1 e m.producer (upTo (groupOf s e) s))
      | none => .ok () (upTo (stopAt s) s)).out

/-- VSEL (R242). -/
def execVsel (d a b : VRegN) (c : MReg) (s : State) : Out :=
  let i : Instr := .vsel d a b c
  ((vqueue i s).bind fun _ s =>
    let va := vSrc a s
    let vb := vSrc b s
    (require i (va.tag == vb.tag) s).bind fun _ s =>
      (fits i d va.tag s).bind fun _ s =>
        .ok () (elementwise d [src a s, src b s] va.tag (active s.me)
          (fun k => (if (mR c s).getLsbD k then elem va k else elem vb k, 0)) (scalesOf va va.tag) s)).out

/-- VMV of a register (R243). -/
def execVmv (d a : VRegN) (s : State) : Out :=
  let i : Instr := .vmv d a
  ((vqueue i s).bind fun _ s =>
    let va := vSrc a s
    (fits i d va.tag s).bind fun _ s =>
      .ok () (elementwise d [src a s] va.tag (active s.me) (fun k => (elem va k, 0)) (scalesOf va va.tag) s)).out

/-- VMV of a general register (R243). -/
def execVmvScalar (d : VRegN) (b : GReg) (c : Bool) (s : State) : Out :=
  let i : Instr := .vmvScalar d b c
  ((vqueue i s).bind fun _ s =>
    let vd := vSrc d s
    (require i (isInt (vKind vd) && vBlock vd == 0) s).bind fun _ s =>
      (fits i d vd.tag s).bind fun _ s =>
        .ok () (elementwise d [] vd.tag (active s.me) (fun _ => fit (vKind vd) c (gR b s).toInt) (fun _ => 0x7F) s)).out

/-- VPOPC (R245). Its destination may be blocked (R230; log entry 111). -/
def execVpopc (d a : VRegN) (s : State) : Out :=
  let i : Instr := .vpopc d a
  ((vqueue i s).bind fun _ s =>
    let va := vSrc a s
    let vd := vSrc d s
    (require i (isInt (vKind vd)) s).bind fun _ s =>
      (fits i d vd.tag s).bind fun _ s =>
        .ok () (elementwise d [src a s] vd.tag (active s.me)
          (fun k => fit (vKind vd) false (popcount (vWidth va) (elem va k))) (scalesOf va vd.tag) s)).out

end Sys2Proof.Machine
end

