-- ==== Sys2Proof/Machine/VWhole.lean ====
section
/-! DEFINITION. The whole instructions of the plane array and the mask instructions (R231, R244 to R251). A whole instruction does all its elements at once. -/

namespace Sys2Proof.Machine

/-- The active elements below VL. -/
def activeBelow (s : State) : List Nat := (List.range s.me.vl).filter (active s.me)

/-- A whole instruction that consumes no poison among some elements of its sources; a poisoned one traps before anything is written (R231, R345). -/
def unpoisoned (srcs : List (Fin 32 × VReg)) (es : List Nat) (s : State) : Res Unit :=
  match firstPoison srcs es with
  | some (e, r, m) => .stop (poisonTrap 0 r.1 e m.producer s)
  | none => .ok () s

/-- A whole instruction that writes a general register. -/
def retireG (d : GReg) (w : Word) (s : State) : State := retire (clearQuota (setG d w s))

/-- A whole instruction that writes every element below VL of a register: `f` gives the code of an element, none where it is kept. -/
def wholeV (d : Fin 32) (tag : BitVec 16) (f : Nat → Option Nat) (scale : Nat → Nat) (flags : Nat) (s : State) : State :=
  writeV d ⟨tag, 0, s.me.vl, s.me.vl, (List.range s.me.vl).map f, scale⟩ flags s

/-! ## Reductions -/

/-- The beats of a whole instruction: ⌈VL / ALC⌉, and at least one (R252). -/
def wholeBeats (s : State) : Nat := max 1 (ceilDiv s.me.vl (max s.core.alc 64))

/-- A sum of integers. -/
def sumInts (xs : List Int) : Int := xs.foldl (· + ·) 0

/-- VDOT (R246). -/
def execVdot (d : GReg) (a b : VRegN) (s : State) : Out :=
  let i : Instr := .vdot d a b
  ((whole i s).bind fun _ s =>
    let va := vSrc a s
    let vb := vSrc b s
    (require i (isInt (vKind va) && isInt (vKind vb)) s).bind fun _ s =>
      let steps := vWidth va * vWidth vb
      (if 32 ≤ steps then askLeave false (steps * wholeBeats s) s else .ok () s).bind fun _ s =>
        (unpoisoned (productSrcs a b false s) (activeBelow s) s).bind fun _ s =>
          .ok () (retireG d (BitVec.ofInt 64 (sumInts ((activeBelow s).map fun k => elemInt va k * elemInt vb k))) s)).out

/-- What VRED gives for the codes of the active elements (R247). -/
def reduced (o : Fin 6) (k : Kind) (cs : List Nat) : Word :=
  let bits (c : Nat) : Word := match k with | .s w => sx c w | _ => wd c
  let xs := cs.map (intOf k)
  match o with
  | 0 => BitVec.ofInt 64 (sumInts xs)
  | 1 => BitVec.ofInt 64 (xs.foldl min (intMax k))
  | 2 => BitVec.ofInt 64 (xs.foldl max (intMin k))
  | 3 => bits (cs.foldl (· &&& ·) (2 ^ k.width - 1))
  | 4 => bits (cs.foldl (· ||| ·) 0)
  | 5 => bits (cs.foldl (· ^^^ ·) 0)

/-- VRED (R247). -/
def execVred (d : GReg) (a : VRegN) (o : Fin 6) (s : State) : Out :=
  let i : Instr := .vred d a o
  ((whole i s).bind fun _ s =>
    let va := vSrc a s
    (require i (isInt (vKind va) || decide (3 ≤ o.1)) s).bind fun _ s =>
      (unpoisoned [src a s] (activeBelow s) s).bind fun _ s =>
        .ok () (retireG d (reduced o (vKind va) ((activeBelow s).map (elem va))) s)).out

/-! ## Scans and rearrangement -/

/-- The running sums of VSCAN over elements from `k` on: a value for each active one (R248). -/
def scanned (act : Nat → Bool) (x : Bool) (f : Nat → Int) : List Nat → Int → List (Option Int)
  | [], _ => []
  | k :: rest, run =>
    if act k then (some (if x then run else run + f k)) :: scanned act x f rest (run + f k)
    else none :: scanned act x f rest run

/-- VSCAN (R248). -/
def execVscan (d a : VRegN) (c x : Bool) (s : State) : Out :=
  let i : Instr := .vscan d a c x
  ((whole i s).bind fun _ s =>
    let va := vSrc a s
    let vd := vSrc d s
    (require i (isInt (vKind va) && isInt (vKind vd)) s).bind fun _ s =>
      (fits i d vd.tag s).bind fun _ s =>
        (unpoisoned [src a s] (activeBelow s) s).bind fun _ s =>
          let rs := (scanned (active s.me) x (elemInt va) (List.range s.me.vl) 0).map fun r => r.map (fit (vKind vd) c)
          let fl := (rs.map fun r => (r.map fun p => p.2).getD 0).foldl (· ||| ·) 0
          .ok () (writeV d ⟨vd.tag, 0, s.me.vl, s.me.vl, rs.map fun r => r.map fun p => p.1, scalesOf va vd.tag⟩ fl s)).out

/-- The elements below VL whose bit of a mask register is set. -/
def maskedElems (c : MReg) (s : State) : List Nat := (List.range s.me.vl).filter fun k => (mR c s).getLsbD k

/-- How many bits of a mask register are set below an element. -/
def rankOf (c : MReg) (s : State) (k : Nat) : Nat := popcount k ((mR c s).toNat % 2 ^ k)

/-- VCOMPRESS (R249). -/
def execVcompress (d a : VRegN) (c : MReg) (s : State) : Out :=
  let i : Instr := .vcompress d a c
  ((whole i s).bind fun _ s =>
    let va := vSrc a s
    (require i (vBlock va == 0) s).bind fun _ s =>
      (fits i d va.tag s).bind fun _ s =>
        let es := maskedElems c s
        (unpoisoned [src a s] es s).bind fun _ s =>
          let codes := es.map (elem va)
          .ok () (writeV d ⟨va.tag, 0, s.me.vl, s.me.vl, (codes ++ List.replicate (s.me.vl - codes.length) 0).map some, fun _ => 0x7F⟩ 0 s)).out

/-- The codes that VEXPAND gives: the next code of the source under a set bit, zero under a clear one (R249). -/
def expanded (m : Nat → Bool) (f : Nat → Nat) : List Nat → Nat → List (Option Nat)
  | [], _ => []
  | k :: rest, j => if m k then some (f j) :: expanded m f rest (j + 1) else some 0 :: expanded m f rest j

/-- VEXPAND (R249). -/
def execVexpand (d a : VRegN) (c : MReg) (s : State) : Out :=
  let i : Instr := .vexpand d a c
  ((whole i s).bind fun _ s =>
    let va := vSrc a s
    (require i (vBlock va == 0) s).bind fun _ s =>
      (fits i d va.tag s).bind fun _ s =>
        (unpoisoned [src a s] (List.range (maskedElems c s).length) s).bind fun _ s =>
          .ok () (writeV d ⟨va.tag, 0, s.me.vl, s.me.vl, expanded (mR c s).getLsbD (elem va) (List.range s.me.vl) 0, fun _ => 0x7F⟩ 0 s)).out

/-- The element that VSLIDE reads for an element, when it lies below VL (R250). -/
def slideFrom (up : Bool) (n vl k : Nat) : Option Nat :=
  let t : Int := if up then (k : Int) - n else k + n
  if 0 ≤ t ∧ t < vl then some t.toNat else none

/-- The scale byte of a destination block of VSLIDE (R250). -/
def slideScale (up : Bool) (n vl : Nat) (r : VReg) (k : Nat) : Nat :=
  let l := vBlock r
  match slideFrom up (n / l) (ceilDiv vl l) k with
  | some j => scaleByte r.scale j
  | none => 0x7F

/-- VSLIDE (R250). -/
def vslide (i : Instr) (up : Bool) (d a : VRegN) (b : GReg) (s : State) : Out :=
  ((whole i s).bind fun _ s =>
    let va := vSrc a s
    let n := (gR b s).toNat
    (require i (vBlock va == 0 || n % vBlock va == 0) s).bind fun _ s =>
      (fits i d va.tag s).bind fun _ s =>
        (unpoisoned [src a s] ((activeBelow s).filterMap (slideFrom up n s.me.vl)) s).bind fun _ s =>
          .ok () (wholeV d va.tag (fun k =>
            if active s.me k then some (((slideFrom up n s.me.vl k).map (elem va)).getD 0) else none) (slideScale up n s.me.vl va) 0 s)).out

/-- VSLIDE.DN (R250). -/
def execVslideDn (d a : VRegN) (b : GReg) (s : State) : Out := vslide (.vslideDn d a b) false d a b s

/-- VSLIDE.UP (R250). -/
def execVslideUp (d a : VRegN) (b : GReg) (s : State) : Out := vslide (.vslideUp d a b) true d a b s

/-- VIOTA and VIOTA.IDX: a count for each active element, into an unblocked integer register (R251). -/
def viotaOf (i : Instr) (d : VRegN) (f : State → Nat → Nat) (s : State) : Out :=
  ((whole i s).bind fun _ s =>
    let vd := vSrc d s
    (require i (isInt (vKind vd) && vBlock vd == 0) s).bind fun _ s =>
      (fits i d vd.tag s).bind fun _ s =>
        .ok () (wholeV d vd.tag (fun k => if active s.me k then some (fit (vKind vd) false (f s k)).1 else none) (fun _ => 0x7F) 0 s)).out

/-- VIOTA (R251). -/
def execViota (d : VRegN) (c : MReg) (s : State) : Out := viotaOf (.viota d c) d (rankOf c) s

/-- VIOTA.IDX (R251). -/
def execViotaIdx (d : VRegN) (s : State) : Out := viotaOf (.viotaIdx d) d (fun _ k => k) s

/-! ## Masks (R244) -/

/-- A mask instruction: bits of two mask registers, without the guard. -/
def maskOp (i : Instr) (d a b : MReg) (f : Bool → Bool → Bool) (s : State) : Out :=
  ((vqueue i s).bind fun _ s =>
    let stop := stopAt s
    .ok () (writeM d stop ((elementsTo stop s.me).map fun k => f ((mR a s).getLsbD k) ((mR b s).getLsbD k)) s)).out

/-- MAND (R244). -/
def execMand (d a b : MReg) (s : State) : Out := maskOp (.mand d a b) d a b (fun x y => x && y) s

/-- MOR (R244). -/
def execMor (d a b : MReg) (s : State) : Out := maskOp (.mor d a b) d a b (fun x y => x || y) s

/-- MXOR (R244). -/
def execMxor (d a b : MReg) (s : State) : Out := maskOp (.mxor d a b) d a b (fun x y => x != y) s

/-- MNOT (R244). -/
def execMnot (d a : MReg) (s : State) : Out := maskOp (.mnot d a) d a a (fun x _ => !x) s

/-- MPOPC (R244). -/
def execMpopc (d : GReg) (a : MReg) (s : State) : Out :=
  ((whole (.mpopc d a) s).bind fun _ s => .ok () (retireG d (wd (rankOf a s s.me.vl)) s)).out

/-- MFIRST (R244). -/
def execMfirst (d : GReg) (a : MReg) (s : State) : Out :=
  ((whole (.mfirst d a) s).bind fun _ s =>
    .ok () (retireG d (match maskedElems a s with | k :: _ => wd k | [] => wd (2 ^ 64 - 1)) s)).out

end Sys2Proof.Machine
end

