-- ==== Sys2Proof/Machine/WordUnit.lean ====
section
/-! DEFINITION. The Word Unit (chapter 12): float element-wise instructions, conversion, the strip-softmax step, scale slots, quantisation and code tables. -/

namespace Sys2Proof.Machine

/-! ## Operands (R254, R255) -/

/-- Whether a register has a float kind and is unblocked. -/
def floatReg (r : VReg) : Bool := !isInt (vKind r) && vBlock r == 0

/-- Element `i` of a register as an exact value, with its scale if it is blocked (R70). -/
def valOf (r : VReg) (i : Nat) : XVal :=
  if vBlock r = 0 then decodeCode (vKind r) (elem r i) else decodeScaled (vKind r) (scaleByte r.scale (i / vBlock r)) (elem r i)

/-- A float register by the number of a field that names one. -/
def fSrc (b : Fin 32) (s : State) : BitVec 32 := fR (fin 16 (by decide) b.1) s

/-- Element `i` of the second source: a register's, or f[b] for every `i`. -/
def fSecond (x : Bool) (b : Fin 32) (s : State) (i : Nat) : XVal := if x then fval (fSrc b s) else valOf (vSrc b s) i

/-- Whether the second source is of a float kind. -/
def fSecondOk (x : Bool) (b : Fin 32) (s : State) : Bool := x || floatReg (vSrc b s)

/-- An operation's result: NaN with NV when it is invalid (R256). -/
def orInvalid (r : Option XVal) : XVal × Nat :=
  match r with
  | none => (.nan, fNV)
  | some x => (x, 0)

/-- A sum that is a NaN without a flag when an operand is. -/
def addVal (rm : Rm) (x y : XVal) : XVal × Nat := if x.isNan || y.isNan then (.nan, 0) else orInvalid (exactAdd rm x y)

/-- A product. -/
def mulVal (x y : XVal) : XVal × Nat := if x.isNan || y.isNan then (.nan, 0) else orInvalid (exactMul x y)

/-- An element-wise floating instruction: `f` gives the exact value with the flags it raises before Encode (R256). -/
def vfloat (i : Instr) (d a : VRegN) (b : Fin 32) (x two : Bool) (extra : List (Fin 32)) (f : State → Nat → XVal × Nat) (s : State) : Out :=
  ((vqueue i s).bind fun _ s =>
    let vd := vSrc d s
    (require i (floatReg (vSrc a s) && floatReg vd && (!two || fSecondOk x b s)) s).bind fun _ s =>
      (fits i d vd.tag s).bind fun _ s =>
        .ok () (elementwise d (extra.map (fun r => src r s) ++ src a s :: (if two then secondSrc x b s else [])) vd.tag (active s.me)
          (fun k => let r := f s k; let e := encodeVal (vKind vd) (roundingOf s.me) k r.1; (e.1, e.2 ||| r.2)) (fun _ => 0x7F) s)).out

/-! ## Arithmetic (R257) -/

/-- The rounding mode of a strand's vector instructions. -/
def vrm (s : State) : Rm := (roundingOf s.me).rm

/-- VFADD (R257). -/
def execVfadd (d a : VRegN) (b : Fin 32) (x n : Bool) (s : State) : Out :=
  vfloat (.vfadd d a b x n) d a b x true [] (fun s k =>
    let y := fSecond x b s k
    addVal (vrm s) (valOf (vSrc a s) k) (if n then y.negate else y)) s

/-- VFMUL (R257). -/
def execVfmul (d a : VRegN) (b : Fin 32) (x : Bool) (s : State) : Out :=
  vfloat (.vfmul d a b x) d a b x true [] (fun s k => mulVal (valOf (vSrc a s) k) (fSecond x b s k)) s

/-- VFMA (R257): an invalid product sets NV whatever is added. -/
def execVfma (d a : VRegN) (b : Fin 32) (x n : Bool) (s : State) : Out :=
  vfloat (.vfma d a b x n) d a b x true [d] (fun s k =>
    let p := mulVal (valOf (vSrc a s) k) (fSecond x b s k)
    let q := if n then p.1.negate else p.1
    let r := addVal (vrm s) (valOf (vSrc d s) k) q
    (r.1, p.2 ||| r.2)) s

/-- The larger of two values, with −0 below +0 and a NaN giving way (R257). -/
def maxVal (x y : XVal) : XVal := if x.isNan then y else if y.isNan then x else if fpBelow x y then y else x

/-- VFMAX (R257). -/
def execVfmax (d a : VRegN) (b : Fin 32) (x m : Bool) (s : State) : Out :=
  vfloat (.vfmax d a b x m) d a b x true [] (fun s k =>
    let p := valOf (vSrc a s) k
    let q := fSecond x b s k
    (if m then maxVal p.abs q.abs else maxVal p q, 0)) s

/-! ## VFEXP2, VFRCP, VFRSQ (R258) -/

/-- The bits of working precision of 2^f, and the bits of a fraction f: every fraction of an element or of a difference of binary32 values has fewer. -/
def expBits : Nat := 352
def fracBits : Nat := 176

/-- The product, in units of 2^-352, of the 2^(1/2^j) for the set bits of a fraction of `n` bits from the top down; `root` is 2^(1/2^j) for the bit above. -/
def expProduct : Nat → Nat → Nat → Nat → Nat
  | 0, _, _, acc => acc
  | n + 1, f, root, acc =>
    if f % 2 ^ (n + 1) = 0 then acc
    else
      let r := isqrt (root * 2 ^ expBits)
      expProduct n f r (if f.testBit n then acc * r / 2 ^ expBits else acc)

/-- A value that rounds to binary32 as 2^x does, for a fraction x: 2^x itself when x is an integer, else a value between it and its neighbours of 352 bits. Far out of range
it is 2^200 or 2^-200 (R258, R260). -/
def exp2Frac (n : Int) (d : Nat) : XVal :=
  if 128 * (d : Int) ≤ n then .ofInt (2 ^ 200)
  else if n ≤ -(150 * (d : Int)) then (let p := scale2 1 1 (-200); .fin p.1 p.2 false)
  else
    let k := n / (d : Int)
    let rest := (n % (d : Int)).toNat
    if rest = 0 then (let p := scale2 1 1 k; .fin p.1 p.2 false)
    else
      let f := rest * 2 ^ fracBits / d
      let v := expProduct fracBits f (2 * 2 ^ expBits) (2 ^ expBits)
      let p := scale2 (2 * v + 1 : Nat) 1 (k - expBits - 1)
      .fin p.1 p.2 false

/-- RNE_fp32 of 2^x: code and flags. -/
def exp2Fp (x : XVal) : Nat × Nat :=
  match x with
  | .nan => (nan32, 0)
  | .inf true => (0, 0)
  | .inf false => (infCode .fp32 false, 0)
  | .fin n d _ => rneFp32 (exp2Frac n d)

/-- RNE_fp32 of 1 / x. -/
def rcpFp (x : XVal) : Nat × Nat :=
  match x with
  | .nan => (nan32, 0)
  | .inf s => (zeroCode .fp32 s, 0)
  | .fin n d z => if n = 0 then (infCode .fp32 z, fOF) else rneFp32 (.fin (if n < 0 then -(d : Int) else d) n.natAbs false)

/-- RNE_fp32 of 1 / √x. -/
def rsqFp (x : XVal) : Nat × Nat :=
  match x with
  | .nan => (nan32, 0)
  | .inf s => if s then (nan32, fNV) else (0, 0)
  | .fin n d z => if n = 0 then (infCode .fp32 z, fOF) else if n < 0 then (nan32, fNV) else rneFp32 (sqrtFrac d n.toNat)

/-- A binary32 result written by Encode after its own rounding (R258). -/
def viaFp32 (f : XVal → Nat × Nat) (a : VRegN) (s : State) (k : Nat) : XVal × Nat :=
  let y := f (valOf (vSrc a s) k)
  (decodeCode .fp32 y.1, y.2)

/-- VFEXP2 (R258). -/
def execVfexp2 (d a : VRegN) (s : State) : Out := vfloat (.vfexp2 d a) d a 0 false false [] (viaFp32 exp2Fp a) s

/-- VFRCP (R258). -/
def execVfrcp (d a : VRegN) (s : State) : Out := vfloat (.vfrcp d a) d a 0 false false [] (viaFp32 rcpFp a) s

/-- VFRSQ (R258). -/
def execVfrsq (d a : VRegN) (s : State) : Out := vfloat (.vfrsq d a) d a 0 false false [] (viaFp32 rsqFp a) s

/-! ## Block scales (R71, R259) -/

/-- Emax (R71). -/
def emax : Kind → Int
  | .e2m1 => 2
  | .e2m3 => 2
  | .e3m2 => 4
  | .e4m3 => 8
  | .e5m2 => 15
  | .s w => (w : Int) - 2
  | _ => 0

/-- ScaleCode (R71) of a magnitude, with its flag. -/
def scaleCode (a : XVal) (k : Kind) : Nat × Nat :=
  match a with
  | .nan => (0xFF, fNV)
  | .inf _ => (0xFF, fNV)
  | .fin n d _ => if n = 0 then (0x7F, fDEG) else ((clampInt (floorLog2 n.natAbs d - emax k) (-127) 127 + 127).toNat, 0)

/-- The larger of two magnitudes, a NaN or an infinity above all. -/
def maxMag (x y : XVal) : XVal := if x.isNan then x else if y.isNan then y else if x.lt y then y else x

/-- The largest magnitude of some values; 0 of none. -/
def largest (xs : List XVal) : XVal := xs.foldl (fun m x => maxMag m x.abs) (.ofInt 0)

/-- The active elements of a block below VL. -/
def blockActive (l : Nat) (s : State) (k : Nat) : List Nat :=
  ((List.range l).map fun j => k * l + j).filter fun i => decide (i < s.me.vl) && active s.me i

/-- The scale of a destination's block, chosen from a source (R259), with its flag. -/
def blockScale (va vd : VReg) (s : State) (k : Nat) : Nat × Nat :=
  match blockActive (vBlock vd) s k with
  | [] => (scaleByte vd.scale k, 0)
  | es => scaleCode (largest (es.map (valOf va))) (vKind vd)

/-- An element encoded against its block's scale; 0 under a NaN scale (R71, R259). -/
def encodeBlocked (rd : Rounding) (k : Kind) (sc : Nat) (i : Nat) (x : XVal) : Nat × Nat :=
  match scaleExp sc with
  | none => (0, 0)
  | some e => encodeVal k rd i (x.shift (-e))

/-- Conversion into a register, blocked or not, by Encode of Decode (R70, R259); `clip` adds CLIP where an element overflowed. -/
def convertInto (va vd : VReg) (clip : Bool) (s : State) (i : Nat) : Nat × Nat :=
  let withClip (r : Nat × Nat) : Nat × Nat := (r.1, if clip && r.2 &&& fOF != 0 then r.2 ||| fCLIP else r.2)
  if vBlock vd = 0 then withClip (encodeVal (vKind vd) (roundingOf s.me) i (valOf va i))
  else
    let sc := blockScale va vd s (i / vBlock vd)
    let r := withClip (encodeBlocked (roundingOf s.me) (vKind vd) sc.1 i (valOf va i))
    (r.1, r.2 ||| sc.2)

/-- The scale bytes of a conversion's destination. -/
def convertScale (va vd : VReg) (s : State) (k : Nat) : Nat := (blockScale va vd s k).1

/-- VFCVT (R259). -/
def execVfcvt (d a : VRegN) (s : State) : Out :=
  let i : Instr := .vfcvt d a
  ((vqueue i s).bind fun _ s =>
    let va := vSrc a s
    let vd := vSrc d s
    (fits i d vd.tag s).bind fun _ s =>
      .ok () (elementwise d [src a s] vd.tag (active s.me) (convertInto va vd false s) (convertScale va vd s) s)).out

/-! ## VSMAX (R260) -/

/-- A binary32 value in units of 2^-149. -/
def fpUnits (c : Nat) : Int :=
  match decodeCode .fp32 c with
  | .fin n d _ => n * 2 ^ 149 / d
  | _ => 0

/-- Whether VSMAX includes an element. -/
def included (useTm : Bool) (c : TmReg) (s : State) (i : Nat) : Bool :=
  active s.me i && (!useTm || (tmR c s).getLsbD ((s.me.sbase + wd i).toNat / 256 % 256))

/-- A maximum in which a NaN wins. -/
def nanMax (x y : XVal) : XVal := if x.isNan || y.isNan then .nan else if fpBelow x y then y else x

/-- RNE_fp32 of 2^(x - y), with NaN and NV where the difference is invalid (R260). -/
def expDiff (x y : XVal) : Nat × Nat :=
  let r := addVal .rne x y.negate
  let e := exp2Fp r.1
  (e.1, e.2 ||| r.2)

/-- RNE_fp32 of c × S + Σ p, the sum formed exactly in units of 2^-298 (R260). -/
def softSum (c sold : Nat) (ps : List Nat) : Nat × Nat :=
  let xs := ps.map (decodeCode .fp32)
  let p := mulVal (decodeCode .fp32 c) (decodeCode .fp32 sold)
  let special := xs.foldl (fun (m : XVal × Nat) x => if x.isFin then m else (let r := addVal .rne m.1 x; (r.1, m.2 ||| r.2))) (.ofInt 0, 0)
  if p.1.isFin && special.1.isFin then
    let units := fpUnits c * fpUnits sold + (ps.map fun q => fpUnits q * 2 ^ 149).foldl (· + ·) 0
    let r := rneFp32 (.fin units (2 ^ 298) false)
    (r.1, r.2 ||| p.2)
  else
    let t := if p.1.isFin then special else if special.1.isFin then p else (let r := addVal .rne p.1 special.1; (r.1, r.2 ||| p.2 ||| special.2))
    let r := rneFp32 t.1
    (r.1, r.2 ||| t.2)

/-- VSMAX (R260). -/
def execVsmax (d a : VRegN) (b : FReg) (t : Bool) (c : TmReg) (s : State) : Out :=
  let i : Instr := .vsmax d a b t c
  ((whole i s).bind fun _ s =>
    let va := vSrc a s
    let vd := vSrc d s
    (require i (decide (b.1 ≤ 13) && floatReg va && floatReg vd) s).bind fun _ s =>
      (fits i d vd.tag s).bind fun _ s =>
        let es := (List.range s.me.vl).filter (included t c s)
        (unpoisoned [src a s] es s).bind fun _ s =>
          let b1 := fin 16 (by decide) (b.1 + 1)
          let b2 := fin 16 (by decide) (b.1 + 2)
          let mold := fval (fR b s)
          let mnew := nanMax mold (es.foldl (fun m k => nanMax m (valOf va k)) (.inf true))
          let cf := if mold.eqv mnew then (0x3F800000, 0) else expDiff mold mnew
          let ps := es.map fun k => expDiff (valOf va k) mnew
          let snew := softSum cf.1 (fR b1 s).toNat (ps.map fun p => p.1)
          let codes := (List.range s.me.vl).map fun k =>
            if included t c s k then
              let e := encodeVal (vKind vd) (roundingOf s.me) k (decodeCode .fp32 (expDiff (valOf va k) mnew).1)
              (some e.1, e.2)
            else if active s.me k then (some 0, 0) else (none, 0)
          let fl := (ps.map fun p => p.2).foldl (· ||| ·) 0 ||| cf.2 ||| snew.2 ||| (codes.map fun p => p.2).foldl (· ||| ·) 0
          let s1 := setF b2 (BitVec.ofNat 32 cf.1) (setF b1 (BitVec.ofNat 32 snew.1) (setF b (BitVec.ofNat 32 (rneFp32 mnew).1) s))
          .ok () (writeV d ⟨vd.tag, 0, s.me.vl, s.me.vl, codes.map fun p => p.1, fun _ => 0x7F⟩ fl s1)).out

/-! ## Scale slots (R261 to R263) -/

/-- A slot of the core whose turn it is. -/
def slotAt (k : Fin 16) (s : State) : ScaleSlot := s.core.scales[k]

/-- A slot changed. -/
def modSlot (k : Fin 16) (f : ScaleSlot → ScaleSlot) (s : State) : State := onCore (fun c => { c with scales := c.scales.set k (f c.scales[k]) }) s

/-- A quotient by a slot's scale; a scale that rounded to zero leaves it open (log entry 12). -/
def quotient (x : XVal) (scale : BitVec 32) : XVal :=
  match x, fval scale with
  | .fin n d z, .fin 0 _ _ =>
    let q := Config.zeroQuotient (if z then -1 else n) d
    match q.1 with
    | 0 => .nan
    | 1 => .inf false
    | 2 => .inf true
    | _ => .fin q.2.1 (q.2.2 + 1) false
  | x, y => match exactDiv x y with | some p => p.1 | none => .nan

/-- A value plus a zero point: the exact sum. With a zero point of 0 it is the value itself, so that −0 keeps its sign (R69, R72); a sum that comes to zero otherwise is +0 (R264; log
entry 22). -/
def addPoint (x : XVal) (z : Nat) : XVal :=
  match x with
  | .fin n d nz => .fin (n + z * d) d (nz && z == 0)
  | x => x

/-- Whether QUANT into a kind would overflow or substitute a value, under RNE (R262). -/
def clips (k : Kind) (y : XVal) : Bool :=
  match y with
  | .nan => true
  | .inf _ => true
  | .fin n d _ =>
    let mx := scale2 k.maxF.1 1 k.maxF.2
    let mn := scale2 k.minF.1 1 k.minF.2
    let h := scale2 1 1 (k.ulpMax - 1)
    decide ((mx.1 * h.2 + h.1 * mx.2) * d ≤ n * (mx.2 * h.2 : Nat)) || decide (n * (mn.2 * h.2 : Nat) ≤ (mn.1 * h.2 - h.1 * mn.2) * d)

/-- QSTAT (R262). -/
def execQstat (d : GReg) (a : VRegN) (q : Fin 16) (s : State) : Out :=
  let i : Instr := .qstat d a q
  ((whole i s).bind fun _ s =>
    let va := vSrc a s
    (require i (vBlock va == 0) s).bind fun _ s =>
      (unpoisoned [src a s] (activeBelow s) s).bind fun _ s =>
        let g := slotAt q s
        let xs := (activeBelow s).map (valOf va)
        let m := largest (xs.map fun x => if x.isNan then .inf false else x)
        let k := (xs.filter fun x => !x.isFin || clips (kindOf g.kind) (addPoint (quotient x g.scale) g.zp.toNat)).length
        let top := encodeVal .fp32 ⟨.rup, false, 0, 0, 0, 0⟩ 0 m
        let s1 := modSlot q (fun g => { g with hist := g.hist.set g.head (BitVec.ofNat 32 top.1), head := fin 16 (by decide) (g.head.1 + 1) }) s
        .ok () (retireG d (wd (xs.length * 2 ^ 32 + k)) s1)).out

/-- Whether a tag may be a scale slot's kind (R254). -/
def slotKind (r : VReg) : Bool :=
  vBlock r == 0 && (match vKind r with | .mk8 => false | .bf16 => false | .fp32 => false | _ => true)

/-- The symmetric scale of a magnitude for a kind, with its flag (R72). For s1, whose MaxF is 0, the quotient is a free value that is rounded like any other (log entry 12). -/
def symmetricScale (a : XVal) (k : Kind) : Nat × Nat :=
  match a with
  | .fin n d _ =>
    if n = 0 then (0x3F800000, fDEG)
    else
      let m := scale2 k.maxF.1 1 k.maxF.2
      if m.1 ≤ 0 then ((rneFp32 (quotient a 0)).1, 0) else ((rneFp32 (.fin (n * m.2) (d * m.1.toNat) false)).1, 0)
  | _ => (nan32, fNV)

/-- An integer nearest a fraction, ties to even. -/
def nearestInt (n : Int) (d : Nat) : Int := (roundInt rneOnly n d).1

/-- The asymmetric scale, zero point and flag of a channel's least and greatest value, for nN (R73); `q` numbers the slot. -/
def asymmetricScale (lo hi : XVal) (w : Nat) (q : Fin 16) : Nat × Nat × Nat :=
  match lo, hi with
  | .fin a b _, .fin c d _ =>
    let top : Int := 2 ^ w - 1
    if a * d = c * b then (0x3F800000, (clampInt (nearestInt (-a) b) 0 top).toNat, fDEG)
    else
      let sc := (rneFp32 (.fin (c * b - a * d) (b * d * top.toNat) false)).1
      let z : Int :=
        match decodeCode .fp32 sc with
        | .fin 0 _ _ => clampInt (Config.zeroScalePoint a b) 0 top
        | .fin n e _ => clampInt (nearestInt (-a * e) (b * n.toNat)) 0 top
        | _ => 0
      (sc, z.toNat, 0)
  | _, _ => (nan32, Config.nanPoint q.1, fNV)

/-- A slot's scale, zero point and kind written, and the scale given to a float register (R263). `flat` is the value of a degenerate channel (R73). -/
def setScale (d : FReg) (q : Fin 16) (sc z : Nat) (flat : Option (Int × Nat)) (tag : BitVec 16) (fl : Nat) (s : State) : State :=
  retire (clearQuota (raise fl (setF d (BitVec.ofNat 32 sc)
    (modSlot q (fun g => { g with scale := BitVec.ofNat 32 sc, zp := BitVec.ofNat 16 z, kind := tag, flat := flat }) s))))

/-- The one value of a channel whose scale was chosen with DEG (R72, R73). -/
def flatValue (fl : Nat) (x : XVal) : Option (Int × Nat) :=
  match x with
  | .fin n d _ => if fl == fDEG then some (n, d) else none
  | _ => none

/-- QSCALE.H (R263). -/
def execQscaleH (d : FReg) (b : VRegN) (q : Fin 16) (s : State) : Out :=
  let i : Instr := .qscaleH d b q
  ((whole i s).bind fun _ s =>
    let vb := vSrc b s
    (require i (slotKind vb) s).bind fun _ s =>
      let m := largest ((slotAt q s).hist.toList.map fval)
      let r := symmetricScale m (vKind vb)
      .ok () (setScale d q r.1 0 (flatValue r.2 (.ofInt 0)) vb.tag r.2 s)).out

/-- The least and the greatest of some values; a NaN wins. -/
def leastOf (xs : List XVal) : XVal :=
  match xs with
  | [] => .ofInt 0
  | x :: rest => rest.foldl (fun m y => if m.isNan || y.isNan then .nan else if y.lt m then y else m) x
def greatestOf (xs : List XVal) : XVal :=
  match xs with
  | [] => .ofInt 0
  | x :: rest => rest.foldl (fun m y => if m.isNan || y.isNan then .nan else if m.lt y then y else m) x

/-- QSCALE.R (R263). -/
def execQscaleR (d : FReg) (a b : VRegN) (q : Fin 16) (s : State) : Out :=
  let i : Instr := .qscaleR d a b q
  ((whole i s).bind fun _ s =>
    let va := vSrc a s
    let vb := vSrc b s
    (require i (vBlock va == 0 && slotKind vb) s).bind fun _ s =>
      (unpoisoned [src a s] (activeBelow s) s).bind fun _ s =>
        let xs := (activeBelow s).map (valOf va)
        match vKind vb with
        | .n w =>
          let r := asymmetricScale (leastOf xs) (greatestOf xs) w q
          .ok () (setScale d q r.1 r.2.1 (flatValue r.2.2 (leastOf xs)) vb.tag r.2.2 s)
        | k =>
          let r := symmetricScale (largest xs) k
          .ok () (setScale d q r.1 0 (flatValue r.2 (.ofInt 0)) vb.tag r.2 s)).out

/-- QSCALE.Z (R263). -/
def execQscaleZ (q : Fin 16) (s : State) : Out :=
  ((whole (.qscaleZ q) s).bind fun _ s => .ok () (retire (clearQuota (modSlot q (fun _ => ScaleSlot.reset) s)))).out

/-! ## Quantisation and code tables (R76, R264 to R266) -/

/-- Whether a destination may take QUANT (R254, R264). -/
def quantDest (useTable : Bool) (r : VReg) : Bool :=
  if useTable then (match vKind r with | .n w => decide (w ≤ 8) | _ => false)
  else match vKind r with
    | .mk8 => false
    | .bf16 => false
    | .fp32 => false
    | _ => true

/-- How far a table entry lies from a value, as a fraction; none for an entry that cannot be chosen. An infinite value lies equally far from every finite entry (R76). -/
def entryDistance (x : XVal) (e : BitVec 16) : Option (Nat × Nat) :=
  match x, decodeCode .bf16 e.toNat with
  | .fin a b _, .fin c d _ => some ((a * d - c * b).natAbs, b * d)
  | .inf s, .inf t => if s = t then some (0, 1) else none
  | .inf _, .fin _ _ _ => some (1, 1)
  | _, _ => none

/-- The index of the nearest entry of those from `k` on, with its distance; the lowest on a tie. -/
def nearestEntry (x : XVal) : List (BitVec 16) → Nat → Option (Nat × Nat × Nat) → Option (Nat × Nat × Nat)
  | [], _, best => best
  | e :: rest, k, best =>
    let best' :=
      match entryDistance x e, best with
      | some p, none => some (k, p.1, p.2)
      | some p, some (j, n, d) => if p.1 * d < n * p.2 then some (k, p.1, p.2) else some (j, n, d)
      | none, b => b
    nearestEntry x rest (k + 1) best'

/-- Table encoding (R76) into `w` bits: the code and flags, CLIP among them where no entry can be chosen (R264). -/
def encodeTable (t : CodeTable) (w : Nat) (rd : Rounding) (x : XVal) : Nat × Nat :=
  if x.isNan then (rd.subv % 2 ^ w, fNV ||| fSUB)
  else
    match nearestEntry x (t.entries.toList.take (2 ^ w)) 0 none with
    | none => (rd.subv % 2 ^ w, fSUB ||| fCLIP)
    | some (k, n, _) => (k, if n = 0 then 0 else fNX)

/-- The code nearest a value: Encode that rounds to nearest, ties to even, and saturates, with the flags that it raises (R73; log entry 83). -/
def nearestCode (k : Kind) (rd : Rounding) (i : Nat) (x : XVal) : Nat × Nat := encodeVal k { rd with rm := .rne, sat := true } i x

/-- The code of an element of a degenerate channel against that channel's parameters: 0 for a channel of zeros, and the nearest code of an nN register for another (R72, R73; log entry
83); none for an element of another value, and where neither rule speaks. -/
def flatCode (k : Kind) (g : ScaleSlot) (rd : Rounding) (i : Nat) (x y : XVal) : Option (Nat × Nat) :=
  match g.flat with
  | none => none
  | some v =>
    if !x.eqv (.fin v.1 v.2 false) then none
    else if v.1 = 0 then some (0, 0)
    else match k with
      | .n _ => some (nearestCode k rd i y)
      | _ => none

/-- QUANT of one element into an unblocked register without a table: Encode of the quotient plus the zero point, with CLIP where it overflows (R264), and the codes that R72 and R73 give the
elements of a degenerate channel. -/
def quantElem (k : Kind) (g : ScaleSlot) (rd : Rounding) (i : Nat) (x : XVal) : Nat × Nat :=
  if (fval g.scale).isNan then (substitute k rd, fNV ||| fSUB)
  else
    let y := addPoint (quotient x g.scale) g.zp.toNat
    let r := (flatCode k g rd i x y).getD (encodeVal k rd i y)
    (r.1, if r.2 &&& fOF != 0 then r.2 ||| fCLIP else r.2)

/-- A code table of the core whose turn it is. -/
def tableAt (p : Fin 4) (s : State) : CodeTable := s.core.tables[p]

/-- QUANT (R264). -/
def execQuant (d a : VRegN) (p : Fin 4) (t : Bool) (q : Fin 16) (s : State) : Out :=
  let i : Instr := .quant d a p t q
  ((vqueue i s).bind fun _ s =>
    let va := vSrc a s
    let vd := vSrc d s
    (require i (quantDest t vd && (t || vBlock vd == 0 || q == 0) && (!t || (tableAt p s).kind == 0x0080)) s).bind fun _ s =>
      (fits i d vd.tag s).bind fun _ s =>
        let g := slotAt q s
        let f : Nat → Nat × Nat :=
          if t then fun k => encodeTable (tableAt p s) (vWidth vd) (roundingOf s.me) (quotient (valOf va k) g.scale)
          else if vBlock vd = 0 then fun k => quantElem (vKind vd) g (roundingOf s.me) k (valOf va k)
          else convertInto va vd true s
        .ok () (elementwise d [src a s] vd.tag (active s.me) f (convertScale va vd s) s)).out

/-- The kinds a code table's entries may have (R75). -/
def tableKind (r : VReg) : Bool := vBlock r == 0 && (match vKind r with | .bf16 => true | .s w => w == 16 | .n w => w == 16 | _ => false)

/-- CTAB (R265). -/
def execCtab (a : VRegN) (p : Fin 4) (s : State) : Out :=
  let i : Instr := .ctab a p
  ((whole i s).bind fun _ s =>
    let va := vSrc a s
    (require i (tableKind va) s).bind fun _ s =>
      (unpoisoned [src a s] (List.range (min s.me.vl 256)) s).bind fun _ s =>
        let n := min s.me.vl 256
        let new : CodeTable := ⟨va.tag, (tableAt p s).entries.mapIdx fun e w => if e < n then BitVec.ofNat 16 (elem va e) else w⟩
        .ok () (retire (clearQuota (onCore (fun c => { c with tables := c.tables.set p new }) s)))).out

/-- CLOOK (R266). A table whose kind is no legal tag, as a frame may have brought it, gives no register one (R51). -/
def execClook (d a : VRegN) (p : Fin 4) (s : State) : Out :=
  let i : Instr := .clook d a p
  ((vqueue i s).bind fun _ s =>
    let va := vSrc a s
    let t := tableAt p s
    (require i (vBlock va == 0 && (match vKind va with | .n w => decide (w ≤ 8) | _ => false) && !tagIllegal t.kind) s).bind fun _ s =>
      (fits i d t.kind s).bind fun _ s =>
        .ok () (elementwise d [src a s] t.kind (active s.me)
          (fun k => (t.entries[fin 256 (by decide) (elem va k)].toNat, 0)) (fun _ => 0x7F) s)).out

end Sys2Proof.Machine
end

