-- ==== Sys2Proof/Machine/Layout.lean ====
section
/-! DEFINITION. The accesses of the vector path to the elements of a vector in memory (R39, R40 to R43, R99, R100, R118). -/

namespace Sys2Proof.Machine

/-! ## Reading and writing an element -/

/-- A read of the strand's vector path: the bytes at some targets, the first with a virtual address. -/
abbrev Reader := Nat → List Target → State → List (BitVec 8) × State

/-- The read of R103 on the vector path. -/
def readVector : Reader := fun va ts s => readBytes .vector va ts (countNc s.me.ctx ts s)

/-- The read of an engine, at the home (R136, R140); its slices count it by the whole request (countReads). -/
def readHome : Reader := fun _ ts s => (ts.map fun t => homeByte (targetLoc t 0) s, s)

/-- What a read of some pieces brings: the code that they make up, the first word of memory among them that is in error, as a physical address, and the bytes of memory that were read,
each with whether its leaf allocates in caches. -/
structure Got where
  code : Nat
  bad : Option Nat
  reads : List (Bool × Nat)
deriving DecidableEq, Repr

/-- The bytes of memory at some targets. -/
def targetReads (ts : List Target) : List (Bool × Nat) := ts.filterMap fun t => match t with | .mem pa mt => some (mt == .wb, pa) | _ => none

/-- The slices' counts of one request of an engine that reads some bytes, each line once (R96). -/
def countReads (ctx : Nat) (xs : List (Bool × Nat)) (s : State) : State :=
  l2Reads ctx false ((xs.filter fun x => !x.1).map fun x => x.2) (l2Reads ctx true ((xs.filter fun x => x.1).map fun x => x.2) s)

/-- What some pieces bring, or the address and the fault of the first that does not translate. -/
def readPieces (read : Reader) (rq : Req) (acc : Access) : List Piece → State → Except (Word × XFault) Got × State
  | [], s => (.ok ⟨0, none, []⟩, s)
  | p :: ps, s =>
    match scalarTargets rq acc false p.size p.va s with
    | (.error (k, x), s1) => (.error (p.va + wd k, x), s1)
    | (.ok ts, s1) =>
      let bad := badTarget ts s1
      let r := read p.va.toNat ts s1
      match readPieces read rq acc ps r.2 with
      | (.error e, s2) => (.error e, s2)
      | (.ok rest, s2) => (.ok ⟨natOf r.1 / 2 ^ p.sh % 2 ^ p.n * 2 ^ p.pos + rest.code, if bad.isSome then bad else rest.bad, targetReads ts ++ rest.reads⟩, s2)

/-- Writes that enter the strand's vector path. -/
def pushWrites (ws : List Write) (s : State) : State := onMe (fun t => { t with vwq := t.vwq ++ ws }) s

/-! ## Runs of elements -/

/-- The trap of a vector access that does not translate, at an element (R39, R335). -/
def elementTrap (acc : Access) (e : Nat) (va : Word) (x : XFault) (s : State) : TrapInfo :=
  xlateTrap (faultRecord (reqOf s.me) acc va (some e) x)

/-- What a run of elements came to: the results of the elements done, and the first that faulted with its trap. -/
structure Run (α : Type) where
  done : List α
  fault : Option (Nat × TrapInfo)

/-- Some elements in order, up to the first that faults. -/
def runElements {α : Type} (acc : Access) (f : Nat → State → Except (Word × XFault) α × State) : List Nat → State → Run α × State
  | [], s => (⟨[], none⟩, s)
  | e :: es, s =>
    match f e s with
    | (.error (va, x), s1) => (⟨[], some (e, elementTrap acc e va x s1)⟩, s1)
    | (.ok a, s1) =>
      let r := runElements acc f es s1
      (⟨a :: r.1.done, r.1.fault⟩, r.2)

/-- Where a run that was to reach `stop` ends: at the start of the segment of the element that faulted (R39). -/
def runStop {α : Type} (r : Run α) (stop : Nat) : Nat :=
  match r.fault with
  | none => stop
  | some (e, _) => e / 64 * 64

/-- The trap of a run. -/
def runTrap {α : Type} (r : Run α) : Option TrapInfo := r.fault.map fun p => p.2

/-- The first poisoned element that an instruction consumes of a source, among the elements that it would do and `act` names. -/
def poisonOf (r : Fin 32 × VReg) (act : Nat → Bool) (s : State) : Option (Nat × Fin 32 × PoisonMark) :=
  firstPoison [r] ((elementsTo (stopAt s) s.me).filter act)

/-- The lower of two. -/
def lowerHit (x y : Option (Nat × Fin 32 × PoisonMark)) : Option (Nat × Fin 32 × PoisonMark) :=
  match x, y with
  | some a, some b => if b.1 < a.1 then some b else some a
  | some a, none => some a
  | none, y => y

/-- The misses of the TLB that the elements at hand raise enter the walkers' queue before the first of them is performed, as far as it holds them (R32). -/
def raiseMisses (acc : Access) (vas : Nat → List Word) (s : State) : State :=
  queueMisses (reqOf s.me) acc ((elementsTo (stopAt s) s.me).flatMap vas) s

/-- A memory instruction, element by element: `go` does its elements from SIX up to a bound and answers the trap it met. Of poison and translation faults
the one of the lowest element is taken, and poison keeps its whole element group from being done (R336, R345). `hit` is the first poisoned element. -/
def memoryRun (hit : Option (Nat × Fin 32 × PoisonMark)) (go : Nat → State → Option TrapInfo × State) (s : State) : State :=
  let ended (p : Option TrapInfo × State) : State :=
    match p with
    | (some t, s1) => trapHere t s1
    | (none, s1) => s1
  match hit with
  | none => ended (go (stopAt s) s)
  | some (e, r, m) =>
    match go (groupOf s e) s with
    | (some t, s1) => trapHere t s1
    | (none, s1) =>
      match go (e + 1) s1 with
      | (some t, s2) => trapHere t s2
      | (none, _) => poisonTrap 0 r.1 e m.producer s1

end Sys2Proof.Machine
end

