-- ==== Sys2Proof/Machine/VMem.lean ====
section
/-! DEFINITION. Vector loads and stores, gathers and scatters (R304 to R308) and the expansion of compressed images (R139, R305). Pops of streams stand with
the streams. -/

namespace Sys2Proof.Machine

/-! ## Places -/

/-- The pieces of element `i` of a vector of width `w` in memory, plane-major or in word layout (R304). -/
def elementPieces (planeMajor : Bool) (base stride : Word) (w i : Nat) : List Piece :=
  if planeMajor then planePieces base stride w i else [containerPiece base (containerBits w) w i]

/-- The rules of a plane-major image: its base and its stride (R43, R304). -/
def planeMajorOk (planeMajor : Bool) (base stride : Word) (n : Nat) : Bool :=
  !planeMajor || (base.toNat % 8 == 0 && stride.toNat % 8 == 0 && decide (8 * ceilDiv n 64 ≤ stride.toNat))

/-! ## VLD (R304) -/

/-- What a load brings for an element: its code, none where the element is kept; the scale of a block; and the elements that data in error poison (R344). -/
structure Loaded where
  code : Option Nat
  scale : Option (Nat × Nat)
  bad : List Nat

/-- What VLD reads for an element: its code if it is active, and its block's scale if the element is the first of the run that lies in the block. A scale in error poisons its
block (log entry 74). -/
def loadElement (vd : VReg) (planeMajor : Bool) (base stride scales : Word) (from_ e : Nat) (s : State) : Except (Word × XFault) Loaded × State :=
  let l := vBlock vd
  let sc : Except (Word × XFault) (Option (Nat × Nat) × List Nat) × State :=
    if l ≠ 0 ∧ (e % l = 0 ∨ e = from_) then
      match readPieces readVector (reqOf s.me) .vload [scalePiece scales (e / l)] s with
      | (.error x, s1) => (.error x, s1)
      | (.ok c, s1) => (.ok (some (e / l, c.code), if c.bad.isSome then (List.range l).map fun k => e / l * l + k else []), s1)
    else (.ok (none, []), s)
  match sc with
  | (.error x, s1) => (.error x, s1)
  | (.ok (scale, block), s1) =>
    if active s.me e then
      match readPieces readVector (reqOf s.me) .vload (elementPieces planeMajor base stride (vWidth vd) e) s1 with
      | (.error x, s2) => (.error x, s2)
      | (.ok c, s2) => (.ok ⟨some c.code, scale, if c.bad.isSome then e :: block else block⟩, s2)
    else (.ok ⟨none, scale, block⟩, s1)

/-- The byte that a list of loaded scales gives a block. -/
def loadedScale (xs : List (Nat × Nat)) (k : Nat) : Nat := ((xs.find? fun x => x.1 == k).map fun x => x.2).getD 0x7F

/-- What a run of a load's elements brought, written to the destination up to a bound; data in error poison their words (R344). -/
def writeLoaded (d : Fin 32) (tag : BitVec 16) (stop flags : Nat) (xs : List Loaded) (s : State) : State :=
  let bad := (xs.flatMap fun x => x.bad).filter fun e => decide (s.me.six ≤ e) && decide (e < stop) && decide (e < s.me.vl)
  poisonElements d s.me.pc bad
    (writeV d ⟨tag, s.me.six, stop, s.me.vl, (xs.map fun x => x.code).take (stop - s.me.six), loadedScale (xs.filterMap fun x => x.scale)⟩ flags s)

/-- The elements of a load from SIX up to a bound. -/
def loadUpTo (d : Fin 32) (tag : BitVec 16) (f : Nat → State → Except (Word × XFault) Loaded × State) (stop : Nat) (s : State) : Option TrapInfo × State :=
  let r := runElements .vload f (elementsTo stop s.me) s
  (runTrap r.1, writeLoaded d tag (runStop r.1 stop) 0 r.1.done r.2)

/-- The addresses of the pieces of the active elements of a vector in memory, by element. -/
def elementVas (planeMajor : Bool) (base stride : Word) (w : Nat) (s : State) (e : Nat) : List Word :=
  if active s.me e then (elementPieces planeMajor base stride w e).map fun p => p.va else []

/-- VLD, LAY 0 and LAY 1 (R304). -/
def execVld (d : VRegN) (a b c : GReg) (l : Bool) (s : State) : Out :=
  let i : Instr := .vld d a b c l
  ((vqueue i s).bind fun _ s =>
    let vd := vSrc d s
    (require i (planeMajorOk l (gR a s) (gR b s) s.me.vl) s).bind fun _ s =>
      (fits i d vd.tag s).bind fun _ s =>
        .ok () (memoryRun none
          (fun stop s => loadUpTo d vd.tag (loadElement vd l (gR a s) (gR b s) (gR c s) s.me.six) stop s)
          (raiseMisses .vload (elementVas l (gR a s) (gR b s) (vWidth vd) s) s))).out

/-! ## VST (R304) -/

/-- The first active element below VL of the block of an element is the one that carries the block's scale. -/
def carriesScale (l e : Nat) (s : State) : Bool := l != 0 && !((List.range (e % l)).any fun k => active s.me (e - e % l + k))

/-- What VST writes for an active element: its container or its bits, and its block's scale. -/
def storeElement (r : VReg) (planeMajor : Bool) (base stride scales : Word) (e : Nat) (s : State) : Except (Word × XFault) Unit × State :=
  if !active s.me e then (.ok (), s)
  else
    let w := vWidth r
    let rq := reqOf s.me
    let own : Except (Word × XFault) (List Write) × State :=
      if planeMajor then pieceWrites rq .vstore false (elem r e) (planePieces base stride w e) s
      else pieceWrites rq .vstore false (containerCode (vKind r) (elem r e)) [containerPiece base (containerBits w) (containerBits w) e] s
    match own with
    | (.error x, s1) => (.error x, s1)
    | (.ok ws, s1) =>
      if carriesScale (vBlock r) e s then
        match pieceWrites rq .vstore false (scaleByte r.scale (e / vBlock r)) [scalePiece scales (e / vBlock r)] s1 with
        | (.error x, s2) => (.error x, s2)
        | (.ok vs, s2) => (.ok (), pushWrites (ws ++ vs) s2)
      else (.ok (), pushWrites ws s1)

/-- An instruction without a destination that has done its elements up to a bound: it retires, or stops part-way. -/
def endStore (stop : Nat) (final : State → State) (s : State) : State :=
  if s.me.vl ≤ stop then retire (clearQuota (final s)) else clearQuota (onMe (stopPart .none stop 0) s)

/-- The elements of a store from SIX up to a bound. -/
def storeUpTo (acc : Access) (f : Nat → State → Except (Word × XFault) Unit × State) (final : State → State) (stop : Nat) (s : State) : Option TrapInfo × State :=
  let r := runElements acc f (elementsTo stop s.me) s
  (runTrap r.1, endStore (runStop r.1 stop) final r.2)

/-- VST (R304). -/
def execVst (d : VRegN) (a b c : GReg) (l : Bool) (s : State) : Out :=
  let i : Instr := .vst d a b c l
  ((vqueue i s).bind fun _ s =>
    (require i (planeMajorOk l (gR a s) (gR b s) s.me.vl) s).bind fun _ s =>
      .ok () (memoryRun (poisonOf (src d s) (active s.me) s)
        (fun stop s => storeUpTo .vstore (storeElement (vSrc d s) l (gR a s) (gR b s) (gR c s)) id stop s)
        (raiseMisses .vstore (elementVas l (gR a s) (gR b s) (vWidth (vSrc d s)) s) s))).out

/-! ## Compressed images (R139) -/

/-- The bits of the header of an image, as words. -/
def headerBit (ws : List Nat) (j : Nat) : Bool := (ws.getD (j / 64) 0).testBit (j % 64)

/-- How many blocks below `j` an image holds. -/
def blockRank (ws : List Nat) : Nat → Nat
  | 0 => 0
  | j + 1 => blockRank ws j + (headerBit ws j).toNat

/-- Whether a header of `b` blocks is malformed against the greatest length that the reader allows. -/
def imageMalformed (ws : List Nat) (b len : Nat) : Bool :=
  ((List.range (64 * ws.length)).any fun j => decide (b ≤ j) && headerBit ws j) || decide (len < 8 * ws.length + 64 * blockRank ws b)

/-- The words of a header, read one after another. -/
def readWords (read : Reader) (rq : Req) (acc : Access) (base : Word) : List Nat → State → Except (Word × XFault) (List Got) × State
  | [], s => (.ok [], s)
  | k :: ks, s =>
    match readPieces read rq acc [⟨base + wd (8 * k), 8, 0, 64, 0⟩] s with
    | (.error x, s1) => (.error x, s1)
    | (.ok w, s1) =>
      match readWords read rq acc base ks s1 with
      | (.error x, s2) => (.error x, s2)
      | (.ok ws, s2) => (.ok (w :: ws), s2)

/-- Where byte `k` of the uncompressed image stands in the compressed one: none in an absent block. -/
def expandedByte (base : Word) (ws : List Nat) (k : Nat) : Option Word :=
  if headerBit ws (k / 64) then some (base + wd (8 * ws.length + 64 * blockRank ws (k / 64) + k % 64)) else none

/-- The code of element `i` of a compressed image: zero in an absent block. An element lies in one block. -/
def readExpanded (read : Reader) (rq : Req) (acc : Access) (base : Word) (ws : List Nat) (w i : Nat) (s : State) : Except (Word × XFault) Got × State :=
  let c := containerBits w
  match expandedByte base ws (c * i / 8) with
  | none => (.ok ⟨0, none, []⟩, s)
  | some va => readPieces read rq acc [⟨va, max 1 (c / 8), c * i % 8, w, 0⟩] s

/-- What a compressed load reads for an element; a header in error poisons every element (log entry 74). -/
def loadExpanded (base : Word) (ws : List Got) (w e : Nat) (s : State) : Except (Word × XFault) Loaded × State :=
  if active s.me e then
    match readExpanded readVector (reqOf s.me) .vload base (ws.map fun x => x.code) w e s with
    | (.error x, s1) => (.error x, s1)
    | (.ok c, s1) => (.ok ⟨some c.code, none, if c.bad.isSome || ws.any (fun x => x.bad.isSome) then [e] else []⟩, s1)
  else (.ok ⟨none, none, []⟩, s)

/-- VLD with LAY 2 (R305). A fault on its header records element 0 (log entry 113). -/
def execVldCompressed (d : VRegN) (a b c : GReg) (s : State) : Out :=
  let i : Instr := .vldCompressed d a b c
  ((whole i s).bind fun _ s =>
    let vd := vSrc d s
    let base := gR a s
    let w := vWidth vd
    (require i (base.toNat % 64 == 0 && vBlock vd == 0) s).bind fun _ s =>
      (fits i d vd.tag s).bind fun _ s =>
        let blocks := ceilDiv (s.me.vl * containerBits w) 512
        match readWords readVector (reqOf s.me) .vload base (List.range (ceilDiv blocks 64)) s with
        | (.error (va, x), s1) => .stop (trapHere (elementTrap .vload 0 va x s1) s1)
        | (.ok ws, s1) =>
          (require i (!imageMalformed (ws.map fun x => x.code) blocks (gR b s1).toNat) s1).bind fun _ s =>
            let r := runElements .vload (loadExpanded base ws w) (List.range s.me.vl) s
            match runTrap r.1 with
            | some t => .stop (trapHere t r.2)
            | none => .ok () (writeLoaded d vd.tag s.me.vl 0 r.1.done r.2)).out

/-! ## Gathers and scatters (R307, R308) -/

/-- The fields of the descriptor. -/
def gdSEN (w : Word) : Bool := bit w 48
def gdSENT (w : Word) : Nat := fld w 32 16
def gdBOUND (w : Word) : Nat := fld w 0 17

/-- What the tests make of an index: the sentinel, out of range, or in range (R308). -/
inductive IndexTest where
  | sentinel | outside | inside
deriving DecidableEq, Repr

/-- The tests of an index, the sentinel's first. -/
def testIndex (g : Word) (x : Nat) : IndexTest :=
  if gdSEN g && x == gdSENT g then .sentinel else if gdBOUND g ≤ x then .outside else .inside

/-- The status word: the counts over every active element below VL. -/
def gatherStatus (g : Word) (vb : VReg) (s : State) : Word :=
  let xs := (activeBelow s).map (elem vb)
  let skipped := xs.filter fun x => testIndex g x == .sentinel
  let outside := xs.filter fun x => testIndex g x == .outside
  wd ((skipped.any fun x => decide (x < gdBOUND g)).toNat * 2 ^ 32 + skipped.length * 2 ^ 16 + outside.length)

/-- What VGATHER and VSCATTER are legal with (R307). -/
def gatherOk (vd vb : VReg) (g : Word) : Bool :=
  vBlock vd == 0 && vBlock vb == 0 && (match vKind vb with | .n _ => true | _ => false) && fld g 49 15 == 0 && fld g 17 15 == 0

/-- The place of the container with an index. -/
def indexedPiece (base : Word) (w n x : Nat) : Piece := containerPiece base (containerBits w) n x

/-- The container of an element that a gather reads: its locations, and whether its leaf allocates in caches. -/
structure Container where
  locs : List Loc
  wb : Bool
deriving DecidableEq, Repr

/-- What VGATHER gives an element, with the container it reads at its home (R103, R137). -/
def gatherElement (vd vb : VReg) (base g : Word) (e : Nat) (s : State) : Except (Word × XFault) (Loaded × Option Container) × State :=
  if !active s.me e then (.ok (⟨none, none, []⟩, none), s)
  else
    match testIndex g (elem vb e) with
    | .sentinel => (.ok (⟨none, none, []⟩, none), s)
    | .outside => (.ok (⟨some (substitute (vKind vd) (roundingOf s.me)), none, []⟩, none), s)
    | .inside =>
      let p := indexedPiece base (vWidth vd) (vWidth vd) (elem vb e)
      match scalarTargets (reqOf s.me) .gather false p.size p.va s with
      | (.error (k, x), s1) => (.error (p.va + wd k, x), s1)
      | (.ok ts, s1) =>
        let ls := ts.map fun t => targetLoc t 0
        let s2 := settle .vector ls s1
        let code := natOf (ls.map fun l => homeByte l s2) / 2 ^ p.sh % 2 ^ p.n
        (.ok (⟨some code, none, if (badAt ls s2).isSome then [e] else []⟩, some ⟨ls, ts.all targetWb⟩), s2)

/-- A list of containers with one of each. -/
def distinctContainers : List Container → List Container
  | [] => []
  | x :: t => x :: (distinctContainers t).filter fun y => y != x

/-- What the slices count of a gather: each distinct container once for each request (R96, R137). -/
def countGather (ctx : Nat) (xs : List Container) (s : State) : State :=
  (sliceRequests (fun x => x.locs) xs).foldl (fun s r => (distinctContainers r).foldl (fun s x => l2Reads ctx x.wb (memPas x.locs) s) s) s

/-- The elements of a gather from SIX up to a bound. The status word is written, and SUB raised, with what the elements came to. -/
def gatherUpTo (d : Fin 32) (vd vb : VReg) (base g : Word) (status : GReg) (stop : Nat) (s : State) : Option TrapInfo × State :=
  let es := elementsTo stop s.me
  let r := runElements .gather (gatherElement vd vb base g) es s
  let stop' := runStop r.1 stop
  let subs := (es.filter fun e => decide (e < stop')).any fun e => active s.me e && testIndex g (elem vb e) == .outside
  let s1 := countGather s.me.ctx (r.1.done.filterMap fun x => x.2) r.2
  let s2 := if s.me.vl ≤ stop' then setG status (gatherStatus g vb s) s1 else s1
  (runTrap r.1, writeLoaded d vd.tag stop' (if subs then fSUB else 0) (r.1.done.map fun x => x.1) s2)

/-- The addresses of the containers of the elements that a gather or a scatter reaches, by element. -/
def indexedVas (vd vb : VReg) (base g : Word) (s : State) (e : Nat) : List Word :=
  if active s.me e && testIndex g (elem vb e) == .inside then [(indexedPiece base (vWidth vd) (vWidth vd) (elem vb e)).va] else []

/-- The register after `r`, which receives the status word. -/
def nextReg (r : GReg) : GReg := fin 32 (by decide) (r.1 + 1)

/-- VGATHER (R307, R308). -/
def execVgather (d : VRegN) (a : GReg) (b : VRegN) (c : GReg) (s : State) : Out :=
  let i : Instr := .vgather d a b c
  ((vqueue i s).bind fun _ s =>
    let vd := vSrc d s
    let vb := vSrc b s
    let g := gR c s
    (require i (gatherOk vd vb g) s).bind fun _ s =>
      (fits i d vd.tag s).bind fun _ s =>
        let base := gR a s
        .ok () (memoryRun (poisonOf (src b s) (active s.me) s) (gatherUpTo d vd vb base g (nextReg c))
          (raiseMisses .gather (indexedVas vd vb base g s) s))).out

/-- What VSCATTER writes for an element. -/
def scatterElement (vd vb : VReg) (base g : Word) (e : Nat) (s : State) : Except (Word × XFault) (List Write) × State :=
  if !active s.me e then (.ok [], s)
  else
    match testIndex g (elem vb e) with
    | .inside =>
      pieceWrites (reqOf s.me) .scatter true (containerCode (vKind vd) (elem vd e))
        [indexedPiece base (vWidth vd) (containerBits (vWidth vd)) (elem vb e)] s
    | _ => (.ok [], s)

/-- Writes put in an order that is not specified (R119). -/
def shuffled : Nat → List Write → State → List Write × State
  | 0, ws, s => (ws, s)
  | n + 1, ws, s =>
    match ws with
    | [] => ([], s)
    | ws =>
      let k := draw s
      match takeAt (Config.scatterPick k.1 % ws.length) ws with
      | none => (ws, k.2)
      | some (w, rest) =>
        let r := shuffled n rest k.2
        (w :: r.1, r.2)

/-- The elements of a scatter from SIX up to a bound. -/
def scatterUpTo (ordered : Bool) (vd vb : VReg) (base g : Word) (status : GReg) (stop : Nat) (s : State) : Option TrapInfo × State :=
  let r := runElements .scatter (scatterElement vd vb base g) (elementsTo stop s.me) s
  let ws := r.1.done.flatten
  let p := if ordered then (ws, r.2) else shuffled ws.length ws r.2
  (runTrap r.1, endStore (runStop r.1 stop) (setG status (gatherStatus g vb s)) (pushWrites p.1 p.2))

/-- Both forms of VSCATTER (R119, R307, R308). -/
def scatter (i : Instr) (ordered : Bool) (d : VRegN) (a : GReg) (b : VRegN) (c : GReg) (s : State) : Out :=
  ((vqueue i s).bind fun _ s =>
    let vd := vSrc d s
    let vb := vSrc b s
    let g := gR c s
    (require i (gatherOk vd vb g) s).bind fun _ s =>
      let base := gR a s
      let stored (e : Nat) : Bool := active s.me e && testIndex g (elem vb e) == .inside
      .ok () (memoryRun (lowerHit (poisonOf (src b s) (active s.me) s) (poisonOf (src d s) stored s)) (scatterUpTo ordered vd vb base g (nextReg c))
        (raiseMisses .scatter (indexedVas vd vb base g s) s))).out

/-- VSCATTER.ORD. -/
def execVscatterOrd (d : VRegN) (a : GReg) (b : VRegN) (c : GReg) (s : State) : Out := scatter (.vscatterOrd d a b c) true d a b c s

/-- VSCATTER.UNO. -/
def execVscatterUno (d : VRegN) (a : GReg) (b : VRegN) (c : GReg) (s : State) : Out := scatter (.vscatterUno d a b c) false d a b c s

end Sys2Proof.Machine
end

