-- ==== Sys2Proof/Machine/Outer.lean ====
section
/-! DEFINITION. The outer-product array, the accumulator store and the scout (R269 to R289). -/

namespace Sys2Proof.Machine

/-! ## Rows of cells -/

/-- The `n` lowest fields of `w` bits of a row, the lowest first. -/
def unpackRow (w : Nat) : Nat → Nat → List Nat
  | 0, _ => []
  | n + 1, x => x % 2 ^ w :: unpackRow w n (x / 2 ^ w)

/-- Fields of `w` bits put together, the first lowest. -/
def packRow (w : Nat) : List Nat → Nat
  | [] => 0
  | c :: cs => c % 2 ^ w + 2 ^ w * packRow w cs

/-- A vector of 256 rows from a list of them. -/
def rowsOf (w : Nat) (xs : List Nat) : Vector (BitVec w) 256 :=
  let a := xs.toArray
  Vector.ofFn fun i => BitVec.ofNat w (a.getD i.1 0)

/-! ## Formats and tiles (R79, R272) -/

/-- The formats of R270. -/
def fmtF32 : Nat := 0
def fmtS32 : Nat := 1
def fmtS16 : Nat := 2

/-- Whether a tile exists under the core's format. -/
def tileOk (d : AccN) (s : State) : Bool := decide (d.1 < if s.core.fmt = fmtS16 then 4 else 2)

/-- The 32-bit tile that holds a tile, and the bit of its cells at which the tile's cells begin. -/
def tileHome (fmt : Nat) (d : Nat) : Fin 2 × Nat := if fmt = fmtS16 then (fin 2 (by decide) (d / 2), 16 * (d % 2)) else (fin 2 (by decide) d, 0)

/-- The cells of a row of a tile. -/
def cellRow (d i : Nat) (s : State) : List Nat :=
  let h := tileHome s.core.fmt d
  let row := unpackRow 32 256 (s.core.acc[h.1])[fin 256 (by decide) i].toNat
  if s.core.fmt = fmtS16 then row.map fun x => x / 2 ^ h.2 % 2 ^ 16 else row

/-- Cell (i, j) of a tile. -/
def cellAt (d i j : Nat) (s : State) : Nat :=
  let h := tileHome s.core.fmt d
  let x := field ((s.core.acc[h.1])[fin 256 (by decide) i]).toNat (32 * (j % 256)) 32
  if s.core.fmt = fmtS16 then x / 2 ^ h.2 % 2 ^ 16 else x

/-- The unit of a row of a 32-bit tile, and the units of the first `n` staging words of a row (R405; log entry 84). -/
def cellUnit (tile row : Nat) : Nat := 384 + 64 * tile + row / 4
def stageUnits (row n : Nat) : List Nat := if n = 0 then [] else (List.range ((1280 * row + 5 * n - 1) / 4096 + 1 - 1280 * row / 4096)).map fun k => 512 + 1280 * row / 4096 + k

/-- The rows of a tile that `p` names changed: `f` is given a row's number and its cells. -/
def mapTile (d : Nat) (p : Nat → Bool) (f : Nat → List Nat → List Nat) (s : State) : State :=
  let h := tileHome s.core.fmt d
  let rows := (List.range 256).map fun i =>
    let old := (s.core.acc[h.1])[fin 256 (by decide) i].toNat
    let new := f i (cellRow d i s)
    if !p i then old
    else if s.core.fmt = fmtS16 then packRow 32 ((unpackRow 32 256 old).zipWith (fun o n => o - o / 2 ^ h.2 % 2 ^ 16 * 2 ^ h.2 + n % 2 ^ 16 * 2 ^ h.2) new)
    else packRow 32 new
  let units := ((List.range 256).filter p).map (cellUnit h.1.1)
  onCore (fun c => { c with acc := c.acc.set h.1 (rowsOf 8192 rows), dirty := markUnits units c.dirty }) s

/-- The value of a cell. -/
def cellVal (fmt code : Nat) : XVal :=
  if fmt = fmtF32 then decodeCode .fp32 code else .ofInt (if fmt = fmtS32 then signExtend code 32 else signExtend code 16)

/-- A cell's clamped integer, with the flag. -/
def cellClamp (fmt : Nat) (x : Int) : Nat × Nat :=
  let w := if fmt = fmtS32 then 32 else 16
  let y := clampInt x (-(2 ^ (w - 1))) (2 ^ (w - 1) - 1)
  (lowCode w y, if y = x then 0 else fASAT)

/-- No cell holds -0. -/
def plusZero (c : Nat) : Nat := if c = 0x80000000 then 0 else c

/-! ## Poisoned cells (R344, R345) -/

/-- A poisoned cell that an instruction would consume: its tile, row and column, and who wrote it. -/
structure CellHit where
  tile : Nat
  row : Nat
  col : Nat
  producer : Word

/-- The mark that poisons a cell of a tile, if there is one. -/
def cellMark (d row col : Nat) (s : State) : Option CellHit :=
  (s.core.cellPoison.find? fun m => m.tile == d && m.row == row && m.word == col / 64).map fun m => ⟨d, row, col, m.producer⟩

/-- The first of some cells of a tile, by row and column, that is poisoned. -/
def cellHit (d : Nat) (cells : List (Nat × Nat)) (s : State) : Option CellHit :=
  if s.core.cellPoison.isEmpty then none else cells.findSome? fun c => cellMark d c.1 c.2 s

/-- The POISON trap of a cell. -/
def cellTrap (m : CellHit) (s : State) : State := poisonTrap 2 m.tile (Config.poisonCell m.row m.col) m.producer s

/-- An instruction that consumes no poisoned cell among some. -/
def cleanCells (d : Nat) (cells : List (Nat × Nat)) (s : State) : Res Unit :=
  match cellHit d cells s with
  | some m => .stop (cellTrap m s)
  | none => .ok () s

/-- The cells of the first rows and columns of a tile, row by row. -/
def squareCells (n : Nat) : List (Nat × Nat) := (List.range n).flatMap fun r => (List.range n).map fun j => (r, j)

/-- The words of a tile that the instruction at pc writes. -/
def noteCells (d : Nat) (p : Nat → Nat → Bool) (s : State) : State :=
  let pc := s.me.pc
  let k := fin 4 (by decide) d
  onCore (fun c => { c with cellWriter := c.cellWriter.set k (c.cellWriter[k].mapIdx fun i r => r.mapIdx fun w x => if p i w then pc else x) }) s

/-- The marks of a tile's words dropped where `p` says they are written whole. -/
def cleanse (d : Nat) (p : Nat → Nat → Bool) (s : State) : State :=
  onCore (fun c => { c with cellPoison := c.cellPoison.filter fun m => !(m.tile == d && p m.row m.word) }) s

/-! ## Operands (R56, R274) -/

/-- An element as the array takes it: NaN, an infinity, or sign, significand and steering exponent. -/
inductive Sig where
  | nan
  | inf (neg : Bool)
  | fin (neg : Bool) (sig : Nat) (e : Int)
deriving DecidableEq, Repr

/-- The significand planes of a kind, and whether the top one weighs negative. -/
structure Side where
  p : Nat
  top : Bool
deriving DecidableEq, Repr

/-- The side that a kind's elements make. -/
def sideOf (k : Kind) : Side :=
  match k with
  | .s w => ⟨w, true⟩
  | .n w => ⟨w, false⟩
  | k => match k.layout with | some (_, mb, _, _) => ⟨mb + 1, false⟩ | none => ⟨k.width, false⟩

/-- The element of a code, under a block's scale exponent. -/
def sigCode (k : Kind) (code : Nat) (x : Int) : Sig :=
  match k with
  | .s w => .fin false (code % 2 ^ w) x
  | .n w => .fin false (code % 2 ^ w) x
  | k =>
    match k.layout, decodeCode k code with
    | _, .nan => .nan
    | _, .inf neg => .inf neg
    | none, _ => .nan
    | some (eb, mb, bias, _), _ =>
      let e := code / 2 ^ mb % 2 ^ eb
      .fin (code / 2 ^ (eb + mb) % 2 == 1) ((if e = 0 then 0 else 2 ^ mb) + code % 2 ^ mb) ((max e 1 : Nat) - (bias : Int) - (mb : Int) + x)

/-- Element `i` of a register as the array takes it; a block scale of 0xFF makes it NaN. -/
def sigOf (r : VReg) (i : Nat) : Sig :=
  if vBlock r = 0 then sigCode (vKind r) (elem r i) 0
  else
    match scaleExp (scaleByte r.scale (i / vBlock r)) with
    | none => .nan
    | some x => sigCode (vKind r) (elem r i) x

/-- The elements of slice `k`. -/
def matrixSlice (r : VReg) (mvl k : Nat) : List Sig := (List.range mvl).map fun i => sigOf r (k * mvl + i)

/-- The greatest steering exponent of the finite elements of a list. -/
def maxExp (xs : List Sig) : Option Int :=
  xs.foldl (fun m x => match x, m with | .fin _ _ e, some y => some (max e y) | .fin _ _ e, none => some e | _, m => m) none

/-- The operand kinds that a format allows (R272). -/
def operandOk (fmt mvl : Nat) (r : VReg) : Bool :=
  if fmt = fmtF32 then (match vKind r with | .mk8 => false | .fp32 => false | _ => true) && decide (vBlock r ≤ mvl)
  else isInt (vKind r) && vBlock r == 0

/-! ## Products (R275) -/

/-- The number that significand bits stand for. -/
def sigVal (d : Side) (x : Nat) : Int := if d.top then signExtend x d.p else (x % 2 ^ d.p : Nat)

/-- The bits of a significand from bit `t` up, as a number, and whether a lower bit is set. -/
def sigHigh (d : Side) (x t : Nat) : Int × Bool := if d.p ≤ t then (0, x % 2 ^ d.p != 0) else (sigVal d x - (x % 2 ^ t : Nat), x % 2 ^ t != 0)

/-- The product of two significands times 2^c, without the bit products that fall below bit 0, and whether one did. -/
def steered (da db : Side) (sa sb : Nat) (c : Int) : Int × Bool :=
  if 0 ≤ c then (sigVal da sa * sigVal db sb * 2 ^ c.toNat, false)
  else
    let m := (-c).toNat
    let r := (List.range da.p).foldl (fun (acc : Int × Bool) p =>
      if sa.testBit p then
        let h := sigHigh db sb (m - p)
        let term := h.1 * 2 ^ p
        (if da.top && p + 1 == da.p then acc.1 - term else acc.1 + term, acc.2 || h.2)
      else acc) (0, false)
    (r.1 / 2 ^ m, r.2)

/-- SPEC after a special value is combined into it, with the flag (R275). SPEC is 0 for NONE, 1 and 2 for the infinities, 3 for NAN. -/
def combine (spec v : Nat) : Nat × Nat := if spec = 0 ∨ spec = v then (v, 0) else if spec = 3 ∨ v = 3 then (3, 0) else (3, fNV)

/-- AddProduct: the staging word and SPEC of a cell after one product, with the flags. -/
def addProduct (da db : Side) (base : Int) (a b : Sig) (x : Int × Nat) : (Int × Nat) × Nat :=
  let special (v : Nat × Nat) : (Int × Nat) × Nat := ((x.1, v.1), v.2)
  let infinity (neg : Bool) : (Int × Nat) × Nat := special (combine x.2 (if neg then 2 else 1))
  match a, b with
  | .nan, _ => special (3, 0)
  | _, .nan => special (3, 0)
  | .inf s, .inf t => infinity (s != t)
  | .inf s, .fin t m _ => if m = 0 then special (3, fNV) else infinity (s != t)
  | .fin s m _, .inf t => if m = 0 then special (3, fNV) else infinity (s != t)
  | .fin s ma ea, .fin t mb eb =>
    let r := steered da db ma mb (ea + eb - base)
    ((if s != t then x.1 - r.1 else x.1 + r.1, x.2), if r.2 then fTRUNC else 0)

/-- The products of one row element with the column elements. -/
def addRow (da db : Side) (base : Int) (a : Sig) : List Sig → List (Int × Nat) → List (Int × Nat) × Nat
  | b :: bs, x :: xs =>
    let r := addProduct da db base a b x
    let rest := addRow da db base a bs xs
    (r.1 :: rest.1, r.2 ||| rest.2)
  | _, xs => (xs, 0)

/-! ## Blocks (R275 to R277) -/

/-- A staging row: the words and SPEC of its cells. -/
def stageRow (i : Nat) (s : State) : List (Int × Nat) :=
  let k := fin 256 (by decide) i
  (unpackRow 40 256 (s.core.stage[k]).toNat).zipWith (fun t p => (signExtend t 40, p)) (unpackRow 2 256 (s.core.spec[k]).toNat)

/-- The cells of a row that hold a contribution. -/
def contributes (x : Int × Nat) : Bool := x.1 != 0 || x.2 != 0

/-- A fold's new cell, with its flags (R276). -/
def foldCell (fmt : Nat) (base : Int) (cell : Nat) (x : Int × Nat) : Nat × Nat :=
  if !contributes x then (cell, 0)
  else if fmt = fmtF32 then
    let nan : Nat := 0x7FC00000
    match x.2, cellVal fmt cell with
    | 3, _ => (nan, 0)
    | _, .nan => (nan, 0)
    | 1, .inf neg => if neg then (nan, fNV) else (infCode .fp32 false, 0)
    | 2, .inf neg => if neg then (infCode .fp32 true, 0) else (nan, fNV)
    | 1, _ => (infCode .fp32 false, 0)
    | 2, _ => (infCode .fp32 true, 0)
    | _, .inf _ => (cell, 0)
    | _, .fin n d _ =>
      let p := scale2 x.1 1 base
      let r := rneFp32 (.fin (n * p.2 + p.1 * d) (d * p.2) false)
      (plusZero r.1, if r.2 &&& fOF != 0 then fAINF else 0)
  else cellClamp fmt ((if fmt = fmtS32 then signExtend cell 32 else signExtend cell 16) + x.1)

/-- The words of the open block's tile that a fold writes. -/
def foldWords (s : State) (i w : Nat) : Bool := (((stageRow i s).drop (64 * w)).take 64).any contributes

/-- The poisoned cell that a fold of the open block would consume first. -/
def foldPoison (s : State) : Option CellHit :=
  s.core.owner.bind fun d =>
    cellHit d ((List.range 256).flatMap fun i => ((stageRow i s).zipIdx.filter fun x => contributes x.1).map fun x => (i, x.2)) s

/-- The fold of the open block. -/
def fold (s : State) : State :=
  match s.core.owner with
  | none => s
  | some d =>
    let base := s.core.base.getD 0
    let rows := (List.range 256).map fun i => ((cellRow d i s).zip (stageRow i s)).map fun p => foldCell s.core.fmt base p.1 p.2
    let flags := rows.foldl (fun f r => r.foldl (fun f c => f ||| c.2) f) 0
    let cells := rows.toArray
    let s1 := mapTile d (fun i => (stageRow i s).any contributes) (fun i _ => (cells.getD i []).map fun c => c.1) (noteCells d (foldWords s) s)
    raise flags (onCore (fun c => { c with owner := none, count := 0 }) s1)

/-- The open block closed when `p` says so of its tile, unless its fold consumes poison. -/
def closeIf (p : Nat → Bool) (s : State) : Res Unit :=
  match s.core.owner with
  | none => .ok () s
  | some d =>
    if p d then
      match foldPoison s with
      | some m => .stop (cellTrap m s)
      | none => .ok () (fold s)
    else .ok () s

/-- A block opened for a tile, if none is open. -/
def openBlock (d : Nat) (s : State) : State :=
  match s.core.owner with
  | some _ => s
  | none =>
    onCore (fun c =>
      { c with
        owner := some d, count := 0, base := none, stage := Vector.replicate 256 0, spec := Vector.replicate 256 0
        dirty := markUnits ((List.range 80).map fun k => 512 + k) c.dirty }) s

/-- A staging word moved to a higher base, and whether bits were lost. -/
def rebase (k : Nat) (t : Int) : Int × Bool := (t / 2 ^ k, t % 2 ^ k != 0)

/-- What an instruction adds to an open block: for each row, the row elements with the column elements each meets; the sides; the greatest exponents; and by
how much COUNT rises. -/
structure Pass where
  rows : List (List (Sig × List Sig))
  da : Side
  db : Side
  ea : Option Int
  eb : Option Int
  n : Nat

/-- The base that a pass works at, and by how much the words move to it. -/
def passBase (fmt : Nat) (old : Option Int) (x : Pass) : Option Int × Nat :=
  match x.ea, x.eb with
  | some ea, some eb =>
    let p : Int := if fmt = fmtF32 then (x.da.p : Int) + x.db.p + ea + eb - 34 else 0
    match old with
    | none => (some p, 0)
    | some b => if b < p then (some p, (p - b).toNat) else (some b, 0)
  | _, _ => (old, 0)

/-- One row of a pass: its words and SPEC, with the flags. -/
def passRow (x : Pass) (base : Int) (k : Nat) (products : List (Sig × List Sig)) (row : List (Int × Nat)) : List (Int × Nat) × Nat :=
  let moved := if k = 0 then row else row.map fun c => ((rebase k c.1).1, c.2)
  let lost := if k ≠ 0 ∧ (row.any fun c => (rebase k c.1).2) then fTRUNC else 0
  products.foldl (fun acc p =>
    let r := addRow x.da x.db base p.1 p.2 acc.1
    (r.1, acc.2 ||| r.2)) (moved, lost)

/-- A pass over the open block. -/
def runPass (x : Pass) (s : State) : State :=
  let b := passBase s.core.fmt s.core.base x
  let products := x.rows.toArray
  let rows := (List.range 256).map fun i =>
    let ps := products.getD i []
    if b.2 = 0 ∧ ps.isEmpty then ((s.core.stage[fin 256 (by decide) i]).toNat, (s.core.spec[fin 256 (by decide) i]).toNat, 0)
    else
      let r := passRow x (b.1.getD 0) b.2 ps (stageRow i s)
      (packRow 40 (r.1.map fun c => lowCode 40 c.1), packRow 2 (r.1.map fun c => c.2), r.2)
  let flags := rows.foldl (fun f r => f ||| r.2.2) 0
  let written := (List.range 256).flatMap fun i => stageUnits i (if b.2 ≠ 0 then 256 else ((products.getD i []).map fun q => q.2.length).foldl max 0)
  raise flags (onCore (fun c =>
    { c with
      dirty := markUnits (distinct written) c.dirty
      stage := rowsOf 10240 (rows.map fun r => r.1)
      spec := rowsOf 512 (rows.map fun r => r.2.1)
      base := b.1
      count := c.count + x.n }) s)

/-- An instruction of the OPA family on tile `d`: it closes another tile's block, or one that would count above 32, adds its products, and closes the block at NB
products. Poison of a fold traps before anything changes. -/
def accumulate (d : Nat) (full : Bool) (pass : State → Pass × Nat) (s : State) : Res Unit :=
  let before := s
  (closeIf (fun o => o != d || (full && decide (32 < s.core.count + (pass s).1.n))) s).bind fun _ s =>
    let x := pass s
    let s1 := runPass x.1 (openBlock d (raise x.2 s))
    if 2 ^ s1.me.nbl ≤ s1.core.count then
      match foldPoison s1 with
      | some m => .stop (cellTrap m before)
      | none => .ok () (retire (clearQuota (fold s1)))
    else .ok () (retire (clearQuota s1))

/-! ## OPA, OPA.T, OPA.S (R275, R278 to R280) -/

/-- The elements of slice `k`. -/
def sliceElems (mvl k : Nat) : List Nat := (List.range mvl).map fun i => k * mvl + i

/-- A source without the marks of the planes that are skipped: those that are zero in the segments of every slice the instruction reads (R48, R290). -/
def sliceSrc (r : Fin 32) (ks : List Nat) (s : State) : Fin 32 × VReg :=
  let v := vSrc r s
  let zero (p k : Nat) : Bool := planeZero v p (k * s.me.mvl / 64 * 64) (ceilDiv ((k + 1) * s.me.mvl) 64 * 64)
  (r, { v with poison := v.poison.filter fun m => !ks.all (zero m.plane) })

/-- No poison in the slices of some registers: those of each register, by number. Of several poisoned elements the lowest is reported (R336, R345). -/
def cleanSlices (xs : List (Fin 32 × List Nat)) (s : State) : Res Unit :=
  match xs.foldl (fun h x => lowerHit h (firstPoison [sliceSrc x.1 x.2 s] (x.2.flatMap (sliceElems s.me.mvl)))) none with
  | some (e, r, m) => .stop (poisonTrap 0 r.1 e m.producer s)
  | none => .ok () s

/-! ## Changes of format (R272) -/

/-- Whether a strand has renamed an instruction of this chapter that has not retired: it waits for leave, or has it. -/
def arrayRenamed (t : Strand) : Bool :=
  match t.leave with
  | .asked _ _ a => a
  | .granted a => a
  | _ => false

/-- The place of a strand among those whose MMODE waits to change FMT. -/
def formatPlace (t : Strand) : Option Nat :=
  match t.leave with
  | .format n => some n
  | _ => none

/-- A whole instruction of this chapter: its rename is held while an MMODE of another strand of its core waits to change FMT (R231, R272). -/
def chapter (i : Instr) (s : State) : Res Unit :=
  (whole i s).bind fun _ s => if !arrayRenamed s.me && s.core.strands.any fun t => (formatPlace t).isSome then .stop s else .ok () s

/-- Whether an MMODE may set FMT now: none that reached rename before it waits, and no renamed instruction of this chapter is left in another strand (R272). -/
def formatTurn (change : Bool) (s : State) : Bool :=
  let earlier (t : Strand) : Bool :=
    match formatPlace t, formatPlace s.me with
    | some n, some m => decide (n < m)
    | some _, none => true
    | none, _ => false
  !s.core.strands.any earlier && (!change || !s.core.strands.any arrayRenamed)

/-- An MMODE that changes FMT waits behind those that wait already. -/
def askFormat (s : State) : State :=
  match formatPlace s.me with
  | some _ => s
  | none => onMe (fun t => { t with leave := .format ((s.core.strands.filterMap formatPlace).foldl max 0 + 1) }) s

/-- The products of slice `k` of two registers. -/
def slicePass (va vb : VReg) (mvl k : Nat) : Pass :=
  let as := matrixSlice va mvl k
  let bs := matrixSlice vb mvl k
  ⟨as.map fun a => [(a, bs)], sideOf (vKind va), sideOf (vKind vb), maxExp as, maxExp bs, 1⟩

/-- The step count of an OPA before skipping. -/
def opaSteps (da db : Side) : Nat := da.p * db.p

/-- The checks of OPA and OPA.T (R278). -/
def opaOk (d : AccN) (va vb : VReg) (k : Nat) (s : State) : Bool :=
  tileOk d s && operandOk s.core.fmt s.me.mvl va && operandOk s.core.fmt s.me.mvl vb && decide ((k + 1) * s.me.mvl ≤ s.me.vl)

/-- OPA once its checks have passed: leave, poison, and the products. -/
def opaRun (d : AccN) (a b : VRegN) (k : Nat) (s : State) : Res Unit :=
  let va := vSrc a s
  let vb := vSrc b s
  (askLeave true (opaSteps (sideOf (vKind va)) (sideOf (vKind vb))) s).bind fun _ s =>
    (cleanSlices [(a, [k]), (b, [k])] s).bind fun _ s => accumulate d.1 false (fun s => (slicePass va vb s.me.mvl k, 0)) s

/-- OPA (R275). -/
def execOpa (d : AccN) (a b : VRegN) (k : BitVec 6) (s : State) : Out :=
  let i : Instr := .opa d a b k
  ((chapter i s).bind fun _ s => (require i (opaOk d (vSrc a s) (vSrc b s) k.toNat s) s).bind fun _ s => opaRun d a b k.toNat s).out

/-- The tile bit that SBASE names (R279, R288). -/
def tileBit (t : Strand) : Nat := t.sbase.toNat / 256 % 256

/-- OPA.T (R279). -/
def execOpaT (d : AccN) (a b : VRegN) (c : TmReg) (k : BitVec 6) (s : State) : Out :=
  let i : Instr := .opaT d a b c k
  ((chapter i s).bind fun _ s =>
    (require i (opaOk d (vSrc a s) (vSrc b s) k.toNat s) s).bind fun _ s =>
      if (tmR c s).getLsbD (tileBit s.me) then opaRun d a b k.toNat s else .ok () (retire (clearQuota s))).out

/-- N of OPA.S. -/
def opaSN (n : Fin 3) : Nat := 2 ^ (n.1 + 1)

/-- The products of OPA.S (R280). -/
def sparsePass (va vb vi : VReg) (mvl g n : Nat) : Pass :=
  let cols := ((List.range 16).map fun k => matrixSlice vb mvl (16 * g + k)).toArray
  let as := (List.range n).map fun k => matrixSlice va mvl (n * g + k)
  ⟨(List.range mvl).map fun i => (List.range n).map fun k =>
      let e := (n * g + k) * mvl + i
      (sigOf va e, cols.getD (elem vi e % 16) []),
   sideOf (vKind va), sideOf (vKind vb), maxExp as.flatten, maxExp cols.toList.flatten, n⟩

/-- OPA.S (R278, R280). -/
def execOpaS (d : AccN) (a b : VRegN) (g : Fin 4) (n : Fin 3) (v : VRegN) (s : State) : Out :=
  let i : Instr := .opaS d a b g n v
  ((chapter i s).bind fun _ s =>
    let va := vSrc a s
    let vb := vSrc b s
    let vi := vSrc v s
    let da := sideOf (vKind va)
    let db := sideOf (vKind vb)
    let m := opaSN n
    (require i (tileOk d s && operandOk s.core.fmt s.me.mvl va && operandOk s.core.fmt s.me.mvl vb && vBlock va == 0 && vBlock vb == 0 &&
        vBlock vi == 0 && vKind vi == .n 4 && decide (m * da.p * db.p ≤ 256) && decide ((16 * g.1 + 16) * s.me.mvl ≤ s.me.vl)) s).bind fun _ s =>
      (askLeave true (m * opaSteps da db) s).bind fun _ s =>
        let kept := (List.range m).map fun k => m * g.1 + k
        (cleanSlices [(a, kept), (v, kept), (b, (List.range 16).map fun k => 16 * g.1 + k)] s).bind fun _ s =>
          accumulate d.1 true (fun s => (sparsePass va vb vi s.me.mvl g.1 m, 0)) s).out

/-! ## The accumulator as an operand (R281) -/

/-- The kind that the down-converter makes. -/
def downKind (fmt : Nat) : Kind := if fmt = fmtF32 then .bf16 else .s 16

/-- A cell through the down-converter: its code and flags. -/
def downCell (fmt code : Nat) : Nat × Nat :=
  if fmt = fmtF32 then encodeVal .bf16 rneOnly 0 (cellVal fmt code)
  else if fmt = fmtS32 then
    let x := signExtend code 32
    let y := clampInt x (-(2 ^ 15)) (2 ^ 15 - 1)
    (lowCode 16 y, if y = x then 0 else fSAT)
  else (code, 0)

/-- The products of the ACA form, with the down-converter's flags. -/
def acaPass (a : Nat) (vb : VReg) (c : Nat) (s : State) : Pass × Nat :=
  let fmt := s.core.fmt
  let mvl := s.me.mvl
  let cs := (List.range mvl).map fun i => downCell fmt (cellAt a i c s)
  let as := cs.map fun x => sigCode (downKind fmt) x.1 0
  let bs := matrixSlice vb mvl (c % 64)
  (⟨as.map fun x => [(x, bs)], sideOf (downKind fmt), sideOf (vKind vb), maxExp as, maxExp bs, 1⟩, cs.foldl (fun f x => f ||| x.2) 0)

/-- OPA with an accumulator operand (R278, R281). -/
def execOpaAca (d a : AccN) (b : VRegN) (h : BitVec 2) (l : BitVec 6) (s : State) : Out :=
  let i : Instr := .opaAca d a b h l
  let c := h.toNat * 64 + l.toNat
  ((chapter i s).bind fun _ s =>
    let vb := vSrc b s
    (require i (tileOk d s && tileOk a s && a != d && decide (c < s.me.mvl) && operandOk s.core.fmt s.me.mvl vb &&
        decide ((l.toNat + 1) * s.me.mvl ≤ s.me.vl)) s).bind fun _ s =>
      (askLeave true (opaSteps (sideOf (downKind s.core.fmt)) (sideOf (vKind vb))) s).bind fun _ s =>
        (cleanSlices [(b, [l.toNat])] s).bind fun _ s =>
          (cleanCells a.1 ((List.range s.me.mvl).map fun r => (r, c)) s).bind fun _ s => accumulate d.1 false (acaPass a.1 vb c) s).out

/-! ## MMODE and ACCZ (R270, R272, R282) -/

/-- FMT changed: every cell zero, the staging words discarded, which the next block clears as it opens, no owner (R272, R275). -/
def changeFormat (f : Nat) (s : State) : State :=
  let pc := s.me.pc
  onCore (fun c =>
    { c with
      fmt := f
      acc := Vector.replicate 2 (Vector.replicate 256 0)
      owner := none, base := none, count := 0
      dirty := markUnits ((List.range 128).map fun k => 384 + k) c.dirty
      cellPoison := []
      cellWriter := Vector.replicate 4 (Vector.replicate 256 (Vector.replicate 4 pc)) }) s

/-- MMODE (R270, R272). One that changes FMT waits for the renamed instructions of this chapter in the other strands of its core. -/
def execMmode (k : BitVec 14) (s : State) : Out :=
  ((immValue k s).bind fun w s =>
    (vqueue (.mmode k) s).bind fun _ s =>
      let m := fld w 0 3
      let n := fld w 3 3
      let f := fld w 6 2
      (require (.mmode k) (decide (m ≤ 4) && decide (n ≤ 5) && decide (f ≤ 2)) s).bind fun _ s =>
        if formatTurn (f != s.core.fmt) s then
          let s1 := if f = s.core.fmt then s else changeFormat f s
          .ok () (advance (onMe (fun t => { t with mvl := 2 ^ (m + 4), nbl := n, leave := .none }) s1))
        else if f = s.core.fmt then .stop s
        else .stop (askFormat s)).out

/-- ACCZ (R282). -/
def execAccz (d : AccN) (s : State) : Out :=
  ((chapter (.accz d) s).bind fun _ s =>
    (require (.accz d) (tileOk d s) s).bind fun _ s =>
      let s1 := if s.core.owner = some d.1 then onCore (fun c => { c with owner := none, count := 0 }) s else s
      .ok () (retire (clearQuota (noteCells d.1 (fun _ _ => true) (cleanse d.1 (fun _ _ => true) (mapTile d.1 (fun _ => true) (fun _ r => r.map fun _ => 0) s1)))))).out

/-! ## ACCRD (R282) -/

/-- The scale of a block of a row of values: chosen from those `es` names, with its flag; `kept` when there are none. -/
def rowScale (k : Kind) (f : Nat → XVal) (es : List Nat) (kept : Nat) : Nat × Nat :=
  match es with
  | [] => (kept, 0)
  | es => scaleCode (largest (es.map f)) k

/-- The row or column that ACCRD reads, as values. -/
def accLine (a : Nat) (col : Bool) (r : Nat) (s : State) (i : Nat) : XVal := cellVal s.core.fmt (if col then cellAt a i r s else cellAt a r i s)

/-- ACCRD (R282). -/
def execAccrd (d : VRegN) (a : AccN) (c : Bool) (r : BitVec 8) (s : State) : Out :=
  let i : Instr := .accrd d a c r
  ((chapter i s).bind fun _ s =>
    let vd := vSrc d s
    (require i (tileOk a s && decide (r.toNat < s.me.mvl)) s).bind fun _ s =>
      (fits i d vd.tag s).bind fun _ s =>
        let before := s
        (closeIf (fun o => o == a.1) s).bind fun _ s =>
          let n := min s.me.vl s.me.mvl
          let es := (List.range n).filter (active s.me)
          match cellHit a.1 (es.map fun e => if c then (e, r.toNat) else (r.toNat, e)) s with
          | some m => .stop (cellTrap m before)
          | none =>
            let f := accLine a.1 c r.toNat s
            let l := vBlock vd
            let scale (k : Nat) : Nat × Nat :=
              rowScale (vKind vd) f (((List.range l).map fun j => k * l + j).filter fun e => es.contains e) (scaleByte vd.scale k)
            let code (e : Nat) : Nat × Nat :=
              if l = 0 then encodeVal (vKind vd) (roundingOf s.me) e (f e)
              else
                let x := scale (e / l)
                let y := encodeBlocked (roundingOf s.me) (vKind vd) x.1 e (f e)
                (y.1, y.2 ||| x.2)
            let flags := es.foldl (fun fl e => fl ||| (code e).2) 0
            .ok () (wholeV d vd.tag (fun e => if !active s.me e then none else if e < s.me.mvl then some (code e).1 else some 0)
              (fun k => (scale k).1) flags s)).out

/-! ## DRAIN (R283) -/

/-- The fields of DRAIN's descriptor. -/
def ddSTRIDE (w : Word) : Nat := fld w 32 32
def ddTR (w : Word) : Bool := bit w 17
def ddCMP (w : Word) : Bool := bit w 16
def ddTAG (w : Word) : BitVec 16 := BitVec.ofNat 16 (fld w 0 16)

/-- Whether a descriptor is legal for a base and a matrix length. -/
def drainOk (w base : Word) (mvl : Nat) : Bool :=
  let tag := ddTAG w
  let c := containerBits (tagWidth tag)
  fld w 18 14 == 0 && !tagIllegal tag && ddSTRIDE w % 8 == 0 && decide (ceilDiv (mvl * c) 8 ≤ ddSTRIDE w) && decide (blockLen tag ≤ mvl) &&
    (!ddCMP w || (blockLen tag == 0 && base.toNat % 64 == 0 && mvl * ddSTRIDE w % 64 == 0))

/-- The value that output element `k` of row `r` has. -/
def drainVal (a : Nat) (w : Word) (s : State) (r k : Nat) : XVal := cellVal s.core.fmt (if ddTR w then cellAt a k r s else cellAt a r k s)

/-- The scale of block `b` of output row `r`. -/
def drainScale (a : Nat) (w : Word) (s : State) (r b : Nat) : Nat × Nat :=
  let l := blockLen (ddTAG w)
  rowScale (kindOf (ddTAG w)) (drainVal a w s r) ((List.range l).map fun j => b * l + j) 0x7F

/-- The code of output element `k` of row `r`, with its flags. -/
def drainCode (a : Nat) (w : Word) (s : State) (r k : Nat) : Nat × Nat :=
  let tag := ddTAG w
  let n := r * s.me.mvl + k
  if blockLen tag = 0 then encodeVal (kindOf tag) (roundingOf s.me) n (drainVal a w s r k)
  else
    let x := drainScale a w s r (k / blockLen tag)
    let y := encodeBlocked (roundingOf s.me) (kindOf tag) x.1 n (drainVal a w s r k)
    (y.1, y.2 ||| x.2)

/-- The writes of output element `e`, with its block's scale where it begins a block. -/
def drainElement (a : Nat) (w base : Word) (now : State) (e : Nat) (s : State) : Except (Word × XFault) Unit × State :=
  let mvl := now.me.mvl
  let tag := ddTAG w
  let l := blockLen tag
  let r := e / mvl
  let k := e % mvl
  let c := containerBits (tagWidth tag)
  let rq := reqOf s.me
  match pieceWrites rq .vstore false (containerCode (kindOf tag) (drainCode a w now r k).1) [containerPiece (base + wd (r * ddSTRIDE w)) c c k] s with
  | (.error x, s1) => (.error x, s1)
  | (.ok ws, s1) =>
    if l ≠ 0 ∧ k % l = 0 then
      match pieceWrites rq .vstore false (drainScale a w now r (k / l)).1 [scalePiece base (mvl * ddSTRIDE w + r * (mvl / l) + k / l)] s1 with
      | (.error x, s2) => (.error x, s2)
      | (.ok vs, s2) => (.ok (), pushWrites (ws ++ vs) s2)
    else (.ok (), pushWrites ws s1)

/-- The bytes of an output row: its containers, and zeros up to the stride. -/
def drainRow (a : Nat) (w : Word) (s : State) (r : Nat) : List (BitVec 8) :=
  let tag := ddTAG w
  let codes := (List.range s.me.mvl).map fun k => containerCode (kindOf tag) (drainCode a w s r k).1
  bytesOf (ddSTRIDE w) (packRow (containerBits (tagWidth tag)) codes)

/-- The blocks of 64 bytes of an image. -/
def blocksOf : Nat → List (BitVec 8) → List (List (BitVec 8))
  | 0, _ => []
  | n + 1, bs => bs.take 64 :: blocksOf n (bs.drop 64)

/-- The writes of 8 bytes that make a compressed image, each with its offset and the first output element it concerns (R139). Bytes after the last present block, up to the
length of the image, are not written (log entry 112). -/
def compressedWords (mvl stride c : Nat) (bs : List (List (BitVec 8))) : List (Nat × Nat × Nat) :=
  let set := bs.map fun b => b.any fun x => x != 0
  let h := ceilDiv bs.length 64
  let header := (List.range h).map fun k => (8 * k, bitsOfBools ((set.drop (64 * k)).take 64), 0)
  let firstOf (j : Nat) : Nat :=
    let r := 64 * j / stride
    let k := ceilDiv (64 * j % stride * 8) c
    if k < mvl then r * mvl + k else (r + 1) * mvl
  let present := (bs.zipIdx).filter fun b => b.1.any fun x => x != 0
  let body := present.mapIdx fun n b => (List.range 8).map fun q => (8 * h + 64 * n + 8 * q, natOf ((b.1.drop (8 * q)).take 8), firstOf b.2)
  header ++ body.flatten

/-- Words written one after another, up to the first that faults. -/
def writeWords (base : Word) : List (Nat × Nat × Nat) → State → Option TrapInfo × State
  | [], s => (none, s)
  | (off, w, e) :: rest, s =>
    match pieceWrites (reqOf s.me) .vstore false w [⟨base + wd off, 8, 0, 64, 0⟩] s with
    | (.error (va, x), s1) => (some (elementTrap .vstore e va x s1), s1)
    | (.ok ws, s1) => writeWords base rest (pushWrites ws s1)

/-- The writes of DRAIN, of the output elements up to a bound, with the first fault; the values are those of a state whose block is closed. -/
def drainRun (a : Nat) (w base : Word) (now : State) (upTo : Nat) (s : State) : Option TrapInfo × State :=
  let mvl := now.me.mvl
  if ddCMP w then
    writeWords base ((compressedWords mvl (ddSTRIDE w) (containerBits (tagWidth (ddTAG w)))
      (blocksOf (mvl * ddSTRIDE w / 64) ((List.range mvl).flatMap (drainRow a w now)))).filter fun x => decide (x.2.2 < upTo)) s
  else
    let r := runElements .vstore (drainElement a w base now) (List.range upTo) s
    (runTrap r.1, r.2)

/-- DRAIN (R283). Of faults the one of the lowest output element is taken, of one element's the translation fault first (R336); a fault leaves the block as it was. -/
def execDrain (a : AccN) (p q : GReg) (s : State) : Out :=
  let i : Instr := .drain a p q
  ((chapter i s).bind fun _ s =>
    let w := gR q s
    let base := gR p s
    let mvl := s.me.mvl
    (require i (tileOk a s && drainOk w base mvl) s).bind fun _ s =>
      let closing := closeIf (fun o => o == a.1)
      (closing s).bind fun _ now =>
        match cellHit a.1 ((squareCells mvl).map fun c => if ddTR w then (c.2, c.1) else c) now with
        | some m =>
          match drainRun a.1 w base now ((if ddTR w then m.col * mvl + m.row else m.row * mvl + m.col) + 1) s with
          | (some t, s1) => .stop (trapHere t s1)
          | (none, _) => .stop (cellTrap m s)
        | none =>
          let flags := (List.range (mvl * mvl)).foldl (fun f e => f ||| (drainCode a.1 w now (e / mvl) (e % mvl)).2) 0
          match drainRun a.1 w base now (mvl * mvl) s with
          | (some t, s1) => .stop (trapHere t s1)
          | (none, s1) => (closing s1).bind fun _ s2 => .ok () (retire (clearQuota (raise flags s2)))).out

/-! ## SCOUT (R287) -/

/-- P' of an operand: the planes of its high part. -/
def highPlanes (p : Nat) (r : VReg) : Nat := min p (vWidth r)

/-- The high part of element `i`: the value of its top planes (R287). -/
def highPart (p : Nat) (r : VReg) (i : Nat) : Int :=
  let drop := vWidth r - highPlanes p r
  elemInt r i - (elem r i % 2 ^ drop : Nat)

/-- Lo of an operand. -/
def lowBound (p : Nat) (r : VReg) : Nat := 2 ^ (vWidth r - highPlanes p r) - 1

/-- The largest magnitude of the high parts below VL. -/
def highBound (p : Nat) (r : VReg) (vl : Nat) : Nat := ((List.range vl).map fun i => (highPart p r i).natAbs).foldl max 0

/-- A source without the marks of the planes that SCOUT does not read. -/
def scoutSrc (p : Nat) (r : Fin 32) (s : State) : Fin 32 × VReg :=
  let v := vSrc r s
  let reads (m : PoisonMark) : Bool :=
    let k := m.seg * 64 / s.me.mvl
    decide (vWidth v - highPlanes p v ≤ m.plane) && !planeZero v m.plane (k * s.me.mvl / 64 * 64) (ceilDiv ((k + 1) * s.me.mvl) 64 * 64)
  (r, { v with poison := v.poison.filter reads })

/-- The cell that SCOUT writes for an exact sum, with its flag. -/
def scoutCell (fmt : Nat) (x : Int) : Nat × Nat :=
  if fmt = fmtF32 then
    let r := rneFp32 (.ofInt x)
    (plusZero r.1, r.2 &&& fNX)
  else cellClamp fmt x

/-- Whether a register is sN and unblocked. -/
def plainS (r : VReg) : Bool := vBlock r == 0 && (match vKind r with | .s _ => true | _ => false)

/-- SCOUT (R278, R287). -/
def execScout (d : AccN) (a b : VRegN) (e : GReg) (p : Fin 4) (s : State) : Out :=
  let i : Instr := .scout d a b e p
  let n := p.1 + 1
  ((chapter i s).bind fun _ s =>
    let va := vSrc a s
    let vb := vSrc b s
    let mvl := s.me.mvl
    let k := s.me.vl / mvl
    let steps := k * highPlanes n va * highPlanes n vb
    (require i (tileOk d s && plainS va && plainS vb && decide (0 < s.me.vl) && s.me.vl % mvl == 0 && decide (steps ≤ 1024)) s).bind fun _ s =>
      (askLeave true steps s).bind fun _ s =>
        (unpoisoned [scoutSrc n a s, scoutSrc n b s] (List.range s.me.vl) s).bind fun _ s =>
          (closeIf (fun _ => true) s).bind fun _ s =>
            let fmt := s.core.fmt
            let qs := ((List.range s.me.vl).map (highPart n va)).toArray
            let ks := ((List.range s.me.vl).map (highPart n vb)).toArray
            let cells := (List.range mvl).map fun r => (List.range mvl).map fun j =>
              scoutCell fmt (sumInts ((List.range k).map fun t => qs.getD (t * mvl + r) 0 * ks.getD (t * mvl + j) 0))
            let flags := cells.foldl (fun f r => r.foldl (fun f c => f ||| c.2) f) 0
            let rows := cells.toArray
            let within (r w : Nat) : Bool := decide (r < mvl) && decide (64 * w < mvl)
            let s1 := mapTile d.1 (fun r => decide (r < mvl)) (fun r old => (rows.getD r []).map (fun c => c.1) ++ old.drop mvl)
              (noteCells d.1 within (cleanse d.1 (fun r w => within r w && mvl % 64 == 0) s))
            let aq := highBound n va s.me.vl
            let ak := highBound n vb s.me.vl
            let bound := k * (aq * lowBound n vb + lowBound n va * ak + lowBound n va * lowBound n vb)
            .ok () (retireG e (wd bound) (raise flags s1))).out

/-! ## THRESH and the tile masks (R288, R289) -/

/-- The coarse maximum of some cells: NaN if one is NaN. -/
def coarseMax (xs : List XVal) : XVal :=
  match xs with
  | [] => .ofInt 0
  | x :: rest => rest.foldl (fun m y => if m.isNan || y.isNan then .nan else if m.lt y then y else m) x

/-- The bit and the value that THRESH writes (R288). -/
def threshResult (c : XVal) (greedy : Bool) (threshold : Int) (bound : Nat) : Bool × Word :=
  match c with
  | .nan => (true, 0x7FFFFFFFFFFFFFFF)
  | .inf neg => (!neg, if neg then 0x8000000000000000 else 0x7FFFFFFFFFFFFFFF)
  | .fin n d _ => (decide (threshold * d ≤ n + (if greedy then 0 else bound * d : Nat)), BitVec.ofInt 64 (clampInt (n / (d : Int)) (-(2 ^ 63)) (2 ^ 63 - 1)))

/-- A bit of a tile mask set to a value. -/
def setTileBit (t : Nat) (b : Bool) (m : TileMask) : TileMask :=
  let one : TileMask := 1#256 <<< (t % 256)
  if b then m ||| one else m &&& ~~~one

/-- THRESH (R288). -/
def execThresh (d : TmReg) (a : AccN) (b : GReg) (g : Bool) (c : GReg) (s : State) : Out :=
  let i : Instr := .thresh d a b g c
  ((chapter i s).bind fun _ s =>
    (require i (tileOk a s) s).bind fun _ s =>
      let mvl := s.me.mvl
      let before := s
      (closeIf (fun o => o == a.1) s).bind fun _ s =>
        match cellHit a.1 (squareCells mvl) s with
        | some m => .stop (cellTrap m before)
        | none =>
          let cells := (List.range mvl).flatMap fun r => ((cellRow a.1 r s).take mvl).map (cellVal s.core.fmt)
          let r := threshResult (coarseMax cells) g (gR b s).toInt (gR c s).toNat
          .ok () (retireG c r.2 (setTm d (setTileBit (tileBit s.me) r.1 (tmR d s)) s))).out

/-- TMAND (R289). -/
def execTmand (d a b : TmReg) (n : Bool) (s : State) : Out :=
  ((chapter (.tmand d a b n) s).bind fun _ s =>
    .ok () (retire (clearQuota (setTm d (tmR a s &&& (if n then ~~~(tmR b s) else tmR b s)) s)))).out

/-- TMPOPC (R289). -/
def execTmpopc (d : GReg) (a : TmReg) (s : State) : Out :=
  ((chapter (.tmpopc d a) s).bind fun _ s => .ok () (retireG d (wd (popcount 256 (tmR a s).toNat)) s)).out

end Sys2Proof.Machine
end

