-- ==== Sys2Proof/Machine/Streams.lean ====
section
/-! DEFINITION. Stream slots (R134 to R136, R306, R314, R315) and the landing buffer (R78). -/

namespace Sys2Proof.Machine

/-! ## The landing buffer (R78) -/

/-- The landing-buffer slots that a command reserves: its destination's planes, and its scale plane. -/
def cmdSlots (c : Cmd) : Nat := if dirToV c.dir then tagWidth (cmdDTAG c) + (if blockLen (cmdDTAG c) = 0 then 0 else 1) else 0

/-- The slots that a tag reserves: those that it holds, or those for which its command still waits. -/
def tagSlots (g : TagReg) : Nat :=
  match g.cmd with
  | some c => if g.st = .busy ∧ c.granted = false then cmdSlots c else g.slots.length
  | none => 0

/-- The slots that a strand's open streams hold. -/
def streamSlots (t : Strand) : List Nat := t.sq.toList.flatMap fun q => q.slots

/-- How many slots a strand has reserved, granted or not. -/
def slotsOfStrand (t : Strand) (s : State) : Nat :=
  ((coreAt t.mesh s).tags.toList.map fun g => if (g.cmd.map fun c => c.sid) = some t.sid then tagSlots g else 0).foldl (· + ·) 0 + (streamSlots t).length

/-- The slots of a core's buffer that are held. -/
def heldSlots (mesh : Nat) (s : State) : List Nat := ((coreAt mesh s).tags.toList.flatMap fun g => g.slots) ++ (strandsOf mesh s).flatMap streamSlots

/-- How many slots of a core's buffer are held. -/
def slotsHeld (mesh : Nat) (s : State) : Nat := (heldSlots mesh s).length

/-- The slots of a landing buffer. -/
def landingSlots : Nat := 64

/-- Some free slots of a core's buffer (log entry 81). -/
def takeSlots (mesh n : Nat) (s : State) : List Nat :=
  let used := heldSlots mesh s
  takePlanes n ((List.range landingSlots).filter fun k => !used.contains k)

/-! ## Slots -/

/-- The elements of a stream block. -/
def blockSize : Nat := 16384

/-- A slot of the strand, and one changed. -/
def sqR (q : SqN) (s : State) : Stream := s.me.sq[q]
def modSq (q : SqN) (f : Stream → Stream) (s : State) : State := onMe (fun t => { t with sq := t.sq.set q (f t.sq[q]) }) s

/-- The other member of a fibre pair. -/
def partner (q : SqN) : SqN := fin 8 (by decide) (if q.1 % 2 = 0 then q.1 + 1 else q.1 - 1)

/-- A change of a slot, and of both members of a fibre pair. -/
def modBoth (q : SqN) (f : Stream → Stream) (s : State) : State :=
  if (sqR q s).fib then modSq (partner q) f (modSq q f s) else modSq q f s

/-- Whether a slot holds one block rather than two: a fibre pair of fp32 values (R134). The index slot holds the tag of the values in g[b] too. -/
def oneBlock (q : Stream) : Bool := q.fib && tagWidth (BitVec.ofNat 16 (fld q.desc 0 16)) == 32

/-- The blocks that a slot may fetch: the two from its position on, or the one, with the next while a pop waits for it (R134, R135). -/
def dueBlocks (q : Stream) : List Nat :=
  let b := q.pos / blockSize
  let bs := if oneBlock q then (if q.want then [b, b + 1] else [b]) else [b, b + 1]
  match q.bound with
  | none => bs
  | some n => bs.filter fun k => decide (k < n)

/-- The position advanced: the blocks that it has left are dropped. -/
def advanceSq (n : Nat) (q : Stream) : Stream :=
  let p := q.pos + n
  { q with pos := p, landed := q.landed.filter fun b => decide (p / blockSize ≤ b.block), want := false }

/-! ## SQOPEN (R134, R314) -/

/-- The number of dimensions of an affine pattern. -/
def dimsOf (desc : Word) : Nat := fld desc 16 2

/-- The count and the stride of a dimension. -/
def dimCount (w : Word) : Nat := fld w 0 32
def dimStride (w : Word) : Int := signExtend (fld w 32 32) 32

/-- The tag that g[b] names. -/
def streamTag (desc : Word) : BitVec 16 := BitVec.ofNat 16 (fld desc 0 16)

/-- Whether a pattern is legal. -/
def patternOk (fib : Bool) (desc : Word) (pat : List Word) : Bool :=
  let tag := streamTag desc
  !tagIllegal tag && blockLen tag == 0 &&
    (if fib then decide (fld (pat.getD 3 0) 0 32 ≤ fld (pat.getD 3 0) 32 32)
     else dimsOf desc != 0 && ((pat.drop 1).take (dimsOf desc)).all fun w => dimCount w != 0)

/-- The total of an affine pattern. -/
def affineTotal (desc : Word) (pat : List Word) : Nat := (((pat.drop 1).take (dimsOf desc)).map dimCount).foldl (· * ·) 1

/-- The slots that an open reserves for the slot it names and for the index slot of a pair. -/
def openSlots (fib : Bool) (tag : BitVec 16) : Nat × Nat :=
  let w := tagWidth tag
  if !fib then (2 * w, 0) else if w = 32 then (32, 16) else (2 * w, 32)

/-- SQOPEN (R134, R314). It waits while the landing buffer is full, and may take free slots ahead of a copy command that waits for more of them (log entry 38). -/
def execSqopen (d : SqN) (a b : GReg) (f : Bool) (s : State) : Out :=
  let i : Instr := .sqopen d a b f
  ((vqueue i s).bind fun _ s =>
    let desc := gR b s
    let pat := (List.range 4).map fun k => gPlus a k s
    let n := openSlots f (streamTag desc)
    (require i ((sqR d s).st == .closed && (!f || (d.1 % 2 == 0 && (sqR (partner d) s).st == .closed)) && patternOk f desc pat &&
        decide (slotsOfStrand s.me s + n.1 + n.2 ≤ landingSlots)) s).bind fun _ s =>
      if landingSlots < slotsHeld s.me.mesh s + n.1 + n.2 then .stop s
      else
        let slots := takeSlots s.me.mesh (n.1 + n.2) s
        let opened : Stream := { Stream.reset with st := .open, fib := f, desc := desc, pat := pat, priv := s.me.priv }
        let s1 := modSq d (fun _ =>
          { opened with tag := streamTag desc, size := if f then none else some (affineTotal desc pat), slots := slots.take n.1 }) s
        let s2 := if f then modSq (partner d) (fun _ => { opened with index := true, tag := 0x001F, slots := slots.drop n.1 }) s1 else s1
        .ok () (advance s2)).out

/-! ## SQADV, SQEND, SQCLOSE (R315) -/

/-- An instruction on a slot that is not closed. -/
def onOpenSlot (i : Instr) (q : SqN) (f : State → State) (s : State) : Out :=
  ((vqueue i s).bind fun _ s => (require i ((sqR q s).st != .closed) s).bind fun _ s => .ok () (advance (f s))).out

/-- SQADV (R315). -/
def execSqadv (d : SqN) (a : GReg) (s : State) : Out :=
  onOpenSlot (.sqadv d a) d (fun s => modSq d (advanceSq (gR a s).toNat) s) s

/-- A slot that has ended: what it was fetching it may still fetch, and nothing after it. -/
def endSlot (q : Stream) : Stream :=
  if q.st = .ended then q
  else { q with st := .ended, bound := some (q.pos / blockSize + (if oneBlock q then 1 else 2)) }

/-- SQEND (R315). -/
def execSqend (d : SqN) (s : State) : Out := onOpenSlot (.sqend d) d (modBoth d endSlot) s

/-- SQCLOSE (R315). -/
def execSqclose (d : SqN) (s : State) : Out := onOpenSlot (.sqclose d) d (modBoth d fun _ => Stream.reset) s

/-! ## Refills (R135, R136) -/

/-- What a read of a refill brings for an element of the stream: its code, the fault that its pop reports, and what the slices count. -/
structure Fetched where
  code : Nat
  fault : Option StreamFault
  reads : List (Bool × Nat)

/-- One piece read at its home. ELEM of a fault's record is filled in by the pop; an uncorrectable error is recorded with its physical address (R136; log entry 85). -/
def fetchPiece (rq : Req) (p : Piece) (s : State) : Fetched × State :=
  match readPieces readHome rq .refill [p] s with
  | (.error (va, x), s1) => (⟨0, some (.xlate (faultRecord rq .refill va (some 0) x)), []⟩, s1)
  | (.ok c, s1) => (⟨c.code, c.bad.map fun pa => .memory (faultRecord rq .refill p.va (some 0) ⟨0, 0, wd pa, false⟩), c.reads⟩, s1)

/-- Elements read one after another from the places that `f` gives them. -/
def fetchElements (rq : Req) (f : Nat → Piece) : List Nat → State → List Fetched × State
  | [], s => ([], s)
  | e :: es, s =>
    let x := fetchPiece rq (f e) s
    let r := fetchElements rq f es x.2
    (x.1 :: r.1, r.2)

/-- The place of element `e` of an affine pattern. -/
def affineOffset : List Word → Nat → Int
  | [], _ => 0
  | w :: ws, e => (e % dimCount w : Nat) * dimStride w + affineOffset ws (e / dimCount w)

/-- The piece of element `e` of an affine pattern. -/
def affinePiece (desc : Word) (pat : List Word) (e : Nat) : Piece :=
  let w := tagWidth (streamTag desc)
  containerPiece (pat.getD 0 0 + BitVec.ofInt 64 (affineOffset ((pat.drop 1).take (dimsOf desc)) e)) (containerBits w) w 0

/-- A row pointer of a fibre pattern. -/
def rowPiece (pat : List Word) (r : Nat) : Piece := ⟨pat.getD 0 0 + wd (4 * r), 4, 0, 32, 0⟩

/-- What the row pointers of a fibre pattern tell: the number of its first entry, how many elements are known, the fault met at the next one, whether the rows end there, and
what the slices count. -/
structure Rows where
  first : Nat
  count : Nat
  fault : Option StreamFault
  ended : Bool
  reads : List (Bool × Nat)

/-- Row pointers read on from a row until `need` elements are known, or the rows end, or one decreases or cannot be read (R314). -/
def scanRows (rq : Req) (pat : List Word) (first need : Nat) : Nat → Nat → Nat → State → Rows × State
  | 0, _, last, s => (⟨first, last - first, none, true, []⟩, s)
  | n + 1, r, last, s =>
    if need ≤ last - first then (⟨first, last - first, none, false, []⟩, s)
    else
      let x := fetchPiece rq (rowPiece pat (r + 1)) s
      if x.1.fault.isSome then (⟨first, last - first, x.1.fault, false, x.1.reads⟩, x.2)
      else if x.1.code < last then (⟨first, last - first, some .order, false, x.1.reads⟩, x.2)
      else
        let rest := scanRows rq pat first need n (r + 1) x.1.code x.2
        ({ rest.1 with reads := x.1.reads ++ rest.1.reads }, rest.2)

/-- The rows of a fibre pattern, as far as `need` elements. -/
def fibreRows (rq : Req) (pat : List Word) (need : Nat) (s : State) : Rows × State :=
  let row0 := fld (pat.getD 3 0) 0 32
  let rows := fld (pat.getD 3 0) 32 32 - row0
  if rows = 0 then (⟨0, 0, none, true, []⟩, s)
  else
    let x := fetchPiece rq (rowPiece pat row0) s
    if x.1.fault.isSome then (⟨0, 0, x.1.fault, false, x.1.reads⟩, x.2)
    else
      let r := scanRows rq pat x.1.code need rows row0 x.1.code x.2
      ({ r.1 with reads := x.1.reads ++ r.1.reads }, r.2)

/-- The piece of element `e` of a fibre pair's member, whose first entry has number `first` (R314). -/
def fibrePiece (q : Stream) (first e : Nat) : Piece :=
  let w := tagWidth q.tag
  containerPiece (q.pat.getD (if q.index then 1 else 2) 0) (containerBits w) w (first + e)

/-- A block of a stream whose elements were read: their codes, with the faults of each and of those that the row pointers do not reach. -/
def landedBlock (b : Nat) (xs : List Fetched) (beyond : Option StreamFault) : LandedBlock :=
  let lo := b * blockSize
  ⟨b, xs.map fun x => x.code,
   (xs.zipIdx.filterMap fun x => x.1.fault.map fun f => (lo + x.2, f)) ++
     (match beyond with
      | none => []
      | some f => (List.range (blockSize - xs.length)).map fun k => (lo + xs.length + k, f))⟩

/-- A block of a stream read at its home, as one request; the number of the stream's elements where it has become known. -/
def fetchBlock (rq : Req) (q : Stream) (b : Nat) (s : State) : LandedBlock × Option Nat × State :=
  let lo := b * blockSize
  let upTo (total : Nat) : List Nat := (List.range (min blockSize (total - lo))).map fun k => lo + k
  if !q.fib then
    let r := fetchElements rq (affinePiece q.desc q.pat) (upTo (affineTotal q.desc q.pat)) s
    (landedBlock b r.1 none, q.size, countReads rq.ctx (r.1.flatMap fun x => x.reads) r.2)
  else
    let n := fibreRows rq q.pat (lo + blockSize) s
    let r := fetchElements rq (fibrePiece q n.1.first) (upTo n.1.count) n.2
    (landedBlock b r.1 n.1.fault, if n.1.ended then some n.1.count else q.size, countReads rq.ctx (n.1.reads ++ r.1.flatMap fun x => x.reads) r.2)

/-- The landing-buffer slots that a block of a stream fills: the half of the reservation that its number names, or all of it (R134). -/
def blockSlots (q : Stream) (b : Nat) : List Nat :=
  let h := q.slots.length / 2
  if oneBlock q then q.slots else if b % 2 = 0 then q.slots.take h else q.slots.drop h

/-- STREAM_REFILL (R135): a block that a slot is due to fetch is fetched; pops use it once the banks have served its reads (R395). Nothing happens when the block is not due, or the core has no power. -/
def execStreamRefill (mesh sid : Nat) (sq : SqN) (block : Nat) (s : State) : Out :=
  .next (atStrand mesh sid (fun s =>
    let q := sqR sq s
    if s.me.mesh = mesh ∧ s.me.sid = sid ∧ s.core.pwr < 2 ∧ q.st ≠ .closed ∧ (dueBlocks q).contains block ∧ !q.landed.any (fun b => b.block == block) then
      let r := fetchBlock { reqOf s.me with priv := q.priv } q block s
      markLanding mesh (blockSlots q block) (modSq sq (fun q => { q with landed := q.landed ++ [r.1], size := r.2.1 }) (noteWaits (.stream mesh sid sq.1 block) s r.2.2))
    else s) s)

/-! ## Pops (R135, R136, R306) -/

/-- A landed block of a slot. -/
def landedAt (q : Stream) (b : Nat) : Option LandedBlock := q.landed.find? fun x => x.block == b

/-- The elements of the stream that a pop needs: those below its end. -/
def neededEnd (q : Stream) (vl : Nat) : Nat :=
  match q.size with
  | none => q.pos + vl
  | some n => min n (q.pos + vl)

/-- The blocks that a pop needs. -/
def blocksNeeded (q : Stream) (vl : Nat) : List Nat :=
  let e := neededEnd q vl
  if e ≤ q.pos then [] else if (e - 1) / blockSize = q.pos / blockSize then [q.pos / blockSize] else [q.pos / blockSize, (e - 1) / blockSize]

/-- The code of a stream element; zero at or beyond the end. -/
def streamElem (q : Stream) (e : Nat) : Nat := ((landedAt q (e / blockSize)).map fun b => b.codes.getD (e % blockSize) 0).getD 0

/-- Who waits at the banks for the blocks that a pop needs. -/
def popWaits (a : SqN) (q : Stream) (s : State) (w : Waiter) : Bool := (blocksNeeded q s.me.vl).any fun b => w == .stream s.me.mesh s.me.sid a.1 b

/-- The lowest fault that a pop reaches, with its block and its element. -/
def popFault (q : Stream) (vl : Nat) : Option (Nat × Nat × StreamFault) :=
  (blocksNeeded q vl).findSome? fun b =>
    (landedAt q b).bind fun x => (x.faults.find? fun f => decide (q.pos ≤ f.1) && decide (f.1 < neededEnd q vl)).map fun f => (b, f.1, f.2)

/-- The trap of a fault of a refill at the pop that needs element `e` of the pop (R136, R314; log entry 85). -/
def refillTrap (i : Instr) (e : Nat) (f : StreamFault) : TrapInfo :=
  match f with
  | .xlate r => xlateTrap (r.set 2 (wd e))
  | .memory r => ⟨6, 0, 0, 0, r[0], r[1], wd e, r[3]⟩
  | .order => ⟨2, 0, 0, 0, wordOf i, wd e, 0, 0⟩

/-- What becomes of a pop that needs elements beyond the blocks that an ended fibre slot fetches, while it is not known where its rows end: the row pointers tell, or their fault is reported; the pop
waits for elements that are not fetched any more (R135, R314; log entry 101). -/
def findEnd (i : Instr) (a : SqN) (q : Stream) (s : State) : State :=
  let r := fibreRows { reqOf s.me with priv := q.priv } q.pat (q.pos + s.me.vl) s
  let s1 := countReads s.me.ctx r.1.reads r.2
  match r.1.fault with
  | some f => trapHere (refillTrap i (r.1.count - q.pos) f) s1
  | none => if r.1.ended then modSq a (fun q => { q with size := some r.1.count }) s1 else s1

/-- A pop: VLD with LAY 3 (R135, R136, R306). It waits for blocks whose reads the banks have not served (R395). -/
def execVldPop (d : VRegN) (a : SqN) (s : State) : Out :=
  let i : Instr := .vldPop d a
  ((whole i s).bind fun _ s =>
    let q := sqR a s
    let vl := s.me.vl
    (require i (q.st != .closed) s).bind fun _ s =>
      (fits i d q.tag s).bind fun _ s =>
        let missing := (blocksNeeded q vl).filter fun b => (landedAt q b).isNone
        let rowsOpen := q.fib && q.size.isNone && missing.all fun b => q.bound.any fun n => decide (n ≤ b)
        if !missing.isEmpty && !rowsOpen then .stop (modSq a (fun q => { q with want := true }) s)
        else if waitsAtBank (popWaits a q s) s then .stop (joinWaits (popWaits a q s) s)
        else
          match popFault q vl with
          | some (b, e, f) => .stop (trapHere (refillTrap i (e - q.pos) f) (modSq a (fun q => { q with landed := q.landed.filter fun x => x.block != b }) s))
          | none =>
            if !missing.isEmpty then .stop (findEnd i a q s)
            else
            let s1 := wholeV d q.tag (fun k => some (streamElem q (q.pos + k))) (fun _ => 0x7F) 0 s
            .ok () (modSq a (advanceSq vl) s1)).out

end Sys2Proof.Machine
end

