-- ==== Sys2Proof/Machine/Copy.lean ====
section
/-! DEFINITION. Copy engines (R122 to R132, R140, R141, R309 to R311): the issue and acceptance of commands, and the chunks that engines perform. -/

namespace Sys2Proof.Machine

/-! ## Commands (R309, R310) -/

/-- The fields of g[a + 3]. -/
def cpSUBV (c : Cmd) : Nat := fld c.w[3] 16 16
def cpMXI (c : Cmd) : Nat := fld c.w[3] 10 2
def cpCVT (c : Cmd) : Bool := bit c.w[3] 9
def cpSAT (c : Cmd) : Bool := bit c.w[3] 8
def cpDRAW (c : Cmd) : Nat := fld c.w[3] 4 4
def cpSREN (c : Cmd) : Bool := bit c.w[3] 3
def cpRND (c : Cmd) : Nat := fld c.w[3] 0 3

/-- Whether a DIR has a plane-major source. -/
def dirFromP (dir : Nat) : Bool := dir == 2 || dir == 3

/-- s8 with block length 32. -/
def mxTag : BitVec 16 := 0x0307

/-- Whether a command is legal in its own fields (R310). A CPYX reads the fields of g[a + 3] but SLOT as parameters of its routine (R311). -/
def cmdOk (c : Cmd) : Bool :=
  let raw := cmdRAW c
  fld c.w[2] 54 10 == 0 && cmdN c != 0 && (!(dirFromV c.dir || dirToV c.dir) || decide (cmdN c ≤ vlmax)) &&
    !tagIllegal (cmdSTAG c) && !tagIllegal (cmdDTAG c) &&
    (!raw || (c.dir == 0 && cmdSTAG c == 0 && cmdDTAG c == 0)) &&
    (!cmdCMP c || (c.dir == 1 && blockLen (cmdDTAG c) == 0)) &&
    (!dirFromP c.dir || c.w[0].toNat % 8 == 0) && (!dirToP c.dir || c.w[1].toNat % 8 == 0) &&
    (c.calico || (decide (cpRND c < 5) && cpMXI c != 3 && !(raw && (cpCVT c || cpMXI c != 0)) &&
      (raw || cpCVT c || cpMXI c != 0 || cmdSTAG c == cmdDTAG c) &&
      (cpMXI c == 0 || (cmdSTAG c == mxTag && cmdDTAG c == mxTag)) && cpSLOT c == 0))

/-- The commands a core's queue at its engine holds at most (R123). -/
def engineDepth : Nat := 16

/-- The command that a CPY or CPYX reads at issue. -/
def issuedCmd (calico : Bool) (a : GReg) (b : VRegN) (r : Fin 7) (s : State) : Cmd where
  calico := calico
  dir := r.1
  reg := b.1
  w := #v[gPlus a 0 s, gPlus a 1 s, gPlus a 2 s, gPlus a 3 s]
  seed := s.me.seed
  sbase := s.me.sbase
  sid := s.me.sid
  ctx := s.me.ctx
  part := s.me.part
  priv := s.me.priv
  granted := false
  src := []
  srcScale := []

/-- A command with its register source, as it stands at acceptance. -/
def withSource (c : Cmd) (v : VReg) : Cmd :=
  if dirFromV c.dir then
    let l := vBlock v
    { c with
      src := (List.range (cmdN c)).map (elem v)
      srcScale := if l = 0 then [] else (List.range (ceilDiv (cmdN c) l)).map (scaleByte v.scale) }
  else c

/-- Whether a core's buffer has room for a command, and no command accepted before it waits for room. -/
def landingRoom (mesh : Nat) (c : Cmd) (s : State) : Bool :=
  let k := coreAt mesh s
  cmdSlots c == 0 ||
    (decide (slotsHeld mesh s + cmdSlots c ≤ landingSlots) && k.engq.all fun t => (k.tags[t].cmd.map fun x => x.granted) != some false)

/-- A command accepted on a tag: BUSY and in its core's queue, or over with ERR 3 when it names an empty slot (R125, R126, R132). -/
def acceptCmd (t : Tag) (c : Cmd) (s : State) : State :=
  let room := landingRoom s.me.mesh c s
  let empty := c.calico && (routineOf s.me.mesh (cpSLOT c) s).isNone
  let g : TagReg :=
    { TagReg.reset with
      st := if empty then overState c else .busy, cmd := some { c with granted := room }, err := if empty then 3 else 0
      slots := if room then takeSlots s.me.mesh (cmdSlots c) s else [] }
  onCore (fun k => { k with tags := k.tags.set t g, engq := if empty then k.engq else k.engq ++ [t] }) s

/-- Every vector-path write of the strand performed at its home (R124). -/
def performVector (s : State) : State :=
  drainOut s.me.mesh (fun w => w.sid == s.me.sid && w.path == .vector) (drainVector (fun _ => true) s)

/-- CPY and CPYX (R122 to R125, R309 to R311). -/
def issueCopy (i : Instr) (calico : Bool) (a : GReg) (b : VRegN) (r : Fin 7) (t : Tag) (s : State) : Out :=
  ((vqueue i s).bind fun _ s =>
    let c := issuedCmd calico a b r s
    let g := tagAt t s
    let v := s.me.v[b]
    (require i (ownsTag s.me t && (g.st == .free || g.st == .ready) && cmdOk c && (!dirFromV c.dir || v.tag == cmdSTAG c) &&
        decide (slotsOfStrand s.me s + cmdSlots c ≤ landingSlots)) s).bind fun _ s =>
      (if g.st = .ready then deliverTag t s else .ok () s).bind fun _ s =>
        (if dirFromV c.dir then unpoisoned [(b, v)] (List.range (cmdN c)) s else .ok () s).bind fun _ s =>
          if engineDepth ≤ s.core.engq.length then .stop s
          else
            let s1 := performVector (if g.st = .ready then mergeTag t s else s)
            .ok () (advance (acceptCmd t (withSource c v) s1))).out

/-- CPY (R309). -/
def execCpy (a : GReg) (b : VRegN) (r : Fin 7) (t : Tag) (s : State) : Out := issueCopy (.cpy a b r t) false a b r t s

/-- CPYX (R311). -/
def execCpyx (a : GReg) (b : VRegN) (r : Fin 7) (t : Tag) (s : State) : Out := issueCopy (.cpyx a b r t) true a b r t s

/-- COPY_ACCEPT (R78, R124): the command accepted first of those that wait for landing-buffer slots gets them, once they are free. -/
def execCopyAccept (mesh : Nat) (s : State) : Out :=
  let k := coreAt mesh s
  .next (match k.engq.find? fun t => (k.tags[t].cmd.map fun x => x.granted) == some false with
    | none => s
    | some t =>
      match k.tags[t].cmd with
      | none => s
      | some c =>
        if cmdSlots c = 0 ∨ slotsHeld mesh s + cmdSlots c ≤ landingSlots then
          let slots := takeSlots mesh (cmdSlots c) s
          modCore mesh (fun k => { k with tags := k.tags.set t { k.tags[t] with cmd := some { c with granted := true }, slots := slots } }) s
        else s)

/-! ## The transform of a chunk (R130, R131) -/

/-- The rounding of a command. -/
def cmdRounding (c : Cmd) : Rounding :=
  ⟨if cpSREN c then .sr else rmOf (cpRND c), cpSAT c, cpSUBV c, c.seed, c.sbase, cpDRAW c⟩

/-- The scales of the blocks of `n` units, chosen from their values (R71). -/
def chosenScales (k : Kind) (l n : Nat) (vals : Nat → XVal) : List (Nat × Nat) :=
  (List.range (ceilDiv n l)).map fun b =>
    scaleCode (largest ((List.range l).filterMap fun j => if b * l + j < n then some (vals (b * l + j)) else none)) k

/-- Codes encoded one by one, with their flags. -/
def encodeAll (f : Nat → Nat × Nat) (n : Nat) : List Nat × Nat :=
  let cs := (List.range n).map f
  (cs.map fun c => c.1, cs.foldl (fun fl c => fl ||| c.2) 0)

/-- Conversion between kinds (R130): the scales travel when the block lengths are equal, and are chosen by R71 for a blocked destination otherwise. `first` is the position of
the first unit in the transfer. -/
def convertUnits (rd : Rounding) (stag dtag : BitVec 16) (first : Nat) (src scales : List Nat) : Moved :=
  let sc := scales.toArray
  let cs := src.toArray
  let ls := blockLen stag
  let ld := blockLen dtag
  let val (k : Nat) : XVal :=
    if ls = 0 then decodeCode (kindOf stag) (cs.getD k 0) else decodeScaled (kindOf stag) (sc.getD (k / ls) 0x7F) (cs.getD k 0)
  let n := src.length
  if ld = 0 then
    let r := encodeAll (fun k => encodeVal (kindOf dtag) rd (first + k) (val k)) n
    ⟨r.1, [], r.2⟩
  else if ls = ld then
    let r := encodeAll (fun k => encodeBlocked rd (kindOf dtag) (sc.getD (k / ld) 0x7F) (first + k) (val k)) n
    ⟨r.1, scales, r.2⟩
  else
    let ds := chosenScales (kindOf dtag) ld n val
    let da := (ds.map fun x => x.1).toArray
    let r := encodeAll (fun k => encodeBlocked rd (kindOf dtag) (da.getD (k / ld) 0x7F) (first + k) (val k)) n
    ⟨r.1, ds.map fun x => x.1, ds.foldl (fun fl x => fl ||| x.2) r.2⟩

/-- The scale that a code becomes between OCP MXINT8 and s8 blocks (R131). -/
def mxScale (inbound : Bool) (c : Nat) : Nat := if inbound then (if c = 0xFF then 0xFF else c - 6) else min (c + 6) 254

/-- An element between OCP MXINT8 and s8 blocks: its code stays, but where its scale was clamped it is re-encoded. -/
def mxElement (rd : Rounding) (inbound : Bool) (c first k code : Nat) : Nat × Nat :=
  let i := signExtend code 8
  if inbound then (if c < 6 then encodeVal (.s 8) rd (first + k) ((XVal.ofInt i).shift ((c : Int) - 6)) else (code, 0))
  else if c = 0xFF then encodeVal (.s 8) rd (first + k) .nan
  else if 248 < c then encodeVal (.s 8) rd (first + k) ((XVal.ofInt i).shift ((c : Int) - 248))
  else (code, 0)

/-- The MXINT8 conversions (R131). -/
def mxUnits (rd : Rounding) (inbound : Bool) (first : Nat) (src scales : List Nat) : Moved :=
  let sc := scales.toArray
  let cs := src.toArray
  let r := encodeAll (fun k => mxElement rd inbound (sc.getD (k / 32) 0x7F) first k (cs.getD k 0)) src.length
  ⟨r.1, scales.map (mxScale inbound), r.2⟩

/-- The blocks that `count` units from `first` lie in. -/
def blocksFrom (l first count : Nat) : List Nat := if l = 0 then [] else (List.range (ceilDiv count l)).map fun b => first / l + b

/-- What a routine makes of a chunk from what it has read (R132; log entry 9). -/
def routineUnits (c : Cmd) (image : List (BitVec 8)) (chunk first count : Nat) (input : List Nat) : Moved :=
  let ws := cmdWords c
  ⟨(List.range count).map fun k => Config.calicoUnit image ws input (first + k) % 2 ^ unitWidth (cmdRAW c) (cmdDTAG c),
   (blocksFrom (blockLen (cmdDTAG c)) first count).map fun b => Config.calicoScale image ws input b % 256,
   Config.calicoFlags image ws input chunk % 2 ^ 12⟩

/-- What a CPY makes of a chunk's source (R130, R131). -/
def moveUnits (c : Cmd) (first : Nat) (src scales : List Nat) : Moved :=
  if cmdRAW c then ⟨src, [], 0⟩
  else if cpMXI c = 1 then mxUnits (cmdRounding c) true first src scales
  else if cpMXI c = 2 then mxUnits (cmdRounding c) false first src scales
  else if cpCVT c then convertUnits (cmdRounding c) (cmdSTAG c) (cmdDTAG c) first src scales
  else ⟨src, scales, 0⟩

/-! ## Reading and writing at the home (R140, R141) -/

/-- What an engine has read: codes, what the slices count, and why it stopped short. -/
structure UnitsRead where
  codes : List Nat
  reads : List (Bool × Nat)
  stop : Option ChunkEnd

/-- Codes read one after another, up to the first that faults or whose memory is in error (R129). -/
def readUnits (f : Nat → State → Except (Word × XFault) Got × State) : List Nat → State → UnitsRead × State
  | [], s => (⟨[], [], none⟩, s)
  | i :: is, s =>
    match f i s with
    | (.error (va, x), s1) => (⟨[], [], some (.fault .copyRead va x)⟩, s1)
    | (.ok c, s1) =>
      if c.bad.isSome then (⟨[], c.reads, some (.error 2)⟩, s1)
      else
        let r := readUnits f is s1
        (⟨c.code :: r.1.codes, c.reads ++ r.1.reads, r.1.stop⟩, r.2)

/-- One more part of what an engine reads, unless it has stopped. -/
def andRead (x : UnitsRead × State) (f : State → UnitsRead × State) : UnitsRead × UnitsRead × State :=
  if x.1.stop.isSome then (x.1, ⟨[], [], none⟩, x.2) else let y := f x.2; (x.1, y.1, y.2)

/-- A routine's reads for a chunk, of which it makes fewer than its time limit has cycles (R132; log entry 9). -/
def routineReads (c : Cmd) (rq : Req) (image : List (BitVec 8)) (chunk : Nat) : Nat → List Nat → State → UnitsRead × State
  | 0, got, s => (⟨got, [], some (.error 3)⟩, s)
  | n + 1, got, s =>
    match Config.calicoNext image (cmdWords c) chunk got with
    | none => (⟨got, [], none⟩, s)
    | some (off, k) =>
      let bytes := 2 ^ (k % 4)
      match readPieces readHome rq .copyRead [⟨c.w[0] + wd off, bytes, 0, 8 * bytes, 0⟩] s with
      | (.error (va, x), s1) => (⟨got, [], some (.fault .copyRead va x)⟩, s1)
      | (.ok w, s1) =>
        if w.bad.isSome then (⟨got, w.reads, some (.error 2)⟩, s1)
        else
          let r := routineReads c rq image chunk n (got ++ [w.code]) s1
          ({ r.1 with reads := w.reads ++ r.1.reads }, r.2)

/-- The cycles that a routine may spend on a chunk (R132). -/
def routineLimit : Nat := 1048576

/-- The source of a chunk of a CPY: codes and scales. A compressed source whose base is no multiple of 64 stops it like a malformed one (R139; log entry 37). -/
def chunkSource (c : Cmd) (rq : Req) (first count : Nat) (s : State) : UnitsRead × UnitsRead × State :=
  let l := if cmdRAW c then 0 else blockLen (cmdSTAG c)
  let units := (List.range count).map fun k => first + k
  let bs := blocksFrom l first count
  if dirFromV c.dir then (⟨units.map fun i => c.src.getD i 0, [], none⟩, ⟨bs.map fun b => c.srcScale.getD b 0x7F, [], none⟩, s)
  else
    let w := unitWidth (cmdRAW c) (cmdSTAG c)
    if cmdCMP c then
      let blocks := ceilDiv (cmdN c * containerBits w) 512
      let h := readUnits (fun k s => readPieces readHome rq .copyRead [⟨c.w[0] + wd (8 * k), 8, 0, 64, 0⟩] s) (List.range (ceilDiv blocks 64)) s
      if h.1.stop.isSome then (h.1, ⟨[], [], none⟩, h.2)
      else if c.w[0].toNat % 64 ≠ 0 ∨ imageMalformed h.1.codes blocks (cpSCOFF c) then ({ h.1 with stop := some (.error 5) }, ⟨[], [], none⟩, h.2)
      else
        let r := readUnits (fun i s => readExpanded readHome rq .copyRead c.w[0] h.1.codes w i s) units h.2
        ({ r.1 with reads := h.1.reads ++ r.1.reads }, ⟨bs.map fun _ => 0x7F, [], none⟩, r.2)
    else
      andRead (readUnits (fun i s => readPieces readHome rq .copyRead (sidePieces (dirFromP c.dir) c.w[0] (sideStride (cmdN c)) w w i) s) units s)
        (readUnits (fun b s => readPieces readHome rq .copyRead [scalePiece (c.w[0] + wd (cpSCOFF c)) b] s) bs)

/-- What a chunk comes to, or why it stops: its source is read as one request (R96), and transformed (R130 to R132). -/
def chunkMoved (c : Cmd) (rq : Req) (image : List (BitVec 8)) (chunk first count : Nat) (s : State) : Except ChunkEnd Moved × State :=
  if c.calico then
    let r := if dirFromV c.dir then (⟨c.src ++ c.srcScale, [], none⟩, s) else routineReads c rq image chunk routineLimit [] s
    let s1 := countReads rq.ctx r.1.reads r.2
    match r.1.stop with
    | some e => (.error e, s1)
    | none =>
      if Config.calicoFaults image (cmdWords c) r.1.codes chunk then (.error (.error 3), s1)
      else (.ok (routineUnits c image chunk first count r.1.codes), s1)
  else
    let r := chunkSource c rq first count s
    let s1 := countReads rq.ctx (r.1.reads ++ r.2.1.reads) r.2.2
    match r.1.stop, r.2.1.stop with
    | some e, _ => (.error e, s1)
    | none, some e => (.error e, s1)
    | none, none => (.ok (moveUnits c first r.1.codes r.2.1.codes), s1)

/-- The bits that a chunk of a transfer writes, as far as they translate. -/
def footprint (c : Cmd) (rq : Req) (image : List (BitVec 8)) (chunk : Nat) (s : State) : List Write :=
  let first := chunk * chunkUnits (cmdN c)
  let count := min (chunkUnits (cmdN c)) (cmdN c - first)
  let l := if cmdRAW c then 0 else blockLen (cmdDTAG c)
  (chunkWrites c rq image first ⟨List.replicate count 0, List.replicate (ceilDiv count (max l 1)) 0, 0⟩ s).1

/-- Whether a chunk writes a bit that a lower chunk, still open, writes too: it waits for that one, so that the writes fall in the order of the units (R141; log entry 86). -/
def chunkHeld (c : Cmd) (rq : Req) (image : List (BitVec 8)) (mask : Word) (chunk : Nat) (s : State) : Bool :=
  let lower := (List.range chunk).filter fun k => !bit mask k
  !dirToV c.dir && !lower.isEmpty &&
    let mine := footprint c rq image chunk s
    lower.any fun k => (footprint c rq image k s).any fun x => mine.any (overlaps x)

/-! ## COPY_CHUNK (R123, R126, R132) -/

/-- Whether a bank has not served a read that an engine makes for a tag's chunk (R395). -/
def engineWaits (mesh : Nat) (t : Tag) (s : State) : Bool := waitsAtBank (fun w => w == .engine mesh t.1) s

/-- One chunk of a transfer read, and performed if no bank has to serve what it reads; else what it has read waits for the banks (R395). -/
def runChunk (mesh : Nat) (t : Tag) (c : Cmd) (rq : Req) (image : List (BitVec 8)) (chunk : Nat) (s : State) : State :=
  let units := chunkUnits (cmdN c)
  let first := chunk * units
  match chunkMoved c rq image chunk first (min units (cmdN c - first)) s with
  | (.error e, s1) => stopChunk mesh t c rq ((coreAt mesh s).tags[t]).mask e s1
  | (.ok m, s1) =>
    let d : ChunkData := ⟨chunk, m.codes, m.scales, m.flags⟩
    let s2 := noteWaits (.engine mesh t.1) s s1
    if engineWaits mesh t s2 then modCoreTag mesh t (fun g => { g with moved := some d }) s2 else landChunk mesh t c rq image d s2

/-- Whether a core's launch is being saved for a pre-emption (R349). -/
def coreSaving (mesh : Nat) (s : State) : Bool :=
  (((coreAt mesh s).launch.bind fun id => launchAt id s).map fun l => l.st == .saving).getD false

/-- The tag that a core's queue has its engine serve: the first, once its slots are granted (R123). An engine starts no chunk of a core that is
powering down, has no power or is being saved (R151, R349). -/
def servedTag (mesh : Nat) (s : State) : Option Tag :=
  if (coreAt mesh s).pwr ≠ 0 ∨ coreSaving mesh s then none
  else
    match (coreAt mesh s).engq with
    | [] => none
    | t :: _ => if (((coreAt mesh s).tags[t]).cmd.map fun c => c.granted) = some true then some t else none

/-- The core that a cluster's engine serves next, in rotation. -/
def servedCore (mesh : Nat) (s : State) : Option Nat :=
  let turn := ((dieAt (dieOfMesh mesh) s).engines[fin 24 (by decide) (engineOf mesh)]).turn
  let ms := clusterOf mesh
  ((ms.drop turn) ++ ms.take turn).find? fun m => (servedTag m s).isSome

/-- The rotation after a core was served. -/
def nextTurn (mesh : Nat) (s : State) : State :=
  modDie (dieOfMesh mesh) (fun d =>
    let e := fin 24 (by decide) (engineOf mesh)
    { d with engines := d.engines.set e { d.engines[e] with turn := (mesh / 16 % 4 * 4 + mesh % 4 + 1) % 16 } }) s

/-- COPY_CHUNK: the cluster's engine performs a chunk that its tag has not completed; one whose reads stand at a bank is performed once they have been served, and an engine that stops for a
pre-emption or a power-down still finishes it (R151, R349, R395). Nothing happens when it is not that core's turn, or that tag's, or the chunk must follow another. -/
def execCopyChunk (mesh : Nat) (t : Tag) (chunk : Nat) (s : State) : Out :=
  let g := (coreAt mesh s).tags[t]
  .next (match g.cmd with
    | none => s
    | some c =>
      let rq := engineReq mesh t c s
      let image := (routineOf mesh (cpSLOT c) s).getD []
      match g.moved with
      | some m => if g.st = .busy ∧ m.chunk = chunk ∧ (coreAt mesh s).pwr < 2 ∧ !engineWaits mesh t s then landChunk mesh t c rq image m s else s
      | none =>
        if servedCore mesh s = some mesh ∧ servedTag mesh s = some t ∧ g.st = .busy ∧ chunk < chunkCount (cmdN c) ∧ !bit g.mask chunk ∧
            !chunkHeld c rq image g.mask chunk s then
          runChunk mesh t c rq image chunk (nextTurn mesh s)
        else s)

/-- CALICO_TIME_LIMIT (R132): the routine of a tag's chunk is stopped with ERR 3. -/
def execCalicoTimeLimit (mesh : Nat) (t : Tag) (s : State) : Out :=
  let g := (coreAt mesh s).tags[t]
  .next (match g.cmd with
    | none => s
    | some c => if c.calico ∧ g.st = .busy ∧ servedTag mesh s = some t then stopTag mesh t c 3 (Vector.replicate 4 0) s else s)

end Sys2Proof.Machine
end

