-- ==== Sys2Proof/Machine/Governor.lean ====
section
/-! DEFINITION. The current governor of each die: draws (R407), the allowance Q of an island (R376), pressure and ALC (R377), and the grant of leave by
the weighted-deficit rule (R333). -/

namespace Sys2Proof.Machine

/-! ## Requests -/

/-- A pending request for leave: who asks, for which launch and partition, for how many steps, and since when (R284). -/
structure LeaveReq where
  mesh : Nat
  sid : Nat
  launch : Nat
  part : Nat
  steps : Nat
  since : Nat
deriving DecidableEq, Repr

/-- The pending requests of an island of the package. -/
def requestsOf (i : Nat) (s : State) : List LeaveReq :=
  (allStrands s).filterMap fun t =>
    match t.leave with
    | .asked n c _ => if islandOf t.mesh = i then some ⟨t.mesh, t.sid, t.launch, t.part, n, c⟩ else none
    | _ => none

/-! ## The values a running mailbox command brings into force at the next period (R372) -/

/-- The cap in watts. -/
def capNow (s : State) : Nat := if s.mailbox.busy ∧ s.mailbox.running = 1 then s.mailbox.latched[0].toNat else s.cap

/-- The floor of a partition in watts. -/
def floorNow (p : Fin 8) (s : State) : Nat :=
  if s.mailbox.busy ∧ s.mailbox.running = 2 ∧ s.mailbox.latched[0].toNat = p.1 then s.mailbox.latched[1].toNat else s.parts[p].floor

/-- The allotment mask of a partition. -/
def allotNow (p : Fin 8) (s : State) : Nat :=
  if s.mailbox.busy ∧ s.mailbox.running = 3 ∧ s.mailbox.latched[0].toNat = p.1 then s.mailbox.latched[1].toNat else s.parts[p].allot

/-- Whether an island of the package is allotted to a partition (R374). -/
def islandAllotted (p : Fin 8) (i : Nat) (s : State) : Bool :=
  (List.finRange 8).all (fun q => allotNow q s == 0) || (allotNow p s).testBit i

/-! ## Draws (R407), in the unit of drawUnit -/

/-- The draw of one step, 20.76 W / 8,192. -/
def stepDraw : Nat := 20760000 * (drawUnit / 8192)

/-- The steps granted on an island in its latest period. -/
def islandSteps (x : Island) : Nat := x.steps.toList.foldl (· + ·) 0

/-- The non-array draw of an island of a die. -/
def islandNonArray (die i : Nat) (draws : Draws) (s : State) : Nat :=
  draws.islands.getD i 0 * drawUnit - islandSteps (islandAt (12 * die + i) s) * stepDraw

/-- The array draw of a partition on a die. -/
def arrayDraw (die : Nat) (p : Fin 8) (s : State) : Nat :=
  ((List.range 12).map fun i => (islandAt (12 * die + i) s).steps[p] * stepDraw).foldl (· + ·) 0

/-- The array draw of a die. -/
def dieArray (die : Nat) (s : State) : Nat := ((List.range 12).map fun i => islandSteps (islandAt (12 * die + i) s) * stepDraw).foldl (· + ·) 0

/-- NA of a die. -/
def nonArray (die : Nat) (draws : Draws) (s : State) : Nat := draws.die * drawUnit - dieArray die s

/-- How many cores of an island run a strand that satisfies `p`. -/
def coresRunning (i : Nat) (p : Strand → Bool) (s : State) : Nat :=
  ((islandCores i).filter fun m => (strandsOf m s).any fun t => t.life == .running && p t).length

/-- NA(p) of a die. -/
def nonArrayOf (die : Nat) (p : Fin 8) (draws : Draws) (s : State) : Nat :=
  ((List.range 12).map fun i =>
    let k := 12 * die + i
    islandNonArray die i draws s * coresRunning k (fun t => t.part == p.1) s / max 1 (coresRunning k (fun _ => true) s)).foldl (· + ·) 0

/-! ## The allowance (R376) -/

/-- What the governor of a die knows at the start of a period. -/
structure Supply where
  share : Nat
  na : Nat
  naOf : Vector Nat 8
deriving DecidableEq, Repr

/-- The supply of a die; the draws of a period that was not measured count as none. -/
def supplyOf (die : Nat) (draws : Draws) (s : State) : Supply where
  share := capNow s * 250000 * drawUnit
  na := nonArray die draws s
  naOf := Vector.ofFn fun p => nonArrayOf die p draws s

/-- The islands of a list that are allotted to a partition. -/
def allottedOf (p : Fin 8) (is_ : List Nat) (s : State) : List Nat := is_.filter fun i => islandAllotted p i s

/-- W of a partition: what its floor leaves it beyond its non-array draw; none when no island of the list is its own. -/
def weightOf (x : Supply) (p : Fin 8) (is_ : List Nat) (s : State) : Nat :=
  if (allottedOf p is_ s).isEmpty then 0 else floorNow p s * 250000 * drawUnit - x.naOf[p]

/-- The least common multiple of the counts of islands that shares are divided by. -/
def shareUnit : Nat := 27720

/-- A of an island in parts of 1 / shareUnit, with the islands that have requests. -/
def allowanceOf (x : Supply) (is_ : List Nat) (i : Nat) (s : State) : Nat :=
  let ps := List.finRange 8
  let own := (ps.map fun p =>
    if islandAllotted p i s then weightOf x p is_ s * (shareUnit / (allottedOf p is_ s).length) else 0).foldl (· + ·) 0
  let rest := x.share - x.na - (ps.map fun p => weightOf x p is_ s).foldl (· + ·) 0
  own + rest * (shareUnit / is_.length)

/-- The steps of a full period of an island (R375). -/
def fullSteps : Nat := 8192

/-- Q of an island, which is one of the islands that have requests or counted among them. -/
def quotaOf (x : Supply) (is_ : List Nat) (i : Nat) (s : State) : Nat :=
  let among := if is_.contains i then is_ else i :: is_
  let q := min fullSteps (allowanceOf x among i s / (shareUnit * stepDraw))
  if (islandAt i s).therm = 0 then q / 2 else q

/-! ## Pressure and ALC (R377) -/

/-- ALC of a core halved, down to 2,048, or doubled, up to its lane map. -/
def halvedAlc (a : Nat) : Nat := max (min a 2048) (a / 2 / 64 * 64)
def doubledAlc (c : Core) : Nat := max (min c.alc (64 * laneGroups c)) (min (2 * c.alc) (64 * laneGroups c))

/-- The end of a period of an island: it enters or leaves pressure, or counts another period. -/
def endPeriod (x : Island) : Island :=
  if !x.press && decide (16 ≤ x.high) then { x with press := true, periods := 0 }
  else if x.press && decide (16 ≤ x.low) then { x with press := false, periods := 0 }
  else { x with periods := x.periods + 1 }

/-- ALC of an island's cores at the end of a period. -/
def endAlc (i : Nat) (s : State) : State :=
  let x := islandAt i s
  if x.periods = 0 ∨ x.periods % 16 ≠ 0 then s
  else (islandCores i).foldl (fun s m => modCore m (fun c => { c with alc := if x.press then halvedAlc c.alc else doubledAlc c }) s) s

/-- The end of a period of a die. -/
def endPeriods (die : Nat) (s : State) : State :=
  (List.range 12).foldl (fun s i => endAlc (12 * die + i) (modIsland die i endPeriod s)) s

/-- The start of a period of an island with its Q and demand: its runs of high and other periods. -/
def beginPeriod (q demand : Nat) (x : Island) : Island :=
  if q < demand then { x with q := q, high := x.high + 1, low := 0, steps := Vector.replicate 8 0 }
  else { x with q := q, high := 0, low := x.low + 1, steps := Vector.replicate 8 0 }

/-! ## The weighted-deficit rule (R333) -/

/-- DEF of a launch for an island. -/
def defOf (id i : Nat) (s : State) : Nat :=
  ((launchAt id s).bind fun l => (l.def_.find? fun d => d.1 == i).map fun d => d.2).getD 0

/-- DEF of a launch for an island set. -/
def setDef (id i n : Nat) (s : State) : State := modLaunch id (fun l => { l with def_ := (i, n) :: l.def_.filter fun d => d.1 != i }) s

/-- w of a launch. -/
def weightOfLaunch (id : Nat) (s : State) : Nat := ((launchAt id s).map fun l => recPWT l.record).getD 0 + 1

/-- The launches of some requests, each once. -/
def launchesOf : List LeaveReq → List Nat
  | [] => []
  | r :: t => if (launchesOf t).contains r.launch then launchesOf t else r.launch :: launchesOf t

/-- Whether a launch keeps its deficit while it has no request: it is being saved, or was pre-empted (R333, R349). -/
def keepsDeficit (l : Launch) : Bool := l.st == .saving || l.st == .preempted

/-- DEF of every launch at the start of a period of an island. -/
def addShares (i q : Nat) (rs : List LeaveReq) (s : State) : State :=
  let ls := launchesOf rs
  let sum := (ls.map fun id => weightOfLaunch id s).foldl (· + ·) 0
  let s1 := { s with launches := s.launches.map fun l => if ls.contains l.id || keepsDeficit l then l else { l with def_ := l.def_.filter fun d => d.1 != i } }
  ls.foldl (fun s id => setDef id i (defOf id i s + q * weightOfLaunch id s / max 1 sum) s) s1

/-- Whether one request is chosen before another: the launch with the larger DEF, then the older request, then the lower core and strand. -/
def grantedBefore (i : Nat) (s : State) (a b : LeaveReq) : Bool :=
  let x := defOf a.launch i s
  let y := defOf b.launch i s
  decide (y < x) || (x == y && (decide (a.since < b.since) || (a.since == b.since &&
    (decide (a.mesh < b.mesh) || (a.mesh == b.mesh && decide (a.sid < b.sid))))))

/-- The request to grant next, of those that their launch's DEF covers. -/
def nextGrant (i : Nat) (s : State) : List LeaveReq → Option LeaveReq
  | [] => none
  | r :: t =>
    match nextGrant i s t with
    | none => if r.steps ≤ defOf r.launch i s then some r else none
    | some b => if r.steps ≤ defOf r.launch i s ∧ grantedBefore i s r b then some r else some b

/-- What a request for leave becomes when it is granted. -/
def leaveGiven : Leave → Leave
  | .asked _ _ a => .granted a
  | x => x

/-- A request granted. -/
def grantLeave (i : Nat) (r : LeaveReq) (s : State) : State :=
  let s1 := modStrand r.mesh r.sid (fun t => { t with leave := leaveGiven t.leave }) s
  let s2 := setDef r.launch i (defOf r.launch i s1 - r.steps) s1
  let p := fin 8 (by decide) r.part
  modIsland (i / 12) (i % 12) (fun x => { x with steps := x.steps.set p (x.steps[p] + r.steps) }) s2

/-- Requests granted as long as a DEF covers one; `fuel` is how many there are. -/
def grantLoop (i : Nat) : Nat → List LeaveReq → State → State
  | 0, _, s => s
  | n + 1, rs, s =>
    match nextGrant i s rs with
    | none => s
    | some r => grantLoop i n (rs.filter fun x => x != r) (grantLeave i r s)

/-- The period of one island with its Q: pressure counts, then grants. -/
def islandPeriod (i q : Nat) (s : State) : State :=
  let rs := requestsOf i s
  let demand := (rs.map fun r => r.steps).foldl (· + ·) 0
  grantLoop i rs.length rs (addShares i q rs (modIsland (i / 12) (i % 12) (beginPeriod q demand) s))

/-- The draws of the period that ends put into the partition blocks. -/
def recordDraws (die : Nat) (x : Supply) (s : State) : State :=
  { s with parts := s.parts.mapFinIdx fun k p hk =>
      { p with draws := p.draws.set (fin 4 (by decide) die) (arrayDraw die ⟨k, hk⟩ s + x.naOf[k]) } }

/-- GRANT_PERIOD (R333, R376, R377, R407): at every multiple of 256 cycles the period that ends is measured and the next begins. -/
def execGrantPeriod (die : Nat) (draws : Draws) (s : State) : Out :=
  let d := dieAt die s
  .next (if 4 ≤ die ∨ d.cycle < d.periods * 256 then s
    else
      let x := supplyOf die draws s
      let s1 := if d.periods = 0 then s else endPeriods die (recordDraws die x s)
      let waiting := (List.range 12).filterMap fun i => if (requestsOf (12 * die + i) s1).isEmpty then none else some (12 * die + i)
      let qs := (List.range 12).map fun i => quotaOf x waiting (12 * die + i) s1
      let s2 := (List.range 12).foldl (fun s i => islandPeriod (12 * die + i) (qs.getD i 0) s) s1
      modDie die (fun d => { d with periods := d.periods + 1 }) s2)

end Sys2Proof.Machine
end

