-- ==== Sys2Proof/Machine/Save.lean ====
section
/-! DEFINITION. The saved-state rectangle (R350, R351): its frames, their bytes where R351 lays them out, the allocation of its area, and the state that a restore
rebuilds from the frames (R180). -/

namespace Sys2Proof.Machine

/-! ## Sizes and allocation (R350) -/

/-- A core frame, and a strand frame of a budget, in bytes. -/
def coreFrame : Nat := 2 ^ 21
def strandFrame (b : Nat) : Nat := ceilDiv (32768 + 2080 * (b + 32) + 264) 4096 * 4096

/-- The frames of one core of a launch, in bytes. -/
def coreFrames (r : List Word) : Nat := coreFrame + ((List.range (recNSTR r + 1)).map fun k => strandFrame (recBUD r k)).foldl (· + ·) 0

/-- The saved-state rectangle of a launch, in bytes. -/
def areaSize (r : List Word) : Nat := recW r * recH r * coreFrames r

/-- Where the frames of a core of the rectangle begin, from the area's start. -/
def frameOffset (r : List Word) (mesh : Nat) : Nat := ((mesh / 16 - recROW0 r) * recW r + (mesh % 16 - recCOL0 r)) * coreFrames r

/-- The areas that launches of a partition hold. -/
def heldAreas (part : Nat) (s : State) : List (Nat × Nat) :=
  s.launches.filterMap fun l => if partOfCtx (recCTX l.record) s = part ∧ l.area.2 ≠ 0 then some l.area else none

/-- Whether an area is free in a partition's pool. -/
def areaFree (p : Partition) (held : List (Nat × Nat)) (start size : Nat) : Bool :=
  decide (p.savebase.toNat ≤ start) && decide (start + size ≤ p.savebase.toNat + p.savelen * 4096) &&
    held.all fun h => decide (start + size ≤ h.1) || decide (h.1 + h.2 ≤ start)

/-- The lowest free run of a pool for a launch (R350). -/
def allocate (l : Launch) (s : State) : Option Nat :=
  let part := partOfCtx (recCTX l.record) s
  let p := s.parts[fin 8 (by decide) part]
  let held := heldAreas part s
  (sortBy (fun a b => decide (a < b)) (p.savebase.toNat :: held.map fun h => h.1 + h.2)).find? fun a => areaFree p held a (areaSize l.record)

/-! ## The bytes of a core frame (R351) -/

/-- The words of an accumulator store that are poisoned, one bit each, in the order of tile, row and word. -/
def cellMap (c : Core) (tiles : Nat) : Nat :=
  (c.cellPoison.map fun m => if m.tile < tiles then 2 ^ ((m.tile * 256 + m.row) * 4 + m.word) else 0).foldl (· ||| ·) 0

/-- The cells of a core as bytes, in the layout of its format. -/
def cellBytes (c : Core) : List (BitVec 8) :=
  if c.fmt = 2 then
    (List.range 4).flatMap fun t => (List.range 256).flatMap fun i =>
      let row := ((c.acc[fin 2 (by decide) (t / 2)])[fin 256 (by decide) i]).toNat
      (List.range 256).flatMap fun j => bytesOf 2 (row / 2 ^ (32 * j + 16 * (t % 2)))
  else (List.range 2).flatMap fun t => (List.range 256).flatMap fun i => bytesOf 1024 ((c.acc[fin 2 (by decide) t])[fin 256 (by decide) i]).toNat

/-- The state of a tag in a frame. -/
def tagCode : TagState → Nat
  | .free => 0
  | .busy => 1
  | .ready => 2
  | .landed => 3

/-- A tag as 64 bytes: state, the command's four words, mask, status word. -/
def tagBytes (g : TagReg) : List (BitVec 8) :=
  let w := (g.cmd.map fun c => c.w).getD (Vector.replicate 4 0)
  ([wd (tagCode g.st), w[0], w[1], w[2], w[3], g.mask, statusWord g, 0]).flatMap fun (x : Word) => bytesOf 8 x.toNat

/-- A scale slot as 128 bytes. -/
def slotBytes (x : ScaleSlot) : List (BitVec 8) :=
  (x.hist.toList.flatMap fun h => bytesOf 4 h.toNat) ++ bytesOf 8 x.head.1 ++ bytesOf 8 x.scale.toNat ++ bytesOf 8 x.zp.toNat ++ bytesOf 8 x.kind.toNat ++
    bytesOf 32 0

/-- Bytes of a frame that have no layout: free values. -/
def freeBytes (d first n : Nat) : List (BitVec 8) := (List.range n).map fun k => Config.frameByte d (first + k)

/-- A plane of some codes, each at its place. -/
def planeOfCodes (codes : List (Nat × Nat)) (b : Nat) : Nat := (codes.map fun p => if p.2.testBit b then 2 ^ p.1 else 0).foldl (· ||| ·) 0

/-- A scale plane of some scale bytes, each at its block. -/
def planeOfScales (scales : List (Nat × Nat)) : Nat := (scales.map fun p => p.2 % 256 * 2 ^ (8 * p.1)).foldl (· ||| ·) 0

/-- What a tag's transfer has put into a slot of the landing buffer: its slots hold the planes of its register from plane 0 up, and the scale plane last (R78; log entry 38). -/
def tagSlot (k : Nat) (g : TagReg) : Option Nat :=
  (g.slots.findIdx? fun x => x == k).map fun i =>
    if i < tagWidth ((g.cmd.map cmdDTAG).getD 0) then planeOfCodes g.codes i else planeOfScales g.scales

/-- What the blocks of a stream that have landed have put into a slot. -/
def streamSlot (k : Nat) (q : Stream) : Option Nat :=
  q.landed.findSome? fun b =>
    ((blockSlots q b.block).findIdx? fun x => x == k).map fun i => planeOfCodes (b.codes.mapIdx fun j c => (j, c)) i

/-- A slot of the landing buffer as 2 KiB; what a free one holds is not stated (log entry 38). -/
def landingBytes (d k : Nat) (c : Core) (ts : List Strand) : List (BitVec 8) :=
  match (c.tags.toList.findSome? (tagSlot k)).or ((ts.flatMap fun t => t.sq.toList).findSome? (streamSlot k)) with
  | some p => bytesOf 2048 p
  | none => freeBytes d (2048 * k) 2048

/-- Who reserves a slot of the landing buffer: a tag, a stream slot of a strand, or nobody. -/
def reservedBy (k : Nat) (c : Core) (ts : List Strand) : List Nat :=
  match c.tags.toList.findIdx? fun g => g.slots.contains k with
  | some n => [0, n]
  | none => (ts.findSome? fun t => (t.sq.toList.findIdx? fun q => q.slots.contains k).map fun n => [1, t.sid, n]).getD []

/-- The reservation of a slot as 8 bytes. -/
def reservationBytes (k : Nat) (c : Core) (ts : List Strand) : List (BitVec 8) := (List.range 8).map (Config.reservationByte (reservedBy k c ts))

/-- The pieces of a core frame: offset and bytes; `d` is the draw of what has no layout. -/
def coreBytes (d : Nat) (c : Core) (ts : List Strand) : List (Nat × List (BitVec 8)) :=
  [(0, cellBytes c),
   (0x80000, c.stage.toList.flatMap fun r => bytesOf 1280 r.toNat),
   (0xD0000, c.spec.toList.flatMap fun r => bytesOf 64 r.toNat),
   (0xD4000, bytesOf 8 (c.owner.getD (2 ^ 64 - 1)) ++ bytesOf 8 ((c.base.map fun b => (BitVec.ofInt 64 b).toNat).getD (2 ^ 63)) ++ bytesOf 8 c.count ++
      bytesOf 8 c.fmt ++ bytesOf 512 (cellMap c (if c.fmt = 2 then 4 else 2))),
   (0xD8000, (List.range landingSlots).flatMap fun k => landingBytes d k c ts),
   (0xF8000, (List.range landingSlots).flatMap fun k => reservationBytes k c ts),
   (0xF9000, c.tags.toList.flatMap tagBytes),
   (0xFA000, c.scales.toList.flatMap slotBytes),
   (0xFA800, c.tables.toList.flatMap fun t => t.entries.toList.flatMap fun e => bytesOf 2 e.toNat),
   (0xFB000, c.tables.toList.flatMap fun t => bytesOf 8 t.kind.toNat),
   (0x100000, c.scratch.getN 0 0x100000)]

/-! ## The bytes of a strand frame (R180, R181, R351) -/

/-- The poison map of a plane of a register: one bit for each segment. -/
def planeMap (v : VReg) (plane : Nat) : Nat :=
  (v.poison.map fun m => if m.plane = plane then 2 ^ m.seg else 0).foldl (· ||| ·) 0

/-- The bytes of a plane of a register in a frame, and those of its scales, padded to 8 (R180). -/
def savedPlane (vlhi : Nat) : Nat := 8 * ceilDiv vlhi 64
def savedScales (vlhi l : Nat) : Nat := if l = 0 then 0 else ceilDiv (ceilDiv vlhi l) 8 * 8

/-- A register as a frame holds it: header, planes up to VLHI, scale bytes padded to 8, and poison maps. -/
def regBytes (vlhi : Nat) (v : VReg) : List (BitVec 8) :=
  let l := blockLen v.tag
  bytesOf 8 (v.tag.toNat + 64 * ceilDiv vlhi 64 * 2 ^ 16) ++
    ((List.range (tagWidth v.tag)).flatMap fun k => bytesOf (savedPlane vlhi) (v.planes.getD k 0).toNat) ++
    bytesOf (savedScales vlhi l) (v.scale.toNat % 2 ^ (8 * ceilDiv vlhi l)) ++
    (List.range (tagWidth v.tag)).flatMap fun k => bytesOf 32 (planeMap v k)

/-- The tag of one plane of bits, n1, in which a frame holds a mask register's old value (log entry 38). -/
def maskTag : BitVec 16 := 0x0010

/-- The held mapping as a register of a frame; an instruction that writes no register holds none. -/
def heldReg (t : Strand) : Option VReg :=
  match t.held with
  | some ⟨.vec _ old _, _, _⟩ => some old
  | some ⟨.mask _ old, _, _⟩ => some ⟨maskTag, [old], 0, [], []⟩
  | _ => none

/-- The highest VL of a strand's writes, from its HWM (R179). -/
def vlhiOf (hwm : Word) : Nat := fld hwm 32 15

/-- The registers of a strand that its HWM names as written, and its held mapping. -/
def vectorBytes (t : Strand) : List (BitVec 8) :=
  ((List.finRange 32).flatMap fun k => if bit t.hwm k.1 then regBytes (vlhiOf t.hwm) t.v[k] else []) ++
    ((heldReg t).map (regBytes (vlhiOf t.hwm))).getD []

/-- The numbers of the control registers that a frame holds. -/
def savedCsrs : List Nat := List.range 0x14 ++ (List.range 0x11).map fun k => 0x100 + k

/-- A store-fault record as bytes. -/
def recordBytes (r : SfRec) : List (BitVec 8) := ([r.w0, r.w1, r.w2, r.w3]).flatMap fun (w : Word) => bytesOf 8 w.toNat

/-- A stream slot as numbers. -/
def streamNumbers (q : Stream) : List Nat :=
  (match q.st with | .closed => 0 | .open => 1 | .ended => 2) :: q.fib.toNat :: q.index.toNat :: q.desc.toNat :: q.tag.toNat :: q.priv.toNat :: q.pos ::
    q.want.toNat :: ((q.size.map fun n => n + 1).getD 0) :: ((q.bound.map fun n => n + 1).getD 0) :: q.pat.map (fun w => w.toNat) ++ q.slots

/-- What the block at 0x1000 of a strand frame holds: the loop buffer, the loops, the stream slots, the latches held, the barrier epoch and the restart point. -/
def strandBlock (t : Strand) : List (List Nat) :=
  (t.loopBuf.flatMap fun p => [p.1.toNat, p.2.toNat]) :: (t.lc.toList.map fun l => [l.act.toNat, l.start.toNat, l.last.toNat, l.count.toNat]) ++
    t.sq.toList.map streamNumbers ++ [t.latches.flatMap fun l => [l.va.toNat, l.pa, l.wb.toNat], [t.epoch], [t.pc.toNat, t.six]]

/-- The pieces of a strand frame, for the strand whose turn it is. -/
def strandBytes (s : State) : List (Nat × List (BitVec 8)) :=
  let t := s.me
  [(0, bytesOf 8 0 ++ (t.g.toList.drop 1).flatMap fun (w : Word) => bytesOf 8 w.toNat),
   (0x100, t.f.toList.flatMap fun w => bytesOf 8 w.toNat),
   (0x180, bytesOf 8 t.pub.toNat),
   (0xD00, bytesOf 8 t.sfq.length ++ t.sfq.flatMap recordBytes),
   (0x1000, (List.range 0x1000).map (Config.strandByte (strandBlock t))),
   (0x2000, t.m.toList.flatMap fun p => bytesOf 2048 p.toNat),
   (0x6000, t.tm.toList.flatMap fun p => bytesOf 32 p.toNat),
   (0x8000, vectorBytes t)] ++
  savedCsrs.map fun n => (0x400 + 8 * n, bytesOf 8 (csrRead n s).toNat)

/-! ## Writing the frames -/

/-- Pieces written from a base up. -/
def writePieces (base : Nat) (ps : List (Nat × List (BitVec 8))) (s : State) : State :=
  ps.foldl (fun s p => mendWords (memBytes (base + p.1) p.2) { s with mem := s.mem.setN (base + p.1) p.2 }) s

/-- Where the frame of strand `k` of a core begins, from its core's frame. -/
def strandOffset (r : List Word) (k : Nat) : Nat := coreFrame + ((List.range k).map fun j => strandFrame (recBUD r j)).foldl (· + ·) 0

/-- Where the frames of a core of a launch begin. -/
def frameBase (l : Launch) (mesh : Nat) : Nat := l.area.1 + frameOffset l.record mesh

/-- The frame of one strand of a core written. -/
def writeStrand (l : Launch) (mesh k : Nat) (s : State) : State :=
  writePieces (frameBase l mesh + strandOffset l.record k) (strandBytes (focus mesh k s)) s

/-- The frames of a core of a launch written. -/
def writeFrames (l : Launch) (mesh : Nat) (s : State) : State :=
  let d := draw s
  (List.range (recNSTR l.record + 1)).foldl (fun s k => writeStrand l mesh k s)
    (writePieces (frameBase l mesh) (coreBytes d.1 (coreAt mesh s) (strandsOf mesh s)) d.2)

/-- Whether the frames of a core lie in memory that exists; otherwise its save fails (R350). -/
def framesOk (l : Launch) (mesh : Nat) : Bool :=
  (List.range (coreFrames l.record / 4096)).all fun k =>
    match regionOf (frameBase l mesh + 4096 * k) with
    | .hbm => true
    | .lpddr => true
    | _ => false

/-! ## What a restore reads (R180, R351) -/

/-- The number that some bytes of memory spell, and a word of memory. -/
def natAt (m : Memory) (a n : Nat) : Nat := natOf (m.getN a n)
def frameWord (m : Memory) (a : Nat) : Word := wd (natAt m a 8)

/-- The accumulator cells of a frame. -/
def readCells (m : Memory) (a fmt : Nat) : Vector (Vector (BitVec 8192) 256) 2 :=
  Vector.ofFn fun h => Vector.ofFn fun i =>
    if fmt = 2 then
      BitVec.ofNat 8192 (((List.range 256).map fun j =>
        (natAt m (a + ((2 * h.1 * 256 + i.1) * 256 + j) * 2) 2 + natAt m (a + (((2 * h.1 + 1) * 256 + i.1) * 256 + j) * 2) 2 * 2 ^ 16) * 2 ^ (32 * j)).foldl (· + ·) 0)
    else BitVec.ofNat 8192 (natAt m (a + (h.1 * 256 + i.1) * 1024) 1024)

/-- The poisoned words of cells that a frame's map names, each with its producer. -/
def readCellPoison (map : Nat) (by_ : Vector (Vector (Vector Word 4) 256) 4) : List CellPoison :=
  (List.finRange 4).flatMap fun t => (List.finRange 256).flatMap fun i => (List.finRange 4).filterMap fun w =>
    if map.testBit ((t.1 * 256 + i.1) * 4 + w.1) then some ⟨t.1, i.1, w.1, ((by_[t])[i])[w]⟩ else none

/-- The state of a tag's code. -/
def tagState : Nat → TagState
  | 0 => .free
  | 1 => .busy
  | 2 => .ready
  | _ => .landed

/-- A code that has landed, as the planes of its transfer in the landing buffer of a frame hold it. -/
def landedCode (m : Memory) (a : Nat) (slots : List Nat) (w u : Nat) : Nat :=
  ((slots.take w).mapIdx fun b k => if (m.get (a + 2048 * k + u / 8)).getLsbD (u % 8) then 2 ^ b else 0).foldl (· + ·) 0

/-- A scale byte that has landed. -/
def landedScale (m : Memory) (a : Nat) (slots : List Nat) (w b : Nat) : Nat := ((slots[w]?).map fun k => (m.get (a + 2048 * k + b)).toNat).getD 0

/-- A tag as its frame holds it; what R351 does not lay out is as it was saved. -/
def readTag (m : Memory) (base k : Nat) (g : TagReg) : TagReg :=
  let a := base + 0xF9000 + 64 * k
  let st := frameWord m (a + 48)
  let w := tagWidth ((g.cmd.map cmdDTAG).getD 0)
  { g with
    st := tagState (fld (frameWord m a) 0 2)
    cmd := g.cmd.map fun c => { c with w := #v[frameWord m (a + 8), frameWord m (a + 16), frameWord m (a + 24), frameWord m (a + 32)] }
    mask := frameWord m (a + 40), err := fld st 56 8, flags := BitVec.ofNat 16 (fld st 32 16)
    codes := g.codes.map fun p => (p.1, landedCode m (base + 0xD8000) g.slots w p.1)
    scales := g.scales.map fun p => (p.1, landedScale m (base + 0xD8000) g.slots w p.1) }

/-- A scale slot as its frame holds it. -/
def readSlotBytes (m : Memory) (a : Nat) (x : ScaleSlot) : ScaleSlot :=
  { x with
    hist := Vector.ofFn fun i => BitVec.ofNat 32 (natAt m (a + 4 * i.1) 4)
    head := fin 16 (by decide) (natAt m (a + 64) 8), scale := BitVec.ofNat 32 (natAt m (a + 72) 8), zp := BitVec.ofNat 16 (natAt m (a + 80) 8)
    kind := BitVec.ofNat 16 (natAt m (a + 88) 8) }

/-- The bytes of a core frame's scratch that are not zero. -/
def readScratch (m : Memory) (a : Nat) : Memory := Memory.setN [] 0 (m.getN a 0x100000)

/-- A core as its frame holds it. -/
def readCore (m : Memory) (base : Nat) (c : Core) : Core :=
  let owner := natAt m (base + 0xD4000) 8
  let b := natAt m (base + 0xD4008) 8
  let fmt := natAt m (base + 0xD4018) 8
  { c with
    acc := readCells m base fmt
    stage := Vector.ofFn fun i => BitVec.ofNat 10240 (natAt m (base + 0x80000 + 1280 * i.1) 1280)
    spec := Vector.ofFn fun i => BitVec.ofNat 512 (natAt m (base + 0xD0000 + 64 * i.1) 64)
    owner := if owner = 2 ^ 64 - 1 then none else some owner
    base := if b = 2 ^ 63 then none else some (BitVec.ofNat 64 b).toInt
    count := natAt m (base + 0xD4010) 8
    fmt := fmt
    cellPoison := readCellPoison (natAt m (base + 0xD4020) 512) c.cellWriter
    tags := c.tags.mapFinIdx fun k g _ => readTag m base k g
    scales := c.scales.mapFinIdx fun k x _ => readSlotBytes m (base + 0xFA000 + 128 * k) x
    tables := c.tables.mapFinIdx fun k _ _ =>
      ⟨BitVec.ofNat 16 (natAt m (base + 0xFB000 + 8 * k) 8), Vector.ofFn fun i => BitVec.ofNat 16 (natAt m (base + 0xFA800 + 512 * k + 2 * i.1) 2)⟩
    scratch := readScratch m (base + 0x100000) }

/-- The length in a frame of a register with a tag. -/
def regLength (vlhi : Nat) (tag : BitVec 16) : Nat :=
  8 + tagWidth tag * savedPlane vlhi + savedScales vlhi (blockLen tag) + 32 * tagWidth tag

/-- The tag in the header of a register of a frame; an illegal one, which no register ever holds, leaves the tag that the register was saved with (R51; log entry 49). -/
def headerTag (m : Memory) (a : Nat) (saved : BitVec 16) : BitVec 16 :=
  let tag := BitVec.ofNat 16 (fld (frameWord m a) 0 16)
  if tagIllegal tag then saved else tag

/-- The poisoned words of a plane that a frame's map names, each with its producer. -/
def readMarks (map plane : Nat) (by_ : List (Nat × Word)) : List PoisonMark :=
  (List.range 256).filterMap fun seg => if map.testBit seg then some ⟨plane, seg, writerAt by_ seg⟩ else none

/-- A register rebuilt from a frame: elements from VLHI on are zero, and scale bytes beyond those saved 0x7F (R180). -/
def readReg (m : Memory) (a vlhi : Nat) (x : VReg) : VReg :=
  let tag := headerTag m a x.tag
  let l := blockLen tag
  let planes := a + 8
  let scales := planes + tagWidth tag * savedPlane vlhi
  let maps := scales + savedScales vlhi l
  { tag := tag
    planes := if x.planes.isEmpty then [] else (List.range (tagWidth tag)).map fun k => BitVec.ofNat 16384 (natAt m (planes + k * savedPlane vlhi) (savedPlane vlhi))
    scale := if l = 0 then 0
      else BitVec.ofNat 16384 (packBytes ((List.range (vlmax / l)).map fun k => if k * l < vlhi then (m.get (scales + k)).toNat else 0x7F))
    poison := (List.range (tagWidth tag)).flatMap fun k => readMarks (natAt m (maps + 32 * k) 32) k x.writers
    writers := x.writers }

/-- The registers of a frame from register `k` on, at an address: those that the frame holds, and reset registers for the others. -/
def readRegs (m : Memory) (hwm : Word) : List VReg → Nat → Nat → List VReg × Nat
  | [], _, a => ([], a)
  | x :: xs, k, a =>
    if bit hwm k then
      let r := readRegs m hwm xs (k + 1) (a + regLength (vlhiOf hwm) (headerTag m a x.tag))
      (readReg m a (vlhiOf hwm) x :: r.1, r.2)
    else
      let r := readRegs m hwm xs (k + 1) a
      (VReg.reset :: r.1, r.2)

/-- A held mapping as the frame at an address holds it. -/
def readHeld (m : Memory) (a vlhi : Nat) (h : Held) : Held :=
  match h.reg with
  | .vec r old at_ => { h with reg := .vec r (readReg m a vlhi old) at_ }
  | .mask r old => { h with reg := .mask r ((readReg m a vlhi ⟨maskTag, [old], 0, [], []⟩).planes.getD 0 0) }
  | .none => h

/-- A control register of a frame put back; those that follow from other state, and RCAUSE, are not (R351). -/
def putCsr (n : Nat) (w : Word) (t : Strand) : Strand :=
  match n with
  | 0x000 => { t with vl := w.toNat }
  | 0x003 => { t with six := sixOf w }
  | 0x004 => { t with hwm := w }
  | 0x005 => { t with mode := w }
  | 0x006 => { t with seed := w }
  | 0x007 => { t with sbase := w }
  | 0x008 => { t with mvl := fld w 0 16, nbl := fld w 16 8 }
  | 0x00A => { t with vflags := w }
  | 0x00D => { t with patchbase := w }
  | 0x00F => { t with rectpos := w }
  | 0x100 => { t with tvec := w }
  | 0x101 => { t with tcause := w }
  | 0x102 => { t with tepc := w }
  | 0x103 => { t with tstat := w }
  | 0x104 => { t with tsix := wd (sixOf w) }
  | 0x105 => { t with trec := t.trec.set 0 w }
  | 0x106 => { t with trec := t.trec.set 1 w }
  | 0x107 => { t with trec := t.trec.set 2 w }
  | 0x108 => { t with trec := t.trec.set 3 w }
  | 0x109 => { t with tscr := w }
  | _ => t

/-- The control registers of a frame put back. -/
def readCsrs (m : Memory) (a : Nat) (t : Strand) : Strand := savedCsrs.foldl (fun t n => putCsr n (frameWord m (a + 0x400 + 8 * n)) t) t

/-- A store-fault record of a frame. -/
def readRecord (m : Memory) (a : Nat) : SfRec := ⟨frameWord m a, frameWord m (a + 8), frameWord m (a + 16), frameWord m (a + 24)⟩

/-- A strand as its frame holds it; what R351 does not lay out is as it was saved (log entry 38). -/
def readStrand (m : Memory) (a : Nat) (t : Strand) : Strand :=
  let t1 := readCsrs m a t
  let rs := readRegs m t1.hwm t.v.toList 0 (a + 0x8000)
  { t1 with
    g := Vector.ofFn fun k => if k.1 = 0 then t.g[0] else frameWord m (a + 8 * k.1)
    f := Vector.ofFn fun k => BitVec.ofNat 32 (natAt m (a + 0x100 + 8 * k.1) 4)
    pub := frameWord m (a + 0x180)
    sfq := (List.range (natAt m (a + 0xD00) 8 % 32)).map fun k => readRecord m (a + 0xD08 + 32 * k)
    m := Vector.ofFn fun k => BitVec.ofNat 16384 (natAt m (a + 0x2000 + 2048 * k.1) 2048)
    tm := Vector.ofFn fun k => BitVec.ofNat 256 (natAt m (a + 0x6000 + 32 * k.1) 32)
    v := Vector.ofFn fun k => rs.1.getD k.1 VReg.reset
    held := t.held.map (readHeld m rs.2 (vlhiOf t1.hwm)) }

/-- A core of a launch with its running strands, as the frames of its area hold them. -/
def readFrames (l : Launch) (mesh : Nat) (x : Core) (m : Memory) : Core :=
  let c := readCore m (frameBase l mesh) x
  { c with strands := x.strands.map fun t =>
      if t.life = .running then readStrand m (frameBase l mesh + strandOffset l.record t.sid) t else t }

end Sys2Proof.Machine
end

