-- ==== Sys2Proof/Machine/Scheduler.lean ====
section
/-! DEFINITION. The scheduler: queue events (R317, R319, R320), acceptance (R322, R323), dependences (R324), replays (R330 to R332), placement (R325 to R328) with the
start of strands (R166), and pre-emption (R328, R349, R350). -/

namespace Sys2Proof.Machine

/-! ## Queues -/

/-- DOORBELL (R320). -/
def execDoorbell (die q : Nat) (t : BitVec 32) (s : State) : Out := .next (doorbellWrite die q t.toNat s)

/-- QUEUE_ENABLE (R317). -/
def execQueueEnable (die q : Nat) (s : State) : Out := .next (queueEnableOp die q s)

/-- QUEUE_DISABLE (R319). -/
def execQueueDisable (die q : Nat) (s : State) : Out := .next (queueDisableOp die q s)

/-! ## Acceptance (R322, R323) -/

/-- The words of a slot, read at its home. -/
def readSlot (pa : Nat) (s : State) : List Word × State :=
  let r := homeRead noCtx true (memLocs pa 128) s
  (wordsOf 16 r.1, r.2)

/-- Whether a record of a queue still holds it: accepted and not yet placed (R323), also one that was accepted before the queue was disabled and enabled again (R319; log entry 116). -/
def queueHeld (die q : Nat) (s : State) : Bool :=
  s.launches.any fun l => l.die == die && l.queue == q && l.node.isNone && l.st == .candidate

/-- The status byte of the slot at HEAD written, and the slot consumed (R318, R322). -/
def consumeSlot (die q status : Nat) (s : State) : State :=
  let x := queueAt die q s
  modQueue die q (fun x => { x with head := (x.head + 1) % 2 ^ 32 })
    (homeWrite noCtx true (memBytes (x.qsts + x.head % capacity x) [BitVec.ofNat 8 status]) s)

/-- A launch record accepted: a candidate of the next acceptance instant. -/
def acceptLaunch (r : List Word) (die q : Nat) (s : State) : State :=
  { s with launches := s.launches ++ [newLaunch (freshId s) r s.order die q none], order := s.order + 1 }

/-- The slot at HEAD holds a launch record: of several failed checks the lowest status is written (R322; log entry 115). -/
def acceptRecord (r : List Word) (die q : Nat) (s : State) : State :=
  let st := recStatus r (queueAt die q s).part s
  if st ≠ 0 then consumeSlot die q st s
  else if placeBad r s then consumeSlot die q 5 s
  else
    let bad := depBad die r s
    if bad.1 then consumeSlot die q 8 bad.2 else acceptLaunch r die q (consumeSlot die q 0 bad.2)

/-! ## Replays (R330, R331) -/

/-- The fields of the words of a replay record. -/
def replayFields : List Nat :=
  [bitsMask 11 0, bitsMask 56 6, bitsMask 56 6, bitsMask 56 3, 0, 0, 0, 0, 0, 0, 0, 0, 0, 0, 0, bitsMask 7 0]

/-- Whether a reserved bit of a replay record is set. -/
def replayReserved (r : List Word) : Bool := (r.zip replayFields).any fun p => anySet p.1 (2 ^ 64 - 1 - p.2)

/-- Words that the scheduler reads from an address up, in user mode; none when one faults (R324, R331). -/
def schedWords (die ctx : Nat) : Nat → Word → State → Option (List Word) × State
  | 0, _, s => (some [], s)
  | n + 1, va, s =>
    match schedRead die ctx va s with
    | (none, s1) => (none, s1)
    | (some w, s1) =>
      let r := schedWords die ctx n (va + 8) s1
      (r.1.map fun ws => w :: ws, r.2)

/-- The nodes of a graph: 24 words each. -/
def splitNodes : Nat → List Word → List (List Word)
  | 0, _ => []
  | n + 1, ws => ws.take 24 :: splitNodes n (ws.drop 24)

/-- Whether the header of a graph breaks R330. -/
def headerBad (h : List Word) : Bool :=
  let w := h.getD 0 0
  decide (fld w 0 7 = 0) || decide (64 < fld w 0 7) || fld w 7 1 != 0 || fld w 9 55 != 0 || (h.drop 1).any fun x => x != 0

/-- A node's record with the parameter block's entry in it. -/
def nodeRecord (node : List Word) (args patch : Word) : List Word := ((node.take 16).set 2 args).set 3 patch

/-- Whether node `k` of a graph breaks R330, or its record would be refused with status 3, 4 or 5. -/
def nodeBad (ctx part k : Nat) (node : List Word) (record : List Word) (s : State) : Bool :=
  let pred := (node.getD 16 0).toNat
  recCTX node != ctx || decide (2 ^ k ≤ pred) || ((node.drop 17).any fun x => x != 0) ||
    recStatus (node.take 16) part s != 0 || recStatus record part s != 0 || placeBad record s

/-- A replay as it is snapshotted, after the previous one of its graph from its queue. Its number is its acceptance instant, which no other replay has. -/
def newReplay (r : List Word) (die q order : Nat) (prev : Option Nat) (gser : Bool) (records : List (List Word)) (preds : List Nat) : Replay where
  id := order
  die := die
  queue := q
  order := order
  ctx := recCTX r
  graph := recWord r 1
  rcompl := recWord r 3
  gser := gser
  records := records
  preds := preds
  dispatched := []
  finished := []
  refused := false
  prev := prev

/-- The latest replay of a graph that came by a queue (R332). -/
def latestReplay (graph : Word) (q : HwQueue) : Option Nat := (q.graphs.find? fun g => g.1 == graph).map fun g => g.2

/-- A replay noted as the latest of its graph that came by its queue. -/
def noteReplay (graph : Word) (id : Nat) (q : HwQueue) : HwQueue := { q with graphs := (graph, id) :: q.graphs.filter fun g => g.1 != graph }

/-- The slot at HEAD holds a replay record whose own fields and context are in order: the snapshot is taken and its nodes are dispatched. Of 7 and 8 the status is that of the first check that fails as
the reads go (R322; log entry 115). -/
def takeSnapshot (r : List Word) (die q : Nat) (s : State) : State :=
  let ctx := recCTX r
  match schedWords die ctx 8 (recWord r 1) s with
  | (none, s1) => consumeSlot die q 8 s1
  | (some h, s1) =>
    if headerBad h then consumeSlot die q 7 s1
    else
      let n := fld (h.getD 0 0) 0 7
      match schedWords die ctx (24 * n) (recWord r 1 + 64) s1 with
      | (none, s2) => consumeSlot die q 8 s2
      | (some ws, s2) =>
        match schedRead die ctx (recWord r 2) s2 with
        | (none, s3) => consumeSlot die q 8 s3
        | (some ver, s3) =>
          match schedWords die ctx (2 * n) (recWord r 2 + 64 + (if bit ver 63 then 1024 else 0)) s3 with
          | (none, s4) => consumeSlot die q 8 s4
          | (some ps, s4) =>
            let nodes := splitNodes n ws
            let records := nodes.mapIdx fun k node => nodeRecord node (ps.getD (2 * k) 0) (ps.getD (2 * k + 1) 0)
            let bad := (List.range n).any fun k => nodeBad ctx (queueAt die q s4).part k (nodes.getD k []) (records.getD k []) s4
            if bad then consumeSlot die q 7 s4
            else
              let preds := nodes.map fun node => (node.getD 16 0).toNat
              let s5 := consumeSlot die q 0 s4
              let prev := latestReplay (recWord r 1) (queueAt die q s5)
              let s6 := modQueue die q (noteReplay (recWord r 1) s5.order) s5
              completeReplays (dispatchReady { s6 with
                replays := s6.replays ++ [newReplay r die q s6.order prev (bit (h.getD 0 0) 8) records preds]
                order := s6.order + 1 })

/-- The replays a die holds at most (R332). -/
def replayLimit : Nat := 16

/-- The slot at HEAD holds a replay record; it waits while the die holds as many replays as it can (R330 to R332). -/
def acceptReplay (r : List Word) (die q : Nat) (s : State) : State :=
  if replayReserved r then consumeSlot die q 3 s
  else if ctxBad (recCTX r) (queueAt die q s).part s then consumeSlot die q 4 s
  else if replayLimit ≤ (s.replays.filter fun x => x.die == die).length then s
  else takeSnapshot r die q s

/-- SLOT_ACCEPT (R318, R322, R323). -/
def execSlotAccept (die q : Nat) (s : State) : Out :=
  let x := queueAt die q s
  .next (if !x.en || pendingSlots x == 0 || queueHeld die q s then s
    else
      let r := readSlot (slotAddr x x.head) s
      match fld (recWord r.1 15) 0 8 with
      | 0 => acceptRecord r.1 die q r.2
      | 1 => acceptReplay r.1 die q r.2
      | 2 => consumeSlot die q 0 r.2
      | _ => consumeSlot die q 6 r.2)

/-! ## Dependences (R324) -/

/-- Whether a high-water word meets an index. -/
def depMet (w : Word) (idx : Nat) : Bool := decide (idx ≤ fld w 0 48) || bit w 63

/-- A dependence whose latest read faulted waits for the next invalidation to complete (R324). -/
def depWaits (l : Launch) (s : State) : Bool := l.blocked == some s.tiqdone

/-- DEPENDENCE_READ (R324). -/
def execDependenceRead (cand : Nat) (s : State) : Out :=
  .next (match launchAt cand s with
    | none => s
    | some l =>
      if l.st ≠ .candidate ∨ l.met ∨ depWaits l s then s
      else
        match schedRead l.die (recCTX l.record) (recDEPL l.record + 8) s with
        | (none, s1) => modLaunch cand (fun l => { l with blocked := some s1.tiqdone }) s1
        | (some w, s1) => if depMet w (recDEPIDX l.record) then modLaunch cand (fun l => { l with met := true }) s1 else s1)

/-! ## The start of strands (R166) -/

/-- Whether an island of a rectangle is in pressure. -/
def underPressure (r : List Word) (s : State) : Bool :=
  (rectCores r).any fun m => ((dieAt (dieOfMesh m) s).islands[fin 12 (by decide) (islandOf m)]).press

/-- The VL ceiling of a placement (R328). -/
def vlCeiling (r : List Word) (s : State) : Nat := if underPressure r s then max 64 (recVLREQ r / 128 * 64) else recVLREQ r

/-- A strand as it starts (R163, R166, R348). -/
def startedStrand (l : Launch) (mesh sid ceiling part : Nat) (ptvec : Word) : Strand :=
  let r := l.record
  { Strand.reset mesh sid with
    life := .running
    launch := l.id
    pc := recENTRY r
    g := (Vector.replicate 32 0).set 1 (recARGS r)
    mode := recMODE r
    seed := recSEED r
    sbase := recSBASE r
    rectpos := rectPos r mesh
    patchbase := recPATCH r
    tvec := ptvec
    ctx := recCTX r
    part := part
    budget := recBUD r sid
    tagFirst := recTagFirst r sid
    tagCount := recTagCount r sid
    ceiling := ceiling
    compl := recCOMPL r }

/-- The tags that a record grants. -/
def grantedTags (r : List Word) : List (Fin 64) :=
  (List.range (recNSTR r + 1)).flatMap fun k => (List.range (recTagCount r k)).map fun j => fin 64 (by decide) (recTagFirst r k + j)

/-- A core as a launch starts on it (R82, R102, R146, R148, R166, R261, R265, R272, R404). A shadow write that is asked for goes on. -/
def startedCore (l : Launch) (t : Nat) (c : Core) : Core :=
  let z := Core.reset c.mesh c.strands
  fusedFor l { c with
    acc := z.acc, owner := none, base := none, count := 0, stage := z.stage, spec := z.spec, fmt := 0, cellPoison := [], cellWriter := z.cellWriter
    tags := (grantedTags l.record).foldl (fun (ts : Vector TagReg 64) (k : Fin 64) => ts.set k TagReg.reset) c.tags, engq := [], scales := z.scales, tables := z.tables
    copies := [], l1 := [], misses := [], icopies := [], window := [], starve := [], boosted := []
    launch := some l.id, plc := c.plc + 1, shBase := t, shFired := false, shWaiters := [], dirty := startedDirty }

/-- A launch started on a core: its strands are resident there. -/
def startCore (l : Launch) (ceiling part : Nat) (ptvec : Word) (mesh : Nat) (s : State) : State :=
  let t := cycleOf mesh s
  modCoreStrands mesh (fun x => if x.sid ≤ recNSTR l.record then startedStrand l mesh x.sid ceiling part ptvec else Strand.reset mesh x.sid)
    (modCore mesh (startedCore l t) s)

/-- A core that takes up the state of a saved-state rectangle: a new placement of the core (R146, R148, R349). -/
def revivedCore (l : Launch) (t : Nat) (x c : Core) : Core :=
  fusedFor l { restoredCore c x with launch := some l.id, plc := c.plc + 1, shBase := t, shFired := false, shWaiters := [], dirty := startedDirty }

/-- A strand that a launch takes up again on a core: one that runs goes on with cause 1, and one that has ended stays so (R349). -/
def revivedStrand (l : Launch) (ceiling : Nat) (x t : Strand) : Strand :=
  if x.life = .running then { resumedStrand 1 1 { t with life := .running, launch := l.id } x with ceiling := ceiling } else { x with mesh := t.mesh, sid := t.sid }

/-- A launch that was pre-empted goes on at a core: its state comes from the frames of its area (R180, R349, R351). -/
def reviveCore (l : Launch) (ceiling mesh : Nat) (s : State) : State :=
  match s.saved.find? fun x => x.mesh == mesh && x.slot == l.id with
  | none => s
  | some img =>
    let x := readFrames l mesh img.core s.mem
    let t := cycleOf mesh s
    modCoreStrands mesh (fun t => revivedStrand l ceiling (imageStrand x t) t) (modCore mesh (revivedCore l t x) s)

/-! ## The binding table (R110, R111) -/

/-- An entry of a binding table, if it stands on its own. One with V set whose reserved bits are not zero, whose region's ends are not those of whole lines, or whose SCOPE is none
counts as invalid (R110; log entry 90). -/
def tableEntry (btb e : Nat) (s : State) : Option Binding :=
  let w (k : Nat) : Word := wd (natOf (s.mem.getN (btb + 32 * e + 8 * k) 8))
  let base := fld (w 0) 0 57
  let last := fld (w 1) 0 57
  let latch := fld (w 2) 3 54 * 8
  if bit (w 0) 63 && fld (w 0) 57 6 == 0 && base % 64 == 0 && fld (w 1) 57 7 == 0 && last % 64 == 63 && decide (base ≤ last) &&
      fld (w 2) 57 7 == 0 && decide (fld (w 2) 0 3 ≤ 4) && w 3 == 0 &&
      decide (last < windowBase) && decide (latch < windowBase) && !(decide (base ≤ latch) && decide (latch ≤ last)) then
    some ⟨e, base, last, latch, fld (w 2) 0 3⟩
  else none

/-- Whether two bindings break R111 together. -/
def clash (a b : Binding) : Bool :=
  (decide (a.rbase ≤ b.rlast) && decide (b.rbase ≤ a.rlast)) || (a.latch == b.latch && a.scope != b.scope) ||
    (decide (a.rbase ≤ b.latch) && decide (b.latch ≤ a.rlast)) || (decide (b.rbase ≤ a.latch) && decide (a.latch ≤ b.rlast))

/-- The binding table of a context as a launch starts with it: entries are judged in order, each against those that stand. -/
def readBindings (ctx : Nat) (s : State) : List Binding :=
  let btb := (descriptor ctx s).2.toNat
  (List.range 4096).foldl (fun bs e =>
    match tableEntry btb e s with
    | none => bs
    | some b => if bs.any (clash b) then bs else bs ++ [b]) []

/-! ## Placement (R325 to R328) -/

/-- Whether every core of a rectangle is idle. -/
def rectIdle (r : List Word) (s : State) : Bool := (rectCores r).all fun m => (coreAt m s).launch.isNone

/-- Whether a launch is a candidate whose dependence is met. -/
def ready (l : Launch) : Bool := (l.st == .candidate && l.met) || l.st == .preempted

/-- Whether a candidate is reserving (R327). -/
def reserving (l : Launch) : Bool := decide (32 ≤ l.passed)

/-- Whether a launch's partition draws less than its floor (R326, R374). -/
def belowFloor (l : Launch) (s : State) : Bool :=
  let p := s.parts[fin 8 (by decide) (partOfCtx (recCTX l.record) s)]
  decide (pdraw p < p.floor)

/-- The power key of a candidate (R326). -/
def powerKey (l : Launch) (s : State) : Nat := if underPressure l.record s then recPWT l.record else 7

/-- Of two keys, whether the first decides for `a`; `eq` is asked when they are equal. -/
def keyed (a b : Nat) (eq : Bool) : Bool := decide (a < b) || (a == b && eq)

/-- Whether a candidate comes before another (R326). -/
def placedBefore (s : State) (a b : Launch) : Bool :=
  let node (l : Launch) : Nat := (l.node.map fun n => n.2).getD 0
  keyed (belowFloor b s).toNat (belowFloor a s).toNat
    (keyed (recPRIO b.record) (recPRIO a.record)
      (keyed (reserving b).toNat (reserving a).toNat
        (keyed (powerKey b s) (powerKey a s)
          (keyed a.order b.order (keyed a.die b.die (keyed a.queue b.queue (decide (node a < node b))))))))

/-- Whether two rectangles share a core. -/
def rectsMeet (a b : List Word) : Bool := (rectCores a).any fun m => inRect b m

/-- The first of some candidates, in order, that is placeable and touches no core that an earlier one reserves. -/
def choosePlace (s : State) : List Launch → List Launch → Option Launch
  | _, [] => none
  | blocked, l :: t =>
    if rectIdle l.record s && !blocked.any (fun b => rectsMeet b.record l.record) then some l
    else choosePlace s (if reserving l then l :: blocked else blocked) t

/-- The candidate that the arbiter places next. -/
def nextPlace (s : State) : Option Launch := choosePlace s [] (sortBy (placedBefore s) (s.launches.filter ready))

/-- The launches that wait only for cores count one that is placed (R327). -/
def countPlaced (id : Nat) (s : State) : State :=
  { s with launches := s.launches.map fun l => if l.id ≠ id ∧ ready l ∧ !rectIdle l.record s then { l with passed := l.passed + 1 } else l }

/-- The strands of a launch started, or continued after a pre-emption, on every core of its rectangle. -/
def startLaunch (l : Launch) (s : State) : State :=
  let r := l.record
  let part := partOfCtx (recCTX r) s
  let ptvec := (s.parts[fin 8 (by decide) part]).ptvec
  let ceiling := vlCeiling r s
  if l.st = .preempted then
    let live := (rectCores r).filter fun m => !l.dead.contains (wgOf r m)
    let s1 := (rectCores r).foldl (fun s m => modCore m (fusedFor l) s) (live.foldl (fun s m => reviveCore l ceiling m s) s)
    modLaunch l.id (fun l => { l with st := .placed, passed := 0, area := (0, 0) }) { s1 with saved := s1.saved.filter fun x => x.slot != l.id }
  else
    let bs := readBindings (recCTX r) s
    modLaunch l.id (fun l => { l with st := .placed, passed := 0, def_ := [], bindings := bs })
      ((rectCores r).foldl (fun s m => startCore l ceiling part ptvec m s) s)

/-- A node refused as it is placed: it finishes at once without running (R332). -/
def refusePlaced (l : Launch) (s : State) : State :=
  match l.node with
  | none => s
  | some (rp, k) => completeReplays (dispatchReady (refuseNode rp k (modLaunch l.id (fun l => { l with st := .finished }) s)))

/-- Whether a shadow write is asked for or under way on a core: one for an END records its strand as ended before the core takes a new launch (R149, R158, R221; log entry 91). -/
def shadowing (mesh : Nat) (s : State) : Bool :=
  let c := coreAt mesh s
  c.shRequest || c.shTargets.isSome || c.shWriting.isSome

/-- Whether the cores of a rectangle can take strands: the die of each has come to stage 4, the core has power, its island was sampled, and no shadow write is due (R369, R379, R380; log entry 104). -/
def coresReady (r : List Word) (s : State) : Bool :=
  (rectCores r).all fun m => (dieAt (dieOfMesh m) s).stage == 4 && (coreAt m s).pwr == 0 && islandReady m s && !shadowing m s

/-- Whether a rectangle holds a disabled core, on which no strand runs (R378; log entry 120). -/
def anyDisabled (r : List Word) (s : State) : Bool := (rectCores r).any fun m => disabled m s

/-- Power-up asked for on the cores of a rectangle that are off (R379). -/
def powerRect (r : List Word) (s : State) : State := (rectCores r).foldl (fun s m => pupreqOp m s) s

/-- PLACEMENT (R325, R332, R379): cores that are off are powered up first, and the launch waits for its cores; a node outside its partition's allotment is refused. -/
def execPlacement (s : State) : Out :=
  .next (match nextPlace s with
    | none => s
    | some l =>
      if l.node.isSome && l.st == .candidate && placeBad l.record s then refusePlaced l s
      else if coresReady l.record s && !anyDisabled l.record s then startLaunch l (countPlaced l.id s)
      else powerRect l.record s)

/-! ## Pre-emption (R328, R349, R350) -/

/-- The launches that hold cores of a rectangle. -/
def holders (r : List Word) (s : State) : List Launch :=
  s.launches.filter fun l => (l.st == .placed || l.st == .saving) && (rectCores r).any fun m => (coreAt m s).launch == some l.id

/-- Whether a launch can be saved: it is being saved, or its partition's pool has room (R347, R350). -/
def savable (l : Launch) (s : State) : Bool := l.st == .saving || (allocate l s).isSome

/-- Whether a candidate pre-empts a launch (R328). -/
def preempts (c v : Launch) (s : State) : Bool :=
  let hs := holders c.record s
  ready c && (hs.any fun l => l.id == v.id) && hs.all fun l => decide (recPRIO l.record < recPRIO c.record) && savable l s

/-- A strand that stands at its stop point: its stores drain, a pending store fault is delivered, and a wait or a request for leave is given up (R349, R284). A strand whose instruction
has a remote access under way has not come to a stop point. -/
def stopForSave (s : State) : State :=
  let s1 := performAll s
  if s1.me.call.isSome then s1
  else onMe (fun t => { t with leave := .none, stopping := false }) (unwatch (if storeTrapDue s1 then storeTrap s1 else s1))

/-- A strand that a pre-emption stops: one that could go on has a turn yet, in which it takes a trap that is due where it stands (R352; log entry 92); one that waits stops at once
(R349). -/
def preemptStrand (s : State) : State :=
  let s1 := performAll s
  if mayRun s1 then onMe (fun t => { t with stopping := true }) s1 else stopForSave s1

/-- The running strands of a launch, as core and number. -/
def launchStrands (id : Nat) (s : State) : List (Nat × Nat) :=
  (allStrands s).filterMap fun t => if t.launch = id ∧ t.life = .running then some (t.mesh, t.sid) else none

/-- PREEMPTION (R349): a launch that a candidate pre-empts stops, and its area is allocated. -/
def execPreemption (v : Nat) (s : State) : Out :=
  .next (match launchAt v s with
    | none => s
    | some l =>
      if l.st = .placed ∧ (s.launches.any fun c => preempts c l s) then
        match allocate l s with
        | none => s
        | some a =>
          let s1 := (launchStrands v s).foldl (fun s k => atStrand k.1 k.2 preemptStrand s) s
          modLaunch v (fun l => if l.st = .placed then { l with st := .saving, area := (a, areaSize l.record) } else l) s1
      else s)

/-- Whether a running strand of a launch has not come to its stop. -/
def stopDue (id : Nat) (t : Strand) : Bool := t.stopping && t.launch == id && t.life == .running

/-- Whether the save of a launch can be completed: its cores have power and make no shadow, no engine is in the midst of a chunk of theirs, every strand has come to its stop, none waits for a seal, and its stores and remote accesses are performed (R156, R349,
R352). -/
def saveReady (l : Launch) (s : State) : Bool :=
  (rectCores l.record).all fun m =>
    let c := coreAt m s
    c.launch != some l.id || (c.pwr == 0 && c.shTargets.isNone && c.shWriting.isNone && c.shWaiters.isEmpty && !inChunk c && !unsettled m s && !(strandsOf m s).any (stopDue l.id))

/-- The work groups whose frames cannot be written end with REASON 4 (R350). -/
def failSaves (l : Launch) (s : State) : State :=
  let bad := (rectCores l.record).filter fun m => (coreAt m s).launch == some l.id && !framesOk l m
  bad.foldl (fun s m => if (coreAt m s).launch = some l.id then terminate l.id (wgOf l.record m) m 4 s else s)
    (modLaunch l.id (fun l => { l with st := .placed }) s)

/-- A core of a pre-empted launch saved and made idle. -/
def saveCore (l : Launch) (mesh : Nat) (s : State) : State :=
  let s1 := writeFrames l mesh s
  quitCore mesh (clearStrands mesh { s1 with saved := putImage (imageOf mesh l.id s1) s1.saved })

/-- The strands of a launch that stand at their stop points deliver what has come since: a store fault by a late reply (R349, step 2). -/
def settleStops (v : Nat) (s : State) : State :=
  (launchStrands v s).foldl (fun s k => atStrand k.1 k.2 (fun s => if s.me.stopping then s else stopForSave s) s) s

/-- The save of a launch whose strands stand at their stop points. -/
def saveLaunch (l : Launch) (s : State) : State :=
  let s1 := failSaves l s
  if ((launchAt l.id s1).map fun x => x.st) ≠ some .placed then s1
  else
    let mine := (rectCores l.record).filter fun m => (coreAt m s1).launch == some l.id
    modLaunch l.id (fun l => { l with st := .preempted }) (endFusion l (mine.foldl (fun s m => saveCore l m s) s1))

/-- STATE_SAVE_COMPLETE (R350): the frames are written, the cores are idle, and the launch is a candidate again. -/
def execStateSaveComplete (v : Nat) (s : State) : Out :=
  .next (match launchAt v s with
    | none => s
    | some l =>
      if l.st ≠ .saving then s
      else
        let s1 := settleStops v s
        if saveReady l s1 then saveLaunch l s1 else s1)

end Sys2Proof.Machine
end

