-- ==== Sys2Proof/Machine/Mail.lean ====
section
/-! DEFINITION. The commands of the mailbox with their completion (R153, R370, R372, R373), and the answers of SPDM (R371). -/

namespace Sys2Proof.Machine

/-! ## The commands (R372) -/

/-- A command run with its arguments. -/
def command (cmd : Nat) (a0 a1 a2 a3 : Word) (s : State) : State := mailboxRun cmd #v[a0, a1, a2, a3] s

/-- SETCAP. -/
def execSetcap (watts : Word) (s : State) : Out := .next (command 1 watts 0 0 0 s)

/-- SETFLOOR. -/
def execSetfloor (part watts : Word) (s : State) : Out := .next (command 2 part watts 0 0 s)

/-- ALLOT (R374). -/
def execAllot (part mask : Word) (s : State) : Out := .next (command 3 part mask 0 0 s)

/-- POWER. -/
def execPower (mesh dir : Word) (s : State) : Out := .next (command 4 mesh dir 0 0 s)

/-- RESUME (R153). -/
def execResume (pa : Word) (s : State) : Out := .next (command 5 pa 0 0 0 s)

/-- FWLOAD (R370). -/
def execFwload (addr len : Word) (s : State) : Out := .next (command 6 addr len 0 0 s)

/-- CALICO (R132). -/
def execCalico (cluster slot addr len : Word) (s : State) : Out := .next (command 7 cluster slot addr len s)

/-- FLUSH (R383). -/
def execFlush (s : State) : Out := .next (command 8 0 0 0 0 s)

/-- RESTART (R369). -/
def execRestart (s : State) : Out := .next (command 9 0 0 0 0 s)

/-! ## Completion -/

/-- The command that runs has written STS and RET. -/
def answer (sts : Nat) (ret : Word) (s : State) : State :=
  { s with mailbox := { s.mailbox with busy := false, sts := sts, ret := ret, running := 0 } }

/-- Whether every die has begun a grant period since the command began. -/
def periodBegun (s : State) : Bool := (List.range 4).all fun d => decide (s.mailbox.seen[fin 4 (by decide) d] < (dieAt d s).periods)

/-- A partition block changed. -/
def modPart (p : Nat) (f : Partition → Partition) (s : State) : State :=
  let i := fin 8 (by decide) p
  { s with parts := s.parts.set i (f s.parts[i]) }

/-- The bytes of an image. -/
def imageBytes (addr len : Word) (s : State) : List (BitVec 8) := s.mem.getN addr.toNat len.toNat

/-- A checked firmware package loaded: a higher version raises the fuse once stage 4 is reached (R370). -/
def loadFirmware (img : List (BitVec 8)) (s : State) : State :=
  let v := Config.imageVersion img
  if (dieAt 0 s).stage = 4 then { s with firmware := img, pendingFuse := v, fuse := if s.fuse.toNat < v.toNat then v else s.fuse }
  else { s with firmware := img, pendingFuse := v }

/-- A routine image put into a slot of an engine. -/
def loadRoutine (slot : Nat) (img : List (BitVec 8)) (cluster : Nat) (s : State) : State :=
  let e := fin 24 (by decide) cluster
  modDie (cluster / 24) (fun d =>
    { d with engines := d.engines.set e { d.engines[e] with slots := d.engines[e].slots.set (fin 16 (by decide) slot) (some img) } }) s

/-- The clusters that a CALICO command names. -/
def namedClusters (c : Nat) : List Nat := if c = 0xFF then List.range 96 else [c]

/-! ## RESUME (R153, R157) -/

/-- Whether a core can resume: it is not disabled (R378), and has a complete slot of its latest placement. A slot tells its placement by PLC alone, so a record other than that of the core's latest launch resumes from that launch's slot (R153; log
entry 45). -/
def resumable (mesh : Nat) (s : State) : Bool := !disabled mesh s && (newestSlot (fun x => x.plc == (coreAt mesh s).plc) (coreAt mesh s)).isSome

/-- Whether a core has a complete slot at all. -/
def hasSlot (mesh : Nat) (s : State) : Bool := (newestSlot (fun _ => true) (coreAt mesh s)).isSome

/-- A core of a launch that the host resumes: its strands are resident, and go on from its newest complete slot. -/
def resumeHost (l : Launch) (mesh : Nat) (s : State) : State :=
  let r := l.record
  let t := cycleOf mesh s
  let part := partOfCtx (recCTX r) s
  let s1 := modCoreStrands mesh (fun x =>
      if x.sid ≤ recNSTR r then { Strand.reset mesh x.sid with life := .running, launch := l.id, ctx := recCTX r, part := part } else Strand.reset mesh x.sid)
    (modCore mesh (fun c => fusedFor l { c with launch := some l.id, shBase := t, shFired := false, shWaiters := [] }) s)
  let s2 := countTorn mesh s1
  match newestSlot (fun x => x.plc == (coreAt mesh s2).plc) (coreAt mesh s2) with
  | none => s2
  | some k => resumeFrom mesh 4 k s2

/-- The barriers that each work group of a launch has completed, as the strands that resumed record them: those that any member has passed (R160). -/
def recordedEpochs (l : Launch) (s : State) : List (Nat × Nat) :=
  (distinct ((rectCores l.record).map (wgOf l.record))).map fun wg => (wg, ((wgMembers l wg s).map fun t => t.epoch).foldl max 0)

/-- The launch of a record resumed: the work group of a core that cannot resume ends. -/
def resumeLaunch (r : List Word) (s : State) : State :=
  let id := freshId s
  let l : Launch := { newLaunch id r s.order 0 0 none with st := .placed, bindings := readBindings (recCTX r) s }
  let cores := rectCores r
  let lost := cores.filter fun m => !resumable m s
  let s1 := cores.foldl (fun s m => resumeHost l m s) { s with launches := s.launches ++ [l], order := s.order + 1 }
  let s2 := modLaunch id (fun x => { x with epochs := recordedEpochs l s1 }) s1
  let s3 := lost.foldl (fun s m => if (coreAt m s).launch = some id then terminate id (wgOf r m) m 3 s else s) s2
  let n := ((allStrands s3).filter fun t => t.launch == id && t.life == .running).length
  answer 0 (wd n) (finishIfDone id s3)

/-- RESUME carried out: its cores are powered up first, and the command waits for them (R153, R372, R380). -/
def resumeCommand (pa : Word) (s : State) : State :=
  let r := readSlot pa.toNat s
  if recBad r.1 then answer 1 0 r.2
  else if !rectIdle r.1 r.2 || !(rectCores r.1).any fun m => hasSlot m r.2 then answer 7 0 r.2
  else if coresReady r.1 r.2 then resumeLaunch r.1 r.2
  else powerRect r.1 r.2

/-- What a command that runs does when the event comes at which it completes (R372). -/
def carryOut (cmd : Nat) (a : Vector Word 4) (s : State) : State :=
  match cmd with
  | 1 => if periodBegun s then answer 0 0 { s with cap := a[0].toNat } else s
  | 2 => if periodBegun s then answer 0 0 (modPart a[0].toNat (fun p => { p with floor := a[1].toNat }) s) else s
  | 3 => if periodBegun s then answer 0 0 (modPart a[0].toNat (fun p => { p with allot := a[1].toNat }) s) else s
  | 4 => if (coreAt a[0].toNat s).pwr = (if a[1] = 0 then 2 else 0) then answer 0 0 s else s
  | 5 => resumeCommand a[0] s
  | 6 =>
    let img := imageBytes a[0] a[1] s
    let st := imageStatus img s
    if st ≠ 0 then answer st 0 s else answer 0 0 (loadFirmware img s)
  | 7 =>
    if slotInUse a[0].toNat a[1].toNat s then s
    else
      let img := imageBytes a[2] a[3] s
      let st := imageStatus img s
      if st ≠ 0 then answer st 0 s
      else answer 0 0 ((namedClusters a[0].toNat).foldl (fun s c => loadRoutine a[1].toNat img c s) s)
  | 8 => answer 0 0 ((List.range 4).foldl (fun s d => flushCounts d s) s)
  | _ => s

/-- MAILBOX_COMPLETE (R372). -/
def execMailboxComplete (s : State) : Out :=
  .next (if s.mailbox.busy then carryOut s.mailbox.running s.mailbox.latched s else s)

/-! ## SPDM (R371) -/

/-- The Calico routine images that are loaded, in slot order. -/
def routineImages (s : State) : List (BitVec 8) :=
  (List.range 16).flatMap fun k => s.dies.toList.flatMap fun d => d.engines.toList.flatMap fun e => (e.slots[fin 16 (by decide) k]).getD []

/-- Measurement blocks 1 to 4. -/
def measurements (s : State) : List (List (BitVec 8)) :=
  [Config.romDigest, Config.digest s.firmware, Config.digest (routineImages s), Config.digest (s.locked.flatMap fun (w : Word) => bytesOf 8 w.toNat)]

/-- A request answered over the DOE mailbox; `code` is the request's place in R371. -/
def spdm (code : Nat) (req : List (BitVec 8)) (s : State) : State :=
  { s with doe := s.doe ++ [Config.spdmAnswer code req (measurements s)] }

/-- GET_VERSION. -/
def execGetVersion (req : List (BitVec 8)) (s : State) : Out := .next (spdm 0 req s)

/-- GET_CAPABILITIES. -/
def execGetCapabilities (req : List (BitVec 8)) (s : State) : Out := .next (spdm 1 req s)

/-- NEGOTIATE_ALGORITHMS. -/
def execNegotiateAlgorithms (req : List (BitVec 8)) (s : State) : Out := .next (spdm 2 req s)

/-- GET_DIGESTS. -/
def execGetDigests (req : List (BitVec 8)) (s : State) : Out := .next (spdm 3 req s)

/-- GET_CERTIFICATE. -/
def execGetCertificate (req : List (BitVec 8)) (s : State) : Out := .next (spdm 4 req s)

/-- CHALLENGE. -/
def execChallenge (req : List (BitVec 8)) (s : State) : Out := .next (spdm 5 req s)

/-- GET_MEASUREMENTS. -/
def execGetMeasurements (req : List (BitVec 8)) (s : State) : Out := .next (spdm 6 req s)

end Sys2Proof.Machine
end

