-- ==== Sys2Proof/Machine/Outside.lean ====
section
/-! DEFINITION. The host's accesses to memory (R19, R121, R366), CXL.cache snoops (R17), and the chain ports (R120, R381, R382). -/

namespace Sys2Proof.Machine

/-! ## Host memory accesses -/

/-- The length of the CXL.mem range (R366). -/
def cxlRange : Nat := 0x20040000000

/-- Whether an offset of the range names a byte (R14, R19, R366). -/
def hostByte (x : Nat) : Bool := decide (x < cxlRange) && ownMemory x

/-- Bytes of the host's accesses counted at their home dies (R96, R367). -/
def countHost (xs : List Nat) (s : State) : State :=
  (List.range 4).foldl (fun s d =>
    modDie d (fun x => { x with hostacc := x.hostacc + wd (xs.filter fun a => homeDie a == d).length }) s) s

/-- Whether CXL.mem and CXL.cache are enabled (R369). -/
def cxlEnabled (s : State) : Bool := (dieAt 0 s).stage == 4

/-- The offsets of an access. -/
def hostOffsets (off len : Nat) : List Nat := (List.range len).map fun k => off + k

/-- HOST_MEM_READ (R121, R366): an access with a byte in a hole returns all ones with poison. -/
def execHostMemRead (off len : Nat) (s : State) : Out :=
  let xs := hostOffsets off len
  .next (if !cxlEnabled s then s
    else if xs.all hostByte then
      let r := homeRead noCtx true (xs.map fun x => .mem x) s
      { countHost xs r.2 with hostAnswer := r.1, hostPoison := false, hostBad := false }
    else { s with hostAnswer := List.replicate len 0xFF, hostPoison := true, hostBad := false })

/-- The bytes of a host write that do not fall into a hole. -/
def hostWrites : Nat → List (BitVec 8) → List ByteWrite
  | _, [] => []
  | x, b :: bs => if hostByte x then ⟨.mem x, b, 0xFF, none⟩ :: hostWrites (x + 1) bs else hostWrites (x + 1) bs

/-- HOST_MEM_WRITE (R121, R366). -/
def execHostMemWrite (off : Nat) (bytes : List (BitVec 8)) (s : State) : Out :=
  .next (if !cxlEnabled s then s
    else countHost ((hostOffsets off bytes.length).filter hostByte) (homeWrite noCtx true (hostWrites off bytes) { s with hostBad := false }))

/-! ## CXL.cache (R17) -/

/-- The L2 line of a host-window line changed in die d0. -/
def snoopSet (line : Nat) (f : L2Line → Option L2Line) (s : State) : State :=
  let st := setAt 0 line s
  putSet 0 line { st with ways := st.ways.map fun w => match w with | some x => if x.line = line then f x else some x | none => none } s

/-- A store of the host's to its own memory: L2 gives up the lines that it reaches, and a strand reads what the host wrote (R17). -/
def hostOwnStore (pa : Nat) (bytes : List (BitVec 8)) (s : State) : State :=
  let bs := (memBytes pa bytes).filter fun b => match b.loc with | .mem a => regionOf a == .host | .scratch _ _ => false
  let lines := distinct ((memMasks bs).map fun b => b.1 / 64)
  let s1 := lines.foldl (fun s l => snoopSet l (fun _ => none) s) (hostHas lines.contains { s with hostOwned := s.hostOwned.filter fun l => !lines.contains l })
  homeBytes false bs s1

/-- The CDAT object, read over the DOE mailbox of d0; what it says is not stated (R365; log entry 93). -/
def readCdat (req : List (BitVec 8)) (s : State) : State := { s with doe := s.doe ++ [Config.cdatAnswer req] }

/-- CXL_CACHE_SNOOP (R17): the host reads a line, which is then clean, or takes back its ownership, and L2 holds it no longer. -/
def execCxlCacheSnoop (pa : Nat) (takeBack : Bool) (s : State) : Out :=
  let line := pa / 64
  .next (if regionOf pa ≠ .host then s
    else
      let s1 := hostHas (fun l => l == line) s
      if takeBack then { snoopSet line (fun _ => none) s1 with hostOwned := s.hostOwned.filter fun l => l != line }
      else snoopSet line (fun x => some { x with dirty := false }) s1)

/-! ## Chain ports -/

/-- A port changed. -/
def modPort (die port : Nat) (f : Port → Port) (s : State) : State :=
  let i := fin 4 (by decide) port
  modDie die (fun d => { d with ports := d.ports.set i (f d.ports[i]) }) s

/-- CHAIN_PORT_LINK_CHANGE (R381). -/
def execChainPortLinkChange (die port : Nat) (up : Bool) (nbr : BitVec 12) (s : State) : Out :=
  .next (if die < 4 ∧ port < 4 then modPort die port (fun p => { p with up := up, nbr := nbr.toNat }) s else s)

/-- FLIT_TIMEOUT (R381): an open flit leaves 64 cycles after its first access. -/
def execFlitTimeout (die port : Nat) (s : State) : Out :=
  let t := (dieAt die s).cycle
  .next (if die < 4 ∧ port < 4 then
      modPort die port (flitLeft t) s
    else s)

/-- Whether a remote access still stands in an open flit. -/
def inFlit (id : Nat) (s : State) : Bool := s.dies.toList.any fun d => d.ports.toList.any fun p => (flitLeft d.cycle p).flit.contains id

/-- Whether a strand has room for another store-fault record (R341). -/
def recordRoom (mesh sid : Nat) (s : State) : Bool := (strandAt mesh sid s).all fun t => decide (t.sfq.length < queueDepth)

/-- Whether a strand's instruction waits for the reply to an access. -/
def awaited (m : RemoteMsg) (s : State) : Bool := ((strandAt m.mesh m.sid s).bind fun t => t.call) == some m.id

/-- REMOTE_REPLY (R120, R382): a store is complete, or its fault becomes a store-fault record once there is room for one; any other access keeps the reply for its instruction, and one that no
instruction waits for any more reaches nobody. -/
def execRemoteReply (id : Nat) (r : ReplyKind) (s : State) : Out :=
  .next (match s.remote.find? fun m => m.id == id with
    | none => s
    | some m =>
      if inFlit id s ∨ m.reply.isSome then s
      else
        match m.store, r with
        | some q, .fault sub =>
          if recordRoom m.mesh m.sid s then atStrand m.mesh m.sid (recordFault q sub) { s with remote := s.remote.filter fun x => x.id != id } else s
        | some _, _ => { s with remote := s.remote.filter fun x => x.id != id }
        | none, _ =>
          if awaited m s then { s with remote := s.remote.map fun x => if x.id = id then { x with reply := some r } else x }
          else { s with remote := s.remote.filter fun x => x.id != id })

/-- Who makes an access that arrives on a port: the target context in user mode, walked by the first core of the port's die (R382). -/
def arrivalReq (port ctx : Nat) (s : State) : Req := ⟨384 * (port / 4 % 4), 0, ctx, partOfCtx ctx s, false, 0, false, 0⟩

/-- The translation of an access that arrives, by the tables of its context (R382). -/
def arrivalTarget (rq : Req) (acc : Access) (size : Nat) (va : Word) (s : State) : Except Nat Target × State :=
  if fld va 57 7 != 0 then (.error xADDRFORM, s)
  else if inWindow va.toNat then (.error xWINDOW, s)
  else
    match translateTables rq acc size va s with
    | (.error x, s1) => (.error x.sub, s1)
    | (.ok t, s1) => (.ok t, s1)

/-- The targets of bytes that arrive one by one. -/
def arrivalTargets (rq : Req) : Nat → Word → State → Except Nat (List Target) × State
  | 0, _, s => (.ok [], s)
  | n + 1, va, s =>
    match arrivalTarget rq .store 1 va s with
    | (.error x, s1) => (.error x, s1)
    | (.ok t, s1) =>
      match arrivalTargets rq n (va + 1) s1 with
      | (.error x, s2) => (.error x, s2)
      | (.ok ts, s2) => (.ok (t :: ts), s2)

/-- The operation of a code (R291). -/
def amoOfCode : Nat → AmoOp
  | 0 => .add
  | 1 => .min
  | 2 => .max
  | 3 => .and
  | 4 => .or
  | 5 => .xor
  | 6 => .swp
  | _ => .cas

/-- One byte that arrives, performed at its home. -/
def arriveByte (ctx : Nat) (t : Target) (b : BitVec 8) (s : State) : State := homeWrite ctx (targetWb t) (putAt [targetLoc t 0] [b]) s

/-- A store that arrives: performed at its home, whole when it is aligned and byte by byte otherwise (R100, R120). -/
def arriveStore (rq : Req) (va : Word) (bytes : List (BitVec 8)) (s : State) : ReplyKind × State :=
  let n := bytes.length
  if n = 0 then (.done, s)
  else if va.toNat % n = 0 then
    match arrivalTarget rq .store n va s with
    | (.error x, s1) => (.fault x, s1)
    | (.ok t, s1) =>
      match t with
      | .mem pa .ctl => (.done, if regionOf pa = .control then ctlStore pa n (wd (natOf bytes)) s1 else homeWrite rq.ctx false (memBytes pa bytes) s1)
      | t => (.done, homeWrite rq.ctx (targetWb t) (putAt (locsAt t n) bytes) s1)
  else
    match arrivalTargets rq n va s with
    | (.error x, s1) => (.fault x, s1)
    | (.ok ts, s1) => (.done, (ts.zip bytes).foldl (fun s p => arriveByte rq.ctx p.1 p.2 s) s1)

/-- A publication that arrives: its place and the words there are tested as a publication of this package's own is, and it is performed at its home (R108, R120, R302). -/
def arrivePublication (rq : Req) (va : Word) (fin_ : Bool) (n : Nat) (s : State) : ReplyKind × State :=
  if va.toNat % 16 ≠ 0 ∨ (fld va 57 7 = 0 ∧ inWindow va.toNat) then (.illegal, s)
  else
    match arrivalTarget rq .atomic 8 va s with
    | (.error x, s1) => (.fault x, s1)
    | (.ok t, s1) =>
      let ws := publicationAt t s1
      if !ownMemory (targetPa t) || lwReserved ws.1 || fld ws.2 48 15 != 0 then (.illegal, s1) else (.done, publishAt rq.ctx t fin_ n true s1)

/-- A remote access performed in this package, with its reply (R120, R382). -/
def arrive (rq : Req) (r : RemoteAccess) (s : State) : ReplyKind × State :=
  match r.op with
  | .store bytes => arriveStore rq r.va bytes s
  | .amo op uns size operand expect =>
    match arrivalTarget rq .atomic size r.va s with
    | (.error x, s1) => (.fault x, s1)
    | (.ok t, s1) =>
      let r := rmwAt rq.ctx t size (amoNew (amoOfCode op) uns size operand expect) s1
      (.value r.1, r.2)
  | .pubhw fin_ n => arrivePublication rq r.va fin_ n.toNat s

/-- REMOTE_ACCESS_ARRIVAL (R120, R382): the access is performed and its reply is sent; `first` tells that it is the first of its flit (R381). -/
def execRemoteAccessArrival (port : Nat) (first : Bool) (r : RemoteAccess) (s : State) : Out :=
  let s1 := if first then modPort (port / 4) port (fun p => { p with received := p.received + 1 }) s else s
  let a := arrive (arrivalReq port r.ctx s1) r s1
  .next { a.2 with replies := a.2.replies ++ [a.1] }

end Sys2Proof.Machine
end

