-- ==== Sys2Proof/Machine/Persist.lean ====
section
/-! DEFINITION. The persist queues of the dies (R154). -/

namespace Sys2Proof.Machine

/-- The cycles from one start to the next, and from a start until the entry is durable (R154). -/
def persistGap : Nat := 2
def persistTime : Nat := 330

/-- The first entry of a list that has not started, started at a cycle. -/
def startEntry (t : Nat) : List PersistEntry → List PersistEntry
  | [] => []
  | e :: rest => if e.started.isNone then { e with started := some t } :: rest else e :: startEntry t rest

/-- PERSIST_ENTRY_START (R154): the queue starts its next entry. -/
def execPersistEntryStart (die : Nat) (s : State) : Out :=
  .next (modDie die (fun d =>
    if d.cycle < d.persistAt ∨ d.persist.all (fun e => e.started.isSome) then d
    else { d with persist := startEntry d.cycle d.persist, persistAt := d.cycle + persistGap }) s)

/-- The bytes of an entry written to the Muslin cells. -/
def makeDurable (m : Memory) (e : PersistEntry) : Memory := e.bytes.foldl (fun m b => m.set b.1 b.2) m

/-- PERSIST_ENTRY_DURABLE (R154): the oldest entry is durable once its time has passed. -/
def execPersistEntryDurable (die : Nat) (s : State) : Out :=
  let d := dieAt die s
  .next (match d.persist with
    | [] => s
    | e :: rest =>
      match e.started with
      | none => s
      | some t =>
        if d.cycle < t + persistTime then s
        else modDie die (fun d => { d with persist := rest, persistDone := d.persistDone + 1 }) { s with durable := makeDurable s.durable e })

end Sys2Proof.Machine
end

