-- ==== Sys2Proof/Machine/Reserve.lean ====
section
/-! DEFINITION. What an instruction waits for among the older vector instructions of its strand: the scalar registers that it names (R232, R255, R388), and the retirement of all
of them (R173, R215, R334). -/

namespace Sys2Proof.Machine

/-- Some general registers, and some float registers. -/
def gs (rs : List (Fin 32)) : List ScalarReg := rs.map .g
def fs (rs : List (Fin 16)) : List ScalarReg := rs.map .f

/-- The four general registers from one on. -/
def fourFrom (a : Fin 32) : List ScalarReg := gs ([0, 1, 2, 3].map fun k => fin 32 (by decide) (a.1 + k))

/-- The register after one. -/
def gNext (a : Fin 32) : Fin 32 := fin 32 (by decide) (a.1 + 1)

/-- The scalar registers that an instruction reads or writes. -/
def scalarRegs : Instr → List ScalarReg
  | .add d a b | .sub d a b | .mul d a b | .mulh d a b | .mulhU d a b | .div d a b | .divU d a b | .rem d a b | .remU d a b
  | .and d a b | .or d a b | .xor d a b | .shl d a b | .shr d a b | .sar d a b | .min d a b | .minU d a b | .max d a b | .maxU d a b
  | .setEq d a b | .setLt d a b | .setLtu d a b | .setvl d a b | .wfe d a b | .bind d a b _ | .launch d a b => gs [d, a, b]
  | .sel d a b c => gs [d, a, b, c]
  | .clz d a | .popc d a | .addI d a _ | .andI d a _ | .orI d a _ | .xorI d a _ | .shlI d a _ | .shrI d a _ | .sarI d a _ | .setEqI d a _ | .setLtI d a _
  | .setLtuI d a _ | .beq d a _ | .bne d a _ | .blt d a _ | .bge d a _ | .bltu d a _ | .bgeu d a _ | .jr d a _ | .feat d a _ | .acqObs d a | .tryacq d a
  | .unbind d a | .waitany d a | .ffrdy d a | .ldB d a _ | .ldBu d a _ | .ldH d a _ | .ldHu d a _ | .ldW d a _ | .ldWu d a _ | .ldD d a _ | .stB d a _
  | .stH d a _ | .stW d a _ | .stD d a _ | .pubhw d a | .pubhwFin d a => gs [d, a]
  | .lih d _ | .jal d _ | .csrr d _ | .csrw d _ | .loop _ d _ | .acq d | .rel d | .waitall d | .setmode d _ | .sqadv _ d | .tagcnt d _ | .vdot d _ _ | .vred d _ _
  | .mpopc d _ | .mfirst d _ | .tmpopc d _ | .qstat d _ _ | .scout _ _ _ d _ | .vslideDn _ _ d | .vslideUp _ _ d | .vmvScalar _ d _ => gs [d]
  | .amoAdd d a b _ _ | .amoMin d a b _ _ _ | .amoMax d a b _ _ _ | .amoAnd d a b _ _ | .amoOr d a b _ _ | .amoXor d a b _ _ | .amoSwp d a b _ _
  | .amoCas d a b _ _ => gs [d, a, b]
  | .fadd d a b | .fsub d a b | .fmul d a b | .fdiv d a b | .fmin d a b | .fmax d a b => fs [d, a, b]
  | .fma d a b c => fs [d, a, b, c]
  | .fsqrt d a => fs [d, a]
  | .fcmp d a b _ => gs [d] ++ fs [a, b]
  | .fcvtS64 d a | .fcvtN64 d a | .fcvtBits d a => gs [d] ++ fs [a]
  | .fcvtFS64 d a | .fcvtFN64 d a | .fcvtFBits d a | .ldF d a _ | .stF d a _ => fs [d] ++ gs [a]
  | .strip d a b _ => gs [d, b] ++ fourFrom a
  | .vadd _ _ b x _ | .vsub _ _ b x _ | .vmul _ _ b x _ | .vmac _ _ b x _ | .vmin _ _ b x _ | .vmax _ _ b x _ | .vand _ _ b x | .vor _ _ b x | .vxor _ _ b x
  | .vcmp _ _ b x _ => if x then gs [b] else []
  | .vfadd _ _ b x _ | .vfmul _ _ b x | .vfma _ _ b x _ | .vfmax _ _ b x _ => if x then fs [fin 16 (by decide) b.1] else []
  | .vsmax _ _ b _ _ => fs [b, fin 16 (by decide) (b.1 + 1), fin 16 (by decide) (b.1 + 2)]
  | .qscaleH d _ _ | .qscaleR d _ _ _ => fs [d]
  | .drain _ a b => gs [a, b]
  | .thresh _ _ b _ c => gs [b, c]
  | .vld _ a b c _ | .vldCompressed _ a b c | .vst _ a b c _ => gs [a, b, c]
  | .vgather _ a _ c | .vscatterOrd _ a _ c | .vscatterUno _ a _ c => gs [a, c, gNext c]
  | .cpy a _ _ _ | .cpyx a _ _ _ => fourFrom a
  | .sqopen _ a b _ => gs [b] ++ fourFrom a
  | _ => []

/-- The scalar registers that a vector-queue instruction writes, which it reserves until it retires (R232). -/
def reservesOf : Instr → List ScalarReg
  | .setvl d _ _ | .waitany d _ | .ffrdy d _ | .tagcnt d _ | .vdot d _ _ | .vred d _ _ | .mpopc d _ | .mfirst d _ | .tmpopc d _ | .qstat d _ _ | .scout _ _ _ d _
  | .thresh _ _ _ _ d => gs [d]
  | .vsmax _ _ b _ _ => fs [b, fin 16 (by decide) (b.1 + 1), fin 16 (by decide) (b.1 + 2)]
  | .qscaleH d _ _ | .qscaleR d _ _ _ => fs [d]
  | .vgather _ _ _ c | .vscatterOrd _ _ _ c | .vscatterUno _ _ _ c => gs [gNext c]
  | _ => []

/-- The instructions that wait until every older vector instruction of their strand has retired: the scalar ones that have effects once they are committed (R334), accesses of control registers in
the order R (R215), and the vector-queue ones that write memory or act on tags and stream slots (R173). -/
def commits : Instr → Bool
  | .stB _ _ _ | .stH _ _ _ | .stW _ _ _ | .stD _ _ _ | .stF _ _ _ => true
  | .amoAdd _ _ _ _ _ | .amoMin _ _ _ _ _ _ | .amoMax _ _ _ _ _ _ | .amoAnd _ _ _ _ _ | .amoOr _ _ _ _ _ | .amoXor _ _ _ _ _ | .amoSwp _ _ _ _ _
  | .amoCas _ _ _ _ _ => true
  | .acq _ | .acqObs _ _ | .tryacq _ _ | .rel _ | .bind _ _ _ _ | .unbind _ _ | .pubhw _ _ | .pubhwFin _ _ | .launch _ _ _ => true
  | .csrw _ _ | .trap _ | .eret | .endStrand => true
  | .csrr _ c => c == 0x003 || c == 0x004 || c == 0x00A
  | .vst _ _ _ _ _ | .vscatterOrd _ _ _ _ | .vscatterUno _ _ _ _ | .drain _ _ _ | .cpy _ _ _ _ | .cpyx _ _ _ _ | .commit _ => true
  | .sqopen _ _ _ _ | .sqadv _ _ | .sqend _ | .sqclose _ | .vldPop _ _ => true
  | _ => false

/-- Whether an instruction of the strand at hand waits for an older vector instruction of it to retire. -/
def waitsRetirement (i : Instr) (s : State) : Bool :=
  let older := s.core.window.filter fun f => f.sid == s.me.sid
  (commits i && !older.isEmpty) || older.any fun f => f.reserves.any fun r => (scalarRegs i).contains r

end Sys2Proof.Machine
end

