-- ==== Sys2Proof/Machine/Sequencer.lean ====
section
/-! DEFINITION. The vector sequencer (R172 to R177, R232, R267) and what happens to accesses after their instruction: the store queue, the waits
for writes, the walkers, and the instants at which writes are performed (R32, R101, R102, R223, R341). -/

namespace Sys2Proof.Machine

/-! ## What an instruction asks of the units -/

/-- The unit that runs a vector-queue instruction (none for one that takes effect at rename), the registers that it reads, the one that it writes, and whether it reads the guard (R174, R176, R192). -/
structure UnitUse where
  unit : Option ExUnit
  srcs : List PipeReg
  dest : Option PipeReg
  guarded : Bool
deriving DecidableEq, Repr

/-- An instruction of a unit, under the guard, and one that reads no guard. -/
def useU (u : ExUnit) (srcs : List PipeReg) (dest : Option PipeReg) : Option UnitUse := some ⟨some u, srcs, dest, true⟩
def useFree (u : ExUnit) (srcs : List PipeReg) (dest : Option PipeReg) : Option UnitUse := some ⟨some u, srcs, dest, false⟩

/-- Instructions of the plane array and of the Word Unit that write a vector register, from vector registers. -/
def useV (u : ExUnit) (d : Fin 32) (as_ : List (Fin 32)) : Option UnitUse := useU u (as_.map .v) (some (.v d))

/-- An instruction that takes effect at rename. -/
def atRename (dest : Option PipeReg) : Option UnitUse := some ⟨none, [], dest, false⟩

/-- The vector registers that two operands name, the second being a scalar when `x` is set. -/
def pairOf (a b : Fin 32) (x : Bool) : List (Fin 32) := if x then [a] else [a, b]

/-- What a vector-queue instruction asks of the execution units, with a scale slot or a code table that it names as a register (R174, R267); every other instruction asks nothing (log entry 52). -/
def useOf : Instr → Option UnitUse
  | .vadd d a b x _ | .vsub d a b x _ | .vmul d a b x _ | .vmin d a b x _ | .vmax d a b x _ | .vand d a b x | .vor d a b x | .vxor d a b x => useV .plane d (pairOf a b x)
  | .vmac d a b x _ => useV .plane d (d :: pairOf a b x)
  | .vneg d a _ | .vabs d a _ | .vnot d a | .vshl d a _ _ | .vshr d a _ | .vpopc d a | .vscan d a _ _ | .vslideDn d a _ | .vslideUp d a _ | .vmv d a | .vwiden d a
  | .vnarrow d a _ => useV .plane d [a]
  | .vcmp d a b x _ => useU .plane ((pairOf a b x).map .v) (some (.m d))
  | .vsel d a b c => useU .plane [.v a, .v b, .m c] (some (.v d))
  | .vdot _ a b => useU .plane [.v a, .v b] none
  | .vred _ a _ => useU .plane [.v a] none
  | .vcompress d a c | .vexpand d a c => useFree .plane [.v a, .m c] (some (.v d))
  | .viota d c => useU .plane [.m c] (some (.v d))
  | .viotaIdx d | .vmvScalar d _ _ => useV .plane d []
  | .mand d a b | .mor d a b | .mxor d a b => useFree .plane [.m a, .m b] (some (.m d))
  | .mnot d a => useFree .plane [.m a] (some (.m d))
  | .mpopc _ a | .mfirst _ a => useFree .plane [.m a] none
  | .vfadd d a b x _ | .vfmul d a b x | .vfmax d a b x _ => useV .word d (pairOf a b x)
  | .vfma d a b x _ => useV .word d (d :: pairOf a b x)
  | .vfexp2 d a | .vfrcp d a | .vfrsq d a | .vfcvt d a => useV .word d [a]
  | .vsmax d a _ _ c => useU .word [.v a, .tm c] (some (.v d))
  | .qstat _ a q => useU .word [.v a, .slot q] (some (.slot q))
  | .qscaleH _ _ q => useFree .word [.slot q] (some (.slot q))
  | .qscaleR _ a _ q => useU .word [.v a, .slot q] (some (.slot q))
  | .qscaleZ q => useFree .word [.slot q] (some (.slot q))
  | .quant d a p q k => useU .word ([.v a, .slot k] ++ if q then [.table p] else []) (some (.v d))
  | .ctab a k => useFree .word [.v a, .table k] (some (.table k))
  | .clook d a k => useU .word [.v a, .table k] (some (.v d))
  | .opa d a b _ => useFree .outer [.v a, .v b, .acc d] (some (.acc d))
  | .opaAca d a b _ _ => useFree .outer [.acc a, .v b, .acc d] (some (.acc d))
  | .opaS d a b _ _ i => useFree .outer [.v a, .v b, .v i, .acc d] (some (.acc d))
  | .opaT d a b c _ => useFree .outer [.v a, .v b, .tm c, .acc d] (some (.acc d))
  | .accz d => useFree .outer [] (some (.acc d))
  | .accrd d a _ _ => useU .outer [.acc a] (some (.v d))
  | .drain d _ _ => useFree .outer [.acc d] none
  | .scout d a b _ _ => useFree .outer [.v a, .v b] (some (.acc d))
  | .thresh d a _ _ _ => useFree .outer [.acc a] (some (.tm d))
  | .tmand d a b _ => useFree .outer [.tm a, .tm b] (some (.tm d))
  | .tmpopc _ a => useFree .outer [.tm a] none
  | .vld d _ _ _ _ => useV .vmem d []
  | .vldCompressed d _ _ _ => useFree .vmem [] (some (.v d))
  | .vldPop d _ => useFree .vmem [] (some (.v d))
  | .vst d _ _ _ _ => useU .vmem [.v d] none
  | .vgather d _ b _ => useV .vmem d [b]
  | .vscatterOrd d _ b _ | .vscatterUno d _ b _ => useU .vmem [.v d, .v b] none
  | .vcfg d _ => atRename (some (.v d))
  | .tagmask d _ => atRename (some (.m d))
  | .setvl _ _ _ | .setmode _ _ | .mmode _ | .cpy _ _ _ _ | .cpyx _ _ _ _ | .waitany _ _ | .waitall _ | .ffrdy _ _ | .tagcnt _ _ | .commit _ | .sqopen _ _ _ _
  | .sqadv _ _ | .sqend _ | .sqclose _ => atRename none
  | _ => none

/-- Whether an instruction is one micro-operation, whatever its length (R265). -/
def singleOp : Instr → Bool
  | .ctab _ _ => true
  | _ => false

/-- The mask register that the guard reads, if it is on (R192). -/
def guardReg (mode : Word) : List PipeReg := if modeGON mode then [.m (fin 8 (by decide) (modeGM mode))] else []

/-! ## The window (R174) -/

/-- The micro-operations the window of a core holds at most, and those that it holds for each resident strand. -/
def windowSize : Nat := 64
def guaranteed : Nat := 8

/-- The entries that an instruction holds: its micro-operations in the window that have not completed. -/
def entriesOf (f : Flight) : Nat := f.waiting + f.running.isSome.toNat

/-- The entries that a strand holds. -/
def strandEntries (sid : Nat) (fs : List Flight) : Nat := ((fs.filter fun f => f.sid == sid).map entriesOf).foldl (· + ·) 0

/-- The entries beyond the guarantees that are taken. -/
def sharedEntries (fs : List Flight) : Nat := ((List.range 4).map fun k => strandEntries k fs - guaranteed).foldl (· + ·) 0

/-- Whether a strand may take another entry, on a core with some resident strands. -/
def mayEnter (residents sid : Nat) (fs : List Flight) : Bool :=
  decide (strandEntries sid fs < guaranteed) || decide (sharedEntries fs < windowSize - guaranteed * residents)

/-- Whether an instruction has elements for which no micro-operation is in the window, with groups of a size; one without elements has one micro-operation too, as has one that is a single one
(R167, R265). -/
def wantsEntry (group : Nat) (f : Flight) : Bool :=
  if f.groups = 0 ∧ f.waiting = 0 then true else !f.single && decide (f.issued + f.waiting * group < f.last)

/-- The first instruction, in order of rename, that takes an entry, with one more of its micro-operations in the window. -/
def enterOne (residents group : Nat) (all : List Flight) : List Flight → Option (List Flight)
  | [] => none
  | f :: t =>
    if wantsEntry group f && mayEnter residents f.sid all then some ({ f with waiting := f.waiting + 1 } :: t)
    else (enterOne residents group all t).map fun r => f :: r

/-- Micro-operations enter the window as long as one may, at most `n` of them. -/
def enterAll (residents group : Nat) : Nat → List Flight → List Flight
  | 0, fs => fs
  | n + 1, fs =>
    match enterOne residents group fs fs with
    | none => fs
    | some fs1 => enterAll residents group n fs1

/-- How many strands are resident on a core, those that have ended and are still held there included (R174; log entry 52). -/
def residentCount (mesh : Nat) (s : State) : Nat := ((strandsOf mesh s).filter fun t => t.life != .absent).length

/-- The size of an element group of a core (R167). -/
def groupOfCore (c : Core) : Nat := max c.alc 64

/-- A core with as many micro-operations in its window as may enter, for its resident strands. -/
def filled (residents : Nat) (c : Core) : Core := { c with window := enterAll residents (groupOfCore c) windowSize c.window }

/-- The window of a core after entries became free or an instruction was renamed. -/
def fillWindow (mesh : Nat) (s : State) : State := modCore mesh (filled (residentCount mesh s)) s

/-! ## Rename and retirement (R173) -/

/-- The place in program order of the next instruction of a strand. -/
def nextAge (sid : Nat) (fs : List Flight) : Nat := ((fs.filter fun f => f.sid == sid).map fun f => f.age + 1).foldl max 0

/-- An instruction of a strand as it enters the sequencer, from an element to another; one that takes effect at rename has no micro-operation. -/
def renamedFlight (i : Instr) (u : UnitUse) (sid first last : Nat) (mode : Word) (fs : List Flight) : Flight :=
  { sid := sid, age := nextAge sid fs, unit := u.unit, srcs := u.srcs ++ (if u.guarded then guardReg mode else []), dest := u.dest, reserves := reservesOf i
    frees := [], flags := 0, results := [], single := singleOp i, last := if u.unit.isNone then first else max first last, waiting := 0, groups := u.unit.isNone.toNat, issued := first, running := none
    done := first, chained := [] }

/-- Whether an instruction has completed: a group of it has run, and all its elements are done. -/
def flightComplete (f : Flight) : Bool := decide (0 < f.groups) && f.running.isNone && decide (f.last ≤ f.done)

/-- The instructions that have not retired: a complete one retires once every older one of its strand has. -/
def retireFlights : List Nat → List Flight → List Flight
  | _, [] => []
  | held, f :: t => if flightComplete f && !held.contains f.sid then retireFlights held t else f :: retireFlights (f.sid :: held) t

/-- A scalar register of a strand, and the strand with one written. -/
def scalarOf (t : Strand) : ScalarReg → Word
  | .g k => t.g[k]
  | .f k => wd t.f[k].toNat
def putScalar (w : Word) (t : Strand) : ScalarReg → Strand
  | .g k => { t with g := t.g.set k w }
  | .f k => { t with f := t.f.set k (BitVec.ofNat 32 w.toNat) }

/-- What an instruction that was performed leaves until it retires: the flags that it raised and the scalar registers that it reserves, as a turn found and left its strand (R173, R232). -/
def withResults (a t : Strand) (f : Flight) : Flight := { f with flags := t.vflags &&& ~~~a.vflags, results := f.reserves.map fun r => (r, scalarOf t r) }

/-- The strand without the results of an instruction that has not retired. -/
def withoutResults (rs : List ScalarReg) (a t : Strand) : Strand := rs.foldl (fun t r => putScalar (scalarOf a r) t r) { t with vflags := a.vflags }

/-- What an instruction gives its strand as it retires (R173). -/
def given (f : Flight) (t : Strand) : Strand := f.results.foldl (fun t r => putScalar r.2 t r.1) { t with vflags := t.vflags ||| f.flags }

/-- The instructions of a window that are not in it any more: they have retired. -/
def retiredIn (before after : List Flight) : List Flight := before.filter fun f => !after.any fun g => g.sid == f.sid && g.age == f.age

/-- What instructions give a strand as they retire, in order. -/
def giveTo (fs : List Flight) (t : Strand) : Strand := (fs.filter fun f => f.sid == t.sid).foldl (fun t f => given f t) t

/-- The strand at hand with what the instructions of its core's window that have retired give it. -/
def giveMe (mesh : Nat) (before : List Flight) (s : State) : State :=
  if s.me.mesh = mesh then onMe (giveTo (retiredIn before (coreAt mesh s).window)) s else s

/-- Planes that the latest step of a strand released: they return to the pool when its youngest instruction retires (R172). -/
def withheld (sid : Nat) (ps : List Nat) (fs : List Flight) : List Flight :=
  let k := nextAge sid fs
  fs.map fun f => if f.sid = sid ∧ f.age + 1 = k then { f with frees := f.frees ++ ps } else f

/-- The planes that a strand occupied before a step and does not after it. -/
def releasedPlanes (before after : Strand) : List Nat :=
  let now := usedPlanes after
  (distinct (usedPlanes before)).filter fun p => !now.contains p

/-- Whether an instruction was performed: it moved on, or it stopped part-way with more elements done than before. -/
def performed (a t : Strand) : Bool := !(t.pc == a.pc && t.lc == a.lc) || (t.held.isSome && decide (a.six < t.six))

/-- Up to which element an instruction was performed. -/
def performedTo (a t : Strand) : Nat := if t.held.isSome ∧ t.pc = a.pc ∧ t.lc = a.lc then t.six else a.vl

/-- What a turn of the strand at hand leaves in the sequencer: an instruction that was performed is renamed, the planes that it released, its flags and its scalar results wait for its retirement; a
strand that takes a trap has its older instructions retire first (R338), and one that is gone has none under way. -/
def account (i : Option Instr) (before after : State) : State :=
  let a := before.me
  let t := after.me
  if after.core.mesh ≠ before.core.mesh ∨ t.sid ≠ a.sid then after
  else if t.life != .running then onCore (squash a.sid) after
  else if inHandler t && !inHandler a then onCore (squash a.sid) (onMe (giveTo after.core.window) after)
  else
    match i with
    | none => after
    | some i =>
      let fs := after.core.window
      let enters := (useOf i).filter fun _ => performed a t
      let fs1 := fs ++ (enters.map fun u => withResults a t (renamedFlight i u a.sid a.six (performedTo a t) a.mode fs)).toList
      let me := if enters.isSome then withoutResults (reservesOf i) a t else t
      let fs2 := withheld a.sid (releasedPlanes a t) fs1
      fillWindow t.mesh (giveMe t.mesh fs2 (onCore (fun c => { c with window := retireFlights [] fs2 }) { after with me := me }))

/-! ## Readiness and chaining (R175, R176) -/

/-- The chaining ports of a core. -/
def chainPorts : Nat := 4

/-- Whether a group of an instruction has not issued. -/
def toIssue (f : Flight) : Bool := f.groups == 0 || decide (f.issued < f.last)

/-- The ports in use: a chained instruction holds one for each producer until its last group has issued. -/
def portsUsed (fs : List Flight) : Nat := ((fs.filter toIssue).map fun f => f.chained.length).foldl (· + ·) 0

/-- The instructions of the same strand that are older than one and have not retired. -/
def olderOf (f : Flight) (fs : List Flight) : List Flight := fs.filter fun p => p.sid == f.sid && decide (p.age < f.age)

/-- The producer of a register that an instruction reads: the youngest older instruction that writes it and has not retired. -/
def producerOf (f : Flight) (r : PipeReg) (fs : List Flight) : Option Flight := ((olderOf f fs).filter fun p => p.dest == some r).getLast?

/-- Whether a register is chained: scale slots and code tables are not (R267), and an accumulator is read once its writers have retired (R281). -/
def chains : PipeReg → Bool
  | .v _ => true
  | .m _ => true
  | .tm _ => true
  | _ => false

/-- Whether a register belongs to the core's strands together: a scale slot or a code table (R267). -/
def isShared : PipeReg → Bool
  | .slot _ => true
  | .table _ => true
  | _ => false

/-- Whether a source is complete as far as the elements below a bound: its producer has retired, or is chained and has completed them; of a scale slot or a code table every earlier writer has
completed (R175, R176, R267). -/
def sourceReady (f : Flight) (e : Nat) (fs : List Flight) (r : PipeReg) : Bool :=
  if isShared r then (olderOf f fs).all fun p => p.dest != some r || flightComplete p
  else
    match producerOf f r fs with
    | none => true
    | some p => f.chained.contains p.age && (flightComplete p || decide (e ≤ p.done))

/-- The end of the next group of an instruction. -/
def nextEnd (group : Nat) (f : Flight) : Nat := if f.single then f.last else min f.last (f.issued + group)

/-- Whether a writer of a scale slot or a code table may change it: every earlier reader has finished reading it (R267). -/
def readersDone (f : Flight) (fs : List Flight) : Bool :=
  match f.dest with
  | none => true
  | some r => !isShared r || (olderOf f fs).all fun p => !p.srcs.contains r || flightComplete p

/-- Whether the next micro-operation of an instruction is ready for a unit that is free. -/
def opReady (u : ExUnit) (group : Nat) (fs : List Flight) (f : Flight) : Bool :=
  f.unit == some u && decide (0 < f.waiting) && f.srcs.all (sourceReady f (nextEnd group f) fs) && (decide (nextEnd group f < f.last) || readersDone f fs)

/-- A micro-operation that stands ready for a unit: its strand, the elements of its instruction not yet issued, and its instruction's age (R175). -/
structure MicroOp where
  sid : Nat
  remaining : Nat
  age : Nat
deriving DecidableEq, Repr

/-- The ready micro-operations of a unit. -/
def readyOps (u : ExUnit) (c : Core) : List MicroOp :=
  (c.window.filter (opReady u (groupOfCore c) c.window)).map fun f => ⟨f.sid, f.last - f.issued, f.age⟩

/-- The place of a strand among those boosted on a unit, later than any when it is not (R175, key 1). -/
def boostRank (c : Core) (u : ExUnit) (sid : Nat) : Nat :=
  ((c.boosted.filter fun b => b.1 == u).findIdx? fun b => b.2 == sid).getD 4

/-- Whether the sequencer prefers one ready micro-operation to another; the age of its instruction counts against those of its own strand (R175). -/
def preferred (c : Core) (u : ExUnit) (a b : MicroOp) : Bool :=
  let x := boostRank c u a.sid
  let y := boostRank c u b.sid
  decide (x < y) || (x == y &&
    (decide (a.remaining < b.remaining) || (a.remaining == b.remaining &&
      (if a.sid = b.sid then decide (a.age < b.age) else decide (a.sid < b.sid)))))

/-- The micro-operation that a free unit starts. -/
def chosenOp (c : Core) (u : ExUnit) : List MicroOp → Option MicroOp
  | [] => none
  | m :: t =>
    match chosenOp c u t with
    | none => some m
    | some b => if preferred c u b m then some b else some m

/-- The starve count of a strand on a unit. -/
def starveOf (c : Core) (u : ExUnit) (sid : Nat) : Nat :=
  ((c.starve.find? fun x => x.unit == u && x.sid == sid).map fun x => x.count).getD 0

/-- The core after a strand with a ready micro-operation saw the unit start another strand's: its starve count rises, and at 64 it is boosted (R175). -/
def starved (u : ExUnit) (c : Core) (sid : Nat) : Core :=
  let n := starveOf c u sid + 1
  { c with
    starve := ⟨u, sid, n⟩ :: c.starve.filter fun x => !(x.unit == u && x.sid == sid)
    boosted := if 64 ≤ n ∧ !c.boosted.any (fun b => b.1 == u && b.2 == sid) then c.boosted ++ [(u, sid)] else c.boosted }

/-- The strands other than the one chosen that have a ready micro-operation, each once. -/
def passedOver (m : MicroOp) (ready : List MicroOp) : List Nat :=
  (List.range 4).filter fun k => k != m.sid && ready.any fun r => r.sid == k

/-- An instruction whose next group has started. -/
def started (group : Nat) (f : Flight) : Flight :=
  let e := nextEnd group f
  { f with waiting := if e = f.last then 0 else f.waiting - 1, groups := f.groups + 1, issued := e, running := some e }

/-- A change of the instruction with a strand and an age. -/
def modFlight (sid age : Nat) (f : Flight → Flight) (fs : List Flight) : List Flight := fs.map fun x => if x.sid = sid ∧ x.age = age then f x else x

/-- A unit of a core starts a micro-operation: the strands that it passes over count, and its own strand's count is 0 and its boost over. -/
def startOp (u : ExUnit) (m : MicroOp) (ready : List MicroOp) (c : Core) : Core :=
  let c1 := (passedOver m ready).foldl (starved u) c
  { c1 with
    starve := c1.starve.filter fun x => !(x.unit == u && x.sid == m.sid)
    boosted := c1.boosted.filter fun b => !(b.1 == u && b.2 == m.sid)
    window := modFlight m.sid m.age (started (groupOfCore c)) c1.window }

/-- Whether a unit of a core runs a micro-operation. -/
def unitBusy (u : ExUnit) (c : Core) : Bool := c.window.any fun f => f.unit == some u && f.running.isSome

/-- A core whose unit has started the micro-operation that the sequencer chooses, if the unit is free and the choice is one that satisfies `p`. -/
def issuedCore (u : ExUnit) (residents : Nat) (p : MicroOp → Bool) (c : Core) : Option Core :=
  let ready := readyOps u c
  if unitBusy u c then none else (chosenOp c u ready).bind fun m => if p m then some (filled residents (startOp u m ready c)) else none

/-- A core put in the place of the one with its number, if there is one to put. -/
def putCore (mesh : Nat) (x : Option Core) (s : State) : State :=
  match x with
  | none => s
  | some c => modCore mesh (fun _ => c) s

/-- MICRO_OP_ISSUE (R174, R175): a unit that is free starts the micro-operation of a strand, if it is the one that the sequencer chooses among those ready for it. -/
def execMicroOpIssue (mesh : Nat) (u : ExUnit) (sid : Nat) (s : State) : Out :=
  .next (putCore mesh (issuedCore u (residentCount mesh s) (fun m => m.sid == sid) (coreAt mesh s)) s)

/-- Whether an instruction reads the register that a producer writes. -/
def consumes (p : Flight) (fs : List Flight) (f : Flight) : Bool :=
  f.sid == p.sid && decide (p.age < f.age) && !f.chained.contains p.age && toIssue f &&
    f.srcs.any fun r => chains r && (producerOf f r fs).any fun q => q.age == p.age

/-- The chain slot of a producer: the consumers that are renamed are chained to it, in order, as far as ports are free (R176). -/
def chainTo (p : Flight) (all : List Flight) : Nat → List Flight → List Flight
  | _, [] => []
  | 0, fs => fs
  | n + 1, f :: t => if consumes p all f then { f with chained := p.age :: f.chained } :: chainTo p all n t else f :: chainTo p all (n + 1) t

/-- The group that an instruction runs has completed. -/
def groupDone (f : Flight) : Flight := { f with done := f.running.getD f.done, running := none }

/-- The window after the group that an instruction runs has completed: consumers are chained when it was the first, and what is complete retires in order (R173, R176). -/
def completeGroup (p : Flight) (fs : List Flight) : List Flight :=
  let fs1 := modFlight p.sid p.age groupDone fs
  retireFlights [] (if p.groups = 1 then chainTo p fs1 (chainPorts - portsUsed fs1) fs1 else fs1)

/-- A core on which the group that a unit runs, if it runs one, has completed, and its window entry is free; what retires gives its strand its results. -/
def groupEnded (u : ExUnit) (residents : Nat) (c : Core) : Option Core :=
  (c.window.find? fun f => f.unit == some u && f.running.isSome).map fun p =>
    let w := completeGroup p c.window
    filled residents { c with window := w, strands := c.strands.map (giveTo (retiredIn c.window w)) }

/-- ELEMENT_GROUP_COMPLETE (R167, R173, R174, R176): the group that a unit runs completes, and its window entry is free; what is complete retires in program order, and its flags and scalar results
reach its strand. -/
def execElementGroupComplete (mesh : Nat) (u : ExUnit) (s : State) : Out :=
  .next (giveMe mesh (coreAt mesh s).window (putCore mesh (groupEnded u (residentCount mesh s) (coreAt mesh s)) s))

/-- The execution units of a core (R174). -/
def exUnits : List ExUnit := [.plane, .word, .outer, .vmem]

/-- A beat of a core's sequencer: the groups that its units run complete, and each unit starts the micro-operation that the sequencer chooses. -/
def beaten (residents : Nat) (c : Core) : Core :=
  if c.window.isEmpty then c
  else
    let c1 := exUnits.foldl (fun c u => (groupEnded u residents c).getD c) c
    exUnits.foldl (fun c u => (issuedCore u residents (fun _ => true) c).getD c) c1

/-- How many strands of a list are resident. -/
def residentsOf (ts : List Strand) : Nat := (ts.filter fun t => t.life != .absent).length

/-- A beat of every core's sequencer, as it passes with a turn that the agenda does not name (log entry 52). -/
def beat (s : State) : State :=
  giveMe s.core.mesh s.core.window
    { s with core := beaten (residentsOf (s.me :: s.core.strands)) s.core, cores := s.cores.map fun c => beaten (residentsOf c.strands) c }

/-! ## Accesses after their instruction -/

/-- STORE_QUEUE_TRANSLATE (R341). -/
def execStoreQueueTranslate (mesh sid : Nat) (s : State) : Out := .next (atStrand mesh sid translateStore s)

/-- WAIT_FOR_WRITE_WAKE (R223): a strand whose line was written reads again. -/
def execWaitForWriteWake (mesh sid : Nat) (s : State) : Out :=
  .next { s with watches := s.watches.filter fun w => !(w.mesh == mesh && w.sid == sid && w.hit) }

/-- Whether a miss is that of an access of a context, in a mode, of a kind and at an address. -/
def missIs (ctx : Nat) (priv : Bool) (kind : Access) (va : Word) (m : Miss) : Bool := m.ctx == ctx && m.priv == priv && m.acc == kind && m.va == va

/-- TABLE_WALK (R32): a walker of a core serves a miss that is the oldest of its queue; what it finds is installed when it is permitted (R33), and a fault is not the
walker's to raise. -/
def execTableWalk (mesh ctx : Nat) (priv : Bool) (kind : Access) (va : Word) (s : State) : Out :=
  .next (match (coreAt mesh s).misses with
    | [] => s
    | m :: rest => if missIs ctx priv kind va m then serveMiss mesh m (modCore mesh (fun c => { c with misses := rest }) s) else s)

/-- A vector-path write of the strand performed, at its core or by a slice, if no earlier one shares a bit with it (R104). -/
def performVectorAt (idx : Nat) (s : State) : State :=
  match takeAt idx s.me.vwq with
  | none => s
  | some (w, rest) =>
    if (s.me.vwq.take idx).any fun x => overlaps x w then s
    else performWrites s.me.mesh 1 [w] (onMe (fun t => { t with vwq := rest }) s)

/-- A write that left a core performed at its home, if no earlier one of its strand and path shares a bit with it (R104). -/
def performHomeAt (mesh idx : Nat) (s : State) : State :=
  let out := (coreAt mesh s).out
  match takeAt idx out with
  | none => s
  | some (w, rest) =>
    if (out.take idx).any fun x => x.sid == w.sid && x.path == w.path && overlaps x w then s
    else homeWrite w.ctx w.wb w.bytes (modCore mesh (fun c => { c with out := rest }) s)

/-- ACCESS_PERFORM (R101, R102). -/
def execAccessPerform (p : Performed) (s : State) : Out :=
  .next (match p with
    | .atCore mesh sid idx => atStrand mesh sid (performVectorAt idx) s
    | .atHome mesh idx => performHomeAt mesh idx s)

end Sys2Proof.Machine
end

