-- ==== Sys2Proof/Machine/Dispatch.lean ====
section
/-! DEFINITION. The dispatch: one arm per constructor of Instr, each one call of its meaning. -/

namespace Sys2Proof.Machine

def exec (i : Instr) (s : State) : Host.Outcome State Fault Refusal :=
  match i with
  | .add d a b => Sys2Proof.Machine.execAdd d a b s
  | .sub d a b => Sys2Proof.Machine.execSub d a b s
  | .mul d a b => Sys2Proof.Machine.execMul d a b s
  | .mulh d a b => Sys2Proof.Machine.execMulh d a b s
  | .mulhU d a b => Sys2Proof.Machine.execMulhU d a b s
  | .div d a b => Sys2Proof.Machine.execDiv d a b s
  | .divU d a b => Sys2Proof.Machine.execDivU d a b s
  | .rem d a b => Sys2Proof.Machine.execRem d a b s
  | .remU d a b => Sys2Proof.Machine.execRemU d a b s
  | .and d a b => Sys2Proof.Machine.execAnd d a b s
  | .or d a b => Sys2Proof.Machine.execOr d a b s
  | .xor d a b => Sys2Proof.Machine.execXor d a b s
  | .shl d a b => Sys2Proof.Machine.execShl d a b s
  | .shr d a b => Sys2Proof.Machine.execShr d a b s
  | .sar d a b => Sys2Proof.Machine.execSar d a b s
  | .min d a b => Sys2Proof.Machine.execMin d a b s
  | .minU d a b => Sys2Proof.Machine.execMinU d a b s
  | .max d a b => Sys2Proof.Machine.execMax d a b s
  | .maxU d a b => Sys2Proof.Machine.execMaxU d a b s
  | .setEq d a b => Sys2Proof.Machine.execSetEq d a b s
  | .setLt d a b => Sys2Proof.Machine.execSetLt d a b s
  | .setLtu d a b => Sys2Proof.Machine.execSetLtu d a b s
  | .clz d a => Sys2Proof.Machine.execClz d a s
  | .popc d a => Sys2Proof.Machine.execPopc d a s
  | .sel d a b c => Sys2Proof.Machine.execSel d a b c s
  | .lih d k => Sys2Proof.Machine.execLih d k s
  | .addI d a k => Sys2Proof.Machine.execAddI d a k s
  | .andI d a k => Sys2Proof.Machine.execAndI d a k s
  | .orI d a k => Sys2Proof.Machine.execOrI d a k s
  | .xorI d a k => Sys2Proof.Machine.execXorI d a k s
  | .shlI d a k => Sys2Proof.Machine.execShlI d a k s
  | .shrI d a k => Sys2Proof.Machine.execShrI d a k s
  | .sarI d a k => Sys2Proof.Machine.execSarI d a k s
  | .setEqI d a k => Sys2Proof.Machine.execSetEqI d a k s
  | .setLtI d a k => Sys2Proof.Machine.execSetLtI d a k s
  | .setLtuI d a k => Sys2Proof.Machine.execSetLtuI d a k s
  | .fadd d a b => Sys2Proof.Machine.execFadd d a b s
  | .fsub d a b => Sys2Proof.Machine.execFsub d a b s
  | .fmul d a b => Sys2Proof.Machine.execFmul d a b s
  | .fma d a b c => Sys2Proof.Machine.execFma d a b c s
  | .fdiv d a b => Sys2Proof.Machine.execFdiv d a b s
  | .fsqrt d a => Sys2Proof.Machine.execFsqrt d a s
  | .fmin d a b => Sys2Proof.Machine.execFmin d a b s
  | .fmax d a b => Sys2Proof.Machine.execFmax d a b s
  | .fcmp d a b q => Sys2Proof.Machine.execFcmp d a b q s
  | .fcvtS64 d a => Sys2Proof.Machine.execFcvtS64 d a s
  | .fcvtN64 d a => Sys2Proof.Machine.execFcvtN64 d a s
  | .fcvtFS64 d a => Sys2Proof.Machine.execFcvtFS64 d a s
  | .fcvtFN64 d a => Sys2Proof.Machine.execFcvtFN64 d a s
  | .fcvtBits d a => Sys2Proof.Machine.execFcvtBits d a s
  | .fcvtFBits d a => Sys2Proof.Machine.execFcvtFBits d a s
  | .b o => Sys2Proof.Machine.execB o s
  | .beq d a o => Sys2Proof.Machine.execBeq d a o s
  | .bne d a o => Sys2Proof.Machine.execBne d a o s
  | .blt d a o => Sys2Proof.Machine.execBlt d a o s
  | .bge d a o => Sys2Proof.Machine.execBge d a o s
  | .bltu d a o => Sys2Proof.Machine.execBltu d a o s
  | .bgeu d a o => Sys2Proof.Machine.execBgeu d a o s
  | .j o => Sys2Proof.Machine.execJ o s
  | .jal d o => Sys2Proof.Machine.execJal d o s
  | .jr d a k => Sys2Proof.Machine.execJr d a k s
  | .loop k a l => Sys2Proof.Machine.execLoop k a l s
  | .strip d a b o => Sys2Proof.Machine.execStrip d a b o s
  | .trap k => Sys2Proof.Machine.execTrap k s
  | .eret => Sys2Proof.Machine.execEret s
  | .csrr d c => Sys2Proof.Machine.execCsrr d c s
  | .csrw a c => Sys2Proof.Machine.execCsrw a c s
  | .feat d a k => Sys2Proof.Machine.execFeat d a k s
  | .endStrand => Sys2Proof.Machine.execEndStrand s
  | .wfe d a b => Sys2Proof.Machine.execWfe d a b s
  | .yield => Sys2Proof.Machine.execYield s
  | .fenceI => Sys2Proof.Machine.execFenceI s
  | .hint op rest => Sys2Proof.Machine.execHint op rest s
  | .ldB d a k => Sys2Proof.Machine.execLdB d a k s
  | .ldBu d a k => Sys2Proof.Machine.execLdBu d a k s
  | .ldH d a k => Sys2Proof.Machine.execLdH d a k s
  | .ldHu d a k => Sys2Proof.Machine.execLdHu d a k s
  | .ldW d a k => Sys2Proof.Machine.execLdW d a k s
  | .ldWu d a k => Sys2Proof.Machine.execLdWu d a k s
  | .ldD d a k => Sys2Proof.Machine.execLdD d a k s
  | .ldF d a k => Sys2Proof.Machine.execLdF d a k s
  | .stB d a k => Sys2Proof.Machine.execStB d a k s
  | .stH d a k => Sys2Proof.Machine.execStH d a k s
  | .stW d a k => Sys2Proof.Machine.execStW d a k s
  | .stD d a k => Sys2Proof.Machine.execStD d a k s
  | .stF d a k => Sys2Proof.Machine.execStF d a k s
  | .amoAdd d a b w x => Sys2Proof.Machine.execAmoAdd d a b w x s
  | .amoMin d a b u w x => Sys2Proof.Machine.execAmoMin d a b u w x s
  | .amoMax d a b u w x => Sys2Proof.Machine.execAmoMax d a b u w x s
  | .amoAnd d a b w x => Sys2Proof.Machine.execAmoAnd d a b w x s
  | .amoOr d a b w x => Sys2Proof.Machine.execAmoOr d a b w x s
  | .amoXor d a b w x => Sys2Proof.Machine.execAmoXor d a b w x s
  | .amoSwp d a b w x => Sys2Proof.Machine.execAmoSwp d a b w x s
  | .amoCas d a b w x => Sys2Proof.Machine.execAmoCas d a b w x s
  | .acq a => Sys2Proof.Machine.execAcq a s
  | .acqObs d a => Sys2Proof.Machine.execAcqObs d a s
  | .tryacq d a => Sys2Proof.Machine.execTryacq d a s
  | .rel a => Sys2Proof.Machine.execRel a s
  | .bind d a b x => Sys2Proof.Machine.execBind d a b x s
  | .unbind d a => Sys2Proof.Machine.execUnbind d a s
  | .fence t x => Sys2Proof.Machine.execFence t x s
  | .pfenceCore => Sys2Proof.Machine.execPfenceCore s
  | .pfenceDie => Sys2Proof.Machine.execPfenceDie s
  | .drainst => Sys2Proof.Machine.execDrainst s
  | .bar => Sys2Proof.Machine.execBar s
  | .pubhw a b => Sys2Proof.Machine.execPubhw a b s
  | .pubhwFin a b => Sys2Proof.Machine.execPubhwFin a b s
  | .launch d a b => Sys2Proof.Machine.execLaunch d a b s
  | .vcfg d k => Sys2Proof.Machine.execVcfg d k s
  | .setvl d a b => Sys2Proof.Machine.execSetvl d a b s
  | .setmode a k => Sys2Proof.Machine.execSetmode a k s
  | .mmode k => Sys2Proof.Machine.execMmode k s
  | .vadd d a b x x1 => Sys2Proof.Machine.execVadd d a b x x1 s
  | .vsub d a b x x1 => Sys2Proof.Machine.execVsub d a b x x1 s
  | .vmul d a b x x1 => Sys2Proof.Machine.execVmul d a b x x1 s
  | .vmac d a b x x1 => Sys2Proof.Machine.execVmac d a b x x1 s
  | .vneg d a x => Sys2Proof.Machine.execVneg d a x s
  | .vabs d a x => Sys2Proof.Machine.execVabs d a x s
  | .vmin d a b x x1 => Sys2Proof.Machine.execVmin d a b x x1 s
  | .vmax d a b x x1 => Sys2Proof.Machine.execVmax d a b x x1 s
  | .vand d a b x => Sys2Proof.Machine.execVand d a b x s
  | .vor d a b x => Sys2Proof.Machine.execVor d a b x s
  | .vxor d a b x => Sys2Proof.Machine.execVxor d a b x s
  | .vnot d a => Sys2Proof.Machine.execVnot d a s
  | .vshl d a x k => Sys2Proof.Machine.execVshl d a x k s
  | .vshr d a k => Sys2Proof.Machine.execVshr d a k s
  | .vcmp d a b x c => Sys2Proof.Machine.execVcmp d a b x c s
  | .vsel d a b c => Sys2Proof.Machine.execVsel d a b c s
  | .vpopc d a => Sys2Proof.Machine.execVpopc d a s
  | .vdot d a b => Sys2Proof.Machine.execVdot d a b s
  | .vred d a o => Sys2Proof.Machine.execVred d a o s
  | .vscan d a x x1 => Sys2Proof.Machine.execVscan d a x x1 s
  | .vcompress d a c => Sys2Proof.Machine.execVcompress d a c s
  | .vexpand d a c => Sys2Proof.Machine.execVexpand d a c s
  | .vslideDn d a b => Sys2Proof.Machine.execVslideDn d a b s
  | .vslideUp d a b => Sys2Proof.Machine.execVslideUp d a b s
  | .viota d c => Sys2Proof.Machine.execViota d c s
  | .viotaIdx d => Sys2Proof.Machine.execViotaIdx d s
  | .vmv d a => Sys2Proof.Machine.execVmv d a s
  | .vmvScalar d b x => Sys2Proof.Machine.execVmvScalar d b x s
  | .vwiden d a => Sys2Proof.Machine.execVwiden d a s
  | .vnarrow d a k => Sys2Proof.Machine.execVnarrow d a k s
  | .mand d a b => Sys2Proof.Machine.execMand d a b s
  | .mor d a b => Sys2Proof.Machine.execMor d a b s
  | .mxor d a b => Sys2Proof.Machine.execMxor d a b s
  | .mnot d a => Sys2Proof.Machine.execMnot d a s
  | .mpopc d a => Sys2Proof.Machine.execMpopc d a s
  | .mfirst d a => Sys2Proof.Machine.execMfirst d a s
  | .tagmask d t => Sys2Proof.Machine.execTagmask d t s
  | .vfadd d a b x n => Sys2Proof.Machine.execVfadd d a b x n s
  | .vfmul d a b x => Sys2Proof.Machine.execVfmul d a b x s
  | .vfma d a b x n => Sys2Proof.Machine.execVfma d a b x n s
  | .vfexp2 d a => Sys2Proof.Machine.execVfexp2 d a s
  | .vfrcp d a => Sys2Proof.Machine.execVfrcp d a s
  | .vfrsq d a => Sys2Proof.Machine.execVfrsq d a s
  | .vfmax d a b x m => Sys2Proof.Machine.execVfmax d a b x m s
  | .vfcvt d a => Sys2Proof.Machine.execVfcvt d a s
  | .vsmax d a b t c => Sys2Proof.Machine.execVsmax d a b t c s
  | .qstat d a x => Sys2Proof.Machine.execQstat d a x s
  | .qscaleH d b x => Sys2Proof.Machine.execQscaleH d b x s
  | .qscaleR d a b x => Sys2Proof.Machine.execQscaleR d a b x s
  | .qscaleZ x => Sys2Proof.Machine.execQscaleZ x s
  | .quant d a p q x => Sys2Proof.Machine.execQuant d a p q x s
  | .ctab a t => Sys2Proof.Machine.execCtab a t s
  | .clook d a t => Sys2Proof.Machine.execClook d a t s
  | .opa d a b x => Sys2Proof.Machine.execOpa d a b x s
  | .opaAca d a b h l => Sys2Proof.Machine.execOpaAca d a b h l s
  | .opaS d a b g n k => Sys2Proof.Machine.execOpaS d a b g n k s
  | .opaT d a b c x => Sys2Proof.Machine.execOpaT d a b c x s
  | .accz d => Sys2Proof.Machine.execAccz d s
  | .accrd d a c r => Sys2Proof.Machine.execAccrd d a c r s
  | .drain d a b => Sys2Proof.Machine.execDrain d a b s
  | .scout d a b e p => Sys2Proof.Machine.execScout d a b e p s
  | .thresh d a b g c => Sys2Proof.Machine.execThresh d a b g c s
  | .tmand d a b n => Sys2Proof.Machine.execTmand d a b n s
  | .tmpopc d a => Sys2Proof.Machine.execTmpopc d a s
  | .vld d a b c l => Sys2Proof.Machine.execVld d a b c l s
  | .vldCompressed d a b c => Sys2Proof.Machine.execVldCompressed d a b c s
  | .vldPop d a => Sys2Proof.Machine.execVldPop d a s
  | .vst d a b c l => Sys2Proof.Machine.execVst d a b c l s
  | .vgather d a b c => Sys2Proof.Machine.execVgather d a b c s
  | .vscatterOrd d a b c => Sys2Proof.Machine.execVscatterOrd d a b c s
  | .vscatterUno d a b c => Sys2Proof.Machine.execVscatterUno d a b c s
  | .cpy a b r t => Sys2Proof.Machine.execCpy a b r t s
  | .cpyx a b r t => Sys2Proof.Machine.execCpyx a b r t s
  | .waitany d a => Sys2Proof.Machine.execWaitany d a s
  | .waitall a => Sys2Proof.Machine.execWaitall a s
  | .ffrdy d a => Sys2Proof.Machine.execFfrdy d a s
  | .tagcnt d t => Sys2Proof.Machine.execTagcnt d t s
  | .commit t => Sys2Proof.Machine.execCommit t s
  | .sqopen d a b f => Sys2Proof.Machine.execSqopen d a b f s
  | .sqadv d a => Sys2Proof.Machine.execSqadv d a s
  | .sqend d => Sys2Proof.Machine.execSqend d s
  | .sqclose d => Sys2Proof.Machine.execSqclose d s
  | .microOpIssue mesh unit sid => Sys2Proof.Machine.execMicroOpIssue mesh unit sid s
  | .elementGroupComplete mesh unit => Sys2Proof.Machine.execElementGroupComplete mesh unit s
  | .trapEntry t => Sys2Proof.Machine.execTrapEntry t s
  | .storeQueueTranslate mesh sid => Sys2Proof.Machine.execStoreQueueTranslate mesh sid s
  | .waitForWriteWake mesh sid => Sys2Proof.Machine.execWaitForWriteWake mesh sid s
  | .tableWalk mesh ctx priv kind va => Sys2Proof.Machine.execTableWalk mesh ctx priv kind va s
  | .accessPerform p => Sys2Proof.Machine.execAccessPerform p s
  | .dramAccess bk => Sys2Proof.Machine.execDramAccess bk s
  | .backoffEnd bk => Sys2Proof.Machine.execBackoffEnd bk s
  | .refresh bk => Sys2Proof.Machine.execRefresh bk s
  | .refreshEnd bk => Sys2Proof.Machine.execRefreshEnd bk s
  | .rowIdleClose bk => Sys2Proof.Machine.execRowIdleClose bk s
  | .hbmTempSample die ctrl celsius => Sys2Proof.Machine.execHbmTempSample die ctrl celsius s
  | .refreshModeChange die ctrl => Sys2Proof.Machine.execRefreshModeChange die ctrl s
  | .thermSample die island milliCelsius => Sys2Proof.Machine.execThermSample die island milliCelsius s
  | .persistEntryStart die => Sys2Proof.Machine.execPersistEntryStart die s
  | .persistEntryDurable die => Sys2Proof.Machine.execPersistEntryDurable die s
  | .shadowInterval mesh => Sys2Proof.Machine.execShadowInterval mesh s
  | .shadowWrite mesh => Sys2Proof.Machine.execShadowWrite mesh s
  | .shadowSeal mesh => Sys2Proof.Machine.execShadowSeal mesh s
  | .pdreq mesh => Sys2Proof.Machine.execPdreq mesh s
  | .pupreq mesh => Sys2Proof.Machine.execPupreq mesh s
  | .plannedPowerDown mesh => Sys2Proof.Machine.execPlannedPowerDown mesh s
  | .powerUp mesh => Sys2Proof.Machine.execPowerUp mesh s
  | .coreLoss mesh => Sys2Proof.Machine.execCoreLoss mesh s
  | .coreSupplyRestored mesh => Sys2Proof.Machine.execCoreSupplyRestored mesh s
  | .resumeTimeout mesh => Sys2Proof.Machine.execResumeTimeout mesh s
  | .packageLoss => Sys2Proof.Machine.execPackageLoss s
  | .idlePowerDown mesh => Sys2Proof.Machine.execIdlePowerDown mesh s
  | .registerWrite die off size value => Sys2Proof.Machine.execRegisterWrite die off size value s
  | .tiqhi value => Sys2Proof.Machine.execTiqhi value s
  | .invalidationComplete => Sys2Proof.Machine.execInvalidationComplete s
  | .doorbell die q value => Sys2Proof.Machine.execDoorbell die q value s
  | .queueEnable die q => Sys2Proof.Machine.execQueueEnable die q s
  | .queueDisable die q => Sys2Proof.Machine.execQueueDisable die q s
  | .slotAccept die q => Sys2Proof.Machine.execSlotAccept die q s
  | .dependenceRead cand => Sys2Proof.Machine.execDependenceRead cand s
  | .placement => Sys2Proof.Machine.execPlacement s
  | .preemption launch => Sys2Proof.Machine.execPreemption launch s
  | .stateSaveComplete launch => Sys2Proof.Machine.execStateSaveComplete launch s
  | .wgterm value => Sys2Proof.Machine.execWgterm value s
  | .sfpop => Sys2Proof.Machine.execSfpop s
  | .grantPeriod die draws => Sys2Proof.Machine.execGrantPeriod die draws s
  | .marginTrip mesh group highest => Sys2Proof.Machine.execMarginTrip mesh group highest s
  | .poisonDetect at0 => Sys2Proof.Machine.execPoisonDetect at0 s
  | .copyAccept mesh => Sys2Proof.Machine.execCopyAccept mesh s
  | .copyChunk mesh t chunk => Sys2Proof.Machine.execCopyChunk mesh t chunk s
  | .calicoTimeLimit mesh t => Sys2Proof.Machine.execCalicoTimeLimit mesh t s
  | .streamRefill mesh sid sq block => Sys2Proof.Machine.execStreamRefill mesh sid sq block s
  | .flitTimeout die port => Sys2Proof.Machine.execFlitTimeout die port s
  | .remoteAccessArrival port first r => Sys2Proof.Machine.execRemoteAccessArrival port first r s
  | .hostMemRead off len => Sys2Proof.Machine.execHostMemRead off len s
  | .hostMemWrite off bytes => Sys2Proof.Machine.execHostMemWrite off bytes s
  | .counterFlush die => Sys2Proof.Machine.execCounterFlush die s
  | .dieReset die => Sys2Proof.Machine.execDieReset die s
  | .stageComplete die r => Sys2Proof.Machine.execStageComplete die r s
  | .stageTimeout die => Sys2Proof.Machine.execStageTimeout die s
  | .bootlock die => Sys2Proof.Machine.execBootlock die s
  | .setcap watts => Sys2Proof.Machine.execSetcap watts s
  | .setfloor part watts => Sys2Proof.Machine.execSetfloor part watts s
  | .allot part mask => Sys2Proof.Machine.execAllot part mask s
  | .power mesh dir => Sys2Proof.Machine.execPower mesh dir s
  | .resume pa => Sys2Proof.Machine.execResume pa s
  | .fwload addr len => Sys2Proof.Machine.execFwload addr len s
  | .calico cluster slot addr len => Sys2Proof.Machine.execCalico cluster slot addr len s
  | .flush => Sys2Proof.Machine.execFlush s
  | .restart => Sys2Proof.Machine.execRestart s
  | .mailboxComplete => Sys2Proof.Machine.execMailboxComplete s
  | .getVersion req => Sys2Proof.Machine.execGetVersion req s
  | .getCapabilities req => Sys2Proof.Machine.execGetCapabilities req s
  | .negotiateAlgorithms req => Sys2Proof.Machine.execNegotiateAlgorithms req s
  | .getDigests req => Sys2Proof.Machine.execGetDigests req s
  | .getCertificate req => Sys2Proof.Machine.execGetCertificate req s
  | .challenge req => Sys2Proof.Machine.execChallenge req s
  | .getMeasurements req => Sys2Proof.Machine.execGetMeasurements req s
  | .chainPortLinkChange die port up nbr => Sys2Proof.Machine.execChainPortLinkChange die port up nbr s
  | .remoteReply id r => Sys2Proof.Machine.execRemoteReply id r s
  | .cxlCacheSnoop pa takeBack => Sys2Proof.Machine.execCxlCacheSnoop pa takeBack s

end Sys2Proof.Machine
end

