-- ==== Sys2Proof/Machine/Turns.lean ====
section
/-! DEFINITION. Whose turn it is (log entries 3 and 4): the agenda names turns with the cycles that pass before each; when it is empty the strand at hand goes
on, or the next one that can, or else a bank of DRAM. An instruction of a strand is fetched, decoded and executed; an event of the part happens. -/

namespace Sys2Proof.Machine

/-- Cycles pass, in each die its own (R4, R367). -/
def passCycles (n : Vector Nat 4) (s : State) : State :=
  { s with dies := s.dies.mapFinIdx fun k d h => { d with cycle := d.cycle + n[k] } }

/-! ## A turn of a strand -/

/-- The end of a turn of the strand at hand: what it leaves in the sequencer and at the banks. -/
def endTurn (i : Option Instr) (before after : State) : State :=
  noteWaits (.strand before.me.mesh before.me.sid) before (account i before after)

/-- The strand whose turn it is executes the instruction at its pc, or takes the trap that is due there. One that waits for an older vector instruction of the strand to retire is fetched again
(R173, R232, R334). -/
def runStrand (s : State) : Out :=
  match fetchInstr s with
  | .stop s1 => .next (endTurn none s s1)
  | .ok i s1 =>
    if waitsRetirement i s1 then .next s
    else
    match exec i s1 with
    | .next t => .next (endTurn (some i) s t)
    | .fault f => .fault f
    | .refused r => .refused r

/-- Whether a trap was taken at the boundary before the instruction at pc, with no more elements completed than before it (R352). -/
def trapped (before after : State) : Bool := inHandler after.me && !inHandler before.me && after.me.tsix == wd before.me.six

/-- Whether a work group has ended by a trap of one of its handlers: the termination log has one more entry, with REASON 2 (R339, R346, R347). -/
def doubleFaulted (before after : State) : Bool :=
  (List.range 8).any fun k =>
    let p := fin 8 (by decide) k
    (after.parts[p]).tcount != (before.parts[p]).tcount && (after.parts[p]).treason == 2

/-- The strand whose turn it is stops for a pre-emption: a trap that the instruction at pc would take is taken first, and the strand stops at the handler's first instruction, or is gone where a
trap of a handler ends its work group (R339); otherwise nothing of the instruction happens (R349, R352). -/
def stopTurn (s : State) : Out :=
  match runStrand s with
  | .next t => .next (if doubleFaulted s t then t else stopForSave (if trapped s t then t else s))
  | .fault f => .fault f
  | .refused r => .refused r

/-- The strand whose turn it is executes an instruction if it may, or stops, once its vector instructions have retired. -/
def runIfReady (s : State) : Out :=
  if !mayRun s then .next s
  else if atStop s then (if unretired s then .next s else stopTurn s)
  else runStrand s

/-- The outcome of a turn after which no quota stands. -/
def withoutQuota : Out → Out
  | .next s => .next (clearQuota s)
  | o => o

/-- The strand whose turn it is performs some element groups of the vector instruction at its pc, which stops there (R167, R173). -/
def runGroups (n : Nat) (s : State) : Out := withoutQuota (runIfReady { s with quota := some n })

/-- The turn of a strand, if there is such a one. -/
def strandTurn (mesh sid : Nat) (run : State → Out) (s : State) : Out := if (strandAt mesh sid s).isSome then run (focus mesh sid s) else .next s

/-- A turn of the agenda. A row that is an instruction word comes only from a strand's fetch. -/
def takeTurn (t : Turn) (s : State) : Out :=
  match t with
  | .strand mesh sid => strandTurn mesh sid runIfReady s
  | .groups mesh sid n => strandTurn mesh sid (runGroups n) s
  | .event i => if (encode i).isNone then exec i s else .next s
  | .hostRead off size => .next (hostRegisterRead off size s)
  | .cdat req => .next (readCdat req s)
  | .hostStore pa bytes => .next (hostOwnStore pa bytes s)

/-! ## When the agenda is empty -/

/-- Whether a strand that is not at hand may run. -/
def otherRuns (s : State) (t : Strand) : Bool := t.life == .running && mayRun (focus t.mesh t.sid s)

/-- The strands in the order of their turns, from the one after the strand at hand. -/
def inTurn (s : State) : List Strand :=
  let after (t : Strand) : Bool := decide (s.me.mesh < t.mesh) || (s.me.mesh == t.mesh && decide (s.me.sid < t.sid))
  (allStrands s).filter after ++ (allStrands s).filter fun t => !after t

/-- The banks that have a request and can serve it. -/
def readyBanks (s : State) : List BankId := s.dies.toList.flatMap fun d => (d.banks.filter fun b => !b.queue.isEmpty && bankReady b.id s).map fun b => b.id

/-- The turn when no strand can run: a bank that can serve a request does (R86, R395). -/
def bankTurn (s : State) : State :=
  match readyBanks s with
  | [] => s
  | k :: _ => dramServe k s

/-- Who has the turn when the agenda is empty: the strand at hand, the next strand that may run, or a bank. -/
def someTurn (s : State) : Out :=
  if mayRun s then runIfReady s
  else
    match (inTurn s).find? (otherRuns s) with
    | none => .next (bankTurn s)
    | some t => runIfReady (focus t.mesh t.sid s)

/-- The turn when the agenda is empty, as a beat of the sequencers passes. -/
def freeTurn (s : State) : Out := someTurn (beat s)

/-! ## Placing an instruction for the next step -/

/-- A grant over all of memory. -/
def wholeGrant : Grant := ⟨3, wd (bitsMask 51 14)⟩

/-- A leaf of page 0 that allows every access: V, LEAF, RD, WR, EX, AC and DY, memory type WB. -/
def openLeaf : Word := 0x61F

/-- The TLB entry that maps the first page of a context to the first page of memory. -/
def openPage (ctx part : Nat) : TlbEntry := ⟨ctx, part, 3, 0, openLeaf, 0, [wholeGrant], 1⟩

/-- The strand at hand as one that executes the instruction at address 0 next. -/
def readyStrand (t : Strand) : Strand :=
  { t with life := .running, launch := 0, pc := 0, sfq := [], stq := [], loopBuf := [], call := none, doubleFault := false, stopping := false }

/-- The core at hand as one whose strands run and fetch through the open page. -/
def readyCore (ctx part : Nat) (c : Core) : Core :=
  { c with
    pwr := 0, shTargets := none, shWriting := none, shWaiters := [], copies := [], icopies := [], out := [], misses := [], fused := false, window := []
    tlb := openPage ctx part :: c.tlb.filter fun e => !tlbMatch ctx part 0 e }

/-- A die whose banks hold no request. -/
def quietDie (d : Die) : Die := { d with banks := d.banks.map fun b => { b with queue := [] } }

/-- The state in which the strand at hand executes next the instruction whose word is placed at address 0. -/
def readyState (w : Nat) (s : State) : State :=
  { s with
    me := readyStrand s.me
    core := readyCore s.me.ctx s.me.part s.core
    mem := s.mem.setN 0 (bytesOf 4 w)
    routes := State.reset.routes
    dies := s.dies.map quietDie
    quota := none
    launches := s.launches.filter fun l => l.id != 0
    agenda := []
    watches := [] }

end Sys2Proof.Machine
end

