-- ==== Sys2Proof/Machine/Step.lean ====
section
/-! DEFINITION. One step of the package: the next turn of the agenda, or the strand at hand. -/

namespace Sys2Proof.Machine

/-- One step (log entries 3 and 4). -/
def step (s : State) : Host.Outcome State Fault Refusal :=
  match s.agenda with
  | [] => freeTurn (passCycles s.pace s)
  | (n, t) :: rest => takeTurn t (passCycles n { s with agenda := rest })

/-- The state in which the next step fetches and runs the instruction whose bits are `w` (log entry 13). -/
def State.withFetchWord (s : State) (nbits w : Nat) : State := readyState (w % 2 ^ nbits % 2 ^ 32) s

end Sys2Proof.Machine
end

