-- ==== Sys2Proof/Safety.lean ====
section
/-! DEFINITION. What counts as a safe run, and the words that statements use: states in which nothing is on its way, and what it means that an instruction writes
the elements of a vector register or the bits of a mask register. -/

namespace Sys2Proof.Machine

/-- A core stands with its own strands: each bears the core's number. -/
def Core.housed (c : Core) : Prop := ∀ t ∈ c.strands, t.mesh = c.mesh

/-- The form that every state of a run has: memory and what is durable of it stand in canonical form, the strand at hand is one of the core at hand, and every strand
stands in the core whose number it bears. -/
structure State.wellKept (s : State) : Prop where
  mem : s.mem.wf = true
  durable : s.durable.wf = true
  atHand : s.me.mesh = s.core.mesh
  here : s.core.housed
  elsewhere : ∀ c ∈ s.cores, c.housed

/-- A step that goes on: neither a fault nor a refusal. -/
def goesOn (o : Out) : Prop := ∃ t, o = .next t

end Sys2Proof.Machine

namespace Sys2Proof.Claims

open Sys2Proof.Machine

/-- Nothing that the strand at hand or its core has written is on its way, and no store-fault record waits, in a state of the form that every run keeps. -/
structure Settled (s : State) : Prop where
  kept : s.wellKept
  stq : s.me.stq = []
  vwq : s.me.vwq = []
  sfq : s.me.sfq = []
  out : s.core.out = []
  remote : s.remote = []

/-- Every byte of memory reads as before. -/
def SameMemory (s t : State) : Prop := ∀ a, t.mem.get a = s.mem.get a

/-- Every byte of memory outside `n` bytes from `pa` up reads as before. -/
def SameOutside (pa n : Nat) (s t : State) : Prop := ∀ a, (a < pa ∨ pa + n ≤ a) → t.mem.get a = s.mem.get a

/-- A whole instruction begins: no handler runs, SIX is 0, no mapping is held, no quota bounds it, and VL is within VLMAX. -/
def Fresh (s : State) : Prop :=
  inHandler s.me = false ∧ s.me.six = 0 ∧ s.me.held = none ∧ s.quota = none ∧ s.me.vl ≤ vlmax

/-- A vector instruction begins at SIX, or goes on there with a mapping held: no handler runs, SIX is the first element of a segment, no quota bounds it, and VL is within
VLMAX (R47, R340). -/
def Begun (s : State) : Prop :=
  inHandler s.me = false ∧ s.me.six % 64 = 0 ∧ s.quota = none ∧ s.me.vl ≤ vlmax

/-- The flags of some elements together. -/
def orAll (fs : List Nat) : Nat := fs.foldr (· ||| ·) 0

/-- The elements that an instruction has still to do, of those that `act` names. -/
def toDo (act : Nat → Bool) (s : State) : List Nat := (List.range s.me.vl).filter fun k => decide (s.me.six ≤ k) && act k

/-- Some registers as sources: a stopped instruction reads the mapping of its destination that is held. -/
def named (s : State) (rs : List (Fin 32)) : List (Fin 32 × VReg) := rs.map fun r => (r, vSrc r s)

/-! ## Poison -/

/-- Some elements of some sources lie in no poisoned word. -/
def NoPoison (srcs : List (Fin 32 × VReg)) (es : List Nat) : Prop := ∀ e ∈ es, ∀ r ∈ srcs, ∀ m ∈ r.2.poison, m.seg ≠ e / 64

/-- Of some elements, in order, `e` is the first that is poisoned in a source, `r` the first source that poisons it, and `m` the mark. -/
def FirstPoison (srcs : List (Fin 32 × VReg)) (es : List Nat) (e : Nat) (r : Fin 32) (m : PoisonMark) : Prop :=
  ∃ before after, es = before ++ e :: after ∧ NoPoison srcs before ∧
    ∃ earlier later x, srcs = earlier ++ (r, x) :: later ∧ NoPoison earlier [e] ∧ x.poison.find? (fun p => p.seg == e / 64) = some m

/-- A cell of a tile lies in a poisoned word, which `producer` wrote. -/
def CellPoisoned (d row col : Nat) (producer : Word) (s : State) : Prop :=
  ∃ m, s.core.cellPoison.find? (fun m => m.tile == d && m.row == row && m.word == col / 64) = some m ∧ m.producer = producer

/-- A cell of a tile lies in no poisoned word. -/
def CellClean (d row col : Nat) (s : State) : Prop := ∀ m ∈ s.core.cellPoison, ¬(m.tile = d ∧ m.row = row ∧ m.word = col / 64)

/-- Of some cells of a tile, in order, the one at a row and a column is the first that is poisoned. -/
def FirstCell (d : Nat) (cells : List (Nat × Nat)) (row col : Nat) (producer : Word) (s : State) : Prop :=
  ∃ before after, cells = before ++ (row, col) :: after ∧ (∀ c ∈ before, CellClean d c.1 c.2 s) ∧ CellPoisoned d row col producer s

/-- The POISON trap: cause 7, with the class and the number of the register in TREC0, the element or the cell in TREC1 and the producer in TREC2; VFLAGS.POISON is set, whatever MODE masks;
TSIX names the group that would have consumed it; no general, float or mask register and no memory changes (R335, R345). -/
structure PoisonTrap (cls num e : Nat) (producer : Word) (six : Nat) (s t : State) : Prop where
  cause : fld t.me.tcause 0 8 = 7
  record : t.me.trec = #v[BitVec.ofNat 64 (Config.poisonRegister cls num), BitVec.ofNat 64 e, producer, 0]
  flag : t.me.vflags = s.me.vflags ||| 0x800
  entry : t.me.tepc = s.me.pc ∧ t.me.pc = s.me.tvec ∧ t.me.priv = true
  place : t.me.tsix = BitVec.ofNat 64 six ∧ t.me.six = 0
  scalars : t.me.g = s.me.g ∧ t.me.f = s.me.f ∧ t.me.tm = s.me.tm ∧ t.me.vl = s.me.vl ∧ t.me.mode = s.me.mode
  memory : t.mem = s.mem

/-- Nothing of an instruction has been done: no register of the strand has been written, and nothing of its core. -/
def Unwritten (s t : State) : Prop := t = { s with me := t.me } ∧ t.me.v = s.me.v ∧ t.me.m = s.me.m ∧ t.me.maps = s.me.maps ∧ t.me.held = s.me.held ∧ t.me.hwm = s.me.hwm

/-! ## What an instruction does to a vector register -/

/-- What an instruction does to a vector register: the destination and the tag it gets, the sources, whether its operands are legal, the elements it gives values, the code
and the flags of each, and the scale byte of each block. -/
structure Lanes where
  dest : Fin 32
  tag : BitVec 16
  srcs : List (Fin 32 × VReg)
  ok : Bool
  act : Nat → Bool
  code : Nat → Nat × Nat
  scale : Nat → Nat

/-- The register that Lanes leave: the elements below SIX stay; of the others those that they give values hold them, the rest below VL are as they were, from a held mapping where there is one, and those
from VL on are 0; blocks below SIX keep their scale bytes, later ones below VL have theirs, and the rest 0x7F; without poison before there is none after (R45, R173, R340). -/
def Lanes.Leaves (l : Lanes) (s : State) (r : VReg) : Prop :=
  let cur := s.me.v[l.dest]
  let kept := vSrc l.dest s
  r.tag = l.tag ∧ r.writers = (cur.writers.filter fun p => decide (p.1 < s.me.six / 64)) ++ [(s.me.six / 64, s.me.pc)] ∧ r.planes.length = tagWidth l.tag ∧
  (cur.poison = [] → kept.poison = [] → r.poison = []) ∧
  (∀ k, k < s.me.six → elem r k = elem cur k % 2 ^ tagWidth l.tag) ∧
  (∀ k, s.me.six ≤ k → k < s.me.vl → l.act k = true → elem r k = (l.code k).1 % 2 ^ tagWidth l.tag) ∧
  (∀ k, s.me.six ≤ k → k < s.me.vl → l.act k = false → elem r k = elem kept k % 2 ^ tagWidth l.tag) ∧
  (∀ k, s.me.six ≤ k → s.me.vl ≤ k → elem r k = 0) ∧
  (blockLen l.tag = 0 → r.scale = 0) ∧
  (∀ k, k < vlmax / blockLen l.tag → scaleByte r.scale k =
    if (k + 1) * blockLen l.tag ≤ s.me.six then scaleByte cur.scale k else if k * blockLen l.tag < s.me.vl then l.scale k % 256 else 0x7F)

/-- The flags that Lanes raise. -/
def Lanes.flags (l : Lanes) (s : State) : Nat := orAll ((toDo l.act s).map fun k => (l.code k).2)

/-- The next state of an instruction that does what Lanes say and goes on: the register is written at planes of the pool that it takes, or took before it stopped, the flags are recorded with those of
the part done before, and nothing changes beside the register with its mapping and its units' dirty bits, HWM, VFLAGS, SIX, the held mapping, the loops and pc. -/
def Lanes.Done (l : Lanes) (s t : State) : Prop :=
  ∃ r : VReg, t = retire (onMe (putV l.dest r) (raise (l.flags s) (mapTo l.dest l.tag s))) ∧ l.Leaves s r

/-- An instruction does what Lanes say, as far as it consumes no poison among some elements: with legal operands, room in the budget and in the pool it completes; with illegal operands or no room in
the budget it is an illegal operation, and without room in the pool it waits (R172). -/
def Lanes.RunsOn (l : Lanes) (es : List Nat) (i : Instr) (s : State) : Prop :=
  (l.ok = true → budgetOk s.me l.dest l.tag = true → roomFor l.dest l.tag s = true → NoPoison l.srcs es → ∃ t, exec i s = .next t ∧ l.Done s t) ∧
  (l.ok = true → budgetOk s.me l.dest l.tag = true → roomFor l.dest l.tag s = false → exec i s = .next s) ∧
  (l.ok = false ∨ budgetOk s.me l.dest l.tag = false → exec i s = .next (illop i 0 s))

/-- The first element of the element group of an element, of those that begin at SIX (R167). -/
def groupStart (s : State) (e : Nat) : Nat := s.me.six + (e - s.me.six) / max s.core.alc 64 * max s.core.alc 64

/-- An element-wise instruction consumes poison at an element: its POISON trap, with no element of the consuming group written; the groups before it keep their results, with the flags of
their elements held, and TSIX names the group (R338, R345). -/
def Lanes.Stops (l : Lanes) (e : Nat) (r : Fin 32) (m : PoisonMark) (s t : State) : Prop :=
  let n := groupStart s e
  let cur := s.me.v[l.dest]
  let kept := vSrc l.dest s
  let w := tagWidth l.tag
  PoisonTrap 0 r.1 e m.producer n s t ∧ t.me.m = s.me.m ∧
  (n = 0 → Unwritten s t) ∧
  (n ≠ 0 → t = { s with me := t.me, core := { s.core with dirty := t.core.dirty } } ∧ (∀ q : Fin 32, q ≠ l.dest → t.me.v[q] = s.me.v[q]) ∧ t.me.v[l.dest].tag = l.tag ∧
    (∀ k, k < s.me.six → elem t.me.v[l.dest] k = elem cur k % 2 ^ w) ∧
    (∀ k, s.me.six ≤ k → k < n → elem t.me.v[l.dest] k = (if l.act k then (l.code k).1 else elem kept k) % 2 ^ w) ∧
    (∀ k, n ≤ k → k < vlmax → elem t.me.v[l.dest] k = elem kept k % 2 ^ w) ∧
    let fl := orAll (((toDo l.act s).filter fun k => decide (k < n)).map fun k => (l.code k).2)
    t.me.held = some (match s.me.held with
      | some h => { h with flags := h.flags ||| fl }
      | none => ⟨.vec l.dest s.me.v[l.dest] s.me.maps[l.dest], s.me.pc, fl⟩))

/-- An element-wise instruction does what Lanes say of the elements from SIX on, or consumes poison at the first active one that is poisoned in a source. -/
def Lanes.Runs (l : Lanes) (i : Instr) (s : State) : Prop :=
  l.RunsOn (toDo l.act s) i s ∧
  (l.ok = true → budgetOk s.me l.dest l.tag = true → roomFor l.dest l.tag s = true → ∀ e r m, FirstPoison l.srcs (toDo l.act s) e r m →
    ∃ t, exec i s = .next t ∧ l.Stops e r m s t)

/-- A whole instruction does what Lanes say, or consumes poison at the first of the elements that it reads of its sources, and then writes nothing (R231, R345). -/
def Lanes.RunsWhole (l : Lanes) (es : List Nat) (i : Instr) (s : State) : Prop :=
  l.RunsOn es i s ∧
  (l.ok = true → budgetOk s.me l.dest l.tag = true → roomFor l.dest l.tag s = true → ∀ e r m, FirstPoison l.srcs es e r m →
    ∃ t, exec i s = .next t ∧ PoisonTrap 0 r.1 e m.producer 0 s t ∧ Unwritten s t)

/-- The next state of an instruction that writes bits of m[d] from SIX up to VL, clears those above, and goes on. -/
def GivesMask (d : Fin 8) (bit : Nat → Bool) (s t : State) : Prop :=
  ∃ p : Plane, t = retire (setM d p s) ∧ (∀ k, k < s.me.six → p.getLsbD k = s.me.m[d].getLsbD k) ∧ (∀ k, s.me.six ≤ k → k < s.me.vl → p.getLsbD k = bit k) ∧
    (∀ k, s.me.six ≤ k → s.me.vl ≤ k → p.getLsbD k = false)

/-- The sign of plane `p` of a significand: -1 for the top plane of an sN operand (R246). -/
def signAt (d : Side) (p : Nat) : Int := if d.top = true ∧ p + 1 = d.p then -1 else 1

/-- The bit products of two significands that do not fall below bit 0 of a staging word, plane by plane, with the sum of the exponents less BASE (AddProduct of R275). -/
def bitProducts (da db : Side) (sa sb : Nat) (c : Int) : Int :=
  ((List.range da.p).map fun (p : Nat) => ((List.range db.p).map fun (q : Nat) =>
    if sa.testBit p = true ∧ sb.testBit q = true ∧ 0 ≤ (p : Int) + q + c then signAt da p * signAt db q * 2 ^ ((p : Int) + q + c).toNat else 0).sum).sum

/-- The staging word and SPEC of a cell of the open block; those of a block that opens when none is open (R275). -/
def staged (s : State) (i j : Nat) : Int × Nat :=
  let k : Fin 256 := ⟨i % 256, Nat.mod_lt _ (by decide)⟩
  if s.core.owner = none then (0, 0)
  else (signExtend (field (s.core.stage[k]).toNat (40 * j) 40) 40, field (s.core.spec[k]).toNat (2 * j) 2)

/-- A cell after a fold, by the format, BASE, the cell, T and SPEC (R276). -/
def folded (fmt : Nat) (base : Int) (cell : Nat) (t : Int) (spec : Nat) : Nat :=
  if fmt = 0 then
    if t = 0 ∧ spec = 0 then cell
    else
      match spec, decodeCode .fp32 cell with
      | 3, _ => 0x7FC00000
      | _, .nan => 0x7FC00000
      | 1, .inf neg => if neg then 0x7FC00000 else 0x7F800000
      | 2, .inf neg => if neg then 0xFF800000 else 0x7FC00000
      | 1, _ => 0x7F800000
      | 2, _ => 0xFF800000
      | _, .inf _ => cell
      | _, .fin n m _ =>
        let y : XVal := if 0 ≤ base then .fin (n + t * 2 ^ base.toNat * m) m false else .fin (n * 2 ^ (-base).toNat + t * m) (m * 2 ^ (-base).toNat) false
        if (rneFp32 y).1 = 0x80000000 then 0 else (rneFp32 y).1
  else
    let w := if fmt = 1 then 32 else 16
    (max (-(2 ^ (w - 1))) (min (2 ^ (w - 1) - 1) (signExtend cell w + t)) % 2 ^ w).toNat

end Sys2Proof.Claims
end

