-- ==== Sys2Proof/Certificates/Slice0/Obligations.lean ====
section
/-! DEFINITION. The statements put to the provers. Each formalises rules of the spec over the model; its entry in OBLIGATIONS.json names them. -/

open Sys2Proof Sys2Proof.Machine Sys2Proof.Claims

namespace Sys2Proof.Claims

/-- Just one core of the package has a number. -/
def HasCore (m : Nat) (s : State) : Prop :=
  s.core.mesh = m ∨ ∃ before c after, s.cores = before ++ c :: after ∧ c.mesh = m ∧ ∀ x ∈ before ++ after, x.mesh ≠ m

end Sys2Proof.Claims

/-! ## Encoding and decoding -/

/-- Every well-formed instruction that has a word is read back from it, with every operand at every value. -/
def Obligations.EncodedInstructionsDecode : Prop :=
  ∀ (i : Instr) (w : Nat), i.wf = true → encode i = some w → decode w = .ok i

/-- No bit of a word is dropped: what a word decodes to is well formed and encodes to that word again. -/
def Obligations.DecodedWordsEncode : Prop :=
  ∀ (w : Nat) (i : Instr), w < 2 ^ 32 → decode w = .ok i → encode i = some w ∧ i.wf = true

namespace Sys2Proof.Claims

/-- The low halves of the primary opcodes that R187 assigns, from the first to the last, by their high half; the halves E and F are hints and illegal. -/
def assigned : List (Nat × Nat) :=
  [(1, 15), (0, 13), (0, 8), (0, 11), (0, 7), (0, 12), (0, 8), (0, 3), (0, 14), (0, 10), (0, 3), (0, 11), (0, 8), (0, 8)]

end Sys2Proof.Claims

/-- Words written out from the encoding tables decode to the instructions they stand for, one or more of each family; a word whose primary opcode R187 does not assign is refused
whatever its other bits are, and one of the hint group is a hint (R184, R187). -/
def Obligations.WordsOfTheTablesDecode : Prop :=
  decode 0b00000001000110000100010000000000 = .ok (.add 3 1 2) ∧
  decode 0b00010100001010011001111111111111 = .ok (.addI 5 6 0x1FFF) ∧
  decode 0b00100011000010001000011000000100 = .ok (.fma 1 2 3 4) ∧
  decode 0x3A014003 = .ok (.loop 0 5 3) ∧
  decode 0x3B2219FD = .ok (.strip 4 8 12 0x1FD) ∧
  decode 0b01000010001110000000000000001010 = .ok (.csrr 7 0x00A) ∧
  decode 0b01010110000100001000000000001000 = .ok (.ldD 2 2 8) ∧
  decode 0b01100000000010001000011001010101 = .ok (.amoMin 1 2 3 true false 5) ∧
  decode 0b01100011000000000000000000011101 = .ok (.fence 3 5) ∧
  decode 0b10000000000010001000011000000011 = .ok (.vadd 1 2 3 true true) ∧
  decode 0b10001101000110010000101000001101 = .ok (.vcmp 3 4 5 true 5) ∧
  decode 0b10110110000010001000011000000110 = .ok (.vsmax 1 2 3 true 2) ∧
  decode 0b11000001000100001100100110100110 = .ok (.opaS 2 3 4 3 1 6) ∧
  decode 0b11010000000010001000011000010010 = .ok (.vldCompressed 1 2 3 4) ∧
  decode 0b11010100000000010000101001000111 = .ok (.cpy 4 5 1 7) ∧
  (∀ w h, assigned[w / 2 ^ 28 % 16]? = some h → (w / 2 ^ 24 % 16 < h.1 ∨ h.2 < w / 2 ^ 24 % 16) → decode w = .error .opcode) ∧
  (∀ w, w / 2 ^ 24 % 256 = 0xFF → decode w = .error .opcode) ∧
  (∀ w, 0xE0 ≤ w / 2 ^ 24 % 256 → w / 2 ^ 24 % 256 ≤ 0xFE →
    ∃ op rest, op.1 + 0xE0 = w / 2 ^ 24 % 256 ∧ rest.toNat = w % 2 ^ 24 ∧ decode w = .ok (.hint op rest))

/-! ## Steps -/

namespace Sys2Proof.Claims

/-- A strand that has been given results, and nothing else of it has changed. -/
def OnlyGiven (x y : Strand) : Prop := y = { x with g := y.g, f := y.f, vflags := y.vflags }

/-- The strands of a list that have been given results, and nothing else of them has changed. -/
def AllOnlyGiven (xs ys : List Strand) : Prop := ys.length = xs.length ∧ ∀ (k : Nat) (x y : Strand), xs[k]? = some x → ys[k]? = some y → OnlyGiven x y

end Sys2Proof.Claims

/-- A step with an empty agenda, at a strand that may run, that no pre-emption stops and that has no trap due at the boundary: the cycles of its pace pass in each die and a beat in each sequencer, which
changes nothing but the windows of cores that hold vector instructions and what those that retire give their strands; the word at pc is fetched, and the step is exec of the instruction that it decodes to, unless that waits for an older vector
instruction of the strand to retire, with what the turn leaves in the sequencer's window, flags and scalar results of vector instructions that wait for retirement, and marks at the requests of the banks, which is all that the end of a
turn changes; a word that is no instruction takes the illegal-instruction trap, at its own address and with the word in TREC0, once the older instructions have given their results. A step that the agenda gives to an event of the part is exec of that event, once the named cycles have passed, and one that it gives
to a strand is that strand's turn (R173, R187, R232, R334 to R336; the model's choices of log entries 3, 4, 52 and 95). -/
def Obligations.StepRunsTheDecodedInstruction : Prop :=
  (∀ (s s1 : State) (w : Nat), let u := beat (passCycles s.pace s)
    s.agenda = [] → mayRun u = true → atStop u = false → u.me.doubleFault = false → (storeTrapDue u = false ∨ u.me.call ≠ none) → fetchWord u = .ok w s1 →
    (∀ i, decode w = .ok i →
      (waitsRetirement i s1 = true → step s = .next u) ∧
      (waitsRetirement i s1 = false → (∀ t, exec i s1 = .next t → step s = .next (endTurn (some i) u t)) ∧ ((∀ t, exec i s1 ≠ .next t) → step s = exec i s1))) ∧
    (∀ e, decode w = .error e → inHandler s1.me = false →
      ∃ t, step s = .next t ∧ t.me.tepc = s1.me.pc ∧ t.me.pc = s1.me.tvec ∧ t.me.tcause = 1 ∧ t.me.trec[0] = BitVec.ofNat 64 w ∧ t.me.priv = true ∧
        t.me.g = (giveTo s1.core.window s1.me).g ∧ t.me.f = (giveTo s1.core.window s1.me).f ∧ t.me.vflags = (giveTo s1.core.window s1.me).vflags ∧ t.me.v = s1.me.v ∧ t.me.m = s1.me.m ∧ t.me.lc = s1.me.lc ∧ t.mem = s1.mem ∧ t.core = { s1.core with window := t.core.window })) ∧
  (∀ s : State, let t := beat s
    t = { s with me := t.me, core := t.core, cores := t.cores } ∧ OnlyGiven s.me t.me ∧
    t.core = { s.core with window := t.core.window, starve := t.core.starve, boosted := t.core.boosted, strands := t.core.strands } ∧ AllOnlyGiven s.core.strands t.core.strands ∧
    (∀ (k : Nat) (c : Core), s.cores[k]? = some c → ∃ d : Core, t.cores[k]? = some { c with window := d.window, starve := d.starve, boosted := d.boosted, strands := d.strands } ∧
      AllOnlyGiven c.strands d.strands) ∧
    ((∀ c ∈ s.core :: s.cores, c.window = []) → t = s)) ∧
  (∀ (i : Instr) (s : State), (waitsRetirement i s = true ↔ ∃ f ∈ s.core.window, f.sid = s.me.sid ∧ (commits i = true ∨ ∃ r ∈ f.reserves, r ∈ scalarRegs i))) ∧
  (∀ (i : Option Instr) (a t : State), t.me.mesh = t.core.mesh → let u := endTurn i a t
    u = { t with me := u.me, core := { t.core with window := u.core.window }, dies := u.dies } ∧ OnlyGiven t.me u.me ∧
    ∀ d : Fin 4, ∃ q : Bank → List BankReq, u.dies[d] = { t.dies[d] with banks := t.dies[d].banks.map fun b => { b with queue := q b } } ∧
      ∀ b, (q b).map (fun r => { r with waiters := [] }) = b.queue.map fun r => { r with waiters := [] }) ∧
  (∀ (s : State) (n : Vector Nat 4) (rest : List (Vector Nat 4 × Turn)), let u := passCycles n { s with agenda := rest }
    (∀ k : Fin 4, u.dies[k] = { s.dies[k] with cycle := s.dies[k].cycle + n[k] }) ∧ u = { s with agenda := rest, dies := u.dies } ∧
    (∀ i : Instr, s.agenda = (n, .event i) :: rest → encode i = none → step s = exec i u) ∧
    (∀ m k, s.agenda = (n, .strand m k) :: rest → (strandAt m k u).isSome → step s =
      (let v := focus m k u; if mayRun v = false then .next v else if atStop v = true then (if unretired v = true then .next v else stopTurn v) else runStrand v)))

/-! ## Reset and invariants -/

/-- The reset state: no strand is resident; the tags are free; the scale slots and code tables, SHINT, SHEN, ACTTHR and the cap are as the spec gives them; no stage has begun. An absent strand holds what a
strand starts with: registers with tag 0x0010 and no planes, MVL, NB, SIX, VFLAGS, the slots and the loops; that it does so at the package's reset, and its RECTPOS 0, are the model's choices of
log entry 1. Memory and what is durable of it stand in canonical form, and every strand stands in the core whose number it bears (R49, R95, R166, R261, R265, R367). -/
def Obligations.ResetState : Prop :=
  (let s := State.reset
  s.me.life = .absent ∧ s.me.mvl = 256 ∧ s.me.six = 0 ∧ s.me.rectpos = 0 ∧ s.me.vflags = 0 ∧
  (∀ r : Fin 32, s.me.v[r] = ⟨0x0010, [], 0, [], []⟩) ∧ (∀ k : Fin 8, s.me.sq[k].st = .closed) ∧ (∀ k : Fin 3, s.me.lc[k].act = false) ∧
  (∀ k : Fin 64, s.core.tags[k].st = .free) ∧ (∀ k : Fin 16, s.core.scales[k].scale = 0x3F800000 ∧ s.core.scales[k].kind = 0x0007) ∧
  (∀ k : Fin 4, s.core.tables[k].kind = 0x001F) ∧ s.core.owner = none ∧ s.core.shint = 0x400 ∧ s.core.shen = true ∧
  (∀ d : Fin 4, s.dies[d].stage = 0 ∧ ∀ c : Fin 5, s.dies[d].ctrls[c].actthr = 0x800) ∧ s.cap = 2400) ∧
  (State.reset.wellKept)

/-- Every step that answers a next state keeps the canonical form of memory and the place of every strand. -/
def Obligations.StepsKeepForm : Prop := ∀ s t : State, s.wellKept → step s = .next t → t.wellKept

/-! ## Traps -/

/-- A trap of any cause saves what the spec names, clears SIX, makes the strand privileged and goes to TVEC, and nothing else changes but that leave and the waits of its instruction are given up; raised
in a handler, it ends the strand's work group with REASON 2. TRAP_ENTRY takes the trap that is due at the boundary before the instruction at pc: the STORE trap of a record that waits first, then a
translation fault of the fetch, then the illegal instruction, each with its record and with TEPC the instruction at pc; an event with another record, or where none is due, changes nothing. That the traps of
executed instructions belong to their own steps and not to this event is the model's choice of log entry 39. TRAP k takes the software trap: cause 8, k in TCAUSE, TEPC after the instruction; it may not
end a loop body (R213, R220, R335, R336, R338, R339). Completes: trapEntry, trap. -/
def Obligations.TrapEntry : Prop :=
  (∀ (s : State) (i : TrapInfo) (epc : Word),
    (inHandler s.me = false → ∃ w st : Word, takeTrap i epc s = { s with me := { s.me with
        tepc := epc, tcause := w, trec := #v[i.rec0, i.rec1, i.rec2, i.rec3], tstat := st, tsix := BitVec.ofNat 64 s.me.six, six := 0, priv := true,
        leave := .none, pwait := none, call := none, pc := s.me.tvec } } ∧
      fld w 0 8 = i.cause % 256 ∧ fld w 8 8 = i.subc % 256 ∧ fld w 16 6 = i.tag % 64 ∧ fld w 32 19 = i.kval % 2 ^ 19 ∧
      st.getLsbD 0 = s.me.priv ∧ st.getLsbD 1 = true ∧ (st.getLsbD 2 = true ↔ ∃ h, s.me.held = some h ∧ h.addr = epc)) ∧
    (inHandler s.me = true → takeTrap i epc s = terminateMine 2 s)) ∧
  (∀ s : State, mayRun s = true → s.me.call = none → s.me.doubleFault = false → inHandler s.me = false →
    (s.me.sfq ≠ [] → exec (.trapEntry ⟨4, 0, 0, 0, 0, 0, 0, 0⟩) s = .next (takeTrap ⟨4, 0, 0, 0, 0, 0, 0, 0⟩ s.me.pc s)) ∧
    (s.me.sfq = [] → (s.me.lc.toList.all fun l => !l.act) = true → ∀ x s1, translate (reqOf s.me) .fetch 4 s.me.pc s = (.error x, s1) → inHandler s1.me = false →
      let r := faultRecord (reqOf s1.me) .fetch s1.me.pc none x
      exec (.trapEntry ⟨3, fld r[0] 0 8, 0, 0, r[0], r[1], r[2], r[3]⟩) s = .next (takeTrap ⟨3, fld r[0] 0 8, 0, 0, r[0], r[1], r[2], r[3]⟩ s1.me.pc s1)) ∧
    (s.me.sfq = [] → ∀ w s1, fetchWord s = .ok w s1 → inHandler s1.me = false →
      (∀ e, decode w = .error e →
        exec (.trapEntry ⟨1, 0, 0, 0, BitVec.ofNat 64 w, 0, 0, 0⟩) s = .next (takeTrap ⟨1, 0, 0, 0, BitVec.ofNat 64 w, 0, 0, 0⟩ s1.me.pc s1)) ∧
      (∀ j, decode w = .ok j → ∀ i, exec (.trapEntry i) s = .next s))) ∧
  (∀ (s : State) (i : TrapInfo), (mayRun s = false ∨ s.me.call ≠ none ∨ inHandler s.me = true → exec (.trapEntry i) s = .next s) ∧
    ∀ t, exec (.trapEntry i) s = .next t → t ≠ s → inHandler t.me = true ∧ fld t.me.tcause 0 8 = i.cause % 256 ∧ t.me.trec = #v[i.rec0, i.rec1, i.rec2, i.rec3]) ∧
  (∀ (s : State) (k : BitVec 19),
    (inHandler s.me = false → atLoopEnd s.me = false →
      ∃ st : Word, exec (.trap k) s = .next { s with me := { s.me with
          tepc := s.me.pc + 4, tcause := BitVec.ofNat 64 (k.toNat * 2 ^ 32 + 8), trec := Vector.replicate 4 0, tstat := st, tsix := BitVec.ofNat 64 s.me.six, six := 0, priv := true,
          leave := .none, pwait := none, call := none, pc := s.me.tvec } } ∧
        bit st 0 = s.me.priv ∧ bit st 1 = true) ∧
    (inHandler s.me = true → exec (.trap k) s = .next (terminateMine 2 s)) ∧
    (atLoopEnd s.me = true → exec (.trap k) s = .next (illop (.trap k) 0 s)))

/-- ERET restores the mode, clears IH and VSTOP and returns to TEPC, with each of the four treatments of a held mapping, of a vector register with its planes of the pool, of a mask register or of
none, and SIX a multiple of 64, whatever TSIX holds (R47; log entry 15); in user mode, or with a store-fault record, it is an illegal operation, and so it is as the final instruction of a loop body (R213, R340). Completes: eret. -/
def Obligations.EretReturns : Prop :=
  ∀ s : State,
    (atLoopEnd s.me = false → s.me.priv = true → s.me.sfq = [] →
      let six := fld s.me.tsix 6 8 * 64
      let back (t : Strand) : State := { s with me := { t with
        priv := bit s.me.tstat 0, tstat := BitVec.ofNat 64 (bit s.me.tstat 0).toNat, pc := s.me.tepc } }
      (s.me.held = none → exec .eret s = .next (back { s.me with six := six })) ∧
      (∀ h, s.me.held = some h → s.me.tepc ≠ h.addr → exec .eret s = .next (back { s.me with held := none, six := 0 })) ∧
      (∀ h, s.me.held = some h → s.me.tepc = h.addr → bit s.me.tstat 2 = true → exec .eret s = .next (back { s.me with six := six })) ∧
      (∀ h, s.me.held = some h → s.me.tepc = h.addr → bit s.me.tstat 2 = false →
        (∀ r old at_, h.reg = .vec r old at_ →
          exec .eret s = .next (back { s.me with held := none, six := 0, v := s.me.v.set r old, maps := s.me.maps.set r at_ })) ∧
        (∀ r old, h.reg = .mask r old → exec .eret s = .next (back { s.me with held := none, six := 0, m := s.me.m.set r old })) ∧
        (h.reg = .none → exec .eret s = .next (back { s.me with held := none, six := 0 })))) ∧
    ((s.me.priv = false ∨ s.me.sfq ≠ [] ∨ atLoopEnd s.me = true) → exec .eret s = .next (illop .eret 0 s))

/-! ## Frames of the shared operations -/

/-- What a scalar instruction that writes a general register changes: that register, the loops and pc; g0 reads 0 and a write of it is discarded. What an instruction that writes
vector register d changes: v[d], HWM, the flags that it raises, or raised before it stopped, but for those MODE masks, SIX, the held mapping, the loops and pc; beside them its mapping, which takes planes
of the pool that no strand's mapping holds and none waits to return, and the dirty bits of their units. No other register, no memory and no other core changes (R172, R179, R193, R203, R213, R405; the model's choice of log
entry 81). -/
def Obligations.RegisterWriteFrames : Prop :=
  (∀ (s : State) (d : GReg) (w : Word),
    advance (setG d w s) = { s with me := { s.me with
      g := if d = 0 then s.me.g else s.me.g.set d w, lc := (advance s).me.lc, pc := (advance s).me.pc } } ∧
    gR 0 s = 0 ∧ (∀ r : GReg, r ≠ d → gR r (setG d w s) = gR r s) ∧ (d ≠ 0 → gR d (setG d w s) = w)) ∧
  (∀ (s : State) (d : Fin 32) (r : VReg) (fl : Nat), let t := retire (onMe (putV d r) (raise fl s))
    let before := (s.me.held.map fun h => h.flags).getD 0
    t = { s with me := { s.me with
      v := s.me.v.set d r, hwm := t.me.hwm, vflags := t.me.vflags, six := 0, held := none, lc := (advance s).me.lc, pc := (advance s).me.pc } } ∧
    (∀ k, 12 ≤ k → t.me.vflags.getLsbD k = s.me.vflags.getLsbD k) ∧
    (∀ k, k < 12 → t.me.vflags.getLsbD k = (s.me.vflags.getLsbD k || ((fl.testBit k || before.testBit k) && !(modeFMSK s.me.mode).testBit k)))) ∧
  (∀ (s : State) (d : Fin 32) (tag : BitVec 16), let u := mapTo d tag s
    let planes := u.me.maps[d]
    u = { s with me := { s.me with maps := s.me.maps.set d planes }, core := { s.core with dirty := u.core.dirty } } ∧
    (∀ (e : Fin 3) (j : Nat), j < 928 → (u.core.dirty[e]).getLsbD j = ((s.core.dirty[e]).getLsbD j || planes.any fun p => p / 2 == j)) ∧
    (resumes d s.me = false → roomFor d tag s = true → planes.length = planeNeed tag ∧ planes.Nodup ∧
      ∀ p ∈ planes, p < 768 ∧ (∀ t ∈ s.me :: s.core.strands, p ∉ t.maps.toList.flatten) ∧ ∀ f ∈ s.core.window, p ∉ f.frees))

/-- Loop-back: the innermost active loop that ends at pc starts again while COUNT is above 1, and otherwise ends, with the next one out examined; no loop is examined in a handler, and
with none the next instruction follows. A transfer goes to its target; outside a handler every loop whose body it leaves ends, with those inside it, and keeps its COUNT (R213). -/
def Obligations.LoopBackAndLeaving : Prop :=
  ∀ s : State,
    (inHandler s.me = true → advance s = { s with me := { s.me with pc := s.me.pc + 4 } }) ∧
    (inHandler s.me = false → (∀ k : Fin 3, ¬(s.me.lc[k].act = true ∧ s.me.lc[k].last = s.me.pc)) → advance s = { s with me := { s.me with pc := s.me.pc + 4 } }) ∧
    (∀ k : Fin 3, inHandler s.me = false → s.me.lc[k].act = true → s.me.lc[k].last = s.me.pc →
      (∀ j : Fin 3, k < j → ¬(s.me.lc[j].act = true ∧ s.me.lc[j].last = s.me.pc)) →
      (1 < s.me.lc[k].count.toNat →
        advance s = { s with me := { s.me with pc := s.me.lc[k].start, lc := s.me.lc.set k { s.me.lc[k] with count := s.me.lc[k].count - 1 } } }) ∧
      (s.me.lc[k].count.toNat ≤ 1 →
        advance s = advance { s with me := { s.me with lc := s.me.lc.set k { s.me.lc[k] with count := 0, act := false } } })) ∧
    (∀ target : Word,
      (inHandler s.me = true → jump target s = { s with me := { s.me with pc := target } }) ∧
      (inHandler s.me = false → jump target s = { s with me := { s.me with pc := target, lc := (jump target s).me.lc } } ∧
        ∀ k : Fin 3, (jump target s).me.lc[k].count = s.me.lc[k].count ∧ (jump target s).me.lc[k].start = s.me.lc[k].start ∧
          (jump target s).me.lc[k].last = s.me.lc[k].last ∧
          ((jump target s).me.lc[k].act = true ↔
            s.me.lc[k].act = true ∧ ∀ j : Fin 3, j ≤ k → s.me.lc[j].act = true → s.me.lc[j].start ≤ target ∧ target ≤ s.me.lc[j].last)))

/-! ## Scalar integer instructions -/

namespace Sys2Proof.Claims

/-- The register an instruction of R204 to R206 on registers writes and its value, from the values `g` of the registers. -/
def aluResult (g : GReg → Word) : Instr → Option (GReg × Word)
  | .add d a b => some (d, g a + g b)
  | .sub d a b => some (d, g a - g b)
  | .mul d a b => some (d, g a * g b)
  | .mulh d a b => some (d, BitVec.ofInt 64 ((g a).toInt * (g b).toInt / 2 ^ 64))
  | .mulhU d a b => some (d, BitVec.ofNat 64 ((g a).toNat * (g b).toNat / 2 ^ 64))
  | .div d a b => some (d, if g b = 0 then BitVec.allOnes 64 else BitVec.ofInt 64 ((g a).toInt.tdiv (g b).toInt))
  | .divU d a b => some (d, if g b = 0 then BitVec.allOnes 64 else g a / g b)
  | .rem d a b => some (d, if g b = 0 then g a else BitVec.ofInt 64 ((g a).toInt.tmod (g b).toInt))
  | .remU d a b => some (d, if g b = 0 then g a else g a % g b)
  | .and d a b => some (d, g a &&& g b)
  | .or d a b => some (d, g a ||| g b)
  | .xor d a b => some (d, g a ^^^ g b)
  | .shl d a b => some (d, g a <<< ((g b).extractLsb' 0 6).toNat)
  | .shr d a b => some (d, g a >>> ((g b).extractLsb' 0 6).toNat)
  | .sar d a b => some (d, (g a).sshiftRight ((g b).extractLsb' 0 6).toNat)
  | .min d a b => some (d, if (g a).sle (g b) then g a else g b)
  | .minU d a b => some (d, if g a ≤ g b then g a else g b)
  | .max d a b => some (d, if (g a).sle (g b) then g b else g a)
  | .maxU d a b => some (d, if g a ≤ g b then g b else g a)
  | .setEq d a b => some (d, if g a = g b then 1 else 0)
  | .setLt d a b => some (d, if (g a).slt (g b) then 1 else 0)
  | .setLtu d a b => some (d, if g a < g b then 1 else 0)
  | .clz d a => some (d, BitVec.ofNat 64 ((List.range 64).countP fun k => decide ((g a).toNat < 2 ^ k)))
  | .popc d a => some (d, BitVec.ofNat 64 ((List.range 64).countP fun k => (g a).getLsbD k))
  | .sel d a b c => some (d, if g c = 0 then g b else g a)
  | .lih d k => some (d, (g d <<< 19) + k.setWidth 64)
  | _ => none

/-- The operands of a form-I instruction of R204, and what it does with g[a] and ImmValue. -/
def aluImmediate : Instr → Option (GReg × GReg × BitVec 14 × (Word → Word → Word))
  | .addI d a k => some (d, a, k, fun x y => x + y)
  | .andI d a k => some (d, a, k, fun x y => x &&& y)
  | .orI d a k => some (d, a, k, fun x y => x ||| y)
  | .xorI d a k => some (d, a, k, fun x y => x ^^^ y)
  | .shlI d a k => some (d, a, k, fun x y => x <<< (y.extractLsb' 0 6).toNat)
  | .shrI d a k => some (d, a, k, fun x y => x >>> (y.extractLsb' 0 6).toNat)
  | .sarI d a k => some (d, a, k, fun x y => x.sshiftRight (y.extractLsb' 0 6).toNat)
  | .setEqI d a k => some (d, a, k, fun x y => if x = y then 1 else 0)
  | .setLtI d a k => some (d, a, k, fun x y => if x.slt y then 1 else 0)
  | .setLtuI d a k => some (d, a, k, fun x y => if x < y then 1 else 0)
  | _ => none

end Sys2Proof.Claims

/-- Each scalar integer instruction on registers writes its result to g[d] and goes on, whatever the registers hold (R204 to R206). Completes: add, sub, mul, mulh, mulhU, div, divU, rem, remU,
and, or, xor, shl, shr, sar, min, minU, max, maxU, setEq, setLt, setLtu, clz, popc, sel, lih. -/
def Obligations.IntegerResults : Prop :=
  ∀ (i : Instr) (d : GReg) (w : Word) (s : State), aluResult (fun r => gR r s) i = some (d, w) → exec i s = .next (advance (setG d w s))

/-- Each form-I integer instruction: a literal is sign-extended from 13 bits; a patch slot supplies the eight bytes at PATCHBASE + 8 k: the value the strand holds for the slot, or
a load, which a CTL leaf does not allow, whose translation fault the instruction takes at the slot's address, and no more (R29, R185, R186, R204; the model's choices of log entry 16). Completes: addI, andI, orI, xorI, shlI, shrI, sarI,
setEqI, setLtI, setLtuI. -/
def Obligations.ImmediateResults : Prop :=
  ∀ (i : Instr) (d a : GReg) (k : BitVec 14) (f : Word → Word → Word) (s : State), aluImmediate i = some (d, a, k, f) →
    (k.getLsbD 13 = false → exec i s = .next (advance (setG d (f (gR a s) ((k.extractLsb' 0 13).signExtend 64)) s))) ∧
    (k.getLsbD 13 = true → ∀ va, va = s.me.patchbase + 8 * (k.extractLsb' 0 13).setWidth 64 →
      (∀ p, s.me.patch.find? (fun p => p.1 == va) = some p → exec i s = .next (advance (setG d (f (gR a s) p.2) s))) ∧
      (s.me.patch.find? (fun p => p.1 == va) = none → ∀ x s1, translate (reqOf s.me) .load 0 va s = (.error x, s1) → exec i s = .next (xlate .load va x s1)) ∧
      (∀ w s1, patchRead va s = .ok w s1 → exec i s = .next (advance (setG d (f (gR a s1) w) s1))))

/-! ## Branches, jumps and loops -/

namespace Sys2Proof.Claims

/-- The operands of a conditional branch of R210, and its relation. -/
def branchOf : Instr → Option (GReg × GReg × BitVec 14 × (Word → Word → Bool))
  | .beq d a o => some (d, a, o, fun x y => decide (x = y))
  | .bne d a o => some (d, a, o, fun x y => decide (x ≠ y))
  | .blt d a o => some (d, a, o, fun x y => x.slt y)
  | .bge d a o => some (d, a, o, fun x y => !x.slt y)
  | .bltu d a o => some (d, a, o, fun x y => x.ult y)
  | .bgeu d a o => some (d, a, o, fun x y => !x.ult y)
  | _ => none

/-- The instructions that may not be the final one of an active loop body (R213), but those with an immediate in a patch slot. -/
def transfers : Instr → Bool
  | .b _ => true
  | .beq _ _ _ => true
  | .bne _ _ _ => true
  | .blt _ _ _ => true
  | .bge _ _ _ => true
  | .bltu _ _ _ => true
  | .bgeu _ _ _ => true
  | .j _ => true
  | .jal _ _ => true
  | .jr _ _ k => !k.getLsbD 13
  | .loop _ _ k => !k.getLsbD 13
  | .strip _ _ _ _ => true
  | .trap _ => true
  | .eret => true
  | .endStrand => true
  | _ => false

/-- The instructions of the vector queue, but those with an immediate in a patch slot: the ones that a unit runs, and those that take effect at rename (R339). -/
def vectorQueue (i : Instr) : Bool :=
  ((useOf i).any fun u => u.unit.isSome) ||
    match i with
    | .vcfg _ k => !k.getLsbD 13
    | .mmode k => !k.getLsbD 13
    | .setvl _ _ _ => true
    | .setmode _ _ => true
    | .strip _ _ _ _ => true
    | .cpy _ _ _ _ => true
    | .cpyx _ _ _ _ => true
    | .waitany _ _ => true
    | .waitall _ => true
    | .ffrdy _ _ => true
    | .tagcnt _ _ => true
    | .tagmask _ _ => true
    | .commit _ => true
    | .sqopen _ _ _ _ => true
    | .sqadv _ _ => true
    | .sqend _ => true
    | .sqclose _ => true
    | _ => false

/-- The whole instructions (R231, R254, R260 to R265, R269, R305, R306). -/
def wholeInstr (i : Instr) : Bool :=
  ((useOf i).any fun u => u.unit == some .outer) ||
    match i with
    | .vdot _ _ _ => true
    | .vred _ _ _ => true
    | .vscan _ _ _ _ => true
    | .vcompress _ _ _ => true
    | .vexpand _ _ _ => true
    | .vslideDn _ _ _ => true
    | .vslideUp _ _ _ => true
    | .viota _ _ => true
    | .viotaIdx _ => true
    | .mpopc _ _ => true
    | .mfirst _ _ => true
    | .vsmax _ _ _ _ _ => true
    | .qstat _ _ _ => true
    | .qscaleH _ _ _ => true
    | .qscaleR _ _ _ _ => true
    | .qscaleZ _ => true
    | .ctab _ _ => true
    | .vldCompressed _ _ _ _ => true
    | .vldPop _ _ => true
    | _ => false

end Sys2Proof.Claims

/-- A conditional branch whose relation holds goes to pc + 4 times its signed offset, and otherwise on; nothing else changes but loops that it leaves. B, J, JAL and JR: the target, and the return
address in g31 or g[d]; a JR target that is no multiple of 4 is illegal and writes nothing (R210, R211). Completes: b, beq, bne, blt, bge, bltu, bgeu, j, jal, jr. -/
def Obligations.BranchesAndJumps : Prop :=
  (∀ (i : Instr) (d a : GReg) (o : BitVec 14) (r : Word → Word → Bool) (s : State), branchOf i = some (d, a, o, r) → atLoopEnd s.me = false →
    exec i s = .next (if r (gR d s) (gR a s) then jump (s.me.pc + 4 * o.signExtend 64) s else advance s)) ∧
  (∀ s : State, atLoopEnd s.me = false →
    (∀ o : BitVec 24, exec (.b o) s = .next (jump (s.me.pc + 4 * o.signExtend 64) s)) ∧
    (∀ o : BitVec 24, exec (.j o) s = .next (jump (s.me.pc + 4 * o.signExtend 64) (setG 31 (s.me.pc + 4) s))) ∧
    (∀ (d : GReg) (o : BitVec 19), exec (.jal d o) s = .next (jump (s.me.pc + 4 * o.signExtend 64) (setG d (s.me.pc + 4) s))) ∧
    (∀ (d a : GReg) (k : BitVec 14) (w : Word) (s1 : State), immValue k s = .ok w s1 → atLoopEnd s1.me = false →
      (((gR a s1 + w).extractLsb' 0 2 = 0) → exec (.jr d a k) s = .next (jump (gR a s1 + w) (setG d (s1.me.pc + 4) s1))) ∧
      (((gR a s1 + w).extractLsb' 0 2 ≠ 0) → exec (.jr d a k) s = .next (illop (.jr d a k) 0 s1))))

/-- LOOP opens the next loop in, skips its body when the count is 0, and is illegal on a bad length, count, number or nesting (R212; the model's choices of log entry 27). Completes: loop. -/
def Obligations.LoopOpens : Prop :=
  ∀ (s s1 : State) (k : LcN) (a : GReg) (l : BitVec 14) (len : Word), immValue l s = .ok len s1 → atLoopEnd s1.me = false →
    let d := (s1.me.lc.toList.filter fun x => x.act).length
    let ok := 1 ≤ len.toNat ∧ len.toNat ≤ 4095 ∧ (gR a s1).toNat < 2 ^ 32 ∧ k.1 = d ∧
      (∀ o : LcN, o.1 + 1 = k.1 → s1.me.pc.toNat + 4 * len.toNat ≤ s1.me.lc[o].last.toNat)
    (ok → gR a s1 = 0 → exec (.loop k a l) s = .next (jump (s1.me.pc + 4 * len + 4) s1)) ∧
    (ok → gR a s1 ≠ 0 → exec (.loop k a l) s = .next { s1 with me := { s1.me with
      lc := s1.me.lc.set k ⟨true, (gR a s1).setWidth 32, s1.me.pc + 4, s1.me.pc + 4 * len⟩, pc := s1.me.pc + 4 } }) ∧
    (¬ok → exec (.loop k a l) s = .next (illop (.loop k a l) 0 s1))

/-- An illegal operation outside a handler traps with cause 2 at the instruction, whose word and lowest element stand in TREC0 and TREC1. An instruction that transfers control is one as the
final one of an active loop body. A vector-queue instruction in a handler is an illegal operation there, and so ends the work group; a whole instruction is one with SIX not 0 (R213, R231, R335,
R339). -/
def Obligations.IllegalOperations : Prop :=
  (∀ (i : Instr) (e : Nat) (s : State), inHandler s.me = false →
    let t := illop i e s
    t.me.tcause = 2 ∧ t.me.tepc = s.me.pc ∧ t.me.pc = s.me.tvec ∧ t.me.priv = true ∧ t.me.trec[0] = BitVec.ofNat 64 ((encode i).getD 0) ∧
      t.me.trec[1] = BitVec.ofNat 64 e ∧ t.me.g = s.me.g ∧ t.me.v = s.me.v ∧ t.me.m = s.me.m ∧ t.me.vl = s.me.vl ∧ t.mem = s.mem ∧ t.core = s.core) ∧
  (∀ (i : Instr) (s : State), transfers i = true → atLoopEnd s.me = true → exec i s = .next (illop i 0 s)) ∧
  (∀ (i : Instr) (s : State), vectorQueue i = true → inHandler s.me = true → exec i s = .next (terminateMine 2 s)) ∧
  (∀ (i : Instr) (s : State), wholeInstr i = true → inHandler s.me = false → s.me.six ≠ 0 → exec i s = .next (illop i 0 s))

/-- STRIP: the remaining count, the pointers, SBASE, VL by its grant, and the branch while the grant is not 0; a pointer that may not step makes it illegal, with nothing
changed; it waits while its grant waits (R214). Completes: strip. -/
def Obligations.StripCompletes : Prop :=
  ∀ (s : State) (d a b : GReg) (o : BitVec 9), inHandler s.me = false → atLoopEnd s.me = false →
    let v := s.me.vl
    let bits (k : Nat) : Nat := fld (gR b s) (16 * k) 16
    let bad := ∃ k, k < 4 ∧ bits k ≠ 0 ∧ (31 < a.1 + k ∨ d.1 = a.1 + k ∨ v * bits k % 8 ≠ 0)
    let n := (gR d s).toNat - v
    (bad → exec (.strip d a b o) s = .next (illop (.strip d a b o) 0 s)) ∧
    (¬bad → ∀ g s1, grantOf n (s.me.sbase + BitVec.ofNat 64 v) (boundPub s.me) s = .ok g s1 →
      ∃ t, exec (.strip d a b o) s = .next t ∧ (d ≠ 0 → t.me.g[d] = BitVec.ofNat 64 n) ∧
        (∀ k (h : a.1 + k < 32), k < 4 → bits k ≠ 0 → 0 < a.1 + k → t.me.g[a.1 + k] = s1.me.g[a.1 + k] + BitVec.ofNat 64 (v * bits k / 8)) ∧
        (∀ r : GReg, r ≠ d → (∀ k, k < 4 → bits k ≠ 0 → r.1 ≠ a.1 + k) → t.me.g[r] = s1.me.g[r]) ∧
        t.me.sbase = s.me.sbase + BitVec.ofNat 64 v ∧ t.me.vl = g ∧
        (g ≠ 0 → t.me.pc = s1.me.pc + 4 * o.signExtend 64) ∧ (g = 0 → t.me.pc = (advance s1).me.pc) ∧ t.mem = s1.mem ∧ t.core = s1.core) ∧
    (¬bad → ∀ s1, grantOf n (s.me.sbase + BitVec.ofNat 64 v) (boundPub s.me) s = .stop s1 → exec (.strip d a b o) s = .next s1)

/-! ## Scalar FP32 instructions -/

namespace Sys2Proof.Claims

/-- The exact value of an instruction of R208 on finite operands, from the values `f` of the float registers, as a fraction; none where it has no value. -/
def exactResult (f : FReg → XVal) : Instr → Option (FReg × Int × Nat)
  | .fadd d a b => match f a, f b with | .fin m p _, .fin n q _ => some (d, m * q + n * p, p * q) | _, _ => none
  | .fsub d a b => match f a, f b with | .fin m p _, .fin n q _ => some (d, m * q - n * p, p * q) | _, _ => none
  | .fmul d a b => match f a, f b with | .fin m p _, .fin n q _ => some (d, m * n, p * q) | _, _ => none
  | .fma d a b c => match f a, f b, f c with | .fin m p _, .fin n q _, .fin o r _ => some (d, m * n * r + o * (p * q), p * q * r) | _, _, _ => none
  | .fdiv d a b => match f a, f b with | .fin m p _, .fin n q _ => if n = 0 then none else some (d, m * q * n.sign, p * n.natAbs) | _, _ => none
  | _ => none

/-- The cases of R207 that are invalid. -/
def invalidCase (f : FReg → XVal) : Instr → Option FReg
  | .fadd d a b => match f a, f b with | .inf x, .inf y => if x = y then none else some d | _, _ => none
  | .fsub d a b => match f a, f b with | .inf x, .inf y => if x = y then some d else none | _, _ => none
  | .fmul d a b => match f a, f b with | .fin 0 _ _, .inf _ => some d | .inf _, .fin 0 _ _ => some d | _, _ => none
  | .fma d a b c =>
    match f a, f b, f c with
    | .fin 0 _ _, .inf _, _ => some d
    | .inf _, .fin 0 _ _, _ => some d
    | .inf x, .inf y, .inf z => if (x != y) != z then some d else none
    | .inf x, .fin n _ _, .inf z => if n ≠ 0 ∧ (x != decide (n < 0)) != z then some d else none
    | .fin n _ _, .inf y, .inf z => if n ≠ 0 ∧ (decide (n < 0) != y) != z then some d else none
    | _, _, _ => none
  | .fdiv d a b => match f a, f b with | .fin 0 _ _, .fin 0 _ _ => some d | .inf _, .inf _ => some d | _, _ => none
  | .fsqrt d a => match f a with | .inf true => some d | .fin n _ _ => if n < 0 then some d else none | _ => none
  | _ => none

/-- The result and flags of an instruction of R208 that writes a float register, by the operations of R207. -/
def floatResult (rm : Rm) (f : FReg → BitVec 32) : Instr → Option (FReg × Nat × Nat)
  | .fadd d a b => some (d, fpAdd rm (f a) (f b))
  | .fsub d a b => some (d, fpAdd rm (f a) (f b ^^^ 0x80000000))
  | .fmul d a b => some (d, fpMul rm (f a) (f b))
  | .fma d a b c => some (d, fpFma rm (f a) (f b) (f c))
  | .fdiv d a b => some (d, fpDiv rm (f a) (f b))
  | .fsqrt d a => some (d, fpSqrt rm (f a))
  | .fmin d a b => some (d, (fpPick false (f a) (f b)).toNat, 0)
  | .fmax d a b => some (d, (fpPick true (f a) (f b)).toNat, 0)
  | _ => none

end Sys2Proof.Claims

/-- Each scalar FP32 instruction that writes a float register completes with the result and the flags of its operation under RND, and changes nothing beside f[d], VFLAGS,
the loops and pc (R207, R208). Completes: fadd, fsub, fmul, fma, fdiv, fsqrt, fmin, fmax. -/
def Obligations.FloatInstructionsComplete : Prop :=
  ∀ (i : Instr) (d : FReg) (c fl : Nat) (s : State), floatResult (scalarRm s.me) (fun r => fR r s) i = some (d, c, fl) →
    exec i s = .next (advance { s with me := { s.me with
      f := s.me.f.set d (BitVec.ofNat 32 c), vflags := s.me.vflags ||| BitVec.ofNat 64 (fl &&& ((2 ^ 12 - 1) ^^^ modeFMSK s.me.mode)) } })

/-- On finite operands, sums, products, fused products and quotients by a number that is not zero are the exact result, if that is not zero, rounded once; the invalid cases give
the canonical NaN and NV; a NaN operand of a sum, product or quotient gives the canonical NaN and no flag. FCMP writes 1 when its relation holds and 0 otherwise; NaN makes EQ, LT and LE
false and UN true, and LT and LE then set NV (R207, R208). Completes: fcmp. -/
def Obligations.FloatValuesAndCompares : Prop :=
  (∀ (i : Instr) (d : FReg) (s : State),
    (∀ n p, exactResult (fun r => fval (fR r s)) i = some (d, n, p) → n ≠ 0 →
      ∃ t, exec i s = .next t ∧ t.me.f[d] = BitVec.ofNat 32 (ieeeFp32 (scalarRm s.me) (.fin n p false)).1) ∧
    (bit s.me.mode 32 = false →
      (invalidCase (fun r => fval (fR r s)) i = some d → ∃ t, exec i s = .next t ∧ t.me.f[d] = 0x7FC00000 ∧ t.me.vflags = s.me.vflags ||| 1) ∧
      (∀ a b, (i = .fadd d a b ∨ i = .fsub d a b ∨ i = .fmul d a b ∨ i = .fdiv d a b) → (fval (fR a s) = .nan ∨ fval (fR b s) = .nan) →
        ∃ t, exec i s = .next t ∧ t.me.f[d] = 0x7FC00000 ∧ t.me.vflags = s.me.vflags))) ∧
  (∀ (d : GReg) (a b : FReg) (q : BitVec 2) (s : State),
    let x := fval (fR a s)
    let y := fval (fR b s)
    let n := x.isNan || y.isNan
    let holds : Bool := (q = 0 ∧ !n ∧ x.eqv y) ∨ (q = 1 ∧ !n ∧ x.lt y) ∨ (q = 2 ∧ !n ∧ (x.lt y ∨ x.eqv y)) ∨ (q = 3 ∧ n)
    let nv : Bool := (q = 1 ∨ q = 2) ∧ n
    exec (.fcmp d a b q) s = .next (advance (raise nv.toNat (setG d (if holds then 1 else 0) s))))

/-- The conversions between float and general registers: bits unchanged one way and the other; integers rounded under RND, a value outside the bounds to the nearer bound
and NaN to 0 with NV (R209). Completes: fcvtS64, fcvtN64, fcvtFS64, fcvtFN64, fcvtBits, fcvtFBits. -/
def Obligations.FloatConversions : Prop :=
  ∀ s : State,
    (∀ (d : GReg) (a : FReg), exec (.fcvtBits d a) s = .next (advance (setG d ((fR a s).setWidth 64) s))) ∧
    (∀ (d : FReg) (a : GReg), exec (.fcvtFBits d a) s = .next (advance (setF d ((gR a s).setWidth 32) s))) ∧
    (∀ (d : FReg) (a : GReg), let r := ieeeFp32 (scalarRm s.me) (.fin (gR a s).toInt 1 false)
      exec (.fcvtFS64 d a) s = .next (advance (raise r.2 (setF d (BitVec.ofNat 32 r.1) s)))) ∧
    (∀ (d : FReg) (a : GReg), let r := ieeeFp32 (scalarRm s.me) (.fin (gR a s).toNat 1 false)
      exec (.fcvtFN64 d a) s = .next (advance (raise r.2 (setF d (BitVec.ofNat 32 r.1) s)))) ∧
    (∀ (i : Instr) (d : GReg) (a : FReg) (lo hi : Int), (i = .fcvtS64 d a ∧ lo = -(2 ^ 63) ∧ hi = 2 ^ 63 - 1 ∨ i = .fcvtN64 d a ∧ lo = 0 ∧ hi = 2 ^ 64 - 1) →
      (fval (fR a s) = .nan → exec i s = .next (advance (raise 1 (setG d 0 s)))) ∧
      (fval (fR a s) = .inf true → exec i s = .next (advance (raise 1 (setG d (BitVec.ofInt 64 lo) s)))) ∧
      (fval (fR a s) = .inf false → exec i s = .next (advance (raise 1 (setG d (BitVec.ofInt 64 hi) s)))) ∧
      (∀ n p z, fval (fR a s) = .fin n p z → let r := roundInt ⟨scalarRm s.me, false, 0, 0, 0, 0⟩ n p
        (r.1 < lo → exec i s = .next (advance (raise 1 (setG d (BitVec.ofInt 64 lo) s)))) ∧
        (hi < r.1 → exec i s = .next (advance (raise 1 (setG d (BitVec.ofInt 64 hi) s)))) ∧
        (lo ≤ r.1 → r.1 ≤ hi → exec i s = .next (advance (raise (if r.2 then 0 else 8) (setG d (BitVec.ofInt 64 r.1) s))))))

/-! ## System instructions -/

/-- CSRR of every control register that the strand may read completes with the value that the state holds, and CSRW of each register that may be written, with a legal value, writes it and goes on, in
user mode and in a handler too where the rules let it; a value or a register that may not be written is an illegal operation. An access of a register whose order is V or R in a handler is a double
fault. In user mode an access of a trap register, ERET and a write of VL or HWM are illegal operations. A privileged strand's write to SFPOP removes the oldest
store-fault record, and one to WGTERM ends its work group with the REASON written; both events do nothing for a strand in user mode (R191, R215 to R217, R337, R339, R346, R380; the model's choices of
log entry 15). Completes: csrr, csrw, sfpop, wgterm. -/
def Obligations.ControlRegisters : Prop :=
  (∀ (s : State) (d : GReg) (c : BitVec 9), (0x100 ≤ c.toNat → s.me.priv = true) → (csrOrdered c.toNat = true → inHandler s.me = false) →
    exec (.csrr d c) s = .next (advance (setG d (csrRead c.toNat s) s)) ∧
    csrRead 0x000 s = BitVec.ofNat 64 s.me.vl ∧ csrRead 0x001 s = 16384 ∧ csrRead 0x002 s = BitVec.ofNat 64 s.core.alc ∧ csrRead 0x003 s = BitVec.ofNat 64 s.me.six ∧
    csrRead 0x004 s = s.me.hwm ∧ csrRead 0x005 s = s.me.mode ∧ csrRead 0x006 s = s.me.seed ∧ csrRead 0x007 s = s.me.sbase ∧ csrRead 0x00A s = s.me.vflags ∧
    csrRead 0x008 s = BitVec.ofNat 64 (s.core.fmt * 2 ^ 24 + s.me.nbl * 2 ^ 16 + s.me.mvl) ∧
    (∀ k : Fin 64, (csrRead 0x009 s).getLsbD k =
      decide (s.me.tagFirst ≤ k.1 ∧ k.1 < s.me.tagFirst + s.me.tagCount ∧ s.core.tags[k].st ≠ .busy)) ∧
    (∀ e i, e = dieAt (s.me.mesh / 384) s → i = e.islands[fin 12 (by decide) (islandOf s.me.mesh)] → csrRead 0x00C s = BitVec.ofNat 64
      (i.therm + max e.ctrls[0].temp e.ctrls[1].temp * 2 ^ 16 + (e.ctrls[0].dbl || e.ctrls[1].dbl).toNat * 2 ^ 24 + i.press.toNat * 2 ^ 25 + i.q * 2 ^ 32)) ∧
    csrRead 0x00B s = s.me.rcause ∧ csrRead 0x00D s = s.me.patchbase ∧ csrRead 0x00E s = BitVec.ofNat 64 s.me.sid ∧ csrRead 0x00F s = s.me.rectpos ∧
    (∀ k : Fin 3, csrRead (0x010 + k) s = BitVec.ofNat 64 (s.me.lc[k].act.toNat * 2 ^ 63 + s.me.lc[k].count.toNat)) ∧
    csrRead 0x013 s = BitVec.ofNat 64 (dieAt (s.me.mesh / 384) s).cycle ∧
    csrRead 0x100 s = s.me.tvec ∧ csrRead 0x101 s = s.me.tcause ∧ csrRead 0x102 s = s.me.tepc ∧ csrRead 0x103 s = s.me.tstat ∧ csrRead 0x104 s = s.me.tsix ∧
    (∀ k : Fin 4, csrRead (0x105 + k) s = s.me.trec[k]) ∧ csrRead 0x109 s = s.me.tscr ∧ csrRead 0x10A s = BitVec.ofNat 64 s.me.sfq.length ∧
    (∀ r rest, s.me.sfq = r :: rest → csrRead 0x10B s = r.w0 ∧ csrRead 0x10C s = r.w1 ∧ csrRead 0x10D s = r.w2 ∧ csrRead 0x10E s = r.w3)) ∧
  (∀ (s : State) (a : GReg) (c : BitVec 9), (0x100 ≤ c.toNat → s.me.priv = true) → (csrOrdered c.toNat = true → inHandler s.me = false) →
    let v := gR a s
    let sets (t : Strand) : Prop := exec (.csrw a c) s = .next (advance { s with me := t })
    (c = 0x000 → s.me.priv = true → v.toNat ≤ 16384 → sets { s.me with vl := v.toNat }) ∧
    (c = 0x003 → v.toNat % 64 = 0 → v.toNat < 16384 → sets { s.me with six := v.toNat }) ∧
    (c = 0x004 → s.me.priv = true → fld v 53 11 = 0 → fld v 47 1 = 0 → ∃ h : Word, sets { s.me with hwm := h } ∧
      (∀ k, k < 32 → h.getLsbD k = (s.me.hwm.getLsbD k || v.getLsbD k)) ∧ fld h 32 15 = max (fld s.me.hwm 32 15) (fld v 32 15) ∧
      fld h 48 5 = max (fld s.me.hwm 48 5) (fld v 48 5)) ∧
    (c = 0x005 → modeIllegal v = false → sets { s.me with mode := v }) ∧
    (c = 0x006 → sets { s.me with seed := v }) ∧ (c = 0x007 → sets { s.me with sbase := v }) ∧
    (c = 0x00A → v.toNat < 2 ^ 12 → sets { s.me with vflags := v }) ∧
    (∀ k : Fin 3, c.toNat = 0x010 + k → sets { s.me with lc := s.me.lc.set k { s.me.lc[k] with count := v.setWidth 32 } }) ∧
    (c = 0x100 → sets { s.me with tvec := BitVec.ofNat 64 (fld v 2 55 * 4) }) ∧
    (c = 0x103 → sets { s.me with tstat := BitVec.ofNat 64 (fld v 2 1 * 4 + fld s.me.tstat 1 1 * 2 + fld v 0 1) }) ∧
    (c = 0x104 → sets { s.me with tsix := BitVec.ofNat 64 (fld v 6 8 * 64) }) ∧
    (c = 0x102 → sets { s.me with tepc := v }) ∧ (c = 0x109 → sets { s.me with tscr := v }) ∧
    (c = 0x10F → sets { s.me with sfq := s.me.sfq.drop 1 }) ∧
    (c = 0x110 → exec (.csrw a c) s = .next (terminateMine (if 1 ≤ fld v 0 4 ∧ fld v 0 4 ≤ 4 then fld v 0 4 else 1) s)) ∧
    (c.toNat ∈ [0x001, 0x002, 0x008, 0x009, 0x00B, 0x00C, 0x00D, 0x00E, 0x00F, 0x013, 0x101, 0x105, 0x106, 0x107, 0x108, 0x10A, 0x10B, 0x10C, 0x10D, 0x10E] →
      exec (.csrw a c) s = .next (illop (.csrw a c) 0 s)) ∧
    ((c = 0x000 ∧ 16384 < v.toNat ∨ c = 0x003 ∧ (v.toNat % 64 ≠ 0 ∨ 16384 ≤ v.toNat) ∨ c = 0x004 ∧ (fld v 53 11 ≠ 0 ∨ fld v 47 1 ≠ 0) ∨ c = 0x005 ∧ modeIllegal v = true ∨
        c = 0x00A ∧ 2 ^ 12 ≤ v.toNat) → exec (.csrw a c) s = .next (illop (.csrw a c) 0 s))) ∧
  (∀ (s : State) (r : GReg) (c : BitVec 9), c.toNat ∈ [0, 3, 4, 5, 6, 7, 8, 10] → inHandler s.me = true →
    exec (.csrr r c) s = .next (terminateMine 2 s) ∧ exec (.csrw r c) s = .next (terminateMine 2 s)) ∧
  ((∀ (s : State) (r : GReg) (c : BitVec 9), s.me.priv = false →
    (0x100 ≤ c.toNat → exec (.csrr r c) s = .next (illop (.csrr r c) 0 s) ∧ exec (.csrw r c) s = .next (illop (.csrw r c) 0 s)) ∧
    (c = 0 ∨ c = 4 → exec (.csrw r c) s = .next (illop (.csrw r c) 0 s)) ∧ exec (.eret) s = .next (illop .eret 0 s)) ∧
  (∀ s : State,
    exec .sfpop s = .next (if s.me.priv then { s with me := { s.me with sfq := s.me.sfq.drop 1 } } else s) ∧
    (∀ v : Word, 1 ≤ fld v 0 4 → fld v 0 4 ≤ 4 → exec (.wgterm v) s = .next (if s.me.priv then terminateMine (fld v 0 4) s else s))))

/-- FEAT writes the feature word that g[a] + ImmValue names; words above the table read 0, and YIELD and every hint change nothing but pc and the loops. WFE reads eight bytes at g[a]: a value
other than g[b] goes to g[d]; the same value makes it wait for a write to that line, with no register changed; an address that is no multiple of 8 is illegal, and a fault of the read is taken. A write to
the line wakes the strand, which then reads again (R187, R218, R219, R223, R224; the model's choices of log entries 7, 11, 30 and 74). Completes: feat, yield, hint, wfe, waitForWriteWake. -/
def Obligations.HintsAndWaits : Prop :=
  (∀ s s1 : State,
    (∀ (d a : GReg) (k : BitVec 14) (w : Word), immValue k s = .ok w s1 →
      exec (.feat d a k) s = .next (advance (setG d (featureWord (gR a s1 + w)) s1))) ∧
    featureWord 0 = BitVec.ofNat 64 (1 + Config.siliconStep % 256 * 2 ^ 16) ∧ featureWord 1 = 0x0000010003000D0E ∧ featureWord 2 = 0x00000000070F03FF ∧ featureWord 3 = 0x0000100C08601004 ∧
    featureWord 4 = 0x000000FEA540FA50 ∧ featureWord 5 = 0x00000000FFAA5500 ∧ (∀ k : Word, 6 ≤ k.toNat → featureWord k = 0) ∧
    exec .yield s = .next (advance s) ∧ (∀ op rest, exec (.hint op rest) s = .next (advance s))) ∧
  (∀ (s : State) (d a b : GReg),
    ((gR a s).toNat % 8 ≠ 0 → exec (.wfe d a b) s = .next (illop (.wfe d a b) 0 s)) ∧
    ((gR a s).toNat % 8 = 0 → ∀ w t s1, readHome8 (gR a s) s = .ok (w, t) s1 →
      (w ≠ gR b s1 → ∃ t', exec (.wfe d a b) s = .next t' ∧ (d ≠ 0 → t'.me.g[d] = w) ∧ (∀ r : GReg, r ≠ d → t'.me.g[r] = s1.me.g[r]) ∧ t'.mem = s1.mem ∧
        t'.me.pc = (advance s1).me.pc) ∧
      (w = gR b s1 → ∃ t', exec (.wfe d a b) s = .next t' ∧ t'.me = s1.me ∧ t'.mem = s1.mem ∧
        ∃ x ∈ t'.watches, x.mesh = s1.me.mesh ∧ x.sid = s1.me.sid ∧ x.line = lineLoc (targetLoc t 0) ∧ x.hit = false)) ∧
    ((gR a s).toNat % 8 = 0 → ∀ s1, readHome8 (gR a s) s = .stop s1 → exec (.wfe d a b) s = .next s1) ∧
    ((gR a s).toNat % 8 = 0 → ∀ x s1, translate (reqOf s.me) .load 0 (gR a s) s = (.error x, s1) → exec (.wfe d a b) s = .next (xlate .load (gR a s) x s1)) ∧
    (∀ (l : Loc) (x : Watch), x ∈ (wake l s).watches → x.line = lineLoc l → x.hit = true) ∧
    (∀ mesh sid, exec (.waitForWriteWake mesh sid) s = .next { s with watches := s.watches.filter fun w => !(w.mesh == mesh && w.sid == sid && w.hit) }))

/-- END of a strand with nothing on its way, in the order of its steps: it waits while a tag of its grant is busy, and a pending error of a tag is delivered instead; it merges the FLAGS of every tag that are not
merged, releases the latches it holds, and counts its end and its flags in the completion word, or takes the fault of the word's address, which is ATTRIBUTE for a word beyond a chain port; then the strand has ended, with its planes, landing-buffer slots and
stream slots released and its registers as they were, a shadow write is asked for, and its launch finishes when no strand of it runs (R78, R128, R213, R221, R222; the model's choices of log entries
18, 24, 26, 31 and 74). Completes: endStrand. -/
def Obligations.EndCompletes : Prop :=
  (∀ s : State, Settled s → atLoopEnd s.me = false → let ks := grantTags s.me
    ((∃ k ∈ ks, s.core.tags[k].st = .busy) → exec .endStrand s = .next s) ∧
    ((∀ k ∈ ks, s.core.tags[k].st ≠ .busy) → ∀ k, ks.find? (fun k => errorPending k s) = some k →
      exec .endStrand s = .next (trapHere (engineTrap k s.core.tags[k])
        { s with core := { s.core with tags := s.core.tags.set k { s.core.tags[k] with told := true } } })) ∧
    ((∀ k ∈ ks, s.core.tags[k].st ≠ .busy ∧ (s.core.tags[k].err ≠ 0 → s.core.tags[k].told = true)) → let u := ks.foldl (fun s k => mergeTag k s) s
      (∀ b, b < 12 → (u.me.vflags.getLsbD b = true ↔
        s.me.vflags.getLsbD b = true ∨ (modeFMSK s.me.mode).testBit b = false ∧ ∃ k ∈ ks, s.core.tags[k].merged = false ∧ s.core.tags[k].flags.getLsbD b = true)) ∧
      (∀ k ∈ ks, u.core.tags[k].merged = true) ∧ u = { s with me := { s.me with vflags := u.me.vflags }, core := { s.core with tags := u.core.tags } } ∧
      (∀ s1, releaseHeld (heldLatches s.me) u = .stop s1 → exec .endStrand s = .next s1) ∧
      (∀ s1, releaseHeld (heldLatches s.me) u = .ok () s1 → Settled s1 → let v := acquireCopies unboundOnly 5 s1
        let far : Prop := fld v.me.compl 57 7 = 0 ∧ ∃ e, routeOf v.me.ctx v.me.compl.toNat v = some e
        (far → exec .endStrand s = .next (xlate .atomic v.me.compl ⟨xATTRIBUTE, 0, 0, false⟩ v)) ∧
        (¬far →
        (∀ x s2, translate (reqOf v.me) .atomic 8 v.me.compl v = (.error x, s2) → exec .endStrand s = .next (xlate .atomic v.me.compl x s2)) ∧
        (∀ mesh off s2, translate (reqOf v.me) .atomic 8 v.me.compl v = (.ok (.scratch mesh off), s2) → Settled s2 → s2.me = v.me →
          ∃ t, exec .endStrand s = .next (endStep t) ∧ t.me = v.me ∧ t.launches = s2.launches ∧ SameMemory s2 t) ∧
        (∀ pa m s2, translate (reqOf v.me) .atomic 8 v.me.compl v = (.ok (.mem pa m), s2) → Settled s2 → s2.me = v.me →
          ∀ p, badAt (locsAt (.mem pa m) 8) s2 = some p → exec .endStrand s = .next (trapHere (memoryTrap v.me.compl p) s2)) ∧
        (∀ pa m s2, translate (reqOf v.me) .atomic 8 v.me.compl v = (.ok (.mem pa m), s2) → Settled s2 → s2.me = v.me → badAt (locsAt (.mem pa m) 8) s2 = none →
          ∃ t, exec .endStrand s = .next (endStep t) ∧ t.me = v.me ∧ t.core = s2.core ∧ t.launches = s2.launches ∧
            (∀ k, k < 8 → t.mem.get (pa + k) = ((BitVec.ofNat 64 (natOf (s2.mem.getN pa 8)) ||| v.me.vflags &&& 0xFFF) + 0x100000000).extractLsb' (8 * k) 8) ∧
            SameOutside pa 8 s2 t))))) ∧
  (∀ s : State, s.me.mesh = s.core.mesh → ∃ e : State,
    e = { s with
      me := { s.me with
        life := .ended, maps := Vector.replicate 32 [], sq := Vector.replicate 8 Stream.reset, held := none, sfq := [], stq := [], vwq := [], latches := []
        arrived := false, leave := .none, pwait := none, call := none, doubleFault := false }
      core := { s.core with shRequest := true, tags := e.core.tags } } ∧
    (∀ k : Fin 64, e.core.tags[k] = if k ∈ grantTags s.me then { s.core.tags[k] with slots := [] } else s.core.tags[k]) ∧
    (launchAt s.me.launch e = none → endStep s = e) ∧
    (∀ l, launchAt s.me.launch e = some l →
      (l.st = .placed ∨ l.st = .saving → (∀ t ∈ allStrands e, ¬(t.life = .running ∧ t.launch = s.me.launch)) → endStep s = finishLaunch l e) ∧
      ((l.st ≠ .placed ∧ l.st ≠ .saving ∨ ∃ t ∈ allStrands e, t.life = .running ∧ t.launch = s.me.launch) → endStep s = e)))
/-! ## Vector instructions -/

namespace Sys2Proof.Claims

/-- An integer kept in a kind: brought within its bounds when the instruction saturates, and then modulo 2^w; SAT tells that it was brought within them (R228). -/
def fitted (k : Kind) (sat : Bool) (y : Int) : Nat × Nat :=
  let z := if sat then max (intMin k) (min (intMax k) y) else y
  ((z % 2 ^ k.width).toNat, if z = y then 0 else fSAT)

/-- An integer instruction that is given D, A and the second operand, element by element (R228 to R230, R237). -/
def intLanes (d a : VRegN) (b : Fin 32) (x two c : Bool) (srcs : List (Fin 32 × VReg)) (f : Int → Int → Int → Int) (s : State) : Lanes where
  dest := d
  tag := (vSrc d s).tag
  srcs := srcs
  ok := isInt (vKind (vSrc a s)) && isInt (vKind (vSrc d s)) &&
    (!two || (if x then decide (intMin (vKind (vSrc a s)) ≤ (gR b s).toInt) && decide ((gR b s).toInt ≤ intMax (vKind (vSrc a s))) else isInt (vKind (vSrc b s))))
  act := active s.me
  code k := fitted (vKind (vSrc d s)) c (f (elemInt (vSrc d s) k) (elemInt (vSrc a s) k) (if x then (gR b s).toInt else elemInt (vSrc b s) k))
  scale := scalesOf (vSrc a s) (vSrc d s).tag

/-- The element-wise integer arithmetic of R237. -/
def integerLanes (s : State) : Instr → Option Lanes
  | .vadd d a b x c => some (intLanes d a b x true c (named s (a :: if x then [] else [b])) (fun _ p q => p + q) s)
  | .vsub d a b x c => some (intLanes d a b x true c (named s (a :: if x then [] else [b])) (fun _ p q => p - q) s)
  | .vmul d a b x c => some (intLanes d a b x true c (productSrcs a b x s) (fun _ p q => p * q) s)
  | .vmac d a b x c => some (intLanes d a b x true c (named s [d] ++ productSrcs a b x s) (fun r p q => r + p * q) s)
  | .vneg d a c => some (intLanes d a 0 false false c (named s [a]) (fun _ p _ => -p) s)
  | .vabs d a c => some (intLanes d a 0 false false c (named s [a]) (fun _ p _ => max p (-p)) s)
  | .vmin d a b x c => some (intLanes d a b x true c (named s (a :: if x then [] else [b])) (fun _ p q => min p q) s)
  | .vmax d a b x c => some (intLanes d a b x true c (named s (a :: if x then [] else [b])) (fun _ p q => max p q) s)
  | _ => none

/-- The code of an element brought to `w` planes: sN repeats its sign, every other kind adds zeros (R238). -/
def broad (r : VReg) (w k : Nat) : Nat :=
  match vKind r with
  | .s _ => (elemInt r k % 2 ^ w).toNat
  | q => elem r k % 2 ^ q.width % 2 ^ w

/-- A bitwise instruction (R238). -/
def bitLanes (d a : VRegN) (b : Fin 32) (x : Bool) (srcs : List (Fin 32 × VReg)) (f : Nat → Nat → Nat → Nat) (s : State) : Lanes where
  dest := d
  tag := (vSrc d s).tag
  srcs := srcs
  ok := !x || Sys2Proof.Machine.inRange (vKind (vSrc a s)) (gR b s).toInt
  act := active s.me
  code k :=
    let w := tagWidth (vSrc d s).tag
    (f w (broad (vSrc a s) w k) (if x then (gR b s).toNat % 2 ^ w else broad (vSrc b s) w k) % 2 ^ w, 0)
  scale := scalesOf (vSrc a s) (vSrc d s).tag

/-- Bitwise instructions, selection, moves, counts, narrowing and code-table lookups (R238, R240, R242, R243, R245, R266). -/
def codeLanes (s : State) : Instr → Option Lanes
  | .vand d a b x => some (bitLanes d a b x (named s (a :: if x then [] else [b])) (fun _ p q => p &&& q) s)
  | .vor d a b x => some (bitLanes d a b x (named s (a :: if x then [] else [b])) (fun _ p q => p ||| q) s)
  | .vxor d a b x => some (bitLanes d a b x (named s (a :: if x then [] else [b])) (fun _ p q => p ^^^ q) s)
  | .vnot d a => some (bitLanes d a a false (named s [a]) (fun w p _ => 2 ^ w - 1 - p) s)
  | .vsel d a b c => some ⟨d, (vSrc a s).tag, named s [a, b], (vSrc a s).tag == (vSrc b s).tag, active s.me,
      fun k => (if s.me.m[c].getLsbD k then elem (vSrc a s) k else elem (vSrc b s) k, 0), scaleByte (vSrc a s).scale⟩
  | .vmv d a => some ⟨d, (vSrc a s).tag, named s [a], true, active s.me, fun k => (elem (vSrc a s) k, 0), scaleByte (vSrc a s).scale⟩
  | .vmvScalar d b c => some ⟨d, (vSrc d s).tag, [], isInt (vKind (vSrc d s)) && blockLen (vSrc d s).tag == 0, active s.me,
      fun _ => fitted (vKind (vSrc d s)) c (gR b s).toInt, fun _ => 0x7F⟩
  | .vpopc d a => some ⟨d, (vSrc d s).tag, named s [a], isInt (vKind (vSrc d s)), active s.me,
      fun k => fitted (vKind (vSrc d s)) false ((List.range (tagWidth (vSrc a s).tag)).countP fun j => (elem (vSrc a s) k).testBit j),
      scalesOf (vSrc a s) (vSrc d s).tag⟩
  | .vnarrow d a n => some ⟨d, (vSrc d s).tag, named s [a], isInt (vKind (vSrc a s)) && isInt (vKind (vSrc d s)), active s.me,
      fun k => encodeVal (vKind (vSrc d s)) (roundingOf s.me) k (.fin (elemInt (vSrc a s) k) (2 ^ n.1) false), scalesOf (vSrc a s) (vSrc d s).tag⟩
  | .clook d a p => some ⟨d, s.core.tables[p].kind, named s [a], !tagIllegal s.core.tables[p].kind && blockLen (vSrc a s).tag == 0 && (match vKind (vSrc a s) with | .n w => decide (w ≤ 8) | _ => false),
      active s.me, fun k => ((s.core.tables[p].entries.toList.getD (elem (vSrc a s) k % 256) 0).toNat, 0), fun _ => 0x7F⟩
  | _ => none

/-- A floating instruction of the Word Unit on unblocked float registers: the value and flags of each element, encoded under MODE (R254 to R256). -/
def fltLanes (d a : VRegN) (ok : Bool) (srcs : List (Fin 32 × VReg)) (f : Nat → XVal × Nat) (s : State) : Lanes where
  dest := d
  tag := (vSrc d s).tag
  srcs := srcs
  ok := floatReg (vSrc a s) && floatReg (vSrc d s) && ok
  act := active s.me
  code k :=
    let e := encodeVal (vKind (vSrc d s)) (roundingOf s.me) k (f k).1
    (e.1, e.2 ||| (f k).2)
  scale _ := 0x7F

/-- Floating arithmetic and conversion, and quantisation (R257 to R259, R264). -/
def floatLanes (s : State) : Instr → Option Lanes
  | .vfadd d a b x n => some (fltLanes d a (x || floatReg (vSrc b s)) (named s (a :: if x then [] else [b])) (fun k =>
      let y := fSecond x b s k
      addVal (roundingOf s.me).rm (valOf (vSrc a s) k) (if n then y.negate else y)) s)
  | .vfmul d a b x => some (fltLanes d a (x || floatReg (vSrc b s)) (named s (a :: if x then [] else [b])) (fun k => mulVal (valOf (vSrc a s) k) (fSecond x b s k)) s)
  | .vfma d a b x n => some (fltLanes d a (x || floatReg (vSrc b s)) (named s (d :: a :: if x then [] else [b])) (fun k =>
      let p := mulVal (valOf (vSrc a s) k) (fSecond x b s k)
      let r := addVal (roundingOf s.me).rm (valOf (vSrc d s) k) (if n then p.1.negate else p.1)
      (r.1, p.2 ||| r.2)) s)
  | .vfmax d a b x m => some (fltLanes d a (x || floatReg (vSrc b s)) (named s (a :: if x then [] else [b])) (fun k =>
      let p := valOf (vSrc a s) k
      let q := fSecond x b s k
      (if m then maxVal p.abs q.abs else maxVal p q, 0)) s)
  | .vfexp2 d a => some (fltLanes d a true (named s [a]) (fun k => let y := exp2Fp (valOf (vSrc a s) k); (decodeCode .fp32 y.1, y.2)) s)
  | .vfrcp d a => some (fltLanes d a true (named s [a]) (fun k => let y := rcpFp (valOf (vSrc a s) k); (decodeCode .fp32 y.1, y.2)) s)
  | .vfrsq d a => some (fltLanes d a true (named s [a]) (fun k => let y := rsqFp (valOf (vSrc a s) k); (decodeCode .fp32 y.1, y.2)) s)
  | .vfcvt d a => some ⟨d, (vSrc d s).tag, named s [a], true, active s.me, convertInto (vSrc a s) (vSrc d s) false s, convertScale (vSrc a s) (vSrc d s) s⟩
  | .quant d a p t q => some ⟨d, (vSrc d s).tag, named s [a],
      quantDest t (vSrc d s) && (t || blockLen (vSrc d s).tag == 0 || q == 0) && (!t || s.core.tables[p].kind == 0x0080), active s.me,
      fun k =>
        if t then encodeTable s.core.tables[p] (tagWidth (vSrc d s).tag) (roundingOf s.me) (quotient (valOf (vSrc a s) k) s.core.scales[q].scale)
        else if blockLen (vSrc d s).tag = 0 then quantElem (vKind (vSrc d s)) s.core.scales[q] (roundingOf s.me) k (valOf (vSrc a s) k)
        else convertInto (vSrc a s) (vSrc d s) true s k,
      convertScale (vSrc a s) (vSrc d s) s⟩
  | _ => none

/-- The element that a slide by `n` places reads for element `k`, if it lies below VL (R250). -/
def slid (up : Bool) (n vl k : Nat) : Option Nat :=
  if up then (if n ≤ k ∧ k - n < vl then some (k - n) else none) else if k + n < vl then some (k + n) else none

/-- A slide (R250). -/
def slideLanes (up : Bool) (d a : VRegN) (b : GReg) (s : State) : Lanes :=
  let n := (gR b s).toNat
  let l := blockLen (vSrc a s).tag
  { dest := d, tag := (vSrc a s).tag, srcs := named s [a], ok := l == 0 || n % l == 0, act := active s.me
    code := fun k => (((slid up n s.me.vl k).map (elem (vSrc a s))).getD 0, 0)
    scale := fun k => ((slid up (n / l) (ceilDiv s.me.vl l) k).map (scaleByte (vSrc a s).scale)).getD 0x7F }

/-- The active elements below VL. -/
def actives (s : State) : List Nat := (List.range s.me.vl).filter (active s.me)

/-- Scans, rearrangements and counts of the whole register, with the elements that they read (R248 to R251); VCOMPRESS and VEXPAND give every element below VL a value. -/
def wholeLanes (s : State) : Instr → Option (Lanes × List Nat)
  | .vscan d a c x => some (⟨d, (vSrc d s).tag, named s [a], isInt (vKind (vSrc a s)) && isInt (vKind (vSrc d s)), active s.me,
      fun k => fitted (vKind (vSrc d s)) c ((((List.range (if x then k else k + 1)).filter (active s.me)).map (elemInt (vSrc a s))).foldl (· + ·) 0),
      scalesOf (vSrc a s) (vSrc d s).tag⟩, actives s)
  | .vcompress d a c => some (⟨d, (vSrc a s).tag, named s [a], blockLen (vSrc a s).tag == 0, fun _ => true,
      fun k => ((((List.range s.me.vl).filter s.me.m[c].getLsbD).map (elem (vSrc a s))).getD k 0, 0), fun _ => 0x7F⟩, (List.range s.me.vl).filter s.me.m[c].getLsbD)
  | .vexpand d a c => some (⟨d, (vSrc a s).tag, named s [a], blockLen (vSrc a s).tag == 0, fun _ => true,
      fun k => (if s.me.m[c].getLsbD k then elem (vSrc a s) ((List.range k).countP s.me.m[c].getLsbD) else 0, 0), fun _ => 0x7F⟩,
      List.range ((List.range s.me.vl).countP s.me.m[c].getLsbD))
  | .vslideDn d a b => some (slideLanes false d a b s, (actives s).filterMap (slid false (gR b s).toNat s.me.vl))
  | .vslideUp d a b => some (slideLanes true d a b s, (actives s).filterMap (slid true (gR b s).toNat s.me.vl))
  | .viota d c => some (⟨d, (vSrc d s).tag, [], isInt (vKind (vSrc d s)) && blockLen (vSrc d s).tag == 0, active s.me,
      fun k => fitted (vKind (vSrc d s)) false ((List.range k).countP s.me.m[c].getLsbD), fun _ => 0x7F⟩, [])
  | .viotaIdx d => some (⟨d, (vSrc d s).tag, [], isInt (vKind (vSrc d s)) && blockLen (vSrc d s).tag == 0, active s.me,
      fun k => fitted (vKind (vSrc d s)) false k, fun _ => 0x7F⟩, [])
  | _ => none

/-- The plane of a source that plane `b` of a shift by `n` places shows; none where it shows zeros (R234, R239). -/
def shownPlane (r : VReg) (n : Int) (b : Nat) : Option Nat :=
  if (b : Int) < n then none
  else if (b : Int) - n < tagWidth r.tag then some ((b : Int) - n).toNat
  else match vKind r with | .s _ => some (tagWidth r.tag - 1) | _ => none

/-- A plane of the pool that no mapping of the core's strands holds and none waits to return. -/
def FreePlane (p : Nat) (s : State) : Prop := p < 768 ∧ (∀ t ∈ s.me :: s.core.strands, p ∉ usedPlanes t) ∧ ∀ f ∈ s.core.window, p ∉ f.frees

/-- The relations of VCMP (R241). -/
def relation (c : Fin 6) (p q : Int) : Bool := [decide (p = q), decide (p ≠ q), decide (p < q), decide (p ≤ q), decide (p > q), decide (p ≥ q)].getD c false

/-- The instructions on mask registers, which no guard touches: the destination and its bits (R244). -/
def maskResult (s : State) : Instr → Option (MReg × (Nat → Bool))
  | .mand d a b => some (d, fun k => s.me.m[a].getLsbD k && s.me.m[b].getLsbD k)
  | .mor d a b => some (d, fun k => s.me.m[a].getLsbD k || s.me.m[b].getLsbD k)
  | .mxor d a b => some (d, fun k => s.me.m[a].getLsbD k ^^ s.me.m[b].getLsbD k)
  | .mnot d a => some (d, fun k => !s.me.m[a].getLsbD k)
  | _ => none

/-- The reductions of R247 over the codes of a kind. -/
def reduction (o : Fin 6) (k : Kind) (cs : List Nat) : Int :=
  let xs := cs.map (intOf k)
  let signed (c : Nat) : Int := match k with | .s w => signExtend c w | _ => c
  [xs.sum, xs.foldl min (intMax k), xs.foldl max (intMin k), signed (cs.foldl (· &&& ·) (2 ^ k.width - 1)), signed (cs.foldl (· ||| ·) 0),
    signed (cs.foldl (· ^^^ ·) 0)].getD o 0

/-- The whole instructions that give a general register a value: whether their operands are legal, their sources, the register and the value (R244, R246, R247). -/
def wholeResult (s : State) : Instr → Option (Bool × List (Fin 32 × VReg) × GReg × Word)
  | .vdot d a b => some (isInt (vKind (vSrc a s)) && isInt (vKind (vSrc b s)), productSrcs a b false s, d,
      BitVec.ofInt 64 (((actives s).map fun k => elemInt (vSrc a s) k * elemInt (vSrc b s) k).sum))
  | .vred d a o => some (isInt (vKind (vSrc a s)) || decide (3 ≤ o.1), named s [a], d,
      BitVec.ofInt 64 (reduction o (vKind (vSrc a s)) ((actives s).map (elem (vSrc a s)))))
  | .mpopc d a => some (true, [], d, BitVec.ofNat 64 ((List.range s.me.vl).countP s.me.m[a].getLsbD))
  | .mfirst d a => some (true, [], d, match (List.range s.me.vl).find? s.me.m[a].getLsbD with | some k => BitVec.ofNat 64 k | none => BitVec.allOnes 64)
  | _ => none

end Sys2Proof.Claims

/-- Each element-wise integer instruction completes, from SIX on, with the exact result of every active element, saturated or modulo 2^w; it goes on at the SIX of an earlier part with the mapping that is
held. Illegal operands or no room in the budget make it an illegal operation, and without room in the plane pool it waits; a poisoned element that it consumes is its POISON trap (R45, R47, R171, R172,
R173, R228 to R230, R237, R340, R344, R345; the model's choice of log entry 81). Completes: vadd, vsub, vmul, vmac, vneg, vabs, vmin, vmax. -/
def Obligations.VectorIntegerResults : Prop := ∀ (i : Instr) (l : Lanes) (s : State), integerLanes s i = some l → Begun s → l.Runs i s

/-- Each bitwise, selecting, moving, counting and narrowing instruction, and CLOOK, completes, from SIX on, with the code of every active element; a scalar operand of VAND, VOR or VXOR outside the range
of va's kind is illegal, and a poisoned element that it consumes is its POISON trap (R228, R238, R240, R242, R243, R245, R266, R340, R345; the model's choices of log entries 81 and 111).
Completes: vand, vor, vxor, vnot, vsel, vmv, vmvScalar, vpopc, vnarrow, clook. -/
def Obligations.VectorCodeResults : Prop := ∀ (i : Instr) (l : Lanes) (s : State), codeLanes s i = some l → Begun s → l.Runs i s

/-- Each floating instruction of the Word Unit, VFCVT and QUANT completes, from SIX on, with every active element encoded under MODE and the flags of the elements, and a poisoned element that it consumes is
its POISON trap (R254 to R259, R264, R340, R345); which of two ties and NaNs, whose
sign, and which code of a degenerate channel the encodings give are the model's choices of log entries 12, 21, 22 and 83, and that an instruction waits for planes is that of log entry 81, that QUANT takes any unused field that of log entry 110.
Completes: vfadd, vfmul, vfma, vfmax, vfexp2, vfrcp, vfrsq, vfcvt, quant. -/
def Obligations.VectorFloatResults : Prop := ∀ (i : Instr) (l : Lanes) (s : State), floatLanes s i = some l → Begun s → l.Runs i s

/-- VSCAN, VCOMPRESS, VEXPAND, VSLIDE, VIOTA and VIOTA.IDX complete with the running sums, the chosen, spread or moved elements, and the counts; the first poisoned element of those that they read is their
POISON trap, and they then write nothing (R248 to R251, R345; the model's choice of log entry 81).
Completes: vscan, vcompress, vexpand, vslideDn, vslideUp, viota, viotaIdx. -/
def Obligations.WholeRegisterResults : Prop :=
  ∀ (i : Instr) (l : Lanes) (es : List Nat) (s : State), wholeLanes s i = some (l, es) → Fresh s → l.RunsWhole es i s

/-- VSHL, VSHR and VWIDEN: with the guard off and no saturation every element of the register, above VL too, is the shifted one modulo 2^w, in a mapping of the source's planes and of as many new planes of the
pool as the renumbering needs, for which it waits; the planes carry their poison, and the scale bytes are the source's where the block lengths agree. From a SIX above 0 the elements below it stay. Under a guard
or with saturation they work element by element. Operands of another kind and a budget without room are illegal (R171, R172, R229, R234, R239, R240, R344, R345; the model's choices of log
entries 59 and 81). Completes: vshl, vshr, vwiden. -/
def Obligations.VectorShifts : Prop :=
  ∀ (i : Instr) (d a : VRegN) (c : Bool) (n : Int) (f : Int → Int) (fit_ : Bool) (s : State), Begun s →
    ((∃ k, i = .vshl d a c k ∧ n = k.1 ∧ f = (fun x => x * 2 ^ k.1) ∧ fit_ = true) ∨ (∃ k, i = .vshr d a k ∧ c = false ∧ n = -(k.1 : Int) ∧ f = (fun x => x / 2 ^ k.1) ∧ fit_ = true) ∨
      (i = .vwiden d a ∧ c = false ∧ n = 0 ∧ f = id ∧ fit_ = widens (vKind (vSrc a s)) (vKind (vSrc d s)))) →
    let va := vSrc a s
    let tag := (vSrc d s).tag
    let legal := isInt (vKind va) = true ∧ isInt (vKind (vSrc d s)) = true ∧ fit_ = true ∧ budgetOk s.me d tag = true
    let plain := modeGON s.me.mode = false ∧ c = false
    let kept (b : Nat) : Option Nat := if b < tagWidth tag then (shownPlane va n b).bind fun p => (s.me.maps[a])[p]? else none
    let new := (List.range (planeNeed tag)).filter fun b => (kept b).isNone
    let values (from_ : Nat) (r : VReg) : Prop := r.tag = tag ∧ r.planes.length = tagWidth tag ∧ (blockLen tag = 0 → r.scale = 0) ∧
      (∀ k, from_ ≤ k → k < vlmax → elem r k = (f (elemInt va k) % 2 ^ tagWidth tag).toNat) ∧
      (∀ j, j < vlmax / blockLen tag → from_ < (j + 1) * blockLen tag → scaleByte r.scale j =
        if j * blockLen tag < s.me.vl ∧ blockLen va.tag = blockLen tag then scaleByte va.scale j else 0x7F)
    (¬legal → exec i s = .next (illop i 0 s)) ∧
    (legal → plain → s.me.six = 0 → s.me.held = none →
      (planesLeft s < new.length → exec i s = .next s) ∧
      (new.length ≤ planesLeft s → ∃ (r : VReg) (planes : List Nat) (dirty : Vector (BitVec 928) 3),
        exec i s = .next (retire (onMe (putV d r) { s with me := { s.me with maps := s.me.maps.set d planes }, core := { s.core with dirty := dirty } })) ∧ values 0 r ∧ r.writers = va.writers ∧
        (∀ b g, (∃ m ∈ r.poison, m.plane = b ∧ m.seg = g) ↔ b < tagWidth tag ∧ ∃ p, shownPlane va n b = some p ∧ ∃ m ∈ va.poison, m.plane = p ∧ m.seg = g) ∧
        planes.length = planeNeed tag ∧ (∀ b p, kept b = some p → planes[b]? = some p) ∧ (∀ b ∈ new, ∃ p, planes[b]? = some p ∧ FreePlane p s) ∧
        (∀ b ∈ new, ∀ e ∈ new, planes[b]? = planes[e]? → b = e) ∧
        (∀ (e : Fin 3) (j : Nat), j < 928 → (dirty[e]).getLsbD j = ((s.core.dirty[e]).getLsbD j || new.any fun b => planes[b]?.any fun p => p / 2 == j)))) ∧
    (legal → plain → s.me.six ≠ 0 →
      (roomFor d tag s = false → exec i s = .next s) ∧
      (roomFor d tag s = true → ∃ r : VReg, exec i s = .next (retire (onMe (putV d r) (mapTo d tag s))) ∧ values s.me.six r ∧
        (∀ k, k < s.me.six → elem r k = elem s.me.v[d] k % 2 ^ tagWidth tag) ∧
        (∀ j, j < vlmax / blockLen tag → (j + 1) * blockLen tag ≤ s.me.six → scaleByte r.scale j = scaleByte (s.me.v[d]).scale j))) ∧
    (legal → ¬plain → Lanes.Runs ⟨d, tag, named s [a], true, active s.me, fun k => fitted (vKind (vSrc d s)) c (f (elemInt va k)), scalesOf va tag⟩ i s)

/-- VCMP gives each active element's bit, from SIX on, its relation and keeps the others, and illegal operands make it an illegal operation; the mask instructions, without the guard, give the bits of their
operation; bits from VL on are cleared. The first poisoned active element of VCMP's sources is its POISON trap, and the bits of its group and those above it stay (R228, R230, R241, R244, R345).
Completes: vcmp, mand, mor, mxor, mnot. -/
def Obligations.MaskResults : Prop :=
  ∀ s : State, Begun s →
    (∀ (d : MReg) (a : VRegN) (b : Fin 32) (x : Bool) (c : Fin 6),
      let srcs := named s (a :: if x then [] else [b])
      let legal := isInt (vKind (vSrc a s)) = true ∧ (x = true → intMin (vKind (vSrc a s)) ≤ (gR b s).toInt ∧ (gR b s).toInt ≤ intMax (vKind (vSrc a s))) ∧
        (x = false → isInt (vKind (vSrc b s)) = true)
      let bit (k : Nat) : Bool := if active s.me k then relation c (elemInt (vSrc a s) k) (if x then (gR b s).toInt else elemInt (vSrc b s) k) else s.me.m[d].getLsbD k
      (¬legal → exec (.vcmp d a b x c) s = .next (illop (.vcmp d a b x c) 0 s)) ∧
      (legal → NoPoison srcs (toDo (active s.me) s) → ∃ t, exec (.vcmp d a b x c) s = .next t ∧ GivesMask d bit s t) ∧
      (legal → ∀ e r m, FirstPoison srcs (toDo (active s.me) s) e r m → let n := groupStart s e
        ∃ t, exec (.vcmp d a b x c) s = .next t ∧ PoisonTrap 0 r.1 e m.producer n s t ∧ t = { s with me := t.me } ∧ t.me.v = s.me.v ∧ (∀ q : MReg, q ≠ d → t.me.m[q] = s.me.m[q]) ∧
          ∀ k, k < vlmax → (t.me.m[d]).getLsbD k = if s.me.six ≤ k ∧ k < n then bit k else s.me.m[d].getLsbD k)) ∧
    (∀ (i : Instr) (d : MReg) (f : Nat → Bool), maskResult s i = some (d, f) → ∃ t, exec i s = .next t ∧ GivesMask d f s t)

/-- VDOT, VRED, MPOPC and MFIRST give a general register the value of the active elements or of the mask and change nothing beside it; a VDOT of 32 plane-pair steps or more
first asks leave and waits for it; the first poisoned active element that VDOT or VRED consumes is its POISON trap, with nothing written (R244, R246, R247, R284, R345). Completes: vdot, vred, mpopc,
mfirst. -/
def Obligations.ReductionResults : Prop :=
  ∀ (i : Instr) (ok : Bool) (srcs : List (Fin 32 × VReg)) (d : GReg) (w : Word) (s : State), wholeResult s i = some (ok, srcs, d, w) → Fresh s →
    let heavy : Prop := ∃ (d : GReg) (a b : VRegN), i = .vdot d a b ∧ 32 ≤ tagWidth (vSrc a s).tag * tagWidth (vSrc b s).tag
    let traps : Prop := ∀ e r m, FirstPoison srcs (actives s) e r m → ∃ t, exec i s = .next t ∧ PoisonTrap 0 r.1 e m.producer 0 s t ∧ Unwritten s t
    (ok = false → exec i s = .next (illop i 0 s)) ∧
    (ok = true → ¬heavy → (NoPoison srcs (actives s) → exec i s = .next (retire (setG d w s))) ∧ traps) ∧
    (ok = true → heavy →
      (∀ k, s.me.leave = .granted k → (NoPoison srcs (actives s) → exec i s = .next (retire (setG d w { s with me := { s.me with leave := .none } }))) ∧ traps) ∧
      (∀ n c k, s.me.leave = .asked n c k → exec i s = .next s) ∧
      (s.me.leave = .none → ∃ n c, exec i s = .next { s with me := { s.me with leave := .asked n c false } }))
/-! ## Scalar memory instructions -/

namespace Sys2Proof.Claims

/-- The `n` bytes of memory from an address, little-endian (R6). -/
def wordAt (s : State) (pa n : Nat) : Nat := natOf (s.mem.getN pa n)

/-- The loads of R294 into a general register: its number, the address operands, how many bytes, and what becomes of their value. -/
def loadOf : Instr → Option (GReg × GReg × BitVec 14 × Nat × (Word → Word))
  | .ldB d a k => some (d, a, k, 1, fun w => (w.extractLsb' 0 8).signExtend 64)
  | .ldBu d a k => some (d, a, k, 1, id)
  | .ldH d a k => some (d, a, k, 2, fun w => (w.extractLsb' 0 16).signExtend 64)
  | .ldHu d a k => some (d, a, k, 2, id)
  | .ldW d a k => some (d, a, k, 4, fun w => (w.extractLsb' 0 32).signExtend 64)
  | .ldWu d a k => some (d, a, k, 4, id)
  | .ldD d a k => some (d, a, k, 8, id)
  | _ => none

/-- The stores of R294: the data, how many bytes of it, the address operands, and whether it is ST.F. -/
def storeOf (s : State) : Instr → Option (Word × Nat × GReg × BitVec 14 × Bool)
  | .stB d a k => some (gR d s, 1, a, k, false)
  | .stH d a k => some (gR d s, 2, a, k, false)
  | .stW d a k => some (gR d s, 4, a, k, false)
  | .stD d a k => some (gR d s, 8, a, k, false)
  | .stF d a k => some ((s.me.f[d]).setWidth 64, 4, a, k, true)
  | _ => none

/-- The copies of an L1 after a write performed at a core that it serves: the bytes that the write touches are merged, and nothing else of a copy changes (R102). -/
def Patched (bs : List ByteWrite) (xs ys : List L1Copy) : Prop :=
  ys.length = xs.length ∧ ∀ (j : Nat) (c : L1Copy), xs[j]? = some c → ∃ d, ys[j]? = some { c with data := d } ∧ d.length = c.data.length ∧
    ∀ (k : Nat) (v : BitVec 8), k < 64 → c.data[k]? = some v →
      (∀ b ∈ bs, b.loc = .mem (c.line * 64 + k) → d[k]? = some ((v &&& ~~~b.mask) ||| (b.val &&& b.mask))) ∧ ((∀ b ∈ bs, b.loc ≠ .mem (c.line * 64 + k)) → d[k]? = some v)

/-- The bytes of a write whose lines the L1 of core `h` holds for core `m`. -/
def heldBy (m h : Nat) (s : State) (bs : List ByteWrite) : List ByteWrite :=
  bs.filter fun b => match b.loc with | .mem pa => copyHolder m (pa / 64) s == h | .scratch _ _ => false

/-- A write performed at the strand's core through leaves of type WB: it leaves for its home, and the copies that serve the core take it. -/
def AtCore (w : Write) (s t : State) : Prop :=
  t.me = s.me ∧ t.mem = s.mem ∧ t.core.out = s.core.out ++ [w] ∧ ∀ h, Patched (heldBy s.me.mesh h s w.bytes) (coreAt h s).copies (coreAt h t).copies

/-- An acquire of a latch has been made: of the copies in the L1s that serve the strand's core, those of lines bound to the latch are gone, and with no binding of the latch in force those of unbound lines;
at scope CORE they all stay, and so do those of the other L1s (R105, R109, R113). -/
def Acquired (latch : Word) (s t : State) : Prop :=
  let bs := bindingsOf s.me s
  let own := bs.find? fun b => BitVec.ofNat 64 b.latch == latch
  let goes (x : L1Copy) : Bool := match bindingAt bs (x.vline * 64) with
    | some b => BitVec.ofNat 64 b.latch == latch
    | none => own.isNone
  ∀ h, (coreAt h t).copies =
    if own.any (fun b => b.scope == 0) = true ∨ h ∉ l1Cores s.me.mesh s then (coreAt h s).copies else (coreAt h s).copies.filter fun x => !goes x

/-- No copy of a line that a WB access would read, in a core that serves itself. -/
def Uncopied (m : MemType) (pa : Nat) (s : State) : Prop := m = .wb → copyOf s.me.mesh (pa / 64) s = none ∧ s.core.fused = false

/-- The strand's instruction has sent an access to another package, and nothing else is on its way there (R382). -/
def called (m : RemoteMsg) (s : State) : State := { s with me := { s.me with call := some m.id }, remote := [m] }

/-- The AMO instructions: destination, address, operand, size, scope, and the new value from the old one, the operand and the expected value, each in so many bytes (R295). -/
def amoOf : Instr → Option (GReg × GReg × GReg × Nat × Nat × (Nat → Nat → Nat → Nat))
  | .amoAdd d a b w c => let n := if w then 4 else 8; some (d, a, b, n, c.1, fun o x _ => (o + x) % 2 ^ (8 * n))
  | .amoMin d a b u w c => let n := if w then 4 else 8; some (d, a, b, n, c.1, fun o x _ =>
      if u then min o x else if signExtend x (8 * n) < signExtend o (8 * n) then x else o)
  | .amoMax d a b u w c => let n := if w then 4 else 8; some (d, a, b, n, c.1, fun o x _ =>
      if u then max o x else if signExtend o (8 * n) < signExtend x (8 * n) then x else o)
  | .amoAnd d a b w c => some (d, a, b, if w then 4 else 8, c.1, fun o x _ => o &&& x)
  | .amoOr d a b w c => some (d, a, b, if w then 4 else 8, c.1, fun o x _ => o ||| x)
  | .amoXor d a b w c => some (d, a, b, if w then 4 else 8, c.1, fun o x _ => o ^^^ x)
  | .amoSwp d a b w c => some (d, a, b, if w then 4 else 8, c.1, fun _ x _ => x)
  | .amoCas d a b w c => some (d, a, b, if w then 4 else 8, c.1, fun o x e => if o = e then x else o)
  | _ => none

end Sys2Proof.Claims

/-- A scalar load of an aligned address that translates to memory, with nothing of the strand on its way and no copy of the line, gives its register the little-endian value of the
bytes at the home and changes no memory; data in error trap with the address; a translation fault is taken at the address; in every other case the load completes with what its access answers (R103,
R292, R294, R335, R336; the model's choices of log entries 40 and 74). Completes: ldB, ldBu, ldH, ldHu, ldW, ldWu, ldD, ldF. -/
def Obligations.ScalarLoads : Prop :=
  ∀ (s s1 : State) (a : GReg) (k : BitVec 14) (w : Word), immValue k s = .ok w s1 →
    let va := gR a s1 + w
    (∀ (i : Instr) (d : GReg) (n : Nat) (f : Word → Word), loadOf i = some (d, a, k, n, f) →
      (va.toNat % n = 0 → ∀ pa m s2, translate (reqOf s1.me) .load n va s1 = (.ok (.mem pa m), s2) → m ≠ .ctl → Settled s2 → Uncopied m pa s2 →
        (∀ p, badAt (memLocs pa n) s2 = some p → exec i s = .next (trapHere (memoryTrap va p) s2)) ∧
        (badAt (memLocs pa n) s2 = none → ∃ t, exec i s = .next (advance (setG d (f (BitVec.ofNat 64 (wordAt s2 pa n))) t)) ∧ t.me = s2.me ∧ t.mem = s2.mem)) ∧
      (va.toNat % n = 0 → ∀ x s2, translate (reqOf s1.me) .load n va s1 = (.error x, s2) → exec i s = .next (xlate .load va x s2)) ∧
      (∀ x s2, loadValue false n va s1 = .ok x s2 → exec i s = .next (advance (setG d (f x) s2))) ∧
      (∀ s2, loadValue false n va s1 = .stop s2 → exec i s = .next s2)) ∧
    (∀ d : FReg,
      (va.toNat % 4 = 0 → ∀ pa m s2, translate (reqOf s1.me) .load 0 va s1 = (.ok (.mem pa m), s2) → m ≠ .ctl → Settled s2 → Uncopied m pa s2 → badAt (memLocs pa 4) s2 = none →
        ∃ t, exec (.ldF d a k) s = .next (advance (setF d (BitVec.ofNat 32 (wordAt s2 pa 4)) t)) ∧ t.me = s2.me ∧ t.mem = s2.mem) ∧
      (∀ x s2, loadValue true 4 va s1 = .ok x s2 → exec (.ldF d a k) s = .next (advance (setF d (x.setWidth 32) s2))) ∧
      (∀ s2, loadValue true 4 va s1 = .stop s2 → exec (.ldF d a k) s = .next s2))

/-- A scalar store is committed without a translation: it enters the store queue with its address, size, data, pc, mode and the binding of each byte, and the next instruction follows; a full queue
of 16 first translates its oldest store, and the store waits while the queue stays full. No register changes, and no memory while the queue has room (R113, R292, R294, R334, R341). Completes: stB, stH,
stW, stD, stF. -/
def Obligations.ScalarStores : Prop :=
  ∀ (i : Instr) (data : Word) (n : Nat) (a : GReg) (k : BitVec 14) (fl : Bool) (s s1 : State) (w : Word), storeOf s i = some (data, n, a, k, fl) →
    immValue k s = .ok w s1 →
    let va := gR a s1 + w
    let q (t : State) : QStore := ⟨va, n, data, t.me.pc, t.me.priv, (List.range n).map fun j => latchFor t.me (va + BitVec.ofNat 64 j) t, fl, inHandler t.me, false⟩
    let queued (t : State) : State := advance { t with me := { t.me with stq := t.me.stq ++ [q t] } }
    (s1.me.stq.length < 16 → exec i s = .next (queued s1)) ∧
    (16 ≤ s1.me.stq.length → (translateStore s1).me.stq.length < 16 → exec i s = .next (queued (translateStore s1))) ∧
    (16 ≤ s1.me.stq.length → 16 ≤ (translateStore s1).me.stq.length → exec i s = .next (translateStore s1))

/-- The oldest store of the queue is translated, unless 16 records wait: one that shares a byte with an older store that was recorded is recorded as deferred; one whose address does not translate is recorded
with its sub-cause, with the younger stores of the queue that share a byte with it to be deferred, and is a double fault when the handler that runs made it; one that leads to memory is performed at the
core, on its way to its home, where it changes the copies that serve the core if its leaf is WB, a misaligned one as separate bytes; one that leads to scratch is performed there, one through a CTL leaf
writes its register or its bytes at once, and one that leads to another package is sent there. A write that has left its core is performed at its home at one instant, if no earlier one of its strand and path shares a bit with it: its bytes merge into memory and no other byte
changes; a vector write of the strand is performed at its core likewise, with the copies that serve it, or by a slice. The event of another strand does to it what it does to the
strand at hand (R80, R100 to R102, R104, R137, R334, R339, R341, R342, R382; the model's choices of log entries 28, 94 and 96; that a slice's write leaves the copies of its core as they are is that of log entry 70). Completes: storeQueueTranslate, accessPerform. -/
def Obligations.WritesOnTheirWay : Prop :=
  (∀ (s : State) (q : QStore) (rest : List QStore), s.me.stq = q :: rest → s.wellKept → q.latches.length = q.size → 0 < q.size →
    let s0 : State := { s with me := { s.me with stq := rest } }
    let rq : Req := { reqOf s.me with priv := q.priv }
    let meets (r : SfRec) : Prop := r.w0.getLsbD 15 = false ∧ q.va.toNat < r.w1.toNat + fld r.w0 8 4 ∧ r.w1.toNat < q.va.toNat + q.size
    let record (t : State) (k : Nat) : State := { t with me := { t.me with
      sfq := t.me.sfq ++ [⟨BitVec.ofNat 64 (k + q.size * 2 ^ 8), q.va, BitVec.ofNat 64 (q.data.toNat % 2 ^ (8 * q.size)), q.pc⟩] } }
    let fault (t : State) (k : Nat) : State := let u := record t k
      { u with me := { u.me with
        doubleFault := t.me.doubleFault || (q.ih && inHandler t.me)
        stq := t.me.stq.map fun x => { x with defer := x.defer || (decide (x.va.toNat < q.va.toNat + q.size) && decide (q.va.toNat < x.va.toNat + x.size)) } } }
    let byte (pa k : Nat) : ByteWrite := ⟨.mem pa, q.data.extractLsb' (8 * k) 8, 0xFF, q.latches.getD k none⟩
    let sent (t : State) (ws : List (List ByteWrite)) : State :=
      { t with core := { t.core with out := t.core.out ++ ws.map fun bs => ⟨t.me.sid, .scalar, t.me.ctx, false, bs, false⟩ } }
    exec (.storeQueueTranslate s.me.mesh s.me.sid) s = .next (translateStore s) ∧
    (16 ≤ s.me.sfq.length → translateStore s = s) ∧
    (s.me.sfq.length < 16 → (q.defer = true ∨ ∃ r ∈ s.me.sfq, meets r) → translateStore s = record s0 (2 ^ 15)) ∧
    (s.me.sfq.length < 16 → q.defer = false → (∀ r ∈ s.me.sfq, ¬meets r) →
      (q.va.toNat % q.size = 0 →
        (∀ x s1, translate rq .store (if q.float then 0 else q.size) q.va s0 = (.error x, s1) → translateStore s = fault s1 x.sub) ∧
        (∀ pa s1, translate rq .store (if q.float then 0 else q.size) q.va s0 = (.ok (.mem pa .nc), s1) → s1.wellKept →
          translateStore s = sent s1 [(List.range q.size).map fun k => byte (pa + k) k]) ∧
        (∀ pa s1, translate rq .store (if q.float then 0 else q.size) q.va s0 = (.ok (.mem pa .wb), s1) → s1.wellKept →
          AtCore ⟨s1.me.sid, .scalar, s1.me.ctx, true, (List.range q.size).map fun k => byte (pa + k) k, false⟩ s1 (translateStore s)) ∧
        (∀ m off s1, translate rq .store (if q.float then 0 else q.size) q.va s0 = (.ok (.scratch m off), s1) → HasCore m s1 → (coreAt m s1).scratch.wf = true → let t := translateStore s
          t.me = s1.me ∧ t.mem = s1.mem ∧ t.core.out = s1.core.out ∧ (∀ k, k < q.size → (coreAt m t).scratch.get (off + k) = q.data.extractLsb' (8 * k) 8) ∧
          ∀ a, (a < off ∨ off + q.size ≤ a) → (coreAt m t).scratch.get a = (coreAt m s1).scratch.get a) ∧
        (∀ pa s1, translate rq .store (if q.float then 0 else q.size) q.va s0 = (.ok (.mem pa .ctl), s1) → let t := translateStore s
          (regionOf pa = .control → t = ctlStore pa q.size q.data s1) ∧
          (regionOf pa ≠ .control → s1.wellKept → t.me = s1.me ∧ t.core = s1.core ∧ (∀ k, k < q.size → t.mem.get (pa + k) = q.data.extractLsb' (8 * k) 8) ∧ SameOutside pa q.size s1 t)) ∧
        (∀ e s1, translate rq .store (if q.float then 0 else q.size) q.va s0 = (.ok (.remote e), s1) → ∃ port pkg tctx, (translateStore s).me = s1.me ∧ (translateStore s).mem = s1.mem ∧
          (translateStore s).remote = s1.remote ++ [⟨s1.remoteNext, s1.me.mesh, s1.me.sid, port, pkg, ⟨tctx, q.va, .store (storeBytes q)⟩, none, some q⟩])) ∧
      (q.va.toNat % q.size ≠ 0 →
        (∀ k x s1, translateBytes rq .store q.va q.size s0 = (.error (k, x), s1) → translateStore s = fault s1 x.sub) ∧
        (∀ (pas : List Nat) (s1 : State), translateBytes rq .store q.va q.size s0 = (.ok (pas.map fun pa => .mem pa .nc), s1) → pas.length = q.size → s1.wellKept →
          translateStore s = sent s1 ((List.range q.size).map fun k => [byte (pas.getD k 0) k])) ∧
        (∀ (pas : List Nat) (s1 : State), translateBytes rq .store q.va q.size s0 = (.ok (pas.map fun pa => .mem pa .wb), s1) → pas.length = q.size → s1.wellKept → let t := translateStore s
          t.me = s1.me ∧ t.mem = s1.mem ∧
          t.core.out = s1.core.out ++ (List.range q.size).map fun k => ⟨s1.me.sid, .scalar, s1.me.ctx, true, [byte (pas.getD k 0) k], false⟩)))) ∧
  (∀ (s : State) (k : Nat) (w : Write), s.wellKept →
    (s.core.out[k]? = some w → (∀ x ∈ s.core.out.take k, x.sid = w.sid → x.path = w.path → overlaps x w = false) →
      ∃ t, exec (.accessPerform (.atHome s.core.mesh k)) s = .next t ∧ t.core.out = s.core.out.take k ++ s.core.out.drop (k + 1) ∧ t.me = s.me ∧
        (∀ a, (∀ b ∈ w.bytes, b.loc ≠ .mem a) → t.mem.get a = s.mem.get a) ∧
        ((w.bytes.Pairwise fun x y => x.loc ≠ y.loc) → ∀ b ∈ w.bytes, ∀ a, b.loc = .mem a → t.mem.get a = (s.mem.get a &&& ~~~b.mask) ||| (b.val &&& b.mask))) ∧
    (s.core.out[k]? = some w → (∃ x ∈ s.core.out.take k, x.sid = w.sid ∧ x.path = w.path ∧ overlaps x w = true) →
      exec (.accessPerform (.atHome s.core.mesh k)) s = .next s) ∧
    (s.me.vwq[k]? = some w → (∃ x ∈ s.me.vwq.take k, overlaps x w = true) → exec (.accessPerform (.atCore s.me.mesh s.me.sid k)) s = .next s) ∧
    (s.me.vwq[k]? = some w → (∀ x ∈ s.me.vwq.take k, overlaps x w = false) → w.slice = true → s.core.out = [] →
      ∃ t, exec (.accessPerform (.atCore s.me.mesh s.me.sid k)) s = .next t ∧ t.me = { s.me with vwq := s.me.vwq.take k ++ s.me.vwq.drop (k + 1) } ∧ t.core.copies = s.core.copies ∧
        (∀ a, (∀ b ∈ w.bytes, b.loc ≠ .mem a) → t.mem.get a = s.mem.get a) ∧
        ((w.bytes.Pairwise fun x y => x.loc ≠ y.loc) → ∀ b ∈ w.bytes, ∀ a, b.loc = .mem a → t.mem.get a = (s.mem.get a &&& ~~~b.mask) ||| (b.val &&& b.mask))) ∧
    (s.me.vwq[k]? = some w → (∀ x ∈ s.me.vwq.take k, overlaps x w = false) → w.wb = false → w.slice = false → (∃ b ∈ w.bytes, ∃ a, b.loc = .mem a) →
      exec (.accessPerform (.atCore s.me.mesh s.me.sid k)) s = .next { s with
        me := { s.me with vwq := s.me.vwq.take k ++ s.me.vwq.drop (k + 1) }, core := { s.core with out := s.core.out ++ [w] } }) ∧
    (s.me.vwq[k]? = some w → (∀ x ∈ s.me.vwq.take k, overlaps x w = false) → w.wb = true → w.slice = false → (∃ b ∈ w.bytes, ∃ a, b.loc = .mem a) → (w.bytes.Pairwise fun x y => x.loc ≠ y.loc) →
      ∃ t, exec (.accessPerform (.atCore s.me.mesh s.me.sid k)) s = .next t ∧ AtCore w { s with me := { s.me with vwq := s.me.vwq.take k ++ s.me.vwq.drop (k + 1) } } t)) ∧
  (∀ (s : State) (mesh sid : Nat) (i : Instr), s.wellKept → (strandAt mesh sid s).isSome → HasCore mesh s →
    (i = .storeQueueTranslate mesh sid ∨ (∃ k, i = .accessPerform (.atCore mesh sid k)) ∨ ∃ q n, i = .streamRefill mesh sid q n) →
    ∃ t, exec i (focus mesh sid s) = .next t ∧ t.me.mesh = mesh ∧ t.me.sid = sid ∧ exec i s = .next (focus s.me.mesh s.me.sid t))

/-- An AMO reads and writes its bytes at their home at one instant: g[d] takes the old value and memory the new one of its operation, nothing else of memory and no other register
changes; before and after it its scope is fenced, and the copies that its scope does not trust are gone after it. A misaligned one is illegal, and a translation fault is taken; data in error trap; one that a
route entry takes sends its message once and waits for the reply, whatever becomes of the route: the old value goes into g[d], the target's fault is taken, and an illegal operation trapped (R105, R116, R120,
R295, R335, R382; the model's choices of log entries 71, 74, 77 and 105). Completes: amoAdd, amoMin, amoMax, amoAnd, amoOr, amoXor, amoSwp, amoCas. -/
def Obligations.Atomics : Prop :=
  ∀ (i : Instr) (d a b : GReg) (n c : Nat) (f : Nat → Nat → Nat → Nat) (s : State), amoOf i = some (d, a, b, n, c, f) →
    ((gR a s).toNat % n ≠ 0 → exec i s = .next (illop i 0 s)) ∧
    ((gR a s).toNat % n = 0 → Settled s → let s0 := if c = 0 then s else acquireCopies unboundOnly c s
      (∀ x s1, translate (reqOf s0.me) .atomic n (gR a s0) s0 = (.error x, s1) → exec i s = .next (xlate .atomic (gR a s0) x s1)) ∧
      (∀ pa m s1, translate (reqOf s0.me) .atomic n (gR a s0) s0 = (.ok (.mem pa m), s1) → Settled s1 → s1.me = s.me →
        let old := wordAt s1 pa n
        (∀ p, badAt (locsAt (.mem pa m) n) s1 = some p → exec i s = .next (trapHere (memoryTrap (gR a s) p) s1)) ∧
        (badAt (locsAt (.mem pa m) n) s1 = none → ∃ t, exec i s = .next t ∧ t.me = (advance (setG d (BitVec.ofNat 64 old) s)).me ∧
          wordAt t pa n = f old ((gR b s).toNat % 2 ^ (8 * n)) ((gR d s).toNat % 2 ^ (8 * n)) ∧ SameOutside pa n s1 t ∧
          t.core.copies = (if c = 0 then s1 else acquireCopies unboundOnly c s1).core.copies)) ∧
      (∀ e s1, translate (reqOf s0.me) .atomic n (gR a s0) s0 = (.ok (.remote e), s1) → s1.remote = [] → s1.me = s.me →
        ∃ t msg, exec i s = .next t ∧ t.me = { s.me with call := some s1.remoteNext } ∧ t.mem = s1.mem ∧ t.remote = [msg] ∧ msg.id = s1.remoteNext ∧ msg.mesh = s.me.mesh ∧ msg.sid = s.me.sid ∧
          msg.access.va = gR a s ∧ msg.reply = none)) ∧
    ((gR a s).toNat % n = 0 → Settled s → ∀ m : RemoteMsg, m.store = none → let u := called m s
      let v : State := let w := if c = 0 then s else acquireCopies unboundOnly c s; { w with me := { w.me with call := none } }
      (m.reply = none → ∃ t, exec i u = .next t ∧ t.me = u.me ∧ t.mem = u.mem ∧ t.remote = u.remote) ∧
      (∀ old, m.reply = some (.value old) → ∃ t, exec i u = .next t ∧ t.me = (advance (setG d old { s with me := { s.me with call := none } })).me ∧ t.mem = s.mem ∧ t.remote = []) ∧
      (∀ sub, m.reply = some (.fault sub) → exec i u = .next (xlate .atomic (gR a s) ⟨sub, 0, 0, false⟩ v)) ∧
      (m.reply = some .illegal → exec i u = .next (illop i 0 v)))

/-! ## Latches, bindings, fences and publications -/

/-- ACQ, TRYACQ, ACQ.OBS and REL on a latch word of the package's memory: a free latch is taken (its low half becomes the strand's word), observed (SEQ) or
illegal to release; one that the strand holds is illegal to take and is released with SEQ + 1; one that another holds makes ACQ and ACQ.OBS wait and TRYACQ answer 0. In the replay window a latch that the strand
holds is taken by ACQ and TRYACQ, and one that it does not hold is released, with no change of the word and RCAUSE.RLAT set. A misaligned address, one in the window region or outside the package's memory, and a
word with a reserved bit set are illegal, and no memory changes. A latch taken or observed is acquired: at a scope wider than CORE the copies of the lines bound to it are gone, those of unbound ones where nothing
is bound to it (R105, R108, R109, R113, R159; the model's choices of log entries 7, 19, 71, 74 and 79). Completes: acq, tryacq, acqObs, rel. -/
def Obligations.Latches : Prop :=
  (∀ (s : State) (d a : GReg) (i : Instr), (i = .acq a ∨ i = .tryacq d a ∨ i = .acqObs d a ∨ i = .rel a) → Settled s →
    let place : Prop := (gR a s).toNat % 8 = 0 ∧ (fld (gR a s) 57 7 ≠ 0 ∨ inWindow (gR a s).toNat = false) ∧ routeOf s.me.ctx (gR a s).toNat s = none
    (¬place → exec i s = .next (illop i 0 s)) ∧
    (place → (∀ x s1, translate (reqOf s.me) .atomic 8 (gR a s) s = (.error x, s1) → exec i s = .next (xlate .atomic (gR a s) x s1)) ∧
      ∀ pa m s1, translate (reqOf s.me) .atomic 8 (gR a s) s = (.ok (.mem pa m), s1) → ownMemory pa = false → exec i s = .next (illop i 0 s1))) ∧
  ∀ (s s1 : State) (d a : GReg) (pa : Nat) (m : MemType),
    (gR a s).toNat % 8 = 0 → (fld (gR a s) 57 7 ≠ 0 ∨ inWindow (gR a s).toNat = false) → routeOf s.me.ctx (gR a s).toNat s = none → Settled s →
    translate (reqOf s.me) .atomic 8 (gR a s) s = (.ok (.mem pa m), s1) → ownMemory pa = true → Settled s1 → s1.me = s.me → badAt (locsAt (.mem pa m) 8) s1 = none →
    let w : Word := BitVec.ofNat 64 (wordAt s1 pa 8)
    let mine := w.extractLsb' 0 32 = BitVec.ofNat 32 (s1.chainid * 2 ^ 20 + 2 ^ 19 + s.me.mesh * 4 + s.me.sid)
    let waits (i : Instr) : Prop := ∃ t, exec i s = .next t ∧ t.me = s.me ∧ t.mem = s1.mem ∧
      ∃ x ∈ t.watches, x.mesh = s.me.mesh ∧ x.sid = s.me.sid ∧ x.line = .mem (pa / 64) ∧ x.hit = false
    let refused (i : Instr) : Prop := ∃ t, exec i s = .next (illop i 0 t) ∧ t.me = s.me ∧ t.mem = s1.mem
    let letGo (rcause : Word) : State := { s with me := { s.me with latches := s.me.latches.filter fun l => l.va != gR a s, rcause := rcause } }
    s1.chainid < 2 ^ 12 → s.me.mesh < 2 ^ 11 → s.me.sid < 4 →
    (lwReserved w = true → ∀ i : Instr, i = .acq a ∨ i = .tryacq d a ∨ i = .acqObs d a ∨ i = .rel a → refused i) ∧
    (lwReserved w = false →
      (w.getLsbD 19 = false →
        (∀ i : Instr, i = .acq a ∨ i = .tryacq d a → ∃ t, exec i s = .next t ∧
          wordAt t pa 8 = w.toNat / 2 ^ 32 * 2 ^ 32 + (s1.chainid * 2 ^ 20 + 2 ^ 19 + s.me.mesh * 4 + s.me.sid) ∧ SameOutside pa 8 s1 t ∧
          (∃ l ∈ t.me.latches, l.va = gR a s) ∧ (∀ r : GReg, (i = .tryacq d a → r ≠ d) → t.me.g[r] = s.me.g[r]) ∧ (i = .tryacq d a → d ≠ 0 → t.me.g[d] = 1) ∧
          t.me.pc = (advance s).me.pc ∧ Acquired (gR a s) s1 t) ∧
        (∃ t, exec (.acqObs d a) s = .next t ∧ t.me = (advance (setG d (w >>> 40) s)).me ∧ t.mem = s1.mem ∧ Acquired (gR a s) s1 t)) ∧
      (w.getLsbD 19 = true → ¬mine → waits (.acq a) ∧ waits (.acqObs d a) ∧
        ∃ t, exec (.tryacq d a) s = .next t ∧ t.me = (advance (setG d 0 s)).me ∧ t.mem = s1.mem) ∧
      (¬(w.getLsbD 19 = true ∧ mine) →
        (s.me.replay = false → refused (.rel a)) ∧
        (s.me.replay = true → ∃ t, exec (.rel a) s = .next t ∧ t.mem = s1.mem ∧ t.me = (advance (letGo (s.me.rcause ||| 0x200))).me)) ∧
      (w.getLsbD 19 = true → mine → refused (.acqObs d a) ∧
        (∀ i : Instr, i = .acq a ∨ i = .tryacq d a →
          (s.me.replay = false → refused i) ∧
          (s.me.replay = true → ∃ t, exec i s = .next t ∧ t.mem = s1.mem ∧ t.me.rcause = s.me.rcause ||| 0x200 ∧ (∃ l ∈ t.me.latches, l.va = gR a s) ∧
            (∀ r : GReg, (i = .tryacq d a → r ≠ d) → t.me.g[r] = s.me.g[r]) ∧ (i = .tryacq d a → d ≠ 0 → t.me.g[d] = 1) ∧ t.me.pc = (advance s).me.pc ∧ Acquired (gR a s) s1 t)) ∧
        ∃ t, exec (.rel a) s = .next t ∧ wordAt t pa 8 = ((w >>> 40).toNat + 1) % 2 ^ 24 * 2 ^ 40 ∧ SameOutside pa 8 s1 t ∧ t.me = (advance (letGo s.me.rcause)).me))

/-- BIND answers the first status that applies; status 0 adds the binding to every view of the context and writes its entry of the binding table. UNBIND takes the binding of a base
away, or answers 6. Either discards the copies of the region in every L1, and waits while stores of the strand are on their way or held back (R110 to R112, R297; the model's choices of log entries 17
and 65; that BIND discards them whatever its status is, and that a line which the region maps counts as its own whatever address filled the copy, are those of log entries 97 and 79). Completes: bind, unbind. -/
def Obligations.Bindings : Prop :=
  (∀ (s s1 : State) (d a b : GReg) (c : BitVec 3), drainAll s = .stop s1 → exec (.bind d a b c) s = .next s1 ∧ exec (.unbind d a) s = .next s1) ∧
  ∀ (s : State) (d a b : GReg) (c : BitVec 3), Settled s →
    let base := (gR a s).toNat
    let len := (gPlus a 1 s).toNat
    let table := (descriptor s.me.ctx s).2.toNat
    let st := bindStatus (bindingsOf s.me s) base len (gR b s).toNat c.toNat (leadsToOwn (gR b s) s)
    (∃ t, exec (.bind d a b c) s = .next t ∧ t.me = (advance (setG d (BitVec.ofNat 64 st) s)).me ∧
      (∀ x ∈ t.core.copies, x ∈ s.core.copies ∧ ¬(x.ctx = s.me.ctx ∧ base ≤ x.vline * 64 ∧ x.vline * 64 ≤ base + len - 1)) ∧
      (∀ x, x ∈ t.core.copies ↔ x ∈ s.core.copies ∧ inRegion s.me.ctx base (base + len - 1) s x = false) ∧
      (st ≠ 0 → t.mem = s.mem ∧ t.launches = s.launches) ∧
      (st = 0 → let e := freeEntry (bindingsOf s.me s) 4096 0
        t.launches = s.launches.map (fun l => if recCTX l.record = s.me.ctx then
          { l with bindings := l.bindings ++ [⟨e, base, base + len - 1, (gR b s).toNat, c.toNat - 1⟩] } else l) ∧
        wordAt t (table + 32 * e) 8 = (2 ^ 63 + base) % 2 ^ 64 ∧ wordAt t (table + 32 * e + 8) 8 = (base + len - 1) % 2 ^ 64 ∧
        wordAt t (table + 32 * e + 16) 8 = ((gR b s).toNat + (c.toNat - 1)) % 2 ^ 64 ∧ wordAt t (table + 32 * e + 24) 8 = 0 ∧ SameOutside (table + 32 * e) 32 s t)) ∧
    ((∀ x ∈ bindingsOf s.me s, x.rbase ≠ base) → exec (.unbind d a) s = .next (advance (setG d 6 s))) ∧
    (∀ x, (bindingsOf s.me s).find? (fun x => x.rbase == base) = some x →
      ∃ t, exec (.unbind d a) s = .next t ∧ t.me = (advance (setG d 0 s)).me ∧
        (∀ y, y ∈ t.core.copies ↔ y ∈ s.core.copies ∧ inRegion s.me.ctx x.rbase x.rlast s y = false) ∧ wordAt t (table + 32 * x.entry) 8 = 0 ∧ SameOutside (table + 32 * x.entry) 32 s t ∧
        t.launches = s.launches.map (fun l => if recCTX l.record = s.me.ctx then { l with bindings := l.bindings.filter fun y => y.entry != x.entry } else l))

/-- With nothing on its way, FENCE discards the copies that its scope does not trust and goes on, and so does one narrower than SYS while stores to other packages have no reply, for which
FENCE.SYS waits; DRAINST goes on; FENCE.I discards what was fetched and the patch values; PFENCE.DIE
waits until what the persist queues held is durable; PFENCE.CORE asks for a shadow write, whose point is the next instruction, and waits for the seal. A strand that is not the
last to arrive at BAR waits at its pc and counts as arrived; the last one, and each that finds the barrier completed, passes into the next epoch with the acquire of its scope; a strand of no launch
passes. A record that waits is delivered first, outside a handler (R105, R114, R117, R120, R155, R156, R160, R225, R293, R298 to R301; the model's choices of log entries 13 and 25). Completes: fence,
drainst, pfenceDie, pfenceCore, fenceI, bar. -/
def Obligations.FencesAndBarriers : Prop :=
  (∀ (s : State) (i : Instr), (i = .drainst ∨ i = .bar ∨ i = .pfenceDie ∨ i = .pfenceCore ∨ ∃ t c, i = .fence t c) → s.me.stq = [] → s.me.sfq ≠ [] → inHandler s.me = false →
    exec i s = .next (storeTrap s)) ∧
  ∀ s : State, Settled s →
    (∀ (t : Fin 5) (c : BitVec 3), exec (.fence t c) s = .next (advance (acquireCopies unboundOnly c.toNat s))) ∧
    (∀ (t : Fin 5) (c : BitVec 3) (ms : List RemoteMsg), let u : State := { s with remote := ms }
      (c.toNat < 5 → exec (.fence t c) u = .next (advance (acquireCopies unboundOnly c.toNat u))) ∧
      (5 ≤ c.toNat → storesAway u = true → exec (.fence t c) u = .next u)) ∧
    exec .drainst s = .next (advance s) ∧
    (s.me.pwait = none →
      ((∀ d : Fin 4, s.dies[d].persist = []) → exec .pfenceDie s = .next (advance s)) ∧
      ((∃ d : Fin 4, s.dies[d].persist ≠ []) → ∃ v : Vector Nat 4, (∀ d : Fin 4, v[d] = s.dies[d].persistDone + s.dies[d].persist.length) ∧
        exec .pfenceDie s = .next { s with me := { s.me with pwait := some v } })) ∧
    (∀ v, s.me.pwait = some v →
      ((∀ d : Fin 4, v[d] ≤ s.dies[d].persistDone) → exec .pfenceDie s = .next (advance { s with me := { s.me with pwait := none } })) ∧
      ((∃ d : Fin 4, s.dies[d].persistDone < v[d]) → exec .pfenceDie s = .next s)) ∧
    exec .pfenceCore s = .next { advance s with core := { s.core with shRequest := true, shWaiters := s.me.sid :: s.core.shWaiters } } ∧
    (let u := advance { s with me := { s.me with loopBuf := [], patch := [] }, core := { s.core with icopies := [] } }
      ∃ t, exec .fenceI s = .next t ∧ t.me = u.me ∧ t.mem = s.mem ∧ t.core.icopies = [] ∧
        ∀ pa v, translate (reqOf u.me) .fetch 4 u.me.pc u = (.ok (.mem pa .wb), v) → copyOf u.me.mesh (pa / 64) t = none) ∧
    (launchAt s.me.launch s = none → exec .bar s = .next (advance { s with me := { s.me with epoch := s.me.epoch + 1, arrived := false } })) ∧
    (∀ l : Launch, launchAt s.me.launch s = some l →
      let wg := wgOf l.record s.me.mesh
      let scope := wgScope l.record wg
      let here : State := { s with me := { s.me with arrived := true } }
      let pass (t : State) : State := let u := acquireCopies unboundOnly scope t; advance { u with me := { u.me with epoch := u.me.epoch + 1, arrived := false } }
      (s.me.epoch < epochsDone l wg → exec .bar s = .next (pass s)) ∧
      (epochsDone l wg ≤ s.me.epoch →
        ((∀ t ∈ wgMembers l wg here, t.life = .ended ∨ s.me.epoch < t.epoch ∨ (t.epoch = s.me.epoch ∧ t.arrived = true)) →
          exec .bar s = .next (pass (modLaunch l.id (fun x => { x with epochs := (wg, s.me.epoch + 1) :: x.epochs.filter fun e => e.1 != wg }) here))) ∧
        ((∃ t ∈ wgMembers l wg here, t.life ≠ .ended ∧ t.epoch ≤ s.me.epoch ∧ (t.epoch = s.me.epoch → t.arrived = false)) → exec .bar s = .next here)))

/-- PUBHW and PUBHW.FIN on sixteen bytes of the package's memory: SEQ of the latch word goes up by one, HWIDX to the larger of itself and g[b], FIN is kept or set, and nothing else of memory
changes. LAUNCH reads the record at g[a]: status 0 puts it into the queue's slot at TAIL and advances TAIL, status 2 sets the queue's DBERR, every other one only answers. A misaligned address,
a count of 2^48 or more and a bad queue number are illegal. A publication on a place that a route entry takes is sent once and waits for the reply, and ends as the reply says (R120, R302, R303, R321, R382; the
model's choices of log entries 71, 74, 77 and 105). Completes: pubhw, pubhwFin, launch. -/
def Obligations.PublicationsAndLaunches : Prop :=
  (∀ (s s1 : State) (a b : GReg) (pa : Nat) (m : MemType) (i : Instr) (fin_ : Bool), (i = .pubhw a b ∧ fin_ = false ∨ i = .pubhwFin a b ∧ fin_ = true) → Settled s →
    ((gR a s).toNat % 16 ≠ 0 ∨ 2 ^ 48 ≤ (gR b s).toNat → exec i s = .next (illop i 0 s)) ∧
    ((gR a s).toNat % 16 = 0 → (gR b s).toNat < 2 ^ 48 → (fld (gR a s) 57 7 ≠ 0 ∨ inWindow (gR a s).toNat = false) → routeOf s.me.ctx (gR a s).toNat s = none →
      translate (reqOf s.me) .atomic 8 (gR a s) s = (.ok (.mem pa m), s1) → ownMemory pa = true → Settled s1 → s1.me = s.me → badAt (locsAt (.mem pa m) 16) s1 = none →
      let w : Word := BitVec.ofNat 64 (wordAt s1 pa 8)
      let h : Word := BitVec.ofNat 64 (wordAt s1 (pa + 8) 8)
      lwReserved w = false → fld h 48 15 = 0 →
      ∃ t, exec i s = .next t ∧ t.me = (advance s).me ∧ SameOutside pa 16 s1 t ∧
        wordAt t pa 8 = (fld w 40 24 + 1) % 2 ^ 24 * 2 ^ 40 + fld w 0 40 ∧
        wordAt t (pa + 8) 8 = max (fld h 0 48) (gR b s).toNat + (if h.getLsbD 63 || fin_ then 2 ^ 63 else 0))) ∧
  (∀ (s : State) (a b : GReg) (i : Instr) (fin_ : Bool), (i = .pubhw a b ∧ fin_ = false ∨ i = .pubhwFin a b ∧ fin_ = true) → Settled s → (gR a s).toNat % 16 = 0 → (gR b s).toNat < 2 ^ 48 →
    (∀ e, routeOf s.me.ctx (gR a s).toNat s = some e →
      (∀ x, routed .atomic e s = .error x → exec i s = .next (xlate .atomic (gR a s) x s)) ∧
      (∀ y, routed .atomic e s = .ok y → ∃ t msg, exec i s = .next t ∧ t.me = { s.me with call := some s.remoteNext } ∧ t.mem = s.mem ∧ t.remote = [msg] ∧ msg.id = s.remoteNext ∧
        msg.mesh = s.me.mesh ∧ msg.sid = s.me.sid ∧ msg.access.va = gR a s ∧ msg.access.op = .pubhw fin_ (gR b s) ∧ msg.reply = none ∧ msg.store = none)) ∧
    (∀ m : RemoteMsg, m.store = none → let u := called m s
      let v : State := { s with me := { s.me with call := none } }
      (m.reply = none → exec i u = .next u) ∧
      (m.reply = some .done → exec i u = .next (advance v)) ∧
      (∀ sub, m.reply = some (.fault sub) → exec i u = .next (xlate .atomic (gR a s) ⟨sub, 0, 0, false⟩ v)) ∧
      (m.reply = some .illegal → exec i u = .next (illop i 0 v)))) ∧
  (∀ (s : State) (d a b : GReg), Settled s →
    ((gR a s).toNat % 128 ≠ 0 ∨ 64 ≤ (gR b s).toNat → exec (.launch d a b) s = .next (illop (.launch d a b) 0 s)) ∧
    ((gR a s).toNat % 128 = 0 → (gR b s).toNat < 64 → ∀ r s1, loadRecord (gR a s) s = .ok r s1 → s1.me = s.me →
      let die := s.me.mesh / 384
      let k := (gR b s).toNat
      let q := queueAt die k s1
      let st := launchStatus r q s1
      ∃ t, exec (.launch d a b) s = .next t ∧ t.me = (advance (setG d (BitVec.ofNat 64 st) s)).me ∧
        (st = 0 → queueAt die k t = { q with tail := (q.tail + 1) % 2 ^ 32 } ∧ SameOutside (slotAddr q q.tail) 128 s1 t ∧
          t.mem.getN (slotAddr q q.tail) 120 = (r.take 15).flatMap fun w => bytesOf 8 w.toNat) ∧
        (st = 2 → queueAt die k t = { q with dberr := true } ∧ t.mem = s1.mem) ∧ (st ≠ 0 → st ≠ 2 → queueAt die k t = q ∧ t.mem = s1.mem)))

/-! ## Vector configuration, softmax steps, scales and code tables -/

/-- VCFG gives a register its tag, keeps the codes of its elements modulo 2^w with the planes that hold them, and takes as many new planes as it needs, for which it waits; SETVL without a publication grants
the request under the ceiling in whole blocks, and with one what its high-water word allows, for which it waits; SETMODE replaces
the groups of MODE that its literal names; MMODE sets MVL, NB and FMT, and a new FMT clears the accumulators, once no other strand of the core has an instruction of the array renamed and no earlier MMODE
waits. Illegal values make each an illegal operation (R172, R179, R233 to R236, R270, R272; the model's choice of log entry 81). Completes: vcfg, setvl, setmode, mmode. -/
def Obligations.VectorConfiguration : Prop :=
  ∀ s : State, inHandler s.me = false →
    (∀ (d : VRegN) (k : BitVec 14) (w : Word) (s1 : State), immValue k s = .ok w s1 → inHandler s1.me = false → let tag : BitVec 16 := w.setWidth 16
      let old := (s1.me.v[d]).tag
      let new := ((retaggedPlaces d tag s1).filter fun p => p.isNone).length
      (tagIllegal tag = false → budgetOk s1.me d tag = true → new ≤ planesLeft s1 → ∃ (r : VReg) (planes : List Nat) (dirty : Vector (BitVec 928) 3) (h : Word),
        exec (.vcfg d k) s = .next (advance { s1 with
          me := { s1.me with v := s1.me.v.set d r, hwm := h, maps := s1.me.maps.set d planes }, core := { s1.core with dirty := dirty } }) ∧
        r.tag = tag ∧ r.planes.length = tagWidth tag ∧ (∀ e, elem r e = elem s1.me.v[d] e % 2 ^ tagWidth tag) ∧
        (∀ b, b < vlmax / blockLen tag → scaleByte r.scale b = if blockLen tag = blockLen old then scaleByte (s1.me.v[d]).scale b else 0x7F) ∧
        (∀ b, b < tagWidth tag → b < tagWidth old → b < (s1.me.maps[d]).length → planes[b]? = (s1.me.maps[d])[b]?) ∧
        (∀ b, b < 32 → h.getLsbD b = (s1.me.hwm.getLsbD b || b == d.1)) ∧ fld h 32 15 = fld s1.me.hwm 32 15 ∧ fld h 48 5 = max (fld s1.me.hwm 48 5) d.1) ∧
      (tagIllegal tag = false → budgetOk s1.me d tag = true → planesLeft s1 < new → exec (.vcfg d k) s = .next s1) ∧
      (tagIllegal tag = true ∨ budgetOk s1.me d tag = false → exec (.vcfg d k) s = .next (illop (.vcfg d k) 0 s1))) ∧
    (∀ d a : GReg, let n := plainGrant (gR a s).toNat s.me.ceiling (largestBlock s.me)
      n ≤ s.me.ceiling ∧ n ≤ (gR a s).toNat ∧
      exec (.setvl d a 0) s = .next (advance (setG d (BitVec.ofNat 64 n) { s with me := { s.me with vl := n, pub := 0 } }))) ∧
    (∀ d a b : GReg, b ≠ 0 →
      ((gR b s).toNat % 8 ≠ 0 → exec (.setvl d a b) s = .next (illop (.setvl d a b) 0 s)) ∧
      ((gR b s).toNat % 8 = 0 →
        (∀ n s1, grantOf (gR a s).toNat s.me.sbase (some (gR b s)) s = .ok n s1 →
          exec (.setvl d a b) s = .next (advance (setG d (BitVec.ofNat 64 n) { s1 with me := { s1.me with vl := n, pub := gR b s } }))) ∧
        (∀ s1, grantOf (gR a s).toNat s.me.sbase (some (gR b s)) s = .stop s1 → exec (.setvl d a b) s = .next s1))) ∧
    (∀ (a : GReg) (k : BitVec 4), let group (j : Nat) : Bool :=
        (decide (j < 5) && k.getLsbD 0) || (decide (5 ≤ j ∧ j < 14) && k.getLsbD 1) || (decide (16 ≤ j ∧ j < 32) && k.getLsbD 2) || (decide (32 ≤ j ∧ j < 43) && k.getLsbD 3)
      ∃ m : Word, (∀ j, j < 64 → m.getLsbD j = if group j then (gR a s).getLsbD j else s.me.mode.getLsbD j) ∧
        exec (.setmode a k) s = .next (if modeIllegal m then illop (.setmode a k) 0 s else advance { s with me := { s.me with mode := m } })) ∧
    (∀ (k : BitVec 14) (w : Word) (s1 : State), immValue k s = .ok w s1 → inHandler s1.me = false →
      let legal := fld w 0 3 ≤ 4 ∧ fld w 3 3 ≤ 5 ∧ fld w 6 2 ≤ 2
      let same := fld w 6 2 = s1.core.fmt
      let behind := ∃ t ∈ s1.core.strands, ∃ n, t.leave = .format n ∧ ∀ m, s1.me.leave = .format m → n < m
      let inUse := ∃ t ∈ s1.core.strands, (∃ n c, t.leave = .asked n c true) ∨ t.leave = .granted true
      (legal → ¬behind → (same ∨ ¬inUse) → ∃ t, exec (.mmode k) s = .next t ∧
        t.me = (advance { s1 with me := { s1.me with mvl := 2 ^ (fld w 0 3 + 4), nbl := fld w 3 3, leave := .none } }).me ∧ t.core.fmt = fld w 6 2 ∧ t.mem = s1.mem ∧
        (same → t.core = s1.core) ∧
        (¬same → t.core.owner = none ∧ t.core.base = none ∧ t.core.count = 0 ∧ t.core.cellPoison = [] ∧ ∀ (k : Fin 2) (i : Fin 256), (t.core.acc[k])[i] = 0)) ∧
      (legal → same → behind → exec (.mmode k) s = .next s1) ∧
      (legal → ¬same → (behind ∨ inUse) →
        (∀ m, s1.me.leave = .format m → exec (.mmode k) s = .next s1) ∧
        ((∀ m, s1.me.leave ≠ .format m) → ∃ m, exec (.mmode k) s = .next { s1 with me := { s1.me with leave := .format m } } ∧
          ∀ t ∈ s1.core.strands, ∀ n, t.leave = .format n → n < m)) ∧
      (4 < fld w 0 3 ∨ 5 < fld w 3 3 ∨ 2 < fld w 6 2 → exec (.mmode k) s = .next (illop (.mmode k) 0 s1)))

namespace Sys2Proof.Claims

/-- A whole instruction of the scale slots and tables that ends in a state: whether its operands are legal, its sources and the elements of them that it reads, and the state (R262, R263, R265). -/
def slotResult (s : State) : Instr → Option (Bool × List (Fin 32 × VReg) × List Nat × State)
  | .qstat d a q =>
    let g := s.core.scales[q]
    let xs := (actives s).map (valOf s.me.v[a])
    let m := largest (xs.map fun x => if x.isNan then .inf false else x)
    let n := (xs.filter fun x => !x.isFin || clips (kindOf g.kind) (addPoint (quotient x g.scale) g.zp.toNat)).length
    some (blockLen s.me.v[a].tag == 0, named s [a], actives s, retire (setG d (BitVec.ofNat 64 (xs.length * 2 ^ 32 + n)) { s with core := { s.core with
      scales := s.core.scales.set q { g with
        hist := g.hist.set g.head (BitVec.ofNat 32 (encodeVal .fp32 ⟨.rup, false, 0, 0, 0, 0⟩ 0 m).1), head := ⟨(g.head.1 + 1) % 16, Nat.mod_lt _ (by decide)⟩ } } }))
  | .qscaleH d b q =>
    let g := s.core.scales[q]
    let r := symmetricScale (largest (g.hist.toList.map fval)) (vKind s.me.v[b])
    some (slotKind s.me.v[b], [], [], retire (raise r.2 { s with
      me := { s.me with f := s.me.f.set d (BitVec.ofNat 32 r.1) }
      core := { s.core with scales := s.core.scales.set q { g with scale := BitVec.ofNat 32 r.1, zp := 0, kind := s.me.v[b].tag, flat := flatValue r.2 (.ofInt 0) } } }))
  | .qscaleR d a b q =>
    let xs := (actives s).map (valOf s.me.v[a])
    let r : Nat × Nat × Nat := match vKind s.me.v[b] with
      | .n w => asymmetricScale (leastOf xs) (greatestOf xs) w q
      | k => let y := symmetricScale (largest xs) k; (y.1, 0, y.2)
    let one : XVal := match vKind s.me.v[b] with | .n _ => leastOf xs | _ => .ofInt 0
    some (blockLen s.me.v[a].tag == 0 && slotKind s.me.v[b], named s [a], actives s, retire (raise r.2.2 { s with
      me := { s.me with f := s.me.f.set d (BitVec.ofNat 32 r.1) }
      core := { s.core with scales := s.core.scales.set q { s.core.scales[q] with scale := BitVec.ofNat 32 r.1, zp := BitVec.ofNat 16 r.2.1, kind := s.me.v[b].tag, flat := flatValue r.2.2 one } } }))
  | .qscaleZ q => some (true, [], [], retire { s with core := { s.core with scales := s.core.scales.set q ⟨Vector.replicate 16 0, 0, 0x3F800000, 0, 0x0007, none⟩ } })
  | .ctab a p =>
    let n := min s.me.vl 256
    some (tableKind s.me.v[a], named s [a], List.range n, retire { s with core := { s.core with tables := s.core.tables.set p ⟨s.me.v[a].tag,
      Vector.ofFn fun e => if e.1 < n then BitVec.ofNat 16 (elem s.me.v[a] e.1) else (s.core.tables[p]).entries[e]⟩ } })
  | _ => none

/-- What VSMAX does to its destination (R260). -/
def softLanes (s : State) (d a : VRegN) (b : FReg) (t : Bool) (c : TmReg) : Lanes :=
  let es := (List.range s.me.vl).filter (included t c s)
  let mnew := nanMax (fval s.me.f[b]) (es.foldl (fun m k => nanMax m (valOf s.me.v[a] k)) (.inf true))
  { dest := d, tag := s.me.v[d].tag, srcs := named s [a], ok := decide (b.1 ≤ 13) && floatReg s.me.v[a] && floatReg s.me.v[d], act := active s.me
    code := fun k => if included t c s k then encodeVal (vKind s.me.v[d]) (roundingOf s.me) k (decodeCode .fp32 (expDiff (valOf s.me.v[a] k) mnew).1) else (0, 0)
    scale := fun _ => 0x7F }

end Sys2Proof.Claims

/-- The instructions on scale slots and code tables leave their slots and tables as R261 to R267 say. VSMAX completes: f[b] takes the new maximum, f[b + 1] the new sum and f[b + 2] the correction;
the included elements of v[d] take the exponentials of their distances from the maximum, the other active ones 0. The first poisoned element that one of them consumes is its POISON trap, with nothing written (R260 to R266, R345; the model's choices of log entries 12, 22, 23, 69, 81, 83 and 110). Completes: qstat, qscaleH, qscaleR, qscaleZ, ctab, vsmax. -/
def Obligations.ScaleSlotsAndSoftmax : Prop :=
  (∀ (i : Instr) (ok : Bool) (srcs : List (Fin 32 × VReg)) (es : List Nat) (t s : State), slotResult s i = some (ok, srcs, es, t) → Fresh s →
    (ok = false → exec i s = .next (illop i 0 s)) ∧ (ok = true → NoPoison srcs es → exec i s = .next t) ∧
    (ok = true → ∀ e r m, FirstPoison srcs es e r m → ∃ u, exec i s = .next u ∧ PoisonTrap 0 r.1 e m.producer 0 s u ∧ Unwritten s u)) ∧
  (∀ (d a : VRegN) (b : FReg) (t : Bool) (c : TmReg) (s : State), Fresh s → let l := softLanes s d a b t c
    (l.ok = false ∨ budgetOk s.me d l.tag = false → exec (.vsmax d a b t c) s = .next (illop (.vsmax d a b t c) 0 s)) ∧
    (l.ok = true → budgetOk s.me d l.tag = true → roomFor d l.tag s = false → exec (.vsmax d a b t c) s = .next s) ∧
    let es := (List.range s.me.vl).filter (included t c s)
    (l.ok = true → budgetOk s.me d l.tag = true → roomFor d l.tag s = true → ∀ e r m, FirstPoison l.srcs es e r m →
      ∃ u, exec (.vsmax d a b t c) s = .next u ∧ PoisonTrap 0 r.1 e m.producer 0 s u ∧ Unwritten s u) ∧
    (l.ok = true → budgetOk s.me d l.tag = true → roomFor d l.tag s = true → NoPoison l.srcs es →
      let mnew := nanMax (fval s.me.f[b]) (es.foldl (fun m k => nanMax m (valOf s.me.v[a] k)) (.inf true))
      let cf := if (fval s.me.f[b]).eqv mnew then (0x3F800000, 0) else expDiff (fval s.me.f[b]) mnew
      ∃ (u : State) (h1 : b.1 + 1 < 16) (h2 : b.1 + 2 < 16), exec (.vsmax d a b t c) s = .next u ∧ l.Leaves s u.me.v[d] ∧ u.mem = s.mem ∧ u.core = { s.core with dirty := u.core.dirty } ∧ u.me.g = s.me.g ∧
        u.me.m = s.me.m ∧ u.me.tm = s.me.tm ∧ (∀ r : VRegN, r ≠ d → u.me.v[r] = s.me.v[r]) ∧
        u.me.f = ((s.me.f.set b (BitVec.ofNat 32 (rneFp32 mnew).1)).set (b.1 + 1)
          (BitVec.ofNat 32 (softSum cf.1 (s.me.f[b.1 + 1]).toNat (es.map fun k => (expDiff (valOf s.me.v[a] k) mnew).1)).1)).set (b.1 + 2) (BitVec.ofNat 32 cf.1) ∧
        u.me.pc = (advance s).me.pc))

/-! ## The outer-product array -/

namespace Sys2Proof.Claims

/-- A heavy instruction of the array has leave. -/
def Granted (s : State) : Prop := s.me.leave = .granted true

/-- The slices of its sources that an instruction of the OPA family reads (R278 to R281). -/
def slicesOf : Instr → List (Fin 32 × List Nat)
  | .opa _ a b k => [(a, [k.toNat]), (b, [k.toNat])]
  | .opaT _ a b _ k => [(a, [k.toNat]), (b, [k.toNat])]
  | .opaS _ a b g n v =>
      let m := 2 ^ (n.1 + 1)
      let kept := (List.range m).map fun k => m * g.1 + k
      [(a, kept), (v, kept), (b, (List.range 16).map fun k => 16 * g.1 + k)]
  | .opaAca _ _ b _ l => [(b, [l.toNat])]
  | _ => []

/-- The elements of some slices. -/
def ofSlices (s : State) (ks : List Nat) : List Nat := ks.flatMap fun k => (List.range s.me.mvl).map fun i => k * s.me.mvl + i

/-- An instruction reads no poisoned element of some slices; a plane that is zero in the segments of its slices is not read (R345). -/
def CleanSlices (xs : List (Fin 32 × List Nat)) (s : State) : Prop := ∀ x ∈ xs, NoPoison [sliceSrc x.1 x.2 s] (ofSlices s x.2)

/-- Element `e` is the lowest poisoned one of some slices, of `r`, the first register of which it is, with mark `m`. -/
def FirstOfSlices (xs : List (Fin 32 × List Nat)) (e : Nat) (r : Fin 32) (m : PoisonMark) (s : State) : Prop :=
  ∃ earlier ks later, xs = earlier ++ (r, ks) :: later ∧ e ∈ ofSlices s ks ∧ ((sliceSrc r ks s).2.poison.find? fun p => p.seg == e / 64) = some m ∧
    (∀ y ∈ xs, ∀ j ∈ ofSlices s y.2, j < e → NoPoison [sliceSrc y.1 y.2 s] [j]) ∧ ∀ y ∈ earlier, e ∈ ofSlices s y.2 → NoPoison [sliceSrc y.1 y.2 s] [e]

/-- The column of an accumulator that an instruction reads as its operand (R281). -/
def columnOf (s : State) : Instr → Nat × List (Nat × Nat)
  | .opaAca _ a _ h l => (a.1, (List.range s.me.mvl).map fun r => (r, h.toNat * 64 + l.toNat))
  | _ => (0, [])

/-- An instruction of the OPA family has leave, and consumes no poison of its operands. -/
def Ready (i : Instr) (s : State) : Prop := Granted s ∧ CleanSlices (slicesOf i) s ∧ ∀ c ∈ (columnOf s i).2, CellClean (columnOf s i).1 c.1 c.2 s

/-- The cells whose staging word `f` holds a contribution, which a fold reads, in order. -/
def contributing (f : Nat → Nat → Int × Nat) : List (Nat × Nat) :=
  (List.range 256).flatMap fun i => ((List.range 256).filter fun j => f i j != (0, 0)).map fun j => (i, j)

/-- The POISON trap of the first poisoned cell that a fold of tile `d` consumes, with nothing done (R345). -/
def FoldTraps (d : Nat) (f : Nat → Nat → Int × Nat) (s : State) (o : Out) : Prop :=
  ∀ row col p, FirstCell d (contributing f) row col p s → ∃ t, o = .next t ∧ PoisonTrap 2 d (Config.poisonCell row col) p 0 s t ∧ Unwritten s t

/-- No cell that a fold of tile `d` consumes is poisoned. -/
def FoldClean (d : Nat) (f : Nat → Nat → Int × Nat) (s : State) : Prop := ∀ c ∈ contributing f, CellClean d c.1 c.2 s

/-- No MMODE of another strand of the core waits to change FMT (R272). -/
def FormatStands (s : State) : Prop := ∀ t ∈ s.core.strands, ∀ n, t.leave ≠ .format n

/-- A cell of a tile of S32 as an integer. -/
def cellS32 (s : State) (d i j : Nat) : Int := signExtend (cellAt d i j s) 32

/-- The OPA family: the tile, whether the operands are legal, and, under S32, the sum of products of cell (i, j) below MVL (R275, R278 to R281). -/
def outerOf (s : State) : Instr → Option (AccN × Bool × (Nat → Nat → Int))
  | .opa d a b k => some (d, opaOk d s.me.v[a] s.me.v[b] k.toNat s,
      fun i j => elemInt s.me.v[a] (k.toNat * s.me.mvl + i) * elemInt s.me.v[b] (k.toNat * s.me.mvl + j))
  | .opaT d a b c k => if s.me.tm[c].getLsbD (s.me.sbase.toNat / 256 % 256) then
      some (d, opaOk d s.me.v[a] s.me.v[b] k.toNat s,
        fun i j => elemInt s.me.v[a] (k.toNat * s.me.mvl + i) * elemInt s.me.v[b] (k.toNat * s.me.mvl + j))
      else none
  | .opaS d a b g n v =>
      let m := 2 ^ (n.1 + 1)
      some (d, tileOk d s && operandOk s.core.fmt s.me.mvl s.me.v[a] && operandOk s.core.fmt s.me.mvl s.me.v[b] && vBlock s.me.v[a] == 0 &&
        vBlock s.me.v[b] == 0 && vBlock s.me.v[v] == 0 && vKind s.me.v[v] == .n 4 &&
        decide (m * (sideOf (vKind s.me.v[a])).p * (sideOf (vKind s.me.v[b])).p ≤ 256) && decide ((16 * g.1 + 16) * s.me.mvl ≤ s.me.vl),
        fun i j => ((List.range m).map fun k => let e := (m * g.1 + k) * s.me.mvl + i
          elemInt s.me.v[a] e * elemInt s.me.v[b] ((16 * g.1 + elem s.me.v[v] e % 16) * s.me.mvl + j)).sum)
  | .opaAca d a b h l =>
      let c := h.toNat * 64 + l.toNat
      some (d, tileOk d s && tileOk a s && a != d && decide (c < s.me.mvl) && operandOk s.core.fmt s.me.mvl s.me.v[b] &&
        decide ((l.toNat + 1) * s.me.mvl ≤ s.me.vl),
        fun i j => max (-(2 ^ 15)) (min (2 ^ 15 - 1) (cellS32 s a i c)) * elemInt s.me.v[b] (l.toNat * s.me.mvl + j))
  | _ => none

/-- What an instruction of the OPA family adds to the open block of a tile: how many products per cell COUNT takes, the sides of its operands, their greatest exponents, and the
pairs of elements whose products each cell takes. -/
structure Products where
  tile : AccN
  n : Nat
  da : Side
  db : Side
  ea : Option Int
  eb : Option Int
  pairs : Nat → Nat → List (Sig × Sig)

/-- The products of the OPA family (R275, R279 to R281). -/
def productsOf (s : State) : Instr → Option Products
  | .opa d a b k => some ⟨d, 1, sideOf (vKind s.me.v[a]), sideOf (vKind s.me.v[b]), maxExp (matrixSlice s.me.v[a] s.me.mvl k.toNat), maxExp (matrixSlice s.me.v[b] s.me.mvl k.toNat),
      fun i j => [(sigOf s.me.v[a] (k.toNat * s.me.mvl + i), sigOf s.me.v[b] (k.toNat * s.me.mvl + j))]⟩
  | .opaT d a b _ k => some ⟨d, 1, sideOf (vKind s.me.v[a]), sideOf (vKind s.me.v[b]), maxExp (matrixSlice s.me.v[a] s.me.mvl k.toNat), maxExp (matrixSlice s.me.v[b] s.me.mvl k.toNat),
      fun i j => [(sigOf s.me.v[a] (k.toNat * s.me.mvl + i), sigOf s.me.v[b] (k.toNat * s.me.mvl + j))]⟩
  | .opaS d a b g n v =>
      let m := 2 ^ (n.1 + 1)
      some ⟨d, m, sideOf (vKind s.me.v[a]), sideOf (vKind s.me.v[b]), maxExp ((List.range m).flatMap fun k => matrixSlice s.me.v[a] s.me.mvl (m * g.1 + k)),
        maxExp ((List.range 16).flatMap fun k => matrixSlice s.me.v[b] s.me.mvl (16 * g.1 + k)),
        fun i j => (List.range m).map fun k => let e := (m * g.1 + k) * s.me.mvl + i
          (sigOf s.me.v[a] e, sigOf s.me.v[b] ((16 * g.1 + elem s.me.v[v] e % 16) * s.me.mvl + j))⟩
  | .opaAca d a b h l =>
      let k := downKind s.core.fmt
      let x (i : Nat) : Sig := sigCode k (downCell s.core.fmt (cellAt a i (h.toNat * 64 + l.toNat) s)).1 0
      some ⟨d, 1, sideOf k, sideOf (vKind s.me.v[b]), maxExp ((List.range s.me.mvl).map x), maxExp (matrixSlice s.me.v[b] s.me.mvl l.toNat),
        fun i j => [(x i, sigOf s.me.v[b] (l.toNat * s.me.mvl + j))]⟩
  | _ => none

/-- BASE after the pass of an instruction, and by how many bits the words move down (R275). -/
def Products.base (x : Products) (s : State) : Option Int × Nat :=
  let old := if s.core.owner = none then none else s.core.base
  match x.ea, x.eb with
  | some ea, some eb =>
    let p : Int := if s.core.fmt = 0 then (x.da.p : Int) + x.db.p + ea + eb - 34 else 0
    (some ((old.map fun b => max b p).getD p), (old.map fun b => (p - b).toNat).getD 0)
  | _, _ => (old, 0)

/-- The staging word and SPEC of a cell after the pass: moved to the new base, with its products added (R275). -/
def Products.cell (x : Products) (s : State) (i j : Nat) : Int × Nat :=
  let c := staged s i j
  let moved := (c.1 / 2 ^ (x.base s).2, c.2)
  if i < s.me.mvl ∧ j < s.me.mvl then (x.pairs i j).foldl (fun c p => (addProduct x.da x.db ((x.base s).1.getD 0) p.1 p.2 c).1) moved else moved

/-- The staging words after the pass fit in their 40 bits. -/
def Products.Fits (x : Products) (s : State) : Prop := ∀ i j, i < 256 → j < 256 → -(2 ^ 39) ≤ (x.cell s i j).1 ∧ (x.cell s i j).1 < 2 ^ 39

/-- The cell that SCOUT writes for an exact sum (R287). -/
def sumCell (fmt : Nat) (x : Int) : Nat :=
  if fmt = 0 then (if (rneFp32 (.ofInt x)).1 = 0x80000000 then 0 else (rneFp32 (.ofInt x)).1)
  else let w := if fmt = 1 then 32 else 16; (max (-(2 ^ (w - 1))) (min (2 ^ (w - 1) - 1) x) % 2 ^ w).toNat

/-- What ACCRD gives the elements of its destination (R282). -/
def accLanes (d : VRegN) (a : AccN) (c : Bool) (r : BitVec 8) (s : State) : Lanes :=
  let vd := s.me.v[d]
  let l := blockLen vd.tag
  let f (e : Nat) : XVal := cellVal s.core.fmt (if c then cellAt a e r.toNat s else cellAt a r.toNat e s)
  let es := (List.range (min s.me.vl s.me.mvl)).filter (active s.me)
  let scale (k : Nat) : Nat × Nat := rowScale (vKind vd) f (((List.range l).map fun j => k * l + j).filter es.contains) (scaleByte vd.scale k)
  { dest := d, tag := vd.tag, srcs := [], ok := true, act := active s.me
    code := fun e =>
      if s.me.mvl ≤ e then (0, 0)
      else if l = 0 then encodeVal (vKind vd) (roundingOf s.me) e (f e)
      else let y := encodeBlocked (roundingOf s.me) (vKind vd) (scale (e / l)).1 e (f e); (y.1, y.2 ||| (scale (e / l)).2)
    scale := fun k => (scale k).1 }

end Sys2Proof.Claims

/-- An instruction of the OPA family with legal operands and leave completes; under S32 with NB 1 and no open block it adds its sum of products to every cell of its tile below
MVL, clamped to 32 bits, and changes no other cell, no vector and no general register and no memory. In every format, in the open block of its tile or a new one, it moves the staging words to its base and adds its
products to them; with NB products the block is folded into the cells, and otherwise it stays open. An open block of another tile, or one that OPA.S would take above 32 products, is folded first. A poisoned element of its slices, of its operand tile's column or of the cells that a fold reads is its POISON trap, with nothing done. Without leave it asks and waits, OPA.T whose tile bit is clear only
retires, and illegal operands make it an illegal operation. An instruction of the array is held while an MMODE of another strand waits (R272, R275 to R281, R284, R345). Completes: opa, opaT, opaS, opaAca. -/
def Obligations.OuterProducts : Prop :=
  (∀ (i : Instr) (d : AccN) (ok : Bool) (f : Nat → Nat → Int) (s : State), outerOf s i = some (d, ok, f) → Fresh s →
    (FormatStands s → ok = false → exec i s = .next (illop i 0 s)) ∧
    (FormatStands s → ok = true → s.me.leave = .none → ∃ n c, exec i s = .next { s with me := { s.me with leave := .asked n c true } }) ∧
    (ok = true → ∀ n c, s.me.leave = .asked n c true → exec i s = .next s) ∧
    (ok = true → Granted s →
      (∀ e r m, FirstOfSlices (slicesOf i) e r m s → ∃ t, exec i s = .next t ∧ PoisonTrap 0 r.1 e m.producer 0 s t ∧ Unwritten s t) ∧
      (CleanSlices (slicesOf i) s → ∀ row col p, FirstCell (columnOf s i).1 (columnOf s i).2 row col p s →
        ∃ t, exec i s = .next t ∧ PoisonTrap 2 (columnOf s i).1 (Config.poisonCell row col) p 0 s t ∧ Unwritten s t)) ∧
    (ok = true → Ready i s → s.core.fmt = 1 → s.me.nbl = 0 → s.core.owner = none → s.me.mvl ≤ 256 → (∀ i j, i < s.me.mvl → j < s.me.mvl → f i j ≠ 0 → CellClean d.1 i j s) →
      ∃ t, exec i s = .next t ∧ t.core.owner = none ∧ t.me.v = s.me.v ∧ t.me.g = s.me.g ∧ t.me.m = s.me.m ∧ t.mem = s.mem ∧ t.me.pc = (advance s).me.pc ∧
        (∀ i j, i < 256 → j < 256 → cellS32 t d i j =
          if i < s.me.mvl ∧ j < s.me.mvl then max (-(2 ^ 31)) (min (2 ^ 31 - 1) (cellS32 s d i j + f i j)) else cellS32 s d i j) ∧
        (∀ (e : Nat) (i j : Nat), e < 2 → e ≠ d.1 → i < 256 → j < 256 → cellS32 t e i j = cellS32 s e i j)) ∧
    (∀ x, productsOf s i = some x → ok = true → Ready i s → s.core.fmt ≤ 2 → s.me.mvl ≤ 256 →
      let count := if s.core.owner = none then 0 else s.core.count
      (∀ e, s.core.owner = some e → (e ≠ d.1 ∨ 1 < x.n ∧ 32 < s.core.count + x.n) →
        FoldTraps e (staged s) s (exec i s) ∧
        (FoldClean e (staged s) s → ∀ y, productsOf (fold s) i = some y → y.Fits (fold s) →
          (2 ^ s.me.nbl ≤ y.n → FoldTraps d.1 (y.cell (fold s)) s (exec i s)) ∧
          ((2 ^ s.me.nbl ≤ y.n → FoldClean d.1 (y.cell (fold s)) s) → exec i s = exec i (fold s)))) ∧
      ((s.core.owner = none ∨ s.core.owner = some d.1) → (x.n = 1 ∨ count + x.n ≤ 32) →
        x.Fits s →
        (2 ^ s.me.nbl ≤ count + x.n → FoldTraps d.1 (x.cell s) s (exec i s)) ∧
        ((2 ^ s.me.nbl ≤ count + x.n → FoldClean d.1 (x.cell s) s) →
          ∃ t, exec i s = .next t ∧ t.me.v = s.me.v ∧ t.me.g = s.me.g ∧ t.me.m = s.me.m ∧ t.mem = s.mem ∧ t.me.pc = (advance s).me.pc ∧ t.core.fmt = s.core.fmt ∧
          (∀ (e : AccN) (i j : Nat), tileOk e s = true → e ≠ d → i < 256 → j < 256 → cellAt e i j t = cellAt e i j s) ∧
          (count + x.n < 2 ^ s.me.nbl → t.core.owner = some d.1 ∧ t.core.count = count + x.n ∧ t.core.base = (x.base s).1 ∧
            ∀ i j, i < 256 → j < 256 → staged t i j = x.cell s i j ∧ cellAt d i j t = cellAt d i j s) ∧
          (2 ^ s.me.nbl ≤ count + x.n → t.core.owner = none ∧
            ∀ i j, i < 256 → j < 256 → cellAt d i j t = folded s.core.fmt ((x.base s).1.getD 0) (cellAt d i j s) (x.cell s i j).1 (x.cell s i j).2))))) ∧
  (∀ (i : Instr) (s : State), ((useOf i).map fun u => u.unit) = some (some .outer) → Fresh s → arrayRenamed s.me = false → (∃ t ∈ s.core.strands, ∃ n, t.leave = .format n) → exec i s = .next s) ∧
  (∀ (d : AccN) (a b : VRegN) (c : TmReg) (k : BitVec 6) (s : State), Fresh s → FormatStands s → opaOk d s.me.v[a] s.me.v[b] k.toNat s = true →
    s.me.tm[c].getLsbD (s.me.sbase.toNat / 256 % 256) = false → exec (.opaT d a b c k) s = .next (retire s))

/-- ACCZ makes every cell of its tile zero and no other; ACCRD reads a row or a column into a register; THRESH compares the coarse maximum of a tile with a threshold and sets one
tile bit; TMAND and TMPOPC combine and count tile bits; SCOUT gives every cell below MVL its sum of high parts in the format of the cells, once it has leave, for which it asks, and folds an open block first. A
fold gives each cell the value of the format's row, and a product adds its bit products to a staging word, or a special value to SPEC. The first poisoned cell or element that one of them, or a fold, consumes is its POISON trap, with nothing done. Illegal operands make each an illegal
operation, and ACCRD waits for planes of the pool (R172, R275 to R278, R282, R284, R287 to R289, R345). Completes: accz, accrd, thresh, tmand, tmpopc, scout. -/
def Obligations.AccumulatorInstructions : Prop :=
  ∀ s : State, Fresh s → FormatStands s →
    (∀ d : AccN, (tileOk d s = false → exec (.accz d) s = .next (illop (.accz d) 0 s)) ∧
      (tileOk d s = true → ∃ t, exec (.accz d) s = .next t ∧ t.me = (retire s).me ∧ t.mem = s.mem ∧ (s.core.owner = some d.1 → t.core.owner = none) ∧
        (∀ i j, i < 256 → j < 256 → cellAt d i j t = 0) ∧ (∀ (e : AccN) i j, tileOk e s = true → e ≠ d → i < 256 → j < 256 → cellAt e i j t = cellAt e i j s))) ∧
    (∀ (d : VRegN) (a : AccN) (c : Bool) (r : BitVec 8),
      (tileOk a s = false ∨ s.me.mvl ≤ r.toNat ∨ budgetOk s.me d s.me.v[d].tag = false → exec (.accrd d a c r) s = .next (illop (.accrd d a c r) 0 s)) ∧
      (tileOk a s = true → r.toNat < s.me.mvl → budgetOk s.me d s.me.v[d].tag = true → roomFor d s.me.v[d].tag s = false → exec (.accrd d a c r) s = .next s)) ∧
    (∀ (d : VRegN) (a : AccN) (c : Bool) (r : BitVec 8), tileOk a s = true → r.toNat < s.me.mvl → budgetOk s.me d s.me.v[d].tag = true → roomFor d s.me.v[d].tag s = true →
      let cells := ((List.range (min s.me.vl s.me.mvl)).filter (active s.me)).map fun e => if c then (e, r.toNat) else (r.toNat, e)
      (∀ u, closeIf (fun o => o == a.1) s = .stop u → exec (.accrd d a c r) s = .next u) ∧
      ∀ s1, closeIf (fun o => o == a.1) s = .ok () s1 →
        (∀ row col p, FirstCell a.1 cells row col p s1 → ∃ t, exec (.accrd d a c r) s = .next t ∧ PoisonTrap 2 a.1 (Config.poisonCell row col) p 0 s t ∧ Unwritten s t) ∧
        ((∀ x ∈ cells, CellClean a.1 x.1 x.2 s1) → s1.me.v = s.me.v → Fresh s1 → ∃ t, exec (.accrd d a c r) s = .next t ∧ (accLanes d a c r s1).Done s1 t)) ∧
    (∀ (o : AccN) (p : Nat → Bool), s.core.owner = some o.1 → p o.1 = true →
      (FoldClean o.1 (staged s) s → closeIf p s = .ok () (fold s)) ∧
      (∀ row col w, FirstCell o.1 (contributing (staged s)) row col w s → ∃ t, closeIf p s = .stop t ∧ PoisonTrap 2 o.1 (Config.poisonCell row col) w 0 s t ∧ Unwritten s t)) ∧
    (∀ (d : TmReg) (a : AccN) (b c : GReg) (g : Bool), tileOk a s = false → exec (.thresh d a b g c) s = .next (illop (.thresh d a b g c) 0 s)) ∧
    (∀ (d : TmReg) (a : AccN) (b c : GReg) (g : Bool), tileOk a s = true → ∀ u, closeIf (fun o => o == a.1) s = .stop u → exec (.thresh d a b g c) s = .next u) ∧
    (∀ (d : TmReg) (a : AccN) (b c : GReg) (g : Bool), tileOk a s = true → ∀ s1, closeIf (fun o => o == a.1) s = .ok () s1 → ∀ row col p,
      FirstCell a.1 (squareCells s.me.mvl) row col p s1 → ∃ t, exec (.thresh d a b g c) s = .next t ∧ PoisonTrap 2 a.1 (Config.poisonCell row col) p 0 s t ∧ Unwritten s t) ∧
    (∀ (d : TmReg) (a : AccN) (b c : GReg) (g : Bool), tileOk a s = true → ∀ s1, closeIf (fun o => o == a.1) s = .ok () s1 → (∀ x ∈ squareCells s.me.mvl, CellClean a.1 x.1 x.2 s1) → Fresh s1 →
      let cells := (List.range s1.me.mvl).flatMap fun i => (List.range s1.me.mvl).map fun j => cellVal s1.core.fmt (cellAt a i j s1)
      let r := threshResult (coarseMax cells) g (gR b s1).toInt (gR c s1).toNat
      s1.me.mvl ≤ 256 → ∃ m : TileMask, exec (.thresh d a b g c) s = .next (retire (setG c r.2 { s1 with me := { s1.me with tm := s1.me.tm.set d m } })) ∧
        ∀ k, k < 256 → m.getLsbD k = if k = s1.me.sbase.toNat / 256 % 256 then r.1 else s1.me.tm[d].getLsbD k) ∧
    (∀ (d a b : TmReg) (n : Bool), exec (.tmand d a b n) s =
      .next (retire { s with me := { s.me with tm := s.me.tm.set d (s.me.tm[a] &&& if n then ~~~s.me.tm[b] else s.me.tm[b]) } })) ∧
    (∀ (d : GReg) (a : TmReg), exec (.tmpopc d a) s = .next (retire (setG d (BitVec.ofNat 64 ((List.range 256).countP s.me.tm[a].getLsbD)) s))) ∧
    (∀ (d : AccN) (a b : VRegN) (e : GReg) (p : Fin 4), let n := p.1 + 1
      let legal := tileOk d s = true ∧ plainS s.me.v[a] = true ∧ plainS s.me.v[b] = true ∧ 0 < s.me.vl ∧ s.me.vl % s.me.mvl = 0 ∧
        s.me.vl / s.me.mvl * highPlanes n s.me.v[a] * highPlanes n s.me.v[b] ≤ 1024
      (¬legal → exec (.scout d a b e p) s = .next (illop (.scout d a b e p) 0 s)) ∧
      (legal → s.me.leave = .none → ∃ k c, exec (.scout d a b e p) s = .next { s with me := { s.me with leave := .asked k c true } })) ∧
    (∀ (d : AccN) (a b : VRegN) (e : GReg) (p : Fin 4), let n := p.1 + 1
      tileOk d s = true → plainS s.me.v[a] = true → plainS s.me.v[b] = true → 0 < s.me.vl → s.me.vl % s.me.mvl = 0 →
      s.me.vl / s.me.mvl * highPlanes n s.me.v[a] * highPlanes n s.me.v[b] ≤ 1024 → Granted s → s.core.fmt ≤ 2 → s.me.mvl ≤ 256 →
      let srcs := [scoutSrc n a s, scoutSrc n b s]
      (∀ j r m, FirstPoison srcs (List.range s.me.vl) j r m → ∃ t, exec (.scout d a b e p) s = .next t ∧ PoisonTrap 0 r.1 j m.producer 0 s t ∧ Unwritten s t) ∧
      (NoPoison srcs (List.range s.me.vl) → ∀ o, s.core.owner = some o →
        FoldTraps o (staged s) s (exec (.scout d a b e p) s) ∧ (FoldClean o (staged s) s → exec (.scout d a b e p) s = exec (.scout d a b e p) (fold s))) ∧
      (NoPoison srcs (List.range s.me.vl) → s.core.owner = none → ∃ t, exec (.scout d a b e p) s = .next t ∧ t.me.v = s.me.v ∧ t.mem = s.mem ∧ (∀ r : GReg, r ≠ e → t.me.g[r] = s.me.g[r]) ∧
        (∀ i j, i < s.me.mvl → j < s.me.mvl → cellAt d i j t = sumCell s.core.fmt
          ((List.range (s.me.vl / s.me.mvl)).map fun t => highPart n s.me.v[a] (t * s.me.mvl + i) * highPart n s.me.v[b] (t * s.me.mvl + j)).sum) ∧
        (∀ i j, i < 256 → j < 256 → ¬(i < s.me.mvl ∧ j < s.me.mvl) → cellAt d i j t = cellAt d i j s) ∧
        (∀ (o : AccN) (i j : Nat), tileOk o s = true → o ≠ d → i < 256 → j < 256 → cellAt o i j t = cellAt o i j s))) ∧
    (∀ d : AccN, s.core.owner = some d.1 → tileOk d s = true → s.core.fmt ≤ 2 → let t := fold s
      t.core.owner = none ∧ t.core.count = 0 ∧ t.core.fmt = s.core.fmt ∧ t.mem = s.mem ∧ t.me = { s.me with vflags := t.me.vflags } ∧
      (∀ i j, i < 256 → j < 256 → cellAt d i j t = folded s.core.fmt (s.core.base.getD 0) (cellAt d i j s) (staged s i j).1 (staged s i j).2) ∧
      (∀ (e : AccN) (i j : Nat), tileOk e s = true → e ≠ d → i < 256 → j < 256 → cellAt e i j t = cellAt e i j s)) ∧
    (∀ (da db : Side) (base : Int) (a b : Sig) (x : Int × Nat), 0 < da.p → 0 < db.p → let r := addProduct da db base a b x
      (∀ s m e t n f, a = .fin s m e → b = .fin t n f →
        r.1 = (x.1 + (if s = t then 1 else -1) * bitProducts da db m n (e + f - base), x.2) ∧
        (r.2 = 0 ∨ r.2 = fTRUNC) ∧
        (r.2 = fTRUNC ↔ ∃ p q : Nat, p < da.p ∧ q < db.p ∧ m.testBit p = true ∧ n.testBit q = true ∧ (p : Int) + q + (e + f - base) < 0)) ∧
      (a = .nan ∨ b = .nan → r = ((x.1, 3), 0)) ∧
      (∀ s t m e, m = 0 → (a = .inf s ∧ b = .fin t m e ∨ a = .fin t m e ∧ b = .inf s) → r = ((x.1, 3), fNV)) ∧
      (∀ s t, (a = .inf s ∧ b = .inf t ∨ ∃ m e, m ≠ 0 ∧ (a = .inf s ∧ b = .fin t m e ∨ a = .fin t m e ∧ b = .inf s)) →
        let v := if s = t then 1 else 2
        (x.2 = 0 ∨ x.2 = v → r = ((x.1, v), 0)) ∧ (x.2 = 3 → r = ((x.1, 3), 0)) ∧ (x.2 = 3 - v → r = ((x.1, 3), fNV))))

/-! ## Vector memory -/

namespace Sys2Proof.Claims

/-- Elements `a` to `n - 1` done one after another: `st` are the states before each and after the last, and no access faults. -/
def Accesses {α : Type} (f : Nat → State → Except (Word × XFault) α × State) (a n : Nat) (st : Nat → State) (x : Nat → α) : Prop :=
  ∀ k, a ≤ k → k < n → f k (st k) = (.ok (x k), st (k + 1))

/-- Element `n`, of those from `a` on, is the first whose access faults, at an address, in a state. -/
def FaultsAt {α : Type} (f : Nat → State → Except (Word × XFault) α × State) (a n : Nat) (st : Nat → State) (va : Word) (x : XFault) (s : State) : Prop :=
  a ≤ n ∧ (∃ y : Nat → α, Accesses f a n st y) ∧ f n (st n) = (.error (va, x), s)

/-- The strand is the same before every element from `a` on and after the last. -/
def SameStrand (a n : Nat) (st : Nat → State) (s : State) : Prop := ∀ k, a ≤ k → k ≤ n → (st k).me = s.me ∧ (st k).quota = none

/-- Where the elements of an instruction end: VL, or SIX where that lies above it. -/
def lastOf (s : State) : Nat := max s.me.six s.me.vl

/-- The elements that an instruction has still to do, active or not. -/
def rest (s : State) : List Nat := toDo (fun _ => true) s

/-- A trap of a memory instruction at an element: SIX keeps the start of its segment, and VSTOP says whether anything was done (R39, R338). -/
def TrapsAt (acc : Access) (n : Nat) (va : Word) (x : XFault) (u : State) (s : State) (o : Out) : Prop :=
  ∃ t, o = .next (trapHere (elementTrap acc n va x u) t) ∧ t.me.pc = s.me.pc ∧ t.me.six = n / 64 * 64 ∧ t.me.tvec = s.me.tvec

/-- The elements from SIX up to VL that a load's data in error poison. -/
def badElements (s : State) (x : Nat → Loaded) : List Nat :=
  ((rest s).flatMap fun k => (x k).bad).filter fun e => decide (s.me.six ≤ e) && decide (e < s.me.vl)

/-- An instruction that loads a register does what Lanes say in a state, and then poisons the elements whose data were in error (R344). -/
def Loads (l : Lanes) (bad : List Nat) (s t : State) : Prop := ∃ u, t = poisonElements l.dest s.me.pc bad u ∧ l.Done s u

end Sys2Proof.Claims

/-- An access of the vector path to an aligned piece of memory reads its bits from the bytes at the home, with the first word of them that is in error, and writes, as one access, just its bits of them
(R40, R43, R99, R118, R344). -/
def Obligations.VectorPieces : Prop :=
  ∀ (p : Piece) (s s1 : State) (acc : Access) (pa : Nat) (m : MemType), (p.size = 1 ∨ p.size = 2 ∨ p.size = 4 ∨ p.size = 8) → p.va.toNat % p.size = 0 →
    translate (reqOf s.me) acc p.size p.va s = (.ok (.mem pa m), s1) →
    (Settled s1 → s1.me = s.me → m ≠ .ctl → Uncopied m pa s1 → ∃ t, t.mem = s1.mem ∧ t.me = s.me ∧
      readPieces readVector (reqOf s.me) acc [p] s = (.ok ⟨wordAt s1 pa p.size / 2 ^ p.sh % 2 ^ p.n * 2 ^ p.pos, badAt (memLocs pa p.size) s1,
        (List.range p.size).map fun k => (m == .wb, pa + k)⟩, t)) ∧
    (∀ slice code, ∃ bs : List ByteWrite, pieceWrites (reqOf s.me) acc slice code [p] s = (.ok [⟨s.me.sid, .vector, s.me.ctx, m == .wb, bs, slice⟩], s1) ∧ bs.length = p.size ∧
      ∀ (k : Nat) (b : ByteWrite), bs[k]? = some b → b.loc = .mem (pa + k) ∧ b.val.toNat = code / 2 ^ p.pos % 2 ^ p.n * 2 ^ p.sh / 2 ^ (8 * k) % 256 ∧
        b.mask.toNat = (2 ^ p.n - 1) * 2 ^ p.sh / 2 ^ (8 * k) % 256)

/-- VLD gives its active elements from SIX on the codes that its accesses read and its blocks the scale bytes they read; a compressed image gives zeros in absent blocks; VGATHER reads by
index, writes the substitute for an index out of range, keeps the element at the sentinel, and writes the status word. Data in error poison their elements, and the first poisoned index that VGATHER
consumes is its POISON trap, before which no element of its group is done. The first access that faults is the trap. Illegal
operands and a budget without room make each an illegal operation, and each waits for planes of the pool (R32, R39, R47, R171 to R173, R304, R305, R307, R308, R340, R344, R345; the model's choices of
log entries 74, 81, 98 and 113). Completes: vld, vldCompressed, vgather. -/
def Obligations.VectorLoads : Prop :=
  (∀ (s : State) (d : VRegN) (a b c : GReg) (pm : Bool), Begun s → let vd := vSrc d s
    let legal := planeMajorOk pm (gR a s) (gR b s) s.me.vl = true ∧ budgetOk s.me d vd.tag = true
    let f := loadElement vd pm (gR a s) (gR b s) (gR c s) s.me.six
    let l := blockLen vd.tag
    (¬legal → exec (.vld d a b c pm) s = .next (illop (.vld d a b c pm) 0 s)) ∧
    (legal → roomFor d vd.tag s = false → exec (.vld d a b c pm) s = .next s) ∧
    (∀ st, st s.me.six = raiseMisses .vload (elementVas pm (gR a s) (gR b s) (vWidth vd) s) s → legal → roomFor d vd.tag s = true →
      (∀ x, Accesses f s.me.six s.me.vl st x → SameStrand s.me.six (lastOf s) st s →
        ∃ t, exec (.vld d a b c pm) s = .next t ∧
          Loads ⟨d, vd.tag, [], true, active s.me, fun k => ((x k).code.getD 0, 0),
            fun k => ((x (max s.me.six (k * l))).scale.map fun p => p.2).getD 0x7F⟩ (badElements s x) (st (lastOf s)) t) ∧
      (∀ n va x u, n < s.me.vl → FaultsAt f s.me.six n st va x u → SameStrand s.me.six n st s → u.me = s.me → TrapsAt .vload n va x u s (exec (.vld d a b c pm) s)))) ∧
  (∀ (s : State) (d : VRegN) (a b c : GReg), Fresh s → let legal := (gR a s).toNat % 64 = 0 ∧ blockLen s.me.v[d].tag = 0 ∧ budgetOk s.me d s.me.v[d].tag = true
    let w := tagWidth s.me.v[d].tag
    let blocks := (s.me.vl * containerBits w + 511) / 512
    let header := readWords readVector (reqOf s.me) .vload (gR a s) (List.range ((blocks + 63) / 64)) s
    (¬legal → exec (.vldCompressed d a b c) s = .next (illop (.vldCompressed d a b c) 0 s)) ∧
    (legal → roomFor d s.me.v[d].tag s = false → exec (.vldCompressed d a b c) s = .next s) ∧
    (legal → roomFor d s.me.v[d].tag s = true → ∀ va x s1, header = (.error (va, x), s1) → exec (.vldCompressed d a b c) s = .next (trapHere (elementTrap .vload 0 va x s1) s1)) ∧
    (legal → roomFor d s.me.v[d].tag s = true → ∀ ws s1, header = (.ok ws, s1) → s1.me = s.me →
      (imageMalformed (ws.map fun x => x.code) blocks (gR b s).toNat = true → exec (.vldCompressed d a b c) s = .next (illop (.vldCompressed d a b c) 0 s1)) ∧
      (imageMalformed (ws.map fun x => x.code) blocks (gR b s).toNat = false → ∀ st, st 0 = s1 → let f := loadExpanded (gR a s) ws w
        (∀ x, Accesses f 0 s.me.vl st x → SameStrand 0 s.me.vl st s →
          ∃ t, exec (.vldCompressed d a b c) s = .next t ∧
            Loads ⟨d, s.me.v[d].tag, [], true, active s.me, fun k => ((x k).code.getD 0, 0), fun _ => 0x7F⟩ (badElements s x) (st s.me.vl) t) ∧
        (∀ n va x u, n < s.me.vl → FaultsAt f 0 n st va x u → exec (.vldCompressed d a b c) s = .next (trapHere (elementTrap .vload n va x u) u)) ∧
        (∀ k u, active u.me k = true → expandedByte (gR a s) (ws.map fun x => x.code) (containerBits w * k / 8) = none → ∃ y, f k u = (.ok y, u) ∧ y.code = some 0)))) ∧
  (∀ (s : State) (d b : VRegN) (a c : GReg), Begun s → let vd := vSrc d s
    let vb := vSrc b s
    let legal := gatherOk vd vb (gR c s) = true ∧ budgetOk s.me d vd.tag = true
    let f := gatherElement vd vb (gR a s) (gR c s)
    let test (k : Nat) : IndexTest := testIndex (gR c s) (elem vb k)
    let begins := raiseMisses .gather (indexedVas vd vb (gR a s) (gR c s) s) s
    (¬legal → exec (.vgather d a b c) s = .next (illop (.vgather d a b c) 0 s)) ∧
    (legal → roomFor d vd.tag s = false → exec (.vgather d a b c) s = .next s) ∧
    (∀ st, st s.me.six = begins → legal → roomFor d vd.tag s = true → NoPoison (named s [b]) (toDo (active s.me) s) →
      (∀ x, Accesses f s.me.six s.me.vl st x → SameStrand s.me.six (lastOf s) st s →
        ∃ t, exec (.vgather d a b c) s = .next t ∧
          Loads ⟨d, vd.tag, [], true, fun k => active s.me k && test k != .sentinel,
            fun k => if test k = .outside then (substitute (kindOf vd.tag) (roundingOf s.me), fSUB) else ((x k).1.code.getD 0, 0), fun _ => 0x7F⟩
            (badElements s fun k => (x k).1)
            (setG (nextReg c) (gatherStatus (gR c s) vb s) (countGather s.me.ctx ((rest s).filterMap fun k => (x k).2) (st (lastOf s)))) t) ∧
      (∀ n va x u, n < s.me.vl → FaultsAt f s.me.six n st va x u → SameStrand s.me.six n st s → u.me = s.me → TrapsAt .gather n va x u s (exec (.vgather d a b c) s))) ∧
    (∀ st x e r m, st 0 = begins → s.me.six = 0 → legal → roomFor d vd.tag s = true → FirstPoison (named s [b]) (toDo (active s.me) s) e r m → e < max s.core.alc 64 →
      Accesses f 0 (e + 1) st x → SameStrand 0 (e + 1) st s →
      ∃ t, exec (.vgather d a b c) s = .next t ∧ PoisonTrap 0 b.1 e m.producer 0 s t ∧ t.me.v = s.me.v ∧ t.me.m = s.me.m ∧ t.core = begins.core))

/-- A store of the vector path puts the writes of its elements on their way, in element order; VSCATTER.ORD in element order and VSCATTER.UNO in some order, with the status word;
DRAIN closes an open block of its tile and writes the image of the tile in order of rows and columns; each then retires and changes no vector register. The first access that faults is the trap, and it leaves
an open block as it was; the first poisoned element or cell that one of them consumes is its POISON trap, before which no element of its group is done. Each but DRAIN goes on at the SIX of an earlier part.
Illegal operands make each an illegal operation (R39, R47, R119, R137, R173, R272, R278, R283, R304, R307, R340, R344, R345; the model's choices of log entries 33, 66 and 112). Completes: vst, vscatterOrd,
vscatterUno, drain. -/
def Obligations.VectorStores : Prop :=
  (∀ (s : State) (d : VRegN) (a b c : GReg) (pm : Bool), Begun s → let vd := vSrc d s
    let f := storeElement vd pm (gR a s) (gR b s) (gR c s)
    let begins := raiseMisses .vstore (elementVas pm (gR a s) (gR b s) (vWidth vd) s) s
    (planeMajorOk pm (gR a s) (gR b s) s.me.vl = false → exec (.vst d a b c pm) s = .next (illop (.vst d a b c pm) 0 s)) ∧
    (∀ st, st s.me.six = begins → planeMajorOk pm (gR a s) (gR b s) s.me.vl = true → NoPoison (named s [d]) (toDo (active s.me) s) →
      (∀ x, Accesses f s.me.six s.me.vl st x → (∀ k, s.me.six ≤ k → k ≤ lastOf s → (st k).me.vl = s.me.vl ∧ (st k).me.six = s.me.six) →
        exec (.vst d a b c pm) s = .next (retire { st (lastOf s) with quota := none })) ∧
      (∀ n va x u, n < s.me.vl → FaultsAt f s.me.six n st va x u → u.me.six = s.me.six → u.me.pc = s.me.pc → u.me.tvec = s.me.tvec → u.me.vl = s.me.vl →
        TrapsAt .vstore n va x u s (exec (.vst d a b c pm) s))) ∧
    (∀ st y e r m, st s.me.six = begins → planeMajorOk pm (gR a s) (gR b s) s.me.vl = true → FirstPoison (named s [d]) (toDo (active s.me) s) e r m → let n := groupStart s e
      Accesses f s.me.six n st y → let u := st n
      (∀ k, s.me.six ≤ k → k ≤ n → (st k).me = { s.me with vwq := (st k).me.vwq } ∧ (st k).quota = none) →
      let held : State := if n = 0 then u else { u with me := { u.me with six := n, held := some (match s.me.held with | some h => h | none => ⟨.none, s.me.pc, 0⟩) } }
      (∃ st2 y2, st2 n = held ∧ Accesses f n (e + 1) st2 y2 ∧ ∀ k, n ≤ k → k ≤ e + 1 → (st2 k).me.vl = s.me.vl) →
      ∃ t, exec (.vst d a b c pm) s = .next t ∧ PoisonTrap 0 d.1 e m.producer n u t ∧ t.me.vwq = u.me.vwq ∧ t.me.v = s.me.v ∧ t.core = u.core) ∧
    (∀ e u t ws, active u.me e = true → vBlock vd = 0 → pm = false → let cb := containerBits (vWidth vd)
      pieceWrites (reqOf u.me) .vstore false (containerCode (vKind vd) (elem vd e)) [⟨gR a s + BitVec.ofNat 64 (cb * e / 8), max 1 (cb / 8), cb * e % 8, cb, 0⟩] u =
        (.ok ws, t) → f e u = (.ok (), { t with me := { t.me with vwq := t.me.vwq ++ ws } })) ∧
    (∀ e u, active u.me e = false → f e u = (.ok (), u))) ∧
  (∀ (s : State) (d b : VRegN) (a c : GReg), Begun s → let vd := vSrc d s
    let vb := vSrc b s
    let begins := raiseMisses .scatter (indexedVas vd vb (gR a s) (gR c s) s) s
    let f := scatterElement vd vb (gR a s) (gR c s)
    let todo := toDo (active s.me) s
    let stored := todo.filter fun k => testIndex (gR c s) (elem vb k) == .inside
    (∀ i : Instr, i = .vscatterOrd d a b c ∨ i = .vscatterUno d a b c →
      (gatherOk vd vb (gR c s) = false → exec i s = .next (illop i 0 s)) ∧
      (∀ st x e r m, st 0 = begins → s.me.six = 0 → gatherOk vd vb (gR c s) = true → e < max s.core.alc 64 → Accesses f 0 (e + 1) st x → SameStrand 0 (e + 1) st s →
        (FirstPoison (named s [b]) todo e r m ∧ NoPoison (named s [d]) (stored.filter fun k => decide (k < e)) ∨
          FirstPoison (named s [d]) stored e r m ∧ NoPoison (named s [b]) (todo.filter fun k => decide (k ≤ e))) →
        ∃ t, exec i s = .next t ∧ PoisonTrap 0 r.1 e m.producer 0 s t ∧ t.me.v = s.me.v ∧ t.me.vwq = s.me.vwq ∧ t.core = begins.core)) ∧
    (∀ (st : Nat → State) (x : Nat → List Write), st s.me.six = begins → gatherOk vd vb (gR c s) = true → NoPoison (named s [b]) todo → NoPoison (named s [d]) stored →
      Accesses f s.me.six s.me.vl st x → SameStrand s.me.six (lastOf s) st s →
      let ws := (rest s).flatMap x
      let after (ws : List Write) (n : Nat) : State :=
        let t := setG (nextReg c) (gatherStatus (gR c s) vb s) (st (lastOf s))
        retire { t with me := { t.me with vwq := t.me.vwq ++ ws }, free := n }
      exec (.vscatterOrd d a b c) s = .next (after ws (st (lastOf s)).free) ∧ ∃ vs n, vs.Perm ws ∧ exec (.vscatterUno d a b c) s = .next (after vs n))) ∧
  (∀ (s : State) (a : AccN) (p q : GReg), Fresh s → FormatStands s → let w := gR q s
    let closing := closeIf fun o => o == a.1
    let n := s.me.mvl * s.me.mvl
    let cells := (squareCells s.me.mvl).map fun c => if ddTR w then (c.2, c.1) else c
    (tileOk a s = false ∨ drainOk w (gR p s) s.me.mvl = false → exec (.drain a p q) s = .next (illop (.drain a p q) 0 s)) ∧
    (tileOk a s = true → drainOk w (gR p s) s.me.mvl = true → ∀ u, closing s = .stop u → exec (.drain a p q) s = .next u) ∧
    (∀ now, tileOk a s = true → drainOk w (gR p s) s.me.mvl = true → closing s = .ok () now → now.me.mvl = s.me.mvl →
      let f := drainElement a.1 w (gR p s) now
      (∀ row col w' k st x, FirstCell a.1 cells row col w' now → cells[k]? = some (row, col) → ddCMP w = false → st 0 = s → Accesses f 0 (k + 1) st x →
        ∃ t, exec (.drain a p q) s = .next t ∧ PoisonTrap 2 a.1 (Config.poisonCell row col) w' 0 s t ∧ Unwritten s t) ∧
      ((∀ x ∈ cells, CellClean a.1 x.1 x.2 now) →
        let flags := orAll ((List.range n).map fun e => (drainCode a.1 w now (e / s.me.mvl) (e % s.me.mvl)).2)
        (∀ st x s2, ddCMP w = false → st 0 = s → Accesses f 0 n st x → closing (st n) = .ok () s2 →
          exec (.drain a p q) s = .next (retire (clearQuota (raise flags s2)))) ∧
        (∀ st va x u k, ddCMP w = false → st 0 = s → k < n → FaultsAt f 0 k st va x u →
          exec (.drain a p q) s = .next (trapHere (elementTrap .vstore k va x u) u)) ∧
        (∀ u s2, ddCMP w = true →
          writeWords (gR p s) ((compressedWords s.me.mvl (ddSTRIDE w) (containerBits (tagWidth (ddTAG w)))
            (blocksOf (s.me.mvl * ddSTRIDE w / 64) ((List.range s.me.mvl).flatMap (drainRow a.1 w now)))).filter fun x => decide (x.2.2 < n)) s = (none, u) →
          closing u = .ok () s2 → exec (.drain a p q) s = .next (retire (clearQuota (raise flags s2)))))))
/-! ## Copies and their tags -/

namespace Sys2Proof.Claims

/-- The tags of a word, lowest first, and those of them that are not BUSY. -/
def tagsOf (w : Word) : List Tag := (List.finRange 64).filter fun k => w.getLsbD k.1
def foundOf (w : Word) (s : State) : List Tag := (tagsOf w).filter fun k => s.core.tags[k].st != .busy

/-- Whether a tag is in a strand's grant, and whether its error is still to be delivered (R125, R129). -/
def Mine (k : Tag) (s : State) : Prop := s.me.tagFirst ≤ k.1 ∧ k.1 < s.me.tagFirst + s.me.tagCount
def Pending (k : Tag) (s : State) : Prop := s.core.tags[k].err ≠ 0 ∧ s.core.tags[k].told = false ∧ s.core.tags[k].st ≠ .busy

/-- What becomes of the tags of a list that an instruction observes: FLAGS merge into VFLAGS once, READY ones are FREE with nothing landed, and no other tag changes; copies may be
discarded, and nothing else changes beside VFLAGS (R128, R142, R312). -/
structure Observes (ks : List Tag) (s t : State) : Prop where
  tags : ∀ k : Tag, t.core.tags[k] =
    if k ∈ ks then
      let g := { s.core.tags[k] with merged := true }
      if g.st = .ready then { g with st := .free, codes := [], scales := [], lines := [], slots := [] } else g
    else s.core.tags[k]
  flags : t.me = withFlags (orAll (ks.map fun k => if s.core.tags[k].merged then 0 else s.core.tags[k].flags.toNat)) s.me
  copies : ∀ x ∈ t.core.copies, x ∈ s.core.copies
  mem : t.mem = s.mem

/-- The ENGINE trap of a tag's error, delivered once (R129, R335). -/
def EngineTrap (k : Tag) (s : State) (o : Out) : Prop :=
  ∃ t, o = .next t ∧ t.core.tags[k].told = true ∧ t.mem = s.mem ∧ t.me.pc = s.me.tvec ∧ t.me.tepc = s.me.pc ∧ t.me.priv = true ∧
    fld t.me.tcause 0 8 = 5 ∧ fld t.me.tcause 16 6 = k.1 ∧ fld t.me.tcause 8 8 = s.core.tags[k].err % 256

/-- A command on a tag, or none. -/
def commandOf (k : Tag) (c : Core) : Option Cmd := c.tags[k].cmd

/-- A transfer has stopped as a chunk of it ended, with its record if an access faulted: it has left the engine's queue (R129). -/
def StopsWith (m : Nat) (k : Tag) (c : Cmd) (rq : Req) (g : TagReg) (e : ChunkEnd) (t : State) : Prop :=
  let h := (coreAt m t).tags[k]
  h.st = (if c.dir = 1 ∨ c.dir = 2 then .landed else .ready) ∧ k ∉ (coreAt m t).engq ∧
  match e with
  | .error err => h.err = err
  | .fault acc va x => h.err = 1 ∧ h.record = faultRecord rq acc va (some (firstOpen g.mask)) x

/-- What a chunk has read is performed in a state: its bit is set, a register's codes and scales land in the tag, memory's are written at their home; with the last chunk the transfer
is over, and an access that faults stops it (R126, R141). -/
def Lands (m : Nat) (k : Tag) (c : Cmd) (rq : Req) (image : List (BitVec 8)) (d : ChunkData) (u : State) (o : Out) : Prop :=
  let g := (coreAt m u).tags[k]
  let l := blockLen (BitVec.ofNat 16 (fld c.w[2] 42 10))
  let first := d.chunk * chunkUnits (cmdN c)
  let done (t v : State) : Prop := ∃ h, (coreAt m t).tags[k] = h ∧ h.mask = setBit g.mask d.chunk true ∧ h.flags = g.flags ||| BitVec.ofNat 16 d.flags ∧
    h.cmd = some c ∧ h.err = g.err ∧ h.moved = none ∧ t.me = v.me ∧ t.mem = v.mem ∧
    ((∀ j, j < chunkCount (cmdN c) → j ≠ d.chunk → g.mask.getLsbD j = true) → (∀ j, chunkCount (cmdN c) ≤ j → g.mask.getLsbD j = false) →
      h.st = (if c.dir = 1 ∨ c.dir = 2 then .landed else .ready) ∧ k ∉ (coreAt m t).engq) ∧
    ((∃ j, j < chunkCount (cmdN c) ∧ j ≠ d.chunk ∧ g.mask.getLsbD j = false) → h.st = g.st ∧ (coreAt m t).engq = (coreAt m u).engq)
  (c.dir = 1 ∨ c.dir = 2 → ∃ t, o = .next t ∧ done t u ∧
    (coreAt m t).tags[k].codes = g.codes ++ (d.codes.mapIdx fun j x => (first + j, x)) ∧
    (coreAt m t).tags[k].scales = (if l = 0 then g.scales else g.scales ++ d.scales.mapIdx fun j x => (first / l + j, x))) ∧
  (c.dir ≠ 1 → c.dir ≠ 2 → ∀ ws e s2, chunkWrites c rq image first ⟨d.codes, d.scales, d.flags⟩ (modCoreTag m k (fun h => { h with moved := none }) u) = (ws, e, s2) →
    (coreAt m (homeWrites ws s2)).tags[k] = { g with moved := none } → (coreAt m (homeWrites ws s2)).engq = (coreAt m u).engq →
    (e = none → ∃ t, o = .next t ∧ done t (homeWrites ws s2)) ∧
    (∀ x, e = some x → ∃ t, o = .next t ∧ StopsWith m k c rq g x t ∧ t.mem = (homeWrites ws s2).mem))

end Sys2Proof.Claims

/-- WAITANY, WAITALL and FFRDY name tags of their strand: WAITANY waits until one of its set is not BUSY, WAITALL until none is, FFRDY never; they observe the tags they find, or deliver
the error of the lowest found one that has one. TAGCNT answers the status word, TAGMASK the chunks that have completed, COMMIT waits for its tag and for planes of the pool, puts what landed into the
register and frees the tag with its landing-buffer slots; a command whose tag word is illegal, as a frame may bring it, gives no register that tag (R51, R78, R125 to R129, R133, R143, R171, R172, R312, R313; the model's choices of log entries 24 and 81). Completes: waitany, waitall, ffrdy, tagcnt,
tagmask, commit. -/
def Obligations.TagInstructions : Prop :=
  ∀ s : State, inHandler s.me = false → s.wellKept →
    (∀ (d a : GReg), (∀ k ∈ tagsOf (gR a s), Mine k s) → let found := foundOf (gR a s) s
      let word (ks : List Tag) : Word := BitVec.ofNat 64 ((ks.map fun k => 2 ^ k.1).sum)
      (tagsOf (gR a s) ≠ [] → found = [] → exec (.waitany d a) s = .next s) ∧
      ((tagsOf (gR a s) = [] ∨ found ≠ []) → (∀ k ∈ found, ¬Pending k s) →
        ∃ t, exec (.waitany d a) s = .next (advance (setG d (word found) t)) ∧ Observes found s t) ∧
      (found ≠ tagsOf (gR a s) → exec (.waitall a) s = .next s) ∧
      (found = tagsOf (gR a s) → (∀ k ∈ found, ¬Pending k s) → ∃ t, exec (.waitall a) s = .next (advance t) ∧ Observes found s t) ∧
      ((∀ k ∈ found.take 1, ¬Pending k s) →
        ∃ t, exec (.ffrdy d a) s = .next (advance (setG d (match found with | k :: _ => BitVec.ofNat 64 k.1 | [] => BitVec.ofNat 64 (2 ^ 64 - 1)) t)) ∧
          Observes (found.take 1) s t) ∧
      (∀ k, found.find? (fun k => errorPending k s) = some k → EngineTrap k s (exec (.waitany d a) s) ∧
        (found = tagsOf (gR a s) → EngineTrap k s (exec (.waitall a) s)) ∧ (found.head? = some k → EngineTrap k s (exec (.ffrdy d a) s)))) ∧
    (∀ (d a : GReg) (k : Tag), (gR a s).getLsbD k.1 = true → ¬Mine k s → exec (.waitany d a) s = .next (illop (.waitany d a) 0 s) ∧
      exec (.waitall a) s = .next (illop (.waitall a) 0 s) ∧ exec (.ffrdy d a) s = .next (illop (.ffrdy d a) 0 s)) ∧
    (∀ k : Tag, Mine k s → ¬Pending k s → let g := s.core.tags[k]
      let units := (g.cmd.map fun c => fld c.w[2] 0 32).getD 0
      let chunk := 64 * ((units + 4095) / 4096)
      (∀ d : GReg, ∃ t n, exec (.tagcnt d k) s = .next (advance (setG d (BitVec.ofNat 64 (g.err * 2 ^ 56 + g.flags.toNat * 2 ^ 32 + min units (chunk * n))) t)) ∧
        t.me = s.me ∧ t.core.tags = s.core.tags ∧ t.mem = s.mem ∧ n ≤ 64 ∧ (∀ j, j < n → g.mask.getLsbD j = true) ∧ (n < 64 → g.mask.getLsbD n = false)) ∧
      (∀ d : MReg, ∃ t p, exec (.tagmask d k) s = .next (advance (setM d p t)) ∧ t.me = s.me ∧ t.core.tags = s.core.tags ∧ t.mem = s.mem ∧
        ∀ j, j < 16384 → p.getLsbD j = (g.st != .free && decide (j < units) && g.mask.getLsbD (j / chunk)))) ∧
    (∀ k : Tag, ¬Mine k s → (∀ d : GReg, exec (.tagcnt d k) s = .next (illop (.tagcnt d k) 0 s)) ∧ (∀ d : MReg, exec (.tagmask d k) s = .next (illop (.tagmask d k) 0 s)) ∧
      exec (.commit k) s = .next (illop (.commit k) 0 s)) ∧
    (∀ k : Tag, Mine k s → s.core.tags[k].st = .free ∨ commandOf k s.core = none ∨ (∀ c, commandOf k s.core = some c → c.dir ≠ 1 ∧ c.dir ≠ 2) →
      exec (.commit k) s = .next (illop (.commit k) 0 s)) ∧
    (∀ k : Tag, Mine k s → Pending k s → (∀ d : GReg, EngineTrap k s (exec (.tagcnt d k) s)) ∧ (∀ d : MReg, EngineTrap k s (exec (.tagmask d k) s))) ∧
    (∀ (k : Tag) (c : Cmd), Mine k s → commandOf k s.core = some c → c.dir = 1 ∨ c.dir = 2 → let g := s.core.tags[k]
      let tag : BitVec 16 := BitVec.ofNat 16 (fld c.w[2] 42 10)
      let n := fld c.w[2] 0 32
      let d := fin 32 (by decide) c.reg
      let takes := budgetOk s.me d tag && !tagIllegal tag
      g.st ≠ .free →
      (takes = false → exec (.commit k) s = .next (illop (.commit k) 0 s)) ∧
      (takes = true → g.st = .busy → exec (.commit k) s = .next s) ∧
      (takes = true → Pending k s → EngineTrap k s (exec (.commit k) s)) ∧
      (takes = true → g.st ≠ .busy → g.err ≠ 0 → g.told = true →
        ∃ t, exec (.commit k) s = .next (advance t) ∧ t.me = { s.me with vflags := t.me.vflags } ∧ t.mem = s.mem ∧ t.core.tags[k].st = .free ∧ t.core.tags[k].slots = []) ∧
      (takes = true → g.st = .landed → g.err = 0 → roomFor d tag s = false → exec (.commit k) s = .next s) ∧
      (takes = true → g.st = .landed → g.err = 0 → roomFor d tag s = true → n ≤ 16384 → ∃ (t : State) (v : VReg),
        exec (.commit k) s = .next (advance (let u := mapTo d tag t; { u with me := { u.me with v := u.me.v.set d v, hwm := raiseHwm d.1 n u.me.hwm } })) ∧
        t.me = { s.me with vflags := t.me.vflags } ∧ t.mem = s.mem ∧ (g.merged = false → t.me.vflags = (raise g.flags.toNat s).me.vflags) ∧ (g.merged = true → t.me.vflags = s.me.vflags) ∧
        t.core.tags[k].st = .free ∧ t.core.tags[k].slots = [] ∧
        (∀ j : Tag, j ≠ k → t.core.tags[j] = s.core.tags[j]) ∧ v.tag = tag ∧ v.planes.length = tagWidth tag ∧ v.poison = [] ∧
        (∀ e, e < n → elem v e = ((g.codes.find? fun x => x.1 == e).map fun x => x.2).getD 0 % 2 ^ tagWidth tag) ∧ (∀ e, n ≤ e → elem v e = 0) ∧
        (∀ b, b < 16384 / blockLen tag → scaleByte v.scale b =
          if b * blockLen tag < n then ((g.scales.find? fun x => x.1 == b).map fun x => x.2).getD 0x7F % 256 else 0x7F)))

/-- CPY and CPYX on a tag of the strand that is FREE or READY hand a legal command to the engine's queue: the tag is BUSY with it, at the queue's end; a full queue of 16 waits, an illegal command
is an illegal operation, and a CPYX of an empty routine slot is over at once with ERR 3. COPY_ACCEPT gives the first waiting command its landing slots once there is room. A poisoned register source is a
POISON trap. COPY_CHUNK performs an open chunk of the command that the engine serves, unless it shares a bit with a lower open one: what it reads waits for the banks that have to serve it; then its bit is
set, what it moved lands, and with the last chunk the tag is READY or LANDED and leaves the queue; an access that faults ends the transfer with ERR 1 and its record, memory in error with ERR 2, a
routine's fault or time limit with ERR 3. Nothing happens to a chunk that is done or not served (R78, R122 to R126, R129 to R132, R139, R141, R309 to R311, R345, R395; the model's choices of log entries
9, 36, 37, 38, 81, 86, 95 and 114). Completes: cpy, cpyx, copyAccept, copyChunk, calicoTimeLimit. -/
def Obligations.Copies : Prop :=
  (∀ (s : State) (a : GReg) (b : VRegN) (r : Fin 7) (k : Tag) (i : Instr) (x : Bool), (i = .cpy a b r k ∧ x = false ∨ i = .cpyx a b r k ∧ x = true) →
    inHandler s.me = false → Settled s → let g := s.core.tags[k]
    let c : Cmd := issuedCmd x a b r s
    let legal := cmdOk c && (!(r.1 == 5 || r.1 == 6) || s.me.v[b].tag == cmdSTAG c) && decide (slotsOfStrand s.me s + cmdSlots c ≤ 64)
    let read := if r.1 = 5 ∨ r.1 = 6 then List.range (fld c.w[2] 0 32) else []
    (¬Mine k s ∨ g.st = .busy ∨ g.st = .landed ∨ legal = false → exec i s = .next (illop i 0 s)) ∧
    (Mine k s → g.st = .ready → Pending k s → legal = true → EngineTrap k s (exec i s)) ∧
    (Mine k s → g.st = .free ∨ g.st = .ready ∧ ¬Pending k s → legal = true → ∀ e q mark, FirstPoison [(b, s.me.v[b])] read e q mark →
      ∃ t, exec i s = .next t ∧ PoisonTrap 0 q.1 e mark.producer s.me.six s t ∧ Unwritten s t) ∧
    (Mine k s → g.st = .free ∨ g.st = .ready ∧ ¬Pending k s → legal = true → NoPoison [(b, s.me.v[b])] read →
      (16 ≤ s.core.engq.length → exec i s = .next s) ∧
      (s.core.engq.length < 16 → ∃ (t : State) (e : Cmd), exec i s = .next t ∧ commandOf k t.core = some e ∧
        e.w = #v[gPlus a 0 s, gPlus a 1 s, gPlus a 2 s, gPlus a 3 s] ∧ e.dir = r.1 ∧ e.calico = x ∧ e.reg = b.1 ∧ e.sid = s.me.sid ∧ e.ctx = s.me.ctx ∧ e.priv = s.me.priv ∧
        (r.1 = 5 ∨ r.1 = 6 → e.src = (List.range (fld e.w[2] 0 32)).map (elem s.me.v[b])) ∧
        t.core.tags[k].mask = 0 ∧ t.core.tags[k].flags = 0 ∧ t.core.tags[k].codes = [] ∧ (∀ j : Tag, j ≠ k → t.core.tags[j] = s.core.tags[j]) ∧
        t.mem = s.mem ∧ t.me = { (advance s).me with vflags := t.me.vflags } ∧
        (if x = true ∧ routineOf s.me.mesh (fld e.w[3] 12 4) s = none then
           t.core.tags[k].err = 3 ∧ t.core.tags[k].st = (if r.1 = 1 ∨ r.1 = 2 then .landed else .ready) ∧ t.core.engq = s.core.engq
         else t.core.tags[k].err = 0 ∧ t.core.tags[k].st = .busy ∧ t.core.engq = s.core.engq ++ [k])))) ∧
  (∀ (s : State) (m : Nat) (k : Tag) (c : Cmd), s.wellKept → commandOf k (coreAt m s) = some c →
    let g := (coreAt m s).tags[k]
    ((coreAt m s).engq.find? (fun j => ((coreAt m s).tags[j].cmd.map fun x => x.granted) == some false) = some k →
      (cmdSlots c = 0 ∨ slotsHeld m s + cmdSlots c ≤ 64 →
        exec (.copyAccept m) s = .next (modCore m (fun x => { x with
          tags := x.tags.set k { x.tags[k] with cmd := some { c with granted := true }, slots := takeSlots m (cmdSlots c) s } }) s)) ∧
      (0 < cmdSlots c → 64 < slotsHeld m s + cmdSlots c → exec (.copyAccept m) s = .next s)) ∧
    let rq := engineReq m k c s
    let image := (routineOf m (fld c.w[3] 12 4) s).getD []
    (servedCore m s = some m → servedTag m s = some k → g.st = .busy →
      (c.calico = true → ∃ t, exec (.calicoTimeLimit m k) s = .next t ∧ StopsWith m k c rq g (.error 3) t ∧ t.me = s.me ∧ t.mem = s.mem) ∧
      (g.moved = none → ∀ n, n < chunkCount (cmdN c) → n < 64 → g.mask.getLsbD n = false → chunkHeld c rq image g.mask n s = true → exec (.copyChunk m k n) s = .next s) ∧
      (g.moved = none → ∀ n, n < chunkCount (cmdN c) → n < 64 → g.mask.getLsbD n = false → chunkHeld c rq image g.mask n s = false →
        let units := chunkUnits (cmdN c)
        let count := min units (cmdN c - n * units)
        let moved := chunkMoved c rq image n (n * units) count (nextTurn m s)
        (∀ e s1, moved = (.error e, s1) → (coreAt m s1).tags[k] = g → (coreAt m s1).engq = (coreAt m s).engq →
          ∃ t, exec (.copyChunk m k n) s = .next t ∧ StopsWith m k c rq g e t) ∧
        (∀ w s1, moved = (.ok w, s1) → (coreAt m s1).tags[k] = g → (coreAt m s1).engq = (coreAt m s).engq →
          let d : ChunkData := ⟨n, w.codes, w.scales, w.flags⟩
          let u := noteWaits (.engine m k.1) (nextTurn m s) s1
          (waitsAtBank (fun x => x == .engine m k.1) u = true → ∃ t, exec (.copyChunk m k n) s = .next t ∧ (coreAt m t).tags[k] = { g with moved := some d } ∧
            (coreAt m t).engq = (coreAt m s).engq ∧ t.me = s1.me ∧ t.mem = s1.mem ∧ t.dies = u.dies) ∧
          (waitsAtBank (fun x => x == .engine m k.1) u = false → Lands m k c rq image d u (exec (.copyChunk m k n) s))) ∧
        (∀ src sc s1, c.calico = false → chunkSource c rq (n * units) count (nextTurn m s) = (src, sc, s1) →
          (src.stop = none → sc.stop = none → ∃ t, moved = (.ok (moveUnits c (n * units) src.codes sc.codes), t) ∧ t.mem = s1.mem ∧ t.me = s1.me) ∧
          (∀ e, src.stop = some e ∨ src.stop = none ∧ sc.stop = some e → ∃ t, moved = (.error e, t) ∧ t.mem = s1.mem ∧ t.me = s1.me)))) ∧
    (∀ d : ChunkData, g.moved = some d →
      (∀ n, g.st ≠ .busy ∨ d.chunk ≠ n ∨ 2 ≤ (coreAt m s).pwr ∨ waitsAtBank (fun x => x == .engine m k.1) s = true → exec (.copyChunk m k n) s = .next s) ∧
      (g.st = .busy → (coreAt m s).pwr < 2 → waitsAtBank (fun x => x == .engine m k.1) s = false → d.chunk < chunkCount (cmdN c) → d.chunk < 64 →
        Lands m k c rq image d s (exec (.copyChunk m k d.chunk) s))) ∧
    (g.moved = none → ∀ n, n < 64 → g.mask.getLsbD n = true → exec (.copyChunk m k n) s = .next s) ∧
    (servedTag m s ≠ some k → (g.moved = none → ∀ n, exec (.copyChunk m k n) s = .next s) ∧ exec (.calicoTimeLimit m k) s = .next s))
/-! ## Streams -/

namespace Sys2Proof.Claims

/-- The strand at hand with one of its stream slots replaced. -/
def withSlot (q : SqN) (x : Stream) (s : State) : State := { s with me := { s.me with sq := s.me.sq.set q x } }

/-- The landing slots that SQOPEN reserves for the slot it names and, of a fibre pair, for its index slot (R134). -/
def reservedBy (fib : Bool) (desc : Word) : Nat × Nat :=
  let w := tagWidth (BitVec.ofNat 16 (fld desc 0 16))
  if fib then (if w = 32 then (32, 16) else (2 * w, 32)) else (2 * w, 0)

/-- The block of 16,384 elements that an element of a stream lies in, as it landed. -/
def blockOf (q : Stream) (e : Nat) : Option LandedBlock := q.landed.find? fun b => b.block == e / 16384

/-- An element that lies within a stream, as far as its end is known. -/
def Within (q : Stream) (e : Nat) : Prop := ∀ n, q.size = some n → e < n

/-- The closed slot. -/
def closedSlot : Stream := ⟨.closed, false, false, 0, [], 0, false, 0, none, [], [], none, false⟩

/-- The elements of a stream that a slot may come to hold: those of the two blocks from its position on, or, of a slot of half the space, of the one block, with the next while a pop waits for it;
after SQEND those whose fetch was due by then (R134, R135). -/
def Due (q : Stream) (n : Nat) : Prop :=
  (n = q.pos / 16384 ∨ n = q.pos / 16384 + 1 ∧ ((q.fib && tagWidth (BitVec.ofNat 16 (fld q.desc 0 16)) == 32) = false ∨ q.want = true)) ∧ ∀ b, q.bound = some b → n < b

/-- A bank has not served what a refill reads of a block that a pop needs. -/
def Awaited (q : SqN) (s : State) : Prop :=
  ∃ d ∈ s.dies.toList, ∃ b ∈ d.banks, ∃ r ∈ b.queue, ∃ k, k < s.me.vl ∧ Within s.me.sq[q] (s.me.sq[q].pos + k) ∧
    .stream s.me.mesh s.me.sid q.1 ((s.me.sq[q].pos + k) / 16384) ∈ r.waiters

end Sys2Proof.Claims

/-- SQOPEN opens a closed slot at position 0 with the pattern in its registers and free slots of the landing buffer, and for a fibre pair its partner too; it waits while the landing buffer has
no room. A pop gives every element of its register the code of the next element of the stream, zero beyond its end, and advances it; it waits while a block it needs has not landed, or a bank has not served what
its refill reads, or the pool has no planes; an element whose refill failed is its trap, and its block is forgotten; where an ended fibre slot will fetch no more, the row pointers tell whether the rows have ended. SQADV advances a slot, SQEND ends it and its partner, SQCLOSE closes them; on a closed slot each is illegal. A refill brings a
block that is due, once, into the slot's space, and another block or a block that has landed changes nothing (R78, R134 to R136, R172, R306, R314, R315, R395, R405; the model's choices of log entries
35, 81, 85, 95 and 101). Completes: sqopen, sqadv, sqend, sqclose, vldPop, streamRefill. -/
def Obligations.Streams : Prop :=
  ∀ s : State, inHandler s.me = false → s.wellKept →
    (∀ (d : SqN) (a b : GReg) (f : Bool), let pat := [gPlus a 0 s, gPlus a 1 s, gPlus a 2 s, gPlus a 3 s]
      let desc := gR b s
      let n := reservedBy f desc
      let legal := s.me.sq[d].st = .closed ∧ (f = true → d.1 % 2 = 0 ∧ s.me.sq[partner d].st = .closed) ∧ patternOk f desc pat = true ∧
        slotsOfStrand s.me s + n.1 + n.2 ≤ 64
      (¬legal → exec (.sqopen d a b f) s = .next (illop (.sqopen d a b f) 0 s)) ∧
      (legal → 64 < slotsHeld s.me.mesh s + n.1 + n.2 → exec (.sqopen d a b f) s = .next s) ∧
      (legal → slotsHeld s.me.mesh s + n.1 + n.2 ≤ 64 →
        ∃ slots : List Nat, slots.length = n.1 + n.2 ∧ slots.Nodup ∧ (∀ k ∈ slots, k < 64 ∧ k ∉ heldSlots s.me.mesh s) ∧
        let both : Stream := { closedSlot with st := .open, fib := f, desc := desc, pat := pat, priv := s.me.priv }
        let own : Stream := { both with
          tag := BitVec.ofNat 16 (fld desc 0 16), slots := slots.take n.1
          size := if f then none else some (((pat.drop 1).take (fld desc 16 2)).foldl (fun k w => k * fld w 0 32) 1) }
        let index : Stream := { both with index := true, tag := 0x001F, slots := slots.drop n.1 }
        exec (.sqopen d a b f) s = .next (advance (if f then withSlot (partner d) index (withSlot d own s) else withSlot d own s)))) ∧
    (∀ q : SqN, s.me.sq[q].st = .closed → (∀ a : GReg, exec (.sqadv q a) s = .next (illop (.sqadv q a) 0 s)) ∧ exec (.sqend q) s = .next (illop (.sqend q) 0 s) ∧
      exec (.sqclose q) s = .next (illop (.sqclose q) 0 s)) ∧
    (∀ q : SqN, s.me.sq[q].st ≠ .closed → let x := s.me.sq[q]
      (∀ a : GReg, ∃ y : Stream, exec (.sqadv q a) s = .next (advance (withSlot q y s)) ∧ y.pos = x.pos + (gR a s).toNat ∧
        y = { x with pos := y.pos, landed := y.landed, want := false } ∧ (∀ b, b ∈ y.landed ↔ b ∈ x.landed ∧ y.pos / 16384 ≤ b.block)) ∧
      (∀ z : Stream, s.me.sq[partner q] = z →
        exec (.sqclose q) s = .next (advance (if x.fib then withSlot (partner q) closedSlot (withSlot q closedSlot s) else withSlot q closedSlot s)) ∧
        ∃ y w : Stream, exec (.sqend q) s = .next (advance (if x.fib then withSlot (partner q) w (withSlot q y s) else withSlot q y s)) ∧
          y = { x with st := .ended, bound := y.bound } ∧ w = { z with st := .ended, bound := w.bound } ∧
          (x.st = .ended → y.bound = x.bound) ∧
          (x.st = .open → y.bound = some (x.pos / 16384 + if (x.fib && tagWidth (BitVec.ofNat 16 (fld x.desc 0 16)) == 32) = true then 1 else 2)))) ∧
    (∀ (d : VRegN) (q : SqN), Fresh s → let x := s.me.sq[q]
      (x.st = .closed ∨ budgetOk s.me d x.tag = false → exec (.vldPop d q) s = .next (illop (.vldPop d q) 0 s)) ∧
      (x.st ≠ .closed → budgetOk s.me d x.tag = true →
        (roomFor d x.tag s = false → exec (.vldPop d q) s = .next s) ∧
        (let rowsOpen := x.fib = true ∧ x.size = none ∧ ∀ k, k < s.me.vl → blockOf x (x.pos + k) = none → ∃ n, x.bound = some n ∧ n ≤ (x.pos + k) / 16384;
          roomFor d x.tag s = true → (∃ k, k < s.me.vl ∧ Within x (x.pos + k) ∧ blockOf x (x.pos + k) = none) →
          (¬rowsOpen → exec (.vldPop d q) s = .next (withSlot q { x with want := true } s)) ∧
          (rowsOpen → ¬Awaited q s → (∀ k b, k < s.me.vl → blockOf x (x.pos + k) = some b → ∀ p ∈ b.faults, p.1 < x.pos ∨ x.pos + s.me.vl ≤ p.1) →
            ∀ r s1, fibreRows { reqOf s.me with priv := x.priv } x.pat (x.pos + s.me.vl) s = (r, s1) → let u := countReads s.me.ctx r.reads s1
            (∀ f, r.fault = some f → exec (.vldPop d q) s = .next (trapHere (refillTrap (.vldPop d q) (r.count - x.pos) f) u)) ∧
            (r.fault = none → r.ended = true → u.me = s.me → exec (.vldPop d q) s = .next (withSlot q { x with size := some r.count } u)) ∧
            (r.fault = none → r.ended = false → exec (.vldPop d q) s = .next u))) ∧
        (roomFor d x.tag s = true → (∀ k, k < s.me.vl → Within x (x.pos + k) → ∃ b, blockOf x (x.pos + k) = some b) → Awaited q s →
          ∃ t, exec (.vldPop d q) s = .next t ∧ t = { s with dies := t.dies }) ∧
        (roomFor d x.tag s = true → (∀ k, k < s.me.vl → Within x (x.pos + k) → ∃ b, blockOf x (x.pos + k) = some b) → ¬Awaited q s →
          (∀ k b f, k < s.me.vl → blockOf x (x.pos + k) = some b → Within x (x.pos + k) → b.faults.find? (fun p => decide (x.pos ≤ p.1) && decide (p.1 < x.pos + s.me.vl)) = some (x.pos + k, f) →
            (∀ j, j < k → (x.pos + j) / 16384 = (x.pos + k) / 16384 ∨ ∀ c, blockOf x (x.pos + j) = some c → ∀ p ∈ c.faults, p.1 < x.pos) →
            exec (.vldPop d q) s = .next (trapHere (refillTrap (.vldPop d q) k f) (withSlot q { x with landed := x.landed.filter fun y => y.block != (x.pos + k) / 16384 } s))) ∧
          ((∀ k b, k < s.me.vl → Within x (x.pos + k) → blockOf x (x.pos + k) = some b → ∀ p ∈ b.faults, p.1 < x.pos ∨ x.pos + s.me.vl ≤ p.1) →
          ∃ t y, exec (.vldPop d q) s = .next (withSlot q y t) ∧ y = { x with pos := x.pos + s.me.vl, landed := y.landed, want := false } ∧
            (∀ b, b ∈ y.landed ↔ b ∈ x.landed ∧ y.pos / 16384 ≤ b.block) ∧
            Lanes.Done ⟨d, x.tag, [], true, fun _ => true, fun k => (((blockOf x (x.pos + k)).map fun b => b.codes.getD ((x.pos + k) % 16384) 0).getD 0, 0), fun _ => 0x7F⟩ s t)))) ∧
    (∀ (q : SqN) (n : Nat), let x := s.me.sq[q]
      (x.st ≠ .closed → Due x n → s.core.pwr < 2 → (∀ b ∈ x.landed, b.block ≠ n) → ∀ b size t, fetchBlock { reqOf s.me with priv := x.priv } x n s = (b, size, t) → t.me = s.me →
        b.block = n ∧ exec (.streamRefill s.me.mesh s.me.sid q n) s =
          .next (markLanding s.me.mesh (blockSlots x n) (withSlot q { x with landed := x.landed ++ [b], size := size } (noteWaits (.stream s.me.mesh s.me.sid q.1 n) s t)))) ∧
      (x.st = .closed ∨ ¬Due x n ∨ 2 ≤ s.core.pwr ∨ (∃ b ∈ x.landed, b.block = n) → exec (.streamRefill s.me.mesh s.me.sid q n) s = .next s))
/-! ## The sequencer and DRAM -/

namespace Sys2Proof.Claims

/-- Whether a unit starts one ready micro-operation before another: a boosted strand's first, in the order of boosting, then the fewer remaining, then the older of one strand and the lower strand of two (R175). -/
def startsBefore (rank : Nat → Nat) (a b : MicroOp) : Prop :=
  rank a.sid < rank b.sid ∨ rank a.sid = rank b.sid ∧ (a.remaining < b.remaining ∨ a.remaining = b.remaining ∧ (a.sid = b.sid ∧ a.age < b.age ∨ a.sid < b.sid))

/-- Whether an instruction in the sequencer has completed: a group has run, none runs, and its elements are done (R173). -/
def flightDone (f : Flight) : Prop := 0 < f.groups ∧ f.running = none ∧ f.last ≤ f.done

/-- The state with a bank of a die as given. -/
def BankIs (k : BankId) (b : Bank) (t : State) : Prop := bankAt k t = b

/-- The state with a die replaced. -/
def withDie (d : Fin 4) (x : Die) (s : State) : State := { s with dies := s.dies.set d x }

/-- Nothing but the DRAM of a die has changed: its banks and its controllers. -/
structure OnlyDram (die : Nat) (s t : State) : Prop where
  rest : t = { s with dies := t.dies }
  there : dieAt die t = { dieAt die s with banks := (dieAt die t).banks, ctrls := (dieAt die t).ctrls }
  others : ∀ d : Fin 4, d.1 ≠ die → t.dies[d] = s.dies[d]

end Sys2Proof.Claims

/-- A unit that is free starts, of the micro-operations that stand ready for it, the one that no other comes before; one stands ready when it waits in the window and every source of its instruction is
complete, or chained and complete as far as its elements reach; of a scale slot or a code table every earlier writer is complete, and it is not written before its earlier readers are. The strands passed over count one more start, the chosen strand's count and boost end, and the instruction's next group runs. A completed
element group ends; after an instruction's first its consumers are chained to it while one of the four ports is free; a complete instruction leaves when the older ones of its strand have: it has retired, and then its strand takes its flags and its results in general and float registers. An instruction of a unit that was performed enters the sequencer with
the registers it reserves; the planes it released, its flags and those results wait in it. A walker serves the
oldest miss of its core's queue and installs what it finds when it is permitted, with AC set; an event that names another strand's micro-operation, or another miss, changes nothing (R31, R32, R167, R172 to R176, R192, R232, R267; the model's choices of log entries 52 and 60). Completes: microOpIssue,
elementGroupComplete, tableWalk. -/
def Obligations.SequencerAndWalks : Prop :=
  (∀ (s : State) (m : Nat) (u : ExUnit), s.wellKept → let c := coreAt m s
    let rank (k : Nat) : Nat := boostRank c u k
    let group := max c.alc 64
    let ready := readyOps u c
    let upTo (f : Flight) : Nat := if f.single = true then f.last else min f.last (f.issued + group)
    (∀ o, o ∈ ready ↔ ∃ f ∈ c.window, o = ⟨f.sid, f.last - f.issued, f.age⟩ ∧ f.unit = some u ∧ 0 < f.waiting ∧
      (∀ r ∈ f.srcs, (isShared r = true → ∀ p ∈ olderOf f c.window, p.dest = some r → flightDone p) ∧
        (isShared r = false → ∀ q, producerOf f r c.window = some q → q.age ∈ f.chained ∧ (flightDone q ∨ upTo f ≤ q.done))) ∧
      (upTo f < f.last ∨ ∀ r, f.dest = some r → isShared r = true → ∀ p ∈ olderOf f c.window, r ∈ p.srcs → flightDone p)) ∧
    (ready = [] ∨ (∃ f ∈ c.window, f.unit = some u ∧ f.running ≠ none) → ∀ k, exec (.microOpIssue m u k) s = .next s) ∧
    (ready ≠ [] → (∀ f ∈ c.window, f.unit = some u → f.running = none) → ∃ (o : MicroOp) (t : State), o ∈ ready ∧ (∀ x ∈ ready, ¬startsBefore rank x o) ∧
      (∀ k, k ≠ o.sid → exec (.microOpIssue m u k) s = .next s) ∧ exec (.microOpIssue m u o.sid) s = .next t ∧ t.me = s.me ∧ t.mem = s.mem ∧ let e := coreAt m t
      e.window.length = c.window.length ∧ starveOf e u o.sid = 0 ∧ boostRank e u o.sid = 4 ∧
      (∀ (k : Nat) (f : Flight), c.window[k]? = some f → ∃ g, e.window[k]? = some g ∧ let n := upTo f
        g = if f.sid = o.sid ∧ f.age = o.age then { f with groups := f.groups + 1, issued := n, running := some n, waiting := g.waiting } else { f with waiting := g.waiting }) ∧
      (∀ k, k < 4 → k ≠ o.sid → starveOf e u k = starveOf c u k + (if ∃ x ∈ ready, x.sid = k then 1 else 0)) ∧
      (∀ k, k < 4 → k ≠ o.sid → (∃ x ∈ ready, x.sid = k) → 63 ≤ starveOf c u k → ∃ b ∈ e.boosted, b.1 = u ∧ b.2 = k))) ∧
  (∀ (s : State) (m : Nat) (u : ExUnit), let c := coreAt m s
    ((∀ f ∈ c.window, f.unit = some u → f.running = none) → exec (.elementGroupComplete m u) s = .next s) ∧
    (∀ p n, c.window.find? (fun f => f.unit == some u && f.running.isSome) = some p → p.running = some n → ∃ t, exec (.elementGroupComplete m u) s = .next t ∧ t.mem = s.mem ∧
      let e := coreAt m t
      (s.wellKept → ∀ before after, c.window = before ++ p :: after → (∀ f ∈ before ++ after, ¬flightDone f ∧ ¬(f.sid = p.sid ∧ f.age = p.age)) →
        let retires := 0 < p.groups ∧ p.last ≤ n ∧ ∀ f ∈ before, f.sid ≠ p.sid
        (∀ k, k ≠ p.sid ∨ ¬retires → strandAt m k t = strandAt m k s) ∧
        (retires → ∀ x, strandAt m p.sid s = some x → let y : Strand := { x with vflags := x.vflags ||| p.flags }
          (p.results = [] → strandAt m p.sid t = some y) ∧
          (∀ r v, p.results = [(.g r, v)] → strandAt m p.sid t = some { y with g := y.g.set r v }) ∧
          (∀ r v, p.results = [(.f r, v)] → strandAt m p.sid t = some { y with f := y.f.set r (BitVec.ofNat 32 v.toNat) }))) ∧
      (∀ f ∈ c.window, f.done < f.last → ¬(f.sid = p.sid ∧ f.age = p.age) → ∃ g ∈ e.window, g = { f with waiting := g.waiting, chained := g.chained } ∧
        (g.chained = f.chained ∨ p.groups = 1 ∧ f.sid = p.sid ∧ p.age < f.age ∧ g.chained = p.age :: f.chained)) ∧
      (n < p.last → ∃ g ∈ e.window, g = { p with done := n, running := none, waiting := g.waiting }) ∧
      portsUsed e.window ≤ max 4 (portsUsed c.window) ∧
      (∀ before g after, e.window = before ++ g :: after → flightDone g → ∃ f ∈ before, f.sid = g.sid))) ∧
  (∀ (i : Instr) (u : UnitUse) (x : ExUnit) (a t : State), useOf i = some u → u.unit = some x → t.core.mesh = a.core.mesh → t.me.mesh = t.core.mesh → t.me.sid = a.me.sid →
    t.me.life = .running → (inHandler t.me = false ∨ inHandler a.me = true) → t.me.pc ≠ a.me.pc → t.me.held = none → let w := (account (some i) a t).core.window
    let me := (account (some i) a t).me
    ((∀ p ∈ t.core.window, p.sid = a.me.sid → ¬flightDone p) → me.vflags = a.me.vflags ∧
      (∀ k, me.g[k] = if .g k ∈ reservesOf i then a.me.g[k] else t.me.g[k]) ∧ (∀ k, me.f[k] = if .f k ∈ reservesOf i then a.me.f[k] else t.me.f[k])) ∧
    ∃ f ∈ w, f.flags = t.me.vflags &&& ~~~a.me.vflags ∧
      f.results = (reservesOf i).map (fun r => (r, match r with | .g k => t.me.g[k] | .f k => BitVec.ofNat 64 t.me.f[k].toNat)) ∧ f.sid = a.me.sid ∧ f.unit = some x ∧ f.dest = u.dest ∧ f.reserves = reservesOf i ∧ f.groups = 0 ∧ f.issued = a.me.six ∧ f.done = a.me.six ∧ f.last = max a.me.six a.me.vl ∧
      (∀ p ∈ t.core.window, p.sid = a.me.sid → p.age < f.age) ∧ (∀ r ∈ u.srcs, r ∈ f.srcs) ∧
      (u.guarded = true → modeGON a.me.mode = true → .m (fin 8 (by decide) (modeGM a.me.mode)) ∈ f.srcs) ∧
      ∀ p ∈ usedPlanes a.me, p ∉ usedPlanes t.me → p ∈ f.frees) ∧
  (∀ (s : State) (m : Nat), ((coreAt m s).misses = [] → ∀ ctx p k va, exec (.tableWalk m ctx p k va) s = .next s) ∧
    (∀ x rest, (coreAt m s).misses = x :: rest → let rq := missReq m x
      let s0 := modCore m (fun c => { c with misses := rest }) s
      let walked := exec (.tableWalk m x.ctx x.priv x.acc x.va) s
      (∀ ctx p k va, ¬(ctx = x.ctx ∧ p = x.priv ∧ k = x.acc ∧ va = x.va) → exec (.tableWalk m ctx p k va) s = .next s) ∧
      ((tlbHit rq x.va.toNat s0).isSome = true → walked = .next s0) ∧
      (tlbHit rq x.va.toNat s0 = none → ∀ s1,
        (∀ f, walk rq x.va.toNat s0 = (.error f, s1) → walked = .next s1) ∧
        (∀ leaf level entry, walk rq x.va.toNat s0 = (.ok (leaf, level, entry), s1) → let gs := grantsOf rq.part s1
          let desc := (descriptor rq.ctx s1).1
          let open_ := leafCheck rq x.acc 0 level leaf gs desc (leafPa level leaf x.va.toNat) = none ∧ (leaf.getLsbD 9 = true ∨ granted gs true entry = true)
          let found : TlbEntry := ⟨rq.ctx, rq.part, level, pageAt level x.va.toNat, setBit leaf 9 true, entry, gs, desc⟩
          (¬open_ → walked = .next s1) ∧
          (open_ → walked = .next (modCore m (fun c => { c with tlb := tlbFill found c.tlb })
            (if leaf.getLsbD 9 = true then s1 else setEntry rq entry (setBit leaf 9 true) s1)))))))

/-- DRAM: the refresh commands of a bank begin at the times of its mode, each closing the row, zeroing the counters of its rows and holding the bank, one that begins in a back-off from the end of
that; an idle row closes after 4,096 cycles. A bank that serves and that nothing holds completes its oldest request; a row that is not open is activated and its counter rises, and at the threshold
the row closes, the counters of its neighbours are zero and the bank is held for the back-off. An access that was under way as the refresh that runs began completes in its interval: it finds the row that was
open then, which is closed all the same, and a back-off that it triggers begins when the interval ends. Each event brings its bank to the present cycle (R86, R89, R90, R92 to R95; the model's choices of log entries
41, 82 and 100). Completes: dramAccess, refresh, refreshEnd, backoffEnd, rowIdleClose. -/
def Obligations.DramEvents : Prop :=
  (∀ (k : BankId) (doubled : Bool) (n t : Nat), bankOk k = true → let step := if k.ctrl < 2 ∧ doubled = true then 2112 else 4224
    cmdStart k [(0, doubled)] n = n * step + k.bank * step / (if k.ctrl < 2 then 64 else 16) ∧ (n < cmdsBefore k t [(0, doubled)] ↔ cmdStart k [(0, doubled)] n < t)) ∧
  (∀ (k : BankId) (c : Ctrl) (t idle : Nat) (b : Bank), let hbm := k.ctrl < 2
    let n := cmdsBefore k (t + 1) (modesOf c)
    let rows := if hbm then 2 else 32
    let all := if hbm then 16384 else 262144
    let u := settleBank k c t idle b
    u.id = b.id ∧ u.queue = b.queue ∧ u.lastAt = b.lastAt ∧ u.commands = max b.commands n ∧
    (∀ lo hi, u.backoff = some (lo, hi) ↔ b.backoff = some (lo, hi) ∧ t < hi) ∧
    (n ≤ b.commands → u.acts = b.acts ∧ u.rowBefore = b.rowBefore ∧ (∀ e, u.refreshUntil = some e ↔ b.refreshUntil = some e ∧ t < e) ∧ u.row = if b.lastAt + 4096 ≤ idle then none else b.row) ∧
    (b.commands < n → u.row = none ∧ u.rowBefore = (if n = b.commands + 1 then b.row else none) ∧
      (∀ j, j < all → let done := ∃ q r, b.commands ≤ q ∧ q < n ∧ r < rows ∧ j = (q * rows + r) % all
        (done → actsOf u j = 0) ∧ (¬done → actsOf u j = actsOf b j)) ∧
      (∀ e, u.refreshUntil = some e ↔ t < e ∧ let x := cmdStart k (modesOf c) (n - 1)
        e = (match b.backoff with
          | some (lo, hi) => if lo ≤ x ∧ x < hi then hi else x
          | none => x) + if hbm then 176 else 231))) ∧
  (∀ (s : State) (k : BankId), bankOk k = true → let b := bankAt k s
    let t := (dieAt k.die s).cycle
    let c := ctrlOf k s
    let hbm := k.ctrl < 2
    let now := settleBank k c t 0 b
    let serves := (k.ctrl = 0 → (dieAt k.die s).hbmDone[0] ≠ 0) ∧ (k.ctrl = 1 → (dieAt k.die s).hbmDone[1] ≠ 0)
    let ready := serves ∧ now.refreshUntil = none ∧ now.backoff = none
    (∀ i : Instr, i = .refresh k ∨ i = .refreshEnd k ∨ i = .backoffEnd k ∨ i = .rowIdleClose k →
      ∃ u, exec i s = .next u ∧ OnlyDram k.die s u ∧ ctrlOf k u = c ∧ BankIs k (settleBank k c t (if b.queue = [] then t else 0) b) u) ∧
    (b.queue = [] ∨ ¬serves → exec (.dramAccess k) s = .next s) ∧
    (∀ (r : BankReq) (rest : List BankReq), b.queue = r :: rest → ¬ready → underWay k r s = none → exec (.dramAccess k) s = .next s) ∧
    (∀ (r : BankReq) (rest : List BankReq) (x n : Nat), b.queue = r :: rest → serves → ¬ready → underWay k r s = some (x, n) →
      let b1 := if b.commands < n then settleBank k c (x - 1) r.at_ b else { b with row := if b.lastAt + 4096 ≤ r.at_ then none else b.rowBefore }
      let m := actsOf b1 r.row + 1
      let start := now.refreshUntil.getD t
      let hold := if hbm then 440 else 520
      x ≤ t ∧ t < x + (if hbm then 176 else 231) ∧ r.at_ < x ∧ b.lastAt < x ∧ x = cmdStart k (modesOf c) (n - 1) ∧
      ∃ u, exec (.dramAccess k) s = .next u ∧ OnlyDram k.die s u ∧ (bankAt k u).row = none ∧ (bankAt k u).queue = rest ∧ (bankAt k u).lastAt = t ∧
        (bankAt k u).refreshUntil = now.refreshUntil ∧
        (b1.row = some r.row → (bankAt k u).backoff = none ∧ ctrlOf k u = c) ∧
        (b1.row ≠ some r.row → m < c.actthr → (bankAt k u).backoff = none ∧ ctrlOf k u = { c with actmax := max c.actmax m }) ∧
        (b1.row ≠ some r.row → c.actthr ≤ m → (bankAt k u).backoff = some (max t start, max t start + hold) ∧ (∀ j, r.row ≤ j + 2 → j ≤ r.row + 2 → actsOf (bankAt k u) j = 0) ∧
          ctrlOf k u = { c with actmax := max c.actmax m, rfmcnt := c.rfmcnt + 1, chan := k.chan, bank := k.bank, row := r.row, bocyc := c.bocyc + hold })) ∧
    (∀ (r : BankReq) (rest : List BankReq), b.queue = r :: rest → ready → let b1 := settleBank k c t r.at_ b
      (b1.row = some r.row → ∃ u, exec (.dramAccess k) s = .next u ∧ OnlyDram k.die s u ∧ BankIs k { b1 with queue := rest, lastAt := t } u ∧ ctrlOf k u = c) ∧
      (b1.row ≠ some r.row → let n := actsOf b1 r.row + 1
        ∃ u, exec (.dramAccess k) s = .next u ∧ OnlyDram k.die s u ∧ (ctrlOf k u).actmax = max c.actmax n ∧
          (n < c.actthr → BankIs k { b1 with queue := rest, lastAt := t, row := some r.row, acts := (bankAt k u).acts } u ∧ actsOf (bankAt k u) r.row = n ∧
            (∀ j, j ≠ r.row → actsOf (bankAt k u) j = actsOf b1 j) ∧ ctrlOf k u = { c with actmax := max c.actmax n }) ∧
          (c.actthr ≤ n → let hold := if hbm then 440 else 520
            BankIs k { b1 with queue := rest, lastAt := t, row := none, backoff := some (t, t + hold), acts := (bankAt k u).acts } u ∧
            (∀ j, r.row ≤ j + 2 → j ≤ r.row + 2 → actsOf (bankAt k u) j = 0) ∧ (∀ j, (j + 2 < r.row ∨ r.row + 2 < j) → actsOf (bankAt k u) j = actsOf b1 j) ∧
            ctrlOf k u = { c with actmax := max c.actmax n, rfmcnt := c.rfmcnt + 1, chan := k.chan, bank := k.bank, row := r.row, bocyc := c.bocyc + hold }))))

/-- The sample of stage 3 sets a stack's refresh mode at once; each later one, from its multiple of 1,048,576 cycles on, chooses doubled refresh above 85 degrees and normal refresh at 82 or below, from
the next multiple of 4,224 cycles on. The sample of an island with power sets THERM. The persist queue of a die starts an entry every 2 cycles, and after 330 the oldest is durable (R90, R95, R154, R380); that THERM is bounded by the 65,535 of its width is the model's choice of log entry 42. Completes: hbmTempSample,
refreshModeChange, thermSample, persistEntryStart, persistEntryDurable. -/
def Obligations.SamplesAndPersistQueues : Prop :=
  ∀ (s : State) (d : Fin 4), let x := s.dies[d]
    (∀ (ctrl : Fin 2) (celsius : Int), let j := fin 5 (by decide) ctrl
      let c := x.ctrls[j]
      let n := x.hbmDone[ctrl]
      let temp := (max 0 (min 255 celsius)).toNat
      (n = 0 → x.stage = 3 → ∃ u, exec (.hbmTempSample d ctrl celsius) s = .next u ∧ u.dies[d].ctrls[j] = { c with
          temp := temp, dbl := decide (85 < celsius), modes := if decide (85 < celsius) = c.dbl then c.modes else c.modes ++ [(x.cycle, decide (85 < celsius))] } ∧
        u.dies[d].hbmDone[ctrl] = x.cycle / 1048576 + 1 ∧ u.dies[d].banks = x.banks ∧ u.mem = s.mem ∧ u.me = s.me) ∧
      (n = 0 → x.stage ≠ 3 → exec (.hbmTempSample d ctrl celsius) s = .next s) ∧
      (0 < n → n * 1048576 ≤ x.cycle → c.dblNext = none → ∃ u, exec (.hbmTempSample d ctrl celsius) s = .next u ∧ u.dies[d].hbmDone[ctrl] = n + 1 ∧
        u.dies[d].banks = x.banks ∧ u.mem = s.mem ∧ u.me = s.me ∧ let mode := if 85 < celsius then true else if celsius ≤ 82 then false else c.dbl
        u.dies[d].ctrls[j] = { c with temp := temp, dblNext := if mode = c.dbl then none else some (mode, n * 1048576 / 4224 * 4224 + 4224) }) ∧
      (0 < n → x.cycle < n * 1048576 ∨ c.dblNext ≠ none → exec (.hbmTempSample d ctrl celsius) s = .next s) ∧
      (∀ mode at_, c.dblNext = some (mode, at_) →
        (x.cycle < at_ → exec (.refreshModeChange d ctrl) s = .next s) ∧
        (at_ ≤ x.cycle → ∃ u, exec (.refreshModeChange d ctrl) s = .next u ∧ u.dies[d].ctrls[j] = { c with dbl := mode, dblNext := none, modes := c.modes ++ [(at_, mode)] } ∧
          u.dies[d].banks = x.banks ∧ u.mem = s.mem ∧ u.me = s.me)) ∧
      (c.dblNext = none → exec (.refreshModeChange d ctrl) s = .next s)) ∧
    (∀ (i : Fin 12) (mc : Int), let y := x.islands[i]
      let therm := min 65535 ((95000 - mc) / 100).toNat
      let after : Island := if y.sampled = 0 then { y with therm := therm, sampled := x.cycle / 65536 + 1 }
        else if y.sampled * 65536 ≤ x.cycle then { y with therm := therm, sampled := y.sampled + 1 } else y
      (islandPowered (12 * d + i) s = true → exec (.thermSample d i mc) s = .next (withDie d { x with islands := x.islands.set i after } s)) ∧
      (islandPowered (12 * d + i) s = false → exec (.thermSample d i mc) s = .next s)) ∧
    (∀ (before after : List PersistEntry) (e : PersistEntry), x.persist = before ++ e :: after → (∀ y ∈ before, y.started ≠ none) → e.started = none →
      (x.cycle < x.persistAt → exec (.persistEntryStart d) s = .next s) ∧
      (x.persistAt ≤ x.cycle → exec (.persistEntryStart d) s = .next (withDie d
        { x with persist := before ++ { e with started := some x.cycle } :: after, persistAt := x.cycle + 2 } s))) ∧
    (∀ (e : PersistEntry) (rest : List PersistEntry) (t : Nat), x.persist = e :: rest → e.started = some t →
      (x.cycle < t + 330 → exec (.persistEntryDurable d) s = .next s) ∧
      (t + 330 ≤ x.cycle → ∃ u, exec (.persistEntryDurable d) s = .next u ∧ u.dies = s.dies.set d { x with persist := rest, persistDone := x.persistDone + 1 } ∧ u.mem = s.mem ∧ u.me = s.me ∧
        (s.durable.wf = true → (∀ a, (∀ p ∈ e.bytes, p.1 ≠ a) → u.durable.get a = s.durable.get a) ∧
          (e.bytes.Pairwise (fun p q => p.1 ≠ q.1) → ∀ p ∈ e.bytes, u.durable.get p.1 = p.2)))) ∧
    ((∀ e ∈ x.persist, e.started ≠ none) → exec (.persistEntryStart d) s = .next s)

/-! ## The Muslin layer and power -/

namespace Sys2Proof.Claims

/-- Core `m` is one of the state, and nothing but it has changed: it has become `c`. -/
def CoreBecomes (m : Nat) (c : Core) (s t : State) : Prop := t = modCore m (fun _ => c) s

/-- Whether a strand that runs is resident on a core. -/
def Busy (m : Nat) (s : State) : Prop := ∃ t ∈ strandsOf m s, t.life = .running

/-- A shadow slot is complete: it is sealed, its cells give its check code, and they show no uncorrectable error (R146). -/
def Sound (x : ShadowSlot) : Prop := x.st = .sealed ∧ x.check = x.found ∧ x.error = false

/-- How many of the 880 units that are copied only when they are dirty are dirty for a slot (R405). -/
def dirtyUnits (c : Core) (k : Fin 2) : Nat := ((List.range 880).filter fun n => (c.dirty[fin 3 (by decide) k.1]).getLsbD n).length

/-- Whether a strand of a core keeps the core from a shadow point: a remote store of a strand of the core has no reply, a vector instruction has not retired, or a running strand's access or store is
still under way. -/
def UnderWay (m : Nat) (s : State) : Prop :=
  (coreAt m s).window ≠ [] ∨ (∃ x ∈ s.remote, x.mesh = m ∧ x.store ≠ none ∧ x.reply = none) ∨ ∃ t ∈ strandsOf m s, t.life = .running ∧ (t.call ≠ none ∨ t.stq ≠ [])

/-- A shadow slot that is complete, of any placement or of a given one, and the newest of a core (R146). -/
def NewestSlot (c : Core) (ok : ShadowSlot → Prop) (k : Fin 2) : Prop :=
  let good (j : Fin 2) : Prop := Sound c.slots[j] ∧ ok c.slots[j]
  good k ∧ ∀ j : Fin 2, good j → c.slots[j].gen ≤ c.slots[k].gen

end Sys2Proof.Claims

/-- Shadow writes: when the interval of an enabled core that runs has expired one is asked for, once until the interval starts anew; the strands stop, once their vector instructions have retired, leave that was asked or granted is withdrawn, their stores drain and the persist queues are
waited for; then the slot that does not hold the newest complete shadow is copied into: 192 KiB and the units that are dirty for it, 256 bytes a cycle after 64 cycles. At the seal the slot has GEN of
the other plus 1, the placement's PLC and a check code over its contents and GEN; its dirty bits are the units written since the copy began; the strands' replay windows end, SHCNT rises and SHSEAL is the
cycle (R146 to R150, R159, R173, R284, R405; the model's choices of log entries 61, 87, 88 and 108). Completes: shadowInterval, shadowWrite, shadowSeal. -/
def Obligations.ShadowWrites : Prop :=
  ∀ (s : State) (m : Nat), s.wellKept → HasCore m s → let c := coreAt m s
    let t := cycleOf m s
    let due := c.shen = true ∧ c.pwr = 0 ∧ c.shFired = false ∧ c.shBase + c.shint * 4096 ≤ t
    (Busy m s → due → ∃ u, exec (.shadowInterval m) s = .next u ∧ CoreBecomes m { c with shRequest := true, shFired := true } s u) ∧
    (¬Busy m s ∨ ¬due → exec (.shadowInterval m) s = .next s) ∧
    (c.shTargets = none → (c.shRequest = false ∨ c.shWriting ≠ none ∨ 1 < c.pwr) → exec (.shadowWrite m) s = .next s) ∧
    (c.shTargets = none → c.shRequest = true → c.shWriting = none → c.pwr ≤ 1 → let u := drainCore m s
      (UnderWay m u → exec (.shadowWrite m) s = .next u) ∧
      (¬UnderWay m u → ∃ v : Vector Nat 4, (∀ d : Fin 4, v[d] = u.dies[d].persistDone + u.dies[d].persist.length) ∧
        exec (.shadowWrite m) s = .next (modCoreStrands m (fun t => { t with leave := .none }) (modCore m (fun c => { c with shRequest := false, shTargets := some v }) u)))) ∧
    (∀ v, c.shTargets = some v →
      ((∃ d : Fin 4, s.dies[d].persistDone < v[d]) → exec (.shadowWrite m) s = .next s) ∧
      ((∀ d : Fin 4, v[d] ≤ s.dies[d].persistDone) → ∃ (k : Fin 2) (u : State), exec (.shadowWrite m) s = .next u ∧ CoreBecomes m
        { c with
          slots := c.slots.set k { c.slots[k] with st := .writing }, dirty := c.dirty.set 2 0, shTargets := none, shWriting := some k.1, shDue := t + 832 + 16 * dirtyUnits c k }
        { s with images := u.images } u ∧
        (∀ j, NewestSlot c (fun _ => True) j → c.slots[0].gen ≠ c.slots[1].gen → j ≠ k) ∧
        imageAt m k.1 u = some ⟨m, k.1, { c with strands := (strandsOf m s).map fun t => { t with replay := false } }⟩ ∧
        (∀ x ∈ s.images, ¬(x.mesh = m ∧ x.slot = k.1) → x ∈ u.images))) ∧
    (c.shWriting = none → exec (.shadowSeal m) s = .next s) ∧
    (∀ k : Fin 2, c.shWriting = some k.1 → (t < c.shDue → exec (.shadowSeal m) s = .next s) ∧
      (c.shDue ≤ t → ∃ (u : State) (contents : List (BitVec 8)), exec (.shadowSeal m) s = .next u ∧ u.mem = s.mem ∧ u.images = s.images ∧ let o := c.slots[k + 1]
        let e := coreAt m u
        let code (gen : Nat) : BitVec 64 := crc64 (contents ++ bytesOf 8 gen)
        (∀ gen, (Sound o → gen = (o.gen + 1) % 2 ^ 64) → (¬Sound o → gen = 1) → e.slots[k] = ⟨gen, c.plc, .sealed, code gen, code gen, c.slots[k].error && dirtyUnits c k != 880⟩) ∧
        e.slots[k + 1] = o ∧ e.shcnt = c.shcnt + 1 ∧ e.shseal = t ∧ e.shBase = t ∧ e.shFired = false ∧ e.shWriting = none ∧ e.shWaiters = [] ∧ e.dirty[fin 3 (by decide) k.1] = c.dirty[2] ∧
        e.dirty[fin 3 (by decide) (k + 1).1] = c.dirty[fin 3 (by decide) (k + 1).1] ∧ (∀ x ∈ strandsOf m u, x.replay = false)))

/-- Power: PDREQ and PUPREQ of a core that is on or off, and an idle core, begin a change; a planned power-down waits for the chunk that the engine is in, makes a shadow and then takes the power away; a loss takes it away at once, which
leaves the shadow slots and the control block, and no strand's registers. A core that powers up, once its island was sampled, is on, without the groups that tripped and with ALC within the rest; if it holds a launch, or was powered down as planned while it was idle, its state and its strands go on from the newest complete
slot of the placement with the cause in RCAUSE and the dirty bits of R148, where a strand that has ended stays ended; without a slot, or on a core left with fewer than 32 groups, which COREDIS then names, its work group ends with reason 3; so it does when a lost core has no power for more than 2^32 cycles (R145, R148, R151, R152, R157, R168, R343, R368, R378 to
R380; the model's choices of log entries 26, 47, 48, 102, 106 and 120). Completes: pdreq, pupreq, idlePowerDown, plannedPowerDown, coreLoss, coreSupplyRestored, powerUp, resumeTimeout. -/
def Obligations.CorePower : Prop :=
  ∀ (s : State) (m : Nat), s.wellKept → HasCore m s → let c := coreAt m s
    let t := cycleOf m s
    let off (s u : State) : Prop := let e := coreAt m u
      e.pwr = 2 ∧ e.slots = c.slots ∧ e.plc = c.plc ∧ e.lanemap0 = c.lanemap0 ∧ e.lanemap1 = c.lanemap1 ∧ e.alc = c.alc ∧ e.launch = c.launch ∧ e.out = [] ∧ e.copies = [] ∧ e.scratch = [] ∧
      (∀ x ∈ strandsOf m u, x.stq = [] ∧ x.vwq = [] ∧ x.g = Vector.replicate 32 0 ∧ x.v = Vector.replicate 32 VReg.reset) ∧ (∀ w ∈ u.watches, w.mesh ≠ m) ∧ u.images = s.images
    (exec (.pdreq m) s = .next (modCore m (fun c => if c.pwr = 0 then { c with downRequest := true, pwr := 1 } else c) s)) ∧
    (exec (.pupreq m) s = .next (modCore m (fun c => if c.pwr = 2 then { c with pwr := 3 } else c) s)) ∧
    (c.pwr = 0 → c.launch = none → ¬Busy m s → c.idleSince + 65536 ≤ t → ∃ u, exec (.idlePowerDown m) s = .next u ∧ CoreBecomes m { c with downRequest := true, pwr := 1 } s u) ∧
    (c.pwr ≠ 0 ∨ c.launch ≠ none ∨ Busy m s ∨ t < c.idleSince + 65536 → exec (.idlePowerDown m) s = .next s) ∧
    (c.pwr ≠ 1 → exec (.plannedPowerDown m) s = .next s) ∧
    (c.pwr = 1 → c.downRequest = true → (∃ k : Tag, c.tags[k].moved ≠ none) → exec (.plannedPowerDown m) s = .next s) ∧
    (c.pwr = 1 → c.downRequest = true → (∀ k : Tag, c.tags[k].moved = none) → ∃ u, exec (.plannedPowerDown m) s = .next u ∧ CoreBecomes m { c with downRequest := false, shRequest := true } s u) ∧
    (c.pwr = 1 → c.downRequest = false → c.shRequest = false → c.shTargets = none → c.shWriting = none →
      ∃ u, exec (.plannedPowerDown m) s = .next u ∧ off s u ∧ (coreAt m u).lostAt = none) ∧
    (c.pwr ≠ 2 → ∃ u, exec (.coreLoss m) s = .next u ∧ off s u ∧ (coreAt m u).lostAt = some t) ∧
    (exec (.coreSupplyRestored m) s = .next (modCore m (fun c => if c.pwr = 2 ∧ c.lostAt.isSome then { c with pwr := 3 } else c) s)) ∧
    let tooLong := ∃ t0, c.lostAt = some t0 ∧ t0 + 2 ^ 32 < t
    let dis := disabled m s = true ∨ laneGroups (applyDropped c) < 32
    let up := c.pwr = 3 ∧ 0 < ((dieAt (m / 384) s).islands[fin 12 (by decide) (islandOf m)]).sampled
    (¬up → exec (.powerUp m) s = .next s) ∧
    (up → ∃ u, exec (.powerUp m) s = .next u ∧ (dis → disabled m u = true) ∧ (c.launch = none → c.lostAt ≠ none ∨ dis ∨ (∀ k, ¬NewestSlot c (fun x => x.plc = c.plc) k) → let e := coreAt m u
      e.pwr = 0 ∧ e.lostAt = none ∧ e.dropped = c.dropped ∧ e.slots = c.slots ∧ u.mem = s.mem ∧ e.alc = min c.alc (64 * laneGroups e) ∧
      ∀ g, g < 128 → (if g < 64 then e.lanemap0.getLsbD g else e.lanemap1.getLsbD (g - 64)) =
        ((if g < 64 then c.lanemap0.getLsbD g else c.lanemap1.getLsbD (g - 64)) && !c.dropped.contains g))) ∧
    (up → let cause := if c.lostAt.isSome then 3 else 2
      (¬tooLong → ¬dis → c.launch ≠ none ∨ c.lostAt = none → ∀ (k : Fin 2) (img : Image), NewestSlot c (fun x => x.plc = c.plc) k → c.slots[0].gen ≠ c.slots[1].gen → imageAt m k.1 s = some img →
        ∃ u, exec (.powerUp m) s = .next u ∧ let e := coreAt m u
          e.pwr = 0 ∧ e.scratch = img.core.scratch ∧ e.acc = img.core.acc ∧ e.tags = img.core.tags.map (fun g => { g with moved := none }) ∧ e.scales = img.core.scales ∧ e.tables = img.core.tables ∧ e.fmt = img.core.fmt ∧
          e.copies = [] ∧ (∀ n : Fin 928, (e.dirty[fin 3 (by decide) k.1]).getLsbD n = false ∧ (e.dirty[fin 3 (by decide) (k + 1).1]).getLsbD n = true) ∧
          ∀ x ∈ strandsOf m s, ∀ y, img.core.strands.find? (fun z => z.sid == x.sid) = some y → ∃ z ∈ strandsOf m u, z.sid = x.sid ∧ z.launch = x.launch ∧
            (x.life = .running → y.life = .running → z.life = .running ∧ z.pc = y.pc ∧ z.g = y.g ∧ z.v = y.v ∧ z.replay = (y.replay || decide (cause = 3)) ∧
              ∀ torn : Bool, (torn = true ↔ c.slots[k + 1].st ≠ .empty ∧ ¬Sound c.slots[k + 1]) →
                z.rcause = BitVec.ofNat 64 (c.slots[k].gen % 2 ^ 32 * 2 ^ 32 + torn.toNat * 2 ^ 8 + cause)) ∧
            (x.life = .ended ∨ x.life = .running ∧ y.life ≠ .running → z.life = .ended ∧ z.g = y.g ∧ z.v = y.v)) ∧
      (∀ l, c.launch = some l → tooLong ∨ dis ∨ (∀ k, ¬NewestSlot c (fun x => x.plc = c.plc) k) → ∀ r, launchAt l s = some r →
        ∃ u w, exec (.powerUp m) s = .next w ∧ w = terminate l (wgOf r.record m) m 3 u ∧ (coreAt m u).pwr = 0)) ∧
    (c.pwr = 0 ∨ ¬tooLong → exec (.resumeTimeout m) s = .next s) ∧
    (c.pwr ≠ 0 → tooLong → ∀ l r, c.launch = some l → launchAt l s = some r → exec (.resumeTimeout m) s = .next (terminate l (wgOf r.record m) m 3 s))

/-- A loss of the package's power leaves what is durable and what the host's memory held, without the lines whose newest bytes stood in L2 alone, and nothing else of memory, no strand, no loaded firmware and no die that has started. A margin trip raises a group's trim or, at the highest
trim, has it removed at the next power-up. An uncorrectable error poisons its word of a plane or of a tile, with the word's producer, and raises nothing; one of
a word of memory or of a shadow slot is found when the word or the slot is read (R17, R46, R146, R153, R335, R344, R378; the model's choices of log entries 47, 74, 87 and 89). Completes: packageLoss,
marginTrip, poisonDetect. -/
def Obligations.PackageLossTripsAndPoison : Prop :=
  (∀ s : State, s.wellKept → ∃ t, exec .packageLoss s = .next t ∧
    (∀ a, t.mem.get a = if (∃ x ∈ s.durable, x.1 = a) then s.durable.get a else if regionOf a = .host then (hostMemory s).get a else 0) ∧ t.durable = s.durable ∧ t.hostStale = [] ∧
    (∀ a, (∀ e ∈ s.hostStale, a < e.1 * 64 ∨ e.1 * 64 + e.2.length ≤ a) → (hostMemory s).get a = s.mem.get a) ∧
    (∀ e, s.hostStale = [e] → ∀ (k : Nat) (b : BitVec 8), e.2[k]? = some b → (hostMemory s).get (e.1 * 64 + k) = b) ∧
    t.firmware = [] ∧ t.launches = [] ∧ t.saved = [] ∧ (∀ d : Fin 4, t.dies[d] = Die.reset) ∧ t.images = s.images ∧ t.fuse = s.fuse ∧
    (∀ w, w ∈ t.bad ↔ w ∈ s.bad ∧ (regionOf (8 * w) = .host ∨ ∃ d, regionOf (8 * w) = .persistent d)) ∧
    (s.me.mesh < 1536 → t.me = Strand.reset s.me.mesh s.me.sid)) ∧
  (∀ (s : State) (m g : Nat) (top : Bool), HasCore m s → let c := coreAt m s
    (128 ≤ g → exec (.marginTrip m g top) s = .next s) ∧
    (g < 128 → ∃ t e, exec (.marginTrip m g top) s = .next t ∧ CoreBecomes m e s t ∧
      (top = true → e = { c with dropped := e.dropped } ∧ ∀ x, x ∈ e.dropped ↔ x = g ∨ x ∈ c.dropped) ∧
      (top = false → e = { c with trims := e.trims } ∧ ∀ x, ((e.trims.find? fun y => y.1 == x).map fun y => y.2).getD 0 =
        ((c.trims.find? fun y => y.1 == x).map fun y => y.2).getD 0 + if x = g then 1 else 0))) ∧
  (∀ (s : State) (m sid r plane seg : Nat), r < 32 → HasCore m s → s.wellKept → ∀ t, strandAt m sid s = some t →
    (∀ x ∈ strandsOf m s, x.sid = sid → x = t) → let v := t.v[fin 32 (by decide) r]
    (v.planes.length ≤ plane ∨ 256 ≤ seg ∨ (∃ x ∈ v.poison, x.plane = plane ∧ x.seg = seg) → exec (.poisonDetect (.plane m sid r plane seg)) s = .next s) ∧
    (plane < v.planes.length → seg < 256 → (∀ x ∈ v.poison, ¬(x.plane = plane ∧ x.seg = seg)) →
      exec (.poisonDetect (.plane m sid r plane seg)) s =
        .next (modStrand m sid (fun t => { t with v := t.v.set (fin 32 (by decide) r) { v with poison := ⟨plane, seg, writerAt v.writers seg⟩ :: v.poison } }) s))) ∧
  (∀ (s : State) (m tile row word : Nat), HasCore m s → let c := coreAt m s
    let there := tile < 4 ∧ row < 256 ∧ word < 4 ∧ ∀ x ∈ c.cellPoison, ¬(x.tile = tile ∧ x.row = row ∧ x.word = word)
    (¬there → exec (.poisonDetect (.cells m tile row word)) s = .next s) ∧
    (there → ∃ (t : State) (p : Word), exec (.poisonDetect (.cells m tile row word)) s = .next t ∧ CoreBecomes m { c with cellPoison := ⟨tile, row, word, p⟩ :: c.cellPoison } s t ∧
      p = ((c.cellWriter[fin 4 (by decide) tile])[fin 256 (by decide) row])[fin 4 (by decide) word])) ∧
  (∀ (s : State) (pa : Nat), ∃ bad, exec (.poisonDetect (.memory pa)) s = .next { s with bad := bad } ∧ ∀ w, w ∈ bad ↔ w = pa / 8 ∨ w ∈ s.bad) ∧
  (∀ (s : State) (m : Nat) (k : Fin 2), HasCore m s → let c := coreAt m s
    (∃ t, exec (.poisonDetect (.slot m k.1 none)) s = .next t ∧ CoreBecomes m { c with slots := c.slots.set k { c.slots[k] with error := true } } s t) ∧
    (∀ code, ∃ t, exec (.poisonDetect (.slot m k.1 (some code))) s = .next t ∧ CoreBecomes m { c with slots := c.slots.set k { c.slots[k] with found := code } } s t))

/-! ## Control space and the start of dies -/

namespace Sys2Proof.Claims

/-- Nothing that a strand or a core of the package has written is on its way. -/
def AllQuiet (s : State) : Prop := (∀ t ∈ allStrands s, t.vwq = []) ∧ s.core.out = [] ∧ ∀ c ∈ s.cores, c.out = []

/-- Whether a completed descriptor removes a translation; `part` is the partition of the context it names (R36). -/
def Removes (d : Invalidation) (part : Nat) (e : TlbEntry) : Prop :=
  let kind := fld d.lo 0 3
  let ctx := fld d.lo 3 12
  let pages := 2 ^ (11 * (3 - e.level))
  let first := fld d.hi 14 43
  (kind = 0 ∧ e.part = fld d.lo 15 3) ∨ (kind = 1 ∧ e.ctx = ctx ∧ enGLB e.leaf = false) ∨
    (kind = 2 ∧ (e.ctx = ctx ∨ enGLB e.leaf = true ∧ e.part = part) ∧ e.vpage * pages < first + fld d.lo 32 32 ∧ first < e.vpage * pages + pages) ∨
    (kind = 3 ∧ e.part = fld d.lo 15 3 ∧ enGLB e.leaf = true) ∨ 4 ≤ kind

/-- A die that has just been reset and started: stage 1 at cycle 0, with the counts given. -/
def started (fails reason : Nat) (min : Bool) : Die := { Die.reset with stage := 1, fails := fails, reason := reason, min := min }

/-- What a write of `size` bytes at an offset leaves of a register that holds `old`, before its fields are masked: a write of 4 bytes leaves the other half (R401). -/
def written (old v : Word) (off size : Nat) : Word :=
  if size = 8 then v
  else if off % 8 = 0 then BitVec.ofNat 64 (old.toNat / 2 ^ 32 * 2 ^ 32 + v.toNat % 2 ^ 32)
  else BitVec.ofNat 64 (v.toNat % 2 ^ 32 * 2 ^ 32 + old.toNat % 2 ^ 32)

/-- Whether a write of `size` bytes at an offset is one of the register at offset `r`, or of a half of it. -/
def Writes (r off size : Nat) : Prop := off = r ∧ (size = 4 ∨ size = 8) ∨ off = r + 4 ∧ size = 4

/-- Die `d` has been reset: its cores are as at reset but for what the Muslin layer and the lane map hold, its strands are absent, no other core or die has changed, and the registers that die d0
holds for the package change with d0 alone (R144, R146, R369). -/
structure DieRestarts (d : Nat) (x : Die) (s t : State) : Prop where
  die : dieAt d t = x
  others : ∀ e : Fin 4, e.1 ≠ d → t.dies[e] = s.dies[e]
  cores : ∀ c ∈ s.cores, c.mesh / 384 = d → ∃ e ∈ t.cores, e.mesh = c.mesh ∧ e.slots = c.slots ∧ e.plc = c.plc ∧ e.lanemap0 = c.lanemap0 ∧ e.lanemap1 = c.lanemap1 ∧ e.dropped = c.dropped ∧ e.pwr = 0 ∧ e.launch = none ∧ e.scratch = [] ∧
    (∀ y ∈ e.strands, y.life = .absent)
  kept : ∀ c ∈ s.cores, c.mesh / 384 ≠ d → c ∈ t.cores
  me : t.me = if s.me.mesh / 384 = d then Strand.reset s.me.mesh s.me.sid else s.me
  memory : t.mem = (if d = 0 then hostMemory s else s.mem) ∧ t.hostStale = (if d = 0 then [] else s.hostStale) ∧ t.durable = s.durable ∧ t.images = s.images
  package : if d = 0 then t.ctxbase = 0 ∧ t.cap = 2400 ∧ t.launches = [] ∧ t.tiq = [] ∧ t.mailbox = State.reset.mailbox
    else t.ctxbase = s.ctxbase ∧ t.cap = s.cap ∧ t.launches = s.launches ∧ t.grants = s.grants ∧ t.mailbox = { s.mailbox with seen := s.mailbox.seen.set (fin 4 (by decide) d) 0 }

end Sys2Proof.Claims

/-- A register write of the host reaches control space when it is of 4 or 8 aligned bytes and is dropped as an Unsupported Request otherwise: CTXBASE, the grants, CNTBASE, CHAINID and ACTTHR take their fields and a
write of 4 bytes leaves the other half, and under BOOTLOCK no write changes them, but for the mailbox's RESTART; PTVEC keeps bits 56:2; BOOTLOCK takes effect once. A host read brings the register or its half, and one of another size no data. TIQHI queues its descriptor, or sets OVF when 32 wait or ERR
when it is reserved. The oldest descriptor completes: the translations it names leave every TLB, no slice holds a dirty line to which one of them leads, and DONE rises. Every 1,048,576 cycles a die adds its
counts to the counter array (R7, R23, R34 to R36, R96, R347, R366, R367, R371, R383, R401; the model's choices of log entries 57 and 78). Completes: registerWrite, bootlock, tiqhi, invalidationComplete,
counterFlush. -/
def Obligations.ControlSpaceEvents : Prop :=
  (∀ (s : State) (d off size : Nat) (v : Word),
    (4 ≤ d ∨ 0x400000000 ≤ off → exec (.registerWrite d off size v) s = .next s) ∧
    (d < 4 → off < 0x400000000 → (size ≠ 4 ∧ size ≠ 8) ∨ off % size ≠ 0 → exec (.registerWrite d off size v) s = .next { s with hostBad := true }) ∧
    (d < 4 → off < 0x400000000 → size = 4 ∨ size = 8 → off % size = 0 →
      exec (.registerWrite d off size v) s = .next (ctlStore (0x40000000000 + d * 0x400000000 + off) size v { s with hostBad := false })) ∧
    (off / 8 * 8 ≠ 0x02000038 → ∀ t, exec (.registerWrite d off size v) s = .next t →
      (s.dies[0].bootlock = true → t.ctxbase = s.ctxbase ∧ t.grants = s.grants ∧ t.cntbase = s.cntbase ∧ t.chainid = s.chainid) ∧
      ∀ e : Fin 4, s.dies[e].bootlock = true → ∀ j : Fin 5, t.dies[e].ctrls[j].actthr = s.dies[e].ctrls[j].actthr)) ∧
  (∀ (s : State) (d : Fin 4) (v : Word) (off size : Nat), s.dies[0].bootlock = false → let w : State := { s with hostBad := false }
    let gives (t : State) : Prop := exec (.registerWrite d off size v) s = .next t
    (Writes 0x10000000 off size → gives { w with ctxbase := written s.ctxbase v off size &&& BitVec.ofNat 64 (2 ^ 52 - 2 ^ 17) }) ∧
    (Writes 0x18 off size → gives { w with chainid := fld (written (BitVec.ofNat 64 s.chainid) v off size) 0 12 }) ∧
    (Writes 0x58 off size → gives { w with cntbase := written s.cntbase v off size &&& BitVec.ofNat 64 (2 ^ 52 - 2 ^ 6) }) ∧
    (∀ (p : Fin 8) (j : Fin 16), let g := (s.grants[p])[j]
      (Writes (0x10000800 + 0x100 * p.1 + 0x10 * j.1) off size →
        gives { w with grants := s.grants.set p (s.grants[p].set j { g with base := written g.base v off size &&& BitVec.ofNat 64 (2 ^ 52 - 2 ^ 14 + 3) }) }) ∧
      (Writes (0x10000808 + 0x100 * p.1 + 0x10 * j.1) off size →
        gives { w with grants := s.grants.set p (s.grants[p].set j { g with last := written g.last v off size &&& BitVec.ofNat 64 (2 ^ 52 - 2 ^ 14) }) }))) ∧
  (∀ (s : State) (d : Fin 4) (v : Word) (off size : Nat) (j : Fin 5), s.dies[d].bootlock = false → Writes (0x08000000 + 0x1000 * j.1) off size →
    let n := fld (written (BitVec.ofNat 64 s.dies[d].ctrls[j].actthr) v off size) 0 14
    exec (.registerWrite d off size v) s = .next (if 256 ≤ n ∧ n ≤ 8192
      then withDie d { s.dies[d] with ctrls := s.dies[d].ctrls.set j { s.dies[d].ctrls[j] with actthr := n } } { s with hostBad := false } else { s with hostBad := false })) ∧
  (∀ (s : State) (d : Fin 4) (v : Word),
    (∀ p : Fin 8, exec (.registerWrite d (0x0B000000 + 0x40 * p.1) 8 v) s =
      .next { s with hostBad := false, parts := s.parts.set p { s.parts[p] with ptvec := v &&& BitVec.ofNat 64 (2 ^ 57 - 4) } }) ∧
    (exec (.bootlock d) s = .next (if s.dies[d].bootlock then s
      else { s with dies := s.dies.set d { s.dies[d] with bootlock := true }, locked := if d = 0 then rwlValues s else s.locked }))) ∧
  (∀ (s : State) (off size : Nat), let ok := off < 0x1000000000 ∧ (size = 4 ∨ size = 8) ∧ off % size = 0
    (ok → takeTurn (.hostRead off size) s = .next { s with hostAnswer := bytesOf size (ctlLoad (0x40000000000 + off) size s).toNat, hostPoison := false, hostBad := false }) ∧
    (¬ok → takeTurn (.hostRead off size) s = .next { s with hostAnswer := [], hostPoison := false, hostBad := true })) ∧
  (∀ (s : State) (v : Word), let kind := fld s.tiqlo 0 3
    let bad := 5 ≤ kind ∨ kind = 2 ∧ fld s.tiqlo 32 32 = 0
    (32 ≤ s.tiq.length → exec (.tiqhi v) s = .next { s with tiqhi := v, tiqOvf := true }) ∧
    (s.tiq.length < 32 → bad → exec (.tiqhi v) s = .next { s with tiqhi := v, tiqErr := true }) ∧
    (s.tiq.length < 32 → ¬bad → exec (.tiqhi v) s = .next { s with tiqhi := v, tiq := s.tiq ++ [⟨s.tiqlo, v⟩], tiqseq := (s.tiqseq + 1) % 2 ^ 32 })) ∧
  (∀ s : State, s.tiq = [] → exec .invalidationComplete s = .next s) ∧
  (∀ (s : State) (d : Invalidation) (rest : List Invalidation), s.tiq = d :: rest → AllQuiet s → ∃ t, exec .invalidationComplete s = .next t ∧
    t.tiq = rest ∧ t.tiqdone = (s.tiqdone + 1) % 2 ^ 32 ∧ t.me = s.me ∧ t.mem = s.mem ∧ let part := partOfCtx (fld d.lo 3 12) s
    (∀ e, e ∈ t.core.tlb ↔ e ∈ s.core.tlb ∧ ¬Removes d part e) ∧
    (∀ k : Nat, ∀ c, s.cores[k]? = some c → ∃ u, t.cores[k]? = some u ∧ u = { c with tlb := u.tlb, walks := u.walks } ∧ ∀ e, e ∈ u.tlb ↔ e ∈ c.tlb ∧ ¬Removes d part e) ∧
    (∀ c ∈ s.core :: s.cores, ∀ e ∈ c.tlb, Removes d part e → ∀ die : Fin 4, ∀ x ∈ t.dies[die].l2, ∀ (w : Nat) (v : L2Line), x.ways[w]? = some (some v) → v.dirty = true → leadsTo v.line e = false)) ∧
  (∀ (s : State) (d : Fin 4), s.wellKept → let x := s.dies[d]
    (x.cycle < (x.flushes + 1) * 1048576 → exec (.counterFlush d) s = .next s) ∧
    ((x.flushes + 1) * 1048576 ≤ x.cycle →
      (s.cntbase = 0 → exec (.counterFlush d) s = .next (withDie d { x with flushes := x.flushes + 1 } s)) ∧
      (s.cntbase ≠ 0 → (x.counts.Pairwise fun a b => a.ctx ≠ b.ctx) → ∃ t, exec (.counterFlush d) s = .next t ∧ t.me = s.me ∧ t.dies[d].flushes = x.flushes + 1 ∧
        ∀ c ∈ x.counts, ∀ k : Fin 7, let a := s.cntbase.toNat + 64 * c.ctx + 8 * k.1
          wordAt t a 8 = (wordAt s a 8 + c.n[k]) % 2 ^ 64)))

/-- A reset starts its die at stage 1. Stage 1 leads on when it passes, and stage 2 when the firmware package passes its check; stage 3 needs both stacks' samples and 16 enabled cores, leaves the die's DRAM zero, and leads to stage 4, where FAILS is 0 and the
fuse takes the firmware's version. A stage that has lasted longer than 2^32 cycles leads nowhere. A failed check, too few cores and a stage that lasts longer than 2^32 cycles start the die again with FAILS and REASON, and the third failure in a row leaves MIN set
(R17, R153, R367, R369, R370, R372, R378; the model's choices of log entries 14 and 44, and of 47, 58 and 103 for what a reset keeps and what goes with die d0). Completes:
dieReset, stageComplete, stageTimeout. -/
def Obligations.StagedStart : Prop :=
  ∀ (s : State) (d : Fin 4), let x := s.dies[d]
    (∃ t, exec (.dieReset d) s = .next t ∧ DieRestarts d (started 0 0 false) s t) ∧
    (x.min = true ∨ x.stage = 0 ∨ 4 ≤ x.stage → (∀ r, exec (.stageComplete d r) s = .next s) ∧ exec (.stageTimeout d) s = .next s) ∧
    (x.stageAt + 2 ^ 32 < x.cycle → ∀ r, exec (.stageComplete d r) s = .next s) ∧
    (x.min = false → 0 < x.stage → x.stage < 4 → let again (reason : Nat) (t : State) : Prop := DieRestarts d (started (x.fails + 1) reason (decide (2 ≤ x.fails))) s t
      (x.cycle ≤ x.stageAt + 2 ^ 32 →
      (x.stage = 1 → exec (.stageComplete d .passed) s = .next (withDie d { x with stage := 2, stageAt := x.cycle } s) ∧ ∀ r, exec (.stageComplete d (.failed r)) s = .next s) ∧
      (x.stage = 2 → ∀ r, let signed := Config.signatureOk s.firmware = true
        let old := (Config.imageVersion s.firmware).toNat < s.fuse.toNat
        (signed → ¬old → exec (.stageComplete d r) s = .next (withDie d { x with stage := 3, stageAt := x.cycle } s)) ∧
        (¬signed → ∃ t, exec (.stageComplete d r) s = .next t ∧ again 1 t) ∧ (signed → old → ∃ t, exec (.stageComplete d r) s = .next t ∧ again 2 t)) ∧
      (x.stage = 3 → x.hbmDone[0] = 0 ∨ x.hbmDone[1] = 0 → exec (.stageComplete d .passed) s = .next s) ∧
      (x.stage = 3 → x.hbmDone[0] ≠ 0 → x.hbmDone[1] ≠ 0 → s.wellKept → let u := memoryStage d s
        (16 ≤ enabledCores d u → ∃ t, exec (.stageComplete d .passed) s = .next t ∧ t.dies[d].stage = 4 ∧ t.dies[d].fails = 0 ∧ t.dies[d].stageAt = x.cycle ∧ t.me = s.me ∧
          t.fuse.toNat = max s.fuse.toNat s.pendingFuse.toNat ∧
          ∀ a, t.mem.get a = if (regionOf a = .hbm ∨ regionOf a = .lpddr) ∧ homeDie a = d.1 then 0 else s.mem.get a) ∧
        (enabledCores d u < 16 → ∃ t, exec (.stageComplete d .passed) s = .next t ∧ dieAt d t = started (x.fails + 1) 6 (decide (2 ≤ x.fails)))) ∧
      (x.stage = 3 → ∀ r, (r = 3 ∨ r = 4 ∨ r = 5 ∨ r = 7 → ∃ t, exec (.stageComplete d (.failed r)) s = .next t ∧ again r t) ∧
        (¬(r = 3 ∨ r = 4 ∨ r = 5 ∨ r = 7) → exec (.stageComplete d (.failed r)) s = .next s))) ∧
      (x.cycle ≤ x.stageAt + 2 ^ 32 → exec (.stageTimeout d) s = .next s) ∧
      (x.stageAt + 2 ^ 32 < x.cycle → ∃ t, exec (.stageTimeout d) s = .next t ∧ again 8 t))

/-! ## Queues, launches and leave -/

namespace Sys2Proof.Claims

/-- The status byte of the slot at HEAD has been written and the slot consumed, and nothing else of memory has changed (R318, R322). -/
structure Consumes (d : Fin 4) (q : Fin 64) (status : Nat) (s t : State) : Prop where
  head : t.dies[d].queues[q] = { s.dies[d].queues[q] with head := (s.dies[d].queues[q].head + 1) % 2 ^ 32 }
  status : let x := s.dies[d].queues[q]
    t.mem.get (x.qsts + x.head % (32 * 2 ^ x.npl)) = BitVec.ofNat 8 status ∧ SameOutside (x.qsts + x.head % (32 * 2 ^ x.npl)) 1 s t
  me : t.me = s.me

/-- A strand as a launch starts it: the registers that the record gives it, and zero in the others; MVL 256 with NB 32, the cause 0 in RCAUSE, no loop, no stream and no mapping (R166, R169, R348). -/
structure Starts (l : Launch) (m : Nat) (ptvec : Word) (ceiling part : Nat) (x : Strand) : Prop where
  running : x.life = .running ∧ x.launch = l.id ∧ x.mesh = m
  pc : x.pc = recENTRY l.record
  g : ∀ r : Fin 32, x.g[r] = if r = 1 then recARGS l.record else 0
  f : ∀ r : Fin 16, x.f[r] = 0
  priv : x.priv = false ∧ x.tvec = ptvec ∧ x.mode = recMODE l.record ∧ x.seed = recSEED l.record ∧ x.sbase = recSBASE l.record
  place : x.patchbase = recPATCH l.record ∧ x.rectpos = rectPos l.record m ∧ x.ctx = recCTX l.record ∧ x.part = part ∧ x.rcause = 0 ∧ x.replay = false ∧ x.pub = 0
  vectors : x.v = Vector.replicate 32 VReg.reset ∧ (∀ r : Fin 32, x.maps[r] = []) ∧ x.held = none ∧ x.vl = 0 ∧ x.six = 0 ∧ x.vflags = 0 ∧ x.hwm = 0 ∧ x.mvl = 256 ∧ x.nbl = 5 ∧ x.ceiling = ceiling
  masks : (∀ r : Fin 8, x.m[r] = 0) ∧ ∀ r : Fin 4, x.tm[r] = 0
  loops : ∀ r : Fin 3, x.lc[r] = ⟨false, 0, 0, 0⟩
  traps : x.tcause = 0 ∧ x.tepc = 0 ∧ x.tstat = 0 ∧ x.tsix = 0 ∧ x.tscr = 0 ∧ ∀ r : Fin 4, x.trec[r] = 0
  streams : ∀ q : SqN, x.sq[q].st = .closed
  quiet : x.stq = [] ∧ x.vwq = [] ∧ x.sfq = [] ∧ x.patch = [] ∧ x.loopBuf = [] ∧ x.latches = [] ∧ x.call = none ∧ x.leave = .none
  tags : x.tagFirst = recTagFirst l.record x.sid ∧ x.tagCount = recTagCount l.record x.sid ∧ x.budget = recBUD l.record x.sid

/-- Whether a request for leave is chosen before another: the larger DEF, then the older, then the lower core, then the lower strand (R333). -/
def ChosenBefore (i : Nat) (s : State) (a b : LeaveReq) : Prop :=
  defOf b.launch i s < defOf a.launch i s ∨ defOf a.launch i s = defOf b.launch i s ∧ (a.since < b.since ∨ a.since = b.since ∧ (a.mesh < b.mesh ∨ a.mesh = b.mesh ∧ a.sid < b.sid))

/-- The loop of R333 on island `i` with its pending requests: of those that the DEF of their launch covers the one that no other comes before is granted, until none is covered. -/
inductive Grants (i : Nat) : List LeaveReq → State → State → Prop where
  | stop (rs : List LeaveReq) (s : State) : (∀ r ∈ rs, defOf r.launch i s < r.steps) → Grants i rs s s
  | grant (rs : List LeaveReq) (s t : State) (r : LeaveReq) : r ∈ rs → r.steps ≤ defOf r.launch i s →
      (∀ x ∈ rs, x.steps ≤ defOf x.launch i s → ¬ChosenBefore i s x r) → Grants i (rs.filter fun x => x != r) (grantLeave i r s) t → Grants i rs s t

/-- A core as a launch starts on it: FMT F32 with zero cells and no open block, the scale slots and the code tables at their reset values, the granted tags FREE, no copy in L1, and every unit dirty for
both shadow slots (R102, R148, R166, R261, R265, R272). -/
structure StartsOn (l : Launch) (c e : Core) : Prop where
  placed : e.launch = some l.id ∧ e.plc = c.plc + 1 ∧ e.copies = [] ∧ e.icopies = [] ∧ e.window = []
  cells : e.fmt = 0 ∧ (∀ (a : Fin 2) (k : Fin 256), (e.acc[a])[k] = 0) ∧ e.cellPoison = []
  block : e.owner = none ∧ e.base = none ∧ e.count = 0 ∧ ∀ k : Fin 256, e.stage[k] = 0 ∧ e.spec[k] = 0
  scales : ∀ k : Fin 16, e.scales[k] = ⟨Vector.replicate 16 0, 0, 0x3F800000, 0, 0x0007, none⟩
  tables : ∀ k : Fin 4, e.tables[k] = ⟨0x001F, Vector.replicate 256 0⟩
  tags : ∀ (j : Nat) (k : Tag), j ≤ recNSTR l.record → recTagFirst l.record j ≤ k.1 → k.1 < recTagFirst l.record j + recTagCount l.record j →
    e.tags[k].st = .free ∧ e.tags[k].cmd = none ∧ e.tags[k].err = 0 ∧ e.tags[k].slots = []
  engine : e.engq = []
  dirty : ∀ (k : Fin 3) (n : Fin 928), (e.dirty[k]).getLsbD n = true
  fused : if c.fused = true then e.fused = true else (e.fused = true ↔ recFUSE l.record = true ∧ ∀ k ∈ clusterOf c.mesh, inRect l.record k = true)

end Sys2Proof.Claims

/-- A doorbell within the capacity moves TAIL and any other sets DBERR; a queue is enabled at stage 4 with HEAD and TAIL 0, and disabled. The slot at HEAD is consumed with the first status that applies: a launch
record with status 0 becomes a candidate, a replay waits while 16 are held. A dependence is met once its high-water word covers the index or is final; one whose read
faulted is read again only after the next invalidation has completed (R317 to R324, R330, R332; the model's choices of log entries 54 and 115 to 117). Completes: doorbell, queueEnable, queueDisable, slotAccept,
dependenceRead. -/
def Obligations.QueueEvents : Prop :=
  ∀ (s : State) (d : Fin 4) (q : Fin 64), let x := s.dies[d].queues[q]
    let withQueue (y : HwQueue) : State := withDie d { s.dies[d] with queues := s.dies[d].queues.set q y } s
    let pending := (x.tail + 2 ^ 32 - x.head) % 2 ^ 32
    let held := ∃ l ∈ s.launches, l.die = d.1 ∧ l.queue = q.1 ∧ l.node = none ∧ l.st = .candidate
    (∀ v : BitVec 32, let n := (v.toNat + 2 ^ 32 - x.head) % 2 ^ 32
      exec (.doorbell d q v) s = .next (withQueue
        (if x.en = true ∧ x.dev = false ∧ pending ≤ n ∧ n ≤ 32 * 2 ^ x.npl then { x with tail := v.toNat } else { x with dberr := true }))) ∧
    (exec (.queueEnable d q) s = .next (if s.dies[d].stage = 4 ∧ x.en = false then withQueue { x with en := true, head := 0, tail := 0 } else s)) ∧
    (exec (.queueDisable d q) s = .next (withQueue { x with en := false })) ∧
    ((x.en = false ∨ pending = 0 ∨ held → exec (.slotAccept d q) s = .next s) ∧
      (x.en = true → pending ≠ 0 → ¬held → s.wellKept → let p := readSlot (x.qbase + x.head % (32 * 2 ^ x.npl) * 128) s
        let r := p.1
        let u := p.2
        let type := fld (recWord r 15) 0 8
        let part := x.part
        (type = 2 → ∃ t, exec (.slotAccept d q) s = .next t ∧ Consumes d q 0 s t ∧ t.launches = s.launches) ∧
        (3 ≤ type → ∃ t, exec (.slotAccept d q) s = .next t ∧ Consumes d q 6 s t ∧ t.launches = s.launches) ∧
        (type = 0 → let early := if recBad r then 3 else if ctxBad (recCTX r) part u then 4 else if placeBad r u then 5 else 0
          let v := if early = 0 then (depBad d r u).2 else u
          let st := if early = 0 ∧ (depBad d r u).1 = true then 8 else early
          ∃ t, exec (.slotAccept d q) s = .next t ∧ Consumes d q st v t ∧ (st ≠ 0 → t.launches = v.launches ∧ t.order = v.order) ∧
            (st = 0 → t.order = v.order + 1 ∧ ∃ l, t.launches = v.launches ++ [l] ∧ l.record = r ∧ l.st = .candidate ∧ l.order = v.order ∧ l.die = d.1 ∧ l.queue = q.1 ∧ l.node = none ∧
              (∀ y ∈ v.launches, y.id ≠ l.id) ∧ l.met = (recDEPL r == 0 || recDEPIDX r == 0))) ∧
        (type = 1 → (replayReserved r = true → ∃ t, exec (.slotAccept d q) s = .next t ∧ Consumes d q 3 s t) ∧
          (replayReserved r = false → ctxBad (recCTX r) part u = true → ∃ t, exec (.slotAccept d q) s = .next t ∧ Consumes d q 4 s t) ∧
          (replayReserved r = false → ctxBad (recCTX r) part u = false →
            (16 ≤ (s.replays.filter fun y => y.die == d.1).length → exec (.slotAccept d q) s = .next u) ∧
            ((s.replays.filter fun y => y.die == d.1).length < 16 → exec (.slotAccept d q) s = .next (takeSnapshot r d q u)))))) ∧
    (∀ id : Nat, launchAt id s = none → exec (.dependenceRead id) s = .next s) ∧
    (∀ (id : Nat) (l : Launch), launchAt id s = some l →
      (l.st ≠ .candidate ∨ l.met = true ∨ l.blocked = some s.tiqdone → exec (.dependenceRead id) s = .next s) ∧
      (l.st = .candidate → l.met = false → l.blocked ≠ some s.tiqdone →
        (∀ w t, schedRead l.die (recCTX l.record) (recDEPL l.record + 8) s = (some w, t) →
          exec (.dependenceRead id) s = .next (if recDEPIDX l.record ≤ fld w 0 48 ∨ w.getLsbD 63 = true then modLaunch id (fun l => { l with met := true }) t else t)) ∧
        (∀ t, schedRead l.die (recCTX l.record) (recDEPL l.record + 8) s = (none, t) →
          exec (.dependenceRead id) s = .next (modLaunch id (fun l => { l with blocked := some t.tiqdone }) t))))

/-- The arbiter's next launch is placed when every core of its rectangle is on and enabled, its islands are sampled and no shadow write is due on it: each core holds it with PLC one higher, FMT F32, zero cells and its slots, tables
and granted tags cleared, and its strands start, or go on from the frames of its area; cores that are off are powered up first, and a node outside its partition's allotment is refused. A launch that a candidate pre-empts is stopped and given an area of its partition's pool;
once it is saved its cores are idle and it is a candidate again. A grant period counts once, sets each island's Q, and on each island adds the shares of Q to the deficits and grants, of the requests that a deficit
covers, the one that no other comes before, until none is covered: the strand has leave and the deficit is less by its steps; it changes no other strand and no memory (R82, R166,
R169, R180, R261, R265, R272, R325 to R328, R332, R333, R348 to R352, R369, R376, R378 to R380; the model's choices of log entries 38, 42, 49, 51, 91, 92, 104, 119 and 120). Completes: placement, preemption, stateSaveComplete, grantPeriod. -/
def Obligations.PlacementAndLeave : Prop :=
  (∀ s : State, (nextPlace s = none → exec .placement s = .next s) ∧
    (∀ l, nextPlace s = some l → let ms := rectCores l.record
      let refused := l.node ≠ none ∧ l.st = .candidate ∧ placeBad l.record s = true
      let takes := ∀ m ∈ ms, let c := coreAt m s
        (dieAt (m / 384) s).stage = 4 ∧ c.pwr = 0 ∧ islandReady m s = true ∧ c.shRequest = false ∧ c.shTargets = none ∧ c.shWriting = none ∧ disabled m s = false
      let pressed := ∃ m ∈ ms, ((dieAt (m / 384) s).islands[fin 12 (by decide) (islandOf m)]).press = true
      (refused → ∃ t, exec .placement s = .next t ∧ ∀ y, launchAt l.id t = some y → y.st = .finished) ∧
      (¬refused → ¬takes → exec .placement s = .next (ms.foldl (fun s m => modCore m (fun c => if c.pwr = 2 then { c with pwr := 3 } else c) s) s)) ∧
      (¬refused → takes → s.wellKept → (∀ m ∈ ms, HasCore m s) → ∃ t, exec .placement s = .next t ∧ t.mem = s.mem ∧ (∀ y, launchAt l.id t = some y → y.st = .placed) ∧
        (∀ ceiling : Nat, (pressed → ceiling = max 64 (64 * (recVLREQ l.record / 128))) → (¬pressed → ceiling = recVLREQ l.record) →
        (l.st ≠ .preempted → let part := partOfCtx (recCTX l.record) s
          ∀ m ∈ ms, StartsOn l (coreAt m s) (coreAt m t) ∧
            ∀ x ∈ strandsOf m t, (x.sid ≤ recNSTR l.record → Starts l m (s.parts[fin 8 (by decide) part]).ptvec ceiling part x) ∧ (recNSTR l.record < x.sid → x.life = .absent)) ∧
        (l.st = .preempted → ∀ m ∈ ms, l.dead.contains (wgOf l.record m) = false → ∀ g, s.saved.find? (fun x => x.mesh == m && x.slot == l.id) = some g →
          let x := readFrames l m g.core s.mem
          let e := coreAt m t
          e.launch = some l.id ∧ e.plc = (coreAt m s).plc + 1 ∧ e.copies = [] ∧ e.scratch = x.scratch ∧ e.acc = x.acc ∧
          e.tags = x.tags.map (fun g => { g with moved := none }) ∧ e.scales = x.scales ∧ e.tables = x.tables ∧
          ∀ z ∈ strandsOf m s, ∀ y, x.strands.find? (fun k => k.sid == z.sid) = some y → y.life = .running →
            ∃ n ∈ strandsOf m t, n.sid = z.sid ∧ n.life = .running ∧ n.launch = l.id ∧ n.pc = y.pc ∧ n.g = y.g ∧ n.f = y.f ∧ n.v = y.v ∧ n.m = y.m ∧ n.rcause = 1 ∧ n.ceiling = ceiling))))) ∧
  (∀ (s : State) (v : Nat), launchAt v s = none → exec (.preemption v) s = .next s ∧ exec (.stateSaveComplete v) s = .next s) ∧
  (∀ (s : State) (v : Nat) (l : Launch), launchAt v s = some l →
    (l.st ≠ .placed ∨ (∀ c ∈ s.launches, preempts c l s = false) → exec (.preemption v) s = .next s) ∧
    (l.st = .placed → (∃ c ∈ s.launches, preempts c l s = true) →
      (allocate l s = none → exec (.preemption v) s = .next s) ∧
      (∀ a, allocate l s = some a → exec (.preemption v) s =
        .next (modLaunch v (fun x => if x.st = .placed then { x with st := .saving, area := (a, areaSize l.record) } else x)
          ((launchStrands v s).foldl (fun s k => atStrand k.1 k.2 preemptStrand s) s)))) ∧
    (l.st ≠ .saving → exec (.stateSaveComplete v) s = .next s) ∧
    (l.st = .saving → let u := settleStops v s
      (saveReady l u = false → exec (.stateSaveComplete v) s = .next u) ∧
      (saveReady l u = true → u.wellKept → (launchAt v u).isSome = true → (∀ m ∈ rectCores l.record, HasCore m u ∧ framesOk l m = true) →
        ∃ t, exec (.stateSaveComplete v) s = .next t ∧ (∀ y, launchAt v t = some y → y.st = .preempted) ∧
          ∀ m ∈ rectCores l.record, (coreAt m u).launch = some v → (coreAt m t).launch = none ∧ (∀ x ∈ strandsOf m t, x.life = .absent) ∧
            ∃ g ∈ t.saved, g.mesh = m ∧ g.slot = l.id))) ∧
  (∀ (s : State) (d : Fin 4) (draws : Draws), s.wellKept → let x := s.dies[d]
    (x.cycle < x.periods * 256 → exec (.grantPeriod d draws) s = .next s) ∧
    (x.periods * 256 ≤ x.cycle → ∃ t, exec (.grantPeriod d draws) s = .next t ∧ t.mem = s.mem ∧ t.dies[d].periods = x.periods + 1 ∧
      (let sup := supplyOf d draws s
       let u := if x.periods = 0 then s else endPeriods d (recordDraws d sup s)
       let waiting := (List.range 12).filterMap fun i => if (requestsOf (12 * d.1 + i) u).isEmpty then none else some (12 * d.1 + i)
       t = modDie d (fun e => { e with periods := e.periods + 1 }) ((List.range 12).foldl (fun v i => islandPeriod (12 * d.1 + i) (quotaOf sup waiting (12 * d.1 + i) u) v) u) ∧
       ∀ i : Fin 12, t.dies[d].islands[i].q = quotaOf sup waiting (12 * d.1 + i.1) u) ∧
      ∀ m k y, HasCore m s → strandAt m k s = some y → (∀ z ∈ strandsOf m s, z.sid = k → z = y) → ∃ z, strandAt m k t = some z ∧
        (z = y ∨ ∃ n c a, y.leave = .asked n c a ∧ z = { y with leave := .granted a }))) ∧
  (∀ (s : State) (i q : Nat), let rs := requestsOf i s
    let u := addShares i q rs (modIsland (i / 12) (i % 12) (beginPeriod q (rs.map fun r => r.steps).sum) s)
    Grants i rs u (islandPeriod i q s) ∧
    ∀ l ∈ s.launches, launchAt l.id s = some l → defOf l.id i u =
      if ∃ r ∈ rs, r.launch = l.id then defOf l.id i s + q * (recPWT l.record + 1) / max 1 ((launchesOf rs).map fun id => weightOfLaunch id s).sum
      else if l.st = .saving ∨ l.st = .preempted then defOf l.id i s else 0) ∧
  (∀ (s : State) (i : Nat) (r : LeaveReq),
    (∀ l, launchAt r.launch s = some l → defOf r.launch i (grantLeave i r s) = defOf r.launch i s - r.steps) ∧
    (∀ k, k ≠ r.launch → defOf k i (grantLeave i r s) = defOf k i s) ∧
    (HasCore r.mesh s → ∀ y n c a, strandAt r.mesh r.sid s = some y → (∀ z ∈ strandsOf r.mesh s, z.sid = r.sid → z = y) → y.leave = .asked n c a →
      strandAt r.mesh r.sid (grantLeave i r s) = some { y with leave := .granted a }))
/-! ## The mailbox and the outside -/

namespace Sys2Proof.Claims

/-- The outcome of a mailbox command that is written while none runs, by its code and its first two arguments: refused at once with a status, or running (R372, R373). -/
def MailStarts (cmd : Nat) (args : Vector Word 4) (s t : State) : Prop :=
  let st := mailRefusal cmd args[0] args[1] s
  if s.mailbox.busy then t = s
  else t.mem = s.mem ∧ t.mailbox.cmd = cmd ∧ t.mailbox.args = args ∧ t.mailbox.latched = args ∧
    if st ≠ 0 then t.mailbox.busy = false ∧ t.mailbox.sts = st ∧ t.mailbox.ret = 0 ∧ t.me = s.me ∧ t.dies = s.dies
    else t.mailbox.busy = true ∧ t.mailbox.running = cmd ∧ t.dies = s.dies ∧ t.me = s.me ∧ ∀ d : Fin 4, t.mailbox.seen[d] = s.dies[d].periods

/-- Every die has begun a grant period since the command began. -/
def PeriodBegun (s : State) : Prop := ∀ d : Fin 4, s.mailbox.seen[d] < s.dies[d].periods

/-- The state in which the command that runs has completed with a status and a result. -/
def completed (sts : Nat) (ret : Word) (s : State) : State := { s with mailbox := { s.mailbox with busy := false, sts := sts, ret := ret, running := 0 } }

/-- The launch number that a resumed record takes (R153). -/
def resumedId (s : State) : Nat := (s.launches.map fun l => l.id).foldl max 0 + 1

/-- A core of the rectangle is enabled and has a complete slot of its latest placement (R153, R378). -/
def Resumable (m : Nat) (s : State) : Prop := disabled m s = false ∧ ∃ k, NewestSlot (coreAt m s) (fun x => x.plc = (coreAt m s).plc) k

/-- What RESUME of a record brings about once the cores of its rectangle are there: RET says how many strands run; where every core has a complete slot of its latest placement, each takes up the newest one's
contents, with cause 4; where one has none, the strands of its work group do not run (R153, R157). -/
def Resumed (r : List Word) (s t : State) : Prop :=
  let id := resumedId s
  let runs (x : Strand) : Bool := x.launch == id && x.life == .running
  t.mailbox.ret = BitVec.ofNat 64 ((allStrands t).countP runs) ∧
  (s.wellKept → ((s.core :: s.cores).Pairwise fun x y => x.mesh ≠ y.mesh) → (∀ k, (strandsOf k s).Pairwise fun x y => x.sid ≠ y.sid) →
    ∀ m ∈ rectCores r, HasCore m s → ¬Resumable m s → ∀ k ∈ rectCores r, wgOf r k = wgOf r m → ∀ x ∈ strandsOf k t, runs x = false) ∧
  ((∀ m ∈ rectCores r, Resumable m s) → (∃ x ∈ allStrands t, runs x = true) →
    (∃ l ∈ t.launches, l.id = id ∧ l.record = r ∧ l.st = .placed) ∧ t.mem = s.mem ∧
    ∀ m ∈ rectCores r, HasCore m s → ∀ (k : Fin 2) (img : Image), NewestSlot (coreAt m s) (fun x => x.plc = (coreAt m s).plc) k → (coreAt m s).slots[0].gen ≠ (coreAt m s).slots[1].gen →
      imageAt m k.1 s = some img → let e := coreAt m t
      let o := (coreAt m s).slots[k + 1]
      e.launch = some id ∧ e.scratch = img.core.scratch ∧ e.acc = img.core.acc ∧ e.tags = img.core.tags.map (fun g => { g with moved := none }) ∧ e.scales = img.core.scales ∧ e.tables = img.core.tables ∧ e.fmt = img.core.fmt ∧ e.copies = [] ∧
      ∀ x ∈ strandsOf m s, x.sid ≤ recNSTR r → ∀ y, img.core.strands.find? (fun z => z.sid == x.sid) = some y → ∃ z ∈ strandsOf m t, z.sid = x.sid ∧ z.launch = id ∧ z.g = y.g ∧ z.v = y.v ∧
        (y.life = .running → z.life = .running ∧ z.pc = y.pc ∧ z.replay = true ∧
          ∀ torn : Bool, (torn = true ↔ o.st ≠ .empty ∧ ¬Sound o) → z.rcause = BitVec.ofNat 64 ((coreAt m s).slots[k].gen % 2 ^ 32 * 2 ^ 32 + torn.toNat * 2 ^ 8 + 4)) ∧
        (y.life ≠ .running → z.life = .ended))

/-- The counts of die `d` are added to the records of their contexts at CNTBASE, and nothing else of memory changes; its counts are 0, but for the evictions and the write-backs
of the lines that make room for the records (R96, R383). -/
def Flushed (d : Fin 4) (s t : State) : Prop :=
  let at_ (c : CtxCounts) : Nat := s.cntbase.toNat + 64 * c.ctx
  t.me = s.me ∧ t.cntbase = s.cntbase ∧ 
  (∀ c ∈ t.dies[d].counts, ∀ k : Fin 7, k = 2 ∨ k = 6 ∨ c.n[k] = 0) ∧
  (∀ e : Fin 4, e ≠ d → ∀ c ∈ s.dies[e].counts, ∃ x ∈ t.dies[e].counts, x.ctx = c.ctx ∧ ∀ k : Fin 7, k = 2 ∨ k = 6 ∨ x.n[k] = c.n[k]) ∧
  (∀ a, (∀ c ∈ s.dies[d].counts, a < at_ c ∨ at_ c + 56 ≤ a) → t.mem.get a = s.mem.get a) ∧
  ((s.dies[d].counts.Pairwise fun x y => x.ctx ≠ y.ctx) → ∀ c ∈ s.dies[d].counts, ∀ k : Fin 7, wordAt t (at_ c + 8 * k.1) 8 = (wordAt s (at_ c + 8 * k.1) 8 + c.n[k]) % 2 ^ 64)

/-- The bytes of `n` offsets from one on that lie in memory (R19, R366). -/
def hostCovers (off n k : Nat) : Prop := k < n ∧ off + k < 0x20040000000 ∧ ownMemory (off + k) = true

end Sys2Proof.Claims

/-- A mailbox command with a status is refused at once; one without runs, a POWER command begins the core's change, and RESTART starts every die again. A command that runs completes at its event: a cap, a floor and an
allotment once every die has begun a period, POWER once the core is there, an image once its signature and version pass, else with status 5 or 6, and FLUSH at once, with the counts of every die added to their contexts' records. SPDM appends its answer. A command
runs with the arguments it was given, RESUME first powers up the cores of its rectangle, and then places the strands that their newest slots hold, and RESTART gives every die its reset, with what the host's memory
held of its window (R17, R132, R153, R157, R369 to R374, R380, R383; the model's choices of log entries 8, 43, 45, 91 and 104).
Completes: setcap, setfloor, allot, power, resume, fwload, calico, flush, restart, mailboxComplete, getVersion, getCapabilities, negotiateAlgorithms, getDigests, getCertificate, challenge,
getMeasurements. -/
def Obligations.MailboxCommands : Prop :=
  (∀ (s : State) (a b c d : Word),
    (∀ (i : Instr) (cmd : Nat) (args : Vector Word 4),
      (i = .setcap a ∧ cmd = 1 ∧ args = #v[a, 0, 0, 0]) ∨ (i = .setfloor a b ∧ cmd = 2 ∧ args = #v[a, b, 0, 0]) ∨ (i = .allot a b ∧ cmd = 3 ∧ args = #v[a, b, 0, 0]) ∨
        (i = .power a b ∧ cmd = 4 ∧ args = #v[a, b, 0, 0]) ∨ (i = .resume a ∧ cmd = 5 ∧ args = #v[a, 0, 0, 0]) ∨ (i = .fwload a b ∧ cmd = 6 ∧ args = #v[a, b, 0, 0]) ∨
        (i = .calico a b c d ∧ cmd = 7 ∧ args = #v[a, b, c, d]) ∨ (i = .flush ∧ cmd = 8 ∧ args = #v[0, 0, 0, 0]) →
      ∃ t, exec i s = .next t ∧ MailStarts cmd args s t) ∧
    (s.mailbox.busy = false → mailRefusal 4 a b s = 0 → ∃ t, exec (.power a b) s = .next t ∧ t.mailbox.busy = true ∧
      t.core = (modCore a.toNat (fun c => if b = 0 then (if c.pwr = 0 then { c with downRequest := true, pwr := 1 } else c) else if c.pwr = 2 then { c with pwr := 3 } else c) s).core ∧
      t.cores = (modCore a.toNat (fun c => if b = 0 then (if c.pwr = 0 then { c with downRequest := true, pwr := 1 } else c) else if c.pwr = 2 then { c with pwr := 3 } else c) s).cores) ∧
    (s.mailbox.busy = true → exec .restart s = .next s) ∧
    (s.mailbox.busy = false → ∃ t, exec .restart s = .next t ∧ t.mem = hostMemory s ∧ t.images = s.images ∧
      ∀ e : Fin 4, t.dies[e] = started 0 s.dies[e].reason false)) ∧
  (∀ s : State, (s.mailbox.busy = false → exec .mailboxComplete s = .next s) ∧
    (s.mailbox.busy = true → let a := s.mailbox.latched
      let img := s.mem.getN a[0].toNat a[1].toNat
      let routine := s.mem.getN a[2].toNat a[3].toNat
      let verdict (img : List (BitVec 8)) : Nat := if Config.signatureOk img = false then 5 else if (Config.imageVersion img).toNat < s.fuse.toNat then 6 else 0
      (∀ k, k = 1 ∨ k = 2 ∨ k = 3 → s.mailbox.running = k → ¬PeriodBegun s → exec .mailboxComplete s = .next s) ∧
      (s.mailbox.running = 1 → PeriodBegun s → exec .mailboxComplete s = .next (completed 0 0 { s with cap := a[0].toNat })) ∧
      (∀ p : Fin 8, a[0].toNat = p.1 → PeriodBegun s →
        (s.mailbox.running = 2 → exec .mailboxComplete s = .next (completed 0 0 { s with parts := s.parts.set p { s.parts[p] with floor := a[1].toNat } })) ∧
        (s.mailbox.running = 3 → exec .mailboxComplete s = .next (completed 0 0 { s with parts := s.parts.set p { s.parts[p] with allot := a[1].toNat } }))) ∧
      (s.mailbox.running = 4 → exec .mailboxComplete s = .next (if (coreAt a[0].toNat s).pwr = (if a[1] = 0 then 2 else 0) then completed 0 0 s else s)) ∧
      (s.mailbox.running = 5 → let u := readSlot a[0].toNat s
        (recBad u.1 = true → exec .mailboxComplete s = .next (completed 1 0 u.2)) ∧
        (recBad u.1 = false → (rectIdle u.1 u.2 = false ∨ ∀ m ∈ rectCores u.1, hasSlot m u.2 = false) → exec .mailboxComplete s = .next (completed 7 0 u.2)) ∧
        (recBad u.1 = false → rectIdle u.1 u.2 = true → (∃ m ∈ rectCores u.1, hasSlot m u.2 = true) →
          let there := ∀ m ∈ rectCores u.1, let c := coreAt m u.2
            (dieAt (m / 384) u.2).stage = 4 ∧ c.pwr = 0 ∧ islandReady m u.2 = true ∧ c.shRequest = false ∧ c.shTargets = none ∧ c.shWriting = none
          (¬there → exec .mailboxComplete s = .next ((rectCores u.1).foldl (fun s m => modCore m (fun c => if c.pwr = 2 then { c with pwr := 3 } else c) s) u.2)) ∧
          (there → ∃ t, exec .mailboxComplete s = .next t ∧ t.mailbox.busy = false ∧ t.mailbox.sts = 0 ∧ Resumed u.1 u.2 t))) ∧
      (s.mailbox.running = 6 → verdict img ≠ 0 → exec .mailboxComplete s = .next (completed (verdict img) 0 s)) ∧
      (s.mailbox.running = 6 → verdict img = 0 → ∃ t, exec .mailboxComplete s = .next (completed 0 0 t) ∧ let v := Config.imageVersion img
        t = { s with firmware := img, pendingFuse := v, fuse := if s.dies[0].stage = 4 ∧ s.fuse.toNat < v.toNat then v else s.fuse }) ∧
      (s.mailbox.running = 7 → slotInUse a[0].toNat a[1].toNat s = true → exec .mailboxComplete s = .next s) ∧
      (s.mailbox.running = 7 → slotInUse a[0].toNat a[1].toNat s = false → verdict routine ≠ 0 → exec .mailboxComplete s = .next (completed (verdict routine) 0 s)) ∧
      (∀ k : Fin 16, a[1].toNat = k.1 → a[0].toNat < 96 ∨ a[0].toNat = 0xFF → s.mailbox.running = 7 → slotInUse a[0].toNat a[1].toNat s = false → verdict routine = 0 →
        ∃ t, exec .mailboxComplete s = .next (completed 0 0 t) ∧ t.mem = s.mem ∧ ∀ (d : Fin 4) (e : Fin 24),
          t.dies[d].engines[e] = if a[0].toNat = 0xFF ∨ a[0].toNat = 24 * d.1 + e.1 then { s.dies[d].engines[e] with slots := s.dies[d].engines[e].slots.set k (some routine) }
            else s.dies[d].engines[e]) ∧
      (s.mailbox.running = 8 → s.cntbase = 0 → exec .mailboxComplete s = .next (completed 0 0 s)) ∧
      (s.mailbox.running = 8 → s.cntbase ≠ 0 → s.wellKept → ∃ t1 t2 t3 t4, Flushed 0 s t1 ∧ Flushed 1 t1 t2 ∧ Flushed 2 t2 t3 ∧ Flushed 3 t3 t4 ∧
        exec .mailboxComplete s = .next (completed 0 0 t4)))) ∧
  (∀ (s : State) (req : List (BitVec 8)) (i : Instr) (k : Nat),
    (i = .getVersion req ∧ k = 0) ∨ (i = .getCapabilities req ∧ k = 1) ∨ (i = .negotiateAlgorithms req ∧ k = 2) ∨ (i = .getDigests req ∧ k = 3) ∨
      (i = .getCertificate req ∧ k = 4) ∨ (i = .challenge req ∧ k = 5) ∨ (i = .getMeasurements req ∧ k = 6) →
    ∃ m : List (List (BitVec 8)), m.length = 4 ∧ m[0]? = some Config.romDigest ∧ m[1]? = some (Config.digest s.firmware) ∧
      exec i s = .next { s with doe := s.doe ++ [Config.spdmAnswer k req m] })

/-- The host reads and writes memory through CXL.mem at stage 4: it reads the bytes at their homes, an access with a byte in a hole reads all ones with poison, bytes written to a hole are dropped, and HOSTACC counts the bytes at
each die. Neither leaves an Unsupported Request. A snoop cleans a line of the host window or takes its ownership back, so that the host's memory holds its newest bytes, and a store of the host's to its own memory
is what a strand reads there next; the host reads the CDAT object (R17, R19, R96, R121, R365 to R367, R369; the
model's choices of log entries 55, 56 and 93). Completes: hostMemRead, hostMemWrite, cxlCacheSnoop. -/
def Obligations.HostAccesses : Prop :=
  ∀ s : State,
    (s.dies[0].stage ≠ 4 → (∀ off n, exec (.hostMemRead off n) s = .next s) ∧ ∀ off bs, exec (.hostMemWrite off bs) s = .next s) ∧
    (s.dies[0].stage = 4 →
      (∀ off n, (∀ k, k < n → hostCovers off n k) → ∃ t, exec (.hostMemRead off n) s = .next t ∧ t.hostAnswer = s.mem.getN off n ∧ t.hostPoison = false ∧ t.hostBad = false ∧ t.mem = s.mem ∧ t.me = s.me ∧
        ∀ d : Fin 4, t.dies[d].hostacc = s.dies[d].hostacc + BitVec.ofNat 64 ((List.range n).countP fun k => homeDie (off + k) == d.1)) ∧
      (∀ off n, (∃ k, k < n ∧ ¬hostCovers off n k) → exec (.hostMemRead off n) s = .next { s with hostAnswer := List.replicate n 0xFF, hostPoison := true, hostBad := false }) ∧
      (s.wellKept → ∀ off bs, ∃ t, exec (.hostMemWrite off bs) s = .next t ∧ t.me = s.me ∧ t.hostBad = false ∧
        (∀ k b, bs[k]? = some b → hostCovers off bs.length k → t.mem.get (off + k) = b) ∧
        (∀ a, (∀ k, a = off + k → ¬hostCovers off bs.length k) → t.mem.get a = s.mem.get a))) ∧
    (∀ (pa : Nat) (back : Bool),
      (regionOf pa ≠ .host → exec (.cxlCacheSnoop pa back) s = .next s) ∧
      (regionOf pa = .host → ∃ t, exec (.cxlCacheSnoop pa back) s = .next t ∧ t.mem = s.mem ∧ t.me = s.me ∧ t.hostStale = s.hostStale.filter (fun e => e.1 != pa / 64) ∧
        (back = true → (pa / 64 ∉ t.hostOwned) ∧ ∀ w ∈ (setAt 0 (pa / 64) t).ways.toList, ∀ x, w = some x → x.line ≠ pa / 64) ∧
        (back = false → t.hostOwned = s.hostOwned ∧ ∀ w ∈ (setAt 0 (pa / 64) t).ways.toList, ∀ x, w = some x → x.line = pa / 64 → x.dirty = false))) ∧
    (∀ req, takeTurn (.cdat req) s = .next { s with doe := s.doe ++ [Config.cdatAnswer req] }) ∧
    (s.wellKept → ∀ pa bs, ∃ t, takeTurn (.hostStore pa bs) s = .next t ∧ t.me = s.me ∧
      (∀ k b, bs[k]? = some b → regionOf (pa + k) = .host → t.mem.get (pa + k) = b ∧ (pa + k) / 64 ∉ t.hostOwned ∧ ∀ e ∈ t.hostStale, e.1 ≠ (pa + k) / 64) ∧
      (∀ a, (∀ k, k < bs.length → a = pa + k → regionOf a ≠ .host) → t.mem.get a = s.mem.get a))

/-- Chain ports: a link change sets a port's link and neighbour; an open flit leaves 64 cycles after its first access. An access that arrives is performed in its context, or answers the fault of its translation: a store
puts its bytes at its home, whole or byte by byte, an AMO of 4 or 8 bytes answers the old value, and a publication raises SEQ and HWIDX and keeps or sets FIN, or answers that it is illegal there. The reply to a
store removes it, or makes its fault a store-fault record, which defers the younger stores of the queue that share a byte with it, once there is room for one; the reply to any other access waits for its instruction, and one that no instruction waits for is dropped (R100, R108, R120,
R295, R302, R339, R341, R381, R382; the model's choices of log entries 53, 77, 96 and 105). Completes: chainPortLinkChange, flitTimeout, remoteAccessArrival, remoteReply. -/
def Obligations.ChainPorts : Prop :=
  (∀ (s : State) (d p : Fin 4), let x := s.dies[d].ports[p]
    let withPort (y : Port) : State := withDie d { s.dies[d] with ports := s.dies[d].ports.set p y } s
    (∀ (up : Bool) (nbr : BitVec 12), exec (.chainPortLinkChange d p up nbr) s = .next (withPort { x with up := up, nbr := nbr.toNat })) ∧
    (x.flit ≠ [] → x.since + 64 ≤ s.dies[d].cycle → exec (.flitTimeout d p) s = .next (withPort { x with flit := [], sent := x.sent + 1 })) ∧
    (x.flit = [] ∨ s.dies[d].cycle < x.since + 64 → exec (.flitTimeout d p) s = .next s)) ∧
  (∀ (s : State) (port : Fin 16) (first : Bool) (r : RemoteAccess), let d : Fin 4 := ⟨port.1 / 4, by omega⟩
    let p : Fin 4 := ⟨port.1 % 4, by omega⟩
    let x := s.dies[d].ports[p]
    let u := if first then withDie d { s.dies[d] with ports := s.dies[d].ports.set p { x with received := x.received + 1 } } s else s
    let rq := arrivalReq port.1 r.ctx u
    u.wellKept →
    (∀ bytes e v, r.op = .store bytes → bytes ≠ [] → r.va.toNat % bytes.length = 0 → arrivalTarget rq .store bytes.length r.va u = (.error e, v) →
      exec (.remoteAccessArrival port.1 first r) s = .next { v with replies := v.replies ++ [.fault e] }) ∧
    (∀ bytes pa m v, r.op = .store bytes → bytes ≠ [] → r.va.toNat % bytes.length = 0 → arrivalTarget rq .store bytes.length r.va u = (.ok (.mem pa m), v) → m ≠ .ctl → v.wellKept →
      ∃ t, exec (.remoteAccessArrival port.1 first r) s = .next t ∧ t.replies = v.replies ++ [.done] ∧ t.mem.getN pa bytes.length = bytes ∧ SameOutside pa bytes.length v t ∧ t.me = v.me) ∧
    (∀ op uns size operand expect e v, r.op = .amo op uns size operand expect → arrivalTarget rq .atomic size r.va u = (.error e, v) →
      exec (.remoteAccessArrival port.1 first r) s = .next { v with replies := v.replies ++ [.fault e] }) ∧
    (∀ op uns n operand expect pa m v, r.op = .amo op uns n operand expect → n = 4 ∨ n = 8 → arrivalTarget rq .atomic n r.va u = (.ok (.mem pa m), v) → m ≠ .ctl → v.wellKept →
      let old : Word := BitVec.ofNat 64 (wordAt v pa n)
      ∃ t, exec (.remoteAccessArrival port.1 first r) s = .next t ∧ t.replies = v.replies ++ [.value old] ∧ wordAt t pa n = (amoNew (amoOfCode op) uns n operand expect old).toNat ∧
        SameOutside pa n v t ∧ t.me = v.me) ∧
    (∀ bytes, r.op = .store bytes → r.va.toNat % bytes.length ≠ 0 →
      (∀ e v, arrivalTargets rq bytes.length r.va u = (.error e, v) → exec (.remoteAccessArrival port.1 first r) s = .next { v with replies := v.replies ++ [.fault e] }) ∧
      (∀ ts v, bytes ≠ [] → arrivalTargets rq bytes.length r.va u = (.ok ts, v) → ∃ t, exec (.remoteAccessArrival port.1 first r) s = .next t ∧ t.replies = v.replies ++ [.done] ∧ t.me = v.me) ∧
      (∀ (pas : List (Nat × MemType)) v, bytes ≠ [] → arrivalTargets rq bytes.length r.va u = (.ok (pas.map fun (p : Nat × MemType) => .mem p.1 p.2), v) → v.wellKept → pas.length = bytes.length →
        ∃ t, exec (.remoteAccessArrival port.1 first r) s = .next t ∧ (∀ a, (∀ p : Nat × MemType, p ∈ pas → a ≠ p.1) → t.mem.get a = v.mem.get a) ∧
          ((pas.Pairwise fun (x y : Nat × MemType) => x.1 ≠ y.1) → ∀ (k : Nat) (p : Nat × MemType) (b : BitVec 8), pas[k]? = some p → bytes[k]? = some b → t.mem.get p.1 = b))) ∧
    (∀ final n, r.op = .pubhw final n → let place : Prop := r.va.toNat % 16 = 0 ∧ (fld r.va 57 7 ≠ 0 ∨ inWindow r.va.toNat = false)
      (¬place → exec (.remoteAccessArrival port.1 first r) s = .next { u with replies := u.replies ++ [.illegal] }) ∧
      (place → (∀ e v, arrivalTarget rq .atomic 8 r.va u = (.error e, v) → exec (.remoteAccessArrival port.1 first r) s = .next { v with replies := v.replies ++ [.fault e] }) ∧
        ∀ pa m v, arrivalTarget rq .atomic 8 r.va u = (.ok (.mem pa m), v) →
          let w : Word := BitVec.ofNat 64 (wordAt v pa 8)
          let h : Word := BitVec.ofNat 64 (wordAt v (pa + 8) 8)
          let good : Prop := ownMemory pa = true ∧ lwReserved w = false ∧ fld h 48 15 = 0
          (¬good → exec (.remoteAccessArrival port.1 first r) s = .next { v with replies := v.replies ++ [.illegal] }) ∧
          (good → n.toNat < 2 ^ 48 → v.wellKept → ∃ t, exec (.remoteAccessArrival port.1 first r) s = .next t ∧ t.replies = v.replies ++ [.done] ∧ t.me = v.me ∧ SameOutside pa 16 v t ∧
            wordAt t pa 8 = (fld w 40 24 + 1) % 2 ^ 24 * 2 ^ 40 + fld w 0 40 ∧
            wordAt t (pa + 8) 8 = max (fld h 0 48) n.toNat + (if h.getLsbD 63 || final then 2 ^ 63 else 0))))) ∧
  (∀ (s : State) (id : Nat) (r : ReplyKind), (∀ m ∈ s.remote, m.id ≠ id) → exec (.remoteReply id r) s = .next s) ∧
  (∀ (s : State) (id : Nat) (r : ReplyKind) (m : RemoteMsg), s.remote.find? (fun m => m.id == id) = some m →
    let gone : State := { s with remote := s.remote.filter fun x => x.id != id }
    (inFlit id s = true ∨ m.reply ≠ none → exec (.remoteReply id r) s = .next s) ∧
    (inFlit id s = false → m.reply = none →
      (∀ q, m.store = some q → (∀ k, r ≠ .fault k) → exec (.remoteReply id r) s = .next gone) ∧
      (∀ q k, m.store = some q → r = .fault k →
        (recordRoom m.mesh m.sid s = false → exec (.remoteReply id r) s = .next s) ∧
        (recordRoom m.mesh m.sid s = true → exec (.remoteReply id r) s = .next (atStrand m.mesh m.sid (fun s => { s with me := { s.me with
          sfq := s.me.sfq ++ [⟨BitVec.ofNat 64 (q.size * 2 ^ 8 + k), q.va, BitVec.ofNat 64 (q.data.toNat % 2 ^ (8 * q.size)), q.pc⟩]
          stq := s.me.stq.map fun x => { x with defer := x.defer || (decide (x.va.toNat < q.va.toNat + q.size) && decide (q.va.toNat < x.va.toNat + x.size)) }
          doubleFault := s.me.doubleFault || (q.ih && s.me.tstat.getLsbD 1) } }) gone))) ∧
      (m.store = none →
        (awaited m s = true → exec (.remoteReply id r) s = .next { s with remote := s.remote.map fun x => if x.id = id then { x with reply := some r } else x }) ∧
        (awaited m s = false → exec (.remoteReply id r) s = .next gone))))
end

