-- ==== Sys2Proof/Laws/Memory.lean ====
section
/-! SUPPORT. Memory: what a read gives after a write, and that every operation keeps the canonical form. -/

namespace Sys2Proof.Machine

theorem Memory.get_eq_of_below (m : Memory) (lo x : Nat) (h : Memory.wfFrom lo m = true) (hx : x < lo) : m.get x = unlistedByte := by
  induction m generalizing lo with
  | nil => rfl
  | cons c t ih =>
    obtain ⟨a, b⟩ := c
    simp only [Memory.wfFrom, Bool.and_eq_true, decide_eq_true_eq] at h
    simp only [Memory.get]
    rw [if_pos (by omega)]

theorem Memory.get_set_same (m : Memory) (lo x : Nat) (v : BitVec 8) (h : Memory.wfFrom lo m = true) : (m.set x v).get x = v := by
  induction m generalizing lo with
  | nil => by_cases hv : v = unlistedByte <;> simp [Memory.set, Memory.get, hv]
  | cons c t ih =>
    obtain ⟨a, b⟩ := c
    simp only [Memory.wfFrom, Bool.and_eq_true, decide_eq_true_eq] at h
    unfold Memory.set
    split
    · rename_i hlt
      split
      · rename_i hv; simp [Memory.get, hlt, hv]
      · simp [Memory.get]
    · split
      · rename_i hle he
        split
        · rename_i hv; rw [hv]; exact Memory.get_eq_of_below t (a + 1) x h.2 (by omega)
        · simp [Memory.get]
      · rename_i hle hne
        simp only [Memory.get]
        rw [if_neg hle, if_neg hne]
        exact ih (a + 1) h.2

theorem Memory.get_cons (a x : Nat) (b : BitVec 8) (t : Memory) :
    Memory.get ((a, b) :: t) x = if x < a then unlistedByte else if x = a then b else Memory.get t x := rfl

theorem Memory.get_set_other (m : Memory) (lo x y : Nat) (v : BitVec 8) (h : Memory.wfFrom lo m = true) (hxy : y ≠ x) :
    (m.set x v).get y = m.get y := by
  induction m generalizing lo with
  | nil =>
    simp only [Memory.set]
    split
    · rfl
    · rw [Memory.get_cons, if_neg hxy]
      split <;> rfl
  | cons c t ih =>
    obtain ⟨a, b⟩ := c
    simp only [Memory.wfFrom, Bool.and_eq_true, decide_eq_true_eq] at h
    unfold Memory.set
    split
    · split
      · rfl
      · rw [Memory.get_cons x, if_neg hxy]
        split
        · rw [Memory.get_cons, if_pos (by omega)]
        · rfl
    · split
      · rename_i hle he
        subst he
        rw [Memory.get_cons x y b t, if_neg hxy]
        split
        · split
          · exact Memory.get_eq_of_below t (x + 1) y h.2 (by omega)
          · rfl
        · rw [Memory.get_cons, if_neg hxy]
      · rw [Memory.get_cons, Memory.get_cons, ih (a + 1) h.2]

theorem Memory.wfFrom_mono (m : Memory) (lo lo' : Nat) (hl : lo' ≤ lo) (h : Memory.wfFrom lo m = true) : Memory.wfFrom lo' m = true := by
  cases m with
  | nil => rfl
  | cons c t =>
    obtain ⟨a, b⟩ := c
    simp only [Memory.wfFrom, Bool.and_eq_true, decide_eq_true_eq] at h ⊢
    exact ⟨⟨by omega, h.1.2⟩, h.2⟩

theorem Memory.wfFrom_set (m : Memory) (lo x : Nat) (v : BitVec 8) (h : Memory.wfFrom lo m = true) (hx : lo ≤ x) :
    Memory.wfFrom lo (m.set x v) = true := by
  induction m generalizing lo with
  | nil => by_cases hv : v = unlistedByte <;> simp [Memory.set, Memory.wfFrom, hv, hx]
  | cons c t ih =>
    obtain ⟨a, b⟩ := c
    have h' := h
    simp only [Memory.wfFrom, Bool.and_eq_true, decide_eq_true_eq] at h
    unfold Memory.set
    split
    · split
      · exact h'
      · rename_i hlt hv
        simp only [Memory.wfFrom, Bool.and_eq_true, decide_eq_true_eq]
        exact ⟨⟨hx, hv⟩, ⟨by omega, h.1.2⟩, h.2⟩
    · split
      · rename_i hle he
        split
        · exact Memory.wfFrom_mono t (a + 1) lo (by omega) h.2
        · rename_i hv
          subst he
          simp only [Memory.wfFrom, Bool.and_eq_true, decide_eq_true_eq]
          exact ⟨⟨hx, hv⟩, h.2⟩
      · simp only [Memory.wfFrom, Bool.and_eq_true, decide_eq_true_eq]
        exact ⟨⟨h.1.1, h.1.2⟩, ih (a + 1) h.2 (by omega)⟩

/-- A write keeps the canonical form. -/
theorem Memory.wf_set (m : Memory) (x : Nat) (v : BitVec 8) (h : m.wf = true) : (m.set x v).wf = true :=
  Memory.wfFrom_set m 0 x v h (Nat.zero_le x)

/-- Writes of several bytes keep the canonical form. -/
theorem Memory.wf_setN (bs : List (BitVec 8)) (m : Memory) (a : Nat) (h : m.wf = true) : (m.setN a bs).wf = true := by
  induction bs generalizing m a with
  | nil => exact h
  | cons b bs ih => exact ih (m.set a b) (a + 1) (Memory.wf_set m a b h)

theorem Memory.wfFrom_filter (p : Host.Cell → Bool) (m : Memory) (lo : Nat) (h : Memory.wfFrom lo m = true) :
    Memory.wfFrom lo (m.filter p) = true := by
  induction m generalizing lo with
  | nil => rfl
  | cons c t ih =>
    obtain ⟨a, b⟩ := c
    simp only [Memory.wfFrom, Bool.and_eq_true, decide_eq_true_eq] at h
    by_cases hp : p (a, b) = true
    · simp only [List.filter_cons, hp, if_true, Memory.wfFrom, Bool.and_eq_true, decide_eq_true_eq]
      exact ⟨h.1, ih (a + 1) h.2⟩
    · simp only [List.filter_cons, hp]
      exact Memory.wfFrom_mono _ (a + 1) lo (by omega) (ih (a + 1) h.2)

/-- Cells taken away keep the canonical form. -/
theorem Memory.wf_filter (p : Host.Cell → Bool) (m : Memory) (h : m.wf = true) : Memory.wf (m.filter p) = true := Memory.wfFrom_filter p m 0 h

/-- Cells written one after another keep the canonical form. -/
theorem Memory.wf_foldl_set (cs : List (Nat × BitVec 8)) (m : Memory) (h : m.wf = true) :
    Memory.wf (cs.foldl (fun m c => m.set c.1 c.2) m) = true := by
  induction cs generalizing m with
  | nil => exact h
  | cons c cs ih => exact ih (m.set c.1 c.2) (Memory.wf_set m c.1 c.2 h)

/-- A read after a write to the same place. -/
theorem Memory.get_set_eq (m : Memory) (x : Nat) (v : BitVec 8) (h : m.wf = true) : (m.set x v).get x = v := Memory.get_set_same m 0 x v h

/-- A write leaves every other place alone. -/
theorem Memory.get_set_ne (m : Memory) (x y : Nat) (v : BitVec 8) (h : m.wf = true) (hxy : y ≠ x) : (m.set x v).get y = m.get y :=
  Memory.get_set_other m 0 x y v h hxy

end Sys2Proof.Machine
end

