-- ==== Sys2Proof/Laws/PerInstr.lean ====
section
/-! SUPPORT. The fields of a packed word, and the round trip of each instruction: what the encoder packs, the decoder reads (R183, R184, R187). -/

namespace Sys2Proof.Laws

/-- A field below the place of what stands above it. -/
theorem field_low {x y m lo n : Nat} (h : lo + n ≤ m) : field (x * 2 ^ m + y) lo n = field y lo n := by
  obtain ⟨k, rfl⟩ := Nat.exists_eq_add_of_le h
  have e : x * 2 ^ (lo + n + k) + y = y + 2 ^ lo * (2 ^ n * (2 ^ k * x)) := by
    rw [Nat.pow_add, Nat.pow_add]; rw [Nat.mul_assoc, Nat.add_comm]; simp only [Nat.mul_comm, Nat.mul_left_comm]
  rw [field, field, e, Nat.add_mul_div_left _ _ (Nat.two_pow_pos lo), Nat.add_mul_mod_self_left]

/-- A field from the place of what stands at the bottom up. -/
theorem field_high {x y m lo n : Nat} (hy : y < 2 ^ m) (h : m ≤ lo) : field (x * 2 ^ m + y) lo n = field x (lo - m) n := by
  obtain ⟨k, rfl⟩ := Nat.exists_eq_add_of_le h
  rw [field, field, Nat.pow_add, ← Nat.div_div_eq_div_mul, Nat.mul_comm x, Nat.mul_add_div (Nat.two_pow_pos m), Nat.div_eq_of_lt hy,
    Nat.add_zero, Nat.add_sub_cancel_left]

/-- A field that takes in a whole number. -/
theorem field_all {x n : Nat} (h : x < 2 ^ n) : field x 0 n = x := by
  rw [field, Nat.pow_zero, Nat.div_one, Nat.mod_eq_of_lt h]

/-- A field of zero. -/
theorem field_zero (lo n : Nat) : field 0 lo n = 0 := by simp [field]

/-- A field above all of a number. -/
theorem field_above {x lo n : Nat} (h : x < 2 ^ lo) : field x lo n = 0 := by
  rw [field, Nat.div_eq_of_lt h, Nat.zero_mod]

/-! ## The four forms (R183) -/

theorem packT_b_zero (op d a fn : Nat) : packT op d a 0 fn = packI op d a fn := by rw [packT, packI, Nat.zero_mul, Nat.add_zero]
theorem packI_a_zero (op d i : Nat) : packI op d 0 i = packL op d i := by rw [packI, packL, Nat.zero_mul, Nat.add_zero]
theorem packL_d_zero (op i : Nat) : packL op 0 i = packJ op i := by rw [packL, packJ, Nat.zero_mul, Nat.add_zero]

theorem packJ_low {op x lo n : Nat} (h : lo + n ≤ 24) : field (packJ op x) lo n = field x lo n := field_low h
theorem packJ_op {op x n : Nat} (h : x < 2 ^ 24) (lo : Nat) (hl : 24 ≤ lo) : field (packJ op x) lo n = field op (lo - 24) n := field_high h hl

theorem packL_nest (op d x : Nat) : packL op d x = (op * 2 ^ 5 + d) * 2 ^ 19 + x := by
  unfold packL; omega
theorem packL_low {op d x lo n : Nat} (h : lo + n ≤ 19) : field (packL op d x) lo n = field x lo n := by
  rw [packL_nest, field_low h]
theorem packL_d {op d x : Nat} (hx : x < 2 ^ 19) (hd : d < 2 ^ 5) : field (packL op d x) 19 5 = d := by
  rw [packL_nest, field_high hx (Nat.le_refl _), Nat.sub_self, field_low (by decide), field_all hd]
theorem packL_op {op d x n : Nat} (hx : x < 2 ^ 19) (hd : d < 2 ^ 5) (lo : Nat) (hl : 24 ≤ lo) : field (packL op d x) lo n = field op (lo - 24) n := by
  rw [packL_nest, field_high hx (by omega), field_high hd (by omega), Nat.sub_sub]

theorem packI_nest (op d a x : Nat) : packI op d a x = packL op d (a * 2 ^ 14 + x) := by
  unfold packI packL; omega
theorem packI_low {op d a x lo n : Nat} (h : lo + n ≤ 14) : field (packI op d a x) lo n = field x lo n := by
  rw [packI_nest, packL_low (by omega), field_low h]
theorem packI_a {op d a x : Nat} (hx : x < 2 ^ 14) (ha : a < 2 ^ 5) : field (packI op d a x) 14 5 = a := by
  rw [packI_nest, packL_low (by decide), field_high hx (Nat.le_refl _), Nat.sub_self, field_all ha]
theorem packI_d {op d a x : Nat} (hx : x < 2 ^ 14) (ha : a < 2 ^ 5) (hd : d < 2 ^ 5) : field (packI op d a x) 19 5 = d := by
  rw [packI_nest, packL_d (by omega) hd]
theorem packI_op {op d a x n : Nat} (hx : x < 2 ^ 14) (ha : a < 2 ^ 5) (hd : d < 2 ^ 5) (lo : Nat) (hl : 24 ≤ lo) :
    field (packI op d a x) lo n = field op (lo - 24) n := by
  rw [packI_nest, packL_op (by omega) hd lo hl]

theorem packT_nest (op d a b x : Nat) : packT op d a b x = packI op d a (b * 2 ^ 9 + x) := by
  unfold packT packI; omega
theorem packT_low {op d a b x lo n : Nat} (h : lo + n ≤ 9) : field (packT op d a b x) lo n = field x lo n := by
  rw [packT_nest, packI_low (by omega), field_low h]
theorem packT_b {op d a b x : Nat} (hx : x < 2 ^ 9) (hb : b < 2 ^ 5) : field (packT op d a b x) 9 5 = b := by
  rw [packT_nest, packI_low (by decide), field_high hx (Nat.le_refl _), Nat.sub_self, field_all hb]
theorem packT_a {op d a b x : Nat} (hx : x < 2 ^ 9) (hb : b < 2 ^ 5) (ha : a < 2 ^ 5) : field (packT op d a b x) 14 5 = a := by
  rw [packT_nest, packI_a (by omega) ha]
theorem packT_d {op d a b x : Nat} (hx : x < 2 ^ 9) (hb : b < 2 ^ 5) (ha : a < 2 ^ 5) (hd : d < 2 ^ 5) : field (packT op d a b x) 19 5 = d := by
  rw [packT_nest, packI_d (by omega) ha hd]
theorem packT_op {op d a b x n : Nat} (hx : x < 2 ^ 9) (hb : b < 2 ^ 5) (ha : a < 2 ^ 5) (hd : d < 2 ^ 5) (lo : Nat) (hl : 24 ≤ lo) :
    field (packT op d a b x) lo n = field op (lo - 24) n := by
  rw [packT_nest, packI_op (by omega) ha hd lo hl]

/-! ## Reading a register number back -/

theorem r32_val (x : Fin 32) : r32 x.1 = x := by ext; simp [r32]
theorem inClass_val {n : Nat} (x : Fin n) (k : Fin n → Decoded) : inClass n x.1 k = k x := by simp [inClass]
theorem inRange_val {n : Nat} (x : Fin n) (k : Fin n → Decoded) : inRange n x.1 k = k x := by simp [inRange]
theorem ofNat_val {n : Nat} [NeZero n] (x : Fin n) : Fin.ofNat n x.1 = x := by ext; simp
theorem unused_nil (k : Decoded) : unused [] k = k := rfl
theorem unused_cons (xs : List Nat) (k : Decoded) : unused (0 :: xs) k = unused xs k := by simp [unused]

/-! ## The row of a word -/

theorem row0 {w lo : Nat} (h : field w 28 4 = 0) (h2 : field w 24 4 = lo) : decodeRow w = decode0 lo w := by simp [decodeRow, h, h2]
theorem row1 {w lo : Nat} (h : field w 28 4 = 1) (h2 : field w 24 4 = lo) : decodeRow w = decode1 lo w := by simp [decodeRow, h, h2]
theorem row2 {w lo : Nat} (h : field w 28 4 = 2) (h2 : field w 24 4 = lo) : decodeRow w = decode2 lo w := by simp [decodeRow, h, h2]
theorem row3 {w lo : Nat} (h : field w 28 4 = 3) (h2 : field w 24 4 = lo) : decodeRow w = decode3 lo w := by simp [decodeRow, h, h2]
theorem row4 {w lo : Nat} (h : field w 28 4 = 4) (h2 : field w 24 4 = lo) : decodeRow w = decode4 lo w := by simp [decodeRow, h, h2]
theorem row5 {w lo : Nat} (h : field w 28 4 = 5) (h2 : field w 24 4 = lo) : decodeRow w = decode5 lo w := by simp [decodeRow, h, h2]
theorem row6 {w lo : Nat} (h : field w 28 4 = 6) (h2 : field w 24 4 = lo) : decodeRow w = decode6 lo w := by simp [decodeRow, h, h2]
theorem row7 {w lo : Nat} (h : field w 28 4 = 7) (h2 : field w 24 4 = lo) : decodeRow w = decode7 lo w := by simp [decodeRow, h, h2]
theorem row8 {w lo : Nat} (h : field w 28 4 = 8) (h2 : field w 24 4 = lo) : decodeRow w = decode8 lo w := by simp [decodeRow, h, h2]
theorem row9 {w lo : Nat} (h : field w 28 4 = 9) (h2 : field w 24 4 = lo) : decodeRow w = decode9 lo w := by simp [decodeRow, h, h2]
theorem rowA {w lo : Nat} (h : field w 28 4 = 10) (h2 : field w 24 4 = lo) : decodeRow w = decodeA lo w := by simp [decodeRow, h, h2]
theorem rowB {w lo : Nat} (h : field w 28 4 = 11) (h2 : field w 24 4 = lo) : decodeRow w = decodeB lo w := by simp [decodeRow, h, h2]
theorem rowC {w lo : Nat} (h : field w 28 4 = 12) (h2 : field w 24 4 = lo) : decodeRow w = decodeC lo w := by simp [decodeRow, h, h2]
theorem rowD {w lo : Nat} (h : field w 28 4 = 13) (h2 : field w 24 4 = lo) : decodeRow w = decodeD lo w := by simp [decodeRow, h, h2]
theorem beq_one (b : Bool) : (b.toNat == 1) = b := by cases b <;> rfl
theorem toNat_one (b : Bool) : (b.toNat = 1) = (b = true) := by cases b <;> simp

end Sys2Proof.Laws

namespace Sys2Proof.Laws.EncodeDecode

/-- A well-formed instruction is read back from its word; a row without a word has none to be read from. -/
def Statement (i : Instr) : Prop := ∀ w, i.wf = true → encode i = some w → decode w = .ok i

/-- What is left once the row of an instruction's word is known. -/
theorem of_row {i : Instr} {w : Nat} (e : encode i = some w) (r : decodeRow w = .ok i) : Statement i := by
  intro w' hw h
  rw [e] at h
  obtain rfl := Option.some.inj h
  simp [decode, r, hw]

/-- A row without a word. -/
theorem of_none {i : Instr} (e : encode i = none) : Statement i := by
  intro w _ h
  rw [e] at h
  cases h

set_option linter.unusedSimpArgs false

theorem add (d : GReg) (a : GReg) (b : GReg) : Statement (.add d a b) := by
  refine of_row rfl ?_
  have f0_9 : field (0) 0 9 = 0 := rfl
  rw [row0 (lo := 1) (packT_op (by omega) (by omega) (by omega) (by omega) 28 (by decide)) (packT_op (by omega) (by omega) (by omega) (by omega) 24 (by decide))]
  simp (disch := omega) [decode0, ggg, packT_low, packT_b, packT_a, packT_d, f0_9, r32_val, inClass_val, inRange_val, ofNat_val, unused_nil, unused_cons]
theorem sub (d : GReg) (a : GReg) (b : GReg) : Statement (.sub d a b) := by
  refine of_row rfl ?_
  have f0_9 : field (0) 0 9 = 0 := rfl
  rw [row0 (lo := 2) (packT_op (by omega) (by omega) (by omega) (by omega) 28 (by decide)) (packT_op (by omega) (by omega) (by omega) (by omega) 24 (by decide))]
  simp (disch := omega) [decode0, ggg, packT_low, packT_b, packT_a, packT_d, f0_9, r32_val, inClass_val, inRange_val, ofNat_val, unused_nil, unused_cons]
theorem mul (d : GReg) (a : GReg) (b : GReg) : Statement (.mul d a b) := by
  refine of_row rfl ?_
  have f0_9 : field (0) 0 9 = 0 := rfl
  rw [row0 (lo := 3) (packT_op (by omega) (by omega) (by omega) (by omega) 28 (by decide)) (packT_op (by omega) (by omega) (by omega) (by omega) 24 (by decide))]
  simp (disch := omega) [decode0, ggg, packT_low, packT_b, packT_a, packT_d, f0_9, r32_val, inClass_val, inRange_val, ofNat_val, unused_nil, unused_cons]
theorem mulh (d : GReg) (a : GReg) (b : GReg) : Statement (.mulh d a b) := by
  refine of_row rfl ?_
  have f0_1 : field (0) 0 1 = 0 := rfl
  have f1_8 : field (0) 1 8 = 0 := rfl
  rw [row0 (lo := 4) (packT_op (by omega) (by omega) (by omega) (by omega) 28 (by decide)) (packT_op (by omega) (by omega) (by omega) (by omega) 24 (by decide))]
  simp (disch := omega) [decode0, ggg, bitOf, beq_one, toNat_one, packT_low, packT_b, packT_a, packT_d, f0_1, f1_8, r32_val, inClass_val, inRange_val, ofNat_val, unused_nil, unused_cons]
theorem mulhU (d : GReg) (a : GReg) (b : GReg) : Statement (.mulhU d a b) := by
  refine of_row rfl ?_
  have f0_1 : field (1) 0 1 = 1 := rfl
  have f1_8 : field (1) 1 8 = 0 := rfl
  rw [row0 (lo := 4) (packT_op (by omega) (by omega) (by omega) (by omega) 28 (by decide)) (packT_op (by omega) (by omega) (by omega) (by omega) 24 (by decide))]
  simp (disch := omega) [decode0, ggg, bitOf, beq_one, toNat_one, packT_low, packT_b, packT_a, packT_d, f0_1, f1_8, r32_val, inClass_val, inRange_val, ofNat_val, unused_nil, unused_cons]
theorem div (d : GReg) (a : GReg) (b : GReg) : Statement (.div d a b) := by
  refine of_row rfl ?_
  have f0_1 : field (0) 0 1 = 0 := rfl
  have f1_8 : field (0) 1 8 = 0 := rfl
  rw [row0 (lo := 5) (packT_op (by omega) (by omega) (by omega) (by omega) 28 (by decide)) (packT_op (by omega) (by omega) (by omega) (by omega) 24 (by decide))]
  simp (disch := omega) [decode0, ggg, bitOf, beq_one, toNat_one, packT_low, packT_b, packT_a, packT_d, f0_1, f1_8, r32_val, inClass_val, inRange_val, ofNat_val, unused_nil, unused_cons]
theorem divU (d : GReg) (a : GReg) (b : GReg) : Statement (.divU d a b) := by
  refine of_row rfl ?_
  have f0_1 : field (1) 0 1 = 1 := rfl
  have f1_8 : field (1) 1 8 = 0 := rfl
  rw [row0 (lo := 5) (packT_op (by omega) (by omega) (by omega) (by omega) 28 (by decide)) (packT_op (by omega) (by omega) (by omega) (by omega) 24 (by decide))]
  simp (disch := omega) [decode0, ggg, bitOf, beq_one, toNat_one, packT_low, packT_b, packT_a, packT_d, f0_1, f1_8, r32_val, inClass_val, inRange_val, ofNat_val, unused_nil, unused_cons]
theorem rem (d : GReg) (a : GReg) (b : GReg) : Statement (.rem d a b) := by
  refine of_row rfl ?_
  have f0_1 : field (0) 0 1 = 0 := rfl
  have f1_8 : field (0) 1 8 = 0 := rfl
  rw [row0 (lo := 6) (packT_op (by omega) (by omega) (by omega) (by omega) 28 (by decide)) (packT_op (by omega) (by omega) (by omega) (by omega) 24 (by decide))]
  simp (disch := omega) [decode0, ggg, bitOf, beq_one, toNat_one, packT_low, packT_b, packT_a, packT_d, f0_1, f1_8, r32_val, inClass_val, inRange_val, ofNat_val, unused_nil, unused_cons]
theorem remU (d : GReg) (a : GReg) (b : GReg) : Statement (.remU d a b) := by
  refine of_row rfl ?_
  have f0_1 : field (1) 0 1 = 1 := rfl
  have f1_8 : field (1) 1 8 = 0 := rfl
  rw [row0 (lo := 6) (packT_op (by omega) (by omega) (by omega) (by omega) 28 (by decide)) (packT_op (by omega) (by omega) (by omega) (by omega) 24 (by decide))]
  simp (disch := omega) [decode0, ggg, bitOf, beq_one, toNat_one, packT_low, packT_b, packT_a, packT_d, f0_1, f1_8, r32_val, inClass_val, inRange_val, ofNat_val, unused_nil, unused_cons]
theorem and (d : GReg) (a : GReg) (b : GReg) : Statement (.and d a b) := by
  refine of_row rfl ?_
  have f0_9 : field (0) 0 9 = 0 := rfl
  rw [row0 (lo := 7) (packT_op (by omega) (by omega) (by omega) (by omega) 28 (by decide)) (packT_op (by omega) (by omega) (by omega) (by omega) 24 (by decide))]
  simp (disch := omega) [decode0, ggg, packT_low, packT_b, packT_a, packT_d, f0_9, r32_val, inClass_val, inRange_val, ofNat_val, unused_nil, unused_cons]
theorem or (d : GReg) (a : GReg) (b : GReg) : Statement (.or d a b) := by
  refine of_row rfl ?_
  have f0_9 : field (0) 0 9 = 0 := rfl
  rw [row0 (lo := 8) (packT_op (by omega) (by omega) (by omega) (by omega) 28 (by decide)) (packT_op (by omega) (by omega) (by omega) (by omega) 24 (by decide))]
  simp (disch := omega) [decode0, ggg, packT_low, packT_b, packT_a, packT_d, f0_9, r32_val, inClass_val, inRange_val, ofNat_val, unused_nil, unused_cons]
theorem xor (d : GReg) (a : GReg) (b : GReg) : Statement (.xor d a b) := by
  refine of_row rfl ?_
  have f0_9 : field (0) 0 9 = 0 := rfl
  rw [row0 (lo := 9) (packT_op (by omega) (by omega) (by omega) (by omega) 28 (by decide)) (packT_op (by omega) (by omega) (by omega) (by omega) 24 (by decide))]
  simp (disch := omega) [decode0, ggg, packT_low, packT_b, packT_a, packT_d, f0_9, r32_val, inClass_val, inRange_val, ofNat_val, unused_nil, unused_cons]
theorem shl (d : GReg) (a : GReg) (b : GReg) : Statement (.shl d a b) := by
  refine of_row rfl ?_
  have f0_9 : field (0) 0 9 = 0 := rfl
  rw [row0 (lo := 10) (packT_op (by omega) (by omega) (by omega) (by omega) 28 (by decide)) (packT_op (by omega) (by omega) (by omega) (by omega) 24 (by decide))]
  simp (disch := omega) [decode0, ggg, packT_low, packT_b, packT_a, packT_d, f0_9, r32_val, inClass_val, inRange_val, ofNat_val, unused_nil, unused_cons]
theorem shr (d : GReg) (a : GReg) (b : GReg) : Statement (.shr d a b) := by
  refine of_row rfl ?_
  have f0_9 : field (0) 0 9 = 0 := rfl
  rw [row0 (lo := 11) (packT_op (by omega) (by omega) (by omega) (by omega) 28 (by decide)) (packT_op (by omega) (by omega) (by omega) (by omega) 24 (by decide))]
  simp (disch := omega) [decode0, ggg, packT_low, packT_b, packT_a, packT_d, f0_9, r32_val, inClass_val, inRange_val, ofNat_val, unused_nil, unused_cons]
theorem sar (d : GReg) (a : GReg) (b : GReg) : Statement (.sar d a b) := by
  refine of_row rfl ?_
  have f0_9 : field (0) 0 9 = 0 := rfl
  rw [row0 (lo := 12) (packT_op (by omega) (by omega) (by omega) (by omega) 28 (by decide)) (packT_op (by omega) (by omega) (by omega) (by omega) 24 (by decide))]
  simp (disch := omega) [decode0, ggg, packT_low, packT_b, packT_a, packT_d, f0_9, r32_val, inClass_val, inRange_val, ofNat_val, unused_nil, unused_cons]
theorem min (d : GReg) (a : GReg) (b : GReg) : Statement (.min d a b) := by
  refine of_row rfl ?_
  have f0_1 : field (0) 0 1 = 0 := rfl
  have f1_8 : field (0) 1 8 = 0 := rfl
  rw [row0 (lo := 13) (packT_op (by omega) (by omega) (by omega) (by omega) 28 (by decide)) (packT_op (by omega) (by omega) (by omega) (by omega) 24 (by decide))]
  simp (disch := omega) [decode0, ggg, bitOf, beq_one, toNat_one, packT_low, packT_b, packT_a, packT_d, f0_1, f1_8, r32_val, inClass_val, inRange_val, ofNat_val, unused_nil, unused_cons]
theorem minU (d : GReg) (a : GReg) (b : GReg) : Statement (.minU d a b) := by
  refine of_row rfl ?_
  have f0_1 : field (1) 0 1 = 1 := rfl
  have f1_8 : field (1) 1 8 = 0 := rfl
  rw [row0 (lo := 13) (packT_op (by omega) (by omega) (by omega) (by omega) 28 (by decide)) (packT_op (by omega) (by omega) (by omega) (by omega) 24 (by decide))]
  simp (disch := omega) [decode0, ggg, bitOf, beq_one, toNat_one, packT_low, packT_b, packT_a, packT_d, f0_1, f1_8, r32_val, inClass_val, inRange_val, ofNat_val, unused_nil, unused_cons]
theorem max (d : GReg) (a : GReg) (b : GReg) : Statement (.max d a b) := by
  refine of_row rfl ?_
  have f0_1 : field (0) 0 1 = 0 := rfl
  have f1_8 : field (0) 1 8 = 0 := rfl
  rw [row0 (lo := 14) (packT_op (by omega) (by omega) (by omega) (by omega) 28 (by decide)) (packT_op (by omega) (by omega) (by omega) (by omega) 24 (by decide))]
  simp (disch := omega) [decode0, ggg, bitOf, beq_one, toNat_one, packT_low, packT_b, packT_a, packT_d, f0_1, f1_8, r32_val, inClass_val, inRange_val, ofNat_val, unused_nil, unused_cons]
theorem maxU (d : GReg) (a : GReg) (b : GReg) : Statement (.maxU d a b) := by
  refine of_row rfl ?_
  have f0_1 : field (1) 0 1 = 1 := rfl
  have f1_8 : field (1) 1 8 = 0 := rfl
  rw [row0 (lo := 14) (packT_op (by omega) (by omega) (by omega) (by omega) 28 (by decide)) (packT_op (by omega) (by omega) (by omega) (by omega) 24 (by decide))]
  simp (disch := omega) [decode0, ggg, bitOf, beq_one, toNat_one, packT_low, packT_b, packT_a, packT_d, f0_1, f1_8, r32_val, inClass_val, inRange_val, ofNat_val, unused_nil, unused_cons]
theorem setEq (d : GReg) (a : GReg) (b : GReg) : Statement (.setEq d a b) := by
  refine of_row rfl ?_
  have f0_6 : field (0) 0 6 = 0 := rfl
  have f6_3 : field (0) 6 3 = 0 := rfl
  rw [row0 (lo := 15) (packT_op (by omega) (by omega) (by omega) (by omega) 28 (by decide)) (packT_op (by omega) (by omega) (by omega) (by omega) 24 (by decide))]
  simp (disch := omega) [decode0, ggg, packT_low, packT_b, packT_a, packT_d, f0_6, f6_3, r32_val, inClass_val, inRange_val, ofNat_val, unused_nil, unused_cons]
theorem setLt (d : GReg) (a : GReg) (b : GReg) : Statement (.setLt d a b) := by
  refine of_row rfl ?_
  have f0_6 : field (64) 0 6 = 0 := rfl
  have f6_3 : field (64) 6 3 = 1 := rfl
  rw [row0 (lo := 15) (packT_op (by omega) (by omega) (by omega) (by omega) 28 (by decide)) (packT_op (by omega) (by omega) (by omega) (by omega) 24 (by decide))]
  simp (disch := omega) [decode0, ggg, packT_low, packT_b, packT_a, packT_d, f0_6, f6_3, r32_val, inClass_val, inRange_val, ofNat_val, unused_nil, unused_cons]
theorem setLtu (d : GReg) (a : GReg) (b : GReg) : Statement (.setLtu d a b) := by
  refine of_row rfl ?_
  have f0_6 : field (128) 0 6 = 0 := rfl
  have f6_3 : field (128) 6 3 = 2 := rfl
  rw [row0 (lo := 15) (packT_op (by omega) (by omega) (by omega) (by omega) 28 (by decide)) (packT_op (by omega) (by omega) (by omega) (by omega) 24 (by decide))]
  simp (disch := omega) [decode0, ggg, packT_low, packT_b, packT_a, packT_d, f0_6, f6_3, r32_val, inClass_val, inRange_val, ofNat_val, unused_nil, unused_cons]
theorem clz (d : GReg) (a : GReg) : Statement (.clz d a) := by
  refine of_row rfl ?_
  have f0_14 : field (0) 0 14 = 0 := rfl
  rw [packT_b_zero]
  rw [row1 (lo := 0) (packI_op (by omega) (by omega) (by omega) 28 (by decide)) (packI_op (by omega) (by omega) (by omega) 24 (by decide))]
  simp (disch := omega) [decode1, ggg, ggi, packI_low, packI_a, packI_d, f0_14, r32_val, inClass_val, inRange_val, ofNat_val, unused_nil, unused_cons]
theorem popc (d : GReg) (a : GReg) : Statement (.popc d a) := by
  refine of_row rfl ?_
  have f0_14 : field (0) 0 14 = 0 := rfl
  rw [packT_b_zero]
  rw [row1 (lo := 1) (packI_op (by omega) (by omega) (by omega) 28 (by decide)) (packI_op (by omega) (by omega) (by omega) 24 (by decide))]
  simp (disch := omega) [decode1, ggg, ggi, packI_low, packI_a, packI_d, f0_14, r32_val, inClass_val, inRange_val, ofNat_val, unused_nil, unused_cons]
theorem sel (d : GReg) (a : GReg) (b : GReg) (c : GReg) : Statement (.sel d a b c) := by
  refine of_row rfl ?_
  have f0_5 : field (c.1) 0 5 = c.1 := by unfold field; omega
  have f5_4 : field (c.1) 5 4 = 0 := by unfold field; omega
  rw [row1 (lo := 2) (packT_op (by omega) (by omega) (by omega) (by omega) 28 (by decide)) (packT_op (by omega) (by omega) (by omega) (by omega) 24 (by decide))]
  simp (disch := omega) [decode1, ggg, ggi, packT_low, packT_b, packT_a, packT_d, f0_5, f5_4, r32_val, inClass_val, inRange_val, ofNat_val, unused_nil, unused_cons]
theorem lih (d : GReg) (k : BitVec 19) : Statement (.lih d k) := by
  refine of_row rfl ?_
  have f0_19 : field (k.toNat) 0 19 = k.toNat := field_all (by omega)
  rw [row1 (lo := 3) (packL_op (by omega) (by omega) 28 (by decide)) (packL_op (by omega) (by omega) 24 (by decide))]
  simp (disch := omega) [decode1, ggg, ggi, packL_low, packL_d, f0_19, r32_val, inClass_val, inRange_val, ofNat_val, unused_nil, unused_cons]
theorem addI (d : GReg) (a : GReg) (i : BitVec 14) : Statement (.addI d a i) := by
  refine of_row rfl ?_
  have f0_14 : field (i.toNat) 0 14 = i.toNat := field_all (by omega)
  rw [row1 (lo := 4) (packI_op (by omega) (by omega) (by omega) 28 (by decide)) (packI_op (by omega) (by omega) (by omega) 24 (by decide))]
  simp (disch := omega) [decode1, ggg, ggi, packI_low, packI_a, packI_d, f0_14, r32_val, inClass_val, inRange_val, ofNat_val, unused_nil, unused_cons]
theorem andI (d : GReg) (a : GReg) (i : BitVec 14) : Statement (.andI d a i) := by
  refine of_row rfl ?_
  have f0_14 : field (i.toNat) 0 14 = i.toNat := field_all (by omega)
  rw [row1 (lo := 5) (packI_op (by omega) (by omega) (by omega) 28 (by decide)) (packI_op (by omega) (by omega) (by omega) 24 (by decide))]
  simp (disch := omega) [decode1, ggg, ggi, packI_low, packI_a, packI_d, f0_14, r32_val, inClass_val, inRange_val, ofNat_val, unused_nil, unused_cons]
theorem orI (d : GReg) (a : GReg) (i : BitVec 14) : Statement (.orI d a i) := by
  refine of_row rfl ?_
  have f0_14 : field (i.toNat) 0 14 = i.toNat := field_all (by omega)
  rw [row1 (lo := 6) (packI_op (by omega) (by omega) (by omega) 28 (by decide)) (packI_op (by omega) (by omega) (by omega) 24 (by decide))]
  simp (disch := omega) [decode1, ggg, ggi, packI_low, packI_a, packI_d, f0_14, r32_val, inClass_val, inRange_val, ofNat_val, unused_nil, unused_cons]
theorem xorI (d : GReg) (a : GReg) (i : BitVec 14) : Statement (.xorI d a i) := by
  refine of_row rfl ?_
  have f0_14 : field (i.toNat) 0 14 = i.toNat := field_all (by omega)
  rw [row1 (lo := 7) (packI_op (by omega) (by omega) (by omega) 28 (by decide)) (packI_op (by omega) (by omega) (by omega) 24 (by decide))]
  simp (disch := omega) [decode1, ggg, ggi, packI_low, packI_a, packI_d, f0_14, r32_val, inClass_val, inRange_val, ofNat_val, unused_nil, unused_cons]
theorem shlI (d : GReg) (a : GReg) (i : BitVec 14) : Statement (.shlI d a i) := by
  refine of_row rfl ?_
  have f0_14 : field (i.toNat) 0 14 = i.toNat := field_all (by omega)
  rw [row1 (lo := 8) (packI_op (by omega) (by omega) (by omega) 28 (by decide)) (packI_op (by omega) (by omega) (by omega) 24 (by decide))]
  simp (disch := omega) [decode1, ggg, ggi, packI_low, packI_a, packI_d, f0_14, r32_val, inClass_val, inRange_val, ofNat_val, unused_nil, unused_cons]
theorem shrI (d : GReg) (a : GReg) (i : BitVec 14) : Statement (.shrI d a i) := by
  refine of_row rfl ?_
  have f0_14 : field (i.toNat) 0 14 = i.toNat := field_all (by omega)
  rw [row1 (lo := 9) (packI_op (by omega) (by omega) (by omega) 28 (by decide)) (packI_op (by omega) (by omega) (by omega) 24 (by decide))]
  simp (disch := omega) [decode1, ggg, ggi, packI_low, packI_a, packI_d, f0_14, r32_val, inClass_val, inRange_val, ofNat_val, unused_nil, unused_cons]
theorem sarI (d : GReg) (a : GReg) (i : BitVec 14) : Statement (.sarI d a i) := by
  refine of_row rfl ?_
  have f0_14 : field (i.toNat) 0 14 = i.toNat := field_all (by omega)
  rw [row1 (lo := 10) (packI_op (by omega) (by omega) (by omega) 28 (by decide)) (packI_op (by omega) (by omega) (by omega) 24 (by decide))]
  simp (disch := omega) [decode1, ggg, ggi, packI_low, packI_a, packI_d, f0_14, r32_val, inClass_val, inRange_val, ofNat_val, unused_nil, unused_cons]
theorem setEqI (d : GReg) (a : GReg) (i : BitVec 14) : Statement (.setEqI d a i) := by
  refine of_row rfl ?_
  have f0_14 : field (i.toNat) 0 14 = i.toNat := field_all (by omega)
  rw [row1 (lo := 11) (packI_op (by omega) (by omega) (by omega) 28 (by decide)) (packI_op (by omega) (by omega) (by omega) 24 (by decide))]
  simp (disch := omega) [decode1, ggg, ggi, packI_low, packI_a, packI_d, f0_14, r32_val, inClass_val, inRange_val, ofNat_val, unused_nil, unused_cons]
theorem setLtI (d : GReg) (a : GReg) (i : BitVec 14) : Statement (.setLtI d a i) := by
  refine of_row rfl ?_
  have f0_14 : field (i.toNat) 0 14 = i.toNat := field_all (by omega)
  rw [row1 (lo := 12) (packI_op (by omega) (by omega) (by omega) 28 (by decide)) (packI_op (by omega) (by omega) (by omega) 24 (by decide))]
  simp (disch := omega) [decode1, ggg, ggi, packI_low, packI_a, packI_d, f0_14, r32_val, inClass_val, inRange_val, ofNat_val, unused_nil, unused_cons]
theorem setLtuI (d : GReg) (a : GReg) (i : BitVec 14) : Statement (.setLtuI d a i) := by
  refine of_row rfl ?_
  have f0_14 : field (i.toNat) 0 14 = i.toNat := field_all (by omega)
  rw [row1 (lo := 13) (packI_op (by omega) (by omega) (by omega) 28 (by decide)) (packI_op (by omega) (by omega) (by omega) 24 (by decide))]
  simp (disch := omega) [decode1, ggg, ggi, packI_low, packI_a, packI_d, f0_14, r32_val, inClass_val, inRange_val, ofNat_val, unused_nil, unused_cons]
theorem fadd (d : FReg) (a : FReg) (b : FReg) : Statement (.fadd d a b) := by
  refine of_row rfl ?_
  have f0_9 : field (0) 0 9 = 0 := rfl
  rw [row2 (lo := 0) (packT_op (by omega) (by omega) (by omega) (by omega) 28 (by decide)) (packT_op (by omega) (by omega) (by omega) (by omega) 24 (by decide))]
  simp (disch := omega) [decode2, fff, packT_low, packT_b, packT_a, packT_d, f0_9, r32_val, inClass_val, inRange_val, ofNat_val, unused_nil, unused_cons]
theorem fsub (d : FReg) (a : FReg) (b : FReg) : Statement (.fsub d a b) := by
  refine of_row rfl ?_
  have f0_9 : field (0) 0 9 = 0 := rfl
  rw [row2 (lo := 1) (packT_op (by omega) (by omega) (by omega) (by omega) 28 (by decide)) (packT_op (by omega) (by omega) (by omega) (by omega) 24 (by decide))]
  simp (disch := omega) [decode2, fff, packT_low, packT_b, packT_a, packT_d, f0_9, r32_val, inClass_val, inRange_val, ofNat_val, unused_nil, unused_cons]
theorem fmul (d : FReg) (a : FReg) (b : FReg) : Statement (.fmul d a b) := by
  refine of_row rfl ?_
  have f0_9 : field (0) 0 9 = 0 := rfl
  rw [row2 (lo := 2) (packT_op (by omega) (by omega) (by omega) (by omega) 28 (by decide)) (packT_op (by omega) (by omega) (by omega) (by omega) 24 (by decide))]
  simp (disch := omega) [decode2, fff, packT_low, packT_b, packT_a, packT_d, f0_9, r32_val, inClass_val, inRange_val, ofNat_val, unused_nil, unused_cons]
theorem fma (d : FReg) (a : FReg) (b : FReg) (c : FReg) : Statement (.fma d a b c) := by
  refine of_row rfl ?_
  have f0_4 : field (c.1) 0 4 = c.1 := by unfold field; omega
  have f4_5 : field (c.1) 4 5 = 0 := by unfold field; omega
  rw [row2 (lo := 3) (packT_op (by omega) (by omega) (by omega) (by omega) 28 (by decide)) (packT_op (by omega) (by omega) (by omega) (by omega) 24 (by decide))]
  simp (disch := omega) [decode2, fff, packT_low, packT_b, packT_a, packT_d, f0_4, f4_5, r32_val, inClass_val, inRange_val, ofNat_val, unused_nil, unused_cons]
theorem fdiv (d : FReg) (a : FReg) (b : FReg) : Statement (.fdiv d a b) := by
  refine of_row rfl ?_
  have f0_9 : field (0) 0 9 = 0 := rfl
  rw [row2 (lo := 4) (packT_op (by omega) (by omega) (by omega) (by omega) 28 (by decide)) (packT_op (by omega) (by omega) (by omega) (by omega) 24 (by decide))]
  simp (disch := omega) [decode2, fff, packT_low, packT_b, packT_a, packT_d, f0_9, r32_val, inClass_val, inRange_val, ofNat_val, unused_nil, unused_cons]
theorem fsqrt (d : FReg) (a : FReg) : Statement (.fsqrt d a) := by
  refine of_row rfl ?_
  have f0_14 : field (0) 0 14 = 0 := rfl
  rw [packT_b_zero]
  rw [row2 (lo := 5) (packI_op (by omega) (by omega) (by omega) 28 (by decide)) (packI_op (by omega) (by omega) (by omega) 24 (by decide))]
  simp (disch := omega) [decode2, fff, packI_low, packI_a, packI_d, f0_14, r32_val, inClass_val, inRange_val, ofNat_val, unused_nil, unused_cons]
theorem fmin (d : FReg) (a : FReg) (b : FReg) : Statement (.fmin d a b) := by
  refine of_row rfl ?_
  have f0_6 : field (0) 0 6 = 0 := rfl
  have f6_3 : field (0) 6 3 = 0 := rfl
  rw [row2 (lo := 6) (packT_op (by omega) (by omega) (by omega) (by omega) 28 (by decide)) (packT_op (by omega) (by omega) (by omega) (by omega) 24 (by decide))]
  simp (disch := omega) [decode2, fff, packT_low, packT_b, packT_a, packT_d, f0_6, f6_3, r32_val, inClass_val, inRange_val, ofNat_val, unused_nil, unused_cons]
theorem fmax (d : FReg) (a : FReg) (b : FReg) : Statement (.fmax d a b) := by
  refine of_row rfl ?_
  have f0_6 : field (64) 0 6 = 0 := rfl
  have f6_3 : field (64) 6 3 = 1 := rfl
  rw [row2 (lo := 6) (packT_op (by omega) (by omega) (by omega) (by omega) 28 (by decide)) (packT_op (by omega) (by omega) (by omega) (by omega) 24 (by decide))]
  simp (disch := omega) [decode2, fff, packT_low, packT_b, packT_a, packT_d, f0_6, f6_3, r32_val, inClass_val, inRange_val, ofNat_val, unused_nil, unused_cons]
theorem fcmp (d : GReg) (a : FReg) (b : FReg) (q : BitVec 2) : Statement (.fcmp d a b q) := by
  refine of_row rfl ?_
  have f0_2 : field (q.toNat) 0 2 = q.toNat := field_all (by omega)
  have f2_7 : field (q.toNat) 2 7 = 0 := by unfold field; omega
  rw [row2 (lo := 7) (packT_op (by omega) (by omega) (by omega) (by omega) 28 (by decide)) (packT_op (by omega) (by omega) (by omega) (by omega) 24 (by decide))]
  simp (disch := omega) [decode2, fff, packT_low, packT_b, packT_a, packT_d, f0_2, f2_7, r32_val, inClass_val, inRange_val, ofNat_val, unused_nil, unused_cons]
theorem fcvtS64 (d : GReg) (a : FReg) : Statement (.fcvtS64 d a) := by
  refine of_row rfl ?_
  have f0_3 : field (0) 0 3 = 0 := rfl
  have f3_11 : field (0) 3 11 = 0 := rfl
  rw [packT_b_zero]
  rw [row2 (lo := 8) (packI_op (by omega) (by omega) (by omega) 28 (by decide)) (packI_op (by omega) (by omega) (by omega) 24 (by decide))]
  simp (disch := omega) [decode2, fff, packI_low, packI_a, packI_d, f0_3, f3_11, r32_val, inClass_val, inRange_val, ofNat_val, unused_nil, unused_cons]
theorem fcvtN64 (d : GReg) (a : FReg) : Statement (.fcvtN64 d a) := by
  refine of_row rfl ?_
  have f0_3 : field (1) 0 3 = 1 := rfl
  have f3_11 : field (1) 3 11 = 0 := rfl
  rw [packT_b_zero]
  rw [row2 (lo := 8) (packI_op (by omega) (by omega) (by omega) 28 (by decide)) (packI_op (by omega) (by omega) (by omega) 24 (by decide))]
  simp (disch := omega) [decode2, fff, packI_low, packI_a, packI_d, f0_3, f3_11, r32_val, inClass_val, inRange_val, ofNat_val, unused_nil, unused_cons]
theorem fcvtFS64 (d : FReg) (a : GReg) : Statement (.fcvtFS64 d a) := by
  refine of_row rfl ?_
  have f0_3 : field (2) 0 3 = 2 := rfl
  have f3_11 : field (2) 3 11 = 0 := rfl
  rw [packT_b_zero]
  rw [row2 (lo := 8) (packI_op (by omega) (by omega) (by omega) 28 (by decide)) (packI_op (by omega) (by omega) (by omega) 24 (by decide))]
  simp (disch := omega) [decode2, fff, packI_low, packI_a, packI_d, f0_3, f3_11, r32_val, inClass_val, inRange_val, ofNat_val, unused_nil, unused_cons]
theorem fcvtFN64 (d : FReg) (a : GReg) : Statement (.fcvtFN64 d a) := by
  refine of_row rfl ?_
  have f0_3 : field (3) 0 3 = 3 := rfl
  have f3_11 : field (3) 3 11 = 0 := rfl
  rw [packT_b_zero]
  rw [row2 (lo := 8) (packI_op (by omega) (by omega) (by omega) 28 (by decide)) (packI_op (by omega) (by omega) (by omega) 24 (by decide))]
  simp (disch := omega) [decode2, fff, packI_low, packI_a, packI_d, f0_3, f3_11, r32_val, inClass_val, inRange_val, ofNat_val, unused_nil, unused_cons]
theorem fcvtBits (d : GReg) (a : FReg) : Statement (.fcvtBits d a) := by
  refine of_row rfl ?_
  have f0_3 : field (4) 0 3 = 4 := rfl
  have f3_11 : field (4) 3 11 = 0 := rfl
  rw [packT_b_zero]
  rw [row2 (lo := 8) (packI_op (by omega) (by omega) (by omega) 28 (by decide)) (packI_op (by omega) (by omega) (by omega) 24 (by decide))]
  simp (disch := omega) [decode2, fff, packI_low, packI_a, packI_d, f0_3, f3_11, r32_val, inClass_val, inRange_val, ofNat_val, unused_nil, unused_cons]
theorem fcvtFBits (d : FReg) (a : GReg) : Statement (.fcvtFBits d a) := by
  refine of_row rfl ?_
  have f0_3 : field (5) 0 3 = 5 := rfl
  have f3_11 : field (5) 3 11 = 0 := rfl
  rw [packT_b_zero]
  rw [row2 (lo := 8) (packI_op (by omega) (by omega) (by omega) 28 (by decide)) (packI_op (by omega) (by omega) (by omega) 24 (by decide))]
  simp (disch := omega) [decode2, fff, packI_low, packI_a, packI_d, f0_3, f3_11, r32_val, inClass_val, inRange_val, ofNat_val, unused_nil, unused_cons]
theorem b (o : BitVec 24) : Statement (.b o) := by
  refine of_row rfl ?_
  have f0_24 : field (o.toNat) 0 24 = o.toNat := field_all (by omega)
  rw [row3 (lo := 0) (packJ_op (by omega) 28 (by decide)) (packJ_op (by omega) 24 (by decide))]
  simp (disch := omega) [decode3, ggg, ggi, packJ_low, f0_24, r32_val, inClass_val, inRange_val, ofNat_val, unused_nil, unused_cons]
theorem beq (d : GReg) (a : GReg) (o : BitVec 14) : Statement (.beq d a o) := by
  refine of_row rfl ?_
  have f0_14 : field (o.toNat) 0 14 = o.toNat := field_all (by omega)
  rw [row3 (lo := 1) (packI_op (by omega) (by omega) (by omega) 28 (by decide)) (packI_op (by omega) (by omega) (by omega) 24 (by decide))]
  simp (disch := omega) [decode3, ggg, ggi, packI_low, packI_a, packI_d, f0_14, r32_val, inClass_val, inRange_val, ofNat_val, unused_nil, unused_cons]
theorem bne (d : GReg) (a : GReg) (o : BitVec 14) : Statement (.bne d a o) := by
  refine of_row rfl ?_
  have f0_14 : field (o.toNat) 0 14 = o.toNat := field_all (by omega)
  rw [row3 (lo := 2) (packI_op (by omega) (by omega) (by omega) 28 (by decide)) (packI_op (by omega) (by omega) (by omega) 24 (by decide))]
  simp (disch := omega) [decode3, ggg, ggi, packI_low, packI_a, packI_d, f0_14, r32_val, inClass_val, inRange_val, ofNat_val, unused_nil, unused_cons]
theorem blt (d : GReg) (a : GReg) (o : BitVec 14) : Statement (.blt d a o) := by
  refine of_row rfl ?_
  have f0_14 : field (o.toNat) 0 14 = o.toNat := field_all (by omega)
  rw [row3 (lo := 3) (packI_op (by omega) (by omega) (by omega) 28 (by decide)) (packI_op (by omega) (by omega) (by omega) 24 (by decide))]
  simp (disch := omega) [decode3, ggg, ggi, packI_low, packI_a, packI_d, f0_14, r32_val, inClass_val, inRange_val, ofNat_val, unused_nil, unused_cons]
theorem bge (d : GReg) (a : GReg) (o : BitVec 14) : Statement (.bge d a o) := by
  refine of_row rfl ?_
  have f0_14 : field (o.toNat) 0 14 = o.toNat := field_all (by omega)
  rw [row3 (lo := 4) (packI_op (by omega) (by omega) (by omega) 28 (by decide)) (packI_op (by omega) (by omega) (by omega) 24 (by decide))]
  simp (disch := omega) [decode3, ggg, ggi, packI_low, packI_a, packI_d, f0_14, r32_val, inClass_val, inRange_val, ofNat_val, unused_nil, unused_cons]
theorem bltu (d : GReg) (a : GReg) (o : BitVec 14) : Statement (.bltu d a o) := by
  refine of_row rfl ?_
  have f0_14 : field (o.toNat) 0 14 = o.toNat := field_all (by omega)
  rw [row3 (lo := 5) (packI_op (by omega) (by omega) (by omega) 28 (by decide)) (packI_op (by omega) (by omega) (by omega) 24 (by decide))]
  simp (disch := omega) [decode3, ggg, ggi, packI_low, packI_a, packI_d, f0_14, r32_val, inClass_val, inRange_val, ofNat_val, unused_nil, unused_cons]
theorem bgeu (d : GReg) (a : GReg) (o : BitVec 14) : Statement (.bgeu d a o) := by
  refine of_row rfl ?_
  have f0_14 : field (o.toNat) 0 14 = o.toNat := field_all (by omega)
  rw [row3 (lo := 6) (packI_op (by omega) (by omega) (by omega) 28 (by decide)) (packI_op (by omega) (by omega) (by omega) 24 (by decide))]
  simp (disch := omega) [decode3, ggg, ggi, packI_low, packI_a, packI_d, f0_14, r32_val, inClass_val, inRange_val, ofNat_val, unused_nil, unused_cons]
theorem j (o : BitVec 24) : Statement (.j o) := by
  refine of_row rfl ?_
  have f0_24 : field (o.toNat) 0 24 = o.toNat := field_all (by omega)
  rw [row3 (lo := 7) (packJ_op (by omega) 28 (by decide)) (packJ_op (by omega) 24 (by decide))]
  simp (disch := omega) [decode3, ggg, ggi, packJ_low, f0_24, r32_val, inClass_val, inRange_val, ofNat_val, unused_nil, unused_cons]
theorem jal (d : GReg) (o : BitVec 19) : Statement (.jal d o) := by
  refine of_row rfl ?_
  have f0_19 : field (o.toNat) 0 19 = o.toNat := field_all (by omega)
  rw [row3 (lo := 8) (packL_op (by omega) (by omega) 28 (by decide)) (packL_op (by omega) (by omega) 24 (by decide))]
  simp (disch := omega) [decode3, ggg, ggi, packL_low, packL_d, f0_19, r32_val, inClass_val, inRange_val, ofNat_val, unused_nil, unused_cons]
theorem jr (d : GReg) (a : GReg) (i : BitVec 14) : Statement (.jr d a i) := by
  refine of_row rfl ?_
  have f0_14 : field (i.toNat) 0 14 = i.toNat := field_all (by omega)
  rw [row3 (lo := 9) (packI_op (by omega) (by omega) (by omega) 28 (by decide)) (packI_op (by omega) (by omega) (by omega) 24 (by decide))]
  simp (disch := omega) [decode3, ggg, ggi, packI_low, packI_a, packI_d, f0_14, r32_val, inClass_val, inRange_val, ofNat_val, unused_nil, unused_cons]
theorem loop (k : LcN) (a : GReg) (l : BitVec 14) : Statement (.loop k a l) := by
  refine of_row rfl ?_
  have f0_14 : field (l.toNat) 0 14 = l.toNat := field_all (by omega)
  rw [row3 (lo := 10) (packI_op (by omega) (by omega) (by omega) 28 (by decide)) (packI_op (by omega) (by omega) (by omega) 24 (by decide))]
  simp (disch := omega) [decode3, ggg, ggi, packI_low, packI_a, packI_d, f0_14, r32_val, inClass_val, inRange_val, ofNat_val, unused_nil, unused_cons]
theorem strip (d : GReg) (a : GReg) (b : GReg) (o : BitVec 9) : Statement (.strip d a b o) := by
  refine of_row rfl ?_
  have f0_9 : field (o.toNat) 0 9 = o.toNat := field_all (by omega)
  rw [row3 (lo := 11) (packT_op (by omega) (by omega) (by omega) (by omega) 28 (by decide)) (packT_op (by omega) (by omega) (by omega) (by omega) 24 (by decide))]
  simp (disch := omega) [decode3, ggg, ggi, packT_low, packT_b, packT_a, packT_d, f0_9, r32_val, inClass_val, inRange_val, ofNat_val, unused_nil, unused_cons]
theorem trap (k : BitVec 19) : Statement (.trap k) := by
  refine of_row rfl ?_
  have f0_19 : field (k.toNat) 0 19 = k.toNat := field_all (by omega)
  have f19_5 : field (k.toNat) 19 5 = 0 := by unfold field; omega
  rw [packL_d_zero]
  rw [row4 (lo := 0) (packJ_op (by omega) 28 (by decide)) (packJ_op (by omega) 24 (by decide))]
  simp (disch := omega) [decode4, ggg, ggi, packJ_low, f0_19, f19_5, r32_val, inClass_val, inRange_val, ofNat_val, unused_nil, unused_cons]
theorem eret : Statement .eret := by
  refine of_row rfl ?_
  have f0_24 : field (0) 0 24 = 0 := rfl
  rw [packT_b_zero, packI_a_zero, packL_d_zero]
  rw [row4 (lo := 1) (packJ_op (by omega) 28 (by decide)) (packJ_op (by omega) 24 (by decide))]
  simp (disch := omega) [decode4, ggg, ggi, packJ_low, f0_24, r32_val, inClass_val, inRange_val, ofNat_val, unused_nil, unused_cons]
theorem csrr (d : GReg) (c : BitVec 9) : Statement (.csrr d c) := by
  refine of_row rfl ?_
  have f0_9 : field (c.toNat) 0 9 = c.toNat := field_all (by omega)
  have f9_10 : field (c.toNat) 9 10 = 0 := by unfold field; omega
  rw [packT_b_zero, packI_a_zero]
  rw [row4 (lo := 2) (packL_op (by omega) (by omega) 28 (by decide)) (packL_op (by omega) (by omega) 24 (by decide))]
  simp (disch := omega) [decode4, ggg, ggi, packL_low, packL_d, f0_9, f9_10, r32_val, inClass_val, inRange_val, ofNat_val, unused_nil, unused_cons]
theorem csrw (a : GReg) (c : BitVec 9) : Statement (.csrw a c) := by
  refine of_row rfl ?_
  have f0_9 : field (c.toNat) 0 9 = c.toNat := field_all (by omega)
  have f9_5 : field (c.toNat) 9 5 = 0 := by unfold field; omega
  rw [packT_b_zero]
  rw [row4 (lo := 3) (packI_op (by omega) (by omega) (by omega) 28 (by decide)) (packI_op (by omega) (by omega) (by omega) 24 (by decide))]
  simp (disch := omega) [decode4, ggg, ggi, packI_low, packI_a, packI_d, f0_9, f9_5, r32_val, inClass_val, inRange_val, ofNat_val, unused_nil, unused_cons]
theorem feat (d : GReg) (a : GReg) (i : BitVec 14) : Statement (.feat d a i) := by
  refine of_row rfl ?_
  have f0_14 : field (i.toNat) 0 14 = i.toNat := field_all (by omega)
  rw [row4 (lo := 4) (packI_op (by omega) (by omega) (by omega) 28 (by decide)) (packI_op (by omega) (by omega) (by omega) 24 (by decide))]
  simp (disch := omega) [decode4, ggg, ggi, packI_low, packI_a, packI_d, f0_14, r32_val, inClass_val, inRange_val, ofNat_val, unused_nil, unused_cons]
theorem endStrand : Statement .endStrand := by
  refine of_row rfl ?_
  have f0_24 : field (0) 0 24 = 0 := rfl
  rw [packT_b_zero, packI_a_zero, packL_d_zero]
  rw [row4 (lo := 5) (packJ_op (by omega) 28 (by decide)) (packJ_op (by omega) 24 (by decide))]
  simp (disch := omega) [decode4, ggg, ggi, packJ_low, f0_24, r32_val, inClass_val, inRange_val, ofNat_val, unused_nil, unused_cons]
theorem wfe (d : GReg) (a : GReg) (b : GReg) : Statement (.wfe d a b) := by
  refine of_row rfl ?_
  have f0_6 : field (0) 0 6 = 0 := rfl
  have f6_3 : field (0) 6 3 = 0 := rfl
  rw [row4 (lo := 6) (packT_op (by omega) (by omega) (by omega) (by omega) 28 (by decide)) (packT_op (by omega) (by omega) (by omega) (by omega) 24 (by decide))]
  simp (disch := omega) [decode4, ggg, ggi, packT_low, packT_b, packT_a, packT_d, f0_6, f6_3, r32_val, inClass_val, inRange_val, ofNat_val, unused_nil, unused_cons]
theorem yield : Statement .yield := by
  refine of_row rfl ?_
  have f0_6 : field (64) 0 6 = 0 := rfl
  have f6_3 : field (64) 6 3 = 1 := rfl
  have f9_15 : field (64) 9 15 = 0 := rfl
  rw [packT_b_zero, packI_a_zero, packL_d_zero]
  rw [row4 (lo := 6) (packJ_op (by omega) 28 (by decide)) (packJ_op (by omega) 24 (by decide))]
  simp (disch := omega) [decode4, ggg, ggi, packJ_low, f0_6, f6_3, f9_15, r32_val, inClass_val, inRange_val, ofNat_val, unused_nil, unused_cons]
theorem fenceI : Statement .fenceI := by
  refine of_row rfl ?_
  have f0_24 : field (0) 0 24 = 0 := rfl
  rw [packT_b_zero, packI_a_zero, packL_d_zero]
  rw [row4 (lo := 7) (packJ_op (by omega) 28 (by decide)) (packJ_op (by omega) 24 (by decide))]
  simp (disch := omega) [decode4, ggg, ggi, packJ_low, f0_24, r32_val, inClass_val, inRange_val, ofNat_val, unused_nil, unused_cons]
theorem hint (op : Fin 31) (rest : BitVec 24) : Statement (.hint op rest) := by
  refine of_row rfl ?_
  have h1 : field (packJ (0xE0 + op) rest.toNat) 24 8 = 0xE0 + op := by
    rw [packJ_op rest.isLt 24 (Nat.le_refl _)]; unfold field; omega
  have h2 : field (packJ (0xE0 + op) rest.toNat) 28 4 = 14 + op / 16 := by
    rw [packJ_op rest.isLt 28 (by decide)]; unfold field; omega
  have h3 : field (packJ (0xE0 + op) rest.toNat) 0 24 = rest.toNat := by rw [packJ_low (by decide), field_all rest.isLt]
  have h4 : decodeRow (packJ (0xE0 + op) rest.toNat) = decodeHint (field (packJ (0xE0 + op) rest.toNat) 24 8) (packJ (0xE0 + op) rest.toNat) := by
    unfold decodeRow; rw [h2]
    obtain h | h : op.1 / 16 = 0 ∨ op.1 / 16 = 1 := by omega
    all_goals simp [h]
  rw [h4, h1]
  simp [decodeHint, h3]
theorem ldB (d : GReg) (a : GReg) (i : BitVec 14) : Statement (.ldB d a i) := by
  refine of_row rfl ?_
  have f0_14 : field (i.toNat) 0 14 = i.toNat := field_all (by omega)
  rw [row5 (lo := 0) (packI_op (by omega) (by omega) (by omega) 28 (by decide)) (packI_op (by omega) (by omega) (by omega) 24 (by decide))]
  simp (disch := omega) [decode5, ggi, packI_low, packI_a, packI_d, f0_14, r32_val, inClass_val, inRange_val, ofNat_val, unused_nil, unused_cons]
theorem ldBu (d : GReg) (a : GReg) (i : BitVec 14) : Statement (.ldBu d a i) := by
  refine of_row rfl ?_
  have f0_14 : field (i.toNat) 0 14 = i.toNat := field_all (by omega)
  rw [row5 (lo := 1) (packI_op (by omega) (by omega) (by omega) 28 (by decide)) (packI_op (by omega) (by omega) (by omega) 24 (by decide))]
  simp (disch := omega) [decode5, ggi, packI_low, packI_a, packI_d, f0_14, r32_val, inClass_val, inRange_val, ofNat_val, unused_nil, unused_cons]
theorem ldH (d : GReg) (a : GReg) (i : BitVec 14) : Statement (.ldH d a i) := by
  refine of_row rfl ?_
  have f0_14 : field (i.toNat) 0 14 = i.toNat := field_all (by omega)
  rw [row5 (lo := 2) (packI_op (by omega) (by omega) (by omega) 28 (by decide)) (packI_op (by omega) (by omega) (by omega) 24 (by decide))]
  simp (disch := omega) [decode5, ggi, packI_low, packI_a, packI_d, f0_14, r32_val, inClass_val, inRange_val, ofNat_val, unused_nil, unused_cons]
theorem ldHu (d : GReg) (a : GReg) (i : BitVec 14) : Statement (.ldHu d a i) := by
  refine of_row rfl ?_
  have f0_14 : field (i.toNat) 0 14 = i.toNat := field_all (by omega)
  rw [row5 (lo := 3) (packI_op (by omega) (by omega) (by omega) 28 (by decide)) (packI_op (by omega) (by omega) (by omega) 24 (by decide))]
  simp (disch := omega) [decode5, ggi, packI_low, packI_a, packI_d, f0_14, r32_val, inClass_val, inRange_val, ofNat_val, unused_nil, unused_cons]
theorem ldW (d : GReg) (a : GReg) (i : BitVec 14) : Statement (.ldW d a i) := by
  refine of_row rfl ?_
  have f0_14 : field (i.toNat) 0 14 = i.toNat := field_all (by omega)
  rw [row5 (lo := 4) (packI_op (by omega) (by omega) (by omega) 28 (by decide)) (packI_op (by omega) (by omega) (by omega) 24 (by decide))]
  simp (disch := omega) [decode5, ggi, packI_low, packI_a, packI_d, f0_14, r32_val, inClass_val, inRange_val, ofNat_val, unused_nil, unused_cons]
theorem ldWu (d : GReg) (a : GReg) (i : BitVec 14) : Statement (.ldWu d a i) := by
  refine of_row rfl ?_
  have f0_14 : field (i.toNat) 0 14 = i.toNat := field_all (by omega)
  rw [row5 (lo := 5) (packI_op (by omega) (by omega) (by omega) 28 (by decide)) (packI_op (by omega) (by omega) (by omega) 24 (by decide))]
  simp (disch := omega) [decode5, ggi, packI_low, packI_a, packI_d, f0_14, r32_val, inClass_val, inRange_val, ofNat_val, unused_nil, unused_cons]
theorem ldD (d : GReg) (a : GReg) (i : BitVec 14) : Statement (.ldD d a i) := by
  refine of_row rfl ?_
  have f0_14 : field (i.toNat) 0 14 = i.toNat := field_all (by omega)
  rw [row5 (lo := 6) (packI_op (by omega) (by omega) (by omega) 28 (by decide)) (packI_op (by omega) (by omega) (by omega) 24 (by decide))]
  simp (disch := omega) [decode5, ggi, packI_low, packI_a, packI_d, f0_14, r32_val, inClass_val, inRange_val, ofNat_val, unused_nil, unused_cons]
theorem ldF (d : FReg) (a : GReg) (i : BitVec 14) : Statement (.ldF d a i) := by
  refine of_row rfl ?_
  have f0_14 : field (i.toNat) 0 14 = i.toNat := field_all (by omega)
  rw [row5 (lo := 7) (packI_op (by omega) (by omega) (by omega) 28 (by decide)) (packI_op (by omega) (by omega) (by omega) 24 (by decide))]
  simp (disch := omega) [decode5, ggi, packI_low, packI_a, packI_d, f0_14, r32_val, inClass_val, inRange_val, ofNat_val, unused_nil, unused_cons]
theorem stB (d : GReg) (a : GReg) (i : BitVec 14) : Statement (.stB d a i) := by
  refine of_row rfl ?_
  have f0_14 : field (i.toNat) 0 14 = i.toNat := field_all (by omega)
  rw [row5 (lo := 8) (packI_op (by omega) (by omega) (by omega) 28 (by decide)) (packI_op (by omega) (by omega) (by omega) 24 (by decide))]
  simp (disch := omega) [decode5, ggi, packI_low, packI_a, packI_d, f0_14, r32_val, inClass_val, inRange_val, ofNat_val, unused_nil, unused_cons]
theorem stH (d : GReg) (a : GReg) (i : BitVec 14) : Statement (.stH d a i) := by
  refine of_row rfl ?_
  have f0_14 : field (i.toNat) 0 14 = i.toNat := field_all (by omega)
  rw [row5 (lo := 9) (packI_op (by omega) (by omega) (by omega) 28 (by decide)) (packI_op (by omega) (by omega) (by omega) 24 (by decide))]
  simp (disch := omega) [decode5, ggi, packI_low, packI_a, packI_d, f0_14, r32_val, inClass_val, inRange_val, ofNat_val, unused_nil, unused_cons]
theorem stW (d : GReg) (a : GReg) (i : BitVec 14) : Statement (.stW d a i) := by
  refine of_row rfl ?_
  have f0_14 : field (i.toNat) 0 14 = i.toNat := field_all (by omega)
  rw [row5 (lo := 10) (packI_op (by omega) (by omega) (by omega) 28 (by decide)) (packI_op (by omega) (by omega) (by omega) 24 (by decide))]
  simp (disch := omega) [decode5, ggi, packI_low, packI_a, packI_d, f0_14, r32_val, inClass_val, inRange_val, ofNat_val, unused_nil, unused_cons]
theorem stD (d : GReg) (a : GReg) (i : BitVec 14) : Statement (.stD d a i) := by
  refine of_row rfl ?_
  have f0_14 : field (i.toNat) 0 14 = i.toNat := field_all (by omega)
  rw [row5 (lo := 11) (packI_op (by omega) (by omega) (by omega) 28 (by decide)) (packI_op (by omega) (by omega) (by omega) 24 (by decide))]
  simp (disch := omega) [decode5, ggi, packI_low, packI_a, packI_d, f0_14, r32_val, inClass_val, inRange_val, ofNat_val, unused_nil, unused_cons]
theorem stF (d : FReg) (a : GReg) (i : BitVec 14) : Statement (.stF d a i) := by
  refine of_row rfl ?_
  have f0_14 : field (i.toNat) 0 14 = i.toNat := field_all (by omega)
  rw [row5 (lo := 12) (packI_op (by omega) (by omega) (by omega) 28 (by decide)) (packI_op (by omega) (by omega) (by omega) 24 (by decide))]
  simp (disch := omega) [decode5, ggi, packI_low, packI_a, packI_d, f0_14, r32_val, inClass_val, inRange_val, ofNat_val, unused_nil, unused_cons]
theorem amoAdd (d : GReg) (a : GReg) (b : GReg) (w : Bool) (s : Fin 6) : Statement (.amoAdd d a b w s) := by
  refine of_row rfl ?_
  have bw := w.toNat_lt
  have f0_3 : field (w.toNat * 8 + s.1) 0 3 = s.1 := by unfold field; omega
  have f3_1 : field (w.toNat * 8 + s.1) 3 1 = w.toNat := by unfold field; omega
  have f4_1 : field (w.toNat * 8 + s.1) 4 1 = 0 := by unfold field; omega
  have f5_1 : field (w.toNat * 8 + s.1) 5 1 = 0 := by unfold field; omega
  have f6_3 : field (w.toNat * 8 + s.1) 6 3 = 0 := by unfold field; omega
  rw [row6 (lo := 0) (packT_op (by omega) (by omega) (by omega) (by omega) 28 (by decide)) (packT_op (by omega) (by omega) (by omega) (by omega) 24 (by decide))]
  simp (disch := omega) [decode6, ggg, amo, bitOf, beq_one, toNat_one, packT_low, packT_b, packT_a, packT_d, f0_3, f3_1, f4_1, f5_1, f6_3, r32_val, inClass_val, inRange_val, ofNat_val, unused_nil, unused_cons]
theorem amoMin (d : GReg) (a : GReg) (b : GReg) (u : Bool) (w : Bool) (s : Fin 6) : Statement (.amoMin d a b u w s) := by
  refine of_row rfl ?_
  have bu := u.toNat_lt
  have bw := w.toNat_lt
  have f0_3 : field (1 * 64 + u.toNat * 16 + w.toNat * 8 + s.1) 0 3 = s.1 := by unfold field; omega
  have f3_1 : field (1 * 64 + u.toNat * 16 + w.toNat * 8 + s.1) 3 1 = w.toNat := by unfold field; omega
  have f4_1 : field (1 * 64 + u.toNat * 16 + w.toNat * 8 + s.1) 4 1 = u.toNat := by unfold field; omega
  have f5_1 : field (1 * 64 + u.toNat * 16 + w.toNat * 8 + s.1) 5 1 = 0 := by unfold field; omega
  have f6_3 : field (1 * 64 + u.toNat * 16 + w.toNat * 8 + s.1) 6 3 = 1 := by unfold field; omega
  rw [row6 (lo := 0) (packT_op (by omega) (by omega) (by omega) (by omega) 28 (by decide)) (packT_op (by omega) (by omega) (by omega) (by omega) 24 (by decide))]
  simp (disch := omega) [decode6, ggg, amo, bitOf, beq_one, toNat_one, packT_low, packT_b, packT_a, packT_d, f0_3, f3_1, f4_1, f5_1, f6_3, r32_val, inClass_val, inRange_val, ofNat_val, unused_nil, unused_cons]
theorem amoMax (d : GReg) (a : GReg) (b : GReg) (u : Bool) (w : Bool) (s : Fin 6) : Statement (.amoMax d a b u w s) := by
  refine of_row rfl ?_
  have bu := u.toNat_lt
  have bw := w.toNat_lt
  have f0_3 : field (2 * 64 + u.toNat * 16 + w.toNat * 8 + s.1) 0 3 = s.1 := by unfold field; omega
  have f3_1 : field (2 * 64 + u.toNat * 16 + w.toNat * 8 + s.1) 3 1 = w.toNat := by unfold field; omega
  have f4_1 : field (2 * 64 + u.toNat * 16 + w.toNat * 8 + s.1) 4 1 = u.toNat := by unfold field; omega
  have f5_1 : field (2 * 64 + u.toNat * 16 + w.toNat * 8 + s.1) 5 1 = 0 := by unfold field; omega
  have f6_3 : field (2 * 64 + u.toNat * 16 + w.toNat * 8 + s.1) 6 3 = 2 := by unfold field; omega
  rw [row6 (lo := 0) (packT_op (by omega) (by omega) (by omega) (by omega) 28 (by decide)) (packT_op (by omega) (by omega) (by omega) (by omega) 24 (by decide))]
  simp (disch := omega) [decode6, ggg, amo, bitOf, beq_one, toNat_one, packT_low, packT_b, packT_a, packT_d, f0_3, f3_1, f4_1, f5_1, f6_3, r32_val, inClass_val, inRange_val, ofNat_val, unused_nil, unused_cons]
theorem amoAnd (d : GReg) (a : GReg) (b : GReg) (w : Bool) (s : Fin 6) : Statement (.amoAnd d a b w s) := by
  refine of_row rfl ?_
  have bw := w.toNat_lt
  have f0_3 : field (3 * 64 + w.toNat * 8 + s.1) 0 3 = s.1 := by unfold field; omega
  have f3_1 : field (3 * 64 + w.toNat * 8 + s.1) 3 1 = w.toNat := by unfold field; omega
  have f4_1 : field (3 * 64 + w.toNat * 8 + s.1) 4 1 = 0 := by unfold field; omega
  have f5_1 : field (3 * 64 + w.toNat * 8 + s.1) 5 1 = 0 := by unfold field; omega
  have f6_3 : field (3 * 64 + w.toNat * 8 + s.1) 6 3 = 3 := by unfold field; omega
  rw [row6 (lo := 0) (packT_op (by omega) (by omega) (by omega) (by omega) 28 (by decide)) (packT_op (by omega) (by omega) (by omega) (by omega) 24 (by decide))]
  simp (disch := omega) [decode6, ggg, amo, bitOf, beq_one, toNat_one, packT_low, packT_b, packT_a, packT_d, f0_3, f3_1, f4_1, f5_1, f6_3, r32_val, inClass_val, inRange_val, ofNat_val, unused_nil, unused_cons]
theorem amoOr (d : GReg) (a : GReg) (b : GReg) (w : Bool) (s : Fin 6) : Statement (.amoOr d a b w s) := by
  refine of_row rfl ?_
  have bw := w.toNat_lt
  have f0_3 : field (4 * 64 + w.toNat * 8 + s.1) 0 3 = s.1 := by unfold field; omega
  have f3_1 : field (4 * 64 + w.toNat * 8 + s.1) 3 1 = w.toNat := by unfold field; omega
  have f4_1 : field (4 * 64 + w.toNat * 8 + s.1) 4 1 = 0 := by unfold field; omega
  have f5_1 : field (4 * 64 + w.toNat * 8 + s.1) 5 1 = 0 := by unfold field; omega
  have f6_3 : field (4 * 64 + w.toNat * 8 + s.1) 6 3 = 4 := by unfold field; omega
  rw [row6 (lo := 0) (packT_op (by omega) (by omega) (by omega) (by omega) 28 (by decide)) (packT_op (by omega) (by omega) (by omega) (by omega) 24 (by decide))]
  simp (disch := omega) [decode6, ggg, amo, bitOf, beq_one, toNat_one, packT_low, packT_b, packT_a, packT_d, f0_3, f3_1, f4_1, f5_1, f6_3, r32_val, inClass_val, inRange_val, ofNat_val, unused_nil, unused_cons]
theorem amoXor (d : GReg) (a : GReg) (b : GReg) (w : Bool) (s : Fin 6) : Statement (.amoXor d a b w s) := by
  refine of_row rfl ?_
  have bw := w.toNat_lt
  have f0_3 : field (5 * 64 + w.toNat * 8 + s.1) 0 3 = s.1 := by unfold field; omega
  have f3_1 : field (5 * 64 + w.toNat * 8 + s.1) 3 1 = w.toNat := by unfold field; omega
  have f4_1 : field (5 * 64 + w.toNat * 8 + s.1) 4 1 = 0 := by unfold field; omega
  have f5_1 : field (5 * 64 + w.toNat * 8 + s.1) 5 1 = 0 := by unfold field; omega
  have f6_3 : field (5 * 64 + w.toNat * 8 + s.1) 6 3 = 5 := by unfold field; omega
  rw [row6 (lo := 0) (packT_op (by omega) (by omega) (by omega) (by omega) 28 (by decide)) (packT_op (by omega) (by omega) (by omega) (by omega) 24 (by decide))]
  simp (disch := omega) [decode6, ggg, amo, bitOf, beq_one, toNat_one, packT_low, packT_b, packT_a, packT_d, f0_3, f3_1, f4_1, f5_1, f6_3, r32_val, inClass_val, inRange_val, ofNat_val, unused_nil, unused_cons]
theorem amoSwp (d : GReg) (a : GReg) (b : GReg) (w : Bool) (s : Fin 6) : Statement (.amoSwp d a b w s) := by
  refine of_row rfl ?_
  have bw := w.toNat_lt
  have f0_3 : field (6 * 64 + w.toNat * 8 + s.1) 0 3 = s.1 := by unfold field; omega
  have f3_1 : field (6 * 64 + w.toNat * 8 + s.1) 3 1 = w.toNat := by unfold field; omega
  have f4_1 : field (6 * 64 + w.toNat * 8 + s.1) 4 1 = 0 := by unfold field; omega
  have f5_1 : field (6 * 64 + w.toNat * 8 + s.1) 5 1 = 0 := by unfold field; omega
  have f6_3 : field (6 * 64 + w.toNat * 8 + s.1) 6 3 = 6 := by unfold field; omega
  rw [row6 (lo := 0) (packT_op (by omega) (by omega) (by omega) (by omega) 28 (by decide)) (packT_op (by omega) (by omega) (by omega) (by omega) 24 (by decide))]
  simp (disch := omega) [decode6, ggg, amo, bitOf, beq_one, toNat_one, packT_low, packT_b, packT_a, packT_d, f0_3, f3_1, f4_1, f5_1, f6_3, r32_val, inClass_val, inRange_val, ofNat_val, unused_nil, unused_cons]
theorem amoCas (d : GReg) (a : GReg) (b : GReg) (w : Bool) (s : Fin 6) : Statement (.amoCas d a b w s) := by
  refine of_row rfl ?_
  have bw := w.toNat_lt
  have f0_3 : field (7 * 64 + w.toNat * 8 + s.1) 0 3 = s.1 := by unfold field; omega
  have f3_1 : field (7 * 64 + w.toNat * 8 + s.1) 3 1 = w.toNat := by unfold field; omega
  have f4_1 : field (7 * 64 + w.toNat * 8 + s.1) 4 1 = 0 := by unfold field; omega
  have f5_1 : field (7 * 64 + w.toNat * 8 + s.1) 5 1 = 0 := by unfold field; omega
  have f6_3 : field (7 * 64 + w.toNat * 8 + s.1) 6 3 = 7 := by unfold field; omega
  rw [row6 (lo := 0) (packT_op (by omega) (by omega) (by omega) (by omega) 28 (by decide)) (packT_op (by omega) (by omega) (by omega) (by omega) 24 (by decide))]
  simp (disch := omega) [decode6, ggg, amo, bitOf, beq_one, toNat_one, packT_low, packT_b, packT_a, packT_d, f0_3, f3_1, f4_1, f5_1, f6_3, r32_val, inClass_val, inRange_val, ofNat_val, unused_nil, unused_cons]
theorem acq (a : GReg) : Statement (.acq a) := by
  refine of_row rfl ?_
  have f0_6 : field (0) 0 6 = 0 := rfl
  have f6_3 : field (0) 6 3 = 0 := rfl
  have f9_5 : field (0) 9 5 = 0 := rfl
  rw [packT_b_zero]
  rw [row6 (lo := 1) (packI_op (by omega) (by omega) (by omega) 28 (by decide)) (packI_op (by omega) (by omega) (by omega) 24 (by decide))]
  simp (disch := omega) [decode6, ggg, amo, packI_low, packI_a, packI_d, f0_6, f6_3, f9_5, r32_val, inClass_val, inRange_val, ofNat_val, unused_nil, unused_cons]
theorem acqObs (d : GReg) (a : GReg) : Statement (.acqObs d a) := by
  refine of_row rfl ?_
  have f0_6 : field (64) 0 6 = 0 := rfl
  have f6_3 : field (64) 6 3 = 1 := rfl
  have f9_5 : field (64) 9 5 = 0 := rfl
  rw [packT_b_zero]
  rw [row6 (lo := 1) (packI_op (by omega) (by omega) (by omega) 28 (by decide)) (packI_op (by omega) (by omega) (by omega) 24 (by decide))]
  simp (disch := omega) [decode6, ggg, amo, packI_low, packI_a, packI_d, f0_6, f6_3, f9_5, r32_val, inClass_val, inRange_val, ofNat_val, unused_nil, unused_cons]
theorem tryacq (d : GReg) (a : GReg) : Statement (.tryacq d a) := by
  refine of_row rfl ?_
  have f0_6 : field (128) 0 6 = 0 := rfl
  have f6_3 : field (128) 6 3 = 2 := rfl
  have f9_5 : field (128) 9 5 = 0 := rfl
  rw [packT_b_zero]
  rw [row6 (lo := 1) (packI_op (by omega) (by omega) (by omega) 28 (by decide)) (packI_op (by omega) (by omega) (by omega) 24 (by decide))]
  simp (disch := omega) [decode6, ggg, amo, packI_low, packI_a, packI_d, f0_6, f6_3, f9_5, r32_val, inClass_val, inRange_val, ofNat_val, unused_nil, unused_cons]
theorem rel (a : GReg) : Statement (.rel a) := by
  refine of_row rfl ?_
  have f0_6 : field (192) 0 6 = 0 := rfl
  have f6_3 : field (192) 6 3 = 3 := rfl
  have f9_5 : field (192) 9 5 = 0 := rfl
  rw [packT_b_zero]
  rw [row6 (lo := 1) (packI_op (by omega) (by omega) (by omega) 28 (by decide)) (packI_op (by omega) (by omega) (by omega) 24 (by decide))]
  simp (disch := omega) [decode6, ggg, amo, packI_low, packI_a, packI_d, f0_6, f6_3, f9_5, r32_val, inClass_val, inRange_val, ofNat_val, unused_nil, unused_cons]
theorem bind (d : GReg) (a : GReg) (b : GReg) (s : BitVec 3) : Statement (.bind d a b s) := by
  refine of_row rfl ?_
  have f0_3 : field (s.toNat) 0 3 = s.toNat := field_all (by omega)
  have f0_6 : field (s.toNat) 0 6 = s.toNat := field_all (by omega)
  have f3_3 : field (s.toNat) 3 3 = 0 := by unfold field; omega
  have f6_3 : field (s.toNat) 6 3 = 0 := by unfold field; omega
  rw [row6 (lo := 2) (packT_op (by omega) (by omega) (by omega) (by omega) 28 (by decide)) (packT_op (by omega) (by omega) (by omega) (by omega) 24 (by decide))]
  simp (disch := omega) [decode6, ggg, amo, packT_low, packT_b, packT_a, packT_d, f0_3, f0_6, f3_3, f6_3, r32_val, inClass_val, inRange_val, ofNat_val, unused_nil, unused_cons]
theorem unbind (d : GReg) (a : GReg) : Statement (.unbind d a) := by
  refine of_row rfl ?_
  have f0_3 : field (64) 0 3 = 0 := rfl
  have f0_6 : field (64) 0 6 = 0 := rfl
  have f3_3 : field (64) 3 3 = 0 := rfl
  have f6_3 : field (64) 6 3 = 1 := rfl
  have f9_5 : field (64) 9 5 = 0 := rfl
  rw [packT_b_zero]
  rw [row6 (lo := 2) (packI_op (by omega) (by omega) (by omega) 28 (by decide)) (packI_op (by omega) (by omega) (by omega) 24 (by decide))]
  simp (disch := omega) [decode6, ggg, amo, packI_low, packI_a, packI_d, f0_3, f0_6, f3_3, f6_3, f9_5, r32_val, inClass_val, inRange_val, ofNat_val, unused_nil, unused_cons]
theorem fence (t : Fin 5) (s : BitVec 3) : Statement (.fence t s) := by
  refine of_row rfl ?_
  have f0_3 : field (t.1 * 8 + s.toNat) 0 3 = s.toNat := by unfold field; omega
  have f3_3 : field (t.1 * 8 + s.toNat) 3 3 = t.1 := by unfold field; omega
  have f6_18 : field (t.1 * 8 + s.toNat) 6 18 = 0 := by unfold field; omega
  rw [packT_b_zero, packI_a_zero, packL_d_zero]
  rw [row6 (lo := 3) (packJ_op (by omega) 28 (by decide)) (packJ_op (by omega) 24 (by decide))]
  simp (disch := omega) [decode6, ggg, amo, packJ_low, f0_3, f3_3, f6_18, r32_val, inClass_val, inRange_val, ofNat_val, unused_nil, unused_cons]
theorem pfenceCore : Statement .pfenceCore := by
  refine of_row rfl ?_
  have f0_1 : field (0) 0 1 = 0 := rfl
  have f1_23 : field (0) 1 23 = 0 := rfl
  rw [packT_b_zero, packI_a_zero, packL_d_zero]
  rw [row6 (lo := 4) (packJ_op (by omega) 28 (by decide)) (packJ_op (by omega) 24 (by decide))]
  simp (disch := omega) [decode6, ggg, amo, bitOf, beq_one, toNat_one, packJ_low, f0_1, f1_23, r32_val, inClass_val, inRange_val, ofNat_val, unused_nil, unused_cons]
theorem pfenceDie : Statement .pfenceDie := by
  refine of_row rfl ?_
  have f0_1 : field (1) 0 1 = 1 := rfl
  have f1_23 : field (1) 1 23 = 0 := rfl
  rw [packT_b_zero, packI_a_zero, packL_d_zero]
  rw [row6 (lo := 4) (packJ_op (by omega) 28 (by decide)) (packJ_op (by omega) 24 (by decide))]
  simp (disch := omega) [decode6, ggg, amo, bitOf, beq_one, toNat_one, packJ_low, f0_1, f1_23, r32_val, inClass_val, inRange_val, ofNat_val, unused_nil, unused_cons]
theorem drainst : Statement .drainst := by
  refine of_row rfl ?_
  have f0_24 : field (0) 0 24 = 0 := rfl
  rw [packT_b_zero, packI_a_zero, packL_d_zero]
  rw [row6 (lo := 5) (packJ_op (by omega) 28 (by decide)) (packJ_op (by omega) 24 (by decide))]
  simp (disch := omega) [decode6, ggg, amo, packJ_low, f0_24, r32_val, inClass_val, inRange_val, ofNat_val, unused_nil, unused_cons]
theorem bar : Statement .bar := by
  refine of_row rfl ?_
  have f0_24 : field (0) 0 24 = 0 := rfl
  rw [packT_b_zero, packI_a_zero, packL_d_zero]
  rw [row6 (lo := 6) (packJ_op (by omega) 28 (by decide)) (packJ_op (by omega) 24 (by decide))]
  simp (disch := omega) [decode6, ggg, amo, packJ_low, f0_24, r32_val, inClass_val, inRange_val, ofNat_val, unused_nil, unused_cons]
theorem pubhw (a : GReg) (b : GReg) : Statement (.pubhw a b) := by
  refine of_row rfl ?_
  have f0_1 : field (0) 0 1 = 0 := rfl
  have f1_8 : field (0) 1 8 = 0 := rfl
  rw [row6 (lo := 7) (packT_op (by omega) (by omega) (by omega) (by omega) 28 (by decide)) (packT_op (by omega) (by omega) (by omega) (by omega) 24 (by decide))]
  simp (disch := omega) [decode6, ggg, amo, bitOf, beq_one, toNat_one, packT_low, packT_b, packT_a, packT_d, f0_1, f1_8, r32_val, inClass_val, inRange_val, ofNat_val, unused_nil, unused_cons]
theorem pubhwFin (a : GReg) (b : GReg) : Statement (.pubhwFin a b) := by
  refine of_row rfl ?_
  have f0_1 : field (1) 0 1 = 1 := rfl
  have f1_8 : field (1) 1 8 = 0 := rfl
  rw [row6 (lo := 7) (packT_op (by omega) (by omega) (by omega) (by omega) 28 (by decide)) (packT_op (by omega) (by omega) (by omega) (by omega) 24 (by decide))]
  simp (disch := omega) [decode6, ggg, amo, bitOf, beq_one, toNat_one, packT_low, packT_b, packT_a, packT_d, f0_1, f1_8, r32_val, inClass_val, inRange_val, ofNat_val, unused_nil, unused_cons]
theorem launch (d : GReg) (a : GReg) (b : GReg) : Statement (.launch d a b) := by
  refine of_row rfl ?_
  have f0_9 : field (0) 0 9 = 0 := rfl
  rw [row6 (lo := 8) (packT_op (by omega) (by omega) (by omega) (by omega) 28 (by decide)) (packT_op (by omega) (by omega) (by omega) (by omega) 24 (by decide))]
  simp (disch := omega) [decode6, ggg, amo, packT_low, packT_b, packT_a, packT_d, f0_9, r32_val, inClass_val, inRange_val, ofNat_val, unused_nil, unused_cons]
theorem vcfg (d : VRegN) (i : BitVec 14) : Statement (.vcfg d i) := by
  refine of_row rfl ?_
  have f0_14 : field (i.toNat) 0 14 = i.toNat := field_all (by omega)
  have f14_5 : field (i.toNat) 14 5 = 0 := by unfold field; omega
  rw [packI_a_zero]
  rw [row7 (lo := 0) (packL_op (by omega) (by omega) 28 (by decide)) (packL_op (by omega) (by omega) 24 (by decide))]
  simp (disch := omega) [decode7, ggg, packL_low, packL_d, f0_14, f14_5, r32_val, inClass_val, inRange_val, ofNat_val, unused_nil, unused_cons]
theorem setvl (d : GReg) (a : GReg) (b : GReg) : Statement (.setvl d a b) := by
  refine of_row rfl ?_
  have f0_9 : field (0) 0 9 = 0 := rfl
  rw [row7 (lo := 1) (packT_op (by omega) (by omega) (by omega) (by omega) 28 (by decide)) (packT_op (by omega) (by omega) (by omega) (by omega) 24 (by decide))]
  simp (disch := omega) [decode7, ggg, packT_low, packT_b, packT_a, packT_d, f0_9, r32_val, inClass_val, inRange_val, ofNat_val, unused_nil, unused_cons]
theorem setmode (a : GReg) (k : BitVec 4) : Statement (.setmode a k) := by
  refine of_row rfl ?_
  have f0_4 : field (k.toNat) 0 4 = k.toNat := field_all (by omega)
  have f4_5 : field (k.toNat) 4 5 = 0 := by unfold field; omega
  have f9_5 : field (k.toNat) 9 5 = 0 := by unfold field; omega
  rw [packT_b_zero]
  rw [row7 (lo := 2) (packI_op (by omega) (by omega) (by omega) 28 (by decide)) (packI_op (by omega) (by omega) (by omega) 24 (by decide))]
  simp (disch := omega) [decode7, ggg, packI_low, packI_a, packI_d, f0_4, f4_5, f9_5, r32_val, inClass_val, inRange_val, ofNat_val, unused_nil, unused_cons]
theorem mmode (i : BitVec 14) : Statement (.mmode i) := by
  refine of_row rfl ?_
  have f0_14 : field (i.toNat) 0 14 = i.toNat := field_all (by omega)
  have f14_10 : field (i.toNat) 14 10 = 0 := by unfold field; omega
  rw [packI_a_zero, packL_d_zero]
  rw [row7 (lo := 3) (packJ_op (by omega) 28 (by decide)) (packJ_op (by omega) 24 (by decide))]
  simp (disch := omega) [decode7, ggg, packJ_low, f0_14, f14_10, r32_val, inClass_val, inRange_val, ofNat_val, unused_nil, unused_cons]
theorem vadd (d : VRegN) (a : VRegN) (b : Fin 32) (x : Bool) (s : Bool) : Statement (.vadd d a b x s) := by
  refine of_row rfl ?_
  have bx := x.toNat_lt
  have bs := s.toNat_lt
  have f0_1 : field (x.toNat * 2 + s.toNat) 0 1 = s.toNat := by unfold field; omega
  have f1_1 : field (x.toNat * 2 + s.toNat) 1 1 = x.toNat := by unfold field; omega
  have f2_7 : field (x.toNat * 2 + s.toNat) 2 7 = 0 := by unfold field; omega
  rw [row8 (lo := 0) (packT_op (by omega) (by omega) (by omega) (by omega) 28 (by decide)) (packT_op (by omega) (by omega) (by omega) (by omega) 24 (by decide))]
  simp (disch := omega) [decode8, vvxs, vv, bitOf, beq_one, toNat_one, packT_low, packT_b, packT_a, packT_d, f0_1, f1_1, f2_7, r32_val, inClass_val, inRange_val, ofNat_val, unused_nil, unused_cons]
theorem vsub (d : VRegN) (a : VRegN) (b : Fin 32) (x : Bool) (s : Bool) : Statement (.vsub d a b x s) := by
  refine of_row rfl ?_
  have bx := x.toNat_lt
  have bs := s.toNat_lt
  have f0_1 : field (x.toNat * 2 + s.toNat) 0 1 = s.toNat := by unfold field; omega
  have f1_1 : field (x.toNat * 2 + s.toNat) 1 1 = x.toNat := by unfold field; omega
  have f2_7 : field (x.toNat * 2 + s.toNat) 2 7 = 0 := by unfold field; omega
  rw [row8 (lo := 1) (packT_op (by omega) (by omega) (by omega) (by omega) 28 (by decide)) (packT_op (by omega) (by omega) (by omega) (by omega) 24 (by decide))]
  simp (disch := omega) [decode8, vvxs, vv, bitOf, beq_one, toNat_one, packT_low, packT_b, packT_a, packT_d, f0_1, f1_1, f2_7, r32_val, inClass_val, inRange_val, ofNat_val, unused_nil, unused_cons]
theorem vmul (d : VRegN) (a : VRegN) (b : Fin 32) (x : Bool) (s : Bool) : Statement (.vmul d a b x s) := by
  refine of_row rfl ?_
  have bx := x.toNat_lt
  have bs := s.toNat_lt
  have f0_1 : field (x.toNat * 2 + s.toNat) 0 1 = s.toNat := by unfold field; omega
  have f1_1 : field (x.toNat * 2 + s.toNat) 1 1 = x.toNat := by unfold field; omega
  have f2_7 : field (x.toNat * 2 + s.toNat) 2 7 = 0 := by unfold field; omega
  rw [row8 (lo := 2) (packT_op (by omega) (by omega) (by omega) (by omega) 28 (by decide)) (packT_op (by omega) (by omega) (by omega) (by omega) 24 (by decide))]
  simp (disch := omega) [decode8, vvxs, vv, bitOf, beq_one, toNat_one, packT_low, packT_b, packT_a, packT_d, f0_1, f1_1, f2_7, r32_val, inClass_val, inRange_val, ofNat_val, unused_nil, unused_cons]
theorem vmac (d : VRegN) (a : VRegN) (b : Fin 32) (x : Bool) (s : Bool) : Statement (.vmac d a b x s) := by
  refine of_row rfl ?_
  have bx := x.toNat_lt
  have bs := s.toNat_lt
  have f0_1 : field (x.toNat * 2 + s.toNat) 0 1 = s.toNat := by unfold field; omega
  have f1_1 : field (x.toNat * 2 + s.toNat) 1 1 = x.toNat := by unfold field; omega
  have f2_7 : field (x.toNat * 2 + s.toNat) 2 7 = 0 := by unfold field; omega
  rw [row8 (lo := 3) (packT_op (by omega) (by omega) (by omega) (by omega) 28 (by decide)) (packT_op (by omega) (by omega) (by omega) (by omega) 24 (by decide))]
  simp (disch := omega) [decode8, vvxs, vv, bitOf, beq_one, toNat_one, packT_low, packT_b, packT_a, packT_d, f0_1, f1_1, f2_7, r32_val, inClass_val, inRange_val, ofNat_val, unused_nil, unused_cons]
theorem vneg (d : VRegN) (a : VRegN) (s : Bool) : Statement (.vneg d a s) := by
  refine of_row rfl ?_
  have bs := s.toNat_lt
  have f0_1 : field (s.toNat) 0 1 = s.toNat := field_all (by omega)
  have f1_13 : field (s.toNat) 1 13 = 0 := by unfold field; omega
  rw [packT_b_zero]
  rw [row8 (lo := 4) (packI_op (by omega) (by omega) (by omega) 28 (by decide)) (packI_op (by omega) (by omega) (by omega) 24 (by decide))]
  simp (disch := omega) [decode8, vvxs, vv, bitOf, beq_one, toNat_one, packI_low, packI_a, packI_d, f0_1, f1_13, r32_val, inClass_val, inRange_val, ofNat_val, unused_nil, unused_cons]
theorem vabs (d : VRegN) (a : VRegN) (s : Bool) : Statement (.vabs d a s) := by
  refine of_row rfl ?_
  have bs := s.toNat_lt
  have f0_1 : field (s.toNat) 0 1 = s.toNat := field_all (by omega)
  have f1_13 : field (s.toNat) 1 13 = 0 := by unfold field; omega
  rw [packT_b_zero]
  rw [row8 (lo := 5) (packI_op (by omega) (by omega) (by omega) 28 (by decide)) (packI_op (by omega) (by omega) (by omega) 24 (by decide))]
  simp (disch := omega) [decode8, vvxs, vv, bitOf, beq_one, toNat_one, packI_low, packI_a, packI_d, f0_1, f1_13, r32_val, inClass_val, inRange_val, ofNat_val, unused_nil, unused_cons]
theorem vmin (d : VRegN) (a : VRegN) (b : Fin 32) (x : Bool) (s : Bool) : Statement (.vmin d a b x s) := by
  refine of_row rfl ?_
  have bx := x.toNat_lt
  have bs := s.toNat_lt
  have f0_1 : field (x.toNat * 2 + s.toNat) 0 1 = s.toNat := by unfold field; omega
  have f1_1 : field (x.toNat * 2 + s.toNat) 1 1 = x.toNat := by unfold field; omega
  have f2_4 : field (x.toNat * 2 + s.toNat) 2 4 = 0 := by unfold field; omega
  have f6_3 : field (x.toNat * 2 + s.toNat) 6 3 = 0 := by unfold field; omega
  rw [row8 (lo := 6) (packT_op (by omega) (by omega) (by omega) (by omega) 28 (by decide)) (packT_op (by omega) (by omega) (by omega) (by omega) 24 (by decide))]
  simp (disch := omega) [decode8, vvxs, vv, bitOf, beq_one, toNat_one, packT_low, packT_b, packT_a, packT_d, f0_1, f1_1, f2_4, f6_3, r32_val, inClass_val, inRange_val, ofNat_val, unused_nil, unused_cons]
theorem vmax (d : VRegN) (a : VRegN) (b : Fin 32) (x : Bool) (s : Bool) : Statement (.vmax d a b x s) := by
  refine of_row rfl ?_
  have bx := x.toNat_lt
  have bs := s.toNat_lt
  have f0_1 : field (64 + x.toNat * 2 + s.toNat) 0 1 = s.toNat := by unfold field; omega
  have f1_1 : field (64 + x.toNat * 2 + s.toNat) 1 1 = x.toNat := by unfold field; omega
  have f2_4 : field (64 + x.toNat * 2 + s.toNat) 2 4 = 0 := by unfold field; omega
  have f6_3 : field (64 + x.toNat * 2 + s.toNat) 6 3 = 1 := by unfold field; omega
  rw [row8 (lo := 6) (packT_op (by omega) (by omega) (by omega) (by omega) 28 (by decide)) (packT_op (by omega) (by omega) (by omega) (by omega) 24 (by decide))]
  simp (disch := omega) [decode8, vvxs, vv, bitOf, beq_one, toNat_one, packT_low, packT_b, packT_a, packT_d, f0_1, f1_1, f2_4, f6_3, r32_val, inClass_val, inRange_val, ofNat_val, unused_nil, unused_cons]
theorem vand (d : VRegN) (a : VRegN) (b : Fin 32) (x : Bool) : Statement (.vand d a b x) := by
  refine of_row rfl ?_
  have bx := x.toNat_lt
  have f0_1 : field (x.toNat * 2) 0 1 = 0 := by unfold field; omega
  have f1_1 : field (x.toNat * 2) 1 1 = x.toNat := by unfold field; omega
  have f2_7 : field (x.toNat * 2) 2 7 = 0 := by unfold field; omega
  rw [row8 (lo := 7) (packT_op (by omega) (by omega) (by omega) (by omega) 28 (by decide)) (packT_op (by omega) (by omega) (by omega) (by omega) 24 (by decide))]
  simp (disch := omega) [decode8, vvxs, vv, bitOf, beq_one, toNat_one, packT_low, packT_b, packT_a, packT_d, f0_1, f1_1, f2_7, r32_val, inClass_val, inRange_val, ofNat_val, unused_nil, unused_cons]
theorem vor (d : VRegN) (a : VRegN) (b : Fin 32) (x : Bool) : Statement (.vor d a b x) := by
  refine of_row rfl ?_
  have bx := x.toNat_lt
  have f0_1 : field (x.toNat * 2) 0 1 = 0 := by unfold field; omega
  have f1_1 : field (x.toNat * 2) 1 1 = x.toNat := by unfold field; omega
  have f2_7 : field (x.toNat * 2) 2 7 = 0 := by unfold field; omega
  rw [row8 (lo := 8) (packT_op (by omega) (by omega) (by omega) (by omega) 28 (by decide)) (packT_op (by omega) (by omega) (by omega) (by omega) 24 (by decide))]
  simp (disch := omega) [decode8, vvxs, vv, bitOf, beq_one, toNat_one, packT_low, packT_b, packT_a, packT_d, f0_1, f1_1, f2_7, r32_val, inClass_val, inRange_val, ofNat_val, unused_nil, unused_cons]
theorem vxor (d : VRegN) (a : VRegN) (b : Fin 32) (x : Bool) : Statement (.vxor d a b x) := by
  refine of_row rfl ?_
  have bx := x.toNat_lt
  have f0_1 : field (x.toNat * 2) 0 1 = 0 := by unfold field; omega
  have f1_1 : field (x.toNat * 2) 1 1 = x.toNat := by unfold field; omega
  have f2_7 : field (x.toNat * 2) 2 7 = 0 := by unfold field; omega
  rw [row8 (lo := 9) (packT_op (by omega) (by omega) (by omega) (by omega) 28 (by decide)) (packT_op (by omega) (by omega) (by omega) (by omega) 24 (by decide))]
  simp (disch := omega) [decode8, vvxs, vv, bitOf, beq_one, toNat_one, packT_low, packT_b, packT_a, packT_d, f0_1, f1_1, f2_7, r32_val, inClass_val, inRange_val, ofNat_val, unused_nil, unused_cons]
theorem vnot (d : VRegN) (a : VRegN) : Statement (.vnot d a) := by
  refine of_row rfl ?_
  have f0_14 : field (0) 0 14 = 0 := rfl
  rw [packT_b_zero]
  rw [row8 (lo := 10) (packI_op (by omega) (by omega) (by omega) 28 (by decide)) (packI_op (by omega) (by omega) (by omega) 24 (by decide))]
  simp (disch := omega) [decode8, vvxs, vv, packI_low, packI_a, packI_d, f0_14, r32_val, inClass_val, inRange_val, ofNat_val, unused_nil, unused_cons]
theorem vshl (d : VRegN) (a : VRegN) (s : Bool) (k : Fin 17) : Statement (.vshl d a s k) := by
  refine of_row rfl ?_
  have bs := s.toNat_lt
  have f0_5 : field (s.toNat * 32 + k.1) 0 5 = k.1 := by unfold field; omega
  have f5_1 : field (s.toNat * 32 + k.1) 5 1 = s.toNat := by unfold field; omega
  have f6_8 : field (s.toNat * 32 + k.1) 6 8 = 0 := by unfold field; omega
  rw [packT_b_zero]
  rw [row8 (lo := 11) (packI_op (by omega) (by omega) (by omega) 28 (by decide)) (packI_op (by omega) (by omega) (by omega) 24 (by decide))]
  simp (disch := omega) [decode8, vvxs, vv, bitOf, beq_one, toNat_one, packI_low, packI_a, packI_d, f0_5, f5_1, f6_8, r32_val, inClass_val, inRange_val, ofNat_val, unused_nil, unused_cons]
theorem vshr (d : VRegN) (a : VRegN) (k : Fin 17) : Statement (.vshr d a k) := by
  refine of_row rfl ?_
  have f0_5 : field (k.1) 0 5 = k.1 := by unfold field; omega
  have f5_9 : field (k.1) 5 9 = 0 := by unfold field; omega
  rw [packT_b_zero]
  rw [row8 (lo := 12) (packI_op (by omega) (by omega) (by omega) 28 (by decide)) (packI_op (by omega) (by omega) (by omega) 24 (by decide))]
  simp (disch := omega) [decode8, vvxs, vv, packI_low, packI_a, packI_d, f0_5, f5_9, r32_val, inClass_val, inRange_val, ofNat_val, unused_nil, unused_cons]
theorem vcmp (d : MReg) (a : VRegN) (b : Fin 32) (x : Bool) (c : Fin 6) : Statement (.vcmp d a b x c) := by
  refine of_row rfl ?_
  have bx := x.toNat_lt
  have f0_3 : field (x.toNat * 8 + c.1) 0 3 = c.1 := by unfold field; omega
  have f3_1 : field (x.toNat * 8 + c.1) 3 1 = x.toNat := by unfold field; omega
  have f4_5 : field (x.toNat * 8 + c.1) 4 5 = 0 := by unfold field; omega
  rw [row8 (lo := 13) (packT_op (by omega) (by omega) (by omega) (by omega) 28 (by decide)) (packT_op (by omega) (by omega) (by omega) (by omega) 24 (by decide))]
  simp (disch := omega) [decode8, vvxs, vv, bitOf, beq_one, toNat_one, packT_low, packT_b, packT_a, packT_d, f0_3, f3_1, f4_5, r32_val, inClass_val, inRange_val, ofNat_val, unused_nil, unused_cons]
theorem vsel (d : VRegN) (a : VRegN) (b : VRegN) (c : MReg) : Statement (.vsel d a b c) := by
  refine of_row rfl ?_
  have f0_3 : field (c.1) 0 3 = c.1 := by unfold field; omega
  have f3_6 : field (c.1) 3 6 = 0 := by unfold field; omega
  rw [row8 (lo := 14) (packT_op (by omega) (by omega) (by omega) (by omega) 28 (by decide)) (packT_op (by omega) (by omega) (by omega) (by omega) 24 (by decide))]
  simp (disch := omega) [decode8, vvxs, vv, bitOf, beq_one, toNat_one, packT_low, packT_b, packT_a, packT_d, f0_3, f3_6, r32_val, inClass_val, inRange_val, ofNat_val, unused_nil, unused_cons]
theorem vpopc (d : VRegN) (a : VRegN) : Statement (.vpopc d a) := by
  refine of_row rfl ?_
  have f0_14 : field (0) 0 14 = 0 := rfl
  rw [packT_b_zero]
  rw [row9 (lo := 0) (packI_op (by omega) (by omega) (by omega) 28 (by decide)) (packI_op (by omega) (by omega) (by omega) 24 (by decide))]
  simp (disch := omega) [decode9, vvxs, vv, packI_low, packI_a, packI_d, f0_14, r32_val, inClass_val, inRange_val, ofNat_val, unused_nil, unused_cons]
theorem vdot (d : GReg) (a : VRegN) (b : VRegN) : Statement (.vdot d a b) := by
  refine of_row rfl ?_
  have f0_1 : field (0) 0 1 = 0 := rfl
  have f0_9 : field (0) 0 9 = 0 := rfl
  have f1_1 : field (0) 1 1 = 0 := rfl
  rw [row9 (lo := 1) (packT_op (by omega) (by omega) (by omega) (by omega) 28 (by decide)) (packT_op (by omega) (by omega) (by omega) (by omega) 24 (by decide))]
  simp (disch := omega) [decode9, vvxs, vv, bitOf, beq_one, toNat_one, packT_low, packT_b, packT_a, packT_d, f0_1, f0_9, f1_1, r32_val, inClass_val, inRange_val, ofNat_val, unused_nil, unused_cons]
theorem vred (d : GReg) (a : VRegN) (o : Fin 6) : Statement (.vred d a o) := by
  refine of_row rfl ?_
  have f0_3 : field (o.1) 0 3 = o.1 := by unfold field; omega
  have f3_11 : field (o.1) 3 11 = 0 := by unfold field; omega
  rw [packT_b_zero]
  rw [row9 (lo := 2) (packI_op (by omega) (by omega) (by omega) 28 (by decide)) (packI_op (by omega) (by omega) (by omega) 24 (by decide))]
  simp (disch := omega) [decode9, vvxs, vv, packI_low, packI_a, packI_d, f0_3, f3_11, r32_val, inClass_val, inRange_val, ofNat_val, unused_nil, unused_cons]
theorem vscan (d : VRegN) (a : VRegN) (s : Bool) (x : Bool) : Statement (.vscan d a s x) := by
  refine of_row rfl ?_
  have bs := s.toNat_lt
  have bx := x.toNat_lt
  have f0_1 : field (s.toNat * 2 + x.toNat) 0 1 = x.toNat := by unfold field; omega
  have f1_1 : field (s.toNat * 2 + x.toNat) 1 1 = s.toNat := by unfold field; omega
  have f2_12 : field (s.toNat * 2 + x.toNat) 2 12 = 0 := by unfold field; omega
  rw [packT_b_zero]
  rw [row9 (lo := 3) (packI_op (by omega) (by omega) (by omega) 28 (by decide)) (packI_op (by omega) (by omega) (by omega) 24 (by decide))]
  simp (disch := omega) [decode9, vvxs, vv, bitOf, beq_one, toNat_one, packI_low, packI_a, packI_d, f0_1, f1_1, f2_12, r32_val, inClass_val, inRange_val, ofNat_val, unused_nil, unused_cons]
theorem vcompress (d : VRegN) (a : VRegN) (c : MReg) : Statement (.vcompress d a c) := by
  refine of_row rfl ?_
  have f0_3 : field (c.1) 0 3 = c.1 := by unfold field; omega
  have f3_11 : field (c.1) 3 11 = 0 := by unfold field; omega
  rw [packT_b_zero]
  rw [row9 (lo := 4) (packI_op (by omega) (by omega) (by omega) 28 (by decide)) (packI_op (by omega) (by omega) (by omega) 24 (by decide))]
  simp (disch := omega) [decode9, vvxs, vv, packI_low, packI_a, packI_d, f0_3, f3_11, r32_val, inClass_val, inRange_val, ofNat_val, unused_nil, unused_cons]
theorem vexpand (d : VRegN) (a : VRegN) (c : MReg) : Statement (.vexpand d a c) := by
  refine of_row rfl ?_
  have f0_3 : field (c.1) 0 3 = c.1 := by unfold field; omega
  have f3_11 : field (c.1) 3 11 = 0 := by unfold field; omega
  rw [packT_b_zero]
  rw [row9 (lo := 5) (packI_op (by omega) (by omega) (by omega) 28 (by decide)) (packI_op (by omega) (by omega) (by omega) 24 (by decide))]
  simp (disch := omega) [decode9, vvxs, vv, packI_low, packI_a, packI_d, f0_3, f3_11, r32_val, inClass_val, inRange_val, ofNat_val, unused_nil, unused_cons]
theorem vslideDn (d : VRegN) (a : VRegN) (b : GReg) : Statement (.vslideDn d a b) := by
  refine of_row rfl ?_
  have f0_1 : field (0) 0 1 = 0 := rfl
  have f1_1 : field (0) 1 1 = 0 := rfl
  have f1_8 : field (0) 1 8 = 0 := rfl
  rw [row9 (lo := 6) (packT_op (by omega) (by omega) (by omega) (by omega) 28 (by decide)) (packT_op (by omega) (by omega) (by omega) (by omega) 24 (by decide))]
  simp (disch := omega) [decode9, vvxs, vv, bitOf, beq_one, toNat_one, packT_low, packT_b, packT_a, packT_d, f0_1, f1_1, f1_8, r32_val, inClass_val, inRange_val, ofNat_val, unused_nil, unused_cons]
theorem vslideUp (d : VRegN) (a : VRegN) (b : GReg) : Statement (.vslideUp d a b) := by
  refine of_row rfl ?_
  have f0_1 : field (1) 0 1 = 1 := rfl
  have f1_1 : field (1) 1 1 = 0 := rfl
  have f1_8 : field (1) 1 8 = 0 := rfl
  rw [row9 (lo := 6) (packT_op (by omega) (by omega) (by omega) (by omega) 28 (by decide)) (packT_op (by omega) (by omega) (by omega) (by omega) 24 (by decide))]
  simp (disch := omega) [decode9, vvxs, vv, bitOf, beq_one, toNat_one, packT_low, packT_b, packT_a, packT_d, f0_1, f1_1, f1_8, r32_val, inClass_val, inRange_val, ofNat_val, unused_nil, unused_cons]
theorem viota (d : VRegN) (c : MReg) : Statement (.viota d c) := by
  refine of_row rfl ?_
  have f0_3 : field (c.1) 0 3 = c.1 := by unfold field; omega
  have f3_1 : field (c.1) 3 1 = 0 := by unfold field; omega
  have f4_15 : field (c.1) 4 15 = 0 := by unfold field; omega
  rw [packT_b_zero, packI_a_zero]
  rw [row9 (lo := 7) (packL_op (by omega) (by omega) 28 (by decide)) (packL_op (by omega) (by omega) 24 (by decide))]
  simp (disch := omega) [decode9, vvxs, vv, bitOf, beq_one, toNat_one, packL_low, packL_d, f0_3, f3_1, f4_15, r32_val, inClass_val, inRange_val, ofNat_val, unused_nil, unused_cons]
theorem viotaIdx (d : VRegN) : Statement (.viotaIdx d) := by
  refine of_row rfl ?_
  have f0_3 : field (8) 0 3 = 0 := rfl
  have f3_1 : field (8) 3 1 = 1 := rfl
  have f4_15 : field (8) 4 15 = 0 := rfl
  rw [packT_b_zero, packI_a_zero]
  rw [row9 (lo := 7) (packL_op (by omega) (by omega) 28 (by decide)) (packL_op (by omega) (by omega) 24 (by decide))]
  simp (disch := omega) [decode9, vvxs, vv, bitOf, beq_one, toNat_one, packL_low, packL_d, f0_3, f3_1, f4_15, r32_val, inClass_val, inRange_val, ofNat_val, unused_nil, unused_cons]
theorem vmv (d : VRegN) (a : VRegN) : Statement (.vmv d a) := by
  refine of_row rfl ?_
  have f0_1 : field (0) 0 1 = 0 := rfl
  have f1_1 : field (0) 1 1 = 0 := rfl
  have f2_7 : field (0) 2 7 = 0 := rfl
  have f9_5 : field (0) 9 5 = 0 := rfl
  rw [packT_b_zero]
  rw [row9 (lo := 8) (packI_op (by omega) (by omega) (by omega) 28 (by decide)) (packI_op (by omega) (by omega) (by omega) 24 (by decide))]
  simp (disch := omega) [decode9, vvxs, vv, bitOf, beq_one, toNat_one, packI_low, packI_a, packI_d, f0_1, f1_1, f2_7, f9_5, r32_val, inClass_val, inRange_val, ofNat_val, unused_nil, unused_cons]
theorem vmvScalar (d : VRegN) (b : GReg) (s : Bool) : Statement (.vmvScalar d b s) := by
  refine of_row rfl ?_
  have bs := s.toNat_lt
  have f0_1 : field (2 + s.toNat) 0 1 = s.toNat := by unfold field; omega
  have f1_1 : field (2 + s.toNat) 1 1 = 1 := by unfold field; omega
  have f2_7 : field (2 + s.toNat) 2 7 = 0 := by unfold field; omega
  rw [row9 (lo := 8) (packT_op (by omega) (by omega) (by omega) (by omega) 28 (by decide)) (packT_op (by omega) (by omega) (by omega) (by omega) 24 (by decide))]
  simp (disch := omega) [decode9, vvxs, vv, bitOf, beq_one, toNat_one, packT_low, packT_b, packT_a, packT_d, f0_1, f1_1, f2_7, r32_val, inClass_val, inRange_val, ofNat_val, unused_nil, unused_cons]
theorem vwiden (d : VRegN) (a : VRegN) : Statement (.vwiden d a) := by
  refine of_row rfl ?_
  have f0_14 : field (0) 0 14 = 0 := rfl
  rw [packT_b_zero]
  rw [row9 (lo := 9) (packI_op (by omega) (by omega) (by omega) 28 (by decide)) (packI_op (by omega) (by omega) (by omega) 24 (by decide))]
  simp (disch := omega) [decode9, vvxs, vv, packI_low, packI_a, packI_d, f0_14, r32_val, inClass_val, inRange_val, ofNat_val, unused_nil, unused_cons]
theorem vnarrow (d : VRegN) (a : VRegN) (k : Fin 17) : Statement (.vnarrow d a k) := by
  refine of_row rfl ?_
  have f0_5 : field (k.1) 0 5 = k.1 := by unfold field; omega
  have f5_9 : field (k.1) 5 9 = 0 := by unfold field; omega
  rw [packT_b_zero]
  rw [row9 (lo := 10) (packI_op (by omega) (by omega) (by omega) 28 (by decide)) (packI_op (by omega) (by omega) (by omega) 24 (by decide))]
  simp (disch := omega) [decode9, vvxs, vv, packI_low, packI_a, packI_d, f0_5, f5_9, r32_val, inClass_val, inRange_val, ofNat_val, unused_nil, unused_cons]
theorem mand (d : MReg) (a : MReg) (b : MReg) : Statement (.mand d a b) := by
  refine of_row rfl ?_
  have f0_6 : field (0) 0 6 = 0 := rfl
  have f6_3 : field (0) 6 3 = 0 := rfl
  rw [rowA (lo := 0) (packT_op (by omega) (by omega) (by omega) (by omega) 28 (by decide)) (packT_op (by omega) (by omega) (by omega) (by omega) 24 (by decide))]
  simp (disch := omega) [decodeA, mmm, packT_low, packT_b, packT_a, packT_d, f0_6, f6_3, r32_val, inClass_val, inRange_val, ofNat_val, unused_nil, unused_cons]
theorem mor (d : MReg) (a : MReg) (b : MReg) : Statement (.mor d a b) := by
  refine of_row rfl ?_
  have f0_6 : field (64) 0 6 = 0 := rfl
  have f6_3 : field (64) 6 3 = 1 := rfl
  rw [rowA (lo := 0) (packT_op (by omega) (by omega) (by omega) (by omega) 28 (by decide)) (packT_op (by omega) (by omega) (by omega) (by omega) 24 (by decide))]
  simp (disch := omega) [decodeA, mmm, packT_low, packT_b, packT_a, packT_d, f0_6, f6_3, r32_val, inClass_val, inRange_val, ofNat_val, unused_nil, unused_cons]
theorem mxor (d : MReg) (a : MReg) (b : MReg) : Statement (.mxor d a b) := by
  refine of_row rfl ?_
  have f0_6 : field (128) 0 6 = 0 := rfl
  have f6_3 : field (128) 6 3 = 2 := rfl
  rw [rowA (lo := 0) (packT_op (by omega) (by omega) (by omega) (by omega) 28 (by decide)) (packT_op (by omega) (by omega) (by omega) (by omega) 24 (by decide))]
  simp (disch := omega) [decodeA, mmm, packT_low, packT_b, packT_a, packT_d, f0_6, f6_3, r32_val, inClass_val, inRange_val, ofNat_val, unused_nil, unused_cons]
theorem mnot (d : MReg) (a : MReg) : Statement (.mnot d a) := by
  refine of_row rfl ?_
  have f0_6 : field (192) 0 6 = 0 := rfl
  have f6_3 : field (192) 6 3 = 3 := rfl
  have f9_5 : field (192) 9 5 = 0 := rfl
  rw [packT_b_zero]
  rw [rowA (lo := 0) (packI_op (by omega) (by omega) (by omega) 28 (by decide)) (packI_op (by omega) (by omega) (by omega) 24 (by decide))]
  simp (disch := omega) [decodeA, mmm, packI_low, packI_a, packI_d, f0_6, f6_3, f9_5, r32_val, inClass_val, inRange_val, ofNat_val, unused_nil, unused_cons]
theorem mpopc (d : GReg) (a : MReg) : Statement (.mpopc d a) := by
  refine of_row rfl ?_
  have f0_14 : field (0) 0 14 = 0 := rfl
  rw [packT_b_zero]
  rw [rowA (lo := 1) (packI_op (by omega) (by omega) (by omega) 28 (by decide)) (packI_op (by omega) (by omega) (by omega) 24 (by decide))]
  simp (disch := omega) [decodeA, mmm, packI_low, packI_a, packI_d, f0_14, r32_val, inClass_val, inRange_val, ofNat_val, unused_nil, unused_cons]
theorem mfirst (d : GReg) (a : MReg) : Statement (.mfirst d a) := by
  refine of_row rfl ?_
  have f0_14 : field (0) 0 14 = 0 := rfl
  rw [packT_b_zero]
  rw [rowA (lo := 2) (packI_op (by omega) (by omega) (by omega) 28 (by decide)) (packI_op (by omega) (by omega) (by omega) 24 (by decide))]
  simp (disch := omega) [decodeA, mmm, packI_low, packI_a, packI_d, f0_14, r32_val, inClass_val, inRange_val, ofNat_val, unused_nil, unused_cons]
theorem tagmask (d : MReg) (t : Tag) : Statement (.tagmask d t) := by
  refine of_row rfl ?_
  have f0_6 : field (t.1) 0 6 = t.1 := by unfold field; omega
  have f6_13 : field (t.1) 6 13 = 0 := by unfold field; omega
  rw [packT_b_zero, packI_a_zero]
  rw [rowA (lo := 3) (packL_op (by omega) (by omega) 28 (by decide)) (packL_op (by omega) (by omega) 24 (by decide))]
  simp (disch := omega) [decodeA, mmm, packL_low, packL_d, f0_6, f6_13, r32_val, inClass_val, inRange_val, ofNat_val, unused_nil, unused_cons]
theorem vfadd (d : VRegN) (a : VRegN) (b : Fin 32) (x : Bool) (n : Bool) : Statement (.vfadd d a b x n) := by
  refine of_row rfl ?_
  have bx := x.toNat_lt
  have bn := n.toNat_lt
  have f0_1 : field (x.toNat * 2 + n.toNat) 0 1 = n.toNat := by unfold field; omega
  have f1_1 : field (x.toNat * 2 + n.toNat) 1 1 = x.toNat := by unfold field; omega
  have f2_7 : field (x.toNat * 2 + n.toNat) 2 7 = 0 := by unfold field; omega
  rw [rowB (lo := 0) (packT_op (by omega) (by omega) (by omega) (by omega) 28 (by decide)) (packT_op (by omega) (by omega) (by omega) (by omega) 24 (by decide))]
  simp (disch := omega) [decodeB, vvxs, vv, bitOf, beq_one, toNat_one, packT_low, packT_b, packT_a, packT_d, f0_1, f1_1, f2_7, r32_val, inClass_val, inRange_val, ofNat_val, unused_nil, unused_cons]
theorem vfmul (d : VRegN) (a : VRegN) (b : Fin 32) (x : Bool) : Statement (.vfmul d a b x) := by
  refine of_row rfl ?_
  have bx := x.toNat_lt
  have f0_1 : field (x.toNat * 2) 0 1 = 0 := by unfold field; omega
  have f1_1 : field (x.toNat * 2) 1 1 = x.toNat := by unfold field; omega
  have f2_7 : field (x.toNat * 2) 2 7 = 0 := by unfold field; omega
  rw [rowB (lo := 1) (packT_op (by omega) (by omega) (by omega) (by omega) 28 (by decide)) (packT_op (by omega) (by omega) (by omega) (by omega) 24 (by decide))]
  simp (disch := omega) [decodeB, vvxs, vv, bitOf, beq_one, toNat_one, packT_low, packT_b, packT_a, packT_d, f0_1, f1_1, f2_7, r32_val, inClass_val, inRange_val, ofNat_val, unused_nil, unused_cons]
theorem vfma (d : VRegN) (a : VRegN) (b : Fin 32) (x : Bool) (n : Bool) : Statement (.vfma d a b x n) := by
  refine of_row rfl ?_
  have bx := x.toNat_lt
  have bn := n.toNat_lt
  have f0_1 : field (x.toNat * 2 + n.toNat) 0 1 = n.toNat := by unfold field; omega
  have f1_1 : field (x.toNat * 2 + n.toNat) 1 1 = x.toNat := by unfold field; omega
  have f2_7 : field (x.toNat * 2 + n.toNat) 2 7 = 0 := by unfold field; omega
  rw [rowB (lo := 2) (packT_op (by omega) (by omega) (by omega) (by omega) 28 (by decide)) (packT_op (by omega) (by omega) (by omega) (by omega) 24 (by decide))]
  simp (disch := omega) [decodeB, vvxs, vv, bitOf, beq_one, toNat_one, packT_low, packT_b, packT_a, packT_d, f0_1, f1_1, f2_7, r32_val, inClass_val, inRange_val, ofNat_val, unused_nil, unused_cons]
theorem vfexp2 (d : VRegN) (a : VRegN) : Statement (.vfexp2 d a) := by
  refine of_row rfl ?_
  have f0_6 : field (0) 0 6 = 0 := rfl
  have f6_3 : field (0) 6 3 = 0 := rfl
  have f9_5 : field (0) 9 5 = 0 := rfl
  rw [packT_b_zero]
  rw [rowB (lo := 3) (packI_op (by omega) (by omega) (by omega) 28 (by decide)) (packI_op (by omega) (by omega) (by omega) 24 (by decide))]
  simp (disch := omega) [decodeB, vvxs, vv, packI_low, packI_a, packI_d, f0_6, f6_3, f9_5, r32_val, inClass_val, inRange_val, ofNat_val, unused_nil, unused_cons]
theorem vfrcp (d : VRegN) (a : VRegN) : Statement (.vfrcp d a) := by
  refine of_row rfl ?_
  have f0_6 : field (64) 0 6 = 0 := rfl
  have f6_3 : field (64) 6 3 = 1 := rfl
  have f9_5 : field (64) 9 5 = 0 := rfl
  rw [packT_b_zero]
  rw [rowB (lo := 3) (packI_op (by omega) (by omega) (by omega) 28 (by decide)) (packI_op (by omega) (by omega) (by omega) 24 (by decide))]
  simp (disch := omega) [decodeB, vvxs, vv, packI_low, packI_a, packI_d, f0_6, f6_3, f9_5, r32_val, inClass_val, inRange_val, ofNat_val, unused_nil, unused_cons]
theorem vfrsq (d : VRegN) (a : VRegN) : Statement (.vfrsq d a) := by
  refine of_row rfl ?_
  have f0_6 : field (128) 0 6 = 0 := rfl
  have f6_3 : field (128) 6 3 = 2 := rfl
  have f9_5 : field (128) 9 5 = 0 := rfl
  rw [packT_b_zero]
  rw [rowB (lo := 3) (packI_op (by omega) (by omega) (by omega) 28 (by decide)) (packI_op (by omega) (by omega) (by omega) 24 (by decide))]
  simp (disch := omega) [decodeB, vvxs, vv, packI_low, packI_a, packI_d, f0_6, f6_3, f9_5, r32_val, inClass_val, inRange_val, ofNat_val, unused_nil, unused_cons]
theorem vfmax (d : VRegN) (a : VRegN) (b : Fin 32) (x : Bool) (m : Bool) : Statement (.vfmax d a b x m) := by
  refine of_row rfl ?_
  have bx := x.toNat_lt
  have bm := m.toNat_lt
  have f0_1 : field (x.toNat * 2 + m.toNat) 0 1 = m.toNat := by unfold field; omega
  have f1_1 : field (x.toNat * 2 + m.toNat) 1 1 = x.toNat := by unfold field; omega
  have f2_7 : field (x.toNat * 2 + m.toNat) 2 7 = 0 := by unfold field; omega
  rw [rowB (lo := 4) (packT_op (by omega) (by omega) (by omega) (by omega) 28 (by decide)) (packT_op (by omega) (by omega) (by omega) (by omega) 24 (by decide))]
  simp (disch := omega) [decodeB, vvxs, vv, bitOf, beq_one, toNat_one, packT_low, packT_b, packT_a, packT_d, f0_1, f1_1, f2_7, r32_val, inClass_val, inRange_val, ofNat_val, unused_nil, unused_cons]
theorem vfcvt (d : VRegN) (a : VRegN) : Statement (.vfcvt d a) := by
  refine of_row rfl ?_
  have f0_14 : field (0) 0 14 = 0 := rfl
  rw [packT_b_zero]
  rw [rowB (lo := 5) (packI_op (by omega) (by omega) (by omega) 28 (by decide)) (packI_op (by omega) (by omega) (by omega) 24 (by decide))]
  simp (disch := omega) [decodeB, vvxs, vv, packI_low, packI_a, packI_d, f0_14, r32_val, inClass_val, inRange_val, ofNat_val, unused_nil, unused_cons]
theorem vsmax (d : VRegN) (a : VRegN) (b : FReg) (t : Bool) (c : TmReg) : Statement (.vsmax d a b t c) := by
  refine of_row rfl ?_
  have bt := t.toNat_lt
  have f0_2 : field (t.toNat * 4 + c.1) 0 2 = c.1 := by unfold field; omega
  have f2_1 : field (t.toNat * 4 + c.1) 2 1 = t.toNat := by unfold field; omega
  have f3_6 : field (t.toNat * 4 + c.1) 3 6 = 0 := by unfold field; omega
  rw [rowB (lo := 6) (packT_op (by omega) (by omega) (by omega) (by omega) 28 (by decide)) (packT_op (by omega) (by omega) (by omega) (by omega) 24 (by decide))]
  simp (disch := omega) [decodeB, vvxs, vv, bitOf, beq_one, toNat_one, packT_low, packT_b, packT_a, packT_d, f0_2, f2_1, f3_6, r32_val, inClass_val, inRange_val, ofNat_val, unused_nil, unused_cons]
theorem qstat (d : GReg) (a : VRegN) (s : Fin 16) : Statement (.qstat d a s) := by
  refine of_row rfl ?_
  have f0_4 : field (s.1) 0 4 = s.1 := by unfold field; omega
  have f4_10 : field (s.1) 4 10 = 0 := by unfold field; omega
  rw [packT_b_zero]
  rw [rowB (lo := 7) (packI_op (by omega) (by omega) (by omega) 28 (by decide)) (packI_op (by omega) (by omega) (by omega) 24 (by decide))]
  simp (disch := omega) [decodeB, vvxs, vv, packI_low, packI_a, packI_d, f0_4, f4_10, r32_val, inClass_val, inRange_val, ofNat_val, unused_nil, unused_cons]
theorem qscaleH (d : FReg) (b : VRegN) (s : Fin 16) : Statement (.qscaleH d b s) := by
  refine of_row rfl ?_
  have f0_4 : field (s.1) 0 4 = s.1 := by unfold field; omega
  have f4_2 : field (s.1) 4 2 = 0 := by unfold field; omega
  have f6_3 : field (s.1) 6 3 = 0 := by unfold field; omega
  rw [rowB (lo := 8) (packT_op (by omega) (by omega) (by omega) (by omega) 28 (by decide)) (packT_op (by omega) (by omega) (by omega) (by omega) 24 (by decide))]
  simp (disch := omega) [decodeB, vvxs, vv, packT_low, packT_b, packT_a, packT_d, f0_4, f4_2, f6_3, r32_val, inClass_val, inRange_val, ofNat_val, unused_nil, unused_cons]
theorem qscaleR (d : FReg) (a : VRegN) (b : VRegN) (s : Fin 16) : Statement (.qscaleR d a b s) := by
  refine of_row rfl ?_
  have f0_4 : field (16 + s.1) 0 4 = s.1 := by unfold field; omega
  have f4_2 : field (16 + s.1) 4 2 = 1 := by unfold field; omega
  have f6_3 : field (16 + s.1) 6 3 = 0 := by unfold field; omega
  rw [rowB (lo := 8) (packT_op (by omega) (by omega) (by omega) (by omega) 28 (by decide)) (packT_op (by omega) (by omega) (by omega) (by omega) 24 (by decide))]
  simp (disch := omega) [decodeB, vvxs, vv, packT_low, packT_b, packT_a, packT_d, f0_4, f4_2, f6_3, r32_val, inClass_val, inRange_val, ofNat_val, unused_nil, unused_cons]
theorem qscaleZ (s : Fin 16) : Statement (.qscaleZ s) := by
  refine of_row rfl ?_
  have f0_4 : field (32 + s.1) 0 4 = s.1 := by unfold field; omega
  have f4_2 : field (32 + s.1) 4 2 = 2 := by unfold field; omega
  have f6_3 : field (32 + s.1) 6 3 = 0 := by unfold field; omega
  have f9_5 : field (32 + s.1) 9 5 = 0 := by unfold field; omega
  have f9_15 : field (32 + s.1) 9 15 = 0 := by unfold field; omega
  have f14_5 : field (32 + s.1) 14 5 = 0 := by unfold field; omega
  have f19_5 : field (32 + s.1) 19 5 = 0 := by unfold field; omega
  rw [packT_b_zero, packI_a_zero, packL_d_zero]
  rw [rowB (lo := 8) (packJ_op (by omega) 28 (by decide)) (packJ_op (by omega) 24 (by decide))]
  simp (disch := omega) [decodeB, vvxs, vv, packJ_low, f0_4, f4_2, f6_3, f9_5, f9_15, f14_5, f19_5, r32_val, inClass_val, inRange_val, ofNat_val, unused_nil, unused_cons]
theorem quant (d : VRegN) (a : VRegN) (p : Fin 4) (q : Bool) (s : Fin 16) : Statement (.quant d a p q s) := by
  refine of_row rfl ?_
  have bq := q.toNat_lt
  have f0_4 : field (p.1 * 32 + q.toNat * 16 + s.1) 0 4 = s.1 := by unfold field; omega
  have f4_1 : field (p.1 * 32 + q.toNat * 16 + s.1) 4 1 = q.toNat := by unfold field; omega
  have f5_2 : field (p.1 * 32 + q.toNat * 16 + s.1) 5 2 = p.1 := by unfold field; omega
  have f7_7 : field (p.1 * 32 + q.toNat * 16 + s.1) 7 7 = 0 := by unfold field; omega
  rw [packT_b_zero]
  rw [rowB (lo := 9) (packI_op (by omega) (by omega) (by omega) 28 (by decide)) (packI_op (by omega) (by omega) (by omega) 24 (by decide))]
  simp (disch := omega) [decodeB, vvxs, vv, bitOf, beq_one, toNat_one, packI_low, packI_a, packI_d, f0_4, f4_1, f5_2, f7_7, r32_val, inClass_val, inRange_val, ofNat_val, unused_nil, unused_cons]
theorem ctab (a : VRegN) (t : Fin 4) : Statement (.ctab a t) := by
  refine of_row rfl ?_
  have f0_2 : field (t.1) 0 2 = t.1 := by unfold field; omega
  have f2_12 : field (t.1) 2 12 = 0 := by unfold field; omega
  rw [packT_b_zero]
  rw [rowB (lo := 10) (packI_op (by omega) (by omega) (by omega) 28 (by decide)) (packI_op (by omega) (by omega) (by omega) 24 (by decide))]
  simp (disch := omega) [decodeB, vvxs, vv, packI_low, packI_a, packI_d, f0_2, f2_12, r32_val, inClass_val, inRange_val, ofNat_val, unused_nil, unused_cons]
theorem clook (d : VRegN) (a : VRegN) (t : Fin 4) : Statement (.clook d a t) := by
  refine of_row rfl ?_
  have f0_2 : field (t.1) 0 2 = t.1 := by unfold field; omega
  have f2_12 : field (t.1) 2 12 = 0 := by unfold field; omega
  rw [packT_b_zero]
  rw [rowB (lo := 11) (packI_op (by omega) (by omega) (by omega) 28 (by decide)) (packI_op (by omega) (by omega) (by omega) 24 (by decide))]
  simp (disch := omega) [decodeB, vvxs, vv, packI_low, packI_a, packI_d, f0_2, f2_12, r32_val, inClass_val, inRange_val, ofNat_val, unused_nil, unused_cons]
theorem opa (d : AccN) (a : VRegN) (b : VRegN) (s : BitVec 6) : Statement (.opa d a b s) := by
  refine of_row rfl ?_
  have f0_6 : field (s.toNat) 0 6 = s.toNat := field_all (by omega)
  have f6_1 : field (s.toNat) 6 1 = 0 := by unfold field; omega
  have f7_2 : field (s.toNat) 7 2 = 0 := by unfold field; omega
  rw [rowC (lo := 0) (packT_op (by omega) (by omega) (by omega) (by omega) 28 (by decide)) (packT_op (by omega) (by omega) (by omega) (by omega) 24 (by decide))]
  simp (disch := omega) [decodeC, bitOf, beq_one, toNat_one, packT_low, packT_b, packT_a, packT_d, f0_6, f6_1, f7_2, r32_val, inClass_val, inRange_val, ofNat_val, unused_nil, unused_cons]
theorem opaAca (d : AccN) (a : AccN) (b : VRegN) (h : BitVec 2) (l : BitVec 6) : Statement (.opaAca d a b h l) := by
  refine of_row rfl ?_
  have f0_6 : field (h.toNat * 128 + 64 + l.toNat) 0 6 = l.toNat := by unfold field; omega
  have f6_1 : field (h.toNat * 128 + 64 + l.toNat) 6 1 = 1 := by unfold field; omega
  have f7_2 : field (h.toNat * 128 + 64 + l.toNat) 7 2 = h.toNat := by unfold field; omega
  rw [rowC (lo := 0) (packT_op (by omega) (by omega) (by omega) (by omega) 28 (by decide)) (packT_op (by omega) (by omega) (by omega) (by omega) 24 (by decide))]
  simp (disch := omega) [decodeC, bitOf, beq_one, toNat_one, packT_low, packT_b, packT_a, packT_d, f0_6, f6_1, f7_2, r32_val, inClass_val, inRange_val, ofNat_val, unused_nil, unused_cons]
theorem opaS (d : AccN) (a : VRegN) (b : VRegN) (g : Fin 4) (n : Fin 3) (i : VRegN) : Statement (.opaS d a b g n i) := by
  refine of_row rfl ?_
  have f0_5 : field (g.1 * 128 + n.1 * 32 + i.1) 0 5 = i.1 := by unfold field; omega
  have f5_2 : field (g.1 * 128 + n.1 * 32 + i.1) 5 2 = n.1 := by unfold field; omega
  have f7_2 : field (g.1 * 128 + n.1 * 32 + i.1) 7 2 = g.1 := by unfold field; omega
  rw [rowC (lo := 1) (packT_op (by omega) (by omega) (by omega) (by omega) 28 (by decide)) (packT_op (by omega) (by omega) (by omega) (by omega) 24 (by decide))]
  simp (disch := omega) [decodeC, packT_low, packT_b, packT_a, packT_d, f0_5, f5_2, f7_2, r32_val, inClass_val, inRange_val, ofNat_val, unused_nil, unused_cons]
theorem opaT (d : AccN) (a : VRegN) (b : VRegN) (c : TmReg) (s : BitVec 6) : Statement (.opaT d a b c s) := by
  refine of_row rfl ?_
  have f0_6 : field (c.1 * 64 + s.toNat) 0 6 = s.toNat := by unfold field; omega
  have f6_2 : field (c.1 * 64 + s.toNat) 6 2 = c.1 := by unfold field; omega
  have f8_1 : field (c.1 * 64 + s.toNat) 8 1 = 0 := by unfold field; omega
  rw [rowC (lo := 2) (packT_op (by omega) (by omega) (by omega) (by omega) 28 (by decide)) (packT_op (by omega) (by omega) (by omega) (by omega) 24 (by decide))]
  simp (disch := omega) [decodeC, packT_low, packT_b, packT_a, packT_d, f0_6, f6_2, f8_1, r32_val, inClass_val, inRange_val, ofNat_val, unused_nil, unused_cons]
theorem accz (d : AccN) : Statement (.accz d) := by
  refine of_row rfl ?_
  have f0_19 : field (0) 0 19 = 0 := rfl
  rw [packT_b_zero, packI_a_zero]
  rw [rowC (lo := 3) (packL_op (by omega) (by omega) 28 (by decide)) (packL_op (by omega) (by omega) 24 (by decide))]
  simp (disch := omega) [decodeC, packL_low, packL_d, f0_19, r32_val, inClass_val, inRange_val, ofNat_val, unused_nil, unused_cons]
theorem accrd (d : VRegN) (a : AccN) (c : Bool) (r : BitVec 8) : Statement (.accrd d a c r) := by
  refine of_row rfl ?_
  have bc := c.toNat_lt
  have f0_8 : field (c.toNat * 256 + r.toNat) 0 8 = r.toNat := by unfold field; omega
  have f8_1 : field (c.toNat * 256 + r.toNat) 8 1 = c.toNat := by unfold field; omega
  have f9_5 : field (c.toNat * 256 + r.toNat) 9 5 = 0 := by unfold field; omega
  rw [packT_b_zero]
  rw [rowC (lo := 4) (packI_op (by omega) (by omega) (by omega) 28 (by decide)) (packI_op (by omega) (by omega) (by omega) 24 (by decide))]
  simp (disch := omega) [decodeC, bitOf, beq_one, toNat_one, packI_low, packI_a, packI_d, f0_8, f8_1, f9_5, r32_val, inClass_val, inRange_val, ofNat_val, unused_nil, unused_cons]
theorem drain (d : AccN) (a : GReg) (b : GReg) : Statement (.drain d a b) := by
  refine of_row rfl ?_
  have f0_9 : field (0) 0 9 = 0 := rfl
  rw [rowC (lo := 5) (packT_op (by omega) (by omega) (by omega) (by omega) 28 (by decide)) (packT_op (by omega) (by omega) (by omega) (by omega) 24 (by decide))]
  simp (disch := omega) [decodeC, packT_low, packT_b, packT_a, packT_d, f0_9, r32_val, inClass_val, inRange_val, ofNat_val, unused_nil, unused_cons]
theorem scout (d : AccN) (a : VRegN) (b : VRegN) (e : GReg) (p : Fin 4) : Statement (.scout d a b e p) := by
  refine of_row rfl ?_
  have f0_2 : field (e.1 * 4 + p.1) 0 2 = p.1 := by unfold field; omega
  have f2_5 : field (e.1 * 4 + p.1) 2 5 = e.1 := by unfold field; omega
  have f7_2 : field (e.1 * 4 + p.1) 7 2 = 0 := by unfold field; omega
  rw [rowC (lo := 6) (packT_op (by omega) (by omega) (by omega) (by omega) 28 (by decide)) (packT_op (by omega) (by omega) (by omega) (by omega) 24 (by decide))]
  simp (disch := omega) [decodeC, packT_low, packT_b, packT_a, packT_d, f0_2, f2_5, f7_2, r32_val, inClass_val, inRange_val, ofNat_val, unused_nil, unused_cons]
theorem thresh (d : TmReg) (a : AccN) (b : GReg) (g : Bool) (c : GReg) : Statement (.thresh d a b g c) := by
  refine of_row rfl ?_
  have bg := g.toNat_lt
  have f0_5 : field (g.toNat * 32 + c.1) 0 5 = c.1 := by unfold field; omega
  have f5_1 : field (g.toNat * 32 + c.1) 5 1 = g.toNat := by unfold field; omega
  have f6_3 : field (g.toNat * 32 + c.1) 6 3 = 0 := by unfold field; omega
  rw [rowC (lo := 7) (packT_op (by omega) (by omega) (by omega) (by omega) 28 (by decide)) (packT_op (by omega) (by omega) (by omega) (by omega) 24 (by decide))]
  simp (disch := omega) [decodeC, bitOf, beq_one, toNat_one, packT_low, packT_b, packT_a, packT_d, f0_5, f5_1, f6_3, r32_val, inClass_val, inRange_val, ofNat_val, unused_nil, unused_cons]
theorem tmand (d : TmReg) (a : TmReg) (b : TmReg) (n : Bool) : Statement (.tmand d a b n) := by
  refine of_row rfl ?_
  have bn := n.toNat_lt
  have f0_1 : field (n.toNat) 0 1 = n.toNat := field_all (by omega)
  have f0_6 : field (n.toNat) 0 6 = n.toNat := field_all (by omega)
  have f1_5 : field (n.toNat) 1 5 = 0 := by unfold field; omega
  have f6_3 : field (n.toNat) 6 3 = 0 := by unfold field; omega
  rw [rowC (lo := 8) (packT_op (by omega) (by omega) (by omega) (by omega) 28 (by decide)) (packT_op (by omega) (by omega) (by omega) (by omega) 24 (by decide))]
  simp (disch := omega) [decodeC, bitOf, beq_one, toNat_one, packT_low, packT_b, packT_a, packT_d, f0_1, f0_6, f1_5, f6_3, r32_val, inClass_val, inRange_val, ofNat_val, unused_nil, unused_cons]
theorem tmpopc (d : GReg) (a : TmReg) : Statement (.tmpopc d a) := by
  refine of_row rfl ?_
  have f0_1 : field (64) 0 1 = 0 := rfl
  have f0_6 : field (64) 0 6 = 0 := rfl
  have f1_5 : field (64) 1 5 = 0 := rfl
  have f6_3 : field (64) 6 3 = 1 := rfl
  have f9_5 : field (64) 9 5 = 0 := rfl
  rw [packT_b_zero]
  rw [rowC (lo := 8) (packI_op (by omega) (by omega) (by omega) 28 (by decide)) (packI_op (by omega) (by omega) (by omega) 24 (by decide))]
  simp (disch := omega) [decodeC, bitOf, beq_one, toNat_one, packI_low, packI_a, packI_d, f0_1, f0_6, f1_5, f6_3, f9_5, r32_val, inClass_val, inRange_val, ofNat_val, unused_nil, unused_cons]
theorem vld (d : VRegN) (a : GReg) (b : GReg) (c : GReg) (l : Bool) : Statement (.vld d a b c l) := by
  refine of_row rfl ?_
  have bl := l.toNat_lt
  have f0_1 : field (c.1 * 4 + l.toNat) 0 1 = l.toNat := by unfold field; omega
  have f0_2 : field (c.1 * 4 + l.toNat) 0 2 = l.toNat := by unfold field; omega
  have f2_5 : field (c.1 * 4 + l.toNat) 2 5 = c.1 := by unfold field; omega
  have f7_2 : field (c.1 * 4 + l.toNat) 7 2 = 0 := by unfold field; omega
  rw [rowD (lo := 0) (packT_op (by omega) (by omega) (by omega) (by omega) 28 (by decide)) (packT_op (by omega) (by omega) (by omega) (by omega) 24 (by decide))]
  simp (disch := omega) [decodeD, vmemRow, gatherRow, bitOf, beq_one, toNat_one, packT_low, packT_b, packT_a, packT_d, f0_1, f0_2, f2_5, f7_2, r32_val, inClass_val, inRange_val, ofNat_val, unused_nil, unused_cons]
theorem vldCompressed (d : VRegN) (a : GReg) (b : GReg) (c : GReg) : Statement (.vldCompressed d a b c) := by
  refine of_row rfl ?_
  have f0_1 : field (c.1 * 4 + 2) 0 1 = 0 := by unfold field; omega
  have f0_2 : field (c.1 * 4 + 2) 0 2 = 2 := by unfold field; omega
  have f2_5 : field (c.1 * 4 + 2) 2 5 = c.1 := by unfold field; omega
  have f7_2 : field (c.1 * 4 + 2) 7 2 = 0 := by unfold field; omega
  rw [rowD (lo := 0) (packT_op (by omega) (by omega) (by omega) (by omega) 28 (by decide)) (packT_op (by omega) (by omega) (by omega) (by omega) 24 (by decide))]
  simp (disch := omega) [decodeD, vmemRow, gatherRow, bitOf, beq_one, toNat_one, packT_low, packT_b, packT_a, packT_d, f0_1, f0_2, f2_5, f7_2, r32_val, inClass_val, inRange_val, ofNat_val, unused_nil, unused_cons]
theorem vldPop (d : VRegN) (a : SqN) : Statement (.vldPop d a) := by
  refine of_row rfl ?_
  have f0_1 : field (3) 0 1 = 1 := rfl
  have f0_2 : field (3) 0 2 = 3 := rfl
  have f2_5 : field (3) 2 5 = 0 := rfl
  have f7_2 : field (3) 7 2 = 0 := rfl
  have f9_5 : field (3) 9 5 = 0 := rfl
  rw [packT_b_zero]
  rw [rowD (lo := 0) (packI_op (by omega) (by omega) (by omega) 28 (by decide)) (packI_op (by omega) (by omega) (by omega) 24 (by decide))]
  simp (disch := omega) [decodeD, vmemRow, gatherRow, bitOf, beq_one, toNat_one, packI_low, packI_a, packI_d, f0_1, f0_2, f2_5, f7_2, f9_5, r32_val, inClass_val, inRange_val, ofNat_val, unused_nil, unused_cons]
theorem vst (d : VRegN) (a : GReg) (b : GReg) (c : GReg) (l : Bool) : Statement (.vst d a b c l) := by
  refine of_row rfl ?_
  have bl := l.toNat_lt
  have f0_1 : field (c.1 * 4 + l.toNat) 0 1 = l.toNat := by unfold field; omega
  have f1_1 : field (c.1 * 4 + l.toNat) 1 1 = 0 := by unfold field; omega
  have f2_5 : field (c.1 * 4 + l.toNat) 2 5 = c.1 := by unfold field; omega
  have f7_2 : field (c.1 * 4 + l.toNat) 7 2 = 0 := by unfold field; omega
  rw [rowD (lo := 1) (packT_op (by omega) (by omega) (by omega) (by omega) 28 (by decide)) (packT_op (by omega) (by omega) (by omega) (by omega) 24 (by decide))]
  simp (disch := omega) [decodeD, vmemRow, gatherRow, bitOf, beq_one, toNat_one, packT_low, packT_b, packT_a, packT_d, f0_1, f1_1, f2_5, f7_2, r32_val, inClass_val, inRange_val, ofNat_val, unused_nil, unused_cons]
theorem vgather (d : VRegN) (a : GReg) (b : VRegN) (c : GReg) : Statement (.vgather d a b c) := by
  refine of_row rfl ?_
  have f0_5 : field (c.1) 0 5 = c.1 := by unfold field; omega
  have f5_4 : field (c.1) 5 4 = 0 := by unfold field; omega
  rw [rowD (lo := 2) (packT_op (by omega) (by omega) (by omega) (by omega) 28 (by decide)) (packT_op (by omega) (by omega) (by omega) (by omega) 24 (by decide))]
  simp (disch := omega) [decodeD, vmemRow, gatherRow, packT_low, packT_b, packT_a, packT_d, f0_5, f5_4, r32_val, inClass_val, inRange_val, ofNat_val, unused_nil, unused_cons]
theorem vscatterOrd (d : VRegN) (a : GReg) (b : VRegN) (c : GReg) : Statement (.vscatterOrd d a b c) := by
  refine of_row rfl ?_
  have f0_5 : field (c.1) 0 5 = c.1 := by unfold field; omega
  have f5_1 : field (c.1) 5 1 = 0 := by unfold field; omega
  have f6_3 : field (c.1) 6 3 = 0 := by unfold field; omega
  rw [rowD (lo := 3) (packT_op (by omega) (by omega) (by omega) (by omega) 28 (by decide)) (packT_op (by omega) (by omega) (by omega) (by omega) 24 (by decide))]
  simp (disch := omega) [decodeD, vmemRow, gatherRow, packT_low, packT_b, packT_a, packT_d, f0_5, f5_1, f6_3, r32_val, inClass_val, inRange_val, ofNat_val, unused_nil, unused_cons]
theorem vscatterUno (d : VRegN) (a : GReg) (b : VRegN) (c : GReg) : Statement (.vscatterUno d a b c) := by
  refine of_row rfl ?_
  have f0_5 : field (64 + c.1) 0 5 = c.1 := by unfold field; omega
  have f5_1 : field (64 + c.1) 5 1 = 0 := by unfold field; omega
  have f6_3 : field (64 + c.1) 6 3 = 1 := by unfold field; omega
  rw [rowD (lo := 3) (packT_op (by omega) (by omega) (by omega) (by omega) 28 (by decide)) (packT_op (by omega) (by omega) (by omega) (by omega) 24 (by decide))]
  simp (disch := omega) [decodeD, vmemRow, gatherRow, packT_low, packT_b, packT_a, packT_d, f0_5, f5_1, f6_3, r32_val, inClass_val, inRange_val, ofNat_val, unused_nil, unused_cons]
theorem cpy (a : GReg) (b : VRegN) (r : Fin 7) (t : Tag) : Statement (.cpy a b r t) := by
  refine of_row rfl ?_
  have f0_6 : field (r.1 * 64 + t.1) 0 6 = t.1 := by unfold field; omega
  have f6_3 : field (r.1 * 64 + t.1) 6 3 = r.1 := by unfold field; omega
  rw [rowD (lo := 4) (packT_op (by omega) (by omega) (by omega) (by omega) 28 (by decide)) (packT_op (by omega) (by omega) (by omega) (by omega) 24 (by decide))]
  simp (disch := omega) [decodeD, vmemRow, gatherRow, packT_low, packT_b, packT_a, packT_d, f0_6, f6_3, r32_val, inClass_val, inRange_val, ofNat_val, unused_nil, unused_cons]
theorem cpyx (a : GReg) (b : VRegN) (r : Fin 7) (t : Tag) : Statement (.cpyx a b r t) := by
  refine of_row rfl ?_
  have f0_6 : field (r.1 * 64 + t.1) 0 6 = t.1 := by unfold field; omega
  have f6_3 : field (r.1 * 64 + t.1) 6 3 = r.1 := by unfold field; omega
  rw [rowD (lo := 5) (packT_op (by omega) (by omega) (by omega) (by omega) 28 (by decide)) (packT_op (by omega) (by omega) (by omega) (by omega) 24 (by decide))]
  simp (disch := omega) [decodeD, vmemRow, gatherRow, packT_low, packT_b, packT_a, packT_d, f0_6, f6_3, r32_val, inClass_val, inRange_val, ofNat_val, unused_nil, unused_cons]
theorem waitany (d : GReg) (a : GReg) : Statement (.waitany d a) := by
  refine of_row rfl ?_
  have f0_6 : field (0) 0 6 = 0 := rfl
  have f6_3 : field (0) 6 3 = 0 := rfl
  have f9_5 : field (0) 9 5 = 0 := rfl
  rw [packT_b_zero]
  rw [rowD (lo := 6) (packI_op (by omega) (by omega) (by omega) 28 (by decide)) (packI_op (by omega) (by omega) (by omega) 24 (by decide))]
  simp (disch := omega) [decodeD, vmemRow, gatherRow, packI_low, packI_a, packI_d, f0_6, f6_3, f9_5, r32_val, inClass_val, inRange_val, ofNat_val, unused_nil, unused_cons]
theorem waitall (a : GReg) : Statement (.waitall a) := by
  refine of_row rfl ?_
  have f0_6 : field (64) 0 6 = 0 := rfl
  have f6_3 : field (64) 6 3 = 1 := rfl
  have f9_5 : field (64) 9 5 = 0 := rfl
  rw [packT_b_zero]
  rw [rowD (lo := 6) (packI_op (by omega) (by omega) (by omega) 28 (by decide)) (packI_op (by omega) (by omega) (by omega) 24 (by decide))]
  simp (disch := omega) [decodeD, vmemRow, gatherRow, packI_low, packI_a, packI_d, f0_6, f6_3, f9_5, r32_val, inClass_val, inRange_val, ofNat_val, unused_nil, unused_cons]
theorem ffrdy (d : GReg) (a : GReg) : Statement (.ffrdy d a) := by
  refine of_row rfl ?_
  have f0_6 : field (128) 0 6 = 0 := rfl
  have f6_3 : field (128) 6 3 = 2 := rfl
  have f9_5 : field (128) 9 5 = 0 := rfl
  rw [packT_b_zero]
  rw [rowD (lo := 6) (packI_op (by omega) (by omega) (by omega) 28 (by decide)) (packI_op (by omega) (by omega) (by omega) 24 (by decide))]
  simp (disch := omega) [decodeD, vmemRow, gatherRow, packI_low, packI_a, packI_d, f0_6, f6_3, f9_5, r32_val, inClass_val, inRange_val, ofNat_val, unused_nil, unused_cons]
theorem tagcnt (d : GReg) (t : Tag) : Statement (.tagcnt d t) := by
  refine of_row rfl ?_
  have f0_6 : field (192 + t.1) 0 6 = t.1 := by unfold field; omega
  have f6_3 : field (192 + t.1) 6 3 = 3 := by unfold field; omega
  have f9_5 : field (192 + t.1) 9 5 = 0 := by unfold field; omega
  have f9_10 : field (192 + t.1) 9 10 = 0 := by unfold field; omega
  have f14_5 : field (192 + t.1) 14 5 = 0 := by unfold field; omega
  rw [packT_b_zero, packI_a_zero]
  rw [rowD (lo := 6) (packL_op (by omega) (by omega) 28 (by decide)) (packL_op (by omega) (by omega) 24 (by decide))]
  simp (disch := omega) [decodeD, vmemRow, gatherRow, packL_low, packL_d, f0_6, f6_3, f9_5, f9_10, f14_5, r32_val, inClass_val, inRange_val, ofNat_val, unused_nil, unused_cons]
theorem commit (t : Tag) : Statement (.commit t) := by
  refine of_row rfl ?_
  have f0_6 : field (t.1) 0 6 = t.1 := by unfold field; omega
  have f6_18 : field (t.1) 6 18 = 0 := by unfold field; omega
  rw [packT_b_zero, packI_a_zero, packL_d_zero]
  rw [rowD (lo := 7) (packJ_op (by omega) 28 (by decide)) (packJ_op (by omega) 24 (by decide))]
  simp (disch := omega) [decodeD, vmemRow, gatherRow, packJ_low, f0_6, f6_18, r32_val, inClass_val, inRange_val, ofNat_val, unused_nil, unused_cons]
theorem sqopen (d : SqN) (a : GReg) (b : GReg) (f : Bool) : Statement (.sqopen d a b f) := by
  refine of_row rfl ?_
  have bf := f.toNat_lt
  have f0_1 : field (f.toNat) 0 1 = f.toNat := field_all (by omega)
  have f0_6 : field (f.toNat) 0 6 = f.toNat := field_all (by omega)
  have f1_5 : field (f.toNat) 1 5 = 0 := by unfold field; omega
  have f6_3 : field (f.toNat) 6 3 = 0 := by unfold field; omega
  rw [rowD (lo := 8) (packT_op (by omega) (by omega) (by omega) (by omega) 28 (by decide)) (packT_op (by omega) (by omega) (by omega) (by omega) 24 (by decide))]
  simp (disch := omega) [decodeD, vmemRow, gatherRow, bitOf, beq_one, toNat_one, packT_low, packT_b, packT_a, packT_d, f0_1, f0_6, f1_5, f6_3, r32_val, inClass_val, inRange_val, ofNat_val, unused_nil, unused_cons]
theorem sqadv (d : SqN) (a : GReg) : Statement (.sqadv d a) := by
  refine of_row rfl ?_
  have f0_1 : field (64) 0 1 = 0 := rfl
  have f0_6 : field (64) 0 6 = 0 := rfl
  have f1_5 : field (64) 1 5 = 0 := rfl
  have f6_3 : field (64) 6 3 = 1 := rfl
  have f9_5 : field (64) 9 5 = 0 := rfl
  rw [packT_b_zero]
  rw [rowD (lo := 8) (packI_op (by omega) (by omega) (by omega) 28 (by decide)) (packI_op (by omega) (by omega) (by omega) 24 (by decide))]
  simp (disch := omega) [decodeD, vmemRow, gatherRow, bitOf, beq_one, toNat_one, packI_low, packI_a, packI_d, f0_1, f0_6, f1_5, f6_3, f9_5, r32_val, inClass_val, inRange_val, ofNat_val, unused_nil, unused_cons]
theorem sqend (d : SqN) : Statement (.sqend d) := by
  refine of_row rfl ?_
  have f0_1 : field (128) 0 1 = 0 := rfl
  have f0_6 : field (128) 0 6 = 0 := rfl
  have f1_5 : field (128) 1 5 = 0 := rfl
  have f6_3 : field (128) 6 3 = 2 := rfl
  have f9_5 : field (128) 9 5 = 0 := rfl
  have f9_10 : field (128) 9 10 = 0 := rfl
  have f14_5 : field (128) 14 5 = 0 := rfl
  rw [packT_b_zero, packI_a_zero]
  rw [rowD (lo := 8) (packL_op (by omega) (by omega) 28 (by decide)) (packL_op (by omega) (by omega) 24 (by decide))]
  simp (disch := omega) [decodeD, vmemRow, gatherRow, bitOf, beq_one, toNat_one, packL_low, packL_d, f0_1, f0_6, f1_5, f6_3, f9_5, f9_10, f14_5, r32_val, inClass_val, inRange_val, ofNat_val, unused_nil, unused_cons]
theorem sqclose (d : SqN) : Statement (.sqclose d) := by
  refine of_row rfl ?_
  have f0_1 : field (192) 0 1 = 0 := rfl
  have f0_6 : field (192) 0 6 = 0 := rfl
  have f1_5 : field (192) 1 5 = 0 := rfl
  have f6_3 : field (192) 6 3 = 3 := rfl
  have f9_5 : field (192) 9 5 = 0 := rfl
  have f9_10 : field (192) 9 10 = 0 := rfl
  have f14_5 : field (192) 14 5 = 0 := rfl
  rw [packT_b_zero, packI_a_zero]
  rw [rowD (lo := 8) (packL_op (by omega) (by omega) 28 (by decide)) (packL_op (by omega) (by omega) 24 (by decide))]
  simp (disch := omega) [decodeD, vmemRow, gatherRow, bitOf, beq_one, toNat_one, packL_low, packL_d, f0_1, f0_6, f1_5, f6_3, f9_5, f9_10, f14_5, r32_val, inClass_val, inRange_val, ofNat_val, unused_nil, unused_cons]
theorem microOpIssue (mesh : Nat) (unit : ExUnit) (sid : Nat) : Statement (.microOpIssue mesh unit sid) := of_none rfl
theorem elementGroupComplete (mesh : Nat) (unit : ExUnit) : Statement (.elementGroupComplete mesh unit) := of_none rfl
theorem trapEntry (t : TrapInfo) : Statement (.trapEntry t) := of_none rfl
theorem storeQueueTranslate (mesh : Nat) (sid : Nat) : Statement (.storeQueueTranslate mesh sid) := of_none rfl
theorem waitForWriteWake (mesh : Nat) (sid : Nat) : Statement (.waitForWriteWake mesh sid) := of_none rfl
theorem tableWalk (mesh ctx : Nat) (priv : Bool) (kind : Access) (va : Word) : Statement (.tableWalk mesh ctx priv kind va) := of_none rfl
theorem accessPerform (p : Performed) : Statement (.accessPerform p) := of_none rfl
theorem dramAccess (bk : BankId) : Statement (.dramAccess bk) := of_none rfl
theorem backoffEnd (bk : BankId) : Statement (.backoffEnd bk) := of_none rfl
theorem refresh (bk : BankId) : Statement (.refresh bk) := of_none rfl
theorem refreshEnd (bk : BankId) : Statement (.refreshEnd bk) := of_none rfl
theorem rowIdleClose (bk : BankId) : Statement (.rowIdleClose bk) := of_none rfl
theorem hbmTempSample (die : Nat) (ctrl : Nat) (celsius : Int) : Statement (.hbmTempSample die ctrl celsius) := of_none rfl
theorem refreshModeChange (die : Nat) (ctrl : Nat) : Statement (.refreshModeChange die ctrl) := of_none rfl
theorem thermSample (die : Nat) (island : Nat) (milliCelsius : Int) : Statement (.thermSample die island milliCelsius) := of_none rfl
theorem persistEntryStart (die : Nat) : Statement (.persistEntryStart die) := of_none rfl
theorem persistEntryDurable (die : Nat) : Statement (.persistEntryDurable die) := of_none rfl
theorem shadowInterval (mesh : Nat) : Statement (.shadowInterval mesh) := of_none rfl
theorem shadowWrite (mesh : Nat) : Statement (.shadowWrite mesh) := of_none rfl
theorem shadowSeal (mesh : Nat) : Statement (.shadowSeal mesh) := of_none rfl
theorem pdreq (mesh : Nat) : Statement (.pdreq mesh) := of_none rfl
theorem pupreq (mesh : Nat) : Statement (.pupreq mesh) := of_none rfl
theorem plannedPowerDown (mesh : Nat) : Statement (.plannedPowerDown mesh) := of_none rfl
theorem powerUp (mesh : Nat) : Statement (.powerUp mesh) := of_none rfl
theorem coreLoss (mesh : Nat) : Statement (.coreLoss mesh) := of_none rfl
theorem coreSupplyRestored (mesh : Nat) : Statement (.coreSupplyRestored mesh) := of_none rfl
theorem resumeTimeout (mesh : Nat) : Statement (.resumeTimeout mesh) := of_none rfl
theorem packageLoss : Statement .packageLoss := of_none rfl
theorem idlePowerDown (mesh : Nat) : Statement (.idlePowerDown mesh) := of_none rfl
theorem registerWrite (die : Nat) (off : Nat) (size : Nat) (value : Word) : Statement (.registerWrite die off size value) := of_none rfl
theorem tiqhi (value : Word) : Statement (.tiqhi value) := of_none rfl
theorem invalidationComplete : Statement .invalidationComplete := of_none rfl
theorem doorbell (die : Nat) (q : Nat) (value : BitVec 32) : Statement (.doorbell die q value) := of_none rfl
theorem queueEnable (die : Nat) (q : Nat) : Statement (.queueEnable die q) := of_none rfl
theorem queueDisable (die : Nat) (q : Nat) : Statement (.queueDisable die q) := of_none rfl
theorem slotAccept (die : Nat) (q : Nat) : Statement (.slotAccept die q) := of_none rfl
theorem dependenceRead (cand : Nat) : Statement (.dependenceRead cand) := of_none rfl
theorem placement : Statement .placement := of_none rfl
theorem preemption (launch : Nat) : Statement (.preemption launch) := of_none rfl
theorem stateSaveComplete (launch : Nat) : Statement (.stateSaveComplete launch) := of_none rfl
theorem wgterm (value : Word) : Statement (.wgterm value) := of_none rfl
theorem sfpop : Statement .sfpop := of_none rfl
theorem grantPeriod (die : Nat) (draws : Draws) : Statement (.grantPeriod die draws) := of_none rfl
theorem marginTrip (mesh : Nat) (group : Nat) (highest : Bool) : Statement (.marginTrip mesh group highest) := of_none rfl
theorem poisonDetect (p : PoisonAt) : Statement (.poisonDetect p) := of_none rfl
theorem copyAccept (mesh : Nat) : Statement (.copyAccept mesh) := of_none rfl
theorem copyChunk (mesh : Nat) (t : Tag) (chunk : Nat) : Statement (.copyChunk mesh t chunk) := of_none rfl
theorem calicoTimeLimit (mesh : Nat) (t : Tag) : Statement (.calicoTimeLimit mesh t) := of_none rfl
theorem streamRefill (mesh : Nat) (sid : Nat) (sq : SqN) (block : Nat) : Statement (.streamRefill mesh sid sq block) := of_none rfl
theorem flitTimeout (die : Nat) (port : Nat) : Statement (.flitTimeout die port) := of_none rfl
theorem remoteAccessArrival (port : Nat) (first : Bool) (r : RemoteAccess) : Statement (.remoteAccessArrival port first r) := of_none rfl
theorem hostMemRead (off : Nat) (len : Nat) : Statement (.hostMemRead off len) := of_none rfl
theorem hostMemWrite (off : Nat) (bytes : List (BitVec 8)) : Statement (.hostMemWrite off bytes) := of_none rfl
theorem counterFlush (die : Nat) : Statement (.counterFlush die) := of_none rfl
theorem dieReset (die : Nat) : Statement (.dieReset die) := of_none rfl
theorem stageComplete (die : Nat) (r : StageResult) : Statement (.stageComplete die r) := of_none rfl
theorem stageTimeout (die : Nat) : Statement (.stageTimeout die) := of_none rfl
theorem bootlock (die : Nat) : Statement (.bootlock die) := of_none rfl
theorem setcap (watts : Word) : Statement (.setcap watts) := of_none rfl
theorem setfloor (part : Word) (watts : Word) : Statement (.setfloor part watts) := of_none rfl
theorem allot (part : Word) (mask : Word) : Statement (.allot part mask) := of_none rfl
theorem power (mesh : Word) (dir : Word) : Statement (.power mesh dir) := of_none rfl
theorem resume (pa : Word) : Statement (.resume pa) := of_none rfl
theorem fwload (addr : Word) (len : Word) : Statement (.fwload addr len) := of_none rfl
theorem calico (cluster : Word) (slot : Word) (addr : Word) (len : Word) : Statement (.calico cluster slot addr len) := of_none rfl
theorem flush : Statement .flush := of_none rfl
theorem restart : Statement .restart := of_none rfl
theorem mailboxComplete : Statement .mailboxComplete := of_none rfl
theorem getVersion (req : List (BitVec 8)) : Statement (.getVersion req) := of_none rfl
theorem getCapabilities (req : List (BitVec 8)) : Statement (.getCapabilities req) := of_none rfl
theorem negotiateAlgorithms (req : List (BitVec 8)) : Statement (.negotiateAlgorithms req) := of_none rfl
theorem getDigests (req : List (BitVec 8)) : Statement (.getDigests req) := of_none rfl
theorem getCertificate (req : List (BitVec 8)) : Statement (.getCertificate req) := of_none rfl
theorem challenge (req : List (BitVec 8)) : Statement (.challenge req) := of_none rfl
theorem getMeasurements (req : List (BitVec 8)) : Statement (.getMeasurements req) := of_none rfl
theorem chainPortLinkChange (die : Nat) (port : Nat) (up : Bool) (nbr : BitVec 12) : Statement (.chainPortLinkChange die port up nbr) := of_none rfl
theorem remoteReply (id : Nat) (r : ReplyKind) : Statement (.remoteReply id r) := of_none rfl
theorem cxlCacheSnoop (pa : Nat) (takeBack : Bool) : Statement (.cxlCacheSnoop pa takeBack) := of_none rfl

end Sys2Proof.Laws.EncodeDecode
end

