-- ==== Sys2Proof/Laws/State.lean ====
section
/-! SUPPORT. What each update of the state leaves of every field, and how registers read after they are written. -/

namespace Sys2Proof.Machine

/-! ## Updates of the strand, of its core, of other cores and of dies -/

@[simp] theorem onMe_core (f : Strand → Strand) (s : State) : (onMe f s).core = s.core := rfl
@[simp] theorem onMe_cores (f : Strand → Strand) (s : State) : (onMe f s).cores = s.cores := rfl
@[simp] theorem onMe_mem (f : Strand → Strand) (s : State) : (onMe f s).mem = s.mem := rfl
@[simp] theorem onMe_durable (f : Strand → Strand) (s : State) : (onMe f s).durable = s.durable := rfl
@[simp] theorem onMe_dies (f : Strand → Strand) (s : State) : (onMe f s).dies = s.dies := rfl
@[simp] theorem onMe_ctxbase (f : Strand → Strand) (s : State) : (onMe f s).ctxbase = s.ctxbase := rfl
@[simp] theorem onMe_tiqlo (f : Strand → Strand) (s : State) : (onMe f s).tiqlo = s.tiqlo := rfl
@[simp] theorem onMe_tiqhi (f : Strand → Strand) (s : State) : (onMe f s).tiqhi = s.tiqhi := rfl
@[simp] theorem onMe_tiqseq (f : Strand → Strand) (s : State) : (onMe f s).tiqseq = s.tiqseq := rfl
@[simp] theorem onMe_tiqdone (f : Strand → Strand) (s : State) : (onMe f s).tiqdone = s.tiqdone := rfl
@[simp] theorem onMe_tiqErr (f : Strand → Strand) (s : State) : (onMe f s).tiqErr = s.tiqErr := rfl
@[simp] theorem onMe_tiqOvf (f : Strand → Strand) (s : State) : (onMe f s).tiqOvf = s.tiqOvf := rfl
@[simp] theorem onMe_tiq (f : Strand → Strand) (s : State) : (onMe f s).tiq = s.tiq := rfl
@[simp] theorem onMe_grants (f : Strand → Strand) (s : State) : (onMe f s).grants = s.grants := rfl
@[simp] theorem onMe_parts (f : Strand → Strand) (s : State) : (onMe f s).parts = s.parts := rfl
@[simp] theorem onMe_cap (f : Strand → Strand) (s : State) : (onMe f s).cap = s.cap := rfl
@[simp] theorem onMe_chainid (f : Strand → Strand) (s : State) : (onMe f s).chainid = s.chainid := rfl
@[simp] theorem onMe_cntbase (f : Strand → Strand) (s : State) : (onMe f s).cntbase = s.cntbase := rfl
@[simp] theorem onMe_routes (f : Strand → Strand) (s : State) : (onMe f s).routes = s.routes := rfl
@[simp] theorem onMe_mailbox (f : Strand → Strand) (s : State) : (onMe f s).mailbox = s.mailbox := rfl
@[simp] theorem onMe_fuse (f : Strand → Strand) (s : State) : (onMe f s).fuse = s.fuse := rfl
@[simp] theorem onMe_pendingFuse (f : Strand → Strand) (s : State) : (onMe f s).pendingFuse = s.pendingFuse := rfl
@[simp] theorem onMe_firmware (f : Strand → Strand) (s : State) : (onMe f s).firmware = s.firmware := rfl
@[simp] theorem onMe_locked (f : Strand → Strand) (s : State) : (onMe f s).locked = s.locked := rfl
@[simp] theorem onMe_launches (f : Strand → Strand) (s : State) : (onMe f s).launches = s.launches := rfl
@[simp] theorem onMe_replays (f : Strand → Strand) (s : State) : (onMe f s).replays = s.replays := rfl
@[simp] theorem onMe_order (f : Strand → Strand) (s : State) : (onMe f s).order = s.order := rfl
@[simp] theorem onMe_images (f : Strand → Strand) (s : State) : (onMe f s).images = s.images := rfl
@[simp] theorem onMe_saved (f : Strand → Strand) (s : State) : (onMe f s).saved = s.saved := rfl
@[simp] theorem onMe_remote (f : Strand → Strand) (s : State) : (onMe f s).remote = s.remote := rfl
@[simp] theorem onMe_remoteNext (f : Strand → Strand) (s : State) : (onMe f s).remoteNext = s.remoteNext := rfl
@[simp] theorem onMe_doe (f : Strand → Strand) (s : State) : (onMe f s).doe = s.doe := rfl
@[simp] theorem onMe_hostAnswer (f : Strand → Strand) (s : State) : (onMe f s).hostAnswer = s.hostAnswer := rfl
@[simp] theorem onMe_hostPoison (f : Strand → Strand) (s : State) : (onMe f s).hostPoison = s.hostPoison := rfl
@[simp] theorem onMe_hostOwned (f : Strand → Strand) (s : State) : (onMe f s).hostOwned = s.hostOwned := rfl
@[simp] theorem onMe_hostStale (f : Strand → Strand) (s : State) : (onMe f s).hostStale = s.hostStale := rfl
@[simp] theorem onMe_replies (f : Strand → Strand) (s : State) : (onMe f s).replies = s.replies := rfl
@[simp] theorem onMe_agenda (f : Strand → Strand) (s : State) : (onMe f s).agenda = s.agenda := rfl
@[simp] theorem onMe_pace (f : Strand → Strand) (s : State) : (onMe f s).pace = s.pace := rfl
@[simp] theorem onMe_free (f : Strand → Strand) (s : State) : (onMe f s).free = s.free := rfl
@[simp] theorem onMe_quota (f : Strand → Strand) (s : State) : (onMe f s).quota = s.quota := rfl
@[simp] theorem onMe_watches (f : Strand → Strand) (s : State) : (onMe f s).watches = s.watches := rfl
@[simp] theorem onMe_bad (f : Strand → Strand) (s : State) : (onMe f s).bad = s.bad := rfl
@[simp] theorem onMe_remotePubs (f : Strand → Strand) (s : State) : (onMe f s).remotePubs = s.remotePubs := rfl
@[simp] theorem onMe_hostBad (f : Strand → Strand) (s : State) : (onMe f s).hostBad = s.hostBad := rfl
@[simp] theorem onCore_me (f : Core → Core) (s : State) : (onCore f s).me = s.me := rfl
@[simp] theorem onCore_cores (f : Core → Core) (s : State) : (onCore f s).cores = s.cores := rfl
@[simp] theorem onCore_mem (f : Core → Core) (s : State) : (onCore f s).mem = s.mem := rfl
@[simp] theorem onCore_durable (f : Core → Core) (s : State) : (onCore f s).durable = s.durable := rfl
@[simp] theorem onCore_dies (f : Core → Core) (s : State) : (onCore f s).dies = s.dies := rfl
@[simp] theorem onCore_ctxbase (f : Core → Core) (s : State) : (onCore f s).ctxbase = s.ctxbase := rfl
@[simp] theorem onCore_tiqlo (f : Core → Core) (s : State) : (onCore f s).tiqlo = s.tiqlo := rfl
@[simp] theorem onCore_tiqhi (f : Core → Core) (s : State) : (onCore f s).tiqhi = s.tiqhi := rfl
@[simp] theorem onCore_tiqseq (f : Core → Core) (s : State) : (onCore f s).tiqseq = s.tiqseq := rfl
@[simp] theorem onCore_tiqdone (f : Core → Core) (s : State) : (onCore f s).tiqdone = s.tiqdone := rfl
@[simp] theorem onCore_tiqErr (f : Core → Core) (s : State) : (onCore f s).tiqErr = s.tiqErr := rfl
@[simp] theorem onCore_tiqOvf (f : Core → Core) (s : State) : (onCore f s).tiqOvf = s.tiqOvf := rfl
@[simp] theorem onCore_tiq (f : Core → Core) (s : State) : (onCore f s).tiq = s.tiq := rfl
@[simp] theorem onCore_grants (f : Core → Core) (s : State) : (onCore f s).grants = s.grants := rfl
@[simp] theorem onCore_parts (f : Core → Core) (s : State) : (onCore f s).parts = s.parts := rfl
@[simp] theorem onCore_cap (f : Core → Core) (s : State) : (onCore f s).cap = s.cap := rfl
@[simp] theorem onCore_chainid (f : Core → Core) (s : State) : (onCore f s).chainid = s.chainid := rfl
@[simp] theorem onCore_cntbase (f : Core → Core) (s : State) : (onCore f s).cntbase = s.cntbase := rfl
@[simp] theorem onCore_routes (f : Core → Core) (s : State) : (onCore f s).routes = s.routes := rfl
@[simp] theorem onCore_mailbox (f : Core → Core) (s : State) : (onCore f s).mailbox = s.mailbox := rfl
@[simp] theorem onCore_fuse (f : Core → Core) (s : State) : (onCore f s).fuse = s.fuse := rfl
@[simp] theorem onCore_pendingFuse (f : Core → Core) (s : State) : (onCore f s).pendingFuse = s.pendingFuse := rfl
@[simp] theorem onCore_firmware (f : Core → Core) (s : State) : (onCore f s).firmware = s.firmware := rfl
@[simp] theorem onCore_locked (f : Core → Core) (s : State) : (onCore f s).locked = s.locked := rfl
@[simp] theorem onCore_launches (f : Core → Core) (s : State) : (onCore f s).launches = s.launches := rfl
@[simp] theorem onCore_replays (f : Core → Core) (s : State) : (onCore f s).replays = s.replays := rfl
@[simp] theorem onCore_order (f : Core → Core) (s : State) : (onCore f s).order = s.order := rfl
@[simp] theorem onCore_images (f : Core → Core) (s : State) : (onCore f s).images = s.images := rfl
@[simp] theorem onCore_saved (f : Core → Core) (s : State) : (onCore f s).saved = s.saved := rfl
@[simp] theorem onCore_remote (f : Core → Core) (s : State) : (onCore f s).remote = s.remote := rfl
@[simp] theorem onCore_remoteNext (f : Core → Core) (s : State) : (onCore f s).remoteNext = s.remoteNext := rfl
@[simp] theorem onCore_doe (f : Core → Core) (s : State) : (onCore f s).doe = s.doe := rfl
@[simp] theorem onCore_hostAnswer (f : Core → Core) (s : State) : (onCore f s).hostAnswer = s.hostAnswer := rfl
@[simp] theorem onCore_hostPoison (f : Core → Core) (s : State) : (onCore f s).hostPoison = s.hostPoison := rfl
@[simp] theorem onCore_hostOwned (f : Core → Core) (s : State) : (onCore f s).hostOwned = s.hostOwned := rfl
@[simp] theorem onCore_hostStale (f : Core → Core) (s : State) : (onCore f s).hostStale = s.hostStale := rfl
@[simp] theorem onCore_replies (f : Core → Core) (s : State) : (onCore f s).replies = s.replies := rfl
@[simp] theorem onCore_agenda (f : Core → Core) (s : State) : (onCore f s).agenda = s.agenda := rfl
@[simp] theorem onCore_pace (f : Core → Core) (s : State) : (onCore f s).pace = s.pace := rfl
@[simp] theorem onCore_free (f : Core → Core) (s : State) : (onCore f s).free = s.free := rfl
@[simp] theorem onCore_quota (f : Core → Core) (s : State) : (onCore f s).quota = s.quota := rfl
@[simp] theorem onCore_watches (f : Core → Core) (s : State) : (onCore f s).watches = s.watches := rfl
@[simp] theorem onCore_bad (f : Core → Core) (s : State) : (onCore f s).bad = s.bad := rfl
@[simp] theorem onCore_remotePubs (f : Core → Core) (s : State) : (onCore f s).remotePubs = s.remotePubs := rfl
@[simp] theorem onCore_hostBad (f : Core → Core) (s : State) : (onCore f s).hostBad = s.hostBad := rfl
@[simp] theorem onMe_me (f : Strand → Strand) (s : State) : (onMe f s).me = f s.me := rfl
@[simp] theorem onCore_core (f : Core → Core) (s : State) : (onCore f s).core = f s.core := rfl
@[simp] theorem modCore_me (m : Nat) (f : Core → Core) (s : State) : (modCore m f s).me = s.me := by
  unfold modCore; split <;> rfl
@[simp] theorem modCore_mem (m : Nat) (f : Core → Core) (s : State) : (modCore m f s).mem = s.mem := by
  unfold modCore; split <;> rfl
@[simp] theorem modCore_durable (m : Nat) (f : Core → Core) (s : State) : (modCore m f s).durable = s.durable := by
  unfold modCore; split <;> rfl
@[simp] theorem modCore_dies (m : Nat) (f : Core → Core) (s : State) : (modCore m f s).dies = s.dies := by
  unfold modCore; split <;> rfl
@[simp] theorem modCore_ctxbase (m : Nat) (f : Core → Core) (s : State) : (modCore m f s).ctxbase = s.ctxbase := by
  unfold modCore; split <;> rfl
@[simp] theorem modCore_tiqlo (m : Nat) (f : Core → Core) (s : State) : (modCore m f s).tiqlo = s.tiqlo := by
  unfold modCore; split <;> rfl
@[simp] theorem modCore_tiqhi (m : Nat) (f : Core → Core) (s : State) : (modCore m f s).tiqhi = s.tiqhi := by
  unfold modCore; split <;> rfl
@[simp] theorem modCore_tiqseq (m : Nat) (f : Core → Core) (s : State) : (modCore m f s).tiqseq = s.tiqseq := by
  unfold modCore; split <;> rfl
@[simp] theorem modCore_tiqdone (m : Nat) (f : Core → Core) (s : State) : (modCore m f s).tiqdone = s.tiqdone := by
  unfold modCore; split <;> rfl
@[simp] theorem modCore_tiqErr (m : Nat) (f : Core → Core) (s : State) : (modCore m f s).tiqErr = s.tiqErr := by
  unfold modCore; split <;> rfl
@[simp] theorem modCore_tiqOvf (m : Nat) (f : Core → Core) (s : State) : (modCore m f s).tiqOvf = s.tiqOvf := by
  unfold modCore; split <;> rfl
@[simp] theorem modCore_tiq (m : Nat) (f : Core → Core) (s : State) : (modCore m f s).tiq = s.tiq := by
  unfold modCore; split <;> rfl
@[simp] theorem modCore_grants (m : Nat) (f : Core → Core) (s : State) : (modCore m f s).grants = s.grants := by
  unfold modCore; split <;> rfl
@[simp] theorem modCore_parts (m : Nat) (f : Core → Core) (s : State) : (modCore m f s).parts = s.parts := by
  unfold modCore; split <;> rfl
@[simp] theorem modCore_cap (m : Nat) (f : Core → Core) (s : State) : (modCore m f s).cap = s.cap := by
  unfold modCore; split <;> rfl
@[simp] theorem modCore_chainid (m : Nat) (f : Core → Core) (s : State) : (modCore m f s).chainid = s.chainid := by
  unfold modCore; split <;> rfl
@[simp] theorem modCore_cntbase (m : Nat) (f : Core → Core) (s : State) : (modCore m f s).cntbase = s.cntbase := by
  unfold modCore; split <;> rfl
@[simp] theorem modCore_routes (m : Nat) (f : Core → Core) (s : State) : (modCore m f s).routes = s.routes := by
  unfold modCore; split <;> rfl
@[simp] theorem modCore_mailbox (m : Nat) (f : Core → Core) (s : State) : (modCore m f s).mailbox = s.mailbox := by
  unfold modCore; split <;> rfl
@[simp] theorem modCore_fuse (m : Nat) (f : Core → Core) (s : State) : (modCore m f s).fuse = s.fuse := by
  unfold modCore; split <;> rfl
@[simp] theorem modCore_pendingFuse (m : Nat) (f : Core → Core) (s : State) : (modCore m f s).pendingFuse = s.pendingFuse := by
  unfold modCore; split <;> rfl
@[simp] theorem modCore_firmware (m : Nat) (f : Core → Core) (s : State) : (modCore m f s).firmware = s.firmware := by
  unfold modCore; split <;> rfl
@[simp] theorem modCore_locked (m : Nat) (f : Core → Core) (s : State) : (modCore m f s).locked = s.locked := by
  unfold modCore; split <;> rfl
@[simp] theorem modCore_launches (m : Nat) (f : Core → Core) (s : State) : (modCore m f s).launches = s.launches := by
  unfold modCore; split <;> rfl
@[simp] theorem modCore_replays (m : Nat) (f : Core → Core) (s : State) : (modCore m f s).replays = s.replays := by
  unfold modCore; split <;> rfl
@[simp] theorem modCore_order (m : Nat) (f : Core → Core) (s : State) : (modCore m f s).order = s.order := by
  unfold modCore; split <;> rfl
@[simp] theorem modCore_images (m : Nat) (f : Core → Core) (s : State) : (modCore m f s).images = s.images := by
  unfold modCore; split <;> rfl
@[simp] theorem modCore_saved (m : Nat) (f : Core → Core) (s : State) : (modCore m f s).saved = s.saved := by
  unfold modCore; split <;> rfl
@[simp] theorem modCore_remote (m : Nat) (f : Core → Core) (s : State) : (modCore m f s).remote = s.remote := by
  unfold modCore; split <;> rfl
@[simp] theorem modCore_remoteNext (m : Nat) (f : Core → Core) (s : State) : (modCore m f s).remoteNext = s.remoteNext := by
  unfold modCore; split <;> rfl
@[simp] theorem modCore_doe (m : Nat) (f : Core → Core) (s : State) : (modCore m f s).doe = s.doe := by
  unfold modCore; split <;> rfl
@[simp] theorem modCore_hostAnswer (m : Nat) (f : Core → Core) (s : State) : (modCore m f s).hostAnswer = s.hostAnswer := by
  unfold modCore; split <;> rfl
@[simp] theorem modCore_hostPoison (m : Nat) (f : Core → Core) (s : State) : (modCore m f s).hostPoison = s.hostPoison := by
  unfold modCore; split <;> rfl
@[simp] theorem modCore_hostOwned (m : Nat) (f : Core → Core) (s : State) : (modCore m f s).hostOwned = s.hostOwned := by
  unfold modCore; split <;> rfl
@[simp] theorem modCore_hostStale (m : Nat) (f : Core → Core) (s : State) : (modCore m f s).hostStale = s.hostStale := by
  unfold modCore; split <;> rfl
@[simp] theorem modCore_replies (m : Nat) (f : Core → Core) (s : State) : (modCore m f s).replies = s.replies := by
  unfold modCore; split <;> rfl
@[simp] theorem modCore_agenda (m : Nat) (f : Core → Core) (s : State) : (modCore m f s).agenda = s.agenda := by
  unfold modCore; split <;> rfl
@[simp] theorem modCore_pace (m : Nat) (f : Core → Core) (s : State) : (modCore m f s).pace = s.pace := by
  unfold modCore; split <;> rfl
@[simp] theorem modCore_free (m : Nat) (f : Core → Core) (s : State) : (modCore m f s).free = s.free := by
  unfold modCore; split <;> rfl
@[simp] theorem modCore_quota (m : Nat) (f : Core → Core) (s : State) : (modCore m f s).quota = s.quota := by
  unfold modCore; split <;> rfl
@[simp] theorem modCore_watches (m : Nat) (f : Core → Core) (s : State) : (modCore m f s).watches = s.watches := by
  unfold modCore; split <;> rfl
@[simp] theorem modCore_bad (m : Nat) (f : Core → Core) (s : State) : (modCore m f s).bad = s.bad := by
  unfold modCore; split <;> rfl
@[simp] theorem modCore_remotePubs (m : Nat) (f : Core → Core) (s : State) : (modCore m f s).remotePubs = s.remotePubs := by
  unfold modCore; split <;> rfl
@[simp] theorem modCore_hostBad (m : Nat) (f : Core → Core) (s : State) : (modCore m f s).hostBad = s.hostBad := by
  unfold modCore; split <;> rfl
@[simp] theorem modDie_me (d : Nat) (f : Die → Die) (s : State) : (modDie d f s).me = s.me := rfl
@[simp] theorem modDie_core (d : Nat) (f : Die → Die) (s : State) : (modDie d f s).core = s.core := rfl
@[simp] theorem modDie_cores (d : Nat) (f : Die → Die) (s : State) : (modDie d f s).cores = s.cores := rfl
@[simp] theorem modDie_mem (d : Nat) (f : Die → Die) (s : State) : (modDie d f s).mem = s.mem := rfl
@[simp] theorem modDie_durable (d : Nat) (f : Die → Die) (s : State) : (modDie d f s).durable = s.durable := rfl
@[simp] theorem modDie_ctxbase (d : Nat) (f : Die → Die) (s : State) : (modDie d f s).ctxbase = s.ctxbase := rfl
@[simp] theorem modDie_tiqlo (d : Nat) (f : Die → Die) (s : State) : (modDie d f s).tiqlo = s.tiqlo := rfl
@[simp] theorem modDie_tiqhi (d : Nat) (f : Die → Die) (s : State) : (modDie d f s).tiqhi = s.tiqhi := rfl
@[simp] theorem modDie_tiqseq (d : Nat) (f : Die → Die) (s : State) : (modDie d f s).tiqseq = s.tiqseq := rfl
@[simp] theorem modDie_tiqdone (d : Nat) (f : Die → Die) (s : State) : (modDie d f s).tiqdone = s.tiqdone := rfl
@[simp] theorem modDie_tiqErr (d : Nat) (f : Die → Die) (s : State) : (modDie d f s).tiqErr = s.tiqErr := rfl
@[simp] theorem modDie_tiqOvf (d : Nat) (f : Die → Die) (s : State) : (modDie d f s).tiqOvf = s.tiqOvf := rfl
@[simp] theorem modDie_tiq (d : Nat) (f : Die → Die) (s : State) : (modDie d f s).tiq = s.tiq := rfl
@[simp] theorem modDie_grants (d : Nat) (f : Die → Die) (s : State) : (modDie d f s).grants = s.grants := rfl
@[simp] theorem modDie_parts (d : Nat) (f : Die → Die) (s : State) : (modDie d f s).parts = s.parts := rfl
@[simp] theorem modDie_cap (d : Nat) (f : Die → Die) (s : State) : (modDie d f s).cap = s.cap := rfl
@[simp] theorem modDie_chainid (d : Nat) (f : Die → Die) (s : State) : (modDie d f s).chainid = s.chainid := rfl
@[simp] theorem modDie_cntbase (d : Nat) (f : Die → Die) (s : State) : (modDie d f s).cntbase = s.cntbase := rfl
@[simp] theorem modDie_routes (d : Nat) (f : Die → Die) (s : State) : (modDie d f s).routes = s.routes := rfl
@[simp] theorem modDie_mailbox (d : Nat) (f : Die → Die) (s : State) : (modDie d f s).mailbox = s.mailbox := rfl
@[simp] theorem modDie_fuse (d : Nat) (f : Die → Die) (s : State) : (modDie d f s).fuse = s.fuse := rfl
@[simp] theorem modDie_pendingFuse (d : Nat) (f : Die → Die) (s : State) : (modDie d f s).pendingFuse = s.pendingFuse := rfl
@[simp] theorem modDie_firmware (d : Nat) (f : Die → Die) (s : State) : (modDie d f s).firmware = s.firmware := rfl
@[simp] theorem modDie_locked (d : Nat) (f : Die → Die) (s : State) : (modDie d f s).locked = s.locked := rfl
@[simp] theorem modDie_launches (d : Nat) (f : Die → Die) (s : State) : (modDie d f s).launches = s.launches := rfl
@[simp] theorem modDie_replays (d : Nat) (f : Die → Die) (s : State) : (modDie d f s).replays = s.replays := rfl
@[simp] theorem modDie_order (d : Nat) (f : Die → Die) (s : State) : (modDie d f s).order = s.order := rfl
@[simp] theorem modDie_images (d : Nat) (f : Die → Die) (s : State) : (modDie d f s).images = s.images := rfl
@[simp] theorem modDie_saved (d : Nat) (f : Die → Die) (s : State) : (modDie d f s).saved = s.saved := rfl
@[simp] theorem modDie_remote (d : Nat) (f : Die → Die) (s : State) : (modDie d f s).remote = s.remote := rfl
@[simp] theorem modDie_remoteNext (d : Nat) (f : Die → Die) (s : State) : (modDie d f s).remoteNext = s.remoteNext := rfl
@[simp] theorem modDie_doe (d : Nat) (f : Die → Die) (s : State) : (modDie d f s).doe = s.doe := rfl
@[simp] theorem modDie_hostAnswer (d : Nat) (f : Die → Die) (s : State) : (modDie d f s).hostAnswer = s.hostAnswer := rfl
@[simp] theorem modDie_hostPoison (d : Nat) (f : Die → Die) (s : State) : (modDie d f s).hostPoison = s.hostPoison := rfl
@[simp] theorem modDie_hostOwned (d : Nat) (f : Die → Die) (s : State) : (modDie d f s).hostOwned = s.hostOwned := rfl
@[simp] theorem modDie_hostStale (d : Nat) (f : Die → Die) (s : State) : (modDie d f s).hostStale = s.hostStale := rfl
@[simp] theorem modDie_replies (d : Nat) (f : Die → Die) (s : State) : (modDie d f s).replies = s.replies := rfl
@[simp] theorem modDie_agenda (d : Nat) (f : Die → Die) (s : State) : (modDie d f s).agenda = s.agenda := rfl
@[simp] theorem modDie_pace (d : Nat) (f : Die → Die) (s : State) : (modDie d f s).pace = s.pace := rfl
@[simp] theorem modDie_free (d : Nat) (f : Die → Die) (s : State) : (modDie d f s).free = s.free := rfl
@[simp] theorem modDie_quota (d : Nat) (f : Die → Die) (s : State) : (modDie d f s).quota = s.quota := rfl
@[simp] theorem modDie_watches (d : Nat) (f : Die → Die) (s : State) : (modDie d f s).watches = s.watches := rfl
@[simp] theorem modDie_bad (d : Nat) (f : Die → Die) (s : State) : (modDie d f s).bad = s.bad := rfl
@[simp] theorem modDie_remotePubs (d : Nat) (f : Die → Die) (s : State) : (modDie d f s).remotePubs = s.remotePubs := rfl
@[simp] theorem modDie_hostBad (d : Nat) (f : Die → Die) (s : State) : (modDie d f s).hostBad = s.hostBad := rfl
@[simp] theorem modLaunch_me (i : Nat) (f : Launch → Launch) (s : State) : (modLaunch i f s).me = s.me := rfl
@[simp] theorem modLaunch_core (i : Nat) (f : Launch → Launch) (s : State) : (modLaunch i f s).core = s.core := rfl
@[simp] theorem modLaunch_cores (i : Nat) (f : Launch → Launch) (s : State) : (modLaunch i f s).cores = s.cores := rfl
@[simp] theorem modLaunch_mem (i : Nat) (f : Launch → Launch) (s : State) : (modLaunch i f s).mem = s.mem := rfl
@[simp] theorem modLaunch_durable (i : Nat) (f : Launch → Launch) (s : State) : (modLaunch i f s).durable = s.durable := rfl
@[simp] theorem modLaunch_dies (i : Nat) (f : Launch → Launch) (s : State) : (modLaunch i f s).dies = s.dies := rfl
@[simp] theorem modLaunch_ctxbase (i : Nat) (f : Launch → Launch) (s : State) : (modLaunch i f s).ctxbase = s.ctxbase := rfl
@[simp] theorem modLaunch_tiqlo (i : Nat) (f : Launch → Launch) (s : State) : (modLaunch i f s).tiqlo = s.tiqlo := rfl
@[simp] theorem modLaunch_tiqhi (i : Nat) (f : Launch → Launch) (s : State) : (modLaunch i f s).tiqhi = s.tiqhi := rfl
@[simp] theorem modLaunch_tiqseq (i : Nat) (f : Launch → Launch) (s : State) : (modLaunch i f s).tiqseq = s.tiqseq := rfl
@[simp] theorem modLaunch_tiqdone (i : Nat) (f : Launch → Launch) (s : State) : (modLaunch i f s).tiqdone = s.tiqdone := rfl
@[simp] theorem modLaunch_tiqErr (i : Nat) (f : Launch → Launch) (s : State) : (modLaunch i f s).tiqErr = s.tiqErr := rfl
@[simp] theorem modLaunch_tiqOvf (i : Nat) (f : Launch → Launch) (s : State) : (modLaunch i f s).tiqOvf = s.tiqOvf := rfl
@[simp] theorem modLaunch_tiq (i : Nat) (f : Launch → Launch) (s : State) : (modLaunch i f s).tiq = s.tiq := rfl
@[simp] theorem modLaunch_grants (i : Nat) (f : Launch → Launch) (s : State) : (modLaunch i f s).grants = s.grants := rfl
@[simp] theorem modLaunch_parts (i : Nat) (f : Launch → Launch) (s : State) : (modLaunch i f s).parts = s.parts := rfl
@[simp] theorem modLaunch_cap (i : Nat) (f : Launch → Launch) (s : State) : (modLaunch i f s).cap = s.cap := rfl
@[simp] theorem modLaunch_chainid (i : Nat) (f : Launch → Launch) (s : State) : (modLaunch i f s).chainid = s.chainid := rfl
@[simp] theorem modLaunch_cntbase (i : Nat) (f : Launch → Launch) (s : State) : (modLaunch i f s).cntbase = s.cntbase := rfl
@[simp] theorem modLaunch_routes (i : Nat) (f : Launch → Launch) (s : State) : (modLaunch i f s).routes = s.routes := rfl
@[simp] theorem modLaunch_mailbox (i : Nat) (f : Launch → Launch) (s : State) : (modLaunch i f s).mailbox = s.mailbox := rfl
@[simp] theorem modLaunch_fuse (i : Nat) (f : Launch → Launch) (s : State) : (modLaunch i f s).fuse = s.fuse := rfl
@[simp] theorem modLaunch_pendingFuse (i : Nat) (f : Launch → Launch) (s : State) : (modLaunch i f s).pendingFuse = s.pendingFuse := rfl
@[simp] theorem modLaunch_firmware (i : Nat) (f : Launch → Launch) (s : State) : (modLaunch i f s).firmware = s.firmware := rfl
@[simp] theorem modLaunch_locked (i : Nat) (f : Launch → Launch) (s : State) : (modLaunch i f s).locked = s.locked := rfl
@[simp] theorem modLaunch_replays (i : Nat) (f : Launch → Launch) (s : State) : (modLaunch i f s).replays = s.replays := rfl
@[simp] theorem modLaunch_order (i : Nat) (f : Launch → Launch) (s : State) : (modLaunch i f s).order = s.order := rfl
@[simp] theorem modLaunch_images (i : Nat) (f : Launch → Launch) (s : State) : (modLaunch i f s).images = s.images := rfl
@[simp] theorem modLaunch_saved (i : Nat) (f : Launch → Launch) (s : State) : (modLaunch i f s).saved = s.saved := rfl
@[simp] theorem modLaunch_remote (i : Nat) (f : Launch → Launch) (s : State) : (modLaunch i f s).remote = s.remote := rfl
@[simp] theorem modLaunch_remoteNext (i : Nat) (f : Launch → Launch) (s : State) : (modLaunch i f s).remoteNext = s.remoteNext := rfl
@[simp] theorem modLaunch_doe (i : Nat) (f : Launch → Launch) (s : State) : (modLaunch i f s).doe = s.doe := rfl
@[simp] theorem modLaunch_hostAnswer (i : Nat) (f : Launch → Launch) (s : State) : (modLaunch i f s).hostAnswer = s.hostAnswer := rfl
@[simp] theorem modLaunch_hostPoison (i : Nat) (f : Launch → Launch) (s : State) : (modLaunch i f s).hostPoison = s.hostPoison := rfl
@[simp] theorem modLaunch_hostOwned (i : Nat) (f : Launch → Launch) (s : State) : (modLaunch i f s).hostOwned = s.hostOwned := rfl
@[simp] theorem modLaunch_hostStale (i : Nat) (f : Launch → Launch) (s : State) : (modLaunch i f s).hostStale = s.hostStale := rfl
@[simp] theorem modLaunch_replies (i : Nat) (f : Launch → Launch) (s : State) : (modLaunch i f s).replies = s.replies := rfl
@[simp] theorem modLaunch_agenda (i : Nat) (f : Launch → Launch) (s : State) : (modLaunch i f s).agenda = s.agenda := rfl
@[simp] theorem modLaunch_pace (i : Nat) (f : Launch → Launch) (s : State) : (modLaunch i f s).pace = s.pace := rfl
@[simp] theorem modLaunch_free (i : Nat) (f : Launch → Launch) (s : State) : (modLaunch i f s).free = s.free := rfl
@[simp] theorem modLaunch_quota (i : Nat) (f : Launch → Launch) (s : State) : (modLaunch i f s).quota = s.quota := rfl
@[simp] theorem modLaunch_watches (i : Nat) (f : Launch → Launch) (s : State) : (modLaunch i f s).watches = s.watches := rfl
@[simp] theorem modLaunch_bad (i : Nat) (f : Launch → Launch) (s : State) : (modLaunch i f s).bad = s.bad := rfl
@[simp] theorem modLaunch_remotePubs (i : Nat) (f : Launch → Launch) (s : State) : (modLaunch i f s).remotePubs = s.remotePubs := rfl
@[simp] theorem modLaunch_hostBad (i : Nat) (f : Launch → Launch) (s : State) : (modLaunch i f s).hostBad = s.hostBad := rfl
/-! ## Writes of registers, and moving on -/

@[simp] theorem setG_core (r : Fin 32) (w : Word) (s : State) : (setG r w s).core = s.core := by
  unfold setG; split <;> rfl
@[simp] theorem setG_cores (r : Fin 32) (w : Word) (s : State) : (setG r w s).cores = s.cores := by
  unfold setG; split <;> rfl
@[simp] theorem setG_mem (r : Fin 32) (w : Word) (s : State) : (setG r w s).mem = s.mem := by
  unfold setG; split <;> rfl
@[simp] theorem setG_durable (r : Fin 32) (w : Word) (s : State) : (setG r w s).durable = s.durable := by
  unfold setG; split <;> rfl
@[simp] theorem setG_dies (r : Fin 32) (w : Word) (s : State) : (setG r w s).dies = s.dies := by
  unfold setG; split <;> rfl
@[simp] theorem setG_ctxbase (r : Fin 32) (w : Word) (s : State) : (setG r w s).ctxbase = s.ctxbase := by
  unfold setG; split <;> rfl
@[simp] theorem setG_tiqlo (r : Fin 32) (w : Word) (s : State) : (setG r w s).tiqlo = s.tiqlo := by
  unfold setG; split <;> rfl
@[simp] theorem setG_tiqhi (r : Fin 32) (w : Word) (s : State) : (setG r w s).tiqhi = s.tiqhi := by
  unfold setG; split <;> rfl
@[simp] theorem setG_tiqseq (r : Fin 32) (w : Word) (s : State) : (setG r w s).tiqseq = s.tiqseq := by
  unfold setG; split <;> rfl
@[simp] theorem setG_tiqdone (r : Fin 32) (w : Word) (s : State) : (setG r w s).tiqdone = s.tiqdone := by
  unfold setG; split <;> rfl
@[simp] theorem setG_tiqErr (r : Fin 32) (w : Word) (s : State) : (setG r w s).tiqErr = s.tiqErr := by
  unfold setG; split <;> rfl
@[simp] theorem setG_tiqOvf (r : Fin 32) (w : Word) (s : State) : (setG r w s).tiqOvf = s.tiqOvf := by
  unfold setG; split <;> rfl
@[simp] theorem setG_tiq (r : Fin 32) (w : Word) (s : State) : (setG r w s).tiq = s.tiq := by
  unfold setG; split <;> rfl
@[simp] theorem setG_grants (r : Fin 32) (w : Word) (s : State) : (setG r w s).grants = s.grants := by
  unfold setG; split <;> rfl
@[simp] theorem setG_parts (r : Fin 32) (w : Word) (s : State) : (setG r w s).parts = s.parts := by
  unfold setG; split <;> rfl
@[simp] theorem setG_cap (r : Fin 32) (w : Word) (s : State) : (setG r w s).cap = s.cap := by
  unfold setG; split <;> rfl
@[simp] theorem setG_chainid (r : Fin 32) (w : Word) (s : State) : (setG r w s).chainid = s.chainid := by
  unfold setG; split <;> rfl
@[simp] theorem setG_cntbase (r : Fin 32) (w : Word) (s : State) : (setG r w s).cntbase = s.cntbase := by
  unfold setG; split <;> rfl
@[simp] theorem setG_routes (r : Fin 32) (w : Word) (s : State) : (setG r w s).routes = s.routes := by
  unfold setG; split <;> rfl
@[simp] theorem setG_mailbox (r : Fin 32) (w : Word) (s : State) : (setG r w s).mailbox = s.mailbox := by
  unfold setG; split <;> rfl
@[simp] theorem setG_fuse (r : Fin 32) (w : Word) (s : State) : (setG r w s).fuse = s.fuse := by
  unfold setG; split <;> rfl
@[simp] theorem setG_pendingFuse (r : Fin 32) (w : Word) (s : State) : (setG r w s).pendingFuse = s.pendingFuse := by
  unfold setG; split <;> rfl
@[simp] theorem setG_firmware (r : Fin 32) (w : Word) (s : State) : (setG r w s).firmware = s.firmware := by
  unfold setG; split <;> rfl
@[simp] theorem setG_locked (r : Fin 32) (w : Word) (s : State) : (setG r w s).locked = s.locked := by
  unfold setG; split <;> rfl
@[simp] theorem setG_launches (r : Fin 32) (w : Word) (s : State) : (setG r w s).launches = s.launches := by
  unfold setG; split <;> rfl
@[simp] theorem setG_replays (r : Fin 32) (w : Word) (s : State) : (setG r w s).replays = s.replays := by
  unfold setG; split <;> rfl
@[simp] theorem setG_order (r : Fin 32) (w : Word) (s : State) : (setG r w s).order = s.order := by
  unfold setG; split <;> rfl
@[simp] theorem setG_images (r : Fin 32) (w : Word) (s : State) : (setG r w s).images = s.images := by
  unfold setG; split <;> rfl
@[simp] theorem setG_saved (r : Fin 32) (w : Word) (s : State) : (setG r w s).saved = s.saved := by
  unfold setG; split <;> rfl
@[simp] theorem setG_remote (r : Fin 32) (w : Word) (s : State) : (setG r w s).remote = s.remote := by
  unfold setG; split <;> rfl
@[simp] theorem setG_remoteNext (r : Fin 32) (w : Word) (s : State) : (setG r w s).remoteNext = s.remoteNext := by
  unfold setG; split <;> rfl
@[simp] theorem setG_doe (r : Fin 32) (w : Word) (s : State) : (setG r w s).doe = s.doe := by
  unfold setG; split <;> rfl
@[simp] theorem setG_hostAnswer (r : Fin 32) (w : Word) (s : State) : (setG r w s).hostAnswer = s.hostAnswer := by
  unfold setG; split <;> rfl
@[simp] theorem setG_hostPoison (r : Fin 32) (w : Word) (s : State) : (setG r w s).hostPoison = s.hostPoison := by
  unfold setG; split <;> rfl
@[simp] theorem setG_hostOwned (r : Fin 32) (w : Word) (s : State) : (setG r w s).hostOwned = s.hostOwned := by
  unfold setG; split <;> rfl
@[simp] theorem setG_hostStale (r : Fin 32) (w : Word) (s : State) : (setG r w s).hostStale = s.hostStale := by
  unfold setG; split <;> rfl
@[simp] theorem setG_replies (r : Fin 32) (w : Word) (s : State) : (setG r w s).replies = s.replies := by
  unfold setG; split <;> rfl
@[simp] theorem setG_agenda (r : Fin 32) (w : Word) (s : State) : (setG r w s).agenda = s.agenda := by
  unfold setG; split <;> rfl
@[simp] theorem setG_pace (r : Fin 32) (w : Word) (s : State) : (setG r w s).pace = s.pace := by
  unfold setG; split <;> rfl
@[simp] theorem setG_free (r : Fin 32) (w : Word) (s : State) : (setG r w s).free = s.free := by
  unfold setG; split <;> rfl
@[simp] theorem setG_quota (r : Fin 32) (w : Word) (s : State) : (setG r w s).quota = s.quota := by
  unfold setG; split <;> rfl
@[simp] theorem setG_watches (r : Fin 32) (w : Word) (s : State) : (setG r w s).watches = s.watches := by
  unfold setG; split <;> rfl
@[simp] theorem setG_bad (r : Fin 32) (w : Word) (s : State) : (setG r w s).bad = s.bad := by
  unfold setG; split <;> rfl
@[simp] theorem setG_remotePubs (r : Fin 32) (w : Word) (s : State) : (setG r w s).remotePubs = s.remotePubs := by
  unfold setG; split <;> rfl
@[simp] theorem setG_hostBad (r : Fin 32) (w : Word) (s : State) : (setG r w s).hostBad = s.hostBad := by
  unfold setG; split <;> rfl
@[simp] theorem setF_core (r : Fin 16) (w : BitVec 32) (s : State) : (setF r w s).core = s.core := rfl
@[simp] theorem setF_cores (r : Fin 16) (w : BitVec 32) (s : State) : (setF r w s).cores = s.cores := rfl
@[simp] theorem setF_mem (r : Fin 16) (w : BitVec 32) (s : State) : (setF r w s).mem = s.mem := rfl
@[simp] theorem setF_durable (r : Fin 16) (w : BitVec 32) (s : State) : (setF r w s).durable = s.durable := rfl
@[simp] theorem setF_dies (r : Fin 16) (w : BitVec 32) (s : State) : (setF r w s).dies = s.dies := rfl
@[simp] theorem setF_ctxbase (r : Fin 16) (w : BitVec 32) (s : State) : (setF r w s).ctxbase = s.ctxbase := rfl
@[simp] theorem setF_tiqlo (r : Fin 16) (w : BitVec 32) (s : State) : (setF r w s).tiqlo = s.tiqlo := rfl
@[simp] theorem setF_tiqhi (r : Fin 16) (w : BitVec 32) (s : State) : (setF r w s).tiqhi = s.tiqhi := rfl
@[simp] theorem setF_tiqseq (r : Fin 16) (w : BitVec 32) (s : State) : (setF r w s).tiqseq = s.tiqseq := rfl
@[simp] theorem setF_tiqdone (r : Fin 16) (w : BitVec 32) (s : State) : (setF r w s).tiqdone = s.tiqdone := rfl
@[simp] theorem setF_tiqErr (r : Fin 16) (w : BitVec 32) (s : State) : (setF r w s).tiqErr = s.tiqErr := rfl
@[simp] theorem setF_tiqOvf (r : Fin 16) (w : BitVec 32) (s : State) : (setF r w s).tiqOvf = s.tiqOvf := rfl
@[simp] theorem setF_tiq (r : Fin 16) (w : BitVec 32) (s : State) : (setF r w s).tiq = s.tiq := rfl
@[simp] theorem setF_grants (r : Fin 16) (w : BitVec 32) (s : State) : (setF r w s).grants = s.grants := rfl
@[simp] theorem setF_parts (r : Fin 16) (w : BitVec 32) (s : State) : (setF r w s).parts = s.parts := rfl
@[simp] theorem setF_cap (r : Fin 16) (w : BitVec 32) (s : State) : (setF r w s).cap = s.cap := rfl
@[simp] theorem setF_chainid (r : Fin 16) (w : BitVec 32) (s : State) : (setF r w s).chainid = s.chainid := rfl
@[simp] theorem setF_cntbase (r : Fin 16) (w : BitVec 32) (s : State) : (setF r w s).cntbase = s.cntbase := rfl
@[simp] theorem setF_routes (r : Fin 16) (w : BitVec 32) (s : State) : (setF r w s).routes = s.routes := rfl
@[simp] theorem setF_mailbox (r : Fin 16) (w : BitVec 32) (s : State) : (setF r w s).mailbox = s.mailbox := rfl
@[simp] theorem setF_fuse (r : Fin 16) (w : BitVec 32) (s : State) : (setF r w s).fuse = s.fuse := rfl
@[simp] theorem setF_pendingFuse (r : Fin 16) (w : BitVec 32) (s : State) : (setF r w s).pendingFuse = s.pendingFuse := rfl
@[simp] theorem setF_firmware (r : Fin 16) (w : BitVec 32) (s : State) : (setF r w s).firmware = s.firmware := rfl
@[simp] theorem setF_locked (r : Fin 16) (w : BitVec 32) (s : State) : (setF r w s).locked = s.locked := rfl
@[simp] theorem setF_launches (r : Fin 16) (w : BitVec 32) (s : State) : (setF r w s).launches = s.launches := rfl
@[simp] theorem setF_replays (r : Fin 16) (w : BitVec 32) (s : State) : (setF r w s).replays = s.replays := rfl
@[simp] theorem setF_order (r : Fin 16) (w : BitVec 32) (s : State) : (setF r w s).order = s.order := rfl
@[simp] theorem setF_images (r : Fin 16) (w : BitVec 32) (s : State) : (setF r w s).images = s.images := rfl
@[simp] theorem setF_saved (r : Fin 16) (w : BitVec 32) (s : State) : (setF r w s).saved = s.saved := rfl
@[simp] theorem setF_remote (r : Fin 16) (w : BitVec 32) (s : State) : (setF r w s).remote = s.remote := rfl
@[simp] theorem setF_remoteNext (r : Fin 16) (w : BitVec 32) (s : State) : (setF r w s).remoteNext = s.remoteNext := rfl
@[simp] theorem setF_doe (r : Fin 16) (w : BitVec 32) (s : State) : (setF r w s).doe = s.doe := rfl
@[simp] theorem setF_hostAnswer (r : Fin 16) (w : BitVec 32) (s : State) : (setF r w s).hostAnswer = s.hostAnswer := rfl
@[simp] theorem setF_hostPoison (r : Fin 16) (w : BitVec 32) (s : State) : (setF r w s).hostPoison = s.hostPoison := rfl
@[simp] theorem setF_hostOwned (r : Fin 16) (w : BitVec 32) (s : State) : (setF r w s).hostOwned = s.hostOwned := rfl
@[simp] theorem setF_hostStale (r : Fin 16) (w : BitVec 32) (s : State) : (setF r w s).hostStale = s.hostStale := rfl
@[simp] theorem setF_replies (r : Fin 16) (w : BitVec 32) (s : State) : (setF r w s).replies = s.replies := rfl
@[simp] theorem setF_agenda (r : Fin 16) (w : BitVec 32) (s : State) : (setF r w s).agenda = s.agenda := rfl
@[simp] theorem setF_pace (r : Fin 16) (w : BitVec 32) (s : State) : (setF r w s).pace = s.pace := rfl
@[simp] theorem setF_free (r : Fin 16) (w : BitVec 32) (s : State) : (setF r w s).free = s.free := rfl
@[simp] theorem setF_quota (r : Fin 16) (w : BitVec 32) (s : State) : (setF r w s).quota = s.quota := rfl
@[simp] theorem setF_watches (r : Fin 16) (w : BitVec 32) (s : State) : (setF r w s).watches = s.watches := rfl
@[simp] theorem setF_bad (r : Fin 16) (w : BitVec 32) (s : State) : (setF r w s).bad = s.bad := rfl
@[simp] theorem setF_remotePubs (r : Fin 16) (w : BitVec 32) (s : State) : (setF r w s).remotePubs = s.remotePubs := rfl
@[simp] theorem setF_hostBad (r : Fin 16) (w : BitVec 32) (s : State) : (setF r w s).hostBad = s.hostBad := rfl
@[simp] theorem setM_core (r : Fin 8) (w : Plane) (s : State) : (setM r w s).core = s.core := rfl
@[simp] theorem setM_cores (r : Fin 8) (w : Plane) (s : State) : (setM r w s).cores = s.cores := rfl
@[simp] theorem setM_mem (r : Fin 8) (w : Plane) (s : State) : (setM r w s).mem = s.mem := rfl
@[simp] theorem setM_durable (r : Fin 8) (w : Plane) (s : State) : (setM r w s).durable = s.durable := rfl
@[simp] theorem setM_dies (r : Fin 8) (w : Plane) (s : State) : (setM r w s).dies = s.dies := rfl
@[simp] theorem setM_ctxbase (r : Fin 8) (w : Plane) (s : State) : (setM r w s).ctxbase = s.ctxbase := rfl
@[simp] theorem setM_tiqlo (r : Fin 8) (w : Plane) (s : State) : (setM r w s).tiqlo = s.tiqlo := rfl
@[simp] theorem setM_tiqhi (r : Fin 8) (w : Plane) (s : State) : (setM r w s).tiqhi = s.tiqhi := rfl
@[simp] theorem setM_tiqseq (r : Fin 8) (w : Plane) (s : State) : (setM r w s).tiqseq = s.tiqseq := rfl
@[simp] theorem setM_tiqdone (r : Fin 8) (w : Plane) (s : State) : (setM r w s).tiqdone = s.tiqdone := rfl
@[simp] theorem setM_tiqErr (r : Fin 8) (w : Plane) (s : State) : (setM r w s).tiqErr = s.tiqErr := rfl
@[simp] theorem setM_tiqOvf (r : Fin 8) (w : Plane) (s : State) : (setM r w s).tiqOvf = s.tiqOvf := rfl
@[simp] theorem setM_tiq (r : Fin 8) (w : Plane) (s : State) : (setM r w s).tiq = s.tiq := rfl
@[simp] theorem setM_grants (r : Fin 8) (w : Plane) (s : State) : (setM r w s).grants = s.grants := rfl
@[simp] theorem setM_parts (r : Fin 8) (w : Plane) (s : State) : (setM r w s).parts = s.parts := rfl
@[simp] theorem setM_cap (r : Fin 8) (w : Plane) (s : State) : (setM r w s).cap = s.cap := rfl
@[simp] theorem setM_chainid (r : Fin 8) (w : Plane) (s : State) : (setM r w s).chainid = s.chainid := rfl
@[simp] theorem setM_cntbase (r : Fin 8) (w : Plane) (s : State) : (setM r w s).cntbase = s.cntbase := rfl
@[simp] theorem setM_routes (r : Fin 8) (w : Plane) (s : State) : (setM r w s).routes = s.routes := rfl
@[simp] theorem setM_mailbox (r : Fin 8) (w : Plane) (s : State) : (setM r w s).mailbox = s.mailbox := rfl
@[simp] theorem setM_fuse (r : Fin 8) (w : Plane) (s : State) : (setM r w s).fuse = s.fuse := rfl
@[simp] theorem setM_pendingFuse (r : Fin 8) (w : Plane) (s : State) : (setM r w s).pendingFuse = s.pendingFuse := rfl
@[simp] theorem setM_firmware (r : Fin 8) (w : Plane) (s : State) : (setM r w s).firmware = s.firmware := rfl
@[simp] theorem setM_locked (r : Fin 8) (w : Plane) (s : State) : (setM r w s).locked = s.locked := rfl
@[simp] theorem setM_launches (r : Fin 8) (w : Plane) (s : State) : (setM r w s).launches = s.launches := rfl
@[simp] theorem setM_replays (r : Fin 8) (w : Plane) (s : State) : (setM r w s).replays = s.replays := rfl
@[simp] theorem setM_order (r : Fin 8) (w : Plane) (s : State) : (setM r w s).order = s.order := rfl
@[simp] theorem setM_images (r : Fin 8) (w : Plane) (s : State) : (setM r w s).images = s.images := rfl
@[simp] theorem setM_saved (r : Fin 8) (w : Plane) (s : State) : (setM r w s).saved = s.saved := rfl
@[simp] theorem setM_remote (r : Fin 8) (w : Plane) (s : State) : (setM r w s).remote = s.remote := rfl
@[simp] theorem setM_remoteNext (r : Fin 8) (w : Plane) (s : State) : (setM r w s).remoteNext = s.remoteNext := rfl
@[simp] theorem setM_doe (r : Fin 8) (w : Plane) (s : State) : (setM r w s).doe = s.doe := rfl
@[simp] theorem setM_hostAnswer (r : Fin 8) (w : Plane) (s : State) : (setM r w s).hostAnswer = s.hostAnswer := rfl
@[simp] theorem setM_hostPoison (r : Fin 8) (w : Plane) (s : State) : (setM r w s).hostPoison = s.hostPoison := rfl
@[simp] theorem setM_hostOwned (r : Fin 8) (w : Plane) (s : State) : (setM r w s).hostOwned = s.hostOwned := rfl
@[simp] theorem setM_hostStale (r : Fin 8) (w : Plane) (s : State) : (setM r w s).hostStale = s.hostStale := rfl
@[simp] theorem setM_replies (r : Fin 8) (w : Plane) (s : State) : (setM r w s).replies = s.replies := rfl
@[simp] theorem setM_agenda (r : Fin 8) (w : Plane) (s : State) : (setM r w s).agenda = s.agenda := rfl
@[simp] theorem setM_pace (r : Fin 8) (w : Plane) (s : State) : (setM r w s).pace = s.pace := rfl
@[simp] theorem setM_free (r : Fin 8) (w : Plane) (s : State) : (setM r w s).free = s.free := rfl
@[simp] theorem setM_quota (r : Fin 8) (w : Plane) (s : State) : (setM r w s).quota = s.quota := rfl
@[simp] theorem setM_watches (r : Fin 8) (w : Plane) (s : State) : (setM r w s).watches = s.watches := rfl
@[simp] theorem setM_bad (r : Fin 8) (w : Plane) (s : State) : (setM r w s).bad = s.bad := rfl
@[simp] theorem setM_remotePubs (r : Fin 8) (w : Plane) (s : State) : (setM r w s).remotePubs = s.remotePubs := rfl
@[simp] theorem setM_hostBad (r : Fin 8) (w : Plane) (s : State) : (setM r w s).hostBad = s.hostBad := rfl
@[simp] theorem setTm_core (r : Fin 4) (w : TileMask) (s : State) : (setTm r w s).core = s.core := rfl
@[simp] theorem setTm_cores (r : Fin 4) (w : TileMask) (s : State) : (setTm r w s).cores = s.cores := rfl
@[simp] theorem setTm_mem (r : Fin 4) (w : TileMask) (s : State) : (setTm r w s).mem = s.mem := rfl
@[simp] theorem setTm_durable (r : Fin 4) (w : TileMask) (s : State) : (setTm r w s).durable = s.durable := rfl
@[simp] theorem setTm_dies (r : Fin 4) (w : TileMask) (s : State) : (setTm r w s).dies = s.dies := rfl
@[simp] theorem setTm_ctxbase (r : Fin 4) (w : TileMask) (s : State) : (setTm r w s).ctxbase = s.ctxbase := rfl
@[simp] theorem setTm_tiqlo (r : Fin 4) (w : TileMask) (s : State) : (setTm r w s).tiqlo = s.tiqlo := rfl
@[simp] theorem setTm_tiqhi (r : Fin 4) (w : TileMask) (s : State) : (setTm r w s).tiqhi = s.tiqhi := rfl
@[simp] theorem setTm_tiqseq (r : Fin 4) (w : TileMask) (s : State) : (setTm r w s).tiqseq = s.tiqseq := rfl
@[simp] theorem setTm_tiqdone (r : Fin 4) (w : TileMask) (s : State) : (setTm r w s).tiqdone = s.tiqdone := rfl
@[simp] theorem setTm_tiqErr (r : Fin 4) (w : TileMask) (s : State) : (setTm r w s).tiqErr = s.tiqErr := rfl
@[simp] theorem setTm_tiqOvf (r : Fin 4) (w : TileMask) (s : State) : (setTm r w s).tiqOvf = s.tiqOvf := rfl
@[simp] theorem setTm_tiq (r : Fin 4) (w : TileMask) (s : State) : (setTm r w s).tiq = s.tiq := rfl
@[simp] theorem setTm_grants (r : Fin 4) (w : TileMask) (s : State) : (setTm r w s).grants = s.grants := rfl
@[simp] theorem setTm_parts (r : Fin 4) (w : TileMask) (s : State) : (setTm r w s).parts = s.parts := rfl
@[simp] theorem setTm_cap (r : Fin 4) (w : TileMask) (s : State) : (setTm r w s).cap = s.cap := rfl
@[simp] theorem setTm_chainid (r : Fin 4) (w : TileMask) (s : State) : (setTm r w s).chainid = s.chainid := rfl
@[simp] theorem setTm_cntbase (r : Fin 4) (w : TileMask) (s : State) : (setTm r w s).cntbase = s.cntbase := rfl
@[simp] theorem setTm_routes (r : Fin 4) (w : TileMask) (s : State) : (setTm r w s).routes = s.routes := rfl
@[simp] theorem setTm_mailbox (r : Fin 4) (w : TileMask) (s : State) : (setTm r w s).mailbox = s.mailbox := rfl
@[simp] theorem setTm_fuse (r : Fin 4) (w : TileMask) (s : State) : (setTm r w s).fuse = s.fuse := rfl
@[simp] theorem setTm_pendingFuse (r : Fin 4) (w : TileMask) (s : State) : (setTm r w s).pendingFuse = s.pendingFuse := rfl
@[simp] theorem setTm_firmware (r : Fin 4) (w : TileMask) (s : State) : (setTm r w s).firmware = s.firmware := rfl
@[simp] theorem setTm_locked (r : Fin 4) (w : TileMask) (s : State) : (setTm r w s).locked = s.locked := rfl
@[simp] theorem setTm_launches (r : Fin 4) (w : TileMask) (s : State) : (setTm r w s).launches = s.launches := rfl
@[simp] theorem setTm_replays (r : Fin 4) (w : TileMask) (s : State) : (setTm r w s).replays = s.replays := rfl
@[simp] theorem setTm_order (r : Fin 4) (w : TileMask) (s : State) : (setTm r w s).order = s.order := rfl
@[simp] theorem setTm_images (r : Fin 4) (w : TileMask) (s : State) : (setTm r w s).images = s.images := rfl
@[simp] theorem setTm_saved (r : Fin 4) (w : TileMask) (s : State) : (setTm r w s).saved = s.saved := rfl
@[simp] theorem setTm_remote (r : Fin 4) (w : TileMask) (s : State) : (setTm r w s).remote = s.remote := rfl
@[simp] theorem setTm_remoteNext (r : Fin 4) (w : TileMask) (s : State) : (setTm r w s).remoteNext = s.remoteNext := rfl
@[simp] theorem setTm_doe (r : Fin 4) (w : TileMask) (s : State) : (setTm r w s).doe = s.doe := rfl
@[simp] theorem setTm_hostAnswer (r : Fin 4) (w : TileMask) (s : State) : (setTm r w s).hostAnswer = s.hostAnswer := rfl
@[simp] theorem setTm_hostPoison (r : Fin 4) (w : TileMask) (s : State) : (setTm r w s).hostPoison = s.hostPoison := rfl
@[simp] theorem setTm_hostOwned (r : Fin 4) (w : TileMask) (s : State) : (setTm r w s).hostOwned = s.hostOwned := rfl
@[simp] theorem setTm_hostStale (r : Fin 4) (w : TileMask) (s : State) : (setTm r w s).hostStale = s.hostStale := rfl
@[simp] theorem setTm_replies (r : Fin 4) (w : TileMask) (s : State) : (setTm r w s).replies = s.replies := rfl
@[simp] theorem setTm_agenda (r : Fin 4) (w : TileMask) (s : State) : (setTm r w s).agenda = s.agenda := rfl
@[simp] theorem setTm_pace (r : Fin 4) (w : TileMask) (s : State) : (setTm r w s).pace = s.pace := rfl
@[simp] theorem setTm_free (r : Fin 4) (w : TileMask) (s : State) : (setTm r w s).free = s.free := rfl
@[simp] theorem setTm_quota (r : Fin 4) (w : TileMask) (s : State) : (setTm r w s).quota = s.quota := rfl
@[simp] theorem setTm_watches (r : Fin 4) (w : TileMask) (s : State) : (setTm r w s).watches = s.watches := rfl
@[simp] theorem setTm_bad (r : Fin 4) (w : TileMask) (s : State) : (setTm r w s).bad = s.bad := rfl
@[simp] theorem setTm_remotePubs (r : Fin 4) (w : TileMask) (s : State) : (setTm r w s).remotePubs = s.remotePubs := rfl
@[simp] theorem setTm_hostBad (r : Fin 4) (w : TileMask) (s : State) : (setTm r w s).hostBad = s.hostBad := rfl
@[simp] theorem advance_core (s : State) : (advance s).core = s.core := rfl
@[simp] theorem advance_cores (s : State) : (advance s).cores = s.cores := rfl
@[simp] theorem advance_mem (s : State) : (advance s).mem = s.mem := rfl
@[simp] theorem advance_durable (s : State) : (advance s).durable = s.durable := rfl
@[simp] theorem advance_dies (s : State) : (advance s).dies = s.dies := rfl
@[simp] theorem advance_ctxbase (s : State) : (advance s).ctxbase = s.ctxbase := rfl
@[simp] theorem advance_tiqlo (s : State) : (advance s).tiqlo = s.tiqlo := rfl
@[simp] theorem advance_tiqhi (s : State) : (advance s).tiqhi = s.tiqhi := rfl
@[simp] theorem advance_tiqseq (s : State) : (advance s).tiqseq = s.tiqseq := rfl
@[simp] theorem advance_tiqdone (s : State) : (advance s).tiqdone = s.tiqdone := rfl
@[simp] theorem advance_tiqErr (s : State) : (advance s).tiqErr = s.tiqErr := rfl
@[simp] theorem advance_tiqOvf (s : State) : (advance s).tiqOvf = s.tiqOvf := rfl
@[simp] theorem advance_tiq (s : State) : (advance s).tiq = s.tiq := rfl
@[simp] theorem advance_grants (s : State) : (advance s).grants = s.grants := rfl
@[simp] theorem advance_parts (s : State) : (advance s).parts = s.parts := rfl
@[simp] theorem advance_cap (s : State) : (advance s).cap = s.cap := rfl
@[simp] theorem advance_chainid (s : State) : (advance s).chainid = s.chainid := rfl
@[simp] theorem advance_cntbase (s : State) : (advance s).cntbase = s.cntbase := rfl
@[simp] theorem advance_routes (s : State) : (advance s).routes = s.routes := rfl
@[simp] theorem advance_mailbox (s : State) : (advance s).mailbox = s.mailbox := rfl
@[simp] theorem advance_fuse (s : State) : (advance s).fuse = s.fuse := rfl
@[simp] theorem advance_pendingFuse (s : State) : (advance s).pendingFuse = s.pendingFuse := rfl
@[simp] theorem advance_firmware (s : State) : (advance s).firmware = s.firmware := rfl
@[simp] theorem advance_locked (s : State) : (advance s).locked = s.locked := rfl
@[simp] theorem advance_launches (s : State) : (advance s).launches = s.launches := rfl
@[simp] theorem advance_replays (s : State) : (advance s).replays = s.replays := rfl
@[simp] theorem advance_order (s : State) : (advance s).order = s.order := rfl
@[simp] theorem advance_images (s : State) : (advance s).images = s.images := rfl
@[simp] theorem advance_saved (s : State) : (advance s).saved = s.saved := rfl
@[simp] theorem advance_remote (s : State) : (advance s).remote = s.remote := rfl
@[simp] theorem advance_remoteNext (s : State) : (advance s).remoteNext = s.remoteNext := rfl
@[simp] theorem advance_doe (s : State) : (advance s).doe = s.doe := rfl
@[simp] theorem advance_hostAnswer (s : State) : (advance s).hostAnswer = s.hostAnswer := rfl
@[simp] theorem advance_hostPoison (s : State) : (advance s).hostPoison = s.hostPoison := rfl
@[simp] theorem advance_hostOwned (s : State) : (advance s).hostOwned = s.hostOwned := rfl
@[simp] theorem advance_hostStale (s : State) : (advance s).hostStale = s.hostStale := rfl
@[simp] theorem advance_replies (s : State) : (advance s).replies = s.replies := rfl
@[simp] theorem advance_agenda (s : State) : (advance s).agenda = s.agenda := rfl
@[simp] theorem advance_pace (s : State) : (advance s).pace = s.pace := rfl
@[simp] theorem advance_free (s : State) : (advance s).free = s.free := rfl
@[simp] theorem advance_quota (s : State) : (advance s).quota = s.quota := rfl
@[simp] theorem advance_watches (s : State) : (advance s).watches = s.watches := rfl
@[simp] theorem advance_bad (s : State) : (advance s).bad = s.bad := rfl
@[simp] theorem advance_remotePubs (s : State) : (advance s).remotePubs = s.remotePubs := rfl
@[simp] theorem advance_hostBad (s : State) : (advance s).hostBad = s.hostBad := rfl
@[simp] theorem jump_core (p : Word) (s : State) : (jump p s).core = s.core := rfl
@[simp] theorem jump_cores (p : Word) (s : State) : (jump p s).cores = s.cores := rfl
@[simp] theorem jump_mem (p : Word) (s : State) : (jump p s).mem = s.mem := rfl
@[simp] theorem jump_durable (p : Word) (s : State) : (jump p s).durable = s.durable := rfl
@[simp] theorem jump_dies (p : Word) (s : State) : (jump p s).dies = s.dies := rfl
@[simp] theorem jump_ctxbase (p : Word) (s : State) : (jump p s).ctxbase = s.ctxbase := rfl
@[simp] theorem jump_tiqlo (p : Word) (s : State) : (jump p s).tiqlo = s.tiqlo := rfl
@[simp] theorem jump_tiqhi (p : Word) (s : State) : (jump p s).tiqhi = s.tiqhi := rfl
@[simp] theorem jump_tiqseq (p : Word) (s : State) : (jump p s).tiqseq = s.tiqseq := rfl
@[simp] theorem jump_tiqdone (p : Word) (s : State) : (jump p s).tiqdone = s.tiqdone := rfl
@[simp] theorem jump_tiqErr (p : Word) (s : State) : (jump p s).tiqErr = s.tiqErr := rfl
@[simp] theorem jump_tiqOvf (p : Word) (s : State) : (jump p s).tiqOvf = s.tiqOvf := rfl
@[simp] theorem jump_tiq (p : Word) (s : State) : (jump p s).tiq = s.tiq := rfl
@[simp] theorem jump_grants (p : Word) (s : State) : (jump p s).grants = s.grants := rfl
@[simp] theorem jump_parts (p : Word) (s : State) : (jump p s).parts = s.parts := rfl
@[simp] theorem jump_cap (p : Word) (s : State) : (jump p s).cap = s.cap := rfl
@[simp] theorem jump_chainid (p : Word) (s : State) : (jump p s).chainid = s.chainid := rfl
@[simp] theorem jump_cntbase (p : Word) (s : State) : (jump p s).cntbase = s.cntbase := rfl
@[simp] theorem jump_routes (p : Word) (s : State) : (jump p s).routes = s.routes := rfl
@[simp] theorem jump_mailbox (p : Word) (s : State) : (jump p s).mailbox = s.mailbox := rfl
@[simp] theorem jump_fuse (p : Word) (s : State) : (jump p s).fuse = s.fuse := rfl
@[simp] theorem jump_pendingFuse (p : Word) (s : State) : (jump p s).pendingFuse = s.pendingFuse := rfl
@[simp] theorem jump_firmware (p : Word) (s : State) : (jump p s).firmware = s.firmware := rfl
@[simp] theorem jump_locked (p : Word) (s : State) : (jump p s).locked = s.locked := rfl
@[simp] theorem jump_launches (p : Word) (s : State) : (jump p s).launches = s.launches := rfl
@[simp] theorem jump_replays (p : Word) (s : State) : (jump p s).replays = s.replays := rfl
@[simp] theorem jump_order (p : Word) (s : State) : (jump p s).order = s.order := rfl
@[simp] theorem jump_images (p : Word) (s : State) : (jump p s).images = s.images := rfl
@[simp] theorem jump_saved (p : Word) (s : State) : (jump p s).saved = s.saved := rfl
@[simp] theorem jump_remote (p : Word) (s : State) : (jump p s).remote = s.remote := rfl
@[simp] theorem jump_remoteNext (p : Word) (s : State) : (jump p s).remoteNext = s.remoteNext := rfl
@[simp] theorem jump_doe (p : Word) (s : State) : (jump p s).doe = s.doe := rfl
@[simp] theorem jump_hostAnswer (p : Word) (s : State) : (jump p s).hostAnswer = s.hostAnswer := rfl
@[simp] theorem jump_hostPoison (p : Word) (s : State) : (jump p s).hostPoison = s.hostPoison := rfl
@[simp] theorem jump_hostOwned (p : Word) (s : State) : (jump p s).hostOwned = s.hostOwned := rfl
@[simp] theorem jump_hostStale (p : Word) (s : State) : (jump p s).hostStale = s.hostStale := rfl
@[simp] theorem jump_replies (p : Word) (s : State) : (jump p s).replies = s.replies := rfl
@[simp] theorem jump_agenda (p : Word) (s : State) : (jump p s).agenda = s.agenda := rfl
@[simp] theorem jump_pace (p : Word) (s : State) : (jump p s).pace = s.pace := rfl
@[simp] theorem jump_free (p : Word) (s : State) : (jump p s).free = s.free := rfl
@[simp] theorem jump_quota (p : Word) (s : State) : (jump p s).quota = s.quota := rfl
@[simp] theorem jump_watches (p : Word) (s : State) : (jump p s).watches = s.watches := rfl
@[simp] theorem jump_bad (p : Word) (s : State) : (jump p s).bad = s.bad := rfl
@[simp] theorem jump_remotePubs (p : Word) (s : State) : (jump p s).remotePubs = s.remotePubs := rfl
@[simp] theorem jump_hostBad (p : Word) (s : State) : (jump p s).hostBad = s.hostBad := rfl
/-! ## Fields of the strand -/

@[simp] theorem setG_me_mesh (r : Fin 32) (w : Word) (s : State) : (setG r w s).me.mesh = s.me.mesh := by
  unfold setG; split <;> rfl
@[simp] theorem setG_me_sid (r : Fin 32) (w : Word) (s : State) : (setG r w s).me.sid = s.me.sid := by
  unfold setG; split <;> rfl
@[simp] theorem setG_me_life (r : Fin 32) (w : Word) (s : State) : (setG r w s).me.life = s.me.life := by
  unfold setG; split <;> rfl
@[simp] theorem setG_me_launch (r : Fin 32) (w : Word) (s : State) : (setG r w s).me.launch = s.me.launch := by
  unfold setG; split <;> rfl
@[simp] theorem setG_me_pc (r : Fin 32) (w : Word) (s : State) : (setG r w s).me.pc = s.me.pc := by
  unfold setG; split <;> rfl
@[simp] theorem setG_me_priv (r : Fin 32) (w : Word) (s : State) : (setG r w s).me.priv = s.me.priv := by
  unfold setG; split <;> rfl
@[simp] theorem setG_me_f (r : Fin 32) (w : Word) (s : State) : (setG r w s).me.f = s.me.f := by
  unfold setG; split <;> rfl
@[simp] theorem setG_me_v (r : Fin 32) (w : Word) (s : State) : (setG r w s).me.v = s.me.v := by
  unfold setG; split <;> rfl
@[simp] theorem setG_me_m (r : Fin 32) (w : Word) (s : State) : (setG r w s).me.m = s.me.m := by
  unfold setG; split <;> rfl
@[simp] theorem setG_me_tm (r : Fin 32) (w : Word) (s : State) : (setG r w s).me.tm = s.me.tm := by
  unfold setG; split <;> rfl
@[simp] theorem setG_me_lc (r : Fin 32) (w : Word) (s : State) : (setG r w s).me.lc = s.me.lc := by
  unfold setG; split <;> rfl
@[simp] theorem setG_me_vl (r : Fin 32) (w : Word) (s : State) : (setG r w s).me.vl = s.me.vl := by
  unfold setG; split <;> rfl
@[simp] theorem setG_me_six (r : Fin 32) (w : Word) (s : State) : (setG r w s).me.six = s.me.six := by
  unfold setG; split <;> rfl
@[simp] theorem setG_me_hwm (r : Fin 32) (w : Word) (s : State) : (setG r w s).me.hwm = s.me.hwm := by
  unfold setG; split <;> rfl
@[simp] theorem setG_me_mode (r : Fin 32) (w : Word) (s : State) : (setG r w s).me.mode = s.me.mode := by
  unfold setG; split <;> rfl
@[simp] theorem setG_me_vflags (r : Fin 32) (w : Word) (s : State) : (setG r w s).me.vflags = s.me.vflags := by
  unfold setG; split <;> rfl
@[simp] theorem setG_me_seed (r : Fin 32) (w : Word) (s : State) : (setG r w s).me.seed = s.me.seed := by
  unfold setG; split <;> rfl
@[simp] theorem setG_me_sbase (r : Fin 32) (w : Word) (s : State) : (setG r w s).me.sbase = s.me.sbase := by
  unfold setG; split <;> rfl
@[simp] theorem setG_me_mvl (r : Fin 32) (w : Word) (s : State) : (setG r w s).me.mvl = s.me.mvl := by
  unfold setG; split <;> rfl
@[simp] theorem setG_me_nbl (r : Fin 32) (w : Word) (s : State) : (setG r w s).me.nbl = s.me.nbl := by
  unfold setG; split <;> rfl
@[simp] theorem setG_me_rcause (r : Fin 32) (w : Word) (s : State) : (setG r w s).me.rcause = s.me.rcause := by
  unfold setG; split <;> rfl
@[simp] theorem setG_me_rectpos (r : Fin 32) (w : Word) (s : State) : (setG r w s).me.rectpos = s.me.rectpos := by
  unfold setG; split <;> rfl
@[simp] theorem setG_me_patchbase (r : Fin 32) (w : Word) (s : State) : (setG r w s).me.patchbase = s.me.patchbase := by
  unfold setG; split <;> rfl
@[simp] theorem setG_me_pub (r : Fin 32) (w : Word) (s : State) : (setG r w s).me.pub = s.me.pub := by
  unfold setG; split <;> rfl
@[simp] theorem setG_me_tvec (r : Fin 32) (w : Word) (s : State) : (setG r w s).me.tvec = s.me.tvec := by
  unfold setG; split <;> rfl
@[simp] theorem setG_me_tcause (r : Fin 32) (w : Word) (s : State) : (setG r w s).me.tcause = s.me.tcause := by
  unfold setG; split <;> rfl
@[simp] theorem setG_me_tepc (r : Fin 32) (w : Word) (s : State) : (setG r w s).me.tepc = s.me.tepc := by
  unfold setG; split <;> rfl
@[simp] theorem setG_me_tstat (r : Fin 32) (w : Word) (s : State) : (setG r w s).me.tstat = s.me.tstat := by
  unfold setG; split <;> rfl
@[simp] theorem setG_me_tsix (r : Fin 32) (w : Word) (s : State) : (setG r w s).me.tsix = s.me.tsix := by
  unfold setG; split <;> rfl
@[simp] theorem setG_me_trec (r : Fin 32) (w : Word) (s : State) : (setG r w s).me.trec = s.me.trec := by
  unfold setG; split <;> rfl
@[simp] theorem setG_me_tscr (r : Fin 32) (w : Word) (s : State) : (setG r w s).me.tscr = s.me.tscr := by
  unfold setG; split <;> rfl
@[simp] theorem setG_me_sfq (r : Fin 32) (w : Word) (s : State) : (setG r w s).me.sfq = s.me.sfq := by
  unfold setG; split <;> rfl
@[simp] theorem setG_me_stq (r : Fin 32) (w : Word) (s : State) : (setG r w s).me.stq = s.me.stq := by
  unfold setG; split <;> rfl
@[simp] theorem setG_me_vwq (r : Fin 32) (w : Word) (s : State) : (setG r w s).me.vwq = s.me.vwq := by
  unfold setG; split <;> rfl
@[simp] theorem setG_me_ctx (r : Fin 32) (w : Word) (s : State) : (setG r w s).me.ctx = s.me.ctx := by
  unfold setG; split <;> rfl
@[simp] theorem setG_me_part (r : Fin 32) (w : Word) (s : State) : (setG r w s).me.part = s.me.part := by
  unfold setG; split <;> rfl
@[simp] theorem setG_me_budget (r : Fin 32) (w : Word) (s : State) : (setG r w s).me.budget = s.me.budget := by
  unfold setG; split <;> rfl
@[simp] theorem setG_me_tagFirst (r : Fin 32) (w : Word) (s : State) : (setG r w s).me.tagFirst = s.me.tagFirst := by
  unfold setG; split <;> rfl
@[simp] theorem setG_me_tagCount (r : Fin 32) (w : Word) (s : State) : (setG r w s).me.tagCount = s.me.tagCount := by
  unfold setG; split <;> rfl
@[simp] theorem setG_me_ceiling (r : Fin 32) (w : Word) (s : State) : (setG r w s).me.ceiling = s.me.ceiling := by
  unfold setG; split <;> rfl
@[simp] theorem setG_me_replay (r : Fin 32) (w : Word) (s : State) : (setG r w s).me.replay = s.me.replay := by
  unfold setG; split <;> rfl
@[simp] theorem setG_me_compl (r : Fin 32) (w : Word) (s : State) : (setG r w s).me.compl = s.me.compl := by
  unfold setG; split <;> rfl
@[simp] theorem setG_me_sq (r : Fin 32) (w : Word) (s : State) : (setG r w s).me.sq = s.me.sq := by
  unfold setG; split <;> rfl
@[simp] theorem setG_me_held (r : Fin 32) (w : Word) (s : State) : (setG r w s).me.held = s.me.held := by
  unfold setG; split <;> rfl
@[simp] theorem setG_me_patch (r : Fin 32) (w : Word) (s : State) : (setG r w s).me.patch = s.me.patch := by
  unfold setG; split <;> rfl
@[simp] theorem setG_me_loopBuf (r : Fin 32) (w : Word) (s : State) : (setG r w s).me.loopBuf = s.me.loopBuf := by
  unfold setG; split <;> rfl
@[simp] theorem setG_me_latches (r : Fin 32) (w : Word) (s : State) : (setG r w s).me.latches = s.me.latches := by
  unfold setG; split <;> rfl
@[simp] theorem setG_me_epoch (r : Fin 32) (w : Word) (s : State) : (setG r w s).me.epoch = s.me.epoch := by
  unfold setG; split <;> rfl
@[simp] theorem setG_me_arrived (r : Fin 32) (w : Word) (s : State) : (setG r w s).me.arrived = s.me.arrived := by
  unfold setG; split <;> rfl
@[simp] theorem setG_me_leave (r : Fin 32) (w : Word) (s : State) : (setG r w s).me.leave = s.me.leave := by
  unfold setG; split <;> rfl
@[simp] theorem setG_me_pwait (r : Fin 32) (w : Word) (s : State) : (setG r w s).me.pwait = s.me.pwait := by
  unfold setG; split <;> rfl
@[simp] theorem setG_me_maps (r : Fin 32) (w : Word) (s : State) : (setG r w s).me.maps = s.me.maps := by
  unfold setG; split <;> rfl
@[simp] theorem setG_me_call (r : Fin 32) (w : Word) (s : State) : (setG r w s).me.call = s.me.call := by
  unfold setG; split <;> rfl
@[simp] theorem setG_me_doubleFault (r : Fin 32) (w : Word) (s : State) : (setG r w s).me.doubleFault = s.me.doubleFault := by
  unfold setG; split <;> rfl
@[simp] theorem setG_me_stopping (r : Fin 32) (w : Word) (s : State) : (setG r w s).me.stopping = s.me.stopping := by
  unfold setG; split <;> rfl
@[simp] theorem setF_me_mesh (r : Fin 16) (w : BitVec 32) (s : State) : (setF r w s).me.mesh = s.me.mesh := rfl
@[simp] theorem setF_me_sid (r : Fin 16) (w : BitVec 32) (s : State) : (setF r w s).me.sid = s.me.sid := rfl
@[simp] theorem setF_me_life (r : Fin 16) (w : BitVec 32) (s : State) : (setF r w s).me.life = s.me.life := rfl
@[simp] theorem setF_me_launch (r : Fin 16) (w : BitVec 32) (s : State) : (setF r w s).me.launch = s.me.launch := rfl
@[simp] theorem setF_me_pc (r : Fin 16) (w : BitVec 32) (s : State) : (setF r w s).me.pc = s.me.pc := rfl
@[simp] theorem setF_me_priv (r : Fin 16) (w : BitVec 32) (s : State) : (setF r w s).me.priv = s.me.priv := rfl
@[simp] theorem setF_me_g (r : Fin 16) (w : BitVec 32) (s : State) : (setF r w s).me.g = s.me.g := rfl
@[simp] theorem setF_me_v (r : Fin 16) (w : BitVec 32) (s : State) : (setF r w s).me.v = s.me.v := rfl
@[simp] theorem setF_me_m (r : Fin 16) (w : BitVec 32) (s : State) : (setF r w s).me.m = s.me.m := rfl
@[simp] theorem setF_me_tm (r : Fin 16) (w : BitVec 32) (s : State) : (setF r w s).me.tm = s.me.tm := rfl
@[simp] theorem setF_me_lc (r : Fin 16) (w : BitVec 32) (s : State) : (setF r w s).me.lc = s.me.lc := rfl
@[simp] theorem setF_me_vl (r : Fin 16) (w : BitVec 32) (s : State) : (setF r w s).me.vl = s.me.vl := rfl
@[simp] theorem setF_me_six (r : Fin 16) (w : BitVec 32) (s : State) : (setF r w s).me.six = s.me.six := rfl
@[simp] theorem setF_me_hwm (r : Fin 16) (w : BitVec 32) (s : State) : (setF r w s).me.hwm = s.me.hwm := rfl
@[simp] theorem setF_me_mode (r : Fin 16) (w : BitVec 32) (s : State) : (setF r w s).me.mode = s.me.mode := rfl
@[simp] theorem setF_me_vflags (r : Fin 16) (w : BitVec 32) (s : State) : (setF r w s).me.vflags = s.me.vflags := rfl
@[simp] theorem setF_me_seed (r : Fin 16) (w : BitVec 32) (s : State) : (setF r w s).me.seed = s.me.seed := rfl
@[simp] theorem setF_me_sbase (r : Fin 16) (w : BitVec 32) (s : State) : (setF r w s).me.sbase = s.me.sbase := rfl
@[simp] theorem setF_me_mvl (r : Fin 16) (w : BitVec 32) (s : State) : (setF r w s).me.mvl = s.me.mvl := rfl
@[simp] theorem setF_me_nbl (r : Fin 16) (w : BitVec 32) (s : State) : (setF r w s).me.nbl = s.me.nbl := rfl
@[simp] theorem setF_me_rcause (r : Fin 16) (w : BitVec 32) (s : State) : (setF r w s).me.rcause = s.me.rcause := rfl
@[simp] theorem setF_me_rectpos (r : Fin 16) (w : BitVec 32) (s : State) : (setF r w s).me.rectpos = s.me.rectpos := rfl
@[simp] theorem setF_me_patchbase (r : Fin 16) (w : BitVec 32) (s : State) : (setF r w s).me.patchbase = s.me.patchbase := rfl
@[simp] theorem setF_me_pub (r : Fin 16) (w : BitVec 32) (s : State) : (setF r w s).me.pub = s.me.pub := rfl
@[simp] theorem setF_me_tvec (r : Fin 16) (w : BitVec 32) (s : State) : (setF r w s).me.tvec = s.me.tvec := rfl
@[simp] theorem setF_me_tcause (r : Fin 16) (w : BitVec 32) (s : State) : (setF r w s).me.tcause = s.me.tcause := rfl
@[simp] theorem setF_me_tepc (r : Fin 16) (w : BitVec 32) (s : State) : (setF r w s).me.tepc = s.me.tepc := rfl
@[simp] theorem setF_me_tstat (r : Fin 16) (w : BitVec 32) (s : State) : (setF r w s).me.tstat = s.me.tstat := rfl
@[simp] theorem setF_me_tsix (r : Fin 16) (w : BitVec 32) (s : State) : (setF r w s).me.tsix = s.me.tsix := rfl
@[simp] theorem setF_me_trec (r : Fin 16) (w : BitVec 32) (s : State) : (setF r w s).me.trec = s.me.trec := rfl
@[simp] theorem setF_me_tscr (r : Fin 16) (w : BitVec 32) (s : State) : (setF r w s).me.tscr = s.me.tscr := rfl
@[simp] theorem setF_me_sfq (r : Fin 16) (w : BitVec 32) (s : State) : (setF r w s).me.sfq = s.me.sfq := rfl
@[simp] theorem setF_me_stq (r : Fin 16) (w : BitVec 32) (s : State) : (setF r w s).me.stq = s.me.stq := rfl
@[simp] theorem setF_me_vwq (r : Fin 16) (w : BitVec 32) (s : State) : (setF r w s).me.vwq = s.me.vwq := rfl
@[simp] theorem setF_me_ctx (r : Fin 16) (w : BitVec 32) (s : State) : (setF r w s).me.ctx = s.me.ctx := rfl
@[simp] theorem setF_me_part (r : Fin 16) (w : BitVec 32) (s : State) : (setF r w s).me.part = s.me.part := rfl
@[simp] theorem setF_me_budget (r : Fin 16) (w : BitVec 32) (s : State) : (setF r w s).me.budget = s.me.budget := rfl
@[simp] theorem setF_me_tagFirst (r : Fin 16) (w : BitVec 32) (s : State) : (setF r w s).me.tagFirst = s.me.tagFirst := rfl
@[simp] theorem setF_me_tagCount (r : Fin 16) (w : BitVec 32) (s : State) : (setF r w s).me.tagCount = s.me.tagCount := rfl
@[simp] theorem setF_me_ceiling (r : Fin 16) (w : BitVec 32) (s : State) : (setF r w s).me.ceiling = s.me.ceiling := rfl
@[simp] theorem setF_me_replay (r : Fin 16) (w : BitVec 32) (s : State) : (setF r w s).me.replay = s.me.replay := rfl
@[simp] theorem setF_me_compl (r : Fin 16) (w : BitVec 32) (s : State) : (setF r w s).me.compl = s.me.compl := rfl
@[simp] theorem setF_me_sq (r : Fin 16) (w : BitVec 32) (s : State) : (setF r w s).me.sq = s.me.sq := rfl
@[simp] theorem setF_me_held (r : Fin 16) (w : BitVec 32) (s : State) : (setF r w s).me.held = s.me.held := rfl
@[simp] theorem setF_me_patch (r : Fin 16) (w : BitVec 32) (s : State) : (setF r w s).me.patch = s.me.patch := rfl
@[simp] theorem setF_me_loopBuf (r : Fin 16) (w : BitVec 32) (s : State) : (setF r w s).me.loopBuf = s.me.loopBuf := rfl
@[simp] theorem setF_me_latches (r : Fin 16) (w : BitVec 32) (s : State) : (setF r w s).me.latches = s.me.latches := rfl
@[simp] theorem setF_me_epoch (r : Fin 16) (w : BitVec 32) (s : State) : (setF r w s).me.epoch = s.me.epoch := rfl
@[simp] theorem setF_me_arrived (r : Fin 16) (w : BitVec 32) (s : State) : (setF r w s).me.arrived = s.me.arrived := rfl
@[simp] theorem setF_me_leave (r : Fin 16) (w : BitVec 32) (s : State) : (setF r w s).me.leave = s.me.leave := rfl
@[simp] theorem setF_me_pwait (r : Fin 16) (w : BitVec 32) (s : State) : (setF r w s).me.pwait = s.me.pwait := rfl
@[simp] theorem setF_me_maps (r : Fin 16) (w : BitVec 32) (s : State) : (setF r w s).me.maps = s.me.maps := rfl
@[simp] theorem setF_me_call (r : Fin 16) (w : BitVec 32) (s : State) : (setF r w s).me.call = s.me.call := rfl
@[simp] theorem setF_me_doubleFault (r : Fin 16) (w : BitVec 32) (s : State) : (setF r w s).me.doubleFault = s.me.doubleFault := rfl
@[simp] theorem setF_me_stopping (r : Fin 16) (w : BitVec 32) (s : State) : (setF r w s).me.stopping = s.me.stopping := rfl
@[simp] theorem advanced_mesh (t : Strand) : (advanced t).mesh = t.mesh := by
  unfold advanced; split <;> rfl
@[simp] theorem jumped_mesh (p : Word) (t : Strand) : (jumped p t).mesh = t.mesh := by
  unfold jumped; split <;> rfl
@[simp] theorem advanced_sid (t : Strand) : (advanced t).sid = t.sid := by
  unfold advanced; split <;> rfl
@[simp] theorem jumped_sid (p : Word) (t : Strand) : (jumped p t).sid = t.sid := by
  unfold jumped; split <;> rfl
@[simp] theorem advanced_life (t : Strand) : (advanced t).life = t.life := by
  unfold advanced; split <;> rfl
@[simp] theorem jumped_life (p : Word) (t : Strand) : (jumped p t).life = t.life := by
  unfold jumped; split <;> rfl
@[simp] theorem advanced_launch (t : Strand) : (advanced t).launch = t.launch := by
  unfold advanced; split <;> rfl
@[simp] theorem jumped_launch (p : Word) (t : Strand) : (jumped p t).launch = t.launch := by
  unfold jumped; split <;> rfl
@[simp] theorem advanced_priv (t : Strand) : (advanced t).priv = t.priv := by
  unfold advanced; split <;> rfl
@[simp] theorem jumped_priv (p : Word) (t : Strand) : (jumped p t).priv = t.priv := by
  unfold jumped; split <;> rfl
@[simp] theorem advanced_g (t : Strand) : (advanced t).g = t.g := by
  unfold advanced; split <;> rfl
@[simp] theorem jumped_g (p : Word) (t : Strand) : (jumped p t).g = t.g := by
  unfold jumped; split <;> rfl
@[simp] theorem advanced_f (t : Strand) : (advanced t).f = t.f := by
  unfold advanced; split <;> rfl
@[simp] theorem jumped_f (p : Word) (t : Strand) : (jumped p t).f = t.f := by
  unfold jumped; split <;> rfl
@[simp] theorem advanced_v (t : Strand) : (advanced t).v = t.v := by
  unfold advanced; split <;> rfl
@[simp] theorem jumped_v (p : Word) (t : Strand) : (jumped p t).v = t.v := by
  unfold jumped; split <;> rfl
@[simp] theorem advanced_m (t : Strand) : (advanced t).m = t.m := by
  unfold advanced; split <;> rfl
@[simp] theorem jumped_m (p : Word) (t : Strand) : (jumped p t).m = t.m := by
  unfold jumped; split <;> rfl
@[simp] theorem advanced_tm (t : Strand) : (advanced t).tm = t.tm := by
  unfold advanced; split <;> rfl
@[simp] theorem jumped_tm (p : Word) (t : Strand) : (jumped p t).tm = t.tm := by
  unfold jumped; split <;> rfl
@[simp] theorem advanced_vl (t : Strand) : (advanced t).vl = t.vl := by
  unfold advanced; split <;> rfl
@[simp] theorem jumped_vl (p : Word) (t : Strand) : (jumped p t).vl = t.vl := by
  unfold jumped; split <;> rfl
@[simp] theorem advanced_six (t : Strand) : (advanced t).six = t.six := by
  unfold advanced; split <;> rfl
@[simp] theorem jumped_six (p : Word) (t : Strand) : (jumped p t).six = t.six := by
  unfold jumped; split <;> rfl
@[simp] theorem advanced_hwm (t : Strand) : (advanced t).hwm = t.hwm := by
  unfold advanced; split <;> rfl
@[simp] theorem jumped_hwm (p : Word) (t : Strand) : (jumped p t).hwm = t.hwm := by
  unfold jumped; split <;> rfl
@[simp] theorem advanced_mode (t : Strand) : (advanced t).mode = t.mode := by
  unfold advanced; split <;> rfl
@[simp] theorem jumped_mode (p : Word) (t : Strand) : (jumped p t).mode = t.mode := by
  unfold jumped; split <;> rfl
@[simp] theorem advanced_vflags (t : Strand) : (advanced t).vflags = t.vflags := by
  unfold advanced; split <;> rfl
@[simp] theorem jumped_vflags (p : Word) (t : Strand) : (jumped p t).vflags = t.vflags := by
  unfold jumped; split <;> rfl
@[simp] theorem advanced_seed (t : Strand) : (advanced t).seed = t.seed := by
  unfold advanced; split <;> rfl
@[simp] theorem jumped_seed (p : Word) (t : Strand) : (jumped p t).seed = t.seed := by
  unfold jumped; split <;> rfl
@[simp] theorem advanced_sbase (t : Strand) : (advanced t).sbase = t.sbase := by
  unfold advanced; split <;> rfl
@[simp] theorem jumped_sbase (p : Word) (t : Strand) : (jumped p t).sbase = t.sbase := by
  unfold jumped; split <;> rfl
@[simp] theorem advanced_mvl (t : Strand) : (advanced t).mvl = t.mvl := by
  unfold advanced; split <;> rfl
@[simp] theorem jumped_mvl (p : Word) (t : Strand) : (jumped p t).mvl = t.mvl := by
  unfold jumped; split <;> rfl
@[simp] theorem advanced_nbl (t : Strand) : (advanced t).nbl = t.nbl := by
  unfold advanced; split <;> rfl
@[simp] theorem jumped_nbl (p : Word) (t : Strand) : (jumped p t).nbl = t.nbl := by
  unfold jumped; split <;> rfl
@[simp] theorem advanced_rcause (t : Strand) : (advanced t).rcause = t.rcause := by
  unfold advanced; split <;> rfl
@[simp] theorem jumped_rcause (p : Word) (t : Strand) : (jumped p t).rcause = t.rcause := by
  unfold jumped; split <;> rfl
@[simp] theorem advanced_rectpos (t : Strand) : (advanced t).rectpos = t.rectpos := by
  unfold advanced; split <;> rfl
@[simp] theorem jumped_rectpos (p : Word) (t : Strand) : (jumped p t).rectpos = t.rectpos := by
  unfold jumped; split <;> rfl
@[simp] theorem advanced_patchbase (t : Strand) : (advanced t).patchbase = t.patchbase := by
  unfold advanced; split <;> rfl
@[simp] theorem jumped_patchbase (p : Word) (t : Strand) : (jumped p t).patchbase = t.patchbase := by
  unfold jumped; split <;> rfl
@[simp] theorem advanced_pub (t : Strand) : (advanced t).pub = t.pub := by
  unfold advanced; split <;> rfl
@[simp] theorem jumped_pub (p : Word) (t : Strand) : (jumped p t).pub = t.pub := by
  unfold jumped; split <;> rfl
@[simp] theorem advanced_tvec (t : Strand) : (advanced t).tvec = t.tvec := by
  unfold advanced; split <;> rfl
@[simp] theorem jumped_tvec (p : Word) (t : Strand) : (jumped p t).tvec = t.tvec := by
  unfold jumped; split <;> rfl
@[simp] theorem advanced_tcause (t : Strand) : (advanced t).tcause = t.tcause := by
  unfold advanced; split <;> rfl
@[simp] theorem jumped_tcause (p : Word) (t : Strand) : (jumped p t).tcause = t.tcause := by
  unfold jumped; split <;> rfl
@[simp] theorem advanced_tepc (t : Strand) : (advanced t).tepc = t.tepc := by
  unfold advanced; split <;> rfl
@[simp] theorem jumped_tepc (p : Word) (t : Strand) : (jumped p t).tepc = t.tepc := by
  unfold jumped; split <;> rfl
@[simp] theorem advanced_tstat (t : Strand) : (advanced t).tstat = t.tstat := by
  unfold advanced; split <;> rfl
@[simp] theorem jumped_tstat (p : Word) (t : Strand) : (jumped p t).tstat = t.tstat := by
  unfold jumped; split <;> rfl
@[simp] theorem advanced_tsix (t : Strand) : (advanced t).tsix = t.tsix := by
  unfold advanced; split <;> rfl
@[simp] theorem jumped_tsix (p : Word) (t : Strand) : (jumped p t).tsix = t.tsix := by
  unfold jumped; split <;> rfl
@[simp] theorem advanced_trec (t : Strand) : (advanced t).trec = t.trec := by
  unfold advanced; split <;> rfl
@[simp] theorem jumped_trec (p : Word) (t : Strand) : (jumped p t).trec = t.trec := by
  unfold jumped; split <;> rfl
@[simp] theorem advanced_tscr (t : Strand) : (advanced t).tscr = t.tscr := by
  unfold advanced; split <;> rfl
@[simp] theorem jumped_tscr (p : Word) (t : Strand) : (jumped p t).tscr = t.tscr := by
  unfold jumped; split <;> rfl
@[simp] theorem advanced_sfq (t : Strand) : (advanced t).sfq = t.sfq := by
  unfold advanced; split <;> rfl
@[simp] theorem jumped_sfq (p : Word) (t : Strand) : (jumped p t).sfq = t.sfq := by
  unfold jumped; split <;> rfl
@[simp] theorem advanced_stq (t : Strand) : (advanced t).stq = t.stq := by
  unfold advanced; split <;> rfl
@[simp] theorem jumped_stq (p : Word) (t : Strand) : (jumped p t).stq = t.stq := by
  unfold jumped; split <;> rfl
@[simp] theorem advanced_vwq (t : Strand) : (advanced t).vwq = t.vwq := by
  unfold advanced; split <;> rfl
@[simp] theorem jumped_vwq (p : Word) (t : Strand) : (jumped p t).vwq = t.vwq := by
  unfold jumped; split <;> rfl
@[simp] theorem advanced_ctx (t : Strand) : (advanced t).ctx = t.ctx := by
  unfold advanced; split <;> rfl
@[simp] theorem jumped_ctx (p : Word) (t : Strand) : (jumped p t).ctx = t.ctx := by
  unfold jumped; split <;> rfl
@[simp] theorem advanced_part (t : Strand) : (advanced t).part = t.part := by
  unfold advanced; split <;> rfl
@[simp] theorem jumped_part (p : Word) (t : Strand) : (jumped p t).part = t.part := by
  unfold jumped; split <;> rfl
@[simp] theorem advanced_budget (t : Strand) : (advanced t).budget = t.budget := by
  unfold advanced; split <;> rfl
@[simp] theorem jumped_budget (p : Word) (t : Strand) : (jumped p t).budget = t.budget := by
  unfold jumped; split <;> rfl
@[simp] theorem advanced_tagFirst (t : Strand) : (advanced t).tagFirst = t.tagFirst := by
  unfold advanced; split <;> rfl
@[simp] theorem jumped_tagFirst (p : Word) (t : Strand) : (jumped p t).tagFirst = t.tagFirst := by
  unfold jumped; split <;> rfl
@[simp] theorem advanced_tagCount (t : Strand) : (advanced t).tagCount = t.tagCount := by
  unfold advanced; split <;> rfl
@[simp] theorem jumped_tagCount (p : Word) (t : Strand) : (jumped p t).tagCount = t.tagCount := by
  unfold jumped; split <;> rfl
@[simp] theorem advanced_ceiling (t : Strand) : (advanced t).ceiling = t.ceiling := by
  unfold advanced; split <;> rfl
@[simp] theorem jumped_ceiling (p : Word) (t : Strand) : (jumped p t).ceiling = t.ceiling := by
  unfold jumped; split <;> rfl
@[simp] theorem advanced_replay (t : Strand) : (advanced t).replay = t.replay := by
  unfold advanced; split <;> rfl
@[simp] theorem jumped_replay (p : Word) (t : Strand) : (jumped p t).replay = t.replay := by
  unfold jumped; split <;> rfl
@[simp] theorem advanced_compl (t : Strand) : (advanced t).compl = t.compl := by
  unfold advanced; split <;> rfl
@[simp] theorem jumped_compl (p : Word) (t : Strand) : (jumped p t).compl = t.compl := by
  unfold jumped; split <;> rfl
@[simp] theorem advanced_sq (t : Strand) : (advanced t).sq = t.sq := by
  unfold advanced; split <;> rfl
@[simp] theorem jumped_sq (p : Word) (t : Strand) : (jumped p t).sq = t.sq := by
  unfold jumped; split <;> rfl
@[simp] theorem advanced_held (t : Strand) : (advanced t).held = t.held := by
  unfold advanced; split <;> rfl
@[simp] theorem jumped_held (p : Word) (t : Strand) : (jumped p t).held = t.held := by
  unfold jumped; split <;> rfl
@[simp] theorem advanced_patch (t : Strand) : (advanced t).patch = t.patch := by
  unfold advanced; split <;> rfl
@[simp] theorem jumped_patch (p : Word) (t : Strand) : (jumped p t).patch = t.patch := by
  unfold jumped; split <;> rfl
@[simp] theorem advanced_loopBuf (t : Strand) : (advanced t).loopBuf = t.loopBuf := by
  unfold advanced; split <;> rfl
@[simp] theorem jumped_loopBuf (p : Word) (t : Strand) : (jumped p t).loopBuf = t.loopBuf := by
  unfold jumped; split <;> rfl
@[simp] theorem advanced_latches (t : Strand) : (advanced t).latches = t.latches := by
  unfold advanced; split <;> rfl
@[simp] theorem jumped_latches (p : Word) (t : Strand) : (jumped p t).latches = t.latches := by
  unfold jumped; split <;> rfl
@[simp] theorem advanced_epoch (t : Strand) : (advanced t).epoch = t.epoch := by
  unfold advanced; split <;> rfl
@[simp] theorem jumped_epoch (p : Word) (t : Strand) : (jumped p t).epoch = t.epoch := by
  unfold jumped; split <;> rfl
@[simp] theorem advanced_arrived (t : Strand) : (advanced t).arrived = t.arrived := by
  unfold advanced; split <;> rfl
@[simp] theorem jumped_arrived (p : Word) (t : Strand) : (jumped p t).arrived = t.arrived := by
  unfold jumped; split <;> rfl
@[simp] theorem advanced_leave (t : Strand) : (advanced t).leave = t.leave := by
  unfold advanced; split <;> rfl
@[simp] theorem jumped_leave (p : Word) (t : Strand) : (jumped p t).leave = t.leave := by
  unfold jumped; split <;> rfl
@[simp] theorem advanced_pwait (t : Strand) : (advanced t).pwait = t.pwait := by
  unfold advanced; split <;> rfl
@[simp] theorem advanced_maps (t : Strand) : (advanced t).maps = t.maps := by
  unfold advanced; split <;> rfl
@[simp] theorem advanced_call (t : Strand) : (advanced t).call = t.call := by
  unfold advanced; split <;> rfl
@[simp] theorem advanced_doubleFault (t : Strand) : (advanced t).doubleFault = t.doubleFault := by
  unfold advanced; split <;> rfl
@[simp] theorem advanced_stopping (t : Strand) : (advanced t).stopping = t.stopping := by
  unfold advanced; split <;> rfl
@[simp] theorem jumped_pwait (p : Word) (t : Strand) : (jumped p t).pwait = t.pwait := by
  unfold jumped; split <;> rfl
@[simp] theorem jumped_maps (p : Word) (t : Strand) : (jumped p t).maps = t.maps := by
  unfold jumped; split <;> rfl
@[simp] theorem jumped_call (p : Word) (t : Strand) : (jumped p t).call = t.call := by
  unfold jumped; split <;> rfl
@[simp] theorem jumped_doubleFault (p : Word) (t : Strand) : (jumped p t).doubleFault = t.doubleFault := by
  unfold jumped; split <;> rfl
@[simp] theorem jumped_stopping (p : Word) (t : Strand) : (jumped p t).stopping = t.stopping := by
  unfold jumped; split <;> rfl
@[simp] theorem jumped_pc (p : Word) (t : Strand) : (jumped p t).pc = p := by
  unfold jumped; split <;> rfl
/-! ## Registers -/

/-- g0 reads 0 (R203). -/
@[simp] theorem gR_zero (s : State) : gR 0 s = 0 := rfl

/-- A register read after it was written. -/
theorem gR_setG_same (r : Fin 32) (w : Word) (s : State) (h : r ≠ 0) : gR r (setG r w s) = w := by
  simp [gR, setG, h]

/-- Another register is left alone. -/
theorem gR_setG_other (r q : Fin 32) (w : Word) (s : State) (h : q ≠ r) : gR q (setG r w s) = gR q s := by
  unfold gR setG
  by_cases hr : r = 0
  · simp [hr]
  · have hv : r.1 ≠ q.1 := fun e => h (Fin.ext e.symm)
    simp [hr, hv]

/-- A write of g0 is discarded (R203). -/
@[simp] theorem setG_zero (w : Word) (s : State) : setG 0 w s = s := rfl

/-- Moving on leaves the registers alone. -/
@[simp] theorem gR_advance (r : Fin 32) (s : State) : gR r (advance s) = gR r s := by simp [gR, advance]

@[simp] theorem gR_jump (r : Fin 32) (p : Word) (s : State) : gR r (jump p s) = gR r s := by simp [gR, jump]

end Sys2Proof.Machine
end

