-- ==== Sys2Proof/Laws/Products.lean ====
section
/-! SUPPORT. The steered product of two significands, as the bit products of R275. -/

namespace Sys2Proof.Laws

open Sys2Proof.Machine Sys2Proof.Claims

/-! ## Significands as sums over their planes -/

theorem listSum_range (f : Nat → Int) (n : Nat) : ((List.range n).map f).sum = ∑ k ∈ Finset.range n, f k := by
  induction n with
  | zero => rfl
  | succ n ih => simp [List.range_succ, Finset.sum_range_succ, ih]

/-- What plane `p` of a significand adds to its value. -/
def planeWeight (d : Side) (x p : Nat) : Int := if x.testBit p = true then signAt d p * 2 ^ p else 0

theorem mod_two_pow_step (x n : Nat) : x % 2 ^ (n + 1) = x % 2 ^ n + 2 ^ n * (x.testBit n).toNat := by
  rw [Nat.mod_pow_succ, Nat.toNat_testBit]

theorem mod_eq_sum (x n : Nat) : ((x % 2 ^ n : Nat) : Int) = ∑ p ∈ Finset.range n, if x.testBit p = true then (2 : Int) ^ p else 0 := by
  induction n with
  | zero => simp [Nat.mod_one]
  | succ n ih =>
    rw [Finset.sum_range_succ, ← ih, mod_two_pow_step]
    cases h : x.testBit n <;> simp

theorem weights_below (d : Side) (x n : Nat) (h : n < d.p) : ((x % 2 ^ n : Nat) : Int) = ∑ p ∈ Finset.range n, planeWeight d x p := by
  rw [mod_eq_sum]
  refine Finset.sum_congr rfl fun p hp => ?_
  have := Finset.mem_range.1 hp
  simp [planeWeight, signAt, show p + 1 ≠ d.p by omega]

theorem signExtend_succ (x n : Nat) : signExtend x (n + 1) = ((x % 2 ^ n : Nat) : Int) - if x.testBit n = true then (2 : Int) ^ n else 0 := by
  have h := mod_two_pow_step x n
  have hl := Nat.mod_lt x (Nat.two_pow_pos n)
  have hp : 2 ^ (n + 1) = 2 * 2 ^ n := by ring
  unfold signExtend
  rw [h, Nat.add_sub_cancel]
  cases hb : x.testBit n
  · simp only [Bool.toNat_false, mul_zero, add_zero, if_pos hl, Bool.false_eq_true, if_false, sub_zero]
  · simp only [Bool.toNat_true, mul_one, if_neg (show ¬x % 2 ^ n + 2 ^ n < 2 ^ n by omega), if_true, hp]
    push_cast
    ring

theorem sigVal_eq (d : Side) (x : Nat) (h : 0 < d.p) : sigVal d x = ∑ p ∈ Finset.range d.p, planeWeight d x p := by
  obtain ⟨n, hn⟩ : ∃ n, d.p = n + 1 := ⟨d.p - 1, by omega⟩
  rw [hn, Finset.sum_range_succ, ← weights_below d x n (by omega)]
  unfold sigVal
  cases ht : d.top
  · rw [if_neg (by simp), hn, mod_two_pow_step]
    cases hb : x.testBit n <;> simp [planeWeight, signAt, ht, hb]
  · rw [if_pos rfl, hn, signExtend_succ]
    cases hb : x.testBit n <;> simp [planeWeight, signAt, ht, hb, hn]
    ring

theorem sigHigh_eq (d : Side) (x t : Nat) (h : 0 < d.p) :
    (sigHigh d x t).1 = ∑ q ∈ Finset.range d.p, if t ≤ q then planeWeight d x q else 0 := by
  unfold sigHigh
  split
  · rw [Finset.sum_eq_zero]
    intro q hq
    have := Finset.mem_range.1 hq
    rw [if_neg (by omega)]
  · rename_i ht
    simp only [sigVal_eq d x h, weights_below d x t (by omega)]
    rw [sub_eq_iff_eq_add, ← Finset.sum_filter, ← Finset.sum_filter_add_sum_filter_not (Finset.range d.p) (fun q => t ≤ q)]
    congr 1
    refine Finset.sum_congr ?_ fun _ _ => rfl
    ext q
    simp only [Finset.mem_filter, Finset.mem_range]
    omega

theorem sigHigh_flag (d : Side) (x t : Nat) : (sigHigh d x t).2 = true ↔ ∃ q, q < d.p ∧ q < t ∧ x.testBit q = true := by
  have key (n : Nat) : (x % 2 ^ n != 0) = true ↔ ∃ q, q < n ∧ x.testBit q = true := by
    rw [bne_iff_ne, ne_eq, ← not_iff_not, not_not]
    constructor
    · intro h ⟨q, hq, hb⟩
      have := Nat.testBit_mod_two_pow x n q
      simp [h, hq, hb] at this
    · intro h
      refine Nat.eq_of_testBit_eq fun q => ?_
      rw [Nat.testBit_mod_two_pow, Nat.zero_testBit]
      by_cases hq : q < n
      · have : ¬x.testBit q = true := fun hb => h ⟨q, hq, hb⟩
        simp [this]
      · simp [hq]
  unfold sigHigh
  split <;> simp only [key] <;> constructor <;> rintro ⟨q, hq⟩
  · exact ⟨q, hq.1, by omega, hq.2⟩
  · exact ⟨q, hq.1, hq.2.2⟩
  · exact ⟨q, by omega, hq.1, hq.2⟩
  · exact ⟨q, hq.2.1, hq.2.2⟩

/-! ## The product (R275) -/

theorem bitProducts_eq (da db : Side) (sa sb : Nat) (c : Int) :
    bitProducts da db sa sb c = ∑ p ∈ Finset.range da.p, ∑ q ∈ Finset.range db.p,
      if sa.testBit p = true ∧ sb.testBit q = true ∧ 0 ≤ (p : Int) + q + c then signAt da p * signAt db q * 2 ^ ((p : Int) + q + c).toNat else 0 := by
  unfold bitProducts
  rw [listSum_range]
  exact Finset.sum_congr rfl fun p _ => listSum_range _ _

/-- The steered product is the sum of the bit products that do not fall below bit 0. -/
theorem steered_up (da db : Side) (sa sb : Nat) (c : Int) (ha : 0 < da.p) (hb : 0 < db.p) (hc : 0 ≤ c) :
    sigVal da sa * sigVal db sb * 2 ^ c.toNat = bitProducts da db sa sb c := by
  rw [bitProducts_eq, sigVal_eq da sa ha, sigVal_eq db sb hb, Finset.sum_mul_sum, Finset.sum_mul]
  refine Finset.sum_congr rfl fun p _ => ?_
  rw [Finset.sum_mul]
  refine Finset.sum_congr rfl fun q _ => ?_
  have hk : ((p : Int) + q + c).toNat = p + q + c.toNat := by omega
  have hn : 0 ≤ (p : Int) + q + c := by omega
  simp only [planeWeight, hk, hn, and_true]
  by_cases h1 : sa.testBit p = true <;> by_cases h2 : sb.testBit q = true <;> simp [h1, h2]
  ring

/-- One row of the bit products, for a plane of the first significand, that a shift down by `m` leaves. -/
theorem steered_row (da db : Side) (sa sb p m : Nat) (hb : 0 < db.p) (hp : sa.testBit p = true) :
    signAt da p * ((sigHigh db sb (m - p)).1 * 2 ^ p) = 2 ^ m * ∑ q ∈ Finset.range db.p,
      if sa.testBit p = true ∧ sb.testBit q = true ∧ 0 ≤ (p : Int) + q + -(m : Int) then signAt da p * signAt db q * 2 ^ ((p : Int) + q + -(m : Int)).toNat else 0 := by
  rw [sigHigh_eq db sb (m - p) hb, Finset.sum_mul, Finset.mul_sum, Finset.mul_sum]
  refine Finset.sum_congr rfl fun q _ => ?_
  by_cases h : m - p ≤ q
  · have hn : 0 ≤ (p : Int) + q + -(m : Int) := by omega
    have hk : ((p : Int) + q + -(m : Int)).toNat = p + q - m := by omega
    have he : (2 : Int) ^ p * 2 ^ q = 2 ^ m * 2 ^ (p + q - m) := by rw [← pow_add, ← pow_add]; congr 1; omega
    simp only [h, hp, hn, hk, planeWeight, if_true, true_and, and_true]
    by_cases h2 : sb.testBit q = true <;> simp only [h2, if_true]
    · linear_combination signAt da p * signAt db q * he
    · simp
  · have hn : ¬0 ≤ (p : Int) + q + -(m : Int) := by omega
    simp [h, hn]

/-- What the walk over the planes of the first significand gathers. -/
theorem steered_fold (da db : Side) (sa sb m n : Nat) (hb : 0 < db.p) :
    let r := (List.range n).foldl (fun (acc : Int × Bool) p =>
      if sa.testBit p then
        let h := sigHigh db sb (m - p)
        let term := h.1 * 2 ^ p
        (if da.top && p + 1 == da.p then acc.1 - term else acc.1 + term, acc.2 || h.2)
      else acc) (0, false)
    r.1 = 2 ^ m * ∑ p ∈ Finset.range n, ∑ q ∈ Finset.range db.p,
      (if sa.testBit p = true ∧ sb.testBit q = true ∧ 0 ≤ (p : Int) + q + -(m : Int) then signAt da p * signAt db q * 2 ^ ((p : Int) + q + -(m : Int)).toNat else 0) ∧
    (r.2 = true ↔ ∃ p q, p < n ∧ q < db.p ∧ sa.testBit p = true ∧ sb.testBit q = true ∧ (p : Int) + q + -(m : Int) < 0) := by
  induction n with
  | zero => simp
  | succ n ih =>
    simp only [List.range_succ, List.foldl_append, List.foldl_cons, List.foldl_nil] at ih ⊢
    obtain ⟨h1, h2⟩ := ih
    rw [Finset.sum_range_succ, mul_add]
    by_cases hp : sa.testBit n = true
    · rw [if_pos hp]
      refine ⟨?_, ?_⟩
      · rw [← steered_row da db sa sb n m hb hp, ← h1]
        by_cases ht : da.top = true ∧ n + 1 = da.p
        · simp only [ht.1, ht.2, signAt, beq_self_eq_true, Bool.and_self, if_true, and_self]
          ring
        · have : (da.top && n + 1 == da.p) = false := by
            by_contra hx
            exact ht (by simpa using hx)
          simp only [this, signAt, if_neg ht, Bool.false_eq_true, if_false]
          ring
      · rw [Bool.or_eq_true, h2, sigHigh_flag]
        constructor
        · rintro (⟨p, q, hpn, h⟩ | ⟨q, hq, hl, hbq⟩)
          · exact ⟨p, q, by omega, h⟩
          · exact ⟨n, q, by omega, hq, hp, hbq, by omega⟩
        · rintro ⟨p, q, hpn, hq, hbp, hbq, hneg⟩
          by_cases he : p = n
          · subst he
            exact .inr ⟨q, hq, by omega, hbq⟩
          · exact .inl ⟨p, q, by omega, hq, hbp, hbq, hneg⟩
    · rw [if_neg hp]
      refine ⟨?_, ?_⟩
      · rw [h1, Finset.sum_eq_zero (s := Finset.range db.p) fun q _ => by simp [hp]]
        simp
      · rw [h2]
        constructor
        · rintro ⟨p, q, hpn, h⟩
          exact ⟨p, q, by omega, h⟩
        · rintro ⟨p, q, hpn, hq, hbp, h⟩
          exact ⟨p, q, by have : p ≠ n := fun he => hp (he ▸ hbp); omega, hq, hbp, h⟩

/-- The product of two significands as the array makes it: the bit products that do not fall below bit 0, and whether one does (R275). -/
theorem steered_eq (da db : Side) (sa sb : Nat) (c : Int) (ha : 0 < da.p) (hb : 0 < db.p) :
    (steered da db sa sb c).1 = bitProducts da db sa sb c ∧
    ((steered da db sa sb c).2 = true ↔ ∃ p q : Nat, p < da.p ∧ q < db.p ∧ sa.testBit p = true ∧ sb.testBit q = true ∧ (p : Int) + q + c < 0) := by
  unfold steered
  split
  · rename_i hc
    refine ⟨steered_up da db sa sb c ha hb hc, ?_⟩
    simp only [Bool.false_eq_true, false_iff]
    rintro ⟨p, q, _, _, _, _, h⟩
    omega
  · rename_i hc
    have hm : c = -(((-c).toNat : Nat) : Int) := by omega
    have h := steered_fold da db sa sb (-c).toNat da.p hb
    rw [← hm] at h
    obtain ⟨h1, h2⟩ := h
    refine ⟨?_, h2⟩
    rw [bitProducts_eq]
    simp only [h1]
    exact Int.mul_ediv_cancel_left _ (by positivity)

end Sys2Proof.Laws
end

