-- ==== Sys2Proof/Laws/Vector.lean ====
section
/-! SUPPORT. What an instruction that writes a vector or a mask register leaves in it. -/

namespace Sys2Proof.Laws

open Sys2Proof.Machine Sys2Proof.Claims

/-! ## Bits of lists of codes -/

theorem bitsOf_testBit (b : Nat) : ∀ (cs : List Nat) (k : Nat), (bitsOf b cs).testBit k = ((cs.getD k 0).testBit b)
  | [], k => by simp [bitsOf]
  | c :: cs, 0 => by
    simp [bitsOf, Nat.testBit, Nat.shiftRight_eq_div_pow, Nat.one_and_eq_mod_two]
  | c :: cs, k + 1 => by
    have h : (c / 2 ^ b % 2 + 2 * bitsOf b cs) / 2 = bitsOf b cs := by omega
    rw [bitsOf, Nat.testBit_succ, h, bitsOf_testBit b cs k]
    simp

theorem bitsOfBools_testBit : ∀ (cs : List Bool) (k : Nat), (bitsOfBools cs).testBit k = cs.getD k false
  | [], k => by simp [bitsOfBools]
  | c :: cs, 0 => by
    cases c <;> simp [bitsOfBools, Nat.testBit, Nat.one_and_eq_mod_two] <;> omega
  | c :: cs, k + 1 => by
    have h : (c.toNat + 2 * bitsOfBools cs) / 2 = bitsOfBools cs := by cases c <;> simp <;> omega
    rw [bitsOfBools, Nat.testBit_succ, h, bitsOfBools_testBit cs k]
    simp

theorem bitsOf_lt (b : Nat) : ∀ cs : List Nat, bitsOf b cs < 2 ^ cs.length
  | [] => by simp [bitsOf]
  | c :: cs => by
    have := bitsOf_lt b cs
    rw [bitsOf, List.length_cons, Nat.pow_succ]
    omega

/-- The code whose bits some planes hold. -/
theorem codeAt_range (f : Nat → Plane) (k c : Nat) :
    ∀ (n lo : Nat), (∀ b, lo ≤ b → b < lo + n → (f b).getLsbD k = c.testBit b) →
      codeAt ((List.range' lo n).map f) k = c / 2 ^ lo % 2 ^ n
  | 0, lo, _ => by simp [codeAt, Nat.mod_one]
  | n + 1, lo, h => by
    rw [List.range'_succ, List.map_cons, codeAt, codeAt_range f k c n (lo + 1) (fun b h1 h2 => h b (by omega) (by omega)), h lo (by omega) (by omega)]
    have h2 : (c.testBit lo).toNat = c / 2 ^ lo % 2 := by
      rw [Nat.testBit_eq_decide_div_mod_eq]
      have := Nat.mod_two_eq_zero_or_one (c / 2 ^ lo)
      rcases this with h | h <;> simp [h]
    rw [h2, Nat.pow_succ 2 lo, ← Nat.div_div_eq_div_mul, Nat.pow_succ, Nat.mul_comm (2 ^ n) 2, Nat.mod_mul]

theorem codeAt_planes (w : Nat) (f : Nat → Plane) (k c : Nat) (h : ∀ b, b < w → (f b).getLsbD k = c.testBit b) :
    codeAt ((List.range w).map f) k = c % 2 ^ w := by
  rw [List.range_eq_range', codeAt_range f k c w 0 (fun b _ h2 => h b (by omega))]
  simp

/-- The bits of an element's code are those of its planes. -/
theorem codeAt_testBit (k : Nat) : ∀ (ps : List Plane) (b : Nat), (codeAt ps k).testBit b = (ps.getD b 0).getLsbD k
  | [], b => by simp [codeAt]
  | p :: ps, 0 => by cases h : p.getLsbD k <;> simp [codeAt, h, Nat.testBit, Nat.one_and_eq_mod_two] <;> omega
  | p :: ps, b + 1 => by
    have h : ((p.getLsbD k).toNat + 2 * codeAt ps k) / 2 = codeAt ps k := by cases p.getLsbD k <;> simp <;> omega
    rw [codeAt, Nat.testBit_succ, h, codeAt_testBit k ps b]
    simp

theorem lowMask_bit (n k : Nat) : (lowMask n).getLsbD k = (decide (k < 16384) && decide (k < n)) := by
  simp [lowMask, BitVec.getLsbD_ofNat, Nat.testBit_two_pow_sub_one]

/-! ## A write of every element from SIX up to VL -/

/-- The write of the whole range from SIX to VL. -/
def rangeWrite (tag : BitVec 16) (six vl : Nat) (codes : List (Option Nat)) (scale : Nat → Nat) : VWrite := ⟨tag, six, max six vl, vl, codes, scale⟩

theorem full_getD (w : VWrite) (prev : VReg) (k : Nat) (h : k < w.codes.length) :
    (w.full prev).getD k 0 = (w.codes.getD k none).getD (elem prev (w.six + k) % 2 ^ tagWidth w.tag) := by
  simp [VWrite.full, List.getD, List.getElem?_mapIdx, List.getElem?_eq_getElem h]

theorem full_beyond (w : VWrite) (prev : VReg) (k : Nat) (h : w.codes.length ≤ k) : (w.full prev).getD k 0 = 0 := by
  simp [VWrite.full, List.getD, List.getElem?_mapIdx, List.getElem?_eq_none h]

theorem rangeWrite_elem (tag : BitVec 16) (six vl : Nat) (codes : List (Option Nat)) (scale : Nat → Nat) (pc : Word) (cur prev : VReg) (hv : vl ≤ vlmax)
    (hl : codes.length = vl - six) (k : Nat) :
    elem ((rangeWrite tag six vl codes scale).result pc cur prev) k =
      if k < six then elem cur k % 2 ^ tagWidth tag else if k < vl then (codes.getD (k - six) none).getD (elem prev k) % 2 ^ tagWidth tag else 0 := by
  have hp : elem ((rangeWrite tag six vl codes scale).result pc cur prev) k =
      (if k < six then elem cur k else ((rangeWrite tag six vl codes scale).full prev).getD (k - six) 0) % 2 ^ tagWidth tag := by
    unfold elem VWrite.result VWrite.planes
    apply codeAt_planes
    intro b _
    have hc : (planeAt cur b).getLsbD k = (codeAt cur.planes k).testBit b := (codeAt_testBit k _ b).symm
    have hk : 16384 ≤ k → (planeAt cur b).getLsbD k = false := fun h => BitVec.getLsbD_of_ge _ _ h
    simp only [rangeWrite, VWrite.complete, Nat.le_max_right, decide_true, if_true, BitVec.getLsbD_or, BitVec.getLsbD_and, lowMask_bit, BitVec.getLsbD_ofNat,
      Nat.testBit_mul_two_pow, bitsOf_testBit]
    by_cases h1 : k < six
    · have h2 : ¬ six ≤ k := by omega
      by_cases h3 : k < 16384
      · rw [hc]; simp [h1, h2, h3]
      · simp [h1, h2, h3, ← hc, hk (by omega)]
    · have h2 : six ≤ k := by omega
      by_cases h3 : k < 16384
      · simp [h1, h2, h3]
      · have := full_beyond (rangeWrite tag six vl codes scale) prev (k - six) (by simp [rangeWrite, hl, vlmax] at *; omega)
        simp only [rangeWrite] at this
        rw [this]; simp [h1, h3]
  rw [hp]
  by_cases h1 : k < six
  · simp [h1]
  · rw [if_neg h1, if_neg h1]
    by_cases hk : k < vl
    · rw [full_getD _ _ _ (by simp [rangeWrite, hl]; omega), if_pos hk]
      simp only [rangeWrite, show six + (k - six) = k by omega]
      cases codes.getD (k - six) none <;> simp
    · rw [full_beyond _ _ _ (by simp [rangeWrite, hl]; omega), if_neg hk]
      simp

theorem packBytes_byte : ∀ (cs : List Nat) (k : Nat), packBytes cs / 2 ^ (8 * k) % 256 = cs.getD k 0 % 256
  | [], k => by simp [packBytes]
  | c :: cs, 0 => by simp [packBytes]
  | c :: cs, k + 1 => by
    have h : packBytes (c :: cs) / 2 ^ (8 * (k + 1)) = packBytes cs / 2 ^ (8 * k) := by
      rw [packBytes, show 8 * (k + 1) = 8 + 8 * k by omega, Nat.pow_add, ← Nat.div_div_eq_div_mul]
      congr 1
      omega
    rw [h, packBytes_byte cs k]
    simp

theorem packBytes_lt : ∀ cs : List Nat, packBytes cs < 2 ^ (8 * cs.length)
  | [] => by simp [packBytes]
  | c :: cs => by
    have := packBytes_lt cs
    rw [packBytes, List.length_cons, show 8 * (cs.length + 1) = 8 + 8 * cs.length by omega, Nat.pow_add]
    omega

theorem scaleByte_packed (f : Nat → Nat) (n k : Nat) (hn : 8 * n ≤ 16384) (hk : k < n) :
    scaleByte (BitVec.ofNat 16384 (packBytes ((List.range n).map f))) k = f k % 256 := by
  have h1 := packBytes_lt ((List.range n).map f)
  rw [List.length_map, List.length_range] at h1
  have h2 := Nat.lt_of_lt_of_le h1 (Nat.pow_le_pow_right (show 0 < 2 by omega) hn)
  rw [scaleByte, BitVec.toNat_ofNat, Nat.mod_eq_of_lt h2, field, show (2 : Nat) ^ 8 = 256 from rfl, packBytes_byte]
  simp [hk]

/-- The block lengths that a tag may name. -/
theorem blockLen_cases (tag : BitVec 16) : blockLen tag = 0 ∨ blockLen tag = 8 ∨ blockLen tag = 16 ∨ blockLen tag = 32 := by
  unfold blockLen
  repeat' split
  all_goals simp

theorem rangeWrite_scale (tag : BitVec 16) (six vl : Nat) (codes : List (Option Nat)) (scale : Nat → Nat) (pc : Word) (cur prev : VReg)
    (k : Nat) (hk : k < vlmax / blockLen tag) :
    scaleByte ((rangeWrite tag six vl codes scale).result pc cur prev).scale k =
      if (k + 1) * blockLen tag ≤ six then scaleByte cur.scale k else if k * blockLen tag < vl then scale k % 256 else 0x7F := by
  have hl := blockLen_cases tag
  have hne : blockLen tag ≠ 0 := by intro h; rw [h] at hk; simp at hk
  have hn : 8 * (vlmax / blockLen tag) ≤ 16384 := by rcases hl with h | h | h | h <;> simp_all [vlmax]
  simp only [VWrite.result, VWrite.scales, rangeWrite, hne, if_false]
  rw [scaleByte_packed _ _ _ hn hk]
  by_cases h1 : (k + 1) * blockLen tag ≤ six
  · simp [h1, scaleByte, field]
  · simp only [h1, if_false, VWrite.complete, Nat.le_max_right, decide_true, if_true]
    by_cases h : k * blockLen tag < vl
    · have h' : ¬ vl ≤ k * blockLen tag := by omega
      have h2 : ¬ max six vl ≤ k * blockLen tag := by omega
      simp [h', h2, h]
    · have h' : vl ≤ k * blockLen tag := by omega
      simp [h, h']

theorem rangeWrite_unscaled (tag : BitVec 16) (six vl : Nat) (codes : List (Option Nat)) (scale : Nat → Nat) (pc : Word) (cur prev : VReg) (h : blockLen tag = 0) :
    ((rangeWrite tag six vl codes scale).result pc cur prev).scale = 0 := by
  simp [VWrite.result, VWrite.scales, rangeWrite, h]

theorem rangeWrite_writers (tag : BitVec 16) (six vl : Nat) (codes : List (Option Nat)) (scale : Nat → Nat) (pc : Word) (cur prev : VReg) :
    ((rangeWrite tag six vl codes scale).result pc cur prev).writers = (cur.writers.filter fun p => decide (p.1 < six / 64)) ++ [(six / 64, pc)] := by
  simp only [VWrite.result, VWrite.writers, rangeWrite, VWrite.complete, Nat.le_max_right, decide_true, if_true]
  rfl

theorem rangeWrite_poison (tag : BitVec 16) (six vl : Nat) (codes : List (Option Nat)) (scale : Nat → Nat) (pc : Word) (cur prev : VReg) (h1 : cur.poison = [])
    (h2 : prev.poison = []) : ((rangeWrite tag six vl codes scale).result pc cur prev).poison = [] := by
  simp [VWrite.result, VWrite.marks, rangeWrite, h1, h2]

/-! ## Instructions that begin, or go on at SIX -/

theorem clearQuota_none (s : State) (h : s.quota = none) : clearQuota s = s := by
  cases s; simp_all [clearQuota]

theorem raise_held (fl : Nat) (s : State) : (raise fl s).me.held = s.me.held := rfl
theorem raise_v (fl : Nat) (s : State) : (raise fl s).me.v = s.me.v := rfl
theorem raise_quota (fl : Nat) (s : State) : (raise fl s).quota = s.quota := rfl

/-- A write of every element from SIX up to VL, of codes given by a list, leaves what Lanes of those codes leave. -/
theorem writeV_leaves (l : Lanes) (s : State) (codes : List (Option Nat)) (hf : Begun s) (hl : codes.length = s.me.vl - s.me.six)
    (h1 : ∀ k, s.me.six ≤ k → k < s.me.vl → codes.getD (k - s.me.six) none = if l.act k then some (l.code k).1 else none) :
    ∃ r : VReg, writeV l.dest (rangeWrite l.tag s.me.six s.me.vl codes l.scale) (l.flags s) s =
      retire (onMe (putV l.dest r) (raise (l.flags s) (mapTo l.dest l.tag s))) ∧ l.Leaves s r := by
  obtain ⟨_, _, hq, hvl⟩ := hf
  refine ⟨(rangeWrite l.tag s.me.six s.me.vl codes l.scale).result s.me.pc s.me.v[l.dest] (vSrc l.dest s), ?_, rfl, rangeWrite_writers _ _ _ _ _ _ _ _, ?_, ?_, ?_, ?_, ?_, ?_, ?_, ?_⟩
  · simp only [writeV, VWrite.complete, rangeWrite, Nat.le_max_right, decide_true, if_true]
    rw [clearQuota_none _ (by exact hq)]
  · simp [VWrite.result, VWrite.planes, rangeWrite]
  · exact rangeWrite_poison _ _ _ _ _ _ _ _
  · intro k hk
    rw [rangeWrite_elem _ _ _ _ _ _ _ _ hvl hl, if_pos hk]
  · intro k h6 hk ha
    rw [rangeWrite_elem _ _ _ _ _ _ _ _ hvl hl, if_neg (by omega), if_pos hk, h1 k h6 hk, if_pos ha]
    rfl
  · intro k h6 hk ha
    rw [rangeWrite_elem _ _ _ _ _ _ _ _ hvl hl, if_neg (by omega), if_pos hk, h1 k h6 hk, ha]
    rfl
  · intro k h6 hk
    rw [rangeWrite_elem _ _ _ _ _ _ _ _ hvl hl, if_neg (by omega), if_neg (by omega)]
  · exact rangeWrite_unscaled _ _ _ _ _ _ _ _
  · intro k hk; exact rangeWrite_scale _ _ _ _ _ _ _ _ k hk

theorem stopAt_begun (s : State) (hf : Begun s) : stopAt s = max s.me.six s.me.vl := by
  obtain ⟨_, _, hq, _⟩ := hf
  simp [stopAt, hq]

theorem elementsTo_begun (s : State) : elementsTo (max s.me.six s.me.vl) s.me = (List.range (s.me.vl - s.me.six)).map fun k => s.me.six + k := by
  simp [elementsTo, Nat.min_eq_right (Nat.le_max_right _ _)]

/-- The active elements that an instruction does, in order, are those that it has to do. -/
theorem elementsTo_toDo (act : Nat → Bool) (s : State) : (elementsTo (max s.me.six s.me.vl) s.me).filter act = toDo act s := by
  rw [elementsTo_begun, toDo]
  have h : ∀ (a n : Nat), a ≤ n → (List.range n).filter (fun k => decide (a ≤ k) && act k) = ((List.range (n - a)).map fun k => a + k).filter act := by
    intro a n h
    have e : n = a + (n - a) := by omega
    conv => lhs; rw [e, List.range_add, List.filter_append]
    rw [List.filter_eq_nil_iff.mpr (by intro k hk; simp at hk; simp; omega), List.nil_append]
    apply List.filter_congr
    intro k hk
    simp only [List.mem_map] at hk
    obtain ⟨j, _, rfl⟩ := hk
    simp
  by_cases h6 : s.me.six ≤ s.me.vl
  · exact (h _ _ h6).symm
  · rw [show s.me.vl - s.me.six = 0 by omega, List.range_zero, List.map_nil, List.filter_nil]
    exact (List.filter_eq_nil_iff.mpr (by intro k hk; simp at hk; simp; omega)).symm

theorem codesTo_eq (act : Nat → Bool) (f : Nat → Nat × Nat) :
    ∀ es : List Nat, codesTo act f es = (es.map (fun i => if act i then some (f i).1 else none), orAll ((es.filter act).map fun k => (f k).2))
  | [] => rfl
  | e :: es => by
    rw [codesTo, codesTo_eq act f es]
    by_cases h : act e = true <;> simp [h, orAll]

/-- Elements that lie in no poisoned word stop no instruction. -/
theorem firstPoison_clean (srcs : List (Fin 32 × VReg)) (es : List Nat) (h : NoPoison srcs es) : firstPoison srcs es = none := by
  unfold firstPoison
  split
  · rfl
  · rw [List.findSome?_eq_none_iff]
    intro e he
    rw [List.findSome?_eq_none_iff]
    intro r hr
    rw [Option.map_eq_none_iff, markAt, List.find?_eq_none]
    intro m hm
    simpa using h e he r hr m hm

/-- An element-wise instruction that consumes no poison does what its Lanes say. -/
theorem elementwise_done (l : Lanes) (s : State) (hf : Begun s) (hp : NoPoison l.srcs (toDo l.act s)) :
    l.Done s (elementwise l.dest l.srcs l.tag l.act l.code l.scale s) := by
  unfold elementwise
  rw [stopAt_begun s hf, elementsTo_toDo]
  simp only [firstPoison_clean _ _ hp]
  have h := writeV_leaves l s ((List.range (s.me.vl - s.me.six)).map fun k => if l.act (s.me.six + k) then some (l.code (s.me.six + k)).1 else none) hf (by simp)
    (by intro k h6 hk; simp [show k - s.me.six < s.me.vl - s.me.six by omega, show s.me.six + (k - s.me.six) = k by omega])
  obtain ⟨r, h1, h2⟩ := h
  refine ⟨r, ?_, h2⟩
  rw [← h1, codesTo_eq, elementsTo_toDo, elementsTo_begun]
  simp only [rangeWrite, Lanes.flags, List.map_map]
  rfl

/-- An instruction whose checks pass exactly when its Lanes are legal and the budget holds, and which then is element-wise, runs as its Lanes say while it consumes no poison. -/
theorem elementwise_runs (l : Lanes) (i : Instr) (s : State) (hf : Begun s)
    (h1 : l.ok = true → budgetOk s.me l.dest l.tag = true → roomFor l.dest l.tag s = true → exec i s = .next (elementwise l.dest l.srcs l.tag l.act l.code l.scale s))
    (h2 : l.ok = true → budgetOk s.me l.dest l.tag = true → roomFor l.dest l.tag s = false → exec i s = .next s)
    (h3 : l.ok = false ∨ budgetOk s.me l.dest l.tag = false → exec i s = .next (illop i 0 s)) : l.RunsOn (toDo l.act s) i s :=
  ⟨fun ho hb hr hc => ⟨_, h1 ho hb hr, elementwise_done l s hf hc⟩, h2, h3⟩

/-- The checks of a vector instruction, one after the other, in a strand that is in no handler. -/
theorem checks_out (i : Instr) (ok : State → Bool) (d : Fin 32) (tag : State → BitVec 16) (f : State → State → State) (s : State)
    (h : inHandler s.me = false) :
    ((vqueue i s).bind fun _ s1 => (require i (ok s1) s1).bind fun _ s2 => (fits i d (tag s1) s2).bind fun _ s3 => .ok () (f s1 s3)).out =
      .next (if ok s && budgetOk s.me d (tag s) then (if roomFor d (tag s) s then f s s else s) else illop i 0 s) := by
  simp only [vqueue, require, h, fits, Bool.not_false, if_true, Res.bind, illegal]
  cases h1 : ok s <;> cases h2 : budgetOk s.me d (tag s) <;> cases h3 : roomFor d (tag s) s <;> simp [h2, h3, Res.out, Res.done]

/-- The same without a check of the operands. -/
theorem room_out (i : Instr) (d : Fin 32) (tag : State → BitVec 16) (f : State → State → State) (s : State) (h : inHandler s.me = false) :
    ((vqueue i s).bind fun _ s1 => (fits i d (tag s1) s1).bind fun _ s3 => .ok () (f s1 s3)).out =
      .next (if budgetOk s.me d (tag s) then (if roomFor d (tag s) s then f s s else s) else illop i 0 s) := by
  simp only [vqueue, require, h, fits, Bool.not_false, if_true, Res.bind, illegal]
  cases h2 : budgetOk s.me d (tag s) <;> cases h3 : roomFor d (tag s) s <;> simp [h3, Res.out, Res.done]

end Sys2Proof.Laws
end

