-- ==== Sys2Proof/Laws/Quiet.lean ====
section
/-! SUPPORT. In a state in which nothing is on its way, delivering, draining and releasing change nothing; and what a write at the home changes. -/

namespace Sys2Proof.Laws

open Sys2Proof.Machine Sys2Proof.Claims

/-! ## Nothing on its way -/

theorem drainQueue_quiet (s : State) (h : s.me.stq = []) : drainQueue s = s := by
  simp [drainQueue, h, drainStores]

theorem coreAt_here (s : State) : coreAt s.core.mesh s = s.core := by simp [coreAt]

theorem drainOut_quiet (mesh : Nat) (p : Write → Bool) (s : State) (hm : s.core.mesh = mesh) (h : s.core.out = []) : drainOut mesh p s = s := by
  subst hm
  have e : modCore s.core.mesh (fun c => { c with out := [] }) s = s := by
    rcases s with ⟨me, core⟩
    simp only [modCore, if_true] at h ⊢
    cases core
    simp_all
  simp [drainOut, coreAt_here, h, splitWrites, e, homeWrites, countWrites]

theorem drainVector_quiet (p : Write → Bool) (s : State) (h : s.me.vwq = []) : drainVector p s = s := by
  have e : onMe (fun t => { t with vwq := [] }) s = s := by
    rcases s with ⟨me⟩
    cases me
    simp_all [onMe]
  simp [drainVector, h, splitWrites, e, performWrites]

theorem settled_mesh (s : State) (h : Settled s) : s.core.mesh = s.me.mesh := h.kept.atHand.symm

theorem releaseWrites_quiet (a b : Bool) (p : Option Word → Bool) (c : Scope) (s : State) (h : Settled s) : releaseWrites a b p c s = s := by
  unfold releaseWrites
  have e1 : (if a then drainQueue s else s) = s := by cases a <;> simp [drainQueue_quiet s h.stq]
  simp only [e1]
  have e2 : (if b then drainVector (covered p) s else s) = s := by cases b <;> simp [drainVector_quiet _ s h.vwq]
  simp only [e2]
  split
  · rfl
  · exact drainOut_quiet _ _ _ (settled_mesh s h) h.out

theorem settle_quiet (path : Path) (ls : List Loc) (s : State) (h : Settled s) : settle path ls s = s := by
  cases path
  · exact drainOut_quiet _ _ _ (settled_mesh s h) h.out
  · simp only [settle, drainVector_quiet _ s h.vwq]
    exact drainOut_quiet _ _ _ (settled_mesh s h) h.out

theorem remoteBusy_quiet (s : State) (h : Settled s) : remoteBusy s = false := by simp [remoteBusy, h.remote]
theorem storesAway_quiet (s : State) (h : Settled s) : storesAway s = false := by simp [storesAway, h.remote]

theorem deliverKnown_quiet (s : State) (h : Settled s) : deliverKnown s = .ok () s := by
  simp [deliverKnown, drainQueue_quiet s h.stq, storeTrapDue, h.sfq, h.stq]

theorem deliverStores_quiet (s : State) (h : Settled s) : deliverStores s = .ok () s := by
  simp [deliverStores, deliverKnown_quiet s h, Res.bind, storesAway_quiet s h]

theorem performAll_quiet (s : State) (h : Settled s) : performAll s = s := releaseWrites_quiet _ _ _ _ s h

theorem drainAll_quiet (s : State) (h : Settled s) : drainAll s = .ok () s := by
  simp [drainAll, performAll_quiet s h, remoteBusy_quiet s h, h.stq]

theorem releaseAt_quiet (a b : Bool) (p : Option Word → Bool) (c : Scope) (s : State) (h : Settled s) : releaseAt a b p c s = .ok () s := by
  simp [releaseAt, releaseWrites_quiet _ _ _ _ s h, remoteBusy_quiet s h, h.stq]

theorem fenceRelease_quiet (a b : Bool) (c : Scope) (s : State) (h : Settled s) : fenceRelease a b c s = .ok () s := releaseAt_quiet _ _ _ _ s h

theorem ownFirst_quiet (ls : List Loc) (s : State) (h : Settled s) : ownFirst ls s = .ok () s := by
  simp [ownFirst, drainQueue_quiet s h.stq, settle_quiet _ _ s h, queuedIn, h.stq]

/-- With no word of memory in error no data are. -/
theorem goodData_clean (va : Word) (ls : List Loc) (s : State) (h : s.bad = []) : goodData va ls s = .ok () s := by simp [goodData, badAt, h]

/-! ## Acquires -/

theorem modCores_settled (ms : List Nat) (f : Core → Core) (s : State) (hs : Settled s)
    (hf : ∀ c, (f c).mesh = c.mesh ∧ (f c).out = c.out ∧ (f c).strands = c.strands) :
    Settled (ms.foldl (fun s m => modCore m f s) s) ∧ (ms.foldl (fun s m => modCore m f s) s).me = s.me ∧
      (ms.foldl (fun s m => modCore m f s) s).mem = s.mem ∧ (ms.foldl (fun s m => modCore m f s) s).launches = s.launches := by
  induction ms generalizing s with
  | nil => exact ⟨hs, rfl, rfl, rfl⟩
  | cons m ms ih =>
    have h1 : Settled (modCore m f s) := by
      obtain ⟨⟨k1, k2, k3, k4, k5⟩, h1, h2, h3, h4, h5⟩ := hs
      by_cases hm : s.core.mesh = m
      · constructor
        · constructor
          · simpa [modCore, hm] using k1
          · simpa [modCore, hm] using k2
          · simp [modCore, hm, (hf s.core).1, k3]
          · simp only [modCore, hm, if_true, Core.housed, (hf s.core).1, (hf s.core).2.2]; intro t ht; rw [← hm]; exact k4 t ht
          · simpa [modCore, hm] using k5
        all_goals simp [modCore, (hf s.core).2.1, *]
      · constructor
        · constructor
          · simpa [modCore, hm] using k1
          · simpa [modCore, hm] using k2
          · simp [modCore, hm, k3]
          · simp [modCore, hm]; exact k4
          · simp only [modCore, hm, if_false]
            intro c hc
            obtain ⟨c', hc', rfl⟩ := List.mem_map.1 hc
            have := k5 c' hc'
            by_cases hm' : c'.mesh = m
            · simp only [hm', if_true, Core.housed, (hf c').1, (hf c').2.2]; intro t ht; rw [← hm']; exact this t ht
            · simp only [hm', if_false]; exact this
        all_goals simp [modCore, *]
    obtain ⟨a, b, c, d⟩ := ih _ h1
    refine ⟨a, ?_, ?_, ?_⟩
    · rw [List.foldl_cons, b]; exact Sys2Proof.Machine.modCore_me m f s
    · rw [List.foldl_cons, c]; exact Sys2Proof.Machine.modCore_mem m f s
    · rw [List.foldl_cons, d]; exact Sys2Proof.Machine.modCore_launches m f s

/-- An acquire leaves nothing on its way and changes neither the strand nor memory. -/
theorem acquireCopies_settled (p : Option Word → Bool) (c : Scope) (s : State) (h : Settled s) :
    Settled (acquireCopies p c s) ∧ (acquireCopies p c s).me = s.me ∧ (acquireCopies p c s).mem = s.mem ∧ (acquireCopies p c s).launches = s.launches := by
  unfold acquireCopies
  split
  · exact ⟨h, rfl, rfl, rfl⟩
  · exact modCores_settled _ _ s h (fun c => ⟨rfl, rfl, rfl⟩)

/-! ## Writes at the home -/

/-- Only the dies changed, and what is noted of the host's lines in L2. -/
structure OnlyDies (s t : State) : Prop where
  same : t = { s with dies := t.dies, hostStale := t.hostStale }

theorem OnlyDies.refl (s : State) : OnlyDies s s := ⟨rfl⟩
theorem OnlyDies.trans {s t u : State} (h1 : OnlyDies s t) (h2 : OnlyDies t u) : OnlyDies s u := by
  obtain ⟨h1⟩ := h1
  obtain ⟨h2⟩ := h2
  rw [h1] at h2
  exact ⟨h2⟩

theorem modDie_only (d : Nat) (f : Die → Die) (s : State) : OnlyDies s (modDie d f s) := ⟨rfl⟩

theorem dramRequest_only (ctx pa : Nat) (read : Bool) (s : State) : OnlyDies s (dramRequest ctx pa read s) := by
  unfold dramRequest
  split <;> exact ⟨rfl⟩

theorem joinRead_only (line : Nat) (s : State) : OnlyDies s (joinRead line s) := by
  unfold joinRead
  split
  · exact .refl s
  · split
    · exact modDie_only _ _ _
    · exact .refl s

theorem charge_only (d ctx : Nat) (k : Fin 7) (n : Nat) (s : State) : OnlyDies s (charge d ctx k n s) := by
  unfold charge
  split <;> exact ⟨rfl⟩

theorem hostHas_only (p : Nat → Bool) (s : State) : OnlyDies s (hostHas p s) := ⟨rfl⟩

theorem writeBack_only (d ctx line : Nat) (s : State) : OnlyDies s (writeBack d ctx line s) :=
  ((hostHas_only _ s).trans (charge_only d ctx cWB 64 _)).trans (dramRequest_only _ _ _ _)

theorem putSet_only (d line : Nat) (x : L2Set) (s : State) : OnlyDies s (putSet d line x s) := ⟨rfl⟩

theorem chargeHit_only (d ctx owner : Nat) (s : State) : OnlyDies s (chargeHit d ctx owner s) := by
  unfold chargeHit
  split
  · exact .refl s
  · split
    · exact charge_only _ _ _ _ _
    · exact (charge_only _ _ _ _ _).trans (charge_only _ _ _ _ _)

theorem l2Access_only (ctx : Nat) (wb : Bool) (line n fill : Nat) (write : Bool) (s : State) : OnlyDies s (l2Access ctx wb line n fill write s) := by
  unfold l2Access
  cases wb
  · simp only [Bool.not_false, if_true]
    split
    · exact (charge_only _ _ _ _ _).trans (dramRequest_only _ _ _ _)
    · exact .refl s
  · simp only [Bool.not_true, Bool.false_eq_true, if_false]
    generalize hk : (match regionOf (line * 64) with | .persistent _ => false | _ => true) = keeps
    split
    · split
      · exact .refl s
      · refine OnlyDies.trans ?_ (putSet_only _ _ _ _)
        refine OnlyDies.trans ?_ (chargeHit_only _ _ _ _)
        split
        · exact joinRead_only _ _
        · exact .refl s
    · refine OnlyDies.trans ?_ (putSet_only _ _ _ _)
      have h1 : ∀ o : Option L2Line, OnlyDies s (match o with
          | none => s
          | some v => charge (homeDie (line * 64)) v.owner cEVICTED 1 (if v.dirty then writeBack (homeDie (line * 64)) ctx v.line s else s)) := by
        intro o
        cases o with
        | none => exact .refl s
        | some v =>
          simp only
          refine OnlyDies.trans ?_ (charge_only _ _ _ _ _)
          split
          · exact writeBack_only _ _ _ _
          · exact .refl s
      have h2 : ∀ (c : Prop) [Decidable c] (read : Bool) (y : State), OnlyDies y (if c then dramRequest ctx (line * 64) read
          (charge (homeDie (line * 64)) ctx cDRAM fill y) else y) := by
        intro c _ read y
        split
        · exact (charge_only _ _ _ _ _).trans (dramRequest_only _ _ _ _)
        · exact .refl y
      exact ((h1 _).trans (charge_only _ _ _ _ _)).trans (h2 _ _ _)

theorem foldl_only {α : Type} (f : State → α → State) (h : ∀ s a, OnlyDies s (f s a)) (xs : List α) (s : State) : OnlyDies s (xs.foldl f s) := by
  induction xs generalizing s with
  | nil => exact .refl s
  | cons x xs ih => exact (h s x).trans (ih _)

theorem l2Reads_only (ctx : Nat) (wb : Bool) (pas : List Nat) (s : State) : OnlyDies s (l2Reads ctx wb pas s) :=
  foldl_only _ (fun _ _ => l2Access_only _ _ _ _ _ _ _) _ s
theorem l2Writes_only (ctx : Nat) (wb : Bool) (bs : List (Nat × BitVec 8)) (s : State) : OnlyDies s (l2Writes ctx wb bs s) :=
  foldl_only _ (fun _ _ => l2Access_only _ _ _ _ _ _ _) _ s
theorem l2Amo_only (ctx : Nat) (wb : Bool) (pas : List Nat) (s : State) : OnlyDies s (l2Amo ctx wb pas s) :=
  foldl_only _ (fun _ _ => l2Access_only _ _ _ _ _ _ _) _ s

theorem persistEntry_only (d : Nat) (bs : List ByteWrite) (s : State) : OnlyDies s (persistEntry d bs s) := by
  unfold persistEntry
  simp only
  split <;> exact ⟨rfl⟩

theorem homeRead_only (ctx : Nat) (wb : Bool) (ls : List Loc) (s : State) : OnlyDies s (homeRead ctx wb ls s).2 := l2Reads_only _ _ _ _

theorem OnlyDies.mem_eq {s t : State} (h : OnlyDies s t) : t.mem = s.mem := by rw [h.same]
theorem OnlyDies.me_eq {s t : State} (h : OnlyDies s t) : t.me = s.me := by rw [h.same]
theorem OnlyDies.core_eq {s t : State} (h : OnlyDies s t) : t.core = s.core := by rw [h.same]
theorem OnlyDies.cores_eq {s t : State} (h : OnlyDies s t) : t.cores = s.cores := by rw [h.same]

theorem countWrites_only (n : Nat) (ws : List Write) (s : State) : OnlyDies s (countWrites n ws s) := by
  induction n generalizing ws s with
  | zero => exact .refl s
  | succ n ih =>
    cases ws with
    | nil => exact .refl s
    | cons w ws => exact (foldl_only _ (fun _ _ => l2Writes_only _ _ _ _) _ s).trans (ih _ _)

theorem homePut_me (b : ByteWrite) (s : State) : (homePut b s).me = s.me := by
  unfold homePut
  split
  · rfl
  · exact modCore_me _ _ _

theorem homePut_launches (b : ByteWrite) (s : State) : (homePut b s).launches = s.launches := by
  unfold homePut
  split
  · rfl
  · exact modCore_launches _ _ _

theorem ownHost_same (bs : List ByteWrite) (s : State) : ownHost bs s = { s with hostOwned := (ownHost bs s).hostOwned } := by
  unfold ownHost
  generalize memMasks bs = ps
  induction ps generalizing s with
  | nil => rfl
  | cons p ps ih =>
    rw [List.foldl_cons, ih]
    split <;> rfl

theorem wakes_same (bs : List ByteWrite) (s : State) :
    bs.foldl (fun s b => wake b.loc s) s = { s with watches := (bs.foldl (fun s b => wake b.loc s) s).watches } := by
  induction bs generalizing s with
  | nil => rfl
  | cons b bs ih =>
    rw [List.foldl_cons, ih]
    rfl

theorem mendWords_same (bs : List ByteWrite) (s : State) : mendWords bs s = { s with bad := (mendWords bs s).bad } := by
  unfold mendWords
  split <;> rfl

/-- After its bytes have been put, a write at the home changes only the dies, the words in error, what is noted of the host's lines, and the watches. -/
theorem homeBytes_after (wb : Bool) (bs : List ByteWrite) (s : State) :
    let t := homeBytes wb bs s
    t = { bs.foldl (fun s b => homePut b s) s with bad := t.bad, dies := t.dies, hostOwned := t.hostOwned, hostStale := t.hostStale, watches := t.watches } := by
  intro t
  generalize hs1 : bs.foldl (fun s b => homePut b s) s = s1
  have h2 : OnlyDies (mendWords bs s1) (persistEntry 3 bs (persistEntry 2 bs (persistEntry 1 bs (persistEntry 0 bs (mendWords bs s1))))) :=
    (((persistEntry_only _ _ _).trans (persistEntry_only _ _ _)).trans (persistEntry_only _ _ _)).trans (persistEntry_only _ _ _)
  have ht : t = { bs.foldl (fun s b => wake b.loc s) (if wb then ownHost bs (persistEntry 3 bs (persistEntry 2 bs (persistEntry 1 bs (persistEntry 0 bs
      (mendWords bs s1))))) else persistEntry 3 bs (persistEntry 2 bs (persistEntry 1 bs (persistEntry 0 bs (mendWords bs s1))))) with
      hostStale := staleAfter wb bs s } := by
    subst hs1; rfl
  rw [ht, wakes_same]
  cases wb
  · simp only [Bool.false_eq_true, if_false]
    rw [h2.same, mendWords_same]
  · simp only [if_true]
    rw [ownHost_same, h2.same, mendWords_same]

theorem homePuts_me (bs : List ByteWrite) (s : State) : (bs.foldl (fun s b => homePut b s) s).me = s.me := by
  induction bs generalizing s with
  | nil => rfl
  | cons b bs ih => exact (ih _).trans (homePut_me b s)

theorem homeBytes_me (wb : Bool) (bs : List ByteWrite) (s : State) : (homeBytes wb bs s).me = s.me := by
  rw [homeBytes_after]
  exact homePuts_me bs s

theorem homeBytes_mem (wb : Bool) (bs : List ByteWrite) (s : State) : (homeBytes wb bs s).mem = (bs.foldl (fun s b => homePut b s) s).mem := by
  rw [homeBytes_after]

theorem homeWrite_me (ctx : Nat) (wb : Bool) (bs : List ByteWrite) (s : State) : (homeWrite ctx wb bs s).me = s.me :=
  (homeBytes_me _ _ _).trans (l2Writes_only _ _ _ _).me_eq

theorem homePut_wf (b : ByteWrite) (s : State) (h : s.mem.wf = true) : (homePut b s).mem.wf = true := by
  unfold homePut
  split
  · exact Memory.wf_set _ _ _ h
  · rw [modCore_mem]; exact h

theorem homePut_get (b : ByteWrite) (s : State) (h : s.mem.wf = true) (a : Nat) :
    (homePut b s).mem.get a = if b.loc = .mem a then merge (s.mem.get a) b.val b.mask else s.mem.get a := by
  unfold homePut
  split
  · rename_i pa hb
    by_cases hp : a = pa
    · subst hp; simp [hb, Memory.get_set_eq _ _ _ h]
    · have : ¬ b.loc = .mem a := by rw [hb]; intro e; exact hp (by injection e with e; exact e.symm)
      rw [if_neg this, Memory.get_set_ne _ _ _ _ h hp]
  · rename_i m o hb
    rw [if_neg (by rw [hb]; simp), modCore_mem]

theorem homePuts_wf (bs : List ByteWrite) (s : State) (h : s.mem.wf = true) : (bs.foldl (fun s b => homePut b s) s).mem.wf = true := by
  induction bs generalizing s with
  | nil => exact h
  | cons b bs ih => exact ih _ (homePut_wf b s h)

/-- A byte of memory after the bytes of a write were put, in order. -/
theorem homePuts_get (bs : List ByteWrite) (s : State) (h : s.mem.wf = true) (a : Nat) :
    (bs.foldl (fun s b => homePut b s) s).mem.get a = bs.foldl (fun v b => if b.loc = .mem a then merge v b.val b.mask else v) (s.mem.get a) := by
  induction bs generalizing s with
  | nil => rfl
  | cons b bs ih => rw [List.foldl_cons, ih _ (homePut_wf b s h), homePut_get b s h a, List.foldl_cons]

/-- A byte that a write at the home does not name stays as it was. -/
theorem homeBytes_other (wb : Bool) (bs : List ByteWrite) (s : State) (h : s.mem.wf = true) (a : Nat) (ha : ∀ b ∈ bs, b.loc ≠ .mem a) :
    (homeBytes wb bs s).mem.get a = s.mem.get a := by
  rw [homeBytes_mem, homePuts_get bs s h a]
  have : ∀ (bs : List ByteWrite) (v : BitVec 8), (∀ b ∈ bs, b.loc ≠ .mem a) →
      bs.foldl (fun v b => if b.loc = .mem a then merge v b.val b.mask else v) v = v := by
    intro bs
    induction bs with
    | nil => intros; rfl
    | cons b bs ih =>
      intro v hb
      rw [List.foldl_cons, if_neg (hb b (by simp))]
      exact ih v (fun x hx => hb x (by simp [hx]))
  exact this bs _ ha

/-- A byte that one of a write's bytes names, when no two name the same, holds that byte merged in. -/
theorem homeBytes_at (wb : Bool) (bs : List ByteWrite) (s : State) (h : s.mem.wf = true) (hd : bs.Pairwise fun x y => x.loc ≠ y.loc)
    (b : ByteWrite) (hb : b ∈ bs) (a : Nat) (ha : b.loc = .mem a) : (homeBytes wb bs s).mem.get a = merge (s.mem.get a) b.val b.mask := by
  rw [homeBytes_mem, homePuts_get bs s h a]
  generalize s.mem.get a = v
  induction bs generalizing v with
  | nil => cases hb
  | cons x bs ih =>
    rw [List.foldl_cons]
    rcases List.mem_cons.1 hb with rfl | hb'
    · rw [if_pos ha]
      have hn : ∀ y ∈ bs, y.loc ≠ .mem a := by
        intro y hy; rw [← ha]; exact fun e => (List.pairwise_cons.1 hd).1 y hy e.symm
      have : ∀ (bs : List ByteWrite) (v : BitVec 8), (∀ b ∈ bs, b.loc ≠ .mem a) →
          bs.foldl (fun v b => if b.loc = .mem a then merge v b.val b.mask else v) v = v := by
        intro bs
        induction bs with
        | nil => intros; rfl
        | cons b bs ih =>
          intro v hb
          rw [List.foldl_cons, if_neg (hb b (by simp))]
          exact ih v (fun x hx => hb x (by simp [hx]))
      exact this bs _ hn
    · have : x.loc ≠ .mem a := by rw [← ha]; exact (List.pairwise_cons.1 hd).1 b hb'
      rw [if_neg this]
      exact ih (List.pairwise_cons.1 hd).2 hb' v

/-- The two for a write that its slice counts too. -/
theorem homeWrite_other (ctx : Nat) (wb : Bool) (bs : List ByteWrite) (s : State) (h : s.mem.wf = true) (a : Nat) (ha : ∀ b ∈ bs, b.loc ≠ .mem a) :
    (homeWrite ctx wb bs s).mem.get a = s.mem.get a := by
  have e := (l2Writes_only ctx wb (memMasks bs) s).mem_eq
  rw [homeWrite, homeBytes_other wb bs _ (by rw [e]; exact h) a ha, e]

theorem homeWrite_at (ctx : Nat) (wb : Bool) (bs : List ByteWrite) (s : State) (h : s.mem.wf = true) (hd : bs.Pairwise fun x y => x.loc ≠ y.loc)
    (b : ByteWrite) (hb : b ∈ bs) (a : Nat) (ha : b.loc = .mem a) : (homeWrite ctx wb bs s).mem.get a = merge (s.mem.get a) b.val b.mask := by
  have e := (l2Writes_only ctx wb (memMasks bs) s).mem_eq
  rw [homeWrite, homeBytes_at wb bs _ (by rw [e]; exact h) hd b hb a ha, e]

end Sys2Proof.Laws
end

