-- ==== Sys2Proof/Tests/Slice0.lean ====
section
/-! SUPPORT. Tests of the model: the checks of WellFormed, words written out from the spec's encodings, single instructions on a small state, and a witness for the
hypotheses of each statement. Expected results are the spec's worked examples and tables, or hand calculation from its rules. -/

open Sys2Proof Sys2Proof.Machine Sys2Proof.Claims

namespace Sys2Proof.Tests

set_option Elab.async false

/-! ## A small state -/

/-- A strand that runs on core 0 with some tags and a plane budget; its handler stands at 0x800. -/
def runner : Strand :=
  { Strand.reset 0 0 with life := .running, tvec := 0x800, tagCount := 8, ceiling := 4096, budget := 192, vl := 8, patchbase := 0x3000, compl := 0x2000 }

/-- The package with one core and one strand, which reaches the first page of memory. -/
def small : State :=
  { State.reset with cores := [], me := runner, core := { Core.reset 0 [] with tlb := [openPage 0 0] } }

/-- Some general registers given values, and some vector registers. -/
def withG (rs : List (Fin 32 × Word)) (s : State) : State := { s with me := { s.me with g := rs.foldl (fun g r => g.set r.1 r.2) s.me.g } }
def withV (rs : List (Fin 32 × VReg)) (s : State) : State := { s with me := { s.me with v := rs.foldl (fun v r => v.set r.1 r.2) s.me.v } }
def withF (rs : List (Fin 16 × BitVec 32)) (s : State) : State := { s with me := { s.me with f := rs.foldl (fun f r => f.set r.1 r.2) s.me.f } }

/-- A register of a tag with the codes of its first elements. -/
def reg (tag : BitVec 16) (codes : List Nat) : VReg :=
  ⟨tag, (List.range (tagWidth tag)).map fun p => BitVec.ofNat 16384 ((codes.mapIdx fun k c => c / 2 ^ p % 2 * 2 ^ k).sum), 0, [], []⟩

/-- The next state of an outcome; a fault or a refusal gives the state after reset, in which no strand runs. -/
def next (o : Out) : State :=
  match o with
  | .next t => t
  | _ => State.reset

/-- The first elements of a register. -/
def codes (n : Nat) (r : VReg) : List Nat := (List.range n).map (elem r)

/-! ## Well-formedness: an ill-formed term for each check -/

theorem test_wf_csr_number : (Instr.csrr 1 0x014).wf = false ∧ (Instr.csrw 1 0x111).wf = false ∧ (Instr.csrr 1 0x110).wf = true := by decide
theorem test_wf_bind_pair : (Instr.bind 1 31 2 1).wf = false ∧ (Instr.bind 1 30 2 1).wf = true := by decide
theorem test_wf_fence_scope : (Instr.fence 0 0).wf = false ∧ (Instr.fence 0 6).wf = false ∧ (Instr.fence 0 5).wf = true := by decide
theorem test_wf_setmode_mask : (Instr.setmode 1 0).wf = false ∧ (Instr.setmode 1 8).wf = true := by decide
theorem test_wf_float_source : (Instr.vfadd 1 2 16 true false).wf = false ∧ (Instr.vfmul 1 2 16 true).wf = false ∧ (Instr.vfma 1 2 16 true false).wf = false ∧
    (Instr.vfmax 1 2 16 true false).wf = false ∧ (Instr.vfadd 1 2 15 true false).wf = true ∧ (Instr.vfadd 1 2 16 false false).wf = true := by decide
theorem test_wf_gather_pair : (Instr.vgather 1 2 3 31).wf = false ∧ (Instr.vscatterOrd 1 2 3 31).wf = false ∧ (Instr.vscatterUno 1 2 3 31).wf = false := by decide
theorem test_wf_copy_words : (Instr.cpy 29 0 0 0).wf = false ∧ (Instr.cpyx 29 0 0 0).wf = false ∧ (Instr.cpy 28 1 0 0).wf = false ∧ (Instr.cpy 28 1 1 0).wf = true := by decide
theorem test_wf_stream_words : (Instr.sqopen 0 29 1 false).wf = false ∧ (Instr.sqopen 0 28 1 false).wf = true := by decide

/-! ## Decoding -/

/-- Words of row 0x of the opcode map, each field at its place in the spec's encoding. -/
def wordsInteger : List (Nat × Instr) :=
  [(0x01AA9A00, .add 21 10 13), (0x02AA9A00, .sub 21 10 13), (0x03AA9A00, .mul 21 10 13), (0x04AA9A00, .mulh 21 10 13),
   (0x04AA9A01, .mulhU 21 10 13), (0x05AA9A00, .div 21 10 13), (0x05AA9A01, .divU 21 10 13), (0x06AA9A00, .rem 21 10 13),
   (0x06AA9A01, .remU 21 10 13), (0x07AA9A00, .and 21 10 13), (0x08AA9A00, .or 21 10 13), (0x09AA9A00, .xor 21 10 13), (0x0AAA9A00, .shl 21 10 13),
   (0x0BAA9A00, .shr 21 10 13), (0x0CAA9A00, .sar 21 10 13), (0x0DAA9A00, .min 21 10 13), (0x0DAA9A01, .minU 21 10 13), (0x0EAA9A00, .max 21 10 13),
   (0x0EAA9A01, .maxU 21 10 13), (0x0FAA9A00, .setEq 21 10 13), (0x0FAA9A40, .setLt 21 10 13), (0x0FAA9A80, .setLtu 21 10 13)]

theorem test_decode_integer : ∀ p ∈ wordsInteger, decodeTableWord 32 p.1 = some p.2 := by decide +kernel

/-- Words of row 1x of the opcode map, each field at its place in the spec's encoding. -/
def wordsImmediate : List (Nat × Instr) :=
  [(0x10AA8000, .clz 21 10), (0x11AA8000, .popc 21 10), (0x12AA9A06, .sel 21 10 13 6), (0x13AD9C7D, .lih 21 367741), (0x14AAACE3, .addI 21 10 11491),
   (0x15AAACE3, .andI 21 10 11491), (0x16AAACE3, .orI 21 10 11491), (0x17AAACE3, .xorI 21 10 11491), (0x18AAACE3, .shlI 21 10 11491),
   (0x19AAACE3, .shrI 21 10 11491), (0x1AAAACE3, .sarI 21 10 11491), (0x1BAAACE3, .setEqI 21 10 11491), (0x1CAAACE3, .setLtI 21 10 11491),
   (0x1DAAACE3, .setLtuI 21 10 11491)]

theorem test_decode_immediate : ∀ p ∈ wordsImmediate, decodeTableWord 32 p.1 = some p.2 := by decide +kernel

/-- Words of row 2x of the opcode map, each field at its place in the spec's encoding. -/
def wordsFloat : List (Nat × Instr) :=
  [(0x20499600, .fadd 9 6 11), (0x21499600, .fsub 9 6 11), (0x22499600, .fmul 9 6 11), (0x2349960D, .fma 9 6 11 13), (0x24499600, .fdiv 9 6 11),
   (0x25498000, .fsqrt 9 6), (0x26499600, .fmin 9 6 11), (0x26499640, .fmax 9 6 11), (0x27A99602, .fcmp 21 6 11 2), (0x28A98000, .fcvtS64 21 6),
   (0x28A98001, .fcvtN64 21 6), (0x284A8002, .fcvtFS64 9 10), (0x284A8003, .fcvtFN64 9 10), (0x28A98004, .fcvtBits 21 6),
   (0x284A8005, .fcvtFBits 9 10)]

theorem test_decode_float : ∀ p ∈ wordsFloat, decodeTableWord 32 p.1 = some p.2 := by decide +kernel

/-- Words of row 3x of the opcode map, each field at its place in the spec's encoding. -/
def wordsBranch : List (Nat × Instr) :=
  [(0x30B38FB3, .b 11767731), (0x31AAACE3, .beq 21 10 11491), (0x32AAACE3, .bne 21 10 11491), (0x33AAACE3, .blt 21 10 11491),
   (0x34AAACE3, .bge 21 10 11491), (0x35AAACE3, .bltu 21 10 11491), (0x36AAACE3, .bgeu 21 10 11491), (0x37B38FB3, .j 11767731),
   (0x38AD9C7D, .jal 21 367741), (0x39AAACE3, .jr 21 10 11491), (0x3A12ACE3, .loop 2 10 11491), (0x3BAA9B67, .strip 21 10 13 359)]

theorem test_decode_branch : ∀ p ∈ wordsBranch, decodeTableWord 32 p.1 = some p.2 := by decide +kernel

/-- Words of row 4x of the opcode map, each field at its place in the spec's encoding. -/
def wordsSystem : List (Nat × Instr) :=
  [(0x40059C7D, .trap 367741), (0x41000000, .eret), (0x42A8000A, .csrr 21 10), (0x4305410A, .csrw 21 266), (0x44AAACE3, .feat 21 10 11491),
   (0x45000000, .endStrand), (0x46AA9A00, .wfe 21 10 13), (0x46000040, .yield), (0x47000000, .fenceI)]

theorem test_decode_system : ∀ p ∈ wordsSystem, decodeTableWord 32 p.1 = some p.2 := by decide +kernel

/-- Words of row 5x of the opcode map, each field at its place in the spec's encoding. -/
def wordsScalarMemory : List (Nat × Instr) :=
  [(0x50AAACE3, .ldB 21 10 11491), (0x51AAACE3, .ldBu 21 10 11491), (0x52AAACE3, .ldH 21 10 11491), (0x53AAACE3, .ldHu 21 10 11491),
   (0x54AAACE3, .ldW 21 10 11491), (0x55AAACE3, .ldWu 21 10 11491), (0x56AAACE3, .ldD 21 10 11491), (0x574AACE3, .ldF 9 10 11491),
   (0x58AAACE3, .stB 21 10 11491), (0x59AAACE3, .stH 21 10 11491), (0x5AAAACE3, .stW 21 10 11491), (0x5BAAACE3, .stD 21 10 11491),
   (0x5C4AACE3, .stF 9 10 11491)]

theorem test_decode_scalarmemory : ∀ p ∈ wordsScalarMemory, decodeTableWord 32 p.1 = some p.2 := by decide +kernel

/-- Words of row 6x of the opcode map, each field at its place in the spec's encoding. -/
def wordsSynchronising : List (Nat × Instr) :=
  [(0x60AA9A0D, .amoAdd 21 10 13 true 5), (0x60AA9A5D, .amoMin 21 10 13 true true 5), (0x60AA9A9D, .amoMax 21 10 13 true true 5),
   (0x60AA9ACD, .amoAnd 21 10 13 true 5), (0x60AA9B0D, .amoOr 21 10 13 true 5), (0x60AA9B4D, .amoXor 21 10 13 true 5),
   (0x60AA9B8D, .amoSwp 21 10 13 true 5), (0x60AA9BCD, .amoCas 21 10 13 true 5), (0x61054000, .acq 21), (0x61AA8040, .acqObs 21 10),
   (0x61AA8080, .tryacq 21 10), (0x610540C0, .rel 21), (0x62AA9A04, .bind 21 10 13 4), (0x62AA8040, .unbind 21 10), (0x63000025, .fence 4 5),
   (0x64000000, .pfenceCore), (0x64000001, .pfenceDie), (0x65000000, .drainst), (0x66000000, .bar), (0x67055400, .pubhw 21 10),
   (0x67055401, .pubhwFin 21 10), (0x68AA9A00, .launch 21 10 13)]

theorem test_decode_synchronising : ∀ p ∈ wordsSynchronising, decodeTableWord 32 p.1 = some p.2 := by decide +kernel

/-- Words of row 7x of the opcode map, each field at its place in the spec's encoding. -/
def wordsConfiguration : List (Nat × Instr) :=
  [(0x70A82CE3, .vcfg 21 11491), (0x71AA9A00, .setvl 21 10 13), (0x7205400B, .setmode 21 11), (0x73002CE3, .mmode 11491)]

theorem test_decode_configuration : ∀ p ∈ wordsConfiguration, decodeTableWord 32 p.1 = some p.2 := by decide +kernel

/-- Words of row 8x of the opcode map, each field at its place in the spec's encoding. -/
def wordsPlane : List (Nat × Instr) :=
  [(0x80AA9A03, .vadd 21 10 13 true true), (0x81AA9A03, .vsub 21 10 13 true true), (0x82AA9A03, .vmul 21 10 13 true true),
   (0x83AA9A03, .vmac 21 10 13 true true), (0x84AA8001, .vneg 21 10 true), (0x85AA8001, .vabs 21 10 true), (0x86AA9A03, .vmin 21 10 13 true true),
   (0x86AA9A43, .vmax 21 10 13 true true), (0x87AA9A02, .vand 21 10 13 true), (0x88AA9A02, .vor 21 10 13 true), (0x89AA9A02, .vxor 21 10 13 true),
   (0x8AAA8000, .vnot 21 10), (0x8BAA8030, .vshl 21 10 true 16), (0x8CAA8010, .vshr 21 10 16), (0x8D2A9A0D, .vcmp 5 10 13 true 5),
   (0x8EAA9A06, .vsel 21 10 13 6)]

theorem test_decode_plane : ∀ p ∈ wordsPlane, decodeTableWord 32 p.1 = some p.2 := by decide +kernel

/-- Words of row 9x of the opcode map, each field at its place in the spec's encoding. -/
def wordsWhole : List (Nat × Instr) :=
  [(0x90AA8000, .vpopc 21 10), (0x91AA9A00, .vdot 21 10 13), (0x92AA8005, .vred 21 10 5), (0x93AA8003, .vscan 21 10 true true),
   (0x94AA8006, .vcompress 21 10 6), (0x95AA8006, .vexpand 21 10 6), (0x96AA9A00, .vslideDn 21 10 13), (0x96AA9A01, .vslideUp 21 10 13),
   (0x97A80002, .viota 21 2), (0x97A80008, .viotaIdx 21), (0x98AA8000, .vmv 21 10), (0x98A81403, .vmvScalar 21 10 true), (0x99AA8000, .vwiden 21 10),
   (0x9AAA8010, .vnarrow 21 10 16)]

theorem test_decode_whole : ∀ p ∈ wordsWhole, decodeTableWord 32 p.1 = some p.2 := by decide +kernel

/-- Words of row Ax of the opcode map, each field at its place in the spec's encoding. -/
def wordsPlaneX : List (Nat × Instr) :=
  [(0xA0288C00, .mand 5 2 6), (0xA0288C40, .mor 5 2 6), (0xA0288C80, .mxor 5 2 6), (0xA02880C0, .mnot 5 2), (0xA1A88000, .mpopc 21 2),
   (0xA2A88000, .mfirst 21 2), (0xA328002D, .tagmask 5 45)]

theorem test_decode_planex : ∀ p ∈ wordsPlaneX, decodeTableWord 32 p.1 = some p.2 := by decide +kernel

/-- Words of row Bx of the opcode map, each field at its place in the spec's encoding. -/
def wordsWord : List (Nat × Instr) :=
  [(0xB0AA9A03, .vfadd 21 10 13 true true), (0xB1AA9A02, .vfmul 21 10 13 true), (0xB2AA9A03, .vfma 21 10 13 true true), (0xB3AA8000, .vfexp2 21 10),
   (0xB3AA8040, .vfrcp 21 10), (0xB3AA8080, .vfrsq 21 10), (0xB4AA9A03, .vfmax 21 10 13 true true), (0xB5AA8000, .vfcvt 21 10),
   (0xB6AA9607, .vsmax 21 10 11 true 3), (0xB7AA800A, .qstat 21 10 10), (0xB848140A, .qscaleH 9 10 10), (0xB84A9A1A, .qscaleR 9 10 13 10),
   (0xB800002A, .qscaleZ 10), (0xB9AA805A, .quant 21 10 2 true 10), (0xBA054002, .ctab 21 2), (0xBBAA8002, .clook 21 10 2)]

theorem test_decode_word : ∀ p ∈ wordsWord, decodeTableWord 32 p.1 = some p.2 := by decide +kernel

/-- Words of row Cx of the opcode map, each field at its place in the spec's encoding. -/
def wordsOuter : List (Nat × Instr) :=
  [(0xC0129A2C, .opa 2 10 13 44), (0xC0105B6C, .opaAca 2 1 13 2 44), (0xC1129B46, .opaS 2 10 13 2 2 6), (0xC2129AEC, .opaT 2 10 13 3 44),
   (0xC3100000, .accz 2), (0xC4A841B3, .accrd 21 1 true 179), (0xC5129A00, .drain 2 10 13), (0xC6129A1A, .scout 2 10 13 6 2),
   (0xC7105A26, .thresh 2 1 13 true 6), (0xC8104601, .tmand 2 1 3 true), (0xC8A84040, .tmpopc 21 1)]

theorem test_decode_outer : ∀ p ∈ wordsOuter, decodeTableWord 32 p.1 = some p.2 := by decide +kernel

/-- Words of row Dx of the opcode map, each field at its place in the spec's encoding. -/
def wordsVectorMemory : List (Nat × Instr) :=
  [(0xD0AA9A19, .vld 21 10 13 6 true), (0xD0AA9A1A, .vldCompressed 21 10 13 6), (0xD0A88003, .vldPop 21 2), (0xD1AA9A19, .vst 21 10 13 6 true),
   (0xD2AA9A06, .vgather 21 10 13 6), (0xD3AA9A06, .vscatterOrd 21 10 13 6), (0xD3AA9A46, .vscatterUno 21 10 13 6), (0xD40554AD, .cpy 21 10 2 45),
   (0xD50554AD, .cpyx 21 10 2 45), (0xD6AA8000, .waitany 21 10), (0xD6054040, .waitall 21), (0xD6AA8080, .ffrdy 21 10), (0xD6A800ED, .tagcnt 21 45),
   (0xD700002D, .commit 45), (0xD82A9A01, .sqopen 5 10 13 true), (0xD82A8040, .sqadv 5 10), (0xD8280080, .sqend 5), (0xD82800C0, .sqclose 5)]

theorem test_decode_vectormemory : ∀ p ∈ wordsVectorMemory, decodeTableWord 32 p.1 = some p.2 := by decide +kernel

/-- The words that the spec's worked examples give. -/
def wordsOfExamples : List (Nat × Instr) :=
  [(0x0431D001, .mulhU 6 7 8), (0x132FFFFC, .lih 5 0x7FFFC), (0x3A014003, .loop 0 5 3), (0x3B2219FD, .strip 4 8 12 0x1FD), (0x42280101, .csrr 5 0x101),
   (0x43018110, .csrw 6 0x110), (0x70080002, .vcfg 1 2), (0x70100014, .vcfg 2 0x14), (0x71214000, .setvl 4 5 0), (0x91384400, .vdot 7 1 2),
   (0x7300000C, .mmode 0xC), (0xD2328A0C, .vgather 6 10 5 12)]

theorem test_decode_examples : ∀ p ∈ wordsOfExamples, decodeTableWord 32 p.1 = some p.2 := by decide +kernel

/-- What no word is: a primary opcode of the illegal group, an unused bit that is set, a selector without a mnemonic, a register outside its class. -/
theorem test_decode_refuses : decode 0 = .error .opcode ∧ decode 0xFF000000 = .error .opcode ∧ decode 0x01AA9A01 = .error .unusedField ∧
    decode 0x0FAA9AC0 = .error .selector ∧ decode 0x20C99600 = .error .registerClass ∧ decode 0x42280014 = .error .fieldValue :=
  ⟨rfl, rfl, rfl, rfl, rfl, rfl⟩

/-- A word laid at the pc of the state after reset is the first instruction that a step runs. -/
theorem test_first_step : (next (step (State.reset.withFetchWord 32 0x14280005))).me.g[5] = 5 := by decide +kernel

/-! ## Scalar instructions -/

theorem test_mulh_example :
    let s := withG [(7, BitVec.allOnes 64), (8, BitVec.allOnes 64)] small
    (next (exec (.mulhU 6 7 8) s)).me.g[6] = 0xFFFFFFFFFFFFFFFE ∧ (next (exec (.mulh 6 7 8) s)).me.g[6] = 0 := by decide +kernel
theorem test_add_wraps_onto_its_source : (next (exec (.add 1 1 1) (withG [(1, 0x8000000000000001)] small))).me.g[1] = 2 := by decide +kernel
theorem test_sub_order : (next (exec (.sub 1 2 3) (withG [(2, 5), (3, 7)] small))).me.g[1] = 0xFFFFFFFFFFFFFFFE := by decide +kernel
theorem test_write_of_g0 : (next (exec (.add 0 2 2) (withG [(2, 5)] small))).me.g[0] = 0 ∧ (next (exec (.add 0 2 2) (withG [(2, 5)] small))).me.pc = 4 := by decide +kernel
theorem test_div_corners :
    let s := withG [(1, 0x8000000000000000), (2, BitVec.allOnes 64), (3, 0xFFFFFFFFFFFFFFF9), (4, 2)] small
    (next (exec (.div 5 1 0) s)).me.g[5] = BitVec.allOnes 64 ∧ (next (exec (.div 5 1 2) s)).me.g[5] = 0x8000000000000000 ∧
    (next (exec (.div 5 3 4) s)).me.g[5] = 0xFFFFFFFFFFFFFFFD ∧ (next (exec (.rem 5 3 4) s)).me.g[5] = BitVec.allOnes 64 ∧
    (next (exec (.rem 5 1 2) s)).me.g[5] = 0 ∧ (next (exec (.remU 5 1 0) s)).me.g[5] = 0x8000000000000000 := by decide +kernel
theorem test_shift_counts :
    let s := withG [(1, 0x8000000000000000), (2, 65)] small
    (next (exec (.sar 3 1 2) s)).me.g[3] = 0xC000000000000000 ∧ (next (exec (.shr 3 1 2) s)).me.g[3] = 0x4000000000000000 ∧
    (next (exec (.shl 3 1 2) s)).me.g[3] = 0 := by decide +kernel
theorem test_compares_signed_and_unsigned :
    let s := withG [(1, BitVec.allOnes 64), (2, 1)] small
    (next (exec (.setLt 3 1 2) s)).me.g[3] = 1 ∧ (next (exec (.setLtu 3 1 2) s)).me.g[3] = 0 ∧ (next (exec (.min 3 1 2) s)).me.g[3] = BitVec.allOnes 64 ∧
    (next (exec (.minU 3 1 2) s)).me.g[3] = 1 := by decide +kernel
theorem test_counts : (next (exec (.clz 3 0) small)).me.g[3] = 64 ∧ (next (exec (.clz 3 1) (withG [(1, 0x10)] small))).me.g[3] = 59 ∧
    (next (exec (.popc 3 1) (withG [(1, 0xF0F)] small))).me.g[3] = 8 := by decide +kernel
theorem test_window_base_by_lih :
    let s0 := next (exec (.addI 5 0 0) small)
    let s1 := next (exec (.lih 5 0x7FFFC) s0)
    (next (exec (.lih 5 0) (next (exec (.lih 5 0) s1)))).me.g[5] = 0x01FFFF0000000000 := by decide +kernel
theorem test_literal_is_signed : (next (exec (.addI 5 0 0x1FFF) small)).me.g[5] = BitVec.allOnes 64 := by decide +kernel
theorem test_patch_slot : (next (exec (.addI 5 0 0x2001) { small with mem := Memory.setN [] 0x3008 (bytesOf 8 0x1122334455667788) })).me.g[5] = 0x1122334455667788 := by decide +kernel

theorem test_fadd : (next (exec (.fadd 1 2 3) (withF [(2, 0x3FC00000), (3, 0x3E800000)] small))).me.f[1] = 0x3FE00000 := by decide +kernel
theorem test_zero_over_zero :
    let t := next (exec (.fdiv 1 2 3) small)
    t.me.f[1] = 0x7FC00000 ∧ t.me.vflags = 1 := by decide +kernel
theorem test_one_over_minus_zero :
    let t := next (exec (.fdiv 1 2 3) (withF [(2, 0x3F800000), (3, 0x80000000)] small))
    t.me.f[1] = 0xFF800000 ∧ t.me.vflags = 2 := by decide +kernel
theorem test_sqrt_of_minus_zero : (next (exec (.fsqrt 1 2) (withF [(2, 0x80000000)] small))).me.f[1] = 0x80000000 := by decide +kernel
theorem test_fma_rounds_once :
    let t := next (exec (.fma 1 2 3 4) (withF [(2, 0x3F800001), (3, 0x3F800001), (4, 0xBF800002)] small))
    t.me.f[1] = 0x28800000 ∧ t.me.vflags = 0 := by decide +kernel
theorem test_fcmp_nan :
    let s := withF [(2, 0x7FC00000)] small
    (next (exec (.fcmp 1 2 3 1) s)).me.vflags = 1 ∧ (next (exec (.fcmp 1 2 3 3) s)).me.g[1] = 1 ∧ (next (exec (.fcmp 1 2 3 0) s)).me.vflags = 0 := by decide +kernel
theorem test_fmin_zeros : (next (exec (.fmin 1 2 3) (withF [(3, 0x80000000)] small))).me.f[1] = 0x80000000 ∧
    (next (exec (.fmax 1 2 3) (withF [(2, 0x7FC00000), (3, 0x40000000)] small))).me.f[1] = 0x40000000 := by decide +kernel
theorem test_conversions :
    let s := withG [(1, BitVec.allOnes 64)] (withF [(2, 0x40200000), (3, 0x7F800000)] small)
    (next (exec (.fcvtS64 5 2) s)).me.g[5] = 2 ∧ (next (exec (.fcvtS64 5 3) s)).me.g[5] = 0x7FFFFFFFFFFFFFFF ∧ (next (exec (.fcvtFS64 5 1) s)).me.f[5] = 0xBF800000 ∧
    (next (exec (.fcvtFN64 5 1) s)).me.f[5] = 0x5F800000 := by decide +kernel

theorem test_branch_back : (next (exec (.blt 1 2 0x3FFF) { withG [(1, BitVec.allOnes 64)] small with me := { (withG [(1, BitVec.allOnes 64)] small).me with pc := 0x40 } })).me.pc = 0x3C ∧
    (next (exec (.bltu 1 2 0x3FFF) (withG [(1, BitVec.allOnes 64)] small))).me.pc = 4 := by decide +kernel
theorem test_jr_links_its_base : (next (exec (.jr 31 31 0) (withG [(31, 0x100)] small))).me.pc = 0x100 ∧ (next (exec (.jr 31 31 0) (withG [(31, 0x100)] small))).me.g[31] = 4 ∧
    (next (exec (.jr 31 31 2) (withG [(31, 0x100)] small))).me.tcause = 2 := by decide +kernel
/-- The loop of R213's example: four rounds of a body of three words. -/
theorem test_loop_example :
    let s := next (exec (.loop 0 5 3) (withG [(5, 4)] small))
    let lastWord (t : State) : State := next (exec .yield { t with me := { t.me with pc := 12 } })
    s.me.lc[0] = ⟨true, 4, 4, 12⟩ ∧ (lastWord s).me.pc = 4 ∧ (lastWord s).me.lc[0].count = 3 ∧ (lastWord (lastWord (lastWord (lastWord s)))).me.pc = 16 ∧
    (lastWord (lastWord (lastWord (lastWord s)))).me.lc[0].act = false ∧ (next (exec (.loop 2 5 1) s)).me.tcause = 2 := by decide +kernel
/-- The first row of R214's table, and its s3 pointer. -/
theorem test_strip_example :
    let s := withG [(4, 10000), (8, 0x100000), (9, 0x400000), (12, 0x200008)] { small with me := { runner with vl := 4096, pc := 0x40 } }
    let t := next (exec (.strip 4 8 12 0x1FD) s)
    t.me.g[4] = 5904 ∧ t.me.g[8] = 0x101000 ∧ t.me.g[9] = 0x404000 ∧ t.me.sbase = 4096 ∧ t.me.vl = 4096 ∧ t.me.pc = 0x34 ∧
    (next (exec (.strip 4 8 13 0) (withG [(4, 10000), (13, 4)] { small with me := { runner with vl := 1807 } }))).me.tcause = 2 := by decide +kernel
/-- TRAP, the handler, and ERET to the word after it. -/
theorem test_trap_and_return :
    let t := next (exec (.trap 7) { small with me := { runner with pc := 0x40 } })
    t.me.pc = 0x800 ∧ t.me.tepc = 0x44 ∧ t.me.tcause = 0x700000008 ∧ t.me.priv = true ∧ (next (exec .eret t)).me.pc = 0x44 ∧ (next (exec .eret t)).me.priv = false := by decide +kernel
theorem test_control_registers : (next (exec (.csrr 1 1) small)).me.g[1] = 16384 ∧ (next (exec (.csrr 1 0x101) small)).me.tcause = 2 ∧
    (next (exec (.csrw 1 3) (withG [(1, 128)] small))).me.six = 128 ∧ (next (exec (.csrw 1 3) (withG [(1, 100)] small))).me.tcause = 2 := by decide +kernel
theorem test_feature_words : (next (exec (.feat 1 0 1) small)).me.g[1] = 0x0000010003000D0E ∧ (next (exec (.feat 1 0 9) small)).me.g[1] = 0 := by decide +kernel
/-- Strand 1 of R222's example: a READY tag whose FLAGS hold SAT joins NX and SUB, and the count of ended strands rises. -/
theorem test_end_example :
    let s : State := { small with
      me := { runner with vflags := 0x88 }
      core := { small.core with tags := small.core.tags.set 0 { TagReg.reset with st := .ready, flags := 0x10 } }
      mem := Memory.setN [] 0x2000 (bytesOf 8 0x100000008) }
    let t := next (exec .endStrand s)
    natOf (t.mem.getN 0x2000 8) = 0x200000098 ∧ t.me.life = .ended := by decide +kernel
theorem test_wfe_waits : (next (exec (.wfe 1 2 3) (withG [(2, 0x100)] small))).watches = [⟨0, 0, .mem 4, false⟩] ∧
    (next (exec (.wfe 1 2 3) (withG [(2, 0x100), (3, 1)] small))).me.pc = 4 := by decide +kernel

/-! ## Vector instructions -/

theorem test_vadd_wraps_and_saturates :
    let s := withV [(1, reg 0x0003 []), (2, reg 0x0003 [7, 8]), (3, reg 0x0003 [5, 0xF])] small
    codes 2 (next (exec (.vadd 1 2 3 false false) s)).me.v[1] = [0xC, 7] ∧ (next (exec (.vadd 1 2 3 false false) s)).me.vflags = 0 ∧
    codes 2 (next (exec (.vadd 1 2 3 false true) s)).me.v[1] = [7, 8] ∧ (next (exec (.vadd 1 2 3 false true) s)).me.vflags = 0x10 := by decide +kernel
/-- The dot product of R247's example. -/
theorem test_vdot_example :
    let s := withV [(1, reg 0x0002 [3, 7, 2, 0, 4, 1, 0, 6]), (2, reg 0x0014 [5, 1, 4, 0, 3, 7, 2, 6])] small
    (next (exec (.vdot 7 1 2) s)).me.g[7] = 5 := by decide +kernel
theorem test_setvl_example :
    let s : State := withG [(5, 100), (6, 4)] { withV [(1, reg 0x0320 [])] small with me := { (withV [(1, reg 0x0320 [])] small).me with ceiling := 16384 } }
    (next (exec (.setvl 4 5 0) s)).me.vl = 96 ∧ (next (exec (.setvl 4 6 0) s)).me.g[4] = 4 := by decide +kernel
theorem test_vcfg_keeps_codes : codes 2 (next (exec (.vcfg 1 0x12) (withV [(1, reg 0x0003 [0xD, 6])] small))).me.v[1] = [5, 6] := by decide +kernel
theorem test_setmode_groups :
    let t := next (exec (.setmode 1 0b0100) (withG [(1, 0xFFFFFFFFFFFFFFFF)] small))
    t.me.mode = 0xFFFF0000 := by decide +kernel
theorem test_vmul_high_and_vmac :
    let s := withV [(1, reg 0x0007 [250]), (2, reg 0x0003 [0xF]), (3, reg 0x0003 [6])] small
    codes 1 (next (exec (.vmul 1 2 3 false false) s)).me.v[1] = [0xFA] ∧ codes 1 (next (exec (.vmac 1 2 3 false false) s)).me.v[1] = [0xF4] := by decide +kernel
theorem test_vabs_of_the_least : codes 1 (next (exec (.vabs 1 2 false) (withV [(1, reg 0x0003 []), (2, reg 0x0003 [8])] small))).me.v[1] = [8] ∧
    codes 1 (next (exec (.vabs 1 2 true) (withV [(1, reg 0x0003 []), (2, reg 0x0003 [8])] small))).me.v[1] = [7] := by decide +kernel
theorem test_vnot_extends : codes 1 (next (exec (.vnot 1 2) (withV [(1, reg 0x0007 []), (2, reg 0x0003 [0xA])] small))).me.v[1] = [5] := by decide +kernel
theorem test_shifts : codes 2 (next (exec (.vshr 1 2 1) (withV [(1, reg 0x0003 []), (2, reg 0x0003 [0xD, 7])] small))).me.v[1] = [0xE, 3] ∧
    codes 1 (next (exec (.vshl 1 2 false 1) (withV [(1, reg 0x0003 []), (2, reg 0x0003 [0xD])] small))).me.v[1] = [0xA] := by decide +kernel
theorem test_vcmp_and_masks :
    let s := withV [(2, reg 0x0003 [0xF, 1, 0])] small
    let t := next (exec (.vcmp 1 2 0 true 2) s)
    t.me.m[1] = 1 ∧ (next (exec (.mnot 2 1) t)).me.m[2] = 0xFE ∧ (next (exec (.mpopc 3 2) (next (exec (.mnot 2 1) t)))).me.g[3] = 7 ∧
    (next (exec (.mfirst 3 2) (next (exec (.mnot 2 1) t)))).me.g[3] = 1 := by decide +kernel
theorem test_reductions :
    let s := { withV [(2, reg 0x0003 [0xF, 1, 7])] small with me := { (withV [(2, reg 0x0003 [0xF, 1, 7])] small).me with vl := 3 } }
    (next (exec (.vred 3 2 0) s)).me.g[3] = 7 ∧ (next (exec (.vred 3 2 1) s)).me.g[3] = BitVec.allOnes 64 ∧ (next (exec (.vred 3 2 5) s)).me.g[3] = 0xFFFFFFFFFFFFFFF9 := by decide +kernel
theorem test_vscan : codes 3 (next (exec (.vscan 1 2 false true) (withV [(1, reg 0x0007 []), (2, reg 0x0003 [0xF, 3, 2])] small))).me.v[1] = [0, 0xFF, 2] := by decide +kernel
theorem test_compress_and_expand :
    let s := withV [(2, reg 0x0013 [5, 6, 7, 8])] { small with me := { runner with m := runner.m.set 1 0b1010 } }
    codes 3 (next (exec (.vcompress 1 2 1) s)).me.v[1] = [6, 8, 0] ∧ codes 4 (next (exec (.vexpand 1 2 1) s)).me.v[1] = [0, 5, 0, 6] := by decide +kernel
theorem test_slides :
    let s := withG [(3, 2)] (withV [(2, reg 0x0013 [1, 2, 3, 4, 5, 6, 7, 8])] small)
    codes 8 (next (exec (.vslideDn 1 2 3) s)).me.v[1] = [3, 4, 5, 6, 7, 8, 0, 0] ∧ codes 4 (next (exec (.vslideUp 1 2 3) s)).me.v[1] = [0, 0, 1, 2] := by decide +kernel
theorem test_vwiden_and_vnarrow :
    codes 1 (next (exec (.vwiden 1 2) (withV [(1, reg 0x0007 []), (2, reg 0x0003 [0xD])] small))).me.v[1] = [0xFD] ∧
    codes 2 (next (exec (.vnarrow 1 2 1) (withV [(1, reg 0x0003 []), (2, reg 0x0007 [5, 7])] small))).me.v[1] = [2, 4] := by decide +kernel
theorem test_planes_beyond_vl_are_zero : codes 10 (next (exec (.viotaIdx 1) (withV [(1, reg 0x0013 [9, 9, 9, 9, 9, 9, 9, 9, 9, 9])] small))).me.v[1] = [0, 1, 2, 3, 4, 5, 6, 7, 0, 0] := by
  decide +kernel
theorem test_budget : (next (exec (.viotaIdx 1) { withV [(1, reg 0x0013 [])] small with me := { (withV [(1, reg 0x0013 [])] small).me with budget := 3 } })).me.tcause = 2 := by decide +kernel
theorem test_part_of_a_guarded_write :
    let s := withV [(1, reg 0x0003 [1, 2, 3]), (2, reg 0x0003 [7, 7, 7])] { small with me := { runner with mode := 0x08, m := runner.m.set 0 0b010 } }
    codes 3 (next (exec (.vmv 1 2) s)).me.v[1] = [1, 7, 3] := by decide +kernel

/-- R257's example, under each rounding direction. -/
theorem test_vfadd_example :
    let s (tag : BitVec 16) : State := withV [(1, reg tag []), (2, reg 0x0090 [0x3FC00000]), (3, reg 0x0090 [0x3E800000])] { small with me := { runner with vl := 1 } }
    codes 1 (next (exec (.vfadd 1 2 3 false false) (s 0x0020))).me.v[1] = [4] ∧ (next (exec (.vfadd 1 2 3 false false) (s 0x0020))).me.vflags = 8 ∧
    codes 1 (next (exec (.vfadd 1 2 3 false false) (s 0x0070))).me.v[1] = [0x58] ∧ (next (exec (.vfadd 1 2 3 false false) (s 0x0070))).me.vflags = 0 := by decide +kernel
/-- The mk8 values of R61's example. -/
theorem test_mk8_values : (decodeCode .mk8 0x2B).eqv (.fin 27 8 false) = true ∧ (decodeCode .mk8 0xB7).eqv (.fin (-23) 64 false) = true ∧
    (decodeCode .mk8 0x03).eqv (.fin 1 64 false) = true := by decide +kernel
theorem test_word_unit_functions :
    let s := withV [(1, reg 0x0090 []), (2, reg 0x0090 [0x40400000])] { small with me := { runner with vl := 1 } }
    codes 1 (next (exec (.vfexp2 1 2) s)).me.v[1] = [0x41000000] ∧ codes 1 (next (exec (.vfrcp 1 2) s)).me.v[1] = [0x3EAAAAAB] ∧
    codes 1 (next (exec (.vfrsq 1 2) (withV [(2, reg 0x0090 [0x40800000])] s))).me.v[1] = [0x3F000000] := by decide +kernel
/-- The steps of R263's example. -/
theorem test_scale_slot_example :
    let s := withV [(1, reg 0x0090 [0x40400000, 0xC1600000, 0x3F000000, 0x41100000]), (2, reg 0x0003 [])] { small with me := { runner with vl := 4 } }
    let s1 := next (exec (.qstat 5 1 3) s)
    let s2 := next (exec (.qscaleH 2 2 3) s1)
    let s3 := next (exec (.qstat 6 1 3) s2)
    let s4 := next (exec (.quant 2 1 0 false 3) s3)
    s1.me.g[5] = 0x400000000 ∧ s1.core.scales[3].hist[0] = 0x41600000 ∧ s1.core.scales[3].head = 1 ∧ s2.me.f[2] = 0x40000000 ∧ s2.core.scales[3].kind = 3 ∧
    s3.me.g[6] = 0x400000000 ∧ codes 4 s4.me.v[2] = [2, 9, 0, 4] ∧ s4.me.vflags = 8 := by decide +kernel
/-- One strip of scores 3, 1, 1, 1 from an empty row: the maximum, and 1 + 3 / 4. -/
theorem test_vsmax_strip :
    let s := withF [(2, 0xFF800000)] (withV [(1, reg 0x0090 [0x40400000, 0x3F800000, 0x3F800000, 0x3F800000]), (4, reg 0x0080 [])] { small with me := { runner with vl := 4 } })
    let t := next (exec (.vsmax 4 1 2 false 0) s)
    t.me.f[2] = 0x40400000 ∧ t.me.f[3] = 0x3FE00000 ∧ t.me.f[4] = 0 ∧ codes 4 t.me.v[4] = [0x3F80, 0x3E80, 0x3E80, 0x3E80] := by decide +kernel
theorem test_code_table :
    let s := withV [(3, reg 0x001F [7, 9, 0x1234]), (6, reg 0x0011 [2, 1, 3])] { small with me := { runner with vl := 3 } }
    let t := next (exec (.clook 5 6 1) (next (exec (.ctab 3 1) s)))
    codes 3 t.me.v[5] = [0x1234, 9, 0] ∧ t.me.v[5].tag = 0x001F := by decide +kernel

/-- Cell (0, 0) of R274's example on a smaller array: −4.5 after the first product, and the second closes the block at −2.5. -/
theorem test_opa_example :
    let v (c d : Nat) : VReg := reg 0x0020 [c, d]
    let s : State := withV [(4, v 5 7), (5, v 0xB 0), (6, v 1 0), (7, v 6 0)] { small with me := { runner with vl := 16, mvl := 16, nbl := 1, leave := .granted true } }
    let s1 := next (exec (.opa 0 4 5 0) s)
    let s2 := next (exec (.opa 0 6 7 0) { s1 with me := { s1.me with leave := .granted true } })
    s1.core.base = some (-30) ∧ s1.core.count = 1 ∧ cellAt 0 0 0 s2 = 0xC0200000 ∧ s2.core.owner = none := by decide +kernel
theorem test_opa_asks_leave : (next (exec (.opa 0 4 5 0) (withV [(4, reg 0x0020 [5]), (5, reg 0x0020 [5])] { small with me := { runner with vl := 16, mvl := 16 } }))).me.leave ≠ .none := by
  decide +kernel
/-- The bound and both modes of R288's example. -/
theorem test_scout_bound :
    let s : State := withV [(1, reg 0x0003 [8]), (2, reg 0x0003 [8])] { small with me := { runner with vl := 64, mvl := 16, leave := .granted true }, core := { small.core with fmt := 1 } }
    let t := next (exec (.scout 0 1 2 9 1) s)
    t.me.g[9] = 228 ∧ cellS32 t 0 0 0 = 64 ∧ (threshResult (.ofInt 40) false 300 228).1 = false ∧ (threshResult (.ofInt 40) true 300 228).1 = false ∧
    (threshResult (.ofInt 40) false 250 228).1 = true ∧ (threshResult (.ofInt 40) true 250 228).1 = false := by decide +kernel

/-! ## Memory, translation and DRAM -/

/-- The tables of chapter 01's example, with a level-2 entry as given, for context 0x02A of partition 0. -/
def walkExample (e : Nat) : State :=
  let m1 := Memory.setN [] (0x200000 + 32 * 0x2A) (bytesOf 8 0x100001)
  let m2 := Memory.setN m1 0x100120 (bytesOf 8 0x110001)
  let m3 := Memory.setN m2 0x111A28 (bytesOf 8 0x114001)
  { small with
    me := { runner with ctx := 0x2A }
    core := Core.reset 0 []
    ctxbase := 0x200000
    grants := small.grants.set 0 (Vector.replicate 16 wholeGrant)
    mem := Memory.setN m3 0x1159E0 (bytesOf 8 e) }

theorem test_walk_example : (translate (reqOf (walkExample 0x124A00060F).me) .store 8 0x123456789ABCDE (walkExample 0x124A00060F)).1.toOption = some (.mem 0x124A9ABCDE .wb) := by
  decide +kernel
theorem test_walk_sets_dirty :
    natOf ((translate (reqOf (walkExample 0x124A00020F).me) .store 8 0x123456789ABCDE (walkExample 0x124A00020F)).2.mem.getN 0x1159E0 8) = 0x124A00060F := by decide +kernel
theorem test_walk_write_fault :
    let s := walkExample 0x124A000207
    let t := translateStore { s with me := { s.me with stq := [⟨0x123456789ABCD8, 8, 1, 0x40, false, List.replicate 8 none, false, false, false⟩] } }
    t.me.sfq.map (fun r => fld r.w0 0 8) = [8] ∧ t.mem = s.mem ∧
    faultRecord (reqOf s.me) .store 0x123456789ABCDE none ⟨8, 2, 0x124A000207, false⟩ = #v[0x02A0000180000008, 0x123456789ABCDE, 0, 0x124A000207] := by
  decide +kernel
/-- The address of chapter 04's example: stack h6, channel 25, pseudo-channel 1, bank 54, row 2341, slice 35, set 1935. -/
theorem test_dram_address_example : stackOf 0x124A9ABCDE = 6 ∧ homeDie 0x124A9ABCDE = 3 ∧ bankOf 0x124A9ABCDE = some (⟨3, 0, 51, 54⟩, 2341) ∧
    sliceOf (0x124A9ABCDE / 64) = 35 ∧ Machine.setOf (0x124A9ABCDE / 64) = 1935 := by decide +kernel
/-- The refresh of bank 54 around cycle 14,560: in doubled mode the interval that began 106 cycles before, in normal mode 2,548 before. -/
theorem test_refresh_example : refreshFrom ⟨0, 0, 0, 54⟩ true (14560 - 106) = 14560 - 106 ∧ refreshFrom ⟨0, 0, 0, 54⟩ true (14560 - 105) = 14560 - 106 + 2112 ∧
    refreshFrom ⟨0, 0, 0, 54⟩ false (14560 - 2548) = 14560 - 2548 := by decide +kernel

theorem test_loads_extend :
    let s := withG [(2, 0x100)] { small with mem := Memory.setN [] 0x100 (bytesOf 8 0x8899AABBCCDDEEFF) }
    (next (exec (.ldB 1 2 0) s)).me.g[1] = 0xFFFFFFFFFFFFFFFF ∧ (next (exec (.ldHu 1 2 0) s)).me.g[1] = 0xEEFF ∧ (next (exec (.ldW 1 2 4) s)).me.g[1] = 0xFFFFFFFF8899AABB ∧
    (next (exec (.ldD 1 2 1) s)).me.g[1] = 0x008899AABBCCDDEE := by decide +kernel
/-- A load reads the strand's own store before it has left the queue, and DRAINST takes it to memory. -/
theorem test_store_then_load :
    let s := next (exec (.stH 3 2 2) (withG [(2, 0x100), (3, 0x1234)] small))
    (next (exec (.ldD 1 2 0) s)).me.g[1] = 0x12340000 ∧ s.mem = [] ∧ (next (exec .drainst s)).mem = [(0x102, 0x34), (0x103, 0x12)] := by decide +kernel
theorem test_load_fault :
    let t := next (exec (.ldD 1 2 0) (withG [(2, 0x0200000000000000)] small))
    t.me.tcause = 0x103 ∧ t.me.tepc = 0 ∧ t.me.pc = 0x800 ∧ t.me.trec[1] = 0x0200000000000000 := by decide +kernel
theorem test_amos :
    let s := withG [(2, 0x100), (3, 5)] { small with mem := Memory.setN [] 0x100 (bytesOf 8 0xFFFFFFFFFFFFFFFE) }
    (next (exec (.amoAdd 1 2 3 false 0) s)).me.g[1] = 0xFFFFFFFFFFFFFFFE ∧ (next (exec (.amoAdd 1 2 3 false 0) s)).mem = [(0x100, 3)] ∧
    (next (exec (.amoAdd 1 2 3 true 0) s)).mem.getN 0x100 8 = bytesOf 8 0xFFFFFFFF00000003 ∧
    (next (exec (.amoMax 1 2 3 false false 0) s)).mem = [(0x100, 5)] ∧ (next (exec (.amoMax 1 2 3 true false 0) s)).mem = s.mem := by decide +kernel
theorem test_compare_and_swap :
    let s := withG [(1, 7), (2, 0x100), (3, 5)] { small with mem := [(0x100, 7)] }
    (next (exec (.amoCas 1 2 3 false 0) s)).mem = [(0x100, 5)] ∧ (next (exec (.amoCas 1 2 3 false 0) (withG [(1, 8)] s))).mem = [(0x100, 7)] := by decide +kernel
theorem test_latch :
    let s := withG [(2, 0x100)] { small with chainid := 3 }
    let t := next (exec (.acq 2) s)
    let u := next (exec (.rel 2) t)
    natOf (t.mem.getN 0x100 8) = 0x380000 ∧ t.me.latches = [⟨0x100, 0x100, true⟩] ∧ natOf (u.mem.getN 0x100 8) = 0x10000000000 ∧ u.me.latches = [] ∧
    (next (exec (.acqObs 4 2) u)).me.g[4] = 1 ∧ (next (exec (.acq 2) t)).me.tcause = 2 := by decide +kernel
theorem test_publication :
    let s := withG [(2, 0x100), (3, 40)] small
    let t := next (exec (.pubhwFin 2 3) s)
    natOf (t.mem.getN 0x108 8) = 0x8000000000000028 ∧ natOf (t.mem.getN 0x100 8) = 0x10000000000 := by decide +kernel

theorem test_vector_store_and_load :
    let s := withG [(2, 0x100)] (withV [(1, reg 0x0003 [1, 2, 3, 4, 5, 6, 7, 8]), (3, reg 0x0003 [])] small)
    let t := next (exec .drainst (next (exec (.vst 1 2 0 0 false) s)))
    natOf (t.mem.getN 0x100 4) = 0x87654321 ∧ codes 8 (next (exec (.vld 3 2 0 0 false) t)).me.v[3] = [1, 2, 3, 4, 5, 6, 7, 8] := by decide +kernel
/-- The gather of R307's example. -/
theorem test_gather_example :
    let s := withG [(10, 0x100), (12, 0x1000300000006)] (withV [(5, reg 0x0013 [2, 6, 15, 0, 5, 3]), (6, reg 0x0007 [])]
      { small with me := { runner with vl := 6, mode := 0x800000 }, mem := Memory.setN [] 0x100 [10, 236, 30, 216, 50, 196] })
    let t := next (exec (.vgather 6 10 5 12) s)
    codes 6 t.me.v[6] = [30, 0x80, 0x80, 10, 196, 0] ∧ t.me.g[13] = 0x100010002 ∧ t.me.vflags = 0x80 := by decide +kernel
/-- The chunks of chapter 06's example. -/
theorem test_chunk_example : chunkUnits 10000 = 192 ∧ chunkCount 10000 = 53 := by decide +kernel
/-- A copy of sixteen bytes from memory to memory: the command is queued, its one chunk waits for the bank of what it reads, moves them once that has served it, and the tag is ready. -/
theorem test_copy :
    let s := withG [(4, 0x100), (5, 0x200), (6, 16 + 7 * 2 ^ 32 + 7 * 2 ^ 42), (7, 0)] { small with
      mem := Memory.setN [] 0x100 [1, 2, 3, 4, 5, 6, 7, 8, 9, 10, 11, 12, 13, 14, 15, 16], dies := small.dies.set 0 { Die.reset with hbmDone := #v[1, 1], cycle := 200 } }
    let s1 := next (exec (.cpy 4 0 0 3) s)
    let w := next (exec (.copyChunk 0 3 0) (next (exec (.copyAccept 0) s1)))
    let s2 := next (exec (.copyChunk 0 3 0) (next (exec (.dramAccess ⟨0, 0, 4, 0⟩) w)))
    s1.core.tags[3].st = .busy ∧ w.core.tags[3].mask = 0 ∧ (next (exec (.copyChunk 0 3 0) w)).core.tags[3].st = .busy ∧ s2.core.tags[3].st = .ready ∧ s2.core.tags[3].err = 0 ∧ (next (exec (.waitall 1) (withG [(1, 8)] s2))).core.tags[3].st = .free ∧
    (next (exec .drainst s2)).mem.getN 0x200 16 = s.mem.getN 0x100 16 := by decide +kernel

/-! ## Launches and power -/

/-- A launch record of context 5 on core 0 with one strand, entry 0x40 and VLREQ 64; `w10` is word 10. -/
def record (w10 : Nat) : List Word := [5, 0x40, 0x77, 0, 0, 0, 0, 0x2000, 192, 8 * 64, BitVec.ofNat 64 w10, 0, 0, 0, 0, 0]

/-- The package at stage 4 with the record in slot 0 of queue 3. -/
def launching : State :=
  let m := Memory.setN (Memory.setN [] 0x1000 ((record 64).flatMap fun w => bytesOf 8 w.toNat)) 0x400A0 (bytesOf 8 1 ++ bytesOf 8 0x20000)
  { small with
    me := Strand.reset 0 0
    mem := m
    ctxbase := 0x40000
    grants := small.grants.set 0 (Vector.replicate 16 wholeGrant)
    dies := small.dies.set 0 { Die.reset with
      stage := 4
      queues := Die.reset.queues.set 3 ⟨0x1000, 0x9000, 0, false, true, 0, 1, 0, false, []⟩
      islands := Die.reset.islands.set 0 { Die.reset.islands[0] with sampled := 1 } } }

theorem test_launch_from_a_queue :
    let s := next (exec (.slotAccept 0 3) launching)
    let t := next (exec .placement s)
    s.launches.map (fun l => (l.st, l.met)) = [(.candidate, true)] ∧ s.dies[0].queues[3].head = 1 ∧ t.me.life = .running ∧ t.me.pc = 0x40 ∧ t.me.g[1] = 0x77 ∧
    t.me.budget = 192 ∧ t.me.tagCount = 8 ∧ t.core.plc = 1 := by decide +kernel
/-- The first period of R333's example: X is granted, and 144 and 100 remain. -/
theorem test_deficit_example :
    let l (id pwt : Nat) : Launch := newLaunch id (record (64 + pwt * 2 ^ 16)) 0 0 0 none
    let s : State := { small with
      me := { runner with launch := 1, leave := .asked 256 0 true }
      core := { small.core with strands := [{ runner with sid := 1, launch := 2, leave := .asked 256 0 true }] }
      launches := [l 1 3, l 2 0] }
    let t := islandPeriod 0 500 s
    t.me.leave = .granted true ∧ defOf 1 0 t = 144 ∧ defOf 2 0 t = 100 ∧ (strandAt 0 1 t).map (fun x => x.leave) = some (.asked 256 0 true) := by decide +kernel
/-- The allowances of R376's example. -/
theorem test_allowance_example :
    let w (n : Nat) : Nat := n * 1000000 * drawUnit
    let p (floor allot : Nat) : Partition := ⟨0, 0, 0, 0, 0, 0, 0, 0, allot, floor, Vector.replicate 4 0⟩
    let s : State := { small with
      parts := (small.parts.set 0 (p 800 0x1F)).set 1 (p 400 0x3E0)
      dies := small.dies.set 0 { Die.reset with islands := Vector.replicate 12 { Die.reset.islands[0] with therm := 1 } } }
    let x : Supply := ⟨w 500, w 345, #v[w 150, w 160, 0, 0, 0, 0, 0, 0]⟩
    quotaOf x (List.range 10) 0 s = 8089 ∧ quotaOf x (List.range 10) 5 s = 4143 := by decide +kernel
theorem test_mailbox_refusals :
    let s : State := { small with
      cap := 2000
      dies := small.dies.set 0 { Die.reset with stage := 4 }
      parts := (small.parts.set 0 { small.parts[0] with floor := 800 }).set 1 { small.parts[1] with floor := 400 } }
    (next (exec (.setcap 1000) s)).mailbox.sts = 3 ∧ (next (exec (.setcap 300) s)).mailbox.sts = 2 ∧ (next (exec (.setcap 300) s)).cap = 2000 ∧
    (next (exec (.setcap 1300) s)).mailbox.busy = true := by decide +kernel

/-! ## Witnesses: a state and operands that meet the hypotheses of each statement -/

/-- The value and the state of a part that goes on. -/
def okVal {α : Type} : Res α → Option α
  | .ok a _ => some a
  | .stop _ => none
def endState {α : Type} : Res α → State
  | .ok _ s => s
  | .stop s => s

theorem ok_of_val {α : Type} {r : Res α} {a : α} (h : okVal r = some a) : r = .ok a (endState r) := by
  cases r <;> simp_all [okVal, endState]

theorem stop_of_none {α : Type} {r : Res α} (h : okVal r = none) : r = .stop (endState r) := by
  cases r <;> simp_all [okVal, endState]

theorem pair_of_ok {ε α β : Type} {r : Except ε α × β} {a : α} (h : r.1.toOption = some a) : r = (.ok a, r.2) := by
  obtain ⟨x, b⟩ := r
  cases x <;> simp_all [Except.toOption]

/-- The error of an access. -/
def errOf {ε α : Type} : Except ε α → Option ε
  | .error e => some e
  | .ok _ => none

theorem pair_of_err {ε α β : Type} {r : Except ε α × β} {e : ε} (h : errOf r.1 = some e) : r = (.error e, r.2) := by
  obtain ⟨x, b⟩ := r
  cases x <;> simp_all [errOf]

/-- Whether an outcome is a next state. -/
def isNext (o : Out) : Bool :=
  match o with
  | .next _ => true
  | _ => false

theorem next_of_isNext {o : Out} (h : isNext o = true) : o = .next (next o) := by
  cases o <;> simp_all [isNext, next]

/-- The form of Safety.State.wellKept and of Settled as a check. -/
def keptCheck (s : State) : Bool :=
  s.mem.wf && s.durable.wf && s.me.mesh == s.core.mesh && s.core.strands.all (fun t => t.mesh == s.core.mesh) &&
    s.cores.all fun c => c.strands.all fun t => t.mesh == c.mesh
def settledCheck (s : State) : Bool :=
  keptCheck s && s.me.stq.isEmpty && s.me.vwq.isEmpty && s.me.sfq.isEmpty && s.core.out.isEmpty && s.remote.isEmpty

theorem kept_of_check {s : State} (h : keptCheck s = true) : s.wellKept := by
  simp only [keptCheck, Bool.and_eq_true, beq_iff_eq, List.all_eq_true] at h
  exact ⟨h.1.1.1.1, h.1.1.1.2, h.1.1.2, h.1.2, h.2⟩

theorem settled_of_check {s : State} (h : settledCheck s = true) : Settled s := by
  simp only [settledCheck, Bool.and_eq_true, List.isEmpty_iff] at h
  exact ⟨kept_of_check h.1.1.1.1.1, h.1.1.1.1.2, h.1.1.1.2, h.1.1.2, h.1.2, h.2⟩

theorem test_small_settled : Settled small := settled_of_check (by decide +kernel)
theorem test_small_kept : small.wellKept := test_small_settled.kept
theorem test_small_fresh : Fresh small := by refine ⟨?_, ?_, ?_, ?_, ?_⟩ <;> decide +kernel
theorem test_small_core : HasCore 0 small := .inl rfl

/-! ### Decoding and steps -/

theorem test_witness_EncodedInstructionsDecode : (Instr.add 3 1 2).wf = true ∧ encode (.add 3 1 2) = some 0x01184400 := by decide +kernel
theorem test_witness_DecodedWordsEncode : 0x01184400 < 2 ^ 32 ∧ decodeTableWord 32 0x01184400 = some (.add 3 1 2) := by decide +kernel
theorem test_witness_WordsOfTheTablesDecode :
    (∀ w ∈ [0x00000000, 0x1E000000, 0x29000000, 0x3C000000, 0x48000000, 0x5D000000, 0x69000000, 0x74000000, 0x9F000000, 0xAB000000, 0xB4000000, 0xBC000000, 0xC9000000, 0xDD000000],
      (assigned[w / 2 ^ 28 % 16]?).any (fun h => decide (w / 2 ^ 24 % 16 < h.1) || decide (h.2 < w / 2 ^ 24 % 16)) = true ∨ w / 2 ^ 28 = 11) ∧
    0xFF123456 / 2 ^ 24 % 256 = 0xFF ∧ 0xE0 ≤ 0xE0000000 / 2 ^ 24 % 256 ∧ 0xFEFFFFFF / 2 ^ 24 % 256 ≤ 0xFE := by decide +kernel
theorem test_witness_StepRunsTheDecodedInstruction :
    let s := small.withFetchWord 32 0x01184400
    let p := beat (passCycles s.pace s)
    s.agenda = [] ∧ mayRun p = true ∧ atStop p = false ∧ p.me.doubleFault = false ∧ storeTrapDue p = false ∧ (fetchWord p = .ok 0x01184400 (endState (fetchWord p))) ∧ decode 0x01184400 = .ok (.add 3 1 2) :=
  ⟨rfl, by decide +kernel, by decide +kernel, by decide +kernel, by decide +kernel, ok_of_val (by decide +kernel), rfl⟩
theorem test_witness_StepRunsTheDecodedInstruction_refused :
    let s := small.withFetchWord 32 0xFF000000
    let p := beat (passCycles s.pace s)
    s.agenda = [] ∧ mayRun p = true ∧ atStop p = false ∧ p.me.doubleFault = false ∧ storeTrapDue p = false ∧ (fetchWord p = .ok 0xFF000000 (endState (fetchWord p))) ∧ decode 0xFF000000 = .error .opcode ∧
    inHandler (endState (fetchWord p)).me = false :=
  ⟨rfl, by decide +kernel, by decide +kernel, by decide +kernel, by decide +kernel, ok_of_val (by decide +kernel), rfl, by decide +kernel⟩
theorem test_witness_StepRunsTheDecodedInstruction_event : encode (.coreLoss 0) = none ∧ ({ small with agenda := [(#v[3, 3, 3, 3], .event (.coreLoss 0))] } : State).agenda = [(#v[3, 3, 3, 3], .event (.coreLoss 0))] := by
  decide +kernel
theorem test_witness_StepsKeepForm : ∃ t, State.wellKept (small.withFetchWord 32 0x01184400) ∧ step (small.withFetchWord 32 0x01184400) = .next t :=
  ⟨next (step (small.withFetchWord 32 0x01184400)), kept_of_check (by decide +kernel), next_of_isNext (by decide +kernel)⟩

/-! ### Traps, loops and scalar instructions -/

/-- The strand in its handler after TRAP. -/
def handling : State := next (exec (.trap 7) small)

theorem test_witness_TrapEntry : small.me.life = .running ∧ inHandler small.me = false ∧ handling.me.life = .running ∧ inHandler handling.me = true ∧ atLoopEnd small.me = false := by
  decide +kernel
theorem test_witness_EretReturns :
    atLoopEnd handling.me = false ∧ handling.me.priv = true ∧ handling.me.sfq = [] ∧ handling.me.held = none ∧ small.me.priv = false ∧
    (let h : State := { handling with me := { handling.me with held := some ⟨.vec 1 VReg.reset [], 4, 0⟩, tstat := 6 } }
     h.me.tepc = 4 ∧ bit h.me.tstat 2 = true ∧ bit handling.me.tstat 2 = false) := by decide +kernel
theorem test_witness_RegisterWriteFrames : (3 : GReg) ≠ 0 ∧ (4 : GReg) ≠ 3 ∧ 12 ≤ 63 := by decide
/-- A loop at whose last word the strand stands, with `count` rounds left. -/
def looping (count : BitVec 32) : State := { small with me := { runner with pc := 12, lc := runner.lc.set 1 ⟨true, count, 4, 12⟩ } }
theorem test_witness_LoopBackAndLeaving :
    inHandler handling.me = true ∧ inHandler (looping 2).me = false ∧ (∀ k : Fin 3, ¬(small.me.lc[k].act = true ∧ small.me.lc[k].last = small.me.pc)) ∧
    (looping 2).me.lc[1].act = true ∧ (looping 2).me.lc[1].last = (looping 2).me.pc ∧
    (∀ j : Fin 3, 1 < j → ¬((looping 2).me.lc[j].act = true ∧ (looping 2).me.lc[j].last = (looping 2).me.pc)) ∧ 1 < (looping 2).me.lc[1].count.toNat ∧
    (looping 1).me.lc[1].count.toNat ≤ 1 ∧ (looping 0).me.lc[1].count.toNat ≤ 1 := by decide +kernel
theorem test_witness_IntegerResults : aluResult (fun r => gR r small) (.div 1 2 0) = some (1, BitVec.allOnes 64) := by decide +kernel
theorem test_witness_ImmediateResults :
    (aluImmediate (.addI 1 2 0x3FFF)).isSome ∧ (0x1FFF : BitVec 14).getLsbD 13 = false ∧ (0x3FFF : BitVec 14).getLsbD 13 = true ∧
    small.me.patch.find? (fun p => p.1 == 0x3008) = none ∧ okVal (patchRead 0x3008 small) = some 0 ∧
    ({ runner with patch := [(0x3008, 9)] } : Strand).patch.find? (fun p => p.1 == 0x3008) = some (0x3008, 9) ∧
    (errOf (translate (reqOf small.me) .load 8 0x0200000000000000 small).1).isSome := by decide +kernel
theorem test_witness_BranchesAndJumps :
    (branchOf (.blt 1 2 0x2000)).isSome ∧ atLoopEnd small.me = false ∧ okVal (immValue 0x100 small) = some 0x100 ∧ ((gR 0 small + 0x100).extractLsb' 0 2 = 0) ∧
    ((gR 0 small + 0x102).extractLsb' 0 2 ≠ 0) := by decide +kernel
theorem test_witness_LoopOpens :
    okVal (immValue 3 small) = some 3 ∧ atLoopEnd small.me = false ∧ (small.me.lc.toList.filter fun x => x.act).length = 0 ∧ gR 5 (withG [(5, 4)] small) ≠ 0 ∧ gR 5 small = 0 := by
  decide +kernel
theorem test_witness_IllegalOperations : inHandler small.me = false ∧ transfers (.b 4) = true ∧ atLoopEnd (looping 1).me = true := by decide +kernel
theorem test_witness_StripCompletes :
    let s := withG [(4, 10000), (8, 0x100000), (12, 8)] small
    inHandler s.me = false ∧ atLoopEnd s.me = false ∧ (∀ k, k < 4 → fld (gR 12 s) (16 * k) 16 ≠ 0 → (8 + k ≤ 31 ∧ 4 ≠ 8 + k ∧ s.me.vl * fld (gR 12 s) (16 * k) 16 % 8 = 0)) ∧
    okVal (grantOf (10000 - 8) (s.me.sbase + 8) (boundPub s.me) s) = some 4096 := by decide +kernel
/-- The same strip bound to a publication that has reached nothing waits, and its pointer may not be the counter. -/
theorem test_witness_StripCompletes_waits :
    let s := withG [(4, 10000)] { small with me := { (withG [(4, 10000)] small).me with pub := 0x100 } }
    okVal (grantOf (10000 - 8) (s.me.sbase + 8) (boundPub s.me) s) = none ∧ (∃ k, k < 4 ∧ fld (gR 4 s) (16 * k) 16 ≠ 0 ∧ (31 < 4 + k ∨ 4 = 4 + k ∨ s.me.vl * fld (gR 4 s) (16 * k) 16 % 8 ≠ 0)) :=
  ⟨by decide +kernel, 0, by decide +kernel⟩
theorem test_witness_FloatInstructionsComplete : (floatResult (scalarRm small.me) (fun r => fR r small) (.fdiv 1 2 3)).isSome := by decide +kernel
theorem test_witness_FloatValuesAndCompares :
    let s := withF [(2, 0x3FC00000), (3, 0x3E800000), (4, 0x7FC00000)] small
    (exactResult (fun r => fval (fR r s)) (.fadd 1 2 3)).any (fun p => p.2.1 != 0) = true ∧ bit s.me.mode 32 = false ∧ invalidCase (fun r => fval (fR r s)) (.fdiv 1 5 6) = some 1 ∧
    fval (fR 4 s) = .nan := by decide +kernel
theorem test_witness_FloatConversions :
    let s := withF [(2, 0x7FC00000), (3, 0xFF800000), (4, 0x7F800000), (5, 0xDF800000), (6, 0x5F800000), (7, 0x3F800000)] small
    fval (fR 2 s) = .nan ∧ fval (fR 3 s) = .inf true ∧ fval (fR 4 s) = .inf false ∧ (∃ n p z, fval (fR 5 s) = .fin n p z ∧ (roundInt ⟨scalarRm s.me, false, 0, 0, 0, 0⟩ n p).1 < -(2 ^ 63)) ∧
    (∃ n p z, fval (fR 6 s) = .fin n p z ∧ 2 ^ 64 - 1 < (roundInt ⟨scalarRm s.me, false, 0, 0, 0, 0⟩ n p).1) ∧ ∃ n p z, fval (fR 7 s) = .fin n p z ∧ (roundInt ⟨scalarRm s.me, false, 0, 0, 0, 0⟩ n p).1 = 1 :=
  ⟨rfl, rfl, rfl, ⟨_, _, _, rfl, by decide +kernel⟩, ⟨_, _, _, rfl, by decide +kernel⟩, _, _, _, rfl, by decide +kernel⟩
theorem test_witness_ControlRegisters :
    (0x100 ≤ (0x101 : BitVec 9).toNat → handling.me.priv = true) ∧ (csrOrdered 0x00A = true → inHandler small.me = false) ∧
    (let s : State := { small with me := { runner with priv := true } }
     inHandler s.me = false ∧ s.me.priv = true ∧ (16384 : Word).toNat ≤ 16384 ∧ (16320 : Word).toNat % 64 = 0 ∧ (16320 : Word).toNat < 16384 ∧ modeIllegal 0x9F = false) ∧ small.me.priv = false ∧
    1 ≤ fld 4 0 4 ∧ fld 4 0 4 ≤ 4 := by decide +kernel
theorem test_witness_HintsAndWaits :
    let s := withG [(2, 0x100), (3, 1), (4, 0x101)] small
    okVal (immValue 5 s) = some 5 ∧ (gR 4 s).toNat % 8 ≠ 0 ∧ (gR 2 s).toNat % 8 = 0 ∧ ((okVal (readHome8 (gR 2 s) s)).map fun p => p.1) = some 0 ∧
    gR 3 (endState (readHome8 (gR 2 s) s)) ≠ 0 ∧ gR 0 (endState (readHome8 (gR 2 s) s)) = 0 ∧
    ⟨0, 0, .mem 4, true⟩ ∈ (wake (.mem 0x107) (next (exec (.wfe 1 2 0) s))).watches := by decide +kernel
theorem test_witness_EndCompletes :
    let s : State := { small with me := { runner with tagCount := 0 } }
    let r := translate (reqOf s.me) .atomic 8 s.me.compl (acquireCopies unboundOnly 5 s)
    Settled s ∧ atLoopEnd s.me = false ∧ s.me.tagCount = 0 ∧ s.me.latches = [] ∧ s.launches = [] ∧ r = (.ok (.mem 0x2000 .wb), r.2) ∧ Settled r.2 ∧ r.2.me = s.me ∧ r.2.launches = [] :=
  ⟨settled_of_check (by decide +kernel), by decide +kernel, rfl, rfl, rfl, pair_of_ok (by decide +kernel), settled_of_check (by decide +kernel), by decide +kernel, by decide +kernel⟩

/-! ### Vector instructions -/

/-- A state for vector instructions: s4 registers 1 to 3, n4 register 4, fp32 registers 5 and 6, n16 register 7 and an e2m1.b8 register 8, leave granted. -/
def lanesState : State :=
  withG [(2, 3), (9, 0x100)] (withV [(1, reg 0x0003 [1, 2]), (2, reg 0x0003 [7, 8]), (3, reg 0x0003 [5]), (4, reg 0x0013 [1, 15]), (5, reg 0x0090 [0x3F800000]), (6, reg 0x0090 []),
    (7, reg 0x001F [1, 2]), (8, reg 0x0120 [])] { small with me := { runner with leave := .granted true } })

theorem test_lanes_fresh : Fresh lanesState := by refine ⟨?_, ?_, ?_, ?_, ?_⟩ <;> decide +kernel
theorem begun_of_fresh {s : State} (h : Fresh s) : Begun s := ⟨h.1, by rw [h.2.1], h.2.2.2.1, h.2.2.2.2⟩
theorem test_lanes_begun : Begun lanesState := begun_of_fresh test_lanes_fresh
/-- Whether no source holds a mark of poison. -/
def clean (srcs : List (Fin 32 × VReg)) : Bool := srcs.all fun r => r.2.poison.isEmpty
theorem noPoison_of_clean {srcs : List (Fin 32 × VReg)} {es : List Nat} (h : clean srcs = true) : NoPoison srcs es := by
  intro e _ r hr m hm
  simp only [clean, List.all_eq_true, List.isEmpty_iff] at h
  exact absurd hm (by simp [h r hr])
theorem test_witness_VectorIntegerResults :
    (integerLanes lanesState (.vadd 1 2 3 false true)).any (fun l => l.ok && budgetOk lanesState.me l.dest l.tag && clean l.srcs) = true ∧
    (integerLanes lanesState (.vadd 1 2 5 false true)).any (fun l => !l.ok) = true ∧ (integerLanes lanesState (.vmac 1 2 2 true false)).any (fun l => l.ok) = true := by decide +kernel
theorem test_witness_VectorCodeResults :
    (codeLanes lanesState (.vsel 1 2 3 0)).any (fun l => l.ok && budgetOk lanesState.me l.dest l.tag && clean l.srcs) = true ∧
    (codeLanes lanesState (.clook 1 4 0)).any (fun l => l.ok) = true ∧ (codeLanes lanesState (.clook 1 2 0)).any (fun l => !l.ok) = true := by decide +kernel
theorem test_witness_VectorFloatResults :
    (floatLanes lanesState (.vfadd 6 5 5 false false)).any (fun l => l.ok && budgetOk lanesState.me l.dest l.tag && clean l.srcs) = true ∧
    (floatLanes lanesState (.vfexp2 6 2)).any (fun l => !l.ok) = true ∧ (floatLanes lanesState (.quant 1 5 0 false 0)).any (fun l => l.ok) = true ∧
    (floatLanes lanesState (.vfcvt 8 5)).any (fun l => l.ok) = true := by decide +kernel
theorem test_witness_WholeRegisterResults :
    (wholeLanes lanesState (.vscan 1 2 true true)).any (fun l => l.1.ok && budgetOk lanesState.me l.1.dest l.1.tag && clean l.1.srcs) = true ∧
    (wholeLanes lanesState (.viota 1 0)).any (fun l => l.1.ok) = true ∧ (wholeLanes lanesState (.vslideUp 1 8 2)).any (fun l => !l.1.ok) = true := by decide +kernel
theorem test_witness_VectorShifts :
    isInt (vKind lanesState.me.v[2]) = true ∧ isInt (vKind lanesState.me.v[1]) = true ∧ budgetOk lanesState.me 1 lanesState.me.v[1].tag = true ∧ modeGON lanesState.me.mode = false ∧
    widens (vKind lanesState.me.v[2]) (vKind lanesState.me.v[1]) = true ∧ lanesState.me.v[2].poison = [] ∧ modeGON 0x08 = true := by decide +kernel
theorem test_witness_MaskResults :
    isInt (vKind lanesState.me.v[2]) = true ∧ lanesState.me.v[2].poison = [] ∧ intMin (vKind lanesState.me.v[2]) ≤ (gR 2 lanesState).toInt ∧
    (gR 2 lanesState).toInt ≤ intMax (vKind lanesState.me.v[2]) ∧ isInt (vKind lanesState.me.v[3]) = true ∧ (maskResult lanesState (.mxor 1 2 3)).isSome := by decide +kernel
theorem test_witness_ReductionResults :
    (wholeResult lanesState (.vdot 1 2 3)).any (fun r => r.1) = true ∧ tagWidth lanesState.me.v[2].tag * tagWidth lanesState.me.v[3].tag < 32 ∧
    32 ≤ tagWidth lanesState.me.v[7].tag * tagWidth lanesState.me.v[7].tag ∧ lanesState.me.leave = .granted true ∧ small.me.leave = .none ∧
    (wholeResult lanesState (.vred 1 5 0)).any (fun r => !r.1) = true ∧ (wholeResult lanesState (.vred 1 5 3)).any (fun r => r.1) = true := by decide +kernel
theorem test_witness_VectorConfiguration :
    inHandler small.me = false ∧ okVal (immValue 3 small) = some 3 ∧ tagIllegal 3 = false ∧ budgetOk small.me 1 3 = true ∧ tagIllegal 0x0400 = true ∧ budgetOk { runner with budget := 3 } 1 3 = false ∧
    (gR 9 lanesState).toNat % 8 = 0 ∧ (gR 2 lanesState).toNat % 8 ≠ 0 ∧ okVal (grantOf 100 lanesState.me.sbase (some 0x100) lanesState) = none ∧
    okVal (grantOf 100 0 (some 0x100) { small with mem := [(0x10F, 0x80)] }) = some 0 ∧ fld 0x04 0 3 ≤ 4 ∧ fld 0x05 0 3 > 4 := by decide +kernel
theorem test_witness_ScaleSlotsAndSoftmax :
    (slotResult lanesState (.qstat 1 5 3)).any (fun r => r.1) = true ∧ (slotResult lanesState (.ctab 5 1)).any (fun r => !r.1) = true ∧ (softLanes lanesState 6 5 2 false 0).ok = true ∧
    (softLanes lanesState 6 5 14 false 0).ok = false ∧ budgetOk lanesState.me 6 (softLanes lanesState 6 5 2 false 0).tag = true := by decide +kernel
/-- Leave granted on an array of 16 by 16 cells in S32. -/
def tiles : State := withV [(1, reg 0x0003 [8]), (2, reg 0x0003 [7])] { small with me := { runner with vl := 32, mvl := 16, nbl := 0, leave := .granted true }, core := { small.core with fmt := 1 } }
theorem test_tiles_fresh : Fresh tiles := by refine ⟨?_, ?_, ?_, ?_, ?_⟩ <;> decide +kernel
theorem ready_of_clean {i : Instr} {s : State} (h : s.me.leave = .granted true) (hv : (slicesOf i).all (fun x => clean [sliceSrc x.1 x.2 s]) = true) (hc : s.core.cellPoison = []) : Ready i s :=
  ⟨h, fun x hx => noPoison_of_clean (List.all_eq_true.mp hv x hx), fun c _ m hm => absurd hm (by simp [hc])⟩
theorem test_witness_OuterProducts :
    (outerOf tiles (.opa 1 1 2 1)).any (fun r => r.2.1) = true ∧ (outerOf tiles (.opa 1 1 2 2)).any (fun r => !r.2.1) = true ∧ Ready (.opa 1 1 2 1) tiles ∧ FormatStands tiles ∧ tiles.core.fmt = 1 ∧
    tiles.me.nbl = 0 ∧ tiles.core.owner = none ∧ tiles.me.mvl ≤ 256 ∧ tiles.me.tm[0].getLsbD (tiles.me.sbase.toNat / 256 % 256) = false ∧ opaOk 1 tiles.me.v[1] tiles.me.v[2] 1 tiles = true :=
  ⟨by decide +kernel, by decide +kernel, ready_of_clean rfl (by decide +kernel) rfl, fun _ h => absurd h List.not_mem_nil, rfl, rfl, rfl, by decide, by decide +kernel, by decide +kernel⟩
theorem test_witness_OuterProducts_waits : (outerOf { tiles with me := { tiles.me with leave := .none } } (.opa 1 1 2 0)).any (fun r => r.2.1) = true ∧
    Fresh { tiles with me := { tiles.me with leave := .none } } :=
  ⟨by decide +kernel, by refine ⟨?_, ?_, ?_, ?_, ?_⟩ <;> decide +kernel⟩
theorem test_witness_AccumulatorInstructions :
    tileOk 1 tiles = true ∧ tileOk 2 tiles = false ∧ (15 : BitVec 8).toNat < tiles.me.mvl ∧ budgetOk tiles.me 3 tiles.me.v[3].tag = true ∧
    closeIf (fun o => o == 1) tiles = .ok () (endState (closeIf (fun o => o == 1) tiles)) ∧ (endState (closeIf (fun o => o == 1) tiles)).core.cellPoison = [] ∧
    plainS tiles.me.v[1] = true ∧ 0 < tiles.me.vl ∧ tiles.me.vl % tiles.me.mvl = 0 ∧ tiles.me.vl / tiles.me.mvl * highPlanes 4 tiles.me.v[1] * highPlanes 4 tiles.me.v[2] ≤ 1024 :=
  ⟨by decide +kernel, by decide +kernel, by decide +kernel, by decide +kernel, ok_of_val (by decide +kernel), by decide +kernel, by decide +kernel, by decide +kernel, by decide +kernel,
    by decide +kernel⟩

/-! ### Memory -/

theorem test_witness_ScalarLoads :
    let s := withG [(2, 0x100)] small
    let r := translate (reqOf s.me) .load 8 0x108 s
    okVal (immValue 8 s) = some 8 ∧ loadOf (.ldW 1 2 8) ≠ none ∧ r = (.ok (.mem 0x108 .wb), r.2) ∧ Settled r.2 ∧ Uncopied .wb 0x108 r.2 ∧
    (errOf (translate (reqOf s.me) .load 8 0x0200000000000008 s).1).isSome ∧ (okVal (loadValue false 8 0x108 s)).isSome ∧ okVal (loadValue true 4 0x0200000000000008 s) = none :=
  ⟨by decide +kernel, by simp [loadOf], pair_of_ok (by decide +kernel), settled_of_check (by decide +kernel), fun _ => by decide +kernel, by decide +kernel, by decide +kernel, by decide +kernel⟩
/-- A strand with `n` stores in its queue. -/
def storing (n : Nat) : State := { small with me := { runner with stq := List.replicate n ⟨0x100, 8, 7, 0, false, List.replicate 8 none, false, false, false⟩ } }
theorem test_witness_ScalarStores : (storeOf small (.stD 1 2 0)).isSome ∧ okVal (immValue 0 (storing 15)) = some 0 ∧ (storing 15).me.stq.length < 16 ∧ 16 ≤ (storing 16).me.stq.length := by
  decide +kernel
/-- A core with two writes on their way, which share no bit, and one more that shares bits with the first. -/
def leaving : State :=
  let w (a : Nat) : Write := ⟨0, .scalar, 0, false, [⟨.mem a, 1, 0xFF, none⟩], false⟩
  { storing 1 with core := { small.core with out := [w 0x100, w 0x101, w 0x100] }, me := { (storing 1).me with vwq := [w 0x100] } }
theorem test_witness_WritesOnTheirWay :
    leaving.wellKept ∧ leaving.me.stq = [⟨0x100, 8, 7, 0, false, List.replicate 8 none, false, false, false⟩] ∧ (∀ r ∈ leaving.me.sfq, False) ∧
    (let q : QStore := ⟨0x0200000000000100, 8, 7, 0, false, List.replicate 8 none, false, false, false⟩
     (errOf (translate { reqOf small.me with priv := q.priv } .store 8 q.va small).1).isSome) ∧
    (∃ s1, translate { reqOf small.me with priv := false } .store 8 0x100
      { small with core := { small.core with tlb := [{ openPage 0 0 with leaf := 0x69F }] } } = (.ok (.mem 0x100 .nc), s1) ∧ s1.wellKept) ∧
    leaving.core.out[1]? = some ⟨0, .scalar, 0, false, [⟨.mem 0x101, 1, 0xFF, none⟩], false⟩ ∧ (∀ x ∈ leaving.core.out.take 1, overlaps x ⟨0, .scalar, 0, false, [⟨.mem 0x101, 1, 0xFF, none⟩], false⟩ = false) ∧
    (∃ x ∈ leaving.core.out.take 2, overlaps x ⟨0, .scalar, 0, false, [⟨.mem 0x100, 1, 0xFF, none⟩], false⟩ = true) ∧ (strandAt 0 0 leaving).isSome ∧ HasCore 0 leaving :=
  ⟨kept_of_check (by decide +kernel), rfl, by decide +kernel, by decide +kernel, ⟨_, pair_of_ok (by decide +kernel), kept_of_check (by decide +kernel)⟩, by decide +kernel, by decide +kernel,
    by decide +kernel, by decide +kernel, .inl rfl⟩
theorem test_witness_Atomics :
    let s := withG [(2, 0x100)] small
    let r := translate (reqOf s.me) .atomic 8 0x100 s
    (amoOf (.amoAdd 1 2 3 false 0)).isSome ∧ (gR 2 s).toNat % 8 = 0 ∧ Settled s ∧ r = (.ok (.mem 0x100 .wb), r.2) ∧ Settled r.2 ∧ r.2.me = s.me ∧
    (gR 3 (withG [(3, 0x102)] small)).toNat % 4 ≠ 0 ∧ (errOf (translate (reqOf s.me) .atomic 8 0x0200000000000100 s).1).isSome :=
  ⟨by decide +kernel, by decide +kernel, settled_of_check (by decide +kernel), pair_of_ok (by decide +kernel), settled_of_check (by decide +kernel), by decide +kernel, by decide +kernel,
    by decide +kernel⟩
/-- The hypotheses of Latches hold for a word of memory at 0x100 with the value given. -/
def LatchesWitness (w : Nat) : Prop :=
  let s := withG [(2, 0x100)] { small with mem := Memory.setN [] 0x100 (bytesOf 8 w) }
  let r := translate (reqOf s.me) .atomic 8 0x100 s
  (gR 2 s).toNat % 8 = 0 ∧ inWindow (gR 2 s).toNat = false ∧ routeOf s.me.ctx (gR 2 s).toNat s = none ∧ Settled s ∧ r = (.ok (.mem 0x100 .wb), r.2) ∧ ownMemory 0x100 = true ∧
    Settled r.2 ∧ r.2.me = s.me ∧ s.me.replay = false ∧ lwReserved (BitVec.ofNat 64 (wordAt r.2 0x100 8)) = false ∧ wordAt r.2 0x100 8 = w
theorem test_witness_Latches_free : LatchesWitness 0x50000000000 ∧ (0x50000000000 : Word).getLsbD 19 = false :=
  ⟨⟨by decide +kernel, by decide +kernel, by decide +kernel, settled_of_check (by decide +kernel), pair_of_ok (by decide +kernel), by decide +kernel, settled_of_check (by decide +kernel),
    by decide +kernel, by decide +kernel, by decide +kernel, by decide +kernel⟩, by decide⟩
theorem test_witness_Latches_held : LatchesWitness 0x50000080001 ∧ (0x50000080001 : Word).getLsbD 19 = true ∧ (0x50000080001 : Word).extractLsb' 0 32 ≠ BitVec.ofNat 32 (2 ^ 19) ∧
    (0x50000080000 : Word).extractLsb' 0 32 = BitVec.ofNat 32 (2 ^ 19) :=
  ⟨⟨by decide +kernel, by decide +kernel, by decide +kernel, settled_of_check (by decide +kernel), pair_of_ok (by decide +kernel), by decide +kernel, settled_of_check (by decide +kernel),
    by decide +kernel, by decide +kernel, by decide +kernel, by decide +kernel⟩, by decide, by decide, by decide⟩
theorem test_witness_Latches_mine : LatchesWitness 0x50000080000 :=
  ⟨by decide +kernel, by decide +kernel, by decide +kernel, settled_of_check (by decide +kernel), pair_of_ok (by decide +kernel), by decide +kernel, settled_of_check (by decide +kernel),
    by decide +kernel, by decide +kernel, by decide +kernel, by decide +kernel⟩
theorem test_witness_Bindings :
    let s := withG [(1, 0x400), (2, 64), (3, 0x100)] { small with launches := [{ newLaunch 0 [] 0 0 0 none with bindings := [⟨0, 0x800, 0x83F, 0x108, 0⟩] }] }
    Settled s ∧ bindStatus (bindingsOf s.me s) 0x400 64 0x100 1 (leadsToOwn (gR 3 s) s) = 0 ∧ bindStatus (bindingsOf s.me s) 0x401 64 0x100 1 (leadsToOwn (gR 3 s) s) = 3 ∧
    (∀ x ∈ bindingsOf s.me s, x.rbase ≠ 0x400) ∧ ((bindingsOf s.me s).find? fun x => x.rbase == 0x800).isSome :=
  ⟨settled_of_check (by decide +kernel), by decide +kernel, by decide +kernel, by decide +kernel, by decide +kernel⟩
/-- Two strands of a work group on core 0; the other one has arrived at the barrier if `other` says so. -/
def barrier (other : Bool) (done : List (Nat × Nat)) : State :=
  { small with
    me := { runner with launch := 1 }
    core := { small.core with strands := [{ runner with sid := 1, launch := 1, arrived := other }], launch := some 1 }
    launches := [{ newLaunch 1 (record 64) 0 0 0 none with st := .placed, epochs := done }] }
theorem test_witness_FencesAndBarriers :
    Settled small ∧ small.me.pwait = none ∧ (∀ d : Fin 4, small.dies[d].persist = []) ∧ (∃ d : Fin 4, ({ Die.reset with persist := [⟨[], none⟩] } : Die).persist ≠ [] ∧ d = 0) ∧
    (launchAt 1 (barrier true [])).isSome ∧ Settled (barrier true []) ∧
    (∀ t ∈ (strandsOf 0 (barrier true [])).tail, t.epoch = 0 ∧ t.arrived = true) ∧ (∃ t ∈ strandsOf 0 (barrier false []), t.sid = 1 ∧ t.life ≠ .ended ∧ t.arrived = false) ∧
    (launchAt 1 (barrier true [(0, 1)])).any (fun l => decide (0 < epochsDone l 0)) = true :=
  ⟨test_small_settled, rfl, by decide +kernel, ⟨0, by simp, rfl⟩, by decide +kernel, settled_of_check (by decide +kernel), by decide +kernel, by decide +kernel, by decide +kernel⟩
theorem test_witness_PublicationsAndLaunches :
    let s := withG [(1, 0x100), (2, 40), (3, 0x180), (4, 63)] small
    let r := translate (reqOf s.me) .atomic 8 0x100 s
    Settled s ∧ (gR 1 s).toNat % 16 = 0 ∧ (gR 2 s).toNat < 2 ^ 48 ∧ inWindow (gR 1 s).toNat = false ∧ routeOf s.me.ctx (gR 1 s).toNat s = none ∧ r = (.ok (.mem 0x100 .wb), r.2) ∧
    ownMemory 0x100 = true ∧ Settled r.2 ∧ r.2.me = s.me ∧ lwReserved (BitVec.ofNat 64 (wordAt r.2 0x100 8)) = false ∧ fld (BitVec.ofNat 64 (wordAt r.2 0x108 8)) 48 15 = 0 ∧
    (gR 3 s).toNat % 128 = 0 ∧ (gR 4 s).toNat < 64 ∧ (okVal (loadRecord (gR 3 s) s)).isSome ∧ (endState (loadRecord (gR 3 s) s)).me = s.me ∧ (gR 2 s).toNat % 16 ≠ 0 :=
  ⟨settled_of_check (by decide +kernel), by decide +kernel, by decide +kernel, by decide +kernel, by decide +kernel, pair_of_ok (by decide +kernel), by decide +kernel,
    settled_of_check (by decide +kernel), by decide +kernel, by decide +kernel, by decide +kernel, by decide +kernel, by decide +kernel, by decide +kernel, by decide +kernel, by decide +kernel⟩

/-- The states of accesses done one after another, from element `a` on. -/
def chain {α : Type} (a : Nat) (f : Nat → State → Except (Word × XFault) α × State) (s : State) : Nat → State
  | 0 => s
  | n + 1 => if n < a then s else (f n (chain a f s n)).2

/-- Whether accesses `a` to `n - 1` all succeed, with the strand unchanged. -/
def chainOk {α : Type} (f : Nat → State → Except (Word × XFault) α × State) (a n : Nat) (s : State) : Bool :=
  (List.range n).all (fun k => decide (k < a) || (f k (chain a f s k)).1.toOption.isSome) && (List.range (n + 1)).all fun k => (chain a f s k).me == s.me && (chain a f s k).quota.isNone

theorem accesses_of_chain {α : Type} {f : Nat → State → Except (Word × XFault) α × State} {a n : Nat} {s : State} (x0 : α) (h : chainOk f a n s = true) :
    ∃ x, Accesses f a n (chain a f s) x ∧ SameStrand a n (chain a f s) s := by
  classical
  simp only [chainOk, Bool.and_eq_true, List.all_eq_true, List.mem_range, beq_iff_eq, Option.isNone_iff_eq_none, Bool.or_eq_true, decide_eq_true_eq] at h
  refine ⟨fun k => if h' : ∃ y, (f k (chain a f s k)).1.toOption = some y then h'.choose else x0, fun k h1 hk => ?_, fun k _ hk => h.2 k (by omega)⟩
  have h' := Option.isSome_iff_exists.mp ((h.1 k hk).resolve_left (by omega))
  simp only [dif_pos h', chain, if_neg (show ¬k < a by omega)]
  exact pair_of_ok h'.choose_spec

/-- A strand with VL 2 that stores and loads s4 registers at 0x100, and one whose base does not translate. -/
def moving : State := withG [(9, 0x100), (10, 0x0200000000000000), (11, 64), (12, 0x100)] (withV [(1, reg 0x0003 [1, 2]), (2, reg 0x0003 []), (3, reg 0x0013 [1, 0])]
  { small with me := { runner with vl := 2 } })
theorem test_moving_fresh : Fresh moving := by refine ⟨?_, ?_, ?_, ?_, ?_⟩ <;> decide +kernel
theorem test_witness_VectorPieces :
    let p : Piece := ⟨0x101, 1, 4, 4, 0⟩
    let r := translate (reqOf moving.me) .vload 1 p.va moving
    (p.size = 1 ∨ p.size = 2 ∨ p.size = 4 ∨ p.size = 8) ∧ p.va.toNat % p.size = 0 ∧ r = (.ok (.mem 0x101 .wb), r.2) ∧ Settled r.2 ∧ r.2.me = moving.me ∧ Uncopied .wb 0x101 r.2 :=
  ⟨by decide, by decide +kernel, pair_of_ok (by decide +kernel), settled_of_check (by decide +kernel), by decide +kernel, fun _ => by decide +kernel⟩
theorem test_witness_VectorLoads :
    planeMajorOk false (gR 9 moving) (gR 0 moving) moving.me.vl = true ∧ budgetOk moving.me 2 moving.me.v[2].tag = true ∧
    (∃ x, Accesses (loadElement moving.me.v[2] false 0x100 0 0 0) 0 2 (chain 0 (loadElement moving.me.v[2] false 0x100 0 0 0) moving) x ∧
      SameStrand 0 2 (chain 0 (loadElement moving.me.v[2] false 0x100 0 0 0) moving) moving) ∧
    (errOf (loadElement moving.me.v[2] false 0x0200000000000000 0 0 0 0 moving).1).isSome ∧
    gatherOk moving.me.v[2] moving.me.v[3] (gR 11 moving) = true ∧
    (∃ x, Accesses (gatherElement moving.me.v[2] moving.me.v[3] 0x100 64) 0 2 (chain 0 (gatherElement moving.me.v[2] moving.me.v[3] 0x100 64) moving) x ∧
      SameStrand 0 2 (chain 0 (gatherElement moving.me.v[2] moving.me.v[3] 0x100 64) moving) moving) ∧
    (readWords readVector (reqOf moving.me) .vload 0x100 (List.range 1) moving).1.toOption.map (fun ws => ws.map fun x => x.code) = some [0] ∧ imageMalformed [0] 1 64 = false ∧ imageMalformed [2] 1 64 = true :=
  ⟨by decide +kernel, by decide +kernel, accesses_of_chain ⟨none, none, []⟩ (by decide +kernel), by decide +kernel, by decide +kernel,
    accesses_of_chain (⟨none, none, []⟩, none) (by decide +kernel), by decide +kernel,
    by decide +kernel, by decide +kernel⟩
theorem test_witness_VectorStores :
    (∃ x, Accesses (storeElement moving.me.v[1] false 0x100 0 0) 0 1 (chain 0 (storeElement moving.me.v[1] false 0x100 0 0) moving) x) ∧ moving.me.v[1].poison = [] ∧
    (errOf (storeElement moving.me.v[1] false 0x0200000000000000 0 0 0 moving).1).isSome ∧
    (∃ x, Accesses (scatterElement moving.me.v[1] moving.me.v[3] 0x100 64) 0 2 (chain 0 (scatterElement moving.me.v[1] moving.me.v[3] 0x100 64) moving) x ∧
      SameStrand 0 2 (chain 0 (scatterElement moving.me.v[1] moving.me.v[3] 0x100 64) moving) moving) ∧
    tileOk 1 tiles = true ∧ drainOk 0x800000001F 0x100 16 = true ∧ drainOk 0x4000010003 0x100 16 = true ∧ ddCMP 0x800000001F = false ∧ ddCMP 0x4000010003 = true ∧
    (drainElement 1 0x800000001F 0x100 tiles 0 tiles).1.toOption.isSome ∧ (errOf (drainElement 1 0x800000001F 0x0200000000000000 tiles 0 tiles).1).isSome := by
  refine ⟨⟨fun _ => (), fun k _ hk => ?_⟩, by decide +kernel, by decide +kernel, accesses_of_chain [] (by decide +kernel), by decide +kernel, by decide +kernel, by decide +kernel,
    by decide +kernel, by decide +kernel, by decide +kernel, by decide +kernel⟩
  obtain rfl : k = 0 := by omega
  exact pair_of_ok (by decide +kernel)

/-! ### Copies and streams -/

/-- The command words of a copy of sixteen s8 elements from 0x100 to 0x200, and the same state once its command is queued on tag 3 and granted. -/
def copying : State := withG [(1, 8), (2, 0x200), (4, 0x100), (5, 0x200), (6, 16 + 7 * 2 ^ 32 + 7 * 2 ^ 42), (7, 0)] { small with mem := Memory.setN [] 0x100 [1, 2, 3, 4] }
def served : State := next (exec (.copyAccept 0) (next (exec (.cpy 4 0 0 3) copying)))
/-- A tag of the strand as given. -/
def withTag (g : TagReg) (s : State) : State := { s with core := { s.core with tags := s.core.tags.set 3 g } }
/-- A command to a register that has landed, with its codes. -/
def landed : State :=
  withTag { TagReg.reset with st := .landed, codes := [(0, 9)], flags := 0x10, cmd := some ⟨false, 1, 2, #v[0x100, 0, 4 + 7 * 2 ^ 32 + 7 * 2 ^ 42, 0], 0, 0, 0, 0, 0, false, true, [], []⟩ } small

theorem test_witness_TagInstructions :
    inHandler small.me = false ∧ small.wellKept ∧ (∀ k ∈ tagsOf 8, Mine k copying) ∧ foundOf 8 served = [] ∧ foundOf 8 copying = tagsOf 8 ∧ (∀ k ∈ foundOf 8 copying, ¬Pending k copying) ∧
    (let s := withTag { TagReg.reset with st := .ready, err := 4 } small
     (foundOf 8 s).find? (fun k => errorPending k s) = some 3 ∧ Pending 3 s ∧ Mine 3 s) ∧
    (0x200 : Word).getLsbD 9 = true ∧ ¬Mine 9 copying ∧ (commandOf 3 landed.core).any (fun c => c.dir == 1) = true ∧ Mine 3 landed ∧ landed.core.tags[3].st = .landed ∧
    landed.core.tags[3].err = 0 ∧ budgetOk landed.me 2 7 = true := by
  refine ⟨rfl, test_small_kept, ?_, by decide +kernel, by decide +kernel, ?_, ⟨by decide +kernel, ⟨by decide +kernel, rfl, by decide +kernel⟩, by decide +kernel, by decide +kernel⟩, by decide,
    fun h => absurd h.2 (by decide), by decide +kernel, ⟨by decide +kernel, by decide +kernel⟩, rfl, rfl, by decide +kernel⟩
  · intro k hk
    simp only [show tagsOf 8 = [3] by decide +kernel, List.mem_singleton] at hk
    subst hk
    exact ⟨by decide +kernel, by decide +kernel⟩
  · intro k hk h
    simp only [show foundOf 8 copying = [3] by decide +kernel, List.mem_singleton] at hk
    subst hk
    exact h.1 (by decide +kernel)
theorem test_witness_Copies :
    Settled copying ∧ Mine 3 copying ∧ copying.core.tags[3].st = .free ∧ cmdOk (issuedCmd false 4 0 0 copying) = true ∧
    slotsOfStrand copying.me copying + cmdSlots (issuedCmd false 4 0 0 copying) ≤ 64 ∧ copying.core.engq.length < 16 ∧ cmdOk (issuedCmd false 1 0 0 copying) = false ∧
    served.wellKept ∧ servedCore 0 served = some 0 ∧ servedTag 0 served = some 3 ∧ served.core.tags[3].st = .busy ∧
    (commandOf 3 served.core).any (fun c => decide (0 < chunkCount (cmdN c)) && decide (chunkCount (cmdN c) ≤ 64) &&
      (chunkSource c (engineReq 0 3 c served) 0 16 (nextTurn 0 served)).1.stop.isNone) = true ∧ served.core.tags[3].mask.getLsbD 0 = false ∧
    (let t := withTag { TagReg.reset with st := .busy, cmd := some ⟨false, 1, 2, #v[0x100, 0, 4 + 7 * 2 ^ 32 + 7 * 2 ^ 42, 0], 0, 0, 0, 0, 0, false, false, [], []⟩ } small
     let s : State := { t with core := { t.core with engq := [3] } }
     slotsHeld 0 s + 8 ≤ 64 ∧ s.core.engq.find? (fun j => (s.core.tags[j].cmd.map fun x => x.granted) == some false) = some 3) := by
  refine ⟨settled_of_check (by decide +kernel), ⟨by decide +kernel, by decide +kernel⟩, ?_, ?_, ?_, ?_, ?_, kept_of_check (by decide +kernel), ?_, ?_, ?_, ?_, ?_, ?_, ?_⟩ <;>
    decide +kernel
/-- A stream slot that is open on 16 s8 elements at 0x100, with a block that has landed in `streaming true`, whose last element faulted. -/
def streaming (here : Bool) : State :=
  let pat : List Word := [0x100, 16 * 2 ^ 40 + 8, 0, 0]
  { small with me := { runner with sq := runner.sq.set 2 { Stream.reset with
      st := .open, desc := 0x10007, pat := pat, tag := 7, slots := List.range 16, size := some 9, landed := if here then [⟨0, [1, 2, 3, 4, 5, 6, 7, 8, 0], [(8, .order)]⟩] else [] } } }
theorem test_witness_Streams :
    inHandler (streaming true).me = false ∧ (streaming true).wellKept ∧ (streaming true).me.sq[2].st ≠ .closed ∧ (streaming true).me.sq[1].st = .closed ∧
    (∀ k, k < 8 → (blockOf (streaming true).me.sq[2] (0 + k)).any (fun b => b.faults.all fun p => decide (8 ≤ p.1)) = true) ∧ blockOf (streaming false).me.sq[2] 0 = none ∧
    Within (streaming true).me.sq[2] 8 ∧ ¬Within (streaming true).me.sq[2] 9 ∧ ((streaming true).me.sq[2].landed.flatMap fun b => b.faults) = [(8, .order)] ∧
    budgetOk (streaming true).me 1 7 = true ∧ roomFor 1 7 (streaming true) = true ∧ Due (streaming false).me.sq[2] 0 ∧ Due (streaming false).me.sq[2] 1 ∧ ¬Due (streaming false).me.sq[2] 2 ∧
    (streaming false).core.pwr < 2 ∧ slotsHeld 0 (streaming true) = 16 ∧ patternOk false 0x10007 [0x100, 16 * 2 ^ 40 + 8, 0, 0] = true ∧ reservedBy true 0x7 = (16, 32) ∧
    (fetchBlock { reqOf (streaming false).me with priv := false } (streaming false).me.sq[2] 0 (streaming false)).2.2.me = (streaming false).me := by
  refine ⟨?_, kept_of_check (by decide +kernel), ?_, ?_, ?_, ?_, ?_, ?_, ?_, ?_, ?_, ?_, ?_, ?_, ?_, ?_, ?_, ?_, ?_⟩
  · decide +kernel
  · decide +kernel
  · decide +kernel
  · decide +kernel
  · decide +kernel
  · intro n h; cases h; decide
  · intro h; exact absurd (h 9 rfl) (by decide)
  · decide +kernel
  · decide +kernel
  · decide +kernel
  · exact ⟨.inl (by decide +kernel), fun _ h => nomatch h⟩
  · exact ⟨.inr ⟨by decide +kernel, .inl (by decide +kernel)⟩, fun _ h => nomatch h⟩
  · rintro ⟨h | h, -⟩
    · exact absurd h (by decide +kernel)
    · exact absurd h.1 (by decide +kernel)
  · decide +kernel
  · decide +kernel
  · decide +kernel
  · decide +kernel
  · decide +kernel

/-! ### Events of the part -/

/-- An instruction of strand `sid` on the Plane Unit with one register read and one written, whose first group of 64 waits or runs. -/
def flight (sid age src : Nat) (running : Option Nat) : Flight :=
  ⟨sid, age, some .plane, [.v (fin 32 (by decide) src)], some (.v (fin 32 (by decide) (src + 1))), [], [], 0, [], false, 128, 1, if running.isSome then 1 else 0, if running.isSome then 64 else 0, running, 0, []⟩
/-- A core with a window. -/
def windowed (fs : List Flight) : State := { small with core := { small.core with window := fs } }
/-- The youngest instruction of strand 0 reads what the one before it writes; strand 1 has fewer elements left. -/
def pair (running : Option Nat) : List Flight := [flight 0 0 1 running, flight 0 1 2 none]
theorem test_witness_SequencerAndWalks :
    (windowed (pair none)).wellKept ∧ readyOps .plane (windowed (pair none)).core = [⟨0, 128, 0⟩] ∧ (∀ f ∈ pair none, f.unit = some .plane → f.running = none) ∧
    (∃ f ∈ pair (some 64), f.unit = some .plane ∧ f.running ≠ none) ∧ (pair (some 64)).find? (fun f => f.unit == some .plane && f.running.isSome) = some (flight 0 0 1 (some 64)) ∧
    (let s : State := { small with core := { small.core with misses := [⟨0, 0, 0, false, 0, .load, 0x100⟩, ⟨0, 0, 0, false, 0, .load, 0x8000⟩] } }
     s.core.misses = ⟨0, 0, 0, false, 0, .load, 0x100⟩ :: [⟨0, 0, 0, false, 0, .load, 0x8000⟩] ∧ (tlbHit (missReq 0 ⟨0, 0, 0, false, 0, .load, 0x100⟩) 0x100 s).isSome = true ∧
     tlbHit (missReq 0 ⟨0, 0, 0, false, 0, .load, 0x8000⟩) 0x8000 s = none) := by
  refine ⟨kept_of_check (by decide +kernel), ?_, ?_, ?_, ?_, ?_, ?_, ?_⟩ <;> decide +kernel
/-- A unit starts the ready group; when it has completed, the consumer is chained to its producer and stands ready as far as that reaches. -/
theorem test_chaining :
    let s := next (exec (.microOpIssue 0 .plane 0) (windowed (pair none)))
    let t := next (exec (.elementGroupComplete 0 .plane) s)
    (s.core.window.map fun f => (f.issued, f.running)) = [(128, some 128), (0, none)] ∧ (t.core.window.map fun f => (f.age, f.chained)) = [(1, [0])] ∧
    readyOps .plane t.core = [⟨0, 128, 1⟩] := by decide +kernel
/-- A bank with a queue and a row, in a package whose die 0 stands at a cycle and has sampled its stacks. -/
def banking (b : Bank) (cycle : Nat) : State := { small with dies := small.dies.set 0 { Die.reset with banks := [b], cycle := cycle, hbmDone := #v[1, 1] } }
def bank0 : Bank := Bank.reset ⟨0, 1, 3, 2⟩
/-- A request of a row at cycle 7. -/
def request (row : Nat) : BankReq := ⟨row, 0, 0, 7, true, 0, []⟩
theorem test_witness_DramEvents :
    bankOk ⟨0, 1, 3, 2⟩ = true ∧ bankAt ⟨0, 1, 3, 2⟩ (banking { bank0 with queue := [request 5] } 7) = { bank0 with queue := [request 5] } ∧
    (let s := banking { bank0 with queue := [request 5] } 7
     let b := settleBank ⟨0, 1, 3, 2⟩ (ctrlOf ⟨0, 1, 3, 2⟩ s) 7 0 (bankAt ⟨0, 1, 3, 2⟩ s)
     s.dies[0].hbmDone[1] ≠ 0 ∧ b.refreshUntil = none ∧ b.backoff = none ∧ b.row ≠ some 5 ∧ actsOf b 5 + 1 < 0x800) ∧ 0x800 ≤ actsOf { bank0 with acts := [(5, 0x7FF)] } 5 + 1 ∧
    (settleBank ⟨0, 1, 3, 2⟩ Ctrl.reset 200 0 bank0).refreshUntil = some (2 * 66 + 176) ∧ (settleBank ⟨0, 1, 3, 2⟩ Ctrl.reset 200 0 bank0).commands = 1 ∧
    (ctrlOf ⟨0, 1, 3, 2⟩ (banking bank0 7)).actthr = 0x800 := by decide +kernel
/-- The activation that reaches the threshold closes its row and holds the bank for 440 cycles. -/
theorem test_backoff :
    let t := next (exec (.dramAccess ⟨0, 1, 3, 2⟩) (banking { bank0 with queue := [request 5], acts := [(5, 0x7FF), (6, 9), (8, 9)] } 7))
    let b := bankAt ⟨0, 1, 3, 2⟩ t
    b.row = none ∧ b.backoff = some (7, 447) ∧ b.acts = [(8, 9)] ∧ b.queue = [] ∧ (ctrlOf ⟨0, 1, 3, 2⟩ t).bocyc = 440 ∧ (ctrlOf ⟨0, 1, 3, 2⟩ t).row = 5 := by decide +kernel
theorem test_witness_SamplesAndPersistQueues :
    small.dies[0].hbmDone[1] = 0 ∧ ({ Die.reset with stage := 3 } : Die).stage = 3 ∧ small.dies[0].stage ≠ 3 ∧ 0 < (1 : Nat) ∧ 1 * 1048576 ≤ ({ Die.reset with cycle := 1048576 } : Die).cycle ∧
    Ctrl.reset.dblNext = none ∧ ({ Die.reset with persist := [⟨[(0, 1)], none⟩] } : Die).persist = [] ++ ⟨[(0, 1)], none⟩ :: [] ∧
    (small.durable.wf = true) ∧ ([((0 : Nat), (1 : BitVec 8))].Pairwise fun p q => p.1 ≠ q.1) := by
  refine ⟨?_, rfl, ?_, by decide, by decide, rfl, rfl, rfl, by simp⟩ <;> decide +kernel
/-- A core in the middle of a shadow write, whose slot 1 holds the newest shadow. -/
def shadowing : State := { small with core := { small.core with
  shRequest := true, shWriting := some 0, shTargets := none, slots := small.core.slots.set 1 ⟨3, 0, .sealed, 0, 0, false⟩ } }
theorem test_witness_ShadowWrites :
    shadowing.wellKept ∧ HasCore 0 shadowing ∧ Busy 0 shadowing ∧ shadowing.core.shWriting = some (0 : Fin 2).1 ∧ NewestSlot shadowing.core (fun _ => True) 1 ∧
    shadowing.core.slots[0].gen ≠ shadowing.core.slots[1].gen ∧ (small.core.shen = true ∧ small.core.pwr = 0 ∧ small.core.shBase + small.core.shint * 4096 ≤ 0x400000) ∧
    ¬UnderWay 0 (drainCore 0 small) ∧ (∀ d : Fin 4, (#v[0, 0, 0, 0] : Vector Nat 4)[d] ≤ small.dies[d].persistDone) := by
  refine ⟨kept_of_check (by decide +kernel), .inl rfl, ⟨runner, by decide +kernel, rfl⟩, rfl, ⟨⟨⟨rfl, rfl, rfl⟩, trivial⟩, fun j h => ?_⟩, by decide, ⟨rfl, rfl, by decide⟩, ?_, by decide +kernel⟩
  rotate_left
  · rintro (h | ⟨x, hx, -⟩ | ⟨t, ht, -, h⟩)
    · exact h (by decide +kernel)
    · simp [show (drainCore 0 small).remote = [] by decide +kernel] at hx
    · obtain rfl : t = (drainCore 0 small).me := by simpa [strandsOf, show (drainCore 0 small).core.mesh = 0 by decide +kernel, show (drainCore 0 small).core.strands = [] by decide +kernel, insertStrand] using ht
      exact h.elim (absurd (by decide +kernel)) (absurd (by decide +kernel))
  have only : ∀ j : Fin 2, shadowing.core.slots[j].st = .sealed → j = 1 := by decide +kernel
  have e := only j h.1.1
  subst e
  exact Nat.le_refl _
/-- A core without power that holds a strand, with a sealed slot of its placement and its image. -/
def dark : State := { small with
  core := { small.core with pwr := 3, lostAt := some 9, slots := small.core.slots.set 1 ⟨3, 0, .sealed, 0, 0, false⟩, launch := some 1 }
  me := { runner with launch := 1 }
  launches := [{ newLaunch 1 (record 64) 0 0 0 none with st := .placed }]
  images := [⟨0, 1, { small.core with strands := [runner] }⟩] }
theorem dark_slot : ∀ k : Fin 2, dark.core.slots[k].st = .sealed → k = 1 := by decide +kernel
theorem test_witness_CorePower :
    dark.wellKept ∧ HasCore 0 dark ∧ Busy 0 dark ∧ dark.core.pwr = 3 ∧ NewestSlot dark.core (fun x => x.plc = dark.core.plc) 1 ∧ dark.core.slots[0].gen ≠ dark.core.slots[1].gen ∧
    (imageAt 0 1 dark).isSome ∧ dark.core.lostAt = some 9 ∧ (launchAt 1 dark).isSome ∧ ¬Busy 0 { small with me := Strand.reset 0 0 } ∧ small.core.pwr = 0 ∧
    (∀ k, ¬NewestSlot small.core (fun x => x.plc = small.core.plc) k) := by
  refine ⟨kept_of_check (by decide +kernel), .inl rfl, ⟨dark.me, by decide +kernel, rfl⟩, rfl, ⟨⟨⟨rfl, rfl, rfl⟩, rfl⟩, fun j h => ?_⟩, by decide, by decide +kernel, rfl, by decide +kernel, ?_, rfl, ?_⟩
  · have e := dark_slot j h.1.1
    subst e
    exact Nat.le_refl _
  · rintro ⟨t, ht, hl⟩
    have : t = Strand.reset 0 0 := by simpa [strandsOf, small, Core.reset, insertStrand] using ht
    subst this
    exact absurd hl (by decide)
  · intro k h
    have none_ : ∀ j : Fin 2, small.core.slots[j].st ≠ .sealed := by decide +kernel
    exact none_ k h.1.1.1
theorem test_witness_PackageLossTripsAndPoison :
    small.wellKept ∧ small.me.mesh < 1536 ∧ HasCore 0 small ∧ 128 ≤ (128 : Nat) ∧ (127 : Nat) < 128 ∧ strandAt 0 0 lanesState = some lanesState.me ∧
    (∀ x ∈ strandsOf 0 lanesState, x.sid = 0 → x = lanesState.me) ∧ (3 : Nat) < (lanesState.me.v[fin 32 (by decide) 2]).planes.length ∧ (255 : Nat) < 256 ∧
    (lanesState.me.v[fin 32 (by decide) 2]).poison = [] ∧ (3 : Nat) < 4 ∧ lanesState.core.cellPoison = [] := by
  refine ⟨test_small_kept, by decide, .inl rfl, by decide, by decide, ?_, ?_, ?_, by decide, ?_, by decide, rfl⟩ <;> decide +kernel
theorem test_witness_ControlSpaceEvents :
    let d : Invalidation := ⟨1, 0⟩
    let s : State := { small with tiq := [d] }
    s.tiq = d :: [] ∧ AllQuiet s ∧ small.tiq.length < 32 ∧ ¬(5 ≤ fld small.tiqlo 0 3 ∨ fld small.tiqlo 0 3 = 2 ∧ fld small.tiqlo 32 32 = 0) ∧
    (5 ≤ fld 5 0 3 ∨ fld 5 0 3 = 2 ∧ fld 5 32 32 = 0) ∧ small.wellKept ∧ (small.dies[0].flushes + 1) * 1048576 ≤ 1048576 ∧ small.cntbase = 0 ∧ ({ small with cntbase := 0x8000 } : State).cntbase ≠ 0 := by
  refine ⟨rfl, ⟨by decide +kernel, rfl, by decide +kernel⟩, by decide, by decide +kernel, by decide, test_small_kept, by decide +kernel, rfl, by decide +kernel⟩
theorem test_witness_StagedStart :
    let x (stage : Nat) : Die := { Die.reset with stage := stage, hbmDone := #v[1, 1] }
    (x 2).min = false ∧ 0 < (x 2).stage ∧ (x 2).stage < 4 ∧ (x 3).hbmDone[0] ≠ 0 ∧ (x 3).hbmDone[1] ≠ 0 ∧ State.wellKept { small with dies := small.dies.set 0 (x 3) } ∧
    ((2 : Nat) = 2 ∧ ((1 : Nat) = 1 ∨ (1 : Nat) = 2)) ∧ (0 : Nat) + 2 ^ 32 < 2 ^ 32 + 1 ∧ small.dies[0].stage = 0 :=
  ⟨rfl, by decide, by decide, by decide, by decide, kept_of_check (by decide +kernel), by decide, by decide, rfl⟩
theorem test_witness_QueueEvents :
    let x := launching.dies[0].queues[3]
    launching.wellKept ∧ x.en = true ∧ (x.tail + 2 ^ 32 - x.head) % 2 ^ 32 ≠ 0 ∧ ¬(∃ l ∈ launching.launches, l.die = 0 ∧ l.queue = 3 ∧ l.node = none ∧ l.st = .candidate) ∧
    recBad (record 64) = false ∧ recBad (record 63) = true ∧ ctxBad (recCTX (record 64)) 0 launching = false ∧ ctxBad (recCTX (record 64)) 1 launching = true ∧
    (launchAt 1 (next (exec (.slotAccept 0 3) launching))).any (fun l => l.st == .candidate) = true := by
  refine ⟨kept_of_check (by decide +kernel), ?_, ?_, ?_, ?_, ?_, ?_, ?_, ?_⟩ <;> decide +kernel
/-- The package after the queue's record was accepted, and after its launch was placed. -/
def accepted : State := next (exec (.slotAccept 0 3) launching)
def placed : State := next (exec .placement accepted)
theorem test_witness_PlacementAndLeave :
    accepted.wellKept ∧ (nextPlace accepted).any (fun l => l.st != .preempted && (rectCores l.record).all fun m => (coreAt m accepted).pwr == 0 && islandReady m accepted) = true ∧
    HasCore 0 accepted ∧ rectCores (record 64) = [0] ∧ (launchAt 1 placed).any (fun l => l.st == .placed) = true ∧
    (let s : State := { placed with
       parts := placed.parts.set 0 { placed.parts[0] with savebase := 0x1000000, savelen := 0x10000000 }
       launches := placed.launches ++ [newLaunch 2 (record (64 + 2 ^ 20)) 1 0 4 none] }
     (∃ c ∈ s.launches, (launchAt 1 s).any (fun l => preempts c l s) = true) ∧ (launchAt 1 s).any (fun l => (allocate l s).isSome) = true) ∧
    placed.dies[0].periods * 256 ≤ placed.dies[0].cycle := by
  refine ⟨kept_of_check (by decide +kernel), ?_, .inl (by decide +kernel), ?_, ?_, ⟨?_, ?_⟩, ?_⟩ <;> decide +kernel
theorem test_witness_MailboxCommands :
    let busy (k : Nat) (args : Vector Word 4) : State := { small with mailbox := { small.mailbox with busy := true, running := k, args := args } }
    small.mailbox.busy = false ∧ mailRefusal 4 0 0 { small with dies := small.dies.set 0 { Die.reset with stage := 4 } } = 0 ∧ (busy 1 #v[2000, 0, 0, 0]).mailbox.busy = true ∧
    (∀ d : Fin 4, (#v[0, 0, 0, 0] : Vector Nat 4)[d] < 1) ∧ ¬PeriodBegun (busy 1 #v[2000, 0, 0, 0]) ∧ recBad (readSlot 0x1000 launching).1 = false ∧
    rectIdle (record 64) launching = true ∧ slotInUse 0 15 (busy 7 #v[0, 15, 0, 0]) = false := by
  refine ⟨rfl, by decide +kernel, rfl, by decide +kernel, ?_, by decide +kernel, by decide +kernel, by decide +kernel⟩
  intro h
  exact absurd (h 0) (by decide +kernel)
theorem test_witness_HostAccesses :
    launching.dies[0].stage = 4 ∧ small.dies[0].stage ≠ 4 ∧ (∀ k, k < 8 → hostCovers 0x100 8 k) ∧ (∃ k, k < 8 ∧ ¬hostCovers 0x2003FFFFFFC 8 k) ∧ launching.wellKept ∧
    regionOf 0x100 ≠ .host ∧ regionOf 0x8000000000000 = .host := by
  refine ⟨rfl, by decide +kernel, fun k hk => ⟨hk, by omega, ?_⟩, ⟨7, by decide, fun h => absurd h.2.1 (by decide)⟩, kept_of_check (by decide +kernel), by decide +kernel, by decide +kernel⟩
  have : ∀ k < 8, ownMemory (0x100 + k) = true := by decide +kernel
  exact this k hk
theorem test_witness_ChainPorts :
    let u : State := { small with ctxbase := 0x40000 }
    let rq := arrivalReq 0 0 u
    let m : RemoteMsg := ⟨4, 0, 0, 0, 9, ⟨0, 0x100, .store [1]⟩, none, some ⟨0x100, 1, 1, 0, false, [none], false, false, false⟩⟩
    u.wellKept ∧ ([1, 2, 3, 4] : List (BitVec 8)) ≠ [] ∧ (0x100 : Word).toNat % 4 = 0 ∧ arrivalTarget rq .store 4 0x100 u = (.ok (.mem 0x100 .wb), (arrivalTarget rq .store 4 0x100 u).2) ∧
    (arrivalTarget rq .store 4 0x100 u).2.wellKept ∧ errOf (arrivalTarget rq .atomic 8 0x0200000000000000 u).1 = some 1 ∧
    ({ small with remote := [m] } : State).remote.find? (fun m => m.id == 4) = some m ∧ inFlit 4 small = false ∧ m.reply = none ∧
    ([7] : List Nat) ≠ [] ∧ (0 : Nat) + 64 ≤ 64 :=
  ⟨kept_of_check (by decide +kernel), by simp, by decide, pair_of_ok (by decide +kernel), kept_of_check (by decide +kernel), by decide +kernel, rfl, by decide +kernel, rfl, by simp, by decide⟩

/-! ### The clauses that the witnesses above do not reach -/

/-- Another strand of the core holds every plane of the pool. -/
def crowd (s : State) : State :=
  { s with core := { s.core with strands := [{ runner with sid := 1, maps := runner.maps.set 0 (List.range 768) }] } }
/-- A store-fault record. -/
def aRecord : SfRec := ⟨0x801, 0x100, 0, 0x40⟩

theorem test_witness_StepRunsTheDecodedInstruction_turns :
    small.me.mesh = small.core.mesh ∧ (passCycles small.pace (small.withFetchWord 32 0x01184400)).me.doubleFault = false ∧
    (let s : State := { small with agenda := [(#v[1, 1, 1, 1], .strand 0 0)] }
     s.agenda = (#v[1, 1, 1, 1], .strand 0 0) :: [] ∧ (strandAt 0 0 (passCycles #v[1, 1, 1, 1] { s with agenda := [] })).isSome = true) := by
  refine ⟨rfl, by decide +kernel, rfl, by decide +kernel⟩
theorem test_witness_TrapEntry_due :
    (let s : State := { small with me := { runner with sfq := [aRecord] } }
     s.me.life = .running ∧ s.me.sfq ≠ [] ∧ inHandler s.me = false ∧ 1 ≤ (4 : Nat)) ∧
    ¬((9 : Nat) ≤ 8) ∧ ¬((1 : Nat) ≤ 0) ∧ State.reset.me.life ≠ .running ∧ atLoopEnd (looping 1).me = true := by decide +kernel
/-- The strand in its handler, with a held mapping of its own instruction or another. -/
def holding (r : HeldReg) (addr : Word) : Strand := { handling.me with held := some ⟨r, addr, 0⟩ }
theorem test_witness_EretReturns_held :
    (holding (.mask 1 0) 4).tepc = 4 ∧ (holding .none 4).tepc = 4 ∧ (holding .none 8).tepc ≠ 8 ∧ bit (holding .none 4).tstat 2 = false ∧
    atLoopEnd (holding .none 4) = false ∧ (holding .none 4).priv = true ∧ (holding .none 4).sfq = [] ∧ ({ handling.me with sfq := [aRecord] } : Strand).sfq ≠ [] := by decide +kernel
theorem test_witness_RegisterWriteFrames_mapping :
    resumes 3 small.me = false ∧ roomFor 3 0x0003 small = true := by decide +kernel
theorem test_witness_IllegalOperations_vector :
    vectorQueue (.vadd 1 2 3 false false) = true ∧ vectorQueue (.sqclose 1) = true ∧ inHandler handling.me = true ∧ wholeInstr (.vdot 1 2 3) = true ∧
    (let s : State := { small with me := { runner with six := 64 } }
     inHandler s.me = false ∧ s.me.six ≠ 0) := by decide +kernel
theorem test_witness_ControlRegisters_writes :
    let s : State := { small with me := { runner with priv := true } }
    let v : Word := 0x001F7FFFFFFFFFFF
    (csrOrdered 0x103 = false ∧ handling.me.priv = true ∧ inHandler handling.me = true) ∧ fld v 53 11 = 0 ∧ fld v 47 1 = 0 ∧ s.me.priv = true ∧ inHandler s.me = false ∧
    fld 0x0000800000000000 47 1 ≠ 0 ∧ fld 0x0020000000000000 53 11 ≠ 0 ∧ 16384 < (16385 : Word).toNat ∧ (4095 : Word).toNat < 2 ^ 12 ∧ 2 ^ 12 ≤ (4096 : Word).toNat ∧
    modeIllegal (BitVec.allOnes 64) = true ∧ 16384 ≤ (16384 : Word).toNat ∧ ({ runner with sfq := [aRecord] } : Strand).sfq = aRecord :: [] := by decide +kernel
theorem test_witness_HintsAndWaits_faults :
    let s := withG [(2, 0x0200000000000000)] small
    (gR 2 s).toNat % 8 = 0 ∧ okVal (readHome8 (gR 2 s) s) = none ∧ (errOf (translate (reqOf s.me) .load 0 (gR 2 s) s).1).isSome = true ∧ immValue 5 s = .ok 5 s := by
  refine ⟨by decide +kernel, by decide +kernel, by decide +kernel, rfl⟩

/-! END with tags of its grant. -/

/-- A strand of a launch in the table whose tag 3 is as given. -/
def ending (g : TagReg) (compl : Word) : State :=
  { withTag g small with me := { runner with launch := 1, compl := compl }, launches := [{ newLaunch 1 (record 64) 0 0 0 none with st := .placed }] }
def merging (compl : Word) : State := ending { TagReg.reset with st := .ready, err := 4, told := true, flags := 0x10 } compl
/-- The state in which END releases its latches, and the state in which it counts. -/
def mergedTags (s : State) : State := (grantTags s.me).foldl (fun s k => mergeTag k s) s
def releasing (s : State) : State := endState (releaseHeld (heldLatches s.me) (mergedTags s))
def counting (s : State) : State := acquireCopies unboundOnly 5 (releasing s)
theorem test_witness_EndCompletes_tags :
    Settled (merging 0x2000) ∧ atLoopEnd (merging 0x2000).me = false ∧
    (∀ k ∈ grantTags (merging 0x2000).me, (merging 0x2000).core.tags[k].st ≠ .busy ∧ ((merging 0x2000).core.tags[k].err ≠ 0 → (merging 0x2000).core.tags[k].told = true)) ∧
    (∃ k ∈ grantTags (merging 0x2000).me, (merging 0x2000).core.tags[k].merged = false ∧ (merging 0x2000).core.tags[k].flags.getLsbD 4 = true) ∧
    (let s := ending { TagReg.reset with st := .busy } 0x2000
     Settled s ∧ ∃ k ∈ grantTags s.me, s.core.tags[k].st = .busy) ∧
    (let s := ending { TagReg.reset with st := .ready, err := 4 } 0x2000
     Settled s ∧ (∀ k ∈ grantTags s.me, s.core.tags[k].st ≠ .busy) ∧ (grantTags s.me).find? (fun k => errorPending k s) = some 3) := by
  refine ⟨settled_of_check (by decide +kernel), by decide +kernel, by decide +kernel, by decide +kernel, ⟨settled_of_check (by decide +kernel), by decide +kernel⟩,
    settled_of_check (by decide +kernel), by decide +kernel, by decide +kernel⟩
theorem test_witness_EndCompletes_counts :
    let s := merging 0x2000
    let v := counting s
    let r := translate (reqOf v.me) .atomic 8 v.me.compl v
    releaseHeld (heldLatches s.me) (mergedTags s) = .ok () (releasing s) ∧ Settled (releasing s) ∧ r = (.ok (.mem 0x2000 .wb), r.2) ∧ Settled r.2 ∧ r.2.me = v.me ∧
    badAt (locsAt (.mem 0x2000 .wb) 8) r.2 = none ∧ badAt (locsAt (.mem 0x2000 .wb) 8) { r.2 with bad := [0x400] } = some 0x2000 :=
  ⟨ok_of_val (by decide +kernel), settled_of_check (by decide +kernel), pair_of_ok (by decide +kernel), settled_of_check (by decide +kernel), by decide +kernel, by decide +kernel,
    by decide +kernel⟩
theorem test_witness_EndCompletes_elsewhere :
    (let s := merging 0x0200000000000000
     okVal (releaseHeld (heldLatches s.me) (mergedTags s)) = some () ∧ Settled (releasing s) ∧
     (errOf (translate (reqOf (counting s).me) .atomic 8 (counting s).me.compl (counting s)).1).isSome = true) ∧
    (let s := merging 0x01FFFF0000000100
     okVal (releaseHeld (heldLatches s.me) (mergedTags s)) = some () ∧ Settled (releasing s) ∧
     (translate (reqOf (counting s).me) .atomic 8 (counting s).me.compl (counting s)).1.toOption = some (.scratch 0 0x100)) :=
  ⟨⟨by decide +kernel, settled_of_check (by decide +kernel), by decide +kernel⟩, by decide +kernel, settled_of_check (by decide +kernel), by decide +kernel⟩
theorem test_witness_EndCompletes_latches :
    let s : State := { merging 0x2000 with me := { (merging 0x2000).me with latches := [⟨0x0200000000000000, 0x100, true⟩] } }
    Settled s ∧ okVal (releaseHeld (heldLatches s.me) (mergedTags s)) = none :=
  ⟨settled_of_check (by decide +kernel), by decide +kernel⟩

theorem distinct_of_nodup : ∀ {l : List Nat}, l.Nodup → distinct l = l
  | [], _ => rfl
  | x :: l, h => by
    have h' := List.nodup_cons.mp h
    simp only [distinct, distinct_of_nodup h'.2]
    rw [List.filter_eq_self.mpr]
    intro a ha
    simpa using fun e : a = x => h'.1 (e ▸ ha)
/-- No plane of the pool is free beside that strand. -/
theorem crowd_full {s : State} (h : usedPlanes s.me = [] ∧ s.core.window = []) : planesLeft (crowd s) = 0 := by
  have e : usedPlanes { runner with sid := 1, maps := runner.maps.set 0 (List.range 768) } = List.range 768 := by decide +kernel
  simp [planesLeft, takenPlanes, crowd, h.1, h.2, e, distinct_of_nodup List.nodup_range, poolSize]
theorem crowd_room {s : State} {d : Fin 32} {tag : BitVec 16} (h : usedPlanes s.me = [] ∧ s.core.window = []) (r : resumes d s.me = false) (n : 0 < planeNeed tag) :
    roomFor d tag (crowd s) = false := by
  have r' : resumes d (crowd s).me = false := r
  simp [roomFor, crowd_full h, r', Nat.not_le.mpr n]
theorem lanes_room {d : Fin 32} {tag : BitVec 16} (n : 0 < planeNeed tag) : roomFor d tag (crowd lanesState) = false := crowd_room (by decide +kernel) (by rfl) n
/-! Vector instructions whose planes the pool holds or lacks. -/

theorem test_crowded_fresh : Fresh (crowd lanesState) := by refine ⟨?_, ?_, ?_, ?_, ?_⟩ <;> decide +kernel
theorem test_witness_VectorIntegerResults_pool :
    (integerLanes lanesState (.vadd 1 2 3 false true)).any (fun l => roomFor l.dest l.tag lanesState) = true ∧
    (integerLanes (crowd lanesState) (.vadd 1 2 3 false true)).any (fun l => l.ok && budgetOk (crowd lanesState).me l.dest l.tag && decide (l.dest = 1) && decide (l.tag = 0x0003)) = true ∧
    (let s : State := { lanesState with me := { lanesState.me with budget := 3 } }
     (integerLanes s (.vadd 1 2 3 false true)).any (fun l => !budgetOk s.me l.dest l.tag) = true) := by decide +kernel
/-- The three tags that those instructions write, without room. -/
theorem test_witness_pool_full : roomFor 1 0x0003 (crowd lanesState) = false ∧ roomFor 6 0x0090 (crowd lanesState) = false ∧ roomFor 6 0x0080 (crowd lanesState) = false :=
  ⟨lanes_room (by decide), lanes_room (by decide), lanes_room (by decide)⟩
theorem test_witness_VectorCodeResults_pool :
    (codeLanes lanesState (.vsel 1 2 3 0)).any (fun l => roomFor l.dest l.tag lanesState) = true ∧
    (codeLanes (crowd lanesState) (.vmv 1 2)).any (fun l => l.ok && budgetOk (crowd lanesState).me l.dest l.tag && decide (l.dest = 1) && decide (l.tag = 0x0003)) = true ∧
    (codeLanes (withG [(2, 16)] lanesState) (.vand 1 2 2 true)).any (fun l => !l.ok) = true ∧ (codeLanes lanesState (.vand 1 2 2 true)).any (fun l => l.ok) = true := by decide +kernel
theorem test_witness_VectorFloatResults_pool :
    (floatLanes lanesState (.vfadd 6 5 5 false false)).any (fun l => roomFor l.dest l.tag lanesState) = true ∧
    (floatLanes (crowd lanesState) (.vfadd 6 5 5 false false)).any (fun l => l.ok && budgetOk (crowd lanesState).me l.dest l.tag && decide (l.dest = 6) && decide (l.tag = 0x0090)) = true := by
  decide +kernel
theorem test_witness_WholeRegisterResults_pool :
    (wholeLanes lanesState (.vscan 1 2 true true)).any (fun l => roomFor l.1.dest l.1.tag lanesState) = true ∧
    (wholeLanes (crowd lanesState) (.vscan 1 2 true true)).any (fun l => l.1.ok && budgetOk (crowd lanesState).me l.1.dest l.1.tag && decide (l.1.dest = 1) && decide (l.1.tag = 0x0003)) = true := by
  decide +kernel
/-- How many new planes a shift of s4 by one needs, and how many are free. -/
theorem test_witness_VectorShifts_pool :
    ((renumberedPlaces 0x0003 2 1 lanesState.me.v[2] lanesState).filter fun p => p.isNone).length ≤ planesLeft lanesState ∧
    planesLeft (crowd lanesState) < ((renumberedPlaces 0x0003 2 1 (crowd lanesState).me.v[2] (crowd lanesState)).filter fun p => p.isNone).length ∧
    widens (vKind lanesState.me.v[7]) (vKind lanesState.me.v[1]) = false ∧
    (let s : State := { lanesState with me := { lanesState.me with mode := 0x08 } }
     Fresh s ∧ modeGON s.me.mode = true ∧ roomFor 1 0x0003 s = true) := by
  refine ⟨by decide +kernel, by rw [crowd_full (by decide +kernel)]; decide +kernel, by decide +kernel, ?_, by decide +kernel, by decide +kernel⟩
  refine ⟨?_, ?_, ?_, ?_, ?_⟩ <;> decide +kernel
theorem test_witness_ReductionResults_asked :
    let s : State := { lanesState with me := { lanesState.me with leave := .asked 3 0 false } }
    Fresh s ∧ s.me.leave = .asked 3 0 false ∧ (wholeResult s (.vdot 1 7 7)).any (fun r => r.1) = true ∧ (s.me.v[7]).poison = [] ∧ 32 ≤ tagWidth s.me.v[7].tag * tagWidth s.me.v[7].tag := by
  refine ⟨by refine ⟨?_, ?_, ?_, ?_, ?_⟩ <;> decide +kernel, rfl, by decide +kernel, by decide +kernel, by decide +kernel⟩
theorem test_witness_MaskResults_illegal :
    ¬(intMin (vKind lanesState.me.v[2]) ≤ (gR 9 lanesState).toInt ∧ (gR 9 lanesState).toInt ≤ intMax (vKind lanesState.me.v[2])) ∧ isInt (vKind lanesState.me.v[5]) = false := by decide +kernel
theorem test_witness_VectorConfiguration_pool :
    ((retaggedPlaces 1 3 small).filter fun p => p.isNone).length ≤ planesLeft small ∧ planesLeft (crowd small) < ((retaggedPlaces 1 3 (crowd small)).filter fun p => p.isNone).length ∧
    inHandler (crowd small).me = false ∧ budgetOk (crowd small).me 1 3 = true :=
  ⟨by decide +kernel, by rw [crowd_full (by decide +kernel)]; decide +kernel, rfl, by decide +kernel⟩
/-- Another strand of the core that uses the array, or that waits to change its format. -/
def beside (l : Leave) (s : State) : State := { s with core := { s.core with strands := [{ runner with sid := 1, leave := l }] } }
theorem test_witness_VectorConfiguration_mmode :
    (∀ t ∈ small.core.strands, False) ∧ fld 0x04 6 2 = small.core.fmt ∧ fld 0x44 6 2 ≠ small.core.fmt ∧
    (∃ t ∈ (beside (.granted true) small).core.strands, t.leave = .granted true) ∧ (∃ t ∈ (beside (.asked 1 0 true) small).core.strands, t.leave = .asked 1 0 true) ∧
    (∃ t ∈ (beside (.format 0) small).core.strands, t.leave = .format 0) ∧ (∀ m, small.me.leave ≠ .format m) ∧
    (let s : State := { beside (.format 0) small with me := { runner with leave := .format 1 } }
     s.me.leave = .format 1 ∧ ∃ t ∈ s.core.strands, t.leave = .format 0) := by
  refine ⟨?_, ?_, ?_, ?_, ?_, ?_, ?_, rfl, ?_⟩
  · intro t h; exact absurd h (by simp [small, Core.reset])
  · decide +kernel
  · decide +kernel
  · exact ⟨_, List.mem_singleton.mpr rfl, rfl⟩
  · exact ⟨_, List.mem_singleton.mpr rfl, rfl⟩
  · exact ⟨_, List.mem_singleton.mpr rfl, rfl⟩
  · intro m h; cases h
  · exact ⟨_, List.mem_singleton.mpr rfl, rfl⟩
theorem test_witness_ScaleSlotsAndSoftmax_pool :
    roomFor 6 (softLanes lanesState 6 5 2 false 0).tag lanesState = true ∧ (softLanes (crowd lanesState) 6 5 2 false 0).tag = 0x0090 ∧
    (softLanes (crowd lanesState) 6 5 2 false 0).ok = true ∧ budgetOk (crowd lanesState).me 6 (softLanes (crowd lanesState) 6 5 2 false 0).tag = true ∧ (lanesState.me.v[5]).poison = [] := by
  decide +kernel
theorem test_witness_OuterProducts_held :
    (∃ t ∈ (beside (.format 0) tiles).core.strands, ∃ n, t.leave = .format n) ∧
    (let s : State := { tiles with me := { tiles.me with leave := .asked 1 0 true } }
     Fresh s ∧ (outerOf s (.opa 1 1 2 0)).any (fun r => r.2.1) = true) ∧
    (let s : State := { beside (.format 0) tiles with me := { tiles.me with leave := .none } }
     Fresh s ∧ arrayRenamed s.me = false) ∧ ((useOf (.accz 0)).map fun u => u.unit) = some (some .outer) ∧ FormatStands (beside (.granted true) tiles) := by
  refine ⟨⟨_, List.mem_singleton.mpr rfl, 0, rfl⟩, ⟨by refine ⟨?_, ?_, ?_, ?_, ?_⟩ <;> decide +kernel, by decide +kernel⟩,
    ⟨by refine ⟨?_, ?_, ?_, ?_, ?_⟩ <;> decide +kernel, by decide +kernel⟩, rfl, ?_⟩
  intro t h n e
  obtain rfl := List.mem_singleton.mp h
  cases e
theorem test_witness_AccumulatorInstructions_forms :
    (16 : BitVec 8).toNat ≥ tiles.me.mvl ∧ roomFor 3 tiles.me.v[3].tag tiles = true ∧ (crowd tiles).me.v[3].tag = 0x0010 ∧ roomFor 3 0x0010 (crowd tiles) = false ∧
    FormatStands (crowd tiles) ∧ Fresh (crowd tiles) ∧ Fresh (endState (closeIf (fun o => o == 1) tiles)) ∧ (endState (closeIf (fun o => o == 1) tiles)).me.v = tiles.me.v ∧ Ready (.scout 1 1 2 1 0) tiles ∧
    (let s : State := { tiles with me := { tiles.me with leave := .none } }
     Fresh s ∧ FormatStands s ∧ s.me.leave = .none) := by
  refine ⟨by decide +kernel, by decide +kernel, by decide +kernel, crowd_room (by decide +kernel) rfl (by decide), ?_, by refine ⟨?_, ?_, ?_, ?_, ?_⟩ <;> decide +kernel, by refine ⟨?_, ?_, ?_, ?_, ?_⟩ <;> decide +kernel, by decide +kernel,
    ready_of_clean rfl (by decide +kernel) rfl, by refine ⟨?_, ?_, ?_, ?_, ?_⟩ <;> decide +kernel, ?_, rfl⟩
  · intro t h n e
    obtain rfl := List.mem_singleton.mp h
    cases e
  · intro t h
    exact absurd h (by simp [tiles, withV, small, Core.reset])

/-! Memory in error, other packages, and accesses that are not aligned. -/

/-- A route entry that sends the page at 0x40000000 to package 1, through a port that is up. -/
def routing (s : State) : State :=
  { s with
    routes := s.routes.set 0 ⟨0x8000000040000000, 0x40000000, 0x1000⟩
    dies := s.dies.set 0 { s.dies[0] with ports := s.dies[0].ports.set 0 { s.dies[0].ports[0] with up := true, nbr := 1 } } }
theorem test_witness_ScalarLoads_error :
    let s := withG [(2, 0x100)] { small with bad := [0x21] }
    let r := translate (reqOf s.me) .load 8 0x108 s
    r = (.ok (.mem 0x108 .wb), r.2) ∧ Settled r.2 ∧ badAt (memLocs 0x108 8) r.2 = some 0x108 ∧ (0x108 : Word).toNat % 8 = 0 ∧
    badAt (memLocs 0x108 8) { r.2 with bad := [] } = none :=
  ⟨pair_of_ok (by decide +kernel), settled_of_check (by decide +kernel), by decide +kernel, by decide, by decide⟩
theorem test_witness_ScalarStores_drains :
    (translateStore (storing 16)).me.stq.length < 16 ∧
    (let s : State := { storing 16 with me := { (storing 16).me with sfq := List.replicate 16 aRecord } }
     16 ≤ s.me.stq.length ∧ 16 ≤ (translateStore s).me.stq.length) := by decide +kernel
/-- The oldest store of a strand. -/
def oldest (va : Word) (size : Nat) (ih : Bool) : State :=
  routing { small with
    me := { runner with stq := [⟨va, size, 7, 0, false, List.replicate size none, false, ih, false⟩], tstat := if ih then 2 else 0 }
    core := { small.core with tlb := [{ openPage 0 0 with leaf := 0x69F }] } }
/-- The state in which it is translated. -/
def taken (s : State) : State := { s with me := { s.me with stq := [] } }
theorem test_witness_WritesOnTheirWay_stores :
    (let s := oldest 0x40000008 8 false
     s.wellKept ∧ s.me.sfq.length < 16 ∧ (∀ r ∈ s.me.sfq, False) ∧
       (translate { reqOf s.me with priv := false } .store 8 0x40000008 (taken s)).1.toOption = some (.remote 0)) ∧
    (let s := oldest 0x101 8 false
     s.wellKept ∧ (0x101 : Word).toNat % 8 ≠ 0 ∧ ∃ s1, translateBytes { reqOf s.me with priv := false } .store 0x101 8 (taken s) = (.ok ((List.range 8).map fun k => .mem (0x101 + k) .nc), s1) ∧
       s1.wellKept) ∧
    (let s := oldest 0x01FFFFFFFFFFFFFC 8 true
     inHandler s.me = true ∧ (errOf (translateBytes { reqOf s.me with priv := false } .store 0x01FFFFFFFFFFFFFC 8 (taken s)).1).isSome = true) ∧
    (let s := { oldest 0x100 8 false with me := { (oldest 0x100 8 false).me with sfq := [aRecord] } }
     ∃ r ∈ s.me.sfq, r.w0.getLsbD 15 = false ∧ 0x100 < r.w1.toNat + fld r.w0 8 4 ∧ r.w1.toNat < 0x100 + 8) ∧ 16 ≤ (List.replicate 16 aRecord).length := by
  refine ⟨⟨kept_of_check (by decide +kernel), by decide +kernel, by decide +kernel, by decide +kernel⟩, ⟨kept_of_check (by decide +kernel), by decide, ⟨_, pair_of_ok (by decide +kernel),
    kept_of_check (by decide +kernel)⟩⟩, ⟨by decide +kernel, by decide +kernel⟩, ⟨aRecord, List.mem_singleton.mpr rfl, by decide, by decide, by decide⟩, by decide⟩
theorem test_witness_WritesOnTheirWay_vector :
    let w (slice : Bool) (a : Nat) : Write := ⟨0, .vector, 0, false, [⟨.mem a, 1, 0xFF, none⟩], slice⟩
    let s : State := { small with me := { runner with vwq := [w true 0x100, w false 0x101, w false 0x100] } }
    s.wellKept ∧ s.me.vwq[0]? = some (w true 0x100) ∧ (w true 0x100).slice = true ∧ s.core.out = [] ∧ s.me.vwq[1]? = some (w false 0x101) ∧
    (∀ x ∈ s.me.vwq.take 1, overlaps x (w false 0x101) = false) ∧ (w false 0x101).wb = false ∧ (∃ b ∈ (w false 0x101).bytes, b.loc = .mem 0x101) ∧
    s.me.vwq[2]? = some (w false 0x100) ∧ (∃ x ∈ s.me.vwq.take 2, overlaps x (w false 0x100) = true) ∧ ((w true 0x100).bytes.Pairwise fun x y => x.loc ≠ y.loc) :=
  ⟨kept_of_check (by decide +kernel), rfl, rfl, rfl, rfl, by decide +kernel, rfl, ⟨_, List.mem_singleton.mpr rfl, rfl⟩, rfl, by decide +kernel, by simp⟩
theorem test_witness_Atomics_elsewhere :
    let s := routing (withG [(2, 0x40000008)] small)
    let r := translate (reqOf s.me) .atomic 8 0x40000008 s
    Settled s ∧ (gR 2 s).toNat % 8 = 0 ∧ r = (.ok (.remote 0), r.2) ∧ r.2.remote = [] ∧ r.2.me = s.me ∧ badAt (locsAt (.mem 0x100 .wb) 8) { small with bad := [0x20] } = some 0x100 :=
  ⟨settled_of_check (by decide +kernel), by decide +kernel, pair_of_ok (by decide +kernel), by decide +kernel, by decide +kernel, by decide +kernel⟩
theorem test_witness_Bindings_waits : okVal (drainAll (oldest 0x40000008 8 false)) = none := by decide +kernel
theorem test_witness_FencesAndBarriers_waits :
    (let s : State := { small with me := { runner with sfq := [aRecord] } }
     s.me.stq = [] ∧ s.me.sfq ≠ [] ∧ inHandler s.me = false) ∧
    (let s : State := { small with me := { runner with pwait := some #v[1, 0, 0, 0] } }
     Settled s ∧ s.me.pwait = some #v[1, 0, 0, 0] ∧ (∃ d : Fin 4, s.dies[d].persistDone < (#v[1, 0, 0, 0] : Vector Nat 4)[d])) ∧
    (let s : State := { small with me := { runner with pwait := some #v[0, 0, 0, 0] } }
     Settled s ∧ ∀ d : Fin 4, (#v[0, 0, 0, 0] : Vector Nat 4)[d] ≤ s.dies[d].persistDone) ∧
    launchAt small.me.launch small = none := by
  refine ⟨by decide +kernel, ⟨settled_of_check (by decide +kernel), rfl, 0, by decide +kernel⟩, ⟨settled_of_check (by decide +kernel), by decide +kernel⟩, by decide +kernel⟩
/-- A device-scheduled queue of the strand's partition, with `n` slots pending. -/
def deviceQueue (en : Bool) (n : Nat) : HwQueue := ⟨0x1000, 0x9000, 0, true, en, 0, n, 0, false, []⟩
theorem test_witness_PublicationsAndLaunches_statuses :
    let r := (record 64).set 0 0
    let s : State := { small with ctxbase := 0x40000, mem := Memory.setN [] 0x40000 (bytesOf 8 1 ++ bytesOf 8 0x20000), grants := small.grants.set 0 (Vector.replicate 16 wholeGrant) }
    launchStatus r (deviceQueue true 0) s = 0 ∧ launchStatus r (deviceQueue true 32) s = 1 ∧ launchStatus r (deviceQueue false 0) s = 2 ∧ launchStatus (record 64) (deviceQueue true 0) s = 4 := by
  decide +kernel

/-! Vector memory from the state in which an instruction's misses are raised. -/

theorem fault_of_chain {α : Type} {f : Nat → State → Except (Word × XFault) α × State} {a n : Nat} {s : State} (x0 : α) (h : chainOk f a n s = true) (han : a ≤ n)
    (e : (errOf (f n (chain a f s n)).1).isSome = true) :
    ∃ va x, FaultsAt f a n (chain a f s) va x (f n (chain a f s n)).2 ∧ SameStrand a n (chain a f s) s := by
  obtain ⟨⟨va, x⟩, h'⟩ := Option.isSome_iff_exists.mp e
  obtain ⟨y, hy⟩ := accesses_of_chain x0 h
  exact ⟨va, x, ⟨han, ⟨y, hy.1⟩, pair_of_err h'⟩, hy.2⟩

def loadMisses (s : State) (base : Word) : State := raiseMisses .vload (elementVas false base 0 (vWidth s.me.v[2]) s) s
theorem test_witness_VectorLoads_first :
    roomFor 2 moving.me.v[2].tag moving = true ∧ roomFor 2 0x0003 (crowd moving) = false ∧ (crowd moving).me.v[2].tag = 0x0003 ∧
    (∃ x, Accesses (loadElement moving.me.v[2] false 0x100 0 0 0) 0 2 (chain 0 (loadElement moving.me.v[2] false 0x100 0 0 0) (loadMisses moving 0x100)) x ∧
      SameStrand 0 2 (chain 0 (loadElement moving.me.v[2] false 0x100 0 0 0) (loadMisses moving 0x100)) (loadMisses moving 0x100)) ∧ (loadMisses moving 0x100).me = moving.me ∧
    (∃ va x, FaultsAt (loadElement moving.me.v[2] false 0x0200000000000000 0 0 0) 0 0 (chain 0 (loadElement moving.me.v[2] false 0x0200000000000000 0 0 0) (loadMisses moving 0x0200000000000000)) va x
        (loadElement moving.me.v[2] false 0x0200000000000000 0 0 0 0 (loadMisses moving 0x0200000000000000)).2 ∧
      SameStrand 0 0 (chain 0 (loadElement moving.me.v[2] false 0x0200000000000000 0 0 0) (loadMisses moving 0x0200000000000000)) (loadMisses moving 0x0200000000000000)) ∧
    (loadElement moving.me.v[2] false 0x0200000000000000 0 0 0 0 (loadMisses moving 0x0200000000000000)).2.me = moving.me ∧ 0 < moving.me.vl :=
  ⟨by decide +kernel, crowd_room (by decide +kernel) rfl (by decide), by decide +kernel, accesses_of_chain ⟨none, none, []⟩ (by decide +kernel), by decide +kernel,
    fault_of_chain ⟨none, none, []⟩ (by decide +kernel) (Nat.le_refl _) (by decide +kernel), by decide +kernel, by decide +kernel⟩
def gatherMisses (s : State) (base : Word) : State := raiseMisses .gather (indexedVas s.me.v[2] s.me.v[3] base 64 s) s
theorem test_witness_VectorLoads_gather :
    budgetOk moving.me 2 moving.me.v[2].tag = true ∧ (moving.me.v[3]).poison = [] ∧ (gatherMisses moving 0x100).me = moving.me ∧
    (∃ x, Accesses (gatherElement moving.me.v[2] moving.me.v[3] 0x100 64) 0 2 (chain 0 (gatherElement moving.me.v[2] moving.me.v[3] 0x100 64) (gatherMisses moving 0x100)) x ∧
      SameStrand 0 2 (chain 0 (gatherElement moving.me.v[2] moving.me.v[3] 0x100 64) (gatherMisses moving 0x100)) (gatherMisses moving 0x100)) ∧
    (∃ va x, FaultsAt (gatherElement moving.me.v[2] moving.me.v[3] 0x0200000000000000 64) 0 0 (chain 0 (gatherElement moving.me.v[2] moving.me.v[3] 0x0200000000000000 64) (gatherMisses moving 0x0200000000000000)) va x
        (gatherElement moving.me.v[2] moving.me.v[3] 0x0200000000000000 64 0 (gatherMisses moving 0x0200000000000000)).2 ∧
      SameStrand 0 0 (chain 0 (gatherElement moving.me.v[2] moving.me.v[3] 0x0200000000000000 64) (gatherMisses moving 0x0200000000000000)) (gatherMisses moving 0x0200000000000000)) ∧
    gatherOk moving.me.v[2] moving.me.v[3] (BitVec.allOnes 64) = false :=
  ⟨by decide +kernel, by decide +kernel, by decide +kernel, accesses_of_chain (⟨none, none, []⟩, none) (by decide +kernel), fault_of_chain (⟨none, none, []⟩, none) (by decide +kernel) (Nat.le_refl _) (by decide +kernel), by decide +kernel⟩
/-- The words of a compressed image whose one block is absent. -/
def headerOf (s : State) (base : Word) : Except (Word × XFault) (List Got) × State := readWords readVector (reqOf s.me) .vload base (List.range 1) s
theorem test_witness_VectorLoads_compressed :
    (gR 9 moving).toNat % 64 = 0 ∧ blockLen moving.me.v[2].tag = 0 ∧ (moving.me.vl * containerBits 4 + 511) / 512 = 1 ∧ (headerOf moving 0x100).2.me = moving.me ∧
    (headerOf moving 0x100).1.toOption.any (fun ws => !imageMalformed (ws.map fun x => x.code) 1 64 &&
      chainOk (loadExpanded 0x100 ws 4) 0 2 (headerOf moving 0x100).2 && (expandedByte 0x100 (ws.map fun x => x.code) 0).isNone) = true ∧ active moving.me 0 = true ∧
    (errOf (headerOf moving 0x0200000000000000).1).isSome = true := by decide +kernel
def storeMisses (s : State) (base : Word) : State := raiseMisses .vstore (elementVas false base 0 (vWidth s.me.v[1]) s) s
def scatterMisses (s : State) : State := raiseMisses .scatter (indexedVas s.me.v[1] s.me.v[3] 0x100 64 s) s
theorem test_witness_VectorStores_first :
    planeMajorOk false 0x100 0 moving.me.vl = true ∧ planeMajorOk true 0x101 0 moving.me.vl = false ∧
    (∃ x, Accesses (storeElement moving.me.v[1] false 0x100 0 0) 0 2 (chain 0 (storeElement moving.me.v[1] false 0x100 0 0) (storeMisses moving 0x100)) x) ∧
    ((List.range 3).all fun k => let t := (chain 0 (storeElement moving.me.v[1] false 0x100 0 0) (storeMisses moving 0x100) k).me
      t.vl == 2 && t.six == 0) = true ∧
    (∃ va x, FaultsAt (storeElement moving.me.v[1] false 0x0200000000000000 0 0) 0 0 (chain 0 (storeElement moving.me.v[1] false 0x0200000000000000 0 0) (storeMisses moving 0x0200000000000000)) va x
      (storeElement moving.me.v[1] false 0x0200000000000000 0 0 0 (storeMisses moving 0x0200000000000000)).2) ∧
    gatherOk moving.me.v[1] moving.me.v[3] 64 = true ∧ gatherOk moving.me.v[1] moving.me.v[3] (BitVec.allOnes 64) = false ∧
    (∃ x, Accesses (scatterElement moving.me.v[1] moving.me.v[3] 0x100 64) 0 2 (chain 0 (scatterElement moving.me.v[1] moving.me.v[3] 0x100 64) (scatterMisses moving)) x ∧
      SameStrand 0 2 (chain 0 (scatterElement moving.me.v[1] moving.me.v[3] 0x100 64) (scatterMisses moving)) (scatterMisses moving)) ∧ (scatterMisses moving).me = moving.me ∧
    active moving.me 0 = true ∧ active { runner with mode := 0x08 } 1 = false := by
  refine ⟨by decide +kernel, by decide +kernel, ⟨fun _ => (), fun k _ hk => ?_⟩, by decide +kernel, ?_, by decide +kernel, by decide +kernel, accesses_of_chain [] (by decide +kernel),
    by decide +kernel, by decide +kernel, by decide +kernel⟩
  · obtain rfl | rfl : k = 0 ∨ k = 1 := by have : k < 2 := hk; omega
    · exact pair_of_ok (by decide +kernel)
    · exact pair_of_ok (by decide +kernel)
  · obtain ⟨va, x, h, -⟩ := fault_of_chain (f := storeElement moving.me.v[1] false 0x0200000000000000 0 0) (n := 0) (s := storeMisses moving 0x0200000000000000) () (by decide +kernel) (Nat.le_refl _) (by decide +kernel)
    exact ⟨va, x, h⟩
theorem test_witness_VectorStores_drain :
    let closing := closeIf (fun o => o == 1) tiles
    okVal closing = some () ∧ (endState closing).core.cellPoison = [] ∧ (endState closing).me.mvl = tiles.me.mvl ∧ FormatStands tiles ∧ Fresh tiles ∧
    (let u := (writeWords 0x100 ((compressedWords 16 (ddSTRIDE 0x4000010003) (containerBits (tagWidth (ddTAG 0x4000010003)))
        (blocksOf (16 * ddSTRIDE 0x4000010003 / 64) ((List.range 16).flatMap (drainRow 1 0x4000010003 (endState closing))))).filter fun x => decide (x.2.2 < 256)) tiles)
     u.1.isNone = true ∧ okVal (closeIf (fun o => o == 1) u.2) = some ()) := by
  refine ⟨by decide +kernel, by decide +kernel, by decide +kernel, ?_, test_tiles_fresh, by decide +kernel, by decide +kernel⟩
  intro t h
  exact absurd h (by simp [tiles, withV, small, Core.reset])

/-! Copies, streams and the events of the part. -/

/-- The command of the tag that has landed. -/
def landedCmd : Cmd := ⟨false, 1, 2, #v[0x100, 0, 4 + 7 * 2 ^ 32 + 7 * 2 ^ 42, 0], 0, 0, 0, 0, 0, false, true, [], []⟩
theorem test_witness_TagInstructions_commit :
    commandOf 3 landed.core = some landedCmd ∧ landed.wellKept ∧ inHandler landed.me = false ∧ roomFor 2 7 landed = true ∧ roomFor 2 7 (crowd landed) = false ∧ (crowd landed).wellKept ∧
    fld landedCmd.w[2] 0 32 ≤ 16384 ∧ BitVec.ofNat 16 (fld landedCmd.w[2] 42 10) = (7 : BitVec 16) ∧ ¬Pending 3 landed ∧ budgetOk { runner with budget := 3 } 2 7 = false ∧
    (let g : TagReg := { TagReg.reset with st := .landed, err := 4, cmd := some landedCmd }
     Pending 3 (withTag g small) ∧ (withTag { g with told := true } small).core.tags[3].told = true ∧ (withTag { g with st := .busy } small).core.tags[3].st = .busy) ∧
    commandOf 5 landed.core = none ∧ landed.core.tags[5].st = .free :=
  ⟨rfl, kept_of_check (by decide +kernel), rfl, by decide +kernel, crowd_room (by decide +kernel) rfl (by decide), kept_of_check (by decide +kernel), by decide, by decide,
    fun h => h.1 (by decide +kernel), by decide +kernel, ⟨⟨by decide +kernel, by decide +kernel, by decide +kernel⟩, by decide +kernel, by decide +kernel⟩, by decide +kernel, by decide +kernel⟩
/-- The queue of commands full; a register whose element is poisoned; an error to be delivered on the tag that is named. -/
theorem test_witness_Copies_issue :
    16 ≤ ({ small.core with engq := List.replicate 16 3 } : Core).engq.length ∧ small.me.v[0].poison = [] ∧ (withTag { TagReg.reset with st := .landed } copying).core.tags[3].st = .landed ∧
    (let s := withTag { TagReg.reset with st := .ready, err := 4 } copying
     Settled s ∧ Mine 3 s ∧ Pending 3 s ∧ cmdOk (issuedCmd false 4 0 0 s) = true) ∧
    routineOf 0 (fld (issuedCmd true 4 0 0 copying).w[3] 12 4) copying = none :=
  ⟨by decide, by decide +kernel, by decide +kernel, ⟨settled_of_check (by decide +kernel), ⟨by decide +kernel, by decide +kernel⟩, ⟨by decide +kernel, by decide +kernel, by decide +kernel⟩,
    by decide +kernel⟩, by decide +kernel⟩
/-- The command served, its chunk and the state in which it runs. -/
def servedCmd : Cmd := (commandOf 3 served.core).getD landedCmd
def servedRq : Req := engineReq 0 3 servedCmd served
theorem test_witness_Copies_chunk :
    commandOf 3 served.core = some servedCmd ∧ cmdN servedCmd = 16 ∧ chunkCount 16 = 1 ∧ chunkHeld servedCmd servedRq [] 0 0 served = false ∧
    (let r := chunkMoved servedCmd servedRq [] 0 0 16 (nextTurn 0 served)
     (r.1.toOption).any (fun w => let x := chunkWrites servedCmd servedRq [] 0 w r.2
       x.2.1.isNone && (homeWrites x.1 x.2.2).core.tags[3] == served.core.tags[3] && (homeWrites x.1 x.2.2).core.engq == served.core.engq) = true ∧
     r.2.core.tags[3] = served.core.tags[3] ∧ r.2.core.engq = served.core.engq) ∧
    (let r := chunkMoved servedCmd servedRq [] 0 0 16 { nextTurn 0 served with bad := [0x20] }
     (errOf r.1).isSome = true ∧ r.2.core.tags[3] = served.core.tags[3]) ∧ servedTag 0 small ≠ some 3 := by decide +kernel
/-- A transfer of 4,097 fp32 elements whose last lies in a page that leads where the first one does: while chunk 0 is open, chunk 32 waits. -/
theorem test_witness_Copies_held :
    let c : Cmd := ⟨false, 0, 0, #v[0x100, 0x200, 0x1001 + 0x90 * 2 ^ 32 + 0x90 * 2 ^ 42, 0], 0, 0, 0, 0, 0, false, true, [], []⟩
    let s : State := { small with core := { small.core with tlb := [openPage 0 0, { openPage 0 0 with vpage := 1 }] } }
    chunkCount (cmdN c) = 33 ∧ chunkHeld c (engineReq 0 3 c s) [] 0xFFFFFFFE 32 s = true ∧ chunkHeld c (engineReq 0 3 c s) [] 0xFFFFFFFF 32 s = false := by decide +kernel
/-- A pop of nine elements meets the one whose refill failed; one of eight in a crowded pool waits. -/
theorem test_witness_Streams_pop :
    let s : State := { streaming true with me := { (streaming true).me with vl := 9, sq := (streaming true).me.sq.set 2 { (streaming true).me.sq[2] with size := some 16 } } }
    let x := s.me.sq[2]
    Fresh s ∧ s.wellKept ∧ x.st ≠ .closed ∧ budgetOk s.me 1 x.tag = true ∧ roomFor 1 x.tag s = true ∧ (∀ k, k < 9 → (blockOf x (x.pos + k)).isSome = true) ∧ Within x 8 ∧
    (blockOf x 8).any (fun b => b.faults.find? (fun p => decide (x.pos ≤ p.1) && decide (p.1 < x.pos + 9)) == some (8, .order)) = true ∧ (∀ j, j < 8 → (x.pos + j) / 16384 = (x.pos + 8) / 16384) ∧
    roomFor 1 x.tag (crowd s) = false ∧ Fresh (streaming false) ∧ (∃ k, k < (streaming false).me.vl ∧ blockOf (streaming false).me.sq[2] k = none) := by
  refine ⟨by refine ⟨?_, ?_, ?_, ?_, ?_⟩ <;> decide +kernel, kept_of_check (by decide +kernel), by decide +kernel, by decide +kernel, by decide +kernel, by decide +kernel, ?_, by decide +kernel,
    by decide +kernel, crowd_room (by decide +kernel) rfl (by decide), by refine ⟨?_, ?_, ?_, ?_, ?_⟩ <;> decide +kernel, 0, by decide +kernel, by decide +kernel⟩
  intro n h
  cases h
  decide
theorem test_witness_Streams_open :
    let s := withG [(8, 0x100), (9, 16 * 2 ^ 40 + 8), (12, 0x10007)] small
    (s.me.sq[2].st = .closed ∧ (2 : SqN).1 % 2 = 0 ∧ s.me.sq[partner 2].st = .closed ∧ patternOk false (gR 12 s) [gPlus 8 0 s, gPlus 8 1 s, gPlus 8 2 s, gPlus 8 3 s] = true ∧
      slotsOfStrand s.me s + 16 ≤ 64 ∧ slotsHeld 0 s + 16 ≤ 64) ∧
    (let t : State := { s with core := { s.core with strands := [{ runner with sid := 1, sq := runner.sq.set 0 { Stream.reset with st := .open, slots := List.range 49 } }] } }
     64 < slotsHeld 0 t + 16 ∧ slotsOfStrand t.me t + 16 ≤ 64 ∧ t.wellKept) :=
  ⟨by decide +kernel, by decide +kernel, by decide +kernel, kept_of_check (by decide +kernel)⟩
theorem test_witness_SequencerAndWalks_complete :
    (let c := (windowed (pair (some 64))).core
     c.window.find? (fun f => f.unit == some .plane && f.running.isSome) = some (flight 0 0 1 (some 64)) ∧ (flight 0 0 1 (some 64)).running = some 64 ∧ 64 < (flight 0 0 1 (some 64)).last) ∧
    (windowed []).core.window = [] ∧ (∀ f ∈ pair none, f.unit = some .plane → f.running = none) := by decide +kernel
/-- A miss of a page that the tables of chapter 01's example map, and one of a page that they do not. -/
theorem test_witness_SequencerAndWalks_walks :
    let s := walkExample 0x124A00060F
    let x (va : Word) : Miss := ⟨0, 0x2A, 0, false, 0, .load, va⟩
    (errOf (walk (missReq 0 (x 0x123456789ABCDE)) 0x123456789ABCDE s).1).isNone = true ∧ tlbHit (missReq 0 (x 0x123456789ABCDE)) 0x123456789ABCDE s = none ∧
    (errOf (walk (missReq 0 (x 0x100)) 0x100 s).1).isSome = true := by decide +kernel
theorem test_witness_DramEvents_forms :
    (let c : Ctrl := { Ctrl.reset with modes := [(0, false)] }
     let b : Bank := { bank0 with backoff := some (100, 300) }
     (settleBank ⟨0, 1, 3, 2⟩ c 200 0 b).refreshUntil = some (300 + 176) ∧ (settleBank ⟨0, 1, 3, 2⟩ c 200 0 b).backoff = some (100, 300) ∧ (settleBank ⟨0, 1, 3, 2⟩ c 300 0 b).backoff = none) ∧
    (settleBank ⟨0, 1, 3, 2⟩ Ctrl.reset 4097 4097 { bank0 with row := some 5, lastAt := 1, commands := 9 }).row = none ∧
    (settleBank ⟨0, 1, 3, 2⟩ Ctrl.reset 4096 4096 { bank0 with row := some 5, lastAt := 1, commands := 9 }).row = some 5 ∧
    (settleBank ⟨0, 1, 3, 2⟩ Ctrl.reset 7 7 { bank0 with row := some 5, queue := [request 5] }).row = some 5 := by decide +kernel
theorem test_witness_SamplesAndPersistQueues_later :
    (let x : Die := { Die.reset with cycle := 1048576, hbmDone := #v[1, 1], ctrls := Die.reset.ctrls.set 0 { Die.reset.ctrls[0] with dblNext := some (true, 1048608) } }
     0 < x.hbmDone[0] ∧ x.hbmDone[0] * 1048576 ≤ x.cycle ∧ x.ctrls[0].dblNext = some (true, 1048608) ∧ x.ctrls[1].dblNext = none ∧ x.cycle < 1048608) ∧
    islandPowered 0 small = true ∧ islandPowered 0 { small with core := { small.core with pwr := 2 }, cores := (islandCores 0).map fun m => { Core.reset m [] with pwr := 2 } } = false ∧
    (let e : PersistEntry := ⟨[(0, 1)], some 5⟩
     e.started = some 5 ∧ (335 : Nat) < 336 ∧ (5 : Nat) + 330 ≤ 335) ∧ (2 : Nat) ≤ 3 := by decide +kernel
theorem test_witness_ShadowWrites_steps :
    (let s : State := { shadowing with core := { shadowing.core with shWriting := none, shTargets := some #v[0, 0, 0, 1] } }
     s.wellKept ∧ s.core.shTargets = some #v[0, 0, 0, 1] ∧ ∃ d : Fin 4, s.dies[d].persistDone < (#v[0, 0, 0, 1] : Vector Nat 4)[d]) ∧
    (let s : State := { shadowing with core := { shadowing.core with shWriting := none, shTargets := none, shRequest := true } }
     s.wellKept ∧ s.core.shTargets = none ∧ s.core.shRequest = true ∧ s.core.shWriting = none ∧ s.core.pwr ≤ 1) ∧
    (let s : State := { shadowing with core := { shadowing.core with shDue := cycleOf 0 shadowing + 1 } }
     cycleOf 0 s < s.core.shDue) ∧ shadowing.core.shDue ≤ cycleOf 0 shadowing ∧ Sound (shadowing.core.slots[1]) ∧ ¬Sound (small.core.slots[0]) ∧
    UnderWay 0 { small with me := { runner with call := some 4 } } := by
  refine ⟨⟨kept_of_check (by decide +kernel), rfl, 3, by decide +kernel⟩, ⟨kept_of_check (by decide +kernel), rfl, rfl, rfl, by decide⟩, by decide +kernel, by decide +kernel, ⟨rfl, rfl, rfl⟩,
    fun h => absurd h.1 (by decide +kernel), .inr (.inr ⟨_, List.mem_singleton.mpr rfl, rfl, .inl (by simp)⟩)⟩
theorem test_witness_CorePower_forms :
    (let s : State := { small with me := { runner with life := .absent }, core := { small.core with idleSince := 0 }, dies := small.dies.set 0 { Die.reset with cycle := 65536 } }
     s.core.pwr = 0 ∧ s.core.launch = none ∧ s.core.idleSince + 65536 ≤ cycleOf 0 s ∧ s.wellKept) ∧
    (let c : Core := { small.core with pwr := 1 }
     c.downRequest = false ∧ c.shRequest = false ∧ c.shTargets = none ∧ c.shWriting = none ∧ ({ c with downRequest := true } : Core).downRequest = true) ∧
    (0 : Nat) + 2 ^ 32 < 2 ^ 32 + 1 ∧ ¬((0 : Nat) + 2 ^ 32 < 2 ^ 32) ∧ 0 < ({ small.dies[0].islands[0] with sampled := 1 } : Island).sampled ∧
    (launchAt 1 dark).isSome = true := by
  refine ⟨⟨rfl, rfl, by decide +kernel, kept_of_check (by decide +kernel)⟩, ⟨rfl, by decide +kernel, by decide +kernel, by decide +kernel, rfl⟩, by decide, by decide, by decide, by decide +kernel⟩
theorem test_witness_PackageLossTripsAndPoison_marks :
    (let s : State := { lanesState with me := { lanesState.me with v := lanesState.me.v.set 2 { lanesState.me.v[2] with poison := [⟨0, 0, 0⟩] } } }
     ∃ x ∈ (s.me.v[2]).poison, x.plane = 0 ∧ x.seg = 0) ∧ (lanesState.me.v[2]).planes.length ≤ 4 ∧ (lanesState.me.v[31]).planes.length ≤ 0 := by
  refine ⟨⟨⟨0, 0, 0⟩, by simp, rfl, rfl⟩, by decide +kernel, by decide +kernel⟩

/-! The queues, placement, the mailbox and the outside. -/

theorem test_witness_ControlSpaceEvents_forms :
    (List.replicate 32 (⟨0, 0⟩ : Invalidation)).length = 32 ∧ Removes ⟨1, 0⟩ 0 (openPage 0 0) ∧ ¬Removes ⟨1 + 3 * 8, 0⟩ 0 (openPage 0 0) ∧
    (let s : State := { small with tiq := [⟨1, 0⟩] }
     s.tiq = ⟨1, 0⟩ :: [] ∧ AllQuiet s ∧ openPage 0 0 ∈ s.core.tlb) ∧
    (let x : Die := { Die.reset with cycle := 1048576, counts := [⟨5, #v[1, 0, 0, 0, 0, 0, 0]⟩] }
     (x.flushes + 1) * 1048576 ≤ x.cycle ∧ (x.counts.Pairwise fun a b => a.ctx ≠ b.ctx)) ∧ (0x10000000 : Nat) < 0x1000000000 ∧ ¬(0x1000000000 < 0x1000000000 ∧ ((8 : Nat) = 4 ∨ 8 = 8)) := by
  refine ⟨by decide, .inr (.inl ⟨by decide, by decide, by decide⟩), ?_, ⟨rfl, ⟨by decide +kernel, rfl, by decide +kernel⟩, by decide +kernel⟩, ⟨by decide, by simp⟩, by decide, by decide⟩
  rintro (h | h | h | h | h)
  · exact absurd h.1 (by decide)
  · exact absurd h.2.1 (by decide)
  · exact absurd h.1 (by decide)
  · exact absurd h.1 (by decide)
  · exact absurd h (by decide)
theorem test_witness_StagedStart_cores :
    let s : State := { small with dies := small.dies.set 0 { Die.reset with stage := 3, hbmDone := #v[1, 1] } }
    s.wellKept ∧ ({ Die.reset with stage := 4 } : Die).stage = 4 ∧ ({ Die.reset with min := true } : Die).min = true ∧ ¬((6 : Nat) = 3 ∨ (6 : Nat) = 4 ∨ (6 : Nat) = 5 ∨ (6 : Nat) = 7) :=
  ⟨kept_of_check (by decide +kernel), rfl, rfl, by decide⟩
/-- The package with a record of a type in slot 0 of queue 3. -/
def queued (r : List Word) : State := { launching with mem := Memory.setN launching.mem 0x1000 (r.flatMap fun w => bytesOf 8 w.toNat) }
theorem test_witness_QueueEvents_types :
    (fld (recWord (readSlot 0x1000 (queued ((record 64).set 15 2))).1 15) 0 8 = 2 ∧ (queued ((record 64).set 15 2)).wellKept) ∧
    fld (recWord (readSlot 0x1000 (queued ((record 64).set 15 3))).1 15) 0 8 = 3 ∧
    (let r := [5, 0x2000, 0, 0, 0, 0, 0, 0, 0, 0, 0, 0, 0, 0, 0, 1]
     fld (recWord (readSlot 0x1000 (queued r)).1 15) 0 8 = 1 ∧ replayReserved r = false ∧ ctxBad (recCTX r) 0 (queued r) = false ∧ replayReserved (r.set 3 (BitVec.allOnes 64)) = true) ∧
    (∃ l ∈ (next (exec (.slotAccept 0 3) launching)).launches, l.die = 0 ∧ l.queue = 3 ∧ l.node = none ∧ l.st = .candidate) ∧
    ((0 : Nat) + 2 ^ 32 - 0) % 2 ^ 32 ≤ 32 ∧ ({ launching.dies[0].queues[3] with en := false } : HwQueue).en = false := by
  refine ⟨⟨by decide +kernel, kept_of_check (by decide +kernel)⟩, by decide +kernel, by decide +kernel, by decide +kernel, by decide, rfl⟩
/-- A candidate that depends on index 1 of the publication at a word whose high-water word holds `w`, or at one that does not translate. -/
def depending (va : Word) (w : Nat) (blocked : Option Nat) : State :=
  { launching with
    core := { launching.core with tlb := [openPage 5 0] }
    mem := Memory.setN launching.mem 0x3008 (bytesOf 8 w)
    launches := [{ newLaunch 1 (((record 64).set 5 va).set 6 1) 0 0 3 none with met := false, blocked := blocked }] }
theorem test_witness_QueueEvents_dependences :
    (launchAt 1 (depending 0x3000 1 none)).any (fun l => l.st == .candidate && !l.met && l.blocked != some 0) = true ∧
    (launchAt 1 (depending 0x3000 1 (some 0))).any (fun l => l.blocked == some (depending 0x3000 1 (some 0)).tiqdone) = true ∧ launchAt 2 (depending 0x3000 1 none) = none := by decide +kernel
/-- A node of a replay whose rectangle its partition does not have, and a launch whose core is off. -/
theorem test_witness_PlacementAndLeave_waits :
    (let s : State := { accepted with launches := [{ newLaunch 1 (record 64) 0 0 3 (some (1, 0)) with met := true }], parts := accepted.parts.set 0 { accepted.parts[0] with allot := 2 } }
     (nextPlace s).any (fun l => l.node.isSome && l.st == .candidate && placeBad l.record s) = true) ∧
    (let s : State := { accepted with core := { accepted.core with pwr := 2 } }
     (nextPlace s).any (fun l => l.node.isNone && (rectCores l.record).any fun m => (coreAt m s).pwr != 0) = true) ∧
    nextPlace small = none ∧ launchAt 2 small = none := by decide +kernel
/-- A launch that was saved from core 0, and its frames. -/
def returning : State :=
  { accepted with
    launches := [{ newLaunch 1 (record 64) 0 0 3 none with st := .preempted, met := true, area := (0x1000000, 0x200000) }]
    saved := [⟨0, 1, { small.core with strands := [{ runner with launch := 1 }] }⟩] }
theorem test_witness_PlacementAndLeave_returns :
    returning.wellKept ∧ HasCore 0 returning ∧ (nextPlace returning).any (fun l => l.st == .preempted && (rectCores l.record).all fun m => (coreAt m returning).pwr == 0 && islandReady m returning) = true ∧
    (launchAt 1 returning).any (fun l => !l.dead.contains (wgOf l.record 0)) = true ∧ (returning.saved.find? fun x => x.mesh == 0 && x.slot == 1).isSome = true := by
  refine ⟨kept_of_check (by decide +kernel), .inl ?_, ?_, ?_, ?_⟩ <;> decide +kernel
/-- A launch that is being saved: its core is ready to be saved, or a shadow write is under way there. -/
def saving (writing : Option Nat) : State :=
  { placed with
    core := { placed.core with shWriting := writing }
    launches := [{ newLaunch 1 (record 64) 0 0 3 none with st := .saving, area := (0x1000000, 0x200000) }] }
theorem test_witness_PlacementAndLeave_saves :
    (launchAt 1 (saving none)).any (fun l => l.st == .saving && saveReady l (settleStops 1 (saving none)) && framesOk l 0) = true ∧ (settleStops 1 (saving none)).wellKept ∧
    HasCore 0 (settleStops 1 (saving none)) ∧ (launchAt 1 (settleStops 1 (saving none))).isSome = true ∧ (coreAt 0 (settleStops 1 (saving none))).launch = some 1 ∧
    (launchAt 1 (saving (some 0))).any (fun l => !saveReady l (settleStops 1 (saving (some 0)))) = true ∧
    (launchAt 1 placed).any (fun l => (placed.launches.all fun c => !preempts c l placed) && (allocate l placed).isNone) = true := by
  refine ⟨?_, kept_of_check (by decide +kernel), .inl ?_, ?_, ?_, ?_, ?_⟩ <;> decide +kernel
/-- A grant period of a die whose strand has asked for leave. -/
theorem test_witness_PlacementAndLeave_periods :
    (let s : State := { placed with dies := placed.dies.set 0 { placed.dies[0] with periods := 1, cycle := 256 } }
     s.wellKept ∧ s.dies[0].periods * 256 ≤ s.dies[0].cycle) ∧
    (let s : State := { placed with dies := placed.dies.set 0 { placed.dies[0] with periods := 1, cycle := 255 } }
     s.dies[0].cycle < s.dies[0].periods * 256) ∧
    (let s : State := { placed with me := { placed.me with leave := .asked 1 0 true } }
     strandAt 0 0 s = some s.me ∧ ∀ z ∈ strandsOf 0 s, z.sid = 0 → z = s.me) :=
  ⟨⟨kept_of_check (by decide +kernel), by decide +kernel⟩, by decide +kernel, by decide +kernel, by decide +kernel⟩
/-- A command that runs, with its arguments latched, on a package whose dies have begun a period or not. -/
def commanded (k : Nat) (args : Vector Word 4) (begun : Nat) : State :=
  { launching with
    mailbox := { launching.mailbox with busy := true, running := k, args := #v[7, 7, 7, 7], latched := args }
    dies := #v[{ launching.dies[0] with periods := begun }, { Die.reset with periods := begun }, { Die.reset with periods := begun }, { Die.reset with periods := begun }] }
theorem test_witness_MailboxCommands_running :
    PeriodBegun (commanded 1 #v[2000, 0, 0, 0] 1) ∧ ¬PeriodBegun (commanded 1 #v[2000, 0, 0, 0] 0) ∧ (commanded 2 #v[7, 300, 0, 0] 1).mailbox.latched[0].toNat = 7 ∧
    (coreAt 0 (commanded 4 #v[0, 1, 0, 0] 1)).pwr = 0 ∧
    (let s := commanded 5 #v[0x1000, 0, 0, 0] 1
     recBad (readSlot 0x1000 s).1 = false ∧ rectIdle (readSlot 0x1000 s).1 (readSlot 0x1000 s).2 = true ∧ (∀ m ∈ rectCores (readSlot 0x1000 s).1, hasSlot m (readSlot 0x1000 s).2 = false)) ∧
    (let s : State := { commanded 5 #v[0x1000, 0, 0, 0] 1 with core := { launching.core with slots := small.core.slots.set 1 ⟨3, 0, .sealed, 0, 0, false⟩ } }
     let u := readSlot 0x1000 s
     rectCores u.1 = [0] ∧ hasSlot 0 u.2 = true ∧ (coreAt 0 u.2).pwr = 0 ∧ islandReady 0 u.2 = true ∧ (coreAt 0 u.2).shRequest = false ∧ (coreAt 0 u.2).shTargets = none ∧
       (coreAt 0 u.2).shWriting = none) ∧
    slotInUse 0 3 (commanded 7 #v[0, 3, 0, 0] 1) = false ∧ (commanded 8 #v[0, 0, 0, 0] 1).cntbase = 0 ∧ ({ commanded 8 #v[0, 0, 0, 0] 1 with cntbase := 0x8000 } : State).cntbase ≠ 0 := by
  refine ⟨fun d => ?_, fun h => absurd (h 0) (by decide +kernel), by decide +kernel, by decide +kernel, ⟨by decide +kernel, by decide +kernel, by decide +kernel⟩, by decide +kernel,
    by decide +kernel, by decide +kernel, by decide +kernel⟩
  revert d
  decide +kernel
theorem test_witness_MailboxCommands_slots :
    (let c : Cmd := ⟨true, 0, 0, #v[0, 0, 0, 3 * 4096], 0, 0, 0, 0, 0, false, true, [], []⟩
     let s : State := { commanded 7 #v[0, 3, 0, 0] 1 with core := { launching.core with engq := [3], tags := launching.core.tags.set 3 { TagReg.reset with st := .busy, cmd := some c } } }
     slotInUse 0 3 s = true) ∧ launching.mailbox.busy = false := by decide +kernel
theorem test_witness_HostAccesses_stores :
    launching.dies[0].stage = 4 ∧ hostCovers 0x100 1 0 ∧ regionOf (0x8000000000000 + 3) = .host ∧ ({ small with hostOwned := [0x8000000000000 / 64] } : State).hostOwned ≠ [] :=
  ⟨rfl, ⟨by decide, by decide, by decide +kernel⟩, by decide +kernel, by decide⟩
/-- The package that receives accesses for its context 0. -/
def receiving : State := { small with ctxbase := 0x40000 }
theorem test_witness_ChainPorts_arrivals :
    let rq := arrivalReq 0 0 receiving
    (0x101 : Word).toNat % 4 ≠ 0 ∧ (arrivalTargets rq 4 0x101 receiving).1.toOption = some ((List.range 4).map fun k => .mem (0x101 + k) .wb) ∧
    errOf (arrivalTargets rq 4 0x01FFFFFFFFFFFFFE receiving).1 ≠ none ∧ (arrivalTarget rq .atomic 8 0x100 receiving).1.toOption = some (.mem 0x100 .wb) ∧
    (arrivalTarget rq .atomic 8 0x100 receiving).2.wellKept ∧ errOf (arrivalTarget rq .store 4 0x0200000000000000 receiving).1 = some 1 :=
  ⟨by decide, by decide +kernel, by decide +kernel, by decide +kernel, kept_of_check (by decide +kernel), by decide +kernel⟩
/-- A store sent to another package, by a strand with room for a record or without. -/
def remoteStore : RemoteMsg := ⟨4, 0, 0, 0, 9, ⟨0, 0x100, .store [1]⟩, none, some ⟨0x100, 1, 1, 0, false, [none], false, false, false⟩⟩
def sentStore (records : Nat) : State := { small with me := { runner with sfq := List.replicate records aRecord }, remote := [remoteStore] }
theorem test_witness_ChainPorts_replies :
    recordRoom 0 0 (sentStore 15) = true ∧ recordRoom 0 0 (sentStore 16) = false ∧ inFlit 4 (sentStore 0) = false ∧
    (let s : State := { sentStore 0 with dies := small.dies.set 0 { Die.reset with ports := Die.reset.ports.set 0 { Die.reset.ports[0] with flit := [4] } } }
     inFlit 4 s = true) ∧ ({ remoteStore with reply := some .done } : RemoteMsg).reply ≠ none ∧ ({ remoteStore with store := none } : RemoteMsg).store = none ∧
    (sentStore 0).remote.find? (fun m => m.id == 4) = some remoteStore ∧ (∀ m ∈ (sentStore 0).remote, m.id ≠ 5) := by decide +kernel

/-! ### The clauses that were added or widened last -/

/-- A strand with an older vector instruction in the window, at a store. -/
def older : State := { windowed [flight 0 0 1 none] with mem := Memory.setN [] 0 (bytesOf 4 0x01184400) }
/-- A strand that a pre-emption has stopped at a boundary, with an instruction that has not retired or with none. -/
def halted (fs : List Flight) : State :=
  { windowed fs with me := { runner with launch := 1, stopping := true }, launches := [{ newLaunch 1 (record 64) 0 0 0 none with st := .saving }] }
theorem test_witness_StepRunsTheDecodedInstruction_waits :
    mayRun older = true ∧ atStop older = false ∧ older.me.doubleFault = false ∧ storeTrapDue older = false ∧ okVal (fetchWord older) = some 0x01184400 ∧
    waitsRetirement (.stD 1 2 0) (endState (fetchWord older)) = true ∧ waitsRetirement (.add 3 1 2) (endState (fetchWord older)) = false ∧
    waitsRetirement (.add 3 1 2) (windowed [{ flight 0 0 1 none with reserves := [.g 2] }]) = true ∧
    mayRun (halted []) = true ∧ atStop (halted []) = true ∧ unretired (halted []) = false ∧ unretired (halted [flight 0 0 1 none]) = true ∧
    (small.core :: small.cores).all (fun c => c.window.isEmpty) = true ∧ older.me.mesh = older.core.mesh := by decide +kernel
theorem test_a_beat_without_vector_instructions : beat small = small := rfl
/-- The traps that are due before an instruction: a record, a fetch that does not translate, a word that is none. -/
theorem test_witness_TrapEntry_boundary :
    (let s : State := { small with me := { runner with sfq := [aRecord] } }
     mayRun s = true ∧ s.me.call = none ∧ s.me.doubleFault = false ∧ inHandler s.me = false ∧ s.me.sfq ≠ [] ∧
       (next (exec (.trapEntry ⟨4, 0, 0, 0, 0, 0, 0, 0⟩) s)).me.pc = 0x800 ∧ (next (exec (.trapEntry ⟨4, 0, 0, 0, 1, 0, 0, 0⟩) s)).me = s.me) ∧
    (let s : State := { small with me := { runner with pc := 0x0200000000000000 } }
     (s.me.lc.toList.all fun l => !l.act) = true ∧ (errOf (translate (reqOf s.me) .fetch 4 s.me.pc s).1).isSome = true ∧
       inHandler (translate (reqOf s.me) .fetch 4 s.me.pc s).2.me = false) ∧
    okVal (fetchWord small) = some 0 ∧ inHandler (endState (fetchWord small)).me = false ∧ errOf (decode 0) = some .opcode ∧ okVal (fetchWord older) = some 0x01184400 ∧
    (decode 0x01184400).toOption = some (.add 3 1 2) ∧ mayRun State.reset = false := by
  refine ⟨?_, ?_, ?_, ?_, ?_, ?_, ?_, ?_⟩ <;> decide +kernel
theorem test_witness_EndCompletes_far :
    let v := counting (routing (merging 0x40000008))
    fld v.me.compl 57 7 = 0 ∧ routeOf v.me.ctx v.me.compl.toNat v = some 0 ∧ routeOf small.me.ctx 0x2000 small = none := by decide +kernel
/-- An access of an instruction to another package, with its reply. -/
def call (r : Option ReplyKind) : RemoteMsg := ⟨4, 0, 0, 0, 1, ⟨0, 0x40000008, .amo 0 false 8 1 0⟩, r, none⟩
theorem test_witness_Atomics_replies :
    Settled (withG [(2, 0x100)] small) ∧ (call none).store = none ∧ (call none).reply = none ∧ (call (some (.value 7))).reply = some (.value 7) ∧ (call (some (.fault 3))).reply = some (.fault 3) ∧
    (call (some .illegal)).reply = some .illegal ∧ (call (some .done)).reply = some .done ∧ (next (exec (.amoAdd 1 2 3 false 0) (called (call (some (.value 7))) (withG [(2, 0x100)] small)))).me.g[1] = 7 ∧
    (next (exec (.amoAdd 1 2 3 false 0) (called (call none) (withG [(2, 0x100)] small)))).me.pc = 0 :=
  ⟨settled_of_check (by decide +kernel), rfl, rfl, rfl, rfl, rfl, rfl, by decide +kernel, by decide +kernel⟩
/-- A latch word at 0x100, for a strand in its replay window or not. -/
def latching (replay : Bool) (w : Nat) : State :=
  let s := withG [(2, 0x100)] { small with mem := Memory.setN [] 0x100 (bytesOf 8 w) }
  { s with me := { s.me with replay := replay } }
theorem latching_holds : ∀ p ∈ [(true, 0x50000080000), (true, 0x50000000000), (false, 0x50100000000)], let s := latching p.1 p.2
    let r := translate (reqOf s.me) .atomic 8 0x100 s
    (gR 2 s).toNat % 8 = 0 ∧ inWindow (gR 2 s).toNat = false ∧ routeOf s.me.ctx (gR 2 s).toNat s = none ∧ settledCheck s = true ∧ r.1.toOption = some (.mem 0x100 .wb) ∧ settledCheck r.2 = true ∧
    r.2.me = s.me ∧ badAt (locsAt (.mem 0x100 .wb) 8) r.2 = none ∧ wordAt r.2 0x100 8 = p.2 ∧ r.2.chainid = 0 := by decide +kernel
theorem test_witness_Latches_replay :
    Settled (latching true 0x50000080000) ∧ (latching true 0x50000080000).me.replay = true ∧ lwReserved 0x50000080000 = false ∧ lwReserved 0x50100000000 = true ∧
    (next (exec (.acq 2) (latching true 0x50000080000))).me.rcause = 0x200 ∧ (next (exec (.rel 2) (latching true 0x50000000000))).me.pc = 4 ∧
    (next (exec (.acq 2) (latching false 0x50100000000))).me.tcause = 2 :=
  ⟨settled_of_check (by decide +kernel), rfl, by decide, by decide, by decide +kernel, by decide +kernel, by decide +kernel⟩
/-- A word of the host window, an address that does not translate, and one beyond a chain port. -/
theorem test_witness_Latches_places :
    (let s := withG [(2, 0x100), (3, 0x104), (4, 0x0200000000000000)] { small with core := { small.core with tlb := [{ openPage 0 0 with leaf := 0x8000000000000 + openLeaf, desc := 3 }] } }
     (gR 3 s).toNat % 8 ≠ 0 ∧ (errOf (translate (reqOf s.me) .atomic 8 (gR 4 s) s).1).isSome = true ∧ fld (gR 4 s) 57 7 ≠ 0 ∧
       (translate (reqOf s.me) .atomic 8 (gR 2 s) s).1.toOption = some (.mem 0x8000000000100 .wb) ∧ settledCheck s = true) ∧ ownMemory 0x8000000000100 = false ∧ routeOf 0 0x40000008 (routing small) = some 0 := by decide +kernel
theorem test_witness_FencesAndBarriers_remote :
    storesAway { small with remote := [remoteStore] } = true ∧ storesAway { small with remote := [call none] } = false ∧ (4 : BitVec 3).toNat < 5 ∧ 5 ≤ (5 : BitVec 3).toNat := by decide +kernel
theorem test_witness_PublicationsAndLaunches_elsewhere :
    let s := routing (withG [(1, 0x40000010), (2, 40)] small)
    Settled s ∧ (gR 1 s).toNat % 16 = 0 ∧ (gR 2 s).toNat < 2 ^ 48 ∧ routeOf s.me.ctx (gR 1 s).toNat s = some 0 ∧ (routed .atomic 0 s).toOption = some (.remote 0) ∧
    (errOf (routed .atomic 0 { s with dies := small.dies })).isSome = true ∧ (next (exec (.pubhw 1 2) (called (call (some .done)) s))).me.pc = 4 :=
  ⟨settled_of_check (by decide +kernel), by decide +kernel, by decide +kernel, by decide +kernel, by decide +kernel, by decide +kernel, by decide +kernel⟩
/-- The array with an open block of a tile, in a format, and NB products to a block. -/
def opened (owner : Option Nat) (count fmt nbl : Nat) : State :=
  let s := { tiles with me := { tiles.me with nbl := nbl } }
  { s with core := { s.core with owner := owner, count := count, fmt := fmt, base := if fmt = 0 then some (-20) else some 0 } }
theorem test_witness_OuterProducts_blocks :
    (productsOf (opened (some 1) 3 1 5) (.opa 1 1 2 1)).any (fun x => decide (x.n = 1) && ((List.range 16).all fun i => (List.range 16).all fun j =>
      let c := (x.cell (opened (some 1) 3 1 5) i j).1
      decide (-(2 ^ 39) ≤ c) && decide (c < 2 ^ 39))) = true ∧
    ((opened (some 1) 3 1 5).core.owner = some (1 : AccN).1 ∧ 3 + 1 < 2 ^ (opened (some 1) 3 1 5).me.nbl) ∧ (2 ^ (opened (some 1) 31 1 5).me.nbl ≤ 31 + 1) ∧
    ((opened (some 0) 3 1 5).core.owner = some 0 ∧ (0 : Nat) ≠ (1 : AccN).1) ∧ Ready (.opa 1 1 2 1) (opened (some 1) 3 1 5) ∧ (opened (some 1) 3 0 5).core.fmt = 0 ∧ (opened none 0 2 5).core.fmt = 2 ∧
    (opened none 0 2 5).core.owner = none ∧ opaOk 1 tiles.me.v[1] tiles.me.v[2] 1 (opened (some 1) 3 1 5) = true ∧ (32 : Nat) < 31 + 2 :=
  ⟨by decide +kernel, ⟨rfl, by decide⟩, by decide, ⟨rfl, by decide⟩, ready_of_clean rfl (by decide +kernel) rfl, rfl, rfl, rfl, by decide +kernel, by decide⟩
/-- A product of the second row: cells outside MVL only move, and the format FP32 has a base. -/
theorem test_witness_AccumulatorInstructions_folds :
    (opened (some 1) 3 0 5).core.owner = some (1 : AccN).1 ∧ tileOk 1 (opened (some 1) 3 1 5) = true ∧ (opened (some 1) 3 1 5).core.fmt ≤ 2 ∧ (opened none 0 1 0).core.owner = none ∧
    (fold (opened (some 1) 3 1 5)).core.owner = none ∧ 0 < (sideOf (vKind tiles.me.v[1])).p ∧ sigOf tiles.me.v[2] 0 = .fin false 7 0 ∧
    (addProduct (sideOf (vKind tiles.me.v[1])) (sideOf (vKind tiles.me.v[2])) 0 (.inf false) (.fin false 0 0) (5, 0)).1 = (5, 3) ∧
    (addProduct (sideOf (vKind tiles.me.v[1])) (sideOf (vKind tiles.me.v[2])) 0 (.inf false) (.fin false 3 0) (5, 1)).1 = (5, 1) ∧
    (addProduct (sideOf (vKind tiles.me.v[1])) (sideOf (vKind tiles.me.v[2])) 0 (.inf false) (.fin true 3 0) (5, 1)).1 = (5, 3) := by decide +kernel
/-- An ended fibre slot for which no block is due any more, whose rows end or not. -/
def fibred (rows : Nat) : State :=
  let pat : List Word := [0x4000, 0x100, BitVec.ofNat 64 rows, 0]
  { small with
    me := { runner with sq := runner.sq.set 2 { Stream.reset with st := .ended, fib := true, desc := 0x10007, pat := pat, tag := 7, slots := List.range 16, bound := some 0 } } }
theorem test_witness_Streams_rows :
    let s := fibred 0
    let x := s.me.sq[2]
    Fresh s ∧ s.wellKept ∧ x.fib = true ∧ x.size = none ∧ (∀ k, k < s.me.vl → blockOf x (x.pos + k) = none) ∧ x.bound = some 0 ∧ budgetOk s.me 1 x.tag = true ∧ roomFor 1 x.tag s = true ∧
    (let r := fibreRows { reqOf s.me with priv := x.priv } x.pat (x.pos + s.me.vl) s
     r.1.fault = none ∧ (countReads s.me.ctx r.1.reads r.2).me = s.me) :=
  ⟨by refine ⟨?_, ?_, ?_, ?_, ?_⟩ <;> decide +kernel, kept_of_check (by decide +kernel), rfl, rfl, by decide +kernel, rfl, by decide +kernel, by decide +kernel, by decide +kernel⟩
theorem test_witness_SequencerAndWalks_renamed :
    (let t := next (exec (.vadd 1 2 3 false false) lanesState)
     useOf (.vadd 1 2 3 false false) = some ⟨some .plane, [.v 2, .v 3], some (.v 1), true⟩ ∧ t.core.mesh = lanesState.core.mesh ∧ t.me.mesh = t.core.mesh ∧ t.me.sid = lanesState.me.sid ∧
       t.me.life = .running ∧ inHandler t.me = false ∧ t.me.pc ≠ lanesState.me.pc ∧ t.me.held = none ∧ (account (some (.vadd 1 2 3 false false)) lanesState t).core.window.length = 1) ∧
    isShared (.slot 1) = true ∧ isShared (.v 1) = false := by decide +kernel
/-- An access that came before the refresh that runs began. -/
theorem test_witness_DramEvents_underWay :
    let s := banking { bank0 with queue := [request 5] } 200
    let now := settleBank ⟨0, 1, 3, 2⟩ (ctrlOf ⟨0, 1, 3, 2⟩ s) 200 0 (bankAt ⟨0, 1, 3, 2⟩ s)
    s.dies[0].hbmDone[1] ≠ 0 ∧ now.refreshUntil ≠ none ∧ (underWay ⟨0, 1, 3, 2⟩ (request 5) s).isSome = true ∧ underWay ⟨0, 1, 3, 2⟩ { request 5 with at_ := 199 } s = none := by decide +kernel
theorem test_witness_ShadowWrites_fired :
    small.core.shFired = false ∧ ({ small.core with shFired := true } : Core).shFired = true ∧ (windowed [flight 0 0 1 none]).core.window ≠ [] ∧
    UnderWay 0 (windowed [flight 0 0 1 none]) := ⟨rfl, rfl, by decide, .inl (by decide)⟩
/-- An idle core that was powered down as planned, and one that was lost. -/
theorem test_witness_CorePower_idle :
    (let s : State := { dark with core := { dark.core with launch := none, lostAt := none } }
     s.wellKept ∧ s.core.pwr = 3 ∧ s.core.launch = none ∧ s.core.lostAt = none ∧ NewestSlot s.core (fun x => x.plc = s.core.plc) 1) ∧
    (({ dark.core with launch := none } : Core).lostAt ≠ none) := by
  refine ⟨⟨kept_of_check (by decide +kernel), rfl, rfl, rfl, ⟨⟨⟨rfl, rfl, rfl⟩, rfl⟩, fun j h => ?_⟩⟩, by decide⟩
  have e := dark_slot j h.1.1
  subst e
  exact Nat.le_refl _
/-- A line of the host window whose newest bytes stand in L2 alone. -/
def stale : State := { launching with hostStale := [(0x8000000000000 / 64, [1, 2, 3])] }
theorem test_witness_PackageLossTripsAndPoison_stale :
    stale.hostStale = [(0x8000000000000 / 64, [1, 2, 3])] ∧ (hostMemory stale).get 0x8000000000001 = 2 ∧ (∀ e ∈ stale.hostStale, (0x7FFFFFFFFFFFF : Nat) < e.1 * 64) ∧ stale.wellKept :=
  ⟨rfl, by decide +kernel, by decide +kernel, kept_of_check (by decide +kernel)⟩
theorem test_witness_ControlSpaceEvents_writes :
    (Writes 0x18 0x18 8 ∧ Writes 0x18 0x18 4 ∧ Writes 0x18 0x1C 4 ∧ ¬Writes 0x18 0x1C 8) ∧ small.dies[0].bootlock = false ∧ ({ Die.reset with bootlock := true } : Die).bootlock = true ∧
    (0x18 : Nat) / 8 * 8 ≠ 0x02000038 ∧ ((2 : Nat) ≠ 4 ∧ (2 : Nat) ≠ 8) ∧ (0x1A : Nat) % 4 ≠ 0 ∧ (written 0x1122334455667788 0xAABBCCDD 0x1C 4 = 0xAABBCCDD55667788) ∧
    256 ≤ fld (written (BitVec.ofNat 64 0x800) 0x100 0x08001000 8) 0 14 := by
  refine ⟨⟨.inl ⟨rfl, .inr rfl⟩, .inl ⟨rfl, .inl rfl⟩, .inr ⟨rfl, rfl⟩, ?_⟩, by decide +kernel, rfl, by decide, by decide, by decide, by decide, by decide⟩
  rintro (⟨h, -⟩ | ⟨-, h⟩)
  · exact absurd h (by decide)
  · exact absurd h (by decide)
theorem test_witness_StagedStart_late :
    let x : Die := { Die.reset with stage := 2, stageAt := 0, cycle := 2 ^ 32 + 1 }
    x.stageAt + 2 ^ 32 < x.cycle ∧ x.min = false ∧ 0 < x.stage ∧ x.stage < 4 ∧ ¬(({ x with cycle := 2 ^ 32 } : Die).stageAt + 2 ^ 32 < 2 ^ 32) := by decide
/-- A strand that asks for leave of three steps, on an island whose launch has a deficit. -/
def asking : State := { placed with me := { placed.me with leave := .asked 3 0 true } }
theorem test_witness_PlacementAndLeave_grants :
    (requestsOf 0 asking).length = 1 ∧ (launchAt 1 asking).isSome = true ∧ strandAt 0 0 asking = some asking.me ∧ (∀ z ∈ strandsOf 0 asking, z.sid = 0 → z = asking.me) ∧
    (dieAt (0 / 384) accepted).stage = 4 ∧ (strandAt 0 0 (islandPeriod 0 100000 asking)).any (fun y => y.leave == .granted true) = true ∧
    (strandAt 0 0 (islandPeriod 0 0 asking)).any (fun y => y.leave == .asked 3 0 true) = true := by decide +kernel
/-- RESUME of a record whose core holds a complete slot of its latest placement, and its image. -/
def resuming : State :=
  { commanded 5 #v[0x1000, 0, 0, 0] 1 with
    core := { launching.core with slots := small.core.slots.set 1 ⟨3, 0, .sealed, 0, 0, false⟩ }
    images := [⟨0, 1, { small.core with strands := [{ runner with pc := 0x80 }] }⟩] }
theorem resuming_slot : ∀ k : Fin 2, (coreAt 0 resuming).slots[k].st = .sealed → k = 1 := by decide +kernel
theorem test_witness_MailboxCommands_resumes :
    (let u := readSlot 0x1000 resuming
     recBad u.1 = false ∧ rectIdle u.1 u.2 = true ∧ rectCores u.1 = [0] ∧ hasSlot 0 u.2 = true ∧ (dieAt (0 / 384) u.2).stage = 4 ∧ (coreAt 0 u.2).pwr = 0 ∧ islandReady 0 u.2 = true ∧
       (coreAt 0 u.2).slots = (coreAt 0 resuming).slots ∧ (coreAt 0 u.2).plc = 0) ∧
    NewestSlot (coreAt 0 resuming) (fun x => x.plc = (coreAt 0 resuming).plc) 1 ∧ (coreAt 0 resuming).slots[0].gen ≠ (coreAt 0 resuming).slots[1].gen ∧
    (imageAt 0 1 resuming).any (fun img => (img.core.strands.find? fun z => z.sid == 0).any fun y => y.life == .running) = true ∧
    (let t := next (exec .mailboxComplete resuming)
     t.mailbox.ret = 1 ∧ t.me.pc = 0x80 ∧ t.me.life = .running ∧ fld t.me.rcause 0 8 = 4) ∧ ¬Resumable 0 small ∧ HasCore 0 resuming ∧ resuming.wellKept ∧
    ((resuming.core :: resuming.cores).Pairwise fun x y => x.mesh ≠ y.mesh) := by
  refine ⟨by decide +kernel, ⟨⟨⟨rfl, rfl, rfl⟩, rfl⟩, fun j h => ?_⟩, by decide +kernel, by decide +kernel, by decide +kernel, ?_, .inl rfl, kept_of_check (by decide +kernel), by simp [resuming, commanded, launching, small]⟩
  · have e := resuming_slot j h.1.1
    subst e
    exact Nat.le_refl _
  · rintro ⟨-, k, h⟩
    have none_ : ∀ j : Fin 2, (coreAt 0 small).slots[j].st ≠ .sealed := by decide +kernel
    exact none_ k h.1.1.1
theorem test_witness_MailboxCommands_flush :
    let s : State := { commanded 8 #v[0, 0, 0, 0] 1 with
      cntbase := 0x8000
      dies := (commanded 8 #v[0, 0, 0, 0] 1).dies.set 0 { (commanded 8 #v[0, 0, 0, 0] 1).dies[0] with counts := [⟨5, #v[1, 0, 0, 0, 0, 0, 9]⟩] } }
    s.wellKept ∧ s.mailbox.running = 8 ∧ s.cntbase ≠ 0 ∧ (s.dies[0].counts.Pairwise fun x y => x.ctx ≠ y.ctx) ∧ wordAt (next (exec .mailboxComplete s)) (0x8000 + 64 * 5 + 48) 8 = 9 ∧
    hostMemory s = s.mem :=
  ⟨kept_of_check (by decide +kernel), rfl, by decide, by decide +kernel, by decide +kernel, by decide +kernel⟩
theorem test_witness_HostAccesses_stale :
    regionOf 0x8000000000000 = .host ∧ (next (exec (.cxlCacheSnoop 0x8000000000000 false) stale)).hostStale = [] ∧ ({ launching with hostBad := true } : State).hostBad = true ∧
    (next (exec (.hostMemRead 0x100 1) { launching with hostBad := true })).hostBad = false ∧ (next (exec (.hostMemRead 0x2003FFFFFFF 2) { launching with hostBad := true })).hostBad = false := by
  decide +kernel
/-- Publications that arrive: at a good place, at a misaligned one, in the window region, and on a word with a reserved bit. -/
theorem test_witness_ChainPorts_publications :
    let rq := arrivalReq 0 0 receiving
    let r := arrivalTarget rq .atomic 8 0x100 receiving
    r.1.toOption = some (.mem 0x100 .wb) ∧ ownMemory 0x100 = true ∧ lwReserved (BitVec.ofNat 64 (wordAt r.2 0x100 8)) = false ∧ fld (BitVec.ofNat 64 (wordAt r.2 0x108 8)) 48 15 = 0 ∧
    keptCheck r.2 = true ∧ (0x108 : Word).toNat % 16 ≠ 0 ∧ (fld (0x01FFFF0000000100 : Word) 57 7 = 0 ∧ inWindow (0x01FFFF0000000100 : Word).toNat = true) ∧
    lwReserved (BitVec.ofNat 64 0x50100000000) = true ∧ errOf (arrivalTarget rq .atomic 8 0x0200000000000000 receiving).1 = some 1 ∧
    (next (exec (.remoteAccessArrival 0 false ⟨0, 0x100, .pubhw true 7⟩) receiving)).replies = [.done] ∧
    wordAt (next (exec (.remoteAccessArrival 0 false ⟨0, 0x100, .pubhw true 7⟩) receiving)) 0x108 8 = 2 ^ 63 + 7 ∧
    (next (exec (.remoteAccessArrival 0 false ⟨0, 0x108, .pubhw true 7⟩) receiving)).replies = [.illegal] := by decide +kernel
/-- A reply that an instruction waits for and one that none does; an AMO of four bytes and a misaligned store that arrive. -/
theorem test_witness_ChainPorts_waited :
    awaited (call none) { small with me := { runner with call := some 4 }, remote := [call none] } = true ∧ awaited (call none) { small with remote := [call none] } = false ∧
    (arrivalTarget (arrivalReq 0 0 receiving) .atomic 4 0x104 receiving).1.toOption = some (.mem 0x104 .wb) ∧
    wordAt (next (exec (.remoteAccessArrival 0 false ⟨0, 0x104, .amo 0 false 4 9 0⟩) receiving)) 0x104 4 = 9 ∧
    (next (exec (.remoteAccessArrival 0 false ⟨0, 0x101, .store [1, 2, 3, 4]⟩) receiving)).mem.getN 0x101 4 = [1, 2, 3, 4] ∧
    (((List.range 4).map fun k => ((0x101 + k, MemType.wb) : Nat × MemType)).Pairwise fun x y => x.1 ≠ y.1) := by decide +kernel

/-! ### Poison, parts of instructions, and the other clauses that were widened -/

theorem firstPoison_of {srcs earlier later : List (Fin 32 × VReg)} {es before after : List Nat} {e : Nat} {r : Fin 32} {x : VReg} {m : PoisonMark} (he : es = before ++ e :: after)
    (hb : NoPoison srcs before) (hs : srcs = earlier ++ (r, x) :: later) (hr : NoPoison earlier [e]) (hm : x.poison.find? (fun p => p.seg == e / 64) = some m) : FirstPoison srcs es e r m :=
  ⟨before, after, he, hb, earlier, later, x, hs, hr, hm⟩
theorem noPoison_nil {srcs : List (Fin 32 × VReg)} : NoPoison srcs [] := fun _ h => absurd h List.not_mem_nil
theorem noPoison_none {es : List Nat} : NoPoison [] es := fun _ _ _ h => absurd h List.not_mem_nil
/-- A register with a poisoned word. -/
def spoil (r : Fin 32) (m : PoisonMark) (s : State) : State := { s with me := { s.me with v := s.me.v.set r { s.me.v[r] with poison := [m] } } }
def mark0 : PoisonMark := ⟨0, 0, 0x44⟩
def mark1 : PoisonMark := ⟨0, 1, 0x44⟩
/-- An instruction does what Lanes say with room for it, and consumes poison among some elements. -/
def Poisoned (l : Lanes) (es : List Nat) (s : State) : Prop := l.ok = true ∧ budgetOk s.me l.dest l.tag = true ∧ roomFor l.dest l.tag s = true ∧ ∃ e r m, FirstPoison l.srcs es e r m

theorem test_spoil_begun : Fresh (spoil 2 mark0 lanesState) ∧ Fresh (spoil 5 mark0 lanesState) := by
  refine ⟨?_, ?_⟩ <;> refine ⟨?_, ?_, ?_, ?_, ?_⟩ <;> decide +kernel
theorem test_witness_VectorIntegerResults_poison :
    ∃ l, integerLanes (spoil 2 mark0 lanesState) (.vadd 1 2 3 false true) = some l ∧ Poisoned l (toDo l.act (spoil 2 mark0 lanesState)) (spoil 2 mark0 lanesState) :=
  ⟨_, rfl, by decide +kernel, by decide +kernel, by decide +kernel, 0, 2, mark0,
    firstPoison_of (before := []) (after := [1, 2, 3, 4, 5, 6, 7]) (by decide +kernel) noPoison_nil (earlier := []) rfl noPoison_none (by decide +kernel)⟩
theorem test_witness_VectorCodeResults_poison :
    ∃ l, codeLanes (spoil 2 mark0 lanesState) (.vsel 1 3 2 0) = some l ∧ Poisoned l (toDo l.act (spoil 2 mark0 lanesState)) (spoil 2 mark0 lanesState) :=
  ⟨_, rfl, by decide +kernel, by decide +kernel, by decide +kernel, 0, 2, mark0,
    firstPoison_of (before := []) (after := [1, 2, 3, 4, 5, 6, 7]) (by decide +kernel) noPoison_nil (earlier := [(3, lanesState.me.v[3])]) rfl (by unfold NoPoison; decide +kernel) (by decide +kernel)⟩
theorem test_witness_VectorFloatResults_poison :
    ∃ l, floatLanes (spoil 5 mark0 lanesState) (.vfadd 6 5 5 false false) = some l ∧ Poisoned l (toDo l.act (spoil 5 mark0 lanesState)) (spoil 5 mark0 lanesState) :=
  ⟨_, rfl, by decide +kernel, by decide +kernel, by decide +kernel, 0, 5, mark0,
    firstPoison_of (before := []) (after := [1, 2, 3, 4, 5, 6, 7]) (by decide +kernel) noPoison_nil (earlier := []) rfl noPoison_none (by decide +kernel)⟩
theorem test_witness_WholeRegisterResults_poison :
    ∃ l es, wholeLanes (spoil 2 mark0 lanesState) (.vscan 1 2 true true) = some (l, es) ∧ Poisoned l es (spoil 2 mark0 lanesState) :=
  ⟨_, _, rfl, by decide +kernel, by decide +kernel, by decide +kernel, 0, 2, mark0,
    firstPoison_of (before := []) (after := [1, 2, 3, 4, 5, 6, 7]) (by decide +kernel) noPoison_nil (earlier := []) rfl noPoison_none (by decide +kernel)⟩
/-- Poison of elements from VL on, and of masked-off ones, is not consumed. -/
theorem test_poison_not_consumed :
    NoPoison (named (spoil 2 mark1 lanesState) [2, 3]) (toDo (active lanesState.me) lanesState) ∧
    (let s := spoil 2 mark0 { lanesState with me := { lanesState.me with mode := 0x08 } }
     NoPoison (named s [2, 3]) (toDo (active s.me) s) ∧ (next (exec (.vadd 1 2 3 false false) s)).me.tcause = 0 ∧ (next (exec (.vadd 1 2 3 false false) s)).me.pc = 4) ∧
    (let t := next (exec (.vadd 1 2 3 false false) (spoil 2 mark0 lanesState))
     fld t.me.tcause 0 8 = 7 ∧ t.me.trec[2] = 0x44 ∧ t.me.vflags = 0x800 ∧ t.me.v[1] = lanesState.me.v[1]) := by
  unfold NoPoison
  decide +kernel
/-- Two element groups of 64, the second of them poisoned. -/
def grouped : State := spoil 2 mark1 { lanesState with me := { lanesState.me with vl := 128 }, core := { lanesState.core with alc := 64 } }
theorem test_witness_VectorIntegerResults_group :
    Begun grouped ∧ groupStart grouped 64 = 64 ∧ FirstPoison (named grouped [2, 3]) (toDo (active grouped.me) grouped) 64 2 mark1 ∧
    (let t := next (exec (.vadd 1 2 3 false false) grouped)
     t.me.tsix = 64 ∧ elem t.me.v[1] 0 = 12 ∧ t.me.held.isSome = true) :=
  ⟨⟨by decide +kernel, by decide +kernel, by decide +kernel, by decide +kernel⟩, by decide +kernel,
    firstPoison_of (before := List.range 64) (after := (List.range 63).map (· + 65)) (by decide +kernel) (by unfold NoPoison; decide +kernel) (earlier := []) rfl noPoison_none (by decide +kernel),
    by decide +kernel⟩
/-- The second part of an instruction that stopped at element 64 with the mapping of v1 held. -/
def resumed : State :=
  { lanesState with me := { lanesState.me with vl := 128, six := 64, held := some ⟨.vec 1 (reg 0x0003 [9, 9]) [], lanesState.me.pc, 0⟩ } }
theorem test_witness_resumption :
    Begun resumed ∧ resumes 1 resumed.me = true ∧ roomFor 1 0x0003 resumed = true ∧
    (integerLanes resumed (.vadd 1 2 3 false true)).any (fun l => l.ok && budgetOk resumed.me l.dest l.tag && clean l.srcs) = true ∧
    (codeLanes resumed (.vsel 1 2 3 0)).any (fun l => l.ok && budgetOk resumed.me l.dest l.tag && clean l.srcs) = true ∧
    (let t := next (exec (.vadd 1 2 3 false false) resumed)
     codes 2 t.me.v[1] = [1, 2] ∧ t.me.six = 0 ∧ t.me.held = none ∧ t.me.pc = 4) := by
  refine ⟨⟨?_, ?_, ?_, ?_⟩, ?_, ?_, ?_, ?_, ?_⟩ <;> decide +kernel
/-- A float instruction that goes on at element 64. -/
theorem test_witness_VectorFloatResults_resumption :
    let s : State := { lanesState with me := { lanesState.me with vl := 128, six := 64 } }
    Begun s ∧ (floatLanes s (.vfadd 6 5 5 false false)).any (fun l => l.ok && budgetOk s.me l.dest l.tag && clean l.srcs && roomFor l.dest l.tag s) = true :=
  ⟨⟨by decide +kernel, by decide +kernel, by decide +kernel, by decide +kernel⟩, by decide +kernel⟩
theorem test_witness_MaskResults_poison :
    FirstPoison (named (spoil 2 mark0 lanesState) [2, 3]) (toDo (active lanesState.me) lanesState) 0 2 mark0 ∧ NoPoison (named lanesState [2, 3]) (toDo (active lanesState.me) lanesState) ∧
    isInt (vKind (vSrc 2 lanesState)) = true ∧ isInt (vKind (vSrc 3 lanesState)) = true :=
  ⟨firstPoison_of (before := []) (after := [1, 2, 3, 4, 5, 6, 7]) (by decide +kernel) noPoison_nil (earlier := []) rfl noPoison_none (by decide +kernel), by unfold NoPoison; decide +kernel,
    by decide +kernel, by decide +kernel⟩
theorem test_witness_ReductionResults_poison :
    ∃ srcs d w, wholeResult (spoil 2 mark0 lanesState) (.vred 1 2 0) = some (true, srcs, d, w) ∧ ∃ e r m, FirstPoison srcs (actives (spoil 2 mark0 lanesState)) e r m :=
  ⟨_, _, _, rfl, 0, 2, mark0, firstPoison_of (before := []) (after := [1, 2, 3, 4, 5, 6, 7]) (by decide +kernel) noPoison_nil (earlier := []) rfl noPoison_none (by decide +kernel)⟩
theorem test_witness_ReductionResults_clean :
    ∃ srcs d w, wholeResult lanesState (.vdot 1 2 3) = some (true, srcs, d, w) ∧ NoPoison srcs (actives lanesState) :=
  ⟨_, _, _, rfl, noPoison_of_clean (by decide +kernel)⟩
theorem test_witness_ScaleSlots_poison :
    (∃ srcs es t, slotResult (spoil 5 mark0 lanesState) (.qstat 1 5 3) = some (true, srcs, es, t) ∧ ∃ e r m, FirstPoison srcs es e r m) ∧
    (∃ e r m, FirstPoison (softLanes (spoil 5 mark0 lanesState) 6 5 2 false 0).srcs ((List.range 8).filter (included false 0 (spoil 5 mark0 lanesState))) e r m) ∧
    NoPoison (softLanes lanesState 6 5 2 false 0).srcs ((List.range 8).filter (included false 0 lanesState)) :=
  ⟨⟨_, _, _, rfl, 0, 5, mark0, firstPoison_of (before := []) (after := [1, 2, 3, 4, 5, 6, 7]) (by decide +kernel) noPoison_nil (earlier := []) rfl noPoison_none (by decide +kernel)⟩,
    ⟨0, 5, mark0, firstPoison_of (before := []) (after := [1, 2, 3, 4, 5, 6, 7]) (by decide +kernel) noPoison_nil (earlier := []) rfl noPoison_none (by decide +kernel)⟩,
    noPoison_of_clean (by decide +kernel)⟩
/-- A source of a shift whose planes have their places. -/
def mapped : State := { lanesState with me := { lanesState.me with maps := lanesState.me.maps.set 2 [3, 4, 5, 6] } }
/-- A shift from SIX 0 whose source shows planes that have a place, and one from element 64. -/
theorem test_witness_VectorShifts_planes :
    (let s : State := { lanesState with me := { lanesState.me with vl := 128, six := 64 } }
     Begun s ∧ roomFor 1 0x0003 s = true ∧ modeGON s.me.mode = false ∧ budgetOk s.me 1 0x0003 = true) ∧
    (let s : State := { crowd lanesState with me := { lanesState.me with vl := 128, six := 64 } }
     Begun s ∧ roomFor 1 0x0003 s = false) ∧
    (shownPlane (vSrc 2 mapped) 1 0 = none ∧ shownPlane (vSrc 2 mapped) 1 1 = some 0 ∧ usedPlanes mapped.me = [3, 4, 5, 6]) ∧
    renumberedPlaces 0x0003 2 1 mapped.me.v[2] mapped = [none, some 3, some 4, some 5] ∧ FreePlane 767 lanesState :=
  ⟨⟨⟨by decide +kernel, by decide +kernel, by decide +kernel, by decide +kernel⟩, by decide +kernel, by decide +kernel, by decide +kernel⟩,
    ⟨⟨by decide +kernel, by decide +kernel, by decide +kernel, by decide +kernel⟩, crowd_room (s := { lanesState with me := { lanesState.me with vl := 128, six := 64 } }) (by decide +kernel) rfl (by decide)⟩, by decide +kernel, by decide +kernel, by decide, by decide +kernel, by decide +kernel⟩

/-! Poison and parts of memory instructions. -/

/-- A strand that goes on at element 64 of 66. -/
def movingOn : State := { moving with me := { moving.me with vl := 66, six := 64 } }
def movingF (s : State) : Nat → State → Except (Word × XFault) Loaded × State := loadElement (vSrc 2 s) false 0x100 0 0 s.me.six
def onMisses : State := raiseMisses .vload (elementVas false 0x100 0 (vWidth (vSrc 2 movingOn)) movingOn) movingOn
theorem test_witness_VectorLoads_resumption :
    Begun movingOn ∧ lastOf movingOn = 66 ∧ chain 64 (movingF movingOn) onMisses 64 = onMisses ∧ onMisses.me = movingOn.me ∧
    (∃ x, Accesses (movingF movingOn) 64 66 (chain 64 (movingF movingOn) onMisses) x ∧ SameStrand 64 66 (chain 64 (movingF movingOn) onMisses) onMisses) ∧
    roomFor 2 0x0003 movingOn = true ∧ (next (exec (.vld 2 9 0 0 false) movingOn)).me.pc = 4 :=
  ⟨⟨by decide +kernel, by decide +kernel, by decide +kernel, by decide +kernel⟩, by decide +kernel, rfl, by decide +kernel, accesses_of_chain ⟨none, none, []⟩ (by decide +kernel), by decide +kernel,
    by decide +kernel⟩
/-- The index of a gather, or of a scatter, is poisoned. -/
def lost : State := spoil 3 mark0 moving
theorem lost_index : FirstPoison (named lost [3]) (toDo (active lost.me) lost) 0 3 mark0 :=
  firstPoison_of (before := []) (after := [1]) (by decide +kernel) noPoison_nil (earlier := []) rfl noPoison_none (by decide +kernel)
theorem test_witness_VectorLoads_poison :
    Begun lost ∧ lost.me.six = 0 ∧ gatherOk (vSrc 2 lost) (vSrc 3 lost) (gR 11 lost) = true ∧ budgetOk lost.me 2 (vSrc 2 lost).tag = true ∧ roomFor 2 (vSrc 2 lost).tag lost = true ∧
    FirstPoison (named lost [3]) (toDo (active lost.me) lost) 0 3 mark0 ∧ 0 < max lost.core.alc 64 ∧
    (∃ x, Accesses (gatherElement (vSrc 2 lost) (vSrc 3 lost) 0x100 64) 0 1 (chain 0 (gatherElement (vSrc 2 lost) (vSrc 3 lost) 0x100 64) (gatherMisses lost 0x100)) x ∧
      SameStrand 0 1 (chain 0 (gatherElement (vSrc 2 lost) (vSrc 3 lost) 0x100 64) (gatherMisses lost 0x100)) (gatherMisses lost 0x100)) ∧ (gatherMisses lost 0x100).me = lost.me :=
  ⟨⟨by decide +kernel, by decide +kernel, by decide +kernel, by decide +kernel⟩, by decide +kernel, by decide +kernel, by decide +kernel, by decide +kernel, lost_index, by decide,
    accesses_of_chain (⟨none, none, []⟩, none) (by decide +kernel), by decide +kernel⟩
/-- A store of 65 elements in groups of 64, the last poisoned. -/
def parting : State := spoil 1 mark1 { moving with me := { moving.me with vl := 65 }, core := { moving.core with alc := 64 } }
def partingF : Nat → State → Except (Word × XFault) Unit × State := storeElement (vSrc 1 parting) false 0x100 0 0
def partingAt : State := chain 0 partingF (raiseMisses .vstore (elementVas false 0x100 0 (vWidth (vSrc 1 parting)) parting) parting) 64
def partingOn : State := { partingAt with me := { partingAt.me with six := 64, held := some ⟨.none, parting.me.pc, 0⟩ } }
theorem test_witness_VectorStores_poison :
    Begun parting ∧ FirstPoison (named parting [1]) (toDo (active parting.me) parting) 64 1 mark1 ∧ groupStart parting 64 = 64 ∧ parting.me.held = none ∧
    ((List.range 64).all fun k => (partingF k (chain 0 partingF (raiseMisses .vstore (elementVas false 0x100 0 (vWidth (vSrc 1 parting)) parting) parting) k)).1.toOption.isSome) = true ∧
    (partingAt.me = { parting.me with vwq := partingAt.me.vwq } ∧ partingAt.quota = none) ∧
    ((partingF 64 partingOn).1.toOption.isSome = true ∧ (partingF 64 partingOn).2.me.vl = parting.me.vl) ∧ NoPoison (named moving [1]) (toDo (active moving.me) moving) ∧
    (let t := next (exec (.vst 1 9 0 0 false) parting)
     fld t.me.tcause 0 8 = 7 ∧ t.me.tsix = 64 ∧ t.me.vwq.length = 64) :=
  ⟨⟨by decide +kernel, by decide +kernel, by decide +kernel, by decide +kernel⟩,
    firstPoison_of (before := List.range 64) (after := []) (by decide +kernel) (by unfold NoPoison; decide +kernel) (earlier := []) rfl noPoison_none (by decide +kernel),
    by decide +kernel, rfl, by decide +kernel, ⟨by decide +kernel, by decide +kernel⟩, ⟨by decide +kernel, by decide +kernel⟩, by unfold NoPoison; decide +kernel, by decide +kernel⟩
def lostScatter : Nat → State → Except (Word × XFault) (List Write) × State := scatterElement (vSrc 1 lost) (vSrc 3 lost) 0x100 64
theorem test_witness_VectorStores_scatterPoison :
    gatherOk (vSrc 1 lost) (vSrc 3 lost) 64 = true ∧ FirstPoison (named lost [3]) (toDo (active lost.me) lost) 0 3 mark0 ∧
    (∃ x, Accesses lostScatter 0 1 (chain 0 lostScatter (scatterMisses lost)) x ∧ SameStrand 0 1 (chain 0 lostScatter (scatterMisses lost)) (scatterMisses lost)) ∧ (scatterMisses lost).me = lost.me ∧
    (let s := spoil 1 mark0 moving
     let stored := (toDo (active s.me) s).filter fun k => testIndex 64 (elem (vSrc 3 s) k) == .inside
     stored = 0 :: [1] ∧ NoPoison (named s [3]) (toDo (active s.me) s)) :=
  ⟨by decide +kernel, lost_index, accesses_of_chain [] (by decide +kernel), by decide +kernel, by decide +kernel, by unfold NoPoison; decide +kernel⟩

/-! Poison of the array. -/

/-- The tiles with a poisoned word of cells. -/
def spoiltTiles (s : State) : State := { s with core := { s.core with cellPoison := [⟨1, 0, 0, 0x44⟩] } }
theorem firstCell_of {d row col : Nat} {p : Word} {cells before after : List (Nat × Nat)} {s : State} (hc : cells = before ++ (row, col) :: after) (hb : ∀ c ∈ before, CellClean d c.1 c.2 s)
    (hp : (s.core.cellPoison.find? fun m => m.tile == d && m.row == row && m.word == col / 64).map (fun m => m.producer) = some p) : FirstCell d cells row col p s := by
  obtain ⟨m, hm, rfl⟩ := Option.map_eq_some_iff.mp hp
  exact ⟨before, after, hc, hb, m, hm, rfl⟩
def spoiltSlices : State := spoil 1 ⟨3, 0, 0x44⟩ tiles
theorem test_witness_OuterProducts_poison :
    FirstOfSlices (slicesOf (.opa 1 1 2 1)) 16 1 ⟨3, 0, 0x44⟩ spoiltSlices ∧ Fresh spoiltSlices ∧ Granted spoiltSlices ∧ (outerOf spoiltSlices (.opa 1 1 2 1)).any (fun r => r.2.1) = true ∧
    (let t := next (exec (.opa 1 1 2 1) spoiltSlices)
     fld t.me.tcause 0 8 = 7 ∧ t.me.trec[1] = 16) := by
  refine ⟨⟨[], [1], [(2, [1])], rfl, by decide +kernel, by decide +kernel, ?_, fun y hy => absurd hy List.not_mem_nil⟩, ?_, rfl, by decide +kernel, by decide +kernel⟩
  · intro y hy j hj hlt
    have h : ∀ y ∈ slicesOf (.opa 1 1 2 1), ∀ j ∈ ofSlices spoiltSlices y.2, 16 ≤ j := by decide +kernel
    exact absurd (h y hy j hj) (by omega)
  · refine ⟨?_, ?_, ?_, ?_, ?_⟩ <;> decide +kernel
/-- OPA.ACA on a column of tile 1 with a poisoned cell. -/
theorem test_witness_OuterProducts_column :
    CleanSlices (slicesOf (.opaAca 0 1 2 0 1)) (spoiltTiles tiles) ∧ FirstCell 1 ((List.range 16).map fun r => (r, 1)) 0 1 0x44 (spoiltTiles tiles) ∧
    columnOf (spoiltTiles tiles) (.opaAca 0 1 2 0 1) = (1, (List.range 16).map fun r => (r, 1)) ∧ (outerOf (spoiltTiles tiles) (.opaAca 0 1 2 0 1)).any (fun r => r.2.1) = true :=
  ⟨fun x hx => noPoison_of_clean (List.all_eq_true.mp (show (slicesOf (.opaAca 0 1 2 0 1)).all (fun x => clean [sliceSrc x.1 x.2 (spoiltTiles tiles)]) = true by decide +kernel) x hx),
    firstCell_of (before := []) (after := (List.range 15).map fun r => (r + 1, 1)) (by decide +kernel) (fun _ h => absurd h List.not_mem_nil) (by decide +kernel), by decide +kernel, by decide +kernel⟩
/-- A fold that consumes a poisoned cell. -/
def folding : State := let s := spoiltTiles (opened (some 1) 3 1 5); { s with core := { s.core with stage := s.core.stage.set 0 5 } }
theorem test_witness_OuterProducts_fold : FirstCell 1 (contributing (staged folding)) 0 0 0x44 folding ∧ folding.core.owner = some (1 : AccN).1 := by
  refine ⟨firstCell_of (before := []) (after := (contributing (staged folding)).tail) ?_ (fun _ h => absurd h List.not_mem_nil) (by decide +kernel), rfl⟩
  have h : (contributing (staged folding)).head? = some (0, 0) := by decide +kernel
  obtain ⟨l, hl⟩ := List.head?_eq_some_iff.mp h
  rw [hl]
  rfl
theorem test_witness_AccumulatorInstructions_poison :
    FirstCell 1 (squareCells 16) 0 0 0x44 (spoiltTiles tiles) ∧ FirstCell 1 ((List.range 16).map fun e => (0, e)) 0 0 0x44 (spoiltTiles tiles) ∧
    ((List.range (min tiles.me.vl tiles.me.mvl)).filter (active tiles.me)).map (fun e => ((0, e) : Nat × Nat)) = (List.range 16).map (fun e => (0, e)) ∧
    okVal (closeIf (fun o => o == 1) (spoiltTiles tiles)) = some () ∧
    (let s := spoil 1 ⟨3, 0, 0x44⟩ tiles
     FirstPoison [scoutSrc 1 1 s, scoutSrc 1 2 s] (List.range s.me.vl) 0 1 ⟨3, 0, 0x44⟩) ∧ NoPoison [scoutSrc 1 1 tiles, scoutSrc 1 2 tiles] (List.range tiles.me.vl) :=
  ⟨firstCell_of (before := []) (after := (squareCells 16).tail) (by decide +kernel) (fun _ h => absurd h List.not_mem_nil) (by decide +kernel),
    firstCell_of (before := []) (after := (List.range 15).map fun e => (0, e + 1)) (by decide +kernel) (fun _ h => absurd h List.not_mem_nil) (by decide +kernel), by decide +kernel, by decide +kernel,
    firstPoison_of (before := []) (after := (List.range 31).map (· + 1)) (by decide +kernel) noPoison_nil (earlier := []) rfl noPoison_none (by decide +kernel), noPoison_of_clean (by decide +kernel)⟩
theorem test_witness_VectorStores_drainPoison :
    let s := spoiltTiles tiles
    let cells := (squareCells 16).map fun c => if ddTR 0x800000001F then (c.2, c.1) else c
    (endState (closeIf (fun o => o == 1) s)).me.mvl = 16 ∧ cells[0]? = some (0, 0) ∧ FirstCell 1 cells 0 0 0x44 (endState (closeIf (fun o => o == 1) s)) ∧ ddCMP 0x800000001F = false ∧
    (drainElement 1 0x800000001F 0x100 (endState (closeIf (fun o => o == 1) s)) 0 s).1.toOption.isSome = true ∧ fld (next (exec (.drain 1 9 12) (withG [(9, 0x100), (12, 0x800000001F)] s))).me.tcause 0 8 = 7 :=
  ⟨by decide +kernel, by decide +kernel, firstCell_of (before := []) (after := ((squareCells 16).map fun c => if ddTR 0x800000001F then (c.2, c.1) else c).tail) (by decide +kernel)
    (fun _ h => absurd h List.not_mem_nil) (by decide +kernel), by decide +kernel, by decide +kernel, by decide +kernel⟩


/-! Stores that leave a core, copies, streams and the events of the part. -/

/-- A strand with one store in its queue, whose page leads through a leaf. -/
def storeTo (leaf : Word) (va : Word) : State :=
  { small with
    me := { runner with stq := [⟨va, 8, 7, 0, false, List.replicate 8 none, false, false, false⟩] }
    core := { small.core with tlb := [{ openPage 0 0 with leaf := leaf, desc := 3 }] } }
def leafTarget (leaf : Word) (va : Word) : Option Target := (translate { reqOf (storeTo leaf va).me with priv := false } .store 8 va.toNat (taken (storeTo leaf va))).1.toOption
theorem test_witness_WritesOnTheirWay_leaves :
    leafTarget openLeaf 0x100 = some (.mem 0x100 .wb) ∧ leafTarget 0x71F 0x100 = some (.mem 0x100 .ctl) ∧ regionOf 0x100 ≠ .control ∧
    leafTarget (0x40000000000 + 0x71F) 0x100 = some (.mem 0x40000000100 .ctl) ∧ regionOf 0x40000000100 = .control ∧ leafTarget openLeaf 0x01FFFF0000000100 = some (.scratch 0 0x100) ∧
    small.core.scratch.wf = true ∧ keptCheck (storeTo openLeaf 0x100) = true ∧
    keptCheck (translate { reqOf (storeTo openLeaf 0x100).me with priv := false } .store 8 0x100 (taken (storeTo openLeaf 0x100))).2 = true ∧
    (translateStore (storeTo openLeaf 0x01FFFF0000000100)).core.scratch.get 0x100 = 7 ∧ (translateStore (storeTo 0x71F 0x100)).mem.get 0x100 = 7 ∧
    (translateStore (storeTo openLeaf 0x100)).core.out.map (fun w => w.wb) = [true] := by decide +kernel
/-- A store that follows a faulting one on the same bytes is deferred, whether the record waits or is gone. -/
def faulting : State :=
  { small with me := { runner with stq := [⟨0x0200000000000000, 8, 7, 0, false, List.replicate 8 none, false, false, false⟩, ⟨0x0200000000000004, 4, 7, 4, false, List.replicate 4 none, false, false, false⟩] } }
theorem test_witness_WritesOnTheirWay_deferred :
    (let s := translateStore faulting
     s.me.sfq.length = 1 ∧ (s.me.stq.map fun q => q.defer) = [true] ∧
       (let t := translateStore { s with me := { s.me with sfq := [] } }
        t.me.sfq.map (fun r => r.w0.getLsbD 15) = [true] ∧ t.me.stq = [])) ∧ faulting.me.sfq = [] := by decide +kernel
/-- A misaligned store through WB leaves, and a vector write of WB lines at its core, which holds a copy of the line. -/
def copied (line vline : Nat) : L1Copy := ⟨line, 0, vline, 0, List.replicate 64 0⟩
theorem test_witness_WritesOnTheirWay_wb :
    (let s := storeTo openLeaf 0x101
     (translateBytes { reqOf s.me with priv := false } .store 0x101 8 (taken s)).1.toOption = some ((List.range 8).map fun k => .mem (0x101 + k) .wb) ∧ keptCheck s = true) ∧
    (let w : Write := ⟨0, .vector, 0, true, [⟨.mem 0x100, 1, 0xFF, none⟩, ⟨.mem 0x101, 2, 0xFF, none⟩], false⟩
     let s : State := { small with me := { runner with vwq := [w] }, core := { small.core with copies := [copied 4 4] } }
     s.me.vwq[0]? = some w ∧ (w.bytes.Pairwise fun x y => x.loc ≠ y.loc) ∧ keptCheck s = true ∧
       ((next (exec (.accessPerform (.atCore 0 0 0)) s)).core.copies.map fun c => c.data.take 3) = [[1, 2, 0]]) := by decide +kernel
/-- A latch word at 0x100, copies of an unbound line and of a line bound to the latch or to another, and the bindings of the context. -/
def acquiring (bs : List Binding) : State :=
  { withG [(2, 0x100)] small with
    me := { (withG [(2, 0x100)] small).me with launch := 1 }
    core := { small.core with copies := [copied 8 8, copied 16 16, copied 24 24] }
    launches := [{ newLaunch 1 [] 0 0 0 none with bindings := bs }] }
theorem test_latches_acquire :
    ((next (exec (.acq 2) (acquiring []))).core.copies.map fun c => c.line) = [] ∧
    ((next (exec (.acq 2) (acquiring [⟨0, 0x400, 0x43F, 0x100, 1⟩, ⟨1, 0x600, 0x63F, 0x108, 1⟩]))).core.copies.map fun c => c.line) = [8, 24] ∧
    ((next (exec (.acqObs 1 2) (acquiring [⟨1, 0x600, 0x63F, 0x108, 1⟩]))).core.copies.map fun c => c.line) = [24] ∧
    ((next (exec (.acq 2) (acquiring [⟨0, 0x400, 0x43F, 0x100, 0⟩]))).core.copies.map fun c => c.line) = [8, 16, 24] := by decide +kernel
/-- A tag word that no register may take, on a command that has landed. -/
theorem test_witness_TagInstructions_illegal :
    let g : TagReg := { TagReg.reset with st := .landed, cmd := some { landedCmd with w := #v[0x100, 0, 4 + 7 * 2 ^ 32 + 0x21 * 2 ^ 42, 0] } }
    let s := withTag g small
    tagIllegal (BitVec.ofNat 16 (fld (g.cmd.getD landedCmd).w[2] 42 10)) = true ∧ keptCheck s = true ∧ s.core.tags[3].st = .landed ∧ (next (exec (.commit 3) s)).me.tcause = 2 := by decide +kernel
/-- The copy whose chunk waits for its bank, and the same once the bank has served it. -/
def waiting : State := next (exec (.copyChunk 0 3 0) { served with dies := served.dies.set 0 { served.dies[0] with cycle := 200, hbmDone := #v[1, 1] } })
def arrived : State := next (exec (.dramAccess ⟨0, 0, 4, 0⟩) waiting)
theorem test_witness_Copies_waits :
    (let u := noteWaits (.engine 0 3) (nextTurn 0 served) (chunkMoved servedCmd servedRq [] 0 0 16 (nextTurn 0 served)).2
     waitsAtBank (fun x => x == .engine 0 3) u = true) ∧
    (commandOf 3 waiting.core).isSome = true ∧ waiting.core.tags[3].moved.any (fun d => decide (d.chunk = 0)) = true ∧ waiting.core.tags[3].st = .busy ∧
    waitsAtBank (fun x => x == .engine 0 3) waiting = true ∧ keptCheck waiting = true ∧ waiting.core.pwr = 0 ∧ arrived.core.tags[3].moved = waiting.core.tags[3].moved ∧
    waitsAtBank (fun x => x == .engine 0 3) arrived = false ∧ servedTag 0 arrived = some 3 ∧ (0 : Nat) < chunkCount (cmdN servedCmd) ∧
    (next (exec (.copyChunk 0 3 0) arrived)).core.tags[3].st = .ready := by decide +kernel
/-- What a chunk from lines that no bank serves has read lands at once: a copy from scratch. -/
theorem test_witness_Copies_atOnce :
    let s := withG [(4, 0x01FFFF0000000100)] copying
    let t := next (exec (.copyAccept 0) (next (exec (.cpy 4 0 0 3) s)))
    (commandOf 3 t.core).any (fun c => chunkHeld c (engineReq 0 3 c t) [] 0 0 t == false &&
      let r := chunkMoved c (engineReq 0 3 c t) [] 0 0 16 (nextTurn 0 t)
      r.1.toOption.isSome && !waitsAtBank (fun x => x == .engine 0 3) (noteWaits (.engine 0 3) (nextTurn 0 t) r.2)) = true ∧
    (next (exec (.copyChunk 0 3 0) t)).core.tags[3].st = .ready := by decide +kernel
/-- A poisoned source of a copy from a register. -/
theorem test_witness_Copies_poison :
    FirstPoison [((1 : Fin 32), (spoil 1 mark0 lanesState).me.v[1])] (List.range 8) 0 1 mark0 ∧ NoPoison [((1 : Fin 32), lanesState.me.v[1])] (List.range 8) :=
  ⟨firstPoison_of (before := []) (after := [1, 2, 3, 4, 5, 6, 7]) (by decide +kernel) noPoison_nil (earlier := []) rfl noPoison_none (by decide +kernel), noPoison_of_clean (by decide +kernel)⟩
/-- A stream whose block has landed while a bank has not served what its refill reads. -/
def pending : State :=
  { streaming true with dies := small.dies.set 0 { Die.reset with banks := [{ bank0 with queue := [⟨5, 4, 0, 7, true, 0, [.stream 0 0 2 0]⟩] }] } }
theorem test_witness_Streams_awaited :
    Awaited 2 pending ∧ Fresh pending ∧ (next (exec (.vldPop 1 2) pending)).me = pending.me := by
  refine ⟨⟨pending.dies[0], by simp only [Vector.mem_toList_iff]; exact Vector.getElem_mem _, { bank0 with queue := [⟨5, 4, 0, 7, true, 0, [.stream 0 0 2 0]⟩] }, List.mem_singleton.mpr rfl, ⟨5, 4, 0, 7, true, 0, [.stream 0 0 2 0]⟩, by simp, 0,
    by decide +kernel, ?_, by decide +kernel⟩, ?_, by decide +kernel⟩
  · intro n h
    have e : pending.me.sq[2].size = some 9 := by decide +kernel
    cases e.symm.trans h
    decide +kernel
  · refine ⟨?_, ?_, ?_, ?_, ?_⟩ <;> decide +kernel
theorem test_witness_Streams_served : ¬Awaited 2 (streaming true) := by
  rintro ⟨d, hd, b, hb, -⟩
  have h : (streaming true).dies.toList.all (fun d => d.banks.isEmpty) = true := by decide +kernel
  have h' := List.all_eq_true.mp h d hd
  simp only [List.isEmpty_iff] at h'
  simp [h'] at hb
/-- The last group of an instruction with flags and a result, alone in the window, completes. -/
def lastFlight : Flight := { flight 0 0 1 (some 128) with flags := 4, reserves := [.g 5], results := [(.g 5, 9)] }
theorem test_witness_SequencerAndWalks_retires :
    (windowed [lastFlight]).wellKept ∧ (windowed [lastFlight]).core.window = [] ++ lastFlight :: [] ∧ lastFlight.running = some 128 ∧ 0 < lastFlight.groups ∧ lastFlight.last ≤ 128 ∧
    strandAt 0 0 (windowed [lastFlight]) = some runner ∧
    (let t := next (exec (.elementGroupComplete 0 .plane) (windowed [lastFlight]))
     t.me.g[5] = 9 ∧ t.me.vflags = 4 ∧ t.core.window = []) ∧ (∀ p ∈ lanesState.core.window, False) :=
  ⟨kept_of_check (by decide +kernel), rfl, rfl, by decide, by decide, by decide +kernel, by decide +kernel, by decide +kernel⟩
/-- An access under way as a refresh begins, at a bank that a REFRESH event has brought to the interval already: it hits the row that was open before. -/
theorem test_witness_DramEvents_rowBefore :
    let s := banking { bank0 with row := none, rowBefore := some 5, lastAt := 1, commands := 1, refreshUntil := some 308, queue := [request 5] } 200
    s.dies[0].hbmDone[1] ≠ 0 ∧ (underWay ⟨0, 1, 3, 2⟩ (request 5) s).isSome = true ∧ (bankAt ⟨0, 1, 3, 2⟩ s).commands = 1 ∧
    (let b := bankAt ⟨0, 1, 3, 2⟩ (next (exec (.dramAccess ⟨0, 1, 3, 2⟩) s))
     b.acts = [] ∧ b.row = none ∧ b.queue = []) := by decide +kernel
/-- Cores that PLANNED_POWER_DOWN keeps waiting, or that are left with too few groups. -/
theorem test_witness_CorePower_chunks :
    (let s : State := { waiting with core := { waiting.core with pwr := 1, downRequest := true } }
     keptCheck s = true ∧ s.core.pwr = 1 ∧ s.core.downRequest = true ∧ s.core.tags[3].moved.isSome = true ∧ (next (exec (.plannedPowerDown 0) s)).core.shRequest = false) ∧
    (∀ k : Tag, small.core.tags[k].moved = none) ∧
    (let s : State := { dark with core := { dark.core with dropped := List.range 97 }, dies := small.dies.set 0 { Die.reset with islands := Die.reset.islands.set 0 { Die.reset.islands[0] with sampled := 1 } } }
     keptCheck s = true ∧ laneGroups (applyDropped s.core) < 32 ∧ s.core.pwr = 3 ∧ disabled 0 (next (exec (.powerUp 0) s)) = true ∧ (next (exec (.powerUp 0) s)).me.life ≠ .running) := by decide +kernel
/-- Placement on an island that is pressed, and on a core that is disabled. -/
theorem test_witness_PlacementAndLeave_pressed :
    (let s : State := { accepted with dies := accepted.dies.set 0 { accepted.dies[0] with islands := accepted.dies[0].islands.set 0 { accepted.dies[0].islands[0] with press := true } } }
     (nextPlace s).isSome = true ∧ keptCheck s = true ∧ (next (exec .placement s)).me.ceiling = 64 ∧ (next (exec .placement s)).me.life = .running) ∧
    (next (exec .placement accepted)).me.ceiling = 64 ∧
    (let s : State := { accepted with dies := accepted.dies.set 0 { accepted.dies[0] with coredis := accepted.dies[0].coredis.set 0 1 } }
     (nextPlace s).isSome = true ∧ disabled 0 s = true ∧ (next (exec .placement s)).me.life = .absent) ∧ disabled 0 accepted = false ∧ disabled 0 resuming = false := by decide +kernel
/-- A beat gives a strand what its retiring instruction holds for it. -/
theorem test_a_beat_retires :
    (let f : Flight := { flight 0 0 1 none with flags := 4, results := [(.g 5, 9)], groups := 1, issued := 128, done := 128 }
     let t := next (exec .yield (windowed [f]))
     (giveTo [f] runner).g[5] = 9 ∧ (giveTo [f] runner).vflags = 4 ∧ t.me.pc = 4) := by decide +kernel
/-- A fault in the reply to a store makes the younger stores of its bytes wait to be deferred. -/
theorem test_witness_ChainPorts_deferred :
    let s : State := { sentStore 0 with me := { (sentStore 0).me with stq := [⟨0x100, 1, 2, 4, false, [none], false, false, false⟩, ⟨0x104, 1, 2, 8, false, [none], false, false, false⟩] } }
    recordRoom 0 0 s = true ∧ inFlit 4 s = false ∧ s.remote.find? (fun m => m.id == 4) = some remoteStore ∧ remoteStore.reply = none ∧ remoteStore.store.isSome = true ∧
    (next (exec (.remoteReply 4 (.fault 3)) s)).me.stq.map (fun q => q.defer) = [true, false] := by decide +kernel

end Sys2Proof.Tests
end

section
/-! Every step keeps the form of the state (O6). What the form asks of a state is memory and the places of strands and cores, so an operation keeps it when the bytes it writes
go through `Memory.set`, and when the strands and cores it changes keep the numbers they bear. Each operation of the model has one lemma that says so, in the order of the model's files, and an
instruction's lemma composes those of its parts. Here and below theorems are elaborated one after the other: in parallel so many of them need more threads than
the check's memory holds. -/

namespace Sys2Proof.Machine

set_option Elab.async false

open Sys2Proof.Laws

/-! ## What the form depends on -/

/-- The form speaks of memory, what is durable of it, the numbers at hand, the strands at hand and the other cores: a state with the same of these has it too. -/
theorem State.wellKept.same {s t : State} (h : s.wellKept) (mem : t.mem = s.mem := by rfl) (durable : t.durable = s.durable := by rfl)
    (me : t.me.mesh = s.me.mesh := by rfl) (mesh : t.core.mesh = s.core.mesh := by rfl) (strands : t.core.strands = s.core.strands := by rfl)
    (cores : t.cores = s.cores := by rfl) : t.wellKept where
  mem := mem ▸ h.mem
  durable := durable ▸ h.durable
  atHand := me.trans (h.atHand.trans mesh.symm)
  here := by
    have := h.here
    simpa only [Core.housed, strands, mesh] using this
  elsewhere := cores ▸ h.elsewhere

/-- A change of the dies and of what is noted of the host's lines keeps the form. -/
theorem State.wellKept.onlyDies {s t : State} (h : s.wellKept) (e : OnlyDies s t) : t.wellKept :=
  h.same e.mem_eq (by rw [e.same]) (by rw [e.me_eq]) (by rw [e.core_eq]) (by rw [e.core_eq]) e.cores_eq

/-- The state that an operation with a result leaves, when the operation is known by its pair. -/
theorem kept_of_eq {α : Type} {p : α × State} {a : α} {t : State} (h : p.2.wellKept) (e : p = (a, t)) : t.wellKept := by
  subst e; exact h

theorem ite_kept {c : Prop} {i : Decidable c} {s t : State} (hs : s.wellKept) (ht : t.wellKept) : (if c then s else t).wellKept := by
  split
  · exact hs
  · exact ht

theorem foldl_kept {α : Type} {f : State → α → State} (hf : ∀ s a, s.wellKept → (f s a).wellKept) {xs : List α} {s : State} (h : s.wellKept) :
    (xs.foldl f s).wellKept := by
  induction xs generalizing s with
  | nil => exact h
  | cons x xs ih => exact ih (hf s x h)

theorem foldl_same_mesh {α : Type} {f : Strand → α → Strand} (hf : ∀ t a, (f t a).mesh = t.mesh) (xs : List α) (t : Strand) :
    (xs.foldl f t).mesh = t.mesh := by
  induction xs generalizing t with
  | nil => rfl
  | cons x xs ih => exact (ih _).trans (hf t x)

/-! ## Cores that keep their place -/

/-- What a change of a core must leave: its number, and that its strands are its own. -/
structure Core.Stays (c d : Core) : Prop where
  mesh : d.mesh = c.mesh
  housed : c.housed → d.housed

namespace Core.Stays

theorem same {c d : Core} (mesh : d.mesh = c.mesh := by rfl) (strands : d.strands = c.strands := by rfl) : Stays c d :=
  ⟨mesh, fun h => by simpa only [Core.housed, strands, mesh] using h⟩

theorem trans {c d e : Core} (h : Stays c d) (k : Stays d e) : Stays c e := ⟨k.mesh.trans h.mesh, fun x => k.housed (h.housed x)⟩

theorem ite {p : Prop} {i : Decidable p} {c d e : Core} (hd : Stays c d) (he : Stays c e) : Stays c (if p then d else e) := by
  split
  · exact hd
  · exact he

theorem foldl {α : Type} {f : Core → α → Core} (hf : ∀ c a, Stays c (f c a)) (xs : List α) (c : Core) : Stays c (xs.foldl f c) := by
  induction xs generalizing c with
  | nil => exact same
  | cons x xs ih => exact (hf c x).trans (ih _)

/-- The strands of a core changed, each staying in its place. -/
theorem mapStrands {c d : Core} {f : Strand → Strand} (hf : ∀ t, t.mesh = c.mesh → (f t).mesh = c.mesh) (mesh : d.mesh = c.mesh := by rfl)
    (strands : d.strands = c.strands.map f := by rfl) : Stays c d := by
  refine ⟨mesh, fun h t ht => ?_⟩
  rw [strands] at ht
  obtain ⟨x, hx, rfl⟩ := List.mem_map.1 ht
  exact (hf x (h x hx)).trans mesh.symm

end Core.Stays

theorem Core.reset_housed (m : Nat) : (Core.reset m []).housed := by
  intro t ht
  exact absurd ht List.not_mem_nil

/-! ## Moving the turn (Focus) -/

theorem mem_insertStrand {x y : Strand} {l : List Strand} : y ∈ insertStrand x l ↔ y = x ∨ y ∈ l := by
  induction l with
  | nil => simp [insertStrand]
  | cons a l ih =>
    unfold insertStrand
    split
    · simp
    · simp only [List.mem_cons, ih]
      tauto

theorem mem_insertCore {x y : Core} {l : List Core} : y ∈ insertCore x l ↔ y = x ∨ y ∈ l := by
  induction l with
  | nil => simp [insertCore]
  | cons a l ih =>
    unfold insertCore
    split
    · simp
    · simp only [List.mem_cons, ih]
      tauto

theorem mem_of_takeStrand {sid : Nat} {l rest : List Strand} {x : Strand} (h : takeStrand sid l = some (x, rest)) : x ∈ l ∧ ∀ y ∈ rest, y ∈ l := by
  induction l generalizing rest with
  | nil => cases h
  | cons a l ih =>
    unfold takeStrand at h
    split at h
    · cases h
      simp_all
    · obtain ⟨⟨z, r⟩, hz, hp⟩ := Option.map_eq_some_iff.1 h
      cases hp
      have := ih hz
      simp_all

theorem mem_of_takeCore {m : Nat} {l rest : List Core} {c : Core} (h : takeCore m l = some (c, rest)) : c ∈ l ∧ c.mesh = m ∧ ∀ y ∈ rest, y ∈ l := by
  induction l generalizing rest with
  | nil => cases h
  | cons a l ih =>
    unfold takeCore at h
    split at h
    · cases h
      simp_all
    · obtain ⟨⟨z, r⟩, hz, hp⟩ := Option.map_eq_some_iff.1 h
      cases hp
      have := ih hz
      simp_all

theorem wholeCore_housed {s : State} (h : s.wellKept) : (wholeCore s).housed := by
  intro t ht
  rcases mem_insertStrand.1 ht with rfl | ht
  · exact h.atHand
  · exact h.here t ht

/-- The turn given to a strand keeps the form: the strand and its core leave the lists together, and the ones at hand go back to theirs. -/
theorem focus_kept {mesh sid : Nat} {s : State} (h : s.wellKept) : (focus mesh sid s).wellKept := by
  unfold focus
  split
  · exact h
  split
  · split
    · exact h
    next x rest hx =>
      obtain ⟨hmem, hrest⟩ := mem_of_takeStrand hx
      refine ⟨h.mem, h.durable, h.here x hmem, fun t ht => ?_, h.elsewhere⟩
      rcases mem_insertStrand.1 ht with rfl | ht
      · exact h.atHand
      · exact h.here t (hrest t ht)
  · split
    · exact h
    next c rest hc =>
      obtain ⟨hcmem, -, hcrest⟩ := mem_of_takeCore hc
      have hhoused := h.elsewhere c hcmem
      split
      · exact h
      next x others hx =>
        obtain ⟨hmem, hothers⟩ := mem_of_takeStrand hx
        refine ⟨h.mem, h.durable, hhoused x hmem, fun t ht => hhoused t (hothers t ht), fun d hd => ?_⟩
        rcases mem_insertCore.1 hd with rfl | hd
        · exact wholeCore_housed h
        · exact h.elsewhere d (hcrest d hd)

theorem atStrand_kept {mesh sid : Nat} {f : State → State} (hf : ∀ s, s.wellKept → (f s).wellKept) {s : State} (h : s.wellKept) :
    (atStrand mesh sid f s).wellKept :=
  ite_kept (focus_kept (hf _ (focus_kept h))) h

theorem onMe_kept {f : Strand → Strand} {s : State} (h : s.wellKept) (hf : (f s.me).mesh = s.me.mesh := by rfl) : (onMe f s).wellKept :=
  h.same (me := hf)

/-- The strand and the core at hand changed, each staying in its place. -/
theorem atHand_kept {s : State} {x : Strand} {c : Core} (h : s.wellKept) (hx : x.mesh = s.me.mesh) (hc : s.core.Stays c) :
    State.wellKept { s with me := x, core := c } :=
  ⟨h.mem, h.durable, hx.trans (h.atHand.trans hc.mesh.symm), hc.housed h.here, h.elsewhere⟩

theorem core_kept {s : State} {c : Core} (h : s.wellKept) (hc : s.core.Stays c := by exact .same) : State.wellKept { s with core := c } :=
  atHand_kept h rfl hc

theorem onCore_kept {f : Core → Core} {s : State} (h : s.wellKept) (hf : s.core.Stays (f s.core) := by exact .same) : (onCore f s).wellKept :=
  core_kept h hf

/-- Core `mesh` changed by what keeps that core in its place. -/
theorem modCore_kept_of_mesh {mesh : Nat} {f : Core → Core} {s : State} (h : s.wellKept) (hf : ∀ c : Core, c.mesh = mesh → c.Stays (f c)) :
    (modCore mesh f s).wellKept := by
  unfold modCore
  split
  next he => exact core_kept h (hf _ he)
  · refine ⟨h.mem, h.durable, h.atHand, h.here, fun d hd => ?_⟩
    obtain ⟨c, hc, rfl⟩ := List.mem_map.1 hd
    split
    next he => exact (hf c he).housed (h.elsewhere c hc)
    · exact h.elsewhere c hc

theorem modCore_kept {mesh : Nat} {f : Core → Core} {s : State} (h : s.wellKept) (hf : ∀ c : Core, c.Stays (f c) := by exact fun _ => .same) :
    (modCore mesh f s).wellKept :=
  modCore_kept_of_mesh h fun c _ => hf c

theorem mapCores_kept {f : Core → Core} {s : State} (h : s.wellKept) (hf : ∀ c : Core, c.Stays (f c) := by exact fun _ => .same) : (mapCores f s).wellKept := by
  refine ⟨h.mem, h.durable, h.atHand.trans (hf _).mesh.symm, (hf _).housed h.here, fun d hd => ?_⟩
  obtain ⟨c, hc, rfl⟩ := List.mem_map.1 hd
  exact (hf c).housed (h.elsewhere c hc)

theorem modStrand_kept {mesh sid : Nat} {f : Strand → Strand} {s : State} (h : s.wellKept) (hf : ∀ t : Strand, (f t).mesh = t.mesh := by exact fun _ => rfl) :
    (modStrand mesh sid f s).wellKept := by
  refine ite_kept (onMe_kept h (hf _)) (modCore_kept h fun c => .mapStrands fun t ht => ?_)
  split
  · exact (hf t).trans ht
  · exact ht

/-- The strands of core `mesh` changed, each to one of that core. -/
theorem modCoreStrands_kept {mesh : Nat} {f : Strand → Strand} {s : State} (h : s.wellKept) (hf : ∀ t, t.mesh = mesh → (f t).mesh = mesh) :
    (modCoreStrands mesh f s).wellKept := by
  have h1 : (modCore mesh (fun c => { c with strands := c.strands.map f }) s).wellKept :=
    modCore_kept_of_mesh h fun c hc => .mapStrands fun t ht => by rw [hc] at ht ⊢; exact hf t ht
  dsimp only [modCoreStrands]
  split
  next he => exact onMe_kept h1 ((hf _ he).trans he.symm)
  · exact h1

theorem coreAt_mesh (mesh : Nat) (s : State) : (coreAt mesh s).mesh = mesh := by
  unfold coreAt
  split
  · assumption
  · cases hc : s.cores.find? fun c => c.mesh == mesh with
    | none => rfl
    | some c => simpa using List.find?_some hc

theorem coreAt_housed (mesh : Nat) {s : State} (h : s.wellKept) : (coreAt mesh s).housed := by
  unfold coreAt
  split
  · exact h.here
  · cases hc : s.cores.find? fun c => c.mesh == mesh with
    | none => exact Core.reset_housed mesh
    | some c => exact h.elsewhere c (List.mem_of_find?_eq_some hc)

theorem modDie_kept {d : Nat} {f : Die → Die} {s : State} (h : s.wellKept) : (modDie d f s).wellKept := h.same
theorem modLaunch_kept {id : Nat} {f : Launch → Launch} {s : State} (h : s.wellKept) : (modLaunch id f s).wellKept := h.same
theorem draw_kept {s : State} (h : s.wellKept) : (draw s).2.wellKept := h.same

/-! ## The home of an address, the L2 and DRAM (Home) -/

theorem modBank_kept {k : BankId} {f : Bank → Bank} {s : State} (h : s.wellKept) : (modBank k f s).wellKept := h.same
theorem dramRequest_kept {ctx pa : Nat} {read : Bool} {s : State} (h : s.wellKept) : (dramRequest ctx pa read s).wellKept :=
  h.onlyDies (dramRequest_only _ _ _ _)
theorem joinRead_kept {line : Nat} {s : State} (h : s.wellKept) : (joinRead line s).wellKept := h.onlyDies (joinRead_only _ _)
theorem noteWaits_kept {who : Waiter} {before s : State} (h : s.wellKept) : (noteWaits who before s).wellKept := h.same
theorem joinWaits_kept {p : Waiter → Bool} {s : State} (h : s.wellKept) : (joinWaits p s).wellKept := h.same
theorem putSet_kept {die line : Nat} {x : L2Set} {s : State} (h : s.wellKept) : (putSet die line x s).wellKept := h.same
theorem hostHas_kept {p : Nat → Bool} {s : State} (h : s.wellKept) : (hostHas p s).wellKept := h.same
theorem writeBack_kept {die ctx line : Nat} {s : State} (h : s.wellKept) : (writeBack die ctx line s).wellKept := h.onlyDies (writeBack_only _ _ _ _)
theorem l2Access_kept {ctx : Nat} {wb : Bool} {line n fill : Nat} {write : Bool} {s : State} (h : s.wellKept) :
    (l2Access ctx wb line n fill write s).wellKept := h.onlyDies (l2Access_only _ _ _ _ _ _ _)
theorem l2Reads_kept {ctx : Nat} {wb : Bool} {pas : List Nat} {s : State} (h : s.wellKept) : (l2Reads ctx wb pas s).wellKept :=
  h.onlyDies (l2Reads_only _ _ _ _)
theorem l2Writes_kept {ctx : Nat} {wb : Bool} {bs : List (Nat × BitVec 8)} {s : State} (h : s.wellKept) : (l2Writes ctx wb bs s).wellKept :=
  h.onlyDies (l2Writes_only _ _ _ _)
theorem l2Amo_kept {ctx : Nat} {wb : Bool} {pas : List Nat} {s : State} (h : s.wellKept) : (l2Amo ctx wb pas s).wellKept :=
  h.onlyDies (l2Amo_only _ _ _ _)

/-- The one place where an access writes memory: a byte of memory through `Memory.set`, a byte of scratch in its core. -/
theorem homePut_kept {b : ByteWrite} {s : State} (h : s.wellKept) : (homePut b s).wellKept := by
  unfold homePut
  split
  · exact ⟨Memory.wf_set _ _ _ h.mem, h.durable, h.atHand, h.here, h.elsewhere⟩
  · exact modCore_kept h

theorem wake_kept {l : Loc} {s : State} (h : s.wellKept) : (wake l s).wellKept := h.same

theorem mendWords_kept {bs : List ByteWrite} {s : State} (h : s.wellKept) : (mendWords bs s).wellKept := by
  rw [mendWords_same]
  exact h.same

theorem homeBytes_kept {wb : Bool} {bs : List ByteWrite} {s : State} (h : s.wellKept) : (homeBytes wb bs s).wellKept := by
  rw [homeBytes_after]
  exact (foldl_kept (fun _ _ h => homePut_kept h) h).same

theorem homeWrite_kept {ctx : Nat} {wb : Bool} {bs : List ByteWrite} {s : State} (h : s.wellKept) : (homeWrite ctx wb bs s).wellKept :=
  homeBytes_kept (l2Writes_kept h)
theorem homeWrites_kept {ws : List Write} {s : State} (h : s.wellKept) : (homeWrites ws s).wellKept :=
  foldl_kept (fun _ _ h => homeBytes_kept h) (h.onlyDies (countWrites_only _ _ _))
theorem homeRead_kept {ctx : Nat} {wb : Bool} {ls : List Loc} {s : State} (h : s.wellKept) : (homeRead ctx wb ls s).2.wellKept := l2Reads_kept h
theorem read8_kept {ctx : Nat} {wb : Bool} {pa : Nat} {s : State} (h : s.wellKept) : (read8 ctx wb pa s).2.wellKept := homeRead_kept h
theorem put8_kept {wb : Bool} {pa : Nat} {w : Word} {s : State} (h : s.wellKept) : (put8 wb pa w s).wellKept := homeBytes_kept h
theorem amo8_kept {ctx : Nat} {wb : Bool} {pa : Nat} {s : State} (h : s.wellKept) : (amo8 ctx wb pa s).2.wellKept := l2Amo_kept h

/-! ## Translation -/

theorem walkFrom_kept {rq : Req} {gs : List Grant} {va fuel level base : Nat} {s : State} (h : s.wellKept) :
    (walkFrom rq gs va fuel level base s).2.wellKept := by
  induction fuel generalizing level base s with
  | zero => exact h
  | succ fuel ih =>
    have hr {pa} : (read8 rq.ctx true pa s).2.wellKept := read8_kept h
    unfold walkFrom
    dsimp only
    split
    · exact ih (modCore_kept h)
    · split
      · exact h
      repeat' split
      · exact hr
      · exact hr
      · exact hr
      · exact hr
      · exact ih (modCore_kept hr)

theorem walk_kept {rq : Req} {va : Nat} {s : State} (h : s.wellKept) : (walk rq va s).2.wellKept := by
  dsimp only [walk]
  split
  · exact h
  · exact walkFrom_kept h

theorem setEntry_kept {rq : Req} {pa : Nat} {e : Word} {s : State} (h : s.wellKept) : (setEntry rq pa e s).wellKept := put8_kept (amo8_kept h)

theorem useLeaf_kept {rq : Req} {acc : Access} {level entryPa : Nat} {leaf : Word} {gs : List Grant} {desc : Word} {va : Nat} {s : State} (h : s.wellKept) :
    (useLeaf rq acc level entryPa leaf gs desc va s).2.wellKept := by
  unfold useLeaf
  extract_lets want done
  split
  · exact modCore_kept h
  · split
    · exact h
    · exact modCore_kept (setEntry_kept h)

theorem translateWalk_kept {rq : Req} {acc : Access} {size : Nat} {va : Word} {s : State} (h : s.wellKept) :
    (translateWalk rq acc size va s).2.wellKept := by
  dsimp only [translateWalk]
  split
  · exact walk_kept h
  · split
    · exact walk_kept h
    · exact useLeaf_kept (walk_kept h)

theorem translateHeld_kept {rq : Req} {acc : Access} {size : Nat} {va : Word} {e : TlbEntry} {s : State} (h : s.wellKept) :
    (translateHeld rq acc size va e s).2.wellKept := by
  dsimp only [translateHeld]
  split
  · exact h
  · split
    · split
      · exact h
      · split
        · exact amo8_kept h
        · split
          · exact useLeaf_kept h
          · exact translateWalk_kept (modCore_kept (amo8_kept h))
    · exact modCore_kept h

theorem serveMiss_kept {mesh : Nat} {m : Miss} {s : State} (h : s.wellKept) : (serveMiss mesh m s).wellKept := by
  dsimp only [serveMiss]
  split
  · exact h
  · split
    · exact walk_kept h
    · split
      · exact walk_kept h
      · exact useLeaf_kept (walk_kept h)

theorem serveBefore_kept {rq : Req} {va : Nat} {s : State} (h : s.wellKept) : (serveBefore rq va s).wellKept :=
  foldl_kept (fun _ _ h => serveMiss_kept h) (modCore_kept h)

theorem translateTables_kept {rq : Req} {acc : Access} {size : Nat} {va : Word} {s : State} (h : s.wellKept) :
    (translateTables rq acc size va s).2.wellKept := by
  dsimp only [translateTables]
  split
  · exact translateHeld_kept h
  · split
    · exact translateHeld_kept (serveBefore_kept h)
    · exact translateWalk_kept (serveBefore_kept h)

theorem translate_kept {rq : Req} {acc : Access} {size : Nat} {va : Word} {s : State} (h : s.wellKept) : (translate rq acc size va s).2.wellKept := by
  unfold translate
  split
  · exact h
  · split
    · exact h
    · split
      · split
        · exact h
        · split <;> exact h
      · exact translateTables_kept h

theorem translateBytes_kept {rq : Req} {acc : Access} {va : Word} {n : Nat} {s : State} (h : s.wellKept) : (translateBytes rq acc va n s).2.wellKept := by
  induction n generalizing va s with
  | zero => exact h
  | succ n ih =>
    unfold translateBytes
    split
    next e => exact kept_of_eq (translate_kept h) e
    next e =>
      have h1 := kept_of_eq (translate_kept h) e
      split
      next e => exact kept_of_eq (ih h1) e
      next e => exact kept_of_eq (ih h1) e

theorem queueMisses_kept {rq : Req} {acc : Access} {vas : List Word} {s : State} (h : s.wellKept) : (queueMisses rq acc vas s).wellKept :=
  foldl_kept (fun _ _ h => ite_kept h (ite_kept h (modCore_kept h))) h

end Sys2Proof.Machine
end

section
namespace Sys2Proof.Machine

set_option Elab.async false

open Sys2Proof.Laws

/-! ## Control space -/

theorem strandsReset_housed {m : Nat} {t : Strand} (ht : t ∈ strandsReset m) : t.mesh = m := by
  simp only [strandsReset, List.mem_cons, List.not_mem_nil, or_false] at ht
  rcases ht with rfl | rfl | rfl | rfl <;> rfl

theorem resetCore_stays (c : Core) : c.Stays (resetCore c) := ⟨rfl, fun _ _ ht => strandsReset_housed ht⟩

theorem hostMemory_wf {s : State} (h : s.wellKept) : (hostMemory s).wf = true :=
  List.foldlRecOn (motive := fun m => Memory.wf m = true) s.hostStale _ h.mem fun _ hm _ _ => Memory.wf_setN _ _ _ hm

theorem resetPackage_kept {s : State} (h : s.wellKept) : (resetPackage s).wellKept :=
  ⟨hostMemory_wf h, h.durable, h.atHand, h.here, h.elsewhere⟩

/-- Cores that are not at hand changed. -/
theorem cores_kept {s : State} {f : Core → Core} (h : s.wellKept) (hf : ∀ c : Core, c.Stays (f c)) : State.wellKept { s with cores := s.cores.map f } := by
  refine ⟨h.mem, h.durable, h.atHand, h.here, fun d hd => ?_⟩
  obtain ⟨c, hc, rfl⟩ := List.mem_map.1 hd
  exact (hf c).housed (h.elsewhere c hc)

theorem resetFocus_kept {d : Nat} {s : State} (h : s.wellKept) : (resetFocus d s).wellKept :=
  ite_kept (atHand_kept h rfl (.mapStrands (f := fun t => Strand.reset t.mesh t.sid) fun _ ht => ht)) h

theorem restartDie_kept {d fails reason : Nat} {min : Bool} {s : State} (h : s.wellKept) : (restartDie d fails reason min s).wellKept := by
  have h1 := resetFocus_kept (d := d) (cores_kept h fun c => .ite (p := dieOfMesh c.mesh = d) (i := inferInstance) (resetCore_stays c) .same)
  dsimp only [restartDie]
  exact ite_kept (resetPackage_kept h1.same) h1.same

theorem failStart_kept {d reason : Nat} {s : State} (h : s.wellKept) : (failStart d reason s).wellKept := restartDie_kept h

theorem tiqhiWrite_kept {s : State} (h : s.wellKept) : (tiqhiWrite s).wellKept := ite_kept h.same (ite_kept h.same h.same)
theorem modQueue_kept {d q : Nat} {f : HwQueue → HwQueue} {s : State} (h : s.wellKept) : (modQueue d q f s).wellKept := h.same
theorem doorbellWrite_kept {d q t : Nat} {s : State} (h : s.wellKept) : (doorbellWrite d q t s).wellKept := ite_kept (modQueue_kept h) (modQueue_kept h)
theorem queueEnableOp_kept {d q : Nat} {s : State} (h : s.wellKept) : (queueEnableOp d q s).wellKept := ite_kept (modQueue_kept h) h
theorem queueDisableOp_kept {d q : Nat} {s : State} (h : s.wellKept) : (queueDisableOp d q s).wellKept := modQueue_kept h
theorem pdreqOp_kept {mesh : Nat} {s : State} (h : s.wellKept) : (pdreqOp mesh s).wellKept := modCore_kept h fun _ => .ite .same .same
theorem pupreqOp_kept {mesh : Nat} {s : State} (h : s.wellKept) : (pupreqOp mesh s).wellKept := modCore_kept h fun _ => .ite .same .same
theorem bootlockOp_kept {d : Nat} {s : State} (h : s.wellKept) : (bootlockOp d s).wellKept := ite_kept h (ite_kept h.same h.same)

theorem mailboxRun_kept {cmd : Nat} {args : Vector Word 4} {s : State} (h : s.wellKept) : (mailboxRun cmd args s).wellKept :=
  ite_kept h (ite_kept h.same (ite_kept (foldl_kept (fun _ _ h => restartDie_kept h) h.same)
    (ite_kept (ite_kept (pdreqOp_kept h.same) (pupreqOp_kept h.same)) h.same)))

theorem queueWrite_kept {d q off : Nat} {nv : Word} {lo : Bool} {s : State} (h : s.wellKept) : (queueWrite d q off nv lo s).wellKept := by
  unfold queueWrite
  extract_lets x
  split
  · exact ite_kept h (modQueue_kept h)
  · exact ite_kept h (modQueue_kept h)
  · exact ite_kept (queueEnableOp_kept (modQueue_kept h)) (queueDisableOp_kept (modQueue_kept h))
  · exact ite_kept (doorbellWrite_kept h) h
  · exact ite_kept (modQueue_kept h) h
  · exact h

theorem partWrite_kept {p off : Nat} {nv : Word} {s : State} (h : s.wellKept) : (partWrite p off nv s).wellKept := by
  unfold partWrite
  extract_lets i x put
  split <;> exact h.same

theorem ctrlWrite_kept {d j off : Nat} {nv : Word} {s : State} (h : s.wellKept) : (ctrlWrite d j off nv s).wellKept := by
  unfold ctrlWrite
  extract_lets i put
  split
  · exact ite_kept h (modDie_kept h)
  · exact modDie_kept h
  · exact h

theorem coreWrite_kept {mesh off : Nat} {nv : Word} {lo : Bool} {s : State} (h : s.wellKept) : (coreWrite mesh off nv lo s).wellKept := by
  have h1 : (if bit nv 0 then pdreqOp mesh s else s).wellKept := ite_kept (pdreqOp_kept h) h
  unfold coreWrite
  split
  · exact ite_kept (ite_kept (pupreqOp_kept h1) h1) h
  · exact modCore_kept h
  · exact h

theorem tbWrite_kept {off : Nat} {nv v : Word} {lo hi : Bool} {s : State} (h : s.wellKept) : (tbWrite off nv v lo hi s).wellKept := by
  unfold tbWrite
  extract_lets lock i j g g'
  refine ite_kept (ite_kept h h.same) ?_
  split
  · exact ite_kept h h.same
  · exact h.same
  · exact ite_kept (tiqhiWrite_kept h.same) h.same
  · exact ite_kept h.same h
  · exact h

theorem mailWrite_kept {off : Nat} {nv : Word} {lo : Bool} {s : State} (h : s.wellKept) : (mailWrite off nv lo s).wellKept := by
  unfold mailWrite
  extract_lets m
  split
  case h_6 => exact ite_kept (mailboxRun_kept h) h
  all_goals exact h.same

theorem dieWrite_kept {d off : Nat} {nv : Word} {lo : Bool} {s : State} (h : s.wellKept) : (dieWrite d off nv lo s).wellKept := by
  refine ite_kept (ite_kept (bootlockOp_kept h) h) (ite_kept (ite_kept h h.same) (ite_kept (ite_kept h h.same) (ite_kept (ite_kept (mailWrite_kept h) h) ?_)))
  refine ite_kept ?_ (ite_kept (ctrlWrite_kept h) (ite_kept (queueWrite_kept h) (ite_kept (partWrite_kept h) h)))
  extract_lets i r put
  split <;> exact h.same

theorem ctlWrite_kept {d off : Nat} {lo hi : Bool} {v : Word} {s : State} (h : s.wellKept) : (ctlWrite d off lo hi v s).wellKept :=
  ite_kept (dieWrite_kept h) (ite_kept (tbWrite_kept h) (ite_kept (coreWrite_kept h) h))

theorem ctlStore_kept {pa size : Nat} {v : Word} {s : State} (h : s.wellKept) : (ctlStore pa size v s).wellKept :=
  ite_kept (ctlWrite_kept h) (ite_kept (ctlWrite_kept h) (ctlWrite_kept h))

/-! ## Accesses: copies, writes on their way, the store queue (Access) -/

theorem useCopy_stays (line : Nat) (c : Core) : c.Stays (useCopy line c) := by
  unfold useCopy
  split <;> exact .same

theorem fillCopy_kept {mesh ctx vline line : Nat} {s : State} (h : s.wellKept) : (fillCopy mesh ctx vline line s).wellKept := by
  dsimp only [fillCopy]
  split
  · exact modCore_kept (joinRead_kept h) (useCopy_stays line)
  · exact modCore_kept (l2Access_kept h)

theorem performAtCore_kept {mesh : Nat} {w : Write} {s : State} (h : s.wellKept) : (performAtCore mesh w s).wellKept := by
  refine ite_kept (homeWrite_kept h) (modCore_kept (ite_kept (foldl_kept (fun s b h => ?_) h) h))
  split
  · exact modCore_kept h fun _ => .trans .same (useCopy_stays _ _)
  · exact h

theorem drainOut_kept {mesh : Nat} {p : Write → Bool} {s : State} (h : s.wellKept) : (drainOut mesh p s).wellKept := homeWrites_kept (modCore_kept h)
theorem performAtSlice_kept {mesh : Nat} {ws : List Write} {s : State} (h : s.wellKept) : (performAtSlice mesh ws s).wellKept :=
  homeWrites_kept (drainOut_kept h)

theorem performWrites_kept {mesh n : Nat} {ws : List Write} {s : State} (h : s.wellKept) : (performWrites mesh n ws s).wellKept := by
  induction n generalizing ws s with
  | zero => exact h
  | succ n ih =>
    cases ws with
    | nil => exact h
    | cons w ws => exact ite_kept (ih (performAtSlice_kept h)) (ih (performAtCore_kept h))

theorem drainVector_kept {p : Write → Bool} {s : State} (h : s.wellKept) : (drainVector p s).wellKept := performWrites_kept (onMe_kept h)

theorem putFlit_kept {port id : Nat} {s : State} (h : s.wellKept) : (putFlit port id s).wellKept := h.same
theorem sendRemote_kept {entry : Nat} {va : Word} {op : RemoteOp} {store : Option QStore} {s : State} (h : s.wellKept) :
    (sendRemote entry va op store s).wellKept := putFlit_kept h.same
theorem pushRecord_kept {r : SfRec} {s : State} (h : s.wellKept) : (pushRecord r s).wellKept := onMe_kept h
theorem recordFault_kept {q : QStore} {sub : Nat} {s : State} (h : s.wellKept) : (recordFault q sub s).wellKept := onMe_kept (pushRecord_kept h)

theorem scalarTargets_kept {rq : Req} {acc : Access} {float : Bool} {size : Nat} {va : Word} {s : State} (h : s.wellKept) :
    (scalarTargets rq acc float size va s).2.wellKept := by
  unfold scalarTargets
  split
  · split
    next e => exact kept_of_eq (translate_kept h) e
    next e => exact kept_of_eq (translate_kept h) e
  · exact translateBytes_kept h

theorem performPart_kept {q : QStore} {ts : List Target} {s : State} (h : s.wellKept) : (performPart q ts s).wellKept := by
  unfold performPart
  split
  · exact ite_kept (ctlStore_kept h) (homeWrite_kept h)
  · exact sendRemote_kept h
  · exact performAtCore_kept h

theorem performStore_kept {q : QStore} {ts : List Target} {s : State} (h : s.wellKept) : (performStore q ts s).wellKept :=
  ite_kept (performPart_kept h) (foldl_kept (fun _ _ h => performPart_kept h) h)

theorem forceStore_kept {s : State} (h : s.wellKept) : (forceStore s).wellKept := by
  unfold forceStore
  split
  · exact h
  next q rest _ =>
    have h0 : (onMe (fun t => { t with stq := rest }) s).wellKept := onMe_kept h
    refine ite_kept (pushRecord_kept h0) ?_
    split
    next e => exact recordFault_kept (kept_of_eq (scalarTargets_kept h0) e)
    next e => exact performStore_kept (kept_of_eq (scalarTargets_kept h0) e)

theorem translateStore_kept {s : State} (h : s.wellKept) : (translateStore s).wellKept := ite_kept h (forceStore_kept h)

theorem drainStores_kept {n : Nat} {s : State} (h : s.wellKept) : (drainStores n s).wellKept := by
  induction n generalizing s with
  | zero => exact h
  | succ n ih => exact ih (translateStore_kept h)

theorem drainQueue_kept {s : State} (h : s.wellKept) : (drainQueue s).wellKept := drainStores_kept h
theorem storeRoom_kept {s : State} (h : s.wellKept) : (storeRoom s).wellKept := ite_kept (translateStore_kept h) h
theorem enqueueStore_kept {q : QStore} {s : State} (h : s.wellKept) : (enqueueStore q s).wellKept := onMe_kept h

theorem settle_kept {path : Path} {ls : List Loc} {s : State} (h : s.wellKept) : (settle path ls s).wellKept := by
  cases path
  · exact drainOut_kept h
  · exact drainOut_kept (drainVector_kept h)

theorem readByte_kept {path : Path} {va : Nat} {t : Target} {s : State} (h : s.wellKept) : (readByte path va t s).2.wellKept := by
  unfold readByte
  split
  · exact fillCopy_kept h
  · exact settle_kept h

theorem readBytes_kept {path : Path} {va : Nat} {ts : List Target} {s : State} (h : s.wellKept) : (readBytes path va ts s).2.wellKept := by
  induction ts generalizing va s with
  | nil => exact h
  | cons t ts ih => exact ih (readByte_kept h)

theorem countNc_kept {ctx : Nat} {ts : List Target} {s : State} (h : s.wellKept) : (countNc ctx ts s).wellKept := l2Reads_kept h

theorem scalarLoad_kept {size va : Nat} {ts : List Target} {s : State} (h : s.wellKept) : (scalarLoad size va ts s).2.wellKept := by
  unfold scalarLoad
  split
  · dsimp only
    split
    · exact drainQueue_kept h
    · exact homeRead_kept (drainQueue_kept h)
  · exact readBytes_kept (countNc_kept (ite_kept h (drainQueue_kept h)))

theorem releaseWrites_kept {scalar vector : Bool} {p : Option Word → Bool} {scope : Scope} {s : State} (h : s.wellKept) :
    (releaseWrites scalar vector p scope s).wellKept := by
  unfold releaseWrites
  extract_lets s1 s2
  have h1 : s1.wellKept := ite_kept (drainQueue_kept h) h
  have h2 : s2.wellKept := ite_kept (drainVector_kept h1) h1
  exact ite_kept h2 (drainOut_kept h2)

theorem acquireCopies_kept {p : Option Word → Bool} {scope : Scope} {s : State} (h : s.wellKept) : (acquireCopies p scope s).wellKept :=
  ite_kept h (foldl_kept (fun _ _ h => modCore_kept h) h)

theorem dropMessages_kept {gone : RemoteMsg → Bool} {s : State} (h : s.wellKept) : (dropMessages gone s).wellKept := h.same

/-! ## Launches and replays -/

theorem modReplay_kept {id : Nat} {f : Replay → Replay} {s : State} (h : s.wellKept) : (modReplay id f s).wellKept := h.same

theorem schedRead_kept {die ctx : Nat} {va : Word} {s : State} (h : s.wellKept) : (schedRead die ctx va s).2.wellKept := by
  unfold schedRead
  split
  next e => exact kept_of_eq (translate_kept h) e
  next e => exact homeRead_kept (kept_of_eq (translate_kept h) e)
  next e => exact kept_of_eq (translate_kept h) e

theorem depBad_kept {die : Nat} {r : List Word} {s : State} (h : s.wellKept) : (depBad die r s).2.wellKept := by
  unfold depBad
  split
  · exact h
  · exact schedRead_kept h

theorem refuseNode_kept {rp k : Nat} {s : State} (h : s.wellKept) : (refuseNode rp k s).wellKept := modReplay_kept h

theorem dispatchNode_kept {rp : Replay} {k : Nat} {s : State} (h : s.wellKept) : (dispatchNode rp k s).wellKept :=
  ite_kept (refuseNode_kept (modReplay_kept (depBad_kept h))) (depBad_kept h).same

theorem dispatchAll_kept {n : Nat} {s : State} (h : s.wellKept) : (dispatchAll n s).wellKept := by
  induction n generalizing s with
  | zero => exact h
  | succ n ih =>
    unfold dispatchAll
    split
    · exact h
    · exact ih (foldl_kept (fun _ _ h => dispatchNode_kept h) h)

theorem rmwAt_kept {ctx : Nat} {t : Target} {n : Nat} {f : Word → Word} {s : State} (h : s.wellKept) : (rmwAt ctx t n f s).2.wellKept :=
  homeBytes_kept (l2Amo_kept h)

theorem bumpWord_kept {rq : Req} {va : Word} {f : Word → Word} {s : State} (h : s.wellKept) : (bumpWord rq va f s).wellKept := by
  unfold bumpWord
  split
  next e => exact kept_of_eq (translate_kept h) e
  next e => exact rmwAt_kept (kept_of_eq (translate_kept h) e)
  next e => exact kept_of_eq (translate_kept h) e

theorem completeReplay_kept {rp : Replay} {s : State} (h : s.wellKept) : (completeReplay rp s).wellKept := bumpWord_kept h.same
theorem dispatchReady_kept {s : State} (h : s.wellKept) : (dispatchReady s).wellKept := dispatchAll_kept h
theorem completeReplays_kept {s : State} (h : s.wellKept) : (completeReplays s).wellKept := foldl_kept (fun _ _ h => completeReplay_kept h) h
theorem quitCore_kept {mesh : Nat} {s : State} (h : s.wellKept) : (quitCore mesh s).wellKept := modCore_kept h fun _ => .ite .same .same

theorem fusedFor_stays (l : Launch) (c : Core) : c.Stays (fusedFor l c) := .ite .same .same

theorem unfused_stays (id : Nat) (holder : Option Launch) (c : Core) : c.Stays (unfused id holder c) := by
  refine .ite ?_ .same
  split
  · exact .trans .same (fusedFor_stays _ _)
  · exact .same

theorem endFusion_kept {l : Launch} {s : State} (h : s.wellKept) : (endFusion l s).wellKept :=
  foldl_kept (fun _ _ h => modCore_kept h (unfused_stays _ _)) h

theorem clearStrands_kept {mesh : Nat} {s : State} (h : s.wellKept) : (clearStrands mesh s).wellKept :=
  have h1 := modCore_kept (mesh := mesh) h fun _ => .mapStrands (f := departed) fun _ ht => ht
  ite_kept (onMe_kept h1) h1

theorem freeGrant_kept {t : Strand} {s : State} (h : s.wellKept) : (freeGrant t s).wellKept :=
  modCore_kept h fun _ => .foldl (fun _ _ => .same) _ _

theorem finishLaunch_kept {l : Launch} {s : State} (h : s.wellKept) : (finishLaunch l s).wellKept := by
  have h1 : (modLaunch l.id (fun x => { x with st := .finished, area := (0, 0) }) (endFusion l
      ((rectCores l.record).foldl (fun s m => if (coreAt m s).launch = some l.id then quitCore m (clearStrands m s) else s) s))).wellKept :=
    modLaunch_kept (endFusion_kept (foldl_kept (fun _ _ h => ite_kept (quitCore_kept (clearStrands_kept h)) h) h))
  unfold finishLaunch
  extract_lets s1 s2
  split
  · exact h1
  · exact completeReplays_kept (dispatchReady_kept (modReplay_kept h1))

theorem finishIfDone_kept {id : Nat} {s : State} (h : s.wellKept) : (finishIfDone id s).wellKept := by
  unfold finishIfDone
  split
  · exact h
  · exact ite_kept (finishLaunch_kept h) h

end Sys2Proof.Machine
end

section
namespace Sys2Proof.Machine

set_option Elab.async false

open Sys2Proof.Laws

/-! ## What a copy brings to its destination (Landing) -/

theorem pieceWrites_kept {rq : Req} {acc : Access} {slice : Bool} {code : Nat} {ps : List Piece} {s : State} (h : s.wellKept) :
    (pieceWrites rq acc slice code ps s).2.wellKept := by
  induction ps generalizing s with
  | nil => exact h
  | cons p ps ih =>
    unfold pieceWrites
    split
    next e => exact kept_of_eq (scalarTargets_kept h) e
    next e =>
      have h1 := kept_of_eq (scalarTargets_kept h) e
      dsimp only
      split
      next e => exact kept_of_eq (ih h1) e
      next e => exact kept_of_eq (ih h1) e

theorem writeUnits_kept {rq : Req} {f : Nat → List Piece} {us : List (Nat × Nat)} {s : State} (h : s.wellKept) : (writeUnits rq f us s).2.2.wellKept := by
  induction us generalizing s with
  | nil => exact h
  | cons u us ih =>
    unfold writeUnits
    split
    next e => exact kept_of_eq (pieceWrites_kept h) e
    next e => exact ih (kept_of_eq (pieceWrites_kept h) e)

theorem chunkWrites_kept {c : Cmd} {rq : Req} {image : List (BitVec 8)} {first : Nat} {m : Moved} {s : State} (h : s.wellKept) :
    (chunkWrites c rq image first m s).2.2.wellKept := by
  unfold chunkWrites
  extract_lets x l y
  split
  · exact writeUnits_kept h
  · exact writeUnits_kept (writeUnits_kept h)

theorem markLanding_kept {mesh : Nat} {slots : List Nat} {s : State} (h : s.wellKept) : (markLanding mesh slots s).wellKept := modCore_kept h
theorem modCoreTag_kept {mesh : Nat} {t : Tag} {f : TagReg → TagReg} {s : State} (h : s.wellKept) : (modCoreTag mesh t f s).wellKept := modCore_kept h
theorem leaveQueue_kept {mesh : Nat} {t : Tag} {s : State} (h : s.wellKept) : (leaveQueue mesh t s).wellKept := modCore_kept h
theorem stopTag_kept {mesh : Nat} {t : Tag} {c : Cmd} {err : Nat} {record : Vector Word 4} {s : State} (h : s.wellKept) :
    (stopTag mesh t c err record s).wellKept := leaveQueue_kept (modCoreTag_kept h)

theorem stopChunk_kept {mesh : Nat} {t : Tag} {c : Cmd} {rq : Req} {mask : Word} {e : ChunkEnd} {s : State} (h : s.wellKept) :
    (stopChunk mesh t c rq mask e s).wellKept := by
  cases e <;> exact stopTag_kept h

theorem finishChunk_kept {mesh : Nat} {t : Tag} {c : Cmd} {chunk first : Nat} {m : Moved} {lines : List Nat} {s : State} (h : s.wellKept) :
    (finishChunk mesh t c chunk first m lines s).wellKept :=
  ite_kept (leaveQueue_kept (modCoreTag_kept (modCoreTag_kept h))) (modCoreTag_kept h)

theorem landChunk_kept {mesh : Nat} {t : Tag} {c : Cmd} {rq : Req} {image : List (BitVec 8)} {m : ChunkData} {s : State} (h : s.wellKept) :
    (landChunk mesh t c rq image m s).wellKept := by
  unfold landChunk
  extract_lets first d g s1 w s2
  have h1 : s1.wellKept := modCoreTag_kept h
  have h2 : s2.wellKept := homeWrites_kept (chunkWrites_kept h1)
  split
  · exact finishChunk_kept (markLanding_kept h1)
  · split
    · exact stopChunk_kept h2
    · exact finishChunk_kept h2

/-! ## Results of the parts of an instruction (Ops) -/

/-- A part of an instruction that keeps the form, whether it goes on or the instruction ends there. -/
def Res.Kept {α : Type} : Res α → Prop
  | .ok _ s => s.wellKept
  | .stop s => s.wellKept

/-- An outcome that keeps the form. -/
def Kept : Out → Prop
  | .next s => s.wellKept
  | .fault _ => True
  | .refused _ => True

namespace Res.Kept

theorem bind {α β : Type} {r : Res α} {f : α → State → Res β} (hr : r.Kept) (hf : ∀ a s, s.wellKept → (f a s).Kept) : (r.bind f).Kept := by
  cases r with
  | ok a s => exact hf a s hr
  | stop s => exact hr

theorem ite {α : Type} {c : Prop} {i : Decidable c} {r q : Res α} (hr : r.Kept) (hq : q.Kept) : (if c then r else q).Kept := by
  split
  · exact hr
  · exact hq

end Res.Kept

theorem done_kept {r : Res Unit} (h : r.Kept) : r.done.wellKept := by
  cases r <;> exact h

theorem out_kept {r : Res Unit} (h : r.Kept) : Kept r.out := done_kept h

/-! ## Registers, the end of a work group, traps (Ops) -/

theorem setG_kept {r : Fin 32} {w : Word} {s : State} (h : s.wellKept) : (setG r w s).wellKept := ite_kept h (onMe_kept h)
theorem setF_kept {r : Fin 16} {w : BitVec 32} {s : State} (h : s.wellKept) : (setF r w s).wellKept := onMe_kept h
theorem setM_kept {r : Fin 8} {p : Plane} {s : State} (h : s.wellKept) : (setM r p s).wellKept := onMe_kept h
theorem setTm_kept {r : Fin 4} {p : TileMask} {s : State} (h : s.wellKept) : (setTm r p s).wellKept := onMe_kept h
theorem dropLatch_kept {t : Strand} {l : HeldLatch} {s : State} (h : s.wellKept) : (dropLatch t l s).wellKept := rmwAt_kept h

theorem abortTag_stays (k : Fin 64) (c : Core) : c.Stays (abortTag k c) := by
  unfold abortTag
  extract_lets g
  split <;> exact .same

theorem squash_stays (sid : Nat) (c : Core) : c.Stays (squash sid c) := .same
theorem departed_mesh (t : Strand) : (departed t).mesh = t.mesh := rfl

theorem endChunk_kept {mesh : Nat} {k : Fin 64} {s : State} (h : s.wellKept) : (endChunk mesh k s).wellKept := by
  unfold endChunk
  extract_lets g
  split
  · exact ite_kept (landChunk_kept h) h
  · exact h

theorem forceStores_kept {n : Nat} {s : State} (h : s.wellKept) : (forceStores n s).wellKept := by
  induction n generalizing s with
  | zero => exact h
  | succ n ih => exact ih (forceStore_kept h)

theorem stopStrand_kept {s : State} (h : s.wellKept) : (stopStrand s).wellKept := by
  unfold stopStrand
  extract_lets s1 s2 s3 s4 s5
  have h2 : s2.wellKept := drainOut_kept (forceStores_kept h)
  have h3 : s3.wellKept := foldl_kept (fun _ _ h => onCore_kept (endChunk_kept h) (abortTag_stays _ _)) h2
  have h4 : s4.wellKept := foldl_kept (fun _ _ h => dropLatch_kept h) h3
  have h5 : s5.wellKept := h4.same
  exact onMe_kept (dropMessages_kept (freeGrant_kept (onCore_kept h5 (squash_stays _ _)))) (departed_mesh _)

theorem terminate_kept {id wg mesh reason : Nat} {s : State} (h : s.wellKept) : (terminate id wg mesh reason s).wellKept := by
  unfold terminate
  split
  · exact h
  next l _ =>
    extract_lets s1 rq s2 s3 s4
    have h1 : s1.wellKept := foldl_kept (fun _ _ h => atStrand_kept (fun _ h => stopStrand_kept h) h) h
    have h3 : s3.wellKept := (bumpWord_kept h1).same
    have h4 : s4.wellKept := foldl_kept (fun _ _ h => quitCore_kept h) h3
    exact finishIfDone_kept (modLaunch_kept h4)

theorem terminateMine_kept {reason : Nat} {s : State} (h : s.wellKept) : (terminateMine reason s).wellKept := by
  unfold terminateMine
  split
  · exact stopStrand_kept h
  · exact terminate_kept h

theorem takeTrap_kept {i : TrapInfo} {epc : Word} {s : State} (h : s.wellKept) : (takeTrap i epc s).wellKept := ite_kept (terminateMine_kept h) (onMe_kept h)
theorem trapHere_kept {i : TrapInfo} {s : State} (h : s.wellKept) : (trapHere i s).wellKept := takeTrap_kept h
theorem illop_kept {i : Instr} {e : Nat} {s : State} (h : s.wellKept) : (illop i e s).wellKept := trapHere_kept h
theorem illegal_kept {α : Type} {i : Instr} {s : State} (h : s.wellKept) : (illegal i s : Res α).Kept := illop_kept h
theorem require_kept {i : Instr} {ok : Bool} {s : State} (h : s.wellKept) : (require i ok s).Kept := .ite h (illegal_kept h)
theorem xlate_kept {acc : Access} {va : Word} {x : XFault} {s : State} (h : s.wellKept) : (xlate acc va x s).wellKept := trapHere_kept h

theorem goodData_kept {va : Word} {ls : List Loc} {s : State} (h : s.wellKept) : (goodData va ls s).Kept := by
  unfold goodData
  split
  · exact trapHere_kept h
  · exact h

theorem ownFirst_kept {ls : List Loc} {s : State} (h : s.wellKept) : (ownFirst ls s).Kept :=
  have h1 : (settle .scalar ls (drainQueue s)).wellKept := settle_kept (drainQueue_kept h)
  .ite h1 h1

theorem storeTrap_kept {s : State} (h : s.wellKept) : (storeTrap s).wellKept := trapHere_kept h
theorem deliverKnown_kept {s : State} (h : s.wellKept) : (deliverKnown s).Kept :=
  .ite (storeTrap_kept (drainQueue_kept h)) (.ite (drainQueue_kept h) (drainQueue_kept h))
theorem deliverStores_kept {s : State} (h : s.wellKept) : (deliverStores s).Kept := .bind (deliverKnown_kept h) fun _ _ h => .ite h h

theorem restoreHeld_mesh (x : Held) (t : Strand) : (restoreHeld x t).mesh = t.mesh := by
  unfold restoreHeld
  split <;> rfl

theorem leaveHandler_mesh (t : Strand) : (leaveHandler t).mesh = t.mesh := by
  dsimp only [leaveHandler]
  split
  · rfl
  · split
    · rfl
    · split
      · rfl
      · exact restoreHeld_mesh _ _

theorem advance_kept {s : State} (h : s.wellKept) : (advance s).wellKept := onMe_kept h (advanced_mesh _)
theorem jump_kept {target : Word} {s : State} (h : s.wellKept) : (jump target s).wellKept := onMe_kept h (jumped_mesh _ _)
theorem waitFor_kept {l : Loc} {s : State} (h : s.wellKept) : (waitFor l s).wellKept := h.same
theorem unwatch_kept {s : State} (h : s.wellKept) : (unwatch s).wellKept := h.same
theorem raise_kept {fl : Nat} {s : State} (h : s.wellKept) : (raise fl s).wellKept := onMe_kept h

/-! ## Operands -/

theorem scalarTargetsValue_kept {t : Target} {s : State} (h : s.wellKept) : (patchRead.scalarTargetsValue t s).2.wellKept := by
  cases t with
  | mem pa mt => exact read8_kept h
  | scratch m off => exact h
  | remote e => exact h

theorem patchRead_kept {va : Word} {s : State} (h : s.wellKept) : (patchRead va s).Kept := by
  unfold patchRead
  split
  · exact h
  · split
    next e => exact xlate_kept (kept_of_eq (translate_kept h) e)
    next t s1 e =>
      have h1 := scalarTargetsValue_kept (t := t) (kept_of_eq (translate_kept h) e)
      exact onMe_kept (ite_kept (draw_kept h1) h1)

theorem immValue_kept {i : BitVec 14} {s : State} (h : s.wellKept) : (immValue i s).Kept := .ite (patchRead_kept h) h

theorem stopPart_mesh (r : HeldReg) (stop flags : Nat) (t : Strand) : (stopPart r stop flags t).mesh = t.mesh := by
  unfold stopPart
  split <;> rfl

theorem retire_kept {s : State} (h : s.wellKept) : (retire s).wellKept := advance_kept (onMe_kept h)
theorem clearQuota_kept {s : State} (h : s.wellKept) : (clearQuota s).wellKept := h.same
theorem markPlanes_kept {d : Fin 32} {s : State} (h : s.wellKept) : (markPlanes d s).wellKept := onCore_kept h
theorem mapTo_kept {d : Fin 32} {tag : BitVec 16} {s : State} (h : s.wellKept) : (mapTo d tag s).wellKept := markPlanes_kept (onMe_kept h)
theorem remap_kept {d : Fin 32} {ps : List (Option Nat)} {s : State} (h : s.wellKept) : (remap d ps s).wellKept := by
  unfold remap
  exact onCore_kept (onMe_kept h)

theorem takes_kept {n : Nat} {s : State} (h : s.wellKept) : (takes n s).Kept := .ite h h

theorem writeV_kept {d : Fin 32} {w : VWrite} {flags : Nat} {s : State} (h : s.wellKept) : (writeV d w flags s).wellKept := by
  have h1 : (mapTo d w.tag s).wellKept := mapTo_kept h
  exact ite_kept (retire_kept (clearQuota_kept (onMe_kept (raise_kept h1))))
    (ite_kept (clearQuota_kept h) (clearQuota_kept (onMe_kept h1 (stopPart_mesh _ _ _ _))))

theorem poisonElements_kept {d : Fin 32} {pc : Word} {es : List Nat} {s : State} (h : s.wellKept) : (poisonElements d pc es s).wellKept :=
  ite_kept h (onMe_kept h)
theorem vqueue_kept {i : Instr} {s : State} (h : s.wellKept) : (vqueue i s).Kept := require_kept h
theorem whole_kept {i : Instr} {s : State} (h : s.wellKept) : (whole i s).Kept := .bind (vqueue_kept h) fun _ _ h => require_kept h
theorem fits_kept {i : Instr} {d : Fin 32} {tag : BitVec 16} {s : State} (h : s.wellKept) : (fits i d tag s).Kept :=
  .bind (require_kept h) fun _ _ h => .ite h h
theorem poisonTrap_kept {cls num e : Nat} {producer : Word} {s : State} (h : s.wellKept) : (poisonTrap cls num e producer s).wellKept :=
  trapHere_kept (onMe_kept h)

theorem elementwise_kept {d : Fin 32} {srcs : List (Fin 32 × VReg)} {tag : BitVec 16} {act : Nat → Bool} {f : Nat → Nat × Nat} {scale : Nat → Nat} {s : State}
    (h : s.wellKept) : (elementwise d srcs tag act f scale s).wellKept := by
  unfold elementwise
  extract_lets upTo
  split
  · exact poisonTrap_kept (writeV_kept h)
  · exact writeV_kept h

theorem writeM_kept {d : Fin 8} {stop : Nat} {bits : List Bool} {s : State} (h : s.wellKept) : (writeM d stop bits s).wellKept :=
  ite_kept (retire_kept (clearQuota_kept (onMe_kept h))) (clearQuota_kept (onMe_kept (onMe_kept h) (stopPart_mesh _ _ _ _)))

theorem askLeave_kept {array : Bool} {steps : Nat} {s : State} (h : s.wellKept) : (askLeave array steps s).Kept := by
  unfold askLeave
  split
  · exact onMe_kept h
  · exact h
  · exact onMe_kept h

/-! ## Scalar integers, control flow, grants -/

theorem aluT_kept {f : Word → Word → Word} {d a b : GReg} {s : State} (h : s.wellKept) : (aluT f d a b s).wellKept := advance_kept (setG_kept h)
theorem aluI_kept {f : Word → Word → Word} {d a : GReg} {i : BitVec 14} {s : State} (h : s.wellKept) : (aluI f d a i s).wellKept :=
  done_kept (.bind (immValue_kept h) fun _ _ h => advance_kept (setG_kept h))

theorem readHome8_kept {va : Word} {s : State} (h : s.wellKept) : (readHome8 va s).Kept := by
  unfold readHome8
  split
  next e => exact xlate_kept (kept_of_eq (translate_kept h) e)
  next e => exact .bind (ownFirst_kept (kept_of_eq (translate_kept h) e)) fun _ _ h => scalarTargetsValue_kept h

theorem acquirePub_kept {l : Word} {t : Target} {s : State} (h : s.wellKept) : (acquirePub l t s).wellKept := acquireCopies_kept h

theorem grantOf_kept {req : Nat} {base : Word} {pub : Option Word} {s : State} (h : s.wellKept) : (grantOf req base pub s).Kept := by
  unfold grantOf
  extract_lets l
  split
  · exact h
  · exact .bind (readHome8_kept h) fun _ _ h => .ite (acquirePub_kept (unwatch_kept h))
      (.ite (ite_kept (acquirePub_kept (unwatch_kept h)) (unwatch_kept h)) (.ite (unwatch_kept h) (waitFor_kept h)))

theorem execVcfg_kept {d : VRegN} {i : BitVec 14} {s : State} (h : s.wellKept) : Kept (execVcfg d i s) :=
  out_kept (.bind (immValue_kept h) fun _ _ h => .bind (vqueue_kept h) fun _ _ h => .bind (require_kept h) fun _ _ h => .bind (takes_kept h) fun _ _ h =>
    advance_kept (onMe_kept (remap_kept h)))

theorem execSetvl_kept {d a b : GReg} {s : State} (h : s.wellKept) : Kept (execSetvl d a b s) :=
  out_kept (.bind (vqueue_kept h) fun _ _ h => .bind (require_kept h) fun _ _ h => .bind (grantOf_kept h) fun _ _ h => advance_kept (setG_kept (onMe_kept h)))

theorem execSetmode_kept {a : GReg} {k : BitVec 4} {s : State} (h : s.wellKept) : Kept (execSetmode a k s) :=
  out_kept (.bind (vqueue_kept h) fun _ _ h => .bind (require_kept h) fun _ _ h => advance_kept (onMe_kept h))

theorem notFinal_kept {i : Instr} {s : State} (h : s.wellKept) : (notFinal i s).Kept := require_kept h

theorem branch_kept {i : Instr} {r : Word → Word → Bool} {d a : GReg} {o : BitVec 14} {s : State} (h : s.wellKept) : Kept (branch i r d a o s) :=
  out_kept (.bind (notFinal_kept h) fun _ _ h => ite_kept (jump_kept h) (advance_kept h))

theorem execJr_kept {d a : GReg} {i : BitVec 14} {s : State} (h : s.wellKept) : Kept (execJr d a i s) :=
  out_kept (.bind (immValue_kept h) fun _ _ h => .bind (notFinal_kept h) fun _ _ h => .bind (require_kept h) fun _ _ h => jump_kept (setG_kept h))

theorem execLoop_kept {k : LcN} {a : GReg} {l : BitVec 14} {s : State} (h : s.wellKept) : Kept (execLoop k a l s) :=
  out_kept (.bind (immValue_kept h) fun _ _ h => .bind (notFinal_kept h) fun _ _ h => .bind (require_kept h) fun _ _ h => ite_kept (jump_kept h) (onMe_kept h))

theorem stripPointer_kept {a : GReg} {w : Word} {v k : Nat} {s : State} (h : s.wellKept) : (stripPointer a w v k s).wellKept := ite_kept h (setG_kept h)

theorem execStrip_kept {d a b : GReg} {o : BitVec 9} {s : State} (h : s.wellKept) : Kept (execStrip d a b o s) := by
  refine out_kept (.bind (vqueue_kept h) fun _ _ h => .bind (notFinal_kept h) fun _ _ h => .bind (require_kept h) fun _ _ h => .bind (grantOf_kept h) fun _ _ h => ?_)
  have h1 {n g base} {v w} := onMe_kept (f := fun t => { t with sbase := base, vl := g })
    (foldl_kept (f := fun s k => stripPointer a w v k s) (xs := List.range 4) (fun _ _ h => stripPointer_kept h) (setG_kept (r := d) (w := wd n) h))
  exact ite_kept (jump_kept h1) (advance_kept h1)

/-! ## Loads, stores, fences and atomics -/

theorem formAddr_kept {a : GReg} {i : BitVec 14} {s : State} (h : s.wellKept) : (formAddr a i s).Kept := .bind (immValue_kept h) fun _ _ h => h

theorem loadValue_kept {float : Bool} {size : Nat} {va : Word} {s : State} (h : s.wellKept) : (loadValue float size va s).Kept := by
  unfold loadValue
  split
  next e => exact xlate_kept (kept_of_eq (scalarTargets_kept h) e)
  next e =>
    exact .bind (goodData_kept (kept_of_eq (scalarTargets_kept h) e)) fun _ _ h => .ite (drainQueue_kept h) (scalarLoad_kept h)

theorem loadG_kept {size : Nat} {f : Word → Word} {d a : GReg} {i : BitVec 14} {s : State} (h : s.wellKept) : Kept (loadG size f d a i s) :=
  out_kept (.bind (formAddr_kept h) fun _ _ h => .bind (loadValue_kept h) fun _ _ h => advance_kept (setG_kept h))

theorem execLdF_kept {d : FReg} {a : GReg} {i : BitVec 14} {s : State} (h : s.wellKept) : Kept (execLdF d a i s) :=
  out_kept (.bind (formAddr_kept h) fun _ _ h => .bind (loadValue_kept h) fun _ _ h => advance_kept (setF_kept h))

theorem storeWord_kept {float : Bool} {size : Nat} {data : Word} {a : GReg} {i : BitVec 14} {s : State} (h : s.wellKept) :
    Kept (storeWord float size data a i s) :=
  out_kept (.bind (formAddr_kept h) fun _ _ h => .ite (storeRoom_kept h) (advance_kept (enqueueStore_kept (storeRoom_kept h))))

theorem performAll_kept {s : State} (h : s.wellKept) : (performAll s).wellKept := releaseWrites_kept h

theorem releaseAt_kept {scalar vector : Bool} {p : Option Word → Bool} {scope : Scope} {s : State} (h : s.wellKept) :
    (releaseAt scalar vector p scope s).Kept := .ite (releaseWrites_kept h) (releaseWrites_kept h)

theorem fenceRelease_kept {scalar vector : Bool} {scope : Scope} {s : State} (h : s.wellKept) : (fenceRelease scalar vector scope s).Kept := releaseAt_kept h
theorem fenceAcquire_kept {scope : Scope} {s : State} (h : s.wellKept) : (fenceAcquire scope s).wellKept := acquireCopies_kept h
theorem fenceAll_kept {scope : Scope} {s : State} (h : s.wellKept) : (fenceAll scope s).Kept :=
  .bind (fenceRelease_kept h) fun _ _ h => fenceAcquire_kept h
theorem amoFence_kept {scope : Nat} {s : State} (h : s.wellKept) : (amoFence scope s).Kept := .ite h (fenceAll_kept h)

theorem rmwHome_kept {va : Word} {t : Target} {n : Nat} {f : Word → Word} {s : State} (h : s.wellKept) : (rmwHome va t n f s).Kept :=
  .bind (ownFirst_kept h) fun _ _ h => .bind (goodData_kept h) fun _ _ h => rmwAt_kept h

theorem endCall_kept {m : RemoteMsg} {s : State} (h : s.wellKept) : (endCall m s).wellKept := onMe_kept h.same
theorem remoteCall_kept {e : Nat} {va : Word} {op : RemoteOp} {s : State} (h : s.wellKept) : (remoteCall e va op s).wellKept := onMe_kept (sendRemote_kept h)

theorem remoteAnswer_kept {i : Instr} {va : Word} {m : RemoteMsg} {s : State} (h : s.wellKept) : (remoteAnswer i va m s).Kept := by
  unfold remoteAnswer
  split
  · exact h
  · exact endCall_kept h
  · exact endCall_kept h
  · exact xlate_kept (endCall_kept h)
  · exact illegal_kept (endCall_kept h)

theorem amoAccess_kept {i : Instr} {op : AmoOp} {uns w : Bool} {va b e : Word} {s : State} (h : s.wellKept) : (amoAccess i op uns w va b e s).Kept := by
  unfold amoAccess
  extract_lets n
  split
  · exact remoteAnswer_kept h
  · split
    next e => exact xlate_kept (kept_of_eq (translate_kept h) e)
    next e => exact remoteCall_kept (kept_of_eq (translate_kept h) e)
    next e => exact rmwHome_kept (kept_of_eq (translate_kept h) e)

theorem amo_kept {i : Instr} {op : AmoOp} {uns : Bool} {d a b : GReg} {w : Bool} {scope : Nat} {s : State} (h : s.wellKept) :
    Kept (amo i op uns d a b w scope s) :=
  out_kept (.bind (require_kept h) fun _ _ h => .bind (amoFence_kept h) fun _ _ h => .bind (amoAccess_kept h) fun _ _ h => .bind (amoFence_kept h) fun _ _ h =>
    advance_kept (setG_kept h))

end Sys2Proof.Machine
end

section
namespace Sys2Proof.Machine

set_option Elab.async false

open Sys2Proof.Laws

/-! ## DRAM -/

theorem modCtrl_kept {die ctrl : Nat} {f : Ctrl → Ctrl} {s : State} (h : s.wellKept) : (modCtrl die ctrl f s).wellKept := h.same
theorem manageRow_kept {k : BankId} {row t : Nat} {s : State} (h : s.wellKept) : (manageRow k row t s).wellKept := modCtrl_kept (modBank_kept h)
theorem openRow_kept {k : BankId} {row : Nat} {s : State} (h : s.wellKept) : (openRow k row s).2.wellKept := modBank_kept (modCtrl_kept h)
theorem activateRow_kept {k : BankId} {row t : Nat} {s : State} (h : s.wellKept) : (activateRow k row t s).wellKept :=
  ite_kept (manageRow_kept (openRow_kept h)) (openRow_kept h)

theorem dramDuring_kept {k : BankId} {r : BankReq} {rest : List BankReq} {x n : Nat} {s : State} (h : s.wellKept) :
    (dramDuring k r rest x n s).wellKept := by
  unfold dramDuring
  extract_lets t c b b1 s1 p s2
  have hp : p.2.wellKept := by
    unfold p
    split
    · exact modBank_kept h
    · exact openRow_kept (modBank_kept h)
  exact ite_kept (manageRow_kept (modBank_kept hp)) (modBank_kept hp)

theorem dramServe_kept {k : BankId} {s : State} (h : s.wellKept) : (dramServe k s).wellKept := by
  unfold dramServe
  extract_lets t
  split
  · exact h
  · refine ite_kept h (ite_kept ?_ (ite_kept (modBank_kept h) (activateRow_kept (modBank_kept h))))
    split
    · exact h
    · exact dramDuring_kept h

theorem settleAt_kept {k : BankId} {s : State} (h : s.wellKept) : (settleAt k s).wellKept := ite_kept (modBank_kept h) h
theorem countSample_kept {die ctrl n : Nat} {s : State} (h : s.wellKept) : (countSample die ctrl n s).wellKept := modDie_kept h

theorem execHbmTempSample_kept {die ctrl : Nat} {c : Int} {s : State} (h : s.wellKept) : Kept (execHbmTempSample die ctrl c s) :=
  ite_kept h (ite_kept (ite_kept (countSample_kept (modCtrl_kept h)) h) (ite_kept h (countSample_kept (modCtrl_kept h))))

theorem execRefreshModeChange_kept {die ctrl : Nat} {s : State} (h : s.wellKept) : Kept (execRefreshModeChange die ctrl s) := by
  refine ite_kept h ?_
  split
  · exact h
  · exact ite_kept h (modCtrl_kept h)

theorem modIsland_kept {die i : Nat} {f : Island → Island} {s : State} (h : s.wellKept) : (modIsland die i f s).wellKept := h.same
theorem execThermSample_kept {die island : Nat} {c : Int} {s : State} (h : s.wellKept) : Kept (execThermSample die island c s) := ite_kept h (modIsland_kept h)

/-! ## Tags -/

theorem modTag_kept {k : Tag} {f : TagReg → TagReg} {s : State} (h : s.wellKept) : (modTag k f s).wellKept := onCore_kept h
theorem observeTag_kept {p : Nat → Bool} {k : Tag} {s : State} (h : s.wellKept) : (observeTag p k s).wellKept :=
  ite_kept h (foldl_kept (fun _ _ h => modCore_kept h) h)
theorem observeDone_kept {k : Tag} {s : State} (h : s.wellKept) : (observeDone k s).wellKept := observeTag_kept h
theorem mergeTag_kept {k : Tag} {s : State} (h : s.wellKept) : (mergeTag k s).wellKept := ite_kept h (modTag_kept (raise_kept h))
theorem takeTags_kept {ks : List Tag} {s : State} (h : s.wellKept) : (takeTags ks s).wellKept :=
  foldl_kept (fun _ _ h => modTag_kept (mergeTag_kept (observeDone_kept h))) h
theorem deliverTag_kept {k : Tag} {s : State} (h : s.wellKept) : (deliverTag k s).Kept := .ite (trapHere_kept (modTag_kept h)) h

theorem deliverFirst_kept {ks : List Tag} {s : State} (h : s.wellKept) : (deliverFirst ks s).Kept := by
  unfold deliverFirst
  split
  · exact deliverTag_kept h
  · exact h

theorem tagInstr_kept {i : Instr} {a : GReg} {wait : List Tag → List Tag → Bool} {pick : List Tag → List Tag} {write : List Tag → State → State} {s : State}
    (h : s.wellKept) (hw : ∀ ks s, s.wellKept → (write ks s).wellKept) : Kept (tagInstr i a wait pick write s) :=
  out_kept (.bind (vqueue_kept h) fun _ _ h => .bind (require_kept h) fun _ _ h =>
    .ite h (.bind (deliverFirst_kept h) fun _ _ h => advance_kept (hw _ _ (takeTags_kept h))))

theorem execFfrdy_kept {d a : GReg} {s : State} (h : s.wellKept) : Kept (execFfrdy d a s) := tagInstr_kept h fun _ _ h => setG_kept h
theorem oneTag_kept {i : Instr} {k : Tag} {s : State} (h : s.wellKept) : (oneTag i k s).Kept := .bind (vqueue_kept h) fun _ _ h => require_kept h

theorem execTagcnt_kept {d : GReg} {k : Tag} {s : State} (h : s.wellKept) : Kept (execTagcnt d k s) :=
  out_kept (.bind (oneTag_kept h) fun _ _ h => .bind (deliverTag_kept h) fun _ _ h => advance_kept (setG_kept (observeTag_kept h)))
theorem execTagmask_kept {d : MReg} {k : Tag} {s : State} (h : s.wellKept) : Kept (execTagmask d k s) :=
  out_kept (.bind (oneTag_kept h) fun _ _ h => .bind (deliverTag_kept h) fun _ _ h => advance_kept (setM_kept (ite_kept h (observeDone_kept h))))

theorem commitWrite_kept {g : TagReg} {c : Cmd} {s : State} (h : s.wellKept) : (commitWrite g c s).wellKept := by
  unfold commitWrite
  exact onMe_kept (mapTo_kept h)


theorem execCommit_kept {k : Tag} {s : State} (h : s.wellKept) : Kept (execCommit k s) := by
  refine out_kept (.bind (oneTag_kept h) fun _ s h => ?_)
  dsimp only
  split
  · exact illegal_kept h
  · refine .bind (require_kept h) fun _ _ h => .bind (require_kept h) fun _ _ h => .ite h (.bind (deliverTag_kept h) fun _ _ h => ?_)
    have h1 := modTag_kept (k := k) (f := freeTag) (mergeTag_kept (k := k) (observeDone_kept (k := k) h))
    exact .ite (advance_kept h1) (.ite (advance_kept (commitWrite_kept h1)) h)

/-! ## Latches, bindings, fences, publications -/

theorem latchPlace_kept {i : Instr} {align : Nat} {va : Word} {s : State} (h : s.wellKept) : (latchPlace i align va s).Kept := by
  refine .bind (require_kept h) fun _ _ h => ?_
  split
  next e => exact xlate_kept (kept_of_eq (translate_kept h) e)
  next e => exact .bind (require_kept (kept_of_eq (translate_kept h) e)) fun _ _ h => h
  next e => exact illegal_kept (kept_of_eq (translate_kept h) e)

theorem latchRead_kept {i : Instr} {va : Word} {s : State} (h : s.wellKept) : (latchRead i va s).Kept :=
  .bind (latchPlace_kept h) fun _ _ h => .bind (ownFirst_kept h) fun _ _ h => .bind (goodData_kept h) fun _ _ h =>
    .bind (require_kept (homeRead_kept h)) fun _ _ h => h

theorem latchSwap_kept {t : Target} {w new : Word} {s : State} (h : s.wellKept) : (latchSwap t w new s).2.wellKept := rmwAt_kept h
theorem acquireEffects_kept {va : Word} {s : State} (h : s.wellKept) : (acquireEffects va s).wellKept := acquireCopies_kept h
theorem releaseEffects_kept {va : Word} {s : State} (h : s.wellKept) : (releaseEffects va s).Kept := releaseAt_kept h
theorem setRlat_kept {s : State} (h : s.wellKept) : (setRlat s).wellKept := onMe_kept h

theorem holdLatch_kept {va : Word} {t : Target} {s : State} (h : s.wellKept) : (holdLatch va t s).wellKept := by
  refine onMe_kept h ?_
  split <;> rfl

theorem dropHeld_kept {va : Word} {s : State} (h : s.wellKept) : (dropHeld va s).wellKept := onMe_kept h

theorem acquireOnce_kept {i : Instr} {va : Word} {s : State} (h : s.wellKept) : (acquireOnce i va s).Kept :=
  .bind (latchRead_kept h) fun _ _ h => .ite (.ite (acquireEffects_kept (holdLatch_kept (setRlat_kept h))) (illegal_kept h))
    (.ite h (acquireEffects_kept (holdLatch_kept (latchSwap_kept h))))

theorem execAcq_kept {a : GReg} {s : State} (h : s.wellKept) : Kept (execAcq a s) :=
  out_kept (.bind (acquireOnce_kept h) fun _ _ h => .ite (advance_kept (unwatch_kept h)) (waitFor_kept h))
theorem execTryacq_kept {d a : GReg} {s : State} (h : s.wellKept) : Kept (execTryacq d a s) :=
  out_kept (.bind (acquireOnce_kept h) fun _ _ h => advance_kept (setG_kept h))
theorem execAcqObs_kept {d a : GReg} {s : State} (h : s.wellKept) : Kept (execAcqObs d a s) :=
  out_kept (.bind (latchRead_kept h) fun _ _ h => .ite (illegal_kept h) (.ite (waitFor_kept h) (advance_kept (setG_kept (acquireEffects_kept (unwatch_kept h))))))

theorem releaseLatch_kept {i : Instr} {va : Word} {s : State} (h : s.wellKept) : (releaseLatch i va s).Kept := by
  refine .bind (latchRead_kept h) fun r _ h => .ite (.bind (releaseEffects_kept h) fun _ _ h => ?_)
    (.ite (.bind (releaseEffects_kept h) fun _ _ h => dropHeld_kept (setRlat_kept h)) (illegal_kept h))
  extract_lets old
  have ho : old.2.wellKept := latchSwap_kept (t := r.2) (w := r.1) (new := releasedWord r.1) h
  clear_value old
  exact .bind (require_kept ho) fun _ _ h => dropHeld_kept h

theorem execRel_kept {a : GReg} {s : State} (h : s.wellKept) : Kept (execRel a s) :=
  out_kept (.bind (deliverStores_kept h) fun _ _ h => .bind (releaseLatch_kept h) fun _ _ h => advance_kept h)

theorem drainAll_kept {s : State} (h : s.wellKept) : (drainAll s).Kept := .ite (performAll_kept h) (performAll_kept h)
theorem modBindings_kept {ctx : Nat} {f : List Binding → List Binding} {s : State} (h : s.wellKept) : (modBindings ctx f s).wellKept := h.same
theorem discardRegion_kept {ctx first last : Nat} {s : State} (h : s.wellKept) : (discardRegion ctx first last s).wellKept := mapCores_kept h
theorem writeEntry_kept {e : Nat} {ws : List Word} {s : State} (h : s.wellKept) : (writeEntry e ws s).wellKept := homeWrite_kept h
theorem newBinding_kept {e base last : Nat} {latch : Word} {scope : Nat} {s : State} (h : s.wellKept) : (newBinding e base last latch scope s).wellKept :=
  modBindings_kept (writeEntry_kept h)
theorem clearBinding_kept {b : Binding} {s : State} (h : s.wellKept) : (clearBinding b s).wellKept :=
  modBindings_kept (writeEntry_kept (discardRegion_kept h))

theorem execBind_kept {d a b : GReg} {c : BitVec 3} {s : State} (h : s.wellKept) : Kept (execBind d a b c s) :=
  out_kept (.bind (drainAll_kept h) fun _ _ h => advance_kept (setG_kept (ite_kept (newBinding_kept (discardRegion_kept h)) (discardRegion_kept h))))

theorem execUnbind_kept {d a : GReg} {s : State} (h : s.wellKept) : Kept (execUnbind d a s) := by
  refine out_kept (.bind (drainAll_kept h) fun _ _ h => ?_)
  split
  · exact advance_kept (setG_kept h)
  · exact advance_kept (setG_kept (clearBinding_kept h))

theorem execFence_kept {t : Fin 5} {c : BitVec 3} {s : State} (h : s.wellKept) : Kept (execFence t c s) :=
  out_kept (.bind (.ite (deliverStores_kept h) (deliverKnown_kept h)) fun _ _ h => .bind (fenceRelease_kept h) fun _ _ h => advance_kept (fenceAcquire_kept h))
theorem execDrainst_kept {s : State} (h : s.wellKept) : Kept (execDrainst s) :=
  out_kept (.bind (deliverStores_kept h) fun _ _ h => .bind (drainAll_kept h) fun _ _ h => advance_kept h)

theorem execPfenceDie_kept {s : State} (h : s.wellKept) : Kept (execPfenceDie s) := by
  refine out_kept (.bind (deliverStores_kept h) fun _ _ h => ?_)
  split
  · exact .ite (advance_kept (performAll_kept h)) (onMe_kept (performAll_kept h))
  · exact .ite (advance_kept (onMe_kept h)) h

theorem execPfenceCore_kept {s : State} (h : s.wellKept) : Kept (execPfenceCore s) :=
  out_kept (.bind (deliverStores_kept h) fun _ _ h => onCore_kept (advance_kept h))

theorem passBarrier_kept {scope : Scope} {s : State} (h : s.wellKept) : (passBarrier scope s).wellKept := advance_kept (onMe_kept (fenceAcquire_kept h))

theorem execBar_kept {s : State} (h : s.wellKept) : Kept (execBar s) := by
  refine out_kept (.bind (deliverStores_kept h) fun _ _ h => ?_)
  split
  · exact .bind (fenceRelease_kept h) fun _ _ h => passBarrier_kept h
  · extract_lets wg scope
    clear_value wg scope
    refine .bind (fenceRelease_kept h) fun _ _ h => .ite (passBarrier_kept h) ?_
    extract_lets s1
    have h1 : s1.wellKept := onMe_kept h
    clear_value s1
    generalize (wgMembers _ wg s1).all _ = arrived
    exact .ite (passBarrier_kept (modLaunch_kept h1)) h1

theorem publishAt_kept {ctx : Nat} {t : Target} {fin_ : Bool} {n : Nat} {remote : Bool} {s : State} (h : s.wellKept) :
    (publishAt ctx t fin_ n remote s).wellKept := by
  unfold publishAt
  extract_lets ls ws s1 mark
  have h1 : s1.wellKept := homeBytes_kept (l2Amo_kept h)
  exact h1.same

theorem publish_kept {i : Instr} {fin_ : Bool} {a b : GReg} {s : State} (h : s.wellKept) : Kept (publish i fin_ a b s) := by
  refine out_kept (.bind (deliverStores_kept h) fun _ _ h => .bind (require_kept h) fun _ _ h => ?_)
  split
  · exact .bind (remoteAnswer_kept h) fun _ _ h => advance_kept h
  split
  · split
    · exact xlate_kept h
    · exact .ite (releaseWrites_kept h) (remoteCall_kept (releaseWrites_kept h))
  · exact .bind (latchPlace_kept h) fun _ _ h => .bind (ownFirst_kept h) fun _ _ h => .bind (goodData_kept h) fun _ _ h => .bind (require_kept h) fun _ _ h =>
      .bind (releaseEffects_kept h) fun _ _ h => advance_kept (publishAt_kept h)

theorem loadRecord_kept {va : Word} {s : State} (h : s.wellKept) : (loadRecord va s).Kept := by
  unfold loadRecord
  split
  next e => exact xlate_kept (kept_of_eq (translate_kept h) e)
  next e => exact .bind (goodData_kept (kept_of_eq (translate_kept h) e)) fun _ _ h => readBytes_kept (countNc_kept h)

theorem putSlot_kept {d k : Nat} {r : List Word} {s : State} (h : s.wellKept) : (putSlot d k r s).wellKept := by
  unfold putSlot
  exact modQueue_kept (homeWrite_kept h)


theorem execLaunch_kept {d a b : GReg} {s : State} (h : s.wellKept) : Kept (execLaunch d a b s) :=
  out_kept (.bind (deliverStores_kept h) fun _ _ h => .bind (require_kept h) fun _ _ h => .bind (fenceRelease_kept h) fun _ _ h =>
    .bind (loadRecord_kept h) fun _ _ h => advance_kept (setG_kept (ite_kept (putSlot_kept h) (ite_kept (modQueue_kept h) h))))

/-! ## The Muslin layer: shadows, power, losses -/

theorem execShadowInterval_kept {mesh : Nat} {s : State} (h : s.wellKept) : Kept (execShadowInterval mesh s) :=
  ite_kept (modCore_kept h fun _ => .ite .same .same) h

theorem drainCore_kept {mesh : Nat} {s : State} (h : s.wellKept) : (drainCore mesh s).wellKept :=
  foldl_kept (fun _ _ h => atStrand_kept (fun _ h => performAll_kept h) h) h

theorem beginCopy_kept {mesh : Nat} {s : State} (h : s.wellKept) : (beginCopy mesh s).wellKept := modCore_kept h.same

theorem execShadowWrite_kept {mesh : Nat} {s : State} (h : s.wellKept) : Kept (execShadowWrite mesh s) := by
  have hd := drainCore_kept (mesh := mesh) h
  simp only [execShadowWrite, Kept]
  split
  · exact ite_kept (beginCopy_kept h) h
  · exact ite_kept (ite_kept hd (modCoreStrands_kept (modCore_kept hd) fun _ ht => ht)) h

theorem execShadowSeal_kept {mesh : Nat} {s : State} (h : s.wellKept) : Kept (execShadowSeal mesh s) := by
  simp only [execShadowSeal, Kept]
  split
  · exact h
  · exact ite_kept h (modCoreStrands_kept (modCore_kept (draw_kept h)) fun _ ht => ht)

theorem restoredCore_stays (c k : Core) : c.Stays (restoredCore c k) := .same

theorem resumedStrand_mesh (cause : Nat) (rc : Word) (t x : Strand) : (resumedStrand cause rc t x).mesh = t.mesh := by
  unfold resumedStrand
  split
  · rfl
  · split <;> rfl

theorem resumeFrom_kept {mesh cause : Nat} {k : Fin 2} {s : State} (h : s.wellKept) : (resumeFrom mesh cause k s).wellKept := by
  unfold resumeFrom
  split
  · exact h
  · exact modCoreStrands_kept (modCore_kept h) fun t ht => (resumedStrand_mesh _ _ t _).trans ht

theorem countTorn_kept {mesh : Nat} {s : State} (h : s.wellKept) : (countTorn mesh s).wellKept := modCore_kept h

theorem terminateCore_kept {mesh reason : Nat} {s : State} (h : s.wellKept) : (terminateCore mesh reason s).wellKept := by
  unfold terminateCore
  split
  · exact h
  · split
    · exact h
    · exact terminate_kept h

theorem resumeCore_kept {mesh cause : Nat} {s : State} (h : s.wellKept) : (resumeCore mesh cause s).wellKept := by
  have h1 := countTorn_kept (mesh := mesh) h
  dsimp only [resumeCore]
  split
  · exact terminateCore_kept h1
  · exact resumeFrom_kept h1

theorem flushOut_kept {mesh : Nat} {s : State} (h : s.wellKept) : (flushOut mesh s).wellKept := drainOut_kept h
theorem sleepIsland_kept {mesh : Nat} {s : State} (h : s.wellKept) : (sleepIsland mesh s).wellKept := by
  unfold sleepIsland
  exact ite_kept h h.same

theorem forgetCore_kept {mesh : Nat} {s : State} (h : s.wellKept) : (forgetCore mesh s).wellKept := dropMessages_kept h.same
theorem removePower_kept {mesh : Nat} {s : State} (h : s.wellKept) : (removePower mesh s).wellKept :=
  sleepIsland_kept (forgetCore_kept (modCoreStrands_kept (modCore_kept (flushOut_kept h)) fun _ ht => ht))

theorem execPlannedPowerDown_kept {mesh : Nat} {s : State} (h : s.wellKept) : Kept (execPlannedPowerDown mesh s) :=
  ite_kept h (ite_kept (ite_kept h (modCore_kept h)) (ite_kept h (removePower_kept h)))

theorem disableThin_kept {mesh : Nat} {s : State} (h : s.wellKept) : (disableThin mesh s).wellKept := ite_kept h (modDie_kept h)

theorem execPowerUp_kept {mesh : Nat} {s : State} (h : s.wellKept) : Kept (execPowerUp mesh s) := by
  have h1 := disableThin_kept (mesh := mesh) (modCore_kept (mesh := mesh) (f := poweredCore (cycleOf mesh s)) h)
  exact ite_kept h (ite_kept h1 (ite_kept (terminateCore_kept h1) (ite_kept (terminateCore_kept h1) (resumeCore_kept h1))))

theorem unsave_kept {mesh : Nat} {s : State} (h : s.wellKept) : (unsave mesh s).wellKept := by
  unfold unsave
  split
  · exact h
  · exact modLaunch_kept h

theorem execCoreLoss_kept {mesh : Nat} {s : State} (h : s.wellKept) : Kept (execCoreLoss mesh s) := ite_kept h (modCore_kept (removePower_kept (unsave_kept h)))
theorem execCoreSupplyRestored_kept {mesh : Nat} {s : State} (h : s.wellKept) : Kept (execCoreSupplyRestored mesh s) := modCore_kept h fun _ => .ite .same .same
theorem execResumeTimeout_kept {mesh : Nat} {s : State} (h : s.wellKept) : Kept (execResumeTimeout mesh s) := ite_kept (terminateCore_kept h) h
theorem execIdlePowerDown_kept {mesh : Nat} {s : State} (h : s.wellKept) : Kept (execIdlePowerDown mesh s) := ite_kept (pdreqOp_kept h) h

/-- A loss of the package builds memory anew from what is durable: cells that outlive it, and the durable ones set over them. -/
theorem execPackageLoss_kept {s : State} (h : s.wellKept) : Kept (execPackageLoss s) := by
  simp only [execPackageLoss, Kept]
  have h1 := foldl_kept (f := fun s d => modDie d (fun _ => Die.reset) (restartDie d 0 0 false s)) (xs := List.range 4)
    (fun _ _ h => modDie_kept (restartDie_kept h)) h
  exact ⟨Memory.wf_foldl_set _ _ (Memory.wf_filter _ _ h1.mem), h1.durable, h1.atHand, h1.here, h1.elsewhere⟩

theorem execMarginTrip_kept {mesh group : Nat} {highest : Bool} {s : State} (h : s.wellKept) : Kept (execMarginTrip mesh group highest s) :=
  ite_kept h (modCore_kept h fun _ => .ite .same .same)

theorem poisonPlane_mesh (reg plane seg : Nat) (t : Strand) : (poisonPlane reg plane seg t).mesh = t.mesh := by
  dsimp only [poisonPlane]
  split <;> rfl

theorem poisonCells_stays (tile row word : Nat) (c : Core) : c.Stays (poisonCells tile row word c) := .ite .same .same

theorem execPoisonDetect_kept {p : PoisonAt} {s : State} (h : s.wellKept) : Kept (execPoisonDetect p s) := by
  cases p with
  | plane mesh sid reg plane seg => exact modStrand_kept h (poisonPlane_mesh _ _ _)
  | cells mesh tile row word => exact modCore_kept h (poisonCells_stays _ _ _)
  | memory pa => exact State.wellKept.same h
  | slot mesh k code => exact modCore_kept h

/-! ## Events of control space -/

theorem execRegisterWrite_kept {die off size : Nat} {v : Word} {s : State} (h : s.wellKept) : Kept (execRegisterWrite die off size v s) :=
  ite_kept h (ite_kept (ctlStore_kept h.same) h.same)

theorem hostRegisterRead_kept {off size : Nat} {s : State} (h : s.wellKept) : (hostRegisterRead off size s).wellKept := ite_kept h.same h.same

theorem performTranslated_kept {s : State} (h : s.wellKept) : (performTranslated s).wellKept :=
  foldl_kept (fun _ _ h => flushOut_kept h) (foldl_kept (fun _ _ h => atStrand_kept (fun _ h => drainVector_kept h) h) h)
theorem cleanDie_kept {ctx die : Nat} {p : Nat → Bool} {s : State} (h : s.wellKept) : (cleanDie ctx die p s).wellKept :=
  foldl_kept (fun _ _ h => writeBack_kept h) (modDie_kept h)
theorem forceBack_kept {d : Invalidation} {part : Nat} {s : State} (h : s.wellKept) : (forceBack d part s).wellKept :=
  ite_kept h (foldl_kept (fun _ _ h => cleanDie_kept h) h)

theorem execInvalidationComplete_kept {s : State} (h : s.wellKept) : Kept (execInvalidationComplete s) := by
  simp only [execInvalidationComplete, Kept]
  split
  · exact h
  next d rest _ =>
    have h1 := mapCores_kept (f := fun c => { c with
        tlb := c.tlb.filter fun e => !removes d (partOfCtx (invCTX d) s) e, walks := c.walks.filter fun e => !removesWalk d e })
      (forceBack_kept (d := d) (part := partOfCtx (invCTX d) s) (performTranslated_kept h))
    exact h1.same

theorem calibrated_stays (c : Core) : c.Stays (calibrated c) := .same
theorem zeroDram_kept {die : Nat} {s : State} (h : s.wellKept) : (zeroDram die s).wellKept :=
  ⟨Memory.wf_filter _ _ h.mem, h.durable, h.atHand, h.here, h.elsewhere⟩
theorem memoryStage_kept {die : Nat} {s : State} (h : s.wellKept) : (memoryStage die s).wellKept :=
  (mapCores_kept (zeroDram_kept h) fun c => .ite (p := dieOfMesh c.mesh = die) (i := inferInstance) (calibrated_stays c) .same).same
theorem enterStage_kept {die stage : Nat} {s : State} (h : s.wellKept) : (enterStage die stage s).wellKept := ite_kept h.same h.same
theorem endMemoryStage_kept {die : Nat} {s : State} (h : s.wellKept) : (endMemoryStage die s).wellKept :=
  ite_kept h (ite_kept (failStart_kept (memoryStage_kept h)) (enterStage_kept (memoryStage_kept h)))

theorem endVerifiedStage_kept {die : Nat} {s : State} (h : s.wellKept) : (endVerifiedStage die s).wellKept := by
  unfold endVerifiedStage
  split
  · exact enterStage_kept h
  · exact failStart_kept h
  · exact failStart_kept h

theorem execStageComplete_kept {die : Nat} {r : StageResult} {s : State} (h : s.wellKept) : Kept (execStageComplete die r s) := by
  refine ite_kept h (ite_kept (endVerifiedStage_kept h) ?_)
  split
  · exact ite_kept (failStart_kept h) h
  · exact ite_kept (endMemoryStage_kept h) (enterStage_kept h)

theorem execStageTimeout_kept {die : Nat} {s : State} (h : s.wellKept) : Kept (execStageTimeout die s) := ite_kept h (failStart_kept h)
theorem addHome_kept {pa n : Nat} {s : State} (h : s.wellKept) : (addHome pa n s).wellKept := put8_kept (amo8_kept h)
theorem flushContext_kept {base : Nat} {c : CtxCounts} {s : State} (h : s.wellKept) : (flushContext base c s).wellKept :=
  foldl_kept (fun _ _ h => addHome_kept h) h
theorem flushCounts_kept {die : Nat} {s : State} (h : s.wellKept) : (flushCounts die s).wellKept :=
  ite_kept h (foldl_kept (fun _ _ h => flushContext_kept h) (modDie_kept h))
theorem execCounterFlush_kept {die : Nat} {s : State} (h : s.wellKept) : Kept (execCounterFlush die s) := ite_kept h (modDie_kept (flushCounts_kept h))

/-! ## Scalar floating point -/

theorem putF_kept {d : FReg} {r : Nat × Nat} {s : State} (h : s.wellKept) : (putF d r s).wellKept := advance_kept (raise_kept (setF_kept h))

/-! ## Fetch -/

theorem icopyOf_kept {pa : Nat} {s : State} (h : s.wellKept) : (icopyOf pa s).2.wellKept := by
  unfold icopyOf
  split
  · exact (joinRead_kept h).same
  · exact (fillCopy_kept h).same

theorem icopyBytes_kept {n pa : Nat} {s : State} (h : s.wellKept) : (icopyBytes n pa s).2.wellKept := by
  induction n generalizing pa s with
  | zero => exact h
  | succ n ih => exact ih (icopyOf_kept h)

theorem illinsn_kept {w : Nat} {s : State} (h : s.wellKept) : (illinsn w s).wellKept := trapHere_kept h
theorem fetchAfter_kept {p : Loc → Bool} {s : State} (h : s.wellKept) : (fetchAfter p s).Kept :=
  .ite (.ite (storeTrap_kept (drainQueue_kept h)) (drainQueue_kept h)) h

theorem fetchWord_kept {s : State} (h : s.wellKept) : (fetchWord s).Kept := by
  unfold fetchWord
  split
  · exact h
  · split
    next e => exact xlate_kept (kept_of_eq (translate_kept h) e)
    next e =>
      have h1 := kept_of_eq (translate_kept h) e
      exact .bind (.ite h1 (fetchAfter_kept h1)) fun _ _ h => onMe_kept (icopyBytes_kept h)
    next e => exact .bind (fetchAfter_kept (kept_of_eq (translate_kept h) e)) fun _ _ h => onMe_kept (homeRead_kept (settle_kept h))

theorem fetchInstr_kept {s : State} (h : s.wellKept) : (fetchInstr s).Kept := by
  refine .ite (terminateMine_kept h) (.ite (storeTrap_kept h) (.bind (fetchWord_kept h) fun _ _ h => ?_))
  split
  · exact h
  · exact illinsn_kept h

/-! ## Traps, CSRs, the end of a strand (System) -/

theorem csrOpen_kept {i : Instr} {n : Nat} {s : State} (h : s.wellKept) : (csrOpen i n s).Kept := require_kept h
theorem execCsrr_kept {d : GReg} {c : BitVec 9} {s : State} (h : s.wellKept) : Kept (execCsrr d c s) :=
  out_kept (.bind (csrOpen_kept h) fun _ _ h => advance_kept (setG_kept h))

theorem csrWritten_mesh (n : Nat) (v : Word) (t : Strand) : (csrWritten n v t).mesh = t.mesh := by
  unfold csrWritten
  split <;> rfl

theorem execCsrw_kept {a : GReg} {c : BitVec 9} {s : State} (h : s.wellKept) : Kept (execCsrw a c s) :=
  out_kept (.bind (csrOpen_kept h) fun _ _ h => .bind (require_kept h) fun _ _ h =>
    .ite (terminateMine_kept h) (advance_kept (onMe_kept h (csrWritten_mesh _ _ _))))
theorem execWgterm_kept {v : Word} {s : State} (h : s.wellKept) : Kept (execWgterm v s) := ite_kept (terminateMine_kept h) h
theorem execSfpop_kept {s : State} (h : s.wellKept) : Kept (execSfpop s) := ite_kept (onMe_kept h (csrWritten_mesh _ _ _)) h
theorem execFeat_kept {d a : GReg} {i : BitVec 14} {s : State} (h : s.wellKept) : Kept (execFeat d a i s) :=
  out_kept (.bind (immValue_kept h) fun _ _ h => advance_kept (setG_kept h))
theorem execTrap_kept {k : BitVec 19} {s : State} (h : s.wellKept) : Kept (execTrap k s) := out_kept (.bind (notFinal_kept h) fun _ _ h => takeTrap_kept h)
theorem execEret_kept {s : State} (h : s.wellKept) : Kept (execEret s) :=
  out_kept (.bind (notFinal_kept h) fun _ _ h => .bind (require_kept h) fun _ _ h => onMe_kept h (leaveHandler_mesh _))

theorem boundaryTrap_kept {s t : State} (h : s.wellKept) (e : boundaryTrap s = some t) : t.wellKept := by
  have hf := fetchInstr_kept h
  unfold boundaryTrap at e
  split at e
  · split at e
    next s1 hs1 =>
      rw [hs1] at hf
      split at e
      · cases e
        exact hf
      · cases e
    · cases e
  · cases e

theorem execTrapEntry_kept {i : TrapInfo} {s : State} (h : s.wellKept) : Kept (execTrapEntry i s) := by
  simp only [execTrapEntry, Kept]
  split
  next e => exact ite_kept (boundaryTrap_kept h e) h
  · exact h

theorem releaseHeld_kept {vas : List Word} {s : State} (h : s.wellKept) : (releaseHeld vas s).Kept := by
  induction vas generalizing s with
  | nil => exact h
  | cons va vas ih => exact .bind (releaseLatch_kept h) fun _ _ h => ih h

theorem completionWord_kept {s : State} (h : s.wellKept) : (completionWord s).Kept := by
  refine .ite (xlate_kept h) ?_
  split
  next e => exact xlate_kept (kept_of_eq (translate_kept h) e)
  next e => exact xlate_kept (kept_of_eq (translate_kept h) e)
  next e => exact .bind (rmwHome_kept (kept_of_eq (translate_kept h) e)) fun _ _ h => h

theorem released_mesh (life : Life) (t : Strand) : (released life t).mesh = t.mesh := rfl
theorem endStep_kept {s : State} (h : s.wellKept) : (endStep s).wellKept :=
  finishIfDone_kept (onCore_kept (onMe_kept (freeGrant_kept h) (released_mesh _ _)))

theorem execEndStrand_kept {s : State} (h : s.wellKept) : Kept (execEndStrand s) :=
  out_kept (.bind (notFinal_kept h) fun _ _ h => .bind (deliverStores_kept h) fun _ _ h => .bind (drainAll_kept h) fun _ _ h =>
    .ite h (.bind (deliverFirst_kept h) fun _ _ h => .bind (releaseHeld_kept (foldl_kept (fun _ _ h => mergeTag_kept h) h)) fun _ _ h =>
      .bind (fenceAll_kept h) fun _ _ h => .bind (completionWord_kept h) fun _ _ h => endStep_kept h))

theorem execWfe_kept {d a b : GReg} {s : State} (h : s.wellKept) : Kept (execWfe d a b s) :=
  out_kept (.bind (require_kept h) fun _ _ h => .bind (readHome8_kept h) fun _ _ h => .ite (advance_kept (setG_kept (unwatch_kept h))) (waitFor_kept h))

theorem dropNextLine_kept {s : State} (h : s.wellKept) : (dropNextLine s).wellKept := by
  unfold dropNextLine
  split
  · exact modCore_kept h
  · exact h

theorem execFenceI_kept {s : State} (h : s.wellKept) : Kept (execFenceI s) :=
  out_kept (.bind (drainAll_kept h) fun _ _ h => dropNextLine_kept (advance_kept (onMe_kept (onCore_kept h))))

end Sys2Proof.Machine
end

section
namespace Sys2Proof.Machine

set_option Elab.async false

/-! ## Vector integers -/

theorem vint_kept {i : Instr} {d a : VRegN} {b : Fin 32} {x two sat : Bool} {srcs : State → List (Fin 32 × VReg)} {f : Int → Int → Int → Int} {s : State}
    (h : s.wellKept) : Kept (vint i d a b x two sat srcs f s) :=
  out_kept (.bind (vqueue_kept h) fun _ _ h => .bind (require_kept h) fun _ _ h => .bind (fits_kept h) fun _ _ h => elementwise_kept h)

theorem vbits_kept {i : Instr} {d a : VRegN} {b : Fin 32} {x two : Bool} {f : Nat → Nat → Nat → Nat} {s : State} (h : s.wellKept) :
    Kept (vbits i d a b x two f s) :=
  out_kept (.bind (vqueue_kept h) fun _ _ h => .bind (require_kept h) fun _ _ h => .bind (fits_kept h) fun _ _ h => elementwise_kept h)

theorem renumber_kept {i : Instr} {d a : VRegN} {k : Int} {s : State} (h : s.wellKept) : (renumber i d a k s).Kept := by
  unfold renumber
  extract_lets va tag new places
  split
  · exact .bind (require_kept h) fun _ _ h => .bind (takes_kept h) fun _ _ h => retire_kept (clearQuota_kept (onMe_kept (remap_kept h)))
  · exact .bind (fits_kept h) fun _ _ h => retire_kept (clearQuota_kept (onMe_kept (mapTo_kept h)))

theorem vshift_kept {i : Instr} {d a : VRegN} {k : Int} {sat : Bool} {f : Int → Int} {ok : Kind → Kind → Bool} {s : State} (h : s.wellKept) :
    Kept (vshift i d a k sat f ok s) :=
  out_kept (.bind (vqueue_kept h) fun _ _ h => .bind (require_kept h) fun _ _ h =>
    .ite (renumber_kept h) (.bind (fits_kept h) fun _ _ h => elementwise_kept h))

theorem execVnarrow_kept {d a : VRegN} {k : Fin 17} {s : State} (h : s.wellKept) : Kept (execVnarrow d a k s) :=
  out_kept (.bind (vqueue_kept h) fun _ _ h => .bind (require_kept h) fun _ _ h => .bind (fits_kept h) fun _ _ h => elementwise_kept h)

theorem execVcmp_kept {d : MReg} {a : VRegN} {b : Fin 32} {x : Bool} {c : Fin 6} {s : State} (h : s.wellKept) : Kept (execVcmp d a b x c s) := by
  refine out_kept (.bind (vqueue_kept h) fun _ _ h => .bind (require_kept h) fun _ _ h => ?_)
  extract_lets upTo
  split
  · exact poisonTrap_kept (writeM_kept h)
  · exact writeM_kept h

theorem execVsel_kept {d a b : VRegN} {c : MReg} {s : State} (h : s.wellKept) : Kept (execVsel d a b c s) :=
  out_kept (.bind (vqueue_kept h) fun _ _ h => .bind (require_kept h) fun _ _ h => .bind (fits_kept h) fun _ _ h => elementwise_kept h)
theorem execVmv_kept {d a : VRegN} {s : State} (h : s.wellKept) : Kept (execVmv d a s) :=
  out_kept (.bind (vqueue_kept h) fun _ _ h => .bind (fits_kept h) fun _ _ h => elementwise_kept h)
theorem execVmvScalar_kept {d : VRegN} {b : GReg} {c : Bool} {s : State} (h : s.wellKept) : Kept (execVmvScalar d b c s) :=
  out_kept (.bind (vqueue_kept h) fun _ _ h => .bind (require_kept h) fun _ _ h => .bind (fits_kept h) fun _ _ h => elementwise_kept h)
theorem execVpopc_kept {d a : VRegN} {s : State} (h : s.wellKept) : Kept (execVpopc d a s) :=
  out_kept (.bind (vqueue_kept h) fun _ _ h => .bind (require_kept h) fun _ _ h => .bind (fits_kept h) fun _ _ h => elementwise_kept h)

/-! ## Whole instructions -/

theorem retireG_kept {d : GReg} {w : Word} {s : State} (h : s.wellKept) : (retireG d w s).wellKept := retire_kept (clearQuota_kept (setG_kept h))

theorem unpoisoned_kept {srcs : List (Fin 32 × VReg)} {es : List Nat} {s : State} (h : s.wellKept) : (unpoisoned srcs es s).Kept := by
  unfold unpoisoned
  split
  · exact poisonTrap_kept h
  · exact h

theorem wholeV_kept {d : Fin 32} {tag : BitVec 16} {f : Nat → Option Nat} {scale : Nat → Nat} {flags : Nat} {s : State} (h : s.wellKept) :
    (wholeV d tag f scale flags s).wellKept := writeV_kept h

theorem execVdot_kept {d : GReg} {a b : VRegN} {s : State} (h : s.wellKept) : Kept (execVdot d a b s) :=
  out_kept (.bind (whole_kept h) fun _ _ h => .bind (require_kept h) fun _ _ h => .bind (.ite (askLeave_kept h) h) fun _ _ h =>
    .bind (unpoisoned_kept h) fun _ _ h => retireG_kept h)
theorem execVred_kept {d : GReg} {a : VRegN} {o : Fin 6} {s : State} (h : s.wellKept) : Kept (execVred d a o s) :=
  out_kept (.bind (whole_kept h) fun _ _ h => .bind (require_kept h) fun _ _ h => .bind (unpoisoned_kept h) fun _ _ h => retireG_kept h)
theorem execVscan_kept {d a : VRegN} {c x : Bool} {s : State} (h : s.wellKept) : Kept (execVscan d a c x s) :=
  out_kept (.bind (whole_kept h) fun _ _ h => .bind (require_kept h) fun _ _ h => .bind (fits_kept h) fun _ _ h => .bind (unpoisoned_kept h) fun _ _ h =>
    writeV_kept h)
theorem execVcompress_kept {d a : VRegN} {c : MReg} {s : State} (h : s.wellKept) : Kept (execVcompress d a c s) :=
  out_kept (.bind (whole_kept h) fun _ _ h => .bind (require_kept h) fun _ _ h => .bind (fits_kept h) fun _ _ h => .bind (unpoisoned_kept h) fun _ _ h =>
    writeV_kept h)
theorem execVexpand_kept {d a : VRegN} {c : MReg} {s : State} (h : s.wellKept) : Kept (execVexpand d a c s) :=
  out_kept (.bind (whole_kept h) fun _ _ h => .bind (require_kept h) fun _ _ h => .bind (fits_kept h) fun _ _ h => .bind (unpoisoned_kept h) fun _ _ h =>
    writeV_kept h)
theorem vslide_kept {i : Instr} {up : Bool} {d a : VRegN} {b : GReg} {s : State} (h : s.wellKept) : Kept (vslide i up d a b s) :=
  out_kept (.bind (whole_kept h) fun _ _ h => .bind (require_kept h) fun _ _ h => .bind (fits_kept h) fun _ _ h => .bind (unpoisoned_kept h) fun _ _ h =>
    wholeV_kept h)
theorem viotaOf_kept {i : Instr} {d : VRegN} {f : State → Nat → Nat} {s : State} (h : s.wellKept) : Kept (viotaOf i d f s) :=
  out_kept (.bind (whole_kept h) fun _ _ h => .bind (require_kept h) fun _ _ h => .bind (fits_kept h) fun _ _ h => wholeV_kept h)
theorem maskOp_kept {i : Instr} {d a b : MReg} {f : Bool → Bool → Bool} {s : State} (h : s.wellKept) : Kept (maskOp i d a b f s) :=
  out_kept (.bind (vqueue_kept h) fun _ _ h => writeM_kept h)
theorem execMpopc_kept {d : GReg} {a : MReg} {s : State} (h : s.wellKept) : Kept (execMpopc d a s) := out_kept (.bind (whole_kept h) fun _ _ h => retireG_kept h)
theorem execMfirst_kept {d : GReg} {a : MReg} {s : State} (h : s.wellKept) : Kept (execMfirst d a s) := out_kept (.bind (whole_kept h) fun _ _ h => retireG_kept h)

/-! ## The Word Unit and quantisation -/

theorem vfloat_kept {i : Instr} {d a : VRegN} {b : Fin 32} {x two : Bool} {extra : List (Fin 32)} {f : State → Nat → XVal × Nat} {s : State} (h : s.wellKept) :
    Kept (vfloat i d a b x two extra f s) :=
  out_kept (.bind (vqueue_kept h) fun _ _ h => .bind (require_kept h) fun _ _ h => .bind (fits_kept h) fun _ _ h => elementwise_kept h)
theorem execVfcvt_kept {d a : VRegN} {s : State} (h : s.wellKept) : Kept (execVfcvt d a s) :=
  out_kept (.bind (vqueue_kept h) fun _ _ h => .bind (fits_kept h) fun _ _ h => elementwise_kept h)
theorem execVsmax_kept {d a : VRegN} {b : FReg} {t : Bool} {c : TmReg} {s : State} (h : s.wellKept) : Kept (execVsmax d a b t c s) :=
  out_kept (.bind (whole_kept h) fun _ _ h => .bind (require_kept h) fun _ _ h => .bind (fits_kept h) fun _ _ h => .bind (unpoisoned_kept h) fun _ _ h =>
    writeV_kept (setF_kept (setF_kept (setF_kept h))))
theorem modSlot_kept {k : Fin 16} {f : ScaleSlot → ScaleSlot} {s : State} (h : s.wellKept) : (modSlot k f s).wellKept := onCore_kept h
theorem execQstat_kept {d : GReg} {a : VRegN} {q : Fin 16} {s : State} (h : s.wellKept) : Kept (execQstat d a q s) :=
  out_kept (.bind (whole_kept h) fun _ _ h => .bind (require_kept h) fun _ _ h => .bind (unpoisoned_kept h) fun _ _ h => retireG_kept (modSlot_kept h))
theorem setScale_kept {d : FReg} {q : Fin 16} {sc z : Nat} {flat : Option (Int × Nat)} {tag : BitVec 16} {fl : Nat} {s : State} (h : s.wellKept) :
    (setScale d q sc z flat tag fl s).wellKept := retire_kept (clearQuota_kept (raise_kept (setF_kept (modSlot_kept h))))
theorem execQscaleH_kept {d : FReg} {b : VRegN} {q : Fin 16} {s : State} (h : s.wellKept) : Kept (execQscaleH d b q s) :=
  out_kept (.bind (whole_kept h) fun _ _ h => .bind (require_kept h) fun _ _ h => setScale_kept h)

theorem execQscaleR_kept {d : FReg} {a b : VRegN} {q : Fin 16} {s : State} (h : s.wellKept) : Kept (execQscaleR d a b q s) := by
  refine out_kept (.bind (whole_kept h) fun _ _ h => .bind (require_kept h) fun _ _ h => .bind (unpoisoned_kept h) fun _ _ h => ?_)
  extract_lets xs
  split
  · exact setScale_kept h
  · exact setScale_kept h

theorem execQscaleZ_kept {q : Fin 16} {s : State} (h : s.wellKept) : Kept (execQscaleZ q s) :=
  out_kept (.bind (whole_kept h) fun _ _ h => retire_kept (clearQuota_kept (modSlot_kept h)))
theorem execQuant_kept {d a : VRegN} {p : Fin 4} {t : Bool} {q : Fin 16} {s : State} (h : s.wellKept) : Kept (execQuant d a p t q s) :=
  out_kept (.bind (vqueue_kept h) fun _ _ h => .bind (require_kept h) fun _ _ h => .bind (fits_kept h) fun _ _ h => elementwise_kept h)
theorem execCtab_kept {a : VRegN} {p : Fin 4} {s : State} (h : s.wellKept) : Kept (execCtab a p s) :=
  out_kept (.bind (whole_kept h) fun _ _ h => .bind (require_kept h) fun _ _ h => .bind (unpoisoned_kept h) fun _ _ h =>
    retire_kept (clearQuota_kept (onCore_kept h)))
theorem execClook_kept {d a : VRegN} {p : Fin 4} {s : State} (h : s.wellKept) : Kept (execClook d a p s) :=
  out_kept (.bind (vqueue_kept h) fun _ _ h => .bind (require_kept h) fun _ _ h => .bind (fits_kept h) fun _ _ h => elementwise_kept h)

/-! ## Vector loads and stores -/

/-- A way of reading bytes that keeps the form. -/
def Reader.Keeps (read : Reader) : Prop := ∀ va ts s, State.wellKept s → (read va ts s).2.wellKept

theorem readVector_keeps : readVector.Keeps := fun _ _ _ h => readBytes_kept (countNc_kept h)
theorem readHome_keeps : readHome.Keeps := fun _ _ _ h => h

theorem countReads_kept {ctx : Nat} {xs : List (Bool × Nat)} {s : State} (h : s.wellKept) : (countReads ctx xs s).wellKept := l2Reads_kept (l2Reads_kept h)

theorem readPieces_kept {read : Reader} {rq : Req} {acc : Access} {ps : List Piece} {s : State} (hr : read.Keeps) (h : s.wellKept) :
    (readPieces read rq acc ps s).2.wellKept := by
  induction ps generalizing s with
  | nil => exact h
  | cons p ps ih =>
    unfold readPieces
    split
    next e => exact kept_of_eq (scalarTargets_kept h) e
    next e =>
      have h1 := kept_of_eq (scalarTargets_kept h) e
      dsimp only
      split
      next e => exact kept_of_eq (ih (hr _ _ _ h1)) e
      next e => exact kept_of_eq (ih (hr _ _ _ h1)) e

theorem pushWrites_kept {ws : List Write} {s : State} (h : s.wellKept) : (pushWrites ws s).wellKept := onMe_kept h

theorem runElements_kept {α : Type} {acc : Access} {f : Nat → State → Except (Word × XFault) α × State} {es : List Nat} {s : State}
    (hf : ∀ e s, s.wellKept → (f e s).2.wellKept) (h : s.wellKept) : (runElements acc f es s).2.wellKept := by
  induction es generalizing s with
  | nil => exact h
  | cons e es ih =>
    unfold runElements
    split
    next he => exact kept_of_eq (hf e s h) he
    next he => exact ih (kept_of_eq (hf e s h) he)

theorem raiseMisses_kept {acc : Access} {vas : Nat → List Word} {s : State} (h : s.wellKept) : (raiseMisses acc vas s).wellKept := queueMisses_kept h

theorem memoryRun_kept {hit : Option (Nat × Fin 32 × PoisonMark)} {go : Nat → State → Option TrapInfo × State} {s : State}
    (hg : ∀ n s, s.wellKept → (go n s).2.wellKept) (h : s.wellKept) : (memoryRun hit go s).wellKept := by
  unfold memoryRun
  dsimp only
  split
  · split
    next e => exact trapHere_kept (kept_of_eq (hg _ s h) e)
    next e => exact kept_of_eq (hg _ s h) e
  · split
    next e => exact trapHere_kept (kept_of_eq (hg _ s h) e)
    next e =>
      have h1 := kept_of_eq (hg _ s h) e
      split
      next e => exact trapHere_kept (kept_of_eq (hg _ _ h1) e)
      · exact poisonTrap_kept h1

theorem loadElement_kept {vd : VReg} {pm : Bool} {base stride scales : Word} {from_ e : Nat} {s : State} (h : s.wellKept) :
    (loadElement vd pm base stride scales from_ e s).2.wellKept := by
  unfold loadElement
  extract_lets l sc
  have hsc : sc.2.wellKept := by
    unfold sc
    split
    · split
      next e => exact kept_of_eq (readPieces_kept readVector_keeps h) e
      next e => exact kept_of_eq (readPieces_kept readVector_keeps h) e
    · exact h
  clear_value sc
  split
  · exact hsc
  · split
    · split
      next e => exact kept_of_eq (readPieces_kept readVector_keeps hsc) e
      next e => exact kept_of_eq (readPieces_kept readVector_keeps hsc) e
    · exact hsc

theorem writeLoaded_kept {d : Fin 32} {tag : BitVec 16} {stop flags : Nat} {xs : List Loaded} {s : State} (h : s.wellKept) :
    (writeLoaded d tag stop flags xs s).wellKept := poisonElements_kept (writeV_kept h)

theorem loadUpTo_kept {d : Fin 32} {tag : BitVec 16} {f : Nat → State → Except (Word × XFault) Loaded × State} {stop : Nat} {s : State}
    (hf : ∀ e s, s.wellKept → (f e s).2.wellKept) (h : s.wellKept) : (loadUpTo d tag f stop s).2.wellKept := writeLoaded_kept (runElements_kept hf h)

theorem execVld_kept {d : VRegN} {a b c : GReg} {l : Bool} {s : State} (h : s.wellKept) : Kept (execVld d a b c l s) :=
  out_kept (.bind (vqueue_kept h) fun _ _ h => .bind (require_kept h) fun _ _ h => .bind (fits_kept h) fun _ _ h =>
    memoryRun_kept (fun _ _ h => loadUpTo_kept (fun _ _ h => loadElement_kept h) h) (raiseMisses_kept h))

theorem storeElement_kept {r : VReg} {pm : Bool} {base stride scales : Word} {e : Nat} {s : State} (h : s.wellKept) :
    (storeElement r pm base stride scales e s).2.wellKept := by
  unfold storeElement
  split
  · exact h
  extract_lets w rq own
  have ho : own.2.wellKept := by
    unfold own
    split
    · exact pieceWrites_kept h
    · exact pieceWrites_kept h
  clear_value own
  split
  · exact ho
  · split
    · split
      next e => exact kept_of_eq (pieceWrites_kept ho) e
      next e => exact pushWrites_kept (kept_of_eq (pieceWrites_kept ho) e)
    · exact pushWrites_kept ho

theorem endStore_kept {stop : Nat} {final : State → State} {s : State} (hf : ∀ s, s.wellKept → (final s).wellKept) (h : s.wellKept) :
    (endStore stop final s).wellKept :=
  ite_kept (retire_kept (clearQuota_kept (hf s h))) (clearQuota_kept (onMe_kept h (stopPart_mesh _ _ _ _)))

theorem storeUpTo_kept {acc : Access} {f : Nat → State → Except (Word × XFault) Unit × State} {final : State → State} {stop : Nat} {s : State}
    (hf : ∀ e s, s.wellKept → (f e s).2.wellKept) (hl : ∀ s, s.wellKept → (final s).wellKept) (h : s.wellKept) :
    (storeUpTo acc f final stop s).2.wellKept := endStore_kept hl (runElements_kept hf h)

theorem execVst_kept {d : VRegN} {a b c : GReg} {l : Bool} {s : State} (h : s.wellKept) : Kept (execVst d a b c l s) :=
  out_kept (.bind (vqueue_kept h) fun _ _ h => .bind (require_kept h) fun _ _ h =>
    memoryRun_kept (fun _ _ h => storeUpTo_kept (fun _ _ h => storeElement_kept h) (fun _ h => h) h) (raiseMisses_kept h))

theorem readWords_kept {read : Reader} {rq : Req} {acc : Access} {base : Word} {ks : List Nat} {s : State} (hr : read.Keeps) (h : s.wellKept) :
    (readWords read rq acc base ks s).2.wellKept := by
  induction ks generalizing s with
  | nil => exact h
  | cons k ks ih =>
    unfold readWords
    split
    next e => exact kept_of_eq (readPieces_kept hr h) e
    next e =>
      have h1 := kept_of_eq (readPieces_kept hr h) e
      split
      next e => exact kept_of_eq (ih h1) e
      next e => exact kept_of_eq (ih h1) e

theorem readExpanded_kept {read : Reader} {rq : Req} {acc : Access} {base : Word} {ws : List Nat} {w i : Nat} {s : State} (hr : read.Keeps) (h : s.wellKept) :
    (readExpanded read rq acc base ws w i s).2.wellKept := by
  unfold readExpanded
  extract_lets c
  split
  · exact h
  · exact readPieces_kept hr h

theorem loadExpanded_kept {base : Word} {ws : List Got} {w e : Nat} {s : State} (h : s.wellKept) : (loadExpanded base ws w e s).2.wellKept := by
  unfold loadExpanded
  split
  · split
    next e => exact kept_of_eq (readExpanded_kept readVector_keeps h) e
    next e => exact kept_of_eq (readExpanded_kept readVector_keeps h) e
  · exact h

theorem execVldCompressed_kept {d : VRegN} {a b c : GReg} {s : State} (h : s.wellKept) : Kept (execVldCompressed d a b c s) := by
  refine out_kept (.bind (whole_kept h) fun _ _ h => .bind (require_kept h) fun _ _ h => .bind (fits_kept h) fun _ _ h => ?_)
  extract_lets blocks
  split
  next e => exact trapHere_kept (kept_of_eq (readWords_kept readVector_keeps h) e)
  next e =>
    refine .bind (require_kept (kept_of_eq (readWords_kept readVector_keeps h) e)) fun _ _ h => ?_
    extract_lets r
    have hr : r.2.wellKept := runElements_kept (fun _ _ h => loadExpanded_kept h) h
    split
    · exact trapHere_kept hr
    · exact writeLoaded_kept hr

theorem gatherElement_kept {vd vb : VReg} {base g : Word} {e : Nat} {s : State} (h : s.wellKept) : (gatherElement vd vb base g e s).2.wellKept := by
  unfold gatherElement
  split
  · exact h
  split
  · exact h
  · exact h
  · dsimp only
    split
    next e => exact kept_of_eq (scalarTargets_kept h) e
    next e => exact settle_kept (kept_of_eq (scalarTargets_kept h) e)

theorem countGather_kept {ctx : Nat} {xs : List Container} {s : State} (h : s.wellKept) : (countGather ctx xs s).wellKept :=
  foldl_kept (fun _ _ h => foldl_kept (fun _ _ h => l2Reads_kept h) h) h

theorem gatherUpTo_kept {d : Fin 32} {vd vb : VReg} {base g : Word} {status : GReg} {stop : Nat} {s : State} (h : s.wellKept) :
    (gatherUpTo d vd vb base g status stop s).2.wellKept := by
  unfold gatherUpTo
  extract_lets es r stop' subs s1 s2
  have h1 : s1.wellKept := countGather_kept (runElements_kept (fun _ _ h => gatherElement_kept h) h)
  exact writeLoaded_kept (ite_kept (setG_kept h1) h1)

theorem execVgather_kept {d : VRegN} {a : GReg} {b : VRegN} {c : GReg} {s : State} (h : s.wellKept) : Kept (execVgather d a b c s) :=
  out_kept (.bind (vqueue_kept h) fun _ _ h => .bind (require_kept h) fun _ _ h => .bind (fits_kept h) fun _ _ h =>
    memoryRun_kept (fun _ _ h => gatherUpTo_kept h) (raiseMisses_kept h))

theorem scatterElement_kept {vd vb : VReg} {base g : Word} {e : Nat} {s : State} (h : s.wellKept) : (scatterElement vd vb base g e s).2.wellKept := by
  unfold scatterElement
  split
  · exact h
  split
  · exact pieceWrites_kept h
  · exact h

theorem shuffled_kept {n : Nat} {ws : List Write} {s : State} (h : s.wellKept) : (shuffled n ws s).2.wellKept := by
  induction n generalizing ws s with
  | zero => exact h
  | succ n ih =>
    unfold shuffled
    split
    · exact h
    · dsimp only
      split
      · exact draw_kept h
      · exact ih (draw_kept h)

theorem scatterUpTo_kept {ordered : Bool} {vd vb : VReg} {base g : Word} {status : GReg} {stop : Nat} {s : State} (h : s.wellKept) :
    (scatterUpTo ordered vd vb base g status stop s).2.wellKept := by
  unfold scatterUpTo
  extract_lets r ws p
  have hr : r.2.wellKept := runElements_kept (fun _ _ h => scatterElement_kept h) h
  have hp : p.2.wellKept := by
    unfold p
    split
    · exact hr
    · exact shuffled_kept hr
  exact endStore_kept (fun _ h => setG_kept h) (pushWrites_kept hp)

theorem scatter_kept {i : Instr} {ordered : Bool} {d : VRegN} {a : GReg} {b : VRegN} {c : GReg} {s : State} (h : s.wellKept) : Kept (scatter i ordered d a b c s) :=
  out_kept (.bind (vqueue_kept h) fun _ _ h => .bind (require_kept h) fun _ _ h =>
    memoryRun_kept (fun _ _ h => scatterUpTo_kept h) (raiseMisses_kept h))

/-! ## Matrix and scout instructions -/

theorem mapTile_kept {d : Nat} {p : Nat → Bool} {f : Nat → List Nat → List Nat} {s : State} (h : s.wellKept) : (mapTile d p f s).wellKept := h.same
theorem cellTrap_kept {m : CellHit} {s : State} (h : s.wellKept) : (cellTrap m s).wellKept := poisonTrap_kept h

theorem cleanCells_kept {d : Nat} {cells : List (Nat × Nat)} {s : State} (h : s.wellKept) : (cleanCells d cells s).Kept := by
  unfold cleanCells
  split
  · exact cellTrap_kept h
  · exact h

theorem noteCells_kept {d : Nat} {p : Nat → Nat → Bool} {s : State} (h : s.wellKept) : (noteCells d p s).wellKept := h.same
theorem cleanse_kept {d : Nat} {p : Nat → Nat → Bool} {s : State} (h : s.wellKept) : (cleanse d p s).wellKept := onCore_kept h

theorem fold_kept {s : State} (h : s.wellKept) : (fold s).wellKept := by
  unfold fold
  split
  · exact h
  · exact raise_kept (onCore_kept (mapTile_kept (noteCells_kept h)))

theorem closeIf_kept {p : Nat → Bool} {s : State} (h : s.wellKept) : (closeIf p s).Kept := by
  unfold closeIf
  split
  · exact h
  · refine .ite ?_ h
    split
    · exact cellTrap_kept h
    · exact fold_kept h

theorem openBlock_kept {d : Nat} {s : State} (h : s.wellKept) : (openBlock d s).wellKept := by
  unfold openBlock
  split
  · exact h
  · exact onCore_kept h

theorem runPass_kept {x : Pass} {s : State} (h : s.wellKept) : (runPass x s).wellKept := by
  unfold runPass
  exact raise_kept (onCore_kept h)

theorem accumulate_kept {d : Nat} {full : Bool} {pass : State → Pass × Nat} {s : State} (h : s.wellKept) : (accumulate d full pass s).Kept := by
  unfold accumulate
  extract_lets before
  refine .bind (closeIf_kept h) fun _ _ h1 => ?_
  extract_lets x s1
  have h2 : s1.wellKept := runPass_kept (openBlock_kept (raise_kept h1))
  refine .ite ?_ (retire_kept (clearQuota_kept h2))
  split
  · exact cellTrap_kept h
  · exact retire_kept (clearQuota_kept (fold_kept h2))

theorem cleanSlices_kept {xs : List (Fin 32 × List Nat)} {s : State} (h : s.wellKept) : (cleanSlices xs s).Kept := by
  unfold cleanSlices
  split
  · exact poisonTrap_kept h
  · exact h

theorem chapter_kept {i : Instr} {s : State} (h : s.wellKept) : (chapter i s).Kept := .bind (whole_kept h) fun _ _ h => .ite h h

theorem askFormat_kept {s : State} (h : s.wellKept) : (askFormat s).wellKept := by
  unfold askFormat
  split
  · exact h
  · exact onMe_kept h

theorem opaRun_kept {d : AccN} {a b : VRegN} {k : Nat} {s : State} (h : s.wellKept) : (opaRun d a b k s).Kept :=
  .bind (askLeave_kept h) fun _ _ h => .bind (cleanSlices_kept h) fun _ _ h => accumulate_kept h
theorem execOpa_kept {d : AccN} {a b : VRegN} {k : BitVec 6} {s : State} (h : s.wellKept) : Kept (execOpa d a b k s) :=
  out_kept (.bind (chapter_kept h) fun _ _ h => .bind (require_kept h) fun _ _ h => opaRun_kept h)
theorem execOpaT_kept {d : AccN} {a b : VRegN} {c : TmReg} {k : BitVec 6} {s : State} (h : s.wellKept) : Kept (execOpaT d a b c k s) :=
  out_kept (.bind (chapter_kept h) fun _ _ h => .bind (require_kept h) fun _ _ h => .ite (opaRun_kept h) (retire_kept (clearQuota_kept h)))
theorem execOpaS_kept {d : AccN} {a b : VRegN} {g : Fin 4} {n : Fin 3} {v : VRegN} {s : State} (h : s.wellKept) : Kept (execOpaS d a b g n v s) :=
  out_kept (.bind (chapter_kept h) fun _ _ h => .bind (require_kept h) fun _ _ h => .bind (askLeave_kept h) fun _ _ h =>
    .bind (cleanSlices_kept h) fun _ _ h => accumulate_kept h)
theorem execOpaAca_kept {d a : AccN} {b : VRegN} {i : BitVec 2} {l : BitVec 6} {s : State} (h : s.wellKept) : Kept (execOpaAca d a b i l s) :=
  out_kept (.bind (chapter_kept h) fun _ _ h => .bind (require_kept h) fun _ _ h => .bind (askLeave_kept h) fun _ _ h =>
    .bind (cleanSlices_kept h) fun _ _ h => .bind (cleanCells_kept h) fun _ _ h => accumulate_kept h)

theorem changeFormat_kept {f : Nat} {s : State} (h : s.wellKept) : (changeFormat f s).wellKept := h.same

theorem execMmode_kept {k : BitVec 14} {s : State} (h : s.wellKept) : Kept (execMmode k s) :=
  out_kept (.bind (immValue_kept h) fun _ _ h => .bind (vqueue_kept h) fun _ _ h => .bind (require_kept h) fun _ _ h =>
    .ite (advance_kept (onMe_kept (ite_kept h (changeFormat_kept h)))) (.ite h (askFormat_kept h)))

theorem execAccz_kept {d : AccN} {s : State} (h : s.wellKept) : Kept (execAccz d s) :=
  out_kept (.bind (chapter_kept h) fun _ _ h => .bind (require_kept h) fun _ _ h =>
    retire_kept (clearQuota_kept (noteCells_kept (cleanse_kept (mapTile_kept (ite_kept (onCore_kept h) h))))))

theorem execAccrd_kept {d : VRegN} {a : AccN} {c : Bool} {r : BitVec 8} {s : State} (h : s.wellKept) : Kept (execAccrd d a c r s) := by
  refine out_kept (.bind (chapter_kept h) fun _ _ h => .bind (require_kept h) fun _ _ h => .bind (fits_kept h) fun _ _ h => .bind (closeIf_kept h) fun _ _ h1 => ?_)
  extract_lets n es
  split
  · exact cellTrap_kept h
  · exact wholeV_kept h1

theorem drainElement_kept {a : Nat} {w base : Word} {now : State} {e : Nat} {s : State} (h : s.wellKept) : (drainElement a w base now e s).2.wellKept := by
  unfold drainElement
  extract_lets mvl tag l r k c rq
  split
  next e => exact kept_of_eq (pieceWrites_kept h) e
  next e =>
    have h1 := kept_of_eq (pieceWrites_kept h) e
    split
    · split
      next e => exact kept_of_eq (pieceWrites_kept h1) e
      next e => exact pushWrites_kept (kept_of_eq (pieceWrites_kept h1) e)
    · exact pushWrites_kept h1

theorem writeWords_kept {base : Word} {ws : List (Nat × Nat × Nat)} {s : State} (h : s.wellKept) : (writeWords base ws s).2.wellKept := by
  induction ws generalizing s with
  | nil => exact h
  | cons w ws ih =>
    unfold writeWords
    split
    next e => exact kept_of_eq (pieceWrites_kept h) e
    next e => exact ih (pushWrites_kept (kept_of_eq (pieceWrites_kept h) e))

theorem drainRun_kept {a : Nat} {w base : Word} {now : State} {upTo : Nat} {s : State} (h : s.wellKept) : (drainRun a w base now upTo s).2.wellKept := by
  unfold drainRun
  extract_lets mvl r
  split
  · exact writeWords_kept h
  · exact runElements_kept (fun _ _ h => drainElement_kept h) h

theorem execDrain_kept {a : AccN} {p q : GReg} {s : State} (h : s.wellKept) : Kept (execDrain a p q s) := by
  refine out_kept (.bind (chapter_kept h) fun _ _ h => .bind (require_kept h) fun _ s h => .bind (closeIf_kept h) fun _ _ _ => ?_)
  split
  · split
    next e => exact trapHere_kept (kept_of_eq (drainRun_kept h) e)
    · exact cellTrap_kept h
  · extract_lets flags
    split
    next e => exact trapHere_kept (kept_of_eq (drainRun_kept h) e)
    next e => exact .bind (closeIf_kept (kept_of_eq (drainRun_kept h) e)) fun _ _ h => retire_kept (clearQuota_kept (raise_kept h))

theorem execScout_kept {d : AccN} {a b : VRegN} {e : GReg} {p : Fin 4} {s : State} (h : s.wellKept) : Kept (execScout d a b e p s) :=
  out_kept (.bind (chapter_kept h) fun _ _ h => .bind (require_kept h) fun _ _ h => .bind (askLeave_kept h) fun _ _ h => .bind (unpoisoned_kept h) fun _ _ h =>
    .bind (closeIf_kept h) fun _ _ h => retireG_kept (raise_kept (mapTile_kept (noteCells_kept (cleanse_kept h)))))

theorem execThresh_kept {d : TmReg} {a : AccN} {b : GReg} {g : Bool} {c : GReg} {s : State} (h : s.wellKept) : Kept (execThresh d a b g c s) := by
  refine out_kept (.bind (chapter_kept h) fun _ _ h => .bind (require_kept h) fun _ _ h => .bind (closeIf_kept h) fun _ _ h1 => ?_)
  split
  · exact cellTrap_kept h
  · exact retireG_kept (setTm_kept h1)

theorem execTmand_kept {d a b : TmReg} {n : Bool} {s : State} (h : s.wellKept) : Kept (execTmand d a b n s) :=
  out_kept (.bind (chapter_kept h) fun _ _ h => retire_kept (clearQuota_kept (setTm_kept h)))
theorem execTmpopc_kept {d : GReg} {a : TmReg} {s : State} (h : s.wellKept) : Kept (execTmpopc d a s) :=
  out_kept (.bind (chapter_kept h) fun _ _ h => retireG_kept h)

end Sys2Proof.Machine
end

section
namespace Sys2Proof.Machine

set_option Elab.async false

/-! ## Streams -/

theorem modSq_kept {q : SqN} {f : Stream → Stream} {s : State} (h : s.wellKept) : (modSq q f s).wellKept := onMe_kept h
theorem modBoth_kept {q : SqN} {f : Stream → Stream} {s : State} (h : s.wellKept) : (modBoth q f s).wellKept :=
  ite_kept (modSq_kept (modSq_kept h)) (modSq_kept h)

theorem execSqopen_kept {d : SqN} {a b : GReg} {f : Bool} {s : State} (h : s.wellKept) : Kept (execSqopen d a b f s) := by
  refine out_kept (.bind (vqueue_kept h) fun _ _ h => ?_)
  extract_lets desc pat n
  refine .bind (require_kept h) fun _ _ h => .ite h ?_
  extract_lets slots opened s1 s2
  have h1 : s1.wellKept := modSq_kept h
  exact advance_kept (ite_kept (modSq_kept h1) h1)

theorem onOpenSlot_kept {i : Instr} {q : SqN} {f : State → State} {s : State} (hf : ∀ s, s.wellKept → (f s).wellKept) (h : s.wellKept) :
    Kept (onOpenSlot i q f s) :=
  out_kept (.bind (vqueue_kept h) fun _ _ h => .bind (require_kept h) fun _ s h => advance_kept (hf s h))

theorem fetchPiece_kept {rq : Req} {p : Piece} {s : State} (h : s.wellKept) : (fetchPiece rq p s).2.wellKept := by
  unfold fetchPiece
  split
  next e => exact kept_of_eq (readPieces_kept readHome_keeps h) e
  next e => exact kept_of_eq (readPieces_kept readHome_keeps h) e

theorem fetchElements_kept {rq : Req} {f : Nat → Piece} {es : List Nat} {s : State} (h : s.wellKept) : (fetchElements rq f es s).2.wellKept := by
  induction es generalizing s with
  | nil => exact h
  | cons e es ih => exact ih (fetchPiece_kept h)

theorem scanRows_kept {rq : Req} {pat : List Word} {first need n r last : Nat} {s : State} (h : s.wellKept) :
    (scanRows rq pat first need n r last s).2.wellKept := by
  induction n generalizing r last s with
  | zero => exact h
  | succ n ih =>
    unfold scanRows
    dsimp only
    split
    · exact h
    split
    · exact fetchPiece_kept h
    split
    · exact fetchPiece_kept h
    · exact ih (fetchPiece_kept h)

theorem fibreRows_kept {rq : Req} {pat : List Word} {need : Nat} {s : State} (h : s.wellKept) : (fibreRows rq pat need s).2.wellKept := by
  unfold fibreRows
  dsimp only
  split
  · exact h
  split
  · exact fetchPiece_kept h
  · exact scanRows_kept (fetchPiece_kept h)

theorem fetchBlock_kept {rq : Req} {q : Stream} {b : Nat} {s : State} (h : s.wellKept) : (fetchBlock rq q b s).2.2.wellKept := by
  unfold fetchBlock
  dsimp only
  split
  · exact countReads_kept (fetchElements_kept h)
  · exact countReads_kept (fetchElements_kept (fibreRows_kept h))

theorem execStreamRefill_kept {mesh sid : Nat} {sq : SqN} {block : Nat} {s : State} (h : s.wellKept) : Kept (execStreamRefill mesh sid sq block s) :=
  atStrand_kept (fun _ h => ite_kept (markLanding_kept (modSq_kept (noteWaits_kept (fetchBlock_kept h)))) h) h

theorem findEnd_kept {i : Instr} {a : SqN} {q : Stream} {s : State} (h : s.wellKept) : (findEnd i a q s).wellKept := by
  unfold findEnd
  extract_lets rq r s1
  have h1 : s1.wellKept := countReads_kept (fibreRows_kept h)
  split
  · exact trapHere_kept h1
  · exact ite_kept (modSq_kept h1) h1

theorem execVldPop_kept {d : VRegN} {a : SqN} {s : State} (h : s.wellKept) : Kept (execVldPop d a s) := by
  refine out_kept (.bind (whole_kept h) fun _ _ h => ?_)
  extract_lets q vl
  refine .bind (require_kept h) fun _ _ h => .bind (fits_kept h) fun _ _ h => ?_
  extract_lets missing
  refine .ite (modSq_kept h) (.ite (joinWaits_kept h) ?_)
  split
  · exact trapHere_kept (modSq_kept h)
  · exact .ite (findEnd_kept h) (modSq_kept (wholeV_kept h))

/-! ## Copies -/

theorem acceptCmd_kept {t : Tag} {c : Cmd} {s : State} (h : s.wellKept) : (acceptCmd t c s).wellKept := h.same
theorem performVector_kept {s : State} (h : s.wellKept) : (performVector s).wellKept := drainOut_kept (drainVector_kept h)

theorem issueCopy_kept {i : Instr} {calico : Bool} {a : GReg} {b : VRegN} {r : Fin 7} {t : Tag} {s : State} (h : s.wellKept) :
    Kept (issueCopy i calico a b r t s) :=
  out_kept (.bind (vqueue_kept h) fun _ _ h => .bind (require_kept h) fun _ _ h => .bind (.ite (deliverTag_kept h) h) fun _ _ h =>
    .bind (.ite (unpoisoned_kept h) h) fun _ _ h => .ite h (advance_kept (acceptCmd_kept (performVector_kept (ite_kept (mergeTag_kept h) h)))))

theorem execCopyAccept_kept {mesh : Nat} {s : State} (h : s.wellKept) : Kept (execCopyAccept mesh s) := by
  simp only [execCopyAccept, Kept]
  split
  · exact h
  · split
    · exact h
    · exact ite_kept (modCore_kept h) h

theorem readUnits_kept {f : Nat → State → Except (Word × XFault) Got × State} {is : List Nat} {s : State} (hf : ∀ i s, s.wellKept → (f i s).2.wellKept)
    (h : s.wellKept) : (readUnits f is s).2.wellKept := by
  induction is generalizing s with
  | nil => exact h
  | cons i is ih =>
    unfold readUnits
    split
    next e => exact kept_of_eq (hf i s h) e
    next e =>
      have h1 := kept_of_eq (hf i s h) e
      dsimp only
      split
      · exact h1
      · exact ih h1

theorem andRead_kept {x : UnitsRead × State} {f : State → UnitsRead × State} (hx : x.2.wellKept) (hf : ∀ s, s.wellKept → (f s).2.wellKept) :
    (andRead x f).2.2.wellKept := by
  unfold andRead
  split
  · exact hx
  · exact hf _ hx

theorem routineReads_kept {c : Cmd} {rq : Req} {image : List (BitVec 8)} {chunk n : Nat} {got : List Nat} {s : State} (h : s.wellKept) :
    (routineReads c rq image chunk n got s).2.wellKept := by
  induction n generalizing got s with
  | zero => exact h
  | succ n ih =>
    unfold routineReads
    split
    · exact h
    · dsimp only
      split
      next e => exact kept_of_eq (readPieces_kept readHome_keeps h) e
      next e =>
        have h1 := kept_of_eq (readPieces_kept readHome_keeps h) e
        split
        · exact h1
        · exact ih h1

theorem chunkSource_kept {c : Cmd} {rq : Req} {first count : Nat} {s : State} (h : s.wellKept) : (chunkSource c rq first count s).2.2.wellKept := by
  have readUnit {f : Nat → List Piece} : ∀ i s, State.wellKept s → (readPieces readHome rq .copyRead (f i) s).2.wellKept :=
    fun _ _ h => readPieces_kept readHome_keeps h
  unfold chunkSource
  extract_lets l units bs w blocks ch
  have hc : ch.2.wellKept := readUnits_kept readUnit h
  split
  · exact h
  split
  · split
    · exact hc
    split
    · exact hc
    · exact readUnits_kept (fun _ _ h => readExpanded_kept readHome_keeps h) hc
  · exact andRead_kept (readUnits_kept readUnit h) fun _ h => readUnits_kept readUnit h

theorem chunkMoved_kept {c : Cmd} {rq : Req} {image : List (BitVec 8)} {chunk first count : Nat} {s : State} (h : s.wellKept) :
    (chunkMoved c rq image chunk first count s).2.wellKept := by
  unfold chunkMoved
  split
  · extract_lets r s1
    have hr : r.2.wellKept := by
      unfold r
      split
      · exact h
      · exact routineReads_kept h
    have h1 : s1.wellKept := countReads_kept hr
    split
    · exact h1
    · split <;> exact h1
  · extract_lets r s1
    have h1 : s1.wellKept := countReads_kept (chunkSource_kept h)
    split <;> exact h1

theorem runChunk_kept {mesh : Nat} {t : Tag} {c : Cmd} {rq : Req} {image : List (BitVec 8)} {chunk : Nat} {s : State} (h : s.wellKept) :
    (runChunk mesh t c rq image chunk s).wellKept := by
  unfold runChunk
  extract_lets units first
  split
  next e => exact stopChunk_kept (kept_of_eq (chunkMoved_kept h) e)
  next e =>
    have h2 {who before} := noteWaits_kept (who := who) (before := before) (kept_of_eq (chunkMoved_kept h) e)
    exact ite_kept (modCoreTag_kept h2) (landChunk_kept h2)

theorem nextTurn_kept {mesh : Nat} {s : State} (h : s.wellKept) : (nextTurn mesh s).wellKept := h.same

theorem execCopyChunk_kept {mesh : Nat} {t : Tag} {chunk : Nat} {s : State} (h : s.wellKept) : Kept (execCopyChunk mesh t chunk s) := by
  simp only [execCopyChunk, Kept]
  split
  · exact h
  · split
    · exact ite_kept (landChunk_kept h) h
    · exact ite_kept (runChunk_kept (nextTurn_kept h)) h

theorem execCalicoTimeLimit_kept {mesh : Nat} {t : Tag} {s : State} (h : s.wellKept) : Kept (execCalicoTimeLimit mesh t s) := by
  simp only [execCalicoTimeLimit, Kept]
  split
  · exact h
  · exact ite_kept (stopTag_kept h) h

/-! ## The power governor -/

theorem endAlc_kept {i : Nat} {s : State} (h : s.wellKept) : (endAlc i s).wellKept := ite_kept h (foldl_kept (fun _ _ h => modCore_kept h) h)
theorem endPeriods_kept {die : Nat} {s : State} (h : s.wellKept) : (endPeriods die s).wellKept := foldl_kept (fun _ _ h => endAlc_kept (modIsland_kept h)) h
theorem setDef_kept {id i n : Nat} {s : State} (h : s.wellKept) : (setDef id i n s).wellKept := modLaunch_kept h
theorem addShares_kept {i q : Nat} {rs : List LeaveReq} {s : State} (h : s.wellKept) : (addShares i q rs s).wellKept :=
  foldl_kept (fun _ _ h => setDef_kept h) h.same

theorem grantLeave_kept {i : Nat} {r : LeaveReq} {s : State} (h : s.wellKept) : (grantLeave i r s).wellKept := by
  unfold grantLeave
  exact modIsland_kept (setDef_kept (modStrand_kept h))

theorem grantLoop_kept {i n : Nat} {rs : List LeaveReq} {s : State} (h : s.wellKept) : (grantLoop i n rs s).wellKept := by
  induction n generalizing rs s with
  | zero => exact h
  | succ n ih =>
    unfold grantLoop
    split
    · exact h
    · exact ih (grantLeave_kept h)

theorem islandPeriod_kept {i q : Nat} {s : State} (h : s.wellKept) : (islandPeriod i q s).wellKept := grantLoop_kept (addShares_kept (modIsland_kept h))
theorem recordDraws_kept {die : Nat} {x : Supply} {s : State} (h : s.wellKept) : (recordDraws die x s).wellKept := h.same

theorem execGrantPeriod_kept {die : Nat} {draws : Draws} {s : State} (h : s.wellKept) : Kept (execGrantPeriod die draws s) := by
  simp only [execGrantPeriod, Kept]
  exact ite_kept h (modDie_kept (foldl_kept (fun _ _ h => islandPeriod_kept h) (ite_kept h (endPeriods_kept (recordDraws_kept h)))))

/-! ## Saving and the scheduler -/

/-- Frames go to memory without passing through a slice, byte for byte through `Memory.setN`. -/
theorem writePieces_kept {base : Nat} {ps : List (Nat × List (BitVec 8))} {s : State} (h : s.wellKept) : (writePieces base ps s).wellKept :=
  foldl_kept (fun s p h => mendWords_kept (s := { s with mem := s.mem.setN (base + p.1) p.2 })
    ⟨Memory.wf_setN _ _ _ h.mem, h.durable, h.atHand, h.here, h.elsewhere⟩) h

theorem writeStrand_kept {l : Launch} {mesh k : Nat} {s : State} (h : s.wellKept) : (writeStrand l mesh k s).wellKept := writePieces_kept h
theorem writeFrames_kept {l : Launch} {mesh : Nat} {s : State} (h : s.wellKept) : (writeFrames l mesh s).wellKept :=
  foldl_kept (fun _ _ h => writeStrand_kept h) (writePieces_kept (draw_kept h))
theorem readSlot_kept {pa : Nat} {s : State} (h : s.wellKept) : (readSlot pa s).2.wellKept := by
  unfold readSlot
  have hr : (homeRead noCtx true (memLocs pa 128) s).2.wellKept := homeRead_kept h
  revert hr
  generalize homeRead noCtx true (memLocs pa 128) s = r
  exact id

theorem consumeSlot_kept {die q status : Nat} {s : State} (h : s.wellKept) : (consumeSlot die q status s).wellKept := by
  unfold consumeSlot
  exact modQueue_kept (homeWrite_kept h)

theorem acceptLaunch_kept {r : List Word} {die q : Nat} {s : State} (h : s.wellKept) : (acceptLaunch r die q s).wellKept := h.same

theorem acceptRecord_kept {r : List Word} {die q : Nat} {s : State} (h : s.wellKept) : (acceptRecord r die q s).wellKept :=
  ite_kept (consumeSlot_kept h) (ite_kept (consumeSlot_kept h)
    (ite_kept (consumeSlot_kept (depBad_kept h)) (acceptLaunch_kept (consumeSlot_kept (depBad_kept h)))))

theorem schedWords_kept {die ctx n : Nat} {va : Word} {s : State} (h : s.wellKept) : (schedWords die ctx n va s).2.wellKept := by
  induction n generalizing va s with
  | zero => exact h
  | succ n ih =>
    unfold schedWords
    split
    next e => exact kept_of_eq (schedRead_kept h) e
    next e => exact ih (kept_of_eq (schedRead_kept h) e)

theorem takeSnapshot_kept {r : List Word} {die q : Nat} {s : State} (h : s.wellKept) : (takeSnapshot r die q s).wellKept := by
  unfold takeSnapshot
  extract_lets ctx
  split
  next e => exact consumeSlot_kept (kept_of_eq (schedWords_kept h) e)
  next e =>
  have h1 := kept_of_eq (schedWords_kept h) e
  refine ite_kept (consumeSlot_kept h1) ?_
  extract_lets n
  split
  next e => exact consumeSlot_kept (kept_of_eq (schedWords_kept h1) e)
  next e =>
  have h2 := kept_of_eq (schedWords_kept h1) e
  split
  next e => exact consumeSlot_kept (kept_of_eq (schedRead_kept h2) e)
  next e =>
  have h3 := kept_of_eq (schedRead_kept h2) e
  split
  next e => exact consumeSlot_kept (kept_of_eq (schedWords_kept h3) e)
  next e =>
  have h4 := kept_of_eq (schedWords_kept h3) e
  refine ite_kept (consumeSlot_kept h4) ?_
  extract_lets preds s5 prev s6
  have h6 : s6.wellKept := modQueue_kept (consumeSlot_kept h4)
  exact completeReplays_kept (dispatchReady_kept h6.same)

theorem acceptReplay_kept {r : List Word} {die q : Nat} {s : State} (h : s.wellKept) : (acceptReplay r die q s).wellKept :=
  ite_kept (consumeSlot_kept h) (ite_kept (consumeSlot_kept h) (ite_kept h (takeSnapshot_kept h)))

theorem execSlotAccept_kept {die q : Nat} {s : State} (h : s.wellKept) : Kept (execSlotAccept die q s) := by
  simp only [execSlotAccept, Kept]
  refine ite_kept h ?_
  split
  · exact acceptRecord_kept (readSlot_kept h)
  · exact acceptReplay_kept (readSlot_kept h)
  · exact consumeSlot_kept (readSlot_kept h)
  · exact consumeSlot_kept (readSlot_kept h)

theorem execDependenceRead_kept {cand : Nat} {s : State} (h : s.wellKept) : Kept (execDependenceRead cand s) := by
  simp only [execDependenceRead, Kept]
  split
  · exact h
  · refine ite_kept h ?_
    split
    next e => exact modLaunch_kept (kept_of_eq (schedRead_kept h) e)
    next e =>
      have h1 := kept_of_eq (schedRead_kept h) e
      exact ite_kept (modLaunch_kept h1) h1

theorem startedCore_stays (l : Launch) (t : Nat) (c : Core) : c.Stays (startedCore l t c) := .trans .same (fusedFor_stays _ _)

theorem startCore_kept {l : Launch} {ceiling part : Nat} {ptvec : Word} {mesh : Nat} {s : State} (h : s.wellKept) :
    (startCore l ceiling part ptvec mesh s).wellKept :=
  modCoreStrands_kept (modCore_kept h (startedCore_stays _ _)) fun _ _ => by split <;> rfl

theorem revivedCore_stays (l : Launch) (t : Nat) (x c : Core) : c.Stays (revivedCore l t x c) := .trans .same (fusedFor_stays _ _)

theorem revivedStrand_mesh (l : Launch) (ceiling : Nat) (x t : Strand) : (revivedStrand l ceiling x t).mesh = t.mesh := by
  unfold revivedStrand
  split
  · exact resumedStrand_mesh _ _ _ _
  · rfl

theorem reviveCore_kept {l : Launch} {ceiling mesh : Nat} {s : State} (h : s.wellKept) : (reviveCore l ceiling mesh s).wellKept := by
  unfold reviveCore
  split
  · exact h
  · exact modCoreStrands_kept (modCore_kept h (revivedCore_stays _ _ _)) fun _ ht => (revivedStrand_mesh _ _ _ _).trans ht

theorem countPlaced_kept {id : Nat} {s : State} (h : s.wellKept) : (countPlaced id s).wellKept := h.same

theorem saved_kept {xs : List Image} {s : State} (h : s.wellKept) : State.wellKept { s with saved := xs } := h.same

theorem startLaunch_kept {l : Launch} {s : State} (h : s.wellKept) : (startLaunch l s).wellKept := by
  unfold startLaunch
  extract_lets r part ptvec ceiling live s1 bs
  have h1 : s1.wellKept := foldl_kept (fun _ _ h => modCore_kept h (fusedFor_stays _)) (foldl_kept (fun _ _ h => reviveCore_kept h) h)
  clear_value s1
  exact ite_kept (modLaunch_kept (saved_kept h1)) (modLaunch_kept (foldl_kept (fun _ _ h => startCore_kept h) h))

theorem refusePlaced_kept {l : Launch} {s : State} (h : s.wellKept) : (refusePlaced l s).wellKept := by
  unfold refusePlaced
  split
  · exact h
  · exact completeReplays_kept (dispatchReady_kept (refuseNode_kept (modLaunch_kept h)))

theorem powerRect_kept {r : List Word} {s : State} (h : s.wellKept) : (powerRect r s).wellKept := foldl_kept (fun _ _ h => pupreqOp_kept h) h

theorem execPlacement_kept {s : State} (h : s.wellKept) : Kept (execPlacement s) := by
  simp only [execPlacement, Kept]
  split
  · exact h
  · exact ite_kept (refusePlaced_kept h) (ite_kept (startLaunch_kept (countPlaced_kept h)) (powerRect_kept h))

theorem stopForSave_kept {s : State} (h : s.wellKept) : (stopForSave s).wellKept :=
  ite_kept (performAll_kept h) (onMe_kept (unwatch_kept (ite_kept (storeTrap_kept (performAll_kept h)) (performAll_kept h))))
theorem preemptStrand_kept {s : State} (h : s.wellKept) : (preemptStrand s).wellKept := ite_kept (onMe_kept (performAll_kept h)) (stopForSave_kept (performAll_kept h))

theorem execPreemption_kept {v : Nat} {s : State} (h : s.wellKept) : Kept (execPreemption v s) := by
  simp only [execPreemption, Kept]
  split
  · exact h
  · refine ite_kept ?_ h
    split
    · exact h
    · exact modLaunch_kept (foldl_kept (fun _ _ h => atStrand_kept (fun _ h => preemptStrand_kept h) h) h)

theorem failSaves_kept {l : Launch} {s : State} (h : s.wellKept) : (failSaves l s).wellKept :=
  foldl_kept (fun _ _ h => ite_kept (terminate_kept h) h) (modLaunch_kept h)
theorem saveCore_kept {l : Launch} {mesh : Nat} {s : State} (h : s.wellKept) : (saveCore l mesh s).wellKept :=
  quitCore_kept (clearStrands_kept (writeFrames_kept (l := l) (mesh := mesh) h).same)
theorem settleStops_kept {v : Nat} {s : State} (h : s.wellKept) : (settleStops v s).wellKept :=
  foldl_kept (fun _ _ h => atStrand_kept (fun _ h => ite_kept h (stopForSave_kept h)) h) h
theorem saveLaunch_kept {l : Launch} {s : State} (h : s.wellKept) : (saveLaunch l s).wellKept := by
  unfold saveLaunch
  extract_lets s1 mine
  have h1 : s1.wellKept := failSaves_kept h
  clear_value s1
  exact ite_kept h1 (modLaunch_kept (endFusion_kept (foldl_kept (fun _ _ h => saveCore_kept h) h1)))

theorem execStateSaveComplete_kept {v : Nat} {s : State} (h : s.wellKept) : Kept (execStateSaveComplete v s) := by
  simp only [execStateSaveComplete, Kept]
  split
  · exact h
  · exact ite_kept h (ite_kept (saveLaunch_kept (settleStops_kept h)) (settleStops_kept h))

/-! ## The mailbox -/

theorem answer_kept {sts : Nat} {ret : Word} {s : State} (h : s.wellKept) : (answer sts ret s).wellKept := h.same
theorem modPart_kept {p : Nat} {f : Partition → Partition} {s : State} (h : s.wellKept) : (modPart p f s).wellKept := h.same
theorem loadFirmware_kept {img : List (BitVec 8)} {s : State} (h : s.wellKept) : (loadFirmware img s).wellKept := ite_kept h.same h.same
theorem loadRoutine_kept {slot : Nat} {img : List (BitVec 8)} {cluster : Nat} {s : State} (h : s.wellKept) : (loadRoutine slot img cluster s).wellKept := h.same

theorem resumeHost_kept {l : Launch} {mesh : Nat} {s : State} (h : s.wellKept) : (resumeHost l mesh s).wellKept := by
  unfold resumeHost
  extract_lets r t part s1 s2
  have h1 : s1.wellKept := modCoreStrands_kept (modCore_kept h fun _ => .trans .same (fusedFor_stays _ _)) fun _ _ => by split <;> rfl
  have h2 : s2.wellKept := countTorn_kept h1
  split
  · exact h2
  · exact resumeFrom_kept h2

theorem resumeLaunch_kept {r : List Word} {s : State} (h : s.wellKept) : (resumeLaunch r s).wellKept := by
  unfold resumeLaunch
  extract_lets id fresh l cores lost s1 s2 s3 n
  have h1 : s1.wellKept := foldl_kept (fun _ _ h => resumeHost_kept h) h.same
  clear_value s1
  have h3 : s3.wellKept := foldl_kept (fun _ _ h => ite_kept (terminate_kept h) h) (modLaunch_kept h1)
  exact answer_kept (finishIfDone_kept h3)

theorem resumeCommand_kept {pa : Word} {s : State} (h : s.wellKept) : (resumeCommand pa s).wellKept :=
  have h1 := readSlot_kept h
  ite_kept (answer_kept h1) (ite_kept (answer_kept h1) (ite_kept (resumeLaunch_kept h1) (powerRect_kept h1)))

theorem carryOut_kept {cmd : Nat} {a : Vector Word 4} {s : State} (h : s.wellKept) : (carryOut cmd a s).wellKept := by
  unfold carryOut
  split
  · exact ite_kept (answer_kept h.same) h
  · exact ite_kept (answer_kept (modPart_kept h)) h
  · exact ite_kept (answer_kept (modPart_kept h)) h
  · exact ite_kept (answer_kept h) h
  · exact resumeCommand_kept h
  · exact ite_kept (answer_kept h) (answer_kept (loadFirmware_kept h))
  · exact ite_kept h (ite_kept (answer_kept h) (answer_kept (foldl_kept (fun _ _ h => loadRoutine_kept h) h)))
  · exact answer_kept (foldl_kept (fun _ _ h => flushCounts_kept h) h)
  · exact h

theorem execMailboxComplete_kept {s : State} (h : s.wellKept) : Kept (execMailboxComplete s) := ite_kept (carryOut_kept h) h
theorem spdm_kept {code : Nat} {req : List (BitVec 8)} {s : State} (h : s.wellKept) : (spdm code req s).wellKept := h.same

/-! ## The host and the chain ports -/

theorem countHost_kept {xs : List Nat} {s : State} (h : s.wellKept) : (countHost xs s).wellKept := foldl_kept (fun _ _ h => modDie_kept h) h

theorem execHostMemRead_kept {off len : Nat} {s : State} (h : s.wellKept) : Kept (execHostMemRead off len s) := by
  simp only [execHostMemRead, Kept]
  have h1 := countHost_kept (xs := hostOffsets off len) (homeRead_kept (ctx := noCtx) (wb := true) (ls := (hostOffsets off len).map fun x => .mem x) h)
  exact ite_kept h (ite_kept h1.same h.same)

theorem execHostMemWrite_kept {off : Nat} {bs : List (BitVec 8)} {s : State} (h : s.wellKept) : Kept (execHostMemWrite off bs s) :=
  ite_kept h (countHost_kept (homeWrite_kept h.same))
theorem snoopSet_kept {line : Nat} {f : L2Line → Option L2Line} {s : State} (h : s.wellKept) : (snoopSet line f s).wellKept := h.same
theorem hostOwnStore_kept {pa : Nat} {bs : List (BitVec 8)} {s : State} (h : s.wellKept) : (hostOwnStore pa bs s).wellKept :=
  homeBytes_kept (foldl_kept (fun _ _ h => snoopSet_kept h) (hostHas_kept h.same))

theorem execCxlCacheSnoop_kept {pa : Nat} {takeBack : Bool} {s : State} (h : s.wellKept) : Kept (execCxlCacheSnoop pa takeBack s) :=
  ite_kept h (ite_kept h.same h.same)

theorem modPort_kept {die port : Nat} {f : Port → Port} {s : State} (h : s.wellKept) : (modPort die port f s).wellKept := h.same

theorem execRemoteReply_kept {id : Nat} {r : ReplyKind} {s : State} (h : s.wellKept) : Kept (execRemoteReply id r s) := by
  simp only [execRemoteReply, Kept]
  split
  · exact h
  · refine ite_kept h ?_
    split
    · exact ite_kept (atStrand_kept (fun _ h => recordFault_kept h) h.same) h
    · exact h.same
    · exact ite_kept h.same h.same

theorem arrivalTarget_kept {rq : Req} {acc : Access} {size : Nat} {va : Word} {s : State} (h : s.wellKept) : (arrivalTarget rq acc size va s).2.wellKept := by
  unfold arrivalTarget
  split
  · exact h
  split
  · exact h
  split
  next e => exact kept_of_eq (translateTables_kept h) e
  next e => exact kept_of_eq (translateTables_kept h) e

theorem arrivalTargets_kept {rq : Req} {n : Nat} {va : Word} {s : State} (h : s.wellKept) : (arrivalTargets rq n va s).2.wellKept := by
  induction n generalizing va s with
  | zero => exact h
  | succ n ih =>
    unfold arrivalTargets
    split
    next e => exact kept_of_eq (arrivalTarget_kept h) e
    next e =>
      have h1 := kept_of_eq (arrivalTarget_kept h) e
      split
      next e => exact kept_of_eq (ih h1) e
      next e => exact kept_of_eq (ih h1) e

theorem arriveByte_kept {ctx : Nat} {t : Target} {b : BitVec 8} {s : State} (h : s.wellKept) : (arriveByte ctx t b s).wellKept := homeWrite_kept h

theorem arriveStore_kept {rq : Req} {va : Word} {bytes : List (BitVec 8)} {s : State} (h : s.wellKept) : (arriveStore rq va bytes s).2.wellKept := by
  unfold arriveStore
  extract_lets n
  split
  · exact h
  split
  · split
    next e => exact kept_of_eq (arrivalTarget_kept h) e
    next e =>
      have h1 := kept_of_eq (arrivalTarget_kept h) e
      split
      · exact ite_kept (ctlStore_kept h1) (homeWrite_kept h1)
      · exact homeWrite_kept h1
  · split
    next e => exact kept_of_eq (arrivalTargets_kept h) e
    next e => exact foldl_kept (fun _ _ h => arriveByte_kept h) (kept_of_eq (arrivalTargets_kept h) e)

theorem arrivePublication_kept {rq : Req} {va : Word} {fin_ : Bool} {n : Nat} {s : State} (h : s.wellKept) : (arrivePublication rq va fin_ n s).2.wellKept := by
  unfold arrivePublication
  split
  · exact h
  split
  next e => exact kept_of_eq (arrivalTarget_kept h) e
  next e =>
    have h1 := kept_of_eq (arrivalTarget_kept h) e
    dsimp only
    split
    · exact h1
    · exact publishAt_kept h1

theorem arrive_kept {rq : Req} {r : RemoteAccess} {s : State} (h : s.wellKept) : (arrive rq r s).2.wellKept := by
  unfold arrive
  split
  · exact arriveStore_kept h
  · split
    next e => exact kept_of_eq (arrivalTarget_kept h) e
    next e => exact rmwAt_kept (kept_of_eq (arrivalTarget_kept h) e)
  · exact arrivePublication_kept h

theorem execRemoteAccessArrival_kept {port : Nat} {first : Bool} {r : RemoteAccess} {s : State} (h : s.wellKept) :
    Kept (execRemoteAccessArrival port first r s) := by
  unfold execRemoteAccessArrival
  extract_lets s1 a
  have ha : a.2.wellKept := arrive_kept (ite_kept (modPort_kept h) h)
  exact State.wellKept.same ha

/-! ## The persist queue -/

theorem makeDurable_wf {m : Memory} {e : PersistEntry} (h : m.wf = true) : (makeDurable m e).wf = true := Memory.wf_foldl_set _ _ h

theorem execPersistEntryDurable_kept {die : Nat} {s : State} (h : s.wellKept) : Kept (execPersistEntryDurable die s) := by
  simp only [execPersistEntryDurable, Kept]
  split
  · exact h
  split
  · exact h
  · exact ite_kept h ⟨h.mem, makeDurable_wf h.durable, h.atHand, h.here, h.elsewhere⟩

end Sys2Proof.Machine
end

section
namespace Sys2Proof.Machine

set_option Elab.async false

/-! ## The sequencers -/

theorem putScalar_mesh (w : Word) (t : Strand) (r : ScalarReg) : (putScalar w t r).mesh = t.mesh := by cases r <;> rfl
theorem given_mesh (t : Strand) (f : Flight) : (given f t).mesh = t.mesh := foldl_same_mesh (fun _ _ => putScalar_mesh _ _ _) _ _
theorem giveTo_mesh (fs : List Flight) (t : Strand) : (giveTo fs t).mesh = t.mesh := foldl_same_mesh given_mesh _ _
theorem withoutResults_mesh (rs : List ScalarReg) (a t : Strand) : (withoutResults rs a t).mesh = t.mesh :=
  foldl_same_mesh (fun _ _ => putScalar_mesh _ _ _) _ _

theorem fillWindow_kept {mesh : Nat} {s : State} (h : s.wellKept) : (fillWindow mesh s).wellKept := modCore_kept h
theorem giveMe_kept {mesh : Nat} {fs : List Flight} {s : State} (h : s.wellKept) : (giveMe mesh fs s).wellKept := ite_kept (onMe_kept h (giveTo_mesh _ _)) h

theorem account_kept {i : Option Instr} {before s : State} (h : s.wellKept) : (account i before s).wellKept := by
  unfold account
  extract_lets a t
  refine ite_kept h (ite_kept (onCore_kept h (squash_stays _ _)) (ite_kept (onCore_kept (onMe_kept h (giveTo_mesh _ _)) (squash_stays _ _)) ?_))
  split
  · exact h
  · extract_lets enters fs1 me fs2
    have hme : me.mesh = s.me.mesh := by
      unfold me
      split
      · exact withoutResults_mesh _ _ _
      · rfl
    clear_value me fs2
    exact fillWindow_kept (giveMe_kept (onCore_kept (h.same (me := hme))))

theorem filled_stays (n : Nat) (c : Core) : c.Stays (filled n c) := .same
theorem starved_stays (u : ExUnit) (c : Core) (sid : Nat) : c.Stays (starved u c sid) := .same
theorem startOp_stays (u : ExUnit) (m : MicroOp) (ready : List MicroOp) (c : Core) : c.Stays (startOp u m ready c) :=
  .trans (.foldl (starved_stays u) (passedOver m ready) c) .same

theorem issuedCore_stays {u : ExUnit} {n : Nat} {p : MicroOp → Bool} {c d : Core} (e : issuedCore u n p c = some d) : c.Stays d := by
  simp only [issuedCore] at e
  split at e
  · cases e
  · obtain ⟨m, -, hm⟩ := Option.bind_eq_some_iff.1 e
    split at hm
    · cases hm
      exact (startOp_stays _ _ _ _).trans (filled_stays _ _)
    · cases hm

theorem groupEnded_stays {u : ExUnit} {n : Nat} {c d : Core} (e : groupEnded u n c = some d) : c.Stays d := by
  obtain ⟨f, -, rfl⟩ := Option.map_eq_some_iff.1 e
  exact .mapStrands fun _ ht => (giveTo_mesh _ _).trans ht

theorem Core.Stays.getD {c : Core} {x : Option Core} (hx : ∀ d, x = some d → c.Stays d) : c.Stays (x.getD c) := by
  cases x with
  | none => exact .same
  | some d => exact hx d rfl

/-- A core put in the place of core `mesh` that came of that core. -/
theorem putCore_kept {mesh : Nat} {x : Option Core} {s : State} (h : s.wellKept) (hx : ∀ d, x = some d → (coreAt mesh s).Stays d) :
    (putCore mesh x s).wellKept := by
  cases x with
  | none => exact h
  | some d =>
    exact modCore_kept_of_mesh h fun c hc => ⟨((hx d rfl).mesh.trans (coreAt_mesh mesh s)).trans hc.symm, fun _ => (hx d rfl).housed (coreAt_housed mesh h)⟩

theorem execMicroOpIssue_kept {mesh : Nat} {u : ExUnit} {sid : Nat} {s : State} (h : s.wellKept) : Kept (execMicroOpIssue mesh u sid s) :=
  putCore_kept h fun _ => issuedCore_stays
theorem execElementGroupComplete_kept {mesh : Nat} {u : ExUnit} {s : State} (h : s.wellKept) : Kept (execElementGroupComplete mesh u s) :=
  giveMe_kept (putCore_kept h fun _ => groupEnded_stays)

theorem beaten_stays (n : Nat) (c : Core) : c.Stays (beaten n c) :=
  .ite .same (.trans (.foldl (fun _ _ => .getD fun _ => groupEnded_stays) _ _) (.foldl (fun _ _ => .getD fun _ => issuedCore_stays) _ _))

theorem beat_kept {s : State} (h : s.wellKept) : (beat s).wellKept := giveMe_kept (cores_kept (core_kept h (beaten_stays _ _)) fun _ => beaten_stays _ _)

/-! ## Events of the store queue, the walker and the queues of writes -/

theorem execTableWalk_kept {mesh ctx : Nat} {priv : Bool} {kind : Access} {va : Word} {s : State} (h : s.wellKept) :
    Kept (execTableWalk mesh ctx priv kind va s) := by
  simp only [execTableWalk, Kept]
  split
  · exact h
  · exact ite_kept (serveMiss_kept (modCore_kept h)) h

theorem performVectorAt_kept {idx : Nat} {s : State} (h : s.wellKept) : (performVectorAt idx s).wellKept := by
  unfold performVectorAt
  split
  · exact h
  · exact ite_kept h (performWrites_kept (onMe_kept h))

theorem performHomeAt_kept {mesh idx : Nat} {s : State} (h : s.wellKept) : (performHomeAt mesh idx s).wellKept := by
  dsimp only [performHomeAt]
  split
  · exact h
  · exact ite_kept h (homeWrite_kept (modCore_kept h))

theorem execAccessPerform_kept {p : Performed} {s : State} (h : s.wellKept) : Kept (execAccessPerform p s) := by
  cases p with
  | atCore mesh sid idx => exact atStrand_kept (fun _ h => performVectorAt_kept h) h
  | atHome mesh idx => exact performHomeAt_kept h

/-! ## Instructions and events -/

/-- What an instruction or an event does keeps the form, whatever the state. -/
theorem exec_kept (i : Instr) {s : State} (h : s.wellKept) : Kept (exec i s) := by
  cases i with
  | add | sub | mul | mulh | mulhU | div | divU | rem | remU | and | or | xor | shl | shr | sar | min | minU | max | maxU | setEq | setLt | setLtu =>
    dsimp only [exec]
    exact aluT_kept h
  | clz | popc | sel | lih | fcvtBits =>
    dsimp only [exec]
    exact advance_kept (setG_kept h)
  | addI | andI | orI | xorI | shlI | shrI | sarI | setEqI | setLtI | setLtuI =>
    dsimp only [exec]
    exact aluI_kept h
  | fadd | fsub | fmul | fma | fdiv | fsqrt | fcvtFS64 | fcvtFN64 =>
    dsimp only [exec]
    exact putF_kept h
  | fmin | fmax | fcvtFBits =>
    dsimp only [exec]
    exact advance_kept (setF_kept h)
  | fcmp | fcvtS64 | fcvtN64 =>
    dsimp only [exec]
    exact advance_kept (raise_kept (setG_kept h))
  | b =>
    dsimp only [exec]
    exact out_kept (.bind (notFinal_kept h) fun _ _ h => jump_kept h)
  | beq | bne | blt | bge | bltu | bgeu =>
    dsimp only [exec]
    exact branch_kept h
  | j | jal =>
    dsimp only [exec]
    exact out_kept (.bind (notFinal_kept h) fun _ _ h => jump_kept (setG_kept h))
  | jr => exact execJr_kept h
  | loop => exact execLoop_kept h
  | strip => exact execStrip_kept h
  | trap => exact execTrap_kept h
  | eret => exact execEret_kept h
  | csrr => exact execCsrr_kept h
  | csrw => exact execCsrw_kept h
  | feat => exact execFeat_kept h
  | endStrand => exact execEndStrand_kept h
  | wfe => exact execWfe_kept h
  | yield | hint =>
    dsimp only [exec]
    exact advance_kept h
  | fenceI => exact execFenceI_kept h
  | ldB | ldBu | ldH | ldHu | ldW | ldWu | ldD =>
    dsimp only [exec]
    exact loadG_kept h
  | ldF => exact execLdF_kept h
  | stB | stH | stW | stD | stF =>
    dsimp only [exec]
    exact storeWord_kept h
  | amoAdd | amoMin | amoMax | amoAnd | amoOr | amoXor | amoSwp | amoCas =>
    dsimp only [exec]
    exact amo_kept h
  | acq => exact execAcq_kept h
  | acqObs => exact execAcqObs_kept h
  | tryacq => exact execTryacq_kept h
  | rel => exact execRel_kept h
  | bind => exact execBind_kept h
  | unbind => exact execUnbind_kept h
  | fence => exact execFence_kept h
  | pfenceCore => exact execPfenceCore_kept h
  | pfenceDie => exact execPfenceDie_kept h
  | drainst => exact execDrainst_kept h
  | bar => exact execBar_kept h
  | pubhw | pubhwFin =>
    dsimp only [exec]
    exact publish_kept h
  | launch => exact execLaunch_kept h
  | vcfg => exact execVcfg_kept h
  | setvl => exact execSetvl_kept h
  | setmode => exact execSetmode_kept h
  | mmode => exact execMmode_kept h
  | vadd | vsub | vmul | vmac | vneg | vabs | vmin | vmax =>
    dsimp only [exec]
    exact vint_kept h
  | vand | vor | vxor | vnot =>
    dsimp only [exec]
    exact vbits_kept h
  | vshl | vshr | vwiden =>
    dsimp only [exec]
    exact vshift_kept h
  | vcmp => exact execVcmp_kept h
  | vsel => exact execVsel_kept h
  | vpopc => exact execVpopc_kept h
  | vdot => exact execVdot_kept h
  | vred => exact execVred_kept h
  | vscan => exact execVscan_kept h
  | vcompress => exact execVcompress_kept h
  | vexpand => exact execVexpand_kept h
  | vslideDn | vslideUp =>
    dsimp only [exec]
    exact vslide_kept h
  | viota | viotaIdx =>
    dsimp only [exec]
    exact viotaOf_kept h
  | vmv => exact execVmv_kept h
  | vmvScalar => exact execVmvScalar_kept h
  | vnarrow => exact execVnarrow_kept h
  | mand | mor | mxor | mnot =>
    dsimp only [exec]
    exact maskOp_kept h
  | mpopc => exact execMpopc_kept h
  | mfirst => exact execMfirst_kept h
  | tagmask => exact execTagmask_kept h
  | vfadd | vfmul | vfma | vfexp2 | vfrcp | vfrsq | vfmax =>
    dsimp only [exec]
    exact vfloat_kept h
  | vfcvt => exact execVfcvt_kept h
  | vsmax => exact execVsmax_kept h
  | qstat => exact execQstat_kept h
  | qscaleH => exact execQscaleH_kept h
  | qscaleR => exact execQscaleR_kept h
  | qscaleZ => exact execQscaleZ_kept h
  | quant => exact execQuant_kept h
  | ctab => exact execCtab_kept h
  | clook => exact execClook_kept h
  | opa => exact execOpa_kept h
  | opaAca => exact execOpaAca_kept h
  | opaS => exact execOpaS_kept h
  | opaT => exact execOpaT_kept h
  | accz => exact execAccz_kept h
  | accrd => exact execAccrd_kept h
  | drain => exact execDrain_kept h
  | scout => exact execScout_kept h
  | thresh => exact execThresh_kept h
  | tmand => exact execTmand_kept h
  | tmpopc => exact execTmpopc_kept h
  | vld => exact execVld_kept h
  | vldCompressed => exact execVldCompressed_kept h
  | vldPop => exact execVldPop_kept h
  | vst => exact execVst_kept h
  | vgather => exact execVgather_kept h
  | vscatterOrd | vscatterUno =>
    dsimp only [exec]
    exact scatter_kept h
  | cpy | cpyx =>
    dsimp only [exec]
    exact issueCopy_kept h
  | waitany =>
    dsimp only [exec]
    exact tagInstr_kept h fun _ _ h => setG_kept h
  | waitall =>
    dsimp only [exec]
    exact tagInstr_kept h fun _ _ h => h
  | ffrdy => exact execFfrdy_kept h
  | tagcnt => exact execTagcnt_kept h
  | commit => exact execCommit_kept h
  | sqopen => exact execSqopen_kept h
  | sqadv =>
    dsimp only [exec]
    exact onOpenSlot_kept (fun _ h => modSq_kept h) h
  | sqend | sqclose =>
    dsimp only [exec]
    exact onOpenSlot_kept (fun _ h => modBoth_kept h) h
  | microOpIssue => exact execMicroOpIssue_kept h
  | elementGroupComplete => exact execElementGroupComplete_kept h
  | trapEntry => exact execTrapEntry_kept h
  | storeQueueTranslate =>
    dsimp only [exec]
    exact atStrand_kept (fun _ h => translateStore_kept h) h
  | waitForWriteWake =>
    dsimp only [exec]
    exact State.wellKept.same h
  | tableWalk => exact execTableWalk_kept h
  | accessPerform => exact execAccessPerform_kept h
  | dramAccess =>
    dsimp only [exec]
    exact dramServe_kept h
  | backoffEnd | refresh | refreshEnd | rowIdleClose =>
    dsimp only [exec]
    exact settleAt_kept h
  | hbmTempSample => exact execHbmTempSample_kept h
  | refreshModeChange => exact execRefreshModeChange_kept h
  | thermSample => exact execThermSample_kept h
  | persistEntryStart =>
    dsimp only [exec]
    exact modDie_kept h
  | persistEntryDurable => exact execPersistEntryDurable_kept h
  | shadowInterval => exact execShadowInterval_kept h
  | shadowWrite => exact execShadowWrite_kept h
  | shadowSeal => exact execShadowSeal_kept h
  | pdreq =>
    dsimp only [exec]
    exact pdreqOp_kept h
  | pupreq =>
    dsimp only [exec]
    exact pupreqOp_kept h
  | plannedPowerDown => exact execPlannedPowerDown_kept h
  | powerUp => exact execPowerUp_kept h
  | coreLoss => exact execCoreLoss_kept h
  | coreSupplyRestored => exact execCoreSupplyRestored_kept h
  | resumeTimeout => exact execResumeTimeout_kept h
  | packageLoss => exact execPackageLoss_kept h
  | idlePowerDown => exact execIdlePowerDown_kept h
  | registerWrite => exact execRegisterWrite_kept h
  | tiqhi =>
    dsimp only [exec]
    exact tiqhiWrite_kept h.same
  | invalidationComplete => exact execInvalidationComplete_kept h
  | doorbell =>
    dsimp only [exec]
    exact doorbellWrite_kept h
  | queueEnable =>
    dsimp only [exec]
    exact queueEnableOp_kept h
  | queueDisable =>
    dsimp only [exec]
    exact queueDisableOp_kept h
  | slotAccept => exact execSlotAccept_kept h
  | dependenceRead => exact execDependenceRead_kept h
  | placement => exact execPlacement_kept h
  | preemption => exact execPreemption_kept h
  | stateSaveComplete => exact execStateSaveComplete_kept h
  | wgterm => exact execWgterm_kept h
  | sfpop => exact execSfpop_kept h
  | grantPeriod => exact execGrantPeriod_kept h
  | marginTrip => exact execMarginTrip_kept h
  | poisonDetect => exact execPoisonDetect_kept h
  | copyAccept => exact execCopyAccept_kept h
  | copyChunk => exact execCopyChunk_kept h
  | calicoTimeLimit => exact execCalicoTimeLimit_kept h
  | streamRefill => exact execStreamRefill_kept h
  | flitTimeout | chainPortLinkChange =>
    dsimp only [exec]
    exact ite_kept (modPort_kept h) h
  | remoteAccessArrival => exact execRemoteAccessArrival_kept h
  | hostMemRead => exact execHostMemRead_kept h
  | hostMemWrite => exact execHostMemWrite_kept h
  | counterFlush => exact execCounterFlush_kept h
  | dieReset =>
    dsimp only [exec]
    exact restartDie_kept h
  | stageComplete => exact execStageComplete_kept h
  | stageTimeout => exact execStageTimeout_kept h
  | bootlock =>
    dsimp only [exec]
    exact bootlockOp_kept h
  | setcap | setfloor | allot | power | resume | fwload | calico | flush | restart =>
    dsimp only [exec]
    exact mailboxRun_kept h
  | mailboxComplete => exact execMailboxComplete_kept h
  | getVersion | getCapabilities | negotiateAlgorithms | getDigests | getCertificate | challenge | getMeasurements =>
    dsimp only [exec]
    exact spdm_kept h
  | remoteReply => exact execRemoteReply_kept h
  | cxlCacheSnoop => exact execCxlCacheSnoop_kept h

/-! ## Turns -/

theorem passCycles_kept {n : Vector Nat 4} {s : State} (h : s.wellKept) : (passCycles n s).wellKept := h.same
theorem endTurn_kept {i : Option Instr} {before s : State} (h : s.wellKept) : (endTurn i before s).wellKept := noteWaits_kept (account_kept h)

theorem runStrand_kept {s : State} (h : s.wellKept) : Kept (runStrand s) := by
  have hf := fetchInstr_kept h
  unfold runStrand
  split
  next s1 e =>
    rw [e] at hf
    exact endTurn_kept hf
  next i s1 e =>
    rw [e] at hf
    have hx := exec_kept i hf
    split
    · exact h
    · split
      next t ht =>
        rw [ht] at hx
        exact endTurn_kept hx
      · trivial
      · trivial

theorem stopTurn_kept {s : State} (h : s.wellKept) : Kept (stopTurn s) := by
  have hr := runStrand_kept h
  unfold stopTurn
  split
  next t ht =>
    rw [ht] at hr
    exact ite_kept hr (stopForSave_kept (ite_kept hr h))
  · trivial
  · trivial

theorem runIfReady_kept {s : State} (h : s.wellKept) : Kept (runIfReady s) := by
  unfold runIfReady
  split
  · exact h
  split
  · split
    · exact h
    · exact stopTurn_kept h
  · exact runStrand_kept h

theorem runGroups_kept {n : Nat} {s : State} (h : s.wellKept) : Kept (runGroups n s) := by
  have hr : Kept (runIfReady { s with quota := some n }) := runIfReady_kept h.same
  unfold runGroups
  cases e : runIfReady { s with quota := some n } with
  | next t =>
    rw [e] at hr
    exact clearQuota_kept hr
  | fault f => trivial
  | refused r => trivial

theorem strandTurn_kept {mesh sid : Nat} {run : State → Out} {s : State} (hrun : ∀ s, s.wellKept → Kept (run s)) (h : s.wellKept) :
    Kept (strandTurn mesh sid run s) := by
  unfold strandTurn
  split
  · exact hrun _ (focus_kept h)
  · exact h

theorem takeTurn_kept {t : Turn} {s : State} (h : s.wellKept) : Kept (takeTurn t s) := by
  cases t with
  | strand mesh sid => exact strandTurn_kept (fun _ h => runIfReady_kept h) h
  | groups mesh sid n => exact strandTurn_kept (fun _ h => runGroups_kept h) h
  | event i =>
    dsimp only [takeTurn]
    split
    · exact exec_kept i h
    · exact h
  | hostRead off size => exact hostRegisterRead_kept h
  | cdat req => exact State.wellKept.same h
  | hostStore pa bytes => exact hostOwnStore_kept h

theorem bankTurn_kept {s : State} (h : s.wellKept) : (bankTurn s).wellKept := by
  unfold bankTurn
  split
  · exact h
  · exact dramServe_kept h

theorem someTurn_kept {s : State} (h : s.wellKept) : Kept (someTurn s) := by
  unfold someTurn
  split
  · exact runIfReady_kept h
  · split
    · exact bankTurn_kept h
    · exact runIfReady_kept (focus_kept h)

theorem step_kept {s : State} (h : s.wellKept) : Kept (step s) := by
  unfold step
  split
  · exact someTurn_kept (beat_kept (passCycles_kept h))
  · exact takeTurn_kept (passCycles_kept (State.wellKept.same h))

end Sys2Proof.Machine

namespace Sys2Proof.Claims

open Sys2Proof.Machine

/-- Settles O6: every part of a step keeps the form, by the lemmas above. -/
theorem stepsKeepForm : Obligations.StepsKeepForm := by
  intro s t h e
  have hs := step_kept h
  rw [e] at hs
  exact hs

end Sys2Proof.Claims
end

section
/-! Control space (O54): what a register write of the host does to each register, what BOOTLOCK guards, reads, descriptors and the boot lock itself. -/

namespace Sys2Proof.Machine

set_option Elab.async false

open Sys2Proof.Claims Sys2Proof.Laws

/-! ## Dies by their number -/

theorem fin_val {n : Nat} (h : 0 < n) (k : Fin n) : fin n h k.1 = k := Fin.ext (Nat.mod_eq_of_lt k.2)
theorem dieAt_val (d : Fin 4) (s : State) : dieAt d.1 s = s.dies[d] := congrArg (fun k : Fin 4 => s.dies[k]) (fin_val _ d)
theorem modDie_val (d : Fin 4) (f : Die → Die) (s : State) : modDie d.1 f s = withDie d (f s.dies[d]) s := by simp only [modDie, withDie, fin_val]

/-! ## Halves of a register (R401) -/

theorem fld_halves (v : Word) : fld v 0 32 + fld v 32 32 * 2 ^ 32 = v.toNat := by
  have := v.isLt
  simp only [fld, field]
  omega

theorem mixHalves_both (old v : Word) : mixHalves old v true true = v := by
  simp only [mixHalves, if_true, fld_halves, wd, BitVec.ofNat_toNat, BitVec.setWidth_eq]

theorem mixHalves_low (old v : Word) : mixHalves old v true false = BitVec.ofNat 64 (old.toNat / 2 ^ 32 * 2 ^ 32 + v.toNat % 2 ^ 32) := by
  have := old.isLt
  simp only [mixHalves, wd, fld, field, if_true, Bool.false_eq_true, if_false]
  congr 1
  omega

theorem mixHalves_high (old v : Word) :
    mixHalves old (wd (fld v 0 32 * 2 ^ 32)) false true = BitVec.ofNat 64 (v.toNat % 2 ^ 32 * 2 ^ 32 + old.toNat % 2 ^ 32) := by
  simp only [mixHalves, wd, fld, field, if_true, Bool.false_eq_true, if_false, BitVec.toNat_ofNat]
  congr 1
  omega

/-! ## Where a write of the host goes -/

/-- A write of 4 or 8 aligned bytes of a die's block, as the halves it writes of the register at its 8-byte aligned offset. -/
theorem ctlStore_die (d : Fin 4) {off : Nat} (h : off < 0x400000000) (size : Nat) (v : Word) (s : State) :
    ctlStore (0x40000000000 + d.1 * 0x400000000 + off) size v s =
      if size = 8 then ctlWrite d.1 (off / 8 * 8) true true v s
      else if off % 8 = 0 then ctlWrite d.1 (off / 8 * 8) true false v s
      else ctlWrite d.1 (off / 8 * 8) false true (wd (fld v 0 32 * 2 ^ 32)) s := by
  have hsub : 0x40000000000 + d.1 * 0x400000000 + off - 0x40000000000 = d.1 * 0x400000000 + off := by omega
  have hdie : (d.1 * 0x400000000 + off) / 0x400000000 = d.1 := by omega
  have hoff : (d.1 * 0x400000000 + off) % 0x400000000 = off := by omega
  have hlow : (d.1 * 0x400000000 + off) % 8 = off % 8 := by omega
  simp only [ctlStore, hsub, hdie, hoff, hlow]

theorem registerWrite_nowhere {d off : Nat} (h : 4 ≤ d ∨ 0x400000000 ≤ off) (size : Nat) (v : Word) (s : State) : exec (.registerWrite d off size v) s = .next s := by
  dsimp only [exec]
  simp only [execRegisterWrite, if_pos h]

theorem registerWrite_dropped {d off size : Nat} (hd : d < 4) (ho : off < 0x400000000) (h : (size ≠ 4 ∧ size ≠ 8) ∨ off % size ≠ 0) (v : Word) (s : State) :
    exec (.registerWrite d off size v) s = .next { s with hostBad := true } := by
  dsimp only [exec]
  simp only [execRegisterWrite, if_neg (show ¬(4 ≤ d ∨ 0x400000000 ≤ off) by omega), if_neg (show ¬((size = 4 ∨ size = 8) ∧ off % size = 0) by tauto)]

theorem registerWrite_reaches {d off size : Nat} (hd : d < 4) (ho : off < 0x400000000) (hs : size = 4 ∨ size = 8) (ha : off % size = 0) (v : Word) (s : State) :
    exec (.registerWrite d off size v) s = .next (ctlStore (0x40000000000 + d * 0x400000000 + off) size v { s with hostBad := false }) := by
  dsimp only [exec]
  simp only [execRegisterWrite, if_neg (show ¬(4 ≤ d ∨ 0x400000000 ≤ off) by omega), if_pos (And.intro hs ha)]

/-- A write of a register, or of a half of it, is a write of halves that leaves of what the register held what the statements' `written` says. -/
theorem registerWrite_halves (d : Fin 4) {r off size : Nat} (h : Writes r off size) (hr : r % 8 = 0) (hl : r + 4 < 0x400000000) (v : Word) (s : State) :
    ∃ lo hi v', exec (.registerWrite d.1 off size v) s = .next (ctlWrite d.1 r lo hi v' { s with hostBad := false }) ∧
      ∀ old, mixHalves old v' lo hi = written old v off size := by
  have hsize : size = 4 ∨ size = 8 := by unfold Writes at h; omega
  have halign : off % size = 0 := by unfold Writes at h; rcases hsize with rfl | rfl <;> omega
  have hoff : off < 0x400000000 := by unfold Writes at h; omega
  have hreg : off / 8 * 8 = r := by unfold Writes at h; omega
  simp only [registerWrite_reaches d.2 hoff hsize halign, ctlStore_die d hoff, hreg]
  unfold written
  by_cases h8 : size = 8
  · exact ⟨true, true, v, by rw [if_pos h8], fun old => by rw [if_pos h8, mixHalves_both]⟩
  by_cases h0 : off % 8 = 0
  · exact ⟨true, false, v, by rw [if_neg h8, if_pos h0], fun old => by rw [if_neg h8, if_pos h0, mixHalves_low]⟩
  · exact ⟨false, true, _, by rw [if_neg h8, if_neg h0], fun old => by rw [if_neg h8, if_neg h0, mixHalves_high]⟩

/-! ## Registers one by one (R23, R34, R95, R347, R367, R383) -/

section Registers

variable {s : State} {d : Nat} {lo hi : Bool} {v : Word}

theorem ctlWrite_ctxbase (h : s.dies[0].bootlock = false) :
    ctlWrite d 0x10000000 lo hi v s = { s with ctxbase := mixHalves s.ctxbase v lo hi &&& wd (bitsMask 51 17) } := by
  have h0 : (dieAt 0 s).bootlock = false := h
  simp [ctlWrite, tbWrite, h0, ctlRead, tbRead]

theorem ctlWrite_chainid (h : s.dies[0].bootlock = false) :
    ctlWrite d 0x18 lo hi v s = { s with chainid := fld (mixHalves (wd s.chainid) v lo hi) 0 12 } := by
  have h0 : (dieAt 0 s).bootlock = false := h
  simp [ctlWrite, dieWrite, h0, ctlRead, dieRead]

theorem ctlWrite_cntbase (h : s.dies[0].bootlock = false) :
    ctlWrite d 0x58 lo hi v s = { s with cntbase := mixHalves s.cntbase v lo hi &&& wd (bitsMask 51 6) } := by
  have h0 : (dieAt 0 s).bootlock = false := h
  simp [ctlWrite, dieWrite, h0, ctlRead, dieRead]

/-- A register of the grants' block goes to the translation block and is read there. -/
theorem ctlWrite_grants (p : Fin 8) (j : Fin 16) {o : Nat} (ho : o < 0x10) :
    ctlWrite d (0x10000800 + 0x100 * p.1 + 0x10 * j.1 + o) lo hi v s =
      tbWrite (0x800 + 0x100 * p.1 + 0x10 * j.1 + o) (mixHalves (tbRead (0x800 + 0x100 * p.1 + 0x10 * j.1 + o) s) v lo hi) v lo hi s := by
  have h1 : ¬0x10000800 + 0x100 * p.1 + 0x10 * j.1 + o < 0x10000000 := by omega
  have h2 : 0x10000800 + 0x100 * p.1 + 0x10 * j.1 + o < 0x20000000 := by omega
  have h3 : 0x10000800 + 0x100 * p.1 + 0x10 * j.1 + o - 0x10000000 = 0x800 + 0x100 * p.1 + 0x10 * j.1 + o := by omega
  simp only [ctlWrite, ctlRead, if_neg h1, if_pos h2, h3]

theorem grant_place (p : Fin 8) (j : Fin 16) {o : Nat} (ho : o < 0x10) :
    (0x800 ≤ 0x800 + 0x100 * p.1 + 0x10 * j.1 + o ∧ 0x800 + 0x100 * p.1 + 0x10 * j.1 + o < 0x1000) ∧
    fin 8 (by decide) ((0x800 + 0x100 * p.1 + 0x10 * j.1 + o - 0x800) / 0x100) = p ∧
    fin 16 (by decide) ((0x800 + 0x100 * p.1 + 0x10 * j.1 + o) % 0x100 / 0x10) = j ∧ (0x800 + 0x100 * p.1 + 0x10 * j.1 + o) % 0x10 = o := by
  refine ⟨by omega, Fin.ext ?_, Fin.ext ?_, by omega⟩ <;> simp only [fin] <;> omega

theorem ctlWrite_grantBase (p : Fin 8) (j : Fin 16) (h : s.dies[0].bootlock = false) :
    ctlWrite d (0x10000800 + 0x100 * p.1 + 0x10 * j.1) lo hi v s =
      { s with grants := s.grants.set p (s.grants[p].set j { (s.grants[p])[j] with base := mixHalves (s.grants[p])[j].base v lo hi &&& wd (bitsMask 51 14 + 3) }) } := by
  have h0 : (dieAt 0 s).bootlock = false := h
  obtain ⟨hin, hp, hj, ho⟩ := grant_place p j (o := 0) (by decide)
  refine (ctlWrite_grants p j (o := 0) (by decide)).trans ?_
  generalize 0x800 + 0x100 * p.1 + 0x10 * j.1 + 0 = x at hin hp hj ho ⊢
  simp only [tbWrite, tbRead, h0, if_pos hin, hp, hj, ho, if_true, Bool.false_eq_true, if_false]

theorem ctlWrite_grantLast (p : Fin 8) (j : Fin 16) (h : s.dies[0].bootlock = false) :
    ctlWrite d (0x10000808 + 0x100 * p.1 + 0x10 * j.1) lo hi v s =
      { s with grants := s.grants.set p (s.grants[p].set j { (s.grants[p])[j] with last := mixHalves (s.grants[p])[j].last v lo hi &&& wd (bitsMask 51 14) }) } := by
  have h0 : (dieAt 0 s).bootlock = false := h
  obtain ⟨hin, hp, hj, ho⟩ := grant_place p j (o := 8) (by decide)
  rw [show 0x10000808 + 0x100 * p.1 + 0x10 * j.1 = 0x10000800 + 0x100 * p.1 + 0x10 * j.1 + 8 by omega, ctlWrite_grants p j (o := 8) (by decide)]
  generalize 0x800 + 0x100 * p.1 + 0x10 * j.1 + 8 = x at hin hp hj ho ⊢
  simp only [tbWrite, tbRead, h0, if_pos hin, hp, hj, ho, if_true, Bool.false_eq_true, if_false, Nat.reduceEqDiff]

/-- The first register of a memory controller's block is read there and a write of it goes there. -/
theorem ctlWrite_ctrls (e : Nat) (j : Fin 5) :
    ctlWrite e (0x08000000 + 0x1000 * j.1) lo hi v s = ctrlWrite e j.1 0 (mixHalves (wd (dieAt e s).ctrls[j].actthr) v lo hi) s := by
  have hj : (0x08000000 + 0x1000 * j.1 - 0x08000000) / 0x1000 = j.1 := by omega
  have h0 : (0x08000000 + 0x1000 * j.1) % 0x1000 = 0 := by omega
  have hin : 0x08000000 ≤ 0x08000000 + 0x1000 * j.1 ∧ 0x08000000 + 0x1000 * j.1 < 0x08005000 := by omega
  generalize 0x08000000 + 0x1000 * j.1 = x at hj h0 hin ⊢
  have hread : dieRead e x s = ctrlRead (dieAt e s).ctrls[j] 0 := by
    simp only [dieRead, if_neg (show ¬x < 0x60 by omega), if_neg (show ¬x = 0x01000000 by omega),
      if_neg (show ¬(0x01000100 ≤ x ∧ x < 0x010001C0 ∧ x % 0x10 = 0) by omega), if_neg (show ¬(0x02000000 ≤ x ∧ x < 0x02000040) by omega),
      if_neg (show ¬(0x03000000 ≤ x ∧ x < 0x03000100) by omega), if_neg (show ¬(0x04000000 ≤ x ∧ x < 0x04000800) by omega), if_pos hin, hj, h0, fin_val]
  simp only [ctlWrite, ctlRead, if_pos (show x < 0x10000000 by omega), hread, dieWrite, if_neg (show ¬x = 0x10 by omega), if_neg (show ¬x = 0x18 by omega),
    if_neg (show ¬x = 0x58 by omega), if_neg (show ¬(0x02000000 ≤ x ∧ x < 0x02000040) by omega), if_neg (show ¬(0x04000000 ≤ x ∧ x < 0x04000800) by omega),
    if_pos hin, hj, h0, ctrlRead]

theorem ctlWrite_actthr (e : Fin 4) (j : Fin 5) (h : s.dies[e].bootlock = false) :
    ctlWrite e.1 (0x08000000 + 0x1000 * j.1) lo hi v s =
      let n := fld (mixHalves (wd s.dies[e].ctrls[j].actthr) v lo hi) 0 14
      if 256 ≤ n ∧ n ≤ 8192 then withDie e { s.dies[e] with ctrls := s.dies[e].ctrls.set j { s.dies[e].ctrls[j] with actthr := n } } s else s := by
  rw [ctlWrite_ctrls, dieAt_val]
  generalize mixHalves (wd s.dies[e].ctrls[j].actthr) v lo hi = nv
  simp only [ctrlWrite, dieAt_val, h, fin_val, modDie_val, Bool.false_eq_true, false_or]
  by_cases hn : 256 ≤ fld nv 0 14 ∧ fld nv 0 14 ≤ 8192
  · rw [if_neg (by omega), if_pos hn]
  · rw [if_pos (by omega), if_neg hn]

theorem ctlWrite_ptvec (p : Fin 8) :
    ctlWrite d (0x0B000000 + 0x40 * p.1) true true v s = { s with parts := s.parts.set p { s.parts[p] with ptvec := wd (fld v 2 55 * 4) } } := by
  have hp : (0x0B000000 + 0x40 * p.1 - 0x0B000000) / 0x40 = p.1 := by omega
  have h0 : (0x0B000000 + 0x40 * p.1) % 0x40 = 0 := by omega
  have hin : 0x0B000000 ≤ 0x0B000000 + 0x40 * p.1 ∧ 0x0B000000 + 0x40 * p.1 < 0x0B000200 := by omega
  generalize 0x0B000000 + 0x40 * p.1 = x at hp h0 hin ⊢
  simp only [ctlWrite, mixHalves_both, if_pos (show x < 0x10000000 by omega), dieWrite, if_neg (show ¬x = 0x10 by omega), if_neg (show ¬x = 0x18 by omega),
    if_neg (show ¬x = 0x58 by omega), if_neg (show ¬(0x02000000 ≤ x ∧ x < 0x02000040) by omega), if_neg (show ¬(0x04000000 ≤ x ∧ x < 0x04000800) by omega),
    if_neg (show ¬(0x08000000 ≤ x ∧ x < 0x08005000) by omega), if_neg (show ¬(0x0A000000 ≤ x ∧ x < 0x0A001000) by omega), if_pos hin, hp, h0, partWrite, fin_val]

/-- Bits 56:2 of a word, as a mask of it (R347). -/
theorem ptvec_bits (v : Word) : wd (fld v 2 55 * 4) = v &&& BitVec.ofNat 64 (2 ^ 57 - 4) := by
  have hm : 2 ^ 57 - 4 = (2 ^ 55 - 1) * 2 ^ 2 := rfl
  have hf : fld v 2 55 * 4 = v.toNat / 2 ^ 2 % 2 ^ 55 * 2 ^ 2 := rfl
  refine BitVec.eq_of_getLsbD_eq fun i hi => ?_
  rw [hm, wd, hf, BitVec.getLsbD_and, BitVec.getLsbD_ofNat, BitVec.getLsbD_ofNat, Nat.testBit_mul_two_pow, Nat.testBit_mul_two_pow, Nat.testBit_mod_two_pow,
    Nat.testBit_div_two_pow, Nat.testBit_two_pow_sub_one, decide_eq_true hi]
  by_cases h2 : 2 ≤ i
  · simp [h2, Nat.sub_add_cancel h2, BitVec.getLsbD, Bool.and_comm]
  · simp [h2]

end Registers

end Sys2Proof.Machine
end

section
namespace Sys2Proof.Machine

set_option Elab.async false

open Sys2Proof.Claims Sys2Proof.Laws

/-! ## What BOOTLOCK guards (R367) -/

/-- The registers that BOOTLOCK guards are as they were, whether it is set or not. -/
structure SameGuarded (s t : State) : Prop where
  ctxbase : t.ctxbase = s.ctxbase
  grants : t.grants = s.grants
  cntbase : t.cntbase = s.cntbase
  chainid : t.chainid = s.chainid
  ctrls : ∀ (e : Fin 4) (j : Fin 5), t.dies[e].ctrls[j].actthr = s.dies[e].ctrls[j].actthr

/-- The registers that BOOTLOCK guards are as they were where it is set. -/
structure LockHolds (s t : State) : Prop where
  package : s.dies[0].bootlock = true → t.ctxbase = s.ctxbase ∧ t.grants = s.grants ∧ t.cntbase = s.cntbase ∧ t.chainid = s.chainid
  ctrls : ∀ e : Fin 4, s.dies[e].bootlock = true → ∀ j : Fin 5, t.dies[e].ctrls[j].actthr = s.dies[e].ctrls[j].actthr

namespace SameGuarded

theorem same {s t : State} (ctxbase : t.ctxbase = s.ctxbase := by rfl) (grants : t.grants = s.grants := by rfl) (cntbase : t.cntbase = s.cntbase := by rfl)
    (chainid : t.chainid = s.chainid := by rfl) (dies : t.dies = s.dies := by rfl) : SameGuarded s t :=
  ⟨ctxbase, grants, cntbase, chainid, fun _ _ => by rw [dies]⟩

theorem refl {s : State} : SameGuarded s s := same

theorem trans {s t u : State} (h : SameGuarded s t) (k : SameGuarded t u) : SameGuarded s u :=
  ⟨k.ctxbase.trans h.ctxbase, k.grants.trans h.grants, k.cntbase.trans h.cntbase, k.chainid.trans h.chainid, fun e j => (k.ctrls e j).trans (h.ctrls e j)⟩

theorem ite {c : Prop} {i : Decidable c} {s t u : State} (ht : SameGuarded s t) (hu : SameGuarded s u) : SameGuarded s (if c then t else u) := by
  split
  · exact ht
  · exact hu

theorem locked {s t : State} (h : SameGuarded s t) : LockHolds s t :=
  ⟨fun _ => ⟨h.ctxbase, h.grants, h.cntbase, h.chainid⟩, fun e _ => h.ctrls e⟩

theorem modDie {d : Nat} {f : Die → Die} {s : State} (hf : ∀ (x : Die) (j : Fin 5), (f x).ctrls[j].actthr = x.ctrls[j].actthr := by exact fun _ _ => rfl) :
    SameGuarded s (modDie d f s) := by
  refine ⟨rfl, rfl, rfl, rfl, fun e j => ?_⟩
  by_cases h : (fin 4 (by decide) d).1 = e.1
  · obtain rfl : fin 4 (by decide) d = e := Fin.ext h
    simpa [Machine.modDie] using hf _ j
  · simp [Machine.modDie, Vector.getElem_set_ne _ _ h]

theorem modCore {m : Nat} {f : Core → Core} {s : State} : SameGuarded s (modCore m f s) :=
  same (modCore_ctxbase _ _ _) (modCore_grants _ _ _) (modCore_cntbase _ _ _) (modCore_chainid _ _ _) (modCore_dies _ _ _)

theorem tiqhiWrite {s : State} : SameGuarded s (tiqhiWrite s) := .ite .same (.ite .same .same)
theorem modQueue {d q : Nat} {f : HwQueue → HwQueue} {s : State} : SameGuarded s (modQueue d q f s) := by
  unfold Machine.modQueue
  exact .modDie
theorem queueEnableOp {d q : Nat} {s : State} : SameGuarded s (queueEnableOp d q s) := .ite .modQueue .refl
theorem queueDisableOp {d q : Nat} {s : State} : SameGuarded s (queueDisableOp d q s) := .modQueue
theorem doorbellWrite {d q t : Nat} {s : State} : SameGuarded s (doorbellWrite d q t s) := .ite .modQueue .modQueue
theorem pdreqOp {m : Nat} {s : State} : SameGuarded s (pdreqOp m s) := .modCore
theorem pupreqOp {m : Nat} {s : State} : SameGuarded s (pupreqOp m s) := .modCore
theorem bootlockOp {d : Nat} {s : State} : SameGuarded s (bootlockOp d s) := .ite .refl (.ite (.trans (.modDie (f := fun x => { x with bootlock := true })) .same) .modDie)

theorem queueWrite {d q off : Nat} {nv : Word} {lo : Bool} {s : State} : SameGuarded s (queueWrite d q off nv lo s) := by
  unfold Machine.queueWrite
  dsimp only
  split
  · exact .ite .refl .modQueue
  · exact .ite .refl .modQueue
  · exact .ite (.trans .modQueue .queueEnableOp) (.trans .modQueue .queueDisableOp)
  · exact .ite .doorbellWrite .refl
  · exact .ite .modQueue .refl
  · exact .refl

theorem partWrite {p off : Nat} {nv : Word} {s : State} : SameGuarded s (partWrite p off nv s) := by
  unfold Machine.partWrite
  dsimp only
  split <;> exact .same

theorem mailWrite {off : Nat} (h : off ≠ 0x38) {nv : Word} {lo : Bool} {s : State} : SameGuarded s (mailWrite off nv lo s) := by
  unfold Machine.mailWrite
  split
  iterate 5 exact .same
  · exact absurd rfl h
  · exact .refl

theorem coreWrite {m off : Nat} {nv : Word} {lo : Bool} {s : State} : SameGuarded s (coreWrite m off nv lo s) := by
  unfold Machine.coreWrite
  split
  · exact .ite (.ite (.trans (.ite .pdreqOp .refl) .pupreqOp) (.ite .pdreqOp .refl)) .refl
  · exact .modCore
  · exact .refl

end SameGuarded

/-- A write that a guarded register takes only where BOOTLOCK of die d0 is not set. -/
theorem LockHolds.guarded {s t : State} (dies : t.dies = s.dies) : LockHolds s (if (dieAt 0 s).bootlock then s else t) := by
  refine ⟨fun h => ?_, fun e _ j => ?_⟩
  · rw [if_pos (show (dieAt 0 s).bootlock = true from h)]
    exact ⟨rfl, rfl, rfl, rfl⟩
  · split
    · rfl
    next h => simp only [dies]

/-- The bit that says whether the write was an Unsupported Request is no guarded register. -/
theorem LockHolds.afterBad {s t : State} {b : Bool} (h : LockHolds { s with hostBad := b } t) : LockHolds s t := ⟨h.package, h.ctrls⟩

theorem LockHolds.same {s t : State} (ctxbase : t.ctxbase = s.ctxbase := by rfl) (grants : t.grants = s.grants := by rfl) (cntbase : t.cntbase = s.cntbase := by rfl)
    (chainid : t.chainid = s.chainid := by rfl) (dies : t.dies = s.dies := by rfl) : LockHolds s t :=
  (SameGuarded.same ctxbase grants cntbase chainid dies).locked

theorem ctrlWrite_locked {d j off : Nat} {nv : Word} {s : State} : LockHolds s (ctrlWrite d j off nv s) := by
  unfold ctrlWrite
  dsimp only
  split
  · refine ⟨fun _ => by split <;> exact ⟨rfl, rfl, rfl, rfl⟩, fun e he k => ?_⟩
    split
    · rfl
    next hn =>
      have hd : (fin 4 (by decide) d).1 ≠ e.1 := fun h => by
        obtain rfl : fin 4 (by decide) d = e := Fin.ext h
        exact hn (.inl he)
      simp [modDie, Vector.getElem_set_ne _ _ hd]
  · refine (SameGuarded.modDie fun x k => ?_).locked
    by_cases h : (fin 5 (by decide) j).1 = k.1
    · obtain rfl : fin 5 (by decide) j = k := Fin.ext h
      simp
    · simp [Vector.getElem_set_ne _ _ h]
  · exact SameGuarded.refl.locked

theorem tbWrite_locked {off : Nat} {nv v : Word} {lo hi : Bool} {s : State} : LockHolds s (tbWrite off nv v lo hi s) := by
  unfold tbWrite
  dsimp only
  split
  · exact .guarded rfl
  split
  · exact .guarded rfl
  · exact LockHolds.same
  · exact (SameGuarded.ite (.trans (t := { s with tiqhi := mixHalves s.tiqhi v lo hi }) .same .tiqhiWrite) .same).locked
  · exact (SameGuarded.ite .same .refl).locked
  · exact SameGuarded.refl.locked

theorem dieWrite_locked {d off : Nat} (h : off ≠ 0x02000038) {nv : Word} {lo : Bool} {s : State} : LockHolds s (dieWrite d off nv lo s) := by
  unfold dieWrite
  split
  · exact (SameGuarded.ite .bootlockOp .refl).locked
  split
  · exact .guarded rfl
  split
  · exact .guarded rfl
  split
  · exact (SameGuarded.ite (.mailWrite (by omega)) .refl).locked
  split
  · dsimp only
    split <;> exact LockHolds.same
  split
  · exact ctrlWrite_locked
  split
  · exact SameGuarded.queueWrite.locked
  split
  · exact SameGuarded.partWrite.locked
  · exact SameGuarded.refl.locked

theorem ctlWrite_locked {d off : Nat} (h : off ≠ 0x02000038) {lo hi : Bool} {v : Word} {s : State} : LockHolds s (ctlWrite d off lo hi v s) := by
  unfold ctlWrite
  dsimp only
  split
  · exact dieWrite_locked h
  split
  · exact tbWrite_locked
  · exact (SameGuarded.ite .coreWrite .refl).locked

/-- Under BOOTLOCK no write of the host changes a guarded register, but for one of the mailbox's RUN. -/
theorem registerWrite_locked {d off size : Nat} {v : Word} {s t : State} (h : off / 8 * 8 ≠ 0x02000038) (e : exec (.registerWrite d off size v) s = .next t) :
    LockHolds s t := by
  by_cases hn : 4 ≤ d ∨ 0x400000000 ≤ off
  · rw [registerWrite_nowhere hn] at e
    cases e
    exact SameGuarded.refl.locked
  by_cases ha : (size = 4 ∨ size = 8) ∧ off % size = 0
  · rw [registerWrite_reaches (by omega) (by omega) ha.1 ha.2, ctlStore_die ⟨d, by omega⟩ (by omega)] at e
    cases e
    split
    · exact (ctlWrite_locked h).afterBad
    split
    · exact (ctlWrite_locked h).afterBad
    · exact (ctlWrite_locked h).afterBad
  · rw [registerWrite_dropped (by omega) (by omega) (by tauto)] at e
    cases e
    exact LockHolds.same

end Sys2Proof.Machine
end

section
namespace Sys2Proof.Machine

set_option Elab.async false

open Sys2Proof.Claims Sys2Proof.Laws

/-! ## The boot lock, reads and descriptors (R35, R366, R367) -/

theorem bootlockOp_val (d : Fin 4) (s : State) :
    bootlockOp d.1 s = if s.dies[d].bootlock then s
      else { s with dies := s.dies.set d { s.dies[d] with bootlock := true }, locked := if d = 0 then rwlValues s else s.locked } := by
  simp only [bootlockOp, dieAt_val, modDie_val, withDie, Fin.val_eq_zero_iff]
  split
  · rfl
  · split <;> rfl

theorem hostRead_answers {off size : Nat} (h : off < 0x1000000000 ∧ (size = 4 ∨ size = 8) ∧ off % size = 0) (s : State) :
    takeTurn (.hostRead off size) s =
      .next { s with hostAnswer := bytesOf size (ctlLoad (0x40000000000 + off) size s).toNat, hostPoison := false, hostBad := false } := by
  simp only [takeTurn, hostRegisterRead, if_pos h]

theorem hostRead_refused {off size : Nat} (h : ¬(off < 0x1000000000 ∧ (size = 4 ∨ size = 8) ∧ off % size = 0)) (s : State) :
    takeTurn (.hostRead off size) s = .next { s with hostAnswer := [], hostPoison := false, hostBad := true } := by
  simp only [takeTurn, hostRegisterRead, if_neg h]

theorem tiqhi_overflows {s : State} (h : 32 ≤ s.tiq.length) (v : Word) : exec (.tiqhi v) s = .next { s with tiqhi := v, tiqOvf := true } := by
  dsimp only [exec, execTiqhi, tiqhiWrite]
  rw [if_pos h]

theorem tiqhi_reserved {s : State} (hl : s.tiq.length < 32) (h : 5 ≤ fld s.tiqlo 0 3 ∨ fld s.tiqlo 0 3 = 2 ∧ fld s.tiqlo 32 32 = 0) (v : Word) :
    exec (.tiqhi v) s = .next { s with tiqhi := v, tiqErr := true } := by
  dsimp only [exec, execTiqhi, tiqhiWrite]
  rw [if_neg (by omega), if_pos h]

theorem tiqhi_queues {s : State} (hl : s.tiq.length < 32) (h : ¬(5 ≤ fld s.tiqlo 0 3 ∨ fld s.tiqlo 0 3 = 2 ∧ fld s.tiqlo 32 32 = 0)) (v : Word) :
    exec (.tiqhi v) s = .next { s with tiqhi := v, tiq := s.tiq ++ [⟨s.tiqlo, v⟩], tiqseq := (s.tiqseq + 1) % 2 ^ 32 } := by
  dsimp only [exec, execTiqhi, tiqhiWrite]
  rw [if_neg (by omega), if_neg h]

/-! ## Invalidation (R36, R96) -/

theorem removes_iff (d : Invalidation) (part : Nat) (e : TlbEntry) : removes d part e = true ↔ Removes d part e := by
  have hpages : 2 ^ (leafBits e.level - 14) = 2 ^ (11 * (3 - e.level)) := by rw [leafBits, Nat.add_sub_cancel_left]
  have hkind : invKIND d = fld d.lo 0 3 := rfl
  unfold removes Removes
  simp only [overlapsPages, hpages, invCTX, invPART, invCOUNT, invPAGE]
  rw [hkind]
  generalize fld d.lo 0 3 = kind
  split
  · simp
  · simp
  · simp
  · simp
  next h0 h1 h2 h3 =>
    have h4 : 4 ≤ kind := by
      by_contra h
      obtain h | h | h | h : kind = 0 ∨ kind = 1 ∨ kind = 2 ∨ kind = 3 := by omega
      exacts [h0 h, h1 h, h2 h, h3 h]
    simp [h4]

theorem performTranslated_quiet {s : State} (h : AllQuiet s) : performTranslated s = s := by
  obtain ⟨hv, hc, hcs⟩ := h
  have hwaiting : ((allStrands s).filterMap fun t => if t.vwq.isEmpty then none else some (t.mesh, t.sid)) = [] :=
    List.filterMap_eq_nil_iff.2 fun t ht => by simp [hv t ht]
  have hcores : (s.core :: s.cores).filter (fun c => !c.out.isEmpty) = [] :=
    List.filter_eq_nil_iff.2 fun c hm => by
      rcases List.mem_cons.1 hm with rfl | hm
      · simp [hc]
      · simp [hcs c hm]
  simp only [performTranslated, hwaiting, List.foldl_nil, hcores, List.map_nil]

/-! ### What a change of dies leaves of each -/

/-- A part of every die is as it was. -/
def EachDie {α : Type} (g : Die → α) (s t : State) : Prop := ∀ e : Fin 4, g t.dies[e] = g s.dies[e]

namespace EachDie

variable {α : Type} {g : Die → α}

theorem refl {s : State} : EachDie g s s := fun _ => rfl
theorem trans {s t u : State} (h : EachDie g s t) (k : EachDie g t u) : EachDie g s u := fun e => (k e).trans (h e)

theorem ite {c : Prop} {i : Decidable c} {s t u : State} (ht : EachDie g s t) (hu : EachDie g s u) : EachDie g s (if c then t else u) := by
  split
  · exact ht
  · exact hu

theorem foldl {β : Type} {f : State → β → State} (hf : ∀ s b, EachDie g s (f s b)) (xs : List β) (s : State) : EachDie g s (xs.foldl f s) := by
  induction xs generalizing s with
  | nil => exact refl
  | cons x xs ih => exact (hf s x).trans (ih _)

theorem modDie {d : Nat} {f : Die → Die} {s : State} (hf : ∀ x, g (f x) = g x) : EachDie g s (modDie d f s) := fun e => by
  by_cases h : (fin 4 (by decide) d).1 = e.1
  · obtain rfl : fin 4 (by decide) d = e := Fin.ext h
    simpa [Machine.modDie] using hf _
  · simp [Machine.modDie, Vector.getElem_set_ne _ _ h]

theorem dramRequest {ctx pa : Nat} {read : Bool} {s : State} (hg : ∀ x b, g { x with banks := b } = g x) : EachDie g s (dramRequest ctx pa read s) := by
  unfold Machine.dramRequest
  split
  · exact refl
  · exact modDie fun _ => hg _ _

theorem charge {d ctx : Nat} {k : Fin 7} {n : Nat} {s : State} (hg : ∀ x c, g { x with counts := c } = g x) : EachDie g s (charge d ctx k n s) :=
  ite refl (modDie fun _ => hg _ _)

theorem writeBack {d ctx line : Nat} {s : State} (hb : ∀ x b, g { x with banks := b } = g x) (hc : ∀ x c, g { x with counts := c } = g x) :
    EachDie g s (writeBack d ctx line s) :=
  trans (t := hostHas (fun l => l == line) s) refl (trans (charge hc) (dramRequest hb))

end EachDie

/-! ### Lines forced back -/

theorem cleanDie_only (ctx die : Nat) (p : Nat → Bool) (s : State) : OnlyDies s (cleanDie ctx die p s) :=
  (modDie_only _ _ s).trans (foldl_only _ (fun _ _ => writeBack_only _ _ _ _) _ _)

theorem forceBack_only (d : Invalidation) (part : Nat) (s : State) : OnlyDies s (forceBack d part s) := by
  dsimp only [forceBack]
  split
  · exact .refl s
  · exact foldl_only _ (fun _ _ => cleanDie_only _ _ _ _) _ _

/-- No slice of a die holds a dirty line that satisfies `p`. -/
def NoneDirty (p : Nat → Bool) (x : Die) : Prop := ∀ y ∈ x.l2, ∀ (w : Nat) (v : L2Line), y.ways[w]? = some (some v) → v.dirty = true → p v.line = false

theorem cleanLine_noneDirty (p : Nat → Bool) (xs : List L2Set) (x : Die) : NoneDirty p { x with l2 := xs.map (cleanLine p) } := by
  intro y hy w v hw hd
  obtain ⟨z, -, rfl⟩ := List.mem_map.1 hy
  simp only [cleanLine, Vector.getElem?_map, Option.map_eq_some_iff] at hw
  obtain ⟨o, -, u, -, hu⟩ := hw
  split at hu
  · rw [← hu] at hd
    cases hd
  next hp =>
    rw [← hu]
    simpa using hp

theorem noneDirty_of_l2 {p : Nat → Bool} {x y : Die} (e : y.l2 = x.l2) (h : NoneDirty p x) : NoneDirty p y := by
  unfold NoneDirty
  rw [e]
  exact h

/-- Once a die is cleaned it holds none of the lines dirty, and neither does a die that held none before. -/
theorem cleanDie_noneDirty (ctx : Nat) (d : Fin 4) (p : Nat → Bool) (s : State) (e : Fin 4) (h : e = d ∨ NoneDirty p s.dies[e]) :
    NoneDirty p (cleanDie ctx d.1 p s).dies[e] := by
  have hl2 : EachDie Die.l2 (withDie d { s.dies[d] with l2 := s.dies[d].l2.map (cleanLine p) } s) (cleanDie ctx d.1 p s) := by
    rw [cleanDie, modDie_val]
    exact .foldl (fun _ _ => .writeBack (fun _ _ => rfl) fun _ _ => rfl) _ _
  refine noneDirty_of_l2 (hl2 e) ?_
  by_cases hd : e = d
  · subst hd
    simpa [withDie] using cleanLine_noneDirty p _ _
  · have hne : d.1 ≠ e.1 := fun x => hd (Fin.ext x.symm)
    simpa [withDie, Vector.getElem_set_ne _ _ hne] using h.resolve_left hd

theorem cleanDies_noneDirty (ctx : Nat) (p : Nat → Bool) (ds : List (Fin 4)) (s : State) (e : Fin 4) (h : e ∈ ds ∨ NoneDirty p s.dies[e]) :
    NoneDirty p (ds.foldl (fun s d => cleanDie ctx d.1 p s) s).dies[e] := by
  induction ds generalizing s with
  | nil => exact h.resolve_left List.not_mem_nil
  | cons d ds ih =>
    refine ih _ ?_
    rcases h with h | h
    · rcases List.mem_cons.1 h with h | h
      · exact .inr (cleanDie_noneDirty ctx d p s e (.inl h))
      · exact .inl h
    · exact .inr (cleanDie_noneDirty ctx d p s e (.inr h))

/-- After the lines of the removed translations were forced back, no slice holds one of them dirty. -/
theorem forceBack_noneDirty {d : Invalidation} {part : Nat} {s : State} {x : TlbEntry} (hx : x ∈ removedBy d part s) (e : Fin 4) :
    NoneDirty (fun l => (removedBy d part s).any (leadsTo l)) (forceBack d part s).dies[e] := by
  have hdies : List.range 4 = (List.finRange 4).map Fin.val := rfl
  dsimp only [forceBack]
  rw [if_neg (by simpa using List.ne_nil_of_mem hx), hdies, List.foldl_map]
  exact cleanDies_noneDirty _ _ _ _ _ (.inl (List.mem_finRange e))

/-- A core once a descriptor has completed: without the translations and the walk results that it removes. -/
def invalidated (d : Invalidation) (part : Nat) (c : Core) : Core :=
  { c with tlb := c.tlb.filter fun e => !removes d part e, walks := c.walks.filter fun e => !removesWalk d e }

/-- The state in which the oldest descriptor has completed, when nothing was on its way. -/
theorem invalidationComplete_quiet {s : State} {d : Invalidation} {rest : List Invalidation} (ht : s.tiq = d :: rest) (h : AllQuiet s) :
    exec .invalidationComplete s =
      .next { mapCores (invalidated d (partOfCtx (invCTX d) s)) (forceBack d (partOfCtx (invCTX d) s) s) with
        tiq := rest, tiqdone := (s.tiqdone + 1) % 2 ^ 32 } := by
  have hdone : (forceBack d (partOfCtx (invCTX d) s) s).tiqdone = s.tiqdone := by rw [(forceBack_only _ _ _).same]
  dsimp only [exec, execInvalidationComplete]
  rw [ht]
  simp only [performTranslated_quiet h, hdone]
  rfl

theorem mem_invalidated_tlb {d : Invalidation} {part : Nat} {e : TlbEntry} {c : Core} : e ∈ (invalidated d part c).tlb ↔ e ∈ c.tlb ∧ ¬Removes d part e := by
  rw [invalidated, List.mem_filter, ← removes_iff, Bool.not_eq_true', Bool.not_eq_true]

end Sys2Proof.Machine
end

section
namespace Sys2Proof.Machine

set_option Elab.async false

open Sys2Proof.Claims Sys2Proof.Laws

/-! ## Accesses leave each die's count of flushes -/

theorem mendWords_dies (bs : List ByteWrite) (s : State) : (mendWords bs s).dies = s.dies := by rw [mendWords_same]
theorem ownHost_dies (bs : List ByteWrite) (s : State) : (ownHost bs s).dies = s.dies := by rw [ownHost_same]
theorem wakes_dies (bs : List ByteWrite) (s : State) : (bs.foldl (fun s b => wake b.loc s) s).dies = s.dies := by rw [wakes_same]

/-- Each die has flushed its counters as often as before. -/
abbrev SameFlushes (s t : State) : Prop := EachDie Die.flushes s t

namespace SameFlushes

theorem modDie {d : Nat} {f : Die → Die} {s : State} (hf : ∀ x : Die, (f x).flushes = x.flushes := by exact fun _ => rfl) : SameFlushes s (modDie d f s) := EachDie.modDie hf
theorem dramRequest {ctx pa : Nat} {read : Bool} {s : State} : SameFlushes s (dramRequest ctx pa read s) := EachDie.dramRequest fun _ _ => rfl
theorem charge {d ctx : Nat} {k : Fin 7} {n : Nat} {s : State} : SameFlushes s (charge d ctx k n s) := EachDie.charge fun _ _ => rfl
theorem writeBack {d ctx line : Nat} {s : State} : SameFlushes s (writeBack d ctx line s) := EachDie.writeBack (fun _ _ => rfl) fun _ _ => rfl
theorem putSet {d line : Nat} {x : L2Set} {s : State} : SameFlushes s (putSet d line x s) := EachDie.modDie fun _ => rfl
theorem chargeHit {d ctx owner : Nat} {s : State} : SameFlushes s (chargeHit d ctx owner s) := .ite .refl (.ite charge (.trans charge charge))

theorem joinRead {line : Nat} {s : State} : SameFlushes s (joinRead line s) := by
  unfold Machine.joinRead
  split
  · exact .refl
  · exact .ite (EachDie.modDie fun _ => rfl) .refl

theorem l2Access {ctx : Nat} {wb : Bool} {line n fill : Nat} {write : Bool} {s : State} : SameFlushes s (l2Access ctx wb line n fill write s) := by
  unfold Machine.l2Access
  extract_lets pa die dram st keepsDirty
  split
  · exact .ite (.trans charge dramRequest) .refl
  split
  · dsimp only
    split
    · exact .refl
    · exact .trans (.trans (.ite joinRead .refl) chargeHit) putSet
  next w i s1 s2 s3 hwb o hfree =>
    have h1 : SameFlushes s s1 := by
      unfold s1
      split
      · exact .refl
      · exact .trans (.ite writeBack .refl) charge
    have h2 : SameFlushes s s2 := .trans h1 charge
    clear_value s2
    have h3 : SameFlushes s s3 := .trans h2 (.ite (.trans charge dramRequest) .refl)
    clear_value s3
    exact .trans h3 putSet

theorem l2Amo {ctx : Nat} {wb : Bool} {pas : List Nat} {s : State} : SameFlushes s (l2Amo ctx wb pas s) := .foldl (fun _ _ => l2Access) _ _
theorem persistEntry {d : Nat} {bs : List ByteWrite} {s : State} : SameFlushes s (persistEntry d bs s) := .ite .refl (EachDie.modDie fun _ => rfl)

/-- A change of what is no die. -/
theorem of_dies {s t : State} (h : t.dies = s.dies) : SameFlushes s t := fun _ => by simp only [h]

theorem homePut {b : ByteWrite} {s : State} : SameFlushes s (homePut b s) := by
  unfold Machine.homePut
  split
  · exact of_dies rfl
  · exact of_dies (modCore_dies _ _ _)

theorem homeBytes {wb : Bool} {bs : List ByteWrite} {s : State} : SameFlushes s (homeBytes wb bs s) := by
  unfold Machine.homeBytes
  extract_lets s1 s2 s3
  have h1 : SameFlushes s s1 := .trans (.foldl (fun _ _ => homePut) _ _) (of_dies (mendWords_dies _ _))
  have h3 : SameFlushes s2 s3 := .ite (of_dies (ownHost_dies _ _)) .refl
  have h2 : SameFlushes s1 s2 := .trans (.trans (.trans persistEntry persistEntry) persistEntry) persistEntry
  exact .trans (.trans (.trans h1 h2) h3) (of_dies (wakes_dies bs s3))

end SameFlushes

/-! ## Words of memory -/

theorem natOf_bytesOf (n x : Nat) : natOf (bytesOf n x) = x % 256 ^ n := by
  induction n generalizing x with
  | zero => simp [bytesOf, natOf, Nat.mod_one]
  | succ n ih => rw [bytesOf, natOf, ih, BitVec.toNat_ofNat, pow_succ' 256, Nat.mod_mul]

theorem bytesOf_length (n x : Nat) : (bytesOf n x).length = n := by
  induction n generalizing x with
  | zero => rfl
  | succ n ih => simp [bytesOf, ih]

theorem homeBytes_of_memLocs (n pa : Nat) (s : State) : (memLocs pa n).map (fun l => homeByte l s) = s.mem.getN pa n := by
  induction n generalizing pa with
  | zero => rfl
  | succ n ih => 
    rw [memLocs, List.map_cons, ih, Memory.getN]
    rfl

theorem getN_congr {m m' : Memory} {n pa : Nat} (h : ∀ a, pa ≤ a → a < pa + n → m'.get a = m.get a) : m'.getN pa n = m.getN pa n := by
  induction n generalizing pa with
  | zero => rfl
  | succ n ih => rw [Memory.getN, Memory.getN, h pa (by omega) (by omega), ih fun a h1 h2 => h a (by omega) (by omega)]

theorem loc_of_memBytes {bs : List (BitVec 8)} {pa : Nat} {b : ByteWrite} (h : b ∈ memBytes pa bs) : ∃ a, b.loc = .mem a ∧ pa ≤ a ∧ a < pa + bs.length := by
  induction bs generalizing pa with
  | nil => cases h
  | cons x xs ih =>
    rcases List.mem_cons.1 h with rfl | h
    · exact ⟨pa, rfl, by simp, by simp⟩
    · obtain ⟨a, ha, h1, h2⟩ := ih h
      exact ⟨a, ha, by omega, by simp only [List.length_cons]; omega⟩

theorem merge_all (old val : BitVec 8) : merge old val 0xFF = val := by
  have hall : (0xFF : BitVec 8) = BitVec.allOnes 8 := rfl
  simp only [merge, hall, BitVec.and_allOnes, BitVec.not_allOnes, BitVec.and_zero, BitVec.zero_or]

/-- Bytes written at their home are read back. -/
theorem getN_homeBytes (wb : Bool) (bs : List (BitVec 8)) (pa : Nat) {s : State} (h : s.mem.wf = true) :
    (homeBytes wb (memBytes pa bs) s).mem.getN pa bs.length = bs := by
  rw [homeBytes_mem]
  induction bs generalizing pa s with
  | nil => rfl
  | cons b bs ih =>
    have hfirst : (homePut ⟨.mem pa, b, 0xFF, none⟩ s).mem.get pa = b := by rw [homePut_get _ _ h, if_pos rfl, merge_all]
    have hlater : ((memBytes (pa + 1) bs).foldl (fun s b => homePut b s) (homePut ⟨.mem pa, b, 0xFF, none⟩ s)).mem.get pa = b := by
      rw [← homeBytes_mem wb, homeBytes_other _ _ _ (homePut_wf _ _ h), hfirst]
      intro x hx e
      obtain ⟨a, ha, h1, -⟩ := loc_of_memBytes hx
      rw [ha] at e
      cases e
      omega
    rw [memBytes, List.foldl_cons, List.length_cons, Memory.getN, hlater, ih (pa + 1) (homePut_wf _ _ h)]

/-! ## Additions to the counter array (R383) -/

theorem addHome_me (pa n : Nat) (s : State) : (addHome pa n s).me = s.me := (homeBytes_me _ _ _).trans (l2Amo_only _ _ _ _).me_eq
theorem homePut_cntbase (b : ByteWrite) (s : State) : (homePut b s).cntbase = s.cntbase := by
  unfold homePut
  split
  · rfl
  · exact modCore_cntbase _ _ _

theorem homePuts_cntbase (bs : List ByteWrite) (s : State) : (bs.foldl (fun s b => homePut b s) s).cntbase = s.cntbase := by
  induction bs generalizing s with
  | nil => rfl
  | cons b bs ih => exact (ih _).trans (homePut_cntbase b s)

theorem addHome_cntbase (pa n : Nat) (s : State) : (addHome pa n s).cntbase = s.cntbase := by
  rw [addHome, put8, homeBytes_after]
  refine (homePuts_cntbase _ _).trans ?_
  rw [amo8, (l2Amo_only _ _ _ _).same]

theorem addHome_flushes (pa n : Nat) (s : State) : SameFlushes s (addHome pa n s) := .trans SameFlushes.l2Amo SameFlushes.homeBytes

theorem addHome_eq (pa n : Nat) (s : State) :
    addHome pa n s = put8 true pa (wd (wordAt s pa 8) + wd n) (l2Amo noCtx true (memPas (memLocs pa 8)) s) := by
  rw [addHome]
  dsimp only [amo8]
  rw [homeBytes_of_memLocs, wordAt]

/-- The word that an addition names holds the sum. -/
theorem addHome_word (pa n : Nat) {s : State} (h : s.mem.wf = true) : wordAt (addHome pa n s) pa 8 = (wordAt s pa 8 + n) % 2 ^ 64 := by
  have hmem : (l2Amo noCtx true (memPas (memLocs pa 8)) s).mem = s.mem := (l2Amo_only _ _ _ _).mem_eq
  have hget := getN_homeBytes true (bytesOf 8 (wd (wordAt s pa 8) + wd n).toNat) pa (s := l2Amo noCtx true (memPas (memLocs pa 8)) s) (by rw [hmem]; exact h)
  rw [bytesOf_length] at hget
  have hsum : (wd (wordAt s pa 8) + wd n).toNat = (wordAt s pa 8 + n) % 2 ^ 64 := by simp [wd, BitVec.toNat_add, BitVec.toNat_ofNat, Nat.add_mod]
  rw [addHome_eq]
  refine (congrArg natOf hget).trans ?_
  rw [natOf_bytesOf, hsum]
  exact Nat.mod_mod _ _

/-- Words that lie apart from it stay. -/
theorem addHome_apart (pa n : Nat) {s : State} (h : s.mem.wf = true) {a : Nat} (ha : a + 8 ≤ pa ∨ pa + 8 ≤ a) : wordAt (addHome pa n s) a 8 = wordAt s a 8 := by
  have hmem : (l2Amo noCtx true (memPas (memLocs pa 8)) s).mem = s.mem := (l2Amo_only _ _ _ _).mem_eq
  refine congrArg natOf (getN_congr fun x h1 h2 => ?_)
  refine (homeBytes_other _ _ _ (by rw [amo8, hmem]; exact h) x fun b hb e => ?_).trans (congrArg (fun m : Memory => m.get x) hmem)
  obtain ⟨y, hy, h3, h4⟩ := loc_of_memBytes hb
  rw [hy] at e
  cases e
  rw [bytesOf_length] at h4
  omega

/-- Additions one after the other, each with its address. -/
def addEach (xs : List (Nat × Nat)) (s : State) : State := xs.foldl (fun s x => addHome x.1 x.2 s) s

/-- Two words of memory that share no byte. -/
def Apart (x y : Nat × Nat) : Prop := x.1 + 8 ≤ y.1 ∨ y.1 + 8 ≤ x.1

theorem addEach_kept (xs : List (Nat × Nat)) {s : State} (h : s.wellKept) : (addEach xs s).wellKept := foldl_kept (fun _ _ h => addHome_kept h) h
theorem addEach_flushes (xs : List (Nat × Nat)) (s : State) : SameFlushes s (addEach xs s) := .foldl (fun _ _ => addHome_flushes _ _ _) _ _

theorem addEach_me (xs : List (Nat × Nat)) (s : State) : (addEach xs s).me = s.me := by
  induction xs generalizing s with
  | nil => rfl
  | cons x xs ih => exact (ih _).trans (addHome_me _ _ _)

theorem addEach_apart (xs : List (Nat × Nat)) {s : State} (h : s.wellKept) {a : Nat} (ha : ∀ x ∈ xs, a + 8 ≤ x.1 ∨ x.1 + 8 ≤ a) :
    wordAt (addEach xs s) a 8 = wordAt s a 8 := by
  induction xs generalizing s with
  | nil => rfl
  | cons x xs ih => exact (ih (addHome_kept h) fun y hy => ha y (by simp [hy])).trans (addHome_apart _ _ h.mem (ha x (by simp)))

/-- Where no two of the words share a byte, each holds its sum. -/
theorem addEach_word {xs : List (Nat × Nat)} (hd : xs.Pairwise Apart) {s : State} (h : s.wellKept) {x : Nat × Nat} (hx : x ∈ xs) :
    wordAt (addEach xs s) x.1 8 = (wordAt s x.1 8 + x.2) % 2 ^ 64 := by
  induction xs generalizing s with
  | nil => cases hx
  | cons y xs ih =>
    obtain ⟨hy, hrest⟩ := List.pairwise_cons.1 hd
    rcases List.mem_cons.1 hx with rfl | hx
    · exact (addEach_apart xs (addHome_kept h) fun z hz => hy z hz).trans (addHome_word _ _ h.mem)
    · exact (ih hrest (addHome_kept h) hx).trans (by rw [addHome_apart _ _ h.mem (hy x hx).symm])

/-- The additions that a context's counts make to its record. -/
def counterAdds (base : Nat) (c : CtxCounts) : List (Nat × Nat) := (List.finRange 7).map fun k => (base + 64 * c.ctx + 8 * k.1, c.n[k])

theorem flushContext_eq (base : Nat) (c : CtxCounts) (s : State) : flushContext base c s = addEach (counterAdds base c) s := by
  rw [flushContext, addEach, counterAdds, List.foldl_map]

theorem counterAdds_apart (base : Nat) {cs : List CtxCounts} (h : cs.Pairwise fun a b => a.ctx ≠ b.ctx) : (cs.flatMap (counterAdds base)).Pairwise Apart := by
  refine List.pairwise_flatMap.2 ⟨fun c _ => ?_, h.imp fun {a b} hab x hx y hy => ?_⟩
  · refine List.pairwise_map.2 ((List.nodup_finRange 7).imp fun {j k} hjk => ?_)
    have := Fin.val_ne_of_ne hjk
    simp only [Apart]
    omega
  · obtain ⟨j, -, rfl⟩ := List.mem_map.1 hx
    obtain ⟨k, -, rfl⟩ := List.mem_map.1 hy
    simp only [Apart]
    omega

theorem addEach_cntbase (xs : List (Nat × Nat)) (s : State) : (addEach xs s).cntbase = s.cntbase := by
  induction xs generalizing s with
  | nil => rfl
  | cons x xs ih => exact (ih _).trans (addHome_cntbase _ _ _)

theorem flushContexts_eq (cs : List CtxCounts) (s : State) :
    cs.foldl (fun s c => flushContext s.cntbase.toNat c s) s = addEach (cs.flatMap (counterAdds s.cntbase.toNat)) s := by
  induction cs generalizing s with
  | nil => rfl
  | cons c cs ih =>
    rw [List.foldl_cons, ih, flushContext_eq, addEach_cntbase, List.flatMap_cons]
    exact List.foldl_append.symm

/-- A flush to a counter array is the additions of all its contexts, in a state whose die has begun to count anew. -/
theorem flushCounts_eq (d : Fin 4) {s : State} (h : s.cntbase ≠ 0) :
    flushCounts d.1 s = addEach (s.dies[d].counts.flatMap (counterAdds s.cntbase.toNat)) (withDie d { s.dies[d] with counts := [] } s) := by
  rw [flushCounts, if_neg h, dieAt_val, modDie_val, flushContexts_eq]
  rfl

end Sys2Proof.Machine
end

section
namespace Sys2Proof.Machine

set_option Elab.async false

open Sys2Proof.Claims Sys2Proof.Laws

/-! ## What a write of the host leaves of each register -/

section Registers

variable {s : State} {d : Fin 4} {v : Word} {off size : Nat}

theorem registerWrite_ctxbase (hl : s.dies[0].bootlock = false) (h : Writes 0x10000000 off size) :
    exec (.registerWrite d off size v) s =
      .next { s with hostBad := false, ctxbase := written s.ctxbase v off size &&& BitVec.ofNat 64 (2 ^ 52 - 2 ^ 17) } := by
  obtain ⟨lo, hi, v', e, hw⟩ := registerWrite_halves d h (by decide) (by decide) v s
  rw [e, ctlWrite_ctxbase (s := { s with hostBad := false }) hl, hw]
  rfl

theorem registerWrite_chainid (hl : s.dies[0].bootlock = false) (h : Writes 0x18 off size) :
    exec (.registerWrite d off size v) s =
      .next { s with hostBad := false, chainid := fld (written (BitVec.ofNat 64 s.chainid) v off size) 0 12 } := by
  obtain ⟨lo, hi, v', e, hw⟩ := registerWrite_halves d h (by decide) (by decide) v s
  rw [e, ctlWrite_chainid (s := { s with hostBad := false }) hl, hw]
  rfl

theorem registerWrite_cntbase (hl : s.dies[0].bootlock = false) (h : Writes 0x58 off size) :
    exec (.registerWrite d off size v) s =
      .next { s with hostBad := false, cntbase := written s.cntbase v off size &&& BitVec.ofNat 64 (2 ^ 52 - 2 ^ 6) } := by
  obtain ⟨lo, hi, v', e, hw⟩ := registerWrite_halves d h (by decide) (by decide) v s
  rw [e, ctlWrite_cntbase (s := { s with hostBad := false }) hl, hw]
  rfl

theorem registerWrite_grantBase (p : Fin 8) (j : Fin 16) (hl : s.dies[0].bootlock = false) (h : Writes (0x10000800 + 0x100 * p.1 + 0x10 * j.1) off size) :
    exec (.registerWrite d off size v) s = .next { s with
      hostBad := false
      grants := s.grants.set p (s.grants[p].set j { (s.grants[p])[j] with
        base := written (s.grants[p])[j].base v off size &&& BitVec.ofNat 64 (2 ^ 52 - 2 ^ 14 + 3) }) } := by
  obtain ⟨lo, hi, v', e, hw⟩ := registerWrite_halves d h (by omega) (by omega) v s
  rw [e, ctlWrite_grantBase (s := { s with hostBad := false }) p j hl, hw]
  rfl

theorem registerWrite_grantLast (p : Fin 8) (j : Fin 16) (hl : s.dies[0].bootlock = false) (h : Writes (0x10000808 + 0x100 * p.1 + 0x10 * j.1) off size) :
    exec (.registerWrite d off size v) s = .next { s with
      hostBad := false
      grants := s.grants.set p (s.grants[p].set j { (s.grants[p])[j] with
        last := written (s.grants[p])[j].last v off size &&& BitVec.ofNat 64 (2 ^ 52 - 2 ^ 14) }) } := by
  obtain ⟨lo, hi, v', e, hw⟩ := registerWrite_halves d h (by omega) (by omega) v s
  rw [e, ctlWrite_grantLast (s := { s with hostBad := false }) p j hl, hw]
  rfl

theorem registerWrite_actthr (j : Fin 5) (hl : s.dies[d].bootlock = false) (h : Writes (0x08000000 + 0x1000 * j.1) off size) :
    let n := fld (written (BitVec.ofNat 64 s.dies[d].ctrls[j].actthr) v off size) 0 14
    exec (.registerWrite d off size v) s = .next (if 256 ≤ n ∧ n ≤ 8192
      then withDie d { s.dies[d] with ctrls := s.dies[d].ctrls.set j { s.dies[d].ctrls[j] with actthr := n } } { s with hostBad := false } else { s with hostBad := false }) := by
  obtain ⟨lo, hi, v', e, hw⟩ := registerWrite_halves d h (by omega) (by omega) v s
  rw [e, ctlWrite_actthr (s := { s with hostBad := false }) d j hl, hw]
  rfl

theorem registerWrite_ptvec (p : Fin 8) :
    exec (.registerWrite d (0x0B000000 + 0x40 * p.1) 8 v) s =
      .next { s with hostBad := false, parts := s.parts.set p { s.parts[p] with ptvec := v &&& BitVec.ofNat 64 (2 ^ 57 - 4) } } := by
  have hreg : (0x0B000000 + 0x40 * p.1) / 8 * 8 = 0x0B000000 + 0x40 * p.1 := by omega
  rw [registerWrite_reaches d.2 (by omega) (.inr rfl) (by omega), ctlStore_die d (by omega), if_pos rfl, hreg, ctlWrite_ptvec, ptvec_bits]

end Registers

/-! ## A completed descriptor and a flush, from the state before to the state after -/

theorem invalidationComplete_idle {s : State} (h : s.tiq = []) : exec .invalidationComplete s = .next s := by
  dsimp only [exec, execInvalidationComplete]
  rw [h]

theorem invalidationComplete_effects {s : State} {d : Invalidation} {rest : List Invalidation} (ht : s.tiq = d :: rest) (hq : AllQuiet s) :
    ∃ t, exec .invalidationComplete s = .next t ∧
    t.tiq = rest ∧ t.tiqdone = (s.tiqdone + 1) % 2 ^ 32 ∧ t.me = s.me ∧ t.mem = s.mem ∧ let part := partOfCtx (fld d.lo 3 12) s
    (∀ e, e ∈ t.core.tlb ↔ e ∈ s.core.tlb ∧ ¬Removes d part e) ∧
    (∀ k : Nat, ∀ c, s.cores[k]? = some c → ∃ u, t.cores[k]? = some u ∧ u = { c with tlb := u.tlb, walks := u.walks } ∧ ∀ e, e ∈ u.tlb ↔ e ∈ c.tlb ∧ ¬Removes d part e) ∧
    (∀ c ∈ s.core :: s.cores, ∀ e ∈ c.tlb, Removes d part e → ∀ die : Fin 4, ∀ x ∈ t.dies[die].l2, ∀ (w : Nat) (v : L2Line), x.ways[w]? = some (some v) → v.dirty = true → leadsTo v.line e = false) := by
  have hf := forceBack_only d (partOfCtx (invCTX d) s) s
  refine ⟨_, invalidationComplete_quiet ht hq, rfl, rfl, hf.me_eq, hf.mem_eq, fun e => ?_, fun k c hc => ?_, fun c hc e he hr die x hx w v hv hd => ?_⟩
  · dsimp only [mapCores]
    rw [hf.core_eq]
    exact mem_invalidated_tlb
  · refine ⟨invalidated d (partOfCtx (invCTX d) s) c, ?_, rfl, fun e => mem_invalidated_tlb⟩
    dsimp only [mapCores]
    rw [hf.cores_eq, List.getElem?_map, hc, Option.map_some]
  · have hmem : e ∈ removedBy d (partOfCtx (invCTX d) s) s := List.mem_flatMap.2 ⟨c, hc, List.mem_filter.2 ⟨he, (removes_iff _ _ _).2 hr⟩⟩
    have hclean := forceBack_noneDirty hmem die x hx w v hv hd
    exact Bool.not_eq_true _ ▸ List.any_eq_false.1 hclean e hmem

theorem counterFlush_early {s : State} {d : Fin 4} (h : s.dies[d].cycle < (s.dies[d].flushes + 1) * 1048576) : exec (.counterFlush d) s = .next s := by
  dsimp only [exec, execCounterFlush]
  rw [dieAt_val, if_pos h]

theorem counterFlush_due {s : State} {d : Fin 4} (h : (s.dies[d].flushes + 1) * 1048576 ≤ s.dies[d].cycle) :
    exec (.counterFlush d) s = .next (withDie d { (flushCounts d.1 s).dies[d] with flushes := (flushCounts d.1 s).dies[d].flushes + 1 } (flushCounts d.1 s)) := by
  dsimp only [exec, execCounterFlush]
  rw [dieAt_val, if_neg (by omega), modDie_val]

theorem counterFlush_uncounted {s : State} {d : Fin 4} (h : (s.dies[d].flushes + 1) * 1048576 ≤ s.dies[d].cycle) (hb : s.cntbase = 0) :
    exec (.counterFlush d) s = .next (withDie d { s.dies[d] with flushes := s.dies[d].flushes + 1 } s) := by
  rw [counterFlush_due h, flushCounts, if_pos hb]

theorem wordAt_of_mem {s t : State} (h : t.mem = s.mem) (a n : Nat) : wordAt t a n = wordAt s a n := by rw [wordAt, wordAt, h]

/-- What a flush to a counter array leaves, before its number is counted. -/
theorem flushCounts_effects {s : State} {d : Fin 4} (hs : s.wellKept) (hb : s.cntbase ≠ 0) (hd : s.dies[d].counts.Pairwise fun a b => a.ctx ≠ b.ctx) :
    (flushCounts d.1 s).me = s.me ∧ (flushCounts d.1 s).dies[d].flushes = s.dies[d].flushes ∧
      ∀ c ∈ s.dies[d].counts, ∀ k : Fin 7, let a := s.cntbase.toNat + 64 * c.ctx + 8 * k.1
        wordAt (flushCounts d.1 s) a 8 = (wordAt s a 8 + c.n[k]) % 2 ^ 64 := by
  have hkept : (withDie d { s.dies[d] with counts := [] } s).wellKept := hs.same
  have hcounts : (withDie d { s.dies[d] with counts := [] } s).dies[d].flushes = s.dies[d].flushes := by simp [withDie]
  rw [flushCounts_eq d hb]
  refine ⟨addEach_me _ _, (addEach_flushes _ _ d).trans hcounts, fun c hc k => ?_⟩
  have hmem : (s.cntbase.toNat + 64 * c.ctx + 8 * k.1, c.n[k]) ∈ s.dies[d].counts.flatMap (counterAdds s.cntbase.toNat) :=
    List.mem_flatMap.2 ⟨c, hc, List.mem_map.2 ⟨k, List.mem_finRange k, rfl⟩⟩
  refine (addEach_word (counterAdds_apart _ hd) hkept hmem).trans ?_
  rw [wordAt_of_mem (s := s) (t := withDie d _ s) rfl]

theorem counterFlush_effects {s : State} {d : Fin 4} (hs : s.wellKept) (h : (s.dies[d].flushes + 1) * 1048576 ≤ s.dies[d].cycle) (hb : s.cntbase ≠ 0)
    (hd : s.dies[d].counts.Pairwise fun a b => a.ctx ≠ b.ctx) :
    ∃ t, exec (.counterFlush d) s = .next t ∧ t.me = s.me ∧ t.dies[d].flushes = s.dies[d].flushes + 1 ∧
      ∀ c ∈ s.dies[d].counts, ∀ k : Fin 7, let a := s.cntbase.toNat + 64 * c.ctx + 8 * k.1
        wordAt t a 8 = (wordAt s a 8 + c.n[k]) % 2 ^ 64 := by
  have hflush := flushCounts_effects hs hb hd
  refine ⟨_, counterFlush_due h, ?_⟩
  generalize flushCounts d.1 s = u at hflush ⊢
  obtain ⟨hme, hflushes, hwords⟩ := hflush
  exact ⟨hme, by simpa [withDie] using hflushes, fun c hc k => (wordAt_of_mem rfl _ _).trans (hwords c hc k)⟩

end Sys2Proof.Machine

namespace Sys2Proof.Claims

open Sys2Proof.Machine

/-- Settles O54: each register by its own lemma, BOOTLOCK by what every kind of write leaves, the descriptor by the lines that are forced back, and the flush as
additions to words that share no byte. -/
theorem controlSpaceEvents : Obligations.ControlSpaceEvents := by
  refine ⟨fun s d off size v => ⟨fun h => registerWrite_nowhere h _ _ _, fun hd ho h => registerWrite_dropped hd ho h _ _,
      fun hd ho hs ha => registerWrite_reaches hd ho hs ha _ _, fun h t e => ⟨(registerWrite_locked h e).package, (registerWrite_locked h e).ctrls⟩⟩,
    fun s d v off size hl => ⟨registerWrite_ctxbase hl, registerWrite_chainid hl, registerWrite_cntbase hl,
      fun p j => ⟨registerWrite_grantBase p j hl, registerWrite_grantLast p j hl⟩⟩,
    fun s d v off size j hl h => registerWrite_actthr j hl h,
    fun s d v => ⟨registerWrite_ptvec, congrArg Host.Outcome.next (bootlockOp_val d s)⟩,
    fun s off size => ⟨fun h => hostRead_answers h s, fun h => hostRead_refused h s⟩,
    fun s v => ⟨fun h => tiqhi_overflows h v, fun hl h => tiqhi_reserved hl h v, fun hl h => tiqhi_queues hl h v⟩,
    fun s h => invalidationComplete_idle h, fun s d rest ht hq => invalidationComplete_effects ht hq,
    fun s d hs => ⟨counterFlush_early, fun h => ⟨counterFlush_uncounted h, counterFlush_effects hs h⟩⟩⟩

end Sys2Proof.Claims
end

section
/-! Form-I integer instructions (O12): what each does with ImmValue, and what ImmValue is of a literal and of a patch slot (R185, R186, R204). -/

namespace Sys2Proof.Machine

set_option Elab.async false

open Sys2Proof.Claims Sys2Proof.Laws

/-! ## The operations of R204 -/

theorem toNat_low6 (b : Word) : (b.extractLsb' 0 6).toNat = b.toNat % 64 := by simp

theorem shiftL_eq (a b : Word) : shiftL a b = a <<< (b.extractLsb' 0 6).toNat := by rw [shiftL, toNat_low6]
theorem shiftR_eq (a b : Word) : shiftR a b = a >>> (b.extractLsb' 0 6).toNat := by rw [shiftR, toNat_low6]
theorem shiftA_eq (a b : Word) : shiftA a b = a.sshiftRight (b.extractLsb' 0 6).toNat := by rw [shiftA, toNat_low6]
theorem setEqual_eq (a b : Word) : setEqual a b = if a = b then 1 else 0 := by simp [setEqual, truth]
theorem setLess_eq (a b : Word) : setLess a b = if a.slt b then 1 else 0 := by simp [setLess, truth, BitVec.slt]
theorem setBelow_eq (a b : Word) : setBelow a b = if a < b then 1 else 0 := by simp [setBelow, truth, BitVec.lt_def]

/-- Each form-I instruction writes its operation of g[a] and ImmValue. -/
theorem exec_of_aluImmediate {i : Instr} {d a : GReg} {k : BitVec 14} {f : Word → Word → Word} (h : aluImmediate i = some (d, a, k, f)) (s : State) :
    exec i s = .next (aluI f d a k s) := by
  unfold aluImmediate at h
  split at h <;> cases h
  case h_5 => exact congrArg (fun f => Host.Outcome.next (aluI f d a k s)) (funext₂ shiftL_eq)
  case h_6 => exact congrArg (fun f => Host.Outcome.next (aluI f d a k s)) (funext₂ shiftR_eq)
  case h_7 => exact congrArg (fun f => Host.Outcome.next (aluI f d a k s)) (funext₂ shiftA_eq)
  case h_8 => exact congrArg (fun f => Host.Outcome.next (aluI f d a k s)) (funext₂ setEqual_eq)
  case h_9 => exact congrArg (fun f => Host.Outcome.next (aluI f d a k s)) (funext₂ setLess_eq)
  case h_10 => exact congrArg (fun f => Host.Outcome.next (aluI f d a k s)) (funext₂ setBelow_eq)
  all_goals rfl

/-! ## ImmValue -/

theorem signExtend_toInt {n : Nat} (x : BitVec n) (h : 0 < n) : signExtend x.toNat n = x.toInt := by
  obtain ⟨m, rfl⟩ : ∃ m, n = m + 1 := ⟨n - 1, by omega⟩
  have hx := x.isLt
  have hp : 2 ^ (m + 1) = 2 * 2 ^ m := by ring
  simp only [signExtend, BitVec.toInt_eq_toNat_cond, Nat.mod_eq_of_lt hx, Nat.add_sub_cancel]
  by_cases hc : x.toNat < 2 ^ m
  · rw [if_pos hc, if_pos (by omega)]
  · rw [if_neg hc, if_neg (by omega)]

/-- A literal is the sign extension of its 13 bits (R185). -/
theorem sx_literal (k : BitVec 14) : sx k.toNat 13 = (k.extractLsb' 0 13).signExtend 64 := by
  have hlow : signExtend k.toNat 13 = signExtend (k.extractLsb' 0 13).toNat 13 := by simp [signExtend]
  rw [sx, hlow, signExtend_toInt _ (by decide), BitVec.signExtend]

/-- The address of a patch slot (R186). -/
theorem patch_offset (k : BitVec 14) : wd (8 * field k.toNat 0 13) = 8 * (k.extractLsb' 0 13).setWidth 64 := by
  apply BitVec.eq_of_toNat_eq
  simp [wd, field]

theorem immValue_literal {k : BitVec 14} (h : k.getLsbD 13 = false) (s : State) : immValue k s = .ok ((k.extractLsb' 0 13).signExtend 64) s := by
  rw [immValue, h, sx_literal, if_neg Bool.false_ne_true]

theorem immValue_patch {k : BitVec 14} (h : k.getLsbD 13 = true) (s : State) :
    immValue k s = patchRead (s.me.patchbase + 8 * (k.extractLsb' 0 13).setWidth 64) s := by
  rw [immValue, h, patch_offset, if_pos rfl]

/-- A patch slot whose value the strand holds. -/
theorem patchRead_held {va : Word} {p : Word × Word} {s : State} (h : s.me.patch.find? (fun p => p.1 == va) = some p) : patchRead va s = .ok p.2 s := by
  simp only [patchRead, h]

/-- A patch slot whose translation faults. -/
theorem patchRead_faults {va : Word} {x : XFault} {s s1 : State} (h : s.me.patch.find? (fun p => p.1 == va) = none)
    (ht : translate (reqOf s.me) .load 0 va s = (.error x, s1)) : patchRead va s = .stop (xlate .load va x s1) := by
  simp only [patchRead, h, ht]

section Immediate

variable {f : Word → Word → Word} {d a : GReg} {k : BitVec 14} {s s1 : State}

theorem aluI_ok {w : Word} (h : immValue k s = .ok w s1) : aluI f d a k s = advance (setG d (f (gR a s1) w) s1) := by
  rw [aluI, h]; rfl

theorem aluI_stop (h : immValue k s = .stop s1) : aluI f d a k s = s1 := by
  rw [aluI, h]; rfl

end Immediate

end Sys2Proof.Machine

namespace Sys2Proof.Claims

open Sys2Proof.Machine

/-- Settles O12: each instruction is its operation on ImmValue, which is the literal, the value held for the patch slot, or what the load of the slot gives. -/
theorem immediateResults : Obligations.ImmediateResults := by
  intro i d a k f s h
  rw [exec_of_aluImmediate h]
  refine ⟨fun hk => ?_, fun hk va hva => ?_⟩
  · rw [aluI_ok (immValue_literal hk s)]
  · have himm := immValue_patch hk s
    rw [← hva] at himm
    refine ⟨fun p hp => ?_, fun hp x s1 ht => ?_, fun w s1 hr => ?_⟩
    · rw [aluI_ok (himm.trans (patchRead_held hp))]
    · rw [aluI_stop (himm.trans (patchRead_faults hp ht))]
    · rw [aluI_ok (himm.trans hr)]

end Sys2Proof.Claims
end

section
/-! Accesses of the host (O59): what accesses leave of a die beside its traffic, bytes written at some of their addresses, sets of L2, and the host's reads, writes, snoops and stores. -/

namespace Sys2Proof.Machine

set_option Elab.async false

open Sys2Proof.Claims Sys2Proof.Laws

/-! ## What accesses leave of a die -/

/-- A part of a die that accesses to L2 and DRAM do not change. -/
structure ApartFromTraffic {α : Type} (g : Die → α) : Prop where
  banks : ∀ x b, g { x with banks := b } = g x
  counts : ∀ x c, g { x with counts := c } = g x
  l2 : ∀ x l, g { x with l2 := l } = g x

namespace ApartFromTraffic

variable {α : Type} {g : Die → α} (hg : ApartFromTraffic g)
include hg

theorem dramRequest {ctx pa : Nat} {read : Bool} {s : State} : EachDie g s (dramRequest ctx pa read s) := .dramRequest hg.banks
theorem charge {d ctx : Nat} {k : Fin 7} {n : Nat} {s : State} : EachDie g s (charge d ctx k n s) := .charge hg.counts
theorem writeBack {d ctx line : Nat} {s : State} : EachDie g s (writeBack d ctx line s) := .writeBack hg.banks hg.counts
theorem putSet {d line : Nat} {x : L2Set} {s : State} : EachDie g s (putSet d line x s) := .modDie fun _ => hg.l2 _ _
theorem chargeHit {d ctx owner : Nat} {s : State} : EachDie g s (chargeHit d ctx owner s) := .ite .refl (.ite hg.charge (.trans hg.charge hg.charge))

theorem joinRead {line : Nat} {s : State} : EachDie g s (joinRead line s) := by
  unfold Machine.joinRead
  split
  · exact .refl
  · exact .ite (.modDie fun _ => hg.banks _ _) .refl

theorem l2Access {ctx : Nat} {wb : Bool} {line n fill : Nat} {write : Bool} {s : State} : EachDie g s (l2Access ctx wb line n fill write s) := by
  unfold Machine.l2Access
  extract_lets pa die dram st keepsDirty
  split
  · exact .ite (.trans hg.charge hg.dramRequest) .refl
  split
  · dsimp only
    split
    · exact .refl
    · exact .trans (.trans (.ite hg.joinRead .refl) hg.chargeHit) hg.putSet
  next w i s1 s2 s3 hwb o hfree =>
    have h1 : EachDie g s s1 := by
      unfold s1
      split
      · exact .refl
      · exact .trans (.ite hg.writeBack .refl) hg.charge
    have h2 : EachDie g s s2 := .trans h1 hg.charge
    clear_value s2
    have h3 : EachDie g s s3 := .trans h2 (.ite (.trans hg.charge hg.dramRequest) .refl)
    clear_value s3
    exact .trans h3 hg.putSet

theorem l2Reads {ctx : Nat} {wb : Bool} {pas : List Nat} {s : State} : EachDie g s (l2Reads ctx wb pas s) := .foldl (fun _ _ => hg.l2Access) _ _

end ApartFromTraffic

theorem hostacc_apart : ApartFromTraffic Die.hostacc := ⟨fun _ _ => rfl, fun _ _ => rfl, fun _ _ => rfl⟩

/-! ## Bytes written at some of their addresses -/

theorem getN_eq_map (m : Memory) (a n : Nat) : m.getN a n = (List.range n).map fun k => m.get (a + k) := by
  induction n generalizing a with
  | zero => rfl
  | succ n ih =>
    rw [Memory.getN, ih, List.range_succ_eq_map, List.map_cons, List.map_map]
    exact congrArg (List.cons _) (List.map_congr_left fun k _ => congrArg m.get (Nat.add_right_comm a 1 k))

/-- The bytes of a write whose addresses satisfy a test. -/
def bytesWhere (p : Nat → Bool) (pa : Nat) (bs : List (BitVec 8)) : List ByteWrite :=
  (memBytes pa bs).filter fun b => match b.loc with | .mem a => p a | .scratch _ _ => false

theorem memBytes_distinct (pa : Nat) (bs : List (BitVec 8)) : (memBytes pa bs).Pairwise fun x y => x.loc ≠ y.loc := by
  induction bs generalizing pa with
  | nil => exact .nil
  | cons b bs ih =>
    refine .cons (fun y hy e => ?_) (ih (pa + 1))
    obtain ⟨a, ha, hl, -⟩ := loc_of_memBytes hy
    rw [ha] at e
    cases e
    omega

theorem mem_memBytes {pa k : Nat} {bs : List (BitVec 8)} {b : BitVec 8} (h : bs[k]? = some b) : (⟨.mem (pa + k), b, 0xFF, none⟩ : ByteWrite) ∈ memBytes pa bs := by
  induction bs generalizing pa k with
  | nil => cases h
  | cons x bs ih =>
    rw [memBytes, List.mem_cons]
    cases k with
    | zero => cases h; exact .inl rfl
    | succ k =>
      right
      have := ih (pa := pa + 1) (k := k) h
      rwa [show pa + 1 + k = pa + (k + 1) by omega] at this

theorem loc_of_bytesWhere {p : Nat → Bool} {pa : Nat} {bs : List (BitVec 8)} {b : ByteWrite} (h : b ∈ bytesWhere p pa bs) :
    ∃ a, b.loc = .mem a ∧ pa ≤ a ∧ a < pa + bs.length ∧ p a = true := by
  obtain ⟨hb, hp⟩ := List.mem_filter.1 h
  obtain ⟨a, ha, h1, h2⟩ := loc_of_memBytes hb
  rw [ha] at hp
  exact ⟨a, ha, h1, h2, hp⟩

theorem mem_bytesWhere {p : Nat → Bool} {pa k : Nat} {bs : List (BitVec 8)} {b : BitVec 8} (h : bs[k]? = some b) (hp : p (pa + k) = true) :
    (⟨.mem (pa + k), b, 0xFF, none⟩ : ByteWrite) ∈ bytesWhere p pa bs := List.mem_filter.2 ⟨mem_memBytes h, hp⟩

section Where

variable {p : Nat → Bool} {pa : Nat} {bs : List (BitVec 8)} {s : State} {wb : Bool}

/-- A byte whose address satisfies the test is written. -/
theorem bytesWhere_at (hs : s.mem.wf = true) {k : Nat} {b : BitVec 8} (h : bs[k]? = some b) (hp : p (pa + k) = true) :
    (homeBytes wb (bytesWhere p pa bs) s).mem.get (pa + k) = b := by
  have hdistinct : (bytesWhere p pa bs).Pairwise fun x y => x.loc ≠ y.loc := (memBytes_distinct pa bs).filter _
  rw [homeBytes_at wb _ _ hs hdistinct _ (mem_bytesWhere h hp) _ rfl, merge_all]

/-- Every other byte stays. -/
theorem bytesWhere_other (hs : s.mem.wf = true) {a : Nat} (h : ∀ k, k < bs.length → a = pa + k → p a = false) :
    (homeBytes wb (bytesWhere p pa bs) s).mem.get a = s.mem.get a := by
  refine homeBytes_other wb _ _ hs a fun b hb e => ?_
  obtain ⟨c, hc, h1, h2, hp⟩ := loc_of_bytesWhere hb
  obtain rfl : c = a := by rw [hc] at e; exact Loc.mem.inj e
  rw [h (c - pa) (by omega) (by omega)] at hp
  cases hp

end Where

theorem homePut_hostBad (b : ByteWrite) (s : State) : (homePut b s).hostBad = s.hostBad := by
  unfold homePut
  split
  · rfl
  · exact modCore_hostBad _ _ _

theorem homePut_hostOwned (b : ByteWrite) (s : State) : (homePut b s).hostOwned = s.hostOwned := by
  unfold homePut
  split
  · rfl
  · exact modCore_hostOwned _ _ _

theorem homeBytes_hostBad (wb : Bool) (bs : List ByteWrite) (s : State) : (homeBytes wb bs s).hostBad = s.hostBad := by
  rw [homeBytes_after]
  exact List.foldlRecOn (motive := fun t => t.hostBad = s.hostBad) bs _ rfl fun t ht b _ => (homePut_hostBad b t).trans ht

/-- A write that L2 does not keep takes no line of the host window over. -/
theorem homeBytes_hostOwned (bs : List ByteWrite) (s : State) : (homeBytes false bs s).hostOwned = s.hostOwned := by
  have hputs : (bs.foldl (fun s b => homePut b s) s).hostOwned = s.hostOwned :=
    List.foldlRecOn (motive := fun t => t.hostOwned = s.hostOwned) bs _ rfl fun t ht b _ => (homePut_hostOwned b t).trans ht
  unfold homeBytes
  dsimp only
  have hentries := fun t : State => (((persistEntry_only 0 bs t).trans (persistEntry_only 1 bs _)).trans (persistEntry_only 2 bs _)).trans (persistEntry_only 3 bs _)
  rw [if_neg Bool.false_ne_true, wakes_same, (hentries _).same, mendWords_same]
  exact hputs

/-- What is noted of the host's lines after a write that L2 does not keep is noted of the same lines. -/
theorem staleAfter_lines (bs : List ByteWrite) (s : State) : (staleAfter false bs s).map Prod.fst = s.hostStale.map Prod.fst := by
  refine List.foldlRecOn (motive := fun (h : List (Nat × List (BitVec 8))) => h.map Prod.fst = s.hostStale.map Prod.fst) bs _ rfl fun h hh b _ => ?_
  rw [← hh]
  split
  · split
    · rw [if_neg Bool.false_ne_true, patchStale, List.map_map]
      refine List.map_congr_left fun e _ => ?_
      simp only [Function.comp_apply]
      split <;> rfl
    · rfl
  · rfl

/-! ## Sets of L2 -/

theorem dieAt_modDie (d : Nat) (f : Die → Die) (s : State) : dieAt d (modDie d f s) = f (dieAt d s) := by simp [dieAt, modDie]

theorem setAt_place (d line : Nat) (s : State) : (setAt d line s).slice = sliceOf line ∧ (setAt d line s).index = setOf line := by
  unfold setAt
  cases h : (dieAt d s).l2.find? fun x => x.slice == sliceOf line && x.index == setOf line with
  | none => exact ⟨rfl, rfl⟩
  | some x => simpa using List.find?_some h

theorem find_modSetList {slice index : Nat} {x : L2Set} (hs : x.slice = slice) (hi : x.index = index) (xs : List L2Set) :
    (modSetList slice index (fun _ => x) xs).find? (fun y => y.slice == slice && y.index == index) = some x := by
  induction xs with
  | nil => simp [modSetList, hs, hi]
  | cons y ys ih =>
    unfold modSetList
    split
    · simp [hs, hi]
    next h =>
      rw [List.find?_cons_of_neg, ih]
      simpa using h

/-- A set that was put back stands there. -/
theorem setAt_putSet {d line : Nat} {x : L2Set} (hs : x.slice = sliceOf line) (hi : x.index = setOf line) (s : State) :
    setAt d line (putSet d line x s) = x := by
  rw [setAt, putSet, dieAt_modDie]
  dsimp only
  rw [find_modSetList hs hi, Option.getD_some]

/-! ## Snoops (R17) -/

/-- What a snoop of a line makes of a way. -/
def snoopWay (line : Nat) (f : L2Line → Option L2Line) : Option L2Line → Option L2Line
  | some x => if x.line = line then f x else some x
  | none => none

theorem snoopSet_eq (line : Nat) (f : L2Line → Option L2Line) (s : State) :
    snoopSet line f s = putSet 0 line { setAt 0 line s with ways := (setAt 0 line s).ways.map (snoopWay line f) } s := by
  unfold snoopSet
  dsimp only
  congr 3

/-- A line of the set after a snoop: one of another number, or what the snoop made of the line. -/
theorem way_of_snoopSet {line : Nat} {f : L2Line → Option L2Line} {s : State} {x : L2Line}
    (h : some x ∈ (setAt 0 line (snoopSet line f s)).ways.toList) : x.line ≠ line ∨ ∃ y, f y = some x := by
  obtain ⟨hs, hi⟩ := setAt_place 0 line s
  have hset := setAt_putSet (d := 0) (x := { setAt 0 line s with ways := (setAt 0 line s).ways.map (snoopWay line f) }) hs hi s
  rw [snoopSet_eq, hset, Vector.toList_map] at h
  obtain ⟨w, -, hw⟩ := List.mem_map.1 h
  unfold snoopWay at hw
  split at hw
  next y =>
    split at hw
    · exact .inr ⟨y, hw⟩
    next hy => cases hw; exact .inl hy
  · cases hw

theorem snoop_elsewhere {pa : Nat} (h : regionOf pa ≠ .host) (back : Bool) (s : State) : exec (.cxlCacheSnoop pa back) s = .next s := by
  dsimp only [exec, execCxlCacheSnoop]
  rw [if_pos h]

theorem snoop_takesBack {pa : Nat} (h : regionOf pa = .host) (s : State) :
    exec (.cxlCacheSnoop pa true) s =
      .next { snoopSet (pa / 64) (fun _ => none) (hostHas (fun l => l == pa / 64) s) with hostOwned := s.hostOwned.filter fun l => l != pa / 64 } := by
  dsimp only [exec, execCxlCacheSnoop]
  rw [if_neg (not_not.2 h), if_pos rfl]

theorem snoop_cleans {pa : Nat} (h : regionOf pa = .host) (s : State) :
    exec (.cxlCacheSnoop pa false) s = .next (snoopSet (pa / 64) (fun x => some { x with dirty := false }) (hostHas (fun l => l == pa / 64) s)) := by
  dsimp only [exec, execCxlCacheSnoop]
  rw [if_neg (not_not.2 h), if_neg Bool.false_ne_true]

theorem snoop_effects {pa : Nat} (h : regionOf pa = .host) (back : Bool) (s : State) :
    ∃ t, exec (.cxlCacheSnoop pa back) s = .next t ∧ t.mem = s.mem ∧ t.me = s.me ∧ t.hostStale = s.hostStale.filter (fun e => e.1 != pa / 64) ∧
      (back = true → (pa / 64 ∉ t.hostOwned) ∧ ∀ w ∈ (setAt 0 (pa / 64) t).ways.toList, ∀ x, w = some x → x.line ≠ pa / 64) ∧
      (back = false → t.hostOwned = s.hostOwned ∧ ∀ w ∈ (setAt 0 (pa / 64) t).ways.toList, ∀ x, w = some x → x.line = pa / 64 → x.dirty = false) := by
  cases back with
  | true =>
    refine ⟨_, snoop_takesBack h s, rfl, rfl, rfl, fun _ => ⟨by simp, fun w hw x hx => ?_⟩, fun e => absurd e (by decide)⟩
    subst hx
    rcases way_of_snoopSet hw with hl | ⟨y, hy⟩
    · exact hl
    · cases hy
  | false =>
    refine ⟨_, snoop_cleans h s, rfl, rfl, rfl, fun e => absurd e (by decide), fun _ => ⟨rfl, fun w hw x hx hl => ?_⟩⟩
    subst hx
    rcases way_of_snoopSet hw with hn | ⟨y, hy⟩
    · exact absurd hl hn
    · cases hy; rfl

/-! ## Stores of the host's to its own memory -/

theorem mem_distinct {x : Nat} {xs : List Nat} : x ∈ distinct xs ↔ x ∈ xs := by
  induction xs with
  | nil => rfl
  | cons y ys ih =>
    simp only [distinct, List.mem_cons, List.mem_filter, ih, bne_iff_ne]
    tauto

/-- The lines that a store of the host's reaches. -/
def storedLines (pa : Nat) (bs : List (BitVec 8)) : List Nat := distinct ((memMasks (bytesWhere (fun a => regionOf a == .host) pa bs)).map fun b => b.1 / 64)

theorem mem_storedLines {pa k : Nat} {bs : List (BitVec 8)} {b : BitVec 8} (h : bs[k]? = some b) (hr : regionOf (pa + k) = .host) :
    (pa + k) / 64 ∈ storedLines pa bs := by
  refine mem_distinct.2 (List.mem_map.2 ⟨(pa + k, 0xFF), List.mem_filterMap.2 ⟨_, mem_bytesWhere h (by rw [hr]; rfl), rfl⟩, rfl⟩)

/-- The state from which the host's bytes are written: L2 has given up their lines. -/
def linesGiven (ls : List Nat) (s : State) : State :=
  ls.foldl (fun s l => snoopSet l (fun _ => none) s) (hostHas ls.contains { s with hostOwned := s.hostOwned.filter fun l => !ls.contains l })

theorem linesGiven_only (ls : List Nat) (s : State) : OnlyDies { s with hostOwned := s.hostOwned.filter fun l => !ls.contains l } (linesGiven ls s) :=
  (hostHas_only _ _).trans (foldl_only _ (fun _ _ => putSet_only _ _ _ _) _ _)

theorem linesGiven_hostOwned (ls : List Nat) (s : State) : (linesGiven ls s).hostOwned = s.hostOwned.filter fun l => !ls.contains l := by
  rw [(linesGiven_only ls s).same]

theorem linesGiven_hostStale (ls : List Nat) (s : State) : (linesGiven ls s).hostStale = s.hostStale.filter fun e => !ls.contains e.1 :=
  List.foldlRecOn (motive := fun t : State => t.hostStale = s.hostStale.filter fun e => !ls.contains e.1) ls _ rfl fun _ ht _ _ => ht

theorem hostOwnStore_eq (pa : Nat) (bs : List (BitVec 8)) (s : State) :
    hostOwnStore pa bs s = homeBytes false (bytesWhere (fun a => regionOf a == .host) pa bs) (linesGiven (storedLines pa bs) s) := rfl

theorem hostStore_effects {s : State} (hs : s.wellKept) (pa : Nat) (bs : List (BitVec 8)) :
    ∃ t, takeTurn (.hostStore pa bs) s = .next t ∧ t.me = s.me ∧
      (∀ k b, bs[k]? = some b → regionOf (pa + k) = .host → t.mem.get (pa + k) = b ∧ (pa + k) / 64 ∉ t.hostOwned ∧ ∀ e ∈ t.hostStale, e.1 ≠ (pa + k) / 64) ∧
      (∀ a, (∀ k, k < bs.length → a = pa + k → regionOf a ≠ .host) → t.mem.get a = s.mem.get a) := by
  have hmem : (linesGiven (storedLines pa bs) s).mem = s.mem := (linesGiven_only _ _).mem_eq
  have hwf : (linesGiven (storedLines pa bs) s).mem.wf = true := by rw [hmem]; exact hs.mem
  refine ⟨hostOwnStore pa bs s, rfl, ?_, fun k b hb hr => ⟨?_, ?_, fun e he => ?_⟩, fun a ha => ?_⟩
  · exact (homeBytes_me _ _ _).trans (linesGiven_only _ _).me_eq
  · rw [hostOwnStore_eq, bytesWhere_at hwf hb (by rw [hr]; rfl)]
  · rw [hostOwnStore_eq, homeBytes_hostOwned, linesGiven_hostOwned]
    simp [mem_storedLines hb hr]
  · have hfst : e.1 ∈ (staleAfter false (bytesWhere (fun a => regionOf a == .host) pa bs) (linesGiven (storedLines pa bs) s)).map Prod.fst := List.mem_map_of_mem he
    rw [staleAfter_lines, linesGiven_hostStale] at hfst
    obtain ⟨x, hx, hxe⟩ := List.mem_map.1 hfst
    intro hl
    have := (List.mem_filter.1 hx).2
    rw [hxe, hl] at this
    simp [mem_storedLines hb hr] at this
  · rw [hostOwnStore_eq, bytesWhere_other hwf fun k hk e => by simpa using ha k hk e, hmem]

/-! ## CXL.mem (R121, R366) -/

theorem countHost_only (xs : List Nat) (s : State) : OnlyDies s (countHost xs s) := foldl_only _ (fun _ _ => modDie_only _ _ _) _ _

theorem countHost_hostacc (xs : List Nat) (s : State) (d : Fin 4) :
    (countHost xs s).dies[d].hostacc = s.dies[d].hostacc + wd (xs.filter fun a => homeDie a == d.1).length := by
  have hrange : List.range 4 = [0, 1, 2, 3] := rfl
  fin_cases d <;> simp [countHost, hrange, modDie, fin]

theorem hostByte_iff {off n k : Nat} (hk : k < n) : hostByte (off + k) = true ↔ hostCovers off n k := by
  rw [hostByte, Bool.and_eq_true, decide_eq_true_iff]
  exact ⟨fun h => ⟨hk, h⟩, And.right⟩

theorem covered_iff {off n : Nat} : (hostOffsets off n).all hostByte = true ↔ ∀ k, k < n → hostCovers off n k := by
  simp only [hostOffsets, List.all_eq_true, List.forall_mem_map, List.mem_range]
  exact forall₂_congr fun k hk => hostByte_iff hk

theorem count_hostOffsets (p : Nat → Bool) (off n : Nat) : ((hostOffsets off n).filter p).length = (List.range n).countP fun k => p (off + k) := by
  rw [← List.countP_eq_length_filter, hostOffsets, List.countP_map]
  rfl

/-- A read of the host's is counted at the homes of its bytes. -/
theorem countedRead_hostacc (off n : Nat) (ls : List Loc) (s : State) (d : Fin 4) :
    (countHost (hostOffsets off n) (homeRead noCtx true ls s).2).dies[d].hostacc =
      s.dies[d].hostacc + BitVec.ofNat 64 ((List.range n).countP fun k => homeDie (off + k) == d.1) := by
  have hread : (homeRead noCtx true ls s).2.dies[d].hostacc = s.dies[d].hostacc := hostacc_apart.l2Reads d
  rw [countHost_hostacc, count_hostOffsets, hread, wd]

theorem cxlDisabled {s : State} (h : s.dies[0].stage ≠ 4) : (!cxlEnabled s) = true := by
  have : dieAt 0 s = s.dies[0] := rfl
  simp [cxlEnabled, this, h]

theorem cxlReady {s : State} (h : s.dies[0].stage = 4) : (!cxlEnabled s) = false := by
  have : dieAt 0 s = s.dies[0] := rfl
  simp [cxlEnabled, this, h]

theorem hostMemRead_disabled {s : State} (h : s.dies[0].stage ≠ 4) (off n : Nat) : exec (.hostMemRead off n) s = .next s := by
  dsimp only [exec, execHostMemRead]
  rw [if_pos (cxlDisabled h)]

theorem hostMemWrite_disabled {s : State} (h : s.dies[0].stage ≠ 4) (off : Nat) (bs : List (BitVec 8)) : exec (.hostMemWrite off bs) s = .next s := by
  dsimp only [exec, execHostMemWrite]
  rw [if_pos (cxlDisabled h)]

theorem hostMemRead_hole {s : State} (h : s.dies[0].stage = 4) {off n : Nat} (hc : ∃ k, k < n ∧ ¬hostCovers off n k) :
    exec (.hostMemRead off n) s = .next { s with hostAnswer := List.replicate n 0xFF, hostPoison := true, hostBad := false } := by
  have hall : ¬(hostOffsets off n).all hostByte = true := by
    rw [covered_iff]
    push Not
    exact hc
  dsimp only [exec, execHostMemRead]
  rw [if_neg (by simp [cxlReady h]), if_neg hall]

theorem hostMemRead_effects {s : State} (h : s.dies[0].stage = 4) {off n : Nat} (hc : ∀ k, k < n → hostCovers off n k) :
    ∃ t, exec (.hostMemRead off n) s = .next t ∧ t.hostAnswer = s.mem.getN off n ∧ t.hostPoison = false ∧ t.hostBad = false ∧ t.mem = s.mem ∧ t.me = s.me ∧
      ∀ d : Fin 4, t.dies[d].hostacc = s.dies[d].hostacc + BitVec.ofNat 64 ((List.range n).countP fun k => homeDie (off + k) == d.1) := by
  have honly := (homeRead_only noCtx true ((hostOffsets off n).map .mem) s).trans (countHost_only (hostOffsets off n) _)
  have hacc := countedRead_hostacc off n ((hostOffsets off n).map .mem) s
  have hbytes : (homeRead noCtx true ((hostOffsets off n).map .mem) s).1 = s.mem.getN off n := by
    rw [getN_eq_map, hostOffsets, homeRead]
    simp only [List.map_map]
    rfl
  dsimp only [exec, execHostMemRead]
  rw [if_neg (by simp [cxlReady h]), if_pos (covered_iff.2 hc), hbytes]
  generalize countHost (hostOffsets off n) (homeRead noCtx true ((hostOffsets off n).map .mem) s).2 = u at honly hacc ⊢
  exact ⟨_, rfl, rfl, rfl, rfl, honly.mem_eq, honly.me_eq, hacc⟩

theorem hostWrites_eq (off : Nat) (bs : List (BitVec 8)) : hostWrites off bs = bytesWhere hostByte off bs := by
  induction bs generalizing off with
  | nil => rfl
  | cons b bs ih =>
    rw [hostWrites, ih]
    by_cases h : hostByte off = true <;> simp [bytesWhere, memBytes, h]

section Where

variable {p : Nat → Bool} {pa ctx : Nat} {bs : List (BitVec 8)} {s : State} {wb : Bool}

theorem homeWrite_hostBad (xs : List ByteWrite) : (homeWrite ctx wb xs s).hostBad = s.hostBad := by
  rw [homeWrite, homeBytes_hostBad, (l2Writes_only _ _ _ _).same]

theorem writtenWhere_at (hs : s.mem.wf = true) {k : Nat} {b : BitVec 8} (h : bs[k]? = some b) (hp : p (pa + k) = true) :
    (homeWrite ctx wb (bytesWhere p pa bs) s).mem.get (pa + k) = b :=
  bytesWhere_at (by rw [(l2Writes_only _ _ _ _).mem_eq]; exact hs) h hp

theorem writtenWhere_other (hs : s.mem.wf = true) {a : Nat} (h : ∀ k, k < bs.length → a = pa + k → p a = false) :
    (homeWrite ctx wb (bytesWhere p pa bs) s).mem.get a = s.mem.get a := by
  have hl2 := (l2Writes_only ctx wb (memMasks (bytesWhere p pa bs)) s).mem_eq
  rw [homeWrite, bytesWhere_other (by rw [hl2]; exact hs) h, hl2]

end Where

theorem hostMemWrite_effects {s : State} (h : s.dies[0].stage = 4) (hs : s.wellKept) (off : Nat) (bs : List (BitVec 8)) :
    ∃ t, exec (.hostMemWrite off bs) s = .next t ∧ t.me = s.me ∧ t.hostBad = false ∧
      (∀ k b, bs[k]? = some b → hostCovers off bs.length k → t.mem.get (off + k) = b) ∧
      (∀ a, (∀ k, a = off + k → ¬hostCovers off bs.length k) → t.mem.get a = s.mem.get a) := by
  generalize hr : ({ s with hostBad := false } : State) = r
  obtain ⟨hrme, hrbad, hrmem⟩ : r.me = s.me ∧ r.hostBad = false ∧ r.mem = s.mem := by subst hr; exact ⟨rfl, rfl, rfl⟩
  have hwf : r.mem.wf = true := by rw [hrmem]; exact hs.mem
  have hme := homeWrite_me noCtx true (bytesWhere hostByte off bs) r
  have hbad := homeWrite_hostBad (ctx := noCtx) (wb := true) (s := r) (bytesWhere hostByte off bs)
  have hat {k : Nat} {b : BitVec 8} := writtenWhere_at (p := hostByte) (pa := off) (ctx := noCtx) (bs := bs) (wb := true) (k := k) (b := b) hwf
  have hother {a : Nat} := writtenWhere_other (p := hostByte) (pa := off) (ctx := noCtx) (bs := bs) (wb := true) (a := a) hwf
  dsimp only [exec, execHostMemWrite]
  rw [if_neg (by simp [cxlReady h]), hostWrites_eq, hr]
  generalize homeWrite noCtx true (bytesWhere hostByte off bs) r = v at *
  have hcount := countHost_only ((hostOffsets off bs.length).filter hostByte) v
  generalize countHost ((hostOffsets off bs.length).filter hostByte) v = u at hcount ⊢
  refine ⟨u, rfl, (hcount.me_eq.trans hme).trans hrme, ?_, fun k b hb hc => ?_, fun a ha => ?_⟩
  · rw [hcount.same]
    exact hbad.trans hrbad
  · rw [hcount.mem_eq]
    exact hat hb ((hostByte_iff hc.1).2 hc)
  · rw [hcount.mem_eq, ← hrmem]
    exact hother fun k hk e => by rw [e, ← Bool.not_eq_true, hostByte_iff hk]; exact ha k e

end Sys2Proof.Machine

namespace Sys2Proof.Claims

open Sys2Proof.Machine

/-- Settles O59: accesses through CXL.mem at stage 4 and before, snoops by the set of L2 that they leave, the CDAT object, and stores of the host's by the lines that L2 gives up before. -/
theorem hostAccesses : Obligations.HostAccesses := by
  intro s
  refine ⟨fun h => ⟨hostMemRead_disabled h, hostMemWrite_disabled h⟩,
    fun h => ⟨fun _ _ hc => hostMemRead_effects h hc, fun _ _ hc => hostMemRead_hole h hc, fun hs => hostMemWrite_effects h hs⟩,
    fun pa back => ⟨fun h => snoop_elsewhere h back s, fun h => snoop_effects h back s⟩, fun _ => rfl, hostStore_effects⟩

end Sys2Proof.Claims
end

section
/-! The staged start of a die (O55): what a reset of a die leaves, what ends each stage, and what stage 3 leaves of memory (R153, R369). -/

namespace Sys2Proof.Machine

set_option Elab.async false

open Sys2Proof.Claims Sys2Proof.Laws

/-! ## A die that is reset -/

/-- The state in which die `d` and its cores are reset, before the package's registers go with d0. -/
def dieCleared (d fails reason : Nat) (min : Bool) (s : State) : State :=
  let u := modDie d (fun _ => Claims.started fails reason min) (resetFocus d { s with cores := s.cores.map fun c => if dieOfMesh c.mesh = d then resetCore c else c })
  { u with watches := u.watches.filter fun w => dieOfMesh w.mesh != d, mailbox := recounted d u.mailbox }

theorem restartDie_eq (d fails reason : Nat) (min : Bool) (s : State) :
    restartDie d fails reason min s = if d = 0 then resetPackage (dieCleared d fails reason min s) else dieCleared d fails reason min s := rfl

/-- A part of the state that the registers of the package are not. -/
theorem restartDie_apart {α : Type} {g : State → α} (hg : ∀ u, g (resetPackage u) = g u) (d fails reason : Nat) (min : Bool) (s : State) :
    g (restartDie d fails reason min s) = g (dieCleared d fails reason min s) := by
  rw [restartDie_eq]
  split
  · exact hg _
  · rfl

theorem resetFocus_same (d : Nat) (s : State) : resetFocus d s = { s with me := (resetFocus d s).me, core := (resetFocus d s).core } := by
  unfold resetFocus
  split <;> rfl

theorem resetFocus_me (d : Nat) (s : State) : (resetFocus d s).me = if s.me.mesh / 384 = d then Strand.reset s.me.mesh s.me.sid else s.me := by
  unfold resetFocus dieOfMesh
  split <;> rfl

section Restart

variable {d : Nat} {fails reason : Nat} {min : Bool} {s : State}

theorem dieCleared_dies (d : Fin 4) : (dieCleared d.1 fails reason min s).dies = s.dies.set d (Claims.started fails reason min) := by
  rw [dieCleared, modDie_val, resetFocus_same]
  rfl

theorem restartDie_dies (d : Fin 4) : (restartDie d.1 fails reason min s).dies = s.dies.set d (Claims.started fails reason min) :=
  (restartDie_apart (fun _ => rfl) ..).trans (dieCleared_dies d)

theorem restartDie_cores : (restartDie d fails reason min s).cores = s.cores.map fun c => if dieOfMesh c.mesh = d then resetCore c else c := by
  rw [restartDie_apart (g := State.cores) fun _ => rfl, dieCleared, resetFocus_same]
  rfl

theorem restartDie_me : (restartDie d fails reason min s).me = if s.me.mesh / 384 = d then Strand.reset s.me.mesh s.me.sid else s.me :=
  (restartDie_apart (g := State.me) (fun _ => rfl) ..).trans (resetFocus_me d _)

/-- What the reset of a die leaves when it is not d0, with which the package's registers go. -/
theorem restartDie_other (h : d ≠ 0) :
    restartDie d fails reason min s = { s with
      me := (restartDie d fails reason min s).me, core := (restartDie d fails reason min s).core, cores := (restartDie d fails reason min s).cores
      dies := (restartDie d fails reason min s).dies, mailbox := recounted d s.mailbox, watches := (restartDie d fails reason min s).watches } := by
  rw [restartDie_eq, if_neg h, dieCleared, resetFocus_same]
  rfl

/-- What the reset of d0 leaves of memory and of the package's registers. -/
theorem restartDie_package :
    restartDie 0 fails reason min s = { resetPackage s with
      me := (restartDie 0 fails reason min s).me, core := (restartDie 0 fails reason min s).core, cores := (restartDie 0 fails reason min s).cores
      dies := (restartDie 0 fails reason min s).dies, watches := (restartDie 0 fails reason min s).watches } := by
  rw [restartDie_eq, if_pos rfl, dieCleared, resetFocus_same]
  rfl

end Restart

theorem strandsReset_absent {m : Nat} {t : Strand} (h : t ∈ strandsReset m) : t.life = .absent := by
  simp only [strandsReset, List.mem_cons, List.not_mem_nil, or_false] at h
  rcases h with rfl | rfl | rfl | rfl <;> rfl

theorem restartDie_restarts (d : Fin 4) (fails reason : Nat) (min : Bool) (s : State) :
    DieRestarts d.1 (Claims.started fails reason min) s (restartDie d.1 fails reason min s) where
  die := by
    rw [dieAt_val, restartDie_dies]
    exact Vector.getElem_set_self _
  others e he := by
    rw [restartDie_dies]
    exact Vector.getElem_set_ne _ _ fun h => he h.symm
  cores c hc hd := by
    rw [restartDie_cores]
    exact ⟨resetCore c, List.mem_map.2 ⟨c, hc, if_pos hd⟩, rfl, rfl, rfl, rfl, rfl, rfl, rfl, rfl, rfl, fun y hy => strandsReset_absent hy⟩
  kept c hc hd := by
    rw [restartDie_cores]
    exact List.mem_map.2 ⟨c, hc, if_neg hd⟩
  me := restartDie_me
  memory := by
    by_cases h : d.1 = 0
    · rw [h, restartDie_package]
      exact ⟨rfl, rfl, rfl, rfl⟩
    · rw [if_neg h, if_neg h, restartDie_other h]
      exact ⟨rfl, rfl, rfl, rfl⟩
  package := by
    by_cases h : d.1 = 0
    · rw [h, if_pos rfl, restartDie_package]
      exact ⟨rfl, rfl, rfl, rfl, rfl⟩
    · rw [if_neg h, restartDie_other h]
      exact ⟨rfl, rfl, rfl, rfl, rfl⟩

theorem failStart_eq (d : Fin 4) (reason : Nat) (s : State) :
    failStart d.1 reason s = restartDie d.1 (s.dies[d].fails + 1) reason (decide (2 ≤ s.dies[d].fails)) s := by
  have hthird : decide (3 ≤ s.dies[d].fails + 1) = decide (2 ≤ s.dies[d].fails) := decide_eq_decide.2 (by omega)
  rw [failStart, dieAt_val, hthird]

/-- A failed start is a reset with FAILS and REASON, and MIN at the third in a row. -/
theorem failStart_restarts (d : Fin 4) (reason : Nat) (s : State) :
    DieRestarts d.1 (Claims.started (s.dies[d].fails + 1) reason (decide (2 ≤ s.dies[d].fails))) s (failStart d.1 reason s) := by
  rw [failStart_eq]
  exact restartDie_restarts d _ _ _ s

/-! ## What an event of the start does, by the stage -/

section Stage

variable {s : State} {d : Fin 4}

theorem stageComplete_still (h : s.dies[d].min = true ∨ s.dies[d].stage = 0 ∨ 4 ≤ s.dies[d].stage ∨ s.dies[d].stageAt + 2 ^ 32 < s.dies[d].cycle) (r : StageResult) :
    exec (.stageComplete d r) s = .next s := by
  dsimp only [exec, execStageComplete]
  rw [dieAt_val, if_pos]
  rw [stageLate, decide_eq_true_iff]
  exact .inr h

theorem stageTimeout_still (h : s.dies[d].min = true ∨ s.dies[d].stage = 0 ∨ 4 ≤ s.dies[d].stage ∨ s.dies[d].cycle ≤ s.dies[d].stageAt + 2 ^ 32) :
    exec (.stageTimeout d) s = .next s := by
  dsimp only [exec, execStageTimeout]
  rw [dieAt_val, if_pos]
  rw [stageLate, Bool.not_eq_true', decide_eq_false_iff_not]
  exact .inr (h.imp_right (.imp_right (.imp_right Nat.not_lt.2)))

theorem stageTimeout_late (hm : s.dies[d].min = false) (h0 : 0 < s.dies[d].stage) (h4 : s.dies[d].stage < 4) (hl : s.dies[d].stageAt + 2 ^ 32 < s.dies[d].cycle) :
    exec (.stageTimeout d) s = .next (failStart d.1 8 s) := by
  have hd := d.isLt
  dsimp only [exec, execStageTimeout]
  rw [dieAt_val, if_neg]
  rw [stageLate, hm, Bool.not_eq_true', decide_eq_false_iff_not]
  rintro (h | h | h | h | h)
  · omega
  · cases h
  · omega
  · omega
  · exact h hl

variable (hm : s.dies[d].min = false) (h0 : 0 < s.dies[d].stage) (h4 : s.dies[d].stage < 4) (hl : s.dies[d].cycle ≤ s.dies[d].stageAt + 2 ^ 32)
include hm h0 h4 hl

/-- In a stage that runs, within its time, its event does what the stage says. -/
theorem stageComplete_runs (r : StageResult) :
    exec (.stageComplete d r) s = .next (if s.dies[d].stage = 2 then endVerifiedStage d.1 s else
      match r with
      | .failed reason => if reasonOf s.dies[d].stage reason then failStart d.1 reason s else s
      | .passed => if s.dies[d].stage = 3 then endMemoryStage d.1 s else enterStage d.1 2 s) := by
  have hd := d.isLt
  dsimp only [exec, execStageComplete]
  rw [dieAt_val]
  refine congrArg Host.Outcome.next ((if_neg ?_).trans rfl)
  rw [stageLate, hm, decide_eq_true_iff]
  rintro (h | h | h | h | h)
  · omega
  · cases h
  all_goals omega

theorem stageComplete_verified (h : s.dies[d].stage = 2) (r : StageResult) : exec (.stageComplete d r) s = .next (endVerifiedStage d.1 s) := by
  rw [stageComplete_runs hm h0 h4 hl, if_pos h]

theorem stageComplete_failed (h : s.dies[d].stage ≠ 2) (r : Nat) :
    exec (.stageComplete d (.failed r)) s = .next (if reasonOf s.dies[d].stage r then failStart d.1 r s else s) := by
  rw [stageComplete_runs hm h0 h4 hl, if_neg h]

theorem stageComplete_first (h : s.dies[d].stage = 1) : exec (.stageComplete d .passed) s = .next (enterStage d.1 2 s) := by
  rw [stageComplete_runs hm h0 h4 hl, if_neg (by omega)]
  dsimp only
  rw [if_neg (by omega)]

theorem stageComplete_memory (h : s.dies[d].stage = 3) : exec (.stageComplete d .passed) s = .next (endMemoryStage d.1 s) := by
  rw [stageComplete_runs hm h0 h4 hl, if_neg (by omega)]
  dsimp only
  rw [if_pos h]

end Stage

theorem enterStage_early {n : Nat} (h : n ≠ 4) (d : Fin 4) (s : State) :
    enterStage d.1 n s = withDie d { s.dies[d] with stage := n, stageAt := s.dies[d].cycle } s := by
  rw [enterStage, modDie_val]
  dsimp only
  rw [if_neg (fun hc => h hc.1), if_neg h]

/-! ## Stage 2 -/

theorem endVerified_passes {s : State} (hs : Config.signatureOk s.firmware = true) (hv : ¬(Config.imageVersion s.firmware).toNat < s.fuse.toNat) (d : Nat) :
    endVerifiedStage d s = enterStage d 3 s := by
  have : imageStatus s.firmware s = 0 := by rw [imageStatus, hs, Bool.not_true, if_neg Bool.false_ne_true, if_neg hv]
  simp only [endVerifiedStage, this]

theorem endVerified_unsigned {s : State} (hs : ¬Config.signatureOk s.firmware = true) (d : Nat) : endVerifiedStage d s = failStart d 1 s := by
  have : imageStatus s.firmware s = 5 := by rw [imageStatus, Bool.eq_false_iff.2 hs, Bool.not_false, if_pos rfl]
  simp only [endVerifiedStage, this]

theorem endVerified_old {s : State} (hs : Config.signatureOk s.firmware = true) (hv : (Config.imageVersion s.firmware).toNat < s.fuse.toNat) (d : Nat) :
    endVerifiedStage d s = failStart d 2 s := by
  have : imageStatus s.firmware s = 6 := by rw [imageStatus, hs, Bool.not_true, if_neg Bool.false_ne_true, if_pos hv]
  simp only [endVerifiedStage, this]

/-! ## Stage 3 -/

theorem Memory.get_filter {p : Host.Cell → Bool} {q : Nat → Bool} (hp : ∀ c, p c = q c.1) {lo : Nat} {m : Memory} (h : Memory.wfFrom lo m = true) (a : Nat) :
    Memory.get (m.filter p) a = if q a then m.get a else 0 := by
  induction m generalizing lo with
  | nil => exact (ite_self _).symm
  | cons c t ih =>
    obtain ⟨x, b⟩ := c
    simp only [Memory.wfFrom, Bool.and_eq_true, decide_eq_true_eq] at h
    obtain ⟨-, ht⟩ := h
    by_cases hx : q x = true
    · rw [List.filter_cons_of_pos (by rw [hp]; exact hx), Memory.get_cons, Memory.get_cons, ih ht]
      by_cases h1 : a < x
      · rw [if_pos h1, if_pos h1]; exact (ite_self _).symm
      · rw [if_neg h1, if_neg h1]
        by_cases h2 : a = x
        · rw [if_pos h2, if_pos h2, h2, if_pos hx]
        · rw [if_neg h2, if_neg h2]
    · rw [List.filter_cons_of_neg (by rw [hp]; exact hx), ih ht]
      by_cases h1 : a < x
      · rw [Memory.get_eq_of_below t (x + 1) a ht (by omega), Memory.get_cons x a b t, if_pos h1]
      · by_cases h2 : a = x
        · rw [h2, if_neg hx, if_neg hx]
        · rw [Memory.get_cons x a b t, if_neg h1, if_neg h2]

theorem homedDram_iff (d pa : Nat) : homedDram d pa = true ↔ (regionOf pa = .hbm ∨ regionOf pa = .lpddr) ∧ homeDie pa = d := by
  unfold homedDram
  cases regionOf pa <;> simp

theorem zeroDram_get {s : State} (hs : s.wellKept) (d a : Nat) :
    (zeroDram d s).mem.get a = if (regionOf a = .hbm ∨ regionOf a = .lpddr) ∧ homeDie a = d then 0 else s.mem.get a := by
  refine (Memory.get_filter (q := fun a => !homedDram d a) (fun _ => rfl) hs.mem a).trans ?_
  by_cases h : homedDram d a = true
  · rw [if_pos ((homedDram_iff d a).1 h), h, Bool.not_true, if_neg Bool.false_ne_true]
  · rw [if_neg (mt (homedDram_iff d a).2 h), if_pos (by simpa using h)]

theorem memoryStage_me (d : Nat) (s : State) : (memoryStage d s).me = s.me := rfl
theorem memoryStage_mem (d : Nat) (s : State) : (memoryStage d s).mem = (zeroDram d s).mem := rfl
theorem memoryStage_fuses (d : Nat) (s : State) : (memoryStage d s).fuse = s.fuse ∧ (memoryStage d s).pendingFuse = s.pendingFuse := ⟨rfl, rfl⟩
theorem memoryStage_die (d : Fin 4) (s : State) : (memoryStage d.1 s).dies[d] = { s.dies[d] with coredis := (memoryStage d.1 s).dies[d].coredis } := by
  have h : dieAt d.1 (memoryStage d.1 s) = { dieAt d.1 s with coredis := (dieAt d.1 (memoryStage d.1 s)).coredis } := by
    unfold memoryStage
    rw [dieAt_modDie]
    rfl
  rwa [dieAt_val, dieAt_val] at h

/-- A die reaches stage 4: FAILS is 0, and the fuse takes a later version that waits. -/
theorem enterStage_four (d : Fin 4) (u : State) :
    enterStage d.1 4 u = { u with
      dies := u.dies.set d { u.dies[d] with stage := 4, stageAt := u.dies[d].cycle, fails := 0 }
      fuse := if u.fuse.toNat < u.pendingFuse.toNat then u.pendingFuse else u.fuse } := by
  rw [enterStage, modDie_val]
  by_cases h : u.fuse.toNat < u.pendingFuse.toNat
  · rw [if_pos h]
    exact if_pos ⟨rfl, h⟩
  · rw [if_neg h]
    exact if_neg fun hc => h hc.2

theorem fuse_max (a b : BitVec 16) : (if a.toNat < b.toNat then b else a).toNat = max a.toNat b.toNat := by
  split
  · omega
  · omega

theorem endMemory_waits {s : State} {d : Fin 4} (h : s.dies[d].hbmDone[0] = 0 ∨ s.dies[d].hbmDone[1] = 0) : endMemoryStage d.1 s = s := by
  rw [endMemoryStage, dieAt_val]
  dsimp only
  rw [if_pos h]

theorem endMemory_runs {s : State} {d : Fin 4} (h0 : s.dies[d].hbmDone[0] ≠ 0) (h1 : s.dies[d].hbmDone[1] ≠ 0) :
    endMemoryStage d.1 s = if enabledCores d (memoryStage d s) < 16 then failStart d 6 (memoryStage d s) else enterStage d 4 (memoryStage d s) := by
  rw [endMemoryStage, dieAt_val]
  dsimp only
  rw [if_neg (not_or.2 ⟨h0, h1⟩)]

/-- Stage 3 with too few cores: the die starts again with reason 6. -/
theorem failMemory_die (d : Fin 4) (s : State) :
    dieAt d.1 (failStart d.1 6 (memoryStage d.1 s)) = Claims.started (s.dies[d].fails + 1) 6 (decide (2 ≤ s.dies[d].fails)) := by
  rw [failStart_eq, dieAt_val, restartDie_dies, memoryStage_die]
  exact Vector.getElem_set_self _

/-- Stage 3 with enough cores. -/
theorem enterMemory_effects (d : Fin 4) {s : State} (hs : s.wellKept) : let t := enterStage d.1 4 (memoryStage d.1 s)
    t.dies[d].stage = 4 ∧ t.dies[d].fails = 0 ∧ t.dies[d].stageAt = s.dies[d].cycle ∧ t.me = s.me ∧ t.fuse.toNat = max s.fuse.toNat s.pendingFuse.toNat ∧
      ∀ a, t.mem.get a = if (regionOf a = .hbm ∨ regionOf a = .lpddr) ∧ homeDie a = d.1 then 0 else s.mem.get a := by
  obtain ⟨hf, hp⟩ := memoryStage_fuses d.1 s
  have hcycle : (memoryStage d.1 s).dies[d].cycle = s.dies[d].cycle := by rw [memoryStage_die]
  rw [enterStage_four, hf, hp, hcycle]
  refine ⟨?_, ?_, ?_, memoryStage_me d.1 s, fuse_max _ _, fun a => zeroDram_get hs d.1 a⟩ <;> simp

end Sys2Proof.Machine

namespace Sys2Proof.Claims

open Sys2Proof.Machine

/-- Settles O55: each event by the stage that it meets; what starts a die again is one operation, whose effect is stated once. -/
theorem stagedStart : Obligations.StagedStart := by
  intro s d
  refine ⟨⟨_, rfl, restartDie_restarts d 0 0 false s⟩, fun h => ⟨stageComplete_still (h.imp_right (Or.imp_right .inl)), stageTimeout_still (h.imp_right (Or.imp_right .inl))⟩,
    fun h => stageComplete_still (.inr (.inr (.inr h))), fun hm h0 h4 => ⟨fun hl => ⟨fun h1 => ?_, fun h2 r => ?_, fun h3 hd => ?_, fun h3 hd0 hd1 hs => ?_, fun h3 r => ?_⟩, ?_, ?_⟩⟩
  · rw [stageComplete_first hm h0 h4 hl h1, enterStage_early (by decide)]
    refine ⟨rfl, fun r => ?_⟩
    rw [stageComplete_failed hm h0 h4 hl (by omega), h1]
    rfl
  · rw [stageComplete_verified hm h0 h4 hl h2]
    refine ⟨fun hsig hold => ?_, fun hsig => ?_, fun hsig hold => ?_⟩
    · rw [endVerified_passes hsig hold, enterStage_early (by decide)]
    · rw [endVerified_unsigned hsig]
      exact ⟨_, rfl, failStart_restarts d 1 s⟩
    · rw [endVerified_old hsig hold]
      exact ⟨_, rfl, failStart_restarts d 2 s⟩
  · rw [stageComplete_memory hm h0 h4 hl h3, endMemory_waits hd]
  · rw [stageComplete_memory hm h0 h4 hl h3, endMemory_runs hd0 hd1]
    refine ⟨fun hn => ?_, fun hn => ?_⟩
    · rw [if_neg (Nat.not_lt.2 hn)]
      exact ⟨_, rfl, enterMemory_effects d hs⟩
    · rw [if_pos hn]
      exact ⟨_, rfl, failMemory_die d s⟩
  · rw [stageComplete_failed hm h0 h4 hl (by omega), h3]
    have hreason : reasonOf 3 r = true ↔ r = 3 ∨ r = 4 ∨ r = 5 ∨ r = 7 := by simp [reasonOf, or_assoc]
    refine ⟨fun hr => ?_, fun hr => ?_⟩
    · rw [if_pos (hreason.2 hr)]
      exact ⟨_, rfl, failStart_restarts d r s⟩
    · rw [if_neg (mt hreason.1 hr)]
  · exact fun h => stageTimeout_still (.inr (.inr (.inr h)))
  · exact fun h => ⟨_, stageTimeout_late hm h0 h4 h, failStart_restarts d 8 s⟩

end Sys2Proof.Claims
end

section
/-! RESUME with a strand at hand that is not of the core at hand (O58): the strand is listed among those of the core, and is not given the contents of the core's slot. -/

namespace Sys2Proof.Machine

set_option Elab.async false

open Sys2Proof.Claims Sys2Proof.Laws

/-- The strand at hand of the counterexample: strand 0 of core 1, which runs for launch 1. -/
def strayStrand : Strand := { Strand.reset 1 0 with life := .running, launch := 1 }

/-- What slot 0 of core 0 holds: its strand 0 with 1 in every general register. -/
def slotStrand : Strand := { Strand.reset 0 0 with g := Vector.replicate 32 1 }

/-- A core whose slot 0 is complete, and whose slot 1 is empty. -/
def sealedCore : Core := { Core.reset 0 [] with slots := #v[⟨1, 0, .sealed, 0, 0, false⟩, ⟨0, 0, .empty, 0, 0, false⟩] }

/-- The image in that slot. -/
def slotImage : Image := ⟨0, 0, Core.reset 0 [slotStrand]⟩

/-- An island of which one temperature sample was taken. -/
def sampledIsland : Island := ⟨0, 0, false, 0, 0, 0, 1, Vector.replicate 8 0⟩

/-- RESUME runs, of a record at address 0 for one strand on core 0 with a budget of 32 planes and VLREQ 64, on a die at stage 4 whose islands were sampled. The strand at hand bears the number of a core
that is not the one at hand. -/
def strayResume : State :=
  { State.reset with
    me := strayStrand
    core := sealedCore
    cores := []
    mem := [(64, 32), (80, 64)]
    dies := Vector.replicate 4 { Die.reset with stage := 4, islands := Vector.replicate 12 sampledIsland }
    mailbox := { State.reset.mailbox with busy := true, running := 5 }
    images := [slotImage] }

/-- The record of the command, and the state in which it has been read. -/
def strayRecord : List Word := (readSlot 0 strayResume).1
def strayRead : State := (readSlot 0 strayResume).2

/-- The state that RESUME of the record leaves. -/
def strayResumed : State := resumeLaunch strayRecord strayRead

theorem strayRead_only : OnlyDies strayResume strayRead := homeRead_only _ _ _ _

theorem strayRead_core : coreAt 0 strayRead = sealedCore := by
  have hcore : strayRead.core = sealedCore := strayRead_only.core_eq
  rw [coreAt, hcore]
  exact if_pos rfl

theorem strayRead_image : imageAt 0 0 strayRead = some slotImage := by
  rw [imageAt, strayRead_only.same]
  rfl

theorem strayRecord_ok : recBad strayRecord = false := by decide +kernel
theorem strayRecord_cores : rectCores strayRecord = [0] := by decide +kernel
theorem strayRecord_strands : recNSTR strayRecord = 0 := by decide +kernel
theorem strayRead_ready : rectIdle strayRecord strayRead = true ∧ (dieAt 0 strayRead).stage = 4 ∧ islandReady 0 strayRead = true ∧ disabled 0 strayRead = false := by decide +kernel

/-- The slot 0 of core 0 is its newest complete one, of its latest placement. -/
theorem sealedCore_newest : NewestSlot sealedCore (fun x => x.plc = sealedCore.plc) 0 := by
  refine ⟨⟨⟨rfl, rfl, rfl⟩, rfl⟩, fun j hj => ?_⟩
  obtain ⟨⟨hsealed, -, -⟩, -⟩ := hj
  fin_cases j
  · exact le_rfl
  · cases hsealed

theorem strayRead_resumable : Resumable 0 strayRead := by
  obtain ⟨-, -, -, henabled⟩ := strayRead_ready
  refine ⟨henabled, 0, ?_⟩
  rw [strayRead_core]
  exact sealedCore_newest

/-- The stray strand is listed with core 0 before RESUME. -/
theorem strayStrand_listed : strayStrand ∈ strandsOf 0 strayRead := by
  rw [strandsOf, strayRead_only.same]
  exact List.mem_cons_self

/-- It counts among the strands that run for the launch that RESUME places. -/
theorem strayResumed_runs : ((allStrands strayResumed).any fun x => x.launch == resumedId strayRead && x.life == .running) = true := by decide +kernel

/-- It is the one strand listed with core 0 after RESUME, and its general registers still hold 0. -/
theorem strayResumed_kept : ((strandsOf 0 strayResumed).all fun z => z.g == Vector.replicate 32 0) = true := by decide +kernel

theorem not_resumed_stray : ¬Resumed strayRecord strayRead strayResumed := by
  rintro ⟨-, -, hcontents⟩
  obtain ⟨-, -, hcores⟩ := hcontents (fun m hm => by rw [strayRecord_cores, List.mem_singleton] at hm; exact hm ▸ strayRead_resumable)
    (List.any_eq_true.1 strayResumed_runs)
  have hcore := hcores 0 (by rw [strayRecord_cores]; exact List.mem_singleton_self 0) (.inl (congrArg Core.mesh strayRead_only.core_eq)) 0 slotImage
  rw [strayRead_core] at hcore
  obtain ⟨-, -, -, -, -, -, -, -, hstrands⟩ := hcore sealedCore_newest (by decide) strayRead_image
  obtain ⟨z, hz, -, -, hg, -⟩ := hstrands strayStrand strayStrand_listed (Nat.zero_le _) slotStrand rfl
  have hkept := List.all_eq_true.1 strayResumed_kept z hz
  rw [hg] at hkept
  exact absurd hkept (by decide)

/-- A RESUME that runs is carried out. -/
theorem mailboxComplete_resume {s : State} (hb : s.mailbox.busy = true) (hr : s.mailbox.running = 5) :
    exec .mailboxComplete s = .next (resumeCommand s.mailbox.latched[0] s) := by
  dsimp only [exec, execMailboxComplete]
  rw [if_pos hb, hr]
  rfl

/-- The cores of the record are there, so that the command completes. -/
theorem strayResume_completes : exec .mailboxComplete strayResume = .next strayResumed := by
  obtain ⟨hidle, hstage, hisland, -⟩ := strayRead_ready
  have hslot : ((rectCores strayRecord).any fun m => hasSlot m strayRead) = true := by
    rw [strayRecord_cores, List.any_cons, hasSlot, strayRead_core]
    rfl
  have hready : coresReady strayRecord strayRead = true := by
    have hd : dieOfMesh 0 = 0 := rfl
    simp only [coresReady, strayRecord_cores, List.all_cons, List.all_nil, shadowing, strayRead_core, hd, hstage, hisland]
    rfl
  have hresume : resumeCommand strayResume.mailbox.latched[0] strayResume = strayResumed := by
    change (if recBad strayRecord then answer 1 0 strayRead else if !rectIdle strayRecord strayRead || !(rectCores strayRecord).any fun m => hasSlot m strayRead then answer 7 0 strayRead
      else if coresReady strayRecord strayRead then resumeLaunch strayRecord strayRead else powerRect strayRecord strayRead) = _
    rw [strayRecord_ok, hidle, hslot, hready]
    rfl
  rw [mailboxComplete_resume rfl rfl]
  exact congrArg Host.Outcome.next hresume

end Sys2Proof.Machine

namespace Sys2Proof.Claims

open Sys2Proof.Machine

/-- Refutes O58: what it says that RESUME leaves of a core's strands is also said of a state whose strand at hand is none of the core at hand. There that strand is listed among the core's, but RESUME gives
the slot's contents to the strands that bear the core's number only. The counterexample does not have the form that every step keeps (O6), which this part of the statement does not ask for. -/
theorem not_mailboxCommands : ¬Obligations.MailboxCommands := by
  rintro ⟨-, hcompletes, -⟩
  obtain ⟨-, hruns⟩ := hcompletes strayResume
  obtain ⟨-, -, -, -, hresume, -⟩ := hruns rfl
  obtain ⟨-, -, hplaced⟩ := hresume rfl
  obtain ⟨hidle, hstage, hisland, -⟩ := strayRead_ready
  have hslot : ∃ m ∈ rectCores strayRecord, hasSlot m strayRead = true := by
    rw [strayRecord_cores]
    refine ⟨0, List.mem_singleton_self 0, ?_⟩
    rw [hasSlot, strayRead_core]
    rfl
  obtain ⟨-, hthere⟩ := hplaced strayRecord_ok hidle hslot
  obtain ⟨t, ht, -, -, hresumed⟩ := hthere fun m hm => by
    have hm0 : m ∈ rectCores strayRecord := hm
    rw [strayRecord_cores, List.mem_singleton] at hm0
    subst hm0
    change (dieAt (0 / 384) strayRead).stage = 4 ∧ (coreAt 0 strayRead).pwr = 0 ∧ islandReady 0 strayRead = true ∧ (coreAt 0 strayRead).shRequest = false ∧
      (coreAt 0 strayRead).shTargets = none ∧ (coreAt 0 strayRead).shWriting = none
    rw [strayRead_core]
    exact ⟨hstage, rfl, hisland, rfl, rfl, rfl⟩
  rw [strayResume_completes] at ht
  rw [← Host.Outcome.next.inj ht] at hresumed
  exact not_resumed_stray hresumed

end Sys2Proof.Claims
end

section
/-! The vector sequencer (O48), the facts: a core read after a change of it, entries of the window, which instruction retires, which is chained, and what is ready. -/

namespace Sys2Proof.Machine

set_option Elab.async false

open Sys2Proof.Claims Sys2Proof.Laws

/-! ## A core read after a change -/

/-- A core read by its number is the one at hand, one of the others, or a reset core when there is none such. -/
theorem coreAt_cases (m : Nat) (s : State) : coreAt m s = Core.reset m [] ∨ s.core.mesh = m ∨ ∃ c, s.cores.find? (fun c => c.mesh == m) = some c := by
  by_cases hm : s.core.mesh = m
  · exact .inr (.inl hm)
  · cases hc : s.cores.find? fun c => c.mesh == m with
    | none => exact .inl (by simp [coreAt, hm, hc])
    | some c => exact .inr (.inr ⟨c, rfl⟩)

theorem find_map_core {m : Nat} {f : Core → Core} (hf : ∀ c : Core, c.mesh = m → (f c).mesh = m) (cs : List Core) :
    (cs.map fun c => if c.mesh = m then f c else c).find? (fun c => c.mesh == m) = (cs.find? fun c => c.mesh == m).map f := by
  induction cs with
  | nil => rfl
  | cons c cs ih =>
    by_cases hc : c.mesh = m
    · simp [hc, hf c hc]
    · simp [hc, ih]

/-- A core after a change that keeps its number. -/
theorem coreAt_modCore {m : Nat} {f : Core → Core} {s : State} (hf : ∀ c : Core, c.mesh = m → (f c).mesh = m) (h : coreAt m s ≠ Core.reset m []) :
    coreAt m (modCore m f s) = f (coreAt m s) := by
  rcases coreAt_cases m s with h' | hm | ⟨c, hc⟩
  · exact absurd h' h
  · simp [coreAt, modCore, hm, hf]
  · by_cases hm : s.core.mesh = m
    · simp [coreAt, modCore, hm, hf]
    · simp [coreAt, modCore, hm, find_map_core hf, hc]

theorem coreAt_of_window {m : Nat} {s : State} (h : (coreAt m s).window ≠ []) : coreAt m s ≠ Core.reset m [] := fun h' => h (by rw [h']; rfl)

/-- The core that is put in the place of another, read at its number. -/
theorem coreAt_putCore {m : Nat} {c : Core} {s : State} (hc : c.mesh = m) (h : (coreAt m s).window ≠ []) : coreAt m (putCore m (some c) s) = c :=
  coreAt_modCore (fun _ _ => hc) (coreAt_of_window h)

@[simp] theorem putCore_me (m : Nat) (x : Option Core) (s : State) : (putCore m x s).me = s.me := by cases x <;> simp [putCore]
@[simp] theorem putCore_mem (m : Nat) (x : Option Core) (s : State) : (putCore m x s).mem = s.mem := by cases x <;> simp [putCore]

/-! ## Entries of the window (R174) -/

/-- An instruction in the sequencer, but for its micro-operations that wait in the window. -/
def unwaited (f : Flight) : Flight := { f with waiting := 0 }

theorem unwaited_eq {f g : Flight} (h : unwaited g = unwaited f) : g = { f with waiting := g.waiting } := by
  cases f; cases g; simp_all [unwaited]

theorem enterOne_unwaited {residents group : Nat} {all fs gs : List Flight} (h : enterOne residents group all fs = some gs) : gs.map unwaited = fs.map unwaited := by
  induction fs generalizing gs with
  | nil => cases h
  | cons f fs ih =>
    rw [enterOne] at h
    split at h
    · cases h; rfl
    · obtain ⟨r, hr, rfl⟩ := Option.map_eq_some_iff.1 h
      simp [ih hr]

/-- What enters the window changes how many micro-operations wait there, and nothing else of the sequencer. -/
theorem enterAll_unwaited (residents group n : Nat) (fs : List Flight) : (enterAll residents group n fs).map unwaited = fs.map unwaited := by
  induction n generalizing fs with
  | zero => rfl
  | succ n ih =>
    rw [enterAll]
    split
    · rfl
    next gs h => rw [ih, enterOne_unwaited h]

theorem filled_window (n : Nat) (c : Core) : (filled n c).window.map unwaited = c.window.map unwaited := enterAll_unwaited _ _ _ _

section
variable {fs gs : List Flight} (h : gs.map unwaited = fs.map unwaited)
include h

theorem length_of_unwaited : gs.length = fs.length := by simpa using congrArg List.length h

theorem getElem_of_unwaited {k : Nat} {f : Flight} (hf : fs[k]? = some f) : ∃ g, gs[k]? = some g ∧ g = { f with waiting := g.waiting } := by
  have hk : (gs.map unwaited)[k]? = (fs.map unwaited)[k]? := by rw [h]
  rw [List.getElem?_map, List.getElem?_map, hf] at hk
  obtain ⟨g, hg, hu⟩ := Option.map_eq_some_iff.1 hk
  exact ⟨g, hg, unwaited_eq hu⟩

theorem mem_of_unwaited {f : Flight} (hf : f ∈ fs) : ∃ g ∈ gs, g = { f with waiting := g.waiting } := by
  obtain ⟨k, hk⟩ := List.getElem?_of_mem hf
  obtain ⟨g, hg, hgf⟩ := getElem_of_unwaited h hk
  exact ⟨g, List.mem_of_getElem? hg, hgf⟩

/-- What does not speak of the micro-operations that wait is the same of both. -/
theorem map_of_unwaited {α : Type} {φ : Flight → α} (hφ : ∀ f, φ (unwaited f) = φ f) : gs.map φ = fs.map φ := by
  have := congrArg (List.map φ) h
  simpa [List.map_map, Function.comp_def, hφ] using this

end

/-! ## What has completed, and what retires (R173) -/

theorem flightComplete_iff {f : Flight} : flightComplete f = true ↔ flightDone f := by
  simp [flightComplete, flightDone, and_assoc]

theorem mem_retireFlights {held : List Nat} {fs : List Flight} {f : Flight} (hf : f ∈ fs) (h : ¬flightDone f) : f ∈ retireFlights held fs := by
  induction fs generalizing held with
  | nil => cases hf
  | cons x xs ih =>
    rw [retireFlights]
    rcases List.mem_cons.1 hf with rfl | hf
    · simp [mt flightComplete_iff.1 h]
    · split
      · exact ih hf
      · exact List.mem_cons_of_mem _ (ih hf)

theorem retireFlights_sublist (held : List Nat) (fs : List Flight) : (retireFlights held fs).Sublist fs := by
  induction fs generalizing held with
  | nil => exact .slnil
  | cons x xs ih =>
    rw [retireFlights]
    split
    · exact (ih _).cons x
    · exact (ih _).cons_cons x

/-- A complete instruction that has not retired stands behind one of its strand. -/
theorem retireFlights_behind {held : List Nat} {fs before after : List Flight} {g : Flight} (h : retireFlights held fs = before ++ g :: after) (hg : flightDone g) :
    g.sid ∈ held ∨ ∃ f ∈ before, f.sid = g.sid := by
  induction fs generalizing held before with
  | nil => simp [retireFlights] at h
  | cons x xs ih =>
    rw [retireFlights] at h
    split at h
    · exact ih h
    next hx =>
      cases before with
      | nil =>
        obtain ⟨rfl, -⟩ := List.cons.inj h
        exact .inl (by simpa [flightComplete_iff.2 hg] using hx)
      | cons y before =>
        obtain ⟨rfl, ht⟩ := List.cons.inj h
        rcases ih ht with hm | ⟨f, hf, hs⟩
        · rcases List.mem_cons.1 hm with hm | hm
          · exact .inr ⟨x, List.mem_cons_self, hm.symm⟩
          · exact .inl hm
        · exact .inr ⟨f, List.mem_cons_of_mem _ hf, hs⟩

theorem retireFlights_cons_undone (held : List Nat) {f : Flight} (h : ¬flightDone f) (fs : List Flight) :
    retireFlights held (f :: fs) = f :: retireFlights (f.sid :: held) fs := by
  simp [retireFlights, mt flightComplete_iff.1 h]

theorem retireFlights_undone (held : List Nat) {fs : List Flight} (h : ∀ f ∈ fs, ¬flightDone f) : retireFlights held fs = fs := by
  induction fs generalizing held with
  | nil => rfl
  | cons x xs ih =>
    obtain ⟨hx, hxs⟩ := List.forall_mem_cons.1 h
    rw [retireFlights_cons_undone held hx, ih _ hxs]

section
variable {before after : List Flight} {q : Flight} (h : ∀ f ∈ before ++ after, ¬flightDone f)
include h

/-- The one complete instruction of a window retires when no older one of its strand is there. -/
theorem retireFlights_one (hq : flightDone q) {held : List Nat} (hheld : q.sid ∉ held) (hfirst : ∀ f ∈ before, f.sid ≠ q.sid) :
    retireFlights held (before ++ q :: after) = before ++ after := by
  induction before generalizing held with
  | nil => simpa [retireFlights, flightComplete_iff.2 hq, hheld] using retireFlights_undone held h
  | cons x before ih =>
    obtain ⟨hx, hxs⟩ := List.forall_mem_cons.1 h
    obtain ⟨hne, hfirst⟩ := List.forall_mem_cons.1 hfirst
    rw [List.cons_append, retireFlights_cons_undone held hx, ih hxs (by simp [hheld, hne.symm]) hfirst]
    rfl

/-- Otherwise it stays, and so does every other one. -/
theorem retireFlights_none {held : List Nat} (hq : ¬(flightDone q ∧ q.sid ∉ held ∧ ∀ f ∈ before, f.sid ≠ q.sid)) :
    retireFlights held (before ++ q :: after) = before ++ q :: after := by
  induction before generalizing held with
  | nil =>
    have hqheld : (flightComplete q && !held.contains q.sid) = false := by
      rw [Bool.eq_false_iff]
      simpa [flightComplete_iff] using hq
    simp only [List.nil_append, retireFlights, hqheld, Bool.false_eq_true, if_false, retireFlights_undone _ (fs := after) h]
  | cons x before ih =>
    obtain ⟨hx, hxs⟩ := List.forall_mem_cons.1 h
    rw [List.cons_append, retireFlights_cons_undone held hx, ih hxs]
    · rintro ⟨hd, hheld, hfirst⟩
      obtain ⟨hne, hheld⟩ := not_or.1 (mt List.mem_cons.2 hheld)
      exact hq ⟨hd, hheld, List.forall_mem_cons.2 ⟨Ne.symm hne, hfirst⟩⟩

end

/-- An instruction's strand and place, by which the sequencer knows it. -/
def flightKey (f : Flight) : Nat × Nat := (f.sid, f.age)

theorem retiredIn_eq (before after : List Flight) : retiredIn before after = before.filter fun f => !(after.map flightKey).contains (flightKey f) := by
  unfold retiredIn
  congr 1
  funext f
  congr 1
  rw [Bool.eq_iff_iff]
  simp [flightKey]

theorem retiredIn_same {before after : List Flight} (h : ∀ f ∈ before, flightKey f ∈ after.map flightKey) : retiredIn before after = [] := by
  rw [retiredIn_eq, List.filter_eq_nil_iff]
  intro f hf
  simpa using h f hf

@[simp] theorem giveTo_nil (t : Strand) : giveTo [] t = t := rfl

theorem putScalar_sid (w : Word) (t : Strand) (r : ScalarReg) : (putScalar w t r).sid = t.sid := by cases r <;> rfl

theorem foldl_same_sid {α : Type} {f : Strand → α → Strand} (hf : ∀ t a, (f t a).sid = t.sid) (l : List α) (t : Strand) : (l.foldl f t).sid = t.sid := by
  induction l generalizing t with
  | nil => rfl
  | cons a l ih => exact (ih _).trans (hf t a)

theorem given_sid (t : Strand) (f : Flight) : (given f t).sid = t.sid := foldl_same_sid (fun _ _ => putScalar_sid _ _ _) _ _
@[simp] theorem giveTo_sid (fs : List Flight) (t : Strand) : (giveTo fs t).sid = t.sid := foldl_same_sid given_sid _ _

/-! ## Ports and chains (R176) -/

theorem portsUsed_eq (fs : List Flight) : portsUsed fs = ((fs.filter toIssue).map fun f => f.chained.length).sum := List.sum_eq_foldl.symm

theorem portsUsed_cons (f : Flight) (fs : List Flight) : portsUsed (f :: fs) = (if toIssue f then f.chained.length else 0) + portsUsed fs := by
  simp only [portsUsed_eq, List.filter_cons]
  split <;> simp

theorem portsUsed_sublist {fs gs : List Flight} (h : fs.Sublist gs) : portsUsed fs ≤ portsUsed gs := by
  rw [portsUsed_eq, portsUsed_eq]
  exact ((h.filter _).map _).sum_le_sum fun _ _ => Nat.zero_le _

/-- The ports in use hang on which instructions have groups to issue, and to what these are chained. -/
theorem portsUsed_map {fs gs : List Flight} (h : gs.map (fun f => (toIssue f, f.chained)) = fs.map (fun f => (toIssue f, f.chained))) : portsUsed gs = portsUsed fs := by
  induction fs generalizing gs with
  | nil => rw [List.map_eq_nil_iff.1 h]
  | cons f fs ih =>
    obtain ⟨g, gs, rfl, hg, hgs⟩ := List.map_eq_cons_iff.1 h
    simp only [Prod.mk.injEq] at hg
    rw [portsUsed_cons, portsUsed_cons, ih hgs, hg.1, hg.2]

/-- An instruction in the sequencer, but for its producers. -/
def unchained (f : Flight) : Flight := { f with chained := [] }

theorem chainTo_unchained (p : Flight) (all : List Flight) (n : Nat) (fs : List Flight) : (chainTo p all n fs).map unchained = fs.map unchained := by
  induction fs generalizing n with
  | nil => rfl
  | cons f fs ih =>
    cases n with
    | zero => rfl
    | succ n =>
      rw [chainTo]
      split
      · rw [List.map_cons, ih n]; rfl
      · rw [List.map_cons, ih (n + 1)]; rfl

theorem mem_chainTo {p f : Flight} {all fs : List Flight} (n : Nat) (hf : f ∈ fs) :
    f ∈ chainTo p all n fs ∨ consumes p all f = true ∧ { f with chained := p.age :: f.chained } ∈ chainTo p all n fs := by
  induction fs generalizing n with
  | nil => cases hf
  | cons x fs ih =>
    cases n with
    | zero => exact .inl hf
    | succ n =>
      rw [chainTo]
      rcases List.mem_cons.1 hf with rfl | hf
      · split
        next hx => exact .inr ⟨hx, List.mem_cons_self⟩
        · exact .inl List.mem_cons_self
      · split
        · exact (ih n hf).imp (List.mem_cons_of_mem _) fun h => ⟨h.1, List.mem_cons_of_mem _ h.2⟩
        · exact (ih (n + 1) hf).imp (List.mem_cons_of_mem _) fun h => ⟨h.1, List.mem_cons_of_mem _ h.2⟩

theorem portsUsed_chainTo (p : Flight) (all : List Flight) (n : Nat) (fs : List Flight) : portsUsed (chainTo p all n fs) ≤ portsUsed fs + n := by
  induction fs generalizing n with
  | nil => simp [chainTo, portsUsed]
  | cons f fs ih =>
    cases n with
    | zero => exact Nat.le_refl _
    | succ n =>
      rw [chainTo]
      split
      · have := ih n
        have hports : (if toIssue f then (p.age :: f.chained).length else 0) ≤ (if toIssue f then f.chained.length else 0) + 1 := by split <;> simp
        rw [portsUsed_cons, portsUsed_cons, show toIssue { f with chained := p.age :: f.chained } = toIssue f from rfl]
        dsimp only
        omega
      · have := ih (n + 1)
        rw [portsUsed_cons, portsUsed_cons]
        omega

/-! ## What is ready, and what is chosen (R175) -/

theorem sourceReady_iff {f : Flight} {e : Nat} {fs : List Flight} {r : PipeReg} :
    sourceReady f e fs r = true ↔ (isShared r = true → ∀ p ∈ olderOf f fs, p.dest = some r → flightDone p) ∧
      (isShared r = false → ∀ q, producerOf f r fs = some q → q.age ∈ f.chained ∧ (flightDone q ∨ e ≤ q.done)) := by
  unfold sourceReady
  cases hr : isShared r with
  | true => simp [flightComplete_iff, imp_iff_not_or]
  | false => cases hq : producerOf f r fs <;> simp [flightComplete_iff]

theorem readersDone_iff {f : Flight} {fs : List Flight} :
    readersDone f fs = true ↔ ∀ r, f.dest = some r → isShared r = true → ∀ p ∈ olderOf f fs, r ∈ p.srcs → flightDone p := by
  unfold readersDone
  cases hd : f.dest with
  | none => simp
  | some r =>
    simp only [Option.some.injEq, forall_eq']
    cases hr : isShared r <;> simp [flightComplete_iff, imp_iff_not_or]

theorem mem_readyOps {u : ExUnit} {c : Core} {o : MicroOp} :
    o ∈ readyOps u c ↔ ∃ f ∈ c.window, o = ⟨f.sid, f.last - f.issued, f.age⟩ ∧ f.unit = some u ∧ 0 < f.waiting ∧
      (∀ r ∈ f.srcs, sourceReady f (nextEnd (groupOfCore c) f) c.window r = true) ∧
      (nextEnd (groupOfCore c) f < f.last ∨ readersDone f c.window = true) := by
  simp only [readyOps, opReady, List.mem_map, List.mem_filter, Bool.and_eq_true, Bool.or_eq_true, beq_iff_eq, decide_eq_true_eq, List.all_eq_true]
  constructor
  · rintro ⟨f, ⟨hf, ⟨⟨hu, hw⟩, hs⟩, hr⟩, rfl⟩
    exact ⟨f, hf, rfl, hu, hw, hs, hr⟩
  · rintro ⟨f, hf, rfl, hu, hw, hs, hr⟩
    exact ⟨f, ⟨hf, ⟨⟨hu, hw⟩, hs⟩, hr⟩, rfl⟩

theorem preferred_iff {c : Core} {u : ExUnit} {a b : MicroOp} : preferred c u a b = true ↔ startsBefore (boostRank c u) a b := by
  unfold preferred startsBefore
  by_cases h : a.sid = b.sid <;> simp [h]

theorem startsBefore_irrefl (rank : Nat → Nat) (a : MicroOp) : ¬startsBefore rank a a := by unfold startsBefore; omega

/-- What is not later than something that another comes after is not later than that other. -/
theorem not_startsBefore_trans {rank : Nat → Nat} {x a b : MicroOp} (h1 : ¬startsBefore rank x a) (h2 : ¬startsBefore rank a b) : ¬startsBefore rank x b := by
  have hxa : x.sid = a.sid → rank x.sid = rank a.sid := congrArg rank
  have hab : a.sid = b.sid → rank a.sid = rank b.sid := congrArg rank
  have hxb : x.sid = b.sid → rank x.sid = rank b.sid := congrArg rank
  unfold startsBefore at *
  omega

theorem chosenOp_least {c : Core} {u : ExUnit} {ready : List MicroOp} (h : ready ≠ []) :
    ∃ o ∈ ready, chosenOp c u ready = some o ∧ ∀ x ∈ ready, ¬startsBefore (boostRank c u) x o := by
  induction ready with
  | nil => exact absurd rfl h
  | cons m t ih =>
    rw [chosenOp]
    by_cases ht : t = []
    · subst ht
      exact ⟨m, List.mem_cons_self, rfl, by simpa using startsBefore_irrefl _ m⟩
    · obtain ⟨b, hb, hc, hmin⟩ := ih ht
      simp only [hc]
      split
      next hp =>
        refine ⟨b, List.mem_cons_of_mem _ hb, rfl, List.forall_mem_cons.2 ⟨?_, hmin⟩⟩
        have := preferred_iff.1 hp
        unfold startsBefore at *
        omega
      next hp =>
        exact ⟨m, List.mem_cons_self, rfl, List.forall_mem_cons.2 ⟨startsBefore_irrefl _ m, fun x hx => not_startsBefore_trans (hmin x hx) (mt preferred_iff.2 hp)⟩⟩

end Sys2Proof.Machine
end

section
/-! The vector sequencer (O48): the micro-operation that a free unit starts (R174, R175). -/

namespace Sys2Proof.Machine

set_option Elab.async false

open Sys2Proof.Claims Sys2Proof.Laws

/-! ## Starve counts and boosts (R175) -/

/-- The count of a strand is not where the count of another one stood. -/
theorem find_starve_other {u : ExUnit} {j k : Nat} (h : k ≠ j) (xs : List Starve) :
    (xs.filter fun x => !(x.unit == u && x.sid == j)).find? (fun x => x.unit == u && x.sid == k) = xs.find? fun x => x.unit == u && x.sid == k := by
  rw [List.find?_filter]
  congr 1
  funext x
  by_cases hx : x.sid = k
  · by_cases hu : x.unit = u <;> simp [hu, hx, h]
  · simp [hx]

theorem starveOf_starved (u : ExUnit) (c : Core) (sid k : Nat) : starveOf (starved u c sid) u k = starveOf c u k + if k = sid then 1 else 0 := by
  by_cases h : k = sid
  · subst h; simp [starveOf, starved]
  · have hk : ((starved u c sid).starve.find? fun x => x.unit == u && x.sid == k) = c.starve.find? fun x => x.unit == u && x.sid == k :=
      (List.find?_cons_of_neg (by simp [Ne.symm h])).trans (find_starve_other h _)
    rw [starveOf, hk, if_neg h]
    rfl

theorem boosted_starved {u : ExUnit} {c : Core} {b : ExUnit × Nat} (h : b ∈ c.boosted) (sid : Nat) : b ∈ (starved u c sid).boosted := by
  dsimp only [starved]
  split
  · exact List.mem_append_left _ h
  · exact h

theorem boosted_starved_self {u : ExUnit} {c : Core} {sid : Nat} (h : 63 ≤ starveOf c u sid) : (u, sid) ∈ (starved u c sid).boosted := by
  dsimp only [starved]
  split
  · simp
  next hb => simpa [show 64 ≤ starveOf c u sid + 1 by omega] using hb

theorem foldl_starved_window (u : ExUnit) (ks : List Nat) (c : Core) : (ks.foldl (starved u) c).window = c.window := by
  induction ks generalizing c with
  | nil => rfl
  | cons k ks ih => exact (ih _).trans rfl

theorem foldl_starved_mesh (u : ExUnit) (ks : List Nat) (c : Core) : (ks.foldl (starved u) c).mesh = c.mesh := by
  induction ks generalizing c with
  | nil => rfl
  | cons k ks ih => exact (ih _).trans rfl

theorem starveOf_foldl_starved (u : ExUnit) {ks : List Nat} (h : ks.Nodup) (c : Core) (k : Nat) :
    starveOf (ks.foldl (starved u) c) u k = starveOf c u k + if k ∈ ks then 1 else 0 := by
  induction ks generalizing c with
  | nil => simp
  | cons j ks ih =>
    obtain ⟨hj, hks⟩ := List.nodup_cons.1 h
    rw [List.foldl_cons, ih hks, starveOf_starved]
    by_cases hk : k = j
    · subst hk; simp [hj]
    · simp [hk]

theorem boosted_foldl_starved {u : ExUnit} {c : Core} {b : ExUnit × Nat} (h : b ∈ c.boosted) (ks : List Nat) : b ∈ (ks.foldl (starved u) c).boosted := by
  induction ks generalizing c with
  | nil => exact h
  | cons k ks ih => exact ih (boosted_starved h k)

theorem boosted_of_passed {u : ExUnit} {k : Nat} {ks : List Nat} (hks : ks.Nodup) (hk : k ∈ ks) {c : Core} (h : 63 ≤ starveOf c u k) :
    (u, k) ∈ (ks.foldl (starved u) c).boosted := by
  induction ks generalizing c with
  | nil => cases hk
  | cons j ks ih =>
    obtain ⟨hj, hks⟩ := List.nodup_cons.1 hks
    rcases List.mem_cons.1 hk with rfl | hk
    · exact boosted_foldl_starved (boosted_starved_self h) ks
    · exact ih hks hk (by rw [starveOf_starved]; omega)

theorem passedOver_nodup (o : MicroOp) (ready : List MicroOp) : (passedOver o ready).Nodup := List.nodup_range.filter _

theorem mem_passedOver {o : MicroOp} {ready : List MicroOp} {k : Nat} : k ∈ passedOver o ready ↔ k < 4 ∧ k ≠ o.sid ∧ ∃ x ∈ ready, x.sid = k := by
  simp [passedOver]

/-! ## A unit starts a micro-operation -/

section
variable (u : ExUnit) (o : MicroOp) (ready : List MicroOp) (c : Core)

theorem startOp_window : (startOp u o ready c).window = modFlight o.sid o.age (Machine.started (groupOfCore c)) c.window := by
  simp [startOp, foldl_starved_window]

theorem startOp_mesh : (startOp u o ready c).mesh = c.mesh := foldl_starved_mesh _ _ _

theorem startOp_starve_self : starveOf (startOp u o ready c) u o.sid = 0 := by
  have : ((startOp u o ready c).starve.find? fun x => x.unit == u && x.sid == o.sid) = none := by
    rw [List.find?_eq_none]
    intro x hx
    simpa [imp_iff_not_or] using (List.mem_filter.1 hx).2
  simp [starveOf, this]

theorem startOp_boost_self : boostRank (startOp u o ready c) u o.sid = 4 := by
  have : (((startOp u o ready c).boosted.filter fun b => b.1 == u).findIdx? fun b => b.2 == o.sid) = none := by
    rw [List.findIdx?_eq_none_iff]
    intro b hb
    obtain ⟨hb, hu⟩ := List.mem_filter.1 hb
    have := (List.mem_filter.1 hb).2
    simp_all
  simp [boostRank, this]

variable {k : Nat} (hk : k < 4) (hne : k ≠ o.sid)
include hk hne

theorem startOp_starve : starveOf (startOp u o ready c) u k = starveOf c u k + if ∃ x ∈ ready, x.sid = k then 1 else 0 := by
  have hkept : starveOf (startOp u o ready c) u k = starveOf ((passedOver o ready).foldl (starved u) c) u k := by
    rw [starveOf, startOp, find_starve_other hne]
    rfl
  rw [hkept, starveOf_foldl_starved u (passedOver_nodup _ _)]
  simp [mem_passedOver, hk, hne]

theorem startOp_boosts (hx : ∃ x ∈ ready, x.sid = k) (h : 63 ≤ starveOf c u k) : ∃ b ∈ (startOp u o ready c).boosted, b.1 = u ∧ b.2 = k :=
  ⟨(u, k), List.mem_filter.2 ⟨boosted_of_passed (passedOver_nodup _ _) (mem_passedOver.2 ⟨hk, hne, hx⟩) h, by simp [hne]⟩, rfl, rfl⟩

end

/-! ## MICRO_OP_ISSUE -/

theorem issuedCore_none {u : ExUnit} {c : Core} (h : readyOps u c = [] ∨ ∃ f ∈ c.window, f.unit = some u ∧ f.running ≠ none) (n : Nat) (p : MicroOp → Bool) :
    issuedCore u n p c = none := by
  rcases h with h | ⟨f, hf, hu, hr⟩
  · simp [issuedCore, h, chosenOp]
  · have hbusy : unitBusy u c = true := List.any_eq_true.2 ⟨f, hf, by simp [hu, Option.isSome_iff_ne_none, hr]⟩
    simp [issuedCore, hbusy]

theorem unitFree {u : ExUnit} {c : Core} (h : ∀ f ∈ c.window, f.unit = some u → f.running = none) : unitBusy u c = false := by
  rw [unitBusy, List.any_eq_false]
  intro f hf
  by_cases hu : f.unit = some u
  · simp [h f hf hu]
  · simp [hu]

/-- The group that an instruction issues next, in terms of its elements. -/
theorem nextEnd_eq (group : Nat) (f : Flight) : nextEnd group f = if f.single = true then f.last else min f.last (f.issued + group) := rfl

/-- The core whose unit has started one of its ready micro-operations. -/
def withIssue (u : ExUnit) (n : Nat) (o : MicroOp) (c : Core) : Core := filled n (startOp u o (readyOps u c) c)

theorem withIssue_window {u : ExUnit} {n : Nat} {o : MicroOp} {c : Core} {k : Nat} {f : Flight} (hf : c.window[k]? = some f) :
    ∃ g, (withIssue u n o c).window[k]? = some g ∧ g = if f.sid = o.sid ∧ f.age = o.age
      then { f with groups := f.groups + 1, issued := nextEnd (groupOfCore c) f, running := some (nextEnd (groupOfCore c) f), waiting := g.waiting } else { f with waiting := g.waiting } := by
  have hstart : (startOp u o (readyOps u c) c).window[k]? = some (if f.sid = o.sid ∧ f.age = o.age then Machine.started (groupOfCore c) f else f) := by
    rw [startOp_window, modFlight, List.getElem?_map, hf]
    rfl
  obtain ⟨g, hg, hgf⟩ := getElem_of_unwaited (filled_window n _) hstart
  refine ⟨g, hg, ?_⟩
  split at hgf
  next h => exact hgf.trans (if_pos h).symm
  next h => exact hgf.trans (if_neg h).symm

theorem microOpIssue_stays {s : State} {m : Nat} {u : ExUnit} (h : readyOps u (coreAt m s) = [] ∨ ∃ f ∈ (coreAt m s).window, f.unit = some u ∧ f.running ≠ none) (k : Nat) :
    exec (.microOpIssue m u k) s = .next s := by
  dsimp only [exec, execMicroOpIssue]
  rw [issuedCore_none h]
  rfl

theorem microOpIssue_eq {s : State} {m : Nat} {u : ExUnit} {o : MicroOp} (hfree : ∀ f ∈ (coreAt m s).window, f.unit = some u → f.running = none)
    (ho : chosenOp (coreAt m s) u (readyOps u (coreAt m s)) = some o) (k : Nat) :
    exec (.microOpIssue m u k) s = .next (putCore m (if o.sid = k then some (withIssue u (residentCount m s) o (coreAt m s)) else none) s) := by
  dsimp only [exec, execMicroOpIssue]
  simp [issuedCore, unitFree hfree, ho, withIssue]

theorem window_of_ready {u : ExUnit} {c : Core} (h : readyOps u c ≠ []) : c.window ≠ [] := by
  rintro hw
  exact h (by simp [readyOps, hw])

/-- A free unit for which something stands ready starts what no other comes before, and no other strand's. -/
theorem microOpIssue_chooses {s : State} {m : Nat} {u : ExUnit} (hr : readyOps u (coreAt m s) ≠ []) (hfree : ∀ f ∈ (coreAt m s).window, f.unit = some u → f.running = none) :
    ∃ o ∈ readyOps u (coreAt m s), (∀ x ∈ readyOps u (coreAt m s), ¬startsBefore (boostRank (coreAt m s) u) x o) ∧ (∀ k, k ≠ o.sid → exec (.microOpIssue m u k) s = .next s) ∧
      ∃ t, exec (.microOpIssue m u o.sid) s = .next t ∧ t.me = s.me ∧ t.mem = s.mem ∧ coreAt m t = withIssue u (residentCount m s) o (coreAt m s) := by
  obtain ⟨o, ho, hchosen, hleast⟩ := chosenOp_least (c := coreAt m s) (u := u) hr
  refine ⟨o, ho, hleast, fun k hk => ?_, _, microOpIssue_eq hfree hchosen o.sid, putCore_me _ _ _, putCore_mem _ _ _, ?_⟩
  · rw [microOpIssue_eq hfree hchosen, if_neg hk.symm]
    rfl
  · rw [if_pos rfl]
    exact coreAt_putCore ((startOp_mesh u o _ _).trans (coreAt_mesh m s)) (window_of_ready hr)

end Sys2Proof.Machine
end

section
/-! The vector sequencer (O48): the end of an element group (R167, R173, R174, R176). -/

namespace Sys2Proof.Machine

set_option Elab.async false

open Sys2Proof.Claims Sys2Proof.Laws

/-! ## The window in which a group has completed -/

/-- The window with the group of an instruction at its end, and its consumers chained to it. -/
def endedWindow (p : Flight) (fs : List Flight) : List Flight :=
  let fs1 := modFlight p.sid p.age groupDone fs
  if p.groups = 1 then chainTo p fs1 (chainPorts - portsUsed fs1) fs1 else fs1

theorem completeGroup_eq (p : Flight) (fs : List Flight) : completeGroup p fs = retireFlights [] (endedWindow p fs) := rfl

/-- An instruction but for its micro-operations that wait and its producers is what the group's end makes of it. -/
theorem endedWindow_unchained (p : Flight) (fs : List Flight) : (endedWindow p fs).map unchained = (modFlight p.sid p.age groupDone fs).map unchained := by
  dsimp only [endedWindow]
  split
  · exact chainTo_unchained _ _ _ _
  · rfl

theorem mem_endedWindow {p f : Flight} {fs : List Flight} (hf : f ∈ modFlight p.sid p.age groupDone fs) :
    ∃ g ∈ endedWindow p fs, g = { f with chained := g.chained } ∧ (g.chained = f.chained ∨ p.groups = 1 ∧ f.sid = p.sid ∧ p.age < f.age ∧ g.chained = p.age :: f.chained) := by
  dsimp only [endedWindow]
  split
  next hp =>
    rcases mem_chainTo (p := p) (all := modFlight p.sid p.age groupDone fs) (chainPorts - portsUsed (modFlight p.sid p.age groupDone fs)) hf with hg | ⟨hc, hg⟩
    · exact ⟨f, hg, rfl, .inl rfl⟩
    · have hcon : f.sid = p.sid ∧ p.age < f.age := by
        simp only [consumes, Bool.and_eq_true, beq_iff_eq, decide_eq_true_eq] at hc
        exact hc.1.1.1
      exact ⟨_, hg, rfl, .inr ⟨hp, hcon.1, hcon.2, rfl⟩⟩
  · exact ⟨f, hf, rfl, .inl rfl⟩

theorem portsUsed_endedWindow (p : Flight) (fs : List Flight) : portsUsed (endedWindow p fs) ≤ max 4 (portsUsed fs) := by
  have hdone : portsUsed (modFlight p.sid p.age groupDone fs) = portsUsed fs := by
    apply portsUsed_map
    rw [modFlight, List.map_map]
    refine List.map_congr_left fun f _ => ?_
    dsimp only [Function.comp_apply]
    split <;> rfl
  dsimp only [endedWindow]
  split
  · have := portsUsed_chainTo p (modFlight p.sid p.age groupDone fs) (chainPorts - portsUsed (modFlight p.sid p.age groupDone fs)) (modFlight p.sid p.age groupDone fs)
    rw [hdone] at *
    unfold chainPorts at *
    omega
  · omega

/-! ## ELEMENT_GROUP_COMPLETE -/

/-- The window that the end of a group leaves, with what enters it then, and what of the window has retired. -/
def leftWindow (residents : Nat) (p : Flight) (c : Core) : List Flight := enterAll residents (groupOfCore c) windowSize (completeGroup p c.window)

theorem leftWindow_unwaited (n : Nat) (p : Flight) (c : Core) : (leftWindow n p c).map unwaited = (completeGroup p c.window).map unwaited := enterAll_unwaited _ _ _ _

theorem retiredIn_unwaited {fs gs hs : List Flight} (h : hs.map unwaited = gs.map unwaited) : retiredIn fs hs = retiredIn fs gs := by
  rw [retiredIn_eq, retiredIn_eq, map_of_unwaited (φ := flightKey) h fun _ => rfl]

/-- What retires with the end of a group, and the core and the state in which it has ended. -/
def retiredWith (p : Flight) (c : Core) : List Flight := retiredIn c.window (completeGroup p c.window)
def endedCore (residents : Nat) (p : Flight) (c : Core) : Core := { c with window := leftWindow residents p c, strands := c.strands.map (giveTo (retiredWith p c)) }
def groupEndedAt (m : Nat) (p : Flight) (s : State) : State :=
  giveMe m (coreAt m s).window (putCore m (some (endedCore (residentCount m s) p (coreAt m s))) s)

theorem groupComplete_idle {s : State} {m : Nat} {u : ExUnit} (h : ∀ f ∈ (coreAt m s).window, f.unit = some u → f.running = none) :
    exec (.elementGroupComplete m u) s = .next s := by
  have hnone : groupEnded u (residentCount m s) (coreAt m s) = none := by
    rw [groupEnded, Option.map_eq_none_iff, List.find?_eq_none]
    intro f hf
    by_cases hu : f.unit = some u
    · simp [h f hf hu]
    · simp [hu]
  dsimp only [exec, execElementGroupComplete]
  rw [hnone]
  simp only [putCore, giveMe, retiredIn_same (before := (coreAt m s).window) fun f hf => List.mem_map_of_mem hf]
  split <;> rfl

theorem groupComplete_eq {s : State} {m : Nat} {u : ExUnit} {p : Flight} (h : (coreAt m s).window.find? (fun f => f.unit == some u && f.running.isSome) = some p) :
    exec (.elementGroupComplete m u) s = .next (groupEndedAt m p s) := by
  dsimp only [exec, execElementGroupComplete, groupEnded]
  rw [h]
  rfl

section
variable {s : State} {m : Nat} {p : Flight}

@[simp] theorem giveMe_mem (m : Nat) (fs : List Flight) (s : State) : (giveMe m fs s).mem = s.mem := by
  unfold giveMe; split <;> rfl

@[simp] theorem coreAt_giveMe (k m : Nat) (fs : List Flight) (s : State) : coreAt k (giveMe m fs s) = coreAt k s := by
  unfold giveMe; split <;> rfl

theorem groupEndedAt_mem (m : Nat) (p : Flight) (s : State) : (groupEndedAt m p s).mem = s.mem := (giveMe_mem _ _ _).trans (putCore_mem _ _ _)

variable (hp : p ∈ (coreAt m s).window)
include hp

theorem coreAt_ended : coreAt m (putCore m (some (endedCore (residentCount m s) p (coreAt m s))) s) = endedCore (residentCount m s) p (coreAt m s) :=
  coreAt_putCore (coreAt_mesh m s) (List.ne_nil_of_mem hp)

theorem groupEndedAt_core : coreAt m (groupEndedAt m p s) = endedCore (residentCount m s) p (coreAt m s) := (coreAt_giveMe _ _ _ _).trans (coreAt_ended hp)

theorem groupEndedAt_window : (coreAt m (groupEndedAt m p s)).window.map unwaited = (completeGroup p (coreAt m s).window).map unwaited := by
  rw [groupEndedAt_core hp]
  exact leftWindow_unwaited _ _ _

/-- An instruction with elements to do stays in the window, its own group aside, and may be chained to the instruction whose first group ended. -/
theorem groupEndedAt_other {f : Flight} (hf : f ∈ (coreAt m s).window) (hdone : f.done < f.last) (hne : ¬(f.sid = p.sid ∧ f.age = p.age)) :
    ∃ g ∈ (coreAt m (groupEndedAt m p s)).window, g = { f with waiting := g.waiting, chained := g.chained } ∧
      (g.chained = f.chained ∨ p.groups = 1 ∧ f.sid = p.sid ∧ p.age < f.age ∧ g.chained = p.age :: f.chained) := by
  have hmod : f ∈ modFlight p.sid p.age groupDone (coreAt m s).window := List.mem_map.2 ⟨f, hf, if_neg hne⟩
  obtain ⟨g, hg, hgf, hchain⟩ := mem_endedWindow hmod
  have hundone : ¬flightDone g := by
    rintro ⟨-, -, h⟩
    rw [hgf] at h
    exact absurd h (by dsimp only; omega)
  obtain ⟨x, hx, hxg⟩ := mem_of_unwaited (groupEndedAt_window hp) (mem_retireFlights (held := []) hg hundone)
  have hxc : x.chained = g.chained := by rw [hxg]
  exact ⟨x, hx, by rw [hxg, hgf], by rw [hxc]; exact hchain⟩

/-- The instruction whose group ended, when it has more to do. -/
theorem groupEndedAt_self {n : Nat} (hn : p.running = some n) (hlast : n < p.last) :
    ∃ g ∈ (coreAt m (groupEndedAt m p s)).window, g = { p with done := n, running := none, waiting := g.waiting } := by
  have hmod : groupDone p ∈ modFlight p.sid p.age groupDone (coreAt m s).window := List.mem_map.2 ⟨p, hp, if_pos ⟨rfl, rfl⟩⟩
  have hgd : groupDone p = { p with done := n, running := none } := by simp [groupDone, hn]
  obtain ⟨g, hg, hgf, hchain⟩ := mem_endedWindow hmod
  have hself : g = groupDone p := by
    rcases hchain with hc | ⟨-, -, hage, -⟩
    · rw [hgf, hc]
    · exact absurd hage (Nat.lt_irrefl _)
  have hundone : ¬flightDone g := by
    rintro ⟨-, -, h⟩
    rw [hself, hgd] at h
    exact absurd h (by dsimp only; omega)
  obtain ⟨x, hx, hxg⟩ := mem_of_unwaited (groupEndedAt_window hp) (mem_retireFlights (held := []) hg hundone)
  exact ⟨x, hx, by rw [hxg, hself, hgd]⟩

theorem groupEndedAt_ports : portsUsed (coreAt m (groupEndedAt m p s)).window ≤ max 4 (portsUsed (coreAt m s).window) := by
  rw [portsUsed_map (map_of_unwaited (groupEndedAt_window hp) fun _ => rfl)]
  exact (portsUsed_sublist (retireFlights_sublist _ _)).trans (portsUsed_endedWindow _ _)

theorem groupEndedAt_behind {before after : List Flight} {g : Flight} (h : (coreAt m (groupEndedAt m p s)).window = before ++ g :: after) (hg : flightDone g) :
    ∃ f ∈ before, f.sid = g.sid := by
  have hw := groupEndedAt_window hp
  rw [h, List.map_append, List.map_cons] at hw
  obtain ⟨b, rest, hsplit, hb, hrest⟩ := List.map_eq_append_iff.1 hw.symm
  obtain ⟨x, a, rfl, hx, -⟩ := List.map_eq_cons_iff.1 hrest
  have hxg := unwaited_eq hx.symm
  have hdone : flightDone x := by rw [hxg] at hg; exact hg
  rcases retireFlights_behind (hsplit ▸ (completeGroup_eq p _).symm) hdone with hn | ⟨f, hf, hs⟩
  · cases hn
  · obtain ⟨y, hy, hyf⟩ := mem_of_unwaited hb.symm hf
    exact ⟨y, hy, by rw [hyf, hxg]; exact hs⟩

end

/-! ## What retires gives its strand its results (R173) -/

theorem insertStrand_map {f : Strand → Strand} (hf : ∀ t, (f t).sid = t.sid) (x : Strand) (ts : List Strand) : insertStrand (f x) (ts.map f) = (insertStrand x ts).map f := by
  induction ts with
  | nil => rfl
  | cons y ts ih =>
    simp only [List.map_cons, insertStrand, hf]
    split
    · rfl
    · rw [List.map_cons, ih]

theorem find_map_sid {f : Strand → Strand} (hf : ∀ t, (f t).sid = t.sid) (k : Nat) (ts : List Strand) : (ts.map f).find? (fun t => t.sid == k) = (ts.find? fun t => t.sid == k).map f := by
  rw [List.find?_map]
  simp [hf]

theorem giveMe_core (m : Nat) (fs : List Flight) (s : State) : (giveMe m fs s).core = s.core := by
  unfold giveMe; split <;> rfl

theorem strandAt_groupEnded {s : State} {m : Nat} {p : Flight} (hs : s.wellKept) (hp : p ∈ (coreAt m s).window) (k : Nat) :
    strandAt m k (groupEndedAt m p s) = (strandAt m k s).map (giveTo (retiredWith p (coreAt m s))) := by
  have hmesh : (groupEndedAt m p s).core.mesh = m ↔ s.core.mesh = m := by
    rw [groupEndedAt, giveMe_core]
    dsimp only [putCore, modCore]
    split
    next hm => exact iff_of_true (coreAt_mesh m s) hm
    · rfl
  have hstrands : (coreAt m (groupEndedAt m p s)).strands = (coreAt m s).strands.map (giveTo (retiredWith p (coreAt m s))) := by rw [groupEndedAt_core hp, endedCore]
  by_cases hm : s.core.mesh = m
  · have hme : (groupEndedAt m p s).me = giveTo (retiredWith p (coreAt m s)) s.me := by
      rw [groupEndedAt, giveMe, if_pos (by rw [putCore_me, hs.atHand, hm]), onMe, putCore_me, coreAt_ended hp]
      exact congrArg (fun fs => giveTo fs s.me) (retiredIn_unwaited (leftWindow_unwaited _ _ _))
    have hat : coreAt m s = s.core := if_pos hm
    have hat' : coreAt m (groupEndedAt m p s) = (groupEndedAt m p s).core := if_pos (hmesh.2 hm)
    rw [strandAt, strandsOf, if_pos (hmesh.2 hm), ← hat', hstrands, hme, insertStrand_map (giveTo_sid _), find_map_sid (giveTo_sid _), strandAt, strandsOf, if_pos hm, hat]
  · rw [strandAt, strandsOf, if_neg (mt hmesh.1 hm), hstrands, find_map_sid (giveTo_sid _), strandAt, strandsOf, if_neg hm]

/-! ## Which instruction retires -/

theorem flightDone_unchained {f : Flight} : flightDone (unchained f) ↔ flightDone f := Iff.rfl

theorem flightKey_unchained {gs hs : List Flight} (h : gs.map unchained = hs.map unchained) : gs.map flightKey = hs.map flightKey := by
  have := congrArg (List.map flightKey) h
  rwa [List.map_map, List.map_map] at this

theorem undone_unchained {gs hs : List Flight} (h : gs.map unchained = hs.map unchained) (hu : ∀ f ∈ hs, ¬flightDone f) : ∀ g ∈ gs, ¬flightDone g := by
  intro g hg
  obtain ⟨f, hf, he⟩ := List.mem_map.1 (h ▸ List.mem_map_of_mem hg : unchained g ∈ hs.map unchained)
  rw [← flightDone_unchained, ← he]
  exact hu f hf

theorem apart_of_keys {gs hs : List Flight} (h : gs.map flightKey = hs.map flightKey) (k : Nat) : (∀ g ∈ gs, g.sid ≠ k) ↔ ∀ f ∈ hs, f.sid ≠ k := by
  have hkeys (l : List Flight) : (∀ f ∈ l, f.sid ≠ k) ↔ ∀ x ∈ l.map flightKey, x.1 ≠ k := by simp [flightKey]
  rw [hkeys, hkeys, h]

theorem groupDone_done {p : Flight} {n : Nat} (hn : p.running = some n) : flightDone (groupDone p) ↔ 0 < p.groups ∧ p.last ≤ n := by
  simp [flightDone, groupDone, hn]

section
variable {p : Flight} {fs before after : List Flight} (hfs : fs = before ++ p :: after) (h : ∀ f ∈ before ++ after, ¬flightDone f ∧ ¬(f.sid = p.sid ∧ f.age = p.age))
include hfs h

theorem modFlight_split : modFlight p.sid p.age groupDone fs = before ++ groupDone p :: after := by
  have hkeep (l : List Flight) (hl : ∀ f ∈ l, ¬(f.sid = p.sid ∧ f.age = p.age)) : l.map (fun x => if x.sid = p.sid ∧ x.age = p.age then groupDone x else x) = l :=
    (List.map_congr_left fun x hx => if_neg (hl x hx)).trans (List.map_id _)
  rw [modFlight, hfs, List.map_append, List.map_cons, hkeep before fun f hf => (h f (List.mem_append_left _ hf)).2, hkeep after fun f hf => (h f (List.mem_append_right _ hf)).2,
    if_pos ⟨rfl, rfl⟩]

/-- The window in which the group of an instruction has ended, about that instruction. -/
theorem endedWindow_split : ∃ b q a, endedWindow p fs = b ++ q :: a ∧ (∀ f ∈ b ++ a, ¬flightDone f) ∧ b.map flightKey = before.map flightKey ∧ a.map flightKey = after.map flightKey ∧
    flightKey q = flightKey p ∧ (flightDone q ↔ flightDone (groupDone p)) := by
  have hmap := endedWindow_unchained p fs
  rw [modFlight_split hfs h, List.map_append, List.map_cons] at hmap
  obtain ⟨b, rest, hsplit, hb, hrest⟩ := List.map_eq_append_iff.1 hmap
  obtain ⟨q, a, rfl, hq, ha⟩ := List.map_eq_cons_iff.1 hrest
  have hba : (b ++ a).map unchained = (before ++ after).map unchained := by rw [List.map_append, List.map_append, hb, ha]
  refine ⟨b, q, a, hsplit, undone_unchained hba fun f hf => (h f hf).1, flightKey_unchained hb, flightKey_unchained ha, ?_, ?_⟩
  · exact (show flightKey (unchained q) = flightKey (unchained (groupDone p)) from congrArg flightKey hq)
  · rw [← flightDone_unchained, hq, flightDone_unchained]

/-- The instruction whose group ended retires when it is complete and no older one of its strand is there. -/
theorem completeGroup_retires (hd : flightDone (groupDone p)) (hfirst : ∀ f ∈ before, f.sid ≠ p.sid) : retiredIn fs (completeGroup p fs) = [p] := by
  obtain ⟨b, q, a, hw, hundone, hb, ha, hq, hdone⟩ := endedWindow_split hfs h
  have hqsid : q.sid = p.sid := congrArg Prod.fst hq
  have hleft : completeGroup p fs = b ++ a := by
    rw [completeGroup_eq, hw, retireFlights_one hundone (hdone.2 hd) List.not_mem_nil ((apart_of_keys hb _).2 (hqsid ▸ hfirst))]
  have hkeys : (b ++ a).map flightKey = (before ++ after).map flightKey := by rw [List.map_append, List.map_append, hb, ha]
  have hin (f : Flight) (hf : f ∈ before ++ after) : ¬(!((before ++ after).map flightKey).contains (flightKey f)) = true := by
    simpa only [Bool.not_eq_true', Bool.not_eq_false, List.contains_iff_mem] using List.mem_map_of_mem hf
  have hout : (!((before ++ after).map flightKey).contains (flightKey p)) = true := by
    rw [Bool.not_eq_true', Bool.eq_false_iff, ne_eq, List.contains_iff_mem, List.mem_map]
    rintro ⟨f, hf, hk⟩
    exact (h f hf).2 (Prod.mk.inj hk)
  rw [retiredIn_eq, hleft, hkeys, hfs, List.filter_append, List.filter_eq_nil_iff.2 fun f hf => hin f (List.mem_append_left _ hf),
    List.filter_cons, if_pos hout, List.filter_eq_nil_iff.2 fun f hf => hin f (List.mem_append_right _ hf)]
  rfl

/-- Otherwise nothing retires. -/
theorem completeGroup_keeps (hd : ¬(flightDone (groupDone p) ∧ ∀ f ∈ before, f.sid ≠ p.sid)) : retiredIn fs (completeGroup p fs) = [] := by
  obtain ⟨b, q, a, hw, hundone, hb, ha, hq, hdone⟩ := endedWindow_split hfs h
  have hqsid : q.sid = p.sid := congrArg Prod.fst hq
  have hleft : completeGroup p fs = b ++ q :: a := by
    rw [completeGroup_eq, hw, retireFlights_none hundone]
    rintro ⟨hqd, -, hfirst⟩
    exact hd ⟨hdone.1 hqd, (apart_of_keys hb _).1 (hqsid ▸ hfirst)⟩
  have hkeys : (b ++ q :: a).map flightKey = fs.map flightKey := by rw [hfs, List.map_append, List.map_append, List.map_cons, List.map_cons, hb, ha, hq]
  exact retiredIn_same fun f hf => by rw [hleft, hkeys]; exact List.mem_map_of_mem hf

end

/-! ## The results that a strand is given -/

theorem giveTo_one (p : Flight) (x : Strand) : giveTo [p] x = if p.sid = x.sid then given p x else x := by
  by_cases h : p.sid = x.sid <;> simp [giveTo, h]

theorem sid_of_strandAt {m k : Nat} {s : State} {x : Strand} (h : strandAt m k s = some x) : x.sid = k := by simpa using List.find?_some h

section
variable {s : State} {m : Nat} {p : Flight} {before after : List Flight} {n : Nat} (hs : s.wellKept) (hn : p.running = some n) (hfs : (coreAt m s).window = before ++ p :: after)
  (h : ∀ f ∈ before ++ after, ¬flightDone f ∧ ¬(f.sid = p.sid ∧ f.age = p.age))
include hs hn hfs h

omit hs hn h in
theorem mem_window_of_split : p ∈ (coreAt m s).window := by rw [hfs]; simp

theorem strandAt_kept {k : Nat} (hk : k ≠ p.sid ∨ ¬(0 < p.groups ∧ p.last ≤ n ∧ ∀ f ∈ before, f.sid ≠ p.sid)) : strandAt m k (groupEndedAt m p s) = strandAt m k s := by
  rw [strandAt_groupEnded hs (mem_window_of_split hfs), retiredWith]
  by_cases hd : flightDone (groupDone p) ∧ ∀ f ∈ before, f.sid ≠ p.sid
  · rw [completeGroup_retires hfs h hd.1 hd.2]
    have hne : k ≠ p.sid := hk.resolve_right (not_not.2 (and_assoc.1 (by rwa [← groupDone_done hn])))
    cases hx : strandAt m k s with
    | none => rfl
    | some x => rw [Option.map_some, giveTo_one, if_neg fun he => hne (he.trans (sid_of_strandAt hx)).symm]
  · rw [completeGroup_keeps hfs h hd]
    cases strandAt m k s <;> rfl

theorem strandAt_given (hd : 0 < p.groups ∧ p.last ≤ n ∧ ∀ f ∈ before, f.sid ≠ p.sid) {x : Strand} (hx : strandAt m p.sid s = some x) :
    strandAt m p.sid (groupEndedAt m p s) = some (given p x) := by
  obtain ⟨hg, hl, hfirst⟩ := hd
  rw [strandAt_groupEnded hs (mem_window_of_split hfs), retiredWith, completeGroup_retires hfs h ((groupDone_done hn).2 ⟨hg, hl⟩) hfirst, hx, Option.map_some, giveTo_one,
    if_pos (sid_of_strandAt hx).symm]

end

end Sys2Proof.Machine
end

section
/-! The vector sequencer (O48): an instruction that was performed enters it (R172, R173, R192). -/

namespace Sys2Proof.Machine

set_option Elab.async false

open Sys2Proof.Claims Sys2Proof.Laws

/-! ## The place in program order -/

theorem foldl_max_eq (l : List Nat) (b : Nat) : l.foldl max b = max b (l.foldl max 0) := by
  induction l generalizing b with
  | nil => simp
  | cons x l ih => rw [List.foldl_cons, List.foldl_cons, ih, ih (max 0 x)]; omega

theorem nextAge_append (sid : Nat) (fs gs : List Flight) : nextAge sid (fs ++ gs) = max (nextAge sid fs) (nextAge sid gs) := by
  simp only [nextAge, List.filter_append, List.map_append, List.foldl_append]
  exact foldl_max_eq _ _

theorem nextAge_one {sid : Nat} {f : Flight} (h : f.sid = sid) : nextAge sid [f] = f.age + 1 := by simp [nextAge, h]

theorem age_lt_nextAge {sid : Nat} {f : Flight} {fs : List Flight} (hf : f ∈ fs) (hs : f.sid = sid) : f.age < nextAge sid fs := by
  obtain ⟨l, r, rfl⟩ := List.append_of_mem hf
  have := nextAge_one hs
  rw [nextAge_append, ← List.singleton_append, nextAge_append]
  omega

/-! ## What the window holds of an instruction that was performed -/

/-- The instruction as it enters the sequencer, and the window with it and with the planes that it released. -/
def performedFlight (i : Instr) (u : UnitUse) (a t : State) : Flight :=
  withResults a.me t.me (renamedFlight i u a.me.sid a.me.six (performedTo a.me t.me) a.me.mode t.core.window)
def performedWindow (i : Instr) (u : UnitUse) (a t : State) : List Flight :=
  withheld a.me.sid (releasedPlanes a.me t.me) (t.core.window ++ [performedFlight i u a t])

/-- The strand and the core at hand before older instructions give the strand their results. -/
def performedState (i : Instr) (u : UnitUse) (a t : State) : State :=
  onCore (fun c => { c with window := retireFlights [] (performedWindow i u a t) }) { t with me := withoutResults (reservesOf i) a.me t.me }

section
variable {i : Instr} {u : UnitUse} {a t : State}

theorem account_performed (hu : useOf i = some u) (hcore : t.core.mesh = a.core.mesh) (hsid : t.me.sid = a.me.sid) (hlife : t.me.life = .running)
    (hh : inHandler t.me = false ∨ inHandler a.me = true) (hpc : t.me.pc ≠ a.me.pc) :
    account (some i) a t = fillWindow t.me.mesh (giveMe t.me.mesh (performedWindow i u a t) (performedState i u a t)) := by
  have hperf : performed a.me t.me = true := by simp [performed, hpc]
  have hcond : ¬(t.core.mesh ≠ a.core.mesh ∨ t.me.sid ≠ a.me.sid) := by simp [hcore, hsid]
  have hrun : ¬(t.me.life != .running) = true := by simp [hlife]
  have hhand : ¬(inHandler t.me && !inHandler a.me) = true := by rcases hh with h | h <;> simp [h]
  dsimp only [account]
  rw [if_neg hcond, if_neg hrun, if_neg hhand]
  simp only [hu, Option.filter_some, hperf, if_true]
  rfl

theorem mem_performedWindow : { performedFlight i u a t with frees := releasedPlanes a.me t.me } ∈ performedWindow i u a t := by
  have hage : (performedFlight i u a t).age + 1 = nextAge a.me.sid (t.core.window ++ [performedFlight i u a t]) := by
    rw [nextAge_append, nextAge_one (sid := a.me.sid) (f := performedFlight i u a t) rfl]
    exact (Nat.max_eq_right (Nat.le_succ _)).symm
  exact List.mem_map.2 ⟨performedFlight i u a t, by simp, if_pos ⟨rfl, hage⟩⟩

/-- What stands in the window with the instruction stood there before it, but for the planes that it holds back. -/
theorem performedWindow_cases {f : Flight} (hf : f ∈ performedWindow i u a t) :
    (∃ p ∈ t.core.window, f = { p with frees := f.frees }) ∨ f = { performedFlight i u a t with frees := f.frees } := by
  obtain ⟨p, hp, rfl⟩ := List.mem_map.1 hf
  rcases List.mem_append.1 hp with hp | hp
  · refine .inl ⟨p, hp, ?_⟩
    split <;> rfl
  · obtain rfl := List.mem_singleton.1 hp
    refine .inr ?_
    split <;> rfl

/-- Nothing of its strand retires with it while the older instructions of the strand are not complete. -/
theorem performedWindow_undone (h : ∀ p ∈ t.core.window, p.sid = a.me.sid → ¬flightDone p) {f : Flight} (hf : f ∈ performedWindow i u a t) (hx : u.unit.isSome = true) (hs : f.sid = a.me.sid) :
    ¬flightDone f := by
  rcases performedWindow_cases hf with ⟨p, hp, he⟩ | he
  · rw [he] at hs ⊢
    exact h p hp hs
  · rw [he]
    rintro ⟨hg, -⟩
    have hgroups : (performedFlight i u a t).groups = 0 := by
      obtain ⟨x, hx⟩ := Option.isSome_iff_exists.1 hx
      simp [performedFlight, withResults, renamedFlight, hx]
    exact absurd hg (by rw [hgroups]; exact Nat.lt_irrefl 0)

end

theorem done_of_retiredIn {fs : List Flight} {f : Flight} (h : f ∈ retiredIn fs (retireFlights [] fs)) : flightDone f := by
  rw [retiredIn_eq] at h
  obtain ⟨hf, hk⟩ := List.mem_filter.1 h
  by_contra hd
  rw [Bool.not_eq_true', Bool.eq_false_iff, ne_eq, List.contains_iff_mem] at hk
  exact hk (List.mem_map_of_mem (mem_retireFlights hf hd))

theorem giveTo_others {fs : List Flight} {t : Strand} (h : ∀ f ∈ fs, f.sid ≠ t.sid) : giveTo fs t = t := by
  rw [giveTo, List.filter_eq_nil_iff.2 fun f hf => by simpa using h f hf]
  rfl

/-! ## The strand without the results that wait -/

theorem withoutResults_vflags (rs : List ScalarReg) (a t : Strand) : (withoutResults rs a t).vflags = a.vflags := by
  have hfold (rs : List ScalarReg) (t : Strand) : (rs.foldl (fun t r => putScalar (scalarOf a r) t r) t).vflags = t.vflags := by
    induction rs generalizing t with
    | nil => rfl
    | cons r rs ih => rw [List.foldl_cons, ih]; cases r <;> rfl
  exact hfold _ _

theorem withoutResults_sid (rs : List ScalarReg) (a t : Strand) : (withoutResults rs a t).sid = t.sid := foldl_same_sid (fun _ _ => putScalar_sid _ _ _) _ _

theorem withoutResults_g (rs : List ScalarReg) (a t : Strand) (k : Fin 32) : (withoutResults rs a t).g[k] = if .g k ∈ rs then a.g[k] else t.g[k] := by
  have hfold (rs : List ScalarReg) (t : Strand) : (rs.foldl (fun t r => putScalar (scalarOf a r) t r) t).g[k] = if .g k ∈ rs then a.g[k] else t.g[k] := by
    induction rs generalizing t with
    | nil => simp
    | cons r rs ih =>
      rw [List.foldl_cons, ih]
      cases r with
      | g j => by_cases hj : j = k <;> simp [putScalar, scalarOf, hj, Fin.val_inj, eq_comm (a := k) (b := j)]
      | f j => simp [putScalar]
  exact hfold _ _

theorem withoutResults_f (rs : List ScalarReg) (a t : Strand) (k : Fin 16) : (withoutResults rs a t).f[k] = if .f k ∈ rs then a.f[k] else t.f[k] := by
  have hfold (rs : List ScalarReg) (t : Strand) : (rs.foldl (fun t r => putScalar (scalarOf a r) t r) t).f[k] = if .f k ∈ rs then a.f[k] else t.f[k] := by
    induction rs generalizing t with
    | nil => simp
    | cons r rs ih =>
      rw [List.foldl_cons, ih]
      cases r with
      | g j => simp [putScalar]
      | f j =>
        have hback : BitVec.ofNat 32 (wd a.f[k].toNat).toNat = a.f[k] := by
          rw [wd, BitVec.toNat_ofNat, Nat.mod_eq_of_lt (a.f[k].isLt.trans (by decide)), BitVec.ofNat_toNat, BitVec.setWidth_eq]
        by_cases hj : j = k
        · subst hj; simpa [putScalar, scalarOf] using fun _ => hback
        · simp [putScalar, hj, Fin.val_inj, eq_comm (a := k) (b := j)]
  exact hfold _ _

/-! ## The state after the turn -/

section
variable {i : Instr} {u : UnitUse} {x : ExUnit} {a t : State} (hu : useOf i = some u) (hx : u.unit = some x) (hcore : t.core.mesh = a.core.mesh) (hmesh : t.me.mesh = t.core.mesh)
  (hsid : t.me.sid = a.me.sid) (hlife : t.me.life = .running) (hh : inHandler t.me = false ∨ inHandler a.me = true) (hpc : t.me.pc ≠ a.me.pc)
include hu hcore hmesh hsid hlife hh hpc

theorem account_window : (account (some i) a t).core.window.map unwaited = (retireFlights [] (performedWindow i u a t)).map unwaited := by
  have hc : (giveMe t.me.mesh (performedWindow i u a t) (performedState i u a t)).core = (performedState i u a t).core := giveMe_core _ _ _
  rw [account_performed hu hcore hsid hlife hh hpc, fillWindow, modCore, if_pos (by rw [hc]; exact hmesh.symm)]
  dsimp only
  rw [filled_window, hc]
  rfl

theorem account_me : (account (some i) a t).me = giveTo (retiredIn (performedWindow i u a t) (retireFlights [] (performedWindow i u a t))) (withoutResults (reservesOf i) a.me t.me) := by
  have hat : coreAt t.me.mesh (performedState i u a t) = (performedState i u a t).core := if_pos hmesh.symm
  rw [account_performed hu hcore hsid hlife hh hpc, fillWindow, modCore_me, giveMe, if_pos (show (performedState i u a t).me.mesh = t.me.mesh from withoutResults_mesh _ _ _), hat]
  rfl

include hx in
/-- While no older instruction of its strand is complete, its flags and results wait for it to retire. -/
theorem account_withholds (h : ∀ p ∈ t.core.window, p.sid = a.me.sid → ¬flightDone p) : (account (some i) a t).me = withoutResults (reservesOf i) a.me t.me := by
  rw [account_me hu hcore hmesh hsid hlife hh hpc]
  refine giveTo_others fun f hf hs => ?_
  have hfa : f.sid = a.me.sid := by rw [hs, withoutResults_sid, hsid]
  exact performedWindow_undone h (List.mem_of_mem_filter hf) (by simp [hx]) hfa (done_of_retiredIn hf)

include hx in
/-- The instruction in the sequencer, with the planes that it holds back. -/
theorem account_enters : ∃ f ∈ (account (some i) a t).core.window, f = { performedFlight i u a t with frees := releasedPlanes a.me t.me, waiting := f.waiting } := by
  have hundone : ¬flightDone { performedFlight i u a t with frees := releasedPlanes a.me t.me } := by
    rintro ⟨hg, -⟩
    simp [performedFlight, withResults, renamedFlight, hx] at hg
  exact mem_of_unwaited (account_window hu hcore hmesh hsid hlife hh hpc) (mem_retireFlights (held := []) mem_performedWindow hundone)

end

theorem mem_releasedPlanes {a t : Strand} {p : Nat} (ha : p ∈ usedPlanes a) (ht : p ∉ usedPlanes t) : p ∈ releasedPlanes a t := by
  simp [releasedPlanes, mem_distinct, ha, ht]

end Sys2Proof.Machine
end

section
/-! The vector sequencer and the walkers (O48): the walk of the oldest miss, and the statement. -/

namespace Sys2Proof.Machine

set_option Elab.async false

open Sys2Proof.Claims Sys2Proof.Laws

/-! ## TABLE_WALK (R31, R32) -/

section
variable {s : State} {m : Nat}

theorem tableWalk_empty (h : (coreAt m s).misses = []) (ctx : Nat) (p : Bool) (k : Access) (va : Word) : exec (.tableWalk m ctx p k va) s = .next s := by
  dsimp only [exec, execTableWalk]
  rw [h]

variable {x : Miss} {rest : List Miss} (h : (coreAt m s).misses = x :: rest)
include h

theorem tableWalk_eq (ctx : Nat) (p : Bool) (k : Access) (va : Word) :
    exec (.tableWalk m ctx p k va) s = .next (if missIs ctx p k va x then serveMiss m x (modCore m (fun c => { c with misses := rest }) s) else s) := by
  dsimp only [exec, execTableWalk]
  rw [h]

theorem tableWalk_other {ctx : Nat} {p : Bool} {k : Access} {va : Word} (hne : ¬(ctx = x.ctx ∧ p = x.priv ∧ k = x.acc ∧ va = x.va)) :
    exec (.tableWalk m ctx p k va) s = .next s := by
  rw [tableWalk_eq h, if_neg]
  intro hm
  simp only [missIs, Bool.and_eq_true, beq_iff_eq] at hm
  obtain ⟨⟨⟨h1, h2⟩, h3⟩, h4⟩ := hm
  exact hne ⟨h1.symm, h2.symm, h3.symm, h4.symm⟩

theorem tableWalk_oldest : exec (.tableWalk m x.ctx x.priv x.acc x.va) s = .next (serveMiss m x (modCore m (fun c => { c with misses := rest }) s)) := by
  rw [tableWalk_eq h, if_pos (by simp [missIs])]

end

theorem serveMiss_hit {m : Nat} {x : Miss} {s : State} (h : (tlbHit (missReq m x) x.va.toNat s).isSome = true) : serveMiss m x s = s := by
  obtain ⟨e, he⟩ := Option.isSome_iff_exists.1 h
  dsimp only [serveMiss]
  rw [he]

section
variable {m : Nat} {x : Miss} {s s1 : State} (h : tlbHit (missReq m x) x.va.toNat s = none)
include h

theorem serveMiss_fault {f : XFault} (hw : walk (missReq m x) x.va.toNat s = (.error f, s1)) : serveMiss m x s = s1 := by
  dsimp only [serveMiss]
  rw [h]
  dsimp only
  rw [hw]

variable {leaf : Word} {level entry : Nat} (hw : walk (missReq m x) x.va.toNat s = (.ok (leaf, level, entry), s1))
include hw

/-- What the walk finds is used as a load uses it when its checks permit the access of the miss. -/
theorem serveMiss_found : serveMiss m x s =
    if leafCheck (missReq m x) x.acc 0 level leaf (grantsOf (missReq m x).part s1) (descriptor (missReq m x).ctx s1).1 (leafPa level leaf x.va.toNat) = none
    then (useLeaf (missReq m x) .load level entry leaf (grantsOf (missReq m x).part s1) (descriptor (missReq m x).ctx s1).1 x.va.toNat s1).2 else s1 := by
  dsimp only [serveMiss]
  rw [h]
  dsimp only
  rw [hw]
  dsimp only
  split
  next hc => rw [if_neg (by rw [hc]; exact Option.some_ne_none _)]
  next hc => rw [if_pos hc]

end

/-- An entry has AC set when setting AC leaves it as it is. -/
theorem eq_setBit_ac {e : Word} : e = setBit e 9 true ↔ e.getLsbD 9 = true := by
  rw [← BitVec.testBit_toNat, Nat.testBit_eq_decide_div_mod_eq, decide_eq_true_iff, ← BitVec.toNat_inj, setBit, setFld, fld, field, BitVec.toNat_ofNat, Bool.toNat_true]
  have := e.isLt
  omega

/-- A leaf with AC set is used as it is; another one when its entry may be written. -/
theorem useLeaf_load (rq : Req) (level entry : Nat) (leaf : Word) (gs : List Grant) (desc : Word) (va : Nat) (s : State) :
    (useLeaf rq .load level entry leaf gs desc va s).2 =
      if leaf.getLsbD 9 = true ∨ granted gs true entry = true then
        modCore rq.mesh (fun c => { c with tlb := tlbFill ⟨rq.ctx, rq.part, level, pageAt level va, setBit leaf 9 true, entry, gs, desc⟩ c.tlb })
          (if leaf.getLsbD 9 = true then s else setEntry rq entry (setBit leaf 9 true) s)
      else s := by
  dsimp only [useLeaf]
  rw [show accWrites .load = false from rfl]
  simp only [Bool.false_eq_true, if_false]
  by_cases hac : leaf.getLsbD 9 = true
  · rw [if_pos (eq_setBit_ac.2 hac), if_pos (.inl hac), if_pos hac, ← eq_setBit_ac.2 hac]
  · rw [if_neg (mt eq_setBit_ac.1 hac)]
    by_cases hg : granted gs true entry = true
    · rw [if_neg (by simp [hg]), if_pos (.inr hg), if_neg hac]
    · rw [if_pos (by simp [hg]), if_neg (not_or.2 ⟨hac, hg⟩)]

end Sys2Proof.Machine

namespace Sys2Proof.Claims

open Sys2Proof.Machine Sys2Proof.Laws

/-- Settles O48: what a free unit chooses is least among what is ready, a group's end changes the window up to the micro-operations that wait there, and a walk installs what it is permitted to. -/
theorem sequencerAndWalks : Obligations.SequencerAndWalks := by
  unfold Obligations.SequencerAndWalks
  refine ⟨fun s m u hs => ⟨fun o => ?_, microOpIssue_stays, fun hr hfree => ?_⟩, fun s m u => ⟨groupComplete_idle, fun p n hp hn => ?_⟩,
    fun i u x a t hu hx hcore hmesh hsid hlife hh hpc hheld => ⟨fun h => ?_, ?_⟩, fun s m => ⟨tableWalk_empty, fun x rest hmiss => ⟨fun _ _ _ _ => tableWalk_other hmiss, fun hhit => ?_, fun hnone s1 => ⟨fun f hw => ?_, fun leaf level entry hw => ?_⟩⟩⟩⟩
  · rw [mem_readyOps]
    simp only [sourceReady_iff, readersDone_iff]
    rfl
  · obtain ⟨o, ho, hleast, hother, t, ht, hme, hmem, hcore⟩ := microOpIssue_chooses hr hfree
    refine ⟨o, t, ho, hleast, hother, ht, hme, hmem, ?_⟩
    rw [hcore]
    refine ⟨?_, startOp_starve_self _ _ _ _, startOp_boost_self _ _ _ _, fun k f hf => withIssue_window hf, fun k hk hne => startOp_starve _ _ _ _ hk hne, fun k hk hne => startOp_boosts _ _ _ _ hk hne⟩
    rw [withIssue, length_of_unwaited (filled_window _ _), startOp_window, modFlight, List.length_map]
  · have hmem : p ∈ (coreAt m s).window := List.mem_of_find?_eq_some hp
    refine ⟨groupEndedAt m p s, groupComplete_eq hp, groupEndedAt_mem m p s, fun hs before after hfs h => ⟨fun k hk => strandAt_kept hs hn hfs h hk, fun hret x hx => ?_⟩,
      fun f hf hdone hne => groupEndedAt_other hmem hf hdone hne, groupEndedAt_self hmem hn, groupEndedAt_ports hmem, fun before g after hw hg => groupEndedAt_behind hmem hw hg⟩
    have hgiven := strandAt_given hs hn hfs h hret hx
    refine ⟨fun hr => ?_, fun r v hr => ?_, fun r v hr => ?_⟩ <;> rw [hgiven, given, hr] <;> rfl
  · rw [account_withholds hu hx hcore hmesh hsid hlife hh hpc h]
    exact ⟨withoutResults_vflags _ _ _, withoutResults_g _ _ _, withoutResults_f _ _ _⟩
  · obtain ⟨f, hf, he⟩ := account_enters hu hx hcore hmesh hsid hlife hh hpc
    refine ⟨f, hf, ?_⟩
    have hnow : u.unit.isNone = false := by rw [hx]; rfl
    have hto : performedTo a.me t.me = a.me.vl := if_neg fun h => by simp [hheld] at h
    rw [he]
    refine ⟨rfl, List.map_congr_left fun r _ => by cases r <;> rfl, rfl, hx, rfl, rfl, by simp [performedFlight, withResults, renamedFlight, hnow], rfl, rfl,
      by simp [performedFlight, withResults, renamedFlight, hnow, hto], fun p hp hps => age_lt_nextAge hp hps, fun r hr => List.mem_append_left _ hr, fun hg hon => ?_,
      fun p ha ht => mem_releasedPlanes ha ht⟩
    simp [performedFlight, withResults, renamedFlight, guardReg, hg, hon]
  · rw [tableWalk_oldest hmiss, serveMiss_hit hhit]
  · rw [tableWalk_oldest hmiss, serveMiss_fault hnone hw]
  · rw [tableWalk_oldest hmiss, serveMiss_found hnone hw, useLeaf_load]
    refine ⟨fun h => ?_, fun ⟨hc, ho⟩ => ?_⟩
    · split
      next hc => rw [if_neg fun ho => h ⟨hc, ho⟩]
      · rfl
    · rw [if_pos hc, if_pos ho]
      rfl

end Sys2Proof.Claims
end

section
/-! Memory instructions element by element (O43, O44), the facts: what a run of elements comes to, the misses that it raises first, the first poisoned element, and the POISON trap. -/

namespace Sys2Proof.Machine

set_option Elab.async false

open Sys2Proof.Claims Sys2Proof.Laws

/-! ## The elements of an instruction -/

theorem elementsTo_eq_range' (stop : Nat) (t : Strand) : elementsTo stop t = List.range' t.six (min stop t.vl - t.six) := by
  rw [elementsTo, List.range_eq_range', List.map_add_range', Nat.add_zero]

/-- The elements from SIX up to a bound that does not lie above VL. -/
theorem elementsTo_upTo {stop : Nat} {t : Strand} (h : stop ≤ t.vl) : elementsTo stop t = List.range' t.six (stop - t.six) := by
  rw [elementsTo_eq_range', Nat.min_eq_left h]

theorem elementsTo_all (s : State) : elementsTo (lastOf s) s.me = List.range' s.me.six (s.me.vl - s.me.six) := by
  rw [elementsTo_eq_range', lastOf, Nat.min_eq_right (Nat.le_max_right _ _)]

theorem rest_eq_range' (s : State) : rest s = List.range' s.me.six (s.me.vl - s.me.six) := by
  rw [rest, ← elementsTo_toDo, List.filter_eq_self.2 fun _ _ => rfl]
  exact elementsTo_all s

theorem mem_toDo {act : Nat → Bool} {s : State} {e : Nat} : e ∈ toDo act s ↔ e < s.me.vl ∧ s.me.six ≤ e ∧ act e = true := by
  simp [toDo]

/-! ## Runs of elements (R39) -/

section
variable {α : Type} {f : Nat → State → Except (Word × XFault) α × State} {st : Nat → State} {acc : Access}

theorem runElements_done {x : Nat → α} {m a : Nat} (h : Accesses f a (a + m) st x) :
    runElements acc f (List.range' a m) (st a) = (⟨(List.range' a m).map x, none⟩, st (a + m)) := by
  induction m generalizing a with
  | zero => rfl
  | succ m ih =>
    have hm : a + (m + 1) = a + 1 + m := by omega
    have hrest := ih (a := a + 1) fun k h1 h2 => h k (by omega) (by omega)
    rw [List.range'_succ, runElements, h a (Nat.le_refl a) (by omega)]
    dsimp only
    rw [hrest, hm]
    rfl

/-- A run of the elements from one up to another, none of which faults. -/
theorem runElements_all {x : Nat → α} {a b : Nat} (h : Accesses f a b st x) : runElements acc f (List.range' a (b - a)) (st a) = (⟨(List.range' a (b - a)).map x, none⟩, st (max a b)) := by
  rcases Nat.le_total a b with hab | hab
  · have hb : a + (b - a) = b := by omega
    rw [runElements_done (x := x) (by rwa [hb]), hb, Nat.max_eq_right hab]
  · rw [Nat.sub_eq_zero_of_le hab, Nat.max_eq_left hab]
    rfl

theorem runElements_faults {y : Nat → α} {n a b : Nat} {va : Word} {x : XFault} {u : State} (ha : a ≤ n) (hb : n < b) (h : Accesses f a n st y) (hn : f n (st n) = (.error (va, x), u)) :
    runElements acc f (List.range' a (b - a)) (st a) = (⟨(List.range' a (n - a)).map y, some (n, elementTrap acc n va x u)⟩, u) := by
  obtain ⟨m, rfl⟩ := Nat.exists_eq_add_of_le ha
  obtain ⟨j, rfl⟩ := Nat.exists_eq_add_of_lt hb
  rw [show a + m + j + 1 - a = m + (j + 1) by omega, show a + m - a = m by omega]
  clear hb ha
  induction m generalizing a with
  | zero =>
    rw [Nat.zero_add, List.range'_succ, runElements, show f a (st a) = _ from hn]
    rfl
  | succ m ih =>
    have hrest := ih (a := a + 1) (fun k h1 h2 => h k (by omega) (by omega)) (by rw [show a + 1 + m = a + (m + 1) by omega]; exact hn)
    rw [show m + 1 + (j + 1) = m + (j + 1) + 1 by omega, List.range'_succ, runElements, h a (Nat.le_refl a) (by omega)]
    dsimp only
    rw [hrest, show a + 1 + m = a + (m + 1) by omega]
    rfl

end

/-! ## The misses that are raised first (R32) -/

/-- What a miss in a core's queue does not change, the misses of some accesses do not change. -/
theorem queueMisses_same {β : Type} {g : State → β} (hg : ∀ (m : Nat) (x : Miss) (s : State), g (modCore m (fun c => { c with misses := c.misses ++ [x] }) s) = g s)
    (rq : Req) (acc : Access) (vas : List Word) (s : State) : g (queueMisses rq acc vas s) = g s := by
  unfold queueMisses
  induction vas generalizing s with
  | nil => rfl
  | cons va vas ih =>
    rw [List.foldl_cons, ih]
    dsimp only
    split
    · rfl
    · split
      · rfl
      · exact hg _ _ _

section
variable (acc : Access) (vas : Nat → List Word) (s : State)

@[simp] theorem raiseMisses_me : (raiseMisses acc vas s).me = s.me := queueMisses_same (fun _ _ _ => modCore_me _ _ _) _ _ _ _
@[simp] theorem raiseMisses_mem : (raiseMisses acc vas s).mem = s.mem := queueMisses_same (fun _ _ _ => modCore_mem _ _ _) _ _ _ _
@[simp] theorem raiseMisses_quota : (raiseMisses acc vas s).quota = s.quota := queueMisses_same (fun _ _ _ => modCore_quota _ _ _) _ _ _ _
@[simp] theorem raiseMisses_alc : (raiseMisses acc vas s).core.alc = s.core.alc :=
  queueMisses_same (g := fun s => s.core.alc) (fun m x s => by dsimp only [modCore]; split <;> rfl) _ _ _ _

@[simp] theorem raiseMisses_groupOf (e : Nat) : groupOf (raiseMisses acc vas s) e = groupStart s e := by
  simp [groupOf, groupSize, groupStart]

end

/-! ## Poison (R345) -/

/-- The search for poison finds the first poisoned element of some, with its source and mark. -/
theorem firstPoison_found {srcs : List (Fin 32 × VReg)} {es : List Nat} {e : Nat} {r : Fin 32} {m : PoisonMark} (h : FirstPoison srcs es e r m) : firstPoison srcs es = some (e, r, m) := by
  obtain ⟨before, after, rfl, hbefore, earlier, later, x, rfl, hearlier, hm⟩ := h
  have hmark : m ∈ x.poison := List.mem_of_find?_eq_some hm
  have hclean (srcs : List (Fin 32 × VReg)) (e : Nat) (h : NoPoison srcs [e]) : srcs.findSome? (fun r => (markAt r.2 e).map fun m => (e, r.1, m)) = none := by
    rw [List.findSome?_eq_none_iff]
    intro r hr
    rw [Option.map_eq_none_iff, markAt, List.find?_eq_none]
    intro m hm
    simpa using h e List.mem_cons_self r hr m hm
  have hany : ((earlier ++ (r, x) :: later).all fun r => r.2.poison.isEmpty) = false := by
    rw [List.all_eq_false]
    exact ⟨(r, x), by simp, by simpa using List.ne_nil_of_mem hmark⟩
  rw [firstPoison, hany, if_neg Bool.false_ne_true, List.findSome?_append,
    List.findSome?_eq_none_iff.2 fun j hj => hclean _ j fun k hk => by rw [List.mem_singleton.1 hk]; exact hbefore j hj,
    Option.none_or, List.findSome?_cons, List.findSome?_append, hclean _ e hearlier, Option.none_or, List.findSome?_cons, markAt, hm]
  rfl

/-- Poison that is found lies among the elements searched, in one of the sources. -/
theorem poisoned_of_firstPoison {srcs : List (Fin 32 × VReg)} {es : List Nat} {x : Nat × Fin 32 × PoisonMark} (h : firstPoison srcs es = some x) :
    x.1 ∈ es ∧ ∃ r ∈ srcs, x.2.2 ∈ r.2.poison ∧ x.2.2.seg = x.1 / 64 := by
  unfold firstPoison at h
  split at h
  · cases h
  · obtain ⟨e, he, h⟩ := List.exists_of_findSome?_eq_some h
    obtain ⟨r, hr, h⟩ := List.exists_of_findSome?_eq_some h
    obtain ⟨m, hm, rfl⟩ := Option.map_eq_some_iff.1 h
    exact ⟨he, r, hr, List.mem_of_find?_eq_some hm, by simpa using List.find?_some hm⟩

theorem mem_of_firstPoison {srcs : List (Fin 32 × VReg)} {es : List Nat} {e : Nat} {r : Fin 32} {m : PoisonMark} (h : FirstPoison srcs es e r m) : e ∈ es := by
  obtain ⟨before, after, rfl, -⟩ := h
  simp

theorem source_of_firstPoison {q r : Fin 32} {s : State} {es : List Nat} {e : Nat} {m : PoisonMark} (h : FirstPoison (named s [q]) es e r m) : r = q := by
  obtain ⟨-, -, -, -, earlier, later, x, hsrc, -⟩ := h
  have : (r, x) ∈ named s [q] := by rw [hsrc]; simp
  simpa [named] using congrArg Prod.fst (List.mem_singleton.1 this)

/-- The elements at hand of those that an instruction reads of a source. -/
theorem poisonOf_eq {s : State} (hf : Begun s) (r : Fin 32) (act : Nat → Bool) : poisonOf (src r s) act s = firstPoison (named s [r]) (toDo act s) := by
  rw [poisonOf, stopAt_begun s hf, elementsTo_toDo]
  rfl

/-- What POISON does to a strand that is in no handler. -/
theorem poisonTrap_eq {u : State} (hh : inHandler u.me = false) (cls num e : Nat) (producer : Word) : poisonTrap cls num e producer u =
    onMe (fun t => enterHandler ⟨7, 0, 0, 0, wd (Config.poisonRegister cls num), wd e, producer, 0⟩ u.me.pc { t with vflags := t.vflags ||| wd fPOISON }) u :=
  if_neg (show ¬inHandler u.me = true by simp [hh])

/-- The POISON trap of a strand in no handler, against a state with the same memory, and with the same strand but for its queue of writes, SIX and the held mapping. -/
theorem poisonTrap_taken {s u : State} (hh : inHandler u.me = false) (hme : u.me = { s.me with vwq := u.me.vwq, six := u.me.six, held := u.me.held }) (hmem : u.mem = s.mem)
    (cls num e : Nat) (producer : Word) : PoisonTrap cls num e producer u.me.six s (poisonTrap cls num e producer u) := by
  rw [poisonTrap_eq hh]
  have same {β : Type} (g : Strand → β) : g u.me = g { s.me with vwq := u.me.vwq, six := u.me.six, held := u.me.held } := congrArg g hme
  have hflags : u.me.vflags = s.me.vflags := same Strand.vflags
  exact {
    cause := by
      show fld (wd (0 % 2 ^ 19 * 2 ^ 32 + 0 % 64 * 2 ^ 16 + 0 % 256 * 2 ^ 8 + 7 % 256)) 0 8 = 7
      decide
    record := rfl
    flag := congrArg (· ||| 0x800) hflags
    entry := ⟨same Strand.pc, same Strand.tvec, rfl⟩
    place := ⟨rfl, rfl⟩
    scalars := ⟨same Strand.g, same Strand.f, same Strand.tm, same Strand.vl, same Strand.mode⟩
    memory := hmem }

/-- The same for a strand that is just as it was. -/
theorem poisonTrap_here {s u : State} (hh : inHandler s.me = false) (hme : u.me = s.me) (hmem : u.mem = s.mem) (cls num e : Nat) (producer : Word) :
    PoisonTrap cls num e producer s.me.six s (poisonTrap cls num e producer u) := by
  have := poisonTrap_taken (s := s) (u := u) (by rw [hme]; exact hh) (by rw [hme]) hmem cls num e producer
  rwa [hme] at this

section
variable {u : State} (hh : inHandler u.me = false) (cls num e : Nat) (producer : Word)
include hh

theorem poisonTrap_core : (poisonTrap cls num e producer u).core = u.core := by rw [poisonTrap_eq hh]; rfl
theorem poisonTrap_v : (poisonTrap cls num e producer u).me.v = u.me.v := by rw [poisonTrap_eq hh]; rfl
theorem poisonTrap_m : (poisonTrap cls num e producer u).me.m = u.me.m := by rw [poisonTrap_eq hh]; rfl
theorem poisonTrap_vwq : (poisonTrap cls num e producer u).me.vwq = u.me.vwq := by rw [poisonTrap_eq hh]; rfl

theorem poisonTrap_unwritten : Unwritten u (poisonTrap cls num e producer u) := by
  rw [poisonTrap_eq hh]
  exact ⟨rfl, rfl, rfl, rfl, rfl, rfl⟩

end

/-! ## A memory instruction (R336) -/

section
variable {go : Nat → State → Option TrapInfo × State} {s t : State}

theorem memoryRun_done (h : go (stopAt s) s = (none, t)) : memoryRun none go s = t := by simp [memoryRun, h]
theorem memoryRun_faults {i : TrapInfo} (h : go (stopAt s) s = (some i, t)) : memoryRun none go s = trapHere i t := by simp [memoryRun, h]

/-- Poison of an element traps when neither the groups before its own nor the elements of its group up to it fault. -/
theorem memoryRun_poison {e : Nat} {r : Fin 32} {m : PoisonMark} {t2 : State} (h1 : go (groupOf s e) s = (none, t)) (h2 : go (e + 1) t = (none, t2)) :
    memoryRun (some (e, r, m)) go s = poisonTrap 0 r.1 e m.producer t := by simp [memoryRun, h1, h2]

end

/-- Where a run that was to reach VL ends, at an element that faulted. -/
theorem runStop_fault {α : Type} (xs : List α) (n : Nat) (i : TrapInfo) (stop : Nat) : runStop (⟨xs, some (n, i)⟩ : Run α) stop = n / 64 * 64 := rfl

end Sys2Proof.Machine
end

section
/-! Vector loads (O43): the register that a run of a load's elements leaves, and where a fault leaves the strand. -/

namespace Sys2Proof.Machine

set_option Elab.async false

open Sys2Proof.Claims Sys2Proof.Laws

/-! ## The write of what was loaded -/

/-- Lanes that raise no flag. -/
theorem flags_of_none {l : Lanes} {u : State} (h : ∀ k, (l.code k).2 = 0) : 0 = l.flags u := by
  have hall (es : List Nat) : orAll (es.map fun k => (l.code k).2) = 0 := by
    induction es with
    | nil => rfl
    | cons e es ih => simpa [orAll, h e] using ih
  exact (hall _).symm

section
variable {s u : State} (h6 : u.me.six = s.me.six) (hvl : u.me.vl = s.me.vl)
include h6 hvl

theorem rest_congr : rest u = rest s := by rw [rest_eq_range', rest_eq_range', h6, hvl]

theorem badElements_congr (x : Nat → Loaded) : badElements u x = badElements s x := by rw [badElements, badElements, rest_congr h6 hvl, h6, hvl]

theorem lastOf_congr : lastOf u = lastOf s := by rw [lastOf, lastOf, h6, hvl]

end

/-- The elements that data in error poison, of those that a load has done up to VL. -/
theorem bad_upTo_vl (u : State) (x : Nat → Loaded) :
    ((((rest u).map x).flatMap fun x => x.bad).filter fun e => decide (u.me.six ≤ e) && decide (e < lastOf u) && decide (e < u.me.vl)) = badElements u x := by
  rw [List.flatMap_map, badElements]
  refine List.filter_congr fun e _ => ?_
  by_cases h : e < u.me.vl
  · simp [h, lastOf]
  · simp [h]

/-- Lanes leave a register that they leave with other scale bytes, when the blocks that they write have theirs. -/
theorem leaves_of_scale {l : Lanes} {f : Nat → Nat} {u : State} {r : VReg}
    (hf : ∀ k, k < vlmax / blockLen l.tag → u.me.six < (k + 1) * blockLen l.tag → k * blockLen l.tag < u.me.vl → f k % 256 = l.scale k % 256)
    (h : Lanes.Leaves { l with scale := f } u r) : l.Leaves u r := by
  obtain ⟨h1, h2, h3, h4, h5, h6, h7, h8, h9, h10⟩ := h
  refine ⟨h1, h2, h3, h4, h5, h6, h7, h8, h9, fun k hk => (h10 k hk).trans ?_⟩
  by_cases hlow : (k + 1) * blockLen l.tag ≤ u.me.six
  · rw [if_pos hlow, if_pos hlow]
  · rw [if_neg hlow, if_neg hlow]
    split
    next hvl => exact hf k hk (Nat.lt_of_not_le hlow) hvl
    · rfl

/-- A load that has done every element up to VL does what its Lanes say, and poisons the elements whose data were in error. -/
theorem writeLoaded_loads {l : Lanes} {u : State} {x : Nat → Loaded} {flags : Nat} (hu : Begun u) (hflags : flags = l.flags u)
    (hcode : ∀ k, u.me.six ≤ k → k < u.me.vl → (x k).code = if l.act k then some (l.code k).1 else none)
    (hscale : ∀ k, k < vlmax / blockLen l.tag → u.me.six < (k + 1) * blockLen l.tag → k * blockLen l.tag < u.me.vl →
      loadedScale (((rest u).map x).filterMap fun x => x.scale) k % 256 = l.scale k % 256) :
    Loads l (badElements u x) u (writeLoaded l.dest l.tag (lastOf u) flags ((rest u).map x) u) := by
  have hlen : (((rest u).map x).map fun x => x.code).length = u.me.vl - u.me.six := by simp [rest_eq_range']
  have htake : (((rest u).map x).map fun x => x.code).take (lastOf u - u.me.six) = ((rest u).map x).map fun x => x.code :=
    List.take_of_length_le (by rw [hlen, lastOf]; omega)
  obtain ⟨r, hr, hleaves⟩ := writeV_leaves { l with scale := loadedScale (((rest u).map x).filterMap fun x => x.scale) } u (((rest u).map x).map fun x => x.code) hu hlen (by
    intro k h1 h2
    rw [← hcode k h1 h2]
    simp [rest_eq_range', List.getD, show k - u.me.six < u.me.vl - u.me.six by omega, show u.me.six + (k - u.me.six) = k by omega])
  refine ⟨_, ?_, r, rfl, leaves_of_scale hscale hleaves⟩
  rw [writeLoaded, bad_upTo_vl, htake, hflags]
  exact congrArg _ hr

/-! ## A fault -/

theorem poisonElements_fields (d : Fin 32) (pc : Word) (es : List Nat) (s : State) :
    (poisonElements d pc es s).me.pc = s.me.pc ∧ (poisonElements d pc es s).me.six = s.me.six ∧ (poisonElements d pc es s).me.tvec = s.me.tvec := by
  unfold poisonElements
  split
  · exact ⟨rfl, rfl, rfl⟩
  · exact ⟨rfl, rfl, rfl⟩

/-- The place of the strand after an instruction that stopped at a bound below VL. -/
theorem writeV_stopped {d : Fin 32} {w : VWrite} {flags : Nat} {s : State} (h : w.stop < w.vl) (h0 : w.stop = 0 → s.me.six = 0) :
    (writeV d w flags s).me.pc = s.me.pc ∧ (writeV d w flags s).me.six = w.stop ∧ (writeV d w flags s).me.tvec = s.me.tvec := by
  have hc : w.complete = false := by simpa [VWrite.complete] using h
  dsimp only [writeV]
  rw [hc, if_neg Bool.false_ne_true]
  split
  next hz => exact ⟨rfl, (h0 hz).trans hz.symm, rfl⟩
  next hz =>
    dsimp only [clearQuota, onMe, putV, stopPart]
    rw [if_neg hz]
    exact ⟨rfl, rfl, rfl⟩

theorem writeLoaded_stopped {d : Fin 32} {tag : BitVec 16} {stop flags : Nat} {xs : List Loaded} {s : State} (h : stop < s.me.vl) (h0 : stop = 0 → s.me.six = 0) :
    (writeLoaded d tag stop flags xs s).me.pc = s.me.pc ∧ (writeLoaded d tag stop flags xs s).me.six = stop ∧ (writeLoaded d tag stop flags xs s).me.tvec = s.me.tvec := by
  obtain ⟨h1, h2, h3⟩ := poisonElements_fields d s.me.pc ((xs.flatMap fun x => x.bad).filter fun e => decide (s.me.six ≤ e) && decide (e < stop) && decide (e < s.me.vl))
    (writeV d ⟨tag, s.me.six, stop, s.me.vl, (xs.map fun x => x.code).take (stop - s.me.six), loadedScale (xs.filterMap fun x => x.scale)⟩ flags s)
  obtain ⟨g1, g2, g3⟩ := writeV_stopped (d := d) (w := ⟨tag, s.me.six, stop, s.me.vl, (xs.map fun x => x.code).take (stop - s.me.six), loadedScale (xs.filterMap fun x => x.scale)⟩)
    (flags := flags) h h0
  exact ⟨h1.trans g1, h2.trans g2, h3.trans g3⟩

/-- The segment of an element that faults lies below VL, and is the first only when SIX is 0. -/
theorem segment_below {six n vl : Nat} (h6 : six % 64 = 0) (hn : six ≤ n) (hvl : n < vl) : n / 64 * 64 < vl ∧ (n / 64 * 64 = 0 → six = 0) := by omega

theorem writeLoaded_traps {s u : State} {acc : Access} {n : Nat} {va : Word} {x : XFault} {o : Out} {d : Fin 32} {tag : BitVec 16} {flags : Nat} {xs : List Loaded} {z : State}
    (hs : Begun s) (hn : s.me.six ≤ n) (hvl : n < s.me.vl) (hz : z.me = s.me)
    (ho : o = .next (trapHere (elementTrap acc n va x u) (writeLoaded d tag (n / 64 * 64) flags xs z))) : TrapsAt acc n va x u s o := by
  obtain ⟨-, h6, -, -⟩ := hs
  obtain ⟨hlt, h0⟩ := segment_below h6 hn hvl
  obtain ⟨h1, h2, h3⟩ := writeLoaded_stopped (d := d) (tag := tag) (flags := flags) (xs := xs) (s := z) (by rwa [hz]) (by rwa [hz])
  rw [hz] at h1 h3
  exact ⟨_, ho, h1, h2, h3⟩

/-! ## VLD (R304) -/

theorem begun_congr {s u : State} (hs : Begun s) (hme : u.me = s.me) (hq : u.quota = none) : Begun u := by
  obtain ⟨h1, h2, -, h4⟩ := hs
  exact ⟨by rwa [hme], by rwa [hme], hq, by rwa [hme]⟩

theorem gR_of_me {s u : State} (h : u.me = s.me) (r : GReg) : gR r u = gR r s := by rw [gR, gR, h]

section
variable {s : State} {d : VRegN} {a b c : GReg} {pm : Bool}

/-- The elements of VLD up to a bound, of the register as it was at rename. -/
def vldGo (vd : VReg) (d : VRegN) (a b c : GReg) (pm : Bool) (stop : Nat) (u : State) : Option TrapInfo × State :=
  loadUpTo d vd.tag (loadElement vd pm (gR a u) (gR b u) (gR c u) u.me.six) stop u

/-- VLD in a strand that is in no handler. -/
theorem exec_vld (h : inHandler s.me = false) : exec (.vld d a b c pm) s = .next
    (if planeMajorOk pm (gR a s) (gR b s) s.me.vl && budgetOk s.me d (vSrc d s).tag then
      if roomFor d (vSrc d s).tag s then
        memoryRun none (vldGo (vSrc d s) d a b c pm) (raiseMisses .vload (elementVas pm (gR a s) (gR b s) (vWidth (vSrc d s)) s) s)
      else s
    else illop (.vld d a b c pm) 0 s) :=
  checks_out (.vld d a b c pm) (fun s => planeMajorOk pm (gR a s) (gR b s) s.me.vl) d (fun s => (vSrc d s).tag)
    (fun s1 s => memoryRun none (vldGo (vSrc d s1) d a b c pm) (raiseMisses .vload (elementVas pm (gR a s) (gR b s) (vWidth (vSrc d s1)) s) s)) s h

end

/-- What VLD reads for an element: a code where it is active, and a scale where it begins a block or the run. -/
theorem loadElement_ok {vd : VReg} {pm : Bool} {base stride scales : Word} {from_ e : Nat} {s t : State} {x : Loaded} (h : loadElement vd pm base stride scales from_ e s = (.ok x, t)) :
    x.code = (if active s.me e then some (x.code.getD 0) else none) ∧ x.scale = (if vBlock vd ≠ 0 ∧ (e % vBlock vd = 0 ∨ e = from_) then some (e / vBlock vd, (x.scale.map fun p => p.2).getD 0x7F) else none) := by
  unfold loadElement at h
  dsimp only at h
  split at h
  · cases h
  next sc scale block s1 hsc =>
    have hscale : scale = if vBlock vd ≠ 0 ∧ (e % vBlock vd = 0 ∨ e = from_) then some (e / vBlock vd, (scale.map fun p => p.2).getD 0x7F) else none := by
      split at hsc
      next hblock =>
        split at hsc
        · cases hsc
        · cases hsc
          rw [if_pos hblock]
          rfl
      next hblock =>
        cases hsc
        rw [if_neg hblock]
    split at h
    next hact =>
      split at h
      · cases h
      · cases h
        exact ⟨by rw [if_pos hact]; rfl, hscale⟩
    next hact =>
      cases h
      exact ⟨by rw [if_neg hact], hscale⟩

/-- The scale of a block is that which one of some elements brought, when no other brought one of the block. -/
theorem loadedScale_eq {es : List Nat} {sc : Nat → Option (Nat × Nat)} {e k v : Nat} (he : e ∈ es) (hv : sc e = some (k, v)) (hother : ∀ j ∈ es, ∀ p, sc j = some p → p.1 = k → j = e) :
    loadedScale (es.filterMap sc) k = v := by
  unfold loadedScale
  cases hp : (es.filterMap sc).find? fun x => x.1 == k with
  | none => exact absurd (List.find?_eq_none.1 hp (k, v) (List.mem_filterMap.2 ⟨e, he, hv⟩)) (by simp)
  | some p =>
    obtain ⟨j, hj, hjp⟩ := List.mem_filterMap.1 (List.mem_of_find?_eq_some hp)
    obtain rfl := hother j hj p hjp (by simpa using List.find?_some hp)
    obtain rfl := Option.some.inj (hv.symm.trans hjp)
    rfl

/-- The blocks that lie at or above SIX begin there or later: SIX is the first element of a segment. -/
theorem block_above {l six k : Nat} (hl : l = 8 ∨ l = 16 ∨ l = 32) (h6 : six % 64 = 0) (hk : six < (k + 1) * l) : six ≤ k * l := by
  rcases hl with rfl | rfl | rfl <;> omega

/-- The scale bytes that a run of VLD from SIX up to VL brought. -/
theorem vld_scales {vd : VReg} {pm : Bool} {base stride scales : Word} {s : State} {st : Nat → State} {x : Nat → Loaded} (h6 : s.me.six % 64 = 0)
    (hx : Accesses (loadElement vd pm base stride scales s.me.six) s.me.six s.me.vl st x) {k : Nat} (hk : k < vlmax / vBlock vd) (hlow : s.me.six < (k + 1) * vBlock vd) (hvl : k * vBlock vd < s.me.vl) :
    loadedScale (((rest s).map x).filterMap fun x => x.scale) k = ((x (max s.me.six (k * vBlock vd))).scale.map fun p => p.2).getD 0x7F := by
  have hl : vBlock vd = 8 ∨ vBlock vd = 16 ∨ vBlock vd = 32 := by
    rcases blockLen_cases vd.tag with h | h
    · rw [vBlock, h, Nat.div_zero] at hk
      omega
    · exact h
  have hpos : 0 < vBlock vd := by omega
  have hstart := block_above hl h6 hlow
  have hscale (j : Nat) (h1 : s.me.six ≤ j) (h2 : j < s.me.vl) := (loadElement_ok (hx j h1 h2)).2
  rw [Nat.max_eq_right hstart, List.filterMap_map]
  refine loadedScale_eq (e := k * vBlock vd) ?_ ?_ ?_
  · rw [rest_eq_range', List.mem_range'_1]
    omega
  · have := hscale _ hstart hvl
    rw [if_pos ⟨by omega, .inl (Nat.mul_mod_left _ _)⟩, Nat.mul_div_cancel _ hpos] at this
    exact this
  · intro j hj p hp hpk
    rw [rest_eq_range', List.mem_range'_1] at hj
    have := hscale j (by omega) (by omega)
    rw [show (x j).scale = some p from hp] at this
    split at this
    next hb =>
      have hjk : j / vBlock vd = k := by rw [← hpk, Option.some.inj this]
      have hmod : j % vBlock vd = 0 := by
        rcases hb.2 with h | h
        · exact h
        · rw [h]
          rcases hl with h | h | h <;> rw [h] <;> omega
      rw [← hjk, Nat.div_mul_cancel (Nat.dvd_of_mod_eq_zero hmod)]
    · cases this


theorem stopAt_unbounded {s u : State} (hme : u.me = s.me) (hq : u.quota = none) : stopAt u = lastOf s := by rw [stopAt, hq, hme, lastOf]

section
variable {s z : State} {d : VRegN} {a b c : GReg} {pm : Bool} {st : Nat → State} (hz : z.me = s.me) (hzq : z.quota = none) (hst : st s.me.six = z)
include hz hzq hst

theorem vldGo_eq (vd : VReg) : vldGo vd d a b c pm (stopAt z) z =
    let r := runElements .vload (loadElement vd pm (gR a s) (gR b s) (gR c s) s.me.six) (List.range' s.me.six (s.me.vl - s.me.six)) (st s.me.six)
    (runTrap r.1, writeLoaded d vd.tag (runStop r.1 (lastOf s)) 0 r.1.done r.2) := by
  rw [vldGo, gR_of_me hz, gR_of_me hz, gR_of_me hz, stopAt_unbounded hz hzq, loadUpTo, hz, elementsTo_all, hst]

variable (hs : Begun s)
include hs

theorem vld_done (hsame : SameStrand s.me.six (lastOf s) st s) {x : Nat → Loaded}
    (hx : Accesses (loadElement (vSrc d s) pm (gR a s) (gR b s) (gR c s) s.me.six) s.me.six s.me.vl st x) :
    Loads ⟨d, (vSrc d s).tag, [], true, active s.me, fun k => ((x k).code.getD 0, 0), fun k => ((x (max s.me.six (k * blockLen (vSrc d s).tag))).scale.map fun p => p.2).getD 0x7F⟩
      (badElements s x) (st (lastOf s)) (memoryRun none (vldGo (vSrc d s) d a b c pm) z) := by
  obtain ⟨hme, hq⟩ := hsame (lastOf s) (Nat.le_max_left _ _) (Nat.le_refl _)
  have h6 := congrArg Strand.six hme
  have hvl := congrArg Strand.vl hme
  have hrun : vldGo (vSrc d s) d a b c pm (stopAt z) z = (none, writeLoaded d (vSrc d s).tag (lastOf s) 0 ((rest s).map x) (st (lastOf s))) := by
    rw [vldGo_eq hz hzq hst, runElements_all hx, rest_eq_range']
    rfl
  generalize st (lastOf s) = u at hme hq h6 hvl hrun ⊢
  rw [memoryRun_done hrun, ← badElements_congr h6 hvl, ← rest_congr h6 hvl, ← lastOf_congr h6 hvl]
  refine writeLoaded_loads (begun_congr hs hme hq) ?_ (fun k h1 h2 => ?_) (fun k hk h1 h2 => ?_)
  · exact flags_of_none fun _ => rfl
  · rw [h6] at h1
    rw [hvl] at h2
    rw [← (hsame k h1 (by rw [lastOf]; omega)).1]
    exact (loadElement_ok (hx k h1 h2)).1
  · rw [h6] at h1
    rw [hvl] at h2
    rw [rest_congr h6 hvl, vld_scales hs.2.1 hx hk h1 h2]
    rfl

theorem vld_faults {n : Nat} {va : Word} {x : XFault} {u : State} (hn : n < s.me.vl)
    (hf : FaultsAt (loadElement (vSrc d s) pm (gR a s) (gR b s) (gR c s) s.me.six) s.me.six n st va x u) (hu : u.me = s.me) :
    TrapsAt .vload n va x u s (.next (memoryRun none (vldGo (vSrc d s) d a b c pm) z)) := by
  obtain ⟨h6, ⟨y, hy⟩, hfault⟩ := hf
  have hrun : vldGo (vSrc d s) d a b c pm (stopAt z) z =
      (some (elementTrap .vload n va x u), writeLoaded d (vSrc d s).tag (n / 64 * 64) 0 ((List.range' s.me.six (n - s.me.six)).map y) u) := by
    rw [vldGo_eq hz hzq hst, runElements_faults h6 hn hy hfault]
    rfl
  exact writeLoaded_traps hs h6 hn hu (by rw [memoryRun_faults hrun])

end

end Sys2Proof.Machine
end

section
/-! Vector loads (O43): the expansion of compressed images (R305). -/

namespace Sys2Proof.Machine

set_option Elab.async false

open Sys2Proof.Claims Sys2Proof.Laws

/-! ## Checks at rename -/

section
variable {i : Instr} {s : State}

theorem require_met {ok : Bool} (h : ok = true) : require i ok s = .ok () s := if_pos h
theorem require_unmet {ok : Bool} (h : ok = false) : require i ok s = .stop (illop i 0 s) := by rw [require, h]; rfl

theorem fits_room {d : Fin 32} {tag : BitVec 16} (hb : budgetOk s.me d tag = true) (hr : roomFor d tag s = true) : fits i d tag s = .ok () s := by
  rw [fits, require_met hb, Res.bind, if_pos hr]
theorem fits_waits {d : Fin 32} {tag : BitVec 16} (hb : budgetOk s.me d tag = true) (hr : roomFor d tag s = false) : fits i d tag s = .stop s := by
  rw [fits, require_met hb, Res.bind, hr]; rfl
theorem fits_illegal {d : Fin 32} {tag : BitVec 16} (hb : budgetOk s.me d tag = false) : fits i d tag s = .stop (illop i 0 s) := by
  rw [fits, require_unmet hb, Res.bind]

theorem vqueue_met (h : inHandler s.me = false) : vqueue i s = .ok () s := require_met (by rw [h]; rfl)

theorem whole_fresh (h : Fresh s) : whole i s = .ok () s := by
  obtain ⟨hh, h6, -⟩ := h
  rw [whole, vqueue_met hh, Res.bind, require_met (by simp [h6])]

theorem vSrc_unheld (h : s.me.held = none) (r : Fin 32) : vSrc r s = s.me.v[r] := by rw [vSrc, h]

end

theorem begun_of_fresh {s : State} (h : Fresh s) : Begun s := by
  obtain ⟨hh, h6, -, hq, hvl⟩ := h
  exact ⟨hh, by rw [h6], hq, hvl⟩

/-! ## VLD with LAY 2 -/

section
variable {s : State} {d : VRegN} {a b c : GReg} (hf : Fresh s)
include hf

/-- The blocks of a compressed image of a register, and the reading of its header. -/
def imageBlocks (d : VRegN) (s : State) : Nat := ceilDiv (s.me.vl * containerBits (vWidth s.me.v[d])) 512
def imageHeader (a : GReg) (d : VRegN) (s : State) : Except (Word × XFault) (List Got) × State :=
  readWords readVector (reqOf s.me) .vload (gR a s) (List.range (ceilDiv (imageBlocks d s) 64)) s

/-- What the load does with its header. -/
def expandImage (i : Instr) (d : VRegN) (b : GReg) (base : Word) (blocks : Nat) (vd : VReg) (ws : List Got) (s1 : State) : Res Unit :=
  (require i (!imageMalformed (ws.map fun x => x.code) blocks (gR b s1).toNat) s1).bind fun _ s =>
    let r := runElements .vload (loadExpanded base ws (vWidth vd)) (List.range s.me.vl) s
    match runTrap r.1 with
    | some t => .stop (trapHere t r.2)
    | none => .ok () (writeLoaded d vd.tag s.me.vl 0 r.1.done r.2)

omit hf in
theorem imageLegal_iff : ((gR a s).toNat % 64 == 0 && vBlock s.me.v[d] == 0) = true ↔ (gR a s).toNat % 64 = 0 ∧ blockLen s.me.v[d].tag = 0 := by
  rw [Bool.and_eq_true, beq_iff_eq, beq_iff_eq, vBlock]

theorem compressed_illegal (h : ¬((gR a s).toNat % 64 = 0 ∧ blockLen s.me.v[d].tag = 0 ∧ budgetOk s.me d s.me.v[d].tag = true)) :
    exec (.vldCompressed d a b c) s = .next (illop (.vldCompressed d a b c) 0 s) := by
  dsimp only [exec, execVldCompressed]
  rw [whole_fresh hf, Res.bind, vSrc_unheld hf.2.2.1]
  by_cases hok : ((gR a s).toNat % 64 == 0 && vBlock s.me.v[d] == 0) = true
  · have hb : budgetOk s.me d s.me.v[d].tag = false := by
      obtain ⟨h1, h2⟩ := imageLegal_iff.1 hok
      rw [← Bool.not_eq_true]
      exact fun hb => h ⟨h1, h2, hb⟩
    rw [require_met hok, Res.bind, fits_illegal hb]
    rfl
  · rw [require_unmet (Bool.eq_false_iff.2 hok)]
    rfl

variable (hl : (gR a s).toNat % 64 = 0 ∧ blockLen s.me.v[d].tag = 0 ∧ budgetOk s.me d s.me.v[d].tag = true)
include hl

theorem compressed_waits (hr : roomFor d s.me.v[d].tag s = false) : exec (.vldCompressed d a b c) s = .next s := by
  obtain ⟨h1, h2, hb⟩ := hl
  dsimp only [exec, execVldCompressed]
  rw [whole_fresh hf, Res.bind, vSrc_unheld hf.2.2.1, require_met (imageLegal_iff.2 ⟨h1, h2⟩), Res.bind, fits_waits hb hr]
  rfl

variable (hr : roomFor d s.me.v[d].tag s = true)
include hr

theorem compressed_headerFaults {va : Word} {x : XFault} {s1 : State} (hw : imageHeader a d s = (.error (va, x), s1)) :
    exec (.vldCompressed d a b c) s = .next (trapHere (elementTrap .vload 0 va x s1) s1) := by
  obtain ⟨h1, h2, hb⟩ := hl
  rw [imageHeader, imageBlocks] at hw
  dsimp only [exec, execVldCompressed]
  rw [whole_fresh hf, Res.bind, vSrc_unheld hf.2.2.1, require_met (imageLegal_iff.2 ⟨h1, h2⟩), Res.bind, fits_room hb hr, Res.bind, hw]
  rfl

variable {ws : List Got} {s1 : State} (hw : imageHeader a d s = (.ok ws, s1))
include hw

/-- Once the header is read, the image is checked, and its elements are done. -/
theorem compressed_expands : exec (.vldCompressed d a b c) s = (expandImage (.vldCompressed d a b c) d b (gR a s) (imageBlocks d s) s.me.v[d] ws s1).out := by
  obtain ⟨h1, h2, hb⟩ := hl
  rw [imageHeader, imageBlocks] at hw
  dsimp only [exec, execVldCompressed]
  rw [whole_fresh hf, Res.bind, vSrc_unheld hf.2.2.1, require_met (imageLegal_iff.2 ⟨h1, h2⟩), Res.bind, fits_room hb hr, Res.bind, hw] <;> rfl

variable (hme : s1.me = s.me)
include hme

theorem compressed_malformed (hm : imageMalformed (ws.map fun x => x.code) (imageBlocks d s) (gR b s).toNat = true) :
    exec (.vldCompressed d a b c) s = .next (illop (.vldCompressed d a b c) 0 s1) := by
  rw [compressed_expands hf hl hr hw, expandImage, gR_of_me hme, require_unmet (by rw [hm]; rfl)]
  rfl

variable (hm : imageMalformed (ws.map fun x => x.code) (imageBlocks d s) (gR b s).toNat = false) {xs : List Loaded} {u : State}
include hm

theorem compressed_done (hrun : runElements .vload (loadExpanded (gR a s) ws (vWidth s.me.v[d])) (List.range s.me.vl) s1 = (⟨xs, none⟩, u)) :
    exec (.vldCompressed d a b c) s = .next (writeLoaded d s.me.v[d].tag s.me.vl 0 xs u) := by
  rw [compressed_expands hf hl hr hw, expandImage, gR_of_me hme, require_met (by rw [hm]; rfl), Res.bind, hme, hrun]
  rfl

theorem compressed_faults {n : Nat} {t : TrapInfo} (hrun : runElements .vload (loadExpanded (gR a s) ws (vWidth s.me.v[d])) (List.range s.me.vl) s1 = (⟨xs, some (n, t)⟩, u)) :
    exec (.vldCompressed d a b c) s = .next (trapHere t u) := by
  rw [compressed_expands hf hl hr hw, expandImage, gR_of_me hme, require_met (by rw [hm]; rfl), Res.bind, hme, hrun]
  rfl

end

/-! ## The elements of a compressed image -/

theorem loadExpanded_ok {base : Word} {ws : List Got} {w e : Nat} {s t : State} {x : Loaded} (h : loadExpanded base ws w e s = (.ok x, t)) :
    x.code = (if active s.me e then some (x.code.getD 0) else none) := by
  unfold loadExpanded at h
  split at h
  next hact =>
    split at h
    · cases h
    · cases h
      rw [if_pos hact]
      rfl
  next hact =>
    cases h
    rw [if_neg hact]

/-- An active element of an absent block is 0. -/
theorem loadExpanded_absent {base : Word} {ws : List Got} {w e : Nat} {s : State} (hact : active s.me e = true)
    (h : expandedByte base (ws.map fun x => x.code) (containerBits w * e / 8) = none) : ∃ y, loadExpanded base ws w e s = (.ok y, s) ∧ y.code = some 0 := by
  refine ⟨⟨some 0, none, if (none : Option Nat).isSome || ws.any (fun x => x.bad.isSome) then [e] else []⟩, ?_, rfl⟩
  rw [loadExpanded, if_pos hact, readExpanded, h]

section
variable {s : State} {d : VRegN} {a b c : GReg} (hf : Fresh s) (hl : (gR a s).toNat % 64 = 0 ∧ blockLen s.me.v[d].tag = 0 ∧ budgetOk s.me d s.me.v[d].tag = true)
  (hr : roomFor d s.me.v[d].tag s = true) {ws : List Got} {s1 : State} (hw : imageHeader a d s = (.ok ws, s1)) (hme : s1.me = s.me)
  (hm : imageMalformed (ws.map fun x => x.code) (imageBlocks d s) (gR b s).toNat = false) {st : Nat → State} (hst : st 0 = s1)
include hf hl hr hw hme hm hst

theorem compressed_loads {x : Nat → Loaded} (hx : Accesses (loadExpanded (gR a s) ws (vWidth s.me.v[d])) 0 s.me.vl st x) (hsame : SameStrand 0 s.me.vl st s) :
    ∃ t, exec (.vldCompressed d a b c) s = .next t ∧ Loads ⟨d, s.me.v[d].tag, [], true, active s.me, fun k => ((x k).code.getD 0, 0), fun _ => 0x7F⟩ (badElements s x) (st s.me.vl) t := by
  obtain ⟨hme', hq⟩ := hsame s.me.vl (Nat.zero_le _) (Nat.le_refl _)
  have h6 := congrArg Strand.six hme'
  have hvl := congrArg Strand.vl hme'
  have h0 : s.me.six = 0 := hf.2.1
  have hlast : lastOf s = s.me.vl := by rw [lastOf, h0]; exact Nat.zero_max _
  have hrun : runElements .vload (loadExpanded (gR a s) ws (vWidth s.me.v[d])) (List.range s.me.vl) s1 = (⟨(rest s).map x, none⟩, st s.me.vl) := by
    have hall := runElements_all (acc := .vload) hx
    rw [hst, Nat.sub_zero, ← List.range_eq_range', Nat.zero_max] at hall
    rw [rest_eq_range', h0, Nat.sub_zero, ← List.range_eq_range']
    exact hall
  refine ⟨_, compressed_done hf hl hr hw hme hm hrun, ?_⟩
  generalize st s.me.vl = u at hme' hq h6 hvl ⊢
  rw [← badElements_congr h6 hvl, ← rest_congr h6 hvl, ← hlast, ← lastOf_congr h6 hvl]
  refine writeLoaded_loads (begun_congr (begun_of_fresh hf) hme' hq) ?_ (fun k h1 h2 => ?_) (fun k hk h1 h2 => ?_)
  · exact flags_of_none fun _ => rfl
  · rw [hvl] at h2
    rw [← (hsame k (Nat.zero_le _) (Nat.le_of_lt h2)).1]
    exact loadExpanded_ok (hx k (Nat.zero_le _) h2)
  · rw [show blockLen _ = 0 from hl.2.1, Nat.div_zero] at hk
    exact absurd hk (Nat.not_lt_zero _)

theorem compressed_trapsAt {n : Nat} {va : Word} {x : XFault} {u : State} (hn : n < s.me.vl) (h : FaultsAt (loadExpanded (gR a s) ws (vWidth s.me.v[d])) 0 n st va x u) :
    exec (.vldCompressed d a b c) s = .next (trapHere (elementTrap .vload n va x u) u) := by
  obtain ⟨h0, ⟨y, hy⟩, hfault⟩ := h
  have hrun := runElements_faults (acc := .vload) h0 hn hy hfault
  rw [hst, Nat.sub_zero, ← List.range_eq_range'] at hrun
  exact compressed_faults hf hl hr hw hme hm hrun

end

end Sys2Proof.Machine
end

section
/-! Vector loads (O43): VGATHER (R307, R308). -/

namespace Sys2Proof.Machine

set_option Elab.async false

open Sys2Proof.Claims Sys2Proof.Laws

/-! ## The elements of a gather -/

theorem gatherElement_ok {vd vb : VReg} {base g : Word} {e : Nat} {s t : State} {x : Loaded × Option Container} (h : gatherElement vd vb base g e s = (.ok x, t)) :
    x.1.code = if active s.me e && testIndex g (elem vb e) != .sentinel
      then some (if testIndex g (elem vb e) = .outside then substitute (vKind vd) (roundingOf s.me) else x.1.code.getD 0) else none := by
  unfold gatherElement at h
  cases hact : active s.me e with
  | false =>
    rw [hact, if_pos (show (!false) = true from rfl)] at h
    cases h
    rfl
  | true =>
    rw [hact, if_neg (by decide)] at h
    cases htest : testIndex g (elem vb e) with
    | sentinel => 
      rw [htest] at h
      cases h
      rfl
    | outside =>
      rw [htest] at h
      cases h
      rfl
    | inside =>
      rw [htest] at h
      dsimp only at h
      split at h
      · cases h
      · cases h
        rfl

theorem gatherStatus_of_me {s u : State} (h : u.me = s.me) (g : Word) (vb : VReg) : gatherStatus g vb u = gatherStatus g vb s := by
  simp only [gatherStatus, activeBelow, h]

theorem countGather_only (ctx : Nat) (xs : List Container) (s : State) : OnlyDies s (countGather ctx xs s) :=
  foldl_only _ (fun _ _ => foldl_only _ (fun _ _ => l2Reads_only _ _ _ _) _ _) _ _

theorem onlyDies_quota {s t : State} (h : OnlyDies s t) : t.quota = s.quota := by rw [h.same]

theorem orAll_any {α : Type} (p : α → Bool) (c : Nat) (es : List α) : orAll (es.map fun k => if p k then c else 0) = if es.any p then c else 0 := by
  induction es with
  | nil => rfl
  | cons e es ih =>
    rw [List.map_cons, orAll, List.foldr_cons, ← orAll, ih, List.any_cons]
    cases p e <;> cases es.any p <;> simp

/-- A gather raises SUB when an active element has an index out of range. -/
theorem gather_flags (act : Nat → Bool) (test : Nat → IndexTest) (f g : Nat → Nat) (u : State) :
    (if (rest u).any fun e => act e && test e == .outside then fSUB else 0) =
      orAll ((toDo (fun k => act k && test k != .sentinel) u).map fun k => (if test k = .outside then (f k, fSUB) else (g k, 0)).2) := by
  have hsnd (k : Nat) : (if test k = .outside then (f k, fSUB) else (g k, 0)).2 = if test k == .outside then fSUB else 0 := by cases test k <;> rfl
  have hany : ((rest u).any fun e => act e && test e == .outside) = (toDo (fun k => act k && test k != .sentinel) u).any fun k => test k == .outside := by
    rw [Bool.eq_iff_iff, List.any_eq_true, List.any_eq_true]
    constructor
    · rintro ⟨e, he, h⟩
      obtain ⟨hvl, h6, -⟩ := mem_toDo.1 he
      simp only [Bool.and_eq_true, beq_iff_eq] at h
      exact ⟨e, mem_toDo.2 ⟨hvl, h6, by simp [h.1, h.2]⟩, by simp [h.2]⟩
    · rintro ⟨e, he, h⟩
      obtain ⟨hvl, h6, hact⟩ := mem_toDo.1 he
      simp only [Bool.and_eq_true] at hact
      exact ⟨e, mem_toDo.2 ⟨hvl, h6, rfl⟩, by simp only [hact.1, h, Bool.and_true]⟩
  simp only [hsnd]
  rw [orAll_any, hany]

theorem gather_unscaled {vd vb : VReg} {g : Word} (h : gatherOk vd vb g = true) : blockLen vd.tag = 0 := by
  simp only [gatherOk, Bool.and_eq_true, beq_iff_eq] at h
  exact h.1.1.1.1

/-! ## VGATHER -/

section
variable {s : State} {d b : VRegN} {a c : GReg}

theorem exec_vgather (h : inHandler s.me = false) : exec (.vgather d a b c) s = .next
    (if gatherOk (vSrc d s) (vSrc b s) (gR c s) && budgetOk s.me d (vSrc d s).tag then
      if roomFor d (vSrc d s).tag s then
        memoryRun (poisonOf (src b s) (active s.me) s) (gatherUpTo d (vSrc d s) (vSrc b s) (gR a s) (gR c s) (nextReg c))
          (raiseMisses .gather (indexedVas (vSrc d s) (vSrc b s) (gR a s) (gR c s) s) s)
      else s
    else illop (.vgather d a b c) 0 s) :=
  checks_out (.vgather d a b c) (fun s => gatherOk (vSrc d s) (vSrc b s) (gR c s)) d (fun s => (vSrc d s).tag)
    (fun s1 s => memoryRun (poisonOf (src b s) (active s.me) s) (gatherUpTo d (vSrc d s1) (vSrc b s1) (gR a s) (gR c s1) (nextReg c))
      (raiseMisses .gather (indexedVas (vSrc d s1) (vSrc b s1) (gR a s) (gR c s1) s) s)) s h

end

section
variable {s z : State} {d : VRegN} {vd vb : VReg} {base g : Word} {r : GReg} {st : Nat → State} {x : Nat → Loaded × Option Container} (hz : z.me = s.me)
include hz

/-- The state in which a gather writes its register: the slices have counted it, and the status word is written. -/
def gathered (vb : VReg) (g : Word) (r : GReg) (x : Nat → Loaded × Option Container) (s u : State) : State :=
  setG r (gatherStatus g vb s) (countGather s.me.ctx ((rest s).filterMap fun k => (x k).2) u)

theorem gatherUpTo_all (hzq : z.quota = none) (hst : st s.me.six = z) (hx : Accesses (gatherElement vd vb base g) s.me.six s.me.vl st x) :
    gatherUpTo d vd vb base g r (stopAt z) z = (none, writeLoaded d vd.tag (lastOf s) (if (rest s).any fun e => active s.me e && testIndex g (elem vb e) == .outside then fSUB else 0)
      ((rest s).map fun k => (x k).1) (gathered vb g r x s (st (lastOf s)))) := by
  have hrun := runElements_all (acc := .gather) hx
  rw [← rest_eq_range', hst] at hrun
  have hall : (rest s).filter (fun e => decide (e < lastOf s)) = rest s := by
    refine List.filter_eq_self.2 fun e he => ?_
    exact decide_eq_true (Nat.lt_of_lt_of_le (mem_toDo.1 he).1 (Nat.le_max_right _ _))
  rw [gatherUpTo, stopAt_unbounded hz hzq, hz, elementsTo_all, ← rest_eq_range', hrun]
  show (none, writeLoaded d vd.tag (lastOf s) (if ((rest s).filter fun e => decide (e < lastOf s)).any _ then fSUB else 0) (((rest s).map x).map fun x => x.1)
    (if s.me.vl ≤ lastOf s then setG r (gatherStatus g vb z) (countGather s.me.ctx (((rest s).map x).filterMap fun x => x.2) _) else _)) = _
  rw [hall, gatherStatus_of_me hz, if_pos (show s.me.vl ≤ lastOf s from Nat.le_max_right _ _), List.map_map, List.filterMap_map]
  rfl

/-- A gather that meets a fault at an element writes what came before its segment. -/
theorem gatherUpTo_faults {y : Nat → Loaded × Option Container} {n : Nat} {va : Word} {xf : XFault} {u : State} (hzq : z.quota = none) (hst : st s.me.six = z) (h6 : s.me.six ≤ n)
    (hn : n < s.me.vl) (hy : Accesses (gatherElement vd vb base g) s.me.six n st y) (hf : gatherElement vd vb base g n (st n) = (.error (va, xf), u)) :
    ∃ flags xs cs, gatherUpTo d vd vb base g r (stopAt z) z =
      (some (elementTrap .gather n va xf u), writeLoaded d vd.tag (n / 64 * 64) flags xs (countGather s.me.ctx cs u)) := by
  have hrun := runElements_faults (acc := .gather) h6 hn hy hf
  rw [hst] at hrun
  have hbelow : ¬s.me.vl ≤ n / 64 * 64 := by omega
  rw [gatherUpTo, stopAt_unbounded hz hzq, hz, elementsTo_all, hrun]
  dsimp only
  rw [runStop_fault, if_neg hbelow]
  exact ⟨_, _, _, rfl⟩

/-- A gather of no element changes nothing. -/
theorem gatherUpTo_zero (hzq : z.quota = none) (hvl : 0 < s.me.vl) : gatherUpTo d vd vb base g r 0 z = (none, z) := by
  have hnone : elementsTo 0 z.me = [] := by rw [elementsTo_eq_range', Nat.zero_min, Nat.zero_sub]; rfl
  have hbelow : ¬z.me.vl ≤ 0 := by rw [hz]; omega
  have hw (codes : List (Option Nat)) (f : Nat → Nat) : writeV d ⟨vd.tag, z.me.six, 0, z.me.vl, codes, f⟩ 0 z = z := by
    dsimp only [writeV]
    rw [if_neg (by simpa [VWrite.complete] using hbelow), if_pos rfl, clearQuota_none _ hzq]
  rw [gatherUpTo, hnone]
  show (none, writeLoaded d vd.tag 0 0 [] (if z.me.vl ≤ 0 then _ else countGather z.me.ctx [] z)) = _
  rw [if_neg hbelow, writeLoaded, show countGather z.me.ctx [] z = z from rfl, hw]
  rfl

/-- The elements of a gather up to one that is done. -/
theorem gatherUpTo_done {e : Nat} (h0 : s.me.six = 0) (he : e < s.me.vl) (hst : st 0 = z) (hx : Accesses (gatherElement vd vb base g) 0 (e + 1) st x) :
    ∃ t, gatherUpTo d vd vb base g r (e + 1) z = (none, t) := by
  have hrun := runElements_all (acc := .gather) hx
  rw [hst] at hrun
  rw [gatherUpTo, hz, elementsTo_upTo he, h0, hrun]
  exact ⟨_, rfl⟩

end

section
variable {s : State} {d b : VRegN} {a c : GReg} (hs : Begun s) (hl : gatherOk (vSrc d s) (vSrc b s) (gR c s) = true ∧ budgetOk s.me d (vSrc d s).tag = true)
  (hr : roomFor d (vSrc d s).tag s = true) {st : Nat → State} {z : State} (hz : raiseMisses .gather (indexedVas (vSrc d s) (vSrc b s) (gR a s) (gR c s) s) s = z)
include hs hl hr hz

theorem vgather_runs : exec (.vgather d a b c) s = .next (memoryRun (firstPoison (named s [b]) (toDo (active s.me) s))
    (gatherUpTo d (vSrc d s) (vSrc b s) (gR a s) (gR c s) (nextReg c)) z) := by
  rw [exec_vgather hs.1, hl.1, hl.2, hr, hz, poisonOf_eq hs]
  rfl

theorem vgather_done (hst : st s.me.six = z) (hp : NoPoison (named s [b]) (toDo (active s.me) s)) {x : Nat → Loaded × Option Container}
    (hx : Accesses (gatherElement (vSrc d s) (vSrc b s) (gR a s) (gR c s)) s.me.six s.me.vl st x) (hsame : SameStrand s.me.six (lastOf s) st s) :
    ∃ t, exec (.vgather d a b c) s = .next t ∧ Loads ⟨d, (vSrc d s).tag, [], true, fun k => active s.me k && testIndex (gR c s) (elem (vSrc b s) k) != .sentinel,
      fun k => if testIndex (gR c s) (elem (vSrc b s) k) = .outside then (substitute (kindOf (vSrc d s).tag) (roundingOf s.me), fSUB) else ((x k).1.code.getD 0, 0), fun _ => 0x7F⟩
      (badElements s fun k => (x k).1) (gathered (vSrc b s) (gR c s) (nextReg c) x s (st (lastOf s))) t := by
  have hzme : z.me = s.me := by rw [← hz, raiseMisses_me]
  have hzq : z.quota = none := by rw [← hz, raiseMisses_quota]; exact hs.2.2.1
  obtain ⟨hme, hq⟩ := hsame (lastOf s) (Nat.le_max_left _ _) (Nat.le_refl _)
  refine ⟨_, vgather_runs hs hl hr hz, ?_⟩
  rw [firstPoison_clean _ _ hp, memoryRun_done (gatherUpTo_all hzme hzq hst hx)]
  have hcount : OnlyDies (st (lastOf s)) (countGather s.me.ctx ((rest s).filterMap fun k => (x k).2) (st (lastOf s))) := countGather_only _ _ _
  have hcme := hcount.me_eq.trans hme
  have hcq := (onlyDies_quota hcount).trans hq
  rw [gathered]
  generalize countGather s.me.ctx ((rest s).filterMap fun k => (x k).2) (st (lastOf s)) = v at hcme hcq ⊢
  have h6 : (setG (nextReg c) (gatherStatus (gR c s) (vSrc b s) s) v).me.six = s.me.six := by rw [setG_me_six, hcme]
  have hvl : (setG (nextReg c) (gatherStatus (gR c s) (vSrc b s) s) v).me.vl = s.me.vl := by rw [setG_me_vl, hcme]
  have hbegun : Begun (setG (nextReg c) (gatherStatus (gR c s) (vSrc b s) s) v) := by
    obtain ⟨hh, h6', -, hvl'⟩ := hs
    exact ⟨by rw [inHandler, setG_me_tstat, hcme]; exact hh, by rw [h6]; exact h6', by rw [setG_quota, hcq], by rw [hvl]; exact hvl'⟩
  generalize setG (nextReg c) (gatherStatus (gR c s) (vSrc b s) s) v = w at h6 hvl hbegun ⊢
  rw [← badElements_congr h6 hvl, ← rest_congr h6 hvl, ← lastOf_congr h6 hvl]
  refine writeLoaded_loads (x := fun k => (x k).1) hbegun ?_ (fun k h1 h2 => ?_) (fun k hk h1 h2 => ?_)
  · exact gather_flags _ _ _ _ _
  · rw [h6] at h1
    rw [hvl] at h2
    have hcode := gatherElement_ok (hx k h1 h2)
    rw [(hsame k h1 (by rw [lastOf]; omega)).1] at hcode
    rw [hcode]
    dsimp only
    by_cases ho : testIndex (gR c s) (elem (vSrc b s) k) = .outside <;> simp [ho, vKind]
  · rw [show blockLen _ = 0 from gather_unscaled hl.1, Nat.div_zero] at hk
    exact absurd hk (Nat.not_lt_zero _)

theorem vgather_faults (hst : st s.me.six = z) (hp : NoPoison (named s [b]) (toDo (active s.me) s)) {n : Nat} {va : Word} {xf : XFault} {u : State} (hn : n < s.me.vl)
    (hf : FaultsAt (gatherElement (vSrc d s) (vSrc b s) (gR a s) (gR c s)) s.me.six n st va xf u) (hu : u.me = s.me) : TrapsAt .gather n va xf u s (exec (.vgather d a b c) s) := by
  have hzme : z.me = s.me := by rw [← hz, raiseMisses_me]
  have hzq : z.quota = none := by rw [← hz, raiseMisses_quota]; exact hs.2.2.1
  obtain ⟨h6, ⟨y, hy⟩, hfault⟩ := hf
  obtain ⟨flags, xs, cs, hgo⟩ := gatherUpTo_faults (d := d) (r := nextReg c) hzme hzq hst h6 hn hy hfault
  have hexec := vgather_runs hs hl hr hz
  rw [firstPoison_clean _ _ hp, memoryRun_faults hgo] at hexec
  exact writeLoaded_traps hs h6 hn ((countGather_only s.me.ctx cs u).me_eq.trans hu) hexec

theorem vgather_poison (hst : st 0 = z) (h0 : s.me.six = 0) {e : Nat} {r : Fin 32} {m : PoisonMark} (hp : FirstPoison (named s [b]) (toDo (active s.me) s) e r m)
    (he : e < max s.core.alc 64) {x : Nat → Loaded × Option Container} (hx : Accesses (gatherElement (vSrc d s) (vSrc b s) (gR a s) (gR c s)) 0 (e + 1) st x) :
    ∃ t, exec (.vgather d a b c) s = .next t ∧ PoisonTrap 0 b.1 e m.producer 0 s t ∧ t.me.v = s.me.v ∧ t.me.m = s.me.m ∧ t.core = z.core := by
  have hzme : z.me = s.me := by rw [← hz, raiseMisses_me]
  have hzq : z.quota = none := by rw [← hz, raiseMisses_quota]; exact hs.2.2.1
  have hzmem : z.mem = s.mem := by rw [← hz, raiseMisses_mem]
  have hgroup : groupOf z e = 0 := by rw [← hz, raiseMisses_groupOf, groupStart, h0, Nat.sub_zero, Nat.zero_add, Nat.div_eq_of_lt he, Nat.zero_mul]
  have hh : inHandler z.me = false := by rw [hzme]; exact hs.1
  have hvl : e < s.me.vl := (mem_toDo.1 (mem_of_firstPoison hp)).1
  obtain ⟨t2, h2⟩ := gatherUpTo_done (d := d) (r := nextReg c) hzme h0 hvl hst hx
  have h1 := gatherUpTo_zero (d := d) (vd := vSrc d s) (vb := vSrc b s) (base := gR a s) (g := gR c s) (r := nextReg c) hzme hzq (Nat.zero_lt_of_lt hvl)
  obtain rfl := source_of_firstPoison hp
  refine ⟨_, vgather_runs hs hl hr hz, ?_⟩
  rw [firstPoison_found hp, memoryRun_poison (by rw [hgroup]; exact h1) h2]
  refine ⟨?_, by rw [poisonTrap_v hh, hzme], by rw [poisonTrap_m hh, hzme], poisonTrap_core hh _ _ _ _⟩
  rw [← h0]
  exact poisonTrap_here hs.1 hzme hzmem _ _ _ _

end

end Sys2Proof.Machine
end

section
namespace Sys2Proof.Claims

set_option Elab.async false

open Sys2Proof.Machine Sys2Proof.Laws

/-- Settles O43: a run of elements without a fault ends in one write of the register from SIX up to VL, which its Lanes describe, and a run with a fault writes what lies below the faulting segment. -/
theorem vectorLoads : Obligations.VectorLoads := by
  unfold Obligations.VectorLoads
  refine ⟨fun s d a b c pm hs => ⟨fun h => ?_, fun hl hr => ?_, fun st hst hl hr => ⟨fun x hx hsame => ?_, fun n va x u hn hf _ hu => ?_⟩⟩,
    fun s d a b c hf => ⟨compressed_illegal hf, compressed_waits hf, fun hl hr va x s1 hw => compressed_headerFaults hf hl hr hw, fun hl hr ws s1 hw hme => ⟨compressed_malformed hf hl hr hw hme,
      fun hm st hst => ⟨fun x hx hsame => compressed_loads hf hl hr hw hme hm hst hx hsame, fun n va x u hn h => compressed_trapsAt hf hl hr hw hme hm hst hn h,
        fun k u hact habsent => loadExpanded_absent hact habsent⟩⟩⟩,
    fun s d b a c hs => ⟨fun h => ?_, fun hl hr => ?_, fun st hst hl hr hp => ⟨fun x hx hsame => vgather_done hs hl hr rfl hst hp hx hsame,
      fun n va x u hn hf _ hu => vgather_faults hs hl hr rfl hst hp hn hf hu⟩,
      fun st x e r m hst h0 hl hr hp he hx _ => vgather_poison hs hl hr rfl hst h0 hp he hx⟩⟩
  · rw [exec_vld hs.1, if_neg (mt Bool.and_eq_true_iff.1 h)]
  · rw [exec_vld hs.1, if_pos (Bool.and_eq_true_iff.2 hl), hr]
    rfl
  · rw [exec_vld hs.1, if_pos (Bool.and_eq_true_iff.2 hl), if_pos hr]
    exact ⟨_, rfl, vld_done (raiseMisses_me _ _ _) ((raiseMisses_quota _ _ _).trans hs.2.2.1) hst hs hsame hx⟩
  · rw [exec_vld hs.1, if_pos (Bool.and_eq_true_iff.2 hl), if_pos hr]
    exact vld_faults (raiseMisses_me _ _ _) ((raiseMisses_quota _ _ _).trans hs.2.2.1) hst hs hn hf hu
  · rw [exec_vgather hs.1, if_neg (mt Bool.and_eq_true_iff.1 h)]
  · rw [exec_vgather hs.1, if_pos (Bool.and_eq_true_iff.2 hl), hr]
    rfl

end Sys2Proof.Claims
end

section
/-! Vector stores (O44): VST (R304). -/

namespace Sys2Proof.Machine

set_option Elab.async false

open Sys2Proof.Claims Sys2Proof.Laws

/-- A vector instruction without a destination, in a strand that is in no handler. -/
theorem legal_out (i : Instr) (ok : State → Bool) (f : State → State → State) (s : State) (h : inHandler s.me = false) :
    ((vqueue i s).bind fun _ s1 => (require i (ok s1) s1).bind fun _ s2 => .ok () (f s1 s2)).out = .next (if ok s then f s s else illop i 0 s) := by
  rw [vqueue_met h, Res.bind]
  cases hok : ok s
  · rw [require_unmet rfl]
    rfl
  · rw [require_met rfl]
    rfl

/-! ## The end of a store -/

/-- A store that stopped at a bound that does not reach VL: SIX names the first element not done, and an earlier part's mapping stays. -/
theorem endStore_part {stop : Nat} {final : State → State} {u : State} (h : stop < u.me.vl) (hq : u.quota = none) : endStore stop final u =
    if stop = 0 then u else { u with me := { u.me with six := stop, held := some (u.me.held.getD ⟨.none, u.me.pc, 0⟩) } } := by
  rw [endStore, if_neg (Nat.not_le.2 h), clearQuota_none (onMe (stopPart .none stop 0) u) hq, onMe, stopPart]
  split
  · rfl
  · cases u.me.held with
    | none => rfl
    | some x => simp

theorem endStore_stopped {stop : Nat} {final : State → State} {u : State} (h : stop < u.me.vl) (h0 : stop = 0 → u.me.six = 0) :
    (endStore stop final u).me.pc = u.me.pc ∧ (endStore stop final u).me.six = stop ∧ (endStore stop final u).me.tvec = u.me.tvec := by
  rw [endStore, if_neg (Nat.not_le.2 h)]
  dsimp only [clearQuota, onMe, stopPart]
  split
  next hz => exact ⟨rfl, (h0 hz).trans hz.symm, rfl⟩
  · exact ⟨rfl, rfl, rfl⟩

/-! ## What VST writes for an element -/

/-- An active element of a word-layout image of a register without scales writes its container. -/
theorem storeElement_container {vd : VReg} {base stride scales : Word} {e : Nat} {u t : State} {ws : List Write} (hact : active u.me e = true) (hb : vBlock vd = 0)
    (h : pieceWrites (reqOf u.me) .vstore false (containerCode (vKind vd) (elem vd e)) [containerPiece base (containerBits (vWidth vd)) (containerBits (vWidth vd)) e] u = (.ok ws, t)) :
    storeElement vd false base stride scales e u = (.ok (), pushWrites ws t) := by
  rw [storeElement, hact, if_neg (by decide)]
  dsimp only
  rw [if_neg Bool.false_ne_true, h]
  dsimp only
  rw [if_neg (by simp [carriesScale, hb])]

theorem storeElement_masked {vd : VReg} {pm : Bool} {base stride scales : Word} {e : Nat} {u : State} (hact : active u.me e = false) :
    storeElement vd pm base stride scales e u = (.ok (), u) := by
  rw [storeElement, hact]
  rfl

/-! ## VST -/

/-- The elements of VST up to a bound. -/
def vstGo (d : VRegN) (a b c : GReg) (pm : Bool) (stop : Nat) (u : State) : Option TrapInfo × State :=
  storeUpTo .vstore (storeElement (vSrc d u) pm (gR a u) (gR b u) (gR c u)) id stop u

section
variable {s : State} {d : VRegN} {a b c : GReg} {pm : Bool} (hs : Begun s)
include hs

theorem exec_vst : exec (.vst d a b c pm) s = .next
    (if planeMajorOk pm (gR a s) (gR b s) s.me.vl then
      memoryRun (firstPoison (named s [d]) (toDo (active s.me) s)) (vstGo d a b c pm) (raiseMisses .vstore (elementVas pm (gR a s) (gR b s) (vWidth (vSrc d s)) s) s)
    else illop (.vst d a b c pm) 0 s) := by
  rw [← poisonOf_eq hs]
  exact legal_out (.vst d a b c pm) (fun s => planeMajorOk pm (gR a s) (gR b s) s.me.vl)
    (fun _ s => memoryRun (poisonOf (src d s) (active s.me) s) (vstGo d a b c pm) (raiseMisses .vstore (elementVas pm (gR a s) (gR b s) (vWidth (vSrc d s)) s) s)) s hs.1

end

/-- The strand's general registers and its sources are those of another state. -/
structure SameSources (s u : State) : Prop where
  g : u.me.g = s.me.g
  source : ∀ r, vSrc r u = vSrc r s

theorem vstGo_eq {s u : State} (h : SameSources s u) (d : VRegN) (a b c : GReg) (pm : Bool) (stop : Nat) :
    vstGo d a b c pm stop u = storeUpTo .vstore (storeElement (vSrc d s) pm (gR a s) (gR b s) (gR c s)) id stop u := by
  rw [vstGo, h.source, gR, gR, gR, h.g]
  rfl

theorem sameSources_of_me {s u : State} (h : u.me = s.me) : SameSources s u := ⟨by rw [h], fun r => by rw [vSrc, vSrc, h]⟩

section
variable {acc : Access} {f : Nat → State → Except (Word × XFault) Unit × State} {st : Nat → State} {final : State → State} {u : State}

/-- The elements of a store from SIX up to a bound, none of which faults. -/
theorem storeUpTo_done {x : Nat → Unit} {stop : Nat} (hvl : stop ≤ u.me.vl) (hst : st u.me.six = u) (hx : Accesses f u.me.six stop st x) :
    storeUpTo acc f final stop u = (none, endStore stop final (st (max u.me.six stop))) := by
  have hrun := runElements_all (acc := acc) hx
  rw [hst] at hrun
  rw [storeUpTo, elementsTo_upTo hvl, hrun]
  rfl

theorem storeUpTo_all {x : Nat → Unit} (hst : st u.me.six = u) (hx : Accesses f u.me.six u.me.vl st x) :
    storeUpTo acc f final (lastOf u) u = (none, endStore (lastOf u) final (st (lastOf u))) := by
  have hrun := runElements_all (acc := acc) hx
  rw [hst] at hrun
  rw [storeUpTo, elementsTo_all, hrun]
  rfl

theorem storeUpTo_faults {n : Nat} {va : Word} {x : XFault} {v : State} (hst : st u.me.six = u) (hn : n < u.me.vl) (hf : FaultsAt f u.me.six n st va x v) :
    storeUpTo acc f final (lastOf u) u = (some (elementTrap acc n va x v), endStore (n / 64 * 64) final v) := by
  obtain ⟨h6, ⟨y, hy⟩, hfault⟩ := hf
  have hrun := runElements_faults (acc := acc) h6 hn hy hfault
  rw [hst] at hrun
  rw [storeUpTo, elementsTo_all, hrun]
  rfl

end

/-- The state in which a store has stopped part-way, at the start of an element group, of a state in which the elements below it are done. -/
def partDone (s u : State) (n : Nat) : State :=
  if n = 0 then u else { u with me := { u.me with six := n, held := some (s.me.held.getD ⟨.none, s.me.pc, 0⟩) } }

section
variable {s u : State} {n : Nat} (hme : u.me = { s.me with vwq := u.me.vwq }) (h0 : n = 0 → s.me.six = 0)
include hme

theorem same_but_writes {β : Type} (g : Strand → β) (hg : ∀ (t : Strand) w, g { t with vwq := w } = g t) : g u.me = g s.me := by
  rw [hme]
  exact hg _ _

theorem endStore_partDone {final : State → State} (hn : n < s.me.vl) (hq : u.quota = none) : endStore n final u = partDone s u n := by
  rw [endStore_part (by rw [same_but_writes hme Strand.vl fun _ _ => rfl]; exact hn) hq, partDone, same_but_writes hme Strand.held fun _ _ => rfl, same_but_writes hme Strand.pc fun _ _ => rfl]

theorem partDone_sources : SameSources s (partDone s u n) := by
  have hg : u.me.g = s.me.g := same_but_writes hme Strand.g fun _ _ => rfl
  have hv : u.me.v = s.me.v := same_but_writes hme Strand.v fun _ _ => rfl
  have hheld : u.me.held = s.me.held := same_but_writes hme Strand.held fun _ _ => rfl
  unfold partDone
  split
  · exact ⟨hg, fun r => by rw [vSrc, vSrc, hheld, hv]⟩
  · refine ⟨hg, fun r => ?_⟩
    rw [vSrc, vSrc]
    cases s.me.held with
    | none => exact congrArg (fun v : Vector VReg 32 => v[r]) hv
    | some h =>
      dsimp only [Option.getD_some]
      rw [hv]

include h0 in
theorem partDone_me : (partDone s u n).me = { u.me with six := n, held := (partDone s u n).me.held } := by
  have h6 : u.me.six = s.me.six := same_but_writes hme Strand.six fun _ _ => rfl
  unfold partDone
  split
  next hn => rw [hn, ← h0 hn, ← h6]
  · rfl

omit hme in
theorem partDone_rest : (partDone s u n).mem = u.mem ∧ (partDone s u n).core = u.core := by
  unfold partDone
  split <;> exact ⟨rfl, rfl⟩

end

theorem groupStart_le {s : State} {e : Nat} (h : s.me.six ≤ e) : s.me.six ≤ groupStart s e ∧ groupStart s e ≤ e := by
  have := Nat.div_mul_le_self (e - s.me.six) (max s.core.alc 64)
  rw [groupStart]
  omega

section
variable {s : State} {d : VRegN} {a b c : GReg} {pm : Bool} (hs : Begun s) (hl : planeMajorOk pm (gR a s) (gR b s) s.me.vl = true) {z : State}
  (hz : raiseMisses .vstore (elementVas pm (gR a s) (gR b s) (vWidth (vSrc d s)) s) s = z) {st : Nat → State} (hst : st s.me.six = z)
include hs hl hz hst

theorem vst_done (hp : NoPoison (named s [d]) (toDo (active s.me) s)) {x : Nat → Unit}
    (hx : Accesses (storeElement (vSrc d s) pm (gR a s) (gR b s) (gR c s)) s.me.six s.me.vl st x) (hvl : (st (lastOf s)).me.vl = s.me.vl) :
    exec (.vst d a b c pm) s = .next (retire { st (lastOf s) with quota := none }) := by
  have hme : z.me = s.me := by rw [← hz, raiseMisses_me]
  have hq : z.quota = none := by rw [← hz, raiseMisses_quota]; exact hs.2.2.1
  have hlast : lastOf z = lastOf s := by rw [lastOf, hme, lastOf]
  have hgo : vstGo d a b c pm (stopAt z) z = (none, retire { st (lastOf s) with quota := none }) := by
    rw [vstGo_eq (sameSources_of_me hme), stopAt_unbounded rfl hq, storeUpTo_all (by rw [hme]; exact hst) (by rw [hme]; exact hx), hlast, endStore,
      if_pos (by rw [hvl]; exact Nat.le_max_right _ _)]
    rfl
  rw [exec_vst hs, if_pos hl, hz, firstPoison_clean _ _ hp, memoryRun_done hgo]

theorem vst_faults (hp : NoPoison (named s [d]) (toDo (active s.me) s)) {n : Nat} {va : Word} {x : XFault} {u : State} (hn : n < s.me.vl)
    (hf : FaultsAt (storeElement (vSrc d s) pm (gR a s) (gR b s) (gR c s)) s.me.six n st va x u) (h6 : u.me.six = s.me.six) (hpc : u.me.pc = s.me.pc) (htvec : u.me.tvec = s.me.tvec)
    (hvl : u.me.vl = s.me.vl) : TrapsAt .vstore n va x u s (exec (.vst d a b c pm) s) := by
  have hme : z.me = s.me := by rw [← hz, raiseMisses_me]
  have hq : z.quota = none := by rw [← hz, raiseMisses_quota]; exact hs.2.2.1
  have hgo : vstGo d a b c pm (stopAt z) z = (some (elementTrap .vstore n va x u), endStore (n / 64 * 64) id u) := by
    rw [vstGo_eq (sameSources_of_me hme), stopAt_unbounded rfl hq, storeUpTo_faults (by rw [hme]; exact hst) (by rw [hme]; exact hn) (by rw [hme]; exact hf)]
  obtain ⟨hlt, h0⟩ := segment_below hs.2.1 hf.1 hn
  obtain ⟨h1, h2, h3⟩ := endStore_stopped (stop := n / 64 * 64) (final := id) (u := u) (by rwa [hvl]) (by rwa [h6])
  refine ⟨endStore (n / 64 * 64) id u, ?_, h1.trans hpc, h2, h3.trans htvec⟩
  rw [exec_vst hs, if_pos hl, hz, firstPoison_clean _ _ hp, memoryRun_faults hgo]

/-- The part of VST before the group that consumes poison is done, and then the group up to the poisoned element is tried. -/
theorem vst_poison {e : Nat} {r : Fin 32} {m : PoisonMark} (hp : FirstPoison (named s [d]) (toDo (active s.me) s) e r m) {y : Nat → Unit} {u : State} (hu : st (groupStart s e) = u)
    (hy : Accesses (storeElement (vSrc d s) pm (gR a s) (gR b s) (gR c s)) s.me.six (groupStart s e) st y) (hme : u.me = { s.me with vwq := u.me.vwq }) (hq : u.quota = none)
    {st2 : Nat → State} {y2 : Nat → Unit} (hst2 : st2 (groupStart s e) = partDone s u (groupStart s e))
    (hy2 : Accesses (storeElement (vSrc d s) pm (gR a s) (gR b s) (gR c s)) (groupStart s e) (e + 1) st2 y2) :
    ∃ t, exec (.vst d a b c pm) s = .next t ∧ PoisonTrap 0 d.1 e m.producer (groupStart s e) u t ∧ t.me.vwq = u.me.vwq ∧ t.me.v = s.me.v ∧ t.core = u.core := by
  have hzme : z.me = s.me := by rw [← hz, raiseMisses_me]
  obtain ⟨hvl, h6, -⟩ := mem_toDo.1 (mem_of_firstPoison hp)
  obtain ⟨hlow, hhigh⟩ := groupStart_le h6
  have hgroup : groupOf z e = groupStart s e := by rw [← hz, raiseMisses_groupOf]
  have hzero : groupStart s e = 0 → s.me.six = 0 := by omega
  have h1 : vstGo d a b c pm (groupOf z e) z = (none, partDone s u (groupStart s e)) := by
    rw [vstGo_eq (sameSources_of_me hzme), hgroup, storeUpTo_done (by rw [hzme]; omega) (by rw [hzme]; exact hst) (by rw [hzme]; exact hy), hzme, Nat.max_eq_right hlow, hu,
      endStore_partDone hme (by omega) hq]
  generalize groupStart s e = n at *
  have hpart := partDone_me (n := n) hme hzero
  obtain ⟨hpmem, hpcore⟩ := partDone_rest (s := s) (u := u) (n := n)
  have hsources := partDone_sources (n := n) hme
  generalize partDone s u n = v at *
  have hv6 : v.me.six = n := by rw [hpart]
  have hvvl : v.me.vl = s.me.vl := by rw [hpart]; exact same_but_writes hme Strand.vl fun _ _ => rfl
  have hvv : v.me.v = s.me.v := by rw [hpart]; exact same_but_writes hme Strand.v fun _ _ => rfl
  have hh : inHandler v.me = false := by rw [hpart]; exact (same_but_writes hme inHandler fun _ _ => rfl).trans hs.1
  have h2 : ∃ t2, vstGo d a b c pm (e + 1) v = (none, t2) := by
    rw [vstGo_eq hsources, storeUpTo_done (st := st2) (by rw [hvvl]; omega) (by rw [hv6]; exact hst2) (by rw [hv6]; exact hy2)]
    exact ⟨_, rfl⟩
  obtain ⟨t2, h2⟩ := h2
  obtain rfl := source_of_firstPoison hp
  refine ⟨poisonTrap 0 r.1 e m.producer v, ?_, ?_, ?_, ?_, ?_⟩
  · rw [exec_vst hs, if_pos hl, hz, firstPoison_found hp, memoryRun_poison h1 h2]
  · have := poisonTrap_taken (s := u) hh (by rw [hpart]) hpmem 0 r.1 e m.producer
    rwa [hv6] at this
  · rw [poisonTrap_vwq hh, hpart]
  · rw [poisonTrap_v hh, hvv]
  · rw [poisonTrap_core hh, hpcore]

end

end Sys2Proof.Machine
end

section
/-! Vector stores (O44): VSCATTER (R119, R307). -/

namespace Sys2Proof.Machine

set_option Elab.async false

open Sys2Proof.Claims Sys2Proof.Laws

/-! ## An order that is not specified -/

theorem takeAt_perm {α : Type} {k : Nat} {l : List α} (h : k < l.length) : ∃ x rest, takeAt k l = some (x, rest) ∧ (x :: rest).Perm l := by
  induction l generalizing k with
  | nil => cases h
  | cons y l ih =>
    cases k with
    | zero => exact ⟨y, l, rfl, .refl _⟩
    | succ k =>
      obtain ⟨x, rest, ht, hp⟩ := ih (Nat.lt_of_succ_lt_succ h)
      exact ⟨x, y :: rest, by rw [takeAt, ht]; rfl, (List.Perm.swap y x rest).trans (hp.cons y)⟩

/-- Writes put in some order are the same writes, and only free values are drawn. -/
theorem shuffled_perm {n : Nat} {ws : List Write} (s : State) (h : ws.length = n) : (shuffled n ws s).1.Perm ws ∧ ∃ k, (shuffled n ws s).2 = { s with free := k } := by
  induction n generalizing ws s with
  | zero => exact ⟨.refl _, s.free, rfl⟩
  | succ n ih =>
    cases ws with
    | nil => cases h
    | cons w ws =>
      have hpos : 0 < (w :: ws).length := Nat.succ_pos _
      obtain ⟨x, rest, ht, hp⟩ := takeAt_perm (l := w :: ws) (Nat.mod_lt (Config.scatterPick (draw s).1) hpos)
      have hlen : rest.length = n := by
        have := hp.length_eq
        rw [h] at this
        exact Nat.succ.inj this
      obtain ⟨hperm, k, hk⟩ := ih (ws := rest) (draw s).2 hlen
      rw [shuffled]
      dsimp only
      · rw [ht]
        exact ⟨(hperm.cons x).trans hp, k, hk⟩
      · exact List.cons_ne_nil _ _

/-! ## The lower of two poisoned elements -/

theorem lowerHit_left {x y : Option (Nat × Fin 32 × PoisonMark)} {a : Nat × Fin 32 × PoisonMark} (hx : x = some a) (hy : ∀ b, y = some b → a.1 ≤ b.1) : lowerHit x y = some a := by
  subst hx
  cases y with
  | none => rfl
  | some b => exact if_neg (Nat.not_lt.2 (hy b rfl))

theorem lowerHit_right {x y : Option (Nat × Fin 32 × PoisonMark)} {b : Nat × Fin 32 × PoisonMark} (hy : y = some b) (hx : ∀ a, x = some a → b.1 < a.1) : lowerHit x y = some b := by
  subst hy
  cases x with
  | none => rfl
  | some a => exact if_pos (hx a rfl)

/-- Poison that is found is no lower than elements that lie in no poisoned word. -/
theorem firstPoison_above {srcs : List (Fin 32 × VReg)} {es : List Nat} {p : Nat → Bool} (h : NoPoison srcs (es.filter p)) {x : Nat × Fin 32 × PoisonMark} (hx : firstPoison srcs es = some x) :
    p x.1 = false := by
  obtain ⟨he, r, hr, hm, hseg⟩ := poisoned_of_firstPoison hx
  by_contra hp
  exact h x.1 (List.mem_filter.2 ⟨he, by simpa using hp⟩) r hr _ hm hseg

theorem toDo_and (act p : Nat → Bool) (s : State) : toDo (fun e => act e && p e) s = (toDo act s).filter p := by
  rw [toDo, toDo, List.filter_filter]
  refine List.filter_congr fun e _ => ?_
  cases act e <;> cases p e <;> simp

/-! ## VSCATTER -/

section
variable {s z : State} {vd vb : VReg} {base g : Word} {r : GReg} {st : Nat → State} {x : Nat → List Write} (ordered : Bool)

/-- The writes of a scatter, in the order in which they go on their way. -/
def scatterOrder (ordered : Bool) (ws : List Write) (u : State) : List Write × State := if ordered then (ws, u) else shuffled ws.length ws u

theorem scatterUpTo_all (hst : st z.me.six = z) (hx : Accesses (scatterElement vd vb base g) z.me.six z.me.vl st x) :
    scatterUpTo ordered vd vb base g r (lastOf z) z = (none, endStore (lastOf z) (setG r (gatherStatus g vb z))
      (pushWrites (scatterOrder ordered ((rest z).flatMap x) (st (lastOf z))).1 (scatterOrder ordered ((rest z).flatMap x) (st (lastOf z))).2)) := by
  have hrun := runElements_all (acc := .scatter) hx
  rw [← rest_eq_range', hst] at hrun
  rw [scatterUpTo, elementsTo_all, ← rest_eq_range', hrun, List.flatMap_def]
  rfl

theorem scatterUpTo_done {stop : Nat} (hvl : stop ≤ z.me.vl) (hst : st z.me.six = z) (hx : Accesses (scatterElement vd vb base g) z.me.six stop st x) :
    ∃ t, scatterUpTo ordered vd vb base g r stop z = (none, t) := by
  have hrun := runElements_all (acc := .scatter) hx
  rw [hst] at hrun
  rw [scatterUpTo, elementsTo_upTo hvl, hrun]
  exact ⟨_, rfl⟩

theorem pushWrites_nil (u : State) : pushWrites [] u = u := by simp [pushWrites, onMe]

/-- A scatter of no element changes nothing. -/
theorem scatterUpTo_zero (hvl : 0 < z.me.vl) (hq : z.quota = none) : scatterUpTo ordered vd vb base g r 0 z = (none, z) := by
  have hnone : elementsTo 0 z.me = [] := by rw [elementsTo_eq_range', Nat.zero_min, Nat.zero_sub]; rfl
  have hend : endStore 0 (setG r (gatherStatus g vb z)) z = z := by rw [endStore_part hvl hq, if_pos rfl]
  rw [scatterUpTo, hnone]
  cases ordered <;> show (none, endStore 0 (setG r (gatherStatus g vb z)) (pushWrites [] z)) = _ <;> rw [pushWrites_nil, hend]

end

/-- The state after a scatter's status word and writes, before it retires. -/
def scattered (r : GReg) (status : Word) (u : State) (ws : List Write) (n : Nat) : State :=
  let t := setG r status u
  { t with me := { t.me with vwq := t.me.vwq ++ ws }, free := n }

theorem scattered_eq {u : State} (hq : u.quota = none) (r : GReg) (status : Word) (ws : List Write) (n : Nat) :
    clearQuota (setG r status (pushWrites ws { u with free := n })) = scattered r status u ws n := by
  rw [clearQuota_none _ (by rw [setG_quota]; exact hq), scattered, setG, setG]
  split <;> rfl

section
variable {s : State} {d b : VRegN} {a c : GReg}

/-- What a scatter consumes that is poisoned: an index, or an element with an index in range. -/
def scatterHit (d b : VRegN) (c : GReg) (s : State) : Option (Nat × Fin 32 × PoisonMark) :=
  lowerHit (firstPoison (named s [b]) (toDo (active s.me) s)) (firstPoison (named s [d]) ((toDo (active s.me) s).filter fun k => testIndex (gR c s) (elem (vSrc b s) k) == .inside))

theorem scatterHit_clean (hb : NoPoison (named s [b]) (toDo (active s.me) s))
    (hd : NoPoison (named s [d]) ((toDo (active s.me) s).filter fun k => testIndex (gR c s) (elem (vSrc b s) k) == .inside)) : scatterHit d b c s = none := by
  rw [scatterHit, firstPoison_clean _ _ hb, firstPoison_clean _ _ hd]
  rfl

/-- The lowest poisoned element, and of its two sources the index first. -/
theorem scatterHit_first {e : Nat} {r : Fin 32} {m : PoisonMark}
    (h : FirstPoison (named s [b]) (toDo (active s.me) s) e r m ∧
        NoPoison (named s [d]) (((toDo (active s.me) s).filter fun k => testIndex (gR c s) (elem (vSrc b s) k) == .inside).filter fun k => decide (k < e)) ∨
      FirstPoison (named s [d]) ((toDo (active s.me) s).filter fun k => testIndex (gR c s) (elem (vSrc b s) k) == .inside) e r m ∧
        NoPoison (named s [b]) ((toDo (active s.me) s).filter fun k => decide (k ≤ e))) : scatterHit d b c s = some (e, r, m) ∧ e < s.me.vl := by
  obtain ⟨hfirst, hno⟩ | ⟨hfirst, hno⟩ := h
  · refine ⟨lowerHit_left (firstPoison_found hfirst) fun x hx => ?_, (mem_toDo.1 (mem_of_firstPoison hfirst)).1⟩
    exact Nat.not_lt.1 (of_decide_eq_false (firstPoison_above hno hx))
  · refine ⟨lowerHit_right (firstPoison_found hfirst) fun x hx => ?_, (mem_toDo.1 (List.mem_of_mem_filter (mem_of_firstPoison hfirst))).1⟩
    exact Nat.not_le.1 (of_decide_eq_false (firstPoison_above hno hx))

theorem scatter_eq (hs : Begun s) (i : Instr) (ordered : Bool) : scatter i ordered d a b c s = .next
    (if gatherOk (vSrc d s) (vSrc b s) (gR c s) then
      memoryRun (scatterHit d b c s) (scatterUpTo ordered (vSrc d s) (vSrc b s) (gR a s) (gR c s) (nextReg c))
        (raiseMisses .scatter (indexedVas (vSrc d s) (vSrc b s) (gR a s) (gR c s) s) s)
    else illop i 0 s) := by
  rw [scatterHit, ← poisonOf_eq hs, ← toDo_and, ← poisonOf_eq hs]
  exact legal_out i (fun s => gatherOk (vSrc d s) (vSrc b s) (gR c s))
    (fun s1 s => memoryRun (lowerHit (poisonOf (src b s) (active s.me) s) (poisonOf (src d s) (fun e => active s.me e && testIndex (gR c s1) (elem (vSrc b s1) e) == .inside) s))
      (scatterUpTo ordered (vSrc d s1) (vSrc b s1) (gR a s) (gR c s1) (nextReg c)) (raiseMisses .scatter (indexedVas (vSrc d s1) (vSrc b s1) (gR a s) (gR c s1) s) s)) s hs.1

variable (hs : Begun s) (hl : gatherOk (vSrc d s) (vSrc b s) (gR c s) = true) {z : State}
  (hz : raiseMisses .scatter (indexedVas (vSrc d s) (vSrc b s) (gR a s) (gR c s) s) s = z) {st : Nat → State} {x : Nat → List Write}
include hs hl hz

theorem scatter_poison (hst : st 0 = z) (h0 : s.me.six = 0) {e : Nat} {r : Fin 32} {m : PoisonMark} (hhit : scatterHit d b c s = some (e, r, m)) (hvl : e < s.me.vl) (he : e < max s.core.alc 64)
    (hx : Accesses (scatterElement (vSrc d s) (vSrc b s) (gR a s) (gR c s)) 0 (e + 1) st x) (i : Instr) (ordered : Bool) :
    ∃ t, scatter i ordered d a b c s = .next t ∧ PoisonTrap 0 r.1 e m.producer 0 s t ∧ t.me.v = s.me.v ∧ t.me.vwq = s.me.vwq ∧ t.core = z.core := by
  have hzme : z.me = s.me := by rw [← hz, raiseMisses_me]
  have hzq : z.quota = none := by rw [← hz, raiseMisses_quota]; exact hs.2.2.1
  have hzmem : z.mem = s.mem := by rw [← hz, raiseMisses_mem]
  have hgroup : groupOf z e = 0 := by rw [← hz, raiseMisses_groupOf, groupStart, h0, Nat.sub_zero, Nat.zero_add, Nat.div_eq_of_lt he, Nat.zero_mul]
  have hh : inHandler z.me = false := by rw [hzme]; exact hs.1
  have h1 : scatterUpTo ordered (vSrc d s) (vSrc b s) (gR a s) (gR c s) (nextReg c) (groupOf z e) z = (none, z) := by
    rw [hgroup]
    exact scatterUpTo_zero ordered (by rw [hzme]; exact Nat.zero_lt_of_lt hvl) hzq
  obtain ⟨t2, h2⟩ := scatterUpTo_done (st := st) (r := nextReg c) ordered (stop := e + 1) (by rw [hzme]; exact hvl) (by rw [hzme, h0]; exact hst) (by rw [hzme, h0]; exact hx)
  refine ⟨_, scatter_eq hs i ordered, ?_⟩
  rw [if_pos hl, hz, hhit, memoryRun_poison h1 h2]
  refine ⟨?_, by rw [poisonTrap_v hh, hzme], by rw [poisonTrap_vwq hh, hzme], poisonTrap_core hh _ _ _ _⟩
  rw [← h0]
  exact poisonTrap_here hs.1 hzme hzmem _ _ _ _

/-- A scatter without a fault or poison retires with its writes, in an order, on their way, and its status word written. -/
theorem scatter_done (hst : st s.me.six = z) (hhit : scatterHit d b c s = none) (hx : Accesses (scatterElement (vSrc d s) (vSrc b s) (gR a s) (gR c s)) s.me.six s.me.vl st x)
    (hme : (st (lastOf s)).me = s.me) (hq : (st (lastOf s)).quota = none) {i : Instr} {ordered : Bool} {ws : List Write} {n : Nat}
    (hws : scatterOrder ordered ((rest s).flatMap x) (st (lastOf s)) = (ws, { st (lastOf s) with free := n })) :
    scatter i ordered d a b c s = .next (retire (scattered (nextReg c) (gatherStatus (gR c s) (vSrc b s) s) (st (lastOf s)) ws n)) := by
  have hzme : z.me = s.me := by rw [← hz, raiseMisses_me]
  have hzq : z.quota = none := by rw [← hz, raiseMisses_quota]; exact hs.2.2.1
  have h6 : z.me.six = s.me.six := by rw [hzme]
  have hvl : z.me.vl = s.me.vl := by rw [hzme]
  have hlast : lastOf z = lastOf s := lastOf_congr h6 hvl
  have hall := scatterUpTo_all (r := nextReg c) ordered (by rw [h6]; exact hst) (by rw [h6, hvl]; exact hx)
  have hreach : (pushWrites ws { st (lastOf s) with free := n }).me.vl ≤ lastOf s := by
    show (st (lastOf s)).me.vl ≤ lastOf s
    rw [hme]
    exact Nat.le_max_right _ _
  rw [hlast, rest_congr h6 hvl, hws, endStore, if_pos hreach, gatherStatus_of_me hzme, scattered_eq hq] at hall
  rw [scatter_eq hs, if_pos hl, hz, hhit, memoryRun_done (by rw [stopAt_unbounded hzme hzq]; exact hall)]

end

end Sys2Proof.Machine
end

section
/-! Vector stores (O44): DRAIN (R283). -/

namespace Sys2Proof.Machine

set_option Elab.async false

open Sys2Proof.Claims Sys2Proof.Laws

/-! ## The cells of a tile, row by row -/

theorem cells_eq (m n : Nat) : ((List.range m).flatMap fun r => (List.range n).map fun j => (r, j)) = (List.range (m * n)).map fun k => (k / n, k % n) := by
  induction m with
  | zero => rw [Nat.zero_mul]; rfl
  | succ m ih =>
    have hrow : ((List.range n).map fun j => (m, j)) = (List.range n).map fun j => ((m * n + j) / n, (m * n + j) % n) := by
      refine List.map_congr_left fun j hj => ?_
      have hj := List.mem_range.1 hj
      rw [Nat.add_comm, Nat.add_mul_div_right _ _ (Nat.zero_lt_of_lt hj), Nat.div_eq_of_lt hj, Nat.zero_add, Nat.add_mul_mod_self_right, Nat.mod_eq_of_lt hj]
    rw [List.range_succ, List.flatMap_append, ih, Nat.succ_mul, List.range_add, List.map_append, List.map_map, List.flatMap_singleton, hrow]
    rfl

/-- The place of a cell in the order of rows and columns. -/
theorem squareCells_place {n k i j : Nat} (h : (squareCells n)[k]? = some (i, j)) : i * n + j = k := by
  rw [squareCells, cells_eq, List.getElem?_map] at h
  obtain ⟨e, he, hij⟩ := Option.map_eq_some_iff.1 h
  obtain ⟨hlt, hget⟩ := List.getElem?_eq_some_iff.1 he
  rw [List.getElem_range] at hget
  subst hget
  obtain ⟨rfl, rfl⟩ := Prod.mk.inj hij
  exact Nat.div_add_mod' k n

/-- The output element that a cell is, of an image that may be transposed. -/
theorem drainCells_place {tr : Bool} {n k row col : Nat} (h : ((squareCells n).map fun c => if tr then (c.2, c.1) else c)[k]? = some (row, col)) :
    (if tr then col * n + row else row * n + col) = k := by
  rw [List.getElem?_map] at h
  obtain ⟨⟨i, j⟩, hc, hij⟩ := Option.map_eq_some_iff.1 h
  cases tr <;> cases hij <;> exact squareCells_place hc

/-! ## Poisoned cells -/

theorem cellMark_clean {d row col : Nat} {s : State} (h : CellClean d row col s) : cellMark d row col s = none := by
  rw [cellMark, Option.map_eq_none_iff, List.find?_eq_none]
  intro m hm
  simpa [and_assoc] using h m hm

theorem cellHit_clean {d : Nat} {cells : List (Nat × Nat)} {s : State} (h : ∀ c ∈ cells, CellClean d c.1 c.2 s) : cellHit d cells s = none := by
  rw [cellHit, List.findSome?_eq_none_iff.2 fun c hc => cellMark_clean (h c hc)]
  exact ite_self _

theorem cellHit_first {d : Nat} {cells : List (Nat × Nat)} {row col : Nat} {w : Word} {s : State} (h : FirstCell d cells row col w s) : cellHit d cells s = some ⟨d, row, col, w⟩ := by
  obtain ⟨before, after, rfl, hbefore, m, hm, rfl⟩ := h
  have hany : s.core.cellPoison.isEmpty = false := List.isEmpty_eq_false_iff.2 (List.ne_nil_of_mem (List.mem_of_find?_eq_some hm))
  rw [cellHit, hany, if_neg Bool.false_ne_true, List.findSome?_append, List.findSome?_eq_none_iff.2 fun c hc => cellMark_clean (hbefore c hc), Option.none_or, List.findSome?_cons, cellMark, hm]
  rfl

/-! ## A whole instruction of the array -/

theorem chapter_fresh {s : State} (hs : Fresh s) (hf : FormatStands s) (i : Instr) : chapter i s = .ok () s := by
  have hnone : (s.core.strands.any fun t => (formatPlace t).isSome) = false := by
    rw [List.any_eq_false]
    intro t ht
    have := hf t ht
    unfold formatPlace
    cases hl : t.leave with
    | format n => exact absurd hl (this n)
    | _ => simp
  rw [chapter, whole_fresh hs, Res.bind, hnone, Bool.and_false]
  rfl

/-! ## DRAIN -/

theorem foldl_flags (f : Nat → Nat) (es : List Nat) : es.foldl (fun x e => x ||| f e) 0 = orAll (es.map f) := by
  rw [orAll, ← List.foldl_map (f := f) (g := fun x y => x ||| y), List.foldl_eq_foldr]

section
variable {a : Nat} {w base : Word} {now s : State} {st : Nat → State} (hcmp : ddCMP w = false) (hst : st 0 = s)
include hcmp hst

theorem drainRun_done {x : Nat → Unit} {n : Nat} (hx : Accesses (drainElement a w base now) 0 n st x) : drainRun a w base now n s = (none, st n) := by
  have hrun := runElements_all (acc := .vstore) hx
  rw [hst, Nat.zero_max, Nat.sub_zero, ← List.range_eq_range'] at hrun
  rw [drainRun, hcmp, if_neg Bool.false_ne_true, hrun]
  rfl

theorem drainRun_faults {k n : Nat} {va : Word} {x : XFault} {u : State} (hk : k < n) (hf : FaultsAt (drainElement a w base now) 0 k st va x u) :
    drainRun a w base now n s = (some (elementTrap .vstore k va x u), u) := by
  obtain ⟨h0, ⟨y, hy⟩, hfault⟩ := hf
  have hrun := runElements_faults (acc := .vstore) h0 hk hy hfault
  rw [hst, Nat.sub_zero, ← List.range_eq_range'] at hrun
  rw [drainRun, hcmp, if_neg Bool.false_ne_true, hrun]
  rfl

end

/-- The cells of a drain's image, in the order of its rows and columns. -/
def drainCells (w : Word) (n : Nat) : List (Nat × Nat) := (squareCells n).map fun c => if ddTR w then (c.2, c.1) else c

/-- What DRAIN does with the values of a state whose block is closed. -/
def drainClosed (a : AccN) (w base : Word) (n : Nat) (now s : State) : Res Unit :=
  match cellHit a.1 (drainCells w n) now with
  | some m =>
    match drainRun a.1 w base now ((if ddTR w then m.col * n + m.row else m.row * n + m.col) + 1) s with
    | (some t, s1) => .stop (trapHere t s1)
    | (none, _) => .stop (cellTrap m s)
  | none =>
    match drainRun a.1 w base now (n * n) s with
    | (some t, s1) => .stop (trapHere t s1)
    | (none, s1) => (closeIf (fun o => o == a.1) s1).bind fun _ s2 =>
        .ok () (retire (clearQuota (raise ((List.range (n * n)).foldl (fun f e => f ||| (drainCode a.1 w now (e / n) (e % n)).2) 0) s2)))

section
variable {s : State} {a : AccN} {p q : GReg} (hs : Fresh s) (hf : FormatStands s)
include hs hf

theorem exec_drain : exec (.drain a p q) s = ((require (.drain a p q) (tileOk a s && drainOk (gR q s) (gR p s) s.me.mvl) s).bind fun _ s1 =>
    (closeIf (fun o => o == a.1) s1).bind fun _ now => drainClosed a (gR q s) (gR p s) s.me.mvl now s1).out := by
  show execDrain a p q s = _
  rw [execDrain, chapter_fresh hs hf]
  rfl

theorem drain_illegal (h : tileOk a s = false ∨ drainOk (gR q s) (gR p s) s.me.mvl = false) : exec (.drain a p q) s = .next (illop (.drain a p q) 0 s) := by
  have hok : (tileOk a s && drainOk (gR q s) (gR p s) s.me.mvl) = false := by
    obtain h | h := h <;> simp [h]
  rw [exec_drain hs hf, require_unmet hok]
  rfl

variable (ht : tileOk a s = true) (hd : drainOk (gR q s) (gR p s) s.me.mvl = true)
include ht hd

theorem drain_legal : exec (.drain a p q) s = ((closeIf (fun o => o == a.1) s).bind fun _ now => drainClosed a (gR q s) (gR p s) s.me.mvl now s).out := by
  rw [exec_drain hs hf, require_met (by rw [ht, hd]; rfl)]
  rfl

theorem drain_stops {u : State} (h : closeIf (fun o => o == a.1) s = .stop u) : exec (.drain a p q) s = .next u := by
  rw [drain_legal hs hf ht hd, h]
  rfl

variable {now : State} (hnow : closeIf (fun o => o == a.1) s = .ok () now)
include hnow

theorem drain_poison {row col k : Nat} {w' : Word} {u : State} (h : FirstCell a.1 (drainCells (gR q s) s.me.mvl) row col w' now) (hk : (drainCells (gR q s) s.me.mvl)[k]? = some (row, col))
    (hrun : drainRun a.1 (gR q s) (gR p s) now (k + 1) s = (none, u)) :
    ∃ t, exec (.drain a p q) s = .next t ∧ PoisonTrap 2 a.1 (Config.poisonCell row col) w' 0 s t ∧ Unwritten s t := by
  refine ⟨poisonTrap 2 a.1 (Config.poisonCell row col) w' s, ?_, ?_, poisonTrap_unwritten hs.1 _ _ _ _⟩
  · rw [drain_legal hs hf ht hd, hnow, Res.bind, drainClosed, cellHit_first h]
    dsimp only
    rw [drainCells_place hk, hrun]
    rfl
  · have := poisonTrap_here (u := s) hs.1 rfl rfl 2 a.1 (Config.poisonCell row col) w'
    rwa [hs.2.1] at this

variable (hclean : ∀ c ∈ drainCells (gR q s) s.me.mvl, CellClean a.1 c.1 c.2 now)
include hclean

theorem drain_faults {i : TrapInfo} {u : State} (hrun : drainRun a.1 (gR q s) (gR p s) now (s.me.mvl * s.me.mvl) s = (some i, u)) : exec (.drain a p q) s = .next (trapHere i u) := by
  rw [drain_legal hs hf ht hd, hnow, Res.bind, drainClosed, cellHit_clean hclean, hrun]
  rfl

theorem drain_done {u s2 : State} (hrun : drainRun a.1 (gR q s) (gR p s) now (s.me.mvl * s.me.mvl) s = (none, u)) (hclose : closeIf (fun o => o == a.1) u = .ok () s2) :
    exec (.drain a p q) s = .next (retire (clearQuota (raise
      (orAll ((List.range (s.me.mvl * s.me.mvl)).map fun e => (drainCode a.1 (gR q s) now (e / s.me.mvl) (e % s.me.mvl)).2)) s2))) := by
  rw [drain_legal hs hf ht hd, hnow, Res.bind, drainClosed, cellHit_clean hclean, hrun, ← foldl_flags]
  dsimp only
  rw [hclose]
  rfl

end

end Sys2Proof.Machine
end

section
namespace Sys2Proof.Claims

set_option Elab.async false

open Sys2Proof.Machine Sys2Proof.Laws

/-- Settles O44: a run of elements without a fault puts their writes on their way in order, a run with a fault ends at the faulting segment, and poison is looked for before the run. -/
theorem vectorStores : Obligations.VectorStores := by
  unfold Obligations.VectorStores
  refine ⟨fun s d a b c pm hs => ⟨fun hl => ?_, fun st hst hl hp => ⟨fun x hx hsame => vst_done hs hl rfl hst hp hx (hsame _ (Nat.le_max_left _ _) (Nat.le_refl _)).1,
        fun n va x u hn hf h6 hpc htvec hvl => vst_faults hs hl rfl hst hp hn hf h6 hpc htvec hvl⟩,
      fun st y e r m hst hl hp hy hstrand ⟨st2, y2, hst2, hy2, _⟩ => ?_, fun e u t ws hact hb hpm => ?_, fun e u hact => storeElement_masked hact⟩,
    fun s d b a c hs => ⟨fun i hi => ?_, fun st x hst hl hb hd hx hsame => ?_⟩,
    fun s a p q hs hf => ⟨drain_illegal hs hf, fun ht hd u => drain_stops hs hf ht hd, fun now ht hd hnow hmvl => ⟨fun row col w' k st x h hk hcmp hst hx => ?_, fun hclean => ⟨?_, ?_, ?_⟩⟩⟩⟩
  case refine_1 => rw [exec_vst hs, hl]; rfl
  case refine_2 =>
    obtain ⟨hvl, h6, -⟩ := mem_toDo.1 (mem_of_firstPoison hp)
    obtain ⟨hme, hq⟩ := hstrand _ (groupStart_le h6).1 (Nat.le_refl _)
    refine vst_poison hs hl rfl hst hp rfl hy hme hq (hst2.trans ?_) hy2
    rw [partDone]
    cases s.me.held <;> rfl
  case refine_3 =>
    subst hpm
    exact storeElement_container hact hb
  case refine_4 =>
    have hform : ∃ ordered, ∀ s, exec i s = scatter i ordered d a b c s := by
      obtain rfl | rfl := hi
      · exact ⟨true, fun _ => rfl⟩
      · exact ⟨false, fun _ => rfl⟩
    obtain ⟨ordered, hexec⟩ := hform
    rw [hexec]
    refine ⟨fun hl => ?_, fun st x e r m hst h0 hl he hx _ hp => ?_⟩
    · rw [scatter_eq hs, hl]
      rfl
    · obtain ⟨hhit, hvl⟩ := scatterHit_first hp
      exact scatter_poison hs hl rfl hst h0 hhit hvl he hx i ordered
  case refine_5 =>
    obtain ⟨hme, hq⟩ := hsame _ (Nat.le_max_left _ _) (Nat.le_refl _)
    obtain ⟨hperm, k, hk⟩ := shuffled_perm (st (lastOf s)) (ws := (rest s).flatMap x) rfl
    have hhit := scatterHit_clean hb hd
    exact ⟨scatter_done hs hl rfl hst hhit hx hme hq (ordered := true) rfl, _, k, hperm, scatter_done hs hl rfl hst hhit hx hme hq (ordered := false) (Prod.ext rfl hk)⟩
  case refine_6 => exact drain_poison hs hf ht hd hnow h hk (drainRun_done hcmp hst hx)
  case refine_7 => exact fun st x s2 hcmp hst hx => drain_done hs hf ht hd hnow hclean (drainRun_done hcmp hst hx)
  case refine_8 => exact fun st va x u k hcmp hst hk hfault => drain_faults hs hf ht hd hnow hclean (drainRun_faults hcmp hst hk hfault)
  case refine_9 =>
    refine fun u s2 hcmp hwrites => drain_done hs hf ht hd hnow hclean ?_
    rw [drainRun, hcmp, hmvl, if_pos rfl]
    exact hwrites

end Sys2Proof.Claims
end

section
/-! The state after reset (O5). -/

namespace Sys2Proof.Machine

set_option Elab.async false

open Sys2Proof.Claims Sys2Proof.Laws

/-- The strands of a core after its reset bear its number. -/
theorem housed_reset (m : Nat) : (Core.reset m (strandsReset m)).housed := by
  intro t ht
  simp only [Core.reset, strandsReset, List.mem_cons, List.not_mem_nil, or_false] at ht
  rcases ht with rfl | rfl | rfl | rfl <;> rfl

/-- The strands of core 0 that are not at hand after reset bear its number. -/
theorem housed_resetFirst : (Core.reset 0 [Strand.reset 0 1, Strand.reset 0 2, Strand.reset 0 3]).housed := fun t ht =>
  housed_reset 0 t (List.mem_cons_of_mem _ ht)

theorem reset_cores : State.reset.cores = (List.range 1535).map fun k => Core.reset (k + 1) (strandsReset (k + 1)) := by rw [State.reset]

theorem reset_wellKept : State.reset.wellKept where
  mem := rfl
  durable := rfl
  atHand := rfl
  here := housed_resetFirst
  elsewhere := by
    intro c hc
    rw [reset_cores, List.mem_map] at hc
    obtain ⟨k, -, rfl⟩ := hc
    exact housed_reset (k + 1)

/-- What the strand at hand holds after reset (R49, R166). -/
theorem reset_registers : (∀ r : Fin 32, State.reset.me.v[r] = ⟨0x0010, [], 0, [], []⟩) ∧ (∀ k : Fin 8, State.reset.me.sq[k].st = .closed) ∧
    ∀ k : Fin 3, State.reset.me.lc[k].act = false :=
  ⟨fun _ => Vector.getElem_replicate _, fun _ => congrArg Stream.st (Vector.getElem_replicate _), fun _ => congrArg Loop.act (Vector.getElem_replicate _)⟩

/-- What the core at hand holds after reset (R166, R261, R265). -/
theorem reset_core : (∀ k : Fin 64, State.reset.core.tags[k].st = .free) ∧ (∀ k : Fin 16, State.reset.core.scales[k] = ScaleSlot.reset) ∧
    ∀ k : Fin 4, State.reset.core.tables[k].kind = 0x001F :=
  ⟨fun _ => congrArg TagReg.st (Vector.getElem_replicate _), fun _ => Vector.getElem_replicate _, fun _ => congrArg CodeTable.kind (Vector.getElem_replicate _)⟩

/-- What every die holds after reset (R95, R367). -/
theorem reset_dies (d : Fin 4) : State.reset.dies[d] = Die.reset := Vector.getElem_replicate _

theorem reset_ctrls (c : Fin 5) : Die.reset.ctrls[c] = Ctrl.reset := Vector.getElem_replicate _

end Sys2Proof.Machine
end

section
namespace Sys2Proof.Claims

set_option Elab.async false

open Sys2Proof.Machine Sys2Proof.Laws

/-- Settles O5: the reset state is written out field by field, and its registers are vectors of one value. -/
theorem resetState : Obligations.ResetState := by
  unfold Obligations.ResetState
  obtain ⟨hv, hsq, hlc⟩ := reset_registers
  obtain ⟨htags, hscales, htables⟩ := reset_core
  refine ⟨⟨rfl, rfl, rfl, rfl, rfl, hv, hsq, hlc, htags, fun k => ?_, htables, rfl, rfl, rfl, fun d => ?_, rfl⟩, reset_wellKept⟩
  · rw [hscales]
    exact ⟨rfl, rfl⟩
  · rw [reset_dies]
    exact ⟨rfl, fun c => by rw [reset_ctrls]; rfl⟩

end Sys2Proof.Claims
end

section
/-! ERET (O8): its checks, and the strand that it leaves by each treatment of a held mapping (R340). -/

namespace Sys2Proof.Machine

set_option Elab.async false

open Sys2Proof.Claims Sys2Proof.Laws

section
variable {s : State}

theorem exec_eret (hl : atLoopEnd s.me = false) (hp : s.me.priv = true) (hq : s.me.sfq = []) : exec .eret s = .next (onMe leaveHandler s) := by
  show execEret s = _
  rw [execEret, notFinal, require_met (by rw [hl]; rfl), Res.bind, require_met (by rw [hp, hq]; rfl)]
  rfl

theorem eret_illegal (h : s.me.priv = false ∨ s.me.sfq ≠ [] ∨ atLoopEnd s.me = true) : exec .eret s = .next (illop .eret 0 s) := by
  show execEret s = _
  rw [execEret, notFinal]
  cases hl : atLoopEnd s.me
  case true =>
    rw [require_unmet (ok := !true) rfl]
    rfl
  case false =>
    have hbad : (s.me.priv && s.me.sfq.isEmpty) = false := by
      rw [Bool.and_eq_false_iff, List.isEmpty_eq_false_iff]
      simpa [hl] using h
    rw [require_met (ok := !false) rfl, Res.bind, require_unmet hbad]
    rfl

end

/-- A strand that goes back to the instruction at TEPC, in the mode that TSTAT keeps (R340). -/
def returned (t : Strand) : Strand := { t with priv := bit t.tstat 0, tstat := BitVec.ofNat 64 (bit t.tstat 0).toNat, pc := t.tepc }

theorem fld_bit (w : Word) (i : Nat) : fld w i 1 = (bit w i).toNat := by
  have : fld w i 1 < 2 := Nat.mod_lt _ (by decide)
  rcases Nat.lt_or_ge (fld w i 1) 1 with h | h
  · have h0 : fld w i 1 = 0 := by omega
    simp [bit, h0]
  · have h1 : fld w i 1 = 1 := by omega
    simp [bit, h1]

section
variable {t : Strand}

/-- Without a held mapping, and for an instruction that goes on with its own, SIX is what TSIX keeps. -/
theorem leaveHandler_resumes (h : t.held = none ∨ ∃ x, t.held = some x ∧ t.tepc = x.addr ∧ bit t.tstat 2 = true) :
    leaveHandler t = returned { t with six := fld t.tsix 6 8 * 64 } := by
  rcases h with h | ⟨x, h, ha, hb⟩
  · simp only [leaveHandler, h, fld_bit]
    rfl
  · simp only [leaveHandler, h, ha, vstop, hb, fld_bit, ne_eq, not_true_eq_false, if_false, if_true]
    rfl

/-- A return to another instruction gives the held mapping up. -/
theorem leaveHandler_elsewhere {x : Held} (h : t.held = some x) (ha : t.tepc ≠ x.addr) : leaveHandler t = returned { t with held := none, six := 0 } := by
  simp only [leaveHandler, h, fld_bit, if_pos ha]
  rfl

/-- A return to the stopped instruction with VSTOP clear gives its destination back as it was. -/
theorem leaveHandler_restores {x : Held} (h : t.held = some x) (ha : t.tepc = x.addr) (hb : bit t.tstat 2 = false) :
    leaveHandler t = returned { restoreHeld x t with held := none, six := 0 } := by
  have hsame : (restoreHeld x t).tstat = t.tstat ∧ (restoreHeld x t).tepc = t.tepc := by
    unfold restoreHeld
    split <;> exact ⟨rfl, rfl⟩
  simp only [leaveHandler, h, vstop, hb, fld_bit, ne_eq, ha, not_true_eq_false, if_false, Bool.false_eq_true, returned, hsame]
  rfl

end

end Sys2Proof.Machine
end

section
namespace Sys2Proof.Claims

set_option Elab.async false

open Sys2Proof.Machine Sys2Proof.Laws

/-- Settles O8: ERET that is legal leaves the handler, by what is held of a stopped instruction and where it returns to. -/
theorem eretReturns : Obligations.EretReturns := by
  unfold Obligations.EretReturns
  intro s
  refine ⟨fun hl hp hq => ?_, eret_illegal⟩
  rw [exec_eret hl hp hq]
  refine ⟨fun h => ?_, fun x h ha => ?_, fun x h ha hb => ?_, fun x h ha hb => ⟨fun r old at_ hr => ?_, fun r old hr => ?_, fun hr => ?_⟩⟩
  · rw [onMe, leaveHandler_resumes (.inl h)]
    rfl
  · rw [onMe, leaveHandler_elsewhere h ha]
    rfl
  · rw [onMe, leaveHandler_resumes (.inr ⟨x, h, ha, hb⟩)]
    rfl
  all_goals
    rw [onMe, leaveHandler_restores h ha hb, restoreHeld, hr]
    rfl

end Sys2Proof.Claims
end

section
/-! Element-wise instructions that consume poison (R345): the part that is done before the group of the poisoned element, and the trap. -/

namespace Sys2Proof.Machine

set_option Elab.async false

open Sys2Proof.Claims Sys2Proof.Laws

/-! ## A write of the elements from SIX up to a bound below VL (R173) -/

/-- Bit `b` of element `k` of a register. -/
theorem planeAt_bit (r : VReg) (b k : Nat) : (planeAt r b).getLsbD k = (elem r k).testBit b := (codeAt_testBit k r.planes b).symm

/-- The elements of a register after a write that is not complete: those below SIX and those from the bound on stand. -/
theorem partWrite_elem {w : VWrite} (hc : w.complete = false) (h6 : w.six ≤ w.stop) (hl : w.codes.length = w.stop - w.six) (pc : Word) (cur prev : VReg)
    {k : Nat} (hk : k < vlmax) : elem (w.result pc cur prev) k =
      (if k < w.six then elem cur k else if k < w.stop then (w.codes.getD (k - w.six) none).getD (elem prev k) else elem prev k) % 2 ^ tagWidth w.tag := by
  have hplanes : elem (w.result pc cur prev) k = (if k < w.six then elem cur k else if k < w.stop then (w.full prev).getD (k - w.six) 0 else elem prev k) % 2 ^ tagWidth w.tag := by
    refine codeAt_planes _ _ _ _ fun b _ => ?_
    simp only [hc, Bool.false_eq_true, if_false, BitVec.getLsbD_or, BitVec.getLsbD_and, BitVec.getLsbD_not, lowMask_bit, BitVec.getLsbD_ofNat, Nat.testBit_mul_two_pow, bitsOf_testBit,
      planeAt_bit, show k < 16384 from hk, decide_true, Bool.true_and]
    rcases Nat.lt_or_ge k w.six with h1 | h1
    · simp [h1, Nat.not_le.2 h1, Nat.lt_of_lt_of_le h1 h6]
    · rcases Nat.lt_or_ge k w.stop with h2 | h2
      · simp [h1, h2, Nat.not_lt.2 h1]
      · have hfull : (w.full prev).getD (k - w.six) 0 = 0 := full_beyond w prev _ (by omega)
        rw [hfull]
        simp [Nat.not_lt.2 h1, Nat.not_lt.2 h2]
  rw [hplanes]
  split
  · rfl
  · split
    next h1 h2 =>
      rw [full_getD _ _ _ (by omega), show w.six + (k - w.six) = k by omega]
      cases w.codes.getD (k - w.six) none <;> simp
    · rfl

/-- The elements that an instruction does up to a bound, of those that it has to do. -/
theorem elementsTo_below (act : Nat → Bool) {s : State} {n : Nat} (h6 : s.me.six ≤ n) (hn : n ≤ s.me.vl) :
    (elementsTo n s.me).filter act = (toDo act s).filter fun k => decide (k < n) := by
  have hsplit : List.range' s.me.six (s.me.vl - s.me.six) = List.range' s.me.six (n - s.me.six) ++ List.range' n (s.me.vl - n) := by
    obtain ⟨a, rfl⟩ := Nat.exists_eq_add_of_le h6
    rw [show s.me.vl - s.me.six = a + (s.me.vl - (s.me.six + a)) by omega, show s.me.six + a - s.me.six = a by omega, ← List.range'_append_1]
  have hnone : (List.range' n (s.me.vl - n)).filter (fun k => decide (k < n) && act k) = [] :=
    List.filter_eq_nil_iff.2 fun k hk => by simp [Nat.not_lt.2 (List.mem_range'_1.1 hk).1]
  rw [← elementsTo_toDo, elementsTo_upTo hn, show max s.me.six s.me.vl = lastOf s from rfl, elementsTo_all, List.filter_filter, hsplit, List.filter_append,
    hnone, List.append_nil]
  refine List.filter_congr fun k hk => ?_
  have : k < n := by
    have := List.mem_range'_1.1 hk
    omega
  simp [this]

/-- What Lanes have their instruction write of the elements from SIX up to a bound. -/
def partDoneWrite (l : Lanes) (n : Nat) (s : State) : VWrite := ⟨l.tag, s.me.six, n, s.me.vl, (elementsTo n s.me).map fun k => if l.act k then some (l.code k).1 else none, l.scale⟩

/-- The flags of those elements. -/
def partFlags (l : Lanes) (n : Nat) (s : State) : Nat := orAll (((toDo l.act s).filter fun k => decide (k < n)).map fun k => (l.code k).2)

theorem part_incomplete {l : Lanes} {n : Nat} {s : State} (hn : n < s.me.vl) : (partDoneWrite l n s).complete = false := by
  rw [VWrite.complete, decide_eq_false_iff_not, Nat.not_le]
  exact hn

theorem part_elem {l : Lanes} {n : Nat} {s : State} (h6 : s.me.six ≤ n) (hn : n < s.me.vl) (pc : Word) (cur prev : VReg) {k : Nat} (hk : k < vlmax) :
    elem ((partDoneWrite l n s).result pc cur prev) k =
      (if k < s.me.six then elem cur k else if k < n then (if l.act k then (l.code k).1 else elem prev k) else elem prev k) % 2 ^ tagWidth l.tag := by
  have hlen : (partDoneWrite l n s).codes.length = n - s.me.six := by simp [partDoneWrite, elementsTo_upTo hn.le]
  rw [partWrite_elem (w := partDoneWrite l n s) (part_incomplete hn) h6 hlen pc cur prev hk]
  simp only [show (partDoneWrite l n s).six = s.me.six from rfl, show (partDoneWrite l n s).stop = n from rfl, show (partDoneWrite l n s).tag = l.tag from rfl]
  by_cases hlow : k < s.me.six
  · rw [if_pos hlow, if_pos hlow]
  · by_cases hstop : k < n
    · have hcode : (partDoneWrite l n s).codes.getD (k - s.me.six) none = if l.act k then some (l.code k).1 else none := by
        simp [partDoneWrite, elementsTo_upTo hn.le, List.getD, show k - s.me.six < n - s.me.six by omega, show s.me.six + (k - s.me.six) = k by omega]
      rw [if_neg hlow, if_neg hlow, if_pos hstop, if_pos hstop, hcode]
      split <;> rfl
    · rw [if_neg hlow, if_neg hlow, if_neg hstop, if_neg hstop]

/-- An instruction that stops at element 0 has written nothing. -/
theorem writeV_none {l : Lanes} {flags : Nat} {s : State} (hn : 0 < s.me.vl) (hq : s.quota = none) : writeV l.dest (partDoneWrite l 0 s) flags s = s := by
  rw [writeV, part_incomplete hn, if_neg Bool.false_ne_true, if_pos (show (partDoneWrite l 0 s).stop = 0 from rfl), clearQuota_none s hq]

/-- What is held of an instruction that has stopped: its destination as it was before it began, with the flags of all that it has done. -/
def heldAfter (reg : HeldReg) (flags : Nat) (t : Strand) : Held :=
  match t.held with
  | some h => { h with flags := h.flags ||| flags }
  | none => ⟨reg, t.pc, flags⟩

/-- The state in which an instruction stands that has stopped at an element, with its new mapping and the units that this makes dirty. -/
def partState (l : Lanes) (n : Nat) (maps : Vector (List Nat) 32) (hwm : Word) (dirty : Vector (BitVec 928) 3) (s : State) : State :=
  { s with
    me := { s.me with
      v := s.me.v.set l.dest ((partDoneWrite l n s).result s.me.pc s.me.v[l.dest] (vSrc l.dest s)), maps := maps, hwm := hwm, six := n
      held := some (heldAfter (.vec l.dest s.me.v[l.dest] s.me.maps[l.dest]) (partFlags l n s) s.me) }
    core := { s.core with dirty := dirty } }

theorem writeV_part {l : Lanes} {n : Nat} {s : State} (hn : n < s.me.vl) (h0 : n ≠ 0) (hq : s.quota = none) :
    ∃ maps hwm dirty, writeV l.dest (partDoneWrite l n s) (partFlags l n s) s = partState l n maps hwm dirty s := by
  have hw : writeV l.dest (partDoneWrite l n s) (partFlags l n s) s =
      onMe (fun t => putV l.dest ((partDoneWrite l n s).result s.me.pc s.me.v[l.dest] (vSrc l.dest s)) (stopPart (.vec l.dest s.me.v[l.dest] s.me.maps[l.dest]) n (partFlags l n s) t))
        (mapTo l.dest l.tag s) := by
    rw [writeV, part_incomplete hn, if_neg Bool.false_ne_true, if_neg (show ¬(partDoneWrite l n s).stop = 0 from h0)]
    exact clearQuota_none _ hq
  simp only [hw, stopPart, if_neg h0]
  exact ⟨_, _, _, rfl⟩

/-! ## The trap -/

/-- The POISON trap of an instruction that has written a part of its destination. -/
theorem poisonTrap_partly {s u : State} (hh : inHandler u.me = false)
    (hme : u.me = { s.me with v := u.me.v, maps := u.me.maps, hwm := u.me.hwm, six := u.me.six, held := u.me.held }) (hmem : u.mem = s.mem) (cls num e : Nat) (producer : Word) :
    PoisonTrap cls num e producer u.me.six s (poisonTrap cls num e producer u) := by
  have same {β : Type} (g : Strand → β) : g u.me = g { s.me with v := u.me.v, maps := u.me.maps, hwm := u.me.hwm, six := u.me.six, held := u.me.held } := congrArg g hme
  have hvwq : u.me.vwq = s.me.vwq := same Strand.vwq
  obtain ⟨h1, h2, h3, h4, h5, h6, h7⟩ := poisonTrap_taken
    (s := { s with me := { s.me with v := u.me.v, maps := u.me.maps, hwm := u.me.hwm } }) hh (hme.trans (by rw [hvwq])) hmem cls num e producer
  exact ⟨h1, h2, h3, h4, h5, h6, h7⟩

/-- An element-wise instruction that consumes poison traps, and the groups of elements before keep their results. -/
theorem elementwise_eq {l : Lanes} {s : State} (hf : Begun s) {e : Nat} {r : Fin 32} {m : PoisonMark} (hp : FirstPoison l.srcs (toDo l.act s) e r m) :
    elementwise l.dest l.srcs l.tag l.act l.code l.scale s =
      poisonTrap 0 r.1 e m.producer (writeV l.dest (partDoneWrite l (groupStart s e) s) (partFlags l (groupStart s e) s) s) := by
  obtain ⟨hvl, h6, -⟩ := mem_toDo.1 (mem_of_firstPoison hp)
  obtain ⟨hlow, hhigh⟩ := groupStart_le h6
  have hgroup : groupOf s e = groupStart s e := rfl
  simp only [elementwise, stopAt_begun s hf, elementsTo_toDo, firstPoison_found hp, codesTo_eq, hgroup, elementsTo_below l.act hlow (hhigh.trans hvl.le)]
  rfl

theorem elementwise_stops {l : Lanes} {s : State} (hf : Begun s) {e : Nat} {r : Fin 32} {m : PoisonMark} (hp : FirstPoison l.srcs (toDo l.act s) e r m) :
    l.Stops e r m s (elementwise l.dest l.srcs l.tag l.act l.code l.scale s) := by
  obtain ⟨hvl, h6, -⟩ := mem_toDo.1 (mem_of_firstPoison hp)
  obtain ⟨hlow, hhigh⟩ := groupStart_le h6
  rw [elementwise_eq hf hp]
  obtain ⟨hh, -, hq, hmax⟩ := hf
  unfold Lanes.Stops
  generalize hn : groupStart s e = n at *
  by_cases h0 : n = 0
  · subst h0
    rw [writeV_none (by omega) hq]
    have h60 : s.me.six = 0 := by omega
    refine ⟨h60 ▸ poisonTrap_here hh rfl rfl 0 r.1 e m.producer, poisonTrap_m hh _ _ _ _, fun _ => poisonTrap_unwritten hh _ _ _ _, fun h => (h rfl).elim⟩
  · obtain ⟨maps, hwm, dirty, hu⟩ := writeV_part (l := l) (show n < s.me.vl by omega) h0 hq
    have hhu : inHandler (partState l n maps hwm dirty s).me = false := hh
    obtain ⟨htrap, htv, htm, -, htheld, -⟩ := poisonTrap_unwritten hhu 0 r.1 e m.producer
    have hreg : (poisonTrap 0 r.1 e m.producer (partState l n maps hwm dirty s)).me.v[l.dest] = (partDoneWrite l n s).result s.me.pc s.me.v[l.dest] (vSrc l.dest s) := by
      rw [htv]
      exact Vector.getElem_set_self _
    have helem (k : Nat) (hk : k < vlmax) := hreg ▸ part_elem (l := l) hlow (show n < s.me.vl by omega) s.me.pc s.me.v[l.dest] (vSrc l.dest s) hk
    rw [hu]
    refine ⟨poisonTrap_partly hhu rfl rfl _ _ _ _, htm, fun h => (h0 h).elim, fun _ => ⟨?_, fun q hq => ?_, ?_, fun k hk => ?_, fun k h1 h2 => ?_, fun k h1 h2 => ?_, htheld⟩⟩
    · rw [htrap]
      rfl
    · rw [htv]
      exact Vector.getElem_set_ne l.dest.2 q.2 fun h => hq (Fin.ext h.symm)
    · rw [hreg]
      rfl
    · rw [helem k (by omega), if_pos hk]
    · rw [helem k (by omega), if_neg (by omega), if_pos h2]
    · rw [helem k h2, if_neg (by omega), if_neg (by omega)]

/-- An element-wise instruction, by the checks of its operands and of its destination's rename: legal, it is `elementwise` over its Lanes, which completes or consumes poison. -/
theorem elementwise_runsAll (l : Lanes) (i : Instr) {s : State} (hf : Begun s)
    (h : exec i s = .next (if l.ok && budgetOk s.me l.dest l.tag then (if roomFor l.dest l.tag s then elementwise l.dest l.srcs l.tag l.act l.code l.scale s else s) else illop i 0 s)) :
    l.Runs i s := by
  have hgo (ho : l.ok = true) (hb : budgetOk s.me l.dest l.tag = true) (hr : roomFor l.dest l.tag s = true) :
      exec i s = .next (elementwise l.dest l.srcs l.tag l.act l.code l.scale s) := by rw [h, ho, hb, hr]; rfl
  refine ⟨elementwise_runs l i s hf hgo (fun ho hb hr => by rw [h, ho, hb, hr]; rfl) fun hbad => ?_, fun ho hb hr e r m hp => ⟨_, hgo ho hb hr, elementwise_stops hf hp⟩⟩
  have : (l.ok && budgetOk s.me l.dest l.tag) = false := Bool.and_eq_false_iff.2 hbad
  rw [h, this]
  rfl

end Sys2Proof.Machine
end

section
/-! Element-wise integer instructions (O23): their operands and results are those of their Lanes (R228 to R230, R237). -/

namespace Sys2Proof.Machine

set_option Elab.async false

open Sys2Proof.Claims Sys2Proof.Laws

theorem intMin_le_intMax (k : Kind) : intMin k ≤ intMax k := by
  have hpow (w : Nat) : (1 : Int) ≤ 2 ^ w := one_le_pow₀ (by decide)
  cases k
  case s w =>
    have := hpow (w - 1)
    simp only [intMin, intMax]
    omega
  all_goals exact Int.sub_nonneg_of_le (hpow _)

/-- Bringing an integer into a kind is Fit (R228). -/
theorem fit_eq (k : Kind) (sat : Bool) (y : Int) : fit k sat y = fitted k sat y := by
  cases sat
  case false => simp [fit, fitted, lowCode]
  case true =>
    have hclamp : clampInt y (intMin k) (intMax k) = max (intMin k) (min (intMax k) y) := by
      have := intMin_le_intMax k
      rw [clampInt]
      split_ifs <;> omega
    simp [fit, fitted, lowCode, hclamp]

/-- The first operand and the second, where that is a register, as sources. -/
theorem named_operands (a : VRegN) (b : Fin 32) (x : Bool) (s : State) : named s (a :: if x then [] else [b]) = src a s :: secondSrc x b s := by cases x <;> rfl

/-- An integer instruction runs as the Lanes of its operands say. -/
theorem vint_runs {i : Instr} {d a : VRegN} {b : Fin 32} {x two c : Bool} {srcs : State → List (Fin 32 × VReg)} {f : Int → Int → Int → Int} {s : State} (hf : Begun s)
    (hi : exec i s = vint i d a b x two c srcs f s) (hone : two = false → ∀ r p q q', f r p q = f r p q') : (intLanes d a b x two c (srcs s) f s).Runs i s := by
  refine elementwise_runsAll _ i hf ?_
  have hcode : (fun k => fit (vKind (vSrc d s)) c (f (elemInt (vSrc d s) k) (elemInt (vSrc a s) k) (if two then second x b s k else 0))) = (intLanes d a b x two c (srcs s) f s).code := by
    funext k
    rw [fit_eq]
    cases two
    case false => exact congrArg (fitted _ c) (hone rfl _ _ _ _)
    case true => rfl
  rw [hi, vint]
  refine (checks_out i _ d _ _ s hf.1).trans ?_
  simp only [hcode]
  rfl

/-- The same for an instruction whose sources are its two operands. -/
theorem vint_operands_runs {i : Instr} {d a : VRegN} {b : Fin 32} {x c : Bool} {f : Int → Int → Int → Int} {s : State} (hf : Begun s)
    (hi : exec i s = vint i d a b x true c (fun s => src a s :: secondSrc x b s) f s) : (intLanes d a b x true c (named s (a :: if x then [] else [b])) f s).Runs i s := by
  rw [named_operands]
  exact vint_runs hf hi nofun

end Sys2Proof.Machine
end

section
namespace Sys2Proof.Claims

set_option Elab.async false

open Sys2Proof.Machine Sys2Proof.Laws

/-- Settles O23: each instruction is one operation on its Lanes, which completes them or stops at the first poisoned element. -/
theorem vectorIntegerResults : Obligations.VectorIntegerResults := by
  unfold Obligations.VectorIntegerResults
  intro i l s hl hf
  unfold integerLanes at hl
  split at hl
  case h_9 => cases hl
  all_goals obtain rfl := Option.some.inj hl
  next d a b x c => exact vint_operands_runs hf rfl
  next d a b x c => exact vint_operands_runs hf rfl
  next d a b x c => exact vint_runs (two := true) (srcs := productSrcs a b x) hf rfl nofun
  next d a b x c => exact vint_runs (two := true) (srcs := fun s => src d s :: productSrcs a b x s) hf rfl nofun
  next d a c => exact vint_runs (two := false) (srcs := fun s => [src a s]) hf rfl fun _ _ _ _ _ => rfl
  next d a c =>
    have habs : (fun _ p _ : Int => max p (-p)) = fun _ p _ => (p.natAbs : Int) := funext fun _ => funext fun p => funext fun _ => (Int.natCast_natAbs p).symm
    rw [habs]
    exact vint_runs (two := false) (srcs := fun s => [src a s]) hf rfl fun _ _ _ _ _ => rfl
  next d a b x c => exact vint_operands_runs hf rfl
  next d a b x c => exact vint_operands_runs hf rfl

end Sys2Proof.Claims
end

section
/-! The place of a translated access (O42): a physical address has the low 14 bits of the virtual one (R26). -/

namespace Sys2Proof.Machine

set_option Elab.async false

open Sys2Proof.Claims Sys2Proof.Laws

/-- A translation that leads to memory keeps the place in a page of 16 KiB. -/
def KeepsPage (va : Nat) (r : Except XFault Target × State) : Prop := ∀ pa m, r.1 = .ok (.mem pa m) → pa % 2 ^ 14 = va % 2 ^ 14

theorem leafPa_page (level : Nat) (leaf : Word) (va : Nat) : leafPa level leaf va % 2 ^ 14 = va % 2 ^ 14 := by
  have hdvd : 2 ^ 14 ∣ 2 ^ leafBits level := pow_dvd_pow 2 (Nat.le_add_right 14 _)
  rw [leafPa, Nat.add_mod, Nat.mod_eq_zero_of_dvd (hdvd.trans (Dvd.intro_left _ rfl)), Nat.zero_add, Nat.mod_mod, Nat.mod_mod_of_dvd _ hdvd]

theorem keepsPage_leaf (level : Nat) (leaf : Word) (va : Nat) (m : MemType) (s : State) : KeepsPage va (.ok (.mem (leafPa level leaf va) m), s) := by
  intro pa mt h
  cases h
  exact leafPa_page level leaf va

theorem keepsPage_error (va : Nat) (x : XFault) (s : State) : KeepsPage va (.error x, s) := nofun

theorem useLeaf_keepsPage {rq : Req} {acc : Access} {level entry : Nat} {leaf : Word} {gs : List Grant} {desc : Word} {va : Nat} {s : State} :
    KeepsPage va (useLeaf rq acc level entry leaf gs desc va s) := by
  unfold useLeaf
  generalize (if accWrites acc = true then setBit (setBit leaf 9 true) 10 true else setBit leaf 9 true) = want
  dsimp only
  split
  · exact keepsPage_leaf _ _ _ _ _
  · split
    · exact keepsPage_error _ _ _
    · exact keepsPage_leaf _ _ _ _ _

theorem translateWalk_keepsPage {rq : Req} {acc : Access} {size : Nat} {va : Word} {s : State} : KeepsPage va.toNat (translateWalk rq acc size va s) := by
  unfold translateWalk
  dsimp only
  split
  · exact keepsPage_error _ _ _
  · split
    · exact keepsPage_error _ _ _
    · exact useLeaf_keepsPage

theorem translateHeld_keepsPage {rq : Req} {acc : Access} {size : Nat} {va : Word} {e : TlbEntry} {s : State} : KeepsPage va.toNat (translateHeld rq acc size va e s) := by
  unfold translateHeld
  dsimp only
  split
  · exact keepsPage_error _ _ _
  · split
    · split
      · exact keepsPage_error _ _ _
      · split
        · exact keepsPage_error _ _ _
        · split
          · exact useLeaf_keepsPage
          · exact translateWalk_keepsPage
    · exact keepsPage_leaf _ _ _ _ _

theorem translateTables_keepsPage {rq : Req} {acc : Access} {size : Nat} {va : Word} {s : State} : KeepsPage va.toNat (translateTables rq acc size va s) := by
  unfold translateTables
  dsimp only
  split
  · exact translateHeld_keepsPage
  · split
    · exact translateHeld_keepsPage
    · exact translateWalk_keepsPage

theorem routed_notMem {acc : Access} {e : Nat} {s : State} {pa : Nat} {m : MemType} : routed acc e s ≠ .ok (.mem pa m) := by
  unfold routed
  dsimp only
  split
  · exact nofun
  · split <;> exact nofun

theorem translate_keepsPage {rq : Req} {acc : Access} {size : Nat} {va : Word} {s : State} : KeepsPage va.toNat (translate rq acc size va s) := by
  unfold translate
  split
  · exact keepsPage_error _ _ _
  · split
    · exact fun pa m h => (routed_notMem h).elim
    · split
      · split
        · exact keepsPage_error _ _ _
        · split <;> exact nofun
      · exact translateTables_keepsPage

/-- The bytes of an aligned access lie in one line of 64 bytes. -/
theorem aligned_oneLine {va pa n k : Nat} (hn : n = 1 ∨ n = 2 ∨ n = 4 ∨ n = 8) (ha : va % n = 0) (hp : pa % 2 ^ 14 = va % 2 ^ 14) (hk : k < n) : (pa + k) / 64 = pa / 64 := by
  rcases hn with rfl | rfl | rfl | rfl <;> omega

/-- The targets of an aligned access to memory. -/
def memTargets (pa n : Nat) (m : MemType) : List Target := (List.range n).map fun k => .mem (pa + k) m

theorem scalarTargets_aligned {rq : Req} {acc : Access} {n pa : Nat} {va : Word} {m : MemType} {s s1 : State} (ha : va.toNat % n = 0)
    (ht : translate rq acc n va s = (.ok (.mem pa m), s1)) : scalarTargets rq acc false n va s = (.ok (memTargets pa n m), s1) := by
  rw [scalarTargets, if_pos ha, if_neg Bool.false_ne_true, ht]
  rfl

theorem memLocs_eq_map (pa n : Nat) : memLocs pa n = (List.range n).map fun k => .mem (pa + k) := by
  induction n generalizing pa with
  | zero => rfl
  | succ n ih =>
    rw [memLocs, ih, List.range_succ_eq_map, List.map_cons, List.map_map]
    exact congrArg (List.cons _) (List.map_congr_left fun k _ => congrArg Loc.mem (Nat.add_right_comm pa 1 k))

theorem memTargets_locs (pa n : Nat) (m : MemType) : (memTargets pa n m).map (fun t => targetLoc t 0) = memLocs pa n := by
  rw [memTargets, memLocs_eq_map, List.map_map]
  rfl

theorem badTarget_memTargets (pa n : Nat) (m : MemType) (s : State) : badTarget (memTargets pa n m) s = badAt (memLocs pa n) s := by rw [badTarget, memTargets_locs]

theorem targetReads_memTargets (pa n : Nat) (m : MemType) : targetReads (memTargets pa n m) = (List.range n).map fun k => (m == .wb, pa + k) := by
  rw [targetReads, memTargets, List.filterMap_map]
  exact congrFun (List.filterMap_eq_map (f := fun k => (m == .wb, pa + k))) _

theorem memTargets_wb {n : Nat} (h : 0 < n) (pa : Nat) (m : MemType) : (memTargets pa n m).all targetWb = (m == .wb) := by
  have hwb (a : Nat) : targetWb (.mem a m) = (m == .wb) := by cases m <;> rfl
  obtain ⟨n, rfl⟩ := Nat.exists_eq_succ_of_ne_zero h.ne'
  cases hm : m == .wb
  · exact List.all_eq_false.2 ⟨.mem (pa + 0) m, List.mem_map_of_mem (List.mem_range.2 h), by simp [hwb, hm]⟩
  · simp [memTargets, hwb, hm]

end Sys2Proof.Machine
end

section
/-! Reads of the vector path in a state in which nothing is on its way (O42): each byte is that of its home (R103). -/

namespace Sys2Proof.Machine

set_option Elab.async false

open Sys2Proof.Claims Sys2Proof.Laws

theorem onlyDies_settled {s t : State} (h : OnlyDies s t) (hs : Settled s) : Settled t := by
  obtain ⟨⟨k1, k2, k3, k4, k5⟩, h1, h2, h3, h4, h5⟩ := hs
  rw [h.same]
  exact ⟨⟨k1, k2, k3, k4, k5⟩, h1, h2, h3, h4, h5⟩

/-- The bytes of some targets at their homes. -/
def homeValues (ts : List Target) (s : State) : List (BitVec 8) := ts.map fun t => homeByte (targetLoc t 0) s

theorem homeValues_memTargets (pa n : Nat) (m : MemType) (s : State) : homeValues (memTargets pa n m) s = s.mem.getN pa n := by
  rw [homeValues, memTargets, List.map_map, getN_eq_map]
  rfl

/-- Bytes read at their homes, past the caches, when nothing is on its way there. -/
theorem readBytes_uncached {s : State} (hs : Settled s) {ts : List Target} (h : ∀ t ∈ ts, targetWb t = false) (va : Nat) : readBytes .vector va ts s = (homeValues ts s, s) := by
  induction ts generalizing va with
  | nil => rfl
  | cons t ts ih =>
    have hbyte : readByte .vector va t s = (homeByte (targetLoc t 0) s, s) := by
      unfold readByte
      split
      next => exact absurd (h _ List.mem_cons_self) nofun
      next => simp only [settle_quiet _ _ s hs]
    simp only [readBytes, hbyte, ih fun t ht => h t (List.mem_cons_of_mem _ ht)]
    rfl

/-- While a strand reads bytes of one line through its own L1: the strand and memory stay, nothing is on its way, and a copy of the line that is there holds what memory holds. -/
structure ReadsLine (line : Nat) (s u : State) : Prop where
  me : u.me = s.me
  mem : u.mem = s.mem
  mesh : u.core.mesh = s.me.mesh
  own : u.core.fused = false
  out : u.core.out = []
  copy : ∀ c, copyOf s.me.mesh line u = some c → c.data = (List.range 64).map fun k => s.mem.get (line * 64 + k)

section
variable {line : Nat} {s u : State}

theorem coreAt_readsLine (h : ReadsLine line s u) : coreAt s.me.mesh u = u.core := by rw [← h.mesh, coreAt_here]

theorem copyOf_readsLine (h : ReadsLine line s u) : copyOf s.me.mesh line u = u.core.copies.find? fun c => c.line == line := by
  rw [copyOf, copyHolder, coreAt_readsLine h, if_neg (by rw [h.own]; exact Bool.false_ne_true), coreAt_readsLine h]

theorem fillBytes_readsLine (h : ReadsLine line s u) : fillBytes s.me.mesh line u = (List.range 64).map fun k => s.mem.get (line * 64 + k) := by
  simp [fillBytes, l1Cores, coreAt_readsLine h, h.own, h.out, h.mem, afterWrites]

/-- A change of the core's caches keeps it, when the copy of the line holds what memory holds. -/
theorem modCore_readsLine {v : State} (h : ReadsLine line s u) (hv : OnlyDies u v) {f : Core → Core} (hf : f u.core = { u.core with copies := (f u.core).copies, l1 := (f u.core).l1 })
    (hc : ∀ c, (f u.core).copies.find? (fun c => c.line == line) = some c → c.data = (List.range 64).map fun k => s.mem.get (line * 64 + k)) :
    ReadsLine line s (modCore s.me.mesh f v) ∧ copyOf s.me.mesh line (modCore s.me.mesh f v) = (f u.core).copies.find? fun c => c.line == line := by
  have hcore : (modCore s.me.mesh f v).core = f u.core := by rw [modCore, hv.core_eq, if_pos h.mesh]
  have hmesh : (f u.core).mesh = s.me.mesh := (congrArg Core.mesh hf).trans h.mesh
  have hown : (f u.core).fused = false := (congrArg Core.fused hf).trans h.own
  have hat : coreAt s.me.mesh (modCore s.me.mesh f v) = f u.core := by rw [coreAt, hcore, if_pos hmesh]
  have hcopy : copyOf s.me.mesh line (modCore s.me.mesh f v) = (f u.core).copies.find? fun c => c.line == line := by
    rw [copyOf, copyHolder, hat, if_neg (by rw [hown]; exact Bool.false_ne_true), hat]
  exact ⟨{
    me := (modCore_me _ _ _).trans (hv.me_eq.trans h.me)
    mem := (modCore_mem _ _ _).trans (hv.mem_eq.trans h.mem)
    mesh := hcore ▸ hmesh
    own := hcore ▸ hown
    out := hcore ▸ (congrArg Core.out hf).trans h.out
    copy := fun c he => hc c (hcopy ▸ he) }, hcopy⟩

theorem useCopy_copies (c : Core) : (useCopy line c).copies = c.copies := by
  unfold useCopy
  split <;> rfl

theorem useCopy_caches (c : Core) : useCopy line c = { c with copies := (useCopy line c).copies, l1 := (useCopy line c).l1 } := by
  unfold useCopy
  split <;> rfl

/-- A line is read into the L1, or used there. -/
theorem fillCopy_readsLine (h : ReadsLine line s u) (ctx vline : Nat) :
    ReadsLine line s (fillCopy s.me.mesh ctx vline line u) ∧ ∃ c, copyOf s.me.mesh line (fillCopy s.me.mesh ctx vline line u) = some c := by
  have hholder : copyHolder s.me.mesh line u = s.me.mesh := by rw [copyHolder, coreAt_readsLine h, if_neg (by rw [h.own]; exact Bool.false_ne_true)]
  have hcopy := copyOf_readsLine h
  unfold fillCopy
  rw [hholder]
  cases hfound : copyOf s.me.mesh line u
  case some c =>
    obtain ⟨hkeeps, hsame⟩ := modCore_readsLine h (joinRead_only line u) (useCopy_caches u.core) fun d hd => h.copy d (by rw [hcopy, ← useCopy_copies, hd])
    exact ⟨hkeeps, c, by rw [hsame, useCopy_copies, ← hcopy, hfound]⟩
  case none =>
    have hnew : (placeCopy ctx vline line (fillBytes s.me.mesh line u) u.core).copies.find? (fun c => c.line == line) =
        some ⟨line, ctx, vline, wayFor line u.core, fillBytes s.me.mesh line u⟩ := List.find?_cons_of_pos (beq_self_eq_true line)
    obtain ⟨hkeeps, hsame⟩ := modCore_readsLine h (l2Access_only ctx true line 64 64 false u) (f := placeCopy ctx vline line (fillBytes s.me.mesh line u)) rfl fun d hd => by
      obtain rfl := Option.some.inj (hnew.symm.trans hd)
      exact fillBytes_readsLine h
    exact ⟨hkeeps, _, hsame.trans hnew⟩

theorem readByte_readsLine (h : ReadsLine line s u) (hq : s.me.vwq = []) {pa : Nat} (hp : pa / 64 = line) (va : Nat) :
    (readByte .vector va (.mem pa .wb) u).1 = s.mem.get pa ∧ ReadsLine line s (readByte .vector va (.mem pa .wb) u).2 := by
  obtain ⟨hv, c, hc⟩ := fillCopy_readsLine h u.me.ctx (va / 64)
  simp only [readByte, h.me, hp] at hv hc ⊢
  refine ⟨?_, hv⟩
  have hplace : line * 64 + pa % 64 = pa := by omega
  simp [coreByte, hp, hc, hv.copy c hc, hv.me, hv.out, coreAt_readsLine hv, hq, afterWrites, hplace, Nat.mod_lt]

/-- Bytes of one line read through the L1. -/
theorem readBytes_readsLine (hq : s.me.vwq = []) {pas : List Nat} (hp : ∀ pa ∈ pas, pa / 64 = line) (h : ReadsLine line s u) (va : Nat) :
    (readBytes .vector va (pas.map fun pa => .mem pa .wb) u).1 = pas.map s.mem.get ∧ ReadsLine line s (readBytes .vector va (pas.map fun pa => .mem pa .wb) u).2 := by
  induction pas generalizing u va with
  | nil => exact ⟨rfl, h⟩
  | cons pa pas ih =>
    obtain ⟨hbyte, hnext⟩ := readByte_readsLine h hq (hp pa List.mem_cons_self) va
    obtain ⟨hrest, hlast⟩ := ih (fun x hx => hp x (List.mem_cons_of_mem _ hx)) hnext (va + 1)
    exact ⟨congrArg₂ List.cons hbyte hrest, hlast⟩

end

/-- The line is read from a state in which nothing is on its way, and in which no L1 has a copy of it. -/
theorem readsLine_begins {line : Nat} {s t : State} (hs : Settled s) (hfused : s.core.fused = false) (hcopy : copyOf s.me.mesh line s = none) (ht : OnlyDies s t) : ReadsLine line s t where
  me := ht.me_eq
  mem := ht.mem_eq
  mesh := by rw [ht.core_eq, settled_mesh s hs]
  own := by rw [ht.core_eq, hfused]
  out := by rw [ht.core_eq, hs.out]
  copy c hc := by
    have hsame : copyOf s.me.mesh line t = copyOf s.me.mesh line s := by rw [ht.same]; rfl
    rw [hsame, hcopy] at hc
    cases hc

/-- An aligned read of the vector path brings the bytes of memory, and leaves the strand and memory as they are. -/
theorem readVector_settled {pa n : Nat} {va : Word} {m : MemType} {s : State} (hs : Settled s) (hm : m ≠ .ctl) (hu : Uncopied m pa s) (hline : ∀ k, k < n → (pa + k) / 64 = pa / 64) :
    ∃ t, readVector va.toNat (memTargets pa n m) s = (s.mem.getN pa n, t) ∧ t.mem = s.mem ∧ t.me = s.me := by
  have hcount : OnlyDies s (countNc s.me.ctx (memTargets pa n m) s) := l2Reads_only _ _ _ _
  unfold readVector
  generalize countNc s.me.ctx (memTargets pa n m) s = u at hcount ⊢
  cases m
  case ctl => exact (hm rfl).elim
  case nc =>
    refine ⟨u, ?_, hcount.mem_eq, hcount.me_eq⟩
    rw [readBytes_uncached (onlyDies_settled hcount hs) (by simp [memTargets, targetWb]), homeValues_memTargets, hcount.mem_eq]
  case wb =>
    obtain ⟨hcopy, hfused⟩ := hu rfl
    have htargets : memTargets pa n .wb = ((List.range n).map fun k => pa + k).map fun a => .mem a .wb := by
      rw [memTargets, List.map_map]
      rfl
    have hpas : ∀ a ∈ (List.range n).map fun k => pa + k, a / 64 = pa / 64 := by
      intro a ha
      obtain ⟨k, hk, rfl⟩ := List.mem_map.1 ha
      exact hline k (List.mem_range.1 hk)
    obtain ⟨hvalues, hlast⟩ := readBytes_readsLine hs.vwq hpas (readsLine_begins hs hfused hcopy hcount) va.toNat
    refine ⟨(readBytes .vector va.toNat (memTargets pa n .wb) u).2, ?_, htargets ▸ hlast.mem, htargets ▸ hlast.me⟩
    rw [getN_eq_map, htargets]
    exact Prod.ext (hvalues.trans List.map_map) rfl

end Sys2Proof.Machine
end

section
/-! One aligned piece of the vector path (O42). -/

namespace Sys2Proof.Machine

set_option Elab.async false

open Sys2Proof.Claims Sys2Proof.Laws

section
variable {p : Piece} {rq : Req} {acc : Access} {pa : Nat} {m : MemType} {s s1 : State} (ha : p.va.toNat % p.size = 0)
  (ht : translate rq acc p.size p.va s = (.ok (.mem pa m), s1))
include ha ht

theorem readPieces_one {bs : List (BitVec 8)} {t : State} {read : Reader} (hr : read p.va.toNat (memTargets pa p.size m) s1 = (bs, t)) :
    readPieces read rq acc [p] s = (.ok ⟨natOf bs / 2 ^ p.sh % 2 ^ p.n * 2 ^ p.pos, badAt (memLocs pa p.size) s1, (List.range p.size).map fun k => (m == .wb, pa + k)⟩, t) := by
  have hbad (b : Option Nat) : (if b.isSome then b else none) = b := by cases b <;> rfl
  simp only [readPieces, scalarTargets_aligned ha ht, hr, badTarget_memTargets, targetReads_memTargets, hbad, List.append_nil, Nat.add_zero]

theorem pieceWrites_one (h0 : 0 < p.size) (slice : Bool) (code : Nat) : pieceWrites rq acc slice code [p] s =
    (.ok [⟨rq.sid, .vector, rq.ctx, m == .wb, pieceBytes s1 p code (memTargets pa p.size m), slice⟩], s1) := by
  simp only [pieceWrites, scalarTargets_aligned ha ht, if_pos ha, memTargets_wb h0, List.map_cons, List.map_nil, List.append_nil]

end

/-- Byte `k` of a number. -/
theorem bytesOf_getD {n k : Nat} (hk : k < n) (x : Nat) : ((bytesOf n x).getD k 0).toNat = x / 2 ^ (8 * k) % 256 := by
  induction n generalizing k x with
  | zero => cases hk
  | succ n ih =>
    cases k with
    | zero => simp [bytesOf]
    | succ k =>
      have hpow : 2 ^ (8 * (k + 1)) = 256 * 2 ^ (8 * k) := by rw [Nat.mul_add, Nat.pow_add, Nat.mul_comm]
      rw [hpow, ← Nat.div_div_eq_div_mul, ← ih (Nat.lt_of_succ_lt_succ hk)]
      rfl

/-- The masked bytes of a piece at an address of memory. -/
theorem pieceBytes_mem (s : State) (p : Piece) (code pa : Nat) (m : MemType) {k : Nat} {b : ByteWrite} (h : (pieceBytes s p code (memTargets pa p.size m))[k]? = some b) :
    b.loc = .mem (pa + k) ∧ b.val.toNat = code / 2 ^ p.pos % 2 ^ p.n * 2 ^ p.sh / 2 ^ (8 * k) % 256 ∧ b.mask.toNat = (2 ^ p.n - 1) * 2 ^ p.sh / 2 ^ (8 * k) % 256 := by
  have hk : k < p.size := by
    obtain ⟨hk, -⟩ := List.getElem?_eq_some_iff.1 h
    simpa [pieceBytes, memTargets] using hk
  simp only [pieceBytes, memTargets, List.getElem?_mapIdx, List.getElem?_map, List.getElem?_range hk, Option.map_some, Option.some.injEq] at h
  subst h
  exact ⟨rfl, bytesOf_getD hk _, bytesOf_getD hk _⟩

end Sys2Proof.Machine
end

section
namespace Sys2Proof.Claims

set_option Elab.async false

open Sys2Proof.Machine Sys2Proof.Laws

/-- Settles O42: an aligned piece has one target, within one line, whose bytes are those of memory. -/
theorem vectorPieces : Obligations.VectorPieces := by
  unfold Obligations.VectorPieces
  intro p s s1 acc pa m hn ha ht
  have hpage : pa % 2 ^ 14 = p.va.toNat % 2 ^ 14 := translate_keepsPage pa m (congrArg Prod.fst ht)
  refine ⟨fun hs hme hm hu => ?_, fun slice code => ⟨_, pieceWrites_one ha ht (by omega) slice code, ?_, fun k b => pieceBytes_mem s1 p code pa m⟩⟩
  · obtain ⟨t, hr, hmem, hmet⟩ := readVector_settled (va := p.va) hs hm hu fun k => aligned_oneLine hn ha hpage
    exact ⟨t, hmem, hmet.trans hme, readPieces_one ha ht hr⟩
  · simp [pieceBytes, memTargets]

end Sys2Proof.Claims
end

section
/-! Tags (O45), the facts: sets of tags, a tag's chunks, and what each operation on a tag changes (R125 to R129, R142). -/

namespace Sys2Proof.Machine

set_option Elab.async false

open Sys2Proof.Claims Sys2Proof.Laws

/-! ## Sets of tags -/

theorem bit_eq_getLsbD (w : Word) (i : Nat) : bit w i = w.getLsbD i := by
  rw [BitVec.getLsbD, Nat.testBit_eq_decide_div_mod_eq]
  rfl

theorem tagSet_eq (w : Word) : tagSet w = tagsOf w := by
  rw [tagSet, ← List.map_coe_finRange_eq_range, List.filterMap_map, tagsOf, ← List.filterMap_eq_filter]
  refine List.filterMap_congr fun k _ => ?_
  simp only [Function.comp, bit_eq_getLsbD, fin_val, Option.guard]

theorem mem_tagsOf {w : Word} {k : Tag} : k ∈ tagsOf w ↔ w.getLsbD k.1 = true := by simp [tagsOf]

theorem foundOf_nodup (w : Word) (s : State) : (foundOf w s).Nodup := ((List.nodup_finRange 64).filter _).filter _

theorem ownsTag_iff {k : Tag} {s : State} : ownsTag s.me k = true ↔ Mine k s := by simp [ownsTag, Mine]

theorem errorPending_iff {k : Tag} {s : State} : errorPending k s = true ↔ Pending k s := by simp [errorPending, Pending, tagAt, and_assoc]

theorem tagMaskWord_eq (ks : List Tag) : tagMaskWord ks = BitVec.ofNat 64 (ks.map fun k => 2 ^ k.1).sum := by rw [tagMaskWord, List.sum_eq_foldl]; rfl

/-! ## Chunks (R126) -/

/-- The leading chunks of a mask, counted from one on. -/
theorem leadingChunks_spec (m : Word) (n k : Nat) : k ≤ leadingChunks m n k ∧ leadingChunks m n k ≤ k + n ∧ (∀ j, k ≤ j → j < leadingChunks m n k → m.getLsbD j = true) ∧
    (leadingChunks m n k < k + n → m.getLsbD (leadingChunks m n k) = false) := by
  induction n generalizing k with
  | zero => exact ⟨Nat.le_refl k, Nat.le_refl k, fun j h1 h2 => absurd h2 (Nat.not_lt.2 h1), fun h => absurd h (Nat.lt_irrefl k)⟩
  | succ n ih =>
    rw [leadingChunks, bit_eq_getLsbD]
    cases hbit : m.getLsbD k
    case false => exact ⟨Nat.le_refl k, Nat.le_add_right k _, fun j h1 h2 => absurd h2 (Nat.not_lt.2 h1), fun _ => hbit⟩
    case true =>
      rw [if_pos rfl]
      obtain ⟨h1, h2, h3, h4⟩ := ih (k + 1)
      refine ⟨by omega, by omega, fun j hj hlt => ?_, fun hlt => h4 (by omega)⟩
      rcases Nat.eq_or_lt_of_le hj with rfl | hj
      · exact hbit
      · exact h3 j hj hlt

theorem chunkUnits_eq (n : Nat) : chunkUnits n = 64 * ((n + 4095) / 4096) := by rw [chunkUnits, ceilDiv, Nat.add_sub_assoc (by decide)]

/-- The mask that TAGMASK writes, bit by bit (R143). -/
theorem tagPlane_bit (g : TagReg) {j : Nat} (hj : j < 16384) :
    (tagPlane g).getLsbD j = (g.st != .free && decide (j < unitsOf g) && g.mask.getLsbD (j / chunkUnits (unitsOf g))) := by
  unfold tagPlane
  split
  next h => simp [h]
  next h =>
    simp only [BitVec.getLsbD_ofNat, bitsOfBools_testBit, decide_eq_true hj, Bool.true_and, bne_iff_ne.2 h]
    by_cases hu : j < unitsOf g
    · simp [List.getD, show j < min (unitsOf g) vlmax from Nat.lt_min.2 ⟨hu, hj⟩, hu, bit_eq_getLsbD]
    · simp [List.getD, hu]

/-! ## What operations on a tag change -/

theorem withFlags_withFlags (a b : Nat) (t : Strand) : withFlags a (withFlags b t) = withFlags (b ||| a) t := by
  simp only [withFlags, wd, Nat.and_or_distrib_right, BitVec.ofNat_or, BitVec.or_assoc]

theorem withFlags_zero (t : Strand) : withFlags 0 t = t := by simp [withFlags, wd]

section
variable {k : Tag} {s : State}

@[simp] theorem modTag_me (f : TagReg → TagReg) : (modTag k f s).me = s.me := rfl
@[simp] theorem modTag_mem (f : TagReg → TagReg) : (modTag k f s).mem = s.mem := rfl
@[simp] theorem modTag_copies (f : TagReg → TagReg) : (modTag k f s).core.copies = s.core.copies := rfl
@[simp] theorem modTag_tags (f : TagReg → TagReg) : (modTag k f s).core.tags = s.core.tags.set k (f s.core.tags[k]) := rfl

end

/-- Copies of the core may have been discarded, and nothing else of the strand, its tags and memory has changed. -/
structure OnlyDiscards (s t : State) : Prop where
  me : t.me = s.me
  tags : t.core.tags = s.core.tags
  mem : t.mem = s.mem
  copies : ∀ x ∈ t.core.copies, x ∈ s.core.copies

theorem onlyDiscards_refl (s : State) : OnlyDiscards s s := ⟨rfl, rfl, rfl, fun _ h => h⟩

theorem onlyDiscards_trans {s t u : State} (h : OnlyDiscards s t) (k : OnlyDiscards t u) : OnlyDiscards s u :=
  ⟨k.me.trans h.me, k.tags.trans h.tags, k.mem.trans h.mem, fun x hx => h.copies x (k.copies x hx)⟩

theorem modCore_discards (m : Nat) (p : L1Copy → Bool) (s : State) : OnlyDiscards s (modCore m (fun c => { c with copies := c.copies.filter p }) s) := by
  refine ⟨modCore_me _ _ _, ?_, modCore_mem _ _ _, ?_⟩ <;> unfold modCore <;> split
  · rfl
  · rfl
  · exact fun x hx => List.mem_of_mem_filter hx
  · exact fun x hx => hx

theorem modCores_discards (ms : List Nat) (p : L1Copy → Bool) (s : State) :
    OnlyDiscards s (ms.foldl (fun s m => modCore m (fun c => { c with copies := c.copies.filter p }) s) s) := by
  induction ms generalizing s with
  | nil => exact onlyDiscards_refl s
  | cons m ms ih => exact onlyDiscards_trans (modCore_discards m p s) (ih _)

theorem observeTag_discards (p : Nat → Bool) (k : Tag) (s : State) : OnlyDiscards s (observeTag p k s) := by
  unfold observeTag
  dsimp only
  split
  · exact onlyDiscards_refl s
  · exact modCores_discards _ _ s

/-- FLAGS of a tag that are still to be merged (R128). -/
def freshFlags (k : Tag) (s : State) : Nat := if s.core.tags[k].merged then 0 else s.core.tags[k].flags.toNat

theorem mergeTag_me (k : Tag) (s : State) : (mergeTag k s).me = withFlags (freshFlags k s) s.me := by
  unfold mergeTag freshFlags tagAt
  split
  · exact (withFlags_zero _).symm
  · rfl

theorem mergeTag_tags (k : Tag) (s : State) : (mergeTag k s).core.tags = s.core.tags.set k { s.core.tags[k] with merged := true } := by
  unfold mergeTag tagAt
  split
  next h =>
    have hsame : { s.core.tags[k] with merged := true } = s.core.tags[k] := by rw [← h]
    rw [hsame]
    exact (Vector.set_getElem_self _).symm
  · rfl

theorem mergeTag_mem (k : Tag) (s : State) : (mergeTag k s).mem = s.mem := by
  unfold mergeTag
  split <;> rfl

theorem mergeTag_copies (k : Tag) (s : State) : (mergeTag k s).core.copies = s.core.copies := by
  unfold mergeTag
  split <;> rfl

/-- A tag that an instruction takes: observed, merged, and free when READY (R312). -/
def takeTag (k : Tag) (s : State) : State := modTag k (fun g => if g.st = .ready then freeTag g else g) (mergeTag k (observeDone k s))

/-- What becomes of a tag that is taken. -/
def takenTag (g : TagReg) : TagReg := if g.st = .ready then freeTag { g with merged := true } else { g with merged := true }

theorem takeTag_tags (k : Tag) (s : State) : (takeTag k s).core.tags = s.core.tags.set k (takenTag s.core.tags[k]) := by
  have hobs : (observeDone k s).core.tags = s.core.tags := (observeTag_discards _ k s).tags
  simp only [takeTag, modTag_tags, mergeTag_tags, hobs, Vector.set_set, Fin.getElem_fin, Vector.getElem_set_self]
  rfl

theorem takeTag_me (k : Tag) (s : State) : (takeTag k s).me = withFlags (freshFlags k s) s.me := by
  obtain ⟨hme, htags, -, -⟩ := observeTag_discards (fun c => bit (tagAt k s).mask c) k s
  rw [takeTag, modTag_me, mergeTag_me, freshFlags, freshFlags, observeDone, hme, htags]

theorem takeTag_mem (k : Tag) (s : State) : (takeTag k s).mem = s.mem := by
  rw [takeTag, modTag_mem, mergeTag_mem]
  exact (observeTag_discards _ k s).mem

theorem takeTag_copies (k : Tag) (s : State) : ∀ x ∈ (takeTag k s).core.copies, x ∈ s.core.copies := by
  rw [takeTag, modTag_copies, mergeTag_copies]
  exact (observeTag_discards _ k s).copies

/-- Tags that are taken one after another are observed. -/
theorem takeTags_observes {ks : List Tag} (hd : ks.Nodup) (s : State) : Observes ks s (takeTags ks s) := by
  induction ks generalizing s with
  | nil => exact ⟨fun _ => rfl, (withFlags_zero _).symm, fun _ h => h, rfl⟩
  | cons k ks ih =>
    obtain ⟨hk, hks⟩ := List.nodup_cons.1 hd
    obtain ⟨htags, hflags, hcopies, hmem⟩ := ih hks (takeTag k s)
    have hself : (takeTag k s).core.tags[k] = takenTag s.core.tags[k] := by
      simp [takeTag_tags]
    have hother (j : Tag) (hj : j ≠ k) : (takeTag k s).core.tags[j] = s.core.tags[j] := by
      simp [takeTag_tags, Fin.val_ne_of_ne hj.symm]
    refine ⟨fun j => (htags j).trans ?_, hflags.trans ?_, fun x hx => takeTag_copies k s x (hcopies x hx), hmem.trans (takeTag_mem k s)⟩
    · by_cases hj : j = k
      · subst hj
        rw [if_neg hk, if_pos List.mem_cons_self, hself]
        rfl
      · rw [hother j hj]
        simp [hj]
    · have hrest : (ks.map fun j => if (takeTag k s).core.tags[j].merged then 0 else (takeTag k s).core.tags[j].flags.toNat) =
          ks.map fun j => if s.core.tags[j].merged then 0 else s.core.tags[j].flags.toNat :=
        List.map_congr_left fun j hj => by rw [hother j fun h => hk (h ▸ hj)]
      rw [hrest, takeTag_me, withFlags_withFlags]
      rfl

end Sys2Proof.Machine
end

section
/-! Tag instructions (O45): what they wait for, what they deliver and what they take (R129, R312, R313). -/

namespace Sys2Proof.Machine

set_option Elab.async false

open Sys2Proof.Claims Sys2Proof.Laws

/-! ## Errors -/

theorem causeWord_fields (i : TrapInfo) : fld (causeWord i) 0 8 = i.cause % 256 ∧ fld (causeWord i) 8 8 = i.subc % 256 ∧ fld (causeWord i) 16 6 = i.tag % 64 := by
  simp only [causeWord, wd, fld, field, BitVec.toNat_ofNat]
  omega

/-- The state in which the error of a tag has been delivered. -/
def delivered (k : Tag) (s : State) : State := trapHere (engineTrap k s.core.tags[k]) (modTag k (fun g => { g with told := true }) s)

section
variable {k : Tag} {s : State}

theorem deliverTag_pending (h : Pending k s) : deliverTag k s = .stop (delivered k s) := if_pos (errorPending_iff.2 h)

theorem deliverTag_none (h : ¬Pending k s) : deliverTag k s = .ok () s := if_neg fun hp => h (errorPending_iff.1 hp)

theorem engineTrap_fields (k : Tag) (g : TagReg) : (engineTrap k g).cause = 5 ∧ (engineTrap k g).subc = g.err ∧ (engineTrap k g).tag = k.1 := by
  unfold engineTrap
  split
  next h => exact ⟨rfl, h.symm, rfl⟩
  next => exact ⟨rfl, rfl, rfl⟩

theorem delivered_engineTrap (hh : inHandler s.me = false) (k : Tag) : EngineTrap k s (.next (delivered k s)) := by
  have htake : delivered k s = onMe (enterHandler (engineTrap k s.core.tags[k]) s.me.pc) (modTag k (fun g => { g with told := true }) s) :=
    if_neg (show ¬inHandler s.me = true by simp [hh])
  obtain ⟨hcause, hsub, htag⟩ := engineTrap_fields k s.core.tags[k]
  obtain ⟨h1, h2, h3⟩ := causeWord_fields (engineTrap k s.core.tags[k])
  refine ⟨_, rfl, ?_⟩
  rw [htake]
  refine ⟨?_, rfl, rfl, rfl, rfl, ?_, ?_, ?_⟩
  · simp [onMe, modTag, onCore]
  · exact h1.trans (by rw [hcause])
  · exact h3.trans (by rw [htag, Nat.mod_eq_of_lt k.2])
  · exact h2.trans (by rw [hsub])

theorem deliverFirst_none {ks : List Tag} (h : ∀ k ∈ ks, ¬Pending k s) : deliverFirst ks s = .ok () s := by
  rw [deliverFirst, List.find?_eq_none.2 fun k hk => fun hp => h k hk (errorPending_iff.1 hp)]

theorem deliverFirst_some {ks : List Tag} (h : ks.find? (fun k => errorPending k s) = some k) : deliverFirst ks s = .stop (delivered k s) := by
  rw [deliverFirst, h]
  exact deliverTag_pending (errorPending_iff.1 (List.find?_some (p := fun k => errorPending k s) h))

end

/-! ## Instructions over a set of tags (R312) -/

section
variable {i : Instr} {a : GReg} {wait : List Tag → List Tag → Bool} {pick : List Tag → List Tag} {write : List Tag → State → State} {s : State} (hh : inHandler s.me = false)
include hh

theorem tagInstr_illegal {k : Tag} (hk : (gR a s).getLsbD k.1 = true) (hm : ¬Mine k s) : tagInstr i a wait pick write s = .next (illop i 0 s) := by
  have hbad : (tagsOf (gR a s)).all (ownsTag s.me) = false := List.all_eq_false.2 ⟨k, mem_tagsOf.2 hk, fun h => hm (ownsTag_iff.1 h)⟩
  rw [tagInstr, vqueue_met hh, Res.bind]
  simp only [tagSet_eq]
  rw [require_unmet hbad]
  rfl

variable (hm : ∀ k ∈ tagsOf (gR a s), Mine k s)
include hm

theorem tagInstr_mine : tagInstr i a wait pick write s = (if wait (tagsOf (gR a s)) (foundOf (gR a s) s) then Res.stop s
    else (deliverFirst (pick (foundOf (gR a s) s)) s).bind fun _ t => .ok () (advance (write (pick (foundOf (gR a s) s)) (takeTags (pick (foundOf (gR a s) s)) t)))).out := by
  rw [tagInstr, vqueue_met hh, Res.bind]
  simp only [tagSet_eq]
  rw [require_met (List.all_eq_true.2 fun k hk => ownsTag_iff.2 (hm k hk))]
  rfl

theorem tagInstr_waits (hw : wait (tagsOf (gR a s)) (foundOf (gR a s) s) = true) : tagInstr i a wait pick write s = .next s := by
  rw [tagInstr_mine hh hm, if_pos hw]
  rfl

variable (hw : wait (tagsOf (gR a s)) (foundOf (gR a s) s) = false)
include hw

theorem tagInstr_takes (hp : ∀ k ∈ pick (foundOf (gR a s) s), ¬Pending k s) :
    tagInstr i a wait pick write s = .next (advance (write (pick (foundOf (gR a s) s)) (takeTags (pick (foundOf (gR a s) s)) s))) := by
  rw [tagInstr_mine hh hm, hw, if_neg Bool.false_ne_true, deliverFirst_none hp]
  rfl

theorem tagInstr_delivers {k : Tag} (hk : (pick (foundOf (gR a s) s)).find? (fun k => errorPending k s) = some k) : EngineTrap k s (tagInstr i a wait pick write s) := by
  rw [tagInstr_mine hh hm, hw, if_neg Bool.false_ne_true, deliverFirst_some hk]
  exact delivered_engineTrap hh k

end

/-- WAITALL waits while it has not found its whole set. -/
theorem waitall_waits_iff (w : Word) (s : State) : ((foundOf w s).length != (tagsOf w).length) = true ↔ foundOf w s ≠ tagsOf w := by
  rw [bne_iff_ne]
  exact not_congr ⟨(List.filter_sublist (l := tagsOf w)).eq_of_length, congrArg List.length⟩

theorem find_take_one {ks : List Tag} {p : Tag → Bool} {k : Tag} (hk : ks.find? p = some k) (h : ks.head? = some k) : (ks.take 1).find? p = some k := by
  obtain ⟨rest, rfl⟩ := List.head?_eq_some_iff.1 h
  simpa using List.find?_some hk

/-! ## Instructions that name one tag (R313) -/

section
variable {i : Instr} {k : Tag} {s : State} (hh : inHandler s.me = false)
include hh

theorem oneTag_mine (hm : Mine k s) : oneTag i k s = .ok () s := by
  rw [oneTag, vqueue_met hh, Res.bind, require_met (ownsTag_iff.2 hm)]

theorem oneTag_other (hm : ¬Mine k s) : oneTag i k s = .stop (illop i 0 s) := by
  rw [oneTag, vqueue_met hh, Res.bind, require_unmet (Bool.eq_false_iff.2 fun h => hm (ownsTag_iff.1 h))]

theorem tagcnt_other (hm : ¬Mine k s) (d : GReg) : exec (.tagcnt d k) s = .next (illop (.tagcnt d k) 0 s) := by
  show execTagcnt d k s = _
  rw [execTagcnt, oneTag_other hh hm]
  rfl

theorem tagmask_other (hm : ¬Mine k s) (d : MReg) : exec (.tagmask d k) s = .next (illop (.tagmask d k) 0 s) := by
  show execTagmask d k s = _
  rw [execTagmask, oneTag_other hh hm]
  rfl

theorem tagcnt_pending (hm : Mine k s) (hp : Pending k s) (d : GReg) : EngineTrap k s (exec (.tagcnt d k) s) := by
  show EngineTrap k s (execTagcnt d k s)
  rw [execTagcnt, oneTag_mine hh hm, Res.bind, deliverTag_pending hp]
  exact delivered_engineTrap hh k

theorem tagmask_pending (hm : Mine k s) (hp : Pending k s) (d : MReg) : EngineTrap k s (exec (.tagmask d k) s) := by
  show EngineTrap k s (execTagmask d k s)
  rw [execTagmask, oneTag_mine hh hm, Res.bind, deliverTag_pending hp]
  exact delivered_engineTrap hh k

theorem tagcnt_answers (hm : Mine k s) (hp : ¬Pending k s) (d : GReg) : ∃ t, exec (.tagcnt d k) s = .next (advance (setG d (statusWord s.core.tags[k]) t)) ∧ OnlyDiscards s t := by
  refine ⟨observeTag (fun c => decide (c < leadingChunks (tagAt k s).mask 64 0)) k s, ?_, observeTag_discards _ k s⟩
  show execTagcnt d k s = _
  rw [execTagcnt, oneTag_mine hh hm, Res.bind, deliverTag_none hp]
  rfl

theorem tagmask_answers (hm : Mine k s) (hp : ¬Pending k s) (d : MReg) : ∃ t, exec (.tagmask d k) s = .next (advance (setM d (tagPlane s.core.tags[k]) t)) ∧ OnlyDiscards s t := by
  refine ⟨if s.core.tags[k].st = .free then s else observeDone k s, ?_, ?_⟩
  · show execTagmask d k s = _
    rw [execTagmask, oneTag_mine hh hm, Res.bind, deliverTag_none hp]
    rfl
  · split
    · exact onlyDiscards_refl s
    · exact observeTag_discards _ k s

end

end Sys2Proof.Machine
end

section
/-! COMMIT (O45): its checks, and the register that it writes (R133, R313). -/

namespace Sys2Proof.Machine

set_option Elab.async false

open Sys2Proof.Claims Sys2Proof.Laws

/-! ## The register -/

/-- Element `e` of planes that are laid out from codes. -/
theorem codeAt_ofCodes (w : Nat) {cs : List Nat} (h : cs.length ≤ 16384) (e : Nat) :
    codeAt ((List.range w).map fun b => BitVec.ofNat 16384 (bitsOf b cs)) e = cs.getD e 0 % 2 ^ w := by
  refine codeAt_planes w _ e _ fun b _ => ?_
  rw [BitVec.getLsbD_ofNat, bitsOf_testBit]
  by_cases he : e < 16384
  · rw [decide_eq_true he, Bool.true_and]
  · simp [List.getD, List.getElem?_eq_none (show cs.length ≤ e by omega)]

section
variable {g : TagReg} {c : Cmd} {pc : Word}

theorem committed_elem (hn : cmdN c ≤ 16384) (e : Nat) :
    elem (committed g c pc) e = if e < cmdN c then ((g.codes.find? fun x => x.1 == e).map fun x => x.2).getD 0 % 2 ^ tagWidth (cmdDTAG c) else 0 := by
  rw [elem, committed]
  dsimp only
  rw [codeAt_ofCodes _ (by simpa using hn)]
  split
  next h => simp [List.getD, h]
  next h => simp [List.getD, h]

theorem committed_scale {b : Nat} (hb : b < 16384 / blockLen (cmdDTAG c)) : scaleByte (committed g c pc).scale b =
    if b * blockLen (cmdDTAG c) < cmdN c then ((g.scales.find? fun x => x.1 == b).map fun x => x.2).getD 0x7F % 256 else 0x7F := by
  have hl := blockLen_cases (cmdDTAG c)
  have hne : blockLen (cmdDTAG c) ≠ 0 := fun h => by simp [h] at hb
  have hlen : 8 * (vlmax / blockLen (cmdDTAG c)) ≤ 16384 := by
    rcases hl with h | h | h | h <;> simp_all [vlmax]
  simp only [committed, if_neg hne]
  rw [scaleByte_packed _ _ _ hlen hb]
  split <;> rfl

end

/-! ## The instruction -/

/-- The state in which COMMIT has observed its tag, merged its flags and freed it. -/
def freedAt (k : Tag) (s : State) : State := modTag k freeTag (mergeTag k (observeDone k s))

section
variable {k : Tag} {s : State}

theorem freedAt_me : (freedAt k s).me = withFlags (freshFlags k s) s.me := by
  obtain ⟨hme, htags, -, -⟩ := observeTag_discards (fun c => bit (tagAt k s).mask c) k s
  rw [freedAt, modTag_me, mergeTag_me, freshFlags, freshFlags, observeDone, hme, htags]

theorem freedAt_mem : (freedAt k s).mem = s.mem := by
  rw [freedAt, modTag_mem, mergeTag_mem]
  exact (observeTag_discards _ k s).mem

theorem freedAt_tags : (freedAt k s).core.tags = s.core.tags.set k (freeTag { s.core.tags[k] with merged := true }) := by
  have hobs : (observeDone k s).core.tags = s.core.tags := (observeTag_discards _ k s).tags
  simp only [freedAt, modTag_tags, mergeTag_tags, hobs, Vector.set_set, Fin.getElem_fin, Vector.getElem_set_self]

theorem freedAt_self : (freedAt k s).core.tags[k] = freeTag { s.core.tags[k] with merged := true } := by simp [freedAt_tags]

theorem freedAt_other {j : Tag} (h : j ≠ k) : (freedAt k s).core.tags[j] = s.core.tags[j] := by simp [freedAt_tags, Fin.val_ne_of_ne h.symm]

end

section
variable {k : Tag} {s : State} (hh : inHandler s.me = false)
include hh

theorem commit_other (hm : ¬Mine k s) : exec (.commit k) s = .next (illop (.commit k) 0 s) := by
  show execCommit k s = _
  rw [execCommit, oneTag_other hh hm]
  rfl

variable (hm : Mine k s)
include hm

theorem commit_unlanded (h : s.core.tags[k].st = .free ∨ commandOf k s.core = none ∨ ∀ c, commandOf k s.core = some c → c.dir ≠ 1 ∧ c.dir ≠ 2) :
    exec (.commit k) s = .next (illop (.commit k) 0 s) := by
  show execCommit k s = _
  rw [execCommit, oneTag_mine hh hm, Res.bind]
  simp only [tagAt]
  split
  next => rfl
  next c hc =>
    have hbad : (s.core.tags[k].st != .free && dirToV c.dir) = false := by
      rcases h with h | h | h
      · rw [h]
        rfl
      · exact absurd (h.symm.trans hc) nofun
      · simp [dirToV, h c hc]
    rw [require_unmet hbad]
    rfl

variable {c : Cmd} (hc : commandOf k s.core = some c) (hd : c.dir = 1 ∨ c.dir = 2) (hf : s.core.tags[k].st ≠ .free)
include hc hd hf

theorem commit_landing : exec (.commit k) s = ((require (.commit k) (budgetOk s.me (fin 32 (by decide) c.reg) (cmdDTAG c) && !tagIllegal (cmdDTAG c)) s).bind fun _ u =>
    if s.core.tags[k].st = .busy then .stop u
    else (deliverTag k u).bind fun _ t =>
      if s.core.tags[k].err ≠ 0 then .ok () (advance (freedAt k t))
      else if roomFor (fin 32 (by decide) c.reg) (cmdDTAG c) t then .ok () (advance (commitWrite s.core.tags[k] c (freedAt k t))) else .stop t).out := by
  have hto : dirToV c.dir = true := by rcases hd with h | h <;> rw [h] <;> rfl
  have hok : ((tagAt k s).st != .free && dirToV c.dir) = true := by
    rw [hto, Bool.and_true]
    exact bne_iff_ne.2 hf
  have hcmd : (tagAt k s).cmd = some c := hc
  show execCommit k s = _
  rw [execCommit, oneTag_mine hh hm, Res.bind]
  simp only [hcmd]
  rw [require_met hok]
  rfl

theorem commit_refused (ht : (budgetOk s.me (fin 32 (by decide) c.reg) (cmdDTAG c) && !tagIllegal (cmdDTAG c)) = false) :
    exec (.commit k) s = .next (illop (.commit k) 0 s) := by
  rw [commit_landing hh hm hc hd hf, require_unmet ht]
  rfl

variable (ht : (budgetOk s.me (fin 32 (by decide) c.reg) (cmdDTAG c) && !tagIllegal (cmdDTAG c)) = true)
include ht

theorem commit_waits (hb : s.core.tags[k].st = .busy) : exec (.commit k) s = .next s := by
  rw [commit_landing hh hm hc hd hf, require_met ht, Res.bind, if_pos hb]
  rfl

theorem commit_delivers (hp : Pending k s) : EngineTrap k s (exec (.commit k) s) := by
  rw [commit_landing hh hm hc hd hf, require_met ht, Res.bind, if_neg hp.2.2, deliverTag_pending hp]
  exact delivered_engineTrap hh k

variable (hb : s.core.tags[k].st ≠ .busy)
include hb

/-- A tag whose error has been delivered is released, and its register stays. -/
theorem commit_releases (he : s.core.tags[k].err ≠ 0) (hp : ¬Pending k s) : exec (.commit k) s = .next (advance (freedAt k s)) := by
  rw [commit_landing hh hm hc hd hf, require_met ht, Res.bind, if_neg hb, deliverTag_none hp, Res.bind, if_pos he]
  rfl

variable (he : s.core.tags[k].err = 0)
include he

theorem commit_landed_runs : exec (.commit k) s =
    (if roomFor (fin 32 (by decide) c.reg) (cmdDTAG c) s then Res.ok () (advance (commitWrite s.core.tags[k] c (freedAt k s))) else .stop s).out := by
  have hp : ¬Pending k s := fun hp => hp.1 he
  rw [commit_landing hh hm hc hd hf, require_met ht, Res.bind, if_neg hb, deliverTag_none hp, Res.bind, if_neg (not_not.2 he)]

theorem commit_awaits_planes (hroom : roomFor (fin 32 (by decide) c.reg) (cmdDTAG c) s = false) : exec (.commit k) s = .next s := by
  rw [commit_landed_runs hh hm hc hd hf ht hb he, hroom]
  rfl

theorem commit_lands (hroom : roomFor (fin 32 (by decide) c.reg) (cmdDTAG c) s = true) :
    exec (.commit k) s = .next (advance (commitWrite s.core.tags[k] c (freedAt k s))) := by
  rw [commit_landed_runs hh hm hc hd hf ht hb he, hroom]
  rfl

end

end Sys2Proof.Machine
end

section
/-! Tag instructions, clause by clause (O45). -/

namespace Sys2Proof.Machine

set_option Elab.async false

open Sys2Proof.Claims Sys2Proof.Laws

/-! ## The instructions over a set, as one operation -/

section
variable (d a : GReg) (s : State)

theorem exec_waitany : exec (.waitany d a) s =
    tagInstr (.waitany d a) a (fun ks free => !ks.isEmpty && free.isEmpty) id (fun found s => setG d (tagMaskWord found) s) s := rfl

theorem exec_waitall : exec (.waitall a) s = tagInstr (.waitall a) a (fun ks free => free.length != ks.length) id (fun _ s => s) s := rfl

theorem exec_ffrdy : exec (.ffrdy d a) s = tagInstr (.ffrdy d a) a (fun _ _ => false) (fun free => free.take 1)
    (fun found s => setG d (match found with | k :: _ => wd k.1 | [] => wd (2 ^ 64 - 1)) s) s := rfl

end

section
variable {a : GReg} {s : State} (hh : inHandler s.me = false)
include hh

theorem tagSets_illegal {k : Tag} (d : GReg) (hk : (gR a s).getLsbD k.1 = true) (hm : ¬Mine k s) : exec (.waitany d a) s = .next (illop (.waitany d a) 0 s) ∧
    exec (.waitall a) s = .next (illop (.waitall a) 0 s) ∧ exec (.ffrdy d a) s = .next (illop (.ffrdy d a) 0 s) := by
  rw [exec_waitany, exec_waitall, exec_ffrdy]
  exact ⟨tagInstr_illegal hh hk hm, tagInstr_illegal hh hk hm, tagInstr_illegal hh hk hm⟩

variable (hm : ∀ k ∈ tagsOf (gR a s), Mine k s)
include hm

theorem waitany_waits (d : GReg) (hne : tagsOf (gR a s) ≠ []) (hnone : foundOf (gR a s) s = []) : exec (.waitany d a) s = .next s := by
  rw [exec_waitany]
  exact tagInstr_waits hh hm (by simp [hne, hnone])

theorem waitany_takes (d : GReg) (hsome : tagsOf (gR a s) = [] ∨ foundOf (gR a s) s ≠ []) (hp : ∀ k ∈ foundOf (gR a s) s, ¬Pending k s) :
    exec (.waitany d a) s =
    .next (advance (setG d (BitVec.ofNat 64 ((foundOf (gR a s) s).map fun k => 2 ^ k.1).sum) (takeTags (foundOf (gR a s) s) s))) := by
  rw [exec_waitany, ← tagMaskWord_eq]
  exact tagInstr_takes hh hm (by rcases hsome with h | h <;> simp [h]) hp

theorem waitall_waits (hne : foundOf (gR a s) s ≠ tagsOf (gR a s)) : exec (.waitall a) s = .next s := by
  rw [exec_waitall]
  exact tagInstr_waits hh hm ((waitall_waits_iff _ s).2 hne)

theorem waitall_takes (heq : foundOf (gR a s) s = tagsOf (gR a s)) (hp : ∀ k ∈ foundOf (gR a s) s, ¬Pending k s) :
    exec (.waitall a) s = .next (advance (takeTags (foundOf (gR a s) s) s)) := by
  rw [exec_waitall]
  exact tagInstr_takes hh hm (by simp [heq]) hp

theorem ffrdy_takes (d : GReg) (hp : ∀ k ∈ (foundOf (gR a s) s).take 1, ¬Pending k s) : exec (.ffrdy d a) s =
    .next (advance (setG d (match foundOf (gR a s) s with | k :: _ => wd k.1 | [] => wd (2 ^ 64 - 1)) (takeTags ((foundOf (gR a s) s).take 1) s))) := by
  rw [exec_ffrdy, tagInstr_takes hh hm rfl hp]
  cases foundOf (gR a s) s <;> rfl

theorem tagSets_deliver {k : Tag} (d : GReg) (hk : (foundOf (gR a s) s).find? (fun k => errorPending k s) = some k) : EngineTrap k s (exec (.waitany d a) s) ∧
    (foundOf (gR a s) s = tagsOf (gR a s) → EngineTrap k s (exec (.waitall a) s)) ∧ ((foundOf (gR a s) s).head? = some k → EngineTrap k s (exec (.ffrdy d a) s)) := by
  have hne : foundOf (gR a s) s ≠ [] := List.ne_nil_of_mem (List.mem_of_find?_eq_some hk)
  rw [exec_waitany, exec_waitall, exec_ffrdy]
  exact ⟨tagInstr_delivers hh hm (by simp [hne]) hk, fun heq => tagInstr_delivers hh hm (by simp [heq]) hk,
    fun hhead => tagInstr_delivers hh hm rfl (find_take_one hk hhead)⟩

end

/-! ## The status word's parts -/

theorem statusWord_eq (g : TagReg) : statusWord g = BitVec.ofNat 64 (g.err * 2 ^ 56 + g.flags.toNat * 2 ^ 32 +
    min (unitsOf g) (64 * ((unitsOf g + 4095) / 4096) * leadingChunks g.mask 64 0)) := by
  rw [statusWord, landedCount, chunkUnits_eq]
  rfl

/-! ## COMMIT's states -/

section
variable {k : Tag} {s : State}

theorem freedAt_vflags_only : (freedAt k s).me = { s.me with vflags := (freedAt k s).me.vflags } := by
  rw [freedAt_me]
  rfl

theorem freedAt_raises (h : s.core.tags[k].merged = false) : (freedAt k s).me.vflags = (raise s.core.tags[k].flags.toNat s).me.vflags := by
  rw [freedAt_me, freshFlags, h]
  rfl

theorem freedAt_merged (h : s.core.tags[k].merged = true) : (freedAt k s).me.vflags = s.me.vflags := by
  rw [freedAt_me, freshFlags, h, if_pos rfl, withFlags_zero]

theorem freedAt_free : (freedAt k s).core.tags[k].st = .free ∧ (freedAt k s).core.tags[k].slots = [] := by
  rw [freedAt_self]
  exact ⟨rfl, rfl⟩

end

end Sys2Proof.Machine
end

section
namespace Sys2Proof.Claims

set_option Elab.async false

open Sys2Proof.Machine Sys2Proof.Laws

/-- Settles O45: the instructions over a set are one operation, which waits, delivers the lowest error or takes the tags it found; those on one tag observe it, and COMMIT lays
out what landed as a register. -/
theorem tagInstructions : Obligations.TagInstructions := by
  unfold Obligations.TagInstructions
  intro s hh _
  refine ⟨fun d a hm => ⟨waitany_waits hh hm d, 
      fun hsome hp => ⟨_, waitany_takes hh hm d hsome hp, takeTags_observes (foundOf_nodup _ s) s⟩, waitall_waits hh hm,
      fun heq hp => ⟨_, waitall_takes hh hm heq hp, takeTags_observes (foundOf_nodup _ s) s⟩,
      fun hp => ⟨_, ffrdy_takes hh hm d hp, takeTags_observes ((foundOf_nodup _ s).sublist (List.take_sublist 1 _)) s⟩, fun k hk => tagSets_deliver hh hm d hk⟩,
    fun d a k hk hm => tagSets_illegal hh d hk hm,
    fun k hm hp => ⟨fun d => ?_, fun d => ?_⟩,
    fun k hm => ⟨tagcnt_other hh hm, tagmask_other hh hm, commit_other hh hm⟩,
    fun k hm h => commit_unlanded hh hm h,
    fun k hm hp => ⟨tagcnt_pending hh hm hp, tagmask_pending hh hm hp⟩,
    fun k c hm hc hd => ?_⟩
  · obtain ⟨t, hrun, ht⟩ := tagcnt_answers hh hm hp d
    obtain ⟨-, hle, hset, hclear⟩ := leadingChunks_spec s.core.tags[k].mask 64 0
    exact ⟨t, _, statusWord_eq s.core.tags[k] ▸ hrun, ht.me, ht.tags, ht.mem, by omega, fun j hj => hset j (Nat.zero_le j) hj, fun h => hclear (by omega)⟩
  · obtain ⟨t, hrun, ht⟩ := tagmask_answers hh hm hp d
    exact ⟨t, _, hrun, ht.me, ht.tags, ht.mem, fun j hj => chunkUnits_eq (unitsOf s.core.tags[k]) ▸ tagPlane_bit s.core.tags[k] hj⟩
  · intro g tag n d takes hf
    have hbusy (hst : g.st = .landed) : g.st ≠ .busy := fun h => absurd (hst.symm.trans h) nofun
    refine ⟨commit_refused hh hm hc hd hf, commit_waits hh hm hc hd hf, commit_delivers hh hm hc hd hf, fun ht hb he htold => ?_,
      fun ht hst he hroom => commit_awaits_planes hh hm hc hd hf ht (hbusy hst) he hroom, fun ht hst he hroom hn => ?_⟩
    · have hp : ¬Pending k s := fun hp => absurd (hp.2.1.symm.trans htold) nofun
      exact ⟨_, commit_releases hh hm hc hd hf ht hb he hp, freedAt_vflags_only, freedAt_mem, freedAt_free⟩
    · refine ⟨freedAt k s, committed g c (mapTo d tag (freedAt k s)).me.pc, commit_lands hh hm hc hd hf ht (hbusy hst) he hroom, freedAt_vflags_only, freedAt_mem,
        freedAt_raises, freedAt_merged, freedAt_free.1, freedAt_free.2, fun j hj => freedAt_other hj, rfl, ?_, rfl, fun e he => ?_, fun e he => ?_, fun b hb => committed_scale hb⟩
      · simp [committed, tag, cmdDTAG]
      · exact (committed_elem hn e).trans (if_pos he)
      · exact (committed_elem hn e).trans (if_neg (Nat.not_lt.2 he))

end Sys2Proof.Claims
end

section
/-! Temperature samples and the persist queues (O50): each event changes one block of its die. -/

namespace Sys2Proof.Machine

set_option Elab.async false

open Sys2Proof.Claims Sys2Proof.Laws

/-! ## Blocks of a die by their number -/

theorem withDie_at (d : Fin 4) (x : Die) (s : State) : (withDie d x s).dies[d] = x := Vector.getElem_set_self _
@[simp] theorem withDie_mem (d : Fin 4) (x : Die) (s : State) : (withDie d x s).mem = s.mem := rfl
@[simp] theorem withDie_me (d : Fin 4) (x : Die) (s : State) : (withDie d x s).me = s.me := rfl

theorem withDie_same (d : Fin 4) (s : State) : withDie d s.dies[d] s = s := by simp [withDie]

theorem withDie_withDie (d : Fin 4) (x y : Die) (s : State) : withDie d y (withDie d x s) = withDie d y s := by simp [withDie]

theorem modCtrl_val (d : Fin 4) (ctrl : Nat) (f : Ctrl → Ctrl) (s : State) :
    modCtrl d.1 ctrl f s =
      withDie d { s.dies[d] with ctrls := s.dies[d].ctrls.set (fin 5 (by decide) ctrl) (f s.dies[d].ctrls[fin 5 (by decide) ctrl]) } s := by
  rw [modCtrl, modDie_val]

theorem ctrlOf_val (d : Fin 4) (ctrl chan bank : Nat) (s : State) : ctrlOf ⟨d.1, ctrl, chan, bank⟩ s = s.dies[d].ctrls[fin 5 (by decide) ctrl] := by
  rw [ctrlOf, dieAt_val]

theorem modIsland_val (d : Fin 4) (i : Fin 12) (f : Island → Island) (s : State) :
    modIsland d.1 i.1 f s = withDie d { s.dies[d] with islands := s.dies[d].islands.set i (f s.dies[d].islands[i]) } s := by
  simp only [modIsland, fin_val, modDie_val]

theorem countSample_val (d : Fin 4) (ctrl : Fin 2) (n : Nat) (s : State) :
    countSample d.1 ctrl.1 n s = withDie d { s.dies[d] with hbmDone := s.dies[d].hbmDone.set ctrl n } s := by
  simp only [countSample, fin_val, modDie_val]

theorem hbmSamples_val (d : Fin 4) (ctrl : Fin 2) (s : State) : hbmSamples d.1 ctrl.1 s = s.dies[d].hbmDone[ctrl] := by
  simp only [hbmSamples, fin_val, dieAt_val]

/-! ## Temperatures of the stacks and the islands (R90, R95, R380) -/

theorem tempOf_eq (celsius : Int) : tempOf celsius = (max 0 (min 255 celsius)).toNat := by
  unfold tempOf clampInt
  split
  · omega
  · split <;> omega

/-- A sample of a stack is counted, and its controller takes it up; nothing else of the die changes. -/
structure Sampled (d : Fin 4) (ctrl : Fin 2) (n : Nat) (c : Ctrl) (s t : State) : Prop where
  block : t.dies[d].ctrls[fin 5 (by decide) ctrl.1] = c
  count : t.dies[d].hbmDone[ctrl] = n
  banks : t.dies[d].banks = s.dies[d].banks
  mem : t.mem = s.mem
  me : t.me = s.me

theorem withDie_sampled {d : Fin 4} {ctrl : Fin 2} {n : Nat} {c : Ctrl} {x : Die} {s : State} (hc : x.ctrls[fin 5 (by decide) ctrl.1] = c) (hn : x.hbmDone[ctrl] = n)
    (hb : x.banks = s.dies[d].banks) : Sampled d ctrl n c s (withDie d x s) where
  block := by rw [withDie_at, hc]
  count := by rw [withDie_at, hn]
  banks := by rw [withDie_at, hb]
  mem := rfl
  me := rfl

theorem countSample_sampled (d : Fin 4) (ctrl : Fin 2) (n : Nat) (f : Ctrl → Ctrl) (s : State) :
    Sampled d ctrl n (f s.dies[d].ctrls[fin 5 (by decide) ctrl.1]) s (countSample d.1 ctrl.1 n (modCtrl d.1 ctrl.1 f s)) := by
  rw [countSample_val, modCtrl_val, withDie_withDie, withDie_at]
  exact withDie_sampled (Vector.getElem_set_self _) (Vector.getElem_set_self _) rfl

section Stack

variable {s : State} {d : Fin 4} {ctrl : Fin 2}

/-- HBM_TEMP_SAMPLE of a stack that exists, by the samples that it has had. -/
theorem execHbmTempSample_val (celsius : Int) : exec (.hbmTempSample d ctrl celsius) s =
    let n := s.dies[d].hbmDone[ctrl]
    let m := decide (85 < celsius)
    .next (if n = 0 then
      if s.dies[d].stage = 3 then
        countSample d.1 ctrl.1 (s.dies[d].cycle / 1048576 + 1)
          (modCtrl d.1 ctrl.1 (fun c => { c with temp := tempOf celsius, dbl := m, modes := if m = c.dbl then c.modes else c.modes ++ [(s.dies[d].cycle, m)] }) s)
      else s
    else if s.dies[d].cycle < n * 1048576 ∨ (s.dies[d].ctrls[fin 5 (by decide) ctrl.1]).dblNext.isSome then s
    else
      countSample d.1 ctrl.1 (n + 1) (modCtrl d.1 ctrl.1 (fun c =>
        { c with temp := tempOf celsius, dblNext := if modeAfter celsius c.dbl = c.dbl then none else some (modeAfter celsius c.dbl, n * 1048576 / 4224 * 4224 + 4224) }) s)) := by
  have hd := d.isLt
  have hc := ctrl.isLt
  dsimp only [exec, execHbmTempSample]
  rw [if_neg (by omega), dieAt_val, hbmSamples_val, ctrlOf_val]

theorem execRefreshModeChange_none (h : (s.dies[d].ctrls[fin 5 (by decide) ctrl.1]).dblNext = none) : exec (.refreshModeChange d ctrl) s = .next s := by
  have hd := d.isLt
  have hc := ctrl.isLt
  dsimp only [exec, execRefreshModeChange]
  rw [if_neg (by omega), ctrlOf_val, h]

theorem execRefreshModeChange_some {m : Bool} {t : Nat} (h : (s.dies[d].ctrls[fin 5 (by decide) ctrl.1]).dblNext = some (m, t)) : exec (.refreshModeChange d ctrl) s =
    .next (if s.dies[d].cycle < t then s else modCtrl d.1 ctrl.1 (fun c => { c with dbl := m, dblNext := none, modes := c.modes ++ [(t, m)] }) s) := by
  have hd := d.isLt
  have hc := ctrl.isLt
  dsimp only [exec, execRefreshModeChange]
  rw [if_neg (by omega), dieAt_val, ctrlOf_val, h]

end Stack

theorem execThermSample_val (d : Fin 4) (i : Fin 12) (mc : Int) (s : State) : exec (.thermSample d i mc) s =
    .next (if islandPowered (12 * d + i) s = true then modIsland d.1 i.1 (fun x =>
        if x.sampled = 0 then { x with therm := thermOf mc, sampled := s.dies[d].cycle / 65536 + 1 }
        else if x.sampled * 65536 ≤ s.dies[d].cycle then { x with therm := thermOf mc, sampled := x.sampled + 1 }
        else x) s else s) := by
  have hd := d.isLt
  have hi := i.isLt
  dsimp only [exec, execThermSample]
  rw [dieAt_val]
  cases islandPowered (12 * d + i) s
  case false => rw [if_pos (.inr (.inr rfl)), if_neg (by decide)]
  case true =>
    rw [if_neg, if_pos rfl]
    rintro (h | h | h)
    · omega
    · omega
    · cases h

/-! ## The persist queue of a die (R154) -/

/-- The first entry that has not started is started. -/
theorem startEntry_first (t : Nat) (before after : List PersistEntry) (e : PersistEntry) (hb : ∀ y ∈ before, y.started ≠ none) (he : e.started = none) :
    startEntry t (before ++ e :: after) = before ++ { e with started := some t } :: after := by
  induction before with
  | nil => simp [startEntry, he]
  | cons y ys ih =>
    rw [List.forall_mem_cons] at hb
    rw [List.cons_append, startEntry, if_neg (by simpa using hb.1), ih hb.2, List.cons_append]

theorem execPersistEntryStart_val (d : Fin 4) (s : State) : exec (.persistEntryStart d) s =
    .next (if s.dies[d].cycle < s.dies[d].persistAt ∨ s.dies[d].persist.all (fun e => e.started.isSome) then s
      else withDie d { s.dies[d] with persist := startEntry s.dies[d].cycle s.dies[d].persist, persistAt := s.dies[d].cycle + 2 } s) := by
  dsimp only [exec, execPersistEntryStart]
  rw [modDie_val]
  split
  · rw [withDie_same]
  · rfl

/-- PERSIST_ENTRY_DURABLE of a die whose oldest entry has started. -/
theorem execPersistEntryDurable_val {d : Fin 4} {s : State} {e : PersistEntry} {rest : List PersistEntry} {t : Nat} (hp : s.dies[d].persist = e :: rest)
    (he : e.started = some t) : exec (.persistEntryDurable d) s =
    .next (if s.dies[d].cycle < t + 330 then s
      else withDie d { s.dies[d] with persist := rest, persistDone := s.dies[d].persistDone + 1 } { s with durable := makeDurable s.durable e }) := by
  dsimp only [exec, execPersistEntryDurable]
  rw [dieAt_val, hp]
  dsimp only
  rw [he]
  dsimp only
  rw [modDie_val]
  rfl

/-- Cells that are set one after another: each reads as the last that was set at its address. -/
theorem foldl_set_other {bs : List (Nat × BitVec 8)} {a : Nat} {m : Memory} (hm : m.wf = true) (h : ∀ p ∈ bs, p.1 ≠ a) :
    (bs.foldl (fun m b => m.set b.1 b.2) m).get a = m.get a := by
  induction bs generalizing m with
  | nil => rfl
  | cons b bs ih =>
    rw [List.forall_mem_cons] at h
    rw [List.foldl_cons, ih (m.wf_set b.1 b.2 hm) h.2, m.get_set_ne _ _ _ hm (Ne.symm h.1)]

theorem foldl_set_at {bs : List (Nat × BitVec 8)} {m : Memory} (hm : m.wf = true) (h : bs.Pairwise fun p q => p.1 ≠ q.1) :
    ∀ p ∈ bs, (bs.foldl (fun m b => m.set b.1 b.2) m).get p.1 = p.2 := by
  induction bs generalizing m with
  | nil => exact nofun
  | cons b bs ih =>
    obtain ⟨hb, h⟩ := List.pairwise_cons.1 h
    have hm' := m.wf_set b.1 b.2 hm
    refine List.forall_mem_cons.2 ⟨?_, ih hm' h⟩
    rw [List.foldl_cons, foldl_set_other hm' fun p hp => Ne.symm (hb p hp), m.get_set_eq _ _ hm]

end Sys2Proof.Machine

namespace Sys2Proof.Claims

set_option Elab.async false

open Sys2Proof.Machine Sys2Proof.Laws

/-- Settles O50: each event by its own lemma, which names the one block of the die that it changes. -/
theorem samplesAndPersistQueues : Obligations.SamplesAndPersistQueues := by
  unfold Obligations.SamplesAndPersistQueues
  intro s d
  refine ⟨fun ctrl celsius => ⟨fun hn hst => ?_, fun hn hst => ?_, fun hn hdue hnext => ?_, fun hn hwait => ?_, fun mode at_ hnext => ⟨fun hlt => ?_, fun hle => ?_⟩, fun hnext => ?_⟩,
    fun i mc => ⟨fun hp => ?_, fun hp => ?_⟩, fun before after e hq hb he => ⟨fun hlt => ?_, fun hle => ?_⟩,
    fun e rest t hq he => ⟨fun hlt => ?_, fun hle => ?_⟩, fun hall => ?_⟩
  · rw [execHbmTempSample_val]; dsimp only; rw [if_pos hn, if_pos hst, tempOf_eq]
    have h := countSample_sampled d ctrl (s.dies[d].cycle / 1048576 + 1) (fun c => { c with
      temp := (max 0 (min 255 celsius)).toNat, dbl := decide (85 < celsius)
      modes := if decide (85 < celsius) = c.dbl then c.modes else c.modes ++ [(s.dies[d].cycle, decide (85 < celsius))] }) s
    exact ⟨_, rfl, h.block, h.count, h.banks, h.mem, h.me⟩
  · rw [execHbmTempSample_val]; dsimp only; rw [if_pos hn, if_neg hst]
  · rw [execHbmTempSample_val]; dsimp only; rw [if_neg (Nat.ne_of_gt hn), if_neg (by rintro (h | h); exacts [Nat.not_lt.2 hdue h, by rw [hnext] at h; cases h]), tempOf_eq]
    have h := countSample_sampled d ctrl (s.dies[d].hbmDone[ctrl] + 1) (fun c => { c with
      temp := (max 0 (min 255 celsius)).toNat
      dblNext := if modeAfter celsius c.dbl = c.dbl then none else some (modeAfter celsius c.dbl, s.dies[d].hbmDone[ctrl] * 1048576 / 4224 * 4224 + 4224) }) s
    exact ⟨_, rfl, h.count, h.banks, h.mem, h.me, h.block⟩
  · rw [execHbmTempSample_val]; dsimp only; rw [if_neg (Nat.ne_of_gt hn), if_pos (hwait.imp_right Option.isSome_iff_ne_none.2)]
  · rw [execRefreshModeChange_some hnext, if_pos hlt]
  · rw [execRefreshModeChange_some hnext, if_neg (Nat.not_lt.2 hle)]
    refine ⟨_, rfl, ?_⟩
    rw [modCtrl_val, withDie_at]
    exact ⟨Vector.getElem_set_self _, rfl, rfl, rfl⟩
  · exact execRefreshModeChange_none hnext
  · rw [execThermSample_val, if_pos hp, modIsland_val]
    rfl
  · rw [execThermSample_val, if_neg (by rw [hp]; decide)]
  · rw [execPersistEntryStart_val, if_pos (.inl hlt)]
  · rw [execPersistEntryStart_val, if_neg, hq, startEntry_first _ _ _ _ hb he]
    rintro (h | h)
    · exact Nat.not_lt.2 hle h
    · rw [hq] at h
      simp [he] at h
  · rw [execPersistEntryDurable_val hq he, if_pos hlt]
  · rw [execPersistEntryDurable_val hq he, if_neg (Nat.not_lt.2 hle)]
    exact ⟨_, rfl, rfl, rfl, rfl, fun hwf => ⟨fun a ha => foldl_set_other hwf ha, fun hd => foldl_set_at hwf hd⟩⟩
  · rw [execPersistEntryStart_val, if_pos (.inr (List.all_eq_true.2 fun e he => Option.isSome_iff_ne_none.2 (hall e he)))]

end Sys2Proof.Claims
end

section
/-! The end of a strand (O22): the steps of END, each by the operation that it is. -/

namespace Sys2Proof.Machine

set_option Elab.async false

open Sys2Proof.Claims Sys2Proof.Laws

/-! ## FLAGS of the tags merged (R128) -/

/-- The FLAGS of every tag of a list merged. -/
def mergeTags (ks : List Tag) (s : State) : State := ks.foldl (fun s k => mergeTag k s) s

theorem mergeTag_same (k : Tag) (s : State) :
    mergeTag k s = { s with me := { s.me with vflags := (mergeTag k s).me.vflags }, core := { s.core with tags := (mergeTag k s).core.tags } } := by
  unfold mergeTag
  split <;> rfl

theorem mergeTags_same (ks : List Tag) (s : State) :
    mergeTags ks s = { s with me := { s.me with vflags := (mergeTags ks s).me.vflags }, core := { s.core with tags := (mergeTags ks s).core.tags } } := by
  induction ks generalizing s with
  | nil => rfl
  | cons k ks ih =>
    have h := ih (mergeTag k s)
    rw [mergeTag_same k s] at h
    rw [mergeTags, List.foldl_cons, mergeTag_same k s]
    exact h

theorem withFlags_bit {b : Nat} (hb : b < 12) (fl : Nat) (t : Strand) :
    (withFlags fl t).vflags.getLsbD b = true ↔ t.vflags.getLsbD b = true ∨ (modeFMSK t.mode).testBit b = false ∧ fl.testBit b = true := by
  have hmask : Nat.testBit 4095 b = true := by
    rw [show 4095 = 2 ^ 12 - 1 from rfl, Nat.testBit_two_pow_sub_one, decide_eq_true hb]
  have h64 : b < 64 := by omega
  simp only [withFlags, wd, BitVec.getLsbD_or, BitVec.getLsbD_ofNat, decide_eq_true h64, Nat.testBit_and, Nat.testBit_xor]
  simp [hmask, and_comm]

theorem freshFlags_bit {b : Nat} (k : Tag) (s : State) :
    (freshFlags k s).testBit b = true ↔ s.core.tags[k].merged = false ∧ s.core.tags[k].flags.getLsbD b = true := by
  unfold freshFlags
  cases s.core.tags[k].merged
  case true => simp
  case false => simp [BitVec.getLsbD]

theorem mergeTags_bit (ks : List Tag) (s : State) {b : Nat} (hb : b < 12) : (mergeTags ks s).me.vflags.getLsbD b = true ↔
    s.me.vflags.getLsbD b = true ∨ (modeFMSK s.me.mode).testBit b = false ∧ ∃ k ∈ ks, s.core.tags[k].merged = false ∧ s.core.tags[k].flags.getLsbD b = true := by
  induction ks generalizing s with
  | nil => simp [mergeTags]
  | cons k ks ih =>
    have hrest : (∃ j ∈ ks, (mergeTag k s).core.tags[j].merged = false ∧ (mergeTag k s).core.tags[j].flags.getLsbD b = true) ↔
        ∃ j ∈ ks, j ≠ k ∧ s.core.tags[j].merged = false ∧ s.core.tags[j].flags.getLsbD b = true := by
      refine exists_congr fun j => and_congr_right fun _ => ?_
      rw [mergeTag_tags]
      by_cases hj : j = k
      · subst hj; simp
      · simp [Vector.getElem_set_ne _ _ fun h => hj (Fin.ext h.symm), hj]
    rw [mergeTags, List.foldl_cons]
    refine (ih (mergeTag k s)).trans ?_
    rw [hrest, mergeTag_me, withFlags_bit hb, freshFlags_bit, List.exists_mem_cons_iff]
    have hmode : (withFlags (freshFlags k s) s.me).mode = s.me.mode := rfl
    rw [hmode]
    constructor
    · rintro ((h | ⟨hm, h⟩) | ⟨hm, j, hj, -, h⟩)
      · exact .inl h
      · exact .inr ⟨hm, .inl h⟩
      · exact .inr ⟨hm, .inr ⟨j, hj, h⟩⟩
    · rintro (h | ⟨hm, h | ⟨j, hj, h⟩⟩)
      · exact .inl (.inl h)
      · exact .inl (.inr ⟨hm, h⟩)
      · by_cases hk : j = k
        · subst hk; exact .inl (.inr ⟨hm, h⟩)
        · exact .inr ⟨hm, j, hj, hk, h⟩

theorem mergeTag_keepsMerged (k j : Tag) (s : State) (h : s.core.tags[j].merged = true) : (mergeTag k s).core.tags[j].merged = true := by
  rw [mergeTag_tags]
  by_cases hj : j = k
  · subst hj; simp
  · simpa [Vector.getElem_set_ne _ _ fun e => hj (Fin.ext e.symm)] using h

theorem mergeTags_keepsMerged (ks : List Tag) (j : Tag) (s : State) (h : s.core.tags[j].merged = true) : (mergeTags ks s).core.tags[j].merged = true := by
  induction ks generalizing s with
  | nil => exact h
  | cons k ks ih => exact ih _ (mergeTag_keepsMerged k j s h)

theorem mergeTags_merged (ks : List Tag) (s : State) : ∀ k ∈ ks, (mergeTags ks s).core.tags[k].merged = true := by
  induction ks generalizing s with
  | nil => exact nofun
  | cons k ks ih =>
    refine List.forall_mem_cons.2 ⟨mergeTags_keepsMerged ks k _ ?_, ih _⟩
    rw [mergeTag_tags]
    simp

/-! ## A read-modify-write at its home (R116) -/

theorem homePuts_launches (bs : List ByteWrite) (s : State) : (bs.foldl (fun s b => homePut b s) s).launches = s.launches := by
  induction bs generalizing s with
  | nil => rfl
  | cons b bs ih => exact (ih _).trans (homePut_launches b s)

theorem homeBytes_launches (wb : Bool) (bs : List ByteWrite) (s : State) : (homeBytes wb bs s).launches = s.launches := by
  rw [homeBytes_after]
  exact homePuts_launches bs s

theorem homePuts_core {bs : List ByteWrite} {s : State} (h : ∀ b ∈ bs, ∃ a, b.loc = .mem a) : (bs.foldl (fun s b => homePut b s) s).core = s.core := by
  induction bs generalizing s with
  | nil => rfl
  | cons b bs ih =>
    obtain ⟨⟨a, ha⟩, h⟩ := List.forall_mem_cons.1 h
    have hput : (homePut b s).core = s.core := by
      unfold homePut
      rw [ha]
    exact (ih h).trans hput

/-- Bytes written to memory leave the core at hand as it is. -/
theorem homeBytes_core {wb : Bool} {bs : List ByteWrite} {s : State} (h : ∀ b ∈ bs, ∃ a, b.loc = .mem a) : (homeBytes wb bs s).core = s.core := by
  rw [homeBytes_after]
  exact homePuts_core h

theorem locsAt_mem (pa n : Nat) (m : MemType) : locsAt (.mem pa m) n = memLocs pa n := (memLocs_eq_map pa n).symm

theorem putAt_memLocs (pa : Nat) (bs : List (BitVec 8)) : putAt (memLocs pa bs.length) bs = memBytes pa bs := by
  induction bs generalizing pa with
  | nil => rfl
  | cons b bs ih => exact congrArg (List.cons _) (ih (pa + 1))

theorem loc_of_putAt {ls : List Loc} {bs : List (BitVec 8)} {b : ByteWrite} (h : b ∈ putAt ls bs) : b.loc ∈ ls := by
  induction ls generalizing bs with
  | nil => cases h
  | cons l ls ih =>
    cases bs with
    | nil => cases h
    | cons x xs =>
      rcases List.mem_cons.1 h with rfl | h
      · exact List.mem_cons_self
      · exact List.mem_cons_of_mem _ (ih h)

theorem bytesOf_getElem? {n k : Nat} (hk : k < n) (w : Word) : (bytesOf n w.toNat)[k]? = some (w.extractLsb' (8 * k) 8) := by
  rw [BitVec.extractLsb', Nat.shiftRight_eq_div_pow]
  generalize w.toNat = x
  induction n generalizing k x with
  | zero => cases hk
  | succ n ih =>
    cases k with
    | zero => simp [bytesOf]
    | succ k =>
      rw [bytesOf, List.getElem?_cons_succ, ih (by omega), Nat.div_div_eq_div_mul, show 8 * (k + 1) = 8 + 8 * k by omega, pow_add]
      rfl

section
variable (ctx n : Nat) (f : Word → Word) (s : State)

theorem rmwAt_me (t : Target) : (rmwAt ctx t n f s).2.me = s.me := (homeBytes_me _ _ _).trans (l2Amo_only _ _ _ _).me_eq

theorem rmwAt_launches (t : Target) : (rmwAt ctx t n f s).2.launches = s.launches := by
  refine (homeBytes_launches _ _ _).trans ?_
  rw [(l2Amo_only _ _ _ _).same]

/-- A byte of memory that the access does not name stays. -/
theorem rmwAt_other {t : Target} (h : s.mem.wf = true) {a : Nat} (ha : .mem a ∉ locsAt t n) : (rmwAt ctx t n f s).2.mem.get a = s.mem.get a := by
  have hmem := (l2Amo_only ctx (targetWb t) (memPas (locsAt t n)) s).mem_eq
  refine (homeBytes_other _ _ _ (by rw [hmem]; exact h) a fun b hb e => ha (e ▸ loc_of_putAt hb)).trans ?_
  rw [hmem]

theorem rmwAt_mem (pa : Nat) (m : MemType) : (rmwAt ctx (.mem pa m) n f s).2 =
    homeBytes (targetWb (.mem pa m)) (memBytes pa (bytesOf n (f (BitVec.ofNat 64 (natOf (s.mem.getN pa n)))).toNat))
      (l2Amo ctx (targetWb (.mem pa m)) (memPas (memLocs pa n)) s) := by
  have hput (x : Nat) : putAt (memLocs pa n) (bytesOf n x) = memBytes pa (bytesOf n x) := by
    simpa only [bytesOf_length] using putAt_memLocs pa (bytesOf n x)
  simp only [rmwAt, locsAt_mem, homeBytes_of_memLocs, hput, wd]

theorem rmwAt_core (pa : Nat) (m : MemType) : (rmwAt ctx (.mem pa m) n f s).2.core = s.core := by
  rw [rmwAt_mem]
  exact (homeBytes_core fun b hb => (loc_of_memBytes hb).imp fun _ h => h.1).trans (l2Amo_only _ _ _ _).core_eq

/-- The bytes of memory that it names hold the new value. -/
theorem rmwAt_byte (h : s.mem.wf = true) (pa : Nat) (m : MemType) {k : Nat} (hk : k < n) :
    (rmwAt ctx (.mem pa m) n f s).2.mem.get (pa + k) = (f (BitVec.ofNat 64 (natOf (s.mem.getN pa n)))).extractLsb' (8 * k) 8 := by
  have hmem := (l2Amo_only ctx (targetWb (.mem pa m)) (memPas (memLocs pa n)) s).mem_eq
  rw [rmwAt_mem, homeBytes_at _ _ _ (by rw [hmem]; exact h) (memBytes_distinct _ _) _ (mem_memBytes (bytesOf_getElem? hk _)) _ rfl, merge_all]

end

section
variable {va : Word} {t : Target} {n : Nat} {f : Word → Word} {s : State}

theorem rmwHome_bad (h : Settled s) {p : Nat} (hp : badAt (locsAt t n) s = some p) : rmwHome va t n f s = .stop (trapHere (memoryTrap va p) s) := by
  rw [rmwHome, ownFirst_quiet _ s h, Res.bind, goodData, hp, Res.bind]

theorem rmwHome_good (h : Settled s) (hp : badAt (locsAt t n) s = none) : rmwHome va t n f s = .ok (rmwAt s.me.ctx t n f s).1 (rmwAt s.me.ctx t n f s).2 := by
  rw [rmwHome, ownFirst_quiet _ s h, Res.bind, goodData, hp, Res.bind]

end

theorem badAt_scratch (mesh off n : Nat) (s : State) : badAt (locsAt (.scratch mesh off) n) s = none := by
  unfold badAt
  split
  · rfl
  · simp [locsAt, targetLoc]

/-! ## The completion word (R222) -/

theorem endedWord_eq (fl w : Word) : endedWord fl w = (w ||| fl &&& 0xFFF) + 0x100000000 := by
  have hmask : wd (fld fl 0 12) = fl &&& 0xFFF := by
    apply BitVec.eq_of_toNat_eq
    have := fl.isLt
    rw [BitVec.toNat_and, show (0xFFF : Word).toNat = 2 ^ 12 - 1 from rfl, Nat.and_two_pow_sub_one_eq_mod]
    simp only [wd, fld, field, BitVec.toNat_ofNat]
    omega
  rw [endedWord, hmask]
  rfl

/-- The completion word lies beyond a chain port. -/
def ComplFar (s : State) : Prop := fld s.me.compl 57 7 = 0 ∧ ∃ e, routeOf s.me.ctx s.me.compl.toNat s = some e

section
variable {s s1 : State}

theorem complFar_iff : (fld s.me.compl 57 7 == 0 && (routeOf s.me.ctx s.me.compl.toNat s).isSome) = true ↔ ComplFar s := by
  rw [Bool.and_eq_true, beq_iff_eq, Option.isSome_iff_exists, ComplFar]

theorem completionWord_far (h : ComplFar s) : completionWord s = .stop (xlate .atomic s.me.compl ⟨xATTRIBUTE, 0, 0, false⟩ s) := if_pos (complFar_iff.2 h)

theorem completionWord_fault (h : ¬ComplFar s) {x : XFault} (ht : translate (reqOf s.me) .atomic 8 s.me.compl s = (.error x, s1)) :
    completionWord s = .stop (xlate .atomic s.me.compl x s1) := by
  unfold completionWord
  dsimp only
  rw [if_neg (mt complFar_iff.1 h), ht]

theorem completionWord_lands (h : ¬ComplFar s) {t : Target} (ht : translate (reqOf s.me) .atomic 8 s.me.compl s = (.ok t, s1)) (hr : ∀ e, t ≠ .remote e) :
    completionWord s = (rmwHome s.me.compl t 8 (endedWord s1.me.vflags) s1).bind fun _ s => .ok () s := by
  unfold completionWord
  dsimp only
  rw [if_neg (mt complFar_iff.1 h), ht]
  cases t with
  | remote e => exact absurd rfl (hr e)
  | mem pa m => rfl
  | scratch m off => rfl

/-- The completion word counted: the state that follows. -/
def counted (t : Target) (s : State) : State := (rmwAt s.me.ctx t 8 (endedWord s.me.vflags) s).2

theorem completionWord_bad (h : ¬ComplFar s) {t : Target} (ht : translate (reqOf s.me) .atomic 8 s.me.compl s = (.ok t, s1)) (hr : ∀ e, t ≠ .remote e)
    (hs : Settled s1) {p : Nat} (hp : badAt (locsAt t 8) s1 = some p) : completionWord s = .stop (trapHere (memoryTrap s.me.compl p) s1) := by
  rw [completionWord_lands h ht hr, rmwHome_bad hs hp]
  rfl

theorem completionWord_good (h : ¬ComplFar s) {t : Target} (ht : translate (reqOf s.me) .atomic 8 s.me.compl s = (.ok t, s1)) (hr : ∀ e, t ≠ .remote e)
    (hs : Settled s1) (hp : badAt (locsAt t 8) s1 = none) : completionWord s = .ok () (counted t s1) := by
  rw [completionWord_lands h ht hr, rmwHome_good hs hp]
  rfl

theorem counted_me (t : Target) (s : State) : (counted t s).me = s.me := rmwAt_me _ _ _ _ _
theorem counted_launches (t : Target) (s : State) : (counted t s).launches = s.launches := rmwAt_launches _ _ _ _ _
theorem counted_core (pa : Nat) (m : MemType) (s : State) : (counted (.mem pa m) s).core = s.core := rmwAt_core _ _ _ _ _ _

theorem counted_scratch (h : s.mem.wf = true) (mesh off : Nat) : SameMemory s (counted (.scratch mesh off) s) :=
  fun a => rmwAt_other _ _ _ _ h (by simp [locsAt, targetLoc])

theorem counted_outside (h : s.mem.wf = true) (pa : Nat) (m : MemType) : SameOutside pa 8 s (counted (.mem pa m) s) := fun a ha => rmwAt_other _ _ _ _ h (by
  rw [locsAt_mem, memLocs_eq_map]
  simp only [List.mem_map, List.mem_range, Loc.mem.injEq, not_exists, not_and]
  omega)

theorem counted_byte (h : s.mem.wf = true) (pa : Nat) (m : MemType) {k : Nat} (hk : k < 8) : (counted (.mem pa m) s).mem.get (pa + k) =
    ((BitVec.ofNat 64 (natOf (s.mem.getN pa 8)) ||| s.me.vflags &&& 0xFFF) + 0x100000000).extractLsb' (8 * k) 8 := by
  rw [counted, rmwAt_byte _ _ _ _ h pa m hk, endedWord_eq]

end

/-! ## END, step by step (R221) -/

/-- What END does once the latches are released: it fences, counts its end in the completion word, and the strand has ended. -/
def endAfterRelease (s : State) : Res Unit := (fenceAll 5 s).bind fun _ s => (completionWord s).bind fun _ s => .ok () (endStep s)

theorem endAfterRelease_settled {s : State} (h : Settled s) :
    endAfterRelease s = (completionWord (acquireCopies unboundOnly 5 s)).bind fun _ s => .ok () (endStep s) := by
  rw [endAfterRelease, fenceAll, fenceRelease_quiet _ _ _ s h]
  rfl

section
variable {s : State} (hs : Settled s) (hl : atLoopEnd s.me = false)
include hs hl

theorem execEndStrand_settled : exec .endStrand s =
    (if (grantTags s.me).any fun k => (tagAt k s).st == .busy then .stop s
      else (deliverFirst (grantTags s.me) s).bind fun _ t =>
        (releaseHeld (heldLatches (mergeTags (grantTags s.me) t).me) (mergeTags (grantTags s.me) t)).bind fun _ t => endAfterRelease t).out := by
  have hfinal : notFinal .endStrand s = .ok () s := by rw [notFinal, hl]; rfl
  dsimp only [exec, execEndStrand]
  rw [hfinal, Res.bind, deliverStores_quiet s hs, Res.bind, drainAll_quiet s hs, Res.bind]
  rfl

theorem execEndStrand_waits (hb : ∃ k ∈ grantTags s.me, s.core.tags[k].st = .busy) : exec .endStrand s = .next s := by
  obtain ⟨k, hk, hb⟩ := hb
  have hany : ((grantTags s.me).any fun k => (tagAt k s).st == .busy) = true := List.any_eq_true.2 ⟨k, hk, beq_iff_eq.2 hb⟩
  rw [execEndStrand_settled hs hl, if_pos hany]
  rfl

variable (hb : ∀ k ∈ grantTags s.me, s.core.tags[k].st ≠ .busy)
include hb

theorem execEndStrand_idle : exec .endStrand s =
    ((deliverFirst (grantTags s.me) s).bind fun _ t =>
      (releaseHeld (heldLatches (mergeTags (grantTags s.me) t).me) (mergeTags (grantTags s.me) t)).bind fun _ t => endAfterRelease t).out := by
  rw [execEndStrand_settled hs hl, if_neg]
  intro h
  obtain ⟨k, hk, hst⟩ := List.any_eq_true.1 h
  exact hb k hk (beq_iff_eq.1 hst)

theorem execEndStrand_delivers {k : Tag} (hk : (grantTags s.me).find? (fun k => errorPending k s) = some k) : exec .endStrand s = .next (delivered k s) := by
  rw [execEndStrand_idle hs hl hb, deliverFirst_some hk]
  rfl

theorem execEndStrand_releases (he : ∀ k ∈ grantTags s.me, ¬Pending k s) :
    exec .endStrand s = ((releaseHeld (heldLatches s.me) (mergeTags (grantTags s.me) s)).bind fun _ t => endAfterRelease t).out := by
  have hlatches : heldLatches (mergeTags (grantTags s.me) s).me = heldLatches s.me := by rw [mergeTags_same]; rfl
  rw [execEndStrand_idle hs hl hb, deliverFirst_none he, Res.bind, hlatches]

end

/-! ## The strand ended (R221, steps 5 and 6) -/

theorem freeSlots_tags (ks : List Tag) (c : Core) : ks.foldl (fun c k => freeSlots k c) c = { c with tags := (ks.foldl (fun c k => freeSlots k c) c).tags } := by
  induction ks generalizing c with
  | nil => rfl
  | cons k ks ih => exact ih (freeSlots k c)

theorem freeSlots_tag (ks : List Tag) (c : Core) (j : Tag) :
    (ks.foldl (fun c k => freeSlots k c) c).tags[j] = if j ∈ ks then { c.tags[j] with slots := [] } else c.tags[j] := by
  induction ks generalizing c with
  | nil => rfl
  | cons k ks ih =>
    rw [List.foldl_cons, ih]
    by_cases hj : j = k
    · subst hj
      simp [freeSlots]
    · simp [freeSlots, hj, Vector.getElem_set_ne _ _ fun h => hj (Fin.ext h.symm)]

/-- The state of a strand that has ended, before its launch is looked at. -/
def ended (s : State) : State := onCore (fun c => { c with shRequest := true }) (onMe (released .ended) (freeGrant s.me s))

theorem freeGrant_here {s : State} (h : s.me.mesh = s.core.mesh) :
    freeGrant s.me s = { s with core := (grantTags s.me).foldl (fun c k => freeSlots k c) s.core } := if_pos h.symm

theorem ended_same {s : State} (h : s.me.mesh = s.core.mesh) :
    ended s = { s with me := released .ended s.me, core := { s.core with shRequest := true, tags := (ended s).core.tags } } := by
  rw [ended, freeGrant_here h, freeSlots_tags]
  rfl

theorem ended_tag {s : State} (h : s.me.mesh = s.core.mesh) (k : Tag) :
    (ended s).core.tags[k] = if k ∈ grantTags s.me then { s.core.tags[k] with slots := [] } else s.core.tags[k] := by
  rw [ended, freeGrant_here h]
  exact freeSlots_tag _ _ _

theorem launchRuns_iff {id : Nat} {s : State} : launchRuns id s = true ↔ ∃ t ∈ allStrands s, t.life = .running ∧ t.launch = id := by
  simp [launchRuns]

end Sys2Proof.Machine

namespace Sys2Proof.Claims

set_option Elab.async false

open Sys2Proof.Machine Sys2Proof.Laws

/-- Settles O22: END of a quiet strand is its steps in order, and what ends the strand is one operation. -/
theorem endCompletes : Obligations.EndCompletes := by
  unfold Obligations.EndCompletes
  refine ⟨fun s hs hl => ⟨execEndStrand_waits hs hl, fun hb k hk => execEndStrand_delivers hs hl hb hk, fun hdone => ?_⟩, fun s h => ?_⟩
  · have hpending : ∀ k ∈ grantTags s.me, ¬Pending k s := fun k hk hp => by
      have htold := (hdone k hk).2 hp.1
      rw [hp.2.1] at htold
      cases htold
    have hrun := execEndStrand_releases hs hl (fun k hk => (hdone k hk).1) hpending
    refine ⟨fun b hb => mergeTags_bit _ s hb, mergeTags_merged _ s, mergeTags_same _ s, fun s1 h1 => ?_, fun s1 h1 hs1 => ?_⟩
    · exact hrun.trans (congrArg (fun r => (r.bind fun _ t => endAfterRelease t).out) h1)
    · have hend := (hrun.trans (congrArg (fun r => (r.bind fun _ t => endAfterRelease t).out) h1)).trans (congrArg Res.out (endAfterRelease_settled hs1))
      have hstop {t : State} (h : completionWord (acquireCopies unboundOnly 5 s1) = .stop t) : exec .endStrand s = .next t :=
        hend.trans (congrArg (fun r => (r.bind fun _ s => .ok () (endStep s)).out) h)
      have hok {t : State} (h : completionWord (acquireCopies unboundOnly 5 s1) = .ok () t) : exec .endStrand s = .next (endStep t) :=
        hend.trans (congrArg (fun r => (r.bind fun _ s => .ok () (endStep s)).out) h)
      refine ⟨fun hfar => hstop (completionWord_far hfar), fun hfar => ⟨fun x s2 ht => hstop (completionWord_fault hfar ht), fun mesh off s2 ht hs2 hme => ?_,
        fun pa m s2 ht hs2 hme p hp => hstop (completionWord_bad hfar ht nofun hs2 hp), fun pa m s2 ht hs2 hme hp => ?_⟩⟩
      · exact ⟨_, hok (completionWord_good hfar ht nofun hs2 (badAt_scratch _ _ _ _)), (counted_me _ _).trans hme, counted_launches _ _, counted_scratch hs2.kept.mem _ _⟩
      · refine ⟨_, hok (completionWord_good hfar ht nofun hs2 hp), (counted_me _ _).trans hme, counted_core _ _ _, counted_launches _ _, fun k hk => ?_,
          counted_outside hs2.kept.mem pa m⟩
        rw [counted_byte hs2.kept.mem pa m hk, hme]
  · refine ⟨ended s, ended_same h, ended_tag h, fun hnone => ?_, fun l hsome => ⟨fun hst hidle => ?_, fun hst => ?_⟩⟩
    all_goals change finishIfDone s.me.launch (ended s) = _; rw [finishIfDone]
    · rw [hnone]
    · rw [hsome]
      have hruns : launchRuns s.me.launch (ended s) = false := Bool.eq_false_iff.2 fun hr => (launchRuns_iff.1 hr).elim fun t ht => hidle t ht.1 ht.2
      exact if_pos ⟨hst, by rw [hruns]; rfl⟩
    · rw [hsome]
      refine if_neg fun ⟨hplaced, hr⟩ => ?_
      rcases hst with ⟨h1, h2⟩ | hrun
      · exact hplaced.elim h1 h2
      · rw [launchRuns_iff.2 hrun] at hr
        cases hr

end Sys2Proof.Claims
end

section
/-! DRAM (O49): refresh commands and their times, a bank brought to a cycle, and what an access leaves of its bank and of its controller. -/

namespace Sys2Proof.Machine

set_option Elab.async false

open Sys2Proof.Claims Sys2Proof.Laws

/-! ## The times of refresh commands (R89, R90) -/

theorem refreshStep_pos (k : BankId) (m : Bool) : 0 < refreshStep k m := by
  unfold refreshStep
  split <;> decide

theorem refreshFrom_zero (k : BankId) (m : Bool) : refreshFrom k m 0 = k.bank * refreshSkew k m := by
  have h := refreshStep_pos k m
  rw [refreshFrom, Nat.zero_sub, Nat.zero_add, Nat.div_eq_of_lt (by omega), Nat.zero_mul, Nat.add_zero]

theorem skew_eq (k : BankId) (m : Bool) : k.bank * refreshSkew k m = k.bank * refreshStep k m / (if k.ctrl < 2 then 64 else 16) := by
  unfold refreshSkew refreshStep
  by_cases h : k.ctrl < 2 <;> cases m <;> simp only [h, if_true, if_false, true_and, false_and, Bool.false_eq_true] <;> omega

/-- A command begins before a cycle if it is among those counted. -/
theorem lt_segCount {k : BankId} {m : Bool} {a n t : Nat} : n < segCount k m a t ↔ refreshFrom k m a + n * refreshStep k m < t := by
  have h := refreshStep_pos k m
  unfold segCount
  dsimp only
  split
  · omega
  · rw [Nat.lt_div_iff_mul_lt h]
    omega

theorem segCount_mono {k : BankId} {m : Bool} {a t u : Nat} (h : t ≤ u) : segCount k m a t ≤ segCount k m a u :=
  le_of_forall_lt fun _ hn => lt_segCount.2 ((lt_segCount.1 hn).trans_le h)

theorem cmdsBefore_mono {k : BankId} {t u : Nat} (h : t ≤ u) (ms : List (Nat × Bool)) : cmdsBefore k t ms ≤ cmdsBefore k u ms := by
  induction ms with
  | nil => exact Nat.le_refl _
  | cons p rest ih =>
    cases rest with
    | nil => exact segCount_mono h
    | cons q rest => exact Nat.add_le_add (segCount_mono (min_le_min_left _ h)) ih

/-- Fewer commands begin before the start of one of them than up to a later cycle. -/
theorem cmdsBefore_start_lt {k : BankId} {t : Nat} {ms : List (Nat × Bool)} (hm : ms ≠ []) {n : Nat} (h : cmdStart k ms n ≤ t) :
    cmdsBefore k (cmdStart k ms n) ms < cmdsBefore k (t + 1) ms := by
  induction ms generalizing n with
  | nil => exact absurd rfl hm
  | cons p rest ih =>
    obtain ⟨a, m⟩ := p
    cases rest with
    | nil => exact (Nat.le_of_not_lt fun hc => Nat.lt_irrefl _ (lt_segCount.1 hc)).trans_lt (lt_segCount.2 (Nat.lt_succ_of_le h))
    | cons q rest =>
      rw [cmdStart] at h ⊢
      split at h
      next hn =>
        rw [if_pos hn]
        have hb := lt_segCount.1 hn
        rw [cmdsBefore, cmdsBefore]
        refine Nat.add_lt_add_of_lt_of_le ?_ (cmdsBefore_mono (by omega) _)
        exact (Nat.le_of_not_lt fun hc => Nat.lt_irrefl _ ((lt_segCount.1 hc).trans_le (min_le_right _ _))).trans_lt (lt_segCount.2 (lt_min hb (Nat.lt_succ_of_le h)))
      next hn =>
        rw [if_neg hn]
        rw [cmdsBefore, cmdsBefore]
        exact Nat.add_lt_add_of_le_of_lt (segCount_mono (min_le_min_left _ (by omega))) (ih (by simp) h)

theorem modesOf_ne_nil {k : BankId} {t : Nat} {c : Ctrl} (h : 0 < cmdsBefore k t (modesOf c)) : modesOf c ≠ [] := fun hm => by
  rw [hm] at h
  exact Nat.lt_irrefl 0 h

/-! ## Activation counters (R92) -/

theorem actsOf_clearActs (p : Nat → Bool) (b : Bank) (j : Nat) : actsOf (clearActs p b) j = if p j = true then 0 else actsOf b j := by
  unfold actsOf clearActs
  dsimp only
  rw [List.find?_filter]
  split
  next h =>
    rw [List.find?_eq_none.2]
    · rfl
    · intro a _ ha
      simp only [Bool.not_eq_true', beq_iff_eq, decide_eq_true_eq] at ha
      rw [ha.2, h] at ha
      cases ha.1
  next h =>
    refine congrArg (fun o : Option (Nat × Nat) => (o.map fun a => a.2).getD 0) (congrArg (fun q => b.acts.find? q) (funext fun a => ?_))
    by_cases ha : a.1 = j
    · simp [ha, h]
    · simp [ha]

theorem actsOf_congr {a b : Bank} (h : a.acts = b.acts) (j : Nat) : actsOf a j = actsOf b j := by rw [actsOf, actsOf, h]

/-- Whether the commands from one number up to another refresh a row: one of them has it among its rows (R89). -/
theorem refreshed_iff {k : BankId} {n m j : Nat} (hj : j < pointerRows k) :
    refreshed k n m j = true ↔ ∃ q r, n ≤ q ∧ q < m ∧ r < refreshRows k ∧ j = (q * refreshRows k + r) % pointerRows k := by
  revert hj
  unfold refreshed refreshRows pointerRows
  cases isStack k <;> intro hj <;> simp only [if_true, if_false, Bool.false_eq_true, decide_eq_true_eq] at hj ⊢
  · exact ⟨fun h => ⟨(n * 32 + (j + 262144 - n * 32 % 262144) % 262144) / 32, (n * 32 + (j + 262144 - n * 32 % 262144) % 262144) % 32, by omega⟩,
      fun ⟨q, r, h⟩ => by omega⟩
  · exact ⟨fun h => ⟨(n * 2 + (j + 16384 - n * 2 % 16384) % 16384) / 2, (n * 2 + (j + 16384 - n * 2 % 16384) % 16384) % 2, by omega⟩,
      fun ⟨q, r, h⟩ => by omega⟩

/-! ## A bank brought to a cycle (R86, R89, R94) -/

section Settle

variable {k : BankId} {c : Ctrl} {t idle : Nat} {b : Bank}

theorem settleBank_current (h : cmdsBefore k (t + 1) (modesOf c) ≤ b.commands) : settleBank k c t idle b =
    { b with
      refreshUntil := b.refreshUntil.filter fun u => decide (t < u)
      backoff := b.backoff.filter fun p => decide (t < p.2)
      row := if b.lastAt + 4096 ≤ idle then none else b.row } := by
  unfold settleBank
  dsimp only
  rw [if_pos h]

theorem settleBank_refreshes (h : b.commands < cmdsBefore k (t + 1) (modesOf c)) : settleBank k c t idle b =
    let n := cmdsBefore k (t + 1) (modesOf c)
    { clearActs (refreshed k b.commands n) b with
      row := none
      rowBefore := if n = b.commands + 1 then b.row else none
      commands := n
      refreshUntil := (some (putOff b (cmdStart k (modesOf c) (n - 1)) + refreshHold k)).filter fun u => decide (t < u)
      backoff := b.backoff.filter fun p => decide (t < p.2) } := by
  have hrow (p : Prop) [Decidable p] : (if p then (none : Option Nat) else none) = none := ite_self none
  unfold settleBank
  dsimp only
  rw [if_neg (Nat.not_le.2 h)]
  exact congrArg (fun r => { clearActs (refreshed k b.commands (cmdsBefore k (t + 1) (modesOf c))) b with
    row := r
    rowBefore := if cmdsBefore k (t + 1) (modesOf c) = b.commands + 1 then b.row else none
    commands := cmdsBefore k (t + 1) (modesOf c)
    refreshUntil := (some (putOff b (cmdStart k (modesOf c) (cmdsBefore k (t + 1) (modesOf c) - 1)) + refreshHold k)).filter fun u => decide (t < u)
    backoff := b.backoff.filter fun p => decide (t < p.2) }) (hrow (b.lastAt + 4096 ≤ idle))

/-- What of a bank that is brought to a cycle does not depend on whether commands have begun. -/
theorem settleBank_keeps (k : BankId) (c : Ctrl) (t idle : Nat) (b : Bank) :
    (settleBank k c t idle b).id = b.id ∧ (settleBank k c t idle b).queue = b.queue ∧ (settleBank k c t idle b).lastAt = b.lastAt ∧
    (settleBank k c t idle b).commands = max b.commands (cmdsBefore k (t + 1) (modesOf c)) ∧
    (settleBank k c t idle b).backoff = b.backoff.filter fun p => decide (t < p.2) := by
  rcases Nat.lt_or_ge b.commands (cmdsBefore k (t + 1) (modesOf c)) with h | h
  · rw [settleBank_refreshes h]
    exact ⟨rfl, rfl, rfl, (max_eq_right h.le).symm, rfl⟩
  · rw [settleBank_current h]
    exact ⟨rfl, rfl, rfl, (max_eq_left h).symm, rfl⟩

theorem settleBank_refreshUntil (k : BankId) (c : Ctrl) (t idle : Nat) (b : Bank) : (settleBank k c t idle b).refreshUntil =
    (if cmdsBefore k (t + 1) (modesOf c) ≤ b.commands then b.refreshUntil
      else some (putOff b (cmdStart k (modesOf c) (cmdsBefore k (t + 1) (modesOf c) - 1)) + refreshHold k)).filter fun u => decide (t < u) := by
  unfold settleBank
  dsimp only
  split <;> rfl

theorem settleBank_backoff_iff {lo hi : Nat} : (settleBank k c t idle b).backoff = some (lo, hi) ↔ b.backoff = some (lo, hi) ∧ t < hi := by
  rw [(settleBank_keeps k c t idle b).2.2.2.2, Option.filter_eq_some_iff, decide_eq_true_iff]

/-- The counters of the rows of the commands that have begun are zero, and the others are as they were. -/
theorem settleBank_acts (h : b.commands < cmdsBefore k (t + 1) (modesOf c)) {j : Nat} (hj : j < pointerRows k) :
    let done := ∃ q r, b.commands ≤ q ∧ q < cmdsBefore k (t + 1) (modesOf c) ∧ r < refreshRows k ∧ j = (q * refreshRows k + r) % pointerRows k
    (done → actsOf (settleBank k c t idle b) j = 0) ∧ (¬done → actsOf (settleBank k c t idle b) j = actsOf b j) := by
  have hacts : actsOf (settleBank k c t idle b) j = actsOf (clearActs (refreshed k b.commands (cmdsBefore k (t + 1) (modesOf c))) b) j :=
    actsOf_congr (by rw [settleBank_refreshes h]) j
  rw [hacts, actsOf_clearActs]
  exact ⟨fun hd => if_pos ((refreshed_iff hj).2 hd), fun hd => if_neg (mt (refreshed_iff hj).1 hd)⟩

end Settle

/-! ## A bank and its controller, read after a change -/

/-- The form of a bank that is found or made by its number. -/
theorem find_modBankList {k : BankId} {f : Bank → Bank} {bs : List Bank} (h : (f ((bs.find? fun b => b.id == k).getD (Bank.reset k))).id = k) :
    (modBankList k f bs).find? (fun b => b.id == k) = some (f ((bs.find? fun b => b.id == k).getD (Bank.reset k))) := by
  induction bs with
  | nil => simpa [modBankList] using h
  | cons b bs ih =>
    by_cases hb : b.id = k
    · have hfind : (b :: bs).find? (fun b => b.id == k) = some b := List.find?_cons_of_pos (beq_iff_eq.2 hb)
      rw [hfind] at h ⊢
      rw [modBankList, if_pos hb]
      exact List.find?_cons_of_pos (beq_iff_eq.2 h)
    · have hskip (l : List Bank) : (b :: l).find? (fun b => b.id == k) = l.find? fun b => b.id == k := List.find?_cons_of_neg (mt beq_iff_eq.1 hb)
      rw [hskip] at h ⊢
      rw [modBankList, if_neg hb, hskip]
      exact ih h

section Read

variable {k : BankId} {s : State}

theorem bankAt_id (k : BankId) (s : State) : (bankAt k s).id = k := by
  unfold bankAt
  cases h : (dieAt k.die s).banks.find? fun b => b.id == k with
  | none => rfl
  | some b => exact beq_iff_eq.1 (List.find?_some (p := fun b : Bank => b.id == k) h)

theorem bankAt_modBank {f : Bank → Bank} (h : (f (bankAt k s)).id = k) : bankAt k (modBank k f s) = f (bankAt k s) := by
  unfold bankAt modBank at *
  rw [dieAt_modDie]
  dsimp only
  rw [find_modBankList h]
  rfl

theorem ctrlOf_modBank (k : BankId) (f : Bank → Bank) (s : State) : ctrlOf k (modBank k f s) = ctrlOf k s := by
  unfold ctrlOf modBank
  rw [dieAt_modDie]

theorem bankAt_modCtrl (k : BankId) (f : Ctrl → Ctrl) (s : State) : bankAt k (modCtrl k.die k.ctrl f s) = bankAt k s := by
  unfold bankAt modCtrl
  dsimp only
  rw [dieAt_modDie]

theorem ctrlOf_modCtrl (k : BankId) (f : Ctrl → Ctrl) (s : State) : ctrlOf k (modCtrl k.die k.ctrl f s) = f (ctrlOf k s) := by
  unfold ctrlOf modCtrl
  dsimp only
  rw [dieAt_modDie]
  exact Vector.getElem_set_self _

end Read

/-! ## Nothing but the DRAM of a die -/

theorem onlyDram_refl (d : Nat) (s : State) : OnlyDram d s s := ⟨rfl, rfl, fun _ _ => rfl⟩

theorem onlyDram_trans {d : Nat} {s t u : State} (h : OnlyDram d s t) (g : OnlyDram d t u) : OnlyDram d s u where
  rest := by rw [g.rest, h.rest]
  there := by rw [g.there, h.there]
  others e he := (g.others e he).trans (h.others e he)

theorem modDie_onlyDram {d : Nat} (hd : d < 4) {f : Die → Die} (hf : ∀ x, f x = { x with banks := (f x).banks, ctrls := (f x).ctrls }) (s : State) : OnlyDram d s (modDie d f s) where
  rest := rfl
  there := by rw [dieAt_modDie, ← hf]
  others e he := Vector.getElem_set_ne (fin 4 (by decide) d).2 e.2 fun h => he (h.symm.trans (Nat.mod_eq_of_lt hd))

theorem modBank_onlyDram {k : BankId} (hd : k.die < 4) (f : Bank → Bank) (s : State) : OnlyDram k.die s (modBank k f s) := modDie_onlyDram hd (fun _ => rfl) s
theorem modCtrl_onlyDram {k : BankId} (hd : k.die < 4) (f : Ctrl → Ctrl) (s : State) : OnlyDram k.die s (modCtrl k.die k.ctrl f s) :=
  modDie_onlyDram hd (f := fun d => { d with ctrls := d.ctrls.set (fin 5 (by decide) k.ctrl) (f d.ctrls[fin 5 (by decide) k.ctrl]) }) (fun _ => rfl) s

theorem die_of_bankOk {k : BankId} (h : bankOk k = true) : k.die < 4 := by
  rw [bankOk, Bool.and_eq_true, decide_eq_true_iff] at h
  exact h.1

/-! ## An activation, and the refresh management that it starts (R92, R93) -/

/-- A bank with a row opened and its activation counted. -/
def opened (row : Nat) (b : Bank) : Bank := { b with row := some row, acts := (row, actsOf b row + 1) :: b.acts.filter fun a => a.1 != row }

/-- A bank whose row has come to the threshold as its access completed. -/
def managed (k : BankId) (row t : Nat) (b : Bank) : Bank :=
  clearActs (victims row) { b with row := none, backoff := some (max t (b.refreshUntil.getD t), max t (b.refreshUntil.getD t) + backoffHold k) }

/-- A controller that has started refresh management of a row. -/
def managing (k : BankId) (row : Nat) (c : Ctrl) : Ctrl :=
  { c with rfmcnt := c.rfmcnt + 1, chan := k.chan, bank := k.bank, row := row, bocyc := c.bocyc + backoffHold k }

/-- A controller that has counted the activations of a row. -/
def counting (n : Nat) (c : Ctrl) : Ctrl := { c with actmax := max c.actmax n }

theorem actsOf_opened (row : Nat) (b : Bank) : actsOf (opened row b) row = actsOf b row + 1 := by
  have hfirst (n : Nat) (l : List (Nat × Nat)) : ((row, n) :: l).find? (fun a => a.1 == row) = some (row, n) := List.find?_cons_of_pos (beq_iff_eq.2 rfl)
  rw [actsOf, opened, hfirst]
  rfl

theorem actsOf_opened_other {row j : Nat} (h : j ≠ row) (b : Bank) : actsOf (opened row b) j = actsOf b j := by
  have hskip : ((row, actsOf b row + 1) :: b.acts.filter fun a => a.1 != row).find? (fun a => a.1 == j) = (b.acts.filter fun a => a.1 != row).find? fun a => a.1 == j :=
    List.find?_cons_of_neg (mt beq_iff_eq.1 h.symm)
  unfold opened
  rw [actsOf]
  dsimp only
  rw [hskip, List.find?_filter, actsOf]
  refine congrArg (fun o : Option (Nat × Nat) => (o.map fun a => a.2).getD 0) (congrArg (fun q => b.acts.find? q) (funext fun a => ?_))
  by_cases ha : a.1 = j
  · simp [ha, h]
  · simp [ha]

theorem victims_iff {n row : Nat} : victims n row = true ↔ n ≤ row + 2 ∧ row ≤ n + 2 := by simp [victims]

theorem actsOf_managed (k : BankId) (row t : Nat) (b : Bank) (j : Nat) : actsOf (managed k row t b) j = if victims row j = true then 0 else actsOf b j :=
  actsOf_clearActs _ _ _

/-- With no refresh that holds the bank, its back-off begins at once. -/
theorem managed_free {k : BankId} {row t : Nat} {b : Bank} (h : b.refreshUntil = none) :
    managed k row t b = { b with row := none, backoff := some (t, t + backoffHold k), acts := (managed k row t b).acts } := by
  have hstart : max t (b.refreshUntil.getD t) = t := by rw [h, Option.getD_none, max_self]
  unfold managed
  rw [hstart]
  rfl

theorem openRow_eq (k : BankId) (row : Nat) (s : State) : openRow k row s =
    (decide ((ctrlOf k s).actthr ≤ actsOf (bankAt k s) row + 1), (openRow k row s).2) := rfl

section Row

variable (k : BankId) (row t : Nat) (s : State)

theorem openRow_bank : bankAt k (openRow k row s).2 = opened row (bankAt k s) := by
  unfold openRow
  dsimp only
  rw [bankAt_modBank (by rw [bankAt_modCtrl]; exact bankAt_id k s), bankAt_modCtrl]
  rfl

theorem openRow_ctrl : ctrlOf k (openRow k row s).2 = counting (actsOf (bankAt k s) row + 1) (ctrlOf k s) := by
  unfold openRow
  dsimp only
  rw [ctrlOf_modBank, ctrlOf_modCtrl]
  rfl

theorem openRow_only (hd : k.die < 4) : OnlyDram k.die s (openRow k row s).2 := onlyDram_trans (modCtrl_onlyDram hd _ _) (modBank_onlyDram hd _ _)

theorem manageRow_bank : bankAt k (manageRow k row t s) = managed k row t (bankAt k s) := by
  unfold manageRow
  rw [bankAt_modCtrl, bankAt_modBank (bankAt_id k s)]
  rfl

theorem manageRow_ctrl : ctrlOf k (manageRow k row t s) = managing k row (ctrlOf k s) := by
  unfold manageRow
  rw [ctrlOf_modCtrl, ctrlOf_modBank]
  rfl

theorem manageRow_only (hd : k.die < 4) : OnlyDram k.die s (manageRow k row t s) := onlyDram_trans (modBank_onlyDram hd _ _) (modCtrl_onlyDram hd _ _)

end Row

/-! ## Whether a bank completes an access (R86, R89, R90, R94) -/

section Serve

variable {k : BankId} {s : State}

/-- A stack serves once its first sample has been taken, and the capacity tier at once. -/
def Serves (k : BankId) (s : State) : Prop := (k.ctrl = 0 → (dieAt k.die s).hbmDone[0] ≠ 0) ∧ (k.ctrl = 1 → (dieAt k.die s).hbmDone[1] ≠ 0)

theorem bankServes_iff (h : bankOk k = true) : bankServes k s = true ↔ Serves k s := by
  rw [bankServes, h, Bool.true_and, isStack, Serves]
  by_cases h0 : k.ctrl = 0
  · simp [h0, fin]
  · by_cases h1 : k.ctrl = 1
    · simp [h1, fin]
    · have : ¬k.ctrl < 2 := by omega
      simp [h0, h1, this]

/-- The bank as it stands at the present cycle, while an access keeps its row from idling. -/
def presentBank (k : BankId) (s : State) : Bank := settleBank k (ctrlOf k s) (dieAt k.die s).cycle 0 (bankAt k s)

theorem bankFree_iff : bankFree k s = true ↔ (presentBank k s).refreshUntil = none ∧ (presentBank k s).backoff = none := by
  rw [bankFree, bankHeld, Bool.not_eq_true', Bool.or_eq_false_iff, Option.isSome_eq_false_iff, Option.isSome_eq_false_iff, Option.isNone_iff_eq_none,
    Option.isNone_iff_eq_none]
  rfl

/-- The bank at the access of its oldest request, which is complete. -/
def presentedBank (k : BankId) (r : BankReq) (rest : List BankReq) (s : State) : Bank :=
  { settleBank k (ctrlOf k s) (dieAt k.die s).cycle r.at_ (bankAt k s) with queue := rest, lastAt := (dieAt k.die s).cycle }

section Served

variable (h : bankOk k = true)
include h

theorem dramServe_still (hq : (bankAt k s).queue = [] ∨ ¬Serves k s) : dramServe k s = s := by
  unfold dramServe
  dsimp only
  split
  · rfl
  next r rest hr =>
    have hs : ¬Serves k s := hq.resolve_left fun hn => by rw [hn] at hr; cases hr
    rw [if_pos (by rw [Bool.not_eq_true', Bool.eq_false_iff]; exact mt (bankServes_iff h).1 hs)]

variable {r : BankReq} {rest : List BankReq} (hr : (bankAt k s).queue = r :: rest)
include hr

theorem dramServe_held (hn : ¬(Serves k s ∧ bankFree k s = true)) (hu : underWay k r s = none) : dramServe k s = s := by
  unfold dramServe
  dsimp only
  rw [hr]
  dsimp only
  split
  · rfl
  next hs =>
    have hs : Serves k s := (bankServes_iff h).1 (by simpa using hs)
    rw [if_pos (by rw [Bool.not_eq_true', Bool.eq_false_iff]; exact fun hf => hn ⟨hs, hf⟩), hu]

theorem dramServe_during (hs : Serves k s) (hn : ¬(Serves k s ∧ bankFree k s = true)) {p : Nat × Nat} (hu : underWay k r s = some p) :
    dramServe k s = dramDuring k r rest p.1 p.2 s := by
  unfold dramServe
  dsimp only
  rw [hr]
  dsimp only
  rw [if_neg (by rw [(bankServes_iff h).2 hs]; decide), if_pos (by rw [Bool.not_eq_true', Bool.eq_false_iff]; exact fun hf => hn ⟨hs, hf⟩), hu]

theorem dramServe_free (hs : Serves k s) (hf : bankFree k s = true) : dramServe k s =
    if (presentedBank k r rest s).row = some r.row then modBank k (fun _ => presentedBank k r rest s) s
    else activateRow k r.row (dieAt k.die s).cycle (modBank k (fun _ => presentedBank k r rest s) s) := by
  unfold dramServe
  dsimp only
  rw [hr]
  dsimp only
  rw [if_neg (by rw [(bankServes_iff h).2 hs]; decide), if_neg (by rw [hf]; decide)]
  rfl

end Served

/-! ## An access that was under way as a refresh began (R89, R92, R94) -/

/-- What it takes for an access to have been under way as the refresh that runs began. -/
structure BeforeRefresh (k : BankId) (r : BankReq) (s : State) (x n : Nat) : Prop where
  number : n = cmdsBefore k ((dieAt k.die s).cycle + 1) (modesOf (ctrlOf k s))
  any : 0 < n
  start : x = cmdStart k (modesOf (ctrlOf k s)) (n - 1)
  begun : x ≤ (dieAt k.die s).cycle
  runs : (dieAt k.die s).cycle < x + refreshHold k
  came : r.at_ < x
  last : (bankAt k s).lastAt < x
  free : n ≤ (bankAt k s).commands ∨ (settleBank k (ctrlOf k s) (x - 1) 0 (bankAt k s)).refreshUntil = none
  back : ∀ p, (bankAt k s).backoff = some p → p.2 < x

theorem underWay_some {r : BankReq} {x n : Nat} (h : underWay k r s = some (x, n)) : BeforeRefresh k r s x n := by
  unfold underWay at h
  dsimp only at h
  split at h
  next hc =>
    obtain ⟨hsome, hbegun, hruns, hcame, hlast, hfree, hback⟩ := hc
    cases h
    exact ⟨rfl, hsome, rfl, hbegun, hruns, hcame, hlast, hfree, fun p hp => by rw [hp] at hback; exact of_decide_eq_true hback⟩
  · cases h

/-- The bank that the access found: as the refresh began, or as that command noted it. -/
def foundBank (k : BankId) (r : BankReq) (x n : Nat) (s : State) : Bank :=
  if (bankAt k s).commands < n then settleBank k (ctrlOf k s) (x - 1) r.at_ (bankAt k s)
  else { bankAt k s with row := if (bankAt k s).lastAt + 4096 ≤ r.at_ then none else (bankAt k s).rowBefore }

section Before

variable {r : BankReq} {x n : Nat} (h : BeforeRefresh k r s x n)
include h

/-- A bank that differs from the one that the access found only in its row, its counters and its queue is held as the bank is, and by no back-off. -/
theorem settleBank_found {b : Bank} (hc : b.commands = (foundBank k r x n s).commands) (hu : b.refreshUntil = (foundBank k r x n s).refreshUntil)
    (hb : b.backoff = (foundBank k r x n s).backoff) :
    (settleBank k (ctrlOf k s) (dieAt k.die s).cycle 0 b).refreshUntil = (presentBank k s).refreshUntil ∧ (settleBank k (ctrlOf k s) (dieAt k.die s).cycle 0 b).backoff = none := by
  have hback (t : Nat) (ht : x ≤ t + 1) : (bankAt k s).backoff.filter (fun p => decide (t < p.2)) = none := by
    cases hp : (bankAt k s).backoff with
    | none => rfl
    | some p =>
      have := h.back p hp
      exact Option.filter_some_neg (by simp; omega)
  have hout (x : Nat) : putOff (bankAt k s) x = x ∨ ∃ p, (bankAt k s).backoff = some p ∧ x < p.2 := by
    unfold putOff
    split
    next lo hi hp =>
      by_cases hx : lo ≤ x ∧ x < hi
      · exact .inr ⟨_, hp, hx.2⟩
      · exact .inl (if_neg hx)
    · exact .inl rfl
  unfold foundBank at hc hu hb
  by_cases hn : (bankAt k s).commands < n
  · rw [if_pos hn] at hc hu hb
    obtain ⟨-, -, -, hcommands, hbackoff⟩ := settleBank_keeps k (ctrlOf k s) (x - 1) r.at_ (bankAt k s)
    have hpos : 0 < x := by have := h.came; omega
    have hfew : cmdsBefore k (x - 1 + 1) (modesOf (ctrlOf k s)) < n := by
      rw [Nat.sub_add_cancel hpos, h.number]
      conv => lhs; rw [h.start]
      exact cmdsBefore_start_lt (modesOf_ne_nil (h.number ▸ h.any)) (h.start ▸ h.begun)
    have hless : b.commands < n := by rw [hc, hcommands]; exact max_lt hn hfew
    have hnone : b.backoff = none := by rw [hb, hbackoff, hback _ (by omega)]
    constructor
    · have hx : putOff (bankAt k s) x = x := (hout x).resolve_right fun ⟨p, hp, hlt⟩ => Nat.lt_asymm hlt (h.back p hp)
      rw [presentBank, settleBank_refreshUntil, settleBank_refreshUntil, ← h.number, if_neg (Nat.not_le.2 hless), if_neg (Nat.not_le.2 hn), ← h.start, hx, putOff, hnone]
    · rw [(settleBank_keeps _ _ _ _ _).2.2.2.2, hnone]
      rfl
  · rw [if_neg hn] at hc hu hb
    have hge := Nat.le_of_not_lt hn
    constructor
    · rw [presentBank, settleBank_refreshUntil, settleBank_refreshUntil, ← h.number, hc, if_pos hge, if_pos hge, hu]
    · rw [(settleBank_keeps _ _ _ _ _).2.2.2.2, hb]
      exact hback _ (by have := h.begun; omega)

end Before

/-- The bank after the refresh that the access was under way for: its row closed, the rows of the command refreshed, the access complete. -/
def refreshedBank (k : BankId) (n : Nat) (s : State) (b : Bank) : Bank :=
  { clearActs (refreshed k (n - 1) n) (settleBank k (ctrlOf k s) (dieAt k.die s).cycle 0 b) with row := none, lastAt := (dieAt k.die s).cycle }

theorem refreshedBank_keeps (k : BankId) (n : Nat) (s : State) (b : Bank) :
    (refreshedBank k n s b).id = b.id ∧ (refreshedBank k n s b).row = none ∧ (refreshedBank k n s b).queue = b.queue ∧ (refreshedBank k n s b).lastAt = (dieAt k.die s).cycle ∧
    (refreshedBank k n s b).refreshUntil = (settleBank k (ctrlOf k s) (dieAt k.die s).cycle 0 b).refreshUntil ∧
    (refreshedBank k n s b).backoff = (settleBank k (ctrlOf k s) (dieAt k.die s).cycle 0 b).backoff := by
  obtain ⟨hid, hqueue, -⟩ := settleBank_keeps k (ctrlOf k s) (dieAt k.die s).cycle 0 b
  exact ⟨hid, rfl, hqueue, rfl, rfl, rfl⟩

theorem foundBank_id (k : BankId) (r : BankReq) (x n : Nat) (s : State) : (foundBank k r x n s).id = k := by
  unfold foundBank
  split
  · exact (settleBank_keeps _ _ _ _ _).1.trans (bankAt_id k s)
  · exact bankAt_id k s

section During

variable {r : BankReq} {rest : List BankReq} {x n : Nat}

/-- The bank with its oldest request gone, as the access finds it. -/
def servedBank (k : BankId) (r : BankReq) (rest : List BankReq) (x n : Nat) (s : State) : Bank := { foundBank k r x n s with queue := rest }

theorem bankAt_served : bankAt k (modBank k (fun _ => servedBank k r rest x n s) s) = servedBank k r rest x n s := bankAt_modBank (foundBank_id k r x n s)

theorem dramDuring_hit (h : (foundBank k r x n s).row = some r.row) :
    dramDuring k r rest x n s = modBank k (refreshedBank k n s) (modBank k (fun _ => servedBank k r rest x n s) s) := by
  unfold dramDuring
  dsimp only
  rw [if_pos (c := ((if (bankAt k s).commands < n then settleBank k (ctrlOf k s) (x - 1) r.at_ (bankAt k s)
    else { bankAt k s with row := if (bankAt k s).lastAt + 4096 ≤ r.at_ then none else (bankAt k s).rowBefore }).row = some r.row)) h]
  rfl

theorem dramDuring_miss (h : (foundBank k r x n s).row ≠ some r.row) :
    dramDuring k r rest x n s = let p := openRow k r.row (modBank k (fun _ => servedBank k r rest x n s) s)
      let s2 := modBank k (refreshedBank k n s) p.2
      if p.1 then manageRow k r.row (dieAt k.die s).cycle s2 else s2 := by
  unfold dramDuring
  dsimp only
  rw [if_neg (c := ((if (bankAt k s).commands < n then settleBank k (ctrlOf k s) (x - 1) r.at_ (bankAt k s)
    else { bankAt k s with row := if (bankAt k s).lastAt + 4096 ≤ r.at_ then none else (bankAt k s).rowBefore }).row = some r.row)) h]
  rfl

/-- What an operation leaves of a bank and of its controller; nothing but the DRAM of their die has changed. -/
structure LeavesDram (k : BankId) (b : Bank) (c : Ctrl) (s t : State) : Prop where
  only : OnlyDram k.die s t
  bank : bankAt k t = b
  ctrl : ctrlOf k t = c

theorem modBank_leaves (hd : k.die < 4) {f : Bank → Bank} (hf : (f (bankAt k s)).id = k) : LeavesDram k (f (bankAt k s)) (ctrlOf k s) s (modBank k f s) :=
  ⟨modBank_onlyDram hd f s, bankAt_modBank hf, ctrlOf_modBank k f s⟩

theorem openRow_leaves (hd : k.die < 4) (row : Nat) :
    LeavesDram k (opened row (bankAt k s)) (counting (actsOf (bankAt k s) row + 1) (ctrlOf k s)) s (openRow k row s).2 :=
  ⟨openRow_only k row s hd, openRow_bank k row s, openRow_ctrl k row s⟩

theorem manageRow_leaves (hd : k.die < 4) (row t : Nat) : LeavesDram k (managed k row t (bankAt k s)) (managing k row (ctrlOf k s)) s (manageRow k row t s) :=
  ⟨manageRow_only k row t s hd, manageRow_bank k row t s, manageRow_ctrl k row t s⟩

section
variable {t u : State} {b : Bank} {c : Ctrl} (h : LeavesDram k b c s t) (hd : k.die < 4)
include h hd

theorem LeavesDram.thenBank {f : Bank → Bank} (hf : (f b).id = k) : LeavesDram k (f b) c s (modBank k f t) := by
  obtain ⟨honly, hbank, hctrl⟩ := modBank_leaves (f := f) (s := t) hd (by rw [h.bank]; exact hf)
  exact ⟨onlyDram_trans h.only honly, hbank.trans (by rw [h.bank]), hctrl.trans h.ctrl⟩

theorem LeavesDram.thenOpen (row : Nat) : LeavesDram k (opened row b) (counting (actsOf b row + 1) c) s (openRow k row t).2 := by
  obtain ⟨honly, hbank, hctrl⟩ := openRow_leaves (s := t) hd row
  exact ⟨onlyDram_trans h.only honly, hbank.trans (by rw [h.bank]), hctrl.trans (by rw [h.bank, h.ctrl])⟩

theorem LeavesDram.thenManage (row n : Nat) : LeavesDram k (managed k row n b) (managing k row c) s (manageRow k row n t) := by
  obtain ⟨honly, hbank, hctrl⟩ := manageRow_leaves (s := t) hd row n
  exact ⟨onlyDram_trans h.only honly, hbank.trans (by rw [h.bank]), hctrl.trans (by rw [h.ctrl])⟩

end

theorem refreshedBank_id {b : Bank} (h : b.id = k) : (refreshedBank k n s b).id = k := (refreshedBank_keeps k n s b).1.trans h

section
variable (hd : k.die < 4)
include hd

theorem served_leaves : LeavesDram k (servedBank k r rest x n s) (ctrlOf k s) s (modBank k (fun _ => servedBank k r rest x n s) s) :=
  modBank_leaves (f := fun _ => servedBank k r rest x n s) hd (foundBank_id k r x n s)

theorem dramDuring_hit_leaves (h : (foundBank k r x n s).row = some r.row) :
    LeavesDram k (refreshedBank k n s (servedBank k r rest x n s)) (ctrlOf k s) s (dramDuring k r rest x n s) := by
  rw [dramDuring_hit h]
  exact (served_leaves hd).thenBank hd (refreshedBank_id (foundBank_id k r x n s))

theorem dramDuring_low_leaves (h : (foundBank k r x n s).row ≠ some r.row) (hm : actsOf (foundBank k r x n s) r.row + 1 < (ctrlOf k s).actthr) :
    LeavesDram k (refreshedBank k n s (opened r.row (servedBank k r rest x n s))) (counting (actsOf (foundBank k r x n s) r.row + 1) (ctrlOf k s)) s
      (dramDuring k r rest x n s) := by
  have hs := served_leaves (s := s) (r := r) (rest := rest) (x := x) (n := n) hd
  have hacts : actsOf (servedBank k r rest x n s) r.row = actsOf (foundBank k r x n s) r.row := rfl
  rw [dramDuring_miss h, openRow_eq, hs.bank, hs.ctrl, hacts]
  dsimp only
  rw [if_neg (by rw [decide_eq_true_iff]; exact Nat.not_le.2 hm)]
  exact (hs.thenOpen hd r.row).thenBank hd (refreshedBank_id (foundBank_id k r x n s))

theorem dramDuring_high_leaves (h : (foundBank k r x n s).row ≠ some r.row) (hm : (ctrlOf k s).actthr ≤ actsOf (foundBank k r x n s) r.row + 1) :
    LeavesDram k (managed k r.row (dieAt k.die s).cycle (refreshedBank k n s (opened r.row (servedBank k r rest x n s))))
      (managing k r.row (counting (actsOf (foundBank k r x n s) r.row + 1) (ctrlOf k s))) s (dramDuring k r rest x n s) := by
  have hs := served_leaves (s := s) (r := r) (rest := rest) (x := x) (n := n) hd
  have hacts : actsOf (servedBank k r rest x n s) r.row = actsOf (foundBank k r x n s) r.row := rfl
  rw [dramDuring_miss h, openRow_eq, hs.bank, hs.ctrl, hacts]
  dsimp only
  rw [if_pos (decide_eq_true hm)]
  exact ((hs.thenOpen hd r.row).thenBank hd (refreshedBank_id (foundBank_id k r x n s))).thenManage hd _ _

end

/-- An access that was under way has completed: its bank is closed, and held as the refresh holds it. -/
structure EndsAccess (k : BankId) (rest : List BankReq) (s u : State) : Prop where
  only : OnlyDram k.die s u
  row : (bankAt k u).row = none
  queue : (bankAt k u).queue = rest
  last : (bankAt k u).lastAt = (dieAt k.die s).cycle
  held : (bankAt k u).refreshUntil = (presentBank k s).refreshUntil

section
variable {u : State} {b : Bank} {c : Ctrl} (h : BeforeRefresh k r s x n) (hc : b.commands = (foundBank k r x n s).commands)
  (hu : b.refreshUntil = (foundBank k r x n s).refreshUntil) (hb : b.backoff = (foundBank k r x n s).backoff)
include h hc hu hb

/-- Without refresh management, no back-off holds the bank. -/
theorem refreshedBank_ends (hl : LeavesDram k (refreshedBank k n s b) c s u) : EndsAccess k b.queue s u ∧ (bankAt k u).backoff = none := by
  obtain ⟨-, hrow, hqueue, hlast, huntil, hback⟩ := refreshedBank_keeps k n s b
  obtain ⟨huntil', hback'⟩ := settleBank_found h hc hu hb
  rw [hl.bank, hback, hback']
  refine ⟨⟨hl.only, ?_, ?_, ?_, ?_⟩, rfl⟩ <;> rw [hl.bank]
  · exact hrow
  · exact hqueue
  · exact hlast
  · exact huntil.trans huntil'

/-- With refresh management, a back-off holds it from the end of the refresh. -/
theorem managedBank_ends {row : Nat} (hl : LeavesDram k (managed k row (dieAt k.die s).cycle (refreshedBank k n s b)) c s u) : EndsAccess k b.queue s u ∧
    let start := (presentBank k s).refreshUntil.getD (dieAt k.die s).cycle
    (bankAt k u).backoff = some (max (dieAt k.die s).cycle start, max (dieAt k.die s).cycle start + backoffHold k) := by
  obtain ⟨-, hrow, hqueue, hlast, huntil, -⟩ := refreshedBank_keeps k n s b
  obtain ⟨huntil', -⟩ := settleBank_found h hc hu hb
  rw [hl.bank]
  refine ⟨⟨hl.only, ?_, ?_, ?_, ?_⟩, ?_⟩
  · rw [hl.bank]; rfl
  · rw [hl.bank]; exact hqueue
  · rw [hl.bank]; exact hlast
  · rw [hl.bank]; exact huntil.trans huntil'
  · rw [← huntil', ← huntil]
    rfl

end

end During

/-! ## An access that nothing holds back, and a bank that an event brings to the present (R86, R92, R93) -/

section Free

variable {row t : Nat} {b : Bank} (hd : k.die < 4) (hb : b.id = k)
include hd hb

theorem activateRow_low_leaves (hm : actsOf b row + 1 < (ctrlOf k s).actthr) :
    LeavesDram k (opened row b) (counting (actsOf b row + 1) (ctrlOf k s)) s (activateRow k row t (modBank k (fun _ => b) s)) := by
  have hs := modBank_leaves (s := s) (f := fun _ => b) hd hb
  unfold activateRow
  rw [openRow_eq, hs.bank, hs.ctrl]
  dsimp only
  rw [if_neg (by rw [decide_eq_true_iff]; exact Nat.not_le.2 hm)]
  exact hs.thenOpen hd row

theorem activateRow_high_leaves (hm : (ctrlOf k s).actthr ≤ actsOf b row + 1) :
    LeavesDram k (managed k row t (opened row b)) (managing k row (counting (actsOf b row + 1) (ctrlOf k s))) s (activateRow k row t (modBank k (fun _ => b) s)) := by
  have hs := modBank_leaves (s := s) (f := fun _ => b) hd hb
  unfold activateRow
  rw [openRow_eq, hs.bank, hs.ctrl]
  dsimp only
  rw [if_pos (decide_eq_true hm)]
  exact (hs.thenOpen hd row).thenManage hd row t

end Free

theorem presentedBank_id (k : BankId) (r : BankReq) (rest : List BankReq) (s : State) : (presentedBank k r rest s).id = k :=
  (settleBank_keeps k (ctrlOf k s) (dieAt k.die s).cycle r.at_ (bankAt k s)).1.trans (bankAt_id k s)

theorem presentedBank_leaves {r : BankReq} {rest : List BankReq} (hd : k.die < 4) :
    LeavesDram k (presentedBank k r rest s) (ctrlOf k s) s (modBank k (fun _ => presentedBank k r rest s) s) :=
  modBank_leaves (f := fun _ => presentedBank k r rest s) hd (presentedBank_id k r rest s)

theorem settleAt_leaves (h : bankOk k = true) : LeavesDram k
    (settleBank k (ctrlOf k s) (dieAt k.die s).cycle (if (bankAt k s).queue = [] then (dieAt k.die s).cycle else 0) (bankAt k s)) (ctrlOf k s) s (settleAt k s) := by
  have hif : (if (bankAt k s).queue = [] then (dieAt k.die s).cycle else 0) = if (bankAt k s).queue.isEmpty then (dieAt k.die s).cycle else 0 := by
    simp only [List.isEmpty_iff]
  rw [settleAt, if_pos h, hif]
  exact modBank_leaves (f := fun b => settleBank k (ctrlOf k s) (dieAt k.die s).cycle (if b.queue.isEmpty then (dieAt k.die s).cycle else 0) b) (die_of_bankOk h)
    ((settleBank_keeps _ _ _ _ _).1.trans (bankAt_id k s))

end Serve

/-! ## The numbers of the two kinds of DRAM (R89, R93) -/

theorem isStack_iff {k : BankId} : isStack k = true ↔ k.ctrl < 2 := decide_eq_true_iff

theorem refreshRows_eq (k : BankId) : refreshRows k = if k.ctrl < 2 then 2 else 32 := by simp only [refreshRows, isStack_iff]
theorem pointerRows_eq (k : BankId) : pointerRows k = if k.ctrl < 2 then 16384 else 262144 := by simp only [pointerRows, isStack_iff]
theorem refreshHold_eq (k : BankId) : refreshHold k = if k.ctrl < 2 then 176 else 231 := by simp only [refreshHold, isStack_iff]
theorem backoffHold_eq (k : BankId) : backoffHold k = if k.ctrl < 2 then 440 else 520 := by simp only [backoffHold, isStack_iff]

end Sys2Proof.Machine

namespace Sys2Proof.Claims

set_option Elab.async false

open Sys2Proof.Machine Sys2Proof.Laws

/-- Settles O49: the times of refresh commands by arithmetic, a bank that is brought to a cycle by whether a command has begun since, and an access by what holds its bank. -/
theorem dramEvents : Obligations.DramEvents := by
  unfold Obligations.DramEvents
  refine ⟨fun k doubled n t hk => ⟨?_, lt_segCount.trans ?_⟩, fun k c t idle b => ?_, fun s k hk => ⟨fun i hi => ?_, fun hq => ?_, fun r rest hr hn hu => ?_,
    fun r rest x n hr hs hn hu => ?_, fun r rest hr hready => ⟨fun hrow => ?_, fun hrow => ?_⟩⟩⟩
  · rw [cmdStart, refreshFrom_zero, skew_eq, Nat.add_comm]
    rfl
  · rfl
  · dsimp only
    rw [← refreshRows_eq, ← pointerRows_eq, ← refreshHold_eq]
    obtain ⟨hid, hqueue, hlast, hcommands, -⟩ := settleBank_keeps k c t idle b
    refine ⟨hid, hqueue, hlast, hcommands, fun lo hi => settleBank_backoff_iff, fun hle => ?_, fun hlt => ⟨?_, ?_, fun j hj => settleBank_acts hlt hj, fun e => ?_⟩⟩
    · rw [settleBank_current hle]
      exact ⟨rfl, rfl, fun e => by rw [Option.filter_eq_some_iff, decide_eq_true_iff], rfl⟩
    · rw [settleBank_refreshes hlt]
    · rw [settleBank_refreshes hlt]
    · rw [settleBank_refreshes hlt]
      dsimp only
      rw [Option.filter_eq_some_iff, decide_eq_true_iff, Option.some_inj, and_comm, eq_comm]
      rfl
  · obtain ⟨honly, hbank, hctrl⟩ := settleAt_leaves (s := s) hk
    rcases hi with rfl | rfl | rfl | rfl <;> exact ⟨_, rfl, honly, hctrl, hbank⟩
  · exact congrArg Host.Outcome.next (dramServe_still hk hq)
  · exact congrArg Host.Outcome.next (dramServe_held hk hr (fun ⟨hs, hf⟩ => hn ⟨hs, bankFree_iff.1 hf⟩) hu)
  · have hd := die_of_bankOk hk
    have h := underWay_some hu
    have hserve := dramServe_during hk hr hs (fun ⟨hs, hf⟩ => hn ⟨hs, bankFree_iff.1 hf⟩) hu
    dsimp only
    rw [← refreshHold_eq, ← backoffHold_eq]
    refine ⟨h.begun, h.runs, h.came, h.last, h.start, dramDuring k r rest x n s, congrArg Host.Outcome.next hserve, ?_⟩
    by_cases hrow : (foundBank k r x n s).row = some r.row
    · have hl := dramDuring_hit_leaves (rest := rest) hd hrow
      obtain ⟨e, hback⟩ := refreshedBank_ends (b := servedBank k r rest x n s) h rfl rfl rfl hl
      exact ⟨e.only, e.row, e.queue, e.last, e.held, fun _ => ⟨hback, hl.ctrl⟩, fun hne => absurd hrow hne, fun hne => absurd hrow hne⟩
    · rcases Nat.lt_or_ge (actsOf (foundBank k r x n s) r.row + 1) (ctrlOf k s).actthr with hm | hm
      · have hl := dramDuring_low_leaves (rest := rest) hd hrow hm
        obtain ⟨e, hback⟩ := refreshedBank_ends (b := opened r.row (servedBank k r rest x n s)) h rfl rfl rfl hl
        exact ⟨e.only, e.row, e.queue, e.last, e.held, fun heq => absurd heq hrow, fun _ _ => ⟨hback, hl.ctrl⟩, fun _ hge => absurd hm (Nat.not_lt.2 hge)⟩
      · have hl := dramDuring_high_leaves (rest := rest) hd hrow hm
        obtain ⟨e, hback⟩ := managedBank_ends (b := opened r.row (servedBank k r rest x n s)) h rfl rfl rfl hl
        refine ⟨e.only, e.row, e.queue, e.last, e.held, fun heq => absurd heq hrow, fun _ hlt => absurd hlt (Nat.not_lt.2 hm), fun _ _ => ⟨hback, fun j h1 h2 => ?_, hl.ctrl⟩⟩
        rw [hl.bank, actsOf_managed, if_pos (victims_iff.2 ⟨h1, h2⟩)]
  · have hserve := (dramServe_free hk hr hready.1 (bankFree_iff.2 hready.2)).trans (if_pos hrow)
    obtain ⟨honly, hbank, hctrl⟩ := presentedBank_leaves (s := s) (r := r) (rest := rest) (die_of_bankOk hk)
    exact ⟨_, congrArg Host.Outcome.next hserve, honly, hbank, hctrl⟩
  · have hserve := (dramServe_free hk hr hready.1 (bankFree_iff.2 hready.2)).trans (if_neg hrow)
    refine ⟨_, congrArg Host.Outcome.next hserve, ?_⟩
    dsimp only
    rw [← backoffHold_eq]
    rcases Nat.lt_or_ge (actsOf (presentedBank k r rest s) r.row + 1) (ctrlOf k s).actthr with hm | hm
    · have hl := activateRow_low_leaves (t := (dieAt k.die s).cycle) (die_of_bankOk hk) (presentedBank_id k r rest s) hm
      refine ⟨hl.only, congrArg Ctrl.actmax hl.ctrl, fun _ => ⟨hl.bank.trans ?_, ?_, fun j hj => ?_, hl.ctrl⟩, fun hge => absurd hm (Nat.not_lt.2 hge)⟩
      · rw [congrArg Bank.acts hl.bank]
        rfl
      · rw [hl.bank]
        exact actsOf_opened _ _
      · rw [hl.bank]
        exact actsOf_opened_other hj _
    · have hl := activateRow_high_leaves (t := (dieAt k.die s).cycle) (die_of_bankOk hk) (presentedBank_id k r rest s) hm
      have huntil : (opened r.row (presentedBank k r rest s)).refreshUntil = none := hready.2.1
      refine ⟨hl.only, congrArg Ctrl.actmax hl.ctrl, fun hlt => absurd hlt (Nat.not_lt.2 hm), fun _ => ⟨hl.bank.trans ?_, fun j h1 h2 => ?_, fun j hj => ?_, hl.ctrl⟩⟩
      · rw [congrArg Bank.acts hl.bank]
        exact managed_free huntil
      · rw [hl.bank, actsOf_managed, if_pos (victims_iff.2 ⟨h1, h2⟩)]
      · rw [hl.bank, actsOf_managed, if_neg (mt victims_iff.1 (by omega))]
        exact actsOf_opened_other (by omega) _

end Sys2Proof.Claims
end

section
/-! The turn given to a strand (O32, O47, O57): what an operation at a strand by its number does, and when moving the turn changes nothing. -/

namespace Sys2Proof.Machine

set_option Elab.async false

open Sys2Proof.Claims Sys2Proof.Laws

/-- An operation leaves the turn with its strand. -/
def KeepsTurn (s t : State) : Prop := t.me.mesh = s.me.mesh ∧ t.me.sid = s.me.sid

theorem keepsTurn_of_me {s t : State} (h : t.me = s.me) : KeepsTurn s t := by rw [KeepsTurn, h]; exact ⟨rfl, rfl⟩

theorem KeepsTurn.trans {s t u : State} (h : KeepsTurn s t) (g : KeepsTurn t u) : KeepsTurn s u := ⟨g.1.trans h.1, g.2.trans h.2⟩

theorem focus_own {s : State} {mesh sid : Nat} (h : s.me.mesh = mesh ∧ s.me.sid = sid) : focus mesh sid s = s := if_pos h

theorem insertStrand_find (x : Strand) (l : List Strand) : ((insertStrand x l).find? fun t => t.sid == x.sid).isSome = true := by
  rw [List.find?_isSome]
  exact ⟨x, mem_insertStrand.2 (.inl rfl), beq_iff_eq.2 rfl⟩

theorem strandAt_own {s : State} (h : s.me.mesh = s.core.mesh) : (strandAt s.me.mesh s.me.sid s).isSome = true := by
  rw [strandAt, strandsOf, if_pos h.symm]
  exact insertStrand_find _ _

/-- What is done at the strand at hand is done as it stands. -/
theorem atStrand_own {s : State} {f : State → State} (h : s.me.mesh = s.core.mesh) (hf : KeepsTurn s (f s)) : atStrand s.me.mesh s.me.sid f s = f s := by
  rw [atStrand]
  dsimp only
  rw [if_pos (strandAt_own h), focus_own (s := s) ⟨rfl, rfl⟩, focus_own hf]

theorem takeStrand_of_find {sid : Nat} {l : List Strand} {x : Strand} (h : l.find? (fun t => t.sid == sid) = some x) : ∃ rest, takeStrand sid l = some (x, rest) := by
  induction l with
  | nil => cases h
  | cons y l ih =>
    by_cases hy : y.sid = sid
    · rw [List.find?_cons_of_pos (p := fun t : Strand => t.sid == sid) (beq_iff_eq.2 hy)] at h
      cases h
      exact ⟨l, by rw [takeStrand, if_pos hy]⟩
    · rw [List.find?_cons_of_neg (p := fun t : Strand => t.sid == sid) (mt beq_iff_eq.1 hy)] at h
      obtain ⟨rest, hrest⟩ := ih h
      exact ⟨y :: rest, by rw [takeStrand, if_neg hy, hrest]; rfl⟩

theorem takeCore_of_find {m : Nat} {l : List Core} {c : Core} (h : l.find? (fun c => c.mesh == m) = some c) : ∃ rest, takeCore m l = some (c, rest) := by
  induction l with
  | nil => cases h
  | cons y l ih =>
    by_cases hy : y.mesh = m
    · rw [List.find?_cons_of_pos (p := fun c : Core => c.mesh == m) (beq_iff_eq.2 hy)] at h
      cases h
      exact ⟨l, by rw [takeCore, if_pos hy]⟩
    · rw [List.find?_cons_of_neg (p := fun c : Core => c.mesh == m) (mt beq_iff_eq.1 hy)] at h
      obtain ⟨rest, hrest⟩ := ih h
      exact ⟨y :: rest, by rw [takeCore, if_neg hy, hrest]; rfl⟩

theorem insertStrand_find_other {x : Strand} {sid : Nat} (h : x.sid ≠ sid) (l : List Strand) :
    (insertStrand x l).find? (fun t => t.sid == sid) = l.find? fun t => t.sid == sid := by
  induction l with
  | nil => simp [insertStrand, h]
  | cons y l ih =>
    unfold insertStrand
    split
    · exact List.find?_cons_of_neg (mt beq_iff_eq.1 h)
    · rw [List.find?_cons, List.find?_cons, ih]

/-- The turn goes to the strand that is read by its numbers. -/
theorem focus_me {s : State} {mesh sid : Nat} (hs : s.wellKept) (h : (strandAt mesh sid s).isSome = true) : (focus mesh sid s).me.mesh = mesh ∧ (focus mesh sid s).me.sid = sid := by
  obtain ⟨x, hx⟩ := Option.isSome_iff_exists.1 h
  have hsid : x.sid = sid := beq_iff_eq.1 (List.find?_some (p := fun t : Strand => t.sid == sid) hx)
  by_cases hme : s.me.mesh = mesh ∧ s.me.sid = sid
  · rw [focus_own hme]
    exact hme
  unfold focus
  rw [if_neg hme]
  unfold strandAt strandsOf at hx
  by_cases hm : s.core.mesh = mesh
  · have hother : s.me.sid ≠ sid := fun he => hme ⟨hs.atHand.trans hm, he⟩
    rw [if_pos hm, insertStrand_find_other hother] at hx
    obtain ⟨rest, hrest⟩ := takeStrand_of_find hx
    rw [if_pos hm, hrest]
    exact ⟨(hs.here x (mem_of_takeStrand hrest).1).trans hm, hsid⟩
  · rw [if_neg hm] at hx
    cases hc : s.cores.find? fun c => c.mesh == mesh with
    | none =>
      rw [coreAt, if_neg hm, hc] at hx
      cases hx
    | some c =>
      rw [coreAt, if_neg hm, hc, Option.getD_some] at hx
      obtain ⟨rest, hrest⟩ := takeCore_of_find hc
      obtain ⟨others, hothers⟩ := takeStrand_of_find hx
      obtain ⟨hcmem, hcmesh, -⟩ := mem_of_takeCore hrest
      rw [if_neg hm, hrest]
      dsimp only
      rw [hothers]
      exact ⟨(hs.elsewhere c hcmem x (mem_of_takeStrand hothers).1).trans hcmesh, hsid⟩

/-- What an event does at a strand it does to that strand at hand, and the turn goes back. -/
theorem atStrand_focused {s : State} {mesh sid : Nat} {f : State → State} (hs : s.wellKept) (h : (strandAt mesh sid s).isSome = true)
    (hf : KeepsTurn (focus mesh sid s) (f (focus mesh sid s))) : let t := f (focus mesh sid s)
    atStrand mesh sid f (focus mesh sid s) = t ∧ t.me.mesh = mesh ∧ t.me.sid = sid ∧ atStrand mesh sid f s = focus s.me.mesh s.me.sid t := by
  obtain ⟨hmesh, hsid⟩ := focus_me hs h
  have hown := atStrand_own (focus_kept (mesh := mesh) (sid := sid) hs).atHand hf
  rw [hmesh, hsid] at hown
  exact ⟨hown, hf.1.trans hmesh, hf.2.trans hsid, if_pos h⟩

end Sys2Proof.Machine
end

section
/-! Stream slots (O47): the landing buffer, SQOPEN, SQADV, SQEND, SQCLOSE, pops and refills. -/

namespace Sys2Proof.Machine

set_option Elab.async false

open Sys2Proof.Claims Sys2Proof.Laws

/-! ## Free numbers taken in an order that is not specified (R78; log entry 81) -/

/-- As many numbers are taken as are asked for, and the taken ones with the rest are the free ones. -/
theorem takePlanes_perm {n : Nat} {free : List Nat} (h : n ≤ free.length) : (takePlanes n free).length = n ∧ ∃ rest, (takePlanes n free ++ rest).Perm free := by
  induction n generalizing free with
  | zero => exact ⟨rfl, free, .refl _⟩
  | succ n ih =>
    obtain ⟨p, rest, htake, hperm⟩ := takeAt_perm (l := free) (Nat.mod_lt (Config.pickPlane free) (by omega))
    have hlen := hperm.length_eq
    rw [List.length_cons] at hlen
    obtain ⟨hcount, others, hothers⟩ := ih (free := rest) (by omega)
    have htaken : takePlanes (n + 1) free = p :: takePlanes n rest := by rw [takePlanes, htake]
    rw [htaken]
    exact ⟨by rw [List.length_cons, hcount], others, (hothers.cons p).trans hperm⟩

/-- The numbers taken are different, and all free. -/
theorem takePlanes_taken {n : Nat} {free : List Nat} (h : n ≤ free.length) (hf : free.Nodup) :
    (takePlanes n free).length = n ∧ (takePlanes n free).Nodup ∧ ∀ k ∈ takePlanes n free, k ∈ free := by
  obtain ⟨hlen, rest, hperm⟩ := takePlanes_perm h
  exact ⟨hlen, (hperm.nodup_iff.2 hf).of_append_left, fun k hk => hperm.subset (List.mem_append_left rest hk)⟩

/-- What is left of the numbers below a bound once some are used. -/
theorem length_unused (bound : Nat) (used : List Nat) : bound ≤ ((List.range bound).filter fun k => !used.contains k).length + used.length := by
  have hused : ((List.range bound).filter fun k => used.contains k).length ≤ used.length :=
    (List.subperm_of_subset (List.nodup_range.filter _) fun k hk => List.contains_iff_mem.1 (List.mem_filter.1 hk).2).length_le
  have hsum := List.length_eq_length_filter_add (l := List.range bound) fun k => used.contains k
  rw [List.length_range] at hsum
  omega

/-- The slots that SQOPEN takes while the landing buffer has room. -/
theorem takeSlots_free {mesh n : Nat} {s : State} (h : slotsHeld mesh s + n ≤ landingSlots) :
    (takeSlots mesh n s).length = n ∧ (takeSlots mesh n s).Nodup ∧ ∀ k ∈ takeSlots mesh n s, k < 64 ∧ k ∉ heldSlots mesh s := by
  have hroom := length_unused landingSlots (heldSlots mesh s)
  rw [slotsHeld] at h
  obtain ⟨hlen, hnodup, hfree⟩ := takePlanes_taken (n := n) (free := (List.range landingSlots).filter fun k => !(heldSlots mesh s).contains k) (by omega)
    (List.nodup_range.filter _)
  refine ⟨hlen, hnodup, fun k hk => ?_⟩
  have hmem := hfree k hk
  simpa [landingSlots] using hmem

/-! ## Slots -/

theorem modSq_eq {q : SqN} {f : Stream → Stream} {s : State} : modSq q f s = withSlot q (f s.me.sq[q]) s := rfl

theorem partner_ne (q : SqN) : partner q ≠ q := by revert q; decide

theorem slot_withSlot_other {q r : SqN} {x : Stream} {s : State} (h : r ≠ q) : (withSlot q x s).me.sq[r] = s.me.sq[r] := by
  have hne : q.1 ≠ r.1 := fun he => h (Fin.ext he.symm)
  simp [withSlot, hne]

theorem advanced_slots (t : Strand) : (advanced t).sq = t.sq := by
  rw [advanced]
  split <;> rfl

/-- A change of both members of a fibre pair. -/
theorem modBoth_eq {q : SqN} {f : Stream → Stream} {s : State} :
    modBoth q f s = if s.me.sq[q].fib then withSlot (partner q) (f s.me.sq[partner q]) (withSlot q (f s.me.sq[q]) s) else withSlot q (f s.me.sq[q]) s := by
  rw [modBoth, modSq_eq, modSq_eq, slot_withSlot_other (partner_ne q)]
  rfl

theorem endSlot_open {x : Stream} (h : x.st = .open) : endSlot x = { x with st := .ended, bound := some (x.pos / 16384 + if oneBlock x then 1 else 2) } := by
  rw [endSlot, if_neg (by rw [h]; decide)]
  rfl

theorem endSlot_ended {x : Stream} (h : x.st = .ended) : endSlot x = x := if_pos h

theorem endSlot_bound (x : Stream) : endSlot x = { x with st := .ended, bound := (endSlot x).bound } := by
  by_cases h : x.st = .ended
  · rw [endSlot_ended h, ← h]
  · rw [endSlot, if_neg h]

/-- Advancing a slot drops the blocks that its position has left. -/
theorem advanceSq_landed {x : Stream} {n : Nat} (b : LandedBlock) : b ∈ (advanceSq n x).landed ↔ b ∈ x.landed ∧ (x.pos + n) / 16384 ≤ b.block := by
  rw [advanceSq, List.mem_filter, decide_eq_true_iff]
  rfl

/-! ## SQOPEN (R134, R314) -/

section
variable {s : State} {d : SqN} {a b : GReg} {f : Bool} (hh : inHandler s.me = false)

/-- The pattern that SQOPEN reads. -/
def patternAt (a : GReg) (s : State) : List Word := (List.range 4).map fun k => gPlus a k s

/-- The conditions without which SQOPEN is an illegal operation. -/
def OpenLegal (d : SqN) (a b : GReg) (f : Bool) (s : State) : Prop :=
  s.me.sq[d].st = .closed ∧ (f = true → d.1 % 2 = 0 ∧ s.me.sq[partner d].st = .closed) ∧ patternOk f (gR b s) (patternAt a s) = true ∧
    slotsOfStrand s.me s + (Claims.reservedBy f (gR b s)).1 + (Claims.reservedBy f (gR b s)).2 ≤ 64

theorem openSlots_eq (f : Bool) (desc : Word) : openSlots f (streamTag desc) = Claims.reservedBy f desc := by cases f <;> rfl

/-- The check of SQOPEN. -/
def openChecks (d : SqN) (a b : GReg) (f : Bool) (s : State) : Bool :=
  (sqR d s).st == .closed && (!f || (d.1 % 2 == 0 && (sqR (partner d) s).st == .closed)) && patternOk f (gR b s) (patternAt a s) &&
    decide (slotsOfStrand s.me s + (Claims.reservedBy f (gR b s)).1 + (Claims.reservedBy f (gR b s)).2 ≤ landingSlots)

omit hh in
theorem openChecks_iff : openChecks d a b f s = true ↔ OpenLegal d a b f s := by
  rw [openChecks, OpenLegal, sqR, sqR, landingSlots]
  cases f <;> simp [and_assoc]

/-- A slot as SQOPEN opens it. -/
def openedSlot (a b : GReg) (f : Bool) (s : State) : Stream := { closedSlot with st := .open, fib := f, desc := gR b s, pat := patternAt a s, priv := s.me.priv }

/-- The landing slots that SQOPEN takes. -/
def openTakes (b : GReg) (f : Bool) (s : State) : List Nat := takeSlots s.me.mesh ((Claims.reservedBy f (gR b s)).1 + (Claims.reservedBy f (gR b s)).2) s

/-- The slot that SQOPEN names, and the index slot of its pair. -/
def ownSlot (a b : GReg) (f : Bool) (s : State) : Stream :=
  { openedSlot a b f s with
    tag := streamTag (gR b s), size := if f then none else some (affineTotal (gR b s) (patternAt a s)), slots := (openTakes b f s).take (Claims.reservedBy f (gR b s)).1 }
def indexSlot (a b : GReg) (f : Bool) (s : State) : Stream :=
  { openedSlot a b f s with index := true, tag := 0x001F, slots := (openTakes b f s).drop (Claims.reservedBy f (gR b s)).1 }

/-- SQOPEN once its checks are met. -/
def openRun (d : SqN) (a b : GReg) (f : Bool) (s : State) : Res Unit :=
  if landingSlots < slotsHeld s.me.mesh s + (Claims.reservedBy f (gR b s)).1 + (Claims.reservedBy f (gR b s)).2 then .stop s
  else .ok () (advance (if f then withSlot (partner d) (indexSlot a b f s) (withSlot d (ownSlot a b f s) s) else withSlot d (ownSlot a b f s) s))

include hh

theorem sqopen_illegal (h : ¬OpenLegal d a b f s) : exec (.sqopen d a b f) s = .next (illop (.sqopen d a b f) 0 s) := by
  have hc := Bool.eq_false_iff.2 (mt openChecks_iff.1 h)
  unfold openChecks patternAt at hc
  dsimp only [exec, execSqopen]
  rw [vqueue_met hh, Res.bind, openSlots_eq, require_unmet hc]
  rfl

variable (hl : OpenLegal d a b f s)
include hl

theorem sqopen_checked : exec (.sqopen d a b f) s = (openRun d a b f s).out := by
  have hc := openChecks_iff.2 hl
  unfold openChecks patternAt at hc
  dsimp only [exec, execSqopen]
  rw [vqueue_met hh, Res.bind, openSlots_eq, require_met hc]
  rfl

theorem sqopen_waits (hfull : 64 < slotsHeld s.me.mesh s + (Claims.reservedBy f (gR b s)).1 + (Claims.reservedBy f (gR b s)).2) : exec (.sqopen d a b f) s = .next s := by
  rw [sqopen_checked hh hl, openRun, if_pos (show landingSlots < _ from hfull)]
  rfl

theorem sqopen_opens (hroom : slotsHeld s.me.mesh s + (Claims.reservedBy f (gR b s)).1 + (Claims.reservedBy f (gR b s)).2 ≤ 64) : exec (.sqopen d a b f) s =
    .next (advance (if f then withSlot (partner d) (indexSlot a b f s) (withSlot d (ownSlot a b f s) s) else withSlot d (ownSlot a b f s) s)) := by
  rw [sqopen_checked hh hl, openRun, if_neg (show ¬landingSlots < _ from Nat.not_lt.2 hroom)]
  rfl

end

theorem affineTotal_eq (desc : Word) (pat : List Word) : affineTotal desc pat = ((pat.drop 1).take (fld desc 16 2)).foldl (fun k w => k * fld w 0 32) 1 := by
  rw [affineTotal, List.foldl_map]
  rfl

/-! ## SQADV, SQEND, SQCLOSE (R315) -/

theorem onOpenSlot_closed {i : Instr} {q : SqN} {f : State → State} {s : State} (hh : inHandler s.me = false) (h : s.me.sq[q].st = .closed) :
    onOpenSlot i q f s = .next (illop i 0 s) := by
  rw [onOpenSlot, vqueue_met hh, Res.bind, require_unmet (by rw [sqR, h]; rfl)]
  rfl

theorem onOpenSlot_runs {i : Instr} {q : SqN} {f : State → State} {s : State} (hh : inHandler s.me = false) (h : s.me.sq[q].st ≠ .closed) :
    onOpenSlot i q f s = .next (advance (f s)) := by
  rw [onOpenSlot, vqueue_met hh, Res.bind, require_met (show ((sqR q s).st != .closed) = true from bne_iff_ne.2 h)]
  rfl

/-! ## The blocks that a pop needs (R135) -/

theorem lt_neededEnd {x : Stream} {vl k : Nat} : x.pos + k < neededEnd x vl ↔ k < vl ∧ Within x (x.pos + k) := by
  unfold neededEnd Within
  cases h : x.size with
  | none => simp
  | some n =>
    simp only [Option.some.injEq, forall_eq']
    omega

theorem neededEnd_le (x : Stream) (vl : Nat) : neededEnd x vl ≤ x.pos + vl := by
  unfold neededEnd
  split
  · exact Nat.le_refl _
  · exact Nat.min_le_right _ _

theorem blocksNeeded_none {x : Stream} {vl : Nat} (h : neededEnd x vl ≤ x.pos) : blocksNeeded x vl = [] := if_pos h

theorem blocksNeeded_one {x : Stream} {vl : Nat} (h : x.pos < neededEnd x vl) (hb : (neededEnd x vl - 1) / 16384 = x.pos / 16384) :
    blocksNeeded x vl = [x.pos / 16384] := (if_neg (Nat.not_le.2 h)).trans (if_pos hb)

theorem blocksNeeded_two {x : Stream} {vl : Nat} (h : x.pos < neededEnd x vl) (hb : (neededEnd x vl - 1) / 16384 ≠ x.pos / 16384) :
    blocksNeeded x vl = [x.pos / 16384, (neededEnd x vl - 1) / 16384] := (if_neg (Nat.not_le.2 h)).trans (if_neg hb)

/-- A pop of a register needs at most two blocks: those of its elements that lie within the stream. -/
theorem mem_blocksNeeded {x : Stream} {vl b : Nat} (hvl : vl ≤ vlmax) :
    b ∈ blocksNeeded x vl ↔ ∃ k, k < vl ∧ Within x (x.pos + k) ∧ b = (x.pos + k) / 16384 := by
  have hle := neededEnd_le x vl
  have hmax : vl ≤ 16384 := hvl
  have hiff : (∃ k, k < vl ∧ Within x (x.pos + k) ∧ b = (x.pos + k) / 16384) ↔ ∃ k, x.pos + k < neededEnd x vl ∧ b = (x.pos + k) / 16384 := by
    simp only [lt_neededEnd, and_assoc]
  rw [hiff]
  by_cases h : x.pos < neededEnd x vl
  · by_cases heq : (neededEnd x vl - 1) / 16384 = x.pos / 16384
    · rw [blocksNeeded_one h heq, List.mem_singleton]
      exact ⟨fun hb => ⟨0, by omega, hb⟩, fun ⟨k, hk, hb⟩ => by omega⟩
    · rw [blocksNeeded_two h heq, List.mem_cons, List.mem_singleton]
      constructor
      · rintro (hb | hb)
        · exact ⟨0, by omega, hb⟩
        · exact ⟨neededEnd x vl - 1 - x.pos, by omega, by rw [hb]; congr 1; omega⟩
      · rintro ⟨k, hk, hb⟩
        omega
  · rw [blocksNeeded_none (Nat.not_lt.1 h)]
    simp only [List.not_mem_nil, false_iff, not_exists]
    omega

/-- The blocks that a pop needs and that have not landed. -/
def missingBlocks (x : Stream) (vl : Nat) : List Nat := (blocksNeeded x vl).filter fun b => (landedAt x b).isNone

theorem mem_missingBlocks {x : Stream} {vl b : Nat} (hvl : vl ≤ vlmax) :
    b ∈ missingBlocks x vl ↔ ∃ k, k < vl ∧ Within x (x.pos + k) ∧ blockOf x (x.pos + k) = none ∧ b = (x.pos + k) / 16384 := by
  rw [missingBlocks, List.mem_filter, mem_blocksNeeded hvl]
  constructor
  · rintro ⟨⟨k, hk, hw, rfl⟩, hnone⟩
    exact ⟨k, hk, hw, Option.isNone_iff_eq_none.1 hnone, rfl⟩
  · rintro ⟨k, hk, hw, hnone, rfl⟩
    exact ⟨⟨k, hk, hw, rfl⟩, Option.isNone_iff_eq_none.2 hnone⟩

/-- A block that a pop needs has not landed. -/
def Lacks (x : Stream) (vl : Nat) : Prop := ∃ k, k < vl ∧ Within x (x.pos + k) ∧ blockOf x (x.pos + k) = none

/-- Every block that a pop needs has landed. -/
def AllLanded (x : Stream) (vl : Nat) : Prop := ∀ k, k < vl → Within x (x.pos + k) → ∃ b, blockOf x (x.pos + k) = some b

theorem missingBlocks_of_lacks {x : Stream} {vl : Nat} (hvl : vl ≤ vlmax) (h : Lacks x vl) : (missingBlocks x vl).isEmpty = false := by
  obtain ⟨k, hk, hw, hnone⟩ := h
  rw [← Bool.not_eq_true, List.isEmpty_iff]
  exact List.ne_nil_of_mem ((mem_missingBlocks hvl).2 ⟨k, hk, hw, hnone, rfl⟩)

theorem missingBlocks_of_landed {x : Stream} {vl : Nat} (hvl : vl ≤ vlmax) (h : AllLanded x vl) : (missingBlocks x vl).isEmpty = true := by
  rw [List.isEmpty_iff, List.eq_nil_iff_forall_not_mem]
  intro b hb
  obtain ⟨k, hk, hw, hnone, -⟩ := (mem_missingBlocks hvl).1 hb
  obtain ⟨c, hc⟩ := h k hk hw
  rw [hnone] at hc
  cases hc

/-- An ended fibre slot will fetch none of the blocks that a pop lacks, and it is not known where its rows end (R135, R314). -/
def RowsOpen (x : Stream) (vl : Nat) : Prop :=
  x.fib = true ∧ x.size = none ∧ ∀ k, k < vl → blockOf x (x.pos + k) = none → ∃ n, x.bound = some n ∧ n ≤ (x.pos + k) / 16384

theorem rowsOpen_iff {x : Stream} {vl : Nat} (hvl : vl ≤ vlmax) :
    (x.fib && x.size.isNone && (missingBlocks x vl).all fun b => x.bound.any fun n => decide (n ≤ b)) = true ↔ RowsOpen x vl := by
  rw [RowsOpen, Bool.and_eq_true, Bool.and_eq_true, and_assoc, Option.isNone_iff_eq_none, List.all_eq_true]
  refine and_congr_right fun _ => and_congr_right fun hsize => ?_
  have hwithin (e : Nat) : Within x e := fun n hn => by rw [hsize] at hn; cases hn
  constructor
  · intro h k hk hnone
    have hbound := h _ ((mem_missingBlocks hvl).2 ⟨k, hk, hwithin _, hnone, rfl⟩)
    simpa [Option.any_eq_true] using hbound
  · intro h b hb
    obtain ⟨k, hk, -, hnone, rfl⟩ := (mem_missingBlocks hvl).1 hb
    obtain ⟨n, hn, hle⟩ := h k hk hnone
    rw [hn]
    exact decide_eq_true hle

theorem awaited_iff {q : SqN} {s : State} (hvl : s.me.vl ≤ vlmax) : waitsAtBank (popWaits q s.me.sq[q] s) s = true ↔ Awaited q s := by
  simp only [waitsAtBank, List.any_eq_true, Awaited, popWaits, beq_iff_eq, mem_blocksNeeded hvl]
  constructor
  · rintro ⟨d, hd, b, hb, r, hr, w, hw, n, ⟨k, hk, hin, rfl⟩, rfl⟩
    exact ⟨d, hd, b, hb, r, hr, k, hk, hin, hw⟩
  · rintro ⟨d, hd, b, hb, r, hr, k, hk, hin, hw⟩
    exact ⟨d, hd, b, hb, r, hr, _, hw, _, ⟨k, hk, hin, rfl⟩, rfl⟩

/-! ## The faults that a pop reaches (R136) -/

/-- No fault of a landed block that a pop needs lies among the elements that it brings. -/
theorem popFault_none {x : Stream} {vl : Nat} (hvl : vl ≤ vlmax)
    (h : ∀ k b, k < vl → Within x (x.pos + k) → blockOf x (x.pos + k) = some b → ∀ p ∈ b.faults, p.1 < x.pos ∨ x.pos + vl ≤ p.1) : popFault x vl = none := by
  rw [popFault, List.findSome?_eq_none_iff]
  intro n hn
  obtain ⟨k, hk, hw, rfl⟩ := (mem_blocksNeeded hvl).1 hn
  cases hb : landedAt x ((x.pos + k) / 16384) with
  | none => rfl
  | some b =>
    have hnone : b.faults.find? (fun f => decide (x.pos ≤ f.1) && decide (f.1 < neededEnd x vl)) = none := by
      rw [List.find?_eq_none]
      intro p hp
      have hout := h k b hk hw hb p hp
      have hle := neededEnd_le x vl
      simp only [Bool.and_eq_true, decide_eq_true_iff]
      omega
    rw [Option.bind_some, hnone]
    rfl

/-- What a search finds, a narrower search finds when it may find it at all. -/
theorem find?_narrower {α : Type} {p q : α → Bool} {l : List α} {a : α} (h : l.find? p = some a) (ha : q a = true) (hqp : ∀ x, q x = true → p x = true) :
    l.find? q = some a := by
  rw [List.find?_eq_some_iff_append] at h ⊢
  obtain ⟨-, before, after, hl, hbefore⟩ := h
  refine ⟨ha, before, after, hl, fun x hx => ?_⟩
  have hp : p x = false := by simpa using hbefore x hx
  have hq : q x = false := Bool.eq_false_iff.2 fun hq => by rw [hqp x hq] at hp; cases hp
  rw [hq]
  rfl

/-- The lowest fault that a pop reaches is the first of its block, when the blocks before have none there. -/
theorem popFault_some {x : Stream} {vl k : Nat} {b : LandedBlock} {f : StreamFault} (hvl : vl ≤ vlmax) (hk : k < vl) (hw : Within x (x.pos + k))
    (hb : blockOf x (x.pos + k) = some b)
    (hf : b.faults.find? (fun p => decide (x.pos ≤ p.1) && decide (p.1 < x.pos + vl)) = some (x.pos + k, f))
    (hfirst : ∀ j, j < k → (x.pos + j) / 16384 = (x.pos + k) / 16384 ∨ ∀ c, blockOf x (x.pos + j) = some c → ∀ p ∈ c.faults, p.1 < x.pos) :
    popFault x vl = some ((x.pos + k) / 16384, x.pos + k, f) := by
  have hend := lt_neededEnd.2 ⟨hk, hw⟩
  have hle := neededEnd_le x vl
  have hmax : vl ≤ 16384 := hvl
  have hown : b.faults.find? (fun p => decide (x.pos ≤ p.1) && decide (p.1 < neededEnd x vl)) = some (x.pos + k, f) := by
    refine find?_narrower hf (by simp [hend]) fun p hp => ?_
    simp only [Bool.and_eq_true, decide_eq_true_iff] at hp ⊢
    omega
  have hat : landedAt x ((x.pos + k) / 16384) = some b := hb
  have hneeded := (mem_blocksNeeded (x := x) (b := (x.pos + k) / 16384) hvl).2 ⟨k, hk, hw, rfl⟩
  have hpos : x.pos < neededEnd x vl := by omega
  rw [popFault]
  by_cases hone : (neededEnd x vl - 1) / 16384 = x.pos / 16384
  · rw [blocksNeeded_one hpos hone] at hneeded ⊢
    rw [← List.mem_singleton.1 hneeded, List.findSome?_cons, hat, Option.bind_some, hown]
    rfl
  · rw [blocksNeeded_two hpos hone] at hneeded ⊢
    by_cases h0 : (x.pos + k) / 16384 = x.pos / 16384
    · rw [← h0, List.findSome?_cons, hat, Option.bind_some, hown]
      rfl
    · have h1 : (x.pos + k) / 16384 = (neededEnd x vl - 1) / 16384 := by simpa [h0] using hneeded
      have hnone : ((landedAt x (x.pos / 16384)).bind fun c =>
          (c.faults.find? fun f => decide (x.pos ≤ f.1) && decide (f.1 < neededEnd x vl)).map fun f => (x.pos / 16384, f.1, f.2)) = none := by
        cases hc : landedAt x (x.pos / 16384) with
        | none => rfl
        | some c =>
          have hbelow := (hfirst 0 (by rcases Nat.eq_zero_or_pos k with rfl | hpos; exacts [absurd rfl h0, hpos])).resolve_left (fun h => h0 h.symm) c hc
          have hfind : c.faults.find? (fun f => decide (x.pos ≤ f.1) && decide (f.1 < neededEnd x vl)) = none := by
            rw [List.find?_eq_none]
            intro p hp
            have := hbelow p hp
            simp only [Bool.and_eq_true, decide_eq_true_iff]
            omega
          rw [Option.bind_some, hfind]
          rfl
      rw [List.findSome?_cons, hnone, List.findSome?_cons, ← h1, hat, Option.bind_some, hown]
      rfl

/-! ## Pops (R135, R136, R306) -/

section
variable {s : State} {d : VRegN} {q : SqN} (hf : Fresh s)
include hf

theorem pop_illegal (h : s.me.sq[q].st = .closed ∨ budgetOk s.me d s.me.sq[q].tag = false) : exec (.vldPop d q) s = .next (illop (.vldPop d q) 0 s) := by
  dsimp only [exec, execVldPop]
  rw [whole_fresh hf, Res.bind]
  by_cases hc : s.me.sq[q].st = .closed
  · rw [require_unmet (show ((sqR q s).st != .closed) = false by rw [sqR, hc]; rfl)]
    rfl
  · rw [require_met (show ((sqR q s).st != .closed) = true from bne_iff_ne.2 hc), Res.bind, fits_illegal (show budgetOk s.me d (sqR q s).tag = false from h.resolve_left hc)]
    rfl

variable (ho : s.me.sq[q].st ≠ .closed) (hb : budgetOk s.me d s.me.sq[q].tag = true)
include ho hb

theorem pop_waits (hr : roomFor d s.me.sq[q].tag s = false) : exec (.vldPop d q) s = .next s := by
  dsimp only [exec, execVldPop, sqR]
  rw [whole_fresh hf, Res.bind, require_met (show (s.me.sq[q].st != .closed) = true from bne_iff_ne.2 ho), Res.bind, fits_waits hb hr]
  rfl

/-- The blocks of a pop have landed, or will not be fetched. -/
def Settled (x : Stream) (vl : Nat) : Prop := AllLanded x vl ∨ RowsOpen x vl

/-- A pop waits for a block that is still to be fetched. -/
def wantsBlock (x : Stream) (vl : Nat) : Bool :=
  !(missingBlocks x vl).isEmpty && !(x.fib && x.size.isNone && (missingBlocks x vl).all fun b => x.bound.any fun n => decide (n ≤ b))

/-- A pop whose register has room. -/
def popRun (d : VRegN) (q : SqN) (s : State) : Res Unit :=
  let x := s.me.sq[q]
  if wantsBlock x s.me.vl then .stop (withSlot q { x with want := true } s)
  else if waitsAtBank (popWaits q x s) s then .stop (joinWaits (popWaits q x s) s)
  else
    match popFault x s.me.vl with
    | some (b, e, f) => .stop (trapHere (refillTrap (.vldPop d q) (e - x.pos) f) (withSlot q { x with landed := x.landed.filter fun y => y.block != b } s))
    | none =>
      if !(missingBlocks x s.me.vl).isEmpty then .stop (findEnd (.vldPop d q) q x s)
      else .ok () (modSq q (advanceSq s.me.vl) (wholeV d x.tag (fun k => some (streamElem x (x.pos + k))) (fun _ => 0x7F) 0 s))

variable (hr : roomFor d s.me.sq[q].tag s = true)
include hr

theorem pop_checked : exec (.vldPop d q) s = (popRun d q s).out := by
  dsimp only [exec, execVldPop, sqR]
  rw [whole_fresh hf, Res.bind, require_met (show (s.me.sq[q].st != .closed) = true from bne_iff_ne.2 ho), Res.bind, fits_room hb hr]
  rfl

omit hf ho hb hr in
theorem wantsBlock_settled {x : Stream} {vl : Nat} (hvl : vl ≤ vlmax) (h : Settled x vl) : wantsBlock x vl = false := by
  rw [wantsBlock]
  rcases h with h | h
  · rw [missingBlocks_of_landed hvl h]
    rfl
  · rw [(rowsOpen_iff hvl).2 h]
    exact Bool.and_false _

/-- A pop that lacks a block which is still to be fetched waits for it. -/
theorem pop_wants (hl : Lacks s.me.sq[q] s.me.vl) (hn : ¬RowsOpen s.me.sq[q] s.me.vl) :
    exec (.vldPop d q) s = .next (withSlot q { s.me.sq[q] with want := true } s) := by
  have hvl := hf.2.2.2.2
  have hwants : wantsBlock s.me.sq[q] s.me.vl = true := by
    rw [wantsBlock, missingBlocks_of_lacks hvl hl, Bool.eq_false_iff.2 (mt (rowsOpen_iff hvl).1 hn)]
    rfl
  rw [pop_checked hf ho hb hr]
  dsimp only [popRun]
  rw [if_pos hwants]
  rfl

variable (hs : Settled s.me.sq[q] s.me.vl)
include hs

theorem pop_joins (hw : Awaited q s) : exec (.vldPop d q) s = .next (joinWaits (popWaits q s.me.sq[q] s) s) := by
  have hvl := hf.2.2.2.2
  rw [pop_checked hf ho hb hr]
  dsimp only [popRun]
  rw [wantsBlock_settled hvl hs, if_neg Bool.false_ne_true, if_pos ((awaited_iff hvl).2 hw)]
  rfl

variable (hw : ¬Awaited q s)
include hw

theorem pop_faults {n e : Nat} {f : StreamFault} (hp : popFault s.me.sq[q] s.me.vl = some (n, e, f)) :
    exec (.vldPop d q) s =
      .next (trapHere (refillTrap (.vldPop d q) (e - s.me.sq[q].pos) f) (withSlot q { s.me.sq[q] with landed := s.me.sq[q].landed.filter fun y => y.block != n } s)) := by
  have hvl := hf.2.2.2.2
  rw [pop_checked hf ho hb hr]
  dsimp only [popRun]
  rw [wantsBlock_settled hvl hs, if_neg Bool.false_ne_true, if_neg (mt (awaited_iff hvl).1 hw), hp]
  rfl

variable (hp : popFault s.me.sq[q] s.me.vl = none)
include hp

/-- A pop whose slot will fetch no more asks the row pointers. -/
theorem pop_asks (hl : Lacks s.me.sq[q] s.me.vl) : exec (.vldPop d q) s = .next (findEnd (.vldPop d q) q s.me.sq[q] s) := by
  have hvl := hf.2.2.2.2
  rw [pop_checked hf ho hb hr]
  dsimp only [popRun]
  rw [wantsBlock_settled hvl hs, if_neg Bool.false_ne_true, if_neg (mt (awaited_iff hvl).1 hw), hp]
  dsimp only
  rw [missingBlocks_of_lacks hvl hl]
  rfl

/-- A pop of blocks that have landed goes through. -/
theorem pop_goes (ha : AllLanded s.me.sq[q] s.me.vl) : exec (.vldPop d q) s =
    .next (modSq q (advanceSq s.me.vl) (wholeV d s.me.sq[q].tag (fun k => some (streamElem s.me.sq[q] (s.me.sq[q].pos + k))) (fun _ => 0x7F) 0 s)) := by
  have hvl := hf.2.2.2.2
  rw [pop_checked hf ho hb hr]
  dsimp only [popRun]
  rw [wantsBlock_settled hvl hs, if_neg Bool.false_ne_true, if_neg (mt (awaited_iff hvl).1 hw), hp]
  dsimp only
  rw [missingBlocks_of_landed hvl ha]
  rfl

omit ho hb hr hs hw hp

/-- What a pop brings: the codes of the next elements of its stream, 0 where it has none. -/
def popLanes (d : VRegN) (x : Stream) : Lanes :=
  ⟨d, x.tag, [], true, fun _ => true, fun k => (((blockOf x (x.pos + k)).map fun b => b.codes.getD ((x.pos + k) % 16384) 0).getD 0, 0), fun _ => 0x7F⟩

theorem pop_brings : (popLanes d s.me.sq[q]).Done s (wholeV d s.me.sq[q].tag (fun k => some (streamElem s.me.sq[q] (s.me.sq[q].pos + k))) (fun _ => 0x7F) 0 s) := by
  have h6 := hf.2.1
  obtain ⟨r, hwrite, hleaves⟩ := writeV_leaves (popLanes d s.me.sq[q]) s ((List.range s.me.vl).map fun k => some (streamElem s.me.sq[q] (s.me.sq[q].pos + k)))
    (begun_of_fresh hf) (by rw [h6, List.length_map, List.length_range, Nat.sub_zero])
    (fun k _ hk => by
      rw [h6, Nat.sub_zero, List.getD_eq_getElem?_getD, List.getElem?_map, List.getElem?_range hk]
      rfl)
  have hflags : (popLanes d s.me.sq[q]).flags s = 0 := (flags_of_none fun _ => rfl).symm
  refine ⟨r, ?_, hleaves⟩
  rw [← hwrite, hflags, rangeWrite, h6, Nat.zero_max]
  rfl

end

/-- What Lanes do leaves the stream slots. -/
theorem done_slots {l : Lanes} {s t : State} (h : l.Done s t) : t.me.sq = s.me.sq := by
  obtain ⟨r, rfl, -⟩ := h
  exact advanced_slots _

/-! ## Refills (R135) -/

theorem dueBlocks_iff {x : Stream} {n : Nat} : (dueBlocks x).contains n = true ↔ Due x n := by
  rw [List.contains_iff_mem, Due]
  have hblocks : (n ∈ if oneBlock x then (if x.want then [x.pos / blockSize, x.pos / blockSize + 1] else [x.pos / blockSize]) else [x.pos / blockSize, x.pos / blockSize + 1]) ↔
      (n = x.pos / 16384 ∨ n = x.pos / 16384 + 1 ∧ (oneBlock x = false ∨ x.want = true)) := by
    rw [blockSize]
    cases oneBlock x <;> cases x.want <;> simp
  rw [dueBlocks]
  cases hb : x.bound with
  | none =>
    refine hblocks.trans ⟨fun h => ⟨h, fun b hb => by cases hb⟩, And.left⟩
  | some bound =>
    rw [List.mem_filter, decide_eq_true_iff]
    refine and_congr hblocks ⟨fun h b hb => ?_, fun h => h bound rfl⟩
    cases hb
    exact h

theorem fetchBlock_block (rq : Req) (x : Stream) (n : Nat) (s : State) : (fetchBlock rq x n s).1.block = n := by
  rw [fetchBlock]
  dsimp only
  split <;> rfl

/-- What a refill of a slot of the strand at hand does. -/
def refill (mesh sid : Nat) (q : SqN) (n : Nat) (s : State) : State :=
  let r := fetchBlock { reqOf s.me with priv := s.me.sq[q].priv } s.me.sq[q] n s
  markLanding mesh (blockSlots s.me.sq[q] n) (modSq q (fun x => { x with landed := x.landed ++ [r.1], size := r.2.1 }) (noteWaits (.stream mesh sid q.1 n) s r.2.2))

/-- A block is due, has not landed, and the core has power. -/
def Refillable (q : SqN) (n : Nat) (s : State) : Prop :=
  s.core.pwr < 2 ∧ s.me.sq[q].st ≠ .closed ∧ Due s.me.sq[q] n ∧ ∀ b ∈ s.me.sq[q].landed, b.block ≠ n

theorem refillable_iff {q : SqN} {n : Nat} {s : State} :
    (s.me.mesh = s.me.mesh ∧ s.me.sid = s.me.sid ∧ s.core.pwr < 2 ∧ (sqR q s).st ≠ .closed ∧ (dueBlocks (sqR q s)).contains n ∧ !(sqR q s).landed.any (fun b => b.block == n)) ↔
      Refillable q n s := by
  rw [Refillable, dueBlocks_iff, sqR]
  simp

/-- The step of STREAM_REFILL at a strand. -/
def refillStep (mesh sid : Nat) (q : SqN) (n : Nat) (s : State) : State :=
  if s.me.mesh = mesh ∧ s.me.sid = sid ∧ s.core.pwr < 2 ∧ (sqR q s).st ≠ .closed ∧ (dueBlocks (sqR q s)).contains n ∧ !(sqR q s).landed.any (fun b => b.block == n)
  then refill mesh sid q n s else s

theorem execStreamRefill_eq (mesh sid : Nat) (q : SqN) (n : Nat) (s : State) : execStreamRefill mesh sid q n s = .next (atStrand mesh sid (refillStep mesh sid q n) s) := rfl

section
variable {s : State} {q : SqN} {n : Nat} (hown : s.me.mesh = s.core.mesh)
include hown

theorem refill_still (h : ¬Refillable q n s) : exec (.streamRefill s.me.mesh s.me.sid q n) s = .next s := by
  have hstep : refillStep s.me.mesh s.me.sid q n s = s := if_neg (mt refillable_iff.1 h)
  rw [exec, execStreamRefill_eq, atStrand_own hown, hstep]
  rw [hstep]
  exact keepsTurn_of_me rfl

theorem refill_lands (h : Refillable q n s) {b : LandedBlock} {size : Option Nat} {t : State}
    (hfetch : fetchBlock { reqOf s.me with priv := s.me.sq[q].priv } s.me.sq[q] n s = (b, size, t)) (hme : t.me = s.me) :
    b.block = n ∧ exec (.streamRefill s.me.mesh s.me.sid q n) s = .next (markLanding s.me.mesh (blockSlots s.me.sq[q] n)
      (withSlot q { s.me.sq[q] with landed := s.me.sq[q].landed ++ [b], size := size } (noteWaits (.stream s.me.mesh s.me.sid q.1 n) s t))) := by
  have hblock := fetchBlock_block { reqOf s.me with priv := s.me.sq[q].priv } s.me.sq[q] n s
  rw [hfetch] at hblock
  have hslot : (noteWaits (.stream s.me.mesh s.me.sid q.1 n) s t).me = s.me := hme
  have hstep : refillStep s.me.mesh s.me.sid q n s = markLanding s.me.mesh (blockSlots s.me.sq[q] n)
      (withSlot q { s.me.sq[q] with landed := s.me.sq[q].landed ++ [b], size := size } (noteWaits (.stream s.me.mesh s.me.sid q.1 n) s t)) := by
    rw [refillStep, if_pos (refillable_iff.2 h), refill, hfetch]
    dsimp only
    rw [modSq_eq, hslot]
  refine ⟨hblock, ?_⟩
  rw [exec, execStreamRefill_eq, atStrand_own hown, hstep]
  rw [hstep, markLanding, KeepsTurn, modCore_me]
  have hmesh := congrArg Strand.mesh hslot
  have hsid := congrArg Strand.sid hslot
  exact ⟨hmesh, hsid⟩

end

end Sys2Proof.Machine
end

section
/-! Stream slots (O47): the settling theorem. -/

namespace Sys2Proof.Machine

set_option Elab.async false

open Sys2Proof.Claims Sys2Proof.Laws

/-- SQOPEN, as O47 states it. -/
theorem sqopen_streams {s : State} {d : SqN} {a b : GReg} {f : Bool} (hh : inHandler s.me = false) (hl : OpenLegal d a b f s)
    (hroom : slotsHeld s.me.mesh s + (Claims.reservedBy f (gR b s)).1 + (Claims.reservedBy f (gR b s)).2 ≤ 64) :
    (openTakes b f s).length = (Claims.reservedBy f (gR b s)).1 + (Claims.reservedBy f (gR b s)).2 ∧ (openTakes b f s).Nodup ∧
      (∀ k ∈ openTakes b f s, k < 64 ∧ k ∉ heldSlots s.me.mesh s) ∧
      exec (.sqopen d a b f) s =
        .next (advance (if f then withSlot (partner d) (indexSlot a b f s) (withSlot d (ownSlot a b f s) s) else withSlot d (ownSlot a b f s) s)) := by
  obtain ⟨hlen, hnodup, hfree⟩ := takeSlots_free (show slotsHeld s.me.mesh s + ((Claims.reservedBy f (gR b s)).1 + (Claims.reservedBy f (gR b s)).2) ≤ landingSlots by
    rw [← Nat.add_assoc]; exact hroom)
  exact ⟨hlen, hnodup, hfree, sqopen_opens hh hl hroom⟩

/-- SQEND and SQCLOSE of a slot that is not closed. -/
theorem sqclose_runs {s : State} {q : SqN} (hh : inHandler s.me = false) (h : s.me.sq[q].st ≠ .closed) :
    exec (.sqclose q) s = .next (advance (if s.me.sq[q].fib then withSlot (partner q) closedSlot (withSlot q closedSlot s) else withSlot q closedSlot s)) := by
  rw [exec, execSqclose, onOpenSlot_runs hh h, modBoth_eq]
  rfl

theorem sqend_runs {s : State} {q : SqN} (hh : inHandler s.me = false) (h : s.me.sq[q].st ≠ .closed) :
    exec (.sqend q) s = .next (advance (if s.me.sq[q].fib then withSlot (partner q) (endSlot s.me.sq[partner q]) (withSlot q (endSlot s.me.sq[q]) s)
      else withSlot q (endSlot s.me.sq[q]) s)) := by
  rw [exec, execSqend, onOpenSlot_runs hh h, modBoth_eq]

/-- What the row pointers tell a pop whose slot fetches no more (R135, R314). -/
theorem findEnd_tells {s s1 : State} {q : SqN} {i : Instr} {x : Stream} {r : Rows} (hx : s.me.sq[q] = x)
    (h : fibreRows { reqOf s.me with priv := x.priv } x.pat (x.pos + s.me.vl) s = (r, s1)) :
    (∀ f, r.fault = some f → findEnd i q x s = trapHere (refillTrap i (r.count - x.pos) f) (countReads s.me.ctx r.reads s1)) ∧
    (r.fault = none → r.ended = true → (countReads s.me.ctx r.reads s1).me = s.me →
      findEnd i q x s = withSlot q { x with size := some r.count } (countReads s.me.ctx r.reads s1)) ∧
    (r.fault = none → r.ended = false → findEnd i q x s = countReads s.me.ctx r.reads s1) := by
  refine ⟨fun f hf => ?_, fun hf he hme => ?_, fun hf he => ?_⟩
  all_goals
    unfold findEnd
    rw [h]
    dsimp only
    rw [hf]
  · dsimp only
    rw [he, if_pos rfl, modSq_eq, hme, hx]
  · dsimp only
    rw [he, if_neg Bool.false_ne_true]

end Sys2Proof.Machine

namespace Sys2Proof.Claims

set_option Elab.async false

open Sys2Proof.Machine Sys2Proof.Laws

/-- Settles O47: each operation on a slot from its equation, a pop from the blocks that it needs, and a refill at the strand at hand. -/
theorem streams : Obligations.Streams := by
  unfold Obligations.Streams
  intro s hh hkept
  refine ⟨?opens, ?closed, ?changes, ?pops, ?refills⟩
  case opens =>
    intro d a b f
    refine ⟨sqopen_illegal hh, sqopen_waits hh, fun hl hroom => ⟨openTakes b f s, ?_⟩⟩
    obtain ⟨hlen, hnodup, hfree, hexec⟩ := sqopen_streams hh hl hroom
    refine ⟨hlen, hnodup, hfree, hexec.trans ?_⟩
    rw [ownSlot, affineTotal_eq]
    rfl
  case closed =>
    intro q hq
    exact ⟨fun a => onOpenSlot_closed hh hq, onOpenSlot_closed hh hq, onOpenSlot_closed hh hq⟩
  case changes =>
    intro q hq
    refine ⟨fun a => ⟨advanceSq (gR a s).toNat s.me.sq[q], onOpenSlot_runs hh hq, rfl, rfl, advanceSq_landed⟩, fun z hz => ⟨sqclose_runs hh hq, ?_⟩⟩
    subst hz
    exact ⟨endSlot s.me.sq[q], endSlot s.me.sq[partner q], sqend_runs hh hq, endSlot_bound _, endSlot_bound _,
      fun he => by rw [endSlot_ended he], fun ho => by rw [endSlot_open ho]; rfl⟩
  case pops =>
    intro d q hf
    have hvl := hf.2.2.2.2
    refine ⟨pop_illegal hf, fun ho hb => ⟨pop_waits hf ho hb, ?lacks, ?joins, ?goes⟩⟩
    case lacks =>
      refine fun hr hl => ⟨pop_wants hf ho hb hr hl, fun hrows hw hclean r s1 hread => ?_⟩
      have hp : popFault s.me.sq[q] s.me.vl = none := popFault_none hvl fun k b hk _ => hclean k b hk
      rw [pop_asks hf ho hb hr (.inr hrows) hw hp hl]
      obtain ⟨hfault, hended, hmore⟩ := findEnd_tells (i := .vldPop d q) rfl hread
      exact ⟨fun f h => congrArg _ (hfault f h), fun h1 h2 h3 => congrArg _ (hended h1 h2 h3), fun h1 h2 => congrArg _ (hmore h1 h2)⟩
    case joins => exact fun hr ha hw => ⟨_, pop_joins hf ho hb hr (.inl ha) hw, rfl⟩
    case goes =>
      refine fun hr ha hw => ⟨fun k b f hk hb' hin hfind hfirst => ?_, fun hclean => ?_⟩
      · rw [pop_faults hf ho hb hr (.inl ha) hw (popFault_some hvl hk hin hb' hfind hfirst), Nat.add_sub_cancel_left]
      · have hdone := pop_brings (d := d) (q := q) hf
        exact ⟨_, advanceSq s.me.vl s.me.sq[q],
          by rw [pop_goes hf ho hb hr (.inl ha) hw (popFault_none hvl hclean) ha, modSq_eq, done_slots hdone], rfl, advanceSq_landed, hdone⟩
  case refills =>
    intro q n
    have hown := hkept.atHand
    refine ⟨fun ho hdue hpwr hnew b size t hfetch hme => refill_lands hown ⟨hpwr, ho, hdue, hnew⟩ hfetch hme, fun h => refill_still hown ?_⟩
    rintro ⟨hpwr, ho, hdue, hnew⟩
    rcases h with h | h | h | ⟨b, hb, h⟩
    · exact ho h
    · exact h hdue
    · exact Nat.not_lt.2 h hpwr
    · exact hnew b hb h

end Sys2Proof.Claims
end

section
/-! Operations that leave the turn with its strand (O32): writes at their homes, translation, control space, the store queue, refills. -/

namespace Sys2Proof.Machine

set_option Elab.async false

open Sys2Proof.Claims Sys2Proof.Laws

/-! ## Steps that keep the turn of a state `a` -/

namespace KeepsTurn

variable {a s t : State}

theorem refl : KeepsTurn a a := ⟨rfl, rfl⟩

/-- A step that leaves the strand at hand as it is. -/
theorem of_me (h : KeepsTurn a s) (e : t.me = s.me) : KeepsTurn a t := h.trans (keepsTurn_of_me e)

theorem of_eq {α : Type} {p : α × State} {x : α} (h : KeepsTurn a p.2) (e : p = (x, t)) : KeepsTurn a t := by
  subst e
  exact h

theorem ite {c : Prop} {i : Decidable c} (hs : KeepsTurn a s) (ht : KeepsTurn a t) : KeepsTurn a (if c then s else t) := by
  split
  · exact hs
  · exact ht

theorem foldl {α : Type} {f : State → α → State} (hf : ∀ s x, KeepsTurn a s → KeepsTurn a (f s x)) {xs : List α} (h : KeepsTurn a s) : KeepsTurn a (xs.foldl f s) :=
  List.foldlRecOn xs f h fun s hs x _ => hf s x hs

theorem onMe {f : Strand → Strand} (hm : ∀ t : Strand, (f t).mesh = t.mesh) (hn : ∀ t : Strand, (f t).sid = t.sid) (h : KeepsTurn a s) : KeepsTurn a (onMe f s) :=
  ⟨(hm s.me).trans h.1, (hn s.me).trans h.2⟩

theorem modCore {m : Nat} {f : Core → Core} (h : KeepsTurn a s) : KeepsTurn a (modCore m f s) := h.of_me (modCore_me m f s)

theorem homeBytes {wb : Bool} {bs : List ByteWrite} (h : KeepsTurn a s) : KeepsTurn a (homeBytes wb bs s) := h.of_me (homeBytes_me wb bs s)

theorem homeWrite {ctx : Nat} {wb : Bool} {bs : List ByteWrite} (h : KeepsTurn a s) : KeepsTurn a (homeWrite ctx wb bs s) := h.of_me (homeWrite_me ctx wb bs s)

theorem homeWrites {ws : List Write} (h : KeepsTurn a s) : KeepsTurn a (homeWrites ws s) :=
  foldl (fun _ _ => homeBytes) (h.of_me (countWrites_only _ _ _).me_eq)

theorem l2Reads {ctx : Nat} {wb : Bool} {pas : List Nat} (h : KeepsTurn a s) : KeepsTurn a (l2Reads ctx wb pas s) := h.of_me (l2Reads_only _ _ _ _).me_eq

/-! ## Translation -/

theorem walkFrom {rq : Req} {gs : List Grant} {va fuel level base : Nat} (h : KeepsTurn a s) : KeepsTurn a (walkFrom rq gs va fuel level base s).2 := by
  induction fuel generalizing level base s with
  | zero => exact h
  | succ fuel ih =>
    have hr {pa} : KeepsTurn a (read8 rq.ctx true pa s).2 := l2Reads h
    unfold Machine.walkFrom
    dsimp only
    split
    · exact ih (modCore h)
    · split
      · exact h
      · split
        · exact hr
        · split
          · exact hr
          · split
            · exact hr
            · split
              · exact hr
              · exact ih (modCore hr)

theorem walk {rq : Req} {va : Nat} (h : KeepsTurn a s) : KeepsTurn a (walk rq va s).2 := by
  dsimp only [Machine.walk]
  split
  · exact h
  · exact walkFrom h

theorem amo8 {ctx : Nat} {wb : Bool} {pa : Nat} (h : KeepsTurn a s) : KeepsTurn a (amo8 ctx wb pa s).2 := h.of_me (l2Amo_only _ _ _ _).me_eq

theorem setEntry {rq : Req} {pa : Nat} {e : Word} (h : KeepsTurn a s) : KeepsTurn a (setEntry rq pa e s) := homeBytes (amo8 h)

theorem useLeaf {rq : Req} {acc : Access} {level entry : Nat} {leaf : Word} {gs : List Grant} {desc : Word} {va : Nat} (h : KeepsTurn a s) :
    KeepsTurn a (useLeaf rq acc level entry leaf gs desc va s).2 := by
  unfold Machine.useLeaf
  extract_lets want done
  split
  · exact modCore h
  · split
    · exact h
    · exact modCore (setEntry h)

theorem translateWalk {rq : Req} {acc : Access} {size : Nat} {va : Word} (h : KeepsTurn a s) : KeepsTurn a (translateWalk rq acc size va s).2 := by
  dsimp only [Machine.translateWalk]
  split
  · exact walk h
  · split
    · exact walk h
    · exact useLeaf (walk h)

theorem translateHeld {rq : Req} {acc : Access} {size : Nat} {va : Word} {e : TlbEntry} (h : KeepsTurn a s) : KeepsTurn a (translateHeld rq acc size va e s).2 := by
  dsimp only [Machine.translateHeld]
  split
  · exact h
  · split
    · split
      · exact h
      · split
        · exact amo8 h
        · split
          · exact useLeaf h
          · exact translateWalk (modCore (amo8 h))
    · exact modCore h

theorem serveMiss {mesh : Nat} {m : Miss} (h : KeepsTurn a s) : KeepsTurn a (serveMiss mesh m s) := by
  dsimp only [Machine.serveMiss]
  split
  · exact h
  · split
    · exact walk h
    · split
      · exact walk h
      · exact useLeaf (walk h)

theorem translateTables {rq : Req} {acc : Access} {size : Nat} {va : Word} (h : KeepsTurn a s) : KeepsTurn a (translateTables rq acc size va s).2 := by
  have hserved : KeepsTurn a (serveBefore rq va.toNat s) := foldl (fun _ _ => serveMiss) (modCore h)
  dsimp only [Machine.translateTables]
  split
  · exact translateHeld h
  · split
    · exact translateHeld hserved
    · exact translateWalk hserved

theorem translate {rq : Req} {acc : Access} {size : Nat} {va : Word} (h : KeepsTurn a s) : KeepsTurn a (translate rq acc size va s).2 := by
  unfold Machine.translate
  split
  · exact h
  · split
    · exact h
    · split
      · split
        · exact h
        · split <;> exact h
      · exact translateTables h

theorem translateBytes {rq : Req} {acc : Access} {va : Word} {n : Nat} (h : KeepsTurn a s) : KeepsTurn a (translateBytes rq acc va n s).2 := by
  induction n generalizing va s with
  | zero => exact h
  | succ n ih =>
    unfold Machine.translateBytes
    split
    next e => exact (translate h).of_eq e
    next e =>
      split
      next e' => exact (ih ((translate h).of_eq e)).of_eq e'
      next e' => exact (ih ((translate h).of_eq e)).of_eq e'

theorem scalarTargets {rq : Req} {acc : Access} {float : Bool} {size : Nat} {va : Word} (h : KeepsTurn a s) : KeepsTurn a (scalarTargets rq acc float size va s).2 := by
  unfold Machine.scalarTargets
  split
  · split
    next e => exact (translate h).of_eq e
    next e => exact (translate h).of_eq e
  · exact translateBytes h

/-! ## Control space -/

theorem restartDie {d fails reason : Nat} {min : Bool} (h : KeepsTurn a s) : KeepsTurn a (restartDie d fails reason min s) := by
  rw [KeepsTurn, restartDie_me]
  split
  · exact h
  · exact h

theorem tiqhiWrite (h : KeepsTurn a s) : KeepsTurn a (tiqhiWrite s) := ite h (ite h h)

theorem pdreqOp {mesh : Nat} (h : KeepsTurn a s) : KeepsTurn a (pdreqOp mesh s) := modCore h
theorem pupreqOp {mesh : Nat} (h : KeepsTurn a s) : KeepsTurn a (pupreqOp mesh s) := modCore h
theorem bootlockOp {d : Nat} (h : KeepsTurn a s) : KeepsTurn a (bootlockOp d s) := ite h (ite h h)

theorem mailboxRun {cmd : Nat} {args : Vector Word 4} (h : KeepsTurn a s) : KeepsTurn a (mailboxRun cmd args s) :=
  ite h (ite h (ite (foldl (fun _ _ => restartDie) h) (ite (ite (pdreqOp h) (pupreqOp h)) h)))

theorem queueWrite {d q off : Nat} {nv : Word} {lo : Bool} (h : KeepsTurn a s) : KeepsTurn a (queueWrite d q off nv lo s) := by
  unfold Machine.queueWrite
  extract_lets x
  split
  · exact ite h h
  · exact ite h h
  · exact ite (ite h h) h
  · exact ite (ite h h) h
  · exact ite h h
  · exact h

theorem partWrite {p off : Nat} {nv : Word} (h : KeepsTurn a s) : KeepsTurn a (partWrite p off nv s) := by
  unfold Machine.partWrite
  extract_lets i x put
  split <;> exact h

theorem ctrlWrite {d j off : Nat} {nv : Word} (h : KeepsTurn a s) : KeepsTurn a (ctrlWrite d j off nv s) := by
  unfold Machine.ctrlWrite
  extract_lets i put
  split
  · exact ite h h
  · exact h
  · exact h

theorem coreWrite {mesh off : Nat} {nv : Word} {lo : Bool} (h : KeepsTurn a s) : KeepsTurn a (coreWrite mesh off nv lo s) := by
  have hdown : KeepsTurn a (if bit nv 0 then Machine.pdreqOp mesh s else s) := ite (pdreqOp h) h
  unfold Machine.coreWrite
  split
  · exact ite (ite (pupreqOp hdown) hdown) h
  · exact modCore h
  · exact h

theorem tbWrite {off : Nat} {nv v : Word} {lo hi : Bool} (h : KeepsTurn a s) : KeepsTurn a (tbWrite off nv v lo hi s) := by
  unfold Machine.tbWrite
  extract_lets lock i j g g'
  refine ite (ite h (h.of_me rfl)) ?_
  split
  · exact ite h (h.of_me rfl)
  · exact h.of_me rfl
  · exact ite (tiqhiWrite (h.of_me rfl)) (h.of_me rfl)
  · exact ite (h.of_me rfl) h
  · exact h

theorem mailWrite {off : Nat} {nv : Word} {lo : Bool} (h : KeepsTurn a s) : KeepsTurn a (mailWrite off nv lo s) := by
  unfold Machine.mailWrite
  extract_lets m
  split
  case h_6 => exact ite (mailboxRun h) h
  all_goals exact h

theorem dieWrite {d off : Nat} {nv : Word} {lo : Bool} (h : KeepsTurn a s) : KeepsTurn a (dieWrite d off nv lo s) := by
  unfold Machine.dieWrite
  refine ite (ite (bootlockOp h) h) (ite (ite h h) (ite (ite h h) (ite (ite (mailWrite h) h) ?_)))
  refine ite ?_ (ite (ctrlWrite h) (ite (queueWrite h) (ite (partWrite h) h)))
  extract_lets i r put
  split <;> exact h

theorem ctlWrite {d off : Nat} {lo hi : Bool} {v : Word} (h : KeepsTurn a s) : KeepsTurn a (ctlWrite d off lo hi v s) :=
  ite (dieWrite h) (ite (tbWrite h) (ite (coreWrite h) h))

theorem ctlStore {pa size : Nat} {v : Word} (h : KeepsTurn a s) : KeepsTurn a (ctlStore pa size v s) := ite (ctlWrite h) (ite (ctlWrite h) (ctlWrite h))

/-! ## The store queue, and vector-path writes -/

theorem performAtCore {mesh : Nat} {w : Write} (h : KeepsTurn a s) : KeepsTurn a (performAtCore mesh w s) := by
  refine ite (homeWrite h) (modCore (ite (foldl (fun s b hs => ?_) h) h))
  split
  · exact modCore hs
  · exact hs

theorem performAtSlice {mesh : Nat} {ws : List Write} (h : KeepsTurn a s) : KeepsTurn a (performAtSlice mesh ws s) := homeWrites (homeWrites (modCore h))

theorem performWrites {mesh n : Nat} {ws : List Write} (h : KeepsTurn a s) : KeepsTurn a (performWrites mesh n ws s) := by
  induction n generalizing ws s with
  | zero => exact h
  | succ n ih =>
    cases ws with
    | nil => exact h
    | cons w ws => exact ite (ih (performAtSlice h)) (ih (performAtCore h))

theorem performPart {q : QStore} {ts : List Target} (h : KeepsTurn a s) : KeepsTurn a (performPart q ts s) := by
  unfold Machine.performPart
  split
  · exact ite (ctlStore h) (homeWrite h)
  · exact h
  · exact performAtCore h

theorem performStore {q : QStore} {ts : List Target} (h : KeepsTurn a s) : KeepsTurn a (performStore q ts s) :=
  ite (performPart h) (foldl (fun _ _ => performPart) h)

theorem recordFault {q : QStore} {sub : Nat} (h : KeepsTurn a s) : KeepsTurn a (recordFault q sub s) := h

theorem translateStore (h : KeepsTurn a s) : KeepsTurn a (translateStore s) := by
  refine ite h ?_
  unfold Machine.forceStore
  split
  · exact h
  next q rest _ =>
    have h0 : KeepsTurn a (Machine.onMe (fun t => { t with stq := rest }) s) := h
    refine ite h0 ?_
    split
    next e => exact recordFault ((scalarTargets h0).of_eq e)
    next e => exact performStore ((scalarTargets h0).of_eq e)

theorem performVectorAt {idx : Nat} (h : KeepsTurn a s) : KeepsTurn a (performVectorAt idx s) := by
  unfold Machine.performVectorAt
  split
  · exact h
  · exact ite h (performWrites (onMe (fun _ => rfl) (fun _ => rfl) h))

/-! ## Refills -/

theorem readPieces {rq : Req} {acc : Access} {ps : List Piece} (h : KeepsTurn a s) : KeepsTurn a (readPieces readHome rq acc ps s).2 := by
  induction ps generalizing s with
  | nil => exact h
  | cons p ps ih =>
    unfold Machine.readPieces
    split
    next e => exact (scalarTargets h).of_eq e
    next e =>
      have h1 := (scalarTargets h).of_eq e
      dsimp only
      split
      next e' => exact (ih h1).of_eq e'
      next e' => exact (ih h1).of_eq e'

theorem fetchPiece {rq : Req} {p : Piece} (h : KeepsTurn a s) : KeepsTurn a (fetchPiece rq p s).2 := by
  unfold Machine.fetchPiece
  split
  next e => exact (readPieces h).of_eq e
  next e => exact (readPieces h).of_eq e

theorem fetchElements {rq : Req} {f : Nat → Piece} {es : List Nat} (h : KeepsTurn a s) : KeepsTurn a (fetchElements rq f es s).2 := by
  induction es generalizing s with
  | nil => exact h
  | cons e es ih => exact ih (fetchPiece h)

theorem scanRows {rq : Req} {pat : List Word} {first need n r last : Nat} (h : KeepsTurn a s) : KeepsTurn a (scanRows rq pat first need n r last s).2 := by
  induction n generalizing r last s with
  | zero => exact h
  | succ n ih =>
    unfold Machine.scanRows
    dsimp only
    split
    · exact h
    split
    · exact fetchPiece h
    split
    · exact fetchPiece h
    · exact ih (fetchPiece h)

theorem fibreRows {rq : Req} {pat : List Word} {need : Nat} (h : KeepsTurn a s) : KeepsTurn a (fibreRows rq pat need s).2 := by
  unfold Machine.fibreRows
  dsimp only
  split
  · exact h
  split
  · exact fetchPiece h
  · exact scanRows (fetchPiece h)

theorem countReads {ctx : Nat} {xs : List (Bool × Nat)} (h : KeepsTurn a s) : KeepsTurn a (countReads ctx xs s) := l2Reads (l2Reads h)

theorem fetchBlock {rq : Req} {q : Stream} {b : Nat} (h : KeepsTurn a s) : KeepsTurn a (fetchBlock rq q b s).2.2 := by
  unfold Machine.fetchBlock
  dsimp only
  split
  · exact countReads (fetchElements h)
  · exact countReads (fetchElements (fibreRows h))

theorem refillStep {mesh sid : Nat} {q : SqN} {n : Nat} (h : KeepsTurn a s) : KeepsTurn a (refillStep mesh sid q n s) :=
  ite (modCore (onMe (fun _ => rfl) (fun _ => rfl) ((fetchBlock h).of_me rfl))) h

end KeepsTurn

end Sys2Proof.Machine
end

section
/-! The copies that a write performed at its core changes (O32): cores read after a change of one of them, and the bytes of a write laid over a copy (R102). -/

namespace Sys2Proof.Machine

set_option Elab.async false

open Sys2Proof.Claims Sys2Proof.Laws

/-! ## Cores after a change of one of them -/

theorem modCore_core (m : Nat) (f : Core → Core) (s : State) : (modCore m f s).core = if s.core.mesh = m then f s.core else s.core := by
  rw [modCore]
  split <;> rfl

/-- What a change leaves of a core at hand. -/
theorem modCore_field {β : Type} {g : Core → β} {m : Nat} {f : Core → Core} (hf : ∀ c, g (f c) = g c) (s : State) : g (modCore m f s).core = g s.core := by
  rw [modCore_core]
  split
  · exact hf _
  · rfl

theorem coreAt_modCore_other {h m : Nat} {f : Core → Core} {s : State} (hf : ∀ c : Core, (f c).mesh = c.mesh) (hm : h ≠ m) : coreAt h (modCore m f s) = coreAt h s := by
  have hlist (cs : List Core) : (cs.map fun c => if c.mesh = m then f c else c).find? (fun c => c.mesh == h) = cs.find? fun c => c.mesh == h := by
    induction cs with
    | nil => rfl
    | cons c cs ih =>
      rw [List.map_cons, List.find?_cons, List.find?_cons, ih]
      by_cases hc : c.mesh = m
      · have hne : (c.mesh == h) = false := beq_eq_false_iff_ne.2 fun e => hm (e.symm.trans hc)
        rw [if_pos hc, hf, hne]
      · rw [if_neg hc]
  unfold coreAt modCore
  by_cases hs : s.core.mesh = m
  · have hne : s.core.mesh ≠ h := fun e => hm (e.symm.trans hs)
    have hne' : (f s.core).mesh ≠ h := by rw [hf]; exact hne
    rw [if_pos hs, if_neg hne]
    exact if_neg hne'
  · rw [if_neg hs]
    dsimp only
    rw [hlist]

/-- A core that is changed reads changed, unless there is none of its number. -/
theorem coreAt_modCore_or {m : Nat} {f : Core → Core} {s : State} (hf : ∀ c : Core, (f c).mesh = c.mesh) :
    coreAt m (modCore m f s) = f (coreAt m s) ∨ coreAt m s = Core.reset m [] ∧ coreAt m (modCore m f s) = Core.reset m [] := by
  unfold coreAt modCore
  by_cases hs : s.core.mesh = m
  · left
    rw [if_pos hs, if_pos hs, if_pos ((hf _).trans hs)]
  · rw [if_neg hs, if_neg hs]
    dsimp only
    rw [find_map_core (fun c hc => (hf c).trans hc)]
    cases hc : s.cores.find? fun c => c.mesh == m with
    | none => exact .inr ⟨if_neg hs, rfl⟩
    | some c => exact .inl (by rw [if_neg hs]; rfl)

/-- What a change leaves of the core of any number. -/
theorem coreAt_modCore_field {β : Type} {g : Core → β} {h m : Nat} {f : Core → Core} (hf : ∀ c : Core, (f c).mesh = c.mesh) (hg : ∀ c, g (f c) = g c) (s : State) :
    g (coreAt h (modCore m f s)) = g (coreAt h s) := by
  by_cases hm : h = m
  · subst hm
    rcases coreAt_modCore_or (m := h) (s := s) hf with he | ⟨he, he'⟩
    · rw [he, hg]
    · rw [he, he']
  · rw [coreAt_modCore_other hf hm]

theorem coreAt_of_hasCore {m : Nat} {s : State} (h : HasCore m s) {f : Core → Core} (hf : ∀ c : Core, (f c).mesh = c.mesh) :
    coreAt m (modCore m f s) = f (coreAt m s) ∧ HasCore m (modCore m f s) := by
  unfold coreAt modCore
  by_cases hs : s.core.mesh = m
  · have hm : (f s.core).mesh = m := (hf _).trans hs
    rw [if_pos hs, if_pos hs, if_pos hm]
    exact ⟨rfl, .inl hm⟩
  · obtain ⟨before, c, after, hcores, hc, hothers⟩ := h.resolve_left hs
    have hfind : s.cores.find? (fun c => c.mesh == m) = some c := by
      rw [hcores, List.find?_append, List.find?_eq_none.2 fun x hx => by simpa using hothers x (List.mem_append_left _ hx)]
      simp [hc]
    rw [if_neg hs, if_neg hs]
    refine ⟨?_, .inr ⟨before.map fun c => if c.mesh = m then f c else c, f c, after.map fun c => if c.mesh = m then f c else c, ?_, (hf c).trans hc, fun x hx => ?_⟩⟩
    · dsimp only
      rw [if_neg hs, find_map_core (fun c hc => (hf c).trans hc), hfind]
      rfl
    · dsimp only
      rw [hcores, List.map_append, List.map_cons, if_pos hc]
    · rw [← List.map_append, List.mem_map] at hx
      obtain ⟨y, hy, rfl⟩ := hx
      split
      next he => exact absurd he (hothers y hy)
      next he => exact he

/-! ## Bytes laid over copies (R102) -/

/-- The copies of an L1 after the bytes of a write. -/
def patchAll (bs : List ByteWrite) (xs : List L1Copy) : List L1Copy :=
  bs.foldl (fun xs b => match b.loc with | .mem pa => xs.map (patchCopy pa b) | .scratch _ _ => xs) xs

theorem patchAll_cons_mem {b : ByteWrite} {pa : Nat} (h : b.loc = .mem pa) (bs : List ByteWrite) (xs : List L1Copy) :
    patchAll (b :: bs) xs = patchAll bs (xs.map (patchCopy pa b)) := by
  rw [patchAll, List.foldl_cons, h]
  rfl

theorem patchAll_cons_scratch {b : ByteWrite} {m off : Nat} (h : b.loc = .scratch m off) (bs : List ByteWrite) (xs : List L1Copy) :
    patchAll (b :: bs) xs = patchAll bs xs := by
  rw [patchAll, List.foldl_cons, h]
  rfl

/-- One byte of a copy after a byte was laid over it. -/
theorem patchCopy_data {pa : Nat} {b : ByteWrite} {c : L1Copy} {k : Nat} {v : BitVec 8} (hk : k < 64) (hv : c.data[k]? = some v) :
    (patchCopy pa b c).data[k]? = some (if pa = c.line * 64 + k then merge v b.val b.mask else v) := by
  unfold patchCopy
  by_cases hl : c.line = pa / 64
  · rw [if_pos hl, List.getElem?_mapIdx, hv]
    by_cases hp : k = pa % 64
    · have heq : pa = c.line * 64 + k := by omega
      rw [if_pos heq, Option.map_some, if_pos hp]
    · have hne : pa ≠ c.line * 64 + k := by omega
      rw [if_neg hne, Option.map_some, if_neg hp]
  · have hne : pa ≠ c.line * 64 + k := by omega
    rw [if_neg hl, if_neg hne, hv]

theorem patchCopy_same (pa : Nat) (b : ByteWrite) (c : L1Copy) : patchCopy pa b c = { c with data := (patchCopy pa b c).data } ∧ (patchCopy pa b c).data.length = c.data.length := by
  unfold patchCopy
  split
  · exact ⟨rfl, List.length_mapIdx⟩
  · exact ⟨rfl, rfl⟩

theorem patched_refl (xs : List L1Copy) : Patched [] xs xs :=
  ⟨rfl, fun _ c hc => ⟨c.data, hc, rfl, fun _ _ _ hv => ⟨nofun, fun _ => hv⟩⟩⟩

/-- A copy is patched when every byte of it takes what the bytes of the write bring to its place. -/
theorem patchAll_patched {bs : List ByteWrite} (hd : bs.Pairwise fun x y => x.loc ≠ y.loc) (xs : List L1Copy) : Patched bs xs (patchAll bs xs) := by
  induction bs generalizing xs with
  | nil => exact patched_refl xs
  | cons b bs ih =>
    obtain ⟨hfirst, hrest⟩ := List.pairwise_cons.1 hd
    cases hb : b.loc with
    | scratch m off =>
      rw [patchAll_cons_scratch hb]
      obtain ⟨hlen, hcopies⟩ := ih hrest xs
      refine ⟨hlen, fun j c hc => ?_⟩
      obtain ⟨d, hd, hdlen, hdata⟩ := hcopies j c hc
      refine ⟨d, hd, hdlen, fun k v hk hv => ?_⟩
      obtain ⟨htakes, hkeeps⟩ := hdata k v hk hv
      refine ⟨fun x hx hloc => ?_, fun hnone => hkeeps fun x hx => hnone x (List.mem_cons_of_mem _ hx)⟩
      rcases List.mem_cons.1 hx with rfl | hx
      · rw [hb] at hloc
        cases hloc
      · exact htakes x hx hloc
    | mem pa =>
      rw [patchAll_cons_mem hb]
      obtain ⟨hlen, hcopies⟩ := ih hrest (xs.map (patchCopy pa b))
      refine ⟨hlen.trans (List.length_map _), fun j c hc => ?_⟩
      obtain ⟨hsame, hsize⟩ := patchCopy_same pa b c
      obtain ⟨d, hd, hdlen, hdata⟩ := hcopies j (patchCopy pa b c) (by rw [List.getElem?_map, hc]; rfl)
      have hline : (patchCopy pa b c).line = c.line := by rw [hsame]
      rw [hsame] at hd
      refine ⟨d, hd, hdlen.trans hsize, fun k v hk hv => ?_⟩
      obtain ⟨htakes, hkeeps⟩ := hdata k _ hk (patchCopy_data hk hv)
      rw [hline] at htakes hkeeps
      by_cases hpa : pa = c.line * 64 + k
      · have hnone : ∀ x ∈ bs, x.loc ≠ .mem (c.line * 64 + k) := fun x hx e => hfirst x hx (by rw [hb, e, hpa])
        have hmerged := hkeeps hnone
        rw [if_pos hpa] at hmerged
        refine ⟨fun x hx hloc => ?_, fun h => absurd (by rw [hb, hpa]) (h b List.mem_cons_self)⟩
        rcases List.mem_cons.1 hx with rfl | hx
        · exact hmerged
        · exact absurd hloc (hnone x hx)
      · rw [if_neg hpa] at htakes hkeeps
        refine ⟨fun x hx hloc => ?_, fun h => hkeeps fun x hx => h x (List.mem_cons_of_mem _ hx)⟩
        rcases List.mem_cons.1 hx with rfl | hx
        · rw [hb] at hloc
          exact absurd (Loc.mem.inj hloc) hpa
        · exact htakes x hx hloc

/-! ## A write performed at its core -/

/-- A byte of a write laid over the copy that serves a core. -/
def layByte (m : Nat) (s : State) (b : ByteWrite) : State :=
  match b.loc with
  | .mem pa => modCore (copyHolder m (pa / 64) s) (fun c => useCopy (pa / 64) { c with copies := c.copies.map (patchCopy pa b) }) s
  | .scratch _ _ => s

theorem layByte_mem {m : Nat} {s : State} {b : ByteWrite} {pa : Nat} (h : b.loc = .mem pa) :
    layByte m s b = modCore (copyHolder m (pa / 64) s) (fun c => useCopy (pa / 64) { c with copies := c.copies.map (patchCopy pa b) }) s := by rw [layByte, h]

theorem layByte_scratch {m k off : Nat} {s : State} {b : ByteWrite} (h : b.loc = .scratch k off) : layByte m s b = s := by rw [layByte, h]

/-- Using a line changes nothing of an L1 but its tree bits. -/
theorem useCopy_same (line : Nat) (c : Core) : useCopy line c = { c with l1 := (useCopy line c).l1 } := by
  unfold useCopy
  split <;> rfl

section
variable (pa : Nat) (b : ByteWrite) (c : Core)

theorem patchedCore_same : useCopy (pa / 64) { c with copies := c.copies.map (patchCopy pa b) } =
    { c with copies := c.copies.map (patchCopy pa b), l1 := (useCopy (pa / 64) { c with copies := c.copies.map (patchCopy pa b) }).l1 } := by
  rw [useCopy_same]

end

/-- What laying a byte leaves of a core. -/
theorem layByte_field {β : Type} {g : Core → β} (hg : ∀ (c : Core) (xs : List L1Copy) (l : List (Nat × BitVec 7)), g { c with copies := xs, l1 := l } = g c)
    (m : Nat) (s : State) (b : ByteWrite) : (∀ h, g (coreAt h (layByte m s b)) = g (coreAt h s)) ∧ g (layByte m s b).core = g s.core := by
  cases hb : b.loc with
  | scratch k off =>
    rw [layByte_scratch hb]
    exact ⟨fun _ => rfl, rfl⟩
  | mem pa =>
    rw [layByte_mem hb]
    exact ⟨fun h => coreAt_modCore_field (fun c => by rw [patchedCore_same]) (fun c => by rw [patchedCore_same]; exact hg _ _ _) s,
      modCore_field (fun c => by rw [patchedCore_same]; exact hg _ _ _) s⟩

theorem copyHolder_congr {m : Nat} {s t : State} (h : (coreAt m t).fused = (coreAt m s).fused) (line : Nat) : copyHolder m line t = copyHolder m line s := by
  rw [copyHolder, copyHolder, h]

theorem heldBy_congr {m : Nat} {s t : State} (h : (coreAt m t).fused = (coreAt m s).fused) (k : Nat) (bs : List ByteWrite) : heldBy m k t bs = heldBy m k s bs := by
  rw [heldBy, heldBy]
  refine List.filter_congr fun b _ => ?_
  cases b.loc with
  | mem pa =>
    dsimp only
    rw [copyHolder_congr h]
  | scratch => rfl

theorem layByte_copies (m h : Nat) (s : State) (b : ByteWrite) : (coreAt h (layByte m s b)).copies = patchAll (heldBy m h s [b]) (coreAt h s).copies := by
  cases hb : b.loc with
  | scratch k off =>
    rw [layByte_scratch hb, heldBy, List.filter_cons_of_neg (by rw [hb]; exact Bool.false_ne_true)]
    rfl
  | mem pa =>
    rw [layByte_mem hb]
    by_cases hh : copyHolder m (pa / 64) s = h
    · rw [heldBy, List.filter_cons_of_pos (by rw [hb]; exact beq_iff_eq.2 hh), List.filter_nil, patchAll_cons_mem hb, hh]
      rcases coreAt_modCore_or (m := h) (s := s) (f := fun c => useCopy (pa / 64) { c with copies := c.copies.map (patchCopy pa b) })
        (fun c => by rw [patchedCore_same]) with he | ⟨he, he'⟩
      · rw [he, patchedCore_same]
        rfl
      · rw [he, he']
        rfl
    · rw [heldBy, List.filter_cons_of_neg (by rw [hb]; exact mt beq_iff_eq.1 hh), coreAt_modCore_other (fun c => by rw [patchedCore_same]) (Ne.symm hh)]
      rfl

/-- The bytes of a write laid over the copies that serve a core: nothing changes but copies and tree bits. -/
theorem layBytes (m : Nat) (bs : List ByteWrite) (s : State) : let u := bs.foldl (layByte m) s
    u.me = s.me ∧ u.mem = s.mem ∧ u.core.out = s.core.out ∧ u.core.mesh = s.core.mesh ∧ ∀ h, (coreAt h u).copies = patchAll (heldBy m h s bs) (coreAt h s).copies := by
  induction bs generalizing s with
  | nil => exact ⟨rfl, rfl, rfl, rfl, fun _ => rfl⟩
  | cons b bs ih =>
    have hfused := (layByte_field (g := Core.fused) (fun _ _ _ => rfl) m s b).1 m
    obtain ⟨hme, hmem, hout, hmesh, hcopies⟩ := ih (layByte m s b)
    have hrest : (layByte m s b).me = s.me ∧ (layByte m s b).mem = s.mem := by
      cases hb : b.loc with
      | scratch k off => rw [layByte_scratch hb]; exact ⟨rfl, rfl⟩
      | mem pa => rw [layByte_mem hb]; exact ⟨modCore_me _ _ _, modCore_mem _ _ _⟩
    refine ⟨hme.trans hrest.1, hmem.trans hrest.2, hout.trans (layByte_field (g := Core.out) (fun _ _ _ => rfl) m s b).2,
      hmesh.trans (layByte_field (g := Core.mesh) (fun _ _ _ => rfl) m s b).2, fun h => ?_⟩
    have hsplit : heldBy m h s (b :: bs) = heldBy m h s [b] ++ heldBy m h s bs := List.filter_append [b] bs
    rw [List.foldl_cons, hcopies h, heldBy_congr hfused, layByte_copies, hsplit, patchAll, patchAll, patchAll, List.foldl_append]

/-- Some byte of a write goes to memory. -/
def ToMemory (w : Write) : Prop := ∃ b ∈ w.bytes, ∃ a, b.loc = .mem a

theorem performAtCore_toMemory {m : Nat} {w : Write} {s : State} (h : ToMemory w) :
    performAtCore m w s = modCore m (fun c => { c with out := c.out ++ [w] }) (if w.wb then w.bytes.foldl (layByte m) s else s) := by
  obtain ⟨b, hb, a, ha⟩ := h
  refine if_neg fun hall => ?_
  have hscratch := List.all_eq_true.1 hall b hb
  rw [ha] at hscratch
  cases hscratch

/-- A write that is not of type WB just leaves for its home. -/
theorem performAtCore_uncached {w : Write} {s : State} (hown : s.me.mesh = s.core.mesh) (h : ToMemory w) (hwb : w.wb = false) :
    performAtCore s.me.mesh w s = { s with core := { s.core with out := s.core.out ++ [w] } } := by
  rw [performAtCore_toMemory h, hwb, if_neg Bool.false_ne_true, modCore, if_pos hown.symm]

/-- A write of type WB leaves for its home, and the copies that serve the core take it. -/
theorem performAtCore_cached {w : Write} {s : State} (hown : s.me.mesh = s.core.mesh) (h : ToMemory w) (hwb : w.wb = true) : let t := performAtCore s.me.mesh w s
    t.me = s.me ∧ t.mem = s.mem ∧ t.core.out = s.core.out ++ [w] ∧ t.core.mesh = s.core.mesh ∧
      ∀ h, (coreAt h t).copies = patchAll (heldBy s.me.mesh h s w.bytes) (coreAt h s).copies := by
  rw [performAtCore_toMemory h, if_pos hwb]
  obtain ⟨hme, hmem, hout, hmesh, hcopies⟩ := layBytes s.me.mesh w.bytes s
  refine ⟨(modCore_me _ _ _).trans hme, (modCore_mem _ _ _).trans hmem, ?_, ?_, fun h => ?_⟩
  · rw [modCore_core, if_pos (hmesh.trans hown.symm), hout]
  · rw [modCore_core, if_pos (hmesh.trans hown.symm), hmesh]
  · exact (coreAt_modCore_field (g := Core.copies) (f := fun c => { c with out := c.out ++ [w] }) (fun _ => rfl) (fun _ => rfl) _).trans (hcopies h)

theorem heldBy_pairwise {m h : Nat} {s : State} {bs : List ByteWrite} (hd : bs.Pairwise fun x y => x.loc ≠ y.loc) : (heldBy m h s bs).Pairwise fun x y => x.loc ≠ y.loc :=
  hd.sublist List.filter_sublist

theorem performAtCore_atCore {w : Write} {s : State} (hown : s.me.mesh = s.core.mesh) (h : ToMemory w) (hwb : w.wb = true) (hd : w.bytes.Pairwise fun x y => x.loc ≠ y.loc) :
    AtCore w s (performAtCore s.me.mesh w s) := by
  obtain ⟨hme, hmem, hout, -, hcopies⟩ := performAtCore_cached hown h hwb
  refine ⟨hme, hmem, hout, fun h => ?_⟩
  rw [hcopies h]
  exact patchAll_patched (heldBy_pairwise hd) _

end Sys2Proof.Machine
end

section
/-! Writes on their way (O32): those that have left their core, and the vector-path writes of a strand (R101 to R104, R137). -/

namespace Sys2Proof.Machine

set_option Elab.async false

open Sys2Proof.Claims Sys2Proof.Laws

/-! ## What a write at the home leaves of a core -/

/-- A byte put at its home changes of a core at hand nothing but its scratch and the dirty bits of it. -/
theorem homePut_field {β : Type} {g : Core → β} (hg : ∀ (c : Core) (m : Memory) (d : Vector (BitVec 928) 3), g { c with scratch := m, dirty := d } = g c)
    (b : ByteWrite) (s : State) : g (homePut b s).core = g s.core := by
  unfold homePut
  split
  · rfl
  · exact modCore_field (fun c => hg c _ _) s

theorem homePuts_field {β : Type} {g : Core → β} (hg : ∀ (c : Core) (m : Memory) (d : Vector (BitVec 928) 3), g { c with scratch := m, dirty := d } = g c)
    (bs : List ByteWrite) (s : State) : g (bs.foldl (fun s b => homePut b s) s).core = g s.core := by
  induction bs generalizing s with
  | nil => rfl
  | cons b bs ih => exact (ih _).trans (homePut_field hg b s)

theorem homeBytes_field {β : Type} {g : Core → β} (hg : ∀ (c : Core) (m : Memory) (d : Vector (BitVec 928) 3), g { c with scratch := m, dirty := d } = g c)
    (wb : Bool) (bs : List ByteWrite) (s : State) : g (homeBytes wb bs s).core = g s.core := by
  rw [homeBytes_after]
  exact homePuts_field hg bs s

theorem homeWrite_field {β : Type} {g : Core → β} (hg : ∀ (c : Core) (m : Memory) (d : Vector (BitVec 928) 3), g { c with scratch := m, dirty := d } = g c)
    (ctx : Nat) (wb : Bool) (bs : List ByteWrite) (s : State) : g (homeWrite ctx wb bs s).core = g s.core := by
  rw [homeWrite, homeBytes_field hg, (l2Writes_only _ _ _ _).core_eq]

/-! ## Taking a write out of its list -/

theorem takeAt_of_getElem? {α : Type} {k : Nat} {l : List α} {x : α} (h : l[k]? = some x) : takeAt k l = some (x, l.take k ++ l.drop (k + 1)) := by
  induction l generalizing k with
  | nil => cases h
  | cons y l ih =>
    cases k with
    | zero =>
      cases h
      rfl
    | succ k =>
      rw [List.getElem?_cons_succ] at h
      rw [takeAt, ih h]
      rfl

/-! ## Performed at their homes -/

section
variable {s : State} {k : Nat} {w : Write} (hk : s.core.out[k]? = some w)
include hk

/-- An earlier write of the same strand and path shares a bit with one that has left its core. -/
def HeldBack (k : Nat) (w : Write) (s : State) : Prop := ∃ x ∈ s.core.out.take k, x.sid = w.sid ∧ x.path = w.path ∧ overlaps x w = true

omit hk in
theorem heldBack_iff : ((s.core.out.take k).any fun x => x.sid == w.sid && x.path == w.path && overlaps x w) = true ↔ HeldBack k w s := by
  simp [HeldBack, and_assoc]

theorem atHome_waits (h : HeldBack k w s) : exec (.accessPerform (.atHome s.core.mesh k)) s = .next s := by
  dsimp only [exec, execAccessPerform, performHomeAt]
  rw [coreAt_here, takeAt_of_getElem? hk]
  dsimp only
  rw [if_pos (heldBack_iff.2 h)]

/-- The core at hand with a write less on its way. -/
def outWithout (k : Nat) (s : State) : State := { s with core := { s.core with out := s.core.out.take k ++ s.core.out.drop (k + 1) } }

theorem atHome_performs (h : ¬HeldBack k w s) : exec (.accessPerform (.atHome s.core.mesh k)) s = .next (homeWrite w.ctx w.wb w.bytes (outWithout k s)) := by
  dsimp only [exec, execAccessPerform, performHomeAt]
  rw [coreAt_here, takeAt_of_getElem? hk]
  dsimp only
  rw [if_neg (mt heldBack_iff.1 h), modCore, if_pos rfl]
  rfl

end

/-! ## Vector-path writes -/

section
variable {s : State} {k : Nat} {w : Write} (hs : s.wellKept) (hk : s.me.vwq[k]? = some w)

/-- The strand at hand with a vector-path write less in its queue. -/
def vwqWithout (k : Nat) (s : State) : State := { s with me := { s.me with vwq := s.me.vwq.take k ++ s.me.vwq.drop (k + 1) } }

include hs in
theorem atCore_here : exec (.accessPerform (.atCore s.me.mesh s.me.sid k)) s = .next (performVectorAt k s) :=
  congrArg _ (atStrand_own hs.atHand (KeepsTurn.performVectorAt .refl))

include hk

theorem performVectorAt_waits (h : ∃ x ∈ s.me.vwq.take k, overlaps x w = true) : performVectorAt k s = s := by
  rw [performVectorAt, takeAt_of_getElem? hk]
  exact if_pos (List.any_eq_true.2 h)

theorem performVectorAt_performs (h : ∀ x ∈ s.me.vwq.take k, overlaps x w = false) : performVectorAt k s = performWrites s.me.mesh 1 [w] (vwqWithout k s) := by
  rw [performVectorAt, takeAt_of_getElem? hk]
  refine (if_neg fun hany => ?_).trans rfl
  obtain ⟨x, hx, ho⟩ := List.any_eq_true.1 hany
  rw [h x hx] at ho
  cases ho

variable (h : ∀ x ∈ s.me.vwq.take k, overlaps x w = false)
include h

theorem performVectorAt_core (hw : w.slice = false) : performVectorAt k s = performAtCore s.me.mesh w (vwqWithout k s) := by
  rw [performVectorAt_performs hk h, performWrites, hw, if_neg Bool.false_ne_true]
  rfl

include hs in
theorem performVectorAt_slice (hw : w.slice = true) (hout : s.core.out = []) :
    performVectorAt k s = homeBytes w.wb w.bytes (countWrites 1 [w] (vwqWithout k s)) := by
  rw [performVectorAt_performs hk h, performWrites, if_pos hw]
  dsimp only
  rw [List.takeWhile_nil, List.drop_nil, performWrites, performAtSlice, drainOut_quiet _ _ (vwqWithout k s) hs.atHand.symm hout]
  rfl

end

end Sys2Proof.Machine
end

section
/-! The store queue (O32): what the translation of its oldest store comes to (R100, R341, R342). -/

namespace Sys2Proof.Machine

set_option Elab.async false

open Sys2Proof.Claims Sys2Proof.Laws

/-! ## The bytes of a store -/

/-- A byte of a store at an address of memory. -/
def storeByte (q : QStore) (l : Loc) (k : Nat) : ByteWrite := ⟨l, q.data.extractLsb' (8 * k) 8, 0xFF, q.latches.getD k none⟩

theorem storeWrites_getElem? {ls : List (Option Word)} {ts : List Target} {bs : List (BitVec 8)} {k : Nat} {l : Option Word} {t : Target} {b : BitVec 8}
    (hl : ls[k]? = some l) (ht : ts[k]? = some t) (hb : bs[k]? = some b) : (storeWrites ls ts bs)[k]? = some ⟨targetLoc t 0, b, 0xFF, l⟩ := by
  induction k generalizing ls ts bs with
  | zero =>
    cases ls <;> cases ts <;> cases bs <;> cases hl <;> cases ht <;> cases hb
    rfl
  | succ k ih =>
    cases ls with
    | nil => cases hl
    | cons l' ls =>
      cases ts with
      | nil => cases ht
      | cons t' ts =>
        cases bs with
        | nil => cases hb
        | cons b' bs => exact ih hl ht hb

theorem storeWrites_length {n : Nat} {ls : List (Option Word)} {ts : List Target} {bs : List (BitVec 8)} (hl : ls.length = n) (ht : ts.length = n) (hb : bs.length = n) :
    (storeWrites ls ts bs).length = n := by
  induction n generalizing ls ts bs with
  | zero =>
    rw [List.length_eq_zero_iff.1 hl]
    rfl
  | succ n ih =>
    cases ls with
    | nil => cases hl
    | cons l ls =>
      cases ts with
      | nil => cases ht
      | cons t ts =>
        cases bs with
        | nil => cases hb
        | cons b bs => exact congrArg (· + 1) (ih (Nat.succ.inj hl) (Nat.succ.inj ht) (Nat.succ.inj hb))

theorem storeBytes_length (q : QStore) : (storeBytes q).length = q.size := bytesOf_length _ _

theorem storeBytes_getElem? {q : QStore} {k : Nat} (h : k < q.size) : (storeBytes q)[k]? = some (q.data.extractLsb' (8 * k) 8) := bytesOf_getElem? h q.data

/-- The bytes of a store at the targets that its addresses lead to. -/
theorem storeWrites_map {q : QStore} (hl : q.latches.length = q.size) (f : Nat → Target) :
    storeWrites q.latches ((List.range q.size).map f) (storeBytes q) = (List.range q.size).map fun k => storeByte q (targetLoc (f k) 0) k := by
  refine List.ext_getElem? fun k => ?_
  by_cases hk : k < q.size
  · have hlatch : q.latches[k]? = some (q.latches.getD k none) := by
      rw [List.getD_eq_getElem?_getD, List.getElem?_eq_getElem (by omega)]
      rfl
    rw [storeWrites_getElem? hlatch (by rw [List.getElem?_map, List.getElem?_range hk]; rfl) (storeBytes_getElem? hk), List.getElem?_map, List.getElem?_range hk]
    rfl
  · rw [List.getElem?_eq_none (by rw [storeWrites_length hl (by simp) (storeBytes_length q)]; omega), List.getElem?_eq_none (by simp; omega)]

/-! ## Records (R341, R342) -/

section
variable {s : State} {q : QStore} {rest : List QStore}

/-- The strand at hand without the oldest store of its queue. -/
def stqWithout (rest : List QStore) (s : State) : State := { s with me := { s.me with stq := rest } }

/-- The state with a record of a store, whose first word has the given bits beside the store's size. -/
def recorded (q : QStore) (t : State) (k : Nat) : State := { t with me := { t.me with
  sfq := t.me.sfq ++ [⟨BitVec.ofNat 64 (k + q.size * 2 ^ 8), q.va, BitVec.ofNat 64 (q.data.toNat % 2 ^ (8 * q.size)), q.pc⟩] } }

/-- A store shares a byte with one that was recorded. -/
def Meets (q : QStore) (r : SfRec) : Prop := r.w0.getLsbD 15 = false ∧ q.va.toNat < r.w1.toNat + fld r.w0 8 4 ∧ r.w1.toNat < q.va.toNat + q.size

theorem deferred_iff {r : SfRec} : deferred q r = true ↔ Meets q r := by
  rw [deferred, bit_eq_getLsbD]
  simp [Meets, and_assoc]

theorem storeBytes_value (q : QStore) : natOf (storeBytes q) = q.data.toNat % 2 ^ (8 * q.size) := by
  rw [storeBytes, natOf_bytesOf, Nat.pow_mul]

theorem pushRecord_deferred (q : QStore) (t : State) : pushRecord (sfRecord q true 0) t = recorded q t (2 ^ 15) := by
  rw [sfRecord, storeBytes_value, Bool.toNat_true, Nat.one_mul, Nat.add_zero]
  rfl

theorem pushRecord_fault (q : QStore) (k : Nat) (t : State) : pushRecord (sfRecord q false k) t = recorded q t k := by
  rw [sfRecord, storeBytes_value, Bool.toNat_false, Nat.zero_mul, Nat.zero_add, Nat.add_comm]
  rfl

/-- The record of a store's own fault, with the younger stores that share a byte with it to be deferred. -/
def faulted (q : QStore) (t : State) (k : Nat) : State :=
  let u := recorded q t k
  { u with me := { u.me with
    doubleFault := t.me.doubleFault || (q.ih && inHandler t.me)
    stq := t.me.stq.map fun x => { x with defer := x.defer || (decide (x.va.toNat < q.va.toNat + q.size) && decide (q.va.toNat < x.va.toNat + x.size)) } } }

theorem recordFault_eq (q : QStore) (k : Nat) (t : State) : recordFault q k t = faulted q t k := by
  rw [recordFault, pushRecord_fault]
  rfl

theorem translateStore_full (h : 16 ≤ s.me.sfq.length) : translateStore s = s := if_pos h

variable (hq : s.me.stq = q :: rest)
include hq

variable (hroom : s.me.sfq.length < 16)
include hroom

theorem translateStore_deferred (h : q.defer = true ∨ ∃ r ∈ s.me.sfq, Meets q r) : translateStore s = recorded q (stqWithout rest s) (2 ^ 15) := by
  have hdefer : (q.defer || s.me.sfq.any (deferred q)) = true := by
    rw [Bool.or_eq_true, List.any_eq_true]
    exact h.imp id fun ⟨r, hr, hm⟩ => ⟨r, hr, deferred_iff.2 hm⟩
  rw [translateStore, queueDepth, if_neg (Nat.not_le.2 hroom), forceStore, hq]
  dsimp only
  rw [if_pos hdefer, pushRecord_deferred]
  rfl

variable (hdefer : q.defer = false) (hmeets : ∀ r ∈ s.me.sfq, ¬Meets q r)
include hdefer hmeets

omit hq hroom in
theorem goes_undeferred : ¬(q.defer || s.me.sfq.any (deferred q)) = true := by
  rw [Bool.or_eq_true, List.any_eq_true, hdefer]
  rintro (h | ⟨r, hr, hd⟩)
  · cases h
  · exact hmeets r hr (deferred_iff.1 hd)

theorem translateStore_fault {k : Nat} {x : XFault} {s1 : State}
    (ht : scalarTargets { reqOf s.me with priv := q.priv } .store q.float q.size q.va (stqWithout rest s) = (.error (k, x), s1)) : translateStore s = faulted q s1 x.sub := by
  have hgo := goes_undeferred hdefer hmeets
  rw [translateStore, queueDepth, if_neg (Nat.not_le.2 hroom), forceStore, hq]
  dsimp only
  rw [if_neg hgo, show onMe (fun t => { t with stq := rest }) s = stqWithout rest s from rfl, ht]
  exact recordFault_eq _ _ _

theorem translateStore_performs {ts : List Target} {s1 : State}
    (ht : scalarTargets { reqOf s.me with priv := q.priv } .store q.float q.size q.va (stqWithout rest s) = (.ok ts, s1)) : translateStore s = performStore q ts s1 := by
  have hgo := goes_undeferred hdefer hmeets
  rw [translateStore, queueDepth, if_neg (Nat.not_le.2 hroom), forceStore, hq]
  dsimp only
  rw [if_neg hgo, show onMe (fun t => { t with stq := rest }) s = stqWithout rest s from rfl, ht]

end

/-! ## Targets of a store -/

section
variable {rq : Req} {float : Bool} {n : Nat} {va : Word} {s s1 : State}

/-- The target of a byte of an aligned access. -/
def byteTarget (t : Target) (k : Nat) : Target :=
  match t with
  | .mem pa mt => .mem (pa + k) mt
  | .scratch m off => .scratch m (off + k)
  | .remote e => .remote e

theorem scalarTargets_fault (ha : va.toNat % n = 0) {x : XFault} (ht : translate rq .store (if float then 0 else n) va s = (.error x, s1)) :
    scalarTargets rq .store float n va s = (.error (0, x), s1) := by
  rw [scalarTargets, if_pos ha, ht]

theorem scalarTargets_whole (ha : va.toNat % n = 0) {t : Target} (ht : translate rq .store (if float then 0 else n) va s = (.ok t, s1)) :
    scalarTargets rq .store float n va s = (.ok ((List.range n).map (byteTarget t)), s1) := by
  rw [scalarTargets, if_pos ha, ht]
  cases t <;> rfl

theorem scalarTargets_bytes (ha : va.toNat % n ≠ 0) : scalarTargets rq .store float n va s = translateBytes rq .store va n s := if_neg ha

end

/-! ## What a translated store does -/

section
variable {q : QStore} (hl : q.latches.length = q.size) (hn : 0 < q.size)

/-- The write of a store that the strand at hand sends. -/
def storeWrite (t : State) (wb : Bool) (bs : List ByteWrite) : Write := ⟨t.me.sid, .scalar, t.me.ctx, wb, bs, false⟩

theorem range_cons {n : Nat} (h : 0 < n) : ∃ l, List.range n = 0 :: l := by
  obtain ⟨m, rfl⟩ := Nat.exists_eq_succ_of_ne_zero h.ne'
  exact ⟨_, List.range_succ_eq_map⟩

include hl hn

/-- A store to memory is performed at its core. -/
theorem performPart_mem {s : State} {pa : Nat → Nat} {mt : MemType} (hmt : mt ≠ .ctl) :
    performPart q ((List.range q.size).map fun k => .mem (pa k) mt) s =
      performAtCore s.me.mesh (storeWrite s (mt == .wb) ((List.range q.size).map fun k => storeByte q (.mem (pa k)) k)) s := by
  have hwb : ((List.range q.size).map fun k => Target.mem (pa k) mt).all targetWb = (mt == .wb) := by
    obtain ⟨l, hr⟩ := range_cons hn
    cases mt with
    | wb => simp [targetWb]
    | nc => simp [targetWb, hr]
    | ctl => exact absurd rfl hmt
  have hwrites := storeWrites_map hl fun k => .mem (pa k) mt
  obtain ⟨l, hr⟩ := range_cons hn
  unfold performPart
  rw [hwb, hwrites, hr, List.map_cons]
  cases mt with
  | ctl => exact absurd rfl hmt
  | wb => rfl
  | nc => rfl

/-- A store to a scratch is performed there at once. -/
theorem performPart_scratch {s : State} {m : Nat} {off : Nat → Nat} :
    performPart q ((List.range q.size).map fun k => .scratch m (off k)) s =
      homeWrite s.me.ctx false ((List.range q.size).map fun k => storeByte q (.scratch m (off k)) k) s := by
  have hwb : ((List.range q.size).map fun k => Target.scratch m (off k)).all targetWb = false := by
    obtain ⟨l, hr⟩ := range_cons hn
    simp [targetWb, hr]
  have hwrites := storeWrites_map hl fun k => .scratch m (off k)
  obtain ⟨l, hr⟩ := range_cons hn
  unfold performPart
  rw [hwb, hwrites, hr, List.map_cons]
  refine if_pos ?_
  rw [List.all_eq_true]
  intro b hb
  obtain ⟨k, -, rfl⟩ := List.mem_map.1 hb
  rfl

end

theorem storeWrite_distinct {q : QStore} {f : Nat → Loc} (hf : ∀ j k, f j = f k → j = k) :
    ((List.range q.size).map fun k => storeByte q (f k) k).Pairwise fun x y => x.loc ≠ y.loc := by
  rw [List.pairwise_map]
  exact List.nodup_range.imp fun hne heq => hne (hf _ _ heq)

/-! ## Misaligned stores (R100) -/

section
variable {q : QStore}

/-- The one-byte store of a byte of a store. -/
def singleByte (q : QStore) (k : Nat) : QStore :=
  { q with va := q.va + wd k, size := 1, data := wd (q.data.extractLsb' (8 * k) 8).toNat, latches := (q.latches.drop k).take 1 }

theorem singleBytes_eq (q : QStore) : singleBytes q = (List.range q.size).map (singleByte q) := by
  refine List.ext_getElem? fun k => ?_
  rw [singleBytes, List.getElem?_mapIdx, List.getElem?_map]
  by_cases hk : k < q.size
  · rw [storeBytes_getElem? hk, List.getElem?_range hk]
    rfl
  · rw [List.getElem?_eq_none (by rw [storeBytes_length]; omega), List.getElem?_eq_none (by rw [List.length_range]; omega)]
    rfl

theorem storeByte_single (q : QStore) (l : Loc) (k : Nat) : storeByte (singleByte q k) l 0 = storeByte q l k := by
  have hdata : (wd (q.data.extractLsb' (8 * k) 8).toNat).extractLsb' (8 * 0) 8 = q.data.extractLsb' (8 * k) 8 := by
    apply BitVec.eq_of_toNat_eq
    have hlt := (q.data.extractLsb' (8 * k) 8).isLt
    simp only [BitVec.extractLsb'_toNat, wd, BitVec.toNat_ofNat, Nat.mul_zero, Nat.shiftRight_zero] at hlt ⊢
    omega
  have hlatch : ((q.latches.drop k).take 1).getD 0 none = q.latches.getD k none := by
    simp [List.getD_eq_getElem?_getD]
  rw [storeByte, storeByte]
  exact congrArg₂ (fun v l' => (⟨l, v, 0xFF, l'⟩ : ByteWrite)) hdata hlatch

theorem zip_range_map {α : Type} {n : Nat} (f : Nat → α) {pas : List Nat} (mt : MemType) (h : pas.length = n) :
    ((List.range n).map f).zip (pas.map fun pa => Target.mem pa mt) = (List.range n).map fun k => (f k, Target.mem (pas.getD k 0) mt) := by
  refine List.ext_getElem (by simp [h]) fun k h1 h2 => ?_
  have hk : k < pas.length := by
    rw [List.length_map, List.length_range] at h2
    omega
  simp [hk]

variable (hl : q.latches.length = q.size)
include hl

/-- The access of one byte of a misaligned store to memory. -/
theorem performPart_byte {s : State} {k pa : Nat} {mt : MemType} (hk : k < q.size) (hmt : mt ≠ .ctl) :
    performPart (singleByte q k) [.mem pa mt] s = performAtCore s.me.mesh (storeWrite s (mt == .wb) [storeByte q (.mem pa) k]) s := by
  have hlen : (singleByte q k).latches.length = (singleByte q k).size := by
    rw [singleByte, List.length_take, List.length_drop]
    exact Nat.min_eq_left (by omega)
  have hpart := performPart_mem (q := singleByte q k) (s := s) hlen Nat.one_pos (pa := fun _ => pa) hmt
  rw [← storeByte_single q (.mem pa) k]
  exact hpart

/-- The writes of the bytes of a misaligned store. -/
def sentBytes (q : QStore) (wb : Bool) (pa : Nat → Nat) (ks : List Nat) (s : State) : List Write := ks.map fun k => storeWrite s wb [storeByte q (.mem (pa k)) k]

/-- The bytes of a misaligned store through leaves of one type, performed in order. -/
theorem performBytes {mt : MemType} (hmt : mt ≠ .ctl) (pa : Nat → Nat) {ks : List Nat} (hks : ∀ k ∈ ks, k < q.size) {s : State} (hs : s.me.mesh = s.core.mesh) :
    let t := ks.foldl (fun s k => performPart (singleByte q k) [.mem (pa k) mt] s) s
    t.me = s.me ∧ t.mem = s.mem ∧ t.core.out = s.core.out ++ sentBytes q (mt == .wb) pa ks s ∧
      (mt = .nc → t = { s with core := { s.core with out := t.core.out } }) := by
  induction ks generalizing s with
  | nil => exact ⟨rfl, rfl, (List.append_nil _).symm, fun _ => rfl⟩
  | cons k ks ih =>
    have hbyte := performPart_byte hl (s := s) (pa := pa k) (hks k List.mem_cons_self) hmt
    have hmem : ToMemory (storeWrite s (mt == .wb) [storeByte q (.mem (pa k)) k]) := ⟨_, List.mem_singleton_self _, pa k, rfl⟩
    have hstep : (performPart (singleByte q k) [.mem (pa k) mt] s).me = s.me ∧ (performPart (singleByte q k) [.mem (pa k) mt] s).mem = s.mem ∧
        (performPart (singleByte q k) [.mem (pa k) mt] s).core.out = s.core.out ++ [storeWrite s (mt == .wb) [storeByte q (.mem (pa k)) k]] ∧
        (performPart (singleByte q k) [.mem (pa k) mt] s).core.mesh = s.core.mesh ∧
        (mt = .nc → performPart (singleByte q k) [.mem (pa k) mt] s =
          { s with core := { s.core with out := s.core.out ++ [storeWrite s (mt == .wb) [storeByte q (.mem (pa k)) k]] } }) := by
      rw [hbyte]
      cases mt with
      | ctl => exact absurd rfl hmt
      | nc =>
        rw [performAtCore_uncached hs hmem rfl]
        exact ⟨rfl, rfl, rfl, rfl, fun _ => rfl⟩
      | wb =>
        obtain ⟨hme, hmem, hout, hmesh, -⟩ := performAtCore_cached hs hmem rfl
        exact ⟨hme, hmem, hout, hmesh, nofun⟩
    obtain ⟨hme, hmem, hout, hmesh, hnc⟩ := hstep
    obtain ⟨hme', hmem', hout', hnc'⟩ := ih (fun j hj => hks j (List.mem_cons_of_mem _ hj)) (s := performPart (singleByte q k) [.mem (pa k) mt] s)
      ((congrArg Strand.mesh hme).trans (hs.trans hmesh.symm))
    have hsent : sentBytes q (mt == .wb) pa ks (performPart (singleByte q k) [.mem (pa k) mt] s) = sentBytes q (mt == .wb) pa ks s := by
      simp only [sentBytes, storeWrite, hme]
    refine ⟨hme'.trans hme, hmem'.trans hmem, ?_, fun h => ?_⟩
    · rw [List.foldl_cons, hout', hout, List.append_assoc, hsent]
      rfl
    · rw [List.foldl_cons, hnc' h, hnc h]

omit hl in
/-- A misaligned store whose bytes lead to memory. -/
theorem performStore_bytes {s : State} {pas : List Nat} {mt : MemType} (hmis : q.va.toNat % q.size ≠ 0) (hpas : pas.length = q.size) :
    performStore q (pas.map fun pa => .mem pa mt) s =
      (List.range q.size).foldl (fun s k => performPart (singleByte q k) [.mem (pas.getD k 0) mt] s) s := by
  rw [performStore, if_neg hmis, singleBytes_eq, zip_range_map _ _ hpas, List.foldl_map]

end

end Sys2Proof.Machine
end

section
/-! Stores to scratch and through CTL leaves (O32). -/

namespace Sys2Proof.Machine

set_option Elab.async false

open Sys2Proof.Claims Sys2Proof.Laws

/-! ## Bytes put into a scratch (R80) -/

section
variable {q : QStore} {m off : Nat}

theorem homePut_scratch {s : State} (h : HasCore m s) (k : Nat) : let t := homePut (storeByte q (.scratch m (off + k)) k) s
    t.mem = s.mem ∧ HasCore m t ∧ (coreAt m t).scratch = (coreAt m s).scratch.set (off + k) (q.data.extractLsb' (8 * k) 8) := by
  have hchange := coreAt_of_hasCore h (f := fun c => { c with
    scratch := c.scratch.set (off + k) (merge (c.scratch.get (off + k)) (q.data.extractLsb' (8 * k) 8) 0xFF), dirty := markUnit (scratchUnit (off + k)) c.dirty }) fun _ => rfl
  obtain ⟨hcore, hhas⟩ := hchange
  refine ⟨modCore_mem _ _ _, hhas, (congrArg Core.scratch hcore).trans ?_⟩
  dsimp only
  rw [merge_all]

/-- The bytes of a store put into a scratch: they stand there, and the other bytes stay. -/
theorem homePuts_scratch {ks : List Nat} (hks : ks.Nodup) {s : State} (h : HasCore m s) (hwf : (coreAt m s).scratch.wf = true) :
    let t := (ks.map fun k => storeByte q (.scratch m (off + k)) k).foldl (fun s b => homePut b s) s
    t.mem = s.mem ∧ (∀ a, (∀ k ∈ ks, a ≠ off + k) → (coreAt m t).scratch.get a = (coreAt m s).scratch.get a) ∧
      ∀ k ∈ ks, (coreAt m t).scratch.get (off + k) = q.data.extractLsb' (8 * k) 8 := by
  induction ks generalizing s with
  | nil => exact ⟨rfl, fun _ _ => rfl, nofun⟩
  | cons k ks ih =>
    obtain ⟨hk, hnodup⟩ := List.nodup_cons.1 hks
    obtain ⟨hmem, hhas, hscratch⟩ := homePut_scratch (q := q) (off := off) h k
    obtain ⟨hmem', hother, hat⟩ := ih hnodup hhas (by rw [hscratch]; exact Memory.wf_set _ _ _ hwf)
    have hfirst : (coreAt m (homePut (storeByte q (.scratch m (off + k)) k) s)).scratch.get (off + k) = q.data.extractLsb' (8 * k) 8 := by
      rw [hscratch, Memory.get_set_eq _ _ _ hwf]
    refine ⟨hmem'.trans hmem, fun a ha => ?_, fun j hj => ?_⟩
    · refine (hother a fun j hj => ha j (List.mem_cons_of_mem _ hj)).trans ?_
      rw [hscratch, Memory.get_set_ne _ _ _ _ hwf (ha k List.mem_cons_self)]
    · rcases List.mem_cons.1 hj with rfl | hj
      · exact (hother _ fun i hi e => hk (by rw [Nat.add_left_cancel e]; exact hi)).trans hfirst
      · exact hat j hj

/-- Cores and their lists alike, a core reads alike. -/
theorem coreAt_congr {s t : State} (h1 : t.core = s.core) (h2 : t.cores = s.cores) (m : Nat) : coreAt m t = coreAt m s := by rw [coreAt, coreAt, h1, h2]

theorem hasCore_congr {s t : State} (h1 : t.core = s.core) (h2 : t.cores = s.cores) (m : Nat) : HasCore m t ↔ HasCore m s := by rw [HasCore, HasCore, h1, h2]

/-- A store to a scratch, performed. -/
theorem homeWrite_scratch {s : State} (h : HasCore m s) (hwf : (coreAt m s).scratch.wf = true) (ctx : Nat) (wb : Bool) :
    let t := homeWrite ctx wb ((List.range q.size).map fun k => storeByte q (.scratch m (off + k)) k) s
    t.me = s.me ∧ t.mem = s.mem ∧ t.core.out = s.core.out ∧ (∀ k, k < q.size → (coreAt m t).scratch.get (off + k) = q.data.extractLsb' (8 * k) 8) ∧
      ∀ a, (a < off ∨ off + q.size ≤ a) → (coreAt m t).scratch.get a = (coreAt m s).scratch.get a := by
  intro t
  have hbytes : ∀ x ∈ (List.range q.size).map fun k => storeByte q (.scratch m (off + k)) k, ∃ a, x.loc = .scratch m a := by
    intro x hx
    obtain ⟨k, -, rfl⟩ := List.mem_map.1 hx
    exact ⟨_, rfl⟩
  generalize hu : l2Writes ctx wb (memMasks ((List.range q.size).map fun k => storeByte q (.scratch m (off + k)) k)) s = u
  have honly : OnlyDies s u := hu ▸ l2Writes_only _ _ _ _
  have hsame := coreAt_congr honly.core_eq honly.cores_eq m
  obtain ⟨hmem, hother, hat⟩ := homePuts_scratch (q := q) (off := off) (List.nodup_range (n := q.size)) ((hasCore_congr honly.core_eq honly.cores_eq m).2 h)
    (by rw [hsame]; exact hwf)
  have ht : t = homeBytes wb ((List.range q.size).map fun k => storeByte q (.scratch m (off + k)) k) u := by
    rw [← hu]
    rfl
  have hcore : coreAt m t = coreAt m (((List.range q.size).map fun k => storeByte q (.scratch m (off + k)) k).foldl (fun s b => homePut b s) u) := by
    rw [ht, homeBytes_after]
    rfl
  refine ⟨homeWrite_me _ _ _ _, ?_, homeWrite_field (g := Core.out) (fun _ _ _ => rfl) _ _ _ _, fun k hk => ?_, fun a ha => ?_⟩
  · rw [ht, homeBytes_mem, hmem, honly.mem_eq]
  · rw [hcore]
    exact hat k (List.mem_range.2 hk)
  · rw [hcore, ← hsame]
    exact hother a fun k hk => by
      have := List.mem_range.1 hk
      omega

end

/-- A store to memory through a CTL leaf, performed at its home. -/
theorem homeWrite_bytes {s : State} (hs : s.mem.wf = true) (ctx : Nat) (wb : Bool) (pa n : Nat) (w : Word) : let t := homeWrite ctx wb (memBytes pa (bytesOf n w.toNat)) s
    t.me = s.me ∧ t.core = s.core ∧ (∀ k, k < n → t.mem.get (pa + k) = w.extractLsb' (8 * k) 8) ∧ SameOutside pa n s t := by
  refine ⟨homeWrite_me _ _ _ _, ?_, fun k hk => ?_, fun a ha => homeWrite_other _ _ _ _ hs _ fun b hb e => ?_⟩
  · exact (homeBytes_core fun b hb => (loc_of_memBytes hb).imp fun _ h => h.1).trans (l2Writes_only _ _ _ _).core_eq
  · rw [homeWrite_at _ _ _ _ hs (memBytes_distinct _ _) _ (mem_memBytes (bytesOf_getElem? hk w)) _ rfl, merge_all]
  · obtain ⟨a', ha', h1, h2⟩ := loc_of_memBytes hb
    rw [bytesOf_length] at h2
    rw [ha'] at e
    have := Loc.mem.inj e
    omega

/-- A store to another package is sent there. -/
theorem sendRemote_sends (e : Nat) (q : QStore) (s : State) : ∃ port pkg tctx, let t := sendRemote e q.va (.store (storeBytes q)) (some q) s
    t.me = s.me ∧ t.mem = s.mem ∧ t.remote = s.remote ++ [⟨s.remoteNext, s.me.mesh, s.me.sid, port, pkg, ⟨tctx, q.va, .store (storeBytes q)⟩, none, some q⟩] :=
  ⟨_, _, _, rfl, rfl, rfl⟩

section
variable {s s1 : State} {q : QStore} (hn : 0 < q.size) (ha : q.va.toNat % q.size = 0)
include ha

theorem performStore_aligned (ts : List Target) : performStore q ts s1 = performPart q ts s1 := if_pos ha

include hn

omit ha in
theorem byteTargets_cons (t : Target) : ∃ l, (List.range q.size).map (byteTarget t) = byteTarget t 0 :: l := by
  obtain ⟨l, hr⟩ := range_cons hn
  exact ⟨_, by rw [hr]; rfl⟩

theorem performStore_control {pa : Nat} (h : regionOf pa = .control) : performStore q ((List.range q.size).map (byteTarget (.mem pa .ctl))) s1 = ctlStore pa q.size q.data s1 := by
  obtain ⟨l, hts⟩ := byteTargets_cons hn (.mem pa .ctl)
  rw [performStore_aligned ha, hts]
  exact if_pos h

theorem performStore_device {pa : Nat} (h : regionOf pa ≠ .control) :
    performStore q ((List.range q.size).map (byteTarget (.mem pa .ctl))) s1 = homeWrite s1.me.ctx false (memBytes pa (storeBytes q)) s1 := by
  obtain ⟨l, hts⟩ := byteTargets_cons hn (.mem pa .ctl)
  rw [performStore_aligned ha, hts]
  exact if_neg h

theorem performStore_remote (e : Nat) : performStore q ((List.range q.size).map (byteTarget (.remote e))) s1 = sendRemote e q.va (.store (storeBytes q)) (some q) s1 := by
  obtain ⟨l, hts⟩ := byteTargets_cons hn (.remote e)
  rw [performStore_aligned ha, hts]
  rfl

end

/-! ## The oldest store of the queue, by what its address leads to -/

section
variable {s s1 : State} {q : QStore} {rest : List QStore} (hq : s.me.stq = q :: rest) (hl : q.latches.length = q.size) (hn : 0 < q.size)
  (hroom : s.me.sfq.length < 16) (hdefer : q.defer = false) (hmeets : ∀ r ∈ s.me.sfq, ¬Meets q r)
include hq hroom hdefer hmeets

/-- The access that a store of the queue makes. -/
def storeReq (q : QStore) (s : State) : Req := { reqOf s.me with priv := q.priv }

/-- The translation of an aligned store. -/
def storeTarget (q : QStore) (rest : List QStore) (s : State) : Except XFault Target × State :=
  translate (storeReq q s) .store (if q.float then 0 else q.size) q.va (stqWithout rest s)

section
variable (ha : q.va.toNat % q.size = 0)
include ha

theorem translateStore_alignedFault {x : XFault} (ht : storeTarget q rest s = (.error x, s1)) : translateStore s = faulted q s1 x.sub :=
  translateStore_fault hq hroom hdefer hmeets (scalarTargets_fault ha ht)

theorem translateStore_aligned {t : Target} (ht : storeTarget q rest s = (.ok t, s1)) : translateStore s = performStore q ((List.range q.size).map (byteTarget t)) s1 :=
  translateStore_performs hq hroom hdefer hmeets (scalarTargets_whole ha ht)

include hl hn

theorem translateStore_memory {pa : Nat} {mt : MemType} (hmt : mt ≠ .ctl) (ht : storeTarget q rest s = (.ok (.mem pa mt), s1)) :
    translateStore s = performAtCore s1.me.mesh (storeWrite s1 (mt == .wb) ((List.range q.size).map fun k => storeByte q (.mem (pa + k)) k)) s1 := by
  rw [translateStore_aligned hq hroom hdefer hmeets ha ht, performStore_aligned ha]
  exact performPart_mem hl hn hmt

omit hq hl hroom hdefer hmeets ha in
theorem storeWrite_toMemory (wb : Bool) (pa : Nat) : ToMemory (storeWrite s1 wb ((List.range q.size).map fun k => storeByte q (.mem (pa + k)) k)) :=
  ⟨_, List.mem_map_of_mem (List.mem_range.2 hn), pa + 0, rfl⟩

theorem translateStore_nc {pa : Nat} (ht : storeTarget q rest s = (.ok (.mem pa .nc), s1)) (h1 : s1.wellKept) : translateStore s =
    { s1 with core := { s1.core with out := s1.core.out ++ [storeWrite s1 false ((List.range q.size).map fun k => storeByte q (.mem (pa + k)) k)] } } := by
  rw [translateStore_memory hq hl hn hroom hdefer hmeets ha (by decide) ht]
  exact performAtCore_uncached h1.atHand (storeWrite_toMemory hn _ pa) rfl

theorem translateStore_wb {pa : Nat} (ht : storeTarget q rest s = (.ok (.mem pa .wb), s1)) (h1 : s1.wellKept) :
    AtCore (storeWrite s1 true ((List.range q.size).map fun k => storeByte q (.mem (pa + k)) k)) s1 (translateStore s) := by
  rw [translateStore_memory hq hl hn hroom hdefer hmeets ha (by decide) ht]
  exact performAtCore_atCore h1.atHand (storeWrite_toMemory hn _ pa) rfl (storeWrite_distinct fun j k e => Nat.add_left_cancel (Loc.mem.inj e))

theorem translateStore_scratch {m off : Nat} (ht : storeTarget q rest s = (.ok (.scratch m off), s1)) :
    translateStore s = homeWrite s1.me.ctx false ((List.range q.size).map fun k => storeByte q (.scratch m (off + k)) k) s1 := by
  rw [translateStore_aligned hq hroom hdefer hmeets ha ht, performStore_aligned ha]
  exact performPart_scratch hl hn

end

variable (hmis : q.va.toNat % q.size ≠ 0)
include hmis

theorem translateStore_misalignedFault {k : Nat} {x : XFault} (ht : translateBytes (storeReq q s) .store q.va q.size (stqWithout rest s) = (.error (k, x), s1)) :
    translateStore s = faulted q s1 x.sub :=
  translateStore_fault hq hroom hdefer hmeets ((scalarTargets_bytes hmis).trans ht)

include hl

theorem translateStore_misaligned {pas : List Nat} {mt : MemType} (hmt : mt ≠ .ctl)
    (ht : translateBytes (storeReq q s) .store q.va q.size (stqWithout rest s) = (.ok (pas.map fun pa => .mem pa mt), s1)) (hpas : pas.length = q.size) (h1 : s1.wellKept) :
    let t := translateStore s
    t.me = s1.me ∧ t.mem = s1.mem ∧ t.core.out = s1.core.out ++ sentBytes q (mt == .wb) (fun k => pas.getD k 0) (List.range q.size) s1 ∧
      (mt = .nc → t = { s1 with core := { s1.core with out := t.core.out } }) := by
  rw [translateStore_performs hq hroom hdefer hmeets ((scalarTargets_bytes hmis).trans ht), performStore_bytes hmis hpas]
  exact performBytes hl hmt (fun k => pas.getD k 0) (fun k hk => List.mem_range.1 hk) h1.atHand

end

end Sys2Proof.Machine
end

section
namespace Sys2Proof.Claims

set_option Elab.async false

open Sys2Proof.Machine Sys2Proof.Laws

/-- Settles O32: the oldest store by what its address leads to, a write at its home or its core, and an event of another strand at that strand. -/
theorem writesOnTheirWay : Obligations.WritesOnTheirWay := by
  unfold Obligations.WritesOnTheirWay
  refine ⟨?stores, ?writes, ?events⟩
  case stores =>
    intro s q rest hq hs hl hn
    refine ⟨congrArg _ (atStrand_own hs.atHand (KeepsTurn.translateStore .refl)), translateStore_full, fun hroom => translateStore_deferred hq hroom,
      fun hroom hdefer hmeets => ⟨fun ha => ⟨fun x s1 ht => translateStore_alignedFault hq hroom hdefer hmeets ha ht,
        fun pa s1 ht => translateStore_nc hq hl hn hroom hdefer hmeets ha ht, fun pa s1 ht => translateStore_wb hq hl hn hroom hdefer hmeets ha ht, ?_, ?_, ?_⟩,
        fun hmis => ⟨fun k x s1 ht => translateStore_misalignedFault hq hroom hdefer hmeets hmis ht, ?_, ?_⟩⟩⟩
    · intro m off s1 ht hm hwf
      have hstore := translateStore_scratch hq hl hn hroom hdefer hmeets ha ht
      rw [hstore]
      exact homeWrite_scratch hm hwf _ _
    · intro pa s1 ht
      have hstore := translateStore_aligned hq hroom hdefer hmeets ha ht
      refine ⟨fun hr => hstore.trans (performStore_control hn ha hr), fun hr h1 => ?_⟩
      rw [hstore, performStore_device hn ha hr]
      exact homeWrite_bytes h1.mem _ _ _ _ _
    · intro e s1 ht
      rw [translateStore_aligned hq hroom hdefer hmeets ha ht, performStore_remote hn ha]
      exact sendRemote_sends e q s1
    · intro pas s1 ht hpas h1
      obtain ⟨-, -, hout, hsame⟩ := translateStore_misaligned hq hl hroom hdefer hmeets hmis (by decide) ht hpas h1
      refine (hsame rfl).trans ?_
      rw [hout, sentBytes]
      simp only [List.map_map]
      rfl
    · intro pas s1 ht hpas h1
      obtain ⟨hme, hmem, hout, -⟩ := translateStore_misaligned hq hl hroom hdefer hmeets hmis (by decide) ht hpas h1
      exact ⟨hme, hmem, hout⟩
  case writes =>
    intro s k w hs
    refine ⟨fun hk hfree => ?_, fun hk hheld => atHome_waits hk hheld, fun hk hheld => ?_, fun hk hfree hw hout => ?_, fun hk hfree hwb hw hm => ?_, fun hk hfree hwb hw hm hd => ?_⟩
    · have hgo : ¬HeldBack k w s := fun ⟨x, hx, h1, h2, h3⟩ => by
        rw [hfree x hx h1 h2] at h3
        cases h3
      exact ⟨_, atHome_performs hk hgo, homeWrite_field (g := Core.out) (fun _ _ _ => rfl) _ _ _ _, homeWrite_me _ _ _ _,
        fun a ha => homeWrite_other _ _ _ (outWithout k s) hs.mem a ha, fun hd b hb a ha => homeWrite_at _ _ _ (outWithout k s) hs.mem hd b hb a ha⟩
    · rw [atCore_here hs, performVectorAt_waits hk hheld]
    · have honly : OnlyDies (vwqWithout k s) (countWrites 1 [w] (vwqWithout k s)) := countWrites_only _ _ _
      have hwf : (countWrites 1 [w] (vwqWithout k s)).mem.wf = true := by
        rw [honly.mem_eq]
        exact hs.mem
      refine ⟨_, (atCore_here hs).trans (congrArg _ (performVectorAt_slice hs hk hfree hw hout)), (homeBytes_me _ _ _).trans honly.me_eq, ?_,
        fun a ha => (homeBytes_other _ _ _ hwf a ha).trans ?_, fun hd b hb a ha => (homeBytes_at _ _ _ hwf hd b hb a ha).trans ?_⟩
      · rw [homeBytes_field (g := Core.copies) (fun _ _ _ => rfl), honly.core_eq]
        rfl
      · rw [honly.mem_eq]
        rfl
      · rw [honly.mem_eq]
        rfl
    · rw [atCore_here hs, performVectorAt_core hk hfree hw]
      exact congrArg _ (performAtCore_uncached (s := vwqWithout k s) hs.atHand hm hwb)
    · exact ⟨_, (atCore_here hs).trans (congrArg _ (performVectorAt_core hk hfree hw)), performAtCore_atCore (s := vwqWithout k s) hs.atHand hm hwb hd⟩
  case events =>
    intro s mesh sid i hs hsome _ hi
    have hevent {f : State → State} (hf : KeepsTurn (focus mesh sid s) (f (focus mesh sid s))) (hexec : ∀ u, exec i u = .next (atStrand mesh sid f u)) :
        ∃ t, exec i (focus mesh sid s) = .next t ∧ t.me.mesh = mesh ∧ t.me.sid = sid ∧ exec i s = .next (focus s.me.mesh s.me.sid t) := by
      obtain ⟨hthere, hmesh, hsid, hback⟩ := atStrand_focused hs hsome hf
      exact ⟨f (focus mesh sid s), by rw [hexec, hthere], hmesh, hsid, by rw [hexec, hback]⟩
    rcases hi with rfl | ⟨k, rfl⟩ | ⟨q, n, rfl⟩
    · exact hevent (KeepsTurn.translateStore .refl) fun _ => rfl
    · exact hevent (KeepsTurn.performVectorAt .refl) fun _ => rfl
    · exact hevent (KeepsTurn.refillStep .refl) fun _ => rfl

end Sys2Proof.Claims
end

section
/-! A grant of leave to a strand that stands twice (O57): the strand at hand is granted, and its copy among the strands of the core is read before it. -/

namespace Sys2Proof.Machine

set_option Elab.async false

open Sys2Proof.Claims Sys2Proof.Laws

/-- A strand that asked for leave of one step. -/
def askingStrand : Strand := { Strand.reset 0 0 with leave := .asked 1 0 false }

/-- The strand at hand asks for leave, and a strand like it stands among those of its core. -/
def twinState : State := { State.reset with me := askingStrand, core := Core.reset 0 [askingStrand], cores := [] }

/-- The request of the strand. -/
def twinRequest : LeaveReq := ⟨0, 0, 0, 0, 1, 0⟩

/-- The counterexample has the form that every run keeps: nothing is wrong with it but that two strands of its core have one number. -/
theorem twinState_kept : twinState.wellKept :=
  ⟨rfl, rfl, rfl, fun t ht => by rw [List.mem_singleton.1 ht]; rfl, fun _ hc => absurd hc List.not_mem_nil⟩

theorem insert_asking (x : Strand) (h : x.sid = 0) : insertStrand x [askingStrand] = [askingStrand, x] := by
  rw [insertStrand, h]
  rfl

theorem twinState_strands : strandsOf 0 twinState = [askingStrand, askingStrand] := (if_pos rfl).trans (insert_asking askingStrand rfl)

theorem find_asking (x : Strand) : [askingStrand, x].find? (fun t => t.sid == 0) = some askingStrand := List.find?_cons_of_pos (beq_iff_eq.2 rfl)

theorem twinState_strand : strandAt 0 0 twinState = some askingStrand := by rw [strandAt, twinState_strands, find_asking]

theorem grantLeave_core (i : Nat) (r : LeaveReq) (s : State) :
    (grantLeave i r s).core = (modStrand r.mesh r.sid (fun t => { t with leave := leaveGiven t.leave }) s).core := rfl

theorem grantLeave_me (i : Nat) (r : LeaveReq) (s : State) :
    (grantLeave i r s).me = (modStrand r.mesh r.sid (fun t => { t with leave := leaveGiven t.leave }) s).me := rfl

theorem twinState_modified : modStrand 0 0 (fun t => { t with leave := leaveGiven t.leave }) twinState = { twinState with me := { askingStrand with leave := .granted false } } :=
  if_pos ⟨rfl, rfl⟩

/-- The grant changes the strand at hand, and the core still reads the strand that asks. -/
theorem twinState_granted : strandAt 0 0 (grantLeave 0 twinRequest twinState) = some askingStrand := by
  have hcore : (grantLeave 0 twinRequest twinState).core = Core.reset 0 [askingStrand] := by
    rw [grantLeave_core, twinRequest, twinState_modified]
    rfl
  have hme : (grantLeave 0 twinRequest twinState).me = { askingStrand with leave := .granted false } := by
    rw [grantLeave_me, twinRequest, twinState_modified]
  rw [strandAt, strandsOf, hcore, hme, if_pos (show (Core.reset 0 [askingStrand]).mesh = 0 from rfl)]
  exact (congrArg _ (insert_asking _ rfl)).trans (find_asking _)

end Sys2Proof.Machine
end

section
namespace Sys2Proof.Claims

set_option Elab.async false

open Sys2Proof.Machine Sys2Proof.Laws

/-- Refutes O57: what a grant of leave does to the strand that asked (its last clause, R333). Every strand of the core with the number of the strand that asked is to be that strand, which lets an equal one stand
beside the strand at hand; the model grants the one at hand, and reading the strand by its number finds the other, which still asks. -/
theorem not_placementAndLeave : ¬Obligations.PlacementAndLeave := by
  unfold Obligations.PlacementAndLeave
  rintro ⟨-, -, -, -, -, hgrant⟩
  obtain ⟨-, -, hleave⟩ := hgrant twinState 0 twinRequest
  have hunique : ∀ z ∈ strandsOf 0 twinState, z.sid = 0 → z = askingStrand := by
    intro z hz _
    rw [twinState_strands] at hz
    simpa using hz
  have hgranted := hleave (.inl rfl) askingStrand 1 0 false twinState_strand hunique rfl
  have hsame := congrArg (Option.map Strand.leave) (twinState_granted.symm.trans hgranted)
  cases hsame

end Sys2Proof.Claims
end

section
/-! The strand at hand with nothing on its way within the package (O30, O33, O34, O36, O37): what releases, deliveries and reads do then. -/

namespace Sys2Proof.Machine

open Sys2Proof.Claims Sys2Proof.Laws

/-- Nothing that the strand at hand or its core has written is on its way within the package. -/
structure Still (s : State) : Prop where
  mesh : s.core.mesh = s.me.mesh
  stq : s.me.stq = []
  vwq : s.me.vwq = []
  sfq : s.me.sfq = []
  out : s.core.out = []

section
variable {s : State}

theorem still_of_settled (h : Claims.Settled s) : Still s := ⟨settled_mesh s h, h.stq, h.vwq, h.sfq, h.out⟩

theorem releaseWrites_still (h : Still s) (a b : Bool) (p : Option Word → Bool) (c : Scope) : releaseWrites a b p c s = s := by
  have hqueue : (if a then drainQueue s else s) = s := by rw [drainQueue_quiet s h.stq, ite_self]
  have hvector : (if b then drainVector (covered p) s else s) = s := by rw [drainVector_quiet _ s h.vwq, ite_self]
  simp only [releaseWrites, hqueue, hvector]
  rw [drainOut_quiet _ _ _ h.mesh h.out, ite_self]

/-- A release then only waits for what is under way to other packages, at SYS (R105, R120). -/
theorem fenceRelease_still (h : Still s) (a b : Bool) {c : Scope} (hc : c < 5 ∨ remoteBusy s = false) : fenceRelease a b c s = .ok () s := by
  have hwait : (a && (!s.me.stq.isEmpty || (decide (5 ≤ c) && remoteBusy s))) = false := by
    rcases hc with hc | hc
    · simp [h.stq, Nat.not_le.2 hc]
    · simp [h.stq, hc]
  simp only [fenceRelease, releaseAt, releaseWrites_still h, hwait]
  rfl

theorem deliverKnown_still (h : Still s) : deliverKnown s = .ok () s := by simp [deliverKnown, drainQueue_quiet s h.stq, storeTrapDue, h.sfq, h.stq]

theorem deliverStores_still (h : Still s) : deliverStores s = if storesAway s then .stop s else .ok () s := by rw [deliverStores, deliverKnown_still h, Res.bind]

end

end Sys2Proof.Machine
end

section
/-! Scalar loads (O30): what a load brings from memory, and what ends it (R103, R292, R294, R335). -/

namespace Sys2Proof.Machine

open Sys2Proof.Claims Sys2Proof.Laws

/-! ## The two paths read alike when nothing is on its way -/

theorem still_modCore {s t : State} (h : Still s) (ht : OnlyDies s t) {m : Nat} {f : Core → Core} (hf : ∀ c, (f c).mesh = c.mesh ∧ (f c).out = c.out) : Still (modCore m f t) := by
  have hme : (modCore m f t).me = s.me := (modCore_me _ _ _).trans ht.me_eq
  have hmesh : (modCore m f t).core.mesh = s.core.mesh := (modCore_field (g := Core.mesh) (fun c => (hf c).1) t).trans (congrArg Core.mesh ht.core_eq)
  have hout : (modCore m f t).core.out = s.core.out := (modCore_field (g := Core.out) (fun c => (hf c).2) t).trans (congrArg Core.out ht.core_eq)
  exact ⟨by rw [hmesh, hme, h.mesh], hme ▸ h.stq, hme ▸ h.vwq, hme ▸ h.sfq, hout.trans h.out⟩

theorem still_fillCopy {s : State} (h : Still s) (mesh ctx vline line : Nat) : Still (fillCopy mesh ctx vline line s) := by
  unfold fillCopy
  dsimp only
  split
  · exact still_modCore h (joinRead_only _ _) fun c => by rw [useCopy_same]; exact ⟨rfl, rfl⟩
  · exact still_modCore h (l2Access_only _ _ _ _ _ _ _) fun _ => ⟨rfl, rfl⟩

theorem settle_still {s : State} (h : Still s) (path : Path) (ls : List Loc) : settle path ls s = s := by
  cases path
  · exact drainOut_quiet _ _ _ h.mesh h.out
  · simp only [settle, drainVector_quiet _ s h.vwq]
    exact drainOut_quiet _ _ _ h.mesh h.out

theorem readByte_paths {s : State} (h : Still s) (va : Nat) (t : Target) : readByte .scalar va t s = readByte .vector va t s ∧ Still (readByte .scalar va t s).2 := by
  unfold readByte
  split
  next pa =>
    have hv := still_fillCopy h s.me.mesh s.me.ctx (va / 64) (pa / 64)
    simp only [hv.stq, hv.vwq, List.isEmpty_nil, if_true]
    exact ⟨rfl, hv⟩
  next =>
    simp only [settle_still h, h.stq, List.isEmpty_nil, if_true]
    exact ⟨trivial, h⟩

theorem readBytes_paths (ts : List Target) {s : State} (h : Still s) (va : Nat) : readBytes .scalar va ts s = readBytes .vector va ts s := by
  induction ts generalizing s va with
  | nil => rfl
  | cons t ts ih =>
    obtain ⟨hbyte, hnext⟩ := readByte_paths h va t
    rw [hbyte] at hnext
    simp only [readBytes, hbyte, ih hnext]

/-! ## What a load brings -/

theorem scalarTargets_mem {rq : Req} {acc : Access} {float : Bool} {n pa : Nat} {va : Word} {m : MemType} {s s1 : State} (ha : va.toNat % n = 0)
    (ht : translate rq acc (if float then 0 else n) va s = (.ok (.mem pa m), s1)) : scalarTargets rq acc float n va s = (.ok (memTargets pa n m), s1) := by
  rw [scalarTargets, if_pos ha, ht]
  rfl

theorem memTargets_cons {n : Nat} (h : 0 < n) (pa : Nat) (m : MemType) : ∃ ts, memTargets pa n m = .mem pa m :: ts := by
  obtain ⟨l, hl⟩ := range_cons h
  exact ⟨_, congrArg (List.map fun k => Target.mem (pa + k) m) hl⟩

section
variable {n pa : Nat} {m : MemType} {s : State} (hn : 0 < n) (hm : m ≠ .ctl)
include hn hm

theorem ctlHeld_mem : ctlHeld (memTargets pa n m) s = false := by
  obtain ⟨ts, hts⟩ := memTargets_cons hn pa m
  rw [hts]
  cases m
  case ctl => exact absurd rfl hm
  all_goals rfl

theorem scalarLoad_mem (hq : s.me.stq = []) (va : Nat) : scalarLoad n va (memTargets pa n m) s =
    (wd (natOf (readBytes .scalar va (memTargets pa n m) (countNc s.me.ctx (memTargets pa n m) s)).1),
      (readBytes .scalar va (memTargets pa n m) (countNc s.me.ctx (memTargets pa n m) s)).2) := by
  have hqueue : (if (memTargets pa n m).all targetWb then s else drainQueue s) = s := by rw [drainQueue_quiet s hq, ite_self]
  obtain ⟨ts, hts⟩ := memTargets_cons hn pa m
  unfold scalarLoad
  rw [hqueue]
  split
  next hctl =>
    rw [hts] at hctl
    cases hctl
    exact absurd rfl hm
  next => rfl

end

/-- An aligned load from memory brings its bytes, and leaves the strand and memory as they are. -/
theorem scalarLoad_settled {n pa : Nat} {va : Word} {m : MemType} {s : State} (hs : Claims.Settled s) (hn : n = 1 ∨ n = 2 ∨ n = 4 ∨ n = 8) (ha : va.toNat % n = 0)
    (hp : pa % 2 ^ 14 = va.toNat % 2 ^ 14) (hm : m ≠ .ctl) (hu : Uncopied m pa s) :
    ∃ t, scalarLoad n va.toNat (memTargets pa n m) s = (BitVec.ofNat 64 (wordAt s pa n), t) ∧ t.me = s.me ∧ t.mem = s.mem := by
  obtain ⟨t, hread, hmem, hme⟩ := readVector_settled (n := n) (va := va) hs hm hu fun k => aligned_oneLine hn ha hp
  have hstill : Still (countNc s.me.ctx (memTargets pa n m) s) := still_of_settled (onlyDies_settled (l2Reads_only _ _ _ _) hs)
  refine ⟨t, ?_, hme, hmem⟩
  rw [scalarLoad_mem (by omega) hm hs.stq, readBytes_paths _ hstill]
  rw [readVector] at hread
  rw [hread]
  rfl

section
variable {float : Bool} {n : Nat} {va : Word} {s s2 : State} (ha : va.toNat % n = 0)
include ha

theorem loadValue_fault {x : XFault} (ht : translate (reqOf s.me) .load (if float then 0 else n) va s = (.error x, s2)) : loadValue float n va s = .stop (xlate .load va x s2) := by
  have htargets : scalarTargets (reqOf s.me) .load float n va s = (.error (0, x), s2) := by rw [scalarTargets, if_pos ha, ht]
  rw [loadValue, htargets]
  exact congrArg (fun va => Res.stop (xlate .load va x s2)) (BitVec.add_zero va)

variable {pa : Nat} {m : MemType} (ht : translate (reqOf s.me) .load (if float then 0 else n) va s = (.ok (.mem pa m), s2))
include ht

theorem loadValue_mem : loadValue float n va s = (goodData va (memLocs pa n) s2).bind fun _ s =>
    if ctlHeld (memTargets pa n m) s then .stop (drainQueue s) else .ok (scalarLoad n va.toNat (memTargets pa n m) s).1 (scalarLoad n va.toNat (memTargets pa n m) s).2 := by
  rw [loadValue, scalarTargets_mem ha ht]
  dsimp only
  rw [memTargets_locs]

theorem loadValue_bad {p : Nat} (hp : badAt (memLocs pa n) s2 = some p) : loadValue float n va s = .stop (trapHere (memoryTrap va p) s2) := by
  rw [loadValue_mem ha ht, goodData, hp]
  rfl

theorem loadValue_good (hn : n = 1 ∨ n = 2 ∨ n = 4 ∨ n = 8) (hm : m ≠ .ctl) (hs : Claims.Settled s2) (hu : Uncopied m pa s2) (hp : badAt (memLocs pa n) s2 = none) :
    ∃ t, loadValue float n va s = .ok (BitVec.ofNat 64 (wordAt s2 pa n)) t ∧ t.me = s2.me ∧ t.mem = s2.mem := by
  have hpage : pa % 2 ^ 14 = va.toNat % 2 ^ 14 := translate_keepsPage pa m (congrArg Prod.fst ht)
  obtain ⟨t, hload, hme, hmem⟩ := scalarLoad_settled hs hn ha hpage hm hu
  refine ⟨t, ?_, hme, hmem⟩
  rw [loadValue_mem ha ht, goodData, hp]
  dsimp only [Res.bind]
  rw [ctlHeld_mem (by omega) hm, hload]
  rfl

end

/-! ## The instructions (R294) -/

theorem sx_low (w : Word) (n : Nat) (hn : 0 < n) : sx w.toNat n = (w.extractLsb' 0 n).signExtend 64 := by
  have hlow : signExtend w.toNat n = signExtend (w.extractLsb' 0 n).toNat n := by simp [signExtend]
  rw [sx, hlow, signExtend_toInt _ hn, BitVec.signExtend]

theorem size_of_load {i : Instr} {d a : GReg} {k : BitVec 14} {n : Nat} {f : Word → Word} (h : loadOf i = some (d, a, k, n, f)) : n = 1 ∨ n = 2 ∨ n = 4 ∨ n = 8 := by
  unfold loadOf at h
  split at h
  case h_8 => cases h
  all_goals
    cases h
    decide

theorem exec_load {i : Instr} {d a : GReg} {k : BitVec 14} {n : Nat} {f : Word → Word} (h : loadOf i = some (d, a, k, n, f)) (s : State) : exec i s = loadG n f d a k s := by
  unfold loadOf at h
  split at h
  case h_1 =>
    cases h
    exact congrArg (fun f => loadG 1 f d a k s) (funext fun w => sx_low w 8 (by decide))
  case h_3 =>
    cases h
    exact congrArg (fun f => loadG 2 f d a k s) (funext fun w => sx_low w 16 (by decide))
  case h_5 =>
    cases h
    exact congrArg (fun f => loadG 4 f d a k s) (funext fun w => sx_low w 32 (by decide))
  case h_8 => cases h
  all_goals
    cases h
    rfl

theorem formAddr_ok {a : GReg} {k : BitVec 14} {w : Word} {s s1 : State} (h : immValue k s = .ok w s1) : formAddr a k s = .ok (gR a s1 + w) s1 := by
  rw [formAddr, h, Res.bind]

section
variable {a : GReg} {k : BitVec 14} {w x : Word} {s s1 s2 : State} (h : immValue k s = .ok w s1)
include h

theorem loadG_ok {n : Nat} {f : Word → Word} {d : GReg} (hx : loadValue false n (gR a s1 + w) s1 = .ok x s2) : loadG n f d a k s = .next (advance (setG d (f x) s2)) := by
  rw [loadG, formAddr_ok h, Res.bind, hx]
  rfl

theorem loadG_stop {n : Nat} {f : Word → Word} {d : GReg} (hx : loadValue false n (gR a s1 + w) s1 = .stop s2) : loadG n f d a k s = .next s2 := by
  rw [loadG, formAddr_ok h, Res.bind, hx]
  rfl

theorem execLdF_ok {d : FReg} (hx : loadValue true 4 (gR a s1 + w) s1 = .ok x s2) : exec (.ldF d a k) s = .next (advance (setF d (x.setWidth 32) s2)) := by
  have hvalue : BitVec.ofNat 32 x.toNat = x.setWidth 32 := BitVec.ofNat_toNat 32 x
  dsimp only [exec, execLdF]
  rw [formAddr_ok h, Res.bind, hx, ← hvalue]
  rfl

theorem execLdF_stop {d : FReg} (hx : loadValue true 4 (gR a s1 + w) s1 = .stop s2) : exec (.ldF d a k) s = .next s2 := by
  dsimp only [exec, execLdF]
  rw [formAddr_ok h, Res.bind, hx]
  rfl

end

end Sys2Proof.Machine

namespace Sys2Proof.Claims

open Sys2Proof.Machine

/-- Settles O30: an aligned load from memory reads one line, each byte of which is that of memory. -/
theorem scalarLoads : Obligations.ScalarLoads := by
  unfold Obligations.ScalarLoads
  intro s s1 a k w hw va
  refine ⟨fun i d n f hi => ?_, fun d => ⟨fun ha pa m s2 ht hm hs hu hgood => ?_, fun x s2 => execLdF_ok hw, fun s2 => execLdF_stop hw⟩⟩
  · rw [exec_load hi]
    refine ⟨fun ha pa m s2 ht hm hs hu => ⟨fun p hp => loadG_stop hw (loadValue_bad (float := false) ha ht hp), fun hgood => ?_⟩, fun ha x s2 ht => loadG_stop hw (loadValue_fault (float := false) ha ht),
      fun x s2 => loadG_ok hw, fun s2 => loadG_stop hw⟩
    obtain ⟨t, hload, hme, hmem⟩ := loadValue_good (float := false) ha ht (size_of_load hi) hm hs hu hgood
    exact ⟨t, loadG_ok hw hload, hme, hmem⟩
  · obtain ⟨t, hload, hme, hmem⟩ := loadValue_good (float := true) ha ht (by decide) hm hs hu hgood
    have hvalue : (BitVec.ofNat 64 (wordAt s2 pa 4)).setWidth 32 = BitVec.ofNat 32 (wordAt s2 pa 4) := BitVec.setWidth_ofNat_of_le (by decide) _
    exact ⟨t, hvalue ▸ execLdF_ok hw hload, hme, hmem⟩

end Sys2Proof.Claims
end

section
/-! Scalar stores (O31): a store enters the store queue, for room in which it waits (R113, R292, R334, R341). -/

namespace Sys2Proof.Machine

open Sys2Proof.Claims

theorem exec_store {i : Instr} {s : State} {data : Word} {n : Nat} {a : GReg} {k : BitVec 14} {fl : Bool} (h : storeOf s i = some (data, n, a, k, fl)) :
    exec i s = storeWord fl n data a k s := by
  unfold storeOf at h
  split at h
  case h_5 d a k =>
    cases h
    exact congrArg (fun data => storeWord true 4 data a k s) (BitVec.ofNat_toNat 64 s.me.f[d])
  case h_6 => cases h
  all_goals
    cases h
    rfl

/-- The entry that a committed store makes in the queue. -/
def queuedStore (fl : Bool) (n : Nat) (data va : Word) (t : State) : QStore :=
  ⟨va, n, data, t.me.pc, t.me.priv, (List.range n).map fun j => latchFor t.me (va + BitVec.ofNat 64 j) t, fl, inHandler t.me, false⟩

section
variable {fl : Bool} {n : Nat} {data w : Word} {a : GReg} {k : BitVec 14} {s s1 : State} (h : immValue k s = .ok w s1)
include h

theorem storeWord_queues (hroom : (storeRoom s1).me.stq.length < 16) :
    storeWord fl n data a k s = .next (advance (enqueueStore (queuedStore fl n data (gR a s1 + w) (storeRoom s1)) (storeRoom s1))) := by
  have hlt : ¬queueDepth ≤ (storeRoom s1).me.stq.length := Nat.not_le.2 hroom
  rw [storeWord, formAddr_ok h, Res.bind]
  dsimp only
  rw [if_neg hlt]
  rfl

theorem storeWord_waits (hfull : 16 ≤ (storeRoom s1).me.stq.length) : storeWord fl n data a k s = .next (storeRoom s1) := by
  have hle : queueDepth ≤ (storeRoom s1).me.stq.length := hfull
  rw [storeWord, formAddr_ok h, Res.bind]
  dsimp only
  rw [if_pos hle]
  rfl

end

theorem storeRoom_free {s : State} (h : s.me.stq.length < 16) : storeRoom s = s := if_neg (Nat.not_le.2 h)
theorem storeRoom_full {s : State} (h : 16 ≤ s.me.stq.length) : storeRoom s = translateStore s := if_pos h

end Sys2Proof.Machine

namespace Sys2Proof.Claims

open Sys2Proof.Machine

/-- Settles O31: the room that is made in a full queue decides whether the store enters it. -/
theorem scalarStores : Obligations.ScalarStores := by
  unfold Obligations.ScalarStores
  intro i data n a k fl s s1 w hi hw
  rw [exec_store hi]
  refine ⟨fun h => ?_, fun hfull hroom => ?_, fun hfull hstill => ?_⟩
  · have hsame := storeRoom_free h
    rw [storeWord_queues hw (by rwa [hsame]), hsame]
    rfl
  · have hsame := storeRoom_full hfull
    rw [storeWord_queues hw (by rwa [hsame]), hsame]
    rfl
  · have hsame := storeRoom_full hfull
    rw [storeWord_waits hw (by rwa [hsame]), hsame]

end Sys2Proof.Claims
end

section
/-! Fences, drains, shadow requests and barriers (O36): what they do when nothing but messages to other packages is on its way, and when a record waits. -/

namespace Sys2Proof.Machine

open Sys2Proof.Claims Sys2Proof.Laws

/-! ## A record that waits (R293, R336) -/

section
variable {s : State} (hq : s.me.stq = []) (hr : s.me.sfq ≠ []) (hh : inHandler s.me = false)
include hq hr hh

theorem deliverKnown_record : deliverKnown s = .stop (storeTrap s) := by simp [deliverKnown, drainQueue_quiet s hq, storeTrapDue, hr, hh]

theorem deliverStores_record : deliverStores s = .stop (storeTrap s) := by rw [deliverStores, deliverKnown_record hq hr hh, Res.bind]

theorem exec_record {i : Instr} (hi : i = .drainst ∨ i = .bar ∨ i = .pfenceDie ∨ i = .pfenceCore ∨ ∃ t c, i = .fence t c) : exec i s = .next (storeTrap s) := by
  have hstop := deliverStores_record hq hr hh
  rcases hi with rfl | rfl | rfl | rfl | ⟨t, c, rfl⟩
  case inr.inr.inr.inr =>
    dsimp only [exec, execFence]
    rw [hstop, deliverKnown_record hq hr hh, ite_self]
    rfl
  all_goals
    dsimp only [exec, execDrainst, execBar, execPfenceDie, execPfenceCore]
    rw [hstop]
    rfl

end

/-! ## FENCE, DRAINST (R114, R117, R120) -/

theorem execFence_passes {s : State} (h : Still s) (t : Fin 5) {c : BitVec 3} (hc : c.toNat < 5 ∨ s.remote = []) :
    exec (.fence t c) s = .next (advance (acquireCopies unboundOnly c.toNat s)) := by
  have hdeliver : (if 5 ≤ c.toNat then deliverStores s else deliverKnown s) = .ok () s := by
    rcases hc with hc | hc
    · rw [if_neg (Nat.not_le.2 hc), deliverKnown_still h]
    · rw [deliverStores_still h, deliverKnown_still h, storesAway, hc, List.any_nil, if_neg Bool.false_ne_true, ite_self]
  have hbusy : c.toNat < 5 ∨ remoteBusy s = false := hc.imp_right fun hc => by rw [remoteBusy, hc, List.any_nil]
  dsimp only [exec, execFence]
  rw [hdeliver, Res.bind, fenceRelease_still h _ _ hbusy]
  rfl

theorem execFence_waits {s : State} (h : Still s) (t : Fin 5) {c : BitVec 3} (hc : 5 ≤ c.toNat) (haway : storesAway s = true) : exec (.fence t c) s = .next s := by
  dsimp only [exec, execFence]
  rw [if_pos hc, deliverStores_still h, if_pos haway]
  rfl

theorem execDrainst_settled {s : State} (h : Claims.Settled s) : exec .drainst s = .next (advance s) := by
  dsimp only [exec, execDrainst]
  rw [deliverStores_quiet s h, Res.bind, drainAll_quiet s h]
  rfl

/-! ## PFENCE (R155, R156) -/

theorem persistReached_iff (v : Vector Nat 4) (s : State) : persistReached v s = true ↔ ∀ d : Fin 4, v[d] ≤ s.dies[d].persistDone := by
  simp only [persistReached, List.all_eq_true, List.mem_range, dieAt]
  refine ⟨fun h d => ?_, fun h d _ => decide_eq_true (h (fin 4 (by decide) d))⟩
  have hd : fin 4 (by decide) d.1 = d := Fin.ext (Nat.mod_eq_of_lt d.2)
  simpa only [hd, decide_eq_true_eq] using h d.1 d.2

theorem persistTargets_get (s : State) (d : Fin 4) : (persistTargets s)[d] = s.dies[d].persistDone + s.dies[d].persist.length := by
  simp [persistTargets]

theorem persistReached_targets (s : State) : persistReached (persistTargets s) s = true ↔ ∀ d : Fin 4, s.dies[d].persist = [] := by
  rw [persistReached_iff]
  refine forall_congr' fun d => ?_
  rw [persistTargets_get, ← List.length_eq_zero_iff]
  omega

section
variable {s : State} (h : Claims.Settled s)
include h

theorem execPfenceDie_begins (hw : s.me.pwait = none) : exec .pfenceDie s =
    .next (if persistReached (persistTargets s) s then advance s else { s with me := { s.me with pwait := some (persistTargets s) } }) := by
  dsimp only [exec, execPfenceDie]
  rw [deliverStores_quiet s h, Res.bind]
  rw [hw]
  dsimp only
  rw [performAll_quiet s h]
  split <;> rfl

theorem execPfenceDie_goesOn {v : Vector Nat 4} (hw : s.me.pwait = some v) :
    exec .pfenceDie s = .next (if persistReached v s then advance { s with me := { s.me with pwait := none } } else s) := by
  dsimp only [exec, execPfenceDie]
  rw [deliverStores_quiet s h, Res.bind]
  rw [hw]
  dsimp only
  split <;> rfl

theorem execPfenceCore_settled : exec .pfenceCore s = .next { advance s with core := { s.core with shRequest := true, shWaiters := s.me.sid :: s.core.shWaiters } } := by
  dsimp only [exec, execPfenceCore]
  rw [deliverStores_quiet s h]
  rfl

end

/-! ## FENCE.I (R225) -/

/-- What FENCE.I discards of the strand and its core, and the next instruction. -/
def refetching (s : State) : State := advance { s with me := { s.me with loopBuf := [], patch := [] }, core := { s.core with icopies := [] } }

theorem execFenceI_settled {s : State} (h : Claims.Settled s) : exec .fenceI s = .next (dropNextLine (refetching s)) := by
  dsimp only [exec, execFenceI]
  rw [drainAll_quiet s h]
  rfl

/-- A core without its copies of a line. -/
def withoutLine (line : Nat) (c : Core) : Core := { c with copies := c.copies.filter fun x => x.line != line }

theorem dropNextLine_same (s : State) : dropNextLine s = s ∨ ∃ m line, dropNextLine s = modCore m (withoutLine line) s := by
  unfold dropNextLine
  split
  · exact .inr ⟨_, _, rfl⟩
  · exact .inl rfl

theorem dropNextLine_rest (s : State) : (dropNextLine s).me = s.me ∧ (dropNextLine s).mem = s.mem ∧ (dropNextLine s).core.icopies = s.core.icopies := by
  rcases dropNextLine_same s with h | ⟨m, line, h⟩
  · rw [h]
    exact ⟨rfl, rfl, rfl⟩
  · rw [h]
    exact ⟨modCore_me _ _ _, modCore_mem _ _ _, modCore_field (g := Core.icopies) (f := withoutLine line) (fun _ => rfl) s⟩

theorem copyOf_withoutLine (mesh line : Nat) (s : State) : copyOf mesh line (modCore (copyHolder mesh line s) (withoutLine line) s) = none := by
  have hholder : copyHolder mesh line (modCore (copyHolder mesh line s) (withoutLine line) s) = copyHolder mesh line s :=
    copyHolder_congr (coreAt_modCore_field (g := Core.fused) (f := withoutLine line) (fun _ => rfl) (fun _ => rfl) s) line
  rw [copyOf, hholder, List.find?_eq_none]
  rcases coreAt_modCore_or (m := copyHolder mesh line s) (f := withoutLine line) (fun _ => rfl) (s := s) with h | ⟨-, h⟩
  · rw [h]
    intro c hc
    simpa using (List.mem_filter.1 hc).2
  · rw [h]
    exact nofun

theorem copyOf_dropNextLine {s v : State} {pa : Nat} (h : translate (reqOf s.me) .fetch 4 s.me.pc s = (.ok (.mem pa .wb), v)) :
    copyOf s.me.mesh (pa / 64) (dropNextLine s) = none := by
  have hdrop : dropNextLine s = modCore (copyHolder s.me.mesh (pa / 64) s) (withoutLine (pa / 64)) s := by
    rw [dropNextLine, h]
    rfl
  rw [hdrop, copyOf_withoutLine]

/-! ## BAR (R117, R160, R301) -/

theorem passBarrier_eq (scope : Scope) (t : State) : passBarrier scope t =
    let u := acquireCopies unboundOnly scope t
    advance { u with me := { u.me with epoch := u.me.epoch + 1, arrived := false } } := rfl

theorem hasArrived_iff {k : Nat} {t : Strand} : hasArrived k t = true ↔ t.life = .ended ∨ k < t.epoch ∨ (t.epoch = k ∧ t.arrived = true) := by
  simp only [hasArrived, Bool.or_eq_true, Bool.and_eq_true, beq_iff_eq, decide_eq_true_eq, or_assoc]

theorem not_hasArrived_iff {k : Nat} {t : Strand} : ¬hasArrived k t = true ↔ t.life ≠ .ended ∧ t.epoch ≤ k ∧ (t.epoch = k → t.arrived = false) := by
  rw [hasArrived_iff, not_or, not_or, Nat.not_lt, not_and, Bool.not_eq_true]

section
variable {s : State} (h : Claims.Settled s)
include h

theorem execBar_noLaunch (hl : launchAt s.me.launch s = none) : exec .bar s = .next (passBarrier 1 s) := by
  dsimp only [exec, execBar]
  rw [deliverStores_quiet s h, Res.bind]
  rw [hl]
  dsimp only
  rw [fenceRelease_quiet _ _ _ s h]
  rfl

variable {l : Launch} (hl : launchAt s.me.launch s = some l)
include hl

theorem execBar_completed (hk : s.me.epoch < epochsDone l (wgOf l.record s.me.mesh)) : exec .bar s = .next (passBarrier (wgScope l.record (wgOf l.record s.me.mesh)) s) := by
  dsimp only [exec, execBar]
  rw [deliverStores_quiet s h, Res.bind]
  rw [hl]
  dsimp only
  rw [fenceRelease_quiet _ _ _ s h, Res.bind]
  rw [if_pos hk]
  rfl

/-- The strand counted as arrived. -/
def arrivedAt (s : State) : State := { s with me := { s.me with arrived := true } }

/-- The barrier of a work group completed once more. -/
def epochDone (l : Launch) (wg k : Nat) (s : State) : State := modLaunch l.id (fun x => { x with epochs := (wg, k + 1) :: x.epochs.filter fun e => e.1 != wg }) s

variable (hk : epochsDone l (wgOf l.record s.me.mesh) ≤ s.me.epoch)
include hk

theorem execBar_arrives : exec .bar s = (if (wgMembers l (wgOf l.record s.me.mesh) (arrivedAt s)).all (hasArrived s.me.epoch) = true then
    .ok () (passBarrier (wgScope l.record (wgOf l.record s.me.mesh)) (epochDone l (wgOf l.record s.me.mesh) s.me.epoch (arrivedAt s)))
    else .stop (arrivedAt s) : Res Unit).out := by
  dsimp only [exec, execBar]
  rw [deliverStores_quiet s h, Res.bind]
  rw [hl]
  dsimp only
  rw [fenceRelease_quiet _ _ _ s h, Res.bind]
  rw [if_neg (Nat.not_lt.2 hk)]
  rfl

theorem execBar_last (hall : ∀ t ∈ wgMembers l (wgOf l.record s.me.mesh) (arrivedAt s), t.life = .ended ∨ s.me.epoch < t.epoch ∨ (t.epoch = s.me.epoch ∧ t.arrived = true)) :
    exec .bar s = .next (passBarrier (wgScope l.record (wgOf l.record s.me.mesh)) (epochDone l (wgOf l.record s.me.mesh) s.me.epoch (arrivedAt s))) := by
  rw [execBar_arrives h hl hk, if_pos (List.all_eq_true.2 fun t ht => hasArrived_iff.2 (hall t ht))]
  rfl

theorem execBar_early (hlate : ∃ t ∈ wgMembers l (wgOf l.record s.me.mesh) (arrivedAt s), t.life ≠ .ended ∧ t.epoch ≤ s.me.epoch ∧ (t.epoch = s.me.epoch → t.arrived = false)) :
    exec .bar s = .next (arrivedAt s) := by
  obtain ⟨t, ht, hlate⟩ := hlate
  rw [execBar_arrives h hl hk, if_neg fun hall => not_hasArrived_iff.2 hlate (List.all_eq_true.1 hall t ht)]
  rfl

end

end Sys2Proof.Machine

namespace Sys2Proof.Claims

open Sys2Proof.Machine Sys2Proof.Laws

theorem fence_clauses {s : State} (h : Claims.Settled s) (t : Fin 5) (c : BitVec 3) (ms : List RemoteMsg) : let u : State := { s with remote := ms }
    (c.toNat < 5 → exec (.fence t c) u = .next (advance (acquireCopies unboundOnly c.toNat u))) ∧
    (5 ≤ c.toNat → storesAway u = true → exec (.fence t c) u = .next u) := by
  intro u
  have hu : Still u := ⟨settled_mesh s h, h.stq, h.vwq, h.sfq, h.out⟩
  exact ⟨fun hc => execFence_passes hu t (.inl hc), execFence_waits hu t⟩

theorem pfenceDie_begins {s : State} (h : Claims.Settled s) (hw : s.me.pwait = none) :
    ((∀ d : Fin 4, s.dies[d].persist = []) → exec .pfenceDie s = .next (advance s)) ∧
    ((∃ d : Fin 4, s.dies[d].persist ≠ []) → ∃ v : Vector Nat 4, (∀ d : Fin 4, v[d] = s.dies[d].persistDone + s.dies[d].persist.length) ∧
      exec .pfenceDie s = .next { s with me := { s.me with pwait := some v } }) := by
  rw [execPfenceDie_begins h hw]
  refine ⟨fun hempty => by rw [if_pos ((persistReached_targets s).2 hempty)], fun hsome => ⟨persistTargets s, persistTargets_get s, ?_⟩⟩
  rw [if_neg (mt (persistReached_targets s).1 (not_forall.2 hsome))]

theorem pfenceDie_goesOn {s : State} (h : Claims.Settled s) {v : Vector Nat 4} (hw : s.me.pwait = some v) :
    ((∀ d : Fin 4, v[d] ≤ s.dies[d].persistDone) → exec .pfenceDie s = .next (advance { s with me := { s.me with pwait := none } })) ∧
    ((∃ d : Fin 4, s.dies[d].persistDone < v[d]) → exec .pfenceDie s = .next s) := by
  rw [execPfenceDie_goesOn h hw]
  refine ⟨fun hall => by rw [if_pos ((persistReached_iff v s).2 hall)], fun ⟨d, hd⟩ => ?_⟩
  rw [if_neg fun hall => absurd ((persistReached_iff v s).1 hall d) (Nat.not_le.2 hd)]

theorem fenceI_clause {s : State} (h : Claims.Settled s) : let u := advance { s with me := { s.me with loopBuf := [], patch := [] }, core := { s.core with icopies := [] } }
    ∃ t, exec .fenceI s = .next t ∧ t.me = u.me ∧ t.mem = s.mem ∧ t.core.icopies = [] ∧
      ∀ pa v, translate (reqOf u.me) .fetch 4 u.me.pc u = (.ok (.mem pa .wb), v) → copyOf u.me.mesh (pa / 64) t = none := by
  obtain ⟨hme, hmem, hcopies⟩ := dropNextLine_rest (refetching s)
  exact ⟨_, execFenceI_settled h, hme, hmem, hcopies, fun _ _ => copyOf_dropNextLine⟩

/-- Settles O36, instruction by instruction. -/
theorem fencesAndBarriers : Obligations.FencesAndBarriers := by
  unfold Obligations.FencesAndBarriers
  refine ⟨fun s i hi hq hr hh => exec_record hq hr hh hi, fun s h => ⟨?_, fence_clauses h, execDrainst_settled h, pfenceDie_begins h, fun v => pfenceDie_goesOn h,
    execPfenceCore_settled h, fenceI_clause h, execBar_noLaunch h, ?_⟩⟩
  · exact fun t c => execFence_passes (still_of_settled h) t (.inr h.remote)
  · intro l hl wg scope here pass
    have hpass (t : State) : pass t = passBarrier scope t := (passBarrier_eq scope t).symm
    simp only [hpass]
    exact ⟨execBar_completed h hl, fun hk => ⟨execBar_last h hl hk, execBar_early h hl hk⟩⟩

end Sys2Proof.Claims
end

section
/-! Bytes of memory changed at their homes, and copies discarded (O33, O34, O37, O60): what either leaves of the state, and the words that an access writes. -/

namespace Sys2Proof.Machine

open Sys2Proof.Claims Sys2Proof.Laws

/-! ## What an access to memory at its home leaves -/

/-- Nothing changed but memory and what depends on the bytes there: the words in error, the dies, what is noted of the host's lines and of publications, and the watches. -/
structure OnlyHomes (s t : State) : Prop where
  same : t = { s with mem := t.mem, bad := t.bad, dies := t.dies, hostOwned := t.hostOwned, hostStale := t.hostStale, watches := t.watches, remotePubs := t.remotePubs }

namespace OnlyHomes

variable {s t u : State}

theorem trans (h : OnlyHomes s t) (g : OnlyHomes t u) : OnlyHomes s u := by
  obtain ⟨h⟩ := h
  obtain ⟨g⟩ := g
  rw [h] at g
  exact ⟨g⟩

theorem of_dies (h : OnlyDies s t) : OnlyHomes s t := ⟨by rw [h.same]⟩

theorem me_eq (h : OnlyHomes s t) : t.me = s.me := by rw [h.same]
theorem core_eq (h : OnlyHomes s t) : t.core = s.core := by rw [h.same]
theorem cores_eq (h : OnlyHomes s t) : t.cores = s.cores := by rw [h.same]
theorem launches_eq (h : OnlyHomes s t) : t.launches = s.launches := by rw [h.same]
theorem replies_eq (h : OnlyHomes s t) : t.replies = s.replies := by rw [h.same]

theorem homePuts {bs : List ByteWrite} (h : ∀ b ∈ bs, ∃ a, b.loc = .mem a) : OnlyHomes s (bs.foldl (fun s b => homePut b s) s) := by
  induction bs generalizing s with
  | nil => exact ⟨rfl⟩
  | cons b bs ih =>
    obtain ⟨⟨a, ha⟩, h⟩ := List.forall_mem_cons.1 h
    have hput : OnlyHomes s (homePut b s) := ⟨by
      unfold homePut
      rw [ha]⟩
    exact hput.trans (ih h)

theorem homeBytes (wb : Bool) {bs : List ByteWrite} (h : ∀ b ∈ bs, ∃ a, b.loc = .mem a) : OnlyHomes s (homeBytes wb bs s) := by
  have hmem : (Machine.homeBytes wb bs s).mem = (bs.foldl (fun s b => homePut b s) s).mem := homeBytes_mem wb bs s
  have hafter := homeBytes_after wb bs s
  dsimp only at hafter
  refine (homePuts h).trans ⟨?_⟩
  rw [hmem]
  have hpubs : (Machine.homeBytes wb bs s).remotePubs = (bs.foldl (fun s b => homePut b s) s).remotePubs := by rw [hafter]
  rw [hpubs]
  exact hafter

theorem homeWrite (ctx : Nat) (wb : Bool) {bs : List ByteWrite} (h : ∀ b ∈ bs, ∃ a, b.loc = .mem a) : OnlyHomes s (homeWrite ctx wb bs s) :=
  (of_dies (l2Writes_only _ _ _ _)).trans (homeBytes wb h)

theorem rmwAt (ctx n : Nat) (f : Word → Word) (pa : Nat) (m : MemType) : OnlyHomes s (rmwAt ctx (.mem pa m) n f s).2 := by
  rw [rmwAt_mem]
  exact (of_dies (l2Amo_only _ _ _ _)).trans (homeBytes _ fun b hb => (loc_of_memBytes hb).imp fun _ h => h.1)

theorem settled (h : OnlyHomes s t) (hs : Claims.Settled s) (hm : t.mem.wf = true) : Claims.Settled t := by
  obtain ⟨⟨-, k2, k3, k4, k5⟩, h1, h2, h3, h4, h5⟩ := hs
  rw [h.same]
  exact ⟨⟨hm, k2, k3, k4, k5⟩, h1, h2, h3, h4, h5⟩

end OnlyHomes

/-! ## Words at their homes -/

theorem natOf_lt (bs : List (BitVec 8)) : natOf bs < 256 ^ bs.length := by
  induction bs with
  | nil => exact Nat.one_pos
  | cons b bs ih =>
    rw [natOf, List.length_cons, pow_succ]
    have := b.isLt
    omega

theorem wordAt_lt (s : State) (pa n : Nat) : wordAt s pa n < 2 ^ (8 * n) := by
  have hlen : (s.mem.getN pa n).length = n := by rw [getN_eq_map, List.length_map, List.length_range]
  have h := natOf_lt (s.mem.getN pa n)
  rwa [hlen, show 256 = 2 ^ 8 from rfl, ← pow_mul] at h

section
variable (ctx n : Nat) (f : Word → Word) {s : State} (h : s.mem.wf = true) (pa : Nat) (m : MemType)

/-- What a read-modify-write answers. -/
theorem rmwAt_old (ctx n : Nat) (f : Word → Word) (s : State) (pa : Nat) (m : MemType) : (rmwAt ctx (.mem pa m) n f s).1 = BitVec.ofNat 64 (wordAt s pa n) := by
  simp only [rmwAt, locsAt_mem, homeBytes_of_memLocs, wordAt, wd]

include h

/-- What it leaves in the word. -/
theorem wordAt_rmwAt : wordAt (rmwAt ctx (.mem pa m) n f s).2 pa n = (f (BitVec.ofNat 64 (wordAt s pa n))).toNat % 2 ^ (8 * n) := by
  have hmem := (l2Amo_only ctx (targetWb (.mem pa m)) (memPas (memLocs pa n)) s).mem_eq
  have hget := getN_homeBytes (targetWb (.mem pa m)) (bytesOf n (f (BitVec.ofNat 64 (natOf (s.mem.getN pa n)))).toNat) pa (s := l2Amo ctx (targetWb (.mem pa m)) (memPas (memLocs pa n)) s)
    (by rw [hmem, h])
  rw [bytesOf_length] at hget
  rw [wordAt, rmwAt_mem, hget, natOf_bytesOf, show 256 = 2 ^ 8 from rfl, ← pow_mul]
  rfl

theorem rmwAt_outside : SameOutside pa n s (rmwAt ctx (.mem pa m) n f s).2 := by
  intro a ha
  refine rmwAt_other _ _ _ _ h ?_
  rw [locsAt_mem, memLocs_eq_map]
  simp only [List.mem_map, List.mem_range, Loc.mem.injEq, not_exists, not_and]
  omega

end

theorem rmwAt_settled {s : State} (hs : Claims.Settled s) (ctx n : Nat) (f : Word → Word) (pa : Nat) (m : MemType) : Claims.Settled (rmwAt ctx (.mem pa m) n f s).2 :=
  (OnlyHomes.rmwAt ctx n f pa m).settled hs (rmwAt_kept hs.kept).mem

/-! ## Copies discarded (R105) -/

theorem modCores_same (ms : List Nat) (f : Core → Core) (s : State) : let t := ms.foldl (fun s m => modCore m f s) s
    t = { s with core := t.core, cores := t.cores } := by
  induction ms generalizing s with
  | nil => rfl
  | cons m ms ih =>
    have hone : modCore m f s = { s with core := (modCore m f s).core, cores := (modCore m f s).cores } := by
      unfold modCore
      split <;> rfl
    have hrest := ih (modCore m f s)
    rw [hone] at hrest
    dsimp only at hrest ⊢
    rw [List.foldl_cons, hone]
    exact hrest

/-- An acquire changes nothing but cores. -/
theorem acquireCopies_same (p : Option Word → Bool) (c : Scope) (s : State) :
    acquireCopies p c s = { s with core := (acquireCopies p c s).core, cores := (acquireCopies p c s).cores } := by
  unfold acquireCopies
  split
  · rfl
  · exact modCores_same _ _ s

theorem modCores_congr (ms : List Nat) (f : Core → Core) {s t : State} (hcore : t.core = s.core) (hcores : t.cores = s.cores) :
    (ms.foldl (fun s m => modCore m f s) t).core = (ms.foldl (fun s m => modCore m f s) s).core ∧
      (ms.foldl (fun s m => modCore m f s) t).cores = (ms.foldl (fun s m => modCore m f s) s).cores := by
  induction ms generalizing s t with
  | nil => exact ⟨hcore, hcores⟩
  | cons m ms ih =>
    have hone : (modCore m f t).core = (modCore m f s).core ∧ (modCore m f t).cores = (modCore m f s).cores := by
      unfold modCore
      rw [hcore, hcores]
      split <;> exact ⟨rfl, rfl⟩
    exact ih hone.1 hone.2

/-- The cores that it leaves depend on the cores before it, on the strand's core and launch, and on the launches. -/
theorem acquireCopies_congr (p : Option Word → Bool) (c : Scope) {s t : State} (hmesh : t.me.mesh = s.me.mesh) (hlaunch : t.me.launch = s.me.launch) (hlaunches : t.launches = s.launches)
    (hcore : t.core = s.core) (hcores : t.cores = s.cores) :
    (acquireCopies p c t).core = (acquireCopies p c s).core ∧ (acquireCopies p c t).cores = (acquireCopies p c s).cores := by
  have hbindings : bindingsOf t.me t = bindingsOf s.me s := by rw [bindingsOf, bindingsOf, launchAt, launchAt, hlaunch, hlaunches]
  have hat := coreAt_congr hcore hcores s.me.mesh
  have hserve : l1Cores t.me.mesh t = l1Cores s.me.mesh s := by rw [l1Cores, l1Cores, hmesh, hat]
  unfold acquireCopies
  split
  · exact ⟨hcore, hcores⟩
  · dsimp only
    rw [hbindings, hserve]
    exact modCores_congr _ _ hcore hcores

end Sys2Proof.Machine
end

section
/-! AMO instructions (O33): the value that an operation makes, the access at the home or to another package, and the fences on either side of it (R105, R116, R120, R295, R382). -/

namespace Sys2Proof.Machine

open Sys2Proof.Claims Sys2Proof.Laws

/-! ## The new value (R295) -/

/-- The new value of an operation, from the old value, the operand and the expected value, each of `n` bytes. -/
def amoNat (op : AmoOp) (uns : Bool) (n o x e : Nat) : Nat :=
  match op with
  | .add => (o + x) % 2 ^ (8 * n)
  | .min => if amoBelow n uns x o then x else o
  | .max => if amoBelow n uns o x then x else o
  | .and => o &&& x
  | .or => o ||| x
  | .xor => o ^^^ x
  | .swp => x
  | .cas => if o = e then x else o

theorem amoNew_eq (op : AmoOp) (uns : Bool) (n : Nat) (x e old : Word) :
    amoNew op uns n x e old = wd (amoNat op uns n (old.toNat % 2 ^ (8 * n)) (x.toNat % 2 ^ (8 * n)) (e.toNat % 2 ^ (8 * n))) := by cases op <;> rfl

theorem amoNat_lt (op : AmoOp) (uns : Bool) {n o x : Nat} (ho : o < 2 ^ (8 * n)) (hx : x < 2 ^ (8 * n)) (e : Nat) : amoNat op uns n o x e < 2 ^ (8 * n) := by
  have hite (c : Prop) [Decidable c] : (if c then x else o) < 2 ^ (8 * n) := by
    split
    · exact hx
    · exact ho
  cases op
  case add => exact Nat.mod_lt _ (Nat.two_pow_pos _)
  case and => exact Nat.and_lt_two_pow o hx
  case or => exact Nat.or_lt_two_pow ho hx
  case xor => exact Nat.xor_lt_two_pow ho hx
  case swp => exact hx
  all_goals exact hite _

theorem amoNew_toNat (op : AmoOp) (uns : Bool) {n o : Nat} (hn : n ≤ 8) (ho : o < 2 ^ (8 * n)) (x e : Word) :
    (amoNew op uns n x e (BitVec.ofNat 64 o)).toNat = amoNat op uns n o (x.toNat % 2 ^ (8 * n)) (e.toNat % 2 ^ (8 * n)) ∧ (amoNew op uns n x e (BitVec.ofNat 64 o)).toNat < 2 ^ (8 * n) := by
  have hword : 2 ^ (8 * n) ≤ 2 ^ 64 := Nat.pow_le_pow_right (by decide) (by omega)
  have hnew := amoNat_lt op uns ho (Nat.mod_lt x.toNat (Nat.two_pow_pos (8 * n))) (e.toNat % 2 ^ (8 * n))
  have hvalue : (amoNew op uns n x e (BitVec.ofNat 64 o)).toNat = amoNat op uns n o (x.toNat % 2 ^ (8 * n)) (e.toNat % 2 ^ (8 * n)) := by
    rw [amoNew_eq, BitVec.toNat_ofNat, Nat.mod_eq_of_lt (ho.trans_le hword), Nat.mod_eq_of_lt ho, wd, BitVec.toNat_ofNat, Nat.mod_eq_of_lt (hnew.trans_le hword)]
  exact ⟨hvalue, hvalue ▸ hnew⟩

theorem min_below (n : Nat) (uns : Bool) (o x : Nat) :
    (if amoBelow n uns x o then x else o) = if uns then min o x else if signExtend x (8 * n) < signExtend o (8 * n) then x else o := by
  cases uns
  · simp [amoBelow]
  · simp only [amoBelow, if_true, decide_eq_true_eq, min_def]
    split <;> split <;> omega

theorem max_below (n : Nat) (uns : Bool) (o x : Nat) :
    (if amoBelow n uns o x then x else o) = if uns then max o x else if signExtend o (8 * n) < signExtend x (8 * n) then x else o := by
  cases uns
  · simp [amoBelow]
  · simp only [amoBelow, if_true, decide_eq_true_eq, max_def]
    split <;> split <;> omega

/-! ## The instruction and its operation -/

/-- An AMO instruction as one operation of R295. -/
structure IsAmo (i : Instr) (d a b : GReg) (n c : Nat) (f : Nat → Nat → Nat → Nat) (op : AmoOp) (uns w : Bool) : Prop where
  size : n = amoSize w
  runs : ∀ s, exec i s = amo i op uns d a b w c s
  value : f = amoNat op uns n

theorem isAmo_of {i : Instr} {d a b : GReg} {n c : Nat} {f : Nat → Nat → Nat → Nat} (h : amoOf i = some (d, a, b, n, c, f)) : ∃ op uns w, IsAmo i d a b n c f op uns w := by
  unfold amoOf at h
  split at h
  case h_9 => cases h
  case h_1 w _ =>
    cases h
    exact ⟨.add, false, w, rfl, fun _ => rfl, rfl⟩
  case h_2 u w _ =>
    cases h
    exact ⟨.min, u, w, rfl, fun _ => rfl, funext fun o => funext fun x => funext fun _ => (min_below _ u o x).symm⟩
  case h_3 u w _ =>
    cases h
    exact ⟨.max, u, w, rfl, fun _ => rfl, funext fun o => funext fun x => funext fun _ => (max_below _ u o x).symm⟩
  case h_4 w _ =>
    cases h
    exact ⟨.and, false, w, rfl, fun _ => rfl, rfl⟩
  case h_5 w _ =>
    cases h
    exact ⟨.or, false, w, rfl, fun _ => rfl, rfl⟩
  case h_6 w _ =>
    cases h
    exact ⟨.xor, false, w, rfl, fun _ => rfl, rfl⟩
  case h_7 w _ =>
    cases h
    exact ⟨.swp, false, w, rfl, fun _ => rfl, rfl⟩
  case h_8 w _ =>
    cases h
    exact ⟨.cas, false, w, rfl, fun _ => rfl, rfl⟩

/-! ## The fences on either side (R116) -/

/-- What the acquire of an AMO's scope leaves. -/
def amoFenced (c : Nat) (s : State) : State := if c = 0 then s else acquireCopies unboundOnly c s

section
variable {c : Nat} {s : State}

theorem amoFence_still (h : Still s) (hc : c < 5 ∨ remoteBusy s = false) : amoFence c s = .ok () (amoFenced c s) := by
  unfold amoFence amoFenced
  split
  · rfl
  · rw [fenceAll, fenceRelease_still h _ _ hc]
    rfl

theorem amoFence_settled (h : Claims.Settled s) : amoFence c s = .ok () (amoFenced c s) := amoFence_still (still_of_settled h) (.inr (remoteBusy_quiet s h))

theorem amoFence_waits (h : Still s) (hc : 5 ≤ c) (hbusy : remoteBusy s = true) : amoFence c s = .stop s := by
  have hrelease : fenceRelease true true c s = .stop s := by
    simp only [fenceRelease, releaseAt, releaseWrites_still h, hbusy, decide_eq_true hc]
    simp
  rw [amoFence, if_neg (by omega), fenceAll, hrelease, Res.bind]

theorem amoFenced_same (c : Nat) (s : State) : amoFenced c s = { s with core := (amoFenced c s).core, cores := (amoFenced c s).cores } := by
  unfold amoFenced
  split
  · rfl
  · exact acquireCopies_same _ _ _

theorem amoFenced_me (c : Nat) (s : State) : (amoFenced c s).me = s.me := by rw [amoFenced_same]
theorem amoFenced_mem (c : Nat) (s : State) : (amoFenced c s).mem = s.mem := by rw [amoFenced_same]
theorem amoFenced_remote (c : Nat) (s : State) : (amoFenced c s).remote = s.remote := by rw [amoFenced_same]

theorem amoFenced_settled (h : Claims.Settled s) : Claims.Settled (amoFenced c s) := by
  unfold amoFenced
  split
  · exact h
  · exact (acquireCopies_settled _ _ _ h).1

theorem amoFenced_congr {t : State} (hmesh : t.me.mesh = s.me.mesh) (hlaunch : t.me.launch = s.me.launch) (hlaunches : t.launches = s.launches) (hcore : t.core = s.core)
    (hcores : t.cores = s.cores) : (amoFenced c t).core = (amoFenced c s).core ∧ (amoFenced c t).cores = (amoFenced c s).cores := by
  unfold amoFenced
  split
  · exact ⟨hcore, hcores⟩
  · exact acquireCopies_congr _ _ hmesh hlaunch hlaunches hcore hcores

theorem amoFenced_called (m : RemoteMsg) (c : Nat) (s : State) : amoFenced c (called m s) = called m (amoFenced c s) := by
  obtain ⟨hcore, hcores⟩ := amoFenced_congr (c := c) (s := s) (t := called m s) rfl rfl rfl rfl rfl
  rw [amoFenced_same c (called m s), amoFenced_same c s, hcore, hcores]
  rfl

end

/-! ## The parts of an AMO -/

theorem gR_congr {s t : State} (h : t.me = s.me) (r : GReg) : gR r t = gR r s := by rw [gR, gR, h]

section
variable {i : Instr} {op : AmoOp} {uns w : Bool} {d a b : GReg} {c : Nat} {s s0 t : State}

theorem amo_misaligned (h : (gR a s).toNat % amoSize w ≠ 0) : amo i op uns d a b w c s = .next (illop i 0 s) := by
  rw [amo, require, if_neg (mt beq_iff_eq.1 h)]
  rfl

section
variable (ha : (gR a s).toNat % amoSize w = 0)
include ha

theorem amo_fences : amo i op uns d a b w c s = ((amoFence c s).bind fun _ s => (amoAccess i op uns w (gR a s) (gR b s) (gR d s) s).bind fun old s =>
    (amoFence c s).bind fun _ s => .ok () (advance (setG d old s))).out := by
  rw [amo, require, if_pos (beq_iff_eq.2 ha)]
  rfl

theorem amo_waits (hf : amoFence c s = .stop t) : amo i op uns d a b w c s = .next t := by
  rw [amo_fences ha, hf]
  rfl

variable (hf : amoFence c s = .ok () s0)
include hf

theorem amo_stops (hx : amoAccess i op uns w (gR a s0) (gR b s0) (gR d s0) s0 = .stop t) : amo i op uns d a b w c s = .next t := by
  rw [amo_fences ha, hf, Res.bind, hx]
  rfl

theorem amo_completes {old : Word} (hx : amoAccess i op uns w (gR a s0) (gR b s0) (gR d s0) s0 = .ok old t) (ht : Claims.Settled t) :
    amo i op uns d a b w c s = .next (advance (setG d old (amoFenced c t))) := by
  rw [amo_fences ha, hf, Res.bind, hx, Res.bind, amoFence_settled ht]
  rfl

end

/-! ## The access -/

section
variable {va x e : Word} {s1 : State} (hp : pendingRemote s = none)
include hp

theorem amoAccess_fault {x' : XFault} (ht : translate (reqOf s.me) .atomic (amoSize w) va s = (.error x', s1)) : amoAccess i op uns w va x e s = .stop (xlate .atomic va x' s1) := by
  rw [amoAccess, hp]
  dsimp only
  rw [ht]

theorem amoAccess_mem {pa : Nat} {m : MemType} (ht : translate (reqOf s.me) .atomic (amoSize w) va s = (.ok (.mem pa m), s1)) :
    amoAccess i op uns w va x e s = rmwHome va (.mem pa m) (amoSize w) (amoNew op uns (amoSize w) x e) s1 := by
  rw [amoAccess, hp]
  dsimp only
  rw [ht]

theorem amoAccess_remote {r : Nat} (ht : translate (reqOf s.me) .atomic (amoSize w) va s = (.ok (.remote r), s1)) :
    amoAccess i op uns w va x e s = .stop (remoteCall r va (.amo (amoCode op) uns (amoSize w) x e) s1) := by
  rw [amoAccess, hp]
  dsimp only
  rw [ht]

end

end

theorem pendingRemote_none {s : State} (h : s.remote = []) : pendingRemote s = none := by
  rw [pendingRemote, h]
  cases s.me.call <;> rfl

/-! ## Messages to other packages (R382) -/

/-- A message of the strand's instruction. -/
structure Sent (s : State) (va : Word) (op : RemoteOp) (msg : RemoteMsg) : Prop where
  id : msg.id = s.remoteNext
  mesh : msg.mesh = s.me.mesh
  sid : msg.sid = s.me.sid
  va : msg.access.va = va
  op : msg.access.op = op
  reply : msg.reply = none
  store : msg.store = none

theorem remoteCall_sends {s : State} (hr : s.remote = []) (e : Nat) (va : Word) (op : RemoteOp) : let t := remoteCall e va op s
    t.me = { s.me with call := some s.remoteNext } ∧ t.mem = s.mem ∧ ∃ msg, t.remote = [msg] ∧ Sent s va op msg :=
  ⟨rfl, rfl, _, congrArg (· ++ _) hr, rfl, rfl, rfl, rfl, rfl, rfl, rfl⟩

/-- The strand's instruction waits for no reply any more. -/
def uncalled (s : State) : State := { s with me := { s.me with call := none } }

section
variable {m : RemoteMsg} {s : State}

theorem still_called (h : Claims.Settled s) (m : RemoteMsg) : Still (called m s) := ⟨settled_mesh s h, h.stq, h.vwq, h.sfq, h.out⟩

theorem settled_uncalled (h : Claims.Settled s) : Claims.Settled (uncalled s) := by
  obtain ⟨⟨k1, k2, k3, k4, k5⟩, h1, h2, h3, h4, h5⟩ := h
  exact ⟨⟨k1, k2, k3, k4, k5⟩, h1, h2, h3, h4, h5⟩

theorem pendingRemote_called (m : RemoteMsg) (s : State) : pendingRemote (called m s) = some m := by simp [pendingRemote, called]

theorem endCall_called (h : s.remote = []) (m : RemoteMsg) : endCall m (called m s) = uncalled s := by
  have hgone : [m].filter (fun x => x.id != m.id) = [] := by simp
  have hremote : { s with remote := [] } = s := by rw [← h]
  unfold endCall called uncalled
  dsimp only [onMe]
  rw [hgone]
  exact congrArg (fun t : State => { t with me := { s.me with call := none } }) hremote

theorem remoteBusy_answered (h : m.reply ≠ none) : remoteBusy (called m s) = false := by
  have hreply : m.reply.isNone = false := Option.isNone_eq_false_iff.2 (Option.isSome_iff_ne_none.2 h)
  simp [remoteBusy, called, hreply]

end

section
variable {i : Instr} {op : AmoOp} {uns w : Bool} {d a b : GReg} {c : Nat} {s : State} {m : RemoteMsg} (ha : (gR a s).toNat % amoSize w = 0) (hs : Claims.Settled s)

theorem amoAccess_called (va x e : Word) (s : State) : amoAccess i op uns w va x e (called m s) = remoteAnswer i va m (called m s) := by rw [amoAccess, pendingRemote_called]

theorem gR_called (r : GReg) (m : RemoteMsg) (s : State) : gR r (called m s) = gR r s := by rw [gR, gR, called]

include hs

theorem amo_answered (hm : m.reply ≠ none) : amoFence c (called m s) = .ok () (called m (amoFenced c s)) := by
  rw [amoFence_still (still_called hs m) (.inr (remoteBusy_answered hm)), amoFenced_called]

theorem endCall_fenced : endCall m (called m (amoFenced c s)) = uncalled (amoFenced c s) := endCall_called ((amoFenced_remote c s).trans hs.remote) m

include ha

/-- With no reply yet the instruction waits, at its fence or at its access. -/
theorem amo_unanswered (hm : m.reply = none) : ∃ t, amo i op uns d a b w c (called m s) = .next t ∧ t.me = (called m s).me ∧ t.mem = (called m s).mem ∧ t.remote = (called m s).remote := by
  rw [← gR_called a m s] at ha
  by_cases hc : c < 5 ∨ remoteBusy (called m s) = false
  · refine ⟨amoFenced c (called m s), amo_stops ha (amoFence_still (still_called hs m) hc) ?_, amoFenced_me _ _, amoFenced_mem _ _, amoFenced_remote _ _⟩
    rw [amoFenced_called, amoAccess_called, remoteAnswer, hm]
  · rw [not_or, Nat.not_lt, Bool.not_eq_false] at hc
    exact ⟨_, amo_waits ha (amoFence_waits (still_called hs m) hc.1 hc.2), rfl, rfl, rfl⟩

theorem amo_value {old : Word} (hm : m.reply = some (.value old)) : amo i op uns d a b w c (called m s) = .next (advance (setG d old (amoFenced c (uncalled (amoFenced c s))))) := by
  rw [← gR_called a m s] at ha
  have hfence := amo_answered (c := c) hs (m := m) (by rw [hm]; exact nofun)
  refine amo_completes ha hfence ?_ (settled_uncalled (amoFenced_settled hs))
  rw [amoAccess_called, remoteAnswer, hm, ← endCall_fenced hs]

theorem amo_fault {sub : Nat} (hm : m.reply = some (.fault sub)) :
    amo i op uns d a b w c (called m s) = .next (xlate .atomic (gR a s) ⟨sub, 0, 0, false⟩ (uncalled (amoFenced c s))) := by
  rw [← gR_called a m s] at ha
  have hfence := amo_answered (c := c) hs (m := m) (by rw [hm]; exact nofun)
  refine amo_stops ha hfence ?_
  rw [amoAccess_called, remoteAnswer, hm, ← endCall_fenced hs, gR_called, gR_congr (amoFenced_me c s) a]

theorem amo_illegal (hm : m.reply = some .illegal) : amo i op uns d a b w c (called m s) = .next (illop i 0 (uncalled (amoFenced c s))) := by
  rw [← gR_called a m s] at ha
  have hfence := amo_answered (c := c) hs (m := m) (by rw [hm]; exact nofun)
  refine amo_stops ha hfence ?_
  rw [amoAccess_called, remoteAnswer, hm, ← endCall_fenced hs]
  rfl

end

theorem advance_setG_me {s t : State} (h : t.me = s.me) (d : GReg) (w : Word) : (advance (setG d w t)).me = (advance (setG d w s)).me := by
  unfold advance setG
  split <;> simp [h]

end Sys2Proof.Machine

namespace Sys2Proof.Claims

open Sys2Proof.Machine Sys2Proof.Laws

section
variable {i : Instr} {d a b : GReg} {n c : Nat} {f : Nat → Nat → Nat → Nat} {op : AmoOp} {uns w : Bool} (hi : IsAmo i d a b n c f op uns w) {s : State}
  (ha : (gR a s).toNat % n = 0) (hs : Settled s)
include hi ha hs

theorem amo_atHome {pa : Nat} {m : MemType} {s1 : State} (ht : translate (reqOf (amoFenced c s).me) .atomic n (gR a (amoFenced c s)) (amoFenced c s) = (.ok (.mem pa m), s1))
    (hs1 : Settled s1) (hme : s1.me = s.me) : let old := wordAt s1 pa n
    (∀ p, badAt (locsAt (.mem pa m) n) s1 = some p → exec i s = .next (trapHere (memoryTrap (gR a s) p) s1)) ∧
    (badAt (locsAt (.mem pa m) n) s1 = none → ∃ t, exec i s = .next t ∧ t.me = (advance (setG d (BitVec.ofNat 64 old) s)).me ∧
      wordAt t pa n = f old ((gR b s).toNat % 2 ^ (8 * n)) ((gR d s).toNat % 2 ^ (8 * n)) ∧ SameOutside pa n s1 t ∧ t.core.copies = (amoFenced c s1).core.copies) := by
  obtain ⟨rfl, hruns, rfl⟩ := hi
  intro old
  have hg (r : GReg) : gR r (amoFenced c s) = gR r s := gR_congr (amoFenced_me c s) r
  have haccess := amoAccess_mem (i := i) (op := op) (uns := uns) (x := gR b (amoFenced c s)) (e := gR d (amoFenced c s)) (pendingRemote_none (amoFenced_settled hs).remote) ht
  rw [hruns]
  refine ⟨fun p hp => amo_stops ha (amoFence_settled hs) ?_, fun hgood => ?_⟩
  · rw [haccess, rmwHome_bad hs1 hp, hg]
  · rw [rmwHome_good hs1 hgood, hg b, hg d] at haccess
    have hsettled := rmwAt_settled hs1 s1.me.ctx (amoSize w) (amoNew op uns (amoSize w) (gR b s) (gR d s)) pa m
    have hhomes : OnlyHomes s1 _ := OnlyHomes.rmwAt s1.me.ctx (amoSize w) (amoNew op uns (amoSize w) (gR b s) (gR d s)) pa m
    rw [rmwAt_old] at haccess
    generalize hu : (rmwAt s1.me.ctx (.mem pa m) (amoSize w) (amoNew op uns (amoSize w) (gR b s) (gR d s)) s1).2 = u at haccess hsettled hhomes
    have hmem : (advance (setG d (BitVec.ofNat 64 (wordAt s1 pa (amoSize w))) (amoFenced c u))).mem = u.mem := by rw [advance_mem, setG_mem, amoFenced_mem]
    have hsize : amoSize w ≤ 8 := by cases w <;> decide
    obtain ⟨hvalue, hlt⟩ := amoNew_toNat op uns hsize (wordAt_lt s1 pa (amoSize w)) (gR b s) (gR d s)
    refine ⟨_, amo_completes ha (amoFence_settled hs) (by rw [hg b, hg d, haccess]) hsettled, advance_setG_me (by rw [amoFenced_me, hhomes.me_eq, hme]) _ _, ?_, ?_, ?_⟩
    · rw [wordAt, hmem, ← hu]
      exact (wordAt_rmwAt _ _ _ hs1.kept.mem pa m).trans ((Nat.mod_eq_of_lt hlt).trans hvalue)
    · intro x hx
      rw [hmem, ← hu]
      exact rmwAt_outside _ _ _ hs1.kept.mem pa m x hx
    · rw [advance_core, setG_core, (amoFenced_congr (congrArg Strand.mesh hhomes.me_eq) (congrArg Strand.launch hhomes.me_eq) hhomes.launches_eq hhomes.core_eq hhomes.cores_eq).1]

theorem amo_leaves {e : Nat} {s1 : State} (ht : translate (reqOf (amoFenced c s).me) .atomic n (gR a (amoFenced c s)) (amoFenced c s) = (.ok (.remote e), s1)) (hr : s1.remote = [])
    (hme : s1.me = s.me) : ∃ t msg, exec i s = .next t ∧ t.me = { s.me with call := some s1.remoteNext } ∧ t.mem = s1.mem ∧ t.remote = [msg] ∧ msg.id = s1.remoteNext ∧
      msg.mesh = s.me.mesh ∧ msg.sid = s.me.sid ∧ msg.access.va = gR a s ∧ msg.reply = none := by
  obtain ⟨rfl, hruns, rfl⟩ := hi
  have haccess := amoAccess_remote (i := i) (op := op) (uns := uns) (x := gR b (amoFenced c s)) (e := gR d (amoFenced c s)) (pendingRemote_none (amoFenced_settled hs).remote) ht
  obtain ⟨htme, hmem, msg, hremote, hmsg⟩ := remoteCall_sends hr e (gR a (amoFenced c s)) (.amo (amoCode op) uns (amoSize w) (gR b (amoFenced c s)) (gR d (amoFenced c s)))
  rw [hruns]
  exact ⟨_, msg, amo_stops ha (amoFence_settled hs) haccess, htme.trans (by rw [hme]), hmem, hremote, hmsg.id, hmsg.mesh.trans (by rw [hme]), hmsg.sid.trans (by rw [hme]),
    hmsg.va.trans (gR_congr (amoFenced_me c s) a), hmsg.reply⟩

theorem amo_replied (m : RemoteMsg) : let u := called m s
    let v : State := let w := if c = 0 then s else acquireCopies unboundOnly c s; { w with me := { w.me with call := none } }
    (m.reply = none → ∃ t, exec i u = .next t ∧ t.me = u.me ∧ t.mem = u.mem ∧ t.remote = u.remote) ∧
    (∀ old, m.reply = some (.value old) → ∃ t, exec i u = .next t ∧ t.me = (advance (setG d old { s with me := { s.me with call := none } })).me ∧ t.mem = s.mem ∧ t.remote = []) ∧
    (∀ sub, m.reply = some (.fault sub) → exec i u = .next (xlate .atomic (gR a s) ⟨sub, 0, 0, false⟩ v)) ∧
    (m.reply = some .illegal → exec i u = .next (illop i 0 v)) := by
  obtain ⟨rfl, hruns, rfl⟩ := hi
  dsimp only
  rw [hruns]
  refine ⟨amo_unanswered ha hs, fun old hm => ⟨_, amo_value ha hs hm, advance_setG_me ?_ _ _, ?_, ?_⟩, fun sub => amo_fault ha hs, amo_illegal ha hs⟩
  · rw [amoFenced_me, uncalled, amoFenced_me]
  · rw [advance_mem, setG_mem, amoFenced_mem]
    exact amoFenced_mem c s
  · rw [advance_remote, setG_remote, amoFenced_remote]
    exact (amoFenced_remote c s).trans hs.remote

end

/-- Settles O33: an AMO fences, reads and writes its bytes at their home or in another package, and fences again. -/
theorem atomics : Obligations.Atomics := by
  unfold Obligations.Atomics
  intro i d a b n c f s hi
  obtain ⟨op, uns, w, hamo⟩ := isAmo_of hi
  refine ⟨fun ha => ?_, fun ha hs => ⟨fun x s1 ht => ?_, fun pa m s1 ht hs1 hme => amo_atHome hamo ha hs ht hs1 hme, fun e s1 ht hr hme => amo_leaves hamo ha hs ht hr hme⟩,
    fun ha hs m _ => amo_replied hamo ha hs m⟩
  · obtain ⟨rfl, hruns, -⟩ := hamo
    rw [hruns, amo_misaligned ha]
  · obtain ⟨rfl, hruns, -⟩ := hamo
    rw [hruns]
    exact amo_stops ha (amoFence_settled hs) (amoAccess_fault (pendingRemote_none (amoFenced_settled hs).remote) ht)

end Sys2Proof.Claims
end

section
/-! Latches (O34), the facts: the place and the word of a latch, what holding one and letting it go change, and the copies that an acquire discards (R105, R107 to R109, R113, R159). -/

namespace Sys2Proof.Machine

open Sys2Proof.Claims Sys2Proof.Laws

/-! ## The place of a latch word (R108) -/

/-- An aligned address, outside the window region, that no route entry takes. -/
def LatchPlace (align : Nat) (va : Word) (s : State) : Prop :=
  va.toNat % align = 0 ∧ (fld va 57 7 ≠ 0 ∨ inWindow va.toNat = false) ∧ routeOf s.me.ctx va.toNat s = none

section
variable {i : Instr} {align : Nat} {va : Word} {s s1 : State}

theorem latchPlace_iff : (va.toNat % align == 0 && !(fld va 57 7 == 0 && inWindow va.toNat) && (routeOf s.me.ctx va.toNat s).isNone) = true ↔ LatchPlace align va s := by
  rw [LatchPlace, Bool.and_eq_true, Bool.and_eq_true, beq_iff_eq, Option.isNone_iff_eq_none, and_assoc, Bool.not_eq_true', Bool.and_eq_false_iff, beq_eq_false_iff_ne]

theorem latchPlace_illegal (h : ¬LatchPlace align va s) : latchPlace i align va s = illegal i s := by
  rw [latchPlace, require, if_neg (mt latchPlace_iff.1 h)]
  rfl

section
variable (h : LatchPlace align va s)
include h

theorem latchPlace_fault {x : XFault} (ht : translate (reqOf s.me) .atomic 8 va s = (.error x, s1)) : latchPlace i align va s = .stop (xlate .atomic va x s1) := by
  rw [latchPlace, require, if_pos (latchPlace_iff.2 h), Res.bind, ht]

variable {pa : Nat} {m : MemType} (ht : translate (reqOf s.me) .atomic 8 va s = (.ok (.mem pa m), s1))
include ht

theorem latchPlace_foreign (hm : ownMemory pa = false) : latchPlace i align va s = illegal i s1 := by
  rw [latchPlace, require, if_pos (latchPlace_iff.2 h), Res.bind, ht]
  dsimp only
  rw [require, hm]
  rfl

theorem latchPlace_own (hm : ownMemory pa = true) : latchPlace i align va s = .ok (.mem pa m) s1 := by
  rw [latchPlace, require, if_pos (latchPlace_iff.2 h), Res.bind, ht]
  dsimp only
  rw [require, hm]
  rfl

end

/-! ## The word (R107) -/

theorem latchRead_stops {t : State} (h : latchPlace i 8 va s = .stop t) : latchRead i va s = .stop t := by
  rw [latchRead, h]
  rfl

/-- The slices' counts of a read of the word at its home. -/
def wordRead (pa : Nat) (m : MemType) (s : State) : State := (homeRead s.me.ctx (targetWb (.mem pa m)) (locsAt (.mem pa m) 8) s).2

theorem wordRead_only (pa : Nat) (m : MemType) (s : State) : OnlyDies s (wordRead pa m s) := homeRead_only _ _ _ _

theorem wordRead_settled (hs : Claims.Settled s) (pa : Nat) (m : MemType) : Claims.Settled (wordRead pa m s) := onlyDies_settled (wordRead_only pa m s) hs

theorem latchRead_own {pa : Nat} {m : MemType} (h : latchPlace i 8 va s = .ok (.mem pa m) s1) (hs : Claims.Settled s1) (hgood : badAt (locsAt (.mem pa m) 8) s1 = none) :
    latchRead i va s = if lwReserved (BitVec.ofNat 64 (wordAt s1 pa 8)) then illegal i (wordRead pa m s1) else .ok (BitVec.ofNat 64 (wordAt s1 pa 8), .mem pa m) (wordRead pa m s1) := by
  have hword : natOf ((locsAt (.mem pa m) 8).map fun l => homeByte l s1) = wordAt s1 pa 8 := by rw [locsAt_mem, homeBytes_of_memLocs, wordAt]
  rw [latchRead, h, Res.bind, ownFirst_quiet _ s1 hs, Res.bind, goodData, hgood, Res.bind]
  simp only [homeRead, hword, require]
  cases hres : lwReserved (BitVec.ofNat 64 (wordAt s1 pa 8)) <;> simp only [wd, hres] <;> rfl

end

/-- The word that names the strand fits in 32 bits (R107). -/
theorem heldByMe_iff {w : Word} {s : State} (hchain : s.chainid < 2 ^ 12) (hmesh : s.me.mesh < 2 ^ 11) (hsid : s.me.sid < 4) :
    heldByMe w s = true ↔ w.getLsbD 19 = true ∧ w.extractLsb' 0 32 = BitVec.ofNat 32 (meWord s.me s) := by
  have hlt : meWord s.me s < 2 ^ 32 := by
    unfold meWord
    omega
  have hword : fld w 0 32 = meWord s.me s ↔ w.extractLsb' 0 32 = BitVec.ofNat 32 (meWord s.me s) := by
    rw [← BitVec.toNat_inj, BitVec.extractLsb'_toNat, BitVec.toNat_ofNat, Nat.mod_eq_of_lt hlt, Nat.shiftRight_zero]
    simp [fld, field]
  rw [heldByMe, lwHELD, bit_eq_getLsbD, Bool.and_eq_true, beq_iff_eq, hword]

theorem setBit_rlat (w : Word) : setBit w 9 true = w ||| 0x200 := by
  have htwo : (0x200 : Word) = BitVec.twoPow 64 9 := rfl
  cases h : w.getLsbD 9
  case true =>
    rw [← eq_setBit_ac.2 h]
    refine BitVec.eq_of_getLsbD_eq fun k _ => ?_
    rw [BitVec.getLsbD_or, htwo, BitVec.getLsbD_twoPow]
    by_cases hk : 9 = k
    · rw [← hk, h, Bool.true_or]
    · simp [hk]
  case false =>
    have hclear : fld w 9 1 = 0 := by
      rw [fld_bit, bit_eq_getLsbD, h]
      rfl
    have hdisjoint : w &&& 0x200 = 0 := by
      refine BitVec.eq_of_getLsbD_eq fun k _ => ?_
      rw [BitVec.getLsbD_and, htwo, BitVec.getLsbD_twoPow]
      by_cases hk : 9 = k
      · rw [← hk, h, Bool.false_and]
        rfl
      · simp [hk]
    rw [← BitVec.add_eq_or_of_and_eq_zero _ _ hdisjoint, setBit, setFld, hclear]
    apply BitVec.eq_of_toNat_eq
    simp

/-! ## The copies that an acquire discards (R105, R109, R113) -/

/-- A core without the copies that `p` names. -/
def withoutCopies (p : L1Copy → Bool) (c : Core) : Core := { c with copies := c.copies.filter fun x => !p x }

theorem copies_modCore (p : L1Copy → Bool) (m : Nat) (s : State) :
    (coreAt m (modCore m (withoutCopies p) s)).copies = (coreAt m s).copies.filter fun x => !p x := by
  rcases coreAt_modCore_or (m := m) (f := withoutCopies p) (s := s) (fun _ => rfl) with h | ⟨h, h'⟩
  · rw [h]
    rfl
  · rw [h, h']
    rfl

theorem copies_modCores (p : L1Copy → Bool) (ms : List Nat) (h : Nat) (s : State) : (coreAt h (ms.foldl (fun s m => modCore m (withoutCopies p) s) s)).copies =
    if h ∈ ms then (coreAt h s).copies.filter fun x => !p x else (coreAt h s).copies := by
  induction ms generalizing s with
  | nil => rfl
  | cons m ms ih =>
    rw [List.foldl_cons, ih]
    by_cases hm : h = m
    · subst hm
      rw [copies_modCore, List.filter_filter, if_pos List.mem_cons_self]
      simp only [Bool.and_self, ite_self]
    · rw [coreAt_modCore_other (f := withoutCopies p) (fun _ => rfl) hm]
      simp only [List.mem_cons, hm, false_or]

theorem copies_acquire (p : Option Word → Bool) (c : Scope) (h : Nat) (s : State) : (coreAt h (acquireCopies p c s)).copies =
    if c ≤ 1 ∨ h ∉ l1Cores s.me.mesh s then (coreAt h s).copies else (coreAt h s).copies.filter fun x => !copyCovered p (bindingsOf s.me s) x := by
  unfold acquireCopies
  split
  case isTrue hc => rw [if_pos (.inl hc)]
  case isFalse hc =>
    refine (copies_modCores (copyCovered p (bindingsOf s.me s)) _ h s).trans ?_
    by_cases hh : h ∈ l1Cores s.me.mesh s
    · rw [if_pos hh, if_neg (not_or.2 ⟨hc, not_not.2 hh⟩)]
    · rw [if_neg hh, if_pos (.inr hh)]

/-- The first binding that names a latch. -/
def bindingOfLatch (latch : Word) (bs : List Binding) : Option Binding := bs.find? fun b => BitVec.ofNat 64 b.latch == latch

theorem latchScope_core (latch : Word) (s : State) : latchScope s.me latch s ≤ 1 ↔ (bindingOfLatch latch (bindingsOf s.me s)).any (fun b => b.scope == 0) = true := by
  have hscope : latchScope s.me latch s = ((bindingOfLatch latch (bindingsOf s.me s)).map fun b => b.scope + 1).getD 5 := by
    unfold latchScope bindingOfLatch wd
    split <;> rename_i h <;> rw [h] <;> rfl
  rw [hscope]
  cases bindingOfLatch latch (bindingsOf s.me s) <;> simp

/-- Whether an acquire of a latch discards a copy: its line is bound to the latch, or to none while no binding names the latch. -/
def discards (latch : Word) (bs : List Binding) (x : L1Copy) : Bool :=
  match bindingAt bs (x.vline * 64) with
  | some b => BitVec.ofNat 64 b.latch == latch
  | none => (bindingOfLatch latch bs).isNone

theorem copyCovered_latch (latch : Word) (s : State) : copyCovered (latchCovers s.me latch s) (bindingsOf s.me s) = discards latch (bindingsOf s.me s) := by
  have hnone : (!(bindingsOf s.me s).any fun b => wd b.latch == latch) = (bindingOfLatch latch (bindingsOf s.me s)).isNone := by
    rw [bindingOfLatch, ← Option.not_isSome, List.isSome_find?]
    rfl
  funext x
  unfold copyCovered latchCovers discards
  rw [hnone]
  cases bindingAt (bindingsOf s.me s) (x.vline * 64)
  case none => simp
  case some b => simp [wd]

theorem acquireEffects_acquired (latch : Word) (s : State) : Acquired latch s (acquireEffects latch s) := by
  intro h
  rw [acquireEffects, copies_acquire, copyCovered_latch]
  exact if_congr (or_congr_left (latchScope_core latch s)) rfl rfl

/-- What an acquire discards depends on the cores, the strand's core and launch, and the launches. -/
theorem acquired_congr {latch : Word} {s t u v : State} (h : Acquired latch s t) (hmesh : u.me.mesh = s.me.mesh) (hlaunch : u.me.launch = s.me.launch)
    (hlaunches : u.launches = s.launches) (hcore : u.core = s.core) (hcores : u.cores = s.cores) (hcore' : v.core = t.core) (hcores' : v.cores = t.cores) : Acquired latch u v := by
  have hbindings : bindingsOf u.me u = bindingsOf s.me s := by rw [bindingsOf, bindingsOf, launchAt, launchAt, hlaunch, hlaunches]
  have hat := coreAt_congr hcore hcores
  have hserve : l1Cores u.me.mesh u = l1Cores s.me.mesh s := by rw [l1Cores, l1Cores, hmesh, hat]
  unfold Acquired at h ⊢
  rw [hbindings, hserve]
  intro bs own goes k
  rw [coreAt_congr hcore' hcores', hat]
  exact h k

end Sys2Proof.Machine
end

section
/-! The latch instructions (O34): what each does with the word that it reads (R108, R109, R159). -/

namespace Sys2Proof.Machine

open Sys2Proof.Claims Sys2Proof.Laws

/-! ## A latch taken -/

/-- A latch has been taken, and its acquire made: it is among those the strand holds, of the strand's other state only RCAUSE may differ, and copies are gone. -/
structure Taken (va rcause : Word) (s s1 t : State) : Prop where
  me : ∃ ls : List HeldLatch, t.me = { s.me with latches := ls, rcause := rcause } ∧ ∃ l ∈ ls, l.va = va
  acquired : Acquired va s1 t

theorem holdLatch_holds (va : Word) (t : Target) (s : State) :
    ∃ ls : List HeldLatch, holdLatch va t s = { s with me := { s.me with latches := ls } } ∧ ∃ l ∈ ls, l.va = va := by
  by_cases h : (s.me.latches.any fun l => l.va == va) = true
  · obtain ⟨l, hl, hva⟩ := List.any_eq_true.1 h
    refine ⟨s.me.latches, ?_, l, hl, beq_iff_eq.1 hva⟩
    rw [holdLatch, onMe, if_pos h]
  · refine ⟨s.me.latches ++ [⟨va, targetPa t, targetWb t⟩], ?_, _, List.mem_append_right _ List.mem_cons_self, rfl⟩
    rw [holdLatch, onMe, if_neg h]

/-- The state that has taken a latch, from one in which the word has been dealt with. -/
def taking (va : Word) (t : Target) (s : State) : State := acquireEffects va (holdLatch va t s)

theorem taking_taken {va rcause : Word} {s s1 u : State} (t : Target) (hu : OnlyHomes s1 { u with me := s1.me }) (hme : s1.me = s.me) (hume : u.me = { s.me with rcause := rcause }) :
    Taken va rcause s s1 (taking va t u) ∧ (taking va t u).mem = u.mem := by
  obtain ⟨ls, hholds, hl⟩ := holdLatch_holds va t u
  have hsame := acquireCopies_same (latchCovers (holdLatch va t u).me va (holdLatch va t u)) (latchScope (holdLatch va t u).me va (holdLatch va t u)) (holdLatch va t u)
  have hheld : (taking va t u).me = (holdLatch va t u).me := by rw [taking, acquireEffects, hsame]
  have hmem : (taking va t u).mem = (holdLatch va t u).mem := by rw [taking, acquireEffects, hsame]
  have hstrand : (holdLatch va t u).me = { s.me with latches := ls, rcause := rcause } := by rw [hholds, hume]
  refine ⟨⟨⟨ls, hheld.trans hstrand, hl⟩, ?_⟩, hmem.trans (by rw [hholds])⟩
  refine acquired_congr (acquireEffects_acquired va (holdLatch va t u)) ?_ ?_ ?_ ?_ ?_ rfl rfl
  · rw [hstrand, hme]
  · rw [hstrand, hme]
  · rw [hholds]
    exact hu.launches_eq.symm
  · rw [hholds]
    exact hu.core_eq.symm
  · rw [hholds]
    exact hu.cores_eq.symm

theorem setRlat_eq (s : State) : setRlat s = { s with me := { s.me with rcause := s.me.rcause ||| 0x200 } } := by rw [setRlat, onMe, setBit_rlat]

/-! ## One attempt to acquire -/

section
variable {i : Instr} {va w : Word} {t : Target} {s u : State} (h : latchRead i va s = .ok (w, t) u)
include h

theorem acquireOnce_mine (hm : heldByMe w u = true) : acquireOnce i va s = if u.me.replay then .ok (true, t) (taking va t (setRlat u)) else illegal i u := by
  rw [acquireOnce, h, Res.bind]
  dsimp only
  rw [if_pos hm]
  rfl

variable (hm : heldByMe w u = false)
include hm

theorem acquireOnce_other (hw : w.getLsbD 19 = true) : acquireOnce i va s = .ok (false, t) u := by
  rw [acquireOnce, h, Res.bind]
  dsimp only
  rw [if_neg (by rw [hm]; exact Bool.false_ne_true), lwHELD, bit_eq_getLsbD, if_pos hw]

theorem acquireOnce_free (hw : w.getLsbD 19 = false) :
    acquireOnce i va s = .ok (true, t) (taking va t (latchSwap t w (wd (fld w 32 32 * 2 ^ 32 + meWord u.me u)) u).2) := by
  rw [acquireOnce, h, Res.bind]
  dsimp only
  rw [if_neg (by rw [hm]; exact Bool.false_ne_true), lwHELD, bit_eq_getLsbD, if_neg (by rw [hw]; exact Bool.false_ne_true)]
  rfl

end

/-! ## ACQ, TRYACQ, ACQ.OBS -/

section
variable {d a : GReg} {t : Target} {s u : State}

theorem execAcq_taken (h : acquireOnce (.acq a) (gR a s) s = .ok (true, t) u) : exec (.acq a) s = .next (advance (unwatch u)) := by
  dsimp only [exec, execAcq]
  rw [h]
  rfl

theorem execAcq_waits (h : acquireOnce (.acq a) (gR a s) s = .ok (false, t) u) : exec (.acq a) s = .next (waitFor (targetLoc t 0) u) := by
  dsimp only [exec, execAcq]
  rw [h]
  rfl

theorem execTryacq_answers {b : Bool} (h : acquireOnce (.tryacq d a) (gR a s) s = .ok (b, t) u) : exec (.tryacq d a) s = .next (advance (setG d (truth b) u)) := by
  dsimp only [exec, execTryacq]
  rw [h]
  rfl

/-- The state that ACQ or TRYACQ leaves after it has taken the latch. -/
def takenBy (i : Instr) (d : GReg) (s : State) : State :=
  match i with
  | .acq _ => advance (unwatch s)
  | _ => advance (setG d (truth true) s)

theorem exec_taken {i : Instr} (hi : i = .acq a ∨ i = .tryacq d a) (h : acquireOnce i (gR a s) s = .ok (true, t) u) : exec i s = .next (takenBy i d u) := by
  rcases hi with rfl | rfl
  · exact execAcq_taken h
  · exact execTryacq_answers h

theorem exec_notTaken {i : Instr} (hi : i = .acq a ∨ i = .tryacq d a) (h : acquireOnce i (gR a s) s = .stop u) : exec i s = .next u := by
  rcases hi with rfl | rfl
  · dsimp only [exec, execAcq]
    rw [h]
    rfl
  · dsimp only [exec, execTryacq]
    rw [h]
    rfl

theorem takenBy_rest (i : Instr) (d : GReg) (u : State) : (takenBy i d u).mem = u.mem ∧ (takenBy i d u).core = u.core ∧ (takenBy i d u).cores = u.cores := by
  unfold takenBy
  split
  · exact ⟨rfl, rfl, rfl⟩
  · exact ⟨by rw [advance_mem, setG_mem], by rw [advance_core, setG_core], by rw [advance_cores, setG_cores]⟩

theorem advanced_pc_congr {x y : Strand} (hpc : x.pc = y.pc) (hlc : x.lc = y.lc) (htstat : x.tstat = y.tstat) : (advanced x).pc = (advanced y).pc := by
  unfold advanced inHandler
  rw [hpc, hlc, htstat]
  split <;> rfl

end

theorem advance_me (s : State) : (advance s).me = advanced s.me := rfl

section
variable {i : Instr} {d a : GReg} {va rcause : Word} {s s1 u : State} (hi : i = .acq a ∨ i = .tryacq d a) (h : Taken va rcause s s1 u)
include h

theorem takenBy_rcause : (takenBy i d u).me.rcause = rcause := by
  obtain ⟨ls, hme, -⟩ := h.me
  unfold takenBy
  split
  · rw [advance_me, advanced_rcause, unwatch, hme]
  · rw [advance_me, advanced_rcause, setG_me_rcause, hme]

theorem takenBy_latches : ∃ l ∈ (takenBy i d u).me.latches, l.va = va := by
  obtain ⟨ls, hme, hl⟩ := h.me
  unfold takenBy
  split
  · rwa [advance_me, advanced_latches, unwatch, hme]
  · rwa [advance_me, advanced_latches, setG_me_latches, hme]

theorem takenBy_pc : (takenBy i d u).me.pc = (advance s).me.pc := by
  obtain ⟨ls, hme, -⟩ := h.me
  unfold takenBy
  split
  · exact advanced_pc_congr (by rw [unwatch, hme]) (by rw [unwatch, hme]) (by rw [unwatch, hme])
  · exact advanced_pc_congr (by rw [setG_me_pc, hme]) (by rw [setG_me_lc, hme]) (by rw [setG_me_tstat, hme])

theorem takenBy_acquired : Acquired va s1 (takenBy i d u) := by
  obtain ⟨-, hcore, hcores⟩ := takenBy_rest i d u
  exact acquired_congr h.acquired rfl rfl rfl rfl rfl hcore hcores

include hi

theorem takenBy_others {r : GReg} (hr : i = .tryacq d a → r ≠ d) : (takenBy i d u).me.g[r] = s.me.g[r] := by
  obtain ⟨ls, hme, -⟩ := h.me
  rcases hi with rfl | rfl
  · simp only [takenBy, advance_me, advanced_g, unwatch, hme]
  · have hne : d.1 ≠ r.1 := fun e => hr rfl (Fin.ext e.symm)
    by_cases hd : d = 0
    · simp [takenBy, advance_me, setG, hd, hme]
    · simp [takenBy, advance_me, setG, hd, hme, Vector.getElem_set_ne _ _ hne]

end

theorem takenBy_flag (d a : GReg) (u : State) (hd : d ≠ 0) : (takenBy (.tryacq d a) d u).me.g[d] = 1 := by
  simp [takenBy, advance_me, setG, hd, truth]

/-! ## The word changed -/

/-- A compare-and-swap from the word that stands there. -/
theorem latchSwap_word {s : State} (h : s.mem.wf = true) (pa : Nat) (m : MemType) (new : Word) :
    wordAt (latchSwap (.mem pa m) (BitVec.ofNat 64 (wordAt s pa 8)) new s).2 pa 8 = new.toNat := by
  rw [latchSwap, wordAt_rmwAt _ _ _ h, if_pos rfl]
  exact Nat.mod_eq_of_lt new.isLt

theorem latchSwap_old (s : State) (pa : Nat) (m : MemType) (w new : Word) : (latchSwap (.mem pa m) w new s).1 = BitVec.ofNat 64 (wordAt s pa 8) := rmwAt_old _ _ _ _ _ _

theorem latchSwap_homes (s : State) (pa : Nat) (m : MemType) (w new : Word) : OnlyHomes s (latchSwap (.mem pa m) w new s).2 := OnlyHomes.rmwAt _ _ _ _ _

/-- The word of a latch that the strand has taken (R108). -/
theorem takenWord {w : Word} {n : Nat} (hn : n < 2 ^ 32) : (wd (fld w 32 32 * 2 ^ 32 + n)).toNat = w.toNat / 2 ^ 32 * 2 ^ 32 + n := by
  have := w.isLt
  simp only [wd, fld, field, BitVec.toNat_ofNat]
  omega

/-- The word of a latch that is released: SEQ goes up (R108). -/
theorem releasedWord_toNat (w : Word) : (releasedWord w).toNat = ((w >>> 40).toNat + 1) % 2 ^ 24 * 2 ^ 40 := by
  have := w.isLt
  simp only [releasedWord, wd, lwSEQ, fld, field, BitVec.toNat_ofNat, BitVec.toNat_ushiftRight, Nat.shiftRight_eq_div_pow]
  omega

theorem seq_of_word (w : Word) : wd (lwSEQ w) = w >>> 40 := by
  apply BitVec.eq_of_toNat_eq
  have := w.isLt
  simp only [wd, lwSEQ, fld, field, BitVec.toNat_ofNat, BitVec.toNat_ushiftRight, Nat.shiftRight_eq_div_pow]
  omega

end Sys2Proof.Machine
end

section
/-! The four latch instructions on every state of a latch word (O34). -/

namespace Sys2Proof.Claims

open Sys2Proof.Machine Sys2Proof.Laws

/-- The instructions that read a latch word at g[a]. -/
def OnLatch (i : Instr) (d a : GReg) : Prop := i = .acq a ∨ i = .tryacq d a ∨ i = .acqObs d a ∨ i = .rel a

/-- What ends the read of the latch word ends each of them. -/
theorem exec_latch_stops {i : Instr} {d a : GReg} {s t : State} (hi : OnLatch i d a) (hs : Settled s) (h : latchRead i (gR a s) s = .stop t) : exec i s = .next t := by
  have honce {i : Instr} (h : latchRead i (gR a s) s = .stop t) : acquireOnce i (gR a s) s = .stop t := by
    rw [acquireOnce, h]
    rfl
  rcases hi with rfl | rfl | rfl | rfl
  · exact exec_notTaken (d := d) (.inl rfl) (honce h)
  · exact exec_notTaken (.inr rfl) (honce h)
  · dsimp only [exec, execAcqObs]
    rw [h]
    rfl
  · dsimp only [exec, execRel]
    rw [deliverStores_quiet s hs, Res.bind, releaseLatch, h]
    rfl

/-- The instruction has read a good latch word of the package's memory. -/
structure LatchAt (s s1 : State) (a : GReg) (pa : Nat) (m : MemType) : Prop where
  place : LatchPlace 8 (gR a s) s
  settled : Settled s
  leads : translate (reqOf s.me) .atomic 8 (gR a s) s = (.ok (.mem pa m), s1)
  own : ownMemory pa = true
  settled' : Settled s1
  same : s1.me = s.me
  good : badAt (locsAt (.mem pa m) 8) s1 = none

/-- The word that stands there. -/
def latchWord (s1 : State) (pa : Nat) : Word := BitVec.ofNat 64 (wordAt s1 pa 8)

section
variable {s s1 : State} {d a : GReg} {pa : Nat} {m : MemType} (h : LatchAt s s1 a pa m)
include h

theorem LatchAt.read_me : (wordRead pa m s1).me = s.me := (wordRead_only pa m s1).me_eq.trans h.same
omit h in
theorem latchRead_mem : (wordRead pa m s1).mem = s1.mem := (wordRead_only pa m s1).mem_eq

theorem LatchAt.reads (i : Instr) : latchRead i (gR a s) s = if lwReserved (latchWord s1 pa) then illegal i (wordRead pa m s1) else .ok (latchWord s1 pa, .mem pa m) (wordRead pa m s1) :=
  latchRead_own (latchPlace_own h.place h.leads h.own) h.settled' h.good

theorem latch_reserved (hw : lwReserved (latchWord s1 pa) = true) {i : Instr} (hi : OnLatch i d a) : ∃ t, exec i s = .next (illop i 0 t) ∧ t.me = s.me ∧ t.mem = s1.mem :=
  ⟨wordRead pa m s1, exec_latch_stops hi h.settled (by rw [h.reads, if_pos hw]; rfl), h.read_me, latchRead_mem⟩

variable (hw : lwReserved (latchWord s1 pa) = false)
include hw

theorem LatchAt.word (i : Instr) : latchRead i (gR a s) s = .ok (latchWord s1 pa, .mem pa m) (wordRead pa m s1) := by
  rw [h.reads, hw, if_neg Bool.false_ne_true]

/-! ## A latch that nobody holds -/

section
variable (hm : heldByMe (latchWord s1 pa) (wordRead pa m s1) = false) (hfree : (latchWord s1 pa).getLsbD 19 = false)
include hm hfree

theorem latch_taken {i : Instr} (hi : i = .acq a ∨ i = .tryacq d a) (hlt : meWord s.me s1 < 2 ^ 32) : ∃ t, exec i s = .next t ∧
    wordAt t pa 8 = (latchWord s1 pa).toNat / 2 ^ 32 * 2 ^ 32 + meWord s.me s1 ∧ SameOutside pa 8 s1 t ∧
    (∃ l ∈ t.me.latches, l.va = gR a s) ∧ (∀ r : GReg, (i = .tryacq d a → r ≠ d) → t.me.g[r] = s.me.g[r]) ∧ (i = .tryacq d a → d ≠ 0 → t.me.g[d] = 1) ∧
    t.me.pc = (advance s).me.pc ∧ Acquired (gR a s) s1 t := by
  have honly := wordRead_only pa m s1
  have hread := h.read_me
  have hmem : (wordRead pa m s1).mem = s1.mem := latchRead_mem
  have hwf : (wordRead pa m s1).mem.wf = true := by rw [hmem, h.settled'.kept.mem]
  have hword : wordAt (wordRead pa m s1) pa 8 = wordAt s1 pa 8 := by rw [wordAt, hmem, wordAt]
  have hme : meWord (wordRead pa m s1).me (wordRead pa m s1) = meWord s.me s1 := by rw [hread, meWord, meWord, honly.same]
  have honce := acquireOnce_free (h.word hw i) hm hfree
  rw [hme] at honce
  generalize hnew : wd (fld (latchWord s1 pa) 32 32 * 2 ^ 32 + meWord s.me s1) = new at honce
  have hhomes := (OnlyHomes.of_dies honly).trans (latchSwap_homes (wordRead pa m s1) pa m (latchWord s1 pa) new)
  obtain ⟨htaken, htmem⟩ := taking_taken (va := gR a s) (rcause := s.me.rcause) (.mem pa m) (s := s) (hhomes.trans ⟨by rw [hhomes.me_eq]⟩) h.same (hhomes.me_eq.trans h.same)
  obtain ⟨hbymem, -, -⟩ := takenBy_rest i d (taking (gR a s) (.mem pa m) (latchSwap (.mem pa m) (latchWord s1 pa) new (wordRead pa m s1)).2)
  refine ⟨_, exec_taken hi honce, ?_, ?_, takenBy_latches htaken, fun r => takenBy_others hi htaken, ?_, takenBy_pc htaken, takenBy_acquired htaken⟩
  · rw [wordAt, hbymem, htmem, ← takenWord hlt, hnew, latchWord, ← hword]
    exact latchSwap_word hwf pa m new
  · intro x hx
    rw [hbymem, htmem, ← hmem]
    exact rmwAt_outside _ _ _ hwf pa m x hx
  · rintro rfl hd
    exact takenBy_flag d a _ hd

theorem latch_observed : ∃ t, exec (.acqObs d a) s = .next t ∧ t.me = (advance (setG d (latchWord s1 pa >>> 40) s)).me ∧ t.mem = s1.mem ∧ Acquired (gR a s) s1 t := by
  have honly := wordRead_only pa m s1
  have hacquired := acquireEffects_acquired (gR a s) (unwatch (wordRead pa m s1))
  have hsame := acquireCopies_same (latchCovers (unwatch (wordRead pa m s1)).me (gR a s) (unwatch (wordRead pa m s1)))
    (latchScope (unwatch (wordRead pa m s1)).me (gR a s) (unwatch (wordRead pa m s1))) (unwatch (wordRead pa m s1))
  have hme : (acquireEffects (gR a s) (unwatch (wordRead pa m s1))).me = s.me := by
    rw [acquireEffects, hsame]
    exact h.read_me
  have hmem : (acquireEffects (gR a s) (unwatch (wordRead pa m s1))).mem = s1.mem := by
    rw [acquireEffects, hsame]
    exact latchRead_mem
  have hlaunches : (wordRead pa m s1).launches = s1.launches := by rw [honly.same]
  refine ⟨advance (setG d (latchWord s1 pa >>> 40) (acquireEffects (gR a s) (unwatch (wordRead pa m s1)))), ?_, advance_setG_me hme _ _, by rw [advance_mem, setG_mem, hmem], ?_⟩
  · dsimp only [exec, execAcqObs]
    rw [h.word hw, Res.bind]
    dsimp only
    rw [hm, if_neg Bool.false_ne_true, lwHELD, bit_eq_getLsbD, hfree, if_neg Bool.false_ne_true, seq_of_word]
    rfl
  · exact acquired_congr hacquired (congrArg Strand.mesh honly.me_eq).symm (congrArg Strand.launch honly.me_eq).symm hlaunches.symm honly.core_eq.symm honly.cores_eq.symm
      (by rw [advance_core, setG_core]) (by rw [advance_cores, setG_cores])

end

/-! ## A latch that another holds -/

section
variable (hm : heldByMe (latchWord s1 pa) (wordRead pa m s1) = false) (hheld : (latchWord s1 pa).getLsbD 19 = true)
include hm hheld

theorem latch_waits {i : Instr} (hi : i = .acq a ∨ i = .acqObs d a) : ∃ t, exec i s = .next t ∧ t.me = s.me ∧ t.mem = s1.mem ∧
    ∃ x ∈ t.watches, x.mesh = s.me.mesh ∧ x.sid = s.me.sid ∧ x.line = .mem (pa / 64) ∧ x.hit = false := by
  have hread := h.read_me
  refine ⟨waitFor (targetLoc (.mem pa m) 0) (wordRead pa m s1), ?_, hread, latchRead_mem, _, List.mem_append_right _ List.mem_cons_self, by rw [hread], by rw [hread], rfl, rfl⟩
  rcases hi with rfl | rfl
  · exact execAcq_waits (acquireOnce_other (h.word hw _) hm hheld)
  · dsimp only [exec, execAcqObs]
    rw [h.word hw, Res.bind]
    dsimp only
    rw [hm, if_neg Bool.false_ne_true, lwHELD, bit_eq_getLsbD, hheld, if_pos rfl]
    rfl

theorem latch_denied : ∃ t, exec (.tryacq d a) s = .next t ∧ t.me = (advance (setG d 0 s)).me ∧ t.mem = s1.mem :=
  ⟨_, execTryacq_answers (acquireOnce_other (h.word hw _) hm hheld), advance_setG_me h.read_me _ _, by rw [advance_mem, setG_mem, latchRead_mem]⟩

end

/-! ## REL -/

omit hw in
theorem execRel_latch : exec (.rel a) s = ((releaseLatch (.rel a) (gR a s) s).bind fun _ s => .ok () (advance s)).out := by
  dsimp only [exec, execRel]
  rw [deliverStores_quiet s h.settled]
  rfl

omit hw in
theorem releaseEffects_read (va : Word) : releaseEffects va (wordRead pa m s1) = .ok () (wordRead pa m s1) := releaseAt_quiet _ _ _ _ _ (wordRead_settled h.settled' pa m)

/-- The strand no longer holds a latch. -/
def lettingGo (va rcause : Word) (s : State) : State := { s with me := { s.me with latches := s.me.latches.filter fun l => l.va != va, rcause := rcause } }

theorem rel_notMine (hm : heldByMe (latchWord s1 pa) (wordRead pa m s1) = false) : (s.me.replay = false → ∃ t, exec (.rel a) s = .next (illop (.rel a) 0 t) ∧ t.me = s.me ∧ t.mem = s1.mem) ∧
    (s.me.replay = true → ∃ t, exec (.rel a) s = .next t ∧ t.mem = s1.mem ∧ t.me = (advance (lettingGo (gR a s) (s.me.rcause ||| 0x200) s)).me) := by
  have hread := h.read_me
  have hrelease : releaseLatch (.rel a) (gR a s) s = if s.me.replay then .ok () (dropHeld (gR a s) (setRlat (wordRead pa m s1))) else illegal (.rel a) (wordRead pa m s1) := by
    rw [releaseLatch, h.word hw, Res.bind]
    dsimp only
    rw [hm, if_neg Bool.false_ne_true, hread, releaseEffects_read h]
    rfl
  rw [execRel_latch h, hrelease]
  refine ⟨fun hr => ⟨wordRead pa m s1, ?_, hread, latchRead_mem⟩, fun hr => ⟨advance (dropHeld (gR a s) (setRlat (wordRead pa m s1))), ?_, ?_, ?_⟩⟩
  · rw [hr, if_neg Bool.false_ne_true]
    rfl
  · rw [hr, if_pos rfl]
    rfl
  · rw [advance_mem, dropHeld, onMe_mem, setRlat, onMe_mem, latchRead_mem]
  · rw [advance_me, advance_me, setRlat_eq, dropHeld, onMe_me, hread]
    rfl

section
variable (hm : heldByMe (latchWord s1 pa) (wordRead pa m s1) = true)
include hm

theorem rel_mine : ∃ t, exec (.rel a) s = .next t ∧ wordAt t pa 8 = ((latchWord s1 pa >>> 40).toNat + 1) % 2 ^ 24 * 2 ^ 40 ∧ SameOutside pa 8 s1 t ∧
    t.me = (advance (lettingGo (gR a s) s.me.rcause s)).me := by
  have hread := h.read_me
  have hmem : (wordRead pa m s1).mem = s1.mem := latchRead_mem
  have hwf : (wordRead pa m s1).mem.wf = true := by rw [hmem, h.settled'.kept.mem]
  have hword : wordAt (wordRead pa m s1) pa 8 = wordAt s1 pa 8 := by rw [wordAt, hmem, wordAt]
  have hold : ((latchSwap (.mem pa m) (latchWord s1 pa) (releasedWord (latchWord s1 pa)) (wordRead pa m s1)).1 == latchWord s1 pa) = true := by
    rw [latchSwap_old, hword]
    exact beq_self_eq_true _
  have hhomes := latchSwap_homes (wordRead pa m s1) pa m (latchWord s1 pa) (releasedWord (latchWord s1 pa))
  refine ⟨advance (dropHeld (gR a s) (latchSwap (.mem pa m) (latchWord s1 pa) (releasedWord (latchWord s1 pa)) (wordRead pa m s1)).2), ?_, ?_, ?_, ?_⟩
  · rw [execRel_latch h, releaseLatch, h.word hw, Res.bind]
    dsimp only
    rw [hm, if_pos rfl, releaseEffects_read h, Res.bind]
    dsimp only [require]
    rw [hold]
    rfl
  · have hvalue := latchSwap_word hwf pa m (releasedWord (latchWord s1 pa))
    rw [hword] at hvalue
    exact hvalue.trans (releasedWord_toNat _)
  · intro x hx
    rw [← hmem]
    exact rmwAt_outside _ _ _ hwf pa m x hx
  · rw [advance_me, advance_me, dropHeld, onMe_me, hhomes.me_eq, hread]
    rfl

/-! ## A latch that the strand holds -/

theorem acqObs_mine : ∃ t, exec (.acqObs d a) s = .next (illop (.acqObs d a) 0 t) ∧ t.me = s.me ∧ t.mem = s1.mem := by
  refine ⟨wordRead pa m s1, ?_, h.read_me, latchRead_mem⟩
  dsimp only [exec, execAcqObs]
  rw [h.word hw, Res.bind]
  dsimp only
  rw [hm, if_pos rfl]
  rfl

theorem latch_again {i : Instr} (hi : i = .acq a ∨ i = .tryacq d a) : (s.me.replay = false → ∃ t, exec i s = .next (illop i 0 t) ∧ t.me = s.me ∧ t.mem = s1.mem) ∧
    (s.me.replay = true → ∃ t, exec i s = .next t ∧ t.mem = s1.mem ∧ t.me.rcause = s.me.rcause ||| 0x200 ∧ (∃ l ∈ t.me.latches, l.va = gR a s) ∧
      (∀ r : GReg, (i = .tryacq d a → r ≠ d) → t.me.g[r] = s.me.g[r]) ∧ (i = .tryacq d a → d ≠ 0 → t.me.g[d] = 1) ∧ t.me.pc = (advance s).me.pc ∧ Acquired (gR a s) s1 t) := by
  have hread := h.read_me
  have honly := wordRead_only pa m s1
  have honce := acquireOnce_mine (h.word hw i) hm
  rw [hread] at honce
  refine ⟨fun hr => ⟨wordRead pa m s1, ?_, hread, latchRead_mem⟩, fun hr => ?_⟩
  · rw [hr, if_neg Bool.false_ne_true] at honce
    exact exec_notTaken hi honce
  · rw [hr, if_pos rfl, setRlat_eq, hread] at honce
    have hhomes : OnlyHomes s1 (wordRead pa m s1) := .of_dies honly
    obtain ⟨htaken, htmem⟩ := taking_taken (va := gR a s) (rcause := s.me.rcause ||| 0x200) (s := s) (s1 := s1) (.mem pa m)
      (u := { wordRead pa m s1 with me := { s.me with rcause := s.me.rcause ||| 0x200 } }) (hhomes.trans ⟨by rw [hhomes.me_eq]⟩) h.same rfl
    refine ⟨_, exec_taken hi honce, ?_, takenBy_rcause htaken, takenBy_latches htaken, fun r => takenBy_others hi htaken, ?_, takenBy_pc htaken, takenBy_acquired htaken⟩
    · rw [(takenBy_rest i d _).1, htmem]
      exact latchRead_mem
    · rintro rfl hd
      exact takenBy_flag d a _ hd

end

end

/-- Settles O34: the word that is read decides what each instruction does. -/
theorem latches : Obligations.Latches := by
  unfold Obligations.Latches
  constructor
  · intro s d a i hi hs place
    exact ⟨fun hp => exec_latch_stops hi hs (latchRead_stops (latchPlace_illegal hp)), fun hp =>
      ⟨fun x s1 ht => exec_latch_stops hi hs (latchRead_stops (latchPlace_fault hp ht)),
        fun pa m s1 ht hown => exec_latch_stops hi hs (latchRead_stops (latchPlace_foreign hp ht hown))⟩⟩
  · intro s s1 d a pa m h8 hwindow hroute hs ht hown hs1 hme hgood w mine waits refused letGo hchain hmesh hsid
    have h : LatchAt s s1 a pa m := ⟨⟨h8, hwindow, hroute⟩, hs, ht, hown, hs1, hme, hgood⟩
    have hlt : meWord s.me s1 < 2 ^ 32 := by
      unfold meWord
      omega
    have hmine : heldByMe w (wordRead pa m s1) = true ↔ w.getLsbD 19 = true ∧ mine := by
      have hread := h.read_me
      have honly := wordRead_only pa m s1
      have hid : (wordRead pa m s1).chainid = s1.chainid := by rw [honly.same]
      rw [heldByMe_iff (by rw [hid]; exact hchain) (by rw [hread]; exact hmesh) (by rw [hread]; exact hsid), meWord, hid, hread]
    have hother (hn : ¬(w.getLsbD 19 = true ∧ mine)) : heldByMe w (wordRead pa m s1) = false := Bool.not_eq_true _ ▸ mt hmine.1 hn
    refine ⟨fun hres i hi => latch_reserved h hres hi, fun hres => ⟨fun hfree => ?_, fun hheld hn => ?_, fun hn => ?_, fun hheld hm => ?_⟩⟩
    · have hm := hother fun hx => absurd hx.1 (by rw [hfree]; exact Bool.false_ne_true)
      exact ⟨fun i hi => latch_taken h hres hm hfree hi hlt, latch_observed h hres hm hfree⟩
    · have hm := hother fun hx => hn hx.2
      exact ⟨latch_waits (d := d) h hres hm hheld (.inl rfl), latch_waits h hres hm hheld (.inr rfl), latch_denied h hres hm hheld⟩
    · exact rel_notMine h hres (hother hn)
    · have hm' := hmine.2 ⟨hheld, hm⟩
      exact ⟨acqObs_mine h hres hm', fun i hi => latch_again h hres hm' hi, rel_mine h hres hm'⟩

end Sys2Proof.Claims
end

section
/-! Publications and device launches (O37), the facts: the two words of a publication, and a record put into the slot of a queue (R302, R303, R318, R321). -/

namespace Sys2Proof.Machine

open Sys2Proof.Claims Sys2Proof.Laws

/-! ## Runs of bytes -/

theorem getN_add (mem : Memory) (a j k : Nat) : mem.getN a (j + k) = mem.getN a j ++ mem.getN (a + j) k := by
  induction j generalizing a with
  | zero => simp [Memory.getN]
  | succ j ih =>
    rw [Nat.succ_add, Memory.getN, Memory.getN, ih, List.cons_append, Nat.add_right_comm a 1 j, Nat.add_assoc a j 1]

theorem getN_length (mem : Memory) (a n : Nat) : (mem.getN a n).length = n := by rw [getN_eq_map, List.length_map, List.length_range]

/-- Two runs of bytes that stand in memory one after the other. -/
theorem getN_of_append {mem : Memory} {a j k : Nat} {xs ys : List (BitVec 8)} (h : mem.getN a (j + k) = xs ++ ys) (hx : xs.length = j) : mem.getN a j = xs ∧ mem.getN (a + j) k = ys := by
  rw [getN_add] at h
  exact List.append_inj h ((getN_length _ _ _).trans hx.symm)

/-- Bytes put at their homes stand there, and no other byte of memory has changed. -/
theorem homeBytes_run {s : State} (hs : s.mem.wf = true) (wb : Bool) (pa : Nat) (bs : List (BitVec 8)) :
    (homeBytes wb (memBytes pa bs) s).mem.getN pa bs.length = bs ∧ SameOutside pa bs.length s (homeBytes wb (memBytes pa bs) s) := by
  refine ⟨getN_homeBytes wb bs pa hs, fun a ha => homeBytes_other _ _ _ hs a fun b hb e => ?_⟩
  obtain ⟨x, hx, hlo, hhi⟩ := loc_of_memBytes hb
  rw [hx, Loc.mem.injEq] at e
  omega

theorem homeWrite_run {s : State} (hs : s.mem.wf = true) (ctx : Nat) (wb : Bool) (pa : Nat) (bs : List (BitVec 8)) :
    (homeWrite ctx wb (memBytes pa bs) s).mem.getN pa bs.length = bs ∧ SameOutside pa bs.length s (homeWrite ctx wb (memBytes pa bs) s) := by
  have hmem := (l2Writes_only ctx wb (memMasks (memBytes pa bs)) s).mem_eq
  obtain ⟨hrun, hrest⟩ := homeBytes_run (s := l2Writes ctx wb (memMasks (memBytes pa bs)) s) (by rw [hmem, hs]) wb pa bs
  exact ⟨hrun, fun a ha => (hrest a ha).trans (by rw [hmem])⟩

theorem onlyHomes_run (ctx : Nat) (wb : Bool) (pa : Nat) (bs : List (BitVec 8)) (s : State) : OnlyHomes s (homeWrite ctx wb (memBytes pa bs) s) :=
  .homeWrite _ _ fun _ hb => (loc_of_memBytes hb).imp fun _ h => h.1

/-! ## The words of a publication (R302) -/

theorem publicationAt_mem (pa : Nat) (m : MemType) (s : State) :
    publicationAt (.mem pa m) s = (BitVec.ofNat 64 (wordAt s pa 8), BitVec.ofNat 64 (wordAt s (pa + 8) 8)) := by
  have htwo : s.mem.getN pa 16 = s.mem.getN pa 8 ++ s.mem.getN (pa + 8) 8 := getN_add s.mem pa 8 8
  simp only [publicationAt, locsAt_mem, homeBytes_of_memLocs, htwo]
  rw [List.take_left' (getN_length _ _ _), List.drop_left' (getN_length _ _ _)]
  rfl

theorem publishedLatch_toNat (w : Word) : (publishedLatch w).toNat = (fld w 40 24 + 1) % 2 ^ 24 * 2 ^ 40 + fld w 0 40 := by
  have := w.isLt
  simp only [publishedLatch, setFld, lwSEQ, fld, field, BitVec.toNat_ofNat]
  omega

theorem publishedWord_toNat (h : Word) (final : Bool) {n : Nat} (hn : n < 2 ^ 48) :
    (publishedWord h final n).toNat = max (fld h 0 48) n + (if h.getLsbD 63 || final then 2 ^ 63 else 0) := by
  have hfld : fld h 0 48 < 2 ^ 48 := Nat.mod_lt _ (Nat.two_pow_pos 48)
  have hflag : (bit h 63 || final).toNat * 2 ^ 63 = if h.getLsbD 63 || final then 2 ^ 63 else 0 := by
    rw [bit_eq_getLsbD]
    cases h.getLsbD 63 || final <;> rfl
  have hle : (if h.getLsbD 63 || final then 2 ^ 63 else 0) ≤ 2 ^ 63 := by split <;> decide
  rw [publishedWord, wd, hflag, BitVec.toNat_ofNat, Nat.mod_eq_of_lt]
  omega

section
variable (ctx pa : Nat) (m : MemType) (final : Bool) (n : Nat) (remote : Bool) (s : State)

/-- The sixteen bytes that a publication puts at its place. -/
def publishedBytes : List (BitVec 8) :=
  bytesOf 8 (publishedLatch (BitVec.ofNat 64 (wordAt s pa 8))).toNat ++ bytesOf 8 (publishedWord (BitVec.ofNat 64 (wordAt s (pa + 8) 8)) final n).toNat

/-- The state in which they stand there. -/
def published : State := homeBytes (targetWb (.mem pa m)) (memBytes pa (publishedBytes pa final n s)) (l2Amo ctx (targetWb (.mem pa m)) (memPas (memLocs pa 16)) s)

theorem publishedBytes_length : (publishedBytes pa final n s).length = 16 := by rw [publishedBytes, List.length_append, bytesOf_length, bytesOf_length]

theorem publishAt_eq : publishAt ctx (.mem pa m) final n remote s = { published ctx pa m final n s with remotePubs := (publishAt ctx (.mem pa m) final n remote s).remotePubs } := by
  have hput : putAt (memLocs pa 16) (publishedBytes pa final n s) = memBytes pa (publishedBytes pa final n s) := by
    have h := putAt_memLocs pa (publishedBytes pa final n s)
    rwa [publishedBytes_length] at h
  rw [published, ← hput, ← locsAt_mem pa 16 m, publishedBytes, publishAt, publicationAt_mem]

theorem published_homes : OnlyHomes s (published ctx pa m final n s) :=
  (OnlyHomes.of_dies (l2Amo_only _ _ _ _)).trans (.homeBytes _ fun _ hb => (loc_of_memBytes hb).imp fun _ h => h.1)

theorem publishAt_homes : OnlyHomes s (publishAt ctx (.mem pa m) final n remote s) := by
  have hsame := publishAt_eq ctx pa m final n remote s
  have hput := published_homes ctx pa m final n s
  generalize publishAt ctx (.mem pa m) final n remote s = t at hsame ⊢
  generalize published ctx pa m final n s = u at hsame hput
  exact hput.trans ⟨by rw [hsame]⟩

variable {s} (hs : s.mem.wf = true)
include hs

theorem publishAt_run : (publishAt ctx (.mem pa m) final n remote s).mem.getN pa 16 = publishedBytes pa final n s ∧ SameOutside pa 16 s (publishAt ctx (.mem pa m) final n remote s) := by
  have hcount := (l2Amo_only ctx (targetWb (.mem pa m)) (memPas (memLocs pa 16)) s).mem_eq
  have hmem : (publishAt ctx (.mem pa m) final n remote s).mem = (published ctx pa m final n s).mem := by rw [publishAt_eq]
  obtain ⟨hrun, hrest⟩ := homeBytes_run (s := l2Amo ctx (targetWb (.mem pa m)) (memPas (memLocs pa 16)) s) (by rw [hcount, hs]) (targetWb (.mem pa m)) pa (publishedBytes pa final n s)
  rw [publishedBytes_length] at hrun hrest
  refine ⟨by rw [hmem]; exact hrun, fun a ha => ?_⟩
  rw [hmem]
  exact (hrest a ha).trans (by rw [hcount])

theorem publishAt_latch : wordAt (publishAt ctx (.mem pa m) final n remote s) pa 8 =
    (fld (BitVec.ofNat 64 (wordAt s pa 8)) 40 24 + 1) % 2 ^ 24 * 2 ^ 40 + fld (BitVec.ofNat 64 (wordAt s pa 8)) 0 40 := by
  obtain ⟨hrun, -⟩ := publishAt_run ctx pa m final n remote hs
  obtain ⟨hlow, -⟩ := getN_of_append (j := 8) (k := 8) hrun (bytesOf_length _ _)
  rw [wordAt, hlow, natOf_bytesOf, publishedLatch_toNat, Nat.mod_eq_of_lt]
  exact publishedLatch_toNat _ ▸ (publishedLatch _).isLt

theorem publishAt_mark (hn : n < 2 ^ 48) : wordAt (publishAt ctx (.mem pa m) final n remote s) (pa + 8) 8 =
    max (fld (BitVec.ofNat 64 (wordAt s (pa + 8) 8)) 0 48) n + (if (BitVec.ofNat 64 (wordAt s (pa + 8) 8)).getLsbD 63 || final then 2 ^ 63 else 0) := by
  obtain ⟨hrun, -⟩ := publishAt_run ctx pa m final n remote hs
  obtain ⟨-, hhigh⟩ := getN_of_append (j := 8) (k := 8) hrun (bytesOf_length _ _)
  rw [wordAt, hhigh, natOf_bytesOf, ← publishedWord_toNat _ _ hn]
  exact Nat.mod_eq_of_lt (publishedWord _ _ _).isLt

end

end Sys2Proof.Machine
end

section
/-! PUBHW, PUBHW.FIN and LAUNCH (O37). -/

namespace Sys2Proof.Machine

open Sys2Proof.Claims Sys2Proof.Laws

/-! ## PUBHW (R302) -/

/-- Either form of the publication is the one operation. -/
theorem exec_publish {a b : GReg} {i : Instr} {final : Bool} (hi : i = .pubhw a b ∧ final = false ∨ i = .pubhwFin a b ∧ final = true) (s : State) : exec i s = publish i final a b s := by
  rcases hi with ⟨rfl, rfl⟩ | ⟨rfl, rfl⟩ <;> rfl

section
variable {i : Instr} {final : Bool} {a b : GReg} {s : State}

theorem publishable_iff : ((gR a s).toNat % 16 == 0 && decide ((gR b s).toNat < 2 ^ 48)) = true ↔ (gR a s).toNat % 16 = 0 ∧ (gR b s).toNat < 2 ^ 48 := by
  rw [Bool.and_eq_true, beq_iff_eq, decide_eq_true_iff]

theorem publish_illegal (hd : deliverStores s = .ok () s) (h : (gR a s).toNat % 16 ≠ 0 ∨ 2 ^ 48 ≤ (gR b s).toNat) : publish i final a b s = .next (illop i 0 s) := by
  have hbad : ¬((gR a s).toNat % 16 == 0 && decide ((gR b s).toNat < 2 ^ 48)) = true := by
    rw [publishable_iff, not_and_or, Nat.not_lt]
    exact h
  rw [publish, hd, Res.bind, require, if_neg hbad]
  rfl

section
variable (ha : (gR a s).toNat % 16 = 0) (hb : (gR b s).toNat < 2 ^ 48)
include ha hb

theorem publish_called {m : RemoteMsg} (hd : deliverStores s = .ok () s) (hp : pendingRemote s = some m) :
    publish i final a b s = ((remoteAnswer i (gR a s) m s).bind fun _ s => .ok () (advance s)).out := by
  rw [publish, hd, Res.bind, require, if_pos (publishable_iff.2 ⟨ha, hb⟩), Res.bind, hp]

variable (hs : Claims.Settled s)
include hs

theorem publish_here {s1 : State} {pa : Nat} {m : MemType} (hplace : LatchPlace 16 (gR a s) s) (ht : translate (reqOf s.me) .atomic 8 (gR a s) s = (.ok (.mem pa m), s1))
    (hown : ownMemory pa = true) (hs1 : Claims.Settled s1) (hgood : badAt (locsAt (.mem pa m) 16) s1 = none) (hlatch : lwReserved (BitVec.ofNat 64 (wordAt s1 pa 8)) = false)
    (hmark : fld (BitVec.ofNat 64 (wordAt s1 (pa + 8) 8)) 48 15 = 0) :
    publish i final a b s = .next (advance (publishAt s1.me.ctx (.mem pa m) final (gR b s).toNat false s1)) := by
  have hwords : (!lwReserved (BitVec.ofNat 64 (wordAt s1 pa 8)) && fld (BitVec.ofNat 64 (wordAt s1 (pa + 8) 8)) 48 15 == 0) = true := by
    rw [hlatch, hmark]
    rfl
  rw [publish, deliverStores_quiet s hs, Res.bind, require, if_pos (publishable_iff.2 ⟨ha, hb⟩), Res.bind, pendingRemote_none hs.remote]
  dsimp only
  rw [hplace.2.2]
  dsimp only
  rw [latchPlace_own hplace ht hown, Res.bind, ownFirst_quiet _ s1 hs1, Res.bind, goodData, hgood, Res.bind, publicationAt_mem]
  dsimp only
  rw [hwords, require, if_pos rfl, Res.bind, releaseEffects, releaseAt_quiet _ _ _ _ s1 hs1]
  rfl

variable {e : Nat} (he : routeOf s.me.ctx (gR a s).toNat s = some e)
include he

theorem publish_unrouted {x : XFault} (hx : routed .atomic e s = .error x) : publish i final a b s = .next (xlate .atomic (gR a s) x s) := by
  rw [publish, deliverStores_quiet s hs, Res.bind, require, if_pos (publishable_iff.2 ⟨ha, hb⟩), Res.bind, pendingRemote_none hs.remote]
  dsimp only
  rw [he]
  dsimp only
  rw [hx]
  rfl

theorem publish_far {y : Target} (hy : routed .atomic e s = .ok y) : publish i final a b s = .next (remoteCall e (gR a s) (.pubhw final (gR b s)) s) := by
  rw [publish, deliverStores_quiet s hs, Res.bind, require, if_pos (publishable_iff.2 ⟨ha, hb⟩), Res.bind, pendingRemote_none hs.remote]
  dsimp only
  rw [he]
  dsimp only
  rw [hy]
  dsimp only
  rw [releaseWrites_quiet _ _ _ _ s hs, remoteBusy_quiet s hs]
  rfl

end

theorem deliverStores_called {m : RemoteMsg} (hs : Claims.Settled s) (hm : m.store = none) : deliverStores (called m s) = .ok () (called m s) := by
  have haway : storesAway (called m s) = false := by simp [storesAway, called, hm]
  rw [deliverStores_still (still_called hs m), haway, if_neg Bool.false_ne_true]

end

/-! ## Queues and their slots (R317, R318, R321) -/

theorem homePut_dies (b : ByteWrite) (s : State) : (homePut b s).dies = s.dies := by
  unfold homePut
  split
  · rfl
  · exact modCore_dies _ _ _

theorem queues_apart : ApartFromTraffic Die.queues := ⟨fun _ _ => rfl, fun _ _ => rfl, fun _ _ => rfl⟩

/-- A write at its home leaves every die's queues. -/
theorem queues_homeBytes (wb : Bool) (bs : List ByteWrite) (s : State) : EachDie Die.queues s (homeBytes wb bs s) := by
  have hsame {s t : State} (h : t.dies = s.dies) : EachDie Die.queues s t := fun _ => by rw [h]
  have hpersist {d : Nat} {s : State} : EachDie Die.queues s (persistEntry d bs s) := .ite .refl (.modDie fun _ => rfl)
  unfold homeBytes
  extract_lets s1 s2 s3
  have h1 : EachDie Die.queues s s1 := .trans (.foldl (fun s b => hsame (homePut_dies b s)) _ _) (hsame (mendWords_dies _ _))
  have h2 : EachDie Die.queues s1 s2 := .trans (.trans (.trans hpersist hpersist) hpersist) hpersist
  have h3 : EachDie Die.queues s2 s3 := .ite (hsame (ownHost_dies _ _)) .refl
  exact .trans (.trans (.trans h1 h2) h3) (hsame (wakes_dies bs s3))

theorem queueAt_homeWrite (ctx : Nat) (wb : Bool) (bs : List ByteWrite) (s : State) (d k : Nat) : queueAt d k (homeWrite ctx wb bs s) = queueAt d k s := by
  have hcount : EachDie Die.queues s (l2Writes ctx wb (memMasks bs) s) := .foldl (fun _ _ => queues_apart.l2Access) _ _
  have h := (hcount.trans (queues_homeBytes wb bs _)) (fin 4 (by decide) d)
  rw [queueAt, queueAt, dieAt, dieAt]
  exact congrArg (fun qs : Vector HwQueue 64 => qs[fin 64 (by decide) k]) h

theorem queueAt_modQueue (d k : Nat) (f : HwQueue → HwQueue) (s : State) : queueAt d k (modQueue d k f s) = f (queueAt d k s) := by simp [queueAt, modQueue, dieAt_modDie]

/-- The bytes of a record in its slot, whose last word is 0 (R318). -/
def launchBytes (r : List Word) : List (BitVec 8) := (r.take 15 ++ [(0 : Word)]).flatMap fun w => bytesOf 8 w.toNat

theorem flatMap_words_length (ws : List Word) : (ws.flatMap fun w => bytesOf 8 w.toNat).length = 8 * ws.length := by
  induction ws with
  | nil => rfl
  | cons w ws ih => rw [List.flatMap_cons, List.length_append, bytesOf_length, ih, List.length_cons, Nat.mul_succ, Nat.add_comm]

theorem launchBytes_length {r : List Word} (hr : r.length = 16) : (launchBytes r).length = 128 := by
  rw [launchBytes, flatMap_words_length, List.length_append, List.length_take, hr]
  rfl

section
variable {d k : Nat} {r : List Word} {s : State}

theorem putSlot_eq : putSlot d k r s =
    modQueue d k (fun x => { x with tail := (x.tail + 1) % 2 ^ 32 }) (homeWrite s.me.ctx true (memBytes (slotAddr (queueAt d k s) (queueAt d k s).tail) (launchBytes r)) s) := rfl

theorem putSlot_me : (putSlot d k r s).me = s.me := homeWrite_me _ _ _ _

theorem putSlot_queue : queueAt d k (putSlot d k r s) = { queueAt d k s with tail := ((queueAt d k s).tail + 1) % 2 ^ 32 } := by
  rw [putSlot_eq, queueAt_modQueue, queueAt_homeWrite]

theorem putSlot_memory (hs : s.mem.wf = true) (hr : r.length = 16) : let pa := slotAddr (queueAt d k s) (queueAt d k s).tail
    SameOutside pa 128 s (putSlot d k r s) ∧ (putSlot d k r s).mem.getN pa 120 = (r.take 15).flatMap fun w => bytesOf 8 w.toNat := by
  intro pa
  obtain ⟨hrun, hrest⟩ := homeWrite_run hs s.me.ctx true pa (launchBytes r)
  rw [launchBytes_length hr] at hrun hrest
  have htwo : launchBytes r = ((r.take 15).flatMap fun w => bytesOf 8 w.toNat) ++ bytesOf 8 0 := by rw [launchBytes, List.flatMap_append]; rfl
  have hfirst : ((r.take 15).flatMap fun w => bytesOf 8 w.toNat).length = 120 := by rw [flatMap_words_length, List.length_take, hr]; rfl
  exact ⟨hrest, (getN_of_append (j := 120) (k := 8) (hrun.trans htwo) hfirst).1⟩

end

/-! ## LAUNCH (R303) -/

theorem wordsOf_length (n : Nat) (bs : List (BitVec 8)) : (wordsOf n bs).length = n := by
  induction n generalizing bs with
  | zero => rfl
  | succ n ih => rw [wordsOf, List.length_cons, ih]

theorem loadRecord_length {va : Word} {r : List Word} {s s1 : State} (h : loadRecord va s = .ok r s1) : r.length = 16 := by
  unfold loadRecord at h
  split at h
  · cases h
  · unfold goodData at h
    split at h
    · cases h
    · dsimp only [Res.bind] at h
      cases h
      exact wordsOf_length _ _

/-- What LAUNCH does to the queues and their slots, by its status. -/
def launched (die k st : Nat) (r : List Word) (s : State) : State :=
  if st = 0 then putSlot die k r s else if st = 2 then modQueue die k (fun q => { q with dberr := true }) s else s

theorem launched_me (die k st : Nat) (r : List Word) (s : State) : (launched die k st r s).me = s.me := by
  unfold launched
  split
  · exact putSlot_me
  · split <;> rfl

section
variable {d a b : GReg} {s : State} (hs : Claims.Settled s)
include hs

theorem execLaunch_illegal (h : (gR a s).toNat % 128 ≠ 0 ∨ 64 ≤ (gR b s).toNat) : exec (.launch d a b) s = .next (illop (.launch d a b) 0 s) := by
  have hbad : ((gR a s).toNat % 128 == 0 && fld (gR b s) 6 58 == 0) = false := by
    have := (gR b s).isLt
    rw [Bool.and_eq_false_iff, beq_eq_false_iff_ne, beq_eq_false_iff_ne, fld, field]
    omega
  dsimp only [exec, execLaunch]
  rw [deliverStores_quiet s hs, Res.bind, require, hbad, if_neg Bool.false_ne_true]
  rfl

theorem execLaunch_reads (ha : (gR a s).toNat % 128 = 0) (hb : (gR b s).toNat < 64) {r : List Word} {s1 : State} (hr : loadRecord (gR a s) s = .ok r s1) :
    exec (.launch d a b) s = .next (advance (setG d (wd (launchStatus r (queueAt (dieOfMesh s1.me.mesh) (gR b s).toNat s1) s1))
      (launched (dieOfMesh s1.me.mesh) (gR b s).toNat (launchStatus r (queueAt (dieOfMesh s1.me.mesh) (gR b s).toNat s1) s1) r s1))) := by
  have hgood : ((gR a s).toNat % 128 == 0 && fld (gR b s) 6 58 == 0) = true := by
    rw [Bool.and_eq_true, beq_iff_eq, beq_iff_eq, fld, field]
    omega
  dsimp only [exec, execLaunch]
  rw [deliverStores_quiet s hs, Res.bind, require, hgood, if_pos rfl, Res.bind, fenceRelease_quiet _ _ _ s hs, Res.bind, hr]
  rfl

end

end Sys2Proof.Machine

namespace Sys2Proof.Claims

open Sys2Proof.Machine Sys2Proof.Laws

theorem pubhw_here {s s1 : State} {a b : GReg} {pa : Nat} {m : MemType} {i : Instr} {final : Bool} (hi : i = .pubhw a b ∧ final = false ∨ i = .pubhwFin a b ∧ final = true) (hs : Settled s)
    (hplace : LatchPlace 16 (gR a s) s) (hb : (gR b s).toNat < 2 ^ 48) (ht : translate (reqOf s.me) .atomic 8 (gR a s) s = (.ok (.mem pa m), s1)) (hown : ownMemory pa = true)
    (hs1 : Settled s1) (hme : s1.me = s.me) (hgood : badAt (locsAt (.mem pa m) 16) s1 = none) : let w : Word := BitVec.ofNat 64 (wordAt s1 pa 8)
    let h : Word := BitVec.ofNat 64 (wordAt s1 (pa + 8) 8)
    lwReserved w = false → fld h 48 15 = 0 →
    ∃ t, exec i s = .next t ∧ t.me = (advance s).me ∧ SameOutside pa 16 s1 t ∧
      wordAt t pa 8 = (fld w 40 24 + 1) % 2 ^ 24 * 2 ^ 40 + fld w 0 40 ∧
      wordAt t (pa + 8) 8 = max (fld h 0 48) (gR b s).toNat + (if h.getLsbD 63 || final then 2 ^ 63 else 0) := by
  intro w h hlatch hmark
  have hwf := hs1.kept.mem
  have hhomes := publishAt_homes s1.me.ctx pa m final (gR b s).toNat false s1
  have hlatch' := publishAt_latch s1.me.ctx pa m final (gR b s).toNat false hwf
  have hmark' := publishAt_mark s1.me.ctx pa m final (gR b s).toNat false hwf hb
  have hrest := (publishAt_run s1.me.ctx pa m final (gR b s).toNat false hwf).2
  rw [exec_publish hi, publish_here hplace.1 hb hs hplace ht hown hs1 hgood hlatch hmark]
  exact ⟨_, rfl, by rw [advance_me, advance_me, hhomes.me_eq, hme], hrest, hlatch', hmark'⟩

theorem pubhw_far {s : State} {a b : GReg} {i : Instr} {final : Bool} (hi : i = .pubhw a b ∧ final = false ∨ i = .pubhwFin a b ∧ final = true) (hs : Settled s)
    (ha : (gR a s).toNat % 16 = 0) (hb : (gR b s).toNat < 2 ^ 48) {e : Nat} (he : routeOf s.me.ctx (gR a s).toNat s = some e) :
    (∀ x, routed .atomic e s = .error x → exec i s = .next (xlate .atomic (gR a s) x s)) ∧
    (∀ y, routed .atomic e s = .ok y → ∃ t msg, exec i s = .next t ∧ t.me = { s.me with call := some s.remoteNext } ∧ t.mem = s.mem ∧ t.remote = [msg] ∧ msg.id = s.remoteNext ∧
      msg.mesh = s.me.mesh ∧ msg.sid = s.me.sid ∧ msg.access.va = gR a s ∧ msg.access.op = .pubhw final (gR b s) ∧ msg.reply = none ∧ msg.store = none) := by
  rw [exec_publish hi]
  refine ⟨fun x hx => publish_unrouted ha hb hs he hx, fun y hy => ?_⟩
  obtain ⟨hme, hmem, msg, hremote, hmsg⟩ := remoteCall_sends hs.remote e (gR a s) (.pubhw final (gR b s))
  exact ⟨_, msg, publish_far ha hb hs he hy, hme, hmem, hremote, hmsg.id, hmsg.mesh, hmsg.sid, hmsg.va, hmsg.op, hmsg.reply, hmsg.store⟩

theorem pubhw_replied {s : State} {a b : GReg} {i : Instr} {final : Bool} (hi : i = .pubhw a b ∧ final = false ∨ i = .pubhwFin a b ∧ final = true) (hs : Settled s)
    (ha : (gR a s).toNat % 16 = 0) (hb : (gR b s).toNat < 2 ^ 48) (m : RemoteMsg) (hm : m.store = none) : let u := called m s
    let v : State := { s with me := { s.me with call := none } }
    (m.reply = none → exec i u = .next u) ∧
    (m.reply = some .done → exec i u = .next (advance v)) ∧
    (∀ sub, m.reply = some (.fault sub) → exec i u = .next (xlate .atomic (gR a s) ⟨sub, 0, 0, false⟩ v)) ∧
    (m.reply = some .illegal → exec i u = .next (illop i 0 v)) := by
  intro u v
  have hend : endCall m (called m s) = uncalled s := endCall_called hs.remote m
  rw [← gR_called a m s] at ha
  rw [← gR_called b m s] at hb
  rw [exec_publish hi, publish_called ha hb (deliverStores_called hs hm) (pendingRemote_called m s), gR_called, remoteAnswer, hend]
  refine ⟨fun h => ?_, fun h => ?_, fun sub h => ?_, fun h => ?_⟩
  all_goals
    rw [h]
    rfl

theorem launch_answers {s : State} (hs : Settled s) {d a b : GReg} (ha : (gR a s).toNat % 128 = 0) (hb : (gR b s).toNat < 64) {r : List Word} {s1 : State}
    (hr : loadRecord (gR a s) s = .ok r s1) (hme : s1.me = s.me) : let die := s.me.mesh / 384
    let k := (gR b s).toNat
    let q := queueAt die k s1
    let st := launchStatus r q s1
    ∃ t, exec (.launch d a b) s = .next t ∧ t.me = (advance (setG d (BitVec.ofNat 64 st) s)).me ∧
      (st = 0 → queueAt die k t = { q with tail := (q.tail + 1) % 2 ^ 32 } ∧ SameOutside (slotAddr q q.tail) 128 s1 t ∧
        t.mem.getN (slotAddr q q.tail) 120 = (r.take 15).flatMap fun w => bytesOf 8 w.toNat) ∧
      (st = 2 → queueAt die k t = { q with dberr := true } ∧ t.mem = s1.mem) ∧ (st ≠ 0 → st ≠ 2 → queueAt die k t = q ∧ t.mem = s1.mem) := by
  intro die k q st
  have hdie : dieOfMesh s1.me.mesh = die := by rw [hme]; rfl
  have hrun := execLaunch_reads (d := d) (b := b) hs ha hb hr
  rw [hdie] at hrun
  have hwf : s1.mem.wf = true := by
    have hkept := loadRecord_kept (va := gR a s) hs.kept
    rw [hr] at hkept
    exact hkept.mem
  have hqueue : queueAt die k (advance (setG d (wd st) (launched die k st r s1))) = queueAt die k (launched die k st r s1) := by
    rw [queueAt, queueAt, dieAt, dieAt, advance_dies, setG_dies]
  have hmem : (advance (setG d (wd st) (launched die k st r s1))).mem = (launched die k st r s1).mem := by rw [advance_mem, setG_mem]
  refine ⟨_, hrun, advance_setG_me ((launched_me _ _ _ _ _).trans hme) _ _, fun h0 => ?_, fun h2 => ?_, fun h0 h2 => ?_⟩
  · have hput : launched die k st r s1 = putSlot die k r s1 := if_pos h0
    rw [hqueue, hmem, hput]
    obtain ⟨hrest, hslot⟩ := putSlot_memory (d := die) (k := k) hwf (loadRecord_length hr)
    exact ⟨putSlot_queue, fun x hx => by rw [advance_mem, setG_mem]; exact hrest x hx, hslot⟩
  · have herr : launched die k st r s1 = modQueue die k (fun q => { q with dberr := true }) s1 := by rw [launched, h2]; rfl
    rw [hqueue, hmem, herr]
    exact ⟨queueAt_modQueue _ _ _ _, rfl⟩
  · have hsame : launched die k st r s1 = s1 := by rw [launched, if_neg h0, if_neg h2]
    rw [hqueue, hmem, hsame]
    exact ⟨rfl, rfl⟩

/-- Settles O37: a publication here, in another package, and as its reply ends it, and a device launch by its status. -/
theorem publicationsAndLaunches : Obligations.PublicationsAndLaunches := by
  unfold Obligations.PublicationsAndLaunches
  refine ⟨fun s s1 a b pa m i final hi hs => ⟨fun h => ?_, fun ha hb hwindow hroute ht hown hs1 hme hgood => pubhw_here hi hs ⟨ha, hwindow, hroute⟩ hb ht hown hs1 hme hgood⟩,
    fun s a b i final hi hs ha hb => ⟨fun e he => pubhw_far hi hs ha hb he, fun m hm => pubhw_replied hi hs ha hb m hm⟩,
    fun s d a b hs => ⟨execLaunch_illegal hs, fun ha hb r s1 hr hme => launch_answers hs ha hb hr hme⟩⟩
  rw [exec_publish hi, publish_illegal (deliverStores_quiet s hs) h]

end Sys2Proof.Claims
end

section
/-! Chain ports (O60): ports and flits, accesses that arrive, and replies (R120, R381, R382). -/

namespace Sys2Proof.Machine

open Sys2Proof.Claims Sys2Proof.Laws

/-! ## Ports (R381) -/

/-- A die with a port in place of one of its own. -/
def withPort (d p : Fin 4) (y : Port) (s : State) : State := withDie d { s.dies[d] with ports := s.dies[d].ports.set p y } s

theorem modPort_withPort {k l : Nat} {d p : Fin 4} (hk : k % 4 = d.1) (hl : l % 4 = p.1) (f : Port → Port) (s : State) : modPort k l f s = withPort d p (f s.dies[d].ports[p]) s := by
  have hd : fin 4 (by decide) k = d := Fin.ext hk
  have hp : fin 4 (by decide) l = p := Fin.ext hl
  simp only [modPort, modDie, hd, hp]
  rfl

theorem withPort_same (d p : Fin 4) (s : State) : withPort d p s.dies[d].ports[p] s = s := by
  have hports : s.dies[d].ports.set p s.dies[d].ports[p] = s.dies[d].ports := Vector.set_getElem_self p.2
  have hdies : s.dies.set d s.dies[d] = s.dies := Vector.set_getElem_self d.2
  rw [withPort, withDie, hports]
  exact congrArg (fun ds => { s with dies := ds }) hdies

section
variable (s : State) (d p : Fin 4)

theorem exec_linkChange (up : Bool) (nbr : BitVec 12) :
    exec (.chainPortLinkChange d p up nbr) s = .next (withPort d p { s.dies[d].ports[p] with up := up, nbr := nbr.toNat } s) := by
  dsimp only [exec, execChainPortLinkChange]
  rw [if_pos ⟨d.2, p.2⟩, modPort_withPort (Nat.mod_eq_of_lt d.2) (Nat.mod_eq_of_lt p.2)]

theorem exec_flitTimeout : exec (.flitTimeout d p) s = .next (withPort d p (flitLeft s.dies[d].cycle s.dies[d].ports[p]) s) := by
  have hd : dieAt d s = s.dies[d] := congrArg (fun i : Fin 4 => s.dies[i]) (Fin.ext (Nat.mod_eq_of_lt d.2))
  dsimp only [exec, execFlitTimeout]
  rw [if_pos ⟨d.2, p.2⟩, modPort_withPort (Nat.mod_eq_of_lt d.2) (Nat.mod_eq_of_lt p.2), hd]

theorem flitTimeout_leaves (hf : s.dies[d].ports[p].flit ≠ []) (ht : s.dies[d].ports[p].since + 64 ≤ s.dies[d].cycle) :
    exec (.flitTimeout d p) s = .next (withPort d p { s.dies[d].ports[p] with flit := [], sent := s.dies[d].ports[p].sent + 1 } s) := by
  rw [exec_flitTimeout, flitLeft, if_pos ⟨hf, ht⟩]

theorem flitTimeout_stays (h : s.dies[d].ports[p].flit = [] ∨ s.dies[d].cycle < s.dies[d].ports[p].since + 64) : exec (.flitTimeout d p) s = .next s := by
  have hno : ¬(s.dies[d].ports[p].flit ≠ [] ∧ s.dies[d].ports[p].since + 64 ≤ s.dies[d].cycle) := by
    rw [not_and_or, not_not, Nat.not_le]
    exact h
  rw [exec_flitTimeout, flitLeft, if_neg hno, withPort_same]

end

/-! ## Accesses that arrive -/

/-- A reply sent. -/
def replied (k : ReplyKind) (s : State) : State := { s with replies := s.replies ++ [k] }

/-- The state in which an access that arrives is performed: the first of a flit is counted at its port. -/
def atArrival (port : Fin 16) (first : Bool) (s : State) : State :=
  if first then withPort ⟨port.1 / 4, by omega⟩ ⟨port.1 % 4, by omega⟩
    { s.dies[port.1 / 4].ports[port.1 % 4] with received := s.dies[port.1 / 4].ports[port.1 % 4].received + 1 } s
  else s

theorem exec_arrival {port : Fin 16} {first : Bool} {r : RemoteAccess} {s v : State} {k : ReplyKind}
    (h : arrive (arrivalReq port.1 r.ctx (atArrival port first s)) r (atArrival port first s) = (k, v)) : exec (.remoteAccessArrival port.1 first r) s = .next (replied k v) := by
  have hport : (if first then modPort (port.1 / 4) port.1 (fun p => { p with received := p.received + 1 }) s else s) = atArrival port first s := by
    have hdie : port.1 / 4 % 4 = port.1 / 4 := by omega
    rw [atArrival, modPort_withPort (d := ⟨port.1 / 4, by omega⟩) (p := ⟨port.1 % 4, by omega⟩) hdie rfl]
    rfl
  dsimp only [exec, execRemoteAccessArrival]
  rw [hport, h]
  rfl

/-! ## Stores that arrive (R100, R120) -/

section
variable {rq : Req} {va : Word} {bytes : List (BitVec 8)} {s v : State} (hn : bytes ≠ [])
include hn

section
variable (ha : va.toNat % bytes.length = 0)
include ha

theorem arriveStore_fault {x : Nat} (ht : arrivalTarget rq .store bytes.length va s = (.error x, v)) : arriveStore rq va bytes s = (.fault x, v) := by
  unfold arriveStore
  dsimp only
  rw [if_neg (mt List.length_eq_zero_iff.1 hn), if_pos ha, ht]

theorem arriveStore_mem {pa : Nat} {m : MemType} (hm : m ≠ .ctl) (ht : arrivalTarget rq .store bytes.length va s = (.ok (.mem pa m), v)) :
    arriveStore rq va bytes s = (.done, homeWrite rq.ctx (targetWb (.mem pa m)) (memBytes pa bytes) v) := by
  have hput : putAt (locsAt (.mem pa m) bytes.length) bytes = memBytes pa bytes := by rw [locsAt_mem, putAt_memLocs]
  unfold arriveStore
  dsimp only
  rw [if_neg (mt List.length_eq_zero_iff.1 hn), if_pos ha, ht, ← hput]
  cases m
  case ctl => exact absurd rfl hm
  all_goals rfl

end

/-- The bytes that arrive one by one, each performed at its home. -/
def arriveBytes (ctx : Nat) (ps : List (Target × BitVec 8)) (s : State) : State := ps.foldl (fun s p => arriveByte ctx p.1 p.2 s) s

theorem arriveStore_bytes (ha : va.toNat % bytes.length ≠ 0) {ts : List Target} (ht : arrivalTargets rq bytes.length va s = (.ok ts, v)) :
    arriveStore rq va bytes s = (.done, arriveBytes rq.ctx (ts.zip bytes) v) := by
  unfold arriveStore
  dsimp only
  rw [if_neg (mt List.length_eq_zero_iff.1 hn), if_neg ha, ht]
  rfl

end

theorem arriveStore_byteFault {rq : Req} {va : Word} {bytes : List (BitVec 8)} {s v : State} {x : Nat} (ha : va.toNat % bytes.length ≠ 0)
    (ht : arrivalTargets rq bytes.length va s = (.error x, v)) : arriveStore rq va bytes s = (.fault x, v) := by
  have hn : bytes.length ≠ 0 := by
    intro h
    rw [h] at ht
    cases ht
  unfold arriveStore
  dsimp only
  rw [if_neg hn, if_neg ha, ht]

section
variable {ctx : Nat} {s : State}

theorem homePut_replies (b : ByteWrite) (s : State) : (homePut b s).replies = s.replies := by
  unfold homePut
  split
  · rfl
  · exact modCore_replies _ _ _

theorem homeBytes_replies (wb : Bool) (bs : List ByteWrite) (s : State) : (homeBytes wb bs s).replies = s.replies := by
  rw [homeBytes_after]
  dsimp only
  induction bs generalizing s with
  | nil => rfl
  | cons b bs ih => exact (ih _).trans (homePut_replies b s)

theorem arriveByte_rest (t : Target) (b : BitVec 8) : (arriveByte ctx t b s).me = s.me ∧ (arriveByte ctx t b s).replies = s.replies :=
  ⟨homeWrite_me _ _ _ _, (homeBytes_replies _ _ _).trans (by rw [(l2Writes_only _ _ _ _).same])⟩

theorem arriveBytes_rest (ps : List (Target × BitVec 8)) : (arriveBytes ctx ps s).me = s.me ∧ (arriveBytes ctx ps s).replies = s.replies := by
  induction ps generalizing s with
  | nil => exact ⟨rfl, rfl⟩
  | cons p ps ih =>
    obtain ⟨hme, hreplies⟩ := arriveByte_rest (ctx := ctx) (s := s) p.1 p.2
    exact ⟨ih.1.trans hme, ih.2.trans hreplies⟩

/-- One byte of memory that arrives. -/
theorem arriveByte_mem (hs : s.wellKept) (pa : Nat) (m : MemType) (b : BitVec 8) (a : Nat) : (arriveByte ctx (.mem pa m) b s).mem.get a = if a = pa then b else s.mem.get a := by
  have hmem : s.mem.wf = true := hs.mem
  obtain ⟨hrun, hrest⟩ := homeWrite_run hmem ctx (targetWb (.mem pa m)) pa [b]
  by_cases h : a = pa
  · subst h
    rw [if_pos rfl]
    exact (List.cons.inj hrun).1
  · rw [if_neg h]
    exact hrest a (by rw [List.length_singleton]; omega)

/-- The places of bytes in memory, as targets. -/
def memPlaces (pas : List (Nat × MemType)) : List Target := pas.map fun p => .mem p.1 p.2

theorem arriveBytes_other {pas : List (Nat × MemType)} {bytes : List (BitVec 8)} (hs : s.wellKept) {a : Nat} (ha : ∀ p ∈ pas, a ≠ p.1) :
    (arriveBytes ctx ((memPlaces pas).zip bytes) s).mem.get a = s.mem.get a := by
  induction pas generalizing s bytes with
  | nil => rfl
  | cons p pas ih =>
    cases bytes with
    | nil => rfl
    | cons b bytes =>
      refine (ih (s := arriveByte ctx (.mem p.1 p.2) b s) (arriveByte_kept hs) fun q hq => ha q (List.mem_cons_of_mem _ hq)).trans ?_
      rw [arriveByte_mem hs, if_neg (ha p List.mem_cons_self)]

theorem arriveBytes_at {pas : List (Nat × MemType)} {bytes : List (BitVec 8)} (hs : s.wellKept) (hd : pas.Pairwise fun x y => x.1 ≠ y.1) {k : Nat} {p : Nat × MemType} {b : BitVec 8}
    (hp : pas[k]? = some p) (hb : bytes[k]? = some b) : (arriveBytes ctx ((memPlaces pas).zip bytes) s).mem.get p.1 = b := by
  induction pas generalizing s bytes k with
  | nil => cases hp
  | cons q pas ih =>
    obtain ⟨hq, hd⟩ := List.pairwise_cons.1 hd
    cases bytes with
    | nil => cases hb
    | cons c bytes =>
      cases k with
      | zero =>
        cases hp
        cases hb
        refine (arriveBytes_other (s := arriveByte ctx (.mem p.1 p.2) b s) (arriveByte_kept hs) hq).trans ?_
        rw [arriveByte_mem hs, if_pos rfl]
      | succ k => exact ih (s := arriveByte ctx (.mem q.1 q.2) c s) (arriveByte_kept hs) hd hp hb

end

/-! ## Publications that arrive (R108, R120, R302) -/

section
variable {rq : Req} {va : Word} {final : Bool} {n : Nat} {s v : State}

theorem arrivePublication_illegal (h : ¬(va.toNat % 16 = 0 ∧ (fld va 57 7 ≠ 0 ∨ inWindow va.toNat = false))) : arrivePublication rq va final n s = (.illegal, s) := by
  have hplace : va.toNat % 16 ≠ 0 ∨ (fld va 57 7 = 0 ∧ inWindow va.toNat = true) := by
    rwa [not_and_or, not_or, not_not, Bool.not_eq_false] at h
  rw [arrivePublication, if_pos hplace]

variable (h : va.toNat % 16 = 0 ∧ (fld va 57 7 ≠ 0 ∨ inWindow va.toNat = false))
include h

theorem not_illPlaced : ¬(va.toNat % 16 ≠ 0 ∨ (fld va 57 7 = 0 ∧ inWindow va.toNat = true)) := by
  rw [not_or, not_not, not_and_or, Bool.not_eq_true]
  exact h

theorem arrivePublication_fault {x : Nat} (ht : arrivalTarget rq .atomic 8 va s = (.error x, v)) : arrivePublication rq va final n s = (.fault x, v) := by
  rw [arrivePublication, if_neg (not_illPlaced h), ht]

theorem arrivePublication_mem {pa : Nat} {m : MemType} (ht : arrivalTarget rq .atomic 8 va s = (.ok (.mem pa m), v)) : arrivePublication rq va final n s =
    if ownMemory pa = true ∧ lwReserved (BitVec.ofNat 64 (wordAt v pa 8)) = false ∧ fld (BitVec.ofNat 64 (wordAt v (pa + 8) 8)) 48 15 = 0 then
      (.done, publishAt rq.ctx (.mem pa m) final n true v) else (.illegal, v) := by
  rw [arrivePublication, if_neg (not_illPlaced h), ht]
  dsimp only
  rw [publicationAt_mem, targetPa]
  dsimp only
  cases ownMemory pa <;> cases lwReserved (BitVec.ofNat 64 (wordAt v pa 8)) <;> simp [bne, ite_not]

end

end Sys2Proof.Machine
end

section
/-! What arrivals answer, replies, and the statement of the chain ports (O60; R120, R341, R381, R382). -/

namespace Sys2Proof.Machine

open Sys2Proof.Claims Sys2Proof.Laws

/-! ## What an arrival answers -/

section
variable {rq : Req} {r : RemoteAccess} {s v : State}

section
variable {bytes : List (BitVec 8)} (hr : r.op = .store bytes) (hn : bytes ≠ [])
include hr

theorem arrive_store : arrive rq r s = arriveStore rq r.va bytes s := by rw [arrive, hr]

include hn

theorem arrive_storeMem {pa : Nat} {m : MemType} (ha : r.va.toNat % bytes.length = 0) (ht : arrivalTarget rq .store bytes.length r.va s = (.ok (.mem pa m), v)) (hm : m ≠ .ctl) (hv : v.wellKept) :
    ∃ t, arrive rq r s = (.done, t) ∧ t.replies = v.replies ∧ t.mem.getN pa bytes.length = bytes ∧ SameOutside pa bytes.length v t ∧ t.me = v.me := by
  have hhomes := onlyHomes_run rq.ctx (targetWb (.mem pa m)) pa bytes v
  obtain ⟨hrun, hrest⟩ := homeWrite_run hv.mem rq.ctx (targetWb (.mem pa m)) pa bytes
  exact ⟨_, (arrive_store hr).trans (arriveStore_mem hn ha hm ht), hhomes.replies_eq, hrun, hrest, hhomes.me_eq⟩

theorem arrive_storeBytes {ts : List Target} (ha : r.va.toNat % bytes.length ≠ 0) (ht : arrivalTargets rq bytes.length r.va s = (.ok ts, v)) :
    arrive rq r s = (.done, arriveBytes rq.ctx (ts.zip bytes) v) := (arrive_store hr).trans (arriveStore_bytes hn ha ht)

end

section
variable {op : Nat} {uns : Bool} {n : Nat} {operand expect : Word} (hr : r.op = .amo op uns n operand expect)
include hr

theorem arrive_amoFault {x : Nat} (ht : arrivalTarget rq .atomic n r.va s = (.error x, v)) : arrive rq r s = (.fault x, v) := by
  rw [arrive, hr]
  dsimp only
  rw [ht]

theorem arrive_amoMem {pa : Nat} {m : MemType} (hn : n = 4 ∨ n = 8) (ht : arrivalTarget rq .atomic n r.va s = (.ok (.mem pa m), v)) (hv : v.wellKept) :
    let old : Word := BitVec.ofNat 64 (wordAt v pa n)
    ∃ t, arrive rq r s = (.value old, t) ∧ t.replies = v.replies ∧ wordAt t pa n = (amoNew (amoOfCode op) uns n operand expect old).toNat ∧ SameOutside pa n v t ∧ t.me = v.me := by
  intro old
  have hhomes := OnlyHomes.rmwAt (s := v) rq.ctx n (amoNew (amoOfCode op) uns n operand expect) pa m
  have hsize : n ≤ 8 := by omega
  obtain ⟨-, hlt⟩ := amoNew_toNat (amoOfCode op) uns hsize (wordAt_lt v pa n) operand expect
  have harrive : arrive rq r s = (.value old, (rmwAt rq.ctx (.mem pa m) n (amoNew (amoOfCode op) uns n operand expect) v).2) := by
    rw [arrive, hr]
    dsimp only
    rw [ht]
    dsimp only
    rw [rmwAt_old]
  exact ⟨_, harrive, hhomes.replies_eq, (wordAt_rmwAt _ _ _ hv.mem pa m).trans (Nat.mod_eq_of_lt hlt), rmwAt_outside _ _ _ hv.mem pa m, hhomes.me_eq⟩

end

section
variable {final : Bool} {n : Word} (hr : r.op = .pubhw final n)
include hr

theorem arrive_publication : arrive rq r s = arrivePublication rq r.va final n.toNat s := by rw [arrive, hr]

variable (hp : r.va.toNat % 16 = 0 ∧ (fld r.va 57 7 ≠ 0 ∨ inWindow r.va.toNat = false)) {pa : Nat} {m : MemType} (ht : arrivalTarget rq .atomic 8 r.va s = (.ok (.mem pa m), v))
include hp ht

theorem arrive_publicationRefused (hg : ¬(ownMemory pa = true ∧ lwReserved (BitVec.ofNat 64 (wordAt v pa 8)) = false ∧ fld (BitVec.ofNat 64 (wordAt v (pa + 8) 8)) 48 15 = 0)) :
    arrive rq r s = (.illegal, v) := by rw [arrive_publication hr, arrivePublication_mem hp ht, if_neg hg]

theorem arrive_publicationMade (hg : ownMemory pa = true ∧ lwReserved (BitVec.ofNat 64 (wordAt v pa 8)) = false ∧ fld (BitVec.ofNat 64 (wordAt v (pa + 8) 8)) 48 15 = 0)
    (hn : n.toNat < 2 ^ 48) (hv : v.wellKept) :
    ∃ t, arrive rq r s = (.done, t) ∧ t.replies = v.replies ∧ t.me = v.me ∧ SameOutside pa 16 v t ∧
      wordAt t pa 8 = (fld (BitVec.ofNat 64 (wordAt v pa 8)) 40 24 + 1) % 2 ^ 24 * 2 ^ 40 + fld (BitVec.ofNat 64 (wordAt v pa 8)) 0 40 ∧
      wordAt t (pa + 8) 8 = max (fld (BitVec.ofNat 64 (wordAt v (pa + 8) 8)) 0 48) n.toNat + (if (BitVec.ofNat 64 (wordAt v (pa + 8) 8)).getLsbD 63 || final then 2 ^ 63 else 0) := by
  have hhomes := publishAt_homes rq.ctx pa m final n.toNat true v
  obtain ⟨-, hrest⟩ := publishAt_run rq.ctx pa m final n.toNat true hv.mem
  refine ⟨_, ?_, hhomes.replies_eq, hhomes.me_eq, hrest, publishAt_latch rq.ctx pa m final n.toNat true hv.mem, publishAt_mark rq.ctx pa m final n.toNat true hv.mem hn⟩
  rw [arrive_publication hr, arrivePublication_mem hp ht, if_pos hg]

end

end

/-- What is said of the state after an arrival, from what the access answers: the reply is sent, and nothing else is changed. -/
theorem exec_arrives {port : Fin 16} {first : Bool} {r : RemoteAccess} {s v : State} {k : ReplyKind} {P : State → Prop} (hP : ∀ t, P t → P (replied k t))
    (h : ∃ t, arrive (arrivalReq port.1 r.ctx (atArrival port first s)) r (atArrival port first s) = (k, t) ∧ t.replies = v.replies ∧ P t) :
    ∃ t, exec (.remoteAccessArrival port.1 first r) s = .next t ∧ t.replies = v.replies ++ [k] ∧ P t := by
  obtain ⟨t, harrive, hreplies, hp⟩ := h
  exact ⟨_, exec_arrival harrive, congrArg (· ++ [k]) hreplies, hP t hp⟩

/-! ## Replies (R120, R341, R382) -/

/-- The state without the message of a number. -/
def answered (id : Nat) (s : State) : State := { s with remote := s.remote.filter fun x => x.id != id }

theorem recordFault_fun (q : QStore) (k : Nat) : recordFault q k = fun s : State => { s with me := { s.me with
    sfq := s.me.sfq ++ [⟨BitVec.ofNat 64 (q.size * 2 ^ 8 + k), q.va, BitVec.ofNat 64 (q.data.toNat % 2 ^ (8 * q.size)), q.pc⟩]
    stq := s.me.stq.map fun x => { x with defer := x.defer || (decide (x.va.toNat < q.va.toNat + q.size) && decide (q.va.toNat < x.va.toNat + x.size)) }
    doubleFault := s.me.doubleFault || (q.ih && s.me.tstat.getLsbD 1) } } := by
  funext s
  rw [← bit_eq_getLsbD, recordFault, sfRecord, storeBytes_value, Bool.toNat_false, Nat.zero_mul, Nat.zero_add]
  rfl

section
variable {id : Nat} {r : ReplyKind} {s : State}

theorem remoteReply_unknown (h : ∀ m ∈ s.remote, m.id ≠ id) : exec (.remoteReply id r) s = .next s := by
  have hnone : s.remote.find? (fun m => m.id == id) = none := List.find?_eq_none.2 fun m hm => by simpa using h m hm
  dsimp only [exec, execRemoteReply]
  rw [hnone]

variable {m : RemoteMsg} (hm : s.remote.find? (fun m => m.id == id) = some m)
include hm

theorem remoteReply_early (h : inFlit id s = true ∨ m.reply ≠ none) : exec (.remoteReply id r) s = .next s := by
  have hearly : inFlit id s = true ∨ m.reply.isSome = true := h.imp_right Option.isSome_iff_ne_none.2
  dsimp only [exec, execRemoteReply]
  rw [hm]
  dsimp only
  rw [if_pos hearly]

variable (hf : inFlit id s = false) (ha : m.reply = none)
include hf ha

theorem remoteReply_due : exec (.remoteReply id r) s = .next (match m.store, r with
    | some q, .fault sub => if recordRoom m.mesh m.sid s then atStrand m.mesh m.sid (recordFault q sub) (answered id s) else s
    | some _, _ => answered id s
    | none, _ => if awaited m s then { s with remote := s.remote.map fun x => if x.id = id then { x with reply := some r } else x } else answered id s) := by
  have hlate : ¬(inFlit id s = true ∨ m.reply.isSome = true) := by simp [hf, ha]
  dsimp only [exec, execRemoteReply]
  rw [hm]
  dsimp only
  rw [if_neg hlate]
  rfl

theorem remoteReply_storeDone {q : QStore} (hq : m.store = some q) (hr : ∀ k, r ≠ .fault k) : exec (.remoteReply id r) s = .next (answered id s) := by
  rw [remoteReply_due hm hf ha, hq]
  cases r
  case fault k => exact absurd rfl (hr k)
  all_goals rfl

theorem remoteReply_storeFault {q : QStore} {k : Nat} (hq : m.store = some q) :
    exec (.remoteReply id (.fault k)) s = .next (if recordRoom m.mesh m.sid s then atStrand m.mesh m.sid (recordFault q k) (answered id s) else s) := by
  rw [remoteReply_due hm hf ha, hq]

theorem remoteReply_call (hq : m.store = none) :
    exec (.remoteReply id r) s = .next (if awaited m s then { s with remote := s.remote.map fun x => if x.id = id then { x with reply := some r } else x } else answered id s) := by
  rw [remoteReply_due hm hf ha, hq]

end

end Sys2Proof.Machine

namespace Sys2Proof.Claims

open Sys2Proof.Machine

/-- Settles O60: a port's flit by its age; an arrival through what its access answers, case by case of its operation; a reply through the message of its number. -/
theorem chainPorts : Obligations.ChainPorts := by
  unfold Obligations.ChainPorts
  refine ⟨fun s d p => ⟨exec_linkChange s d p, flitTimeout_leaves s d p, flitTimeout_stays s d p⟩, ?_, fun _ _ _ h => remoteReply_unknown h, ?_⟩
  · intro s port first r d p x u rq _
    refine ⟨?_, ?_, ?_, ?_, ?_, ?_⟩
    · intro bytes e v hr hn ha ht
      exact exec_arrival ((arrive_store hr).trans (arriveStore_fault hn ha ht))
    · intro bytes pa m v hr hn ha ht hm hv
      exact exec_arrives (fun _ h => h) (arrive_storeMem hr hn ha ht hm hv)
    · intro op uns size operand expect e v hr ht
      exact exec_arrival (arrive_amoFault hr ht)
    · intro op uns n operand expect pa m v hr hn ht _ hv
      exact exec_arrives (fun _ h => h) (arrive_amoMem hr hn ht hv)
    · intro bytes hr ha
      refine ⟨fun e v ht => exec_arrival ((arrive_store hr).trans (arriveStore_byteFault ha ht)), fun ts v hn ht => ?_, fun pas v hn ht hv _ => ?_⟩
      · obtain ⟨hme, hreplies⟩ := arriveBytes_rest (ctx := rq.ctx) (s := v) (ts.zip bytes)
        exact exec_arrives (fun _ h => h) ⟨_, arrive_storeBytes hr hn ha ht, hreplies, hme⟩
      · exact ⟨_, exec_arrival (arrive_storeBytes hr hn ha ht), fun _ => arriveBytes_other hv, fun hd _ _ _ => arriveBytes_at hv hd⟩
    · intro final n hr place
      refine ⟨fun h => exec_arrival ((arrive_publication hr).trans (arrivePublication_illegal h)), fun hp => ⟨fun e v ht => ?_, fun pa m v ht => ⟨fun hg => ?_, fun hg hn hv => ?_⟩⟩⟩
      · exact exec_arrival ((arrive_publication hr).trans (arrivePublication_fault hp ht))
      · exact exec_arrival (arrive_publicationRefused hr hp ht hg)
      · exact exec_arrives (fun _ h => h) (arrive_publicationMade hr hp ht hg hn hv)
  · intro s id r m hm gone
    refine ⟨remoteReply_early hm, fun hf ha => ⟨fun _ => remoteReply_storeDone hm hf ha, ?_, fun hq => ?_⟩⟩
    · rintro q k hq rfl
      rw [remoteReply_storeFault hm hf ha hq, ← recordFault_fun]
      exact ⟨fun h => by rw [if_neg (by simp [h])], fun h => by rw [if_pos h]; rfl⟩
    · rw [remoteReply_call hm hf ha hq]
      exact ⟨fun h => by rw [if_pos h], fun h => by rw [if_neg (by simp [h])]; rfl⟩

end Sys2Proof.Claims
end
